-- ==== Sys2Proof/Word.lean ====
section
/-!
DEFINITION. The word types of the machine and their plainest arithmetic: bytes, 32-bit register values, 64-bit pairs.
-/

namespace Sys2Proof

/-- One byte. -/
abbrev Byte := BitVec 8
/-- The value of one register-store name in one lane (R52), or of one instruction word (R78). -/
abbrev W32 := BitVec 32
/-- A 64-bit operand or result: a pair of names (R91), an address, a stamp. -/
abbrev W64 := BitVec 64

/-- Bits `[lo + n - 1 : lo]` of a number. -/
abbrev fld (w lo n : Nat) : Nat := w / 2 ^ lo % 2 ^ n

end Sys2Proof
end

