-- ==== Sys2Proof/Machine/Float.lean ====
section
/-!
DEFINITION. Floating point: the formats of R149, exact values, RoundTo (R151), NaN (R154), the sign of zero (R157), the correctly
rounded functions (R158), minimum and maximum (R159), ordered keys (R166). Codes are numbers; values are exact dyadics.
-/

namespace Sys2Proof.Machine

/-! ## Formats and values (R149) -/

/-- A binary format: exponent and fraction widths, bias, the code of the largest finite value, and how it writes NaN and infinity. -/
structure Fmt where
  ebits : Nat
  mant : Nat
  bias : Nat
  /-- Code of the largest finite magnitude. -/
  maxCode : Nat
  /-- Code of infinity, if the format has one. -/
  inf : Option Nat
  /-- The canonical NaN (R154), if the format has one. -/
  nan : Option Nat
deriving DecidableEq, Repr

def Fmt.f64 : Fmt := ⟨11, 52, 1023, 0x7FEFFFFFFFFFFFFF, some 0x7FF0000000000000, some 0x7FF8000000000000⟩
def Fmt.f32 : Fmt := ⟨8, 23, 127, 0x7F7FFFFF, some 0x7F800000, some 0x7FC00000⟩
def Fmt.f16 : Fmt := ⟨5, 10, 15, 0x7BFF, some 0x7C00, some 0x7E00⟩
def Fmt.bf16 : Fmt := ⟨8, 7, 127, 0x7F7F, some 0x7F80, some 0x7FC0⟩
def Fmt.e4m3 : Fmt := ⟨4, 3, 7, 0x7E, none, some 0x7F⟩
def Fmt.e5m2 : Fmt := ⟨5, 2, 15, 0x7B, some 0x7C, some 0x7E⟩
def Fmt.e2m3 : Fmt := ⟨2, 3, 1, 0x1F, none, none⟩
def Fmt.e2m1 : Fmt := ⟨2, 1, 1, 0x7, none, none⟩

/-- The sign bit's weight. -/
def Fmt.signBit (f : Fmt) : Nat := 2 ^ (f.ebits + f.mant)

/-- The value of a code: NaN, an infinity, or exactly (-1)^neg × mag × 2^exp; a zero keeps its sign. -/
inductive FVal where
  | nan
  | inf (neg : Bool)
  | fin (neg : Bool) (mag : Nat) (exp : Int)
deriving DecidableEq, Repr

/-- The exponent of the smallest subnormal. -/
def Fmt.qmin (f : Fmt) : Int := 1 - (f.bias : Int) - (f.mant : Int)

/-- Decodes a code (R149). -/
def Fmt.val (f : Fmt) (x : Nat) : FVal :=
  let neg := x / f.signBit % 2 == 1
  let c := x % f.signBit
  if c > f.maxCode then
    if f.inf == some c then .inf neg else .nan
  else
    let e := c / 2 ^ f.mant
    let m := c % 2 ^ f.mant
    if e = 0 then .fin neg m f.qmin else .fin neg (2 ^ f.mant + m) (f.qmin + (e : Int) - 1)

/-! ## Rounding (R151) -/

/-- Rounding modes. -/
inductive RMode where
  | rne | rtz | rup | rdn
deriving DecidableEq, Repr

/-- Whether a truncated magnitude is raised by one unit: `cmp` compares what was cut off with half a unit. -/
def roundsUp (m : RMode) (neg : Bool) (n : Nat) (inexact : Bool) (cmp : Ordering) : Bool :=
  match m with
  | .rne => match cmp with
    | .gt => true
    | .eq => n % 2 == 1
    | .lt => false
  | .rtz => false
  | .rup => inexact && !neg
  | .rdn => inexact && neg

/-- Rounds mag × 2^exp (a little above it, if `sticky`) to a multiple of 2^q. -/
def roundQ (m : RMode) (neg : Bool) (mag : Nat) (exp : Int) (sticky : Bool) (q : Int) : Nat :=
  if q ≤ exp then mag * 2 ^ (exp - q).toNat
  else
    let k := (q - exp).toNat
    let n := mag / 2 ^ k
    let r := mag % 2 ^ k
    let half := 2 ^ (k - 1)
    let cmp : Ordering := if r < half then .lt else if r = half && !sticky then .eq else .gt
    if roundsUp m neg n (r != 0 || sticky) cmp then n + 1 else n

/-- Adds the sign to a magnitude's code. -/
def Fmt.signed (f : Fmt) (neg : Bool) (c : Nat) : Nat := if neg then f.signBit + c else c

/-- The canonical NaN of a format; a format without one never needs it. -/
def Fmt.qnan (f : Fmt) : Nat := f.nan.getD 0

/-- The code of an overflow (R151, R152). -/
def Fmt.overflow (f : Fmt) (m : RMode) (sat neg : Bool) : Nat :=
  let toInf := match m with
    | .rne => true
    | .rtz => false
    | .rup => !neg
    | .rdn => neg
  if sat || !toInf then f.signed neg f.maxCode
  else match f.inf with
    | some c => f.signed neg c
    | none => match f.nan with
      | some c => c
      | none => f.signed neg f.maxCode

/-- RoundTo of a nonzero exact magnitude (R151): the code. -/
def Fmt.roundMag (f : Fmt) (m : RMode) (sat neg : Bool) (mag : Nat) (exp : Int) (sticky : Bool) : Nat :=
  let q := max (exp + (Nat.log2 mag : Int) - (f.mant : Int)) f.qmin
  let n := roundQ m neg mag exp sticky q
  let c := (q - f.qmin).toNat * 2 ^ f.mant + n
  if c > f.maxCode then f.overflow m sat neg else f.signed neg c

/-- RoundTo of a value, with the NaN, infinity and zero rules (R151, R152, R154, R157). -/
def Fmt.round (f : Fmt) (m : RMode) (sat : Bool) : FVal → Nat
  | .nan => f.qnan
  | .inf neg => if sat then f.signed neg f.maxCode else match f.inf with
    | some c => f.signed neg c
    | none => f.qnan
  | .fin neg mag exp => if mag = 0 then f.signed neg 0 else f.roundMag m sat neg mag exp false

/-! ## Exact arithmetic (R157, R179) -/

/-- The sign flipped; NaN stays. -/
def FVal.neg : FVal → FVal
  | .nan => .nan
  | .inf n => .inf (!n)
  | .fin n m e => .fin (!n) m e

/-- A magnitude with a sign as an integer. -/
def signedMag (neg : Bool) (m : Nat) : Int := if neg then -(m : Int) else m

/-- The exact sum. `rdn` chooses the zero of x - x (R157). -/
def FVal.add (rdn : Bool) : FVal → FVal → FVal
  | .nan, _ => .nan
  | _, .nan => .nan
  | .inf a, .inf b => if a == b then .inf a else .nan
  | .inf a, .fin _ _ _ => .inf a
  | .fin _ _ _, .inf b => .inf b
  | .fin na ma ea, .fin nb mb eb =>
    let e := min ea eb
    let x := signedMag na (ma * 2 ^ (ea - e).toNat) + signedMag nb (mb * 2 ^ (eb - e).toNat)
    if x = 0 then .fin (if na == nb then na else rdn) 0 e else .fin (decide (x < 0)) x.natAbs e

/-- The exact product. -/
def FVal.mul : FVal → FVal → FVal
  | .nan, _ => .nan
  | _, .nan => .nan
  | .inf a, .inf b => .inf (a != b)
  | .inf a, .fin nb mb _ => if mb = 0 then .nan else .inf (a != nb)
  | .fin na ma _, .inf b => if ma = 0 then .nan else .inf (na != b)
  | .fin na ma ea, .fin nb mb eb => .fin (na != nb) (ma * mb) (ea + eb)

/-- fadd in a format and mode. -/
def Fmt.add (f : Fmt) (m : RMode) (a b : Nat) : Nat := f.round m false (FVal.add (m == .rdn) (f.val a) (f.val b))
/-- fsub: A + (-B). -/
def Fmt.sub (f : Fmt) (m : RMode) (a b : Nat) : Nat := f.round m false (FVal.add (m == .rdn) (f.val a) (f.val b).neg)
/-- fmul. -/
def Fmt.mul (f : Fmt) (m : RMode) (a b : Nat) : Nat := f.round m false (FVal.mul (f.val a) (f.val b))
/-- ffma: one rounding of A × B + C. -/
def Fmt.fma (f : Fmt) (m : RMode) (a b c : Nat) : Nat :=
  f.round m false (FVal.add (m == .rdn) (FVal.mul (f.val a) (f.val b)) (f.val c))

/-- The clamp of ffma.sat (R180). -/
def clampUnit (r : Nat) : Nat :=
  match Fmt.f32.val r with
  | .nan => 0
  | .inf neg => if neg then 0 else 0x3F800000
  | .fin neg _ _ => if neg then 0 else min r 0x3F800000

/-! ## Ordering (R157, R159, R165, R166) -/

/-- The ordered key of a code (R166): strictly increasing over non-NaN values, -0 just below +0; all ones for NaN. -/
def Fmt.ord (f : Fmt) (x : Nat) : Nat :=
  let w := 2 * f.signBit
  if f.val x == .nan then w - 1
  else if x / f.signBit % 2 = 0 then x % w + f.signBit
  else w - 1 - x % w

/-- The code a key stands for (R166), a NaN as the canonical one. -/
def Fmt.unord (f : Fmt) (k : Nat) : Nat :=
  if k + 1 = 2 * f.signBit then f.qnan else if k ≥ f.signBit then k - f.signBit else 2 * f.signBit - 1 - k

/-- Whether a code is a NaN. -/
def Fmt.isNan (f : Fmt) (x : Nat) : Bool := f.val x == .nan
/-- Whether a code is a zero of either sign. -/
def Fmt.isZero (f : Fmt) (x : Nat) : Bool := x % f.signBit == 0

/-- Minimum and maximum that pass NaN on, and those that prefer the number (R159). -/
def Fmt.pick (f : Fmt) (wantMax number : Bool) (a b : Nat) : Nat :=
  if f.isNan a then (if number && !f.isNan b then b else f.qnan)
  else if f.isNan b then (if number then a else f.qnan)
  else if wantMax then (if f.ord a < f.ord b then b else a) else (if f.ord b < f.ord a then b else a)

/-- Equality: -0 equals +0, NaN equals nothing (R183). -/
def Fmt.eq (f : Fmt) (a b : Nat) : Bool := !f.isNan a && !f.isNan b && (f.ord a == f.ord b || (f.isZero a && f.isZero b))
/-- Less than: -0 lies below +0, NaN is never less (R183). -/
def Fmt.lt (f : Fmt) (a b : Nat) : Bool := !f.isNan a && !f.isNan b && decide (f.ord a < f.ord b)

/-- Whether a code matches an fclass mask (R184). -/
def Fmt.matchesClass (f : Fmt) (mask x : Nat) : Bool :=
  let bit (k : Nat) : Bool := mask / 2 ^ k % 2 == 1
  match f.val x with
  | .nan => bit 0
  | .inf neg => bit 1 && bit (if neg then 6 else 5)
  | .fin neg m _ =>
    (if m = 0 then bit 4 else if m < 2 ^ f.mant then bit 3 else bit 2) && bit (if neg then 6 else 5)

/-! ## Conversions (R152, R153, R187) -/

/-- The integer a finite value rounds to, as a magnitude. -/
def roundInt (m : RMode) (neg : Bool) (mag : Nat) (exp : Int) : Nat := roundQ m neg mag exp false 0

/-- Rounds to an integral value of the same format (R187). -/
def Fmt.integral (f : Fmt) (m : RMode) (x : Nat) : Nat :=
  match f.val x with
  | .nan => f.qnan
  | .inf _ => x
  | .fin neg mag exp => f.round m false (.fin neg (roundInt m neg mag exp) 0)

/-- Clamps an integer into a range. -/
def clampInt (lo hi x : Int) : Int := if x < lo then lo else if hi < x then hi else x

/-- Lowest and highest value of a `w`-bit integer type. -/
def intRange (signed : Bool) (w : Nat) : Int × Int := if signed then (-(2 ^ (w - 1) : Int), 2 ^ (w - 1) - 1) else (0, 2 ^ w - 1)

/-- Floating point to an integer of a range (R153). -/
def FVal.toInt (m : RMode) (lo hi : Int) : FVal → Int
  | .nan => 0
  | .inf neg => if neg then lo else hi
  | .fin neg mag exp => clampInt lo hi (signedMag neg (roundInt m neg mag exp))

/-- The exact value of an integer (R153): 0 is +0. -/
def FVal.ofInt (x : Int) : FVal := .fin (decide (x < 0)) x.natAbs 0

/-! ## Division and square root (R158, R189) -/

/-- RoundTo of a quotient of nonzero magnitudes. -/
def Fmt.quotient (f : Fmt) (neg : Bool) (ma : Nat) (ea : Int) (mb : Nat) (eb : Int) : Nat :=
  let k := 80 + Nat.log2 mb
  let n := ma * 2 ^ k
  f.roundMag .rne false neg (n / mb) (ea - eb - (k : Int)) (n % mb != 0)

/-- A ÷ B. -/
def Fmt.div (f : Fmt) (a b : Nat) : Nat :=
  match f.val a, f.val b with
  | .nan, _ => f.qnan
  | _, .nan => f.qnan
  | .inf _, .inf _ => f.qnan
  | .inf x, .fin y _ _ => f.round .rne false (.inf (x != y))
  | .fin x _ _, .inf y => f.signed (x != y) 0
  | .fin na ma ea, .fin nb mb eb =>
    if mb = 0 then (if ma = 0 then f.qnan else f.round .rne false (.inf (na != nb)))
    else if ma = 0 then f.signed (na != nb) 0
    else f.quotient (na != nb) ma ea mb eb

/-- The integer square root, bit by bit from bit `n - 1` down. -/
def isqrt (m : Nat) : Nat → Nat → Nat
  | 0, r => r
  | n + 1, r => if (r + 2 ^ n) * (r + 2 ^ n) ≤ m then isqrt m n (r + 2 ^ n) else isqrt m n r

/-- Makes the exponent of a dyadic even. -/
def evenExp (m : Nat) (e : Int) : Nat × Int := if e % 2 = 0 then (m, e) else (2 * m, e - 1)

/-- √x of a positive magnitude. -/
def Fmt.sqrtMag (f : Fmt) (m : Nat) (e : Int) : Nat :=
  let (m, e) := evenExp m e
  let n := m * 2 ^ 140
  let r := isqrt n 100 0
  f.roundMag .rne false false r (e / 2 - 70) (r * r != n)

/-- 1 ÷ √x of a positive magnitude. -/
def Fmt.rsqMag (f : Fmt) (m : Nat) (e : Int) : Nat :=
  let (m, e) := evenExp m e
  let n := 2 ^ 260
  let r := isqrt (n / m) 131 0
  f.roundMag .rne false false r (-(e / 2) - 130) (r * r * m != n)

/-! ## Transcendental functions (R158): fixed-point intermediates of 384 fraction bits (log 13) -/

/-- Fraction bits of the intermediates. -/
abbrev fxBits : Nat := 384
/-- One. -/
abbrev fxOne : Nat := 2 ^ 384
/-- ln 2, 400 fraction bits. -/
def ln2c : Nat :=
  0xb17217f7d1cf79abc9e3b39803f2f6af40f343267298b62d8a0d175b8baafa2be7b876206debac98559552fb4afa1b10ed2e
/-- π, 400 fraction bits. -/
def piC : Nat :=
  0x3243f6a8885a308d313198a2e03707344a4093822299f31d0082efa98ec4e6c89452821e638d01377be5466cf34e90c6cc0ac

/-- mag × 2^exp as a fixed-point number, rounded down. -/
def toFx (mag : Nat) (exp : Int) : Nat := if 0 ≤ exp + 384 then mag * 2 ^ (exp + 384).toNat else mag / 2 ^ (-(exp + 384)).toNat

/-- Σ r^k / k!: sum, term and index carried for `n` terms. -/
def expSeries (r : Nat) : Nat → Nat → Nat → Nat → Nat
  | 0, sum, _, _ => sum
  | n + 1, sum, term, k => let t := term * r / fxOne / k; expSeries r n (sum + t) t (k + 1)

/-- e^r for a fixed-point r in [0, 1). -/
def fxExp (r : Nat) : Nat := expSeries r 90 fxOne fxOne 1

/-- Alternating series Σ (-1)^k u^k / Π of the next two factors: cos for `k = 1`, sin(t) / t for `k = 2`. -/
def trigSeries (u : Nat) : Nat → Bool → Nat → Nat → Nat → Nat
  | 0, _, sum, _, _ => sum
  | n + 1, minus, sum, term, k =>
    let t := term * u / fxOne / (k * (k + 1))
    trigSeries u n (!minus) (if minus then sum - t else sum + t) t (k + 2)

/-- Σ z^k / (2k + 1), for ln. -/
def atanhSeries (z : Nat) : Nat → Nat → Nat → Nat → Nat
  | 0, sum, _, _ => sum
  | n + 1, sum, pow, k => let p := pow * z / fxOne; atanhSeries z n (sum + p / k) p (k + 2)

/-- 2^x for a value that is no integer; integers and extremes are exact or overflow. -/
def Fmt.exp2Mag (f : Fmt) (neg : Bool) (mag : Nat) (exp : Int) : Nat :=
  let lg := exp + (Nat.log2 mag : Int)
  if lg ≥ 13 then (if neg then 0 else f.overflow .rne false false)
  else if 0 ≤ exp then f.roundMag .rne false false 1 (signedMag neg (mag * 2 ^ exp.toNat)) false
  else if lg < -100 then f.roundMag .rne false false 1 0 false
  else
    let k := (-exp).toNat
    let ip := mag / 2 ^ k
    let fp := mag % 2 ^ k
    -- x = n + r, with r in [0, 1)
    let n : Int := if fp = 0 then signedMag neg ip else if neg then -(ip : Int) - 1 else ip
    let r : Nat := if fp = 0 then 0 else if neg then 2 ^ k - fp else fp
    if fp = 0 then f.roundMag .rne false false 1 n false
    else
      let t := toFx r (-(k : Int)) * ln2c / 2 ^ 400
      f.roundMag .rne false false (fxExp t) (n - 384) true

/-- log2 of a positive magnitude. -/
def Fmt.log2Mag (f : Fmt) (m : Nat) (e : Int) : Nat :=
  let l := Nat.log2 m
  if m = 2 ^ l then f.round .rne false (.ofInt (e + (l : Int)))
  else
    -- m = g × 2^(l or l + 1), with g in [3/4, 3/2)
    let up := decide (3 * 2 ^ l ≤ 2 * m)
    let k : Int := e + (l : Int) + (if up then 1 else 0)
    let den := if up then 2 ^ (l + 1) else 2 ^ l
    let below := decide (m < den)
    let s := (if below then den - m else m - den) * fxOne / (m + den)
    let a := atanhSeries (s * s / fxOne) 100 fxOne fxOne 3
    let lg : Nat := 2 * (s * a / fxOne) * 2 ^ 400 / ln2c
    let x : Int := k * (fxOne : Int) + (if below then -(lg : Int) else lg)
    f.roundMag .rne false (decide (x < 0)) x.natAbs (-384) true

/-- sin(π y) for y = m × 2^e in (0, 1/4]; the relative error stays small for small y. -/
def Fmt.sinPart (f : Fmt) (neg : Bool) (m : Nat) (e : Int) : Nat :=
  let t := toFx m e * piC / 2 ^ 400
  let sinc := trigSeries (t * t / fxOne) 60 true fxOne fxOne 2
  f.roundMag .rne false neg (m * piC * sinc) (e - 400 - 384) true

/-- cos(π y) for y = m × 2^e in [0, 1/4]. -/
def Fmt.cosPart (f : Fmt) (neg : Bool) (m : Nat) (e : Int) : Nat :=
  if m = 0 then f.roundMag .rne false neg 1 0 false
  else
    let t := toFx m e * piC / 2 ^ 400
    f.roundMag .rne false neg (trigSeries (t * t / fxOne) 60 true fxOne fxOne 1) (-384) true

/-- sin(π x) of a nonzero value (R158). -/
def Fmt.sinpiMag (f : Fmt) (neg : Bool) (mag : Nat) (exp : Int) : Nat :=
  if 0 ≤ exp then f.signed neg 0
  else
    let k := (-exp).toNat
    let one := 2 ^ k
    let y := mag % (2 * one)
    let neg' := neg != decide (one ≤ y)
    let y := y % one
    if y = 0 then f.signed neg 0
    else
      let y := if one < 2 * y then one - y else y
      if 4 * y ≤ one then f.sinPart neg' y exp else f.cosPart neg' (one - 2 * y) (exp - 1)

/-- cos(π x) of a nonzero value (R158). -/
def Fmt.cospiMag (f : Fmt) (mag : Nat) (exp : Int) : Nat :=
  if 1 ≤ exp then f.cosPart false 0 0
  else if exp = 0 then f.cosPart (mag % 2 == 1) 0 0
  else
    let k := (-exp).toNat
    let one := 2 ^ k
    let y := mag % (2 * one)
    let y := if one < y then 2 * one - y else y
    let neg := decide (one < 2 * y)
    let y := if neg then one - y else y
    if 2 * y = one then 0
    else if 4 * y ≤ one then f.cosPart neg y exp else f.sinPart neg (one - 2 * y) (exp - 1)

/-- tanh of a nonzero value (R158). -/
def Fmt.tanhMag (f : Fmt) (x : Nat) (neg : Bool) (mag : Nat) (exp : Int) : Nat :=
  let lg := exp + (Nat.log2 mag : Int)
  if lg ≥ 6 then f.roundMag .rne false neg 1 0 false
  else if lg < -40 then x
  else
    let y := 2 * toFx mag exp
    let n := y * 2 ^ 400 / ln2c / fxOne
    let r := y - n * ln2c / 2 ^ 16
    let em := fxExp r * 2 ^ n - fxOne
    f.roundMag .rne false neg (em * fxOne / (em + 2 * fxOne)) (-384) true

/-- The functions of sfu (R188). -/
inductive Sfu where
  | rcp | rsq | sqrt | exp2 | log2 | sinpi | cospi | tanh
deriving DecidableEq, Repr

/-- The correctly rounded function with its special operands (R158). -/
def Fmt.sfu (f : Fmt) (g : Sfu) (x : Nat) : Nat :=
  let infty (neg : Bool) : Nat := f.round .rne false (.inf neg)
  let one : Nat := f.roundMag .rne false false 1 0 false
  match f.val x with
  | .nan => f.qnan
  | .inf neg =>
    match g with
    | .rcp => f.signed neg 0
    | .rsq => if neg then f.qnan else 0
    | .sqrt | .log2 => if neg then f.qnan else infty false
    | .exp2 => if neg then 0 else infty false
    | .sinpi | .cospi => f.qnan
    | .tanh => f.roundMag .rne false neg 1 0 false
  | .fin neg m e =>
    if m = 0 then
      match g with
      | .rcp | .rsq => infty neg
      | .sqrt | .sinpi | .tanh => f.signed neg 0
      | .exp2 | .cospi => one
      | .log2 => infty true
    else
      match g with
      | .rcp => f.quotient neg 1 0 m e
      | .rsq => if neg then f.qnan else f.rsqMag m e
      | .sqrt => if neg then f.qnan else f.sqrtMag m e
      | .exp2 => f.exp2Mag neg m e
      | .log2 => if neg then f.qnan else f.log2Mag m e
      | .sinpi => f.sinpiMag neg m e
      | .cospi => f.cospiMag m e
      | .tanh => f.tanhMag x neg m e

end Sys2Proof.Machine
end

