-- ==== Sys2Proof/Machine/Map.lean ====
section
/-!
DEFINITION. Finite maps as association lists with rising keys, and byte memories as lists of cells (Host.Cell) in one canonical
form: addresses strictly rising, and no cell that holds what an unlisted address reads as, which is 0 (log 1).
-/

namespace Sys2Proof.Machine

/-- A finite map with number keys: pairs in rising order of their keys. -/
abbrev FMap (α : Type) := List (Nat × α)

/-- The value at a key. -/
def FMap.get {α : Type} (m : FMap α) (k : Nat) : Option α :=
  match m with
  | [] => none
  | (j, v) :: t => if j = k then some v else FMap.get t k

/-- Sets the value at a key; the order of the keys is kept. -/
def FMap.set {α : Type} (m : FMap α) (k : Nat) (v : α) : FMap α :=
  match m with
  | [] => [(k, v)]
  | (j, w) :: t => if j = k then (k, v) :: t else if k < j then (k, v) :: (j, w) :: t else (j, w) :: FMap.set t k v

/-- Removes a key. -/
def FMap.erase {α : Type} (m : FMap α) (k : Nat) : FMap α := m.filter fun p => p.1 != k

/-- Changes the value at a key, if there is one. -/
def FMap.modify {α : Type} (m : FMap α) (k : Nat) (f : α → α) : FMap α := m.map fun p => if p.1 = k then (p.1, f p.2) else p

/-- The keys, rising. -/
def FMap.keys {α : Type} (m : FMap α) : List Nat := m.map Prod.fst

/-- The values, in the order of their keys. -/
def FMap.vals {α : Type} (m : FMap α) : List α := m.map Prod.snd

/-- Element `k` of a list, or `d`. -/
abbrev nth {α : Type} (l : List α) (k : Nat) (d : α) : α := (l[k]?).getD d

/-- Replaces element `k` of a list. -/
abbrev setNth {α : Type} (l : List α) (k : Nat) (v : α) : List α := l.set k v

/-- Inserts into a list sorted by a key; equal keys keep their order of arrival. -/
def insertBy {α : Type} (le : α → α → Bool) (x : α) : List α → List α
  | [] => [x]
  | y :: t => if le y x then y :: insertBy le x t else x :: y :: t

/-- Insertion sort; stable for a total preorder. -/
def sortBy {α : Type} (le : α → α → Bool) (l : List α) : List α := l.foldl (fun acc x => insertBy le x acc) []

/-- A byte memory: cells with rising addresses, none of them zero. -/
abbrev Bytes := List Host.Cell

/-- What an unlisted address reads as (log 1). -/
def unlistedByte : Byte := 0

/-- The byte at an address. -/
def Bytes.read (m : Bytes) (a : Nat) : Byte :=
  match FMap.get m a with
  | some v => v
  | none => unlistedByte

/-- Writes one byte, keeping the canonical form: writing what an unlisted address reads as removes the cell. -/
def Bytes.write (m : Bytes) (a : Nat) (v : Byte) : Bytes :=
  if v = unlistedByte then FMap.erase m a else FMap.set m a v

/-- `n` bytes from an address up. -/
def Bytes.readN (m : Bytes) (a n : Nat) : List Byte := (List.range n).map fun k => m.read (a + k)

/-- Writes bytes from an address up. -/
def Bytes.writeN (m : Bytes) (a : Nat) : List Byte → Bytes
  | [] => m
  | v :: t => Bytes.writeN (m.write a v) (a + 1) t

/-- Sets every byte of `[a, a + n)` to zero. -/
def Bytes.clearRange (m : Bytes) (a n : Nat) : Bytes := m.filter fun c => c.1 < a || a + n ≤ c.1

/-- The addresses rise strictly from `lo` on and no cell is zero. -/
def Bytes.wfFrom (lo : Nat) : Bytes → Bool
  | [] => true
  | (a, v) :: t => decide (lo ≤ a) && !(v == unlistedByte) && Bytes.wfFrom (a + 1) t

/-- The canonical form. -/
def Bytes.wf (m : Bytes) : Bool := Bytes.wfFrom 0 m

/-- The little-endian bytes of a number (R2). -/
def leBytes (n v : Nat) : List Byte := (List.range n).map fun k => BitVec.ofNat 8 (v / 2 ^ (8 * k))

/-- The number that bytes spell, little-endian (R2). -/
def leNat : List Byte → Nat
  | [] => 0
  | b :: t => b.toNat + 256 * leNat t

end Sys2Proof.Machine
end

