-- ==== Sys2Proof/Syntax.lean ====
section
/-!
DEFINITION. The instructions of the Drervoger set: one constructor of `Instr` per row of spec/opcode_table.json.
Encoded rows carry their decoded operands; the rows without a word (events of the device, R4) carry what the event brings.
-/

namespace Sys2Proof

/-- A special source (R88); the literal (R90) and the FP constants (R89) included. -/
inductive Special where
  /-- Index 0x00 to 0x1F: the integer 0 to 31. -/
  | int (n : Fin 32)
  /-- Index 0x20 to 0x2F: an entry of the FP constant table (R89). -/
  | fpc (k : Fin 16)
  /-- 0x30: the lane index. -/
  | lane
  /-- 0x31: the thread's index in its team. -/
  | tid
  /-- 0x32: the course index. -/
  | course
  /-- 0x33: the team index. -/
  | team
  /-- 0x3E: negative zero. -/
  | negZero
deriving DecidableEq, Repr

/-- An A or B operand field (R87). A literal operand (index 0x3F) carries the literal word that follows (R90). -/
inductive Src where
  /-- `vN`, mode 00, or with last read, mode 01 (R57). -/
  | reg (n : Fin 64) (last : Bool)
  /-- `oN`, mode 10 (R69). -/
  | opf (n : Fin 16)
  /-- `bN`, mode 10 (R72). -/
  | latch (n : Fin 4)
  /-- A special source, mode 11. -/
  | special (s : Special)
  /-- The literal, special index 0x3F (R90). -/
  | lit (w : W32)
deriving DecidableEq, Repr

/-- The destination of an R-format instruction (R81). -/
inductive Dst where
  /-- `vD`, DL = 0. -/
  | reg (n : Fin 64)
  /-- `oD`, DL = 1 (R68). -/
  | opf (n : Fin 16)
  /-- `_`, N = 1: write-back suppressed, the result stays in the pipe's latch (R71). -/
  | sup
deriving DecidableEq, Repr

/-- A predicate used as a value: p0 to p11, or code 1100 for the constant 1 (R84, R92, R125, R199). -/
inductive PredSel where
  | p (n : Fin 12)
  | always
deriving DecidableEq, Repr

/-- The condition field D[5:4] of setp and fsetp (R174, R183). -/
inductive Cond where
  | eq | ne | lt | le
deriving DecidableEq, Repr

/-- How fclass uses its match (R184, D[5:4]). -/
inductive ClassUse where
  | set | neg | conj | disj
deriving DecidableEq, Repr

/-- Source types of a conversion (R185). -/
inductive CvtSrc where
  | f64 | f32 | f16 | bf16 | e4m3 | e5m2 | i32 | n32 | i64 | n64 | f32x2 | f16x2 | bf16x2
deriving DecidableEq, Repr

/-- Rounding of a conversion (R185). -/
inductive Round where
  | rne | rtz | rup | rdn
deriving DecidableEq, Repr

/-- The one-operand functions of bit and sbit (R175). -/
inductive BitOp where
  | notB32 | popcB32 | clzB32 | ctzB32 | brevB32 | bswapB32 | sextI8 | sextI16
  | notB64 | popcB64 | clzB64 | ctzB64 | brevB64 | bswapB64 | sextI32 | zextN32
deriving DecidableEq, Repr

/-- Reduction kinds (R201). -/
inductive RedKind where
  | addI32 | andB32 | orB32 | xorB32 | maxI32 | minI32 | maxN32 | minN32
  | addI64 | addF32 | mulF32 | maxF32 | minF32 | maxnF32 | minnF32 | addF64
deriving DecidableEq, Repr

/-- Matrix input formats (R214). -/
inductive MFmt where
  | e4m3 | e5m2 | e4m3e5m2 | e5m2e4m3 | mxf8 | mxf6 | mxf4 | i4x | mxi8 | bf16 | f16 | f32 | f64
deriving DecidableEq, Repr

/-- Kinds of tile.fill (R213, R223). -/
inductive FillKind where
  | f64 | f32 | bf16
deriving DecidableEq, Repr

/-- Scope codes (R274). -/
inductive Scope where
  | th | co | te | cl | di | dv | dm
deriving DecidableEq, Repr

/-- Orderings (R274). -/
inductive Order where
  | relaxed | acq | rel | ar | sc
deriving DecidableEq, Repr

/-- The level an explicit access or a level atomic names (R280, R274). -/
inductive Level where
  | spad | clm | chip
deriving DecidableEq, Repr

/-- The level of ldx and stx (R280, R281). -/
inductive XLevel where
  | spad | clm | chip | lp
deriving DecidableEq, Repr

/-- The width of ldx and stx (R280). -/
inductive XWidth where
  | n8 | n16 | b32 | b64
deriving DecidableEq, Repr

/-- Width and kind of a plain load (R273). -/
inductive LdKind where
  | n8 | i8 | n16 | i16 | b32 | b64 | b128
deriving DecidableEq, Repr

/-- Width of a plain store (R273). -/
inductive StKind where
  | b8 | b16 | b32 | b64 | b128
deriving DecidableEq, Repr

/-- Width and ordering of an ordered access (R273, R274): an acquiring load, a releasing store, or `.sc` of either. -/
structure OrdAcc where
  /-- `true` for .b64, `false` for .b32. -/
  w64 : Bool
  scope : Scope
  /-- `true` for .sc, `false` for .acq of a load and .rel of a store. -/
  sc : Bool
deriving DecidableEq, Repr

/-- The operations of atom and satom (R283). -/
inductive AtomOp where
  | addB32 | addB64 | andB32 | orB32 | exchB32 | maxI32 | minI32 | maxN32 | minN32
  | maxN64 | minN64 | casB32 | casB64 | faddF32 | fminF32 | fmaxF32
deriving DecidableEq, Repr

/-- Where an atomic acts (R282): device memory at a scope with an ordering, or a level. -/
inductive AtomPlace where
  | dev (scope : Scope) (order : Order)
  | level (l : Level)
deriving DecidableEq, Repr

/-- Width of scas (R286). -/
inductive CasW where
  | b32 | b64 | b128
deriving DecidableEq, Repr

/-- Orderings a fence allows (R289). -/
inductive FenceOrd where
  | acq | rel | ar | sc
deriving DecidableEq, Repr

/-- What vshape names (R208). -/
inductive VsRef where
  | reg (n : Fin 64)
  | opf (n : Fin 16)
  | latch (n : Fin 4)
deriving DecidableEq, Repr

/-- The special registers of R137. -/
inductive SReg where
  | tsw | key0 | key1 | key2 | key3 | key4 | slice | budget | deadline | clkw
  | trapbase | fault | faultaddr | faultmask | tpc
deriving DecidableEq, Repr

/-- A load (R279): a plain width, or an ordered access. -/
inductive LdMode where
  | plain (k : LdKind) (off : BitVec 6)
  | ordered (o : OrdAcc)
deriving DecidableEq, Repr

/-- A store (R279). -/
inductive StMode where
  | plain (k : StKind) (off : BitVec 6)
  | ordered (o : OrdAcc)
deriving DecidableEq, Repr

/-- The step of R96 that an encoding fails. -/
inductive DecStep where
  /-- Step 1: an unallocated opcode, a prefix before a prefix or a B-format word. -/
  | opcode
  /-- Step 2: a field value the entry does not define. -/
  | value
  /-- Step 3: an operand mode, special source, second literal or predicate index. -/
  | operand
  /-- Step 4: a reserved field (RESERVED_FIELD). -/
  | reserved
  /-- Step 5: an odd name where a pair is required (PAIR_ALIGN). -/
  | pair
deriving DecidableEq, Repr

/-- What a fetch can meet (R78, R343, R381). -/
inductive FetchCode where
  | xlate | prot | linkLost | ecc
deriving DecidableEq, Repr

/-- A course of a team; `team` is the machine's key of the team. -/
structure CourseRef where
  team : Nat
  course : Nat
deriving DecidableEq, Repr

/-- A thread: a lane of a course of a team. -/
structure ThreadRef where
  team : Nat
  course : Nat
  lane : Nat
deriving DecidableEq, Repr

/-- A stamp domain (R257). -/
inductive StampDom where
  | package | domain
deriving DecidableEq, Repr

/-- Where the protection of a store other than a tower's meets an error (R377): what is not correctable, and an entry whose parity
fails, which is dropped. -/
inductive ErrPlace where
  /-- A granule held in an L2 slice (R377, R378). -/
  | l2 (granule : Nat)
  /-- A name's line, an operand-file entry, a latch or a tile of a course. -/
  | name (c : CourseRef) (n : Fin 64)
  | entry (c : CourseRef) (n : Fin 16)
  | latch (c : CourseRef) (k : Fin 4)
  | tile (c : CourseRef) (k : Fin 16)
  /-- A 32-bit word of a team's core scratchpad. -/
  | spad (team word : Nat)
  /-- A 32-bit word of the cluster memory that a team holds. -/
  | clm (team word : Nat)
  /-- A granule of a partition's chip scratchpad, and an older version of a stamped line, by its stamp. -/
  | chip (part : Fin 16) (granule : Nat)
  | version (line stamp : Nat)
  /-- A dirty byte of an L1: core, line, offset. -/
  | l1Dirty (core line : Nat) (off : Fin 128)
  /-- The clean bytes of an L1 line, a line of the instruction cache or of the fetch cache, an entry of a TLB. -/
  | l1Clean (core line : Nat)
  | icache (core line : Nat)
  | fcache (core line : Nat)
  | tlb (core index : Nat)
deriving DecidableEq, Repr

/-- What the protection of a store reports (R377): a granule of the tower itself that is not correctable, or, of another store, an error
corrected in a unit of a source of R379 or one that is not correctable. -/
inductive SoftError where
  | granule (g : Nat)
  | corrected (source : Fin 4) (unit : Nat)
  | bad (p : ErrPlace)
deriving DecidableEq, Repr

/-- The function whose mailbox a command is written to (R349, R353). -/
inductive Mbox where
  | pf (n : Fin 2)
  | vf (n : Fin 16)
deriving DecidableEq, Repr

/-- The window a register write goes to (R353, R387). -/
inductive WindowSel where
  /-- The management window of a physical function (PF BAR0). -/
  | management (pf : Fin 2)
  /-- The partition window of a virtual function (VF BAR0). -/
  | partition (vf : Fin 16)
deriving DecidableEq, Repr

/-- Another device's part in a collective (R271, R310): the ordinal of a fixed group's instance or the tag of an open one,
the device, and its descriptor's fields and SEND bytes. -/
structure Contribution where
  /-- The fixed group's number, or `none` for the open group. -/
  group : Option (Fin 64)
  /-- The instance: the ordinal in a fixed group, the TAG of an open one. -/
  tag : Nat
  /-- The contributing device's number (R354). -/
  device : Fin 512
  kind : Nat
  op : Nat
  count : Nat
  root : Nat
  bytes : List Byte
deriving DecidableEq, Repr

/-- What another device asks at a line homed here (R251, R260, R263): a read, a write, an atomic, a stamped store of one of its dies,
or a read as of a stamp. -/
inductive RemoteOp where
  | read (n : Nat)
  | write (bytes : List Byte)
  | atom (op : AtomOp) (args : List Byte)
  | cas (w : CasW) (args : List Byte)
  | stamped (die : Fin 4) (dom : StampDom) (stamp : Nat) (bytes : List Byte)
  | asOf (dom : StampDom) (stamp n : Nat)
deriving DecidableEq, Repr

/-- An access another device asks of this one (R355). -/
structure RemoteReq where
  device : Fin 512
  /-- The requesting partition. -/
  fromPart : Fin 16
  /-- The partition here that the request's domain-window entry names. -/
  part : Fin 16
  pa : Nat
  op : RemoteOp
deriving DecidableEq, Repr

/-- What a flit of Benia Link carries to this device (R354): a request of another device, a collective's bytes, a time
message, the news of a write that another agent made to the memory of a device of the domain (of a stamped store, with its stamp), the
news of a granule of such memory that is poisoned (R378), or the acknowledgement of a remote write by its number (R252, R380). -/
inductive FlitBody where
  | request (r : RemoteReq)
  | contribution (part : Fin 16) (c : Contribution)
  | time (stamp : W64)
  | peerWrite (device : Fin 512) (pa : Nat) (bytes : List Byte) (stamp : Option (StampDom × Nat))
  | peerPoison (device : Fin 512) (granule : Nat)
  | ack (id : Nat) (device : Fin 512)
deriving DecidableEq, Repr

/-- The instructions: one constructor per row of spec/opcode_table.json, each naming its rule. -/
inductive Instr where
  /-- event: R278. -/
  | loadComplete (c : CourseRef)
  /-- event: R246. -/
  | writeBackPerformed (core line : Nat)
  /-- event: R260. -/
  | stampedStoreVisible (id : Nat)
  /-- event: R315. -/
  | visibilityReport (id : Nat)
  /-- event: R260. -/
  | watermarkRefresh (die : Fin 4) (dom : StampDom)
  /-- event: R331. -/
  | passAcceptance (engine : Nat)
  /-- event: R225. -/
  | passApplied (engine : Nat)
  /-- event: R212. -/
  | tilePoolGrant (engine : Nat)
  /-- event: R299. -/
  | engineCommandStart (sl : Nat) (ctx : Fin 4)
  /-- event: R267. -/
  | engineCommandComplete (sl : Nat) (ctx : Fin 4) (num : Nat)
  /-- event: R271. -/
  | collectiveContribution (part : Fin 16) (c : Contribution)
  /-- event: R310. -/
  | openGroupStart (part : Fin 16) (tag : BitVec 64)
  /-- event: R47. -/
  | spawnTimerExpiry (team : Nat) (bin : Fin 8)
  /-- event: R124. -/
  | convTimeout (c : CourseRef) (pc : BitVec 64)
  /-- event: R136. -/
  | sleepExpiry (t : ThreadRef)
  /-- event: R294. -/
  | mwaitTimeout (t : ThreadRef)
  /-- event: R335. -/
  | waitSentinel (t : ThreadRef)
  /-- event: R324. -/
  | budget (sl : Nat)
  /-- event: R322. -/
  | teamPlacement (part : Fin 16)
  /-- event: R368. -/
  | teamSave (team : Nat)
  /-- event: R347. -/
  | reset
  /-- event: R388. -/
  | fullServiceStart
  /-- event: R24. -/
  | powerTemperatureLimit
  /-- event: R377. -/
  | patrolScrub (tower : Fin 12) (corrected : Nat) (bad : List SoftError)
  /-- event: R256. -/
  | linkTimeExchange (port : Fin 18) (ok : Bool) (roundTripPs : Nat)
  /-- event: R256. -/
  | linkTimeMessage (port : Fin 18) (stamp : BitVec 64)
  /-- event: R354. -/
  | flitReceived (port : Fin 18) (checkOk : Bool) (body : Option FlitBody)
  /-- event: R355. -/
  | remoteAccessRequest (r : RemoteReq)
  /-- event: R380. -/
  | linkPlaneFailure (port : Fin 18)
  /-- event: R380. -/
  | diePortFailure (x y : Fin 4)
  /-- event: R381. -/
  | dieLost (die : Fin 4)
  /-- event: R381. -/
  | dieSetExit (die : Fin 4)
  /-- event: R381. -/
  | deviceUnreachable (dev : Fin 512)
  /-- event: R339. -/
  | partcfgRead (m : Mbox) (cmd : BitVec 64)
  /-- event: R339. -/
  | partcfgWrite (m : Mbox) (cmd : BitVec 64)
  /-- event: R352. -/
  | submit (m : Mbox) (cmd : BitVec 64)
  /-- event: R390. -/
  | submitResume (m : Mbox) (cmd : BitVec 64)
  /-- event: R345. -/
  | inval (m : Mbox) (cmd : BitVec 64)
  /-- event: R365. -/
  | resume (m : Mbox) (cmd : BitVec 64)
  /-- event: R365. -/
  | kill (m : Mbox) (cmd : BitVec 64)
  /-- event: R352. -/
  | holdclr (m : Mbox) (cmd : BitVec 64)
  /-- event: R348. -/
  | attest (m : Mbox) (cmd : BitVec 64)
  /-- event: R387. -/
  | state (m : Mbox) (cmd : BitVec 64)
  /-- event: R387. -/
  | stateSave (m : Mbox) (cmd : BitVec 64)
  /-- event: R353. -/
  | unknownCommand (m : Mbox) (cmd : BitVec 64)
  /-- event: R353. -/
  | overrun (m : Mbox) (cmd : BitVec 64)
  /-- event: R353. -/
  | mailboxCommandComplete (m : Mbox)
  /-- event: R353. -/
  | vendorDefinedMessage (pf : Fin 2) (cmd : BitVec 64) (args : List (BitVec 64)) (payload : List (BitVec 8))
  /-- event: R350. -/
  | hostBar2Write (part : Fin 16) (off : Nat) (bytes : List (BitVec 8))
  /-- event: R349. -/
  | hostBar2Read (part : Fin 16) (off n : Nat)
  /-- event: R325. -/
  | classCounterWrite (part : Fin 16) (off : Nat) (v : BitVec 64)
  /-- event: R4. -/
  | registerWrite (w : WindowSel) (off size : Nat) (v : BitVec 64)
  /-- event: R363. -/
  | faultRecordPost (part : Fin 16)
  /-- event: R385. -/
  | eventRecordPost (part : Fin 16) (ring : Fin 16)
  /-- event: R385. -/
  | etimeExpiry (part : Fin 16) (ring : Fin 16)
  /-- event: R96. -/
  | unallocatedEncoding (step : DecStep)
  /-- event: R78. -/
  | fetchFault (code : FetchCode) (addr : BitVec 64)
  /-- event: R260. -/
  | stampedStoreHeldPending (id : Nat)
  /-- add.b32: R171. -/
  | addB32 (d : Dst) (a b : Src)
  /-- add.b64: R171. -/
  | addB64 (d : Dst) (a b : Src)
  /-- sub.b32: R171. -/
  | subB32 (d : Dst) (a b : Src)
  /-- sub.b64: R171. -/
  | subB64 (d : Dst) (a b : Src)
  /-- addi.b32: R171. -/
  | addiB32 (d : Dst) (a : Src) (imm : BitVec 9)
  /-- addi.b64: R171. -/
  | addiB64 (d : Dst) (a : Src) (imm : BitVec 9)
  /-- mul.b32: R171. -/
  | mulB32 (d : Dst) (a b : Src)
  /-- mul.b64: R171. -/
  | mulB64 (d : Dst) (a b : Src)
  /-- mulhi.i32: R171. -/
  | mulhiI32 (d : Dst) (a b : Src)
  /-- mulhi.n32: R171. -/
  | mulhiN32 (d : Dst) (a b : Src)
  /-- mulw.i32: R171. -/
  | mulwI32 (d : Dst) (a b : Src)
  /-- mulw.n32: R171. -/
  | mulwN32 (d : Dst) (a b : Src)
  /-- div.i32: R172. -/
  | divI32 (d : Dst) (a b : Src)
  /-- div.n32: R172. -/
  | divN32 (d : Dst) (a b : Src)
  /-- rem.i32: R172. -/
  | remI32 (d : Dst) (a b : Src)
  /-- rem.n32: R172. -/
  | remN32 (d : Dst) (a b : Src)
  /-- and.b32: R173. -/
  | andB32 (d : Dst) (a b : Src)
  /-- or.b32: R173. -/
  | orB32 (d : Dst) (a b : Src)
  /-- xor.b32: R173. -/
  | xorB32 (d : Dst) (a b : Src)
  /-- bfi.b32: R174. -/
  | bfiB32 (d : Dst) (a b : Src)
  /-- and.b64: R173. -/
  | andB64 (d : Dst) (a b : Src)
  /-- or.b64: R173. -/
  | orB64 (d : Dst) (a b : Src)
  /-- xor.b64: R173. -/
  | xorB64 (d : Dst) (a b : Src)
  /-- lea: R176. -/
  | lea (d : Dst) (a b : Src)
  /-- shl.b32: R173. -/
  | shlB32 (d : Dst) (a b : Src)
  /-- shr.n32: R173. -/
  | shrN32 (d : Dst) (a b : Src)
  /-- shr.i32: R173. -/
  | shrI32 (d : Dst) (a b : Src)
  /-- shl.b64: R173. -/
  | shlB64 (d : Dst) (a b : Src)
  /-- shr.n64: R173. -/
  | shrN64 (d : Dst) (a b : Src)
  /-- shr.i64: R173. -/
  | shrI64 (d : Dst) (a b : Src)
  /-- bfx.b32: R174. -/
  | bfxB32 (d : Dst) (a b : Src)
  /-- not.b32: R175. -/
  | notB32 (d : Dst) (a : Src)
  /-- popc.b32: R175. -/
  | popcB32 (d : Dst) (a : Src)
  /-- clz.b32: R175. -/
  | clzB32 (d : Dst) (a : Src)
  /-- ctz.b32: R175. -/
  | ctzB32 (d : Dst) (a : Src)
  /-- brev.b32: R175. -/
  | brevB32 (d : Dst) (a : Src)
  /-- bswap.b32: R175. -/
  | bswapB32 (d : Dst) (a : Src)
  /-- sext.i8: R175. -/
  | sextI8 (d : Dst) (a : Src)
  /-- sext.i16: R175. -/
  | sextI16 (d : Dst) (a : Src)
  /-- not.b64: R175. -/
  | notB64 (d : Dst) (a : Src)
  /-- popc.b64: R175. -/
  | popcB64 (d : Dst) (a : Src)
  /-- clz.b64: R175. -/
  | clzB64 (d : Dst) (a : Src)
  /-- ctz.b64: R175. -/
  | ctzB64 (d : Dst) (a : Src)
  /-- brev.b64: R175. -/
  | brevB64 (d : Dst) (a : Src)
  /-- bswap.b64: R175. -/
  | bswapB64 (d : Dst) (a : Src)
  /-- sext.i32: R175. -/
  | sextI32 (d : Dst) (a : Src)
  /-- zext.n32: R175. -/
  | zextN32 (d : Dst) (a : Src)
  /-- setp.i32: R177. -/
  | setpI32 (c : Cond) (p : Fin 12) (a b : Src)
  /-- setp.n32: R177. -/
  | setpN32 (c : Cond) (p : Fin 12) (a b : Src)
  /-- setp.i64: R177. -/
  | setpI64 (c : Cond) (p : Fin 12) (a b : Src)
  /-- setp.n64: R177. -/
  | setpN64 (c : Cond) (p : Fin 12) (a b : Src)
  /-- min.n32: R178. -/
  | minN32 (d : Dst) (a b : Src)
  /-- max.n32: R178. -/
  | maxN32 (d : Dst) (a b : Src)
  /-- min.i32: R178. -/
  | minI32 (d : Dst) (a b : Src)
  /-- max.i32: R178. -/
  | maxI32 (d : Dst) (a b : Src)
  /-- fadd.f32: R179. -/
  | faddF32 (d : Dst) (a b : Src)
  /-- fsub.f32: R179. -/
  | fsubF32 (d : Dst) (a b : Src)
  /-- fmul.f32: R179. -/
  | fmulF32 (d : Dst) (a b : Src)
  /-- ffma.f32: R179. -/
  | ffmaF32 (d : Dst) (a b : Src)
  /-- fadd.f64: R179. -/
  | faddF64 (d : Dst) (a b : Src)
  /-- fsub.f64: R179. -/
  | fsubF64 (d : Dst) (a b : Src)
  /-- fmul.f64: R179. -/
  | fmulF64 (d : Dst) (a b : Src)
  /-- ffma.f64: R179. -/
  | ffmaF64 (d : Dst) (a b : Src)
  /-- fadd.rz.f32: R179. -/
  | faddRzF32 (d : Dst) (a b : Src)
  /-- fadd.ru.f32: R179. -/
  | faddRuF32 (d : Dst) (a b : Src)
  /-- fadd.rd.f32: R179. -/
  | faddRdF32 (d : Dst) (a b : Src)
  /-- fmul.rz.f32: R179. -/
  | fmulRzF32 (d : Dst) (a b : Src)
  /-- ffma.rz.f32: R179. -/
  | ffmaRzF32 (d : Dst) (a b : Src)
  /-- ffma.ru.f32: R179. -/
  | ffmaRuF32 (d : Dst) (a b : Src)
  /-- ffma.rd.f32: R179. -/
  | ffmaRdF32 (d : Dst) (a b : Src)
  /-- ffma.sat.f32: R180. -/
  | ffmaSatF32 (d : Dst) (a b : Src)
  /-- fadd.f16x2: R163. -/
  | faddF16x2 (d : Dst) (a b : Src)
  /-- fsub.f16x2: R163. -/
  | fsubF16x2 (d : Dst) (a b : Src)
  /-- fmul.f16x2: R163. -/
  | fmulF16x2 (d : Dst) (a b : Src)
  /-- ffma.f16x2: R163. -/
  | ffmaF16x2 (d : Dst) (a b : Src)
  /-- fadd.bf16x2: R163. -/
  | faddBf16x2 (d : Dst) (a b : Src)
  /-- fsub.bf16x2: R163. -/
  | fsubBf16x2 (d : Dst) (a b : Src)
  /-- fmul.bf16x2: R163. -/
  | fmulBf16x2 (d : Dst) (a b : Src)
  /-- ffma.bf16x2: R163. -/
  | ffmaBf16x2 (d : Dst) (a b : Src)
  /-- fneg.f32: R182. -/
  | fnegF32 (d : Dst) (a : Src)
  /-- fabs.f32: R182. -/
  | fabsF32 (d : Dst) (a : Src)
  /-- fneg.f64: R182. -/
  | fnegF64 (d : Dst) (a : Src)
  /-- fabs.f64: R182. -/
  | fabsF64 (d : Dst) (a : Src)
  /-- fmin.f64: R182. -/
  | fminF64 (d : Dst) (a b : Src)
  /-- fmax.f64: R182. -/
  | fmaxF64 (d : Dst) (a b : Src)
  /-- fminn.f64: R182. -/
  | fminnF64 (d : Dst) (a b : Src)
  /-- fmaxn.f64: R182. -/
  | fmaxnF64 (d : Dst) (a b : Src)
  /-- fsetp.f32: R183. -/
  | fsetpF32 (c : Cond) (p : Fin 12) (a b : Src)
  /-- fsetp.f64: R183. -/
  | fsetpF64 (c : Cond) (p : Fin 12) (a b : Src)
  /-- fclass.f32: R184. -/
  | fclassF32 (u : ClassUse) (p : Fin 12) (a : Src) (m : BitVec 7)
  /-- fclass.f64: R184. -/
  | fclassF64 (u : ClassUse) (p : Fin 12) (a : Src) (m : BitVec 7)
  /-- fmin.f32: R182. -/
  | fminF32 (d : Dst) (a b : Src)
  /-- fmax.f32: R182. -/
  | fmaxF32 (d : Dst) (a b : Src)
  /-- fminn.f32: R182. -/
  | fminnF32 (d : Dst) (a b : Src)
  /-- fmaxn.f32: R182. -/
  | fmaxnF32 (d : Dst) (a b : Src)
  /-- cvt.f32: R186. -/
  | cvtF32 (d : Dst) (a : Src) (s : CvtSrc) (rm : Round) (sat : Bool)
  /-- cvt.f64: R186. -/
  | cvtF64 (d : Dst) (a : Src) (s : CvtSrc) (rm : Round) (sat : Bool)
  /-- cvt.h16: R186. -/
  | cvtH16 (d : Dst) (a : Src) (s : CvtSrc) (rm : Round) (sat : Bool) (bf : Bool)
  /-- cvt.f8: R186. -/
  | cvtF8 (d : Dst) (a : Src) (s : CvtSrc) (rm : Round) (sat : Bool) (e5 : Bool)
  /-- cvt.i32: R186. -/
  | cvtI32 (d : Dst) (a : Src) (s : CvtSrc) (rm : Round) (sat : Bool)
  /-- cvt.n32: R186. -/
  | cvtN32 (d : Dst) (a : Src) (s : CvtSrc) (rm : Round) (sat : Bool)
  /-- cvt.i64: R186. -/
  | cvtI64 (d : Dst) (a : Src) (s : CvtSrc) (rm : Round) (sat : Bool)
  /-- cvt.n64: R186. -/
  | cvtN64 (d : Dst) (a : Src) (s : CvtSrc) (rm : Round) (sat : Bool)
  /-- rcp.f32: R188. -/
  | rcpF32 (d : Dst) (a : Src)
  /-- rsq.f32: R188. -/
  | rsqF32 (d : Dst) (a : Src)
  /-- sqrt.f32: R188. -/
  | sqrtF32 (d : Dst) (a : Src)
  /-- exp2.f32: R188. -/
  | exp2F32 (d : Dst) (a : Src)
  /-- log2.f32: R188. -/
  | log2F32 (d : Dst) (a : Src)
  /-- sinpi.f32: R188. -/
  | sinpiF32 (d : Dst) (a : Src)
  /-- cospi.f32: R188. -/
  | cospiF32 (d : Dst) (a : Src)
  /-- tanh.f32: R188. -/
  | tanhF32 (d : Dst) (a : Src)
  /-- div.f32: R189. -/
  | divF32 (d : Dst) (a b : Src)
  /-- rcp.f64: R188. -/
  | rcpF64 (d : Dst) (a : Src)
  /-- rsq.f64: R188. -/
  | rsqF64 (d : Dst) (a : Src)
  /-- sqrt.f64: R188. -/
  | sqrtF64 (d : Dst) (a : Src)
  /-- exp2.f64: R188. -/
  | exp2F64 (d : Dst) (a : Src)
  /-- log2.f64: R188. -/
  | log2F64 (d : Dst) (a : Src)
  /-- sinpi.f64: R188. -/
  | sinpiF64 (d : Dst) (a : Src)
  /-- cospi.f64: R188. -/
  | cospiF64 (d : Dst) (a : Src)
  /-- tanh.f64: R188. -/
  | tanhF64 (d : Dst) (a : Src)
  /-- div.f64: R189. -/
  | divF64 (d : Dst) (a b : Src)
  /-- rand: R190. -/
  | rand (d : Dst) (a : Src)
  /-- ffma.f32x2: R181. -/
  | ffmaF32x2 (d : Dst) (a b : Src)
  /-- shfl: R198. -/
  | shfl (d : Dst) (a b : Src)
  /-- census.mask: R199. -/
  | censusMask (d : Dst) (p : PredSel)
  /-- census.count: R199. -/
  | censusCount (d : Dst) (p : PredSel)
  /-- census.agree: R199. -/
  | censusAgree (d : Dst) (p : PredSel)
  /-- census.first: R199. -/
  | censusFirst (d : Dst) (p : PredSel)
  /-- census.last: R199. -/
  | censusLast (d : Dst) (p : PredSel)
  /-- census.rank: R199. -/
  | censusRank (d : Dst) (p : PredSel)
  /-- match: R200. -/
  | matchKeys (d : Dst) (a b : Src)
  /-- red: R203. -/
  | red (d : Dst) (a : Src) (k : RedKind)
  /-- scan: R204. -/
  | scan (d : Dst) (a : Src) (k : RedKind) (ex : Bool)
  /-- maxi.f32: R205. -/
  | maxiF32 (d : Dst) (a : Src)
  /-- mini.f32: R205. -/
  | miniF32 (d : Dst) (a : Src)
  /-- maxi.f16: R205. -/
  | maxiF16 (d : Dst) (a : Src)
  /-- mini.f16: R205. -/
  | miniF16 (d : Dst) (a : Src)
  /-- maxi.bf16: R205. -/
  | maxiBf16 (d : Dst) (a : Src)
  /-- mini.bf16: R205. -/
  | miniBf16 (d : Dst) (a : Src)
  /-- maxi.i32: R205. -/
  | maxiI32 (d : Dst) (a : Src)
  /-- mini.i32: R205. -/
  | miniI32 (d : Dst) (a : Src)
  /-- maxi.n32: R205. -/
  | maxiN32 (d : Dst) (a : Src)
  /-- mini.n32: R205. -/
  | miniN32 (d : Dst) (a : Src)
  /-- selk: R206. -/
  | selk (d : Dst) (a b : Src)
  /-- isect: R207. -/
  | isect (d : Dst) (a b : Src)
  /-- mma: R218. -/
  | mma (t : Fin 16) (f : MFmt) (a b : Fin 64) (la lb : Bool)
  /-- mma.sp: R221. -/
  | mmaSp (t : Fin 16) (f : MFmt) (a b : Fin 64) (la lb : Bool)
  /-- tile.alloc: R212. -/
  | tileAlloc (a : Src)
  /-- tile.free: R212. -/
  | tileFree
  /-- tile.zero: R223. -/
  | tileZero (t : Fin 16)
  /-- tile.fill: R223. -/
  | tileFill (k : FillKind) (t : Fin 16) (base : Fin 64) (last : Bool) (col : Src)
  /-- tile.drain.f64: R223. -/
  | tileDrainF64 (t : Fin 16) (base : Fin 64) (col : Src)
  /-- tile.drain.f32: R223. -/
  | tileDrainF32 (t : Fin 16) (base : Fin 64) (col : Src)
  /-- tile.drain.bf16: R223. -/
  | tileDrainBf16 (t : Fin 16) (base : Fin 64) (col : Src)
  /-- tile.qdrain.mxf8: R224. -/
  | tileQdrainMxf8 (t : Fin 16) (base scale : Fin 64)
  /-- tile.qdrain.mxf6: R224. -/
  | tileQdrainMxf6 (t : Fin 16) (base scale : Fin 64)
  /-- tile.qdrain.mxf4: R224. -/
  | tileQdrainMxf4 (t : Fin 16) (base scale : Fin 64)
  /-- tile.qdrain.mxi8: R224. -/
  | tileQdrainMxi8 (t : Fin 16) (base scale : Fin 64)
  /-- ld: R279. -/
  | ld (k : LdKind) (d : Fin 64) (a : Src) (off : BitVec 6)
  /-- ld.ORD.S: R279. -/
  | ldOrdered (o : OrdAcc) (d : Fin 64) (a : Src)
  /-- st: R279. -/
  | st (k : StKind) (d : Fin 64) (a : Src) (off : BitVec 6)
  /-- st.ORD.S: R279. -/
  | stOrdered (o : OrdAcc) (d : Fin 64) (a : Src)
  /-- ldx: R280. -/
  | ldx (l : XLevel) (w : XWidth) (d : Fin 64) (a : Src) (off : BitVec 6)
  /-- stx: R280. -/
  | stx (l : XLevel) (w : XWidth) (d : Fin 64) (a : Src) (off : BitVec 6)
  /-- atom: R282. -/
  | atom (op : AtomOp) (pl : AtomPlace) (d : Fin 64) (a : Src)
  /-- sts: R287. -/
  | sts (k : StKind) (d : Fin 64) (a : Src) (s : Fin 64)
  /-- lda: R288. -/
  | lda (w64 : Bool) (d : Fin 64) (a : Src) (t : Fin 64)
  /-- fetch: R296. -/
  | fetch (f : MFmt) (d : Fin 64) (a : Src) (c : Fin 32)
  /-- gather: R296. -/
  | gather (f : MFmt) (d : Fin 64) (a : Src) (c : Fin 32)
  /-- br: R119. -/
  | br (p : PredSel) (neg : Bool) (off : BitVec 19)
  /-- call: R119. -/
  | call (p : PredSel) (neg : Bool) (off : BitVec 19)
  /-- icall: R120. -/
  | icall (a : Src)
  /-- ret: R121. -/
  | ret
  /-- join: R123. -/
  | join
  /-- conv: R124. -/
  | conv
  /-- emit.b32: R128. -/
  | emitB32 (a : Src)
  /-- emit.b64: R128. -/
  | emitB64 (a : Src)
  /-- fork: R126. -/
  | fork (d : Fin 64) (a : Src)
  /-- plop: R125. -/
  | plop (d : Fin 12) (a b c : PredSel) (tt : BitVec 8)
  /-- event: R92. -/
  | guardPrefix (p : PredSel) (neg : Bool)
  /-- sadd.b32: R95. -/
  | saddB32 (d : Dst) (a b : Src)
  /-- sadd.b64: R95. -/
  | saddB64 (d : Dst) (a b : Src)
  /-- ssub.b32: R95. -/
  | ssubB32 (d : Dst) (a b : Src)
  /-- ssub.b64: R95. -/
  | ssubB64 (d : Dst) (a b : Src)
  /-- saddi.b32: R95. -/
  | saddiB32 (d : Dst) (a : Src) (imm : BitVec 9)
  /-- saddi.b64: R95. -/
  | saddiB64 (d : Dst) (a : Src) (imm : BitVec 9)
  /-- smul.b32: R95. -/
  | smulB32 (d : Dst) (a b : Src)
  /-- smul.b64: R95. -/
  | smulB64 (d : Dst) (a b : Src)
  /-- smulhi.i32: R95. -/
  | smulhiI32 (d : Dst) (a b : Src)
  /-- smulhi.n32: R95. -/
  | smulhiN32 (d : Dst) (a b : Src)
  /-- smulw.i32: R95. -/
  | smulwI32 (d : Dst) (a b : Src)
  /-- smulw.n32: R95. -/
  | smulwN32 (d : Dst) (a b : Src)
  /-- sdiv.i32: R95. -/
  | sdivI32 (d : Dst) (a b : Src)
  /-- sdiv.n32: R95. -/
  | sdivN32 (d : Dst) (a b : Src)
  /-- srem.i32: R95. -/
  | sremI32 (d : Dst) (a b : Src)
  /-- srem.n32: R95. -/
  | sremN32 (d : Dst) (a b : Src)
  /-- sand.b32: R95. -/
  | sandB32 (d : Dst) (a b : Src)
  /-- sor.b32: R95. -/
  | sorB32 (d : Dst) (a b : Src)
  /-- sxor.b32: R95. -/
  | sxorB32 (d : Dst) (a b : Src)
  /-- sbfi.b32: R95. -/
  | sbfiB32 (d : Dst) (a b : Src)
  /-- sand.b64: R95. -/
  | sandB64 (d : Dst) (a b : Src)
  /-- sor.b64: R95. -/
  | sorB64 (d : Dst) (a b : Src)
  /-- sxor.b64: R95. -/
  | sxorB64 (d : Dst) (a b : Src)
  /-- slea: R95. -/
  | slea (d : Dst) (a b : Src)
  /-- ssetp.i32: R95. -/
  | ssetpI32 (c : Cond) (p : Fin 12) (a b : Src)
  /-- ssetp.n32: R95. -/
  | ssetpN32 (c : Cond) (p : Fin 12) (a b : Src)
  /-- ssetp.i64: R95. -/
  | ssetpI64 (c : Cond) (p : Fin 12) (a b : Src)
  /-- ssetp.n64: R95. -/
  | ssetpN64 (c : Cond) (p : Fin 12) (a b : Src)
  /-- sshl.b32: R95. -/
  | sshlB32 (d : Dst) (a b : Src)
  /-- sshr.n32: R95. -/
  | sshrN32 (d : Dst) (a b : Src)
  /-- sshr.i32: R95. -/
  | sshrI32 (d : Dst) (a b : Src)
  /-- sbit: R95. -/
  | sbit (d : Dst) (a : Src) (k : BitOp)
  /-- sfadd.f32: R193. -/
  | sfaddF32 (d : Dst) (a b : Src)
  /-- sfsub.f32: R193. -/
  | sfsubF32 (d : Dst) (a b : Src)
  /-- sfmul.f32: R193. -/
  | sfmulF32 (d : Dst) (a b : Src)
  /-- sffma.f32: R193. -/
  | sffmaF32 (d : Dst) (a b : Src)
  /-- sfadd.f64: R193. -/
  | sfaddF64 (d : Dst) (a b : Src)
  /-- sfsub.f64: R193. -/
  | sfsubF64 (d : Dst) (a b : Src)
  /-- sfmul.f64: R193. -/
  | sfmulF64 (d : Dst) (a b : Src)
  /-- sffma.f64: R193. -/
  | sffmaF64 (d : Dst) (a b : Src)
  /-- sfsetp.f32: R193. -/
  | sfsetpF32 (c : Cond) (p : Fin 12) (a b : Src)
  /-- sfsetp.f64: R193. -/
  | sfsetpF64 (c : Cond) (p : Fin 12) (a b : Src)
  /-- scvt.f32: R193. -/
  | scvtF32 (d : Dst) (a : Src) (s : CvtSrc) (rm : Round) (sat : Bool)
  /-- scvt.i32: R193. -/
  | scvtI32 (d : Dst) (a : Src) (s : CvtSrc) (rm : Round) (sat : Bool)
  /-- sfmin.f32: R193. -/
  | sfminF32 (d : Dst) (a b : Src)
  /-- sfmax.f32: R193. -/
  | sfmaxF32 (d : Dst) (a b : Src)
  /-- srcp.f32: R193. -/
  | srcpF32 (d : Dst) (a : Src)
  /-- srsq.f32: R193. -/
  | srsqF32 (d : Dst) (a : Src)
  /-- ssqrt.f32: R193. -/
  | ssqrtF32 (d : Dst) (a : Src)
  /-- sexp2.f32: R193. -/
  | sexp2F32 (d : Dst) (a : Src)
  /-- slog2.f32: R193. -/
  | slog2F32 (d : Dst) (a : Src)
  /-- ssinpi.f32: R193. -/
  | ssinpiF32 (d : Dst) (a : Src)
  /-- scospi.f32: R193. -/
  | scospiF32 (d : Dst) (a : Src)
  /-- stanh.f32: R193. -/
  | stanhF32 (d : Dst) (a : Src)
  /-- sfdiv.f32: R193. -/
  | sfdivF32 (d : Dst) (a b : Src)
  /-- sld: R285. -/
  | sld (m : LdMode) (d : Fin 64) (a : Src)
  /-- sst: R285. -/
  | sst (m : StMode) (d : Fin 64) (a : Src)
  /-- sldx: R285. -/
  | sldx (l : XLevel) (w : XWidth) (d : Fin 64) (a : Src) (off : BitVec 6)
  /-- sstx: R285. -/
  | sstx (l : XLevel) (w : XWidth) (d : Fin 64) (a : Src) (off : BitVec 6)
  /-- satom: R285. -/
  | satom (op : AtomOp) (pl : AtomPlace) (d : Fin 64) (a : Src)
  /-- scas: R286. -/
  | scas (w : CasW) (pl : AtomPlace) (d : Fin 64) (a : Src)
  /-- fence.ORD.S: R289. -/
  | fence (sc : Scope) (o : FenceOrd)
  /-- bar.arrive: R291. -/
  | barArrive (d : Fin 64) (a b : Src)
  /-- bar.wait: R292. -/
  | barWait (a b : Src)
  /-- mon: R293. -/
  | mon (a : Src)
  /-- mwait: R294. -/
  | mwait (d : Fin 64) (a : Src)
  /-- commitw: R290. -/
  | commitw
  /-- sleep: R136. -/
  | sleep (a : Src)
  /-- bcopy: R301. -/
  | bcopy (d a : Fin 64) (last : Bool) (b : Src)
  /-- bcopy.st: R302. -/
  | bcopySt (d a : Fin 64) (last : Bool) (b : Src)
  /-- ring.init: R305. -/
  | ringInit (a b : Src)
  /-- ring.take: R306. -/
  | ringTake (d : Fin 64) (a : Src)
  /-- ring.give: R306. -/
  | ringGive (a : Src)
  /-- ring.wait: R306. -/
  | ringWait (d : Fin 64) (a : Src)
  /-- tl.read: R307. -/
  | tlRead (d : Fin 64) (a : Src)
  /-- tl.wait: R307. -/
  | tlWait (a b : Src)
  /-- coll: R309. -/
  | coll (d : Fin 64) (a : Src)
  /-- ckpt.hold: R312. -/
  | ckptHold (d : Fin 64) (dm : Bool)
  /-- ckpt.release: R312. -/
  | ckptRelease (a : Src) (dm : Bool)
  /-- spawn: R130. -/
  | spawn (p : Fin 12) (a : Src) (b : Fin 64) (last : Bool)
  /-- chunk: R131. -/
  | chunk (d : Fin 64)
  /-- repack: R132. -/
  | repack (k : Fin 64)
  /-- slice: R133. -/
  | slice (d : Fin 64) (a : Src)
  /-- depdec: R134. -/
  | depdec (d : Fin 64) (a : Src)
  /-- yield: R135. -/
  | yield (a : Src)
  /-- clkiv: R209. -/
  | clkiv (d : Fin 64)
  /-- vshape: R208. -/
  | vshape (d : Dst) (r : VsRef)
  /-- capq: R139. -/
  | capq (d : Fin 64) (a : Src)
  /-- sget: R137. -/
  | sget (d : Fin 64) (r : SReg)
  /-- sset: R137. -/
  | sset (r : SReg) (b : Src)
  /-- trap: R140. -/
  | trap (k : BitVec 8)
  /-- rett: R141. -/
  | rett
  /-- bkpt: R140. -/
  | bkpt (k : BitVec 8)
deriving DecidableEq, Repr

end Sys2Proof
end

