-- ==== Sys2Proof/Machine/State.lean ====
section
/-!
DEFINITION. The state of the machine: everything the manual gives the device, as plain data; its value right after reset;
and the reasons a step can stop.
-/

namespace Sys2Proof.Machine

/-! ## Registers of a course (03) -/

/-- What a register-store name or an operand-file entry holds (R52, R54, R68); for an entry, `free` means invalid (R69). -/
inductive NameVal where
  /-- Code 00: unallocated. -/
  | free
  /-- Code 01, uniform. -/
  | uni (v : W32)
  /-- Code 10, affine: base, stride and the LINK bit of a 64-bit pair (R55). -/
  | aff (base stride : W32) (link : Bool)
  /-- Code 11, general: one value a lane. -/
  | gen (rows : List W32)
deriving DecidableEq, Repr

/-- The value of a latch at its record's shape (R76). -/
inductive LatchVal where
  | uni (v : W64)
  | aff (base stride : W64)
  | gen (rows : List W64)
deriving DecidableEq, Repr

/-- A latch record of a course (R70, R76), with the value the latch holds or held. -/
structure LatchRec where
  valid : Bool := false
  /-- Threads covered, bit l for lane l. -/
  lanes : W32 := 0
  val : LatchVal := .uni 0
  wide : Bool := false
  suppr : Bool := false
  dl : Bool := false
  dest : Nat := 0
  /-- The generation of the core's latch when the result was produced: the physical latch holds it while the core's
  generation is the same (R72). -/
  gen : Nat := 0
  /-- Saved with a hold, and not yet reloaded into the physical latch (R73, R367, R369). -/
  pinned : Bool := false
deriving DecidableEq, Repr

/-- A tile's state (R211), binary64 bit patterns. -/
structure Tile where
  c : List W64
  cr : List W64
  cc : List W64
  mc : List W64
  mr : List W64
  p : W64
deriving DecidableEq, Repr

/-! ## Threads (R26) -/

/-- What a thread waits for. A wait that is over lets the thread issue its unit again, or continues it, as its entry says. -/
inductive Wait where
  | none
  /-- Arrived at a join (R123). -/
  | join
  /-- Waiting at a conv (R124). -/
  | conv
  /-- Arrived at a repack with its sort value (R49, R132); the unit's instruction word and guard prefix, for a trap record (R361). -/
  | repack (key word guard : W32)
  /-- Stalled at an emit (R128). -/
  | emit
  /-- Arrived at a yield with its deadline (R135). -/
  | yield (deadline : W64)
  /-- Asleep for the cycles left (R136). -/
  | sleep (left : Nat)
  /-- An access to a device to which no plane works for now (R380). -/
  | link (dev : Nat)
  /-- In mwait: destination, cycles left if the count is nonzero (R294). -/
  | mwait (dest : Nat) (left : Option Nat)
  /-- At a bar.wait (R292). -/
  | barWait (b : Nat) (phase : W32)
  /-- The commit-wait of commitw or of a release (R262). -/
  | commit
  /-- An access that overlaps the thread's own pending stamped stores, by their numbers (R260). -/
  | stamped (ids : List Nat)
  /-- An lda waiting for the watermark of a domain at its home slice (R263). -/
  | lda (dom : StampDom) (t : W64)
  /-- Parked behind the operand log (R241), or a course whose log is full (R240). -/
  | log
  /-- At a full context queue (R299). -/
  | context (ctx : Nat)
  /-- At tl.wait: context and target (R307). -/
  | timeline (ctx : Nat) (target : W64)
  /-- At ring.take (R306). -/
  | ringTake (r : Nat)
  /-- At ring.wait or ring.init: every claimed fill completed (R305, R306). -/
  | ringIdle (r : Nat)
  /-- At tile.alloc (R212). -/
  | tilePool
  /-- At a matrix instruction whose pass waits for acceptance (R225, R331). -/
  | pass
  /-- At a matrix instruction that waits for earlier work on its tiles (R225). -/
  | tileBusy
  /-- An access of the device's own on the thread's behalf is held (R395). -/
  | internal
  /-- At a group or matrix instruction whose missing course-mates are all blocked: PARTIAL_MATRIX is due (R34). -/
  | unmet
  /-- Created from a deferred record out of range: FORK_RANGE is due at its unit, before that issues (R41). -/
  | range
deriving DecidableEq, Repr

/-- An armed monitor (R293): the home device (0 for this one) and line, and whether it has fired. -/
structure Monitor where
  device : Option Nat
  line : Nat
  fired : Bool
deriving DecidableEq, Repr

/-- A latch value saved for a thread that left its group (R367), or restored by rett: pipe, record, the thread's value. -/
structure SavedLatch where
  pipe : Fin 4
  record : LatchRec
  value : W64
  /-- The pipe is held for the thread's next lift (R367). -/
  hold : Bool
  /-- Saved with the whole group that held the pipe (R73): its next lift is the group's. -/
  group : Bool := false
  /-- The members of that group, as the device keeps them: no image holds them (log 38). -/
  members : List (Nat × Nat) := []
deriving DecidableEq, Repr

/-- How a parked thread came to be parked (R362). -/
structure Parked where
  code : Nat
  token : Nat
deriving DecidableEq, Repr

/-- A thread: one lane of a course (R26, R372). -/
structure Thread where
  pc : W64
  preds : BitVec 12 := 0
  tsw : W32 := 0
  root : W32 := 0
  /-- Ordinals of levels 1 up to DEPTH (R35). -/
  ords : List (BitVec 16) := []
  /-- On-chip return entries in use, bottom first (R122). -/
  stack : List W64 := []
  sp : W64 := 0
  /-- The draw counter C (R190). -/
  draws : W64 := 0
  fault : W32 := 0
  faultaddr : W64 := 0
  faultmask : W32 := 0
  tpc : W64 := 0
  /-- The trap record in the course image is valid: the thread is inside its handler (R359, R361). -/
  inHandler : Bool := false
  wait : Wait := .none
  /-- Length in bytes of the unit at which the thread waits. -/
  waitLen : Nat := 4
  /-- An lda has waited (status 2, R263). -/
  waited : Bool := false
  /-- The pending mwait was struck by a trap, a save or a stop (R294, R297). -/
  struck : Bool := false
  /-- Restored while it waited: the cycles left of its conv or sleep (R142, R372). -/
  progress : Option Nat := none
  /-- Cycles waited at the present instruction (R335). -/
  sentinel : Nat := 0
  /-- The cycle at which the thread last became ready (R329). -/
  readySince : Nat := 0
  parked : Option Parked := none
  saved : List SavedLatch := []
  monitor : Option Monitor := none
  /-- 0 none, 1 resume, 2 kill: recorded for a saved thread (R372). -/
  hostAction : Nat := 0
  /-- Stamped stores and bcopy.st commands not yet reported visible (R262). -/
  stamps : List Nat := []
  /-- Its remote writes and atomics not yet acknowledged (R252), and its parent's (R127): number and device. -/
  remote : List (Nat × Nat) := []
  /-- Resumed after LINK_LOST at a release: it waits again (R382). -/
  resumed : Bool := false
  /-- Halted by a stop: the token of the stop's record (R376); 0 where there is none. -/
  haltedBy : Nat := 0
deriving DecidableEq, Repr

/-! ## Memory accesses -/

/-- What a memory access does at its location; the unit the operand log replays (R240). -/
inductive AccKind where
  | load (size : Nat) (signed : Bool)
  | store (size : Nat)
  | atom (op : AtomOp)
  | cas (w : CasW)
  | sts (size : Nat)
  | lda (w64 : Bool)
  | mon
  | fetch (f : MFmt)
  /-- bcopy.st at its destination's first byte (R302). -/
  | copySt
deriving DecidableEq, Repr

/-- A memory access as an instruction makes it. -/
structure Access where
  kind : AccKind
  scope : Scope := .th
  order : Order := .relaxed
  /-- Destination name, for a load, an atomic, a stamp, lda or fetch. -/
  dest : Nat := 0
  /-- The stamp name of sts and lda. -/
  aux : Nat := 0
  /-- One access for the course (R235). -/
  uniform : Bool := false
deriving DecidableEq, Repr

/-- One lane's part of an access: its address, and store data or atomic operands captured at issue (R240). -/
structure LaneAcc where
  lane : Nat
  addr : W64
  data : List Byte := []
  /-- Row and column of a fetch (R296). -/
  row : W32 := 0
  col : W32 := 0
  /-- Replayed from the operand log, it has waited as an lda (status 2, R263). -/
  waited : Bool := false
deriving DecidableEq, Repr

/-- An entry of the operand log (R240, R373). -/
structure LogEntry where
  unitAddr : W64
  word : W32
  acc : Access
  lanes : List LaneAcc
  /-- Participating lanes of a uniform access, which share the entry. -/
  group : W32
  token : Nat
  replay : Bool := false
deriving DecidableEq, Repr

/-- Load data on its way to the register store (LOAD_COMPLETE, R278): destination names, and each lane's names' values. -/
structure PendingLoad where
  dest : Nat
  /-- A 64-bit value is left in b3. -/
  wide : Bool
  /-- The whole destination is written (R61, R63), as one value: one read for the course (R278), or a uniform-set access. -/
  full : Bool
  oneRead : Bool
  /-- Lanes written. -/
  lanes : List Nat
  /-- For every lane of `lanes`, the values of the names from `dest` on. -/
  vals : List (List W32)
  /-- The value is left in b3; a fetch leaves none (R278). -/
  latch : Bool
deriving DecidableEq, Repr

/-! ## Courses (R28) -/

/-- Where a course's own state has met an error that is not correctable (R377, R378): a name's line, an operand-file entry, a latch, a
tile. -/
inductive BadPlace where
  | name (n : Nat)
  | entry (n : Nat)
  | latch (k : Nat)
  | tile (k : Nat)
deriving DecidableEq, Repr

/-- A course: live threads by lane, the rename map with its dead masks, the operand file, latches, log and tiles. -/
structure Course where
  threads : FMap Thread := []
  names : List NameVal := List.replicate 64 .free
  dead : List W32 := List.replicate 64 0
  opf : List NameVal := List.replicate 16 .free
  latches : List LatchRec := List.replicate 4 {}
  tiles : List Tile := []
  log : List (Option LogEntry) := List.replicate 8 none
  loads : List PendingLoad := []
  suspended : Bool := false
  /-- Restored, and waiting for the tiles it held (R227, R369). -/
  awaitTiles : Bool := false
  /-- Count of a pending tile.alloc (R371). -/
  tileWait : Nat := 0
  /-- Cycles left of the conv units at which threads wait, by address (R124). -/
  convs : FMap Nat := []
  /-- Poisoned names, entries, latches and tiles (R378). -/
  bad : List BadPlace := []
  /-- Names whose lines are not in the register store but in the course image (R66). -/
  away : List Nat := []
  /-- The cycle in which a unit last named each name (R66). -/
  used : FMap Nat := []
deriving DecidableEq, Repr

/-! ## Teams (R29) -/

/-- A team barrier (R291). -/
structure Barrier where
  phase : W32 := 0
  arrived : Nat := 0
  exp : Nat := 0
deriving DecidableEq, Repr

/-- A spawned task (R46): entry and eight argument words, and the number of its arrival (R328). -/
structure Task where
  entry : W64
  args : List W32
  order : Nat := 0
deriving DecidableEq, Repr

/-- A spawn bin (R46, R47): its tasks in order of arrival, and its timer. -/
structure Bin where
  entry : W64 := 0
  tasks : List Task := []
  timer : Nat := 0
deriving DecidableEq, Repr

/-- An emission in the window (R128): the key of its thread, its value, its number in program order. -/
structure Emission where
  root : W32
  ords : List (BitVec 16)
  value : W64
  order : Nat
  /-- Its thread's stamped stores not yet visible, for which the commit's release waits (R129, R262). -/
  stamps : List Nat := []
deriving DecidableEq, Repr

/-- A slot of a ring (R304). -/
structure Slot where
  /-- 0 free, 1 claimed, 2 full, 3 taken. -/
  state : Nat := 0
  target : Nat := 0
  arrived : Nat := 0
deriving DecidableEq, Repr

/-- A slot ring (R304, R305). -/
structure Ring where
  wordA : W32 := 0
  wordB : W32 := 0
  slots : List Slot := []
  claim : Nat := 0
  take : Nat := 0
  /-- The oldest taken slot. -/
  give : Nat := 0
  /-- The waits at ring.take in order of arrival (R306): course, lanes and the unit's address. -/
  queue : List (Nat × List Nat × W64) := []
deriving DecidableEq, Repr

/-- A held access of the device's own (R395): what it must still write, and whether it waits for a plane (R380), with no record of
its own. -/
structure Held where
  addr : W64
  bytes : List Byte
  link : Bool := false
deriving DecidableEq, Repr

/-- A resident team (R29). -/
structure Team where
  part : Nat
  slice : Nat
  index : Nat
  core : Nat
  /-- Placement order on the device (R329). -/
  placed : Nat := 0
  /-- Cycle of the last placement (R323). -/
  since : Nat := 0
  allot : Nat
  ceiling : Nat
  /-- On-chip return entries K (R122). -/
  stackK : Nat
  trapbase : W64 := 0
  courses : FMap Course := []
  barriers : List Barrier := List.replicate 16 {}
  bins : List Bin := List.replicate 8 {}
  /-- Overflow tasks in the first 64 KiB of the team's area, oldest first: their slot numbers (R320), and the numbers of their
  arrival. -/
  overflow : List (Nat × Nat) := []
  taskOrder : Nat := 0
  spawns : Nat := 0
  emits : List Emission := []
  emitOrder : Nat := 1
  committed : Nat := 0
  lost : Bool := false
  rings : List Ring := List.replicate 8 {}
  /-- Core scratchpad bytes (R280). -/
  spad : Bytes := []
  /-- Poisoned 32-bit words of it (R377). -/
  spadBad : List Nat := []
  /-- Slots of the deferral area in use (R41). -/
  records : List Nat := []
  /-- By slot, what the parent of its copies had outstanding at the fork (R127): stamped stores, and remote writes. -/
  owed : FMap (List Nat × List (Nat × Nat)) := []
  /-- Held accesses of the device's own; the team does not issue while there is one (R395). -/
  held : List Held := []
  stopped : Bool := false
  /-- Frozen by a stop in team or device mode (R376). -/
  frozen : Bool := false
  /-- Cluster memory granted to the team alone or as the first of its gang, in bytes (R280). -/
  clmBytes : Nat := 0
  /-- The key of the team that holds the gang's cluster memory. -/
  clmOwner : Nat := 0
  clm : Bytes := []
  /-- Poisoned 32-bit words of it (R377). -/
  clmBad : List Nat := []
  /-- A save is due at the next instruction boundary (R324, R368). -/
  saveDue : Bool := false
  /-- The save is a pre-emption's (R323). -/
  evicted : Bool := false
  /-- A save has written its image but for held accesses (R395). -/
  saving : Bool := false
  /-- A restore whose reads are held (R369, R395). -/
  restoring : Bool := false
  /-- Kept of a saved team that was moved here from another device: nothing but held accesses (R390, R395). -/
  moved : Bool := false
  /-- The partition's block as it stood when the team was placed, where a write has changed it since (R339). -/
  block : Option (List Byte) := none
deriving DecidableEq, Repr

/-! ## Cores and clusters -/

/-- A line of an L1 (R246): its valid bytes by offset, the dirty ones, and exclusive ownership (R245). -/
structure L1Line where
  valid : FMap Byte := []
  dirty : List Nat := []
  owned : Bool := false
  /-- Dirty bytes with an error that is not correctable (R377). -/
  bad : List Nat := []
deriving DecidableEq, Repr

/-- A translation a TLB holds (R344). -/
structure TlbEntry where
  part : Nat
  va : Nat
  size : Nat
  leaf : W64
deriving DecidableEq, Repr

/-- A group that holds a pipe (R71): lane set or uniform set of its next lift is its own; `pipe` is the producer's. -/
structure Hold where
  pipe : Fin 4
  team : Nat
  members : List (Nat × Nat)
deriving DecidableEq, Repr

/-- A line of the register store that a saved course has left in place (R67): the course, by its team's key and its index, where the line stands
in the team's area, and its bytes. -/
structure LineLeft where
  team : Nat
  course : Nat
  va : Nat
  bytes : List Byte
deriving DecidableEq, Repr

/-- A core (R11, R15). -/
structure Core where
  /-- Lines that saved courses have left in the register store, evictable, oldest first (R67). -/
  left : List LineLeft := []
  l1 : FMap L1Line := []
  tlb : List TlbEntry := []
  /-- Instruction-cache lines by physical line address (R99). -/
  icache : FMap (List Byte) := []
  /-- Fetch-cache lines by physical line address (R270). -/
  fcache : FMap (List Byte) := []
  holds : List Hold := []
  /-- Generations of the latches b0 to b3: one more each time its pipe leaves a result (R70, R72); 0 is none, of a record whose value is
  lost. -/
  latchGen : List Nat := [1, 1, 1, 1]
  laneIssued : Bool := false
  uniIssued : Bool := false
  /-- The carve in 64 KiB granules: register store, scratchpad, L1 (R15). -/
  carve : Nat × Nat × Nat := (12, 12, 8)
deriving DecidableEq, Repr

/-- Work an engine has accepted or a course has asked of it. -/
inductive EngineOp where
  /-- A pass: format, tile, the A and B rows read at acceptance, and Q for mma.sp (R218, R221). -/
  | pass (f : MFmt) (tile : Nat) (a b : List (List W32)) (q : Option W32)
  | zero (tile : Nat)
  | fill (k : FillKind) (tile col : Nat) (src : List (List W32))
deriving DecidableEq, Repr

/-- A request in the reservation table (R331). -/
structure Request where
  who : CourseRef
  f : MFmt
  tile : Nat
  aBase : Nat
  bBase : Nat
  aLast : Bool
  bLast : Bool
  sparse : Bool
  passed : Nat := 0
  unitAddr : W64
  unitLen : Nat
deriving DecidableEq, Repr

/-- A cluster's engine and shares (R16, R17, R212, R331). -/
structure Cluster where
  /-- Requests in order of arrival: the first 16 are the reservation table, the rest wait outside. -/
  requests : List Request := []
  /-- Accepted work not yet applied, in order. -/
  work : List (CourseRef × EngineOp) := []
  freeTiles : Nat := 64
  /-- Courses waiting for tiles, in order of arrival. -/
  pool : List CourseRef := []
  /-- The gang that holds the reservation: its slice's key, and its number in the grid (R326). -/
  reserved : Option (Nat × Nat) := none
deriving DecidableEq, Repr

/-! ## Slices and engine contexts -/

/-- What an engine command does (R301, R302, R309). -/
inductive CmdKind where
  | copy (dst src : W64) (n : Nat)
  | fill (team ring : Nat) (src : W64) (n : Nat)
  | prefetch (core : Nat) (src : W64) (n : Nat)
  | ckpt (dst src : W64) (n : Nat) (t : W64)
  | copySt (dst src : W64) (n : Nat) (stamp : W64)
  | coll (desc : List Byte)
deriving DecidableEq, Repr

/-- An engine command (R299). -/
structure Cmd where
  num : Nat
  kind : CmdKind
  started : Bool := false
  /-- Slot claimed by a ring fill. -/
  slot : Nat := 0
  /-- Bytes written so far (R308). -/
  progress : Nat := 0
  /-- The bytes it writes, once they are known: the source as it was before the command wrote (R301), or a result (R310). -/
  data : Option (List Byte) := none
  /-- A fault has stopped the command; its record's token (R308). -/
  fault : Option Nat := none
  /-- Of a fixed group's collective: its ordinal, given at issue (R310). -/
  ordinal : Nat := 0
  /-- Instance of a collective it takes part in: group (64 the open group) and ordinal or tag. -/
  instId : Option (Nat × Nat) := none
  /-- Its place in the order of joining of an open instance (R311). -/
  rank : Nat := 0
  /-- The bytes it writes wait to become visible (R267). -/
  pendingStamps : List Nat := []
deriving DecidableEq, Repr

/-- An engine context of a slice (R299, R307). -/
structure Ctx where
  last : Nat := 0
  counter : Nat := 0
  queue : List Cmd := []
  /-- Numbers completed out of order, above the counter. -/
  completed : List Nat := []
  faulted : Bool := false
  lost : Bool := false
deriving DecidableEq, Repr

/-- States of a slice entry (R321); Free is the absence of an entry. -/
inductive SliceState where
  | waiting | ready | running | stopped | complete
deriving DecidableEq, Repr

/-- A job slice (R319, R321). -/
structure Slice where
  part : Nat
  num : Nat
  state : SliceState
  privileged : Bool := false
  recAddr : W64 := 0
  /-- The 128-byte record as read at submission. -/
  record : List Byte := []
  deadline : W64 := 0
  consumed : Nat := 0
  depcount : Nat := 0
  chunkRem : Nat := 0
  ctxs : List Ctx := List.replicate 4 {}
  /-- The lowest team index never placed. -/
  nextTeam : Nat := 0
  /-- Saved teams that wait for placement. -/
  savedTeams : List Nat := []
  /-- Lost teams to launch again (R383). -/
  relaunch : List Nat := []
  /-- Teams that have ended, as ranges: first, count. -/
  ended : List (Nat × Nat) := []
  /-- Teams retired as lost. -/
  retired : List Nat := []
  /-- Teams with a complete save in memory (R383). -/
  hasImage : List Nat := []
  /-- Spawn of the stream: a team set LOST (R129). -/
  streamLost : Bool := false
  redispatched : Nat := 0
  firstCode : Nat := 0
  records : Nat := 0
  eccs : Nat := 0
  killed : Bool := false
  /-- The period has ended at yields; teams continue when the scheduler runs the slice (R135). -/
  yielded : List Nat := []
  /-- Saved teams of which every live thread waits at a yield. -/
  savedYields : List (Nat × List W64) := []
  /-- What the device keeps of a saved team beside its image: deferral and overflow slots in use, commits (R41, R46, R129). -/
  kept : FMap Team := []
deriving DecidableEq, Repr

/-! ## Partitions (R339) -/

/-- A ring of records with its registers (R363, R379, R385): base, log2 of the size, head, tail, status, vector. -/
structure RecRing where
  base : W64 := 0
  size : Nat := 6
  head : W32 := 0
  tail : W32 := 0
  stat : W32 := 0
  vec : W32 := 0
  /-- ECOUNT and ETIME of an event ring (R385). -/
  count : Nat := 1
  time : Nat := 0
  /-- Records waiting in the device, in order; the E of posting is filled in at posting. -/
  waiting : List (List Byte) := []
  /-- Records posted since the last signal, and the time of the first of them. -/
  unsignalled : Nat := 0
  firstAt : Nat := 0
deriving DecidableEq, Repr

/-- What a fault-ring token stands for (R365). -/
inductive Subject where
  | thread (t : ThreadRef) (code : Nat) (halts : List ThreadRef)
  | logEntry (c : CourseRef) (entry : Nat)
  | engine (slice ctx num : Nat)
  | slice (key : Nat)
  | internal (slice team : Nat)
  | hostAccess
deriving DecidableEq, Repr

/-- A deadline class's counters (R325). -/
structure ClassCount where
  count : W64 := 0
  misses : W64 := 0
  worst : W64 := 0
deriving DecidableEq, Repr

/-- A member's part in a collective instance (R310). -/
structure Member where
  device : Nat
  kind : Nat
  op : Nat
  count : Nat
  root : Nat
  bytes : List Byte
deriving DecidableEq, Repr

/-- A collective instance (R310, R311): group (64 the open group), ordinal or tag, members in order of joining. -/
structure CollInstance where
  group : Nat
  tag : Nat
  members : List Member := []
  started : Bool := false
  openedAt : Nat := 0
deriving DecidableEq, Repr

/-- A partition (R339, R363, R385, R379, R387). -/
structure Partition where
  /-- The configuration block, 1,408 bytes (R339). -/
  block : List Byte := List.replicate 1408 0
  faultRing : RecRing := {}
  eventRings : List RecRing := List.replicate 16 {}
  errorLog : RecRing := {}
  nextToken : Nat := 1
  subjects : FMap Subject := []
  holds : List Nat := []
  domHolds : List Nat := []
  classes : List ClassCount := List.replicate 16 {}
  nextSlice : Nat := 1
  lastCore : Nat := 767
  /-- Chip scratchpad by offset (R280). -/
  chip : Bytes := []
  /-- Poisoned granules of it (R377). -/
  chipBad : List Nat := []
  /-- Open and fixed collective instances, and this device's next ordinal in each fixed group. -/
  instances : List CollInstance := []
  ordinals : FMap Nat := []
deriving DecidableEq, Repr

/-- An INVAL that is not complete (R345): its partition and range, and the stamped stores it waits for. -/
structure Inval where
  part : Nat
  va : Nat
  len : Nat
  stores : List Nat
deriving DecidableEq, Repr

/-- A command mailbox (R353). -/
structure Mailbox where
  cmd : W64 := 0
  busy : Bool := false
  result : Nat := 0
  overrun : Bool := false
  args : List W64 := List.replicate 4 0
  cvec : BitVec 16 := 0xFFFF
  payload : Bytes := []
  /-- The INVAL in progress (R345). -/
  inval : Option Inval := none
  /-- The command is accepted, and waits until the one in progress is complete (R352). -/
  queued : Bool := false
deriving DecidableEq, Repr

/-! ## The device -/

/-- A version of a stamped line that is no longer the latest (R264). -/
structure Version where
  stamp : Nat
  /-- The stamp domain of its page. -/
  dom : StampDom
  bytes : List Byte
  /-- Its copy in the version reserve is poisoned (R377). -/
  bad : Bool := false
deriving DecidableEq, Repr

/-- A piece of a stamped store at its home: another device, if it lies there (R251), the physical address and the bytes. -/
structure Piece where
  dev : Option Nat := none
  pa : Nat
  bytes : List Byte
deriving DecidableEq, Repr

/-- A stamped store on its way to visibility (R260). -/
structure StampedStore where
  id : Nat
  part : Nat
  dom : StampDom
  /-- Issuing die. -/
  die : Nat
  stamp : Nat
  /-- The device of the domain that issued it, if another (R258, R355). -/
  source : Option Nat := none
  /-- One for sts, the command's for bcopy.st. -/
  pieces : List Piece
  /-- The virtual address, for the issuing thread's own accesses. -/
  va : W64
  held : Bool := false
  visible : Bool := false
  /-- The threads that issued it, as a save finds them (R290): commitw waits for it after the restore. -/
  who : List ThreadRef := []
  cmd : Option (Nat × Nat) := none
deriving DecidableEq, Repr

/-- A die's stamp clock (R209, R256, R257, R259) and presence (R381). -/
structure Die where
  e : Nat := 0
  l : Nat := 0
  last : Nat := 0
  pkceil : Nat := 16
  dmceil : Nat := 400
  /-- The copies of W that home slices of the die hold: package, and the domain's by partition, whose window names the die set (R258,
  R260). -/
  wPackage : Nat := 0
  wDomain : List Nat := List.replicate 16 0
  alive : Bool := true
  inSet : Bool := true
  lostAt : Nat := 0
  /-- Of a lost die: its last reports of its watermark, of package and of domain stamps (R265, R382). -/
  lastPackage : Nat := 0
  lastDomain : Nat := 0
deriving DecidableEq, Repr

/-- Another device of the domain, as this one sees it (R355, R381). -/
structure Peer where
  mem : Bytes := []
  /-- The stamps of its stamped lines, and their older versions, as far as this device has heard of them (R263, R264). -/
  lineStamp : FMap Nat := []
  versions : FMap (List Version) := []
  /-- The ranges of its memory that requests of this device's partitions reach: partition here, partition there, base, length;
  nothing where this device has not learned them. -/
  grants : Option (List (Nat × Nat × Nat × Nat)) := none
  /-- Granules of its memory that are poisoned (R378), as far as this device has heard of them. -/
  poison : List Nat := []
  /-- Its lowest watermark of the domain (R260). -/
  watermark : Nat := 0
  reachable : Bool := true
deriving DecidableEq, Repr

/-- A signal or message the device sends out (MSI-X, R363, R385, R353; vendor-defined messages; BAR2 answers). -/
inductive Signal where
  | msix (part : Nat) (vector : Nat)
  | commandDone (m : Mbox) (vector : Nat)
  | message (pf : Fin 2) (status : W32) (args : List W64) (payload : List Byte)
  | bar2 (part : Nat) (bytes : List Byte)
  | unsupportedRequest (part : Nat)
  | completerAbort (part : Nat)
  | flitRetry (port : Nat)
  | remoteDone (device : Nat) (bytes : List Byte)
  | remoteProt (device : Nat)
  | remotePoison (device : Nat)
  | contribution (part : Nat) (group tag : Nat) (m : Member)
  | timeMessage (port : Nat) (stamp : W64)
deriving DecidableEq, Repr

/-- Boot states (R353). -/
inductive Boot where
  | booting | bootFail | reduced | full
deriving DecidableEq, Repr

/-- The lift and unit being executed (R32, R78): what step hands to the meanings. Fields of the model's own. -/
structure Issue where
  core : Nat := 0
  team : Nat := 0
  uniform : Bool := false
  /-- Members of the lift: course and lane, ascending. -/
  lift : List (Nat × Nat) := []
  /-- Participating members (R60). -/
  parts : List (Nat × Nat) := []
  addr : W64 := 0
  /-- Length of the unit in bytes. -/
  len : Nat := 0
  guardWord : W32 := 0
  word : W32 := 0
  literal : W32 := 0
  /-- The operands of the unit, for a trap record (R361). -/
  operands : List Src := []
  /-- Threads that retired a unit: team, course, lane (R375). -/
  retired : List (Nat × Nat × Nat) := []
  /-- The holds this lift consumes (R71, R367). -/
  consumed : List Hold := []
  /-- The partition's block in force, while the lift runs under its team's (R339). -/
  block : Option (List Byte) := none
deriving DecidableEq, Repr

/-- The machine. -/
structure State where
  /-- Events due, oldest first (log 2). -/
  agenda : List Instr
  issue : Issue
  /-- Index of the next free value (log 4). -/
  freeCtr : Nat
  signals : List Signal
  boot : Boot
  failStage : Nat
  /-- M_0 to M_3 (R347). -/
  measures : List (BitVec 512)
  /-- Core clock in MHz (R24, R388). -/
  clockMHz : Nat
  throttles : Nat
  thermalStop : Bool
  thermalEvents : Nat
  cycle : Nat
  /-- Package time in ns (R256), and the part of a ns below it, in parts of which 5,354,228,880 make a ns. -/
  ns : Nat
  nsFrac : Nat
  /-- U in ps as of a package time in ns; it grows from there (R256). -/
  uPs : Nat
  uAt : Nat
  /-- The package time at which a time message is next due on each port (R256). -/
  linkAt : List Nat
  /-- The package time at which the last working plane failed (R380). -/
  linkDown : Option Nat
  keystone : Nat
  dies : List Die
  /-- Device number in the domain, domain present, working link ports (R389). -/
  devNumber : Nat
  domain : Bool
  ports : BitVec 18
  /-- Failed die-to-die ports: pairs of dies (R380). -/
  diePorts : List (Nat × Nat)
  peers : FMap Peer
  /-- Corrected errors by unit: source × 1,024 + unit number (R377). -/
  corrected : FMap Nat
  errorLog : RecRing
  /-- PWSEL of each PF (R353). -/
  pwsel : List Nat
  pfMail : List Mailbox
  vfMail : List Mailbox
  /-- Home device memory by physical address (R393). -/
  mem : Bytes
  /-- Host memory behind the host windows (R351). -/
  hostMem : Bytes
  /-- Poisoned granules: physical address / 32 (R378). -/
  poison : List Nat
  /-- Those of them whose error lies in an L2 slice and not in a tower (R377, R379). -/
  l2Poison : List Nat
  /-- The stamp of each stamped line's latest version, by physical line (R264); unlisted is 0. -/
  lineStamp : FMap Nat
  /-- Older versions by physical line, newest first. -/
  versions : FMap (List Version)
  stores : List StampedStore
  nextStore : Nat
  /-- By 64 KiB unit of memory, the pages that map it as this device has last seen them: the partition, the page in the same units, and
  whether it was stamped (R258). -/
  stampedPages : FMap (List (Nat × Nat × Bool))
  /-- Messages whose INVAL is in progress, with their answers (R345, R352). -/
  replies : List (Inval × Signal)
  /-- Reads as of a stamp that another device asks for and that wait for W (R263). -/
  remoteWaits : List RemoteReq
  /-- Events that wait for a plane to a device that is not unreachable yet (R380). -/
  linkWaits : List Instr
  /-- Commands of mailboxes and messages that wait until the one in progress is complete, oldest first (R352). -/
  cmdWaits : List Instr
  cores : FMap Core
  clusters : FMap Cluster
  parts : List Partition
  slices : FMap Slice
  teams : FMap Team
  placements : Nat
deriving DecidableEq, Repr

/-- The machine right after reset: the boot ROM is about to load the firmware (RESET stands on the agenda, R347). Values the
manual gives: FRSIZE and ESIZE 6, ECOUNT 1, CVEC 0xFFFF, the clock ceilings 400 and 16, SLICES 1,024, SENTINEL 28, WINDOW
10,000,000, measurement registers 0, last[d] 0, the reduced-service clock; every other value is 0 or empty (logs 1, 2, 5). -/
def State.reset : State where
  agenda := [.reset]
  issue := {}
  freeCtr := 0
  signals := []
  boot := .booting
  failStage := 0
  measures := List.replicate 4 0
  clockMHz := 150
  throttles := 0
  thermalStop := false
  thermalEvents := 0
  cycle := 0
  ns := 0
  nsFrac := 0
  uPs := 0
  uAt := 0
  linkAt := List.replicate 18 0
  linkDown := none
  keystone := 0
  dies := List.replicate 4 {}
  devNumber := 0
  domain := false
  ports := 0
  diePorts := []
  peers := []
  corrected := []
  errorLog := {}
  pwsel := [0, 0]
  pfMail := List.replicate 2 {}
  vfMail := List.replicate 16 {}
  mem := []
  hostMem := []
  poison := []
  l2Poison := []
  lineStamp := []
  versions := []
  stores := []
  nextStore := 0
  stampedPages := []
  replies := []
  remoteWaits := []
  linkWaits := []
  cmdWaits := []
  cores := []
  clusters := []
  parts := List.replicate 16
    { block := List.replicate 0x24 0 ++ leBytes 4 1024 ++ leBytes 8 28 ++ leBytes 8 10000000 ++ List.replicate (1408 - 0x38) 0 }
  slices := []
  teams := []
  placements := 0

/-! ## Why a step stops -/

/-- Faults of the machine as a model: each names what the manual gives no behaviour for. -/
inductive Fault where
  /-- A ring register names a physical address that holds no memory (R393): raised when a record is posted there. The manual
  gives no effect. Safe: the model stops where the device does something. -/
  | noMemory (pa : Nat)
deriving DecidableEq, Repr

/-- Refusals of the model. -/
inductive Refusal where
  /-- An instruction without a meaning yet, by its mnemonic; raised by exec only. Safe. -/
  | notModelled (mnemonic : String)
deriving DecidableEq, Repr

end Sys2Proof.Machine
end

