-- ==== Sys2Proof/WellFormed.lean ====
section
/-!
DEFINITION. When an instruction is one the encoding rules admit: the operand types of R87 to R91, the pair rules, the
ranges of names, the selectors that exist. It is written from the entries, not from the decoder; `Laws` proves the two agree.
-/

namespace Sys2Proof

/-- The type an entry gives an A or B operand, as far as decoding sees it. `i64` and `b64` differ in how a literal is
widened (R90); `addr` is a device-memory address (R83); `fp8` an E4M3 or E5M2 source (R88). -/
inductive Ty where
  | b32 | b64 | i64 | f16 | bf16 | f32 | f64 | f16x2 | bf16x2 | f32x2 | fp8 | addr
deriving DecidableEq, Repr

/-- Operands of 64 bits name a pair (R91). -/
def Ty.isPair : Ty → Bool
  | .b64 | .i64 | .f64 | .f32x2 | .addr => true
  | .b32 | .f16 | .bf16 | .f32 | .f16x2 | .bf16x2 | .fp8 => false

/-- The column of R88 for integer and bit types. -/
def Ty.isInt : Ty → Bool
  | .b32 | .b64 | .i64 => true
  | .f16 | .bf16 | .f32 | .f64 | .f16x2 | .bf16x2 | .f32x2 | .fp8 | .addr => false

/-- Types that admit no special source at all: FP8 (R88) and device addresses (R83, R90). -/
def Ty.noSpecial : Ty → Bool
  | .fp8 | .addr => true
  | .b32 | .b64 | .i64 | .f16 | .bf16 | .f32 | .f64 | .f16x2 | .bf16x2 | .f32x2 => false

/-- Whether a special source is valid for a type (R88). -/
def Special.validFor (ty : Ty) : Special → Bool
  | .int _ => !ty.noSpecial
  | .fpc _ | .negZero => !ty.noSpecial && !ty.isInt
  | .lane | .tid | .course | .team => ty.isInt

/-- Whether an operand is the literal (R90). -/
def Src.isLit : Src → Bool
  | .lit _ => true
  | .reg _ _ | .opf _ | .latch _ | .special _ => false

/-- The operand's mode suits its type (R88, R90). -/
def Src.modeOk (ty : Ty) : Src → Bool
  | .special s => s.validFor ty
  | .lit _ => !ty.noSpecial
  | .reg _ _ | .opf _ | .latch _ => true

/-- A pair operand names an even register or operand-file entry; a latch has no alignment rule (R91). -/
def Src.pairOk (ty : Ty) : Src → Bool
  | .reg n _ => !ty.isPair || n.val % 2 == 0
  | .opf n => !ty.isPair || n.val % 2 == 0
  | .latch _ | .special _ | .lit _ => true

/-- An operand that the entry admits. -/
def Src.ok (ty : Ty) (s : Src) : Bool := s.modeOk ty && s.pairOk ty

/-- A 64-bit result needs an even name or entry (R68, R91). -/
def Dst.pairOk (wide : Bool) : Dst → Bool
  | .reg n => !wide || n.val % 2 == 0
  | .opf n => !wide || n.val % 2 == 0
  | .sup => true

/-- N = 1 where the entry allows it (R71, R168). -/
def Dst.supOk (n : Bool) : Dst → Bool
  | .sup => n
  | .reg _ | .opf _ => true

/-- Not an operand-file destination: I format has no DL bit (R82). -/
def Dst.noOpf : Dst → Bool
  | .opf _ => false
  | .reg _ | .sup => true

/-- A destination that the entry admits. -/
def Dst.ok (wide n : Bool) (d : Dst) : Bool := d.pairOk wide && d.supOk n

/-- At most one operand is the literal (R90). -/
def oneLit (a b : Src) : Bool := !(a.isLit && b.isLit)

/-- The A operand's type of a conversion source (R185). -/
def CvtSrc.ty : CvtSrc → Ty
  | .f64 => .f64 | .f32 => .f32 | .f16 => .f16 | .bf16 => .bf16 | .e4m3 => .fp8 | .e5m2 => .fp8
  | .i32 => .b32 | .n32 => .b32 | .i64 => .i64 | .n64 => .b64
  | .f32x2 => .f32x2 | .f16x2 => .f16x2 | .bf16x2 => .bf16x2

/-- The destination kinds of the eight conversion opcodes (R185). -/
inductive CvtDst where
  | f32 | f64 | h16 | f8 | i32 | n32 | i64 | n64
deriving DecidableEq, Repr

/-- The conversions that exist (R186); `x` is the destination choice of 0x52 and 0x53. -/
def cvtDefined (d : CvtDst) (x : Bool) (s : CvtSrc) (rm : Round) (sat : Bool) : Bool :=
  let rne := rm == .rne
  match d with
  | .f32 =>
    match s with
    | .f64 => true
    | .f32 | .i32 | .n32 | .i64 | .n64 => !sat
    | .f16 | .bf16 | .e4m3 | .e5m2 => rne && !sat
    | .f32x2 | .f16x2 | .bf16x2 => false
  | .f64 =>
    match s with
    | .f64 | .i64 | .n64 => !sat
    | .f32 | .f16 | .bf16 | .e4m3 | .e5m2 | .i32 | .n32 => rne && !sat
    | .f32x2 | .f16x2 | .bf16x2 => false
  | .h16 =>
    match s with
    | .f64 | .f32 => true
    | .bf16 => rne && !x
    | .f16 => rne && x
    | .i32 | .n32 | .f32x2 => rne
    | .e4m3 | .e5m2 | .i64 | .n64 | .f16x2 | .bf16x2 => false
  | .f8 =>
    match s with
    | .f32 | .f16 | .bf16 | .f32x2 | .f16x2 | .bf16x2 => rne
    | .f64 | .e4m3 | .e5m2 | .i32 | .n32 | .i64 | .n64 => false
  | .i32 => cvtInt s .i32
  | .n32 => cvtInt s .n32
  | .i64 => cvtInt s .i64
  | .n64 => cvtInt s .n64
where
  /-- Rows 0x54 to 0x57 of R186: from floating point without saturation, from the other integer types by RNE. -/
  cvtInt (s own : CvtSrc) : Bool :=
    match s with
    | .f64 | .f32 | .f16 | .bf16 => !sat
    | .i32 | .n32 | .i64 | .n64 => rm == .rne && !(s == own)
    | .e4m3 | .e5m2 | .f32x2 | .f16x2 | .bf16x2 => false

/-- 64-bit conversion results (R186). -/
def CvtDst.wide : CvtDst → Bool
  | .f64 | .i64 | .n64 => true
  | .f32 | .h16 | .f8 | .i32 | .n32 => false

/-- The operand type of a reduction kind (R201). -/
def RedKind.ty : RedKind → Ty
  | .addI32 | .andB32 | .orB32 | .xorB32 | .maxI32 | .minI32 | .maxN32 | .minN32 => .b32
  | .addI64 => .i64
  | .addF32 | .mulF32 | .maxF32 | .minF32 | .maxnF32 | .minnF32 => .f32
  | .addF64 => .f64

/-- The 64-bit reduction kinds (R201). -/
def RedKind.wide (k : RedKind) : Bool := k.ty.isPair

/-- The operand type of a bit function (R175). -/
def BitOp.ty : BitOp → Ty
  | .notB64 | .popcB64 | .clzB64 | .ctzB64 | .brevB64 | .bswapB64 => .b64
  | .notB32 | .popcB32 | .clzB32 | .ctzB32 | .brevB32 | .bswapB32 | .sextI8 | .sextI16 | .sextI32 | .zextN32 => .b32

/-- The bit functions with a 64-bit result (R175). -/
def BitOp.wide : BitOp → Bool
  | .notB64 | .brevB64 | .bswapB64 | .sextI32 | .zextN32 => true
  | .popcB64 | .clzB64 | .ctzB64 | .notB32 | .popcB32 | .clzB32 | .ctzB32 | .brevB32 | .bswapB32 | .sextI8 | .sextI16 => false

/-- Element names of a fragment (R214). -/
def MFmt.elemNames : MFmt → Nat
  | .mxf6 => 6
  | .e4m3 | .e5m2 | .e4m3e5m2 | .e5m2e4m3 | .mxf8 | .mxf4 | .i4x | .mxi8 | .bf16 | .f16 | .f32 | .f64 => 8

/-- Scale names of a fragment (R214). -/
def MFmt.scaleNames : MFmt → Nat
  | .mxf8 | .mxf6 | .mxf4 | .i4x | .mxi8 => 1
  | .e4m3 | .e5m2 | .e4m3e5m2 | .e5m2e4m3 | .bf16 | .f16 | .f32 | .f64 => 0

/-- Names of a fragment, the scale included (R215). -/
def MFmt.names (f : MFmt) : Nat := f.elemNames + f.scaleNames

/-- The exact-pass formats (R214), those mma.sp accepts (R221). -/
def MFmt.exactPass : MFmt → Bool
  | .f32 | .f64 => false
  | .e4m3 | .e5m2 | .e4m3e5m2 | .e5m2e4m3 | .mxf8 | .mxf6 | .mxf4 | .i4x | .mxi8 | .bf16 | .f16 => true

/-- The element kinds of tile.qdrain (R224). -/
inductive QKind where
  | mxf8 | mxf6 | mxf4 | mxi8
deriving DecidableEq, Repr

/-- Element names of a requantising drain (R224). -/
def QKind.elemNames : QKind → Nat
  | .mxf8 | .mxi8 => 8
  | .mxf6 => 6
  | .mxf4 => 4

/-- Size in bytes of a plain load (R273). -/
def LdKind.size : LdKind → Nat
  | .n8 | .i8 => 1 | .n16 | .i16 => 2 | .b32 => 4 | .b64 => 8 | .b128 => 16

/-- Size in bytes of a plain store (R273). -/
def StKind.size : StKind → Nat
  | .b8 => 1 | .b16 => 2 | .b32 => 4 | .b64 => 8 | .b128 => 16

/-- The register alignment a size asks of its name (R273): even for 8 bytes, a multiple of 4 for 16. -/
def nameAlign (size : Nat) : Nat := if size = 16 then 4 else if size = 8 then 2 else 1

/-- Size in bytes of ldx and stx (R280). -/
def XWidth.size : XWidth → Nat
  | .n8 => 1 | .n16 => 2 | .b32 => 4 | .b64 => 8

/-- The 64-bit atomics (R283). -/
def AtomOp.w64 : AtomOp → Bool
  | .addB64 | .maxN64 | .minN64 | .casB64 => true
  | .addB32 | .andB32 | .orB32 | .exchB32 | .maxI32 | .minI32 | .maxN32 | .minN32 | .casB32 | .faddF32 | .fminF32 | .fmaxF32 => false

/-- The compare-and-swap forms (R283). -/
def AtomOp.isCas : AtomOp → Bool
  | .casB32 | .casB64 => true
  | .addB32 | .addB64 | .andB32 | .orB32 | .exchB32 | .maxI32 | .minI32 | .maxN32 | .minN32 | .maxN64 | .minN64
  | .faddF32 | .fminF32 | .fmaxF32 => false

/-- Names an atomic uses from vD on: the old value and its operands (R283). -/
def AtomOp.span (op : AtomOp) : Nat := (if op.w64 then 2 else 1) * (if op.isCas then 3 else 2)

/-- Names one value of scas takes (R286). -/
def CasW.names : CasW → Nat
  | .b32 => 1 | .b64 => 2 | .b128 => 4

/-- The address operand's type of an atomic (R282): a pair in device memory, a 32-bit offset at a level. -/
def AtomPlace.ty : AtomPlace → Ty
  | .dev _ _ => .addr
  | .level _ => .b32

/-- A level place. -/
def AtomPlace.isLevel : AtomPlace → Bool
  | .dev _ _ => false
  | .level _ => true

/-- The special registers of 64 bits (R137). -/
def SReg.w64 : SReg → Bool
  | .tsw | .slice | .clkw | .fault | .faultmask => false
  | .key0 | .key1 | .key2 | .key3 | .key4 | .budget | .deadline | .trapbase | .faultaddr | .tpc => true

/-- R format with two operands. -/
def wfR2 (ta tb : Ty) (wide n : Bool) (d : Dst) (a b : Src) : Bool :=
  d.ok wide n && a.ok ta && b.ok tb && oneLit a b
/-- R format with one operand, Rs included. -/
def wfR1 (ta : Ty) (wide : Bool) (d : Dst) (a : Src) : Bool := d.ok wide true && a.ok ta
/-- I format (R82). -/
def wfI1 (ta : Ty) (wide : Bool) (d : Dst) (a : Src) : Bool := d.ok wide true && d.noOpf && a.ok ta
/-- Rp format (R86). -/
def wfRp (ta : Ty) (a b : Src) : Bool := a.ok ta && b.ok ta && oneLit a b
/-- A conversion (R186). -/
def wfCvt (k : CvtDst) (x : Bool) (d : Dst) (a : Src) (s : CvtSrc) (rm : Round) (sat : Bool) : Bool :=
  cvtDefined k x s rm sat && d.ok k.wide true && a.ok s.ty
/-- A matrix pass (R213, R214, R221): its ranges end at v63, FP64 bases are even. -/
def wfMma (sp : Bool) (f : MFmt) (a b : Fin 64) : Bool :=
  (!sp || f.exactPass) && a.val + f.names ≤ 64 && b.val + f.names + (if sp then 1 else 0) ≤ 64 &&
  (!(f == .f64) || (a.val % 2 == 0 && b.val % 2 == 0))
/-- tile.fill and tile.drain (R223): 16 names; an even base for .f64. -/
def wfTile16 (even : Bool) (base : Fin 64) (col : Src) : Bool :=
  base.val + 16 ≤ 64 && (!even || base.val % 2 == 0) && col.ok .b32
/-- tile.qdrain (R224): the range ends at v63 and the scale name lies outside it. -/
def wfQdrain (q : QKind) (base scale : Fin 64) : Bool :=
  base.val + q.elemNames ≤ 64 && (scale.val < base.val || base.val + q.elemNames ≤ scale.val)
/-- A plain or ordered device-memory access (R273, R275). -/
def wfMem (size : Nat) (d : Fin 64) (a : Src) : Bool := d.val % nameAlign size == 0 && a.ok .addr
/-- ldx, stx and their twins (R280). -/
def wfX (w : XWidth) (d : Fin 64) (a : Src) : Bool := d.val % nameAlign w.size == 0 && a.ok .b32
/-- An atomic (R282, R283). -/
def wfAtom (op : AtomOp) (pl : AtomPlace) (d : Fin 64) (a : Src) : Bool :=
  d.val + op.span ≤ 64 && (!op.w64 || d.val % 2 == 0) && a.ok pl.ty
/-- scas (R286). -/
def wfScas (w : CasW) (pl : AtomPlace) (d : Fin 64) (a : Src) : Bool :=
  d.val + 3 * w.names ≤ 64 && d.val % w.names == 0 && !(w == .b128 && pl.isLevel) && a.ok pl.ty
/-- sts (R287): the stamp goes to an even pair. -/
def wfSts (k : StKind) (d : Fin 64) (a : Src) (s : Fin 64) : Bool := wfMem k.size d a && s.val % 2 == 0
/-- lda (R288): the status name follows the value. -/
def wfLda (w64 : Bool) (d : Fin 64) (a : Src) (t : Fin 64) : Bool :=
  d.val + (if w64 then 3 else 2) ≤ 64 && (!w64 || d.val % 2 == 0) && t.val % 2 == 0 && a.ok .addr
/-- fetch and gather (R296): element names, scale name, status name. -/
def wfFetch (f : MFmt) (d : Fin 64) (a : Src) : Bool :=
  d.val + f.names + 1 ≤ 64 && (!(f == .f64) || d.val % 2 == 0) && a.ok .addr
/-- Two operands and no destination. -/
def wfAB (ta tb : Ty) (a b : Src) : Bool := a.ok ta && b.ok tb && oneLit a b
/-- A register destination of an alignment and one operand. -/
def wfDA (ta : Ty) (align : Nat) (d : Fin 64) (a : Src) : Bool := d.val % align == 0 && a.ok ta
/-- The size of a load's mode (R273). -/
def LdMode.size : LdMode → Nat
  | .plain k _ => k.size
  | .ordered o => if o.w64 then 8 else 4
/-- The size of a store's mode (R273). -/
def StMode.size : StMode → Nat
  | .plain k _ => k.size
  | .ordered o => if o.w64 then 8 else 4
/-- The size of an ordered access (R273). -/
def OrdAcc.size (o : OrdAcc) : Nat := if o.w64 then 8 else 4
/-- A mailbox command carries its own code in CMD [7:0] (R353). -/
def wfCmd (code : Nat) (cmd : W64) : Bool := cmd.toNat % 256 == code

/-- The instructions the encoding rules admit (R96); an event carries what its row lets it carry. -/
def WellFormed : Instr → Bool
  | .addB32 d a b => wfR2 .b32 .b32 false true d a b
  | .addB64 d a b => wfR2 .b64 .b64 true true d a b
  | .subB32 d a b => wfR2 .b32 .b32 false true d a b
  | .subB64 d a b => wfR2 .b64 .b64 true true d a b
  | .addiB32 d a _ => wfI1 .b32 false d a
  | .addiB64 d a _ => wfI1 .b64 true d a
  | .mulB32 d a b => wfR2 .b32 .b32 false true d a b
  | .mulB64 d a b => wfR2 .b64 .b64 true true d a b
  | .mulhiI32 d a b => wfR2 .b32 .b32 false true d a b
  | .mulhiN32 d a b => wfR2 .b32 .b32 false true d a b
  | .mulwI32 d a b => wfR2 .b32 .b32 true true d a b
  | .mulwN32 d a b => wfR2 .b32 .b32 true true d a b
  | .divI32 d a b => wfR2 .b32 .b32 false true d a b
  | .divN32 d a b => wfR2 .b32 .b32 false true d a b
  | .remI32 d a b => wfR2 .b32 .b32 false true d a b
  | .remN32 d a b => wfR2 .b32 .b32 false true d a b
  | .andB32 d a b => wfR2 .b32 .b32 false true d a b
  | .orB32 d a b => wfR2 .b32 .b32 false true d a b
  | .xorB32 d a b => wfR2 .b32 .b32 false true d a b
  | .bfiB32 d a b => wfR2 .b32 .b32 false false d a b
  | .andB64 d a b => wfR2 .b64 .b64 true true d a b
  | .orB64 d a b => wfR2 .b64 .b64 true true d a b
  | .xorB64 d a b => wfR2 .b64 .b64 true true d a b
  | .lea d a b => wfR2 .b64 .b32 true true d a b
  | .shlB32 d a b => wfR2 .b32 .b32 false true d a b
  | .shrN32 d a b => wfR2 .b32 .b32 false true d a b
  | .shrI32 d a b => wfR2 .b32 .b32 false true d a b
  | .shlB64 d a b => wfR2 .b64 .b32 true true d a b
  | .shrN64 d a b => wfR2 .b64 .b32 true true d a b
  | .shrI64 d a b => wfR2 .i64 .b32 true true d a b
  | .bfxB32 d a b => wfR2 .b32 .b32 false true d a b
  | .notB32 d a => wfR1 .b32 false d a
  | .popcB32 d a => wfR1 .b32 false d a
  | .clzB32 d a => wfR1 .b32 false d a
  | .ctzB32 d a => wfR1 .b32 false d a
  | .brevB32 d a => wfR1 .b32 false d a
  | .bswapB32 d a => wfR1 .b32 false d a
  | .sextI8 d a => wfR1 .b32 false d a
  | .sextI16 d a => wfR1 .b32 false d a
  | .notB64 d a => wfR1 .b64 true d a
  | .popcB64 d a => wfR1 .b64 false d a
  | .clzB64 d a => wfR1 .b64 false d a
  | .ctzB64 d a => wfR1 .b64 false d a
  | .brevB64 d a => wfR1 .b64 true d a
  | .bswapB64 d a => wfR1 .b64 true d a
  | .sextI32 d a => wfR1 .b32 true d a
  | .zextN32 d a => wfR1 .b32 true d a
  | .setpI32 _ _ a b => wfRp .b32 a b
  | .setpN32 _ _ a b => wfRp .b32 a b
  | .setpI64 _ _ a b => wfRp .i64 a b
  | .setpN64 _ _ a b => wfRp .b64 a b
  | .minN32 d a b => wfR2 .b32 .b32 false true d a b
  | .maxN32 d a b => wfR2 .b32 .b32 false true d a b
  | .minI32 d a b => wfR2 .b32 .b32 false true d a b
  | .maxI32 d a b => wfR2 .b32 .b32 false true d a b
  | .faddF32 d a b => wfR2 .f32 .f32 false true d a b
  | .fsubF32 d a b => wfR2 .f32 .f32 false true d a b
  | .fmulF32 d a b => wfR2 .f32 .f32 false true d a b
  | .ffmaF32 d a b => wfR2 .f32 .f32 false false d a b
  | .faddF64 d a b => wfR2 .f64 .f64 true true d a b
  | .fsubF64 d a b => wfR2 .f64 .f64 true true d a b
  | .fmulF64 d a b => wfR2 .f64 .f64 true true d a b
  | .ffmaF64 d a b => wfR2 .f64 .f64 true false d a b
  | .faddRzF32 d a b => wfR2 .f32 .f32 false true d a b
  | .faddRuF32 d a b => wfR2 .f32 .f32 false true d a b
  | .faddRdF32 d a b => wfR2 .f32 .f32 false true d a b
  | .fmulRzF32 d a b => wfR2 .f32 .f32 false true d a b
  | .ffmaRzF32 d a b => wfR2 .f32 .f32 false false d a b
  | .ffmaRuF32 d a b => wfR2 .f32 .f32 false false d a b
  | .ffmaRdF32 d a b => wfR2 .f32 .f32 false false d a b
  | .ffmaSatF32 d a b => wfR2 .f32 .f32 false false d a b
  | .faddF16x2 d a b => wfR2 .f16x2 .f16x2 false true d a b
  | .fsubF16x2 d a b => wfR2 .f16x2 .f16x2 false true d a b
  | .fmulF16x2 d a b => wfR2 .f16x2 .f16x2 false true d a b
  | .ffmaF16x2 d a b => wfR2 .f16x2 .f16x2 false false d a b
  | .faddBf16x2 d a b => wfR2 .bf16x2 .bf16x2 false true d a b
  | .fsubBf16x2 d a b => wfR2 .bf16x2 .bf16x2 false true d a b
  | .fmulBf16x2 d a b => wfR2 .bf16x2 .bf16x2 false true d a b
  | .ffmaBf16x2 d a b => wfR2 .bf16x2 .bf16x2 false false d a b
  | .fnegF32 d a => wfR1 .f32 false d a
  | .fabsF32 d a => wfR1 .f32 false d a
  | .fnegF64 d a => wfR1 .f64 true d a
  | .fabsF64 d a => wfR1 .f64 true d a
  | .fminF64 d a b => wfR2 .f64 .f64 true true d a b
  | .fmaxF64 d a b => wfR2 .f64 .f64 true true d a b
  | .fminnF64 d a b => wfR2 .f64 .f64 true true d a b
  | .fmaxnF64 d a b => wfR2 .f64 .f64 true true d a b
  | .fsetpF32 _ _ a b => wfRp .f32 a b
  | .fsetpF64 _ _ a b => wfRp .f64 a b
  | .fclassF32 _ _ a _ => a.ok .f32
  | .fclassF64 _ _ a _ => a.ok .f64
  | .fminF32 d a b => wfR2 .f32 .f32 false true d a b
  | .fmaxF32 d a b => wfR2 .f32 .f32 false true d a b
  | .fminnF32 d a b => wfR2 .f32 .f32 false true d a b
  | .fmaxnF32 d a b => wfR2 .f32 .f32 false true d a b
  | .cvtF32 d a s rm sat => wfCvt .f32 false d a s rm sat
  | .cvtF64 d a s rm sat => wfCvt .f64 false d a s rm sat
  | .cvtH16 d a s rm sat bf => wfCvt .h16 bf d a s rm sat
  | .cvtF8 d a s rm sat e5 => wfCvt .f8 e5 d a s rm sat
  | .cvtI32 d a s rm sat => wfCvt .i32 false d a s rm sat
  | .cvtN32 d a s rm sat => wfCvt .n32 false d a s rm sat
  | .cvtI64 d a s rm sat => wfCvt .i64 false d a s rm sat
  | .cvtN64 d a s rm sat => wfCvt .n64 false d a s rm sat
  | .rcpF32 d a => wfR1 .f32 false d a
  | .rsqF32 d a => wfR1 .f32 false d a
  | .sqrtF32 d a => wfR1 .f32 false d a
  | .exp2F32 d a => wfR1 .f32 false d a
  | .log2F32 d a => wfR1 .f32 false d a
  | .sinpiF32 d a => wfR1 .f32 false d a
  | .cospiF32 d a => wfR1 .f32 false d a
  | .tanhF32 d a => wfR1 .f32 false d a
  | .divF32 d a b => wfR2 .f32 .f32 false true d a b
  | .rcpF64 d a => wfR1 .f64 true d a
  | .rsqF64 d a => wfR1 .f64 true d a
  | .sqrtF64 d a => wfR1 .f64 true d a
  | .exp2F64 d a => wfR1 .f64 true d a
  | .log2F64 d a => wfR1 .f64 true d a
  | .sinpiF64 d a => wfR1 .f64 true d a
  | .cospiF64 d a => wfR1 .f64 true d a
  | .tanhF64 d a => wfR1 .f64 true d a
  | .divF64 d a b => wfR2 .f64 .f64 true true d a b
  | .rand d a => wfR1 .b64 false d a
  | .ffmaF32x2 d a b => wfR2 .f32x2 .f32x2 true false d a b
  | .shfl d a b => wfR2 .b32 .b32 false true d a b
  | .censusMask d _ => d.ok false true
  | .censusCount d _ => d.ok false true
  | .censusAgree d _ => d.ok false true
  | .censusFirst d _ => d.ok false true
  | .censusLast d _ => d.ok false true
  | .censusRank d _ => d.ok false true
  | .matchKeys d a b => wfR2 .b32 .b32 false true d a b
  | .red d a k => wfR1 k.ty k.wide d a
  | .scan d a k _ => wfR1 k.ty k.wide d a
  | .maxiF32 d a => wfR1 .b64 true d a
  | .miniF32 d a => wfR1 .b64 true d a
  | .maxiF16 d a => wfR1 .b64 true d a
  | .miniF16 d a => wfR1 .b64 true d a
  | .maxiBf16 d a => wfR1 .b64 true d a
  | .miniBf16 d a => wfR1 .b64 true d a
  | .maxiI32 d a => wfR1 .b64 true d a
  | .miniI32 d a => wfR1 .b64 true d a
  | .maxiN32 d a => wfR1 .b64 true d a
  | .miniN32 d a => wfR1 .b64 true d a
  | .selk d a b => wfR2 .b64 .b32 true true d a b
  | .isect d a b => wfR2 .b32 .b32 false true d a b
  | .mma _ f a b _ _ => wfMma false f a b
  | .mmaSp _ f a b _ _ => wfMma true f a b
  | .tileAlloc a => a.ok .b32
  | .tileFree => true
  | .tileZero _ => true
  | .tileFill k _ base _ col => wfTile16 (k == .f64) base col
  | .tileDrainF64 _ base col => wfTile16 true base col
  | .tileDrainF32 _ base col => wfTile16 false base col
  | .tileDrainBf16 _ base col => wfTile16 false base col
  | .tileQdrainMxf8 _ base scale => wfQdrain .mxf8 base scale
  | .tileQdrainMxf6 _ base scale => wfQdrain .mxf6 base scale
  | .tileQdrainMxf4 _ base scale => wfQdrain .mxf4 base scale
  | .tileQdrainMxi8 _ base scale => wfQdrain .mxi8 base scale
  | .ld k d a _ => wfMem k.size d a
  | .ldOrdered o d a => wfMem o.size d a
  | .st k d a _ => wfMem k.size d a
  | .stOrdered o d a => wfMem o.size d a
  | .ldx _ w d a _ => wfX w d a
  | .stx _ w d a _ => wfX w d a
  | .atom op pl d a => wfAtom op pl d a
  | .sts k d a s => wfSts k d a s
  | .lda w64 d a t => wfLda w64 d a t
  | .fetch f d a _ => wfFetch f d a
  | .gather f d a _ => wfFetch f d a
  | .br _ _ _ => true
  | .call _ _ _ => true
  | .icall a => a.ok .b64
  | .ret => true
  | .join => true
  | .conv => true
  | .emitB32 a => a.ok .b32
  | .emitB64 a => a.ok .b64
  | .fork _ a => a.ok .b32
  | .plop _ _ _ _ _ => true
  | .guardPrefix _ _ => true
  | .saddB32 d a b => wfR2 .b32 .b32 false true d a b
  | .saddB64 d a b => wfR2 .b64 .b64 true true d a b
  | .ssubB32 d a b => wfR2 .b32 .b32 false true d a b
  | .ssubB64 d a b => wfR2 .b64 .b64 true true d a b
  | .saddiB32 d a _ => wfI1 .b32 false d a
  | .saddiB64 d a _ => wfI1 .b64 true d a
  | .smulB32 d a b => wfR2 .b32 .b32 false true d a b
  | .smulB64 d a b => wfR2 .b64 .b64 true true d a b
  | .smulhiI32 d a b => wfR2 .b32 .b32 false true d a b
  | .smulhiN32 d a b => wfR2 .b32 .b32 false true d a b
  | .smulwI32 d a b => wfR2 .b32 .b32 true true d a b
  | .smulwN32 d a b => wfR2 .b32 .b32 true true d a b
  | .sdivI32 d a b => wfR2 .b32 .b32 false true d a b
  | .sdivN32 d a b => wfR2 .b32 .b32 false true d a b
  | .sremI32 d a b => wfR2 .b32 .b32 false true d a b
  | .sremN32 d a b => wfR2 .b32 .b32 false true d a b
  | .sandB32 d a b => wfR2 .b32 .b32 false true d a b
  | .sorB32 d a b => wfR2 .b32 .b32 false true d a b
  | .sxorB32 d a b => wfR2 .b32 .b32 false true d a b
  | .sbfiB32 d a b => wfR2 .b32 .b32 false false d a b
  | .sandB64 d a b => wfR2 .b64 .b64 true true d a b
  | .sorB64 d a b => wfR2 .b64 .b64 true true d a b
  | .sxorB64 d a b => wfR2 .b64 .b64 true true d a b
  | .slea d a b => wfR2 .b64 .b32 true true d a b
  | .ssetpI32 _ _ a b => wfRp .b32 a b
  | .ssetpN32 _ _ a b => wfRp .b32 a b
  | .ssetpI64 _ _ a b => wfRp .i64 a b
  | .ssetpN64 _ _ a b => wfRp .b64 a b
  | .sshlB32 d a b => wfR2 .b32 .b32 false true d a b
  | .sshrN32 d a b => wfR2 .b32 .b32 false true d a b
  | .sshrI32 d a b => wfR2 .b32 .b32 false true d a b
  | .sbit d a k => wfR1 k.ty k.wide d a
  | .sfaddF32 d a b => wfR2 .f32 .f32 false true d a b
  | .sfsubF32 d a b => wfR2 .f32 .f32 false true d a b
  | .sfmulF32 d a b => wfR2 .f32 .f32 false true d a b
  | .sffmaF32 d a b => wfR2 .f32 .f32 false false d a b
  | .sfaddF64 d a b => wfR2 .f64 .f64 true true d a b
  | .sfsubF64 d a b => wfR2 .f64 .f64 true true d a b
  | .sfmulF64 d a b => wfR2 .f64 .f64 true true d a b
  | .sffmaF64 d a b => wfR2 .f64 .f64 true false d a b
  | .sfsetpF32 _ _ a b => wfRp .f32 a b
  | .sfsetpF64 _ _ a b => wfRp .f64 a b
  | .scvtF32 d a s rm sat => wfCvt .f32 false d a s rm sat
  | .scvtI32 d a s rm sat => wfCvt .i32 false d a s rm sat
  | .sfminF32 d a b => wfR2 .f32 .f32 false true d a b
  | .sfmaxF32 d a b => wfR2 .f32 .f32 false true d a b
  | .srcpF32 d a => wfR1 .f32 false d a
  | .srsqF32 d a => wfR1 .f32 false d a
  | .ssqrtF32 d a => wfR1 .f32 false d a
  | .sexp2F32 d a => wfR1 .f32 false d a
  | .slog2F32 d a => wfR1 .f32 false d a
  | .ssinpiF32 d a => wfR1 .f32 false d a
  | .scospiF32 d a => wfR1 .f32 false d a
  | .stanhF32 d a => wfR1 .f32 false d a
  | .sfdivF32 d a b => wfR2 .f32 .f32 false true d a b
  | .sld m d a => wfMem m.size d a
  | .sst m d a => wfMem m.size d a
  | .sldx _ w d a _ => wfX w d a
  | .sstx _ w d a _ => wfX w d a
  | .satom op pl d a => !op.isCas && wfAtom op pl d a
  | .scas w pl d a => wfScas w pl d a
  | .fence _ _ => true
  | .barArrive _ a b => wfAB .b32 .b32 a b
  | .barWait a b => wfAB .b32 .b32 a b
  | .mon a => a.ok .addr
  | .mwait d a => wfDA .b32 1 d a
  | .commitw => true
  | .sleep a => a.ok .b32
  | .bcopy d a _ b => d.val % 2 == 0 && a.val + 4 ≤ 64 && b.ok .b32
  | .bcopySt d a _ b => d.val % 4 == 0 && a.val + 4 ≤ 64 && b.ok .b32
  | .ringInit a b => wfAB .b32 .b32 a b
  | .ringTake d a => wfDA .b32 2 d a
  | .ringGive a => a.ok .b32
  | .ringWait d a => wfDA .b32 1 d a
  | .tlRead d a => d.val % 2 == 0 && d.val + 3 ≤ 64 && a.ok .b32
  | .tlWait a b => wfAB .b32 .b64 a b
  | .coll d a => wfDA .b64 2 d a
  | .ckptHold d _ => d.val % 2 == 0
  | .ckptRelease a _ => a.ok .b64
  | .spawn _ a b _ => a.ok .b64 && b.val + 8 ≤ 64
  | .chunk d => d.val % 2 == 0
  | .repack _ => true
  | .slice d a => wfDA .b64 1 d a
  | .depdec d a => wfDA .b32 1 d a
  | .yield a => a.ok .b64
  | .clkiv d => d.val % 4 == 0
  | .vshape d _ => d.ok false true
  | .capq d a => wfDA .b32 2 d a
  | .sget d r => !r.w64 || d.val % 2 == 0
  | .sset r b => b.ok (if r.w64 then .b64 else .b32)
  | .trap _ => true
  | .rett => true
  | .bkpt _ => true
  | .loadComplete _ => true
  | .writeBackPerformed _ _ => true
  | .stampedStoreVisible _ => true
  | .visibilityReport _ => true
  | .watermarkRefresh _ _ => true
  | .passAcceptance _ => true
  | .passApplied _ => true
  | .tilePoolGrant _ => true
  | .engineCommandStart _ _ => true
  | .engineCommandComplete _ _ _ => true
  | .collectiveContribution _ _ => true
  | .openGroupStart _ _ => true
  | .spawnTimerExpiry _ _ => true
  | .convTimeout _ _ => true
  | .sleepExpiry _ => true
  | .mwaitTimeout _ => true
  | .waitSentinel _ => true
  | .budget _ => true
  | .teamPlacement _ => true
  | .teamSave _ => true
  | .reset => true
  | .fullServiceStart => true
  | .powerTemperatureLimit => true
  | .patrolScrub _ _ _ => true
  | .linkTimeExchange _ _ _ => true
  | .linkTimeMessage _ _ => true
  | .flitReceived _ _ _ => true
  | .remoteAccessRequest _ => true
  | .linkPlaneFailure _ => true
  | .diePortFailure _ _ => true
  | .dieLost _ => true
  | .dieSetExit _ => true
  | .deviceUnreachable _ => true
  | .partcfgRead _ cmd => wfCmd 1 cmd
  | .partcfgWrite _ cmd => wfCmd 1 cmd
  | .submit _ cmd => wfCmd 2 cmd
  | .submitResume _ cmd => wfCmd 2 cmd
  | .inval _ cmd => wfCmd 3 cmd
  | .resume _ cmd => wfCmd 4 cmd
  | .kill _ cmd => wfCmd 5 cmd
  | .holdclr _ cmd => wfCmd 6 cmd
  | .attest _ cmd => wfCmd 7 cmd
  | .state _ cmd => wfCmd 8 cmd
  | .stateSave _ cmd => wfCmd 8 cmd
  | .unknownCommand _ _ => true
  | .overrun _ _ => true
  | .mailboxCommandComplete _ => true
  | .vendorDefinedMessage _ _ _ _ => true
  | .hostBar2Write _ _ _ => true
  | .hostBar2Read _ _ _ => true
  | .classCounterWrite _ _ _ => true
  | .registerWrite _ _ _ _ => true
  | .faultRecordPost _ => true
  | .eventRecordPost _ _ => true
  | .etimeExpiry _ _ => true
  | .unallocatedEncoding _ => true
  | .fetchFault _ _ => true
  | .stampedStoreHeldPending _ => true

end Sys2Proof
end

