-- ==== Sys2Proof/Machine/Operands.lean ====
section
/-!
DEFINITION. Reading and writing the registers of a course: the lane expander, shapes, dead masks, the operand file, latches,
special sources and literals (03, R87 to R91). Everything here acts on one course.
-/

namespace Sys2Proof.Machine

/-- The lanes of a course. -/
abbrev lanes32 : List Nat := List.range 32

/-- A shape (R52). -/
inductive Shape where
  | u | a | g
deriving DecidableEq, Repr

/-- The code of R52. -/
def Shape.code : Shape → Nat
  | .u => 1
  | .a => 2
  | .g => 3

/-- Joins two 32-bit halves. -/
abbrev pair64 (hi lo : W32) : W64 := hi ++ lo
/-- The low half. -/
abbrev lo32 (v : W64) : W32 := v.setWidth 32
/-- The high half. -/
abbrev hi32 (v : W64) : W32 := (v >>> 32).setWidth 32
/-- Zero-extends to 64 bits. -/
abbrev zx64 (v : W32) : W64 := v.setWidth 64
/-- Sign-extends to 64 bits. -/
abbrev sx64 (v : W32) : W64 := v.signExtend 64

/-! ## The lane expander (R54, R55) -/

/-- What lane `l` of storage `n` of a list of names or entries holds (R54); a linked odd name reads the high half of its
pair's 64-bit value (R55); unallocated storage reads zero. -/
def rowOf (names : List NameVal) (n l : Nat) : W32 :=
  match nth names n .free with
  | .free => 0
  | .uni v => v
  | .gen rows => nth rows l 0
  | .aff b st link =>
    if link && n % 2 == 1 then
      match nth names (n - 1) .free with
      | .aff bl sl _ => hi32 (pair64 b bl + BitVec.ofNat 64 l * pair64 st sl)
      | _ => b + BitVec.ofNat 32 l * st
    else b + BitVec.ofNat 32 l * st

/-- The shape a 32-bit read of storage `n` has (R61): a linked odd name counts as G. -/
def shapeOf (names : List NameVal) (n : Nat) : Shape :=
  match nth names n .free with
  | .free | .uni _ => .u
  | .gen _ => .g
  | .aff _ _ link => if link && n % 2 == 1 then .g else .a

/-- The shape a 64-bit read of the pair `n`, `n + 1` has. -/
def shapeOfPair (names : List NameVal) (n : Nat) : Shape :=
  match nth names n .free, nth names (n + 1) .free with
  | .aff _ _ true, .aff _ _ true => .a
  | x, y => if (match x with | .free | .uni _ => true | _ => false) && (match y with | .free | .uni _ => true | _ => false) then .u else .g

/-- Expands a name to a line (R62). -/
def expandName (names : List NameVal) (n : Nat) : NameVal := .gen (lanes32.map fun l => rowOf names n l)

/-- The partner of a linked name. -/
def partner (n : Nat) : Nat := if n % 2 = 0 then n + 1 else n - 1

/-- Whether a name is one of a linked pair. -/
def isLinked (names : List NameVal) (n : Nat) : Bool :=
  match nth names n .free with
  | .aff _ _ l => l
  | _ => false

/-- Before one name of a linked pair is written or freed alone, its partner is expanded to G (R55). -/
def unlink (names : List NameVal) (n : Nat) : List NameVal :=
  if isLinked names n then setNth names (partner n) (expandName names (partner n)) else names

/-! ## Dead masks and freeing (R57, R58) -/

/-- The mask with bit `l` set. -/
abbrev laneBit (l : Nat) : W32 := 1 <<< l
/-- Bit `l` of a mask. -/
abbrev hasLane (m : W32) (l : Nat) : Bool := m.getLsbD l
/-- The mask of a list of lanes. -/
def maskOf (ls : List Nat) : W32 := ls.foldl (fun m l => m ||| laneBit l) 0
/-- The lanes of a mask, ascending. -/
def lanesOf (m : W32) : List Nat := lanes32.filter fun l => hasLane m l

/-- The lanes with a live thread. -/
def Course.live (c : Course) : List Nat := FMap.keys c.threads
/-- The live lanes as a mask. -/
def Course.liveMask (c : Course) : W32 := maskOf c.live

/-- A latch record loses some lanes (R70). -/
def LatchRec.drop (r : LatchRec) (m : W32) : LatchRec :=
  let ls := r.lanes &&& ~~~m
  { r with lanes := ls, valid := r.valid && !(ls == 0) }

/-- Whether a record's destination is storage `n` of the level `dl`. -/
def LatchRec.names (r : LatchRec) (dl : Bool) (n : Nat) : Bool :=
  r.valid && !r.suppr && r.dl == dl && (r.dest == n || (r.wide && r.dest + 1 == n))

/-- A rewrite or free of storage `n` for the lanes `m` clears the records that name it, for those threads (R70). -/
def Course.clearLatches (c : Course) (dl : Bool) (n : Nat) (m : W32) : Course :=
  { c with
    latches := c.latches.map fun r => if r.names dl n then r.drop m else r
    threads := c.threads.map fun p =>
      if hasLane m p.1 then (p.1, { p.2 with saved := p.2.saved.filter fun sv => !sv.record.names dl n }) else p }

/-- Places that are written whole, or are gone, hold no error any more (R377, R378). -/
def Course.heal (c : Course) (ps : List BadPlace) : List BadPlace := c.bad.filter fun p => !ps.contains p

/-- Frees a name (R58): code 00, dead mask clear. -/
def Course.freeName (c : Course) (n : Nat) : Course :=
  let names := unlink c.names n
  ({ c with names := setNth names n .free, dead := setNth c.dead n 0, bad := c.heal [.name n] } : Course).clearLatches false n 0xFFFFFFFF

/-- Frees a name when every live thread has passed its last read (R58). A last read of an unallocated name leaves its mark until then
(R57). -/
def Course.reap (c : Course) (n : Nat) : Course := if (c.liveMask &&& ~~~(nth c.dead n 0)) == 0 then c.freeName n else c

/-- Frees every name whose last live reader has gone (R58): after a thread has ended. -/
def Course.reapAll (c : Course) : Course := (List.range 64).foldl (fun c n => c.reap n) c

/-- Marks last reads of a name for some lanes (R57); freeing is left to `reap`, after the writes. -/
def Course.markDead (c : Course) (n : Nat) (m : W32) : Course :=
  { c with dead := setNth c.dead n (nth c.dead n 0 ||| m) }

/-! ## Operand values -/

/-- What an operand gives each lane: its shape under R61, its value, whether the read finds a freed name (R59, R69), and
whether a latch read is stale (R72). -/
structure View where
  shape : Shape
  val : Nat → W64
  free : Nat → Bool
  stale : Nat → Bool

/-- A view that no read of storage spoils. -/
def View.const (v : W64) : View := ⟨.u, fun _ => v, fun _ => false, fun _ => false⟩

/-- Whether every, some or no live thread has its dead bit set decides the shape of a name read (R61). -/
def deadShape (c : Course) (n : Nat) (s : Shape) : Shape :=
  let d := nth c.dead n 0 &&& c.liveMask
  if d == 0 then s else if d == c.liveMask then .u else .g

/-- One name read by lane (R54, R59); on a lane without a thread it is the expansion, as R61 computes shapes. -/
def regRow (c : Course) (n l : Nat) : W32 := if hasLane (nth c.dead n 0) l && c.live.contains l then 0 else rowOf c.names n l

/-- Whether a read of a name by a lane sets READ_FREE (R59). -/
def regFree (c : Course) (n l : Nat) : Bool :=
  (nth c.names n .free == .free) || hasLane (nth c.dead n 0) l

/-- The joined shape of a pair's halves when a dead mask spoils it. -/
def pairShape (c : Course) (n : Nat) : Shape :=
  let d0 := nth c.dead n 0 &&& c.liveMask
  let d1 := nth c.dead (n + 1) 0 &&& c.liveMask
  if d0 == 0 && d1 == 0 then shapeOfPair c.names n
  else if deadShape c n (shapeOf c.names n) == .u && deadShape c (n + 1) (shapeOf c.names (n + 1)) == .u then .u else .g

/-- A name or pair as a source. -/
def regView (c : Course) (wide : Bool) (n : Nat) : View :=
  if wide then
    ⟨pairShape c n, fun l => pair64 (regRow c (n + 1) l) (regRow c n l), fun l => regFree c n l || regFree c (n + 1) l, fun _ => false⟩
  else ⟨deadShape c n (shapeOf c.names n), fun l => zx64 (regRow c n l), fun l => regFree c n l, fun _ => false⟩

/-- An operand-file entry or pair as a source (R69). -/
def opfView (c : Course) (wide : Bool) (n : Nat) : View :=
  if wide then
    ⟨shapeOfPair c.opf n, fun l => pair64 (rowOf c.opf (n + 1) l) (rowOf c.opf n l),
      fun _ => nth c.opf n .free == .free || nth c.opf (n + 1) .free == .free, fun _ => false⟩
  else ⟨shapeOf c.opf n, fun l => zx64 (rowOf c.opf n l), fun _ => nth c.opf n .free == .free, fun _ => false⟩

/-- A lane's value of a latch (R76). -/
def LatchVal.at (v : LatchVal) (wide : Bool) (l : Nat) : W64 :=
  match v with
  | .uni x => x
  | .aff b st => if wide then b + BitVec.ofNat 64 l * st else zx64 (lo32 b + BitVec.ofNat 32 l * lo32 st)
  | .gen rows => nth rows l 0

/-- The shape code of a latch value. -/
def LatchVal.shape : LatchVal → Shape
  | .uni _ => .u
  | .aff _ _ => .a
  | .gen _ => .g

/-- Whether a record's value can still be read: the physical latch holds it, or it was written back (R72). -/
def LatchRec.readable (r : LatchRec) (gen : Nat) : Bool := !r.suppr || r.pinned || r.gen == gen

/-- The latch saved with a thread for pipe `k` (R367, R361). -/
def Thread.savedFor (t : Thread) (k : Nat) : Option SavedLatch := t.saved.find? fun sv => sv.pipe.val == k

/-- The value a course's latch of a pipe expands, and whether it has 64 bits: its record's, or where every live thread carries its own
(R367, R361) the one they are rows of. -/
def Course.latchBase (c : Course) (k : Nat) : LatchVal × Bool :=
  let r := nth c.latches k {}
  if c.threads.any fun p => (p.2.savedFor k).isNone then (r.val, r.wide)
  else
    match c.threads.filterMap fun p => (p.2.savedFor k).map fun sv => (p.1, sv) with
    | [] => (r.val, r.wide)
    | (l, x) :: rest =>
      match x.record.val, rest with
      | .aff b st, (m, y) :: _ =>
        if st = 0 then
          let slope := BitVec.ofInt 64 ((y.value - x.value).toInt / (m - l : Int))
          (.aff (b - BitVec.ofNat 64 l * slope) slope, x.record.wide)
        else (.aff b st, x.record.wide)
      | v, _ => (v, x.record.wide)

/-- A latch as a source (R70, R72): 32-bit reads take bits [31:0], 64-bit reads of a 32-bit result are zero-extended. It has the shape
it was written with (R64); where threads carry their own values, while these are rows of one of that shape. -/
def latchView (c : Course) (gens : List Nat) (wide : Bool) (k : Nat) : View :=
  let r := nth c.latches k {}
  let gen := nth gens k 0
  let sv (l : Nat) : Option SavedLatch := (FMap.get c.threads l).bind fun t => t.savedFor k
  let anySaved := c.threads.any fun p => (p.2.savedFor k).isSome
  let base := if anySaved then c.latchBase k else (r.val, r.wide)
  let val (l : Nat) : W64 :=
    match sv l with
    | some x => if x.record.wide then x.value else zx64 (lo32 x.value)
    | none => if (FMap.get c.threads l).isNone then base.1.at base.2 l else r.val.at r.wide l
  ⟨if anySaved && !(c.live.all fun l => val l == base.1.at base.2 l) then .g
      else if base.1.shape == .a && wide && !base.2 then .g else base.1.shape,
    fun l => if wide then val l else zx64 (lo32 (val l)), fun _ => false,
    fun l => match sv l with
      | some x => !(x.record.valid && hasLane x.record.lanes l && x.record.readable gen)
      | none => !(r.valid && hasLane r.lanes l && r.readable gen)⟩

/-! ## Special sources and literals (R88 to R90) -/

/-- A binary format by exponent bias, significand bits and width. -/
structure FpShape where
  bias : Nat
  mant : Nat

/-- The integers 0 to 31 in a binary format, exact (R88). -/
def smallInt (f : FpShape) (n : Nat) : Nat :=
  if n = 0 then 0 else (f.bias + Nat.log2 n) * 2 ^ f.mant + (n - 2 ^ Nat.log2 n) * 2 ^ (f.mant - Nat.log2 n)

/-- The FP constants of R89 by format, each rounded once to the type by RNE. -/
def fpConst16 : List Nat :=
  [0x3800, 0xB800, 0x3C00, 0xBC00, 0x4000, 0xC000, 0x4400, 0xC400, 0x7C00, 0xFC00, 0x7E00, 0x398C, 0x3DC5, 0x4248, 0x3518, 0x7BFF]
def fpConstBf16 : List Nat :=
  [0x3F00, 0xBF00, 0x3F80, 0xBF80, 0x4000, 0xC000, 0x4080, 0xC080, 0x7F80, 0xFF80, 0x7FC0, 0x3F31, 0x3FB9, 0x4049, 0x3EA3, 0x7F7F]
def fpConst32 : List Nat :=
  [0x3F000000, 0xBF000000, 0x3F800000, 0xBF800000, 0x40000000, 0xC0000000, 0x40800000, 0xC0800000,
   0x7F800000, 0xFF800000, 0x7FC00000, 0x3F317218, 0x3FB8AA3B, 0x40490FDB, 0x3EA2F983, 0x7F7FFFFF]
def fpConst64 : List Nat :=
  [0x3FE0000000000000, 0xBFE0000000000000, 0x3FF0000000000000, 0xBFF0000000000000, 0x4000000000000000, 0xC000000000000000,
   0x4010000000000000, 0xC010000000000000, 0x7FF0000000000000, 0xFFF0000000000000, 0x7FF8000000000000, 0x3FE62E42FEFA39EF,
   0x3FF71547652B82FE, 0x400921FB54442D18, 0x3FD45F306DC9C883, 0x7FEFFFFFFFFFFFFF]

/-- A 16-bit value in both halves. -/
abbrev both16 (n : Nat) : W64 := BitVec.ofNat 64 (n * 2 ^ 16 + n)
/-- A 32-bit value in both elements of a pair. -/
abbrev both32 (n : Nat) : W64 := BitVec.ofNat 64 (n * 2 ^ 32 + n)

/-- The integer `n` as an operand of a type (R88). -/
def intAs (ty : Ty) (n : Nat) : W64 :=
  match ty with
  | .b32 | .b64 | .i64 | .fp8 | .addr => BitVec.ofNat 64 n
  | .f16 => BitVec.ofNat 64 (smallInt ⟨15, 10⟩ n)
  | .bf16 => BitVec.ofNat 64 (smallInt ⟨127, 7⟩ n)
  | .f32 => BitVec.ofNat 64 (smallInt ⟨127, 23⟩ n)
  | .f64 => BitVec.ofNat 64 (smallInt ⟨1023, 52⟩ n)
  | .f16x2 => both16 (smallInt ⟨15, 10⟩ n)
  | .bf16x2 => both16 (smallInt ⟨127, 7⟩ n)
  | .f32x2 => both32 (smallInt ⟨127, 23⟩ n)

/-- FP constant `k` as an operand of a type (R89). -/
def constAs (ty : Ty) (k : Nat) : W64 :=
  match ty with
  | .b32 | .b64 | .i64 | .fp8 | .addr => 0
  | .f16 => BitVec.ofNat 64 (nth fpConst16 k 0)
  | .bf16 => BitVec.ofNat 64 (nth fpConstBf16 k 0)
  | .f32 => BitVec.ofNat 64 (nth fpConst32 k 0)
  | .f64 => BitVec.ofNat 64 (nth fpConst64 k 0)
  | .f16x2 => both16 (nth fpConst16 k 0)
  | .bf16x2 => both16 (nth fpConstBf16 k 0)
  | .f32x2 => both32 (nth fpConst32 k 0)

/-- Negative zero as an operand of a type (R88). -/
def negZeroAs (ty : Ty) : W64 :=
  match ty with
  | .b32 | .b64 | .i64 | .fp8 | .addr => 0
  | .f16 | .bf16 => 0x8000
  | .f32 => 0x80000000
  | .f64 => 0x8000000000000000
  | .f16x2 | .bf16x2 => 0x80008000
  | .f32x2 => 0x8000000080000000

/-- A binary32 pattern as the binary64 of the same value; a NaN keeps its payload in the top bits (R90). -/
def widen32 (w : W32) : W64 :=
  let x := w.toNat
  let s := x / 2 ^ 31
  let e := x / 2 ^ 23 % 256
  let m := x % 2 ^ 23
  let body :=
    if e = 255 then 0x7FF * 2 ^ 52 + m * 2 ^ 29
    else if e = 0 then
      if m = 0 then 0
      else (1023 - 127 + 1 - (23 - Nat.log2 m)) * 2 ^ 52 + (m - 2 ^ Nat.log2 m) * 2 ^ (52 - Nat.log2 m)
    else (e + 1023 - 127) * 2 ^ 52 + m * 2 ^ 29
  BitVec.ofNat 64 (s * 2 ^ 63 + body)

/-- The literal as an operand of a type (R90). As the two elements of .f32x2 it stands in both, also where a conversion reads them, for
which the manual has no row (log 46). -/
def litAs (ty : Ty) (w : W32) : W64 :=
  match ty with
  | .b32 | .f32 | .f16x2 | .bf16x2 | .b64 | .addr => zx64 w
  | .f16 | .bf16 => zx64 (w &&& 0xFFFF)
  | .fp8 => zx64 (w &&& 0xFF)
  | .i64 => sx64 w
  | .f64 => widen32 w
  | .f32x2 => pair64 w w

/-- A special source (R88, R64). -/
def specialView (ty : Ty) (course team : Nat) (s : Special) : View :=
  match s with
  | .int n => .const (intAs ty n.val)
  | .fpc k => .const (constAs ty k.val)
  | .negZero => .const (negZeroAs ty)
  | .lane => ⟨.a, fun l => BitVec.ofNat 64 l, fun _ => false, fun _ => false⟩
  | .tid => ⟨.a, fun l => BitVec.ofNat 64 (32 * course + l), fun _ => false, fun _ => false⟩
  | .course => .const (BitVec.ofNat 64 course)
  | .team => .const (BitVec.ofNat 64 team)

/-- Where a source is read: the course, its index, its team's index in the grid and the core's latch generations. -/
structure RdCtx where
  course : Course
  index : Nat
  team : Nat
  gens : List Nat

/-- An operand as each lane of a course reads it (R87). -/
def srcView (x : RdCtx) (ty : Ty) (s : Src) : View :=
  match s with
  | .reg n _ => regView x.course ty.isPair n.val
  | .opf n => opfView x.course ty.isPair n.val
  | .latch k => latchView x.course x.gens ty.isPair k.val
  | .special sp => specialView ty x.index x.team sp
  | .lit w => .const (litAs ty w)

/-- The names a source marks as last read (R57, R91). -/
def lastNames (ty : Ty) : Src → List Nat
  | .reg n true => if ty.isPair then [n.val, n.val + 1] else [n.val]
  | .reg _ false | .opf _ | .latch _ | .special _ | .lit _ => []

/-- The old value of the destination, a third source of ffma and bfi (R168). -/
def dstView (x : RdCtx) (wide : Bool) (d : Dst) : View :=
  match d with
  | .reg n => regView x.course wide n.val
  | .opf n => opfView x.course wide n.val
  | .sup => .const 0

/-! ## Writing results (R56, R61 to R63, R68) -/

/-- The value one name takes from a 64-bit result: `half` 0 its low, 1 its high word. -/
def halfOf (half : Nat) (v : W64) : W32 := if half = 0 then lo32 v else hi32 v

/-- A result of a course: its tag and each lane's value. For an affine tag, base and stride are those of lanes 0 and 1. -/
structure Result where
  shape : Shape
  val : Nat → W64

/-- What a full-course write stores in one name (R52, R61); lanes without a thread hold zero. -/
def fullVal (live : List Nat) (wide : Bool) (half : Nat) (r : Result) : NameVal :=
  match r.shape with
  | .u => .uni (halfOf half (r.val (live.headD 0)))
  | .a =>
    if wide then .aff (halfOf half (r.val 0)) (halfOf half (r.val 1 - r.val 0)) true
    else .aff (lo32 (r.val 0)) (lo32 (r.val 1) - lo32 (r.val 0)) false
  | .g => .gen (lanes32.map fun l => if live.contains l then halfOf half (r.val l) else 0)

/-- What a partial write stores in one name (R62): the written rows over the expansion of the old value. -/
def partVal (old : List NameVal) (n : Nat) (ls : List Nat) (half : Nat) (r : Result) : NameVal :=
  .gen (lanes32.map fun l => if ls.contains l then halfOf half (r.val l) else rowOf old n l)

/-- Stores a result into storage `n` (and `n + 1` if wide) of a list of names or entries: whole (R61) or for `ls` (R62). -/
def storeIn (names : List NameVal) (live : List Nat) (full : Bool) (ls : List Nat) (wide : Bool) (n : Nat) (r : Result) : List NameVal :=
  if wide then
    let lo := if full then fullVal live true 0 r else partVal names n ls 0 r
    let hi := if full then fullVal live true 1 r else partVal names (n + 1) ls 1 r
    let kept := if isLinked names n && isLinked names (n + 1) then names else unlink (unlink names n) (n + 1)
    setNth (setNth kept n lo) (n + 1) hi
  else setNth (unlink names n) n (if full then fullVal live false 0 r else partVal names n ls 0 r)

/-- Writes a result to register names: clears the dead bits of the threads written and the latch records that name them. -/
def Course.writeReg (c : Course) (full : Bool) (ls : List Nat) (wide : Bool) (n : Nat) (r : Result) : Course :=
  let m := if full then 0xFFFFFFFF else maskOf ls
  let c := { c with names := storeIn c.names c.live full ls wide n r, dead := setNth c.dead n (nth c.dead n 0 &&& ~~~m),
                    bad := if full then c.heal (.name n :: if wide then [.name (n + 1)] else []) else c.bad }
  let c := c.clearLatches false n m
  if wide then ({ c with dead := setNth c.dead (n + 1) (nth c.dead (n + 1) 0 &&& ~~~m) } : Course).clearLatches false (n + 1) m else c

/-- Writes a result to operand-file entries (R68). -/
def Course.writeOpf (c : Course) (full : Bool) (ls : List Nat) (wide : Bool) (n : Nat) (r : Result) : Course :=
  let m := if full then 0xFFFFFFFF else maskOf ls
  let c := ({ c with opf := storeIn c.opf c.live full ls wide n r,
                     bad := if full then c.heal (.entry n :: if wide then [.entry (n + 1)] else []) else c.bad } : Course).clearLatches true n m
  if wide then c.clearLatches true (n + 1) m else c

/-- Writes a result to a destination; a suppressed one goes to the latch only (R71). -/
def Course.writeDst (c : Course) (full : Bool) (ls : List Nat) (wide : Bool) (d : Dst) (r : Result) : Course :=
  match d with
  | .reg n => c.writeReg full ls wide n.val r
  | .opf n => c.writeOpf full ls wide n.val r
  | .sup => c

/-- Sets the latch record of a pipe to a result (R70). -/
def Course.setLatch (c : Course) (pipe gen : Nat) (ls : List Nat) (wide : Bool) (d : Dst) (r : Result) : Course :=
  let v : LatchVal :=
    match r.shape with
    | .u => .uni (r.val (ls.headD 0))
    | .a => .aff (r.val 0) (r.val 1 - r.val 0)
    | .g => .gen (lanes32.map fun l => if ls.contains l then r.val l else 0)
  let rec' : LatchRec :=
    { valid := !ls.isEmpty, lanes := maskOf ls, val := v, wide := wide, suppr := d == .sup,
      dl := (match d with | .opf _ => true | _ => false),
      dest := (match d with | .reg n => n.val | .opf n => n.val | .sup => 0), gen := gen }
  { c with
    latches := setNth c.latches pipe rec'
    bad := c.heal [.latch pipe]
    threads := c.threads.map fun p =>
      if ls.contains p.1 then (p.1, { p.2 with saved := p.2.saved.filter fun sv => sv.pipe.val != pipe }) else p }

/-- Leaves a latch without a valid record for some threads (R192, R194, R278). -/
def Course.dropLatch (c : Course) (pipe : Nat) (ls : List Nat) : Course :=
  { c with
    latches := setNth c.latches pipe ((nth c.latches pipe {}).drop (maskOf ls))
    threads := c.threads.map fun p =>
      if ls.contains p.1 then (p.1, { p.2 with saved := p.2.saved.filter fun sv => sv.pipe.val != pipe }) else p }

/-! ## Threads and predicates -/

/-- Changes the threads on some lanes. -/
def Course.onThreads (c : Course) (ls : List Nat) (f : Nat → Thread → Thread) : Course :=
  { c with threads := c.threads.map fun p => if ls.contains p.1 then (p.1, f p.1 p.2) else p }

/-- The thread on a lane. -/
def Course.thread (c : Course) (l : Nat) : Thread := (FMap.get c.threads l).getD { pc := 0 }

/-- Predicate `p` of a thread (R26). -/
abbrev Thread.pred (t : Thread) (p : Nat) : Bool := t.preds.getLsbD p

/-- A predicate as a value; code 1100 is the constant 1. -/
def Thread.predSel (t : Thread) : PredSel → Bool
  | .p n => t.pred n.val
  | .always => true

/-- Sets a predicate. -/
def Thread.setPred (t : Thread) (p : Nat) (v : Bool) : Thread :=
  { t with preds := if v then t.preds ||| (1 <<< p) else t.preds &&& ~~~((1 : BitVec 12) <<< p) }

/-- READ_FREE, bit 27 of sr.tsw (R138). -/
def readFreeBit : W32 := 0x08000000

/-- Sets READ_FREE (R59). -/
def Thread.setReadFree (t : Thread) : Thread := { t with tsw := t.tsw ||| readFreeBit }

end Sys2Proof.Machine
end

