-- ==== Sys2Proof/Machine/Flags.lean ====
section
/-!
DEFINITION. The predicate computations: integer compare (R177), floating-point compare (R183), classification (R184), and the
three-input logic of plop (R125). The machine has no arithmetic status flags (R146).
-/

namespace Sys2Proof.Machine

/-- The format of a floating-point operand type. -/
def fmtOf : Ty → Fmt
  | .f64 => .f64
  | .f16 | .f16x2 => .f16
  | .bf16 | .bf16x2 => .bf16
  | .f32 | .f32x2 | .b32 | .b64 | .i64 | .fp8 | .addr => .f32

/-- A condition from equal and less-than; `nan` makes ne alone hold (R183). -/
def decideBy (c : Cond) (eq lt : Bool) : Bool :=
  match c with
  | .eq => eq
  | .ne => !eq
  | .lt => lt
  | .le => lt || eq

/-- An operand as an integer of its type (R147). -/
def asInt (signed wide : Bool) (v : W64) : Int :=
  if wide then (if signed then v.toInt else (v.toNat : Int)) else if signed then (lo32 v).toInt else ((lo32 v).toNat : Int)

/-- setp (R177). -/
def cmpInt (signed wide : Bool) (c : Cond) (a b : W64) : Bool :=
  let x := asInt signed wide a
  let y := asInt signed wide b
  decideBy c (x == y) (decide (x < y))

/-- fsetp (R183). -/
def cmpFp (f : Fmt) (c : Cond) (a b : W64) : Bool := decideBy c (f.eq a.toNat b.toNat) (f.lt a.toNat b.toNat)

/-- A comparison of two operands. -/
def pred2 (f : W64 → W64 → Bool) : List W64 → Bool
  | [a, b] => f a b
  | _ => false

/-- How fclass uses its match (R184). -/
def applyClass (u : ClassUse) (old m : Bool) : Bool :=
  match u with
  | .set => m
  | .neg => !m
  | .conj => old && m
  | .disj => old || m

/-- plop: bit `4a + 2b + c` of the truth table (R125). -/
def plopFn (tt : BitVec 8) (a b c : Bool) : Bool := tt.getLsbD (4 * a.toNat + 2 * b.toNat + c.toNat)

end Sys2Proof.Machine
end

