-- ==== Sys2Proof/Config.lean ====
section
/-!
DEFINITION. What the manual leaves open or an implementation fixes: constants without a body, so that a statement about
the machine holds whatever they are. notes/assumptions names each.
-/

namespace Sys2Proof.Config

/-- The free values: the `k`-th value that the manual leaves open in a run (log 4). -/
opaque freeValue : Nat → BitVec 64
/-- How far E lies below package time on die `d` at reading `k` (R256 fixes no place; log 10). -/
opaque clockBehind : Nat → Nat → Nat
/-- How far L lies above package time on die `d` at reading `k` (R256; log 10). -/
opaque clockAhead : Nat → Nat → Nat
/-- The device serial number (R353). -/
opaque serial : BitVec 64
/-- The fused minimum security version (R347). -/
opaque minVersion : BitVec 64
/-- The SHA-512 digests of keys that are fused in the device (R347). -/
opaque fusedDigests : List (BitVec 512)
/-- The bytes of the image of firmware stage `j`, and its security version (R347). -/
opaque stageImage : Nat → List (BitVec 8)
opaque stageVersion : Nat → Nat
/-- The key that comes with stage `j`: its bytes, of which the digest is taken, and the modulus and the exponent they encode (R347). -/
opaque stageKey : Nat → List (BitVec 8)
opaque stageModulus : Nat → Nat
opaque stageExponent : Nat → Nat
/-- The signature of stage `j` (R347). -/
opaque stageSignature : Nat → List (BitVec 8)
/-- The device's identity key (R348): its modulus and its private exponent. -/
opaque identityModulus : Nat
opaque identityExponent : Nat
/-- The salt of a signature with the identity key, which PKCS #1 leaves to the signer (R348; log 53). -/
opaque signSalt : List (BitVec 8) → List (BitVec 8)
/-- Byte `k` of the identity certificate chain in the management window (R348, R353). -/
opaque certByte : Nat → BitVec 8
/-- Whether the configuration of another device (its number, the partition here, the partition there, the 64 KiB unit of its memory)
lets a partition of this one reach a unit of its memory (R355): its own domain window and grants, which this device does not hold. -/
opaque peerGrants : Nat → Nat → Nat → Nat → Bool
/-- Which way of a tie or a choice the hardware takes that no rule fixes: TLB and L1 replacement and the like (log 11). -/
opaque freeChoice : Nat → Nat
/-- Versions that the reserve of one home slice holds (R264 gives no number; log 20). -/
opaque reserveVersions : Nat
/-- The steps of 25 MHz that the management firmware takes at one power or temperature event (R24 gives no number; log 11): at most 12. -/
opaque throttleSteps : Nat → Fin 13

end Sys2Proof.Config
end

