-- ==== Sys2Proof/Machine/Memory.lean ====
section
/-!
DEFINITION. Memory: the physical map, translation (R342 to R344), home slices, the L1s (R246 to R248), poison (R378),
monitors (R293), other devices' memory (R251, R355), stamped lines (R258, R264), and the device's own accesses (R395).
-/

namespace Sys2Proof.Machine

/-! ## Cores, partitions, slices, teams by number -/

/-- A core; one never touched is as after reset. -/
def State.core (s : State) (k : Nat) : Core := (FMap.get s.cores k).getD {}
/-- Sets a core. -/
def State.setCore (s : State) (k : Nat) (c : Core) : State := { s with cores := FMap.set s.cores k c }
/-- A cluster. -/
def State.cluster (s : State) (k : Nat) : Cluster := (FMap.get s.clusters k).getD {}
/-- Sets a cluster. -/
def State.setCluster (s : State) (k : Nat) (c : Cluster) : State := { s with clusters := FMap.set s.clusters k c }
/-- A partition. -/
def State.part (s : State) (p : Nat) : Partition := nth s.parts p {}
/-- Sets a partition. -/
def State.setPart (s : State) (p : Nat) (x : Partition) : State := { s with parts := setNth s.parts p x }
/-- Changes a team. -/
def State.setTeam (s : State) (k : Nat) (t : Team) : State := { s with teams := FMap.set s.teams k t }
/-- Changes a slice. -/
def State.setSlice (s : State) (k : Nat) (x : Slice) : State := { s with slices := FMap.set s.slices k x }
/-- Adds an event that is due to the agenda. -/
def State.due (s : State) (e : Instr) : State := { s with agenda := s.agenda ++ [e] }
/-- Sends a signal out. -/
def State.signal (s : State) (x : Signal) : State := { s with signals := s.signals ++ [x] }

/-- The key of a slice: its partition and number. -/
def sliceKey (part num : Nat) : Nat := part * 2 ^ 32 + num
/-- The key of a team: its slice and index (below 2^24, R29). -/
def teamKey (part num index : Nat) : Nat := sliceKey part num * 2 ^ 24 + index
/-- The slice of a team. -/
def State.sliceOf (s : State) (t : Team) : Option Slice := FMap.get s.slices (sliceKey t.part t.slice)
/-- The die of a core (R11). -/
def dieOfCore (core : Nat) : Nat := core / 192
/-- The cluster of a core (R11). -/
def clusterOfCore (core : Nat) : Nat := core / 4
/-- The core of a cluster on whose scratchpad a byte of a cluster memory allocation lies, by its offset (R16, R231). -/
def clmCore (cluster o : Nat) : Nat := 4 * cluster + o / 128 % 4
/-- A die. -/
def State.die (s : State) (d : Nat) : Die := nth s.dies d {}
/-- Sets a die. -/
def State.setDie (s : State) (d : Nat) (x : Die) : State := { s with dies := setNth s.dies d x }

/-- Bytes of a list as a number. -/
def bytesAt (l : List Byte) (off n : Nat) : Nat := leNat ((l.drop off).take n)
/-- Replaces bytes of a list from an offset on. -/
def putBytes (l : List Byte) (off : Nat) (b : List Byte) : List Byte := l.take off ++ b ++ l.drop (off + b.length)
/-- A field of a partition's configuration block (R339). -/
def Partition.cfg (p : Partition) (off n : Nat) : Nat := bytesAt p.block off n
/-- ENABLE (R339). -/
def Partition.enabled (p : Partition) : Bool := p.cfg 0 8 % 2 == 1
/-- A field of a slice record (R319). -/
def Slice.fieldAt (x : Slice) (off n : Nat) : Nat := bytesAt x.record off n

/-! ## The physical map (R393) -/

/-- 288 GB, the memory of a die (R3, R393). -/
def dieBytes : Nat := 288000000000
/-- The die that homes a physical address. -/
def homeDie (pa : Nat) : Nat := pa / 2 ^ 39
/-- Whether a range of physical addresses holds memory (R393). -/
def physOk (pa n : Nat) : Bool := decide (homeDie pa < 4) && decide (pa % 2 ^ 39 + n ≤ dieBytes)
/-- The unit of R11 that holds an address: its tower, by blocks of 4 KiB (R393). -/
def towerOf (pa : Nat) : Nat := 3 * homeDie pa + fld pa 12 27 % 3
/-- Whether the tower of every block of a range serves: in reduced service only tower 0 of die 0 does (R388, R393). -/
def State.serves (s : State) (pa n : Nat) : Bool :=
  s.boot != .reduced || (List.range ((pa + n - 1) / 4096 - pa / 4096 + 1)).all fun k => towerOf (4096 * (pa / 4096 + k)) == 0
/-- Whether the home of a range of physical addresses of one die answers (R381). In reduced service memory that does not serve gives no
answer either (R388; log 51). -/
def State.homeAlive (s : State) (pa : Nat) (n : Nat := 1) : Bool := (s.die (homeDie pa)).alive && s.serves pa n

/-- The line of a physical address. -/
abbrev lineOf (pa : Nat) : Nat := pa / 128
/-- Whether the range lies in the partition's grants (R339): every 64 KiB unit of it in some range of the list. -/
def Partition.granted (p : Partition) (pa n : Nat) : Bool :=
  let ranges := (List.range 64).map fun k => (p.cfg (0x180 + 16 * k) 8, p.cfg (0x188 + 16 * k) 8)
  let used := ranges.takeWhile fun r => r.2 != 0
  let first := pa / 65536
  let last := (pa + n - 1) / 65536
  used.any (fun r => decide (r.1 ≤ first) && decide (last < r.1 + r.2)) ||
  (decide (last - first < 32768) && (List.range (last - first + 1)).all fun k =>
    used.any fun r => decide (r.1 ≤ first + k) && decide (first + k < r.1 + r.2))

/-- Where a table lies that the block names (R339): in the grants, as PARTCFG requires; 0 is an address like any other. -/
def Partition.table (p : Partition) (off n : Nat) : Option Nat := if p.granted (p.cfg off 8) n then some (p.cfg off 8) else none

/-! ## Fault codes (R357) -/

/-- The fault codes. -/
inductive FCode where
  | illegalEnc | reservedField | pairAlign | staleLatch | partialMatrix | tileUnalloc | accCheck | forkRange | forkDeferFull
  | stackLimit | align | stampMix | intervalWide | priv | trap | xlate | prot | ecc | linkLost | budget | waitSentinel
  | brk | step
deriving DecidableEq, Repr

/-- The 8-bit value of a code (R357). -/
def FCode.num : FCode → Nat
  | .illegalEnc => 0x01 | .reservedField => 0x02 | .pairAlign => 0x03 | .staleLatch => 0x04 | .partialMatrix => 0x05
  | .tileUnalloc => 0x06 | .accCheck => 0x07 | .forkRange => 0x08 | .forkDeferFull => 0x09 | .stackLimit => 0x0A
  | .align => 0x0B | .stampMix => 0x0C | .intervalWide => 0x0D | .priv => 0x0E | .trap => 0x0F | .xlate => 0x10
  | .prot => 0x11 | .ecc => 0x12 | .linkLost => 0x13 | .budget => 0x14 | .waitSentinel => 0x15 | .brk => 0x16 | .step => 0x17

/-! ## Translation -/

/-- A translated access. -/
structure Xlat where
  /-- Physical address. -/
  pa : Nat
  /-- The device that holds the page, when remote (R355): its number and the partition there. -/
  remote : Option (Nat × Nat)
  stamped : Bool
  domain : Bool
deriving DecidableEq, Repr

/-- Whether a device's memory is this device's own: that of a local page, or of a remote one that names this device (R355). -/
def State.isOwn (s : State) (dev : Option Nat) : Bool := match dev with | some d => d == s.devNumber | none => true

/-- Kinds of access a page's permissions tell apart (R343). -/
inductive AccMode where
  | read | write | fetch
deriving DecidableEq, Repr

/-- Sign bits of a device address (R275). -/
def canonical (va : W64) : Bool := let t := va.toNat / 2 ^ 56; t == 0 || t == 255

/-- Entry `idx` of a table at a physical address, read at its home slice (R344). -/
def State.entryAt (s : State) (table idx : Nat) : Nat := leNat (s.mem.readN (table + 8 * idx) 8)

/-- The index bits, page size and table alignment of a level (R342). -/
def levelShift : Nat → Nat
  | 4 => 48 | 3 => 39 | 2 => 30 | 1 => 21 | _ => 16

/-- Bits of the index at a level (R342): 9, and 5 at level 0. -/
def levelBits (lv : Nat) : Nat := if lv = 0 then 5 else 9

/-- The walk (R342, R343): from a table at level `lv`, the leaf entry and the page size; or XLATE, or LINK_LOST where a table's line is
homed on a lost die (R381). -/
def State.walk (s : State) (va table : Nat) : Nat → Except FCode (Nat × Nat)
  | 0 =>
    let e := s.entryAt table (fld va 16 5)
    if !s.homeAlive table then .error .linkLost
    else if e % 2 = 0 || e / 2 ^ 63 ≠ 0 || fld e 52 2 ≠ 0 || fld e 8 8 ≠ 0 then .error .xlate else .ok (e, 2 ^ 16)
  | lv + 1 =>
    let e := s.entryAt table (fld va (levelShift (lv + 1)) (levelBits (lv + 1)))
    let leaf := fld e 1 1 == 1
    if !s.homeAlive table then .error .linkLost
    else if e % 2 = 0 || e / 2 ^ 63 ≠ 0 || fld e 52 2 ≠ 0 then .error .xlate
    else if leaf then
      if lv + 1 ≥ 3 then .error .xlate
      else if fld e 8 (levelShift (lv + 1) - 8) ≠ 0 then .error .xlate
      else .ok (e, 2 ^ levelShift (lv + 1))
    else if fld e 5 3 ≠ 0 then .error .xlate
    else
      let next := fld e 8 44 * 256
      let al := if lv = 0 then 256 else 4096
      if next % al ≠ 0 then .error .xlate else s.walk va next lv

/-- Looks a page up in a core's TLB (R344). -/
def tlbFind (tlb : List TlbEntry) (part va : Nat) : Option TlbEntry :=
  tlb.find? fun e => e.part == part && e.va ≤ va && va < e.va + e.size

/-- Adds an entry, replacing the oldest of its set of 4, or of the 32 large ones (R344; log 11). -/
def tlbInsert (tlb : List TlbEntry) (e : TlbEntry) : List TlbEntry :=
  let same (x : TlbEntry) : Bool :=
    if e.size == 65536 then x.size == 65536 && x.va / 65536 % 64 == e.va / 65536 % 64 else x.size != 65536
  let cap := if e.size == 65536 then 4 else 32
  let mine := tlb.filter same
  let rest := tlb.filter fun x => !same x
  rest ++ (if mine.length ≥ cap then mine.drop 1 else mine) ++ [e]

/-- A domain-window entry as it is written (R355): the device and partition it names, if valid. -/
def State.windowWord (s : State) (part idx : Nat) : Option (Nat × Nat) :=
  let base := (s.part part).cfg 0x38 8
  let e := leNat (s.mem.readN (base + 8 * idx) 8)
  if base = 0 || e / 2 ^ 63 = 0 then none else some (e % 512, fld e 9 4)

/-- A domain-window entry as it reads: an unreachable device's is not valid (R381). -/
def State.windowEntry (s : State) (part idx : Nat) : Option (Nat × Nat) :=
  (s.windowWord part idx).filter fun e => !(FMap.get s.peers e.1).any fun p => !p.reachable

/-- What a leaf allows an access (R343); `user` for a thread at user level, an engine or the host's BAR2. -/
def State.leafCheck (s : State) (part : Nat) (user : Bool) (m : AccMode) (va leaf size : Nat) : Except FCode Xlat :=
  let base := fld leaf 8 44 * 256
  let pa := base + va % size
  let remote := fld leaf 7 1 == 1
  let rd := s.windowEntry part (fld leaf 54 9)
  if remote && !s.homeAlive ((s.part part).cfg 0x38 8 + 8 * fld leaf 54 9) then .error .linkLost
  else if remote && rd.isNone then .error .xlate
  else if m == .write && fld leaf 2 1 == 0 then .error .prot
  else if m == .fetch && fld leaf 3 1 == 0 then .error .prot
  else if user && fld leaf 4 1 == 0 then .error .prot
  else if !remote && !(s.part part).granted base size then .error .prot
  else .ok ⟨pa, if remote then rd else none, fld leaf 5 1 == 1, fld leaf 6 1 == 1⟩

/-- Whether a translation that ended so may stay in a TLB: one that ended in XLATE leaves nothing there (R345). -/
def cacheable : Except FCode Xlat → Bool
  | .error .xlate => false
  | .error .linkLost => false
  | _ => true

/-- Translates an address through a core's TLB, or by a walk that fills it (R342 to R345). -/
def State.translate (s : State) (core : Option Nat) (part : Nat) (user : Bool) (m : AccMode) (va : W64) : State × Except FCode Xlat :=
  if !canonical va then (s, .error .xlate)
  else
    let v := va.toNat % 2 ^ 57
    let hit := core.bind fun k => tlbFind (s.core k).tlb part v
    match hit with
    | some e => (s, s.leafCheck part user m v e.leaf.toNat e.size)
    | none =>
      match s.walk v ((s.part part).cfg 0x08 8) 4 with
      | .error e => (s, .error e)
      | .ok (leaf, size) =>
        let r := s.leafCheck part user m v leaf size
        match core with
        | some k =>
          if cacheable r then
            let c := s.core k
            (s.setCore k { c with tlb := tlbInsert c.tlb ⟨part, v / size * size, size, BitVec.ofNat 64 leaf⟩ }, r)
          else (s, r)
        | none => (s, r)

/-! ## Stamp clocks -/

/-- A reading of a die's stamp clock (R209, R256): E and L never decrease, and the package time lies between them. How far each
lies from it is not fixed (log 10). -/
def State.readClock (s : State) (d : Nat) : State × Nat × Nat :=
  let x := s.die d
  let e := max x.e (s.ns - Config.clockBehind d s.freeCtr)
  let l := max x.l (s.ns + Config.clockAhead d s.freeCtr)
  ({ s.setDie d { x with e := e, l := l } with freeCtr := s.freeCtr + 1 }, e, l)

/-- U in ps now (R256): it grows by 0.05 ns a µs from the last successful exchange; outside a domain it is 0. -/
def State.uNow (s : State) : Nat := if s.domain then s.uPs + (s.ns - s.uAt) / 20 else 0

/-- U in ns, rounded up (R256). -/
def State.uNs (s : State) : Nat := (s.uNow + 999) / 1000

/-! ## Home slices -/

/-- A thread's monitor fires when it is armed on the line (R293): of this device (`none`) or of another. -/
def Thread.hear (t : Thread) (dev : Option Nat) (line : Nat) : Thread :=
  match t.monitor with
  | some m => if m.device == dev && m.line == line then { t with monitor := some { m with fired := true } } else t
  | none => t

/-- The monitors of a course fire. -/
def Course.hear (c : Course) (dev : Option Nat) (line : Nat) : Course := { c with threads := c.threads.map fun p => (p.1, p.2.hear dev line) }

/-- The monitors of a team fire. -/
def Team.hear (t : Team) (dev : Option Nat) (line : Nat) : Team := { t with courses := t.courses.map fun q => (q.1, q.2.hear dev line) }

/-- Fires the monitors armed on a line. -/
def State.fireMonitors (s : State) (dev : Option Nat) (line : Nat) : State :=
  { s with teams := s.teams.map fun p => (p.1, p.2.hear dev line) }

/-- The lines a range touches. -/
def linesOf (pa n : Nat) : List Nat :=
  if n = 0 then [] else (List.range (lineOf (pa + n - 1) - lineOf pa + 1)).map fun k => lineOf pa + k

/-- Whether a range touches poisoned bytes (R378). -/
def State.poisoned (s : State) (pa n : Nat) : Bool :=
  !s.poison.isEmpty && (List.range n).any fun k => s.poison.contains ((pa + k) / 32)

/-! ## The L1 (R246 to R248) -/

/-- The line of an L1. -/
def Core.line (c : Core) (l : Nat) : L1Line := (FMap.get c.l1 l).getD {}

/-- A byte as an L1 holds it, or the home's. -/
def State.l1Byte (s : State) (core a : Nat) : Byte := (FMap.get ((s.core core).line (lineOf a)).valid (a % 128)).getD (s.mem.read a)

/-- Whether an L1 holds every byte of a range. -/
def State.l1Has (s : State) (core pa n : Nat) : Bool :=
  (List.range n).all fun k => (FMap.get ((s.core core).line (lineOf (pa + k))).valid ((pa + k) % 128)).isSome

/-- Brings a byte from its home into an L1, unless the L1 holds it dirty (R246; log 12). -/
def State.l1Fill (s : State) (core a : Nat) : State :=
  let c := s.core core
  let ln := c.line (lineOf a)
  if ln.dirty.contains (a % 128) then s
  else s.setCore core { c with l1 := FMap.set c.l1 (lineOf a) { ln with valid := FMap.set ln.valid (a % 128) (s.mem.read a) } }

/-- The bytes of the aligned blocks of 16 bytes that a range touches: an aligned access lies in one of them (R276). -/
def blockBytes (pa n : Nat) : List Nat := (List.range (((pa + n + 15) / 16 - pa / 16) * 16)).map fun k => pa / 16 * 16 + k

/-- Reads bytes through an L1 (R246): its valid bytes; where one is missing, every byte of its block that is not dirty comes from the
home at once, so that the clean bytes of a block are always those of one moment, and an aligned access takes its bytes from one write
(R276; log 12). -/
def State.l1Read (s : State) (core pa n : Nat) : State × List Byte :=
  let s := if s.l1Has core pa n then s else (blockBytes pa n).foldl (fun s a => s.l1Fill core a) s
  (s, (List.range n).map fun k => s.l1Byte core (pa + k))

/-- A plain store: the L1's bytes become valid and dirty (R246). -/
def State.l1Write (s : State) (core pa : Nat) (b : List Byte) : State :=
  let c := s.core core
  let put (l1 : FMap L1Line) (k : Nat) (v : Byte) : FMap L1Line :=
    let a := pa + k
    let ln := (FMap.get l1 (lineOf a)).getD {}
    FMap.set l1 (lineOf a)
      { ln with valid := FMap.set ln.valid (a % 128) v, dirty := if ln.dirty.contains (a % 128) then ln.dirty else ln.dirty ++ [a % 128],
                bad := ln.bad.filter fun o => o != a % 128 }
  let l1 := (b.zipIdx).foldl (fun l1 p => put l1 p.2 p.1) c.l1
  s.setCore core { c with l1 := l1 }

/-- Adds what a list does not hold yet. -/
def addNew (l more : List Nat) : List Nat := more.foldl (fun acc x => if acc.contains x then acc else acc ++ [x]) l

/-- The granules of a line in which an L1 has a byte with an error that is not correctable: the poison travels with the data (R378). -/
def granulesOf (line : Nat) (bad : List Nat) : List Nat := bad.map fun o => 4 * line + o / 32

/-- Performs the dirty bytes of a line of an L1 at their home (R246); they stay valid. Of a line homed on a lost die they are lost
(R381; log 47). -/
def State.performDirty (s : State) (core line : Nat) : State :=
  let c := s.core core
  let ln := c.line line
  if ln.dirty.isEmpty then s
  else
    let bytes := (sortBy (fun a b => decide (a ≤ b)) ln.dirty).map fun o => (o, (FMap.get ln.valid o).getD 0)
    let s := s.setCore core { c with l1 := FMap.set c.l1 line { ln with dirty := [], bad := [] } }
    if !s.homeAlive (128 * line) then s
    else
      let covered (g : Nat) : Bool := (List.range 32).all fun k => ln.dirty.contains ((32 * g + k) % 128) && lineOf (32 * g + k) == line
      let s := { s with mem := bytes.foldl (fun (m : Bytes) (p : Nat × Byte) => m.write (128 * line + p.1) p.2) s.mem,
                        poison := addNew (s.poison.filter fun g => !covered g) (granulesOf line ln.bad),
                        l2Poison := addNew s.l2Poison (granulesOf line ln.bad) }
      s.fireMonitors none line

/-- Recalls a line from every L1 that owns it, but the one named: written back, then invalidated (R248). -/
def State.recall (s : State) (line : Nat) (except : Option Nat) : State :=
  let owners := (s.cores.filter fun (p : Nat × Core) => some p.1 != except && (p.2.line line).owned).map Prod.fst
  owners.foldl (fun s k =>
    let s := s.performDirty k line
    let c := s.core k
    s.setCore k { c with l1 := FMap.erase c.l1 line }) s

/-- Writes the dirty bytes of a line of an L1 back to their home (R246): a line that another L1 owns exclusively is recalled first
(R245). -/
def State.writeBack (s : State) (core line : Nat) : State :=
  if ((s.core core).line line).dirty.isEmpty then s else (s.recall line (some core)).performDirty core line

/-- A write performed at its home slice: a line that an L1 owns exclusively is recalled first (R245, R248); then the bytes, the poison
of granules it covers whole (R378), the monitors (R293). -/
def State.homeWrite (s : State) (pa : Nat) (b : List Byte) : State :=
  let n := b.length
  let s := (linesOf pa n).foldl (fun s l => s.recall l none) s
  let covered (g : Nat) : Bool := decide (pa ≤ 32 * g) && decide (32 * g + 32 ≤ pa + n)
  let s := { s with mem := s.mem.writeN pa b, poison := s.poison.filter fun g => !covered g }
  (linesOf pa n).foldl (fun s l => s.fireMonitors none l) s

/-- Writes every dirty byte of an L1 back (R247, release at .cl or wider). -/
def State.writeBackAll (s : State) (core : Nat) : State :=
  ((s.core core).l1.filter fun p => !p.2.dirty.isEmpty).foldl (fun s p => s.writeBack core p.1) s

/-- An acquire at .cl or wider: every byte neither dirty nor in an owned line loses its valid bit, and the fetch cache is
cleared (R247, R270). -/
def State.invalidateClean (s : State) (core : Nat) : State :=
  let c := s.core core
  let l1 := (c.l1.map fun p =>
    if p.2.owned then p else (p.1, { p.2 with valid := p.2.valid.filter fun q => p.2.dirty.contains q.1 })).filter
      fun p => p.2.owned || !p.2.valid.isEmpty
  s.setCore core { c with l1 := l1, fcache := [] }

/-- Takes a line into exclusive ownership (R245, R248): recalled from others, and its clean bytes fetched anew. -/
def State.own (s : State) (core line : Nat) : State :=
  let s := s.recall line (some core)
  let c := s.core core
  let ln := c.line line
  if ln.owned then s
  else
    s.setCore core
      { c with l1 := FMap.set c.l1 line { ln with owned := true, valid := ln.valid.filter fun q => ln.dirty.contains q.1 } }

/-- Clears the valid bits of bytes in an L1 after they were written at the home slice (R247, R248): no copy, dirty or clean,
stays. -/
def State.dropBytes (s : State) (core pa n : Nat) : State :=
  let c := s.core core
  let drop (l1 : FMap L1Line) (a : Nat) : FMap L1Line :=
    match FMap.get l1 (lineOf a) with
    | none => l1
    | some ln =>
      FMap.set l1 (lineOf a)
        { ln with valid := FMap.erase ln.valid (a % 128), dirty := ln.dirty.filter (fun o => o != a % 128),
                  bad := ln.bad.filter fun o => o != a % 128 }
  s.setCore core { c with l1 := (List.range n).foldl (fun l1 k => drop l1 (pa + k)) c.l1 }

/-- Reads bytes at the home slice for an acquire or an atomic there: the line is recalled; bytes dirty in the issuing L1 are
taken from it (R247). -/
def State.homeRead (s : State) (core pa n : Nat) : State × List Byte :=
  let s := (linesOf pa n).foldl (fun s l => s.recall l none) s
  let c := s.core core
  let one (a : Nat) : Byte :=
    let ln := c.line (lineOf a)
    if ln.dirty.contains (a % 128) then (FMap.get ln.valid (a % 128)).getD 0 else s.mem.read a
  (s, (List.range n).map fun k => one (pa + k))

/-- An access by a remote page that names this device is performed at its home slice (R251, R355): the issuing L1 writes its dirty bytes
back and keeps no copy of what is accessed, so that the thread's accesses by either page are coherent (R237); an atomic, an acquire or a
write recalls the lines first (R247, R248). -/
def State.ownReach (s : State) (core pa n : Nat) (recalls : Bool) : State :=
  ((linesOf pa n).foldl (fun s l => (if recalls then s.recall l none else s).writeBack core l) s).dropBytes core pa n

/-! ## Other devices (R251, R355) -/

/-- Another device of the domain. -/
def State.peer (s : State) (d : Nat) : Peer := (FMap.get s.peers d).getD {}

/-- Whether the remote device performs an access (R355): its partition's window names this one and its grants hold the bytes. Where this
model does not list what it grants, its own configuration answers, which is not fixed here (log 24). -/
def Peer.allows (p : Peer) (dev part rpart pa n : Nat) : Bool :=
  match p.grants with
  | some l => l.any fun g => g.1 == part && g.2.1 == rpart && decide (g.2.2.1 ≤ pa) && decide (pa + n ≤ g.2.2.1 + g.2.2.2)
  | none => (List.range ((pa + n - 1) / 65536 - pa / 65536 + 1)).all fun k => Config.peerGrants dev part rpart (pa / 65536 + k)

/-- Whether a device's memory answers a partition's remote access: this device itself checks its own window and grants, and a line of
its own that is homed on a lost die does not answer (R381). -/
def State.remoteCheck (s : State) (part dev rpart pa n : Nat) : Except FCode Unit :=
  if dev = s.devNumber then
    let back := (List.range 512).any fun k => s.windowEntry rpart k == some (dev, part)
    if !((s.part rpart).enabled && back && (s.part rpart).granted pa n) then .error .prot
    else if s.homeAlive pa n then .ok () else .error .linkLost
  else
    let p := s.peer dev
    if !p.reachable || !s.domain || s.ports == 0 then .error .linkLost
    else if p.allows dev part rpart pa n then .ok () else .error .prot

/-- Whether no plane works for now to a device that is not yet unreachable (R380): its accesses wait. -/
def State.pathDown (s : State) (dev : Nat) : Bool := dev != s.devNumber && s.domain && s.ports == 0 && (s.peer dev).reachable

/-- Whether the home of a translated range answers a partition's access (R355, R381). -/
def State.homeAnswers (s : State) (part : Nat) (x : Xlat) (n : Nat) : Except FCode Unit :=
  match x.remote with
  | some (d, rp) => s.remoteCheck part d rp x.pa n
  | none => if s.homeAlive x.pa n then .ok () else .error .linkLost

/-- Whether a range of a device's memory touches poison (R378). -/
def State.poisonAt (s : State) (dev : Option Nat) (pa n : Nat) : Bool :=
  match dev with
  | some d =>
    if d = s.devNumber then s.poisoned pa n
    else (s.peer d).poison.any fun g => decide (32 * g < pa + n) && decide (pa < 32 * g + 32)
  | none => s.poisoned pa n

/-- The device on whose plane a range of a partition's addresses waits for now (R380), page by page. -/
def State.planeWait (s : State) (part : Nat) (user : Bool) (m : AccMode) (va n : Nat) : Nat → Option Nat
  | 0 => none
  | fuel + 1 =>
    if n = 0 then none
    else
      let k := min n (65536 - va % 65536)
      match (s.translate none part user m (BitVec.ofNat 64 va)).2 with
      | .error _ => none
      | .ok x =>
        match x.remote with
        | some (d, _) => if s.pathDown d then some d else s.planeWait part user m (va + k) (n - k) fuel
        | none => s.planeWait part user m (va + k) (n - k) fuel

/-- Whether an access of the device's own at an address waits for a plane (R380). -/
def State.planeDown (s : State) (part : Nat) (m : AccMode) (a : W64) : Bool := (s.planeWait part true m a.toNat 1 1).isSome

/-- The port of the plane an access goes by (R354): the physical line number mod q picks among the q working ports. -/
def State.planeOf (s : State) (pa : Nat) : Fin 18 :=
  let up := (List.range 18).filter fun k => s.ports.getLsbD k
  Fin.ofNat 18 (nth up (lineOf pa % up.length) 0)

/-- Reads remote bytes at their home. -/
def State.remoteRead (s : State) (dev pa n : Nat) : List Byte :=
  if dev = s.devNumber then s.mem.readN pa n else (s.peer dev).mem.readN pa n

/-- Writes remote bytes at their home; monitors armed there fire (R293). -/
def State.remoteWrite (s : State) (dev pa : Nat) (b : List Byte) : State :=
  if dev = s.devNumber then s.homeWrite pa b
  else
    let p := s.peer dev
    let covered (g : Nat) : Bool := decide (pa ≤ 32 * g) && decide (32 * g + 32 ≤ pa + b.length)
    let s := { s with peers := FMap.set s.peers dev { p with mem := p.mem.writeN pa b, poison := p.poison.filter fun g => !covered g } }
    (linesOf pa b.length).foldl (fun s l => s.fireMonitors (some dev) l) s

/-! ## The device's own accesses (R395) -/

/-- Bytes left in the page of an address for a chunk of `n`. -/
def chunkLen (va n : Nat) : Nat := min n (65536 - va % 65536)

/-- Reads bytes by a partition's tables, at user level or not, at their homes: page by page, at most `fuel` pages. -/
def State.tableRead (s : State) (part : Nat) (user : Bool) (va n : Nat) : Nat → Except (FCode × W64) (List Byte)
  | 0 => .ok []
  | fuel + 1 =>
    if n = 0 then .ok []
    else
      let a := BitVec.ofNat 64 va
      let k := chunkLen va n
      match (s.translate none part user .read a).2 with
      | .error e => .error (e, a)
      | .ok x =>
        match s.homeAnswers part x k with
        | .error e => .error (e, a)
        | .ok _ =>
          if s.poisonAt (x.remote.map Prod.fst) x.pa k then .error (.ecc, a)
          else
            let b := match x.remote with | some (d, _) => s.remoteRead d x.pa k | none => s.mem.readN x.pa k
            match s.tableRead part user (va + k) (n - k) fuel with
            | .error e => .error e
            | .ok t => .ok (b ++ t)

/-- Writes bytes by a partition's tables at user level, at their homes, page by page; all or nothing up to the failing page. -/
def State.userWrite (s : State) (part : Nat) (va : Nat) (b : List Byte) : Nat → State × Option (FCode × W64 × List Byte)
  | 0 => (s, none)
  | fuel + 1 =>
    if b.isEmpty then (s, none)
    else
      let a := BitVec.ofNat 64 va
      let k := chunkLen va b.length
      match (s.translate none part true .write a).2 with
      | .error e => (s, some (e, a, b))
      | .ok x =>
        match x.remote with
        | some (d, rp) =>
          match s.remoteCheck part d rp x.pa k with
          | .error e => (s, some (e, a, b))
          | .ok _ => (s.remoteWrite d x.pa (b.take k)).userWrite part (va + k) (b.drop k) fuel
        | none =>
          if !s.homeAlive x.pa k then (s, some (.linkLost, a, b))
          else (s.homeWrite x.pa (b.take k)).userWrite part (va + k) (b.drop k) fuel

/-- Pages a range can touch. -/
def pagesOf (n : Nat) : Nat := n / 65536 + 2

/-- A read of the device's own. -/
def State.ownRead (s : State) (part : Nat) (va : W64) (n : Nat) : Except (FCode × W64) (List Byte) :=
  s.tableRead part true va.toNat n (pagesOf n)

/-! ## The error log (R379) -/

/-- An error-log record (R379). -/
def errorRecord (source part unit base len va valen slice stamp : Nat) : List Byte :=
  leBytes 8 (source + part * 2 ^ 8 + unit * 2 ^ 16) ++ leBytes 8 base ++ leBytes 8 len ++ leBytes 8 va ++ leBytes 8 valen ++
  leBytes 8 slice ++ leBytes 8 stamp ++ leBytes 8 0

/-- Adds a record to a log (R379), or counts a further error in the range of a record that still waits to be posted. -/
def RecRing.addError (r : RecRing) (b : List Byte) : RecRing :=
  let same (x : List Byte) : Bool := decide (bytesAt x 0 1 ≤ 3) && decide (bytesAt b 0 1 ≤ 3) && bytesAt x 0 24 == bytesAt b 0 24
  if r.waiting.any same then
    { r with waiting := r.waiting.map fun x => if same x then putBytes x 0x38 (leBytes 8 (min (bytesAt x 0x38 8 + 1) (2 ^ 64 - 1))) else x }
  else { r with waiting := r.waiting ++ [b] }

/-- Posts an error's record to the logs of some partitions and to the device's own copy (R379). -/
def State.postError (s : State) (hit : Nat → Bool) (source unit base len va valen slice : Nat) : State :=
  let (s, e, _) := s.readClock 0
  let rec' (k : Nat) : List Byte := errorRecord source k unit base len va valen slice e
  let s := ((List.range 16).filter hit).foldl (fun s k =>
    let q := s.part k
    (s.setPart k { q with errorLog := q.errorLog.addError (rec' k) }).due (.faultRecordPost (Fin.ofNat 16 k))) s
  { s with errorLog := s.errorLog.addError (rec' 0) }

/-- Posts an error's record to the log of each partition whose grants hold the range, and to the device's own copy (R379). -/
def State.logError (s : State) (source unit base len va valen slice : Nat) : State :=
  s.postError (fun k => (s.part k).enabled && (s.part k).granted base len) source unit base len va valen slice

/-- The poisoned granules a range touches. -/
def State.badGranules (s : State) (pa n : Nat) : List Nat := s.poison.filter fun g => decide (32 * g < pa + n) && decide (pa < 32 * g + 32)

/-- The home slice of a line (R393). -/
def homeSlice (line : Nat) : Nat := line / 2 ^ 32 * 96 + line % 2 ^ 32 % 96

/-- An access of a slice meets poisoned granules: their records in the error log, of the tower or of the L2 slice whose error it is
(R379). -/
def State.logPoison (s : State) (pa n va slice : Nat) : State :=
  (s.badGranules pa n).foldl (fun s g =>
    if s.l2Poison.contains g then s.logError 1 (homeSlice (lineOf (32 * g))) (32 * g) 32 va n slice
    else s.logError 0 (towerOf (32 * g)) (32 * g) 32 va n slice) s

/-- The same at a virtual address of a partition. -/
def State.logPoisonVa (s : State) (part : Nat) (va : W64) (n slice : Nat) : State :=
  match (s.translate none part true .read va).2 with
  | .ok x => if s.isOwn (x.remote.map Prod.fst) then s.logPoison x.pa n va.toNat slice else s
  | .error _ => s

end Sys2Proof.Machine
end

