-- ==== Sys2Proof/Machine/Ops.lean ====
section
/-!
DEFINITION. The shared operations of the meanings: the lift and its threads, records of the fault ring, taking a program trap and
parking for a system fault (R357 to R367), the return from a trap (R361), and retiring a unit.
-/

namespace Sys2Proof.Machine

/-! ## Slice records and team areas (R319, R320, R370) -/

/-- The SHAPE word. -/
def Slice.shapeW (x : Slice) : Nat := x.fieldAt 0x38 8
/-- The RES word. -/
def Slice.resW (x : Slice) : Nat := x.fieldAt 0x40 8
def Slice.gridTeams (x : Slice) : Nat := if x.shapeW % 2 ^ 24 = 0 then 2 ^ 24 else x.shapeW % 2 ^ 24
def Slice.teamThreads (x : Slice) : Nat := fld x.shapeW 24 11
/-- The effective thread ceiling C (R29). -/
def Slice.ceiling (x : Slice) : Nat :=
  let f := fld x.shapeW 35 11
  max (if f = 0 then 1024 else f) x.teamThreads
def Slice.tilesMax (x : Slice) : Nat := fld x.shapeW 46 5
/-- On-chip return entries K (R122, R319). -/
def Slice.stackK (x : Slice) : Nat := match fld x.shapeW 51 2 with | 0 => 4 | 1 => 8 | _ => 16
def Slice.gang (x : Slice) : Nat := fld x.shapeW 53 3
def Slice.restart (x : Slice) : Bool := fld x.shapeW 56 1 == 1
def Slice.sdom (x : Slice) : Bool := fld x.shapeW 57 1 == 1
def Slice.cls (x : Slice) : Nat := fld x.shapeW 58 4
def Slice.scratch (x : Slice) : Nat := (x.resW % 2 ^ 21 + 15) / 16 * 16
def Slice.rsquota (x : Slice) : Nat := fld x.resW 21 15
/-- The spawn timer in cycles (R47). -/
def Slice.stimer (x : Slice) : Nat := let f := fld x.resW 36 16; if f = 0 then 256 else max f 16
def Slice.clmem (x : Slice) : Nat := fld x.resW 52 12
def Slice.budget (x : Slice) : Nat := x.fieldAt 0x30 8
/-- Courses launched for one team (R27). -/
def Slice.launchCourses (x : Slice) : Nat := (x.teamThreads + 31) / 32
/-- The course allotment (R29). -/
def Slice.allot (x : Slice) : Nat := max x.launchCourses ((x.ceiling + 31) / 32) + 1
/-- N of the team image (R370). -/
def Slice.maxCourses (x : Slice) : Nat := max x.allot x.ceiling
/-- Rounds up to a multiple of 64 KiB. -/
def up64k (n : Nat) : Nat := (n + 65535) / 65536 * 65536
/-- Q, a course slot's size (R370). -/
def Slice.slotSize (x : Slice) : Nat := 65536 * (1 + (x.tilesMax * 9344 + 65535) / 65536)
/-- The cluster-memory bytes a team's image holds: those of the first team of a gang, or of a team granted some (R370). -/
def Slice.imageClm (x : Slice) (index : Nat) : Nat :=
  if x.clmem = 0 then 0 else if x.gang = 0 || index % x.gang = 0 then x.clmem * 1024 else 0
/-- A team's area (R320). -/
def Slice.area (x : Slice) (index : Nat) : Nat :=
  let w := x.fieldAt 0x78 8
  w / 65536 * 65536 + index * (w % 65536) * 65536
/-- A team's image (R370). -/
def Slice.image (x : Slice) (index : Nat) : Nat := x.area index + 65536
/-- A course's image (R370). -/
def Slice.courseImage (x : Slice) (index course : Nat) : Nat :=
  x.image index + 65536 + up64k x.scratch + up64k (x.imageClm index) + course * x.slotSize
/-- A thread's trap record (R361, R371). -/
def Slice.trapRecord (x : Slice) (index course lane : Nat) : Nat := x.courseImage index course + 0x4B00 + 1024 * lane

/-! ## The lift -/

/-- The team whose lift is issuing. -/
def State.curTeam (s : State) : Option Team := FMap.get s.teams s.issue.team

/-- A course of a team. -/
def Team.course (t : Team) (c : Nat) : Course := (FMap.get t.courses c).getD {}
/-- Sets a course. -/
def Team.setCourse (t : Team) (c : Nat) (x : Course) : Team := { t with courses := FMap.set t.courses c x }
/-- Changes a course of a team, if it is there. -/
def State.onCourse (s : State) (tk c : Nat) (f : Course → Course) : State :=
  { s with teams := FMap.modify s.teams tk fun t => { t with courses := FMap.modify t.courses c f } }
/-- Changes a thread, if it is there. -/
def State.onThread (s : State) (tk c l : Nat) (f : Thread → Thread) : State :=
  s.onCourse tk c fun x => { x with threads := FMap.modify x.threads l f }
/-- Changes every thread of a team. -/
def Team.mapThreads (t : Team) (f : Thread → Thread) : Team :=
  { t with courses := t.courses.map fun q => (q.1, { q.2 with threads := q.2.threads.map fun r => (r.1, f r.2) }) }
/-- Changes every thread of the resident teams. -/
def State.mapThreads (s : State) (f : Thread → Thread) : State := { s with teams := s.teams.map fun p => (p.1, p.2.mapThreads f) }
/-- A thread. -/
def State.threadAt (s : State) (tk c l : Nat) : Option Thread :=
  ((FMap.get s.teams tk).bind fun t => FMap.get t.courses c).bind fun x => FMap.get x.threads l

/-- The courses with a member in a list of members, ascending. -/
def coursesOf (ms : List (Nat × Nat)) : List Nat :=
  ms.foldl (fun acc m => if acc.contains m.1 then acc else insertBy (fun a b => decide (a ≤ b)) m.1 acc) []
/-- The lanes a list of members has in a course. -/
def lanesIn (ms : List (Nat × Nat)) (c : Nat) : List Nat := (ms.filter fun m => m.1 == c).map Prod.snd

/-- Whether a lane-set instruction is full-course for a course (R60): the lift is drawn from that course alone, and every live
thread of it is in the lift and participates. -/
def fullCourse (i : Issue) (c : Nat) (x : Course) : Bool :=
  (coursesOf i.lift == [c]) && x.live.all (fun l => i.parts.contains (c, l)) && i.lift.all fun m => i.parts.contains m

/-- Whether every live thread of a course participates (R63). -/
def allParticipate (i : Issue) (c : Nat) (x : Course) : Bool := x.live.all fun l => i.parts.contains (c, l)

/-- Whether every live thread of a course stands in the lift (R34). -/
def Issue.whole (i : Issue) (c : Nat) (x : Course) : Bool := x.live.all fun l => i.lift.contains (c, l)

/-- The address of the next unit. -/
def Issue.next (i : Issue) : W64 := i.addr + BitVec.ofNat 64 i.len

/-- Reading context of a course of the issuing team. -/
def rdCtx (core : Core) (t : Team) (c : Nat) : RdCtx := ⟨t.course c, c, t.index, core.latchGen⟩

/-- Continues a thread at an address: its wait is over, and it is ready from now on (R329, R330). -/
def Thread.goto (t : Thread) (pc : W64) (now : Nat) : Thread :=
  { t with pc := pc, wait := .none, waited := false, struck := false, progress := none, sentinel := 0, readySince := now, resumed := false }

/-- Retires the unit for some members of the issuing team: they continue at `pc`. -/
def State.retire (s : State) (ms : List (Nat × Nat)) (pc : W64) : State :=
  let s := ms.foldl (fun s m => s.onThread s.issue.team m.1 m.2 fun t => t.goto pc s.cycle) s
  { s with issue := { s.issue with retired := s.issue.retired ++ ms.map fun m => (s.issue.team, m.1, m.2) } }

/-- Makes members wait at their unit. -/
def State.await (s : State) (ms : List (Nat × Nat)) (w : Wait) : State :=
  ms.foldl (fun s m => s.onThread s.issue.team m.1 m.2 fun t => { t with wait := w, waitLen := s.issue.len }) s

/-- The members of the lift whose guard is false (R92). -/
def Issue.falseParts (i : Issue) : List (Nat × Nat) := i.lift.filter fun m => !i.parts.contains m

/-! ## Pipe holds (R71, R367) -/

/-- One thread's value at the shape code it was written with (R208, R361): of an affine one the thread's row alone is kept. -/
def rowVal (sh : Shape) (v : W64) : LatchVal :=
  match sh with
  | .u => .uni v
  | .a => .aff v 0
  | .g => .gen (List.replicate 32 v)

/-- The value a latch record gives a lane, as a record of that lane alone; one that is held stays readable until its next lift. -/
def Course.laneLatch (c : Course) (pipe l : Nat) (hold : Bool) : SavedLatch :=
  let r := nth c.latches pipe {}
  { pipe := Fin.ofNat 4 pipe
    record := { r with lanes := r.lanes &&& laneBit l, valid := r.valid && hasLane r.lanes l, pinned := hold,
                       val := rowVal r.val.shape (r.val.at r.wide l) }
    value := r.val.at r.wide l
    hold := hold }

/-- The latch a thread keeps of a pipe when it leaves its group: its own, where it carries one. -/
def Course.keepLatch (c : Course) (pipe : Fin 4) (l : Nat) : Course :=
  c.onThreads [l] fun _ th =>
    let sv := match th.savedFor pipe.val with
      | some sv => { sv with record := { sv.record with pinned := true }, hold := true, group := false, members := [] }
      | none => c.laneLatch pipe.val l true
    { th with saved := sv :: th.saved.filter fun y => y.pipe != pipe }

/-- A thread whose group was saved whole goes on without it. -/
def Thread.leaveGroup (t : Thread) : Thread :=
  { t with saved := t.saved.map fun (sv : SavedLatch) => { sv with group := false, members := [] } }

/-- Whether a thread's hold is that of a group saved whole (R73). -/
def Team.inGroup (t : Team) (c l : Nat) : Bool := ((t.course c).thread l).saved.any fun sv => sv.group

/-- Takes some threads of a team out of the groups that hold a core's pipes. -/
def Core.dropHolds (c : Core) (tk : Nat) (ms : List (Nat × Nat)) : Core :=
  let left (h : Hold) : Hold := if h.team = tk then { h with members := h.members.filter (fun m => !ms.contains m) } else h
  { c with holds := (c.holds.map left).filter fun h => !h.members.isEmpty }

/-- A thread leaves the group that holds a pipe, its latch value saved with it (R367). -/
def State.leaveHold (s : State) (tk c l : Nat) : State :=
  match FMap.get s.teams tk with
  | none => s
  | some t =>
    let core := s.core t.core
    let mine (h : Hold) : Bool := h.team == tk && h.members.contains (c, l)
    match core.holds.find? mine, s.issue.consumed.find? mine with
    | none, none => if t.inGroup c l then s.onThread tk c l Thread.leaveGroup else s
    | some h, _ | none, some h => (s.setCore t.core (core.dropHolds tk [(c, l)])).onCourse tk c fun x => x.keepLatch h.pipe l

/-- A thread whose course is saved takes its group's hold with it (R73): the record stays the group's, and its next lift is the
group's. -/
def State.saveHold (s : State) (tk c l : Nat) : State :=
  match FMap.get s.teams tk with
  | none => s
  | some t =>
    match (s.core t.core).holds.find? fun h => h.team == tk && h.members.contains (c, l) with
    | none => s
    | some h =>
      s.onCourse tk c fun x =>
        let r := nth x.latches h.pipe.val {}
        let sv : SavedLatch :=
          { pipe := h.pipe, record := { r with pinned := true }, value := r.val.at r.wide l, hold := true, group := true, members := h.members }
        x.onThreads [l] fun _ th => { th with saved := sv :: th.saved.filter fun y => y.pipe != h.pipe }

/-- The pipes that some threads of a team hold are free of them. -/
def State.dropHolds (s : State) (tk : Nat) (ms : List (Nat × Nat)) : State :=
  match FMap.get s.teams tk with
  | none => s
  | some t => s.setCore t.core ((s.core t.core).dropHolds tk ms)

/-! ## The fault ring's records (R362 to R364) -/

/-- What a record says (R364). -/
structure RecFields where
  code : FCode
  /-- 0 thread, 1 operand-log entry, 2 engine command, 3 slice, 4 host access. -/
  kind : Nat
  /-- sr.fault [31:16]. -/
  detail : Nat := 0
  slice : Nat := 0
  core : Nat := 0
  course : Nat := 0
  lane : Nat := 0
  entry : Nat := 0
  team : Nat := 0
  ctx : Nat := 0
  addr : W64 := 0
  faultAddr : W64 := 0
  mask : W32 := 0
  cmd : Nat := 0

/-- The record's 64 bytes; E is filled in at posting. -/
def RecFields.bytes (f : RecFields) (token : Nat) : List Byte :=
  leBytes 8 (f.code.num + f.kind * 2 ^ 8 + f.detail % 2 ^ 16 * 2 ^ 16 + f.slice % 2 ^ 32 * 2 ^ 32) ++
  leBytes 8 (f.core % 2 ^ 10 + f.course % 2 ^ 10 * 2 ^ 10 + f.lane % 32 * 2 ^ 20 + f.entry % 8 * 2 ^ 25 + f.team % 2 ^ 24 * 2 ^ 28 +
    f.ctx % 4 * 2 ^ 52) ++
  leBytes 8 f.addr.toNat ++ leBytes 8 f.faultAddr.toNat ++ leBytes 4 f.mask.toNat ++ leBytes 4 0 ++ leBytes 8 f.cmd ++
  leBytes 8 0 ++ leBytes 8 token

/-- Adds 1 to a count of a slice's fault summary, which saturates (R384). -/
def satAdd (n bits : Nat) : Nat := min (n + 1) (2 ^ bits - 1)

/-- Hands a record to the partition's fault ring; it waits in the device until it is posted (R363). Gives its TOKEN. -/
def State.record (s : State) (part : Nat) (subj : Subject) (f : RecFields) : State × Nat :=
  let p := s.part part
  let token := p.nextToken
  let p := { p with
    nextToken := token + 1
    subjects := FMap.set p.subjects token subj
    faultRing := { p.faultRing with waiting := p.faultRing.waiting ++ [f.bytes token] } }
  let s := (s.setPart part p).due (.faultRecordPost (Fin.ofNat 16 part))
  let key := sliceKey part f.slice
  let s := match FMap.get s.slices key with
    | some x => s.setSlice key { x with
        firstCode := if x.records = 0 then f.code.num else x.firstCode
        records := satAdd x.records 24
        eccs := if f.code == .ecc then satAdd x.eccs 16 else x.eccs }
    | none => s
  (s, token)

/-! ## The device's own accesses on a team's behalf (R395) -/

/-- The state as a resident team sees it: a block written since the team was placed does not apply to it (R339). -/
def State.under (s : State) (t : Team) : State :=
  match t.block with
  | none => s
  | some b => s.setPart t.part { s.part t.part with block := b }

/-- Runs something as a team sees the state; the block in force stands again after it. -/
def State.asTeam {α : Type} (s : State) (t : Team) (f : State → State × α) : State × α :=
  match t.block with
  | none => f s
  | some _ =>
    let r := f (s.under t)
    (r.1.setPart t.part { r.1.part t.part with block := (s.part t.part).block }, r.2)

/-- A write of the device's own for a team; one that meets a fault is held, a slice-kind record is posted, and the team stops. One that
waits for a plane (R380) is held without a record. -/
def State.teamWrite (s : State) (tk : Nat) (va : Nat) (b : List Byte) : State :=
  match FMap.get s.teams tk with
  | none => s
  | some t =>
    if !t.held.isEmpty then s.setTeam tk { t with held := t.held ++ [{ addr := BitVec.ofNat 64 va, bytes := b }] }
    else
      match s.asTeam t fun s => s.userWrite t.part va b (pagesOf b.length) with
      | (s', none) => s'
      | (s', some (code, a, rest)) =>
        match FMap.get s'.teams tk with
        | none => s'
        | some t' =>
          let link := code == .linkLost && (s'.under t).planeDown t.part .write a
          let s' := s'.setTeam tk { t' with held := [{ addr := a, bytes := rest, link := link }], stopped := true }
          if link then s'
          else (s'.record t.part (.internal (sliceKey t.part t.slice) tk)
            { code := code, kind := 3, slice := t.slice, core := t.core, team := t.index, faultAddr := a }).1

/-- A read of the device's own for a team; one that meets a fault is held and the team stops; so is one that waits for a plane (R380),
without a record. -/
def State.teamRead (s : State) (tk : Nat) (va n : Nat) : State × Option (List Byte) :=
  match FMap.get s.teams tk with
  | none => (s, none)
  | some t =>
    match (s.under t).ownRead t.part (BitVec.ofNat 64 va) n with
    | .ok b => (s, some b)
    | .error (code, a) =>
      let s := if code == .ecc then s.logPoisonVa t.part a (chunkLen a.toNat n) t.slice else s
      let link := code == .linkLost && (s.under t).planeDown t.part .read a
      let s := s.setTeam tk { t with held := t.held ++ [{ addr := a, bytes := [], link := link }], stopped := true }
      if link then (s, none)
      else ((s.record t.part (.internal (sliceKey t.part t.slice) tk)
        { code := code, kind := 3, slice := t.slice, core := t.core, team := t.index, faultAddr := a }).1, none)

/-! ## Faults of threads -/

/-- A fault one thread raises at its unit. -/
structure Req where
  course : Nat
  lane : Nat
  code : FCode
  /-- TRAP or BKPT immediate. -/
  imm : Nat := 0
  /-- sr.fault [31:16] (R358). -/
  detail : Nat := 0
  /-- The address R358 gives for the fault, if it gives one. -/
  addr : Option W64 := none
  /-- The unit has been performed, and the thread stands at the next unit (TRAP, BREAK). -/
  done : Bool := false
  /-- Delivered as a system fault whatever the code's class: PROT at fetch, remote, at SLICE or coll (R357). -/
  system : Bool := false
deriving DecidableEq, Repr

/-- Whether a fault is delivered as a program trap (R357). -/
def Req.isProgram (r : Req) : Bool :=
  !r.system &&
  match r.code with
  | .illegalEnc | .reservedField | .pairAlign | .staleLatch | .partialMatrix | .tileUnalloc | .accCheck | .forkRange
  | .forkDeferFull | .stackLimit | .align | .stampMix | .intervalWide | .priv | .trap | .prot => true
  | .xlate | .ecc | .linkLost | .budget | .waitSentinel | .brk | .step => false

/-- sr.fault for a fault (R358). -/
def Req.faultWord (r : Req) (escalated : Bool) : W32 :=
  BitVec.ofNat 32 (r.code.num + r.imm % 256 * 2 ^ 8 + (r.detail % 2 ^ 15 + (if escalated then 2 ^ 15 else 0)) * 2 ^ 16)

/-- Sets LASTFAULT, sr.tsw [23:16] (R138). -/
def setLastFault (tsw : W32) (code : FCode) : W32 := (tsw &&& 0xFF00FFFF) ||| BitVec.ofNat 32 (code.num * 2 ^ 16)
/-- HALT, sr.tsw [30] (R138). -/
def haltBit : W32 := 0x40000000
/-- STEP, sr.tsw [31] (R138). -/
def stepBit : W32 := 0x80000000
/-- Whether a thread is halted. -/
def Thread.halted (t : Thread) : Bool := t.tsw.getLsbD 30
/-- Whether a thread steps. -/
def Thread.stepping (t : Thread) : Bool := t.tsw.getLsbD 31
/-- STOPMODE, sr.tsw [29:28] (R138). -/
def Thread.stopMode (t : Thread) : Nat := fld t.tsw.toNat 28 2

/-- A latch record of R76 as 64 bits; `index` locates a saved value. -/
def LatchRec.word (r : LatchRec) (index : Nat) : Nat :=
  if !r.valid then 0
  else r.lanes.toNat * 2 ^ 32 + index * 2 ^ 20 + r.val.shape.code * 2 ^ 18 + r.wide.toNat * 2 ^ 17 + r.suppr.toNat * 2 ^ 16 + 2 ^ 15 +
    r.dl.toNat * 2 ^ 14 + r.dest % 64 * 2 ^ 8

/-- The shape of a code of R52. -/
def shapeOfCode : Nat → Shape
  | 2 => .a
  | 3 => .g
  | _ => .u

/-- Reads a record of R76 with one thread's value back: the pipe's latch holds it again (R73), from a hold's next lift on or, without a
hold, as of the generation it is reloaded in. -/
def latchOfWord (w : Nat) (v : W64) (gen : Nat) (pinned : Bool) : LatchRec :=
  { valid := fld w 15 1 == 1, lanes := BitVec.ofNat 32 (w / 2 ^ 32), val := rowVal (shapeOfCode (fld w 18 2)) v, wide := fld w 17 1 == 1,
    suppr := fld w 16 1 == 1, dl := fld w 14 1 == 1, dest := fld w 8 6, gen := gen, pinned := pinned }

/-- The source names a trap record saves (R361): the names and entries its unit's operands name, a pair as two, at most 6. -/
def trapNames (ops : List Src) : List (Nat × Bool × Nat) :=
  (ops.flatMap fun o =>
    match o with
    | .reg n last => [(last.toNat * 64 + n.val, false, n.val)]
    | .opf n => [(128 + n.val, true, n.val)]
    | .latch _ | .special _ | .lit _ => []).take 6

/-- The bytes a name's value takes at its shape's size (R77). -/
def nameBytes (names : List NameVal) (n : Nat) : List Byte :=
  match nth names n .free with
  | .free => []
  | .uni v => leBytes 4 v.toNat
  | .aff b st _ => leBytes 4 b.toNat ++ leBytes 4 st.toNat
  | .gen rows => lanes32.flatMap fun l => leBytes 4 (nth rows l 0).toNat

/-- The shape code of a name (R52). -/
def nameCode (names : List NameVal) (n : Nat) : Nat :=
  match nth names n .free with
  | .free => 0 | .uni _ => 1 | .aff _ _ _ => 2 | .gen _ => 3

/-- The descriptors and values of a trap record's sources (R361). -/
def trapSources (c : Course) (ops : List Src) : Nat × List Byte × List Byte :=
  let step (acc : Nat × List Byte × List Byte) (x : Nat × Bool × Nat) : Nat × List Byte × List Byte :=
    let store := if x.2.1 then c.opf else c.names
    let b := nameBytes store x.2.2
    (acc.1 + 1, acc.2.1 ++ leBytes 4 (x.1 + nameCode store x.2.2 * 2 ^ 8 + (0x100 + acc.2.2.length) * 2 ^ 16), acc.2.2 ++ b)
  (trapNames ops).foldl step (0, [], [])

/-- Pads with zeros to a length. -/
def padTo (n : Nat) (b : List Byte) : List Byte := b ++ List.replicate (n - b.length) 0

/-- The course with the latch records and values that can still be read (R72, R73). -/
def Course.liveLatches (c : Course) (gens : List Nat) : Course :=
  { c with latches := c.latches.zipIdx.map fun p => if p.1.readable (nth gens p.2 0) then p.1 else {} }

/-- A thread with the latches of its own that can still be read. -/
def Thread.liveSaved (t : Thread) (gens : List Nat) : Thread :=
  { t with saved := t.saved.filter fun sv => sv.record.readable (nth gens sv.pipe.val 0) }

/-- The 1,024 bytes of a trap record (R361). -/
def trapBytes (i : Issue) (c : Course) (t : Thread) (l : Nat) (r : Req) (tpc : W64) (mask : W32) : List Byte :=
  let hold := t.saved.find? fun sv => sv.hold
  let holdByte := match hold with | some sv => sv.pipe.val + 4 | none => 0
  let latch (k : Nat) : List Byte :=
    let sv := match t.savedFor k with | some sv => sv | none => c.laneLatch k l false
    leBytes 8 (sv.record.word 0) ++ leBytes 8 sv.value.toNat
  let src := trapSources c i.operands
  let head :=
    leBytes 8 i.addr.toNat ++ leBytes 8 tpc.toNat ++ leBytes 4 (r.faultWord false).toNat ++
    leBytes 4 (if r.addr.isSome then mask.toNat else 0) ++ leBytes 8 (r.addr.getD 0).toNat ++ leBytes 4 t.tsw.toNat ++
    leBytes 2 (t.preds.toNat + 2 ^ 15) ++ leBytes 1 holdByte ++ leBytes 1 src.1 ++ leBytes 4 i.word.toNat ++ leBytes 4 i.literal.toNat ++
    leBytes 4 i.guardWord.toNat
  padTo 1024 (padTo 0x100 (padTo 0x80 (padTo 0x40 head ++ latch 0 ++ latch 1 ++ latch 2 ++ latch 3) ++ src.2.1) ++ src.2.2)

/-- The registers a delivered fault sets in its thread (R358). A thread that a fault parks while it waits loses the wait: a RESUME has it execute
its unit again (R365), also one parked by the error of a tile at a save (log 49, DESIGN CHOICE). -/
def Thread.noteFault (t : Thread) (r : Req) (mask : W32) (escalated : Bool) : Thread :=
  { t with
    fault := r.faultWord escalated
    faultaddr := r.addr.getD 0
    faultmask := if r.addr.isSome then mask else 0
    tsw := setLastFault t.tsw r.code
    wait := if r.code == .waitSentinel then t.wait else .none
    waited := false
    struck := false }

/-- The threads a stop halts beside the one that stops (R376). -/
def State.stopSet (s : State) (tk c l mode : Nat) : List ThreadRef :=
  let all (k : Nat) (t : Team) : List ThreadRef :=
    t.courses.flatMap fun q => q.2.threads.map fun p => ⟨k, q.1, p.1⟩
  let mine : List ThreadRef :=
    match FMap.get s.teams tk with
    | none => []
    | some t =>
      match mode with
      | 1 => []
      | 2 => (t.course c).threads.map fun p => ⟨tk, c, p.1⟩
      | 0 => all tk t
      | _ => s.teams.flatMap fun q => if q.2.part == t.part then all q.1 q.2 else []
  mine.filter fun x => !(x == ⟨tk, c, l⟩)

/-- The status of a thread of a suspended course goes to the thread's state in the course image (R372, R376). -/
def State.noteTsw (s : State) (tk c l : Nat) : State :=
  match FMap.get s.teams tk, (FMap.get s.teams tk).bind fun t => s.sliceOf t with
  | some t, some x =>
    match FMap.get (t.course c).threads l with
    | some th =>
      if (t.course c).suspended then s.teamWrite tk (x.courseImage t.index c + 0x100 + 256 * l + 8) (leBytes 4 th.tsw.toNat) else s
    | none => s
  | _, _ => s

/-- Halts the threads of a stop, whose record has a token; in team and device mode their teams freeze (R376). Each one leaves its hold (R367), and a pending
mwait is struck (R294). -/
def State.stopThreads (s : State) (xs : List ThreadRef) (freeze : Bool) (tk token : Nat) : State :=
  let s := xs.foldl (fun s x =>
    ((s.leaveHold x.team x.course x.lane).onThread x.team x.course x.lane fun t =>
      { t with tsw := t.tsw ||| haltBit, haltedBy := if t.halted then t.haltedBy else token, struck := match t.wait with | .mwait _ _ => true | _ => t.struck }).noteTsw x.team x.course x.lane) s
  if freeze then
    let ks := tk :: xs.map fun x => x.team
    { s with teams := s.teams.map fun p => if ks.contains p.1 then (p.1, { p.2 with frozen := true }) else p }
  else s

/-- Parks a thread for a system fault and posts its record (R362, R364). BREAK and STEP also halt it, with the threads its
STOPMODE names (R376). -/
def State.deliverSystem (s : State) (tk : Nat) (r : Req) (mask : W32) (escalated : Bool) (resume : W64) : State :=
  match FMap.get s.teams tk with
  | none => s
  | some t =>
    let s := if r.done then s else s.leaveHold tk r.course r.lane
    let halts := r.code == .brk || r.code == .step
    let th := ((FMap.get t.courses r.course).bind fun c => FMap.get c.threads r.lane).getD { pc := 0 }
    let others := if halts then s.stopSet tk r.course r.lane th.stopMode else []
    let (s, token) := s.record t.part (.thread ⟨tk, r.course, r.lane⟩ r.code.num others)
      { code := r.code, kind := 0, detail := r.detail % 2 ^ 15 + (if escalated then 2 ^ 15 else 0), slice := t.slice, core := t.core,
        course := r.course, lane := r.lane, team := t.index, addr := resume, faultAddr := r.addr.getD 0,
        mask := if r.addr.isSome then mask else 0 }
    let s := s.onThread tk r.course r.lane fun th =>
      let th := th.noteFault r mask escalated
      { th with pc := resume, parked := some ⟨r.code.num, token⟩, tsw := if halts then th.tsw ||| haltBit else th.tsw, haltedBy := if halts then token else th.haltedBy }
    if halts then s.stopThreads others (th.stopMode == 0 || th.stopMode == 3) tk token else s

/-- Takes a program trap: writes the trap record and continues at the handler, or escalates (R359, R360). -/
def State.deliverProgram (s : State) (tk : Nat) (r : Req) (mask : W32) : State :=
  match FMap.get s.teams tk with
  | none => s
  | some t =>
    let resume := if r.done then s.issue.next else s.issue.addr
    match (FMap.get t.courses r.course).bind fun c => (FMap.get c.threads r.lane).map fun th => th.inHandler with
    | none => s
    | some inHandler =>
      if t.trapbase = 0 || inHandler then s.deliverSystem tk r mask true resume
      else
        let s := if r.done then s else s.leaveHold tk r.course r.lane
        match (FMap.get s.teams tk).bind fun t' => (FMap.get t'.courses r.course).bind fun c =>
            (FMap.get c.threads r.lane).map fun th => (c, th), FMap.get s.slices (sliceKey t.part t.slice) with
        | some (c, th), some sl =>
          let gens := (s.core t.core).latchGen
          let bytes := trapBytes s.issue (c.liveLatches gens) (th.liveSaved gens) r.lane r resume mask
          let s := s.teamWrite tk (sl.trapRecord t.index r.course r.lane) bytes
          s.onThread tk r.course r.lane fun th =>
            { th.noteFault r mask false with
              tpc := resume, inHandler := true, saved := [], pc := t.trapbase, sentinel := 0, readySince := s.cycle }
        | _, _ => s

/-- Delivers the faults of a unit, each to its thread, in the order of the lift; the mask of R358 holds the lanes that raised the
same fault. -/
def State.deliver (s : State) (rs : List Req) : State :=
  rs.foldl (fun s r =>
    let mask := maskOf ((rs.filter fun q => q.code == r.code).map fun q => q.lane)
    if r.isProgram then s.deliverProgram s.issue.team r mask
    else s.deliverSystem s.issue.team r mask false (if r.done then s.issue.next else s.issue.addr)) s

/-- One fault in every thread of the lift. -/
def Issue.allRaise (i : Issue) (code : FCode) (detail : Nat) : List Req :=
  i.lift.map fun m => { course := m.1, lane := m.2, code := code, detail := detail }

/-- Members that raise no fault among `rs`. -/
def without (ms : List (Nat × Nat)) (rs : List Req) : List (Nat × Nat) :=
  ms.filter fun m => !rs.any fun r => r.course == m.1 && r.lane == m.2

/-- Returns a thread from its handler (R141, R361): predicates, latches and hold from the trap record as it stands; VALID is
cleared; it continues at sr.tpc. -/
def State.returnFromTrap (s : State) (tk c l : Nat) : State :=
  match (FMap.get s.teams tk), (FMap.get s.teams tk).bind fun t => FMap.get s.slices (sliceKey t.part t.slice) with
  | some t, some sl =>
    let a := sl.trapRecord t.index c l
    match s.teamRead tk a 1024 with
    | (s, none) => s
    | (s, some b) =>
      let preds := BitVec.ofNat 12 (bytesAt b 0x24 2)
      let holdByte := bytesAt b 0x26 1
      let gens := (s.core t.core).latchGen
      let latch (k : Nat) : SavedLatch :=
        let v := BitVec.ofNat 64 (bytesAt b (0x48 + 16 * k) 8)
        let hold := holdByte / 4 % 2 == 1 && holdByte % 4 == k
        { pipe := Fin.ofNat 4 k, record := latchOfWord (bytesAt b (0x40 + 16 * k) 8) v (nth gens k 0) hold, value := v, hold := hold }
      let saved := (List.range 4).map latch
      let s := s.teamWrite tk (a + 0x24) (leBytes 2 (bytesAt b 0x24 2 % 2 ^ 15))
      s.onThread tk c l fun th => { th with preds := preds, saved := saved, inHandler := false, pc := th.tpc, readySince := s.cycle }
  | _, _ => s

end Sys2Proof.Machine
end

