-- ==== Sys2Proof/Machine/Lane.lean ====
section
/-!
DEFINITION. How an instruction that acts only on the registers, predicates and latches of its courses executes: per thread of the
lift (lane set, R33, R60 to R62) or once per course (uniform set, R33, R63), with its last reads, READ_FREE, latch and hold.
-/

namespace Sys2Proof.Machine

/-- What a course brings to the unit being executed. -/
structure CourseIn where
  rd : RdCtx
  /-- Lanes of the course in the lift. -/
  lift : List Nat
  /-- Its participating lanes (R60). -/
  parts : List Nat
  /-- Full-course (R60). -/
  full : Bool
  /-- Every live thread participates (R63). -/
  all : Bool
  /-- The generation a result of this unit leaves in its latch. -/
  gen : Nat

/-- What the unit does to a course: the course after it, and the faults of its threads. -/
structure CourseOut where
  course : Course
  reqs : List Req := []

/-- The course as the unit finds it. -/
abbrev CourseIn.course (i : CourseIn) : Course := i.rd.course

/-- The input of a course. -/
def courseIn (s : State) (t : Team) (pipe : Nat) (c : Nat) : CourseIn :=
  let core := s.core t.core
  let x := t.course c
  { rd := rdCtx core t c, lift := lanesIn s.issue.lift c, parts := lanesIn s.issue.parts c,
    full := fullCourse s.issue c x, all := allParticipate s.issue c x, gen := nth core.latchGen pipe 0 + 1 }

/-- Applies the unit to each course of the lift in ascending course index. -/
def runCourses (s : State) (t : Team) (pipe : Nat) (f : CourseIn → CourseOut) : Team × List Req :=
  (coursesOf s.issue.lift).foldl (fun acc c =>
    let o := f (courseIn s t pipe c)
    (acc.1.setCourse c o.course, acc.2 ++ o.reqs)) (t, [])

/-- Bumps the generation of a pipe's latch: its earlier contents are gone (R72). -/
def Core.useLatch (c : Core) (pipe : Nat) : Core := { c with latchGen := setNth c.latchGen pipe (nth c.latchGen pipe 0 + 1) }

/-- Adds the hold of an instruction with N = 1 (R71). -/
def Core.addHold (c : Core) (h : Hold) : Core := if h.members.isEmpty then c else { c with holds := c.holds ++ [h] }

/-- How a unit uses a latch: it leaves a result in it, with or without write-back, or none. -/
inductive LatchUse where
  | result (pipe : Nat) (sup : Bool)
  | none
deriving DecidableEq, Repr

/-- Ends a unit: the members that raise no fault, guard-false ones among them, retire; then the faults are delivered. -/
def State.finish (s : State) (rs : List Req) : State := (s.retire (without s.issue.lift rs) s.issue.next).deliver rs

/-- Executes a unit that acts on registers, predicates and latches only. A unit in which no participating thread completes leaves the pipe's
latch and the holds as they are (R92, R316). -/
def State.courseUnit (s : State) (u : LatchUse) (f : CourseIn → CourseOut) : Host.Outcome State Fault Refusal :=
  match s.curTeam with
  | none => .next s
  | some t =>
    let pipe := match u with | .result p _ => p | .none => 0
    let (t', rs) := runCourses s t pipe f
    let core := s.core t.core
    let core' :=
      match u with
      | .result p sup =>
        let c := core.useLatch p
        if (without s.issue.parts rs).isEmpty then core else if sup then c.addHold ⟨Fin.ofNat 4 p, s.issue.team, without s.issue.lift rs⟩ else c
      | .none => core
    let s' := s.setTeam s.issue.team t'
    let s' := match u with | .result _ _ => s'.setCore t.core core' | .none => s'
    .next (s'.finish rs)

/-! ## Sources -/

/-- A source with its type. -/
abbrev Operand := Ty × Src

/-- The lanes, of some, whose read of a source is stale (R72). -/
def staleLanes (vs : List View) (ls : List Nat) : List Nat := ls.filter fun l => vs.any fun v => v.stale l

/-- STALE_LATCH for some lanes. -/
def staleReqs (c : Nat) (ls : List Nat) : List Req := ls.map fun l => { course := c, lane := l, code := .staleLatch }

/-- Sets READ_FREE in the lanes that read freed storage (R59, R69). -/
def Course.noteFree (c : Course) (vs : List View) (ls : List Nat) : Course :=
  c.onThreads (ls.filter fun l => vs.any fun v => v.free l) fun _ t => t.setReadFree

/-- Marks the last reads of the sources for some lanes (R57). -/
def Course.markSources (c : Course) (srcs : List Operand) (ls : List Nat) : Course :=
  (srcs.flatMap fun o => lastNames o.1 o.2).foldl (fun c n => c.markDead n (maskOf ls)) c

/-- Frees the sources' names that every live thread has now read for the last time (R58). -/
def Course.reapSources (c : Course) (srcs : List Operand) : Course :=
  (srcs.flatMap fun o => lastNames o.1 o.2).foldl (fun c n => c.reap n) c

/-! ## Lane-set results -/

/-- The classes of R61: which shapes of the sources may give an affine result. -/
inductive ShapeClass where
  /-- Integer add and subtract: any mix of U and A. -/
  | linear
  /-- Multiply by a U factor: one A. -/
  | mul
  /-- Shift left by a U amount. -/
  | shl
  /-- LEA (R176): A where the result is a progression, also of two affine sources, of which no rule speaks (log 56, DESIGN CHOICE). -/
  | lea
  /-- Everything else: U from U alone. -/
  | other
deriving DecidableEq, Repr

/-- Whether a class may give A for these source shapes. -/
def ShapeClass.affine (k : ShapeClass) (sh : List Shape) : Bool :=
  match k with
  | .other => false
  | .linear | .lea => sh.all fun x => x != .g
  | .mul => sh.all (fun x => x != .g) && (sh.filter fun x => x == .a).length == 1
  | .shl => match sh with | .a :: rest => rest.all fun x => x == .u | _ => false

/-- Whether the values are a progression modulo 2^32 or 2^64 over the lanes (R55, R176). -/
def isProgression (wide : Bool) (v : Nat → W64) : Bool :=
  let b := v 0
  let st := v 1 - v 0
  lanes32.all fun l =>
    if wide then v l == b + BitVec.ofNat 64 l * st else lo32 (v l) == lo32 b + BitVec.ofNat 32 l * lo32 st

/-- The tag of a full-course result (R61): U from U, A by the class, G otherwise. -/
def resultShape (k : ShapeClass) (wide : Bool) (sh : List Shape) (v : Nat → W64) : Shape :=
  if sh.all fun x => x == .u then .u
  else if k.affine sh && isProgression wide v then .a
  else .g

/-- An instruction that computes one result from its sources. -/
structure AluSpec where
  /-- Destination of 64 bits. -/
  wide : Bool
  pipe : Nat
  cls : ShapeClass := .other
  /-- Reads its destination as a third source (R168). -/
  third : Bool := false

/-- A lane-set computation on one course. -/
def aluCourse (sp : AluSpec) (d : Dst) (srcs : List Operand) (f : List W64 → W64) (i : CourseIn) : CourseOut :=
  let vs := srcs.map fun o => srcView i.rd o.1 o.2
  let vs' := if sp.third then vs ++ [dstView i.rd sp.wide d] else vs
  let stale := staleLanes vs' i.parts
  let ok := i.parts.filter fun l => !stale.contains l
  let full := i.full && stale.isEmpty
  let val (l : Nat) : W64 := f (vs'.map fun v => v.val l)
  let r : Result := ⟨if full then resultShape sp.cls sp.wide (vs'.map fun v => v.shape) val else .g, val⟩
  let c := i.course.noteFree vs' ok
  let c := c.markSources srcs (i.lift.filter fun l => !stale.contains l)
  let c := if ok.isEmpty then c else (c.writeDst full ok sp.wide d r).setLatch sp.pipe i.gen ok sp.wide d r
  ⟨c.reapSources srcs, staleReqs i.rd.index stale⟩

/-- A lane-set instruction that computes one result. -/
def State.alu (s : State) (sp : AluSpec) (d : Dst) (srcs : List Operand) (f : List W64 → W64) : Host.Outcome State Fault Refusal :=
  s.courseUnit (.result sp.pipe (d == .sup)) (aluCourse sp d srcs f)

/-- A lane-set computation whose result is a predicate, on one course (R86): no latch result. -/
def predCourse (pipe p : Nat) (srcs : List Operand) (f : Thread → List W64 → Bool) (i : CourseIn) : CourseOut :=
  let vs := srcs.map fun o => srcView i.rd o.1 o.2
  let stale := staleLanes vs i.parts
  let ok := i.parts.filter fun l => !stale.contains l
  let c := i.course.noteFree vs ok
  let c := c.markSources srcs (i.lift.filter fun l => !stale.contains l)
  let c := c.onThreads ok fun l t => t.setPred p (f t (vs.map fun v => v.val l))
  ⟨(c.dropLatch pipe ok).reapSources srcs, staleReqs i.rd.index stale⟩

/-- A lane-set instruction that writes a predicate. -/
def State.aluPred (s : State) (pipe p : Nat) (srcs : List Operand) (f : Thread → List W64 → Bool) : Host.Outcome State Fault Refusal :=
  s.courseUnit .none (predCourse pipe p srcs f)

/-! ## Uniform-set results (R63) -/

/-- The thread whose values a uniform-set instruction takes: the lowest-numbered participating one. -/
def CourseIn.lead (i : CourseIn) : Nat := i.parts.headD 0

/-- Writes a value under R63: U when every live thread participates, per thread otherwise. -/
def Course.writeUniform (c : Course) (i : CourseIn) (wide : Bool) (d : Dst) (v : W64) : Course :=
  c.writeDst i.all i.parts wide d ⟨if i.all then .u else .g, fun _ => v⟩

/-- A uniform-set computation on one course. -/
def uniCourse (sp : AluSpec) (d : Dst) (srcs : List Operand) (f : List W64 → W64) (i : CourseIn) : CourseOut :=
  let vs := srcs.map fun o => srcView i.rd o.1 o.2
  let vs' := if sp.third then vs ++ [dstView i.rd sp.wide d] else vs
  if i.parts.isEmpty then ⟨(i.course.markSources srcs i.lift).reapSources srcs, []⟩
  else if vs'.any fun v => v.stale i.lead then
    let idle := i.lift.filter fun l => !i.parts.contains l
    ⟨(i.course.markSources srcs idle).reapSources srcs, staleReqs i.rd.index i.parts⟩
  else
    let v := f (vs'.map fun v => v.val i.lead)
    let c := (i.course.noteFree vs' [i.lead]).markSources srcs i.lift
    let c := (c.writeUniform i sp.wide d v).setLatch sp.pipe i.gen i.parts sp.wide d ⟨if i.all then .u else .g, fun _ => v⟩
    ⟨c.reapSources srcs, []⟩

/-- A uniform-set instruction that computes one result. -/
def State.uni (s : State) (sp : AluSpec) (d : Dst) (srcs : List Operand) (f : List W64 → W64) : Host.Outcome State Fault Refusal :=
  s.courseUnit (.result sp.pipe (d == .sup)) (uniCourse sp d srcs f)

/-- A uniform-set computation whose result is a predicate of every participating thread. -/
def uniPredCourse (p : Nat) (srcs : List Operand) (f : List W64 → Bool) (i : CourseIn) : CourseOut :=
  let vs := srcs.map fun o => srcView i.rd o.1 o.2
  if i.parts.isEmpty then ⟨(i.course.markSources srcs i.lift).reapSources srcs, []⟩
  else if vs.any fun v => v.stale i.lead then
    let idle := i.lift.filter fun l => !i.parts.contains l
    ⟨(i.course.markSources srcs idle).reapSources srcs, staleReqs i.rd.index i.parts⟩
  else
    let v := f (vs.map fun v => v.val i.lead)
    let c := (i.course.noteFree vs [i.lead]).markSources srcs i.lift
    let c := (c.onThreads i.parts fun _ t => t.setPred p v).dropLatch 2 i.parts
    ⟨c.reapSources srcs, []⟩

/-- A uniform-set instruction that writes a predicate. -/
def State.uniPred (s : State) (p : Nat) (srcs : List Operand) (f : List W64 → Bool) : Host.Outcome State Fault Refusal :=
  s.courseUnit .none (uniPredCourse p srcs f)

/-- The values a uniform-set instruction reads for a course, with its faults, last reads and READ_FREE done. -/
structure UniRead where
  course : Course
  vals : List W64
  reqs : List Req

/-- Reads the sources of a uniform-set instruction for a course with a participating thread (R63); b2 is left without a valid
record for its threads (R392). -/
def uniRead (i : CourseIn) (srcs : List Operand) : UniRead :=
  let vs := srcs.map fun o => srcView i.rd o.1 o.2
  if vs.any fun v => v.stale i.lead then
    let idle := i.lift.filter fun l => !i.parts.contains l
    ⟨(i.course.markSources srcs idle).reapSources srcs, [], staleReqs i.rd.index i.parts⟩
  else
    let c := ((i.course.noteFree vs [i.lead]).markSources srcs i.lift).dropLatch 2 i.parts
    ⟨c.reapSources srcs, vs.map fun v => v.val i.lead, []⟩

/-- The only last reads of a course of which no thread participates. -/
def idleCourse (i : CourseIn) (srcs : List Operand) : CourseOut := ⟨(i.course.markSources srcs i.lift).reapSources srcs, []⟩

end Sys2Proof.Machine
end

