-- ==== Sys2Proof/Machine/Functions.lean ====
section
/-!
DEFINITION. The functions of the lane and uniform arithmetic (07, 08, R95, R193): one record per mnemonic, used by the lane
instruction (Arith.lean) and by its uniform twin (Uniform.lean).
-/

namespace Sys2Proof.Machine

/-! ## Integers -/

/-- A 32-bit result. -/
abbrev res32 (v : W32) : W64 := zx64 v
/-- A 32-bit result given as a number. -/
abbrev nat32 (n : Nat) : W64 := zx64 (BitVec.ofNat 32 n)
/-- A 64-bit result given as a number. -/
abbrev nat64 (n : Nat) : W64 := BitVec.ofNat 64 n

/-- A function of one operand, of two, and of two and the old destination. -/
def fn1 (f : W64 → W64) : List W64 → W64
  | [a] => f a
  | _ => 0
def fn2 (f : W64 → W64 → W64) : List W64 → W64
  | [a, b] => f a b
  | _ => 0
def fn3 (f : W64 → W64 → W64 → W64) : List W64 → W64
  | [a, b, c] => f a b c
  | _ => 0
/-- 32-bit functions. -/
def fn2w (f : W32 → W32 → W32) : List W64 → W64 := fn2 fun a b => res32 (f (lo32 a) (lo32 b))
def fn1w (f : W32 → W32) : List W64 → W64 := fn1 fun a => res32 (f (lo32 a))

/-- Division with the edge cases of R148: quotient all ones and remainder the dividend for a divisor 0. -/
def divI (a b : W32) : W32 := if b = 0 then 0xFFFFFFFF else a.sdiv b
def divN (a b : W32) : W32 := if b = 0 then 0xFFFFFFFF else a / b
def remI (a b : W32) : W32 := if b = 0 then a else a.srem b
def remN (a b : W32) : W32 := if b = 0 then a else a % b

/-- Shifts (R173): amounts of the width or more give 0, or the sign. -/
def shl32 (a b : W32) : W32 := if b.toNat < 32 then a <<< b.toNat else 0
def shrN32 (a b : W32) : W32 := if b.toNat < 32 then a >>> b.toNat else 0
def shrI32 (a b : W32) : W32 := a.sshiftRight (min b.toNat 31)
def shl64 (a b : W64) : W64 := let k := (lo32 b).toNat; if k < 64 then a <<< k else 0
def shrN64 (a b : W64) : W64 := let k := (lo32 b).toNat; if k < 64 then a >>> k else 0
def shrI64 (a b : W64) : W64 := a.sshiftRight (min (lo32 b).toNat 63)

/-- Position and length of a bit field (R174). -/
def fieldPos (b : W32) : Nat := b.toNat % 32
def fieldLen (b : W32) : Nat := min (fld b.toNat 8 6) (32 - fieldPos b)
/-- bfx (R174). -/
def bfx32 (a b : W32) : W32 := BitVec.ofNat 32 (a.toNat / 2 ^ fieldPos b % 2 ^ fieldLen b)
/-- bfi (R174). -/
def bfi32 (a b old : W32) : W32 :=
  let mask : W32 := BitVec.ofNat 32 ((2 ^ fieldLen b - 1) * 2 ^ fieldPos b)
  (old &&& ~~~mask) ||| ((a <<< fieldPos b) &&& mask)

/-- The bit functions on numbers of `w` bits (R175). -/
def popcN (w x : Nat) : Nat := (List.range w).countP fun i => x.testBit i
def clzN (w x : Nat) : Nat := if x = 0 then w else w - 1 - Nat.log2 x
def ctzN (w x : Nat) : Nat := ((List.range w).find? fun i => x.testBit i).getD w
def brevN (w x : Nat) : Nat := (List.range w).foldl (fun acc i => 2 * acc + (x.testBit i).toNat) 0
def bswapN (n x : Nat) : Nat := leNat (leBytes n x).reverse

/-- bit and sbit (R175). -/
def bitFn (k : BitOp) (a : W64) : W64 :=
  let x := (lo32 a).toNat
  let y := a.toNat
  match k with
  | .notB32 => res32 (~~~(lo32 a))
  | .popcB32 => nat32 (popcN 32 x)
  | .clzB32 => nat32 (clzN 32 x)
  | .ctzB32 => nat32 (ctzN 32 x)
  | .brevB32 => nat32 (brevN 32 x)
  | .bswapB32 => nat32 (bswapN 4 x)
  | .sextI8 => res32 ((BitVec.ofNat 8 x).signExtend 32)
  | .sextI16 => res32 ((BitVec.ofNat 16 x).signExtend 32)
  | .notB64 => ~~~a
  | .popcB64 => nat32 (popcN 64 y)
  | .clzB64 => nat32 (clzN 64 y)
  | .ctzB64 => nat32 (ctzN 64 y)
  | .brevB64 => nat64 (brevN 64 y)
  | .bswapB64 => nat64 (bswapN 8 y)
  | .sextI32 => sx64 (lo32 a)
  | .zextN32 => zx64 (lo32 a)

/-! ## Floating point -/

/-- A function of two operands in a format. -/
def fp2 (f : Fmt) (g : Fmt → Nat → Nat → Nat) : List W64 → W64 :=
  fn2 fun a b => nat64 (g f (a.toNat % (2 * f.signBit)) (b.toNat % (2 * f.signBit)))
/-- A function of two operands and the old destination. -/
def fp3 (f : Fmt) (g : Fmt → Nat → Nat → Nat → Nat) : List W64 → W64 :=
  fn3 fun a b c => nat64 (g f (a.toNat % (2 * f.signBit)) (b.toNat % (2 * f.signBit)) (c.toNat % (2 * f.signBit)))
/-- A function of one operand. -/
def fp1 (f : Fmt) (g : Fmt → Nat → Nat) : List W64 → W64 := fn1 fun a => nat64 (g f (a.toNat % (2 * f.signBit)))

/-- Element `i` of a value of elements of `w` bits. -/
def elem (w i : Nat) (v : W64) : Nat := v.toNat / 2 ^ (w * i) % 2 ^ w
/-- Two elements packed (R163, R181). -/
def packed (w lo hi : Nat) : W64 := nat64 (hi * 2 ^ w + lo)
/-- Two-element functions: 16-bit halves of one name, or the FP32 elements of a pair. -/
def pk2 (f : Fmt) (g : Fmt → Nat → Nat → Nat) : List W64 → W64 :=
  let w := f.ebits + f.mant + 1
  fn2 fun a b => packed w (g f (elem w 0 a) (elem w 0 b)) (g f (elem w 1 a) (elem w 1 b))
def pk3 (f : Fmt) (g : Fmt → Nat → Nat → Nat → Nat) : List W64 → W64 :=
  let w := f.ebits + f.mant + 1
  fn3 fun a b c => packed w (g f (elem w 0 a) (elem w 0 b) (elem w 0 c)) (g f (elem w 1 a) (elem w 1 b) (elem w 1 c))

/-- The sign inverted, or cleared; every other bit passes (R154, R182). -/
def fnegN (f : Fmt) (x : Nat) : Nat := if x / f.signBit % 2 = 1 then x - f.signBit else x + f.signBit
def fabsN (f : Fmt) (x : Nat) : Nat := x % f.signBit

/-! ## Conversions (R185 to R187) -/

/-- The rounding mode a selector names. -/
def rmodeOf : Round → RMode
  | .rne => .rne
  | .rtz => .rtz
  | .rup => .rup
  | .rdn => .rdn

/-- An integer source's value. -/
def cvtInt (s : CvtSrc) (v : W64) : Option Int :=
  match s with
  | .i32 => some (lo32 v).toInt
  | .n32 => some ((lo32 v).toNat : Int)
  | .i64 => some v.toInt
  | .n64 => some (v.toNat : Int)
  | .f64 | .f32 | .f16 | .bf16 | .e4m3 | .e5m2 | .f32x2 | .f16x2 | .bf16x2 => none

/-- The source elements' values. -/
def cvtElems (s : CvtSrc) (v : W64) : List FVal :=
  match s with
  | .f64 => [Fmt.f64.val v.toNat]
  | .f32 => [Fmt.f32.val (elem 32 0 v)]
  | .f16 => [Fmt.f16.val (elem 16 0 v)]
  | .bf16 => [Fmt.bf16.val (elem 16 0 v)]
  | .e4m3 => [Fmt.e4m3.val (elem 8 0 v)]
  | .e5m2 => [Fmt.e5m2.val (elem 8 0 v)]
  | .i32 => [.ofInt (lo32 v).toInt]
  | .n32 => [.ofInt ((lo32 v).toNat : Int)]
  | .i64 => [.ofInt v.toInt]
  | .n64 => [.ofInt (v.toNat : Int)]
  | .f32x2 => [Fmt.f32.val (elem 32 0 v), Fmt.f32.val (elem 32 1 v)]
  | .f16x2 => [Fmt.f16.val (elem 16 0 v), Fmt.f16.val (elem 16 1 v)]
  | .bf16x2 => [Fmt.bf16.val (elem 16 0 v), Fmt.bf16.val (elem 16 1 v)]

/-- A conversion to floating point; `same` for a source of the destination's own format, which rounds to an integral value. -/
def cvtToFp (f : Fmt) (same : Bool) (s : CvtSrc) (rm : Round) (sat : Bool) (v : W64) : W64 :=
  let w := f.ebits + f.mant + 1
  if same then nat64 (f.integral (rmodeOf rm) (elem w 0 v))
  else
    match (cvtElems s v).map (f.round (rmodeOf rm) sat) with
    | [x] => nat64 x
    | [x, y] => packed w x y
    | _ => 0

/-- A conversion to an integer type of `w` bits. -/
def cvtToInt (signed : Bool) (w : Nat) (s : CvtSrc) (rm : Round) (sat : Bool) (v : W64) : W64 :=
  let (lo, hi) := intRange signed w
  let x : Int :=
    match cvtInt s v with
    | some i => if sat then clampInt lo hi i else i
    | none => ((cvtElems s v).headD .nan).toInt (rmodeOf rm) lo hi
  if w = 32 then res32 (BitVec.ofInt 32 x) else BitVec.ofInt 64 x

/-! ## RAND (R190) -/

/-- The mixing function. -/
def mix (z : W64) : W64 :=
  let z := (z ^^^ (z >>> 30)) * 0xBF58476D1CE4E5B9
  let z := (z ^^^ (z >>> 27)) * 0x94D049BB133111EB
  z ^^^ (z >>> 31)

/-- The draw of a thread: seed, team index, fork key, counter. -/
def drawOf (seed : W64) (team : Nat) (root : W32) (ords : List (BitVec 16)) (draws : W64) : W32 :=
  let h := mix (seed ^^^ nat64 (team * 2 ^ 32) ^^^ zx64 root)
  let h := (ords.zipIdx 1).foldl (fun (h : W64) (p : BitVec 16 × Nat) => mix (h ^^^ nat64 (p.2 * 2 ^ 16) ^^^ p.1.setWidth 64)) h
  hi32 (mix (h + draws * 0x9E3779B97F4A7C15))

/-! ## The functions by mnemonic -/

/-- What a mnemonic computes: operand types, the width of its result, its pipe and shape class on the lane path (R61, R169),
whether it reads its destination (R168), and its value. -/
structure Fn where
  tys : List Ty
  wide : Bool := false
  pipe : Nat := 0
  cls : ShapeClass := .other
  third : Bool := false
  f : List W64 → W64

/-- A lane instruction that computes a function. -/
def State.laneFn (s : State) (fn : Fn) (d : Dst) (srcs : List Src) : Host.Outcome State Fault Refusal :=
  s.alu ⟨fn.wide, fn.pipe, fn.cls, fn.third⟩ d (fn.tys.zip srcs) fn.f

/-- Its uniform twin (R95, R193). -/
def State.uniFn (s : State) (fn : Fn) (d : Dst) (srcs : List Src) : Host.Outcome State Fault Refusal :=
  s.uni ⟨fn.wide, 2, .other, fn.third⟩ d (fn.tys.zip srcs) fn.f

/-- R171. -/
def fnAddB32 : Fn := { tys := [.b32, .b32], cls := .linear, f := fn2w fun a b => a + b }
/-- R171. -/
def fnAddB64 : Fn := { tys := [.b64, .b64], wide := true, cls := .linear, f := fn2 fun a b => a + b }
/-- R171. -/
def fnSubB32 : Fn := { tys := [.b32, .b32], cls := .linear, f := fn2w fun a b => a - b }
/-- R171. -/
def fnSubB64 : Fn := { tys := [.b64, .b64], wide := true, cls := .linear, f := fn2 fun a b => a - b }
/-- R171. -/
def fnAddiB32 (imm : BitVec 9) : Fn := { tys := [.b32], cls := .linear, f := fn1w fun a => a + imm.signExtend 32 }
/-- R171. -/
def fnAddiB64 (imm : BitVec 9) : Fn := { tys := [.b64], wide := true, cls := .linear, f := fn1 fun a => a + imm.signExtend 64 }
/-- R171. -/
def fnMulB32 : Fn := { tys := [.b32, .b32], cls := .mul, f := fn2w fun a b => a * b }
/-- R171. -/
def fnMulB64 : Fn := { tys := [.b64, .b64], wide := true, cls := .mul, f := fn2 fun a b => a * b }
/-- R171. -/
def fnMulhiI32 : Fn := { tys := [.b32, .b32], f := fn2 fun a b => res32 (hi32 (sx64 (lo32 a) * sx64 (lo32 b))) }
/-- R171. -/
def fnMulhiN32 : Fn := { tys := [.b32, .b32], f := fn2 fun a b => res32 (hi32 (zx64 (lo32 a) * zx64 (lo32 b))) }
/-- R171. -/
def fnMulwI32 : Fn := { tys := [.b32, .b32], wide := true, f := fn2 fun a b => sx64 (lo32 a) * sx64 (lo32 b) }
/-- R171. -/
def fnMulwN32 : Fn := { tys := [.b32, .b32], wide := true, f := fn2 fun a b => zx64 (lo32 a) * zx64 (lo32 b) }
/-- R172. -/
def fnDivI32 : Fn := { tys := [.b32, .b32], pipe := 1, f := fn2w divI }
/-- R172. -/
def fnDivN32 : Fn := { tys := [.b32, .b32], pipe := 1, f := fn2w divN }
/-- R172. -/
def fnRemI32 : Fn := { tys := [.b32, .b32], pipe := 1, f := fn2w remI }
/-- R172. -/
def fnRemN32 : Fn := { tys := [.b32, .b32], pipe := 1, f := fn2w remN }
/-- R173. -/
def fnAndB32 : Fn := { tys := [.b32, .b32], f := fn2w fun a b => a &&& b }
/-- R173. -/
def fnOrB32 : Fn := { tys := [.b32, .b32], f := fn2w fun a b => a ||| b }
/-- R173. -/
def fnXorB32 : Fn := { tys := [.b32, .b32], f := fn2w fun a b => a ^^^ b }
/-- R174. -/
def fnBfiB32 : Fn := { tys := [.b32, .b32], third := true, f := fn3 fun a b c => res32 (bfi32 (lo32 a) (lo32 b) (lo32 c)) }
/-- R173. -/
def fnAndB64 : Fn := { tys := [.b64, .b64], wide := true, f := fn2 fun a b => a &&& b }
/-- R173. -/
def fnOrB64 : Fn := { tys := [.b64, .b64], wide := true, f := fn2 fun a b => a ||| b }
/-- R173. -/
def fnXorB64 : Fn := { tys := [.b64, .b64], wide := true, f := fn2 fun a b => a ^^^ b }
/-- R176. A literal as A is zero-extended, as .b64 (log 46, DESIGN CHOICE). -/
def fnLea : Fn := { tys := [.b64, .b32], wide := true, cls := .lea, f := fn2 fun a b => a + sx64 (lo32 b) }
/-- R173. -/
def fnShlB32 : Fn := { tys := [.b32, .b32], cls := .shl, f := fn2w shl32 }
/-- R173. -/
def fnShrN32 : Fn := { tys := [.b32, .b32], f := fn2w shrN32 }
/-- R173. -/
def fnShrI32 : Fn := { tys := [.b32, .b32], f := fn2w shrI32 }
/-- R173. -/
def fnShlB64 : Fn := { tys := [.b64, .b32], wide := true, cls := .shl, f := fn2 shl64 }
/-- R173. -/
def fnShrN64 : Fn := { tys := [.b64, .b32], wide := true, f := fn2 shrN64 }
/-- R173. -/
def fnShrI64 : Fn := { tys := [.i64, .b32], wide := true, f := fn2 shrI64 }
/-- R174. -/
def fnBfxB32 : Fn := { tys := [.b32, .b32], f := fn2w bfx32 }
/-- R178. -/
def fnMinN32 : Fn := { tys := [.b32, .b32], f := fn2w fun a b => if a.toNat ≤ b.toNat then a else b }
/-- R178. -/
def fnMaxN32 : Fn := { tys := [.b32, .b32], f := fn2w fun a b => if b.toNat ≤ a.toNat then a else b }
/-- R178. -/
def fnMinI32 : Fn := { tys := [.b32, .b32], f := fn2w fun a b => if a.toInt ≤ b.toInt then a else b }
/-- R178. -/
def fnMaxI32 : Fn := { tys := [.b32, .b32], f := fn2w fun a b => if b.toInt ≤ a.toInt then a else b }
/-- R179. -/
def fnFaddF32 : Fn := { tys := [.f32, .f32], f := fp2 .f32 fun f => f.add .rne }
/-- R179. -/
def fnFsubF32 : Fn := { tys := [.f32, .f32], f := fp2 .f32 fun f => f.sub .rne }
/-- R179. -/
def fnFmulF32 : Fn := { tys := [.f32, .f32], f := fp2 .f32 fun f => f.mul .rne }
/-- R179. -/
def fnFfmaF32 : Fn := { tys := [.f32, .f32], third := true, f := fp3 .f32 fun f => f.fma .rne }
/-- R179. -/
def fnFaddF64 : Fn := { tys := [.f64, .f64], wide := true, pipe := 1, f := fp2 .f64 fun f => f.add .rne }
/-- R179. -/
def fnFsubF64 : Fn := { tys := [.f64, .f64], wide := true, pipe := 1, f := fp2 .f64 fun f => f.sub .rne }
/-- R179. -/
def fnFmulF64 : Fn := { tys := [.f64, .f64], wide := true, pipe := 1, f := fp2 .f64 fun f => f.mul .rne }
/-- R179. -/
def fnFfmaF64 : Fn := { tys := [.f64, .f64], wide := true, pipe := 1, third := true, f := fp3 .f64 fun f => f.fma .rne }
/-- R179. -/
def fnFaddRzF32 : Fn := { tys := [.f32, .f32], f := fp2 .f32 fun f => f.add .rtz }
/-- R179. -/
def fnFaddRuF32 : Fn := { tys := [.f32, .f32], f := fp2 .f32 fun f => f.add .rup }
/-- R179. -/
def fnFaddRdF32 : Fn := { tys := [.f32, .f32], f := fp2 .f32 fun f => f.add .rdn }
/-- R179. -/
def fnFmulRzF32 : Fn := { tys := [.f32, .f32], f := fp2 .f32 fun f => f.mul .rtz }
/-- R179. -/
def fnFfmaRzF32 : Fn := { tys := [.f32, .f32], third := true, f := fp3 .f32 fun f => f.fma .rtz }
/-- R179. -/
def fnFfmaRuF32 : Fn := { tys := [.f32, .f32], third := true, f := fp3 .f32 fun f => f.fma .rup }
/-- R179. -/
def fnFfmaRdF32 : Fn := { tys := [.f32, .f32], third := true, f := fp3 .f32 fun f => f.fma .rdn }
/-- R180. -/
def fnFfmaSatF32 : Fn := { tys := [.f32, .f32], third := true, f := fp3 .f32 fun f a b c => clampUnit (f.fma .rne a b c) }
/-- R163. -/
def fnFaddF16x2 : Fn := { tys := [.f16x2, .f16x2], f := pk2 .f16 fun f => f.add .rne }
/-- R163. -/
def fnFsubF16x2 : Fn := { tys := [.f16x2, .f16x2], f := pk2 .f16 fun f => f.sub .rne }
/-- R163. -/
def fnFmulF16x2 : Fn := { tys := [.f16x2, .f16x2], f := pk2 .f16 fun f => f.mul .rne }
/-- R163. -/
def fnFfmaF16x2 : Fn := { tys := [.f16x2, .f16x2], third := true, f := pk3 .f16 fun f => f.fma .rne }
/-- R163. -/
def fnFaddBf16x2 : Fn := { tys := [.bf16x2, .bf16x2], f := pk2 .bf16 fun f => f.add .rne }
/-- R163. -/
def fnFsubBf16x2 : Fn := { tys := [.bf16x2, .bf16x2], f := pk2 .bf16 fun f => f.sub .rne }
/-- R163. -/
def fnFmulBf16x2 : Fn := { tys := [.bf16x2, .bf16x2], f := pk2 .bf16 fun f => f.mul .rne }
/-- R163. -/
def fnFfmaBf16x2 : Fn := { tys := [.bf16x2, .bf16x2], third := true, f := pk3 .bf16 fun f => f.fma .rne }
/-- R182. -/
def fnFnegF32 : Fn := { tys := [.f32], f := fp1 .f32 fnegN }
/-- R182. -/
def fnFabsF32 : Fn := { tys := [.f32], f := fp1 .f32 fabsN }
/-- R182. -/
def fnFminF32 : Fn := { tys := [.f32, .f32], f := fp2 .f32 fun f => f.pick false false }
/-- R182. -/
def fnFmaxF32 : Fn := { tys := [.f32, .f32], f := fp2 .f32 fun f => f.pick true false }
/-- R182. -/
def fnFminnF32 : Fn := { tys := [.f32, .f32], f := fp2 .f32 fun f => f.pick false true }
/-- R182. -/
def fnFmaxnF32 : Fn := { tys := [.f32, .f32], f := fp2 .f32 fun f => f.pick true true }
/-- R188. -/
def fnRcpF32 : Fn := { tys := [.f32], pipe := 1, f := fp1 .f32 fun f => f.sfu .rcp }
/-- R188. -/
def fnRsqF32 : Fn := { tys := [.f32], pipe := 1, f := fp1 .f32 fun f => f.sfu .rsq }
/-- R188. -/
def fnSqrtF32 : Fn := { tys := [.f32], pipe := 1, f := fp1 .f32 fun f => f.sfu .sqrt }
/-- R188. -/
def fnExp2F32 : Fn := { tys := [.f32], pipe := 1, f := fp1 .f32 fun f => f.sfu .exp2 }
/-- R188. -/
def fnLog2F32 : Fn := { tys := [.f32], pipe := 1, f := fp1 .f32 fun f => f.sfu .log2 }
/-- R188. -/
def fnSinpiF32 : Fn := { tys := [.f32], pipe := 1, f := fp1 .f32 fun f => f.sfu .sinpi }
/-- R188. -/
def fnCospiF32 : Fn := { tys := [.f32], pipe := 1, f := fp1 .f32 fun f => f.sfu .cospi }
/-- R188. -/
def fnTanhF32 : Fn := { tys := [.f32], pipe := 1, f := fp1 .f32 fun f => f.sfu .tanh }
/-- R189. -/
def fnDivF32 : Fn := { tys := [.f32, .f32], pipe := 1, f := fp2 .f32 Fmt.div }
/-- R182. -/
def fnFnegF64 : Fn := { tys := [.f64], wide := true, pipe := 1, f := fp1 .f64 fnegN }
/-- R182. -/
def fnFabsF64 : Fn := { tys := [.f64], wide := true, pipe := 1, f := fp1 .f64 fabsN }
/-- R182. -/
def fnFminF64 : Fn := { tys := [.f64, .f64], wide := true, pipe := 1, f := fp2 .f64 fun f => f.pick false false }
/-- R182. -/
def fnFmaxF64 : Fn := { tys := [.f64, .f64], wide := true, pipe := 1, f := fp2 .f64 fun f => f.pick true false }
/-- R182. -/
def fnFminnF64 : Fn := { tys := [.f64, .f64], wide := true, pipe := 1, f := fp2 .f64 fun f => f.pick false true }
/-- R182. -/
def fnFmaxnF64 : Fn := { tys := [.f64, .f64], wide := true, pipe := 1, f := fp2 .f64 fun f => f.pick true true }
/-- R188. -/
def fnRcpF64 : Fn := { tys := [.f64], wide := true, pipe := 1, f := fp1 .f64 fun f => f.sfu .rcp }
/-- R188. -/
def fnRsqF64 : Fn := { tys := [.f64], wide := true, pipe := 1, f := fp1 .f64 fun f => f.sfu .rsq }
/-- R188. -/
def fnSqrtF64 : Fn := { tys := [.f64], wide := true, pipe := 1, f := fp1 .f64 fun f => f.sfu .sqrt }
/-- R188. -/
def fnExp2F64 : Fn := { tys := [.f64], wide := true, pipe := 1, f := fp1 .f64 fun f => f.sfu .exp2 }
/-- R188. -/
def fnLog2F64 : Fn := { tys := [.f64], wide := true, pipe := 1, f := fp1 .f64 fun f => f.sfu .log2 }
/-- R188. -/
def fnSinpiF64 : Fn := { tys := [.f64], wide := true, pipe := 1, f := fp1 .f64 fun f => f.sfu .sinpi }
/-- R188. -/
def fnCospiF64 : Fn := { tys := [.f64], wide := true, pipe := 1, f := fp1 .f64 fun f => f.sfu .cospi }
/-- R188. -/
def fnTanhF64 : Fn := { tys := [.f64], wide := true, pipe := 1, f := fp1 .f64 fun f => f.sfu .tanh }
/-- R189. -/
def fnDivF64 : Fn := { tys := [.f64, .f64], wide := true, pipe := 1, f := fp2 .f64 Fmt.div }
/-- R187. -/
def fnCvtF32 (s : CvtSrc) (rm : Round) (sat : Bool) : Fn :=
  { tys := [s.ty], pipe := 1, f := fn1 (cvtToFp .f32 (s == .f32) s rm sat) }
/-- R187. -/
def fnCvtF64 (s : CvtSrc) (rm : Round) (sat : Bool) : Fn :=
  { tys := [s.ty], wide := true, pipe := 1, f := fn1 (cvtToFp .f64 (s == .f64) s rm sat) }
/-- R187. -/
def fnCvtH16 (s : CvtSrc) (rm : Round) (sat : Bool) (x : Bool) : Fn :=
  { tys := [s.ty], pipe := 1, f := fn1 (cvtToFp (if x then .bf16 else .f16) false s rm sat) }
/-- R187. -/
def fnCvtF8 (s : CvtSrc) (rm : Round) (sat : Bool) (x : Bool) : Fn :=
  { tys := [s.ty], pipe := 1, f := fn1 (cvtToFp (if x then .e5m2 else .e4m3) false s rm sat) }
/-- R187. -/
def fnCvtI32 (s : CvtSrc) (rm : Round) (sat : Bool) : Fn := { tys := [s.ty], pipe := 1, f := fn1 (cvtToInt true 32 s rm sat) }
/-- R187. -/
def fnCvtN32 (s : CvtSrc) (rm : Round) (sat : Bool) : Fn := { tys := [s.ty], pipe := 1, f := fn1 (cvtToInt false 32 s rm sat) }
/-- R187. -/
def fnCvtI64 (s : CvtSrc) (rm : Round) (sat : Bool) : Fn :=
  { tys := [s.ty], wide := true, pipe := 1, f := fn1 (cvtToInt true 64 s rm sat) }
/-- R187. -/
def fnCvtN64 (s : CvtSrc) (rm : Round) (sat : Bool) : Fn :=
  { tys := [s.ty], wide := true, pipe := 1, f := fn1 (cvtToInt false 64 s rm sat) }
/-- R181. -/
def fnFfmaF32x2 : Fn := { tys := [.f32x2, .f32x2], wide := true, third := true, f := pk3 .f32 fun f => f.fma .rne }
/-- R175. -/
def fnBit (k : BitOp) : Fn := { tys := [k.ty], wide := k.wide, f := fn1 (bitFn k) }

end Sys2Proof.Machine
end

