-- ==== Sys2Proof/Machine/Arith.lean ====
section
/-!
DEFINITION. The lane arithmetic instructions (08_lane_arithmetic.md): each applies its function to every participating thread of
the lift (R167), with the shape of R61 and the latch of R169.
-/

namespace Sys2Proof.Machine

/-- R171. -/
def execAddB32 (d : Dst) (a b : Src) (st : State) : Host.Outcome State Fault Refusal :=
  st.laneFn fnAddB32 d [a, b]
/-- R171. -/
def execAddB64 (d : Dst) (a b : Src) (st : State) : Host.Outcome State Fault Refusal :=
  st.laneFn fnAddB64 d [a, b]
/-- R171. -/
def execSubB32 (d : Dst) (a b : Src) (st : State) : Host.Outcome State Fault Refusal :=
  st.laneFn fnSubB32 d [a, b]
/-- R171. -/
def execSubB64 (d : Dst) (a b : Src) (st : State) : Host.Outcome State Fault Refusal :=
  st.laneFn fnSubB64 d [a, b]
/-- R171. -/
def execAddiB32 (d : Dst) (a : Src) (imm : BitVec 9) (st : State) : Host.Outcome State Fault Refusal :=
  st.laneFn (fnAddiB32 imm) d [a]
/-- R171. -/
def execAddiB64 (d : Dst) (a : Src) (imm : BitVec 9) (st : State) : Host.Outcome State Fault Refusal :=
  st.laneFn (fnAddiB64 imm) d [a]
/-- R171. -/
def execMulB32 (d : Dst) (a b : Src) (st : State) : Host.Outcome State Fault Refusal :=
  st.laneFn fnMulB32 d [a, b]
/-- R171. -/
def execMulB64 (d : Dst) (a b : Src) (st : State) : Host.Outcome State Fault Refusal :=
  st.laneFn fnMulB64 d [a, b]
/-- R171. -/
def execMulhiI32 (d : Dst) (a b : Src) (st : State) : Host.Outcome State Fault Refusal :=
  st.laneFn fnMulhiI32 d [a, b]
/-- R171. -/
def execMulhiN32 (d : Dst) (a b : Src) (st : State) : Host.Outcome State Fault Refusal :=
  st.laneFn fnMulhiN32 d [a, b]
/-- R171. -/
def execMulwI32 (d : Dst) (a b : Src) (st : State) : Host.Outcome State Fault Refusal :=
  st.laneFn fnMulwI32 d [a, b]
/-- R171. -/
def execMulwN32 (d : Dst) (a b : Src) (st : State) : Host.Outcome State Fault Refusal :=
  st.laneFn fnMulwN32 d [a, b]
/-- R172. -/
def execDivI32 (d : Dst) (a b : Src) (st : State) : Host.Outcome State Fault Refusal :=
  st.laneFn fnDivI32 d [a, b]
/-- R172. -/
def execDivN32 (d : Dst) (a b : Src) (st : State) : Host.Outcome State Fault Refusal :=
  st.laneFn fnDivN32 d [a, b]
/-- R172. -/
def execRemI32 (d : Dst) (a b : Src) (st : State) : Host.Outcome State Fault Refusal :=
  st.laneFn fnRemI32 d [a, b]
/-- R172. -/
def execRemN32 (d : Dst) (a b : Src) (st : State) : Host.Outcome State Fault Refusal :=
  st.laneFn fnRemN32 d [a, b]
/-- R173. -/
def execAndB32 (d : Dst) (a b : Src) (st : State) : Host.Outcome State Fault Refusal :=
  st.laneFn fnAndB32 d [a, b]
/-- R173. -/
def execOrB32 (d : Dst) (a b : Src) (st : State) : Host.Outcome State Fault Refusal :=
  st.laneFn fnOrB32 d [a, b]
/-- R173. -/
def execXorB32 (d : Dst) (a b : Src) (st : State) : Host.Outcome State Fault Refusal :=
  st.laneFn fnXorB32 d [a, b]
/-- R174. -/
def execBfiB32 (d : Dst) (a b : Src) (st : State) : Host.Outcome State Fault Refusal :=
  st.laneFn fnBfiB32 d [a, b]
/-- R173. -/
def execAndB64 (d : Dst) (a b : Src) (st : State) : Host.Outcome State Fault Refusal :=
  st.laneFn fnAndB64 d [a, b]
/-- R173. -/
def execOrB64 (d : Dst) (a b : Src) (st : State) : Host.Outcome State Fault Refusal :=
  st.laneFn fnOrB64 d [a, b]
/-- R173. -/
def execXorB64 (d : Dst) (a b : Src) (st : State) : Host.Outcome State Fault Refusal :=
  st.laneFn fnXorB64 d [a, b]
/-- R176. -/
def execLea (d : Dst) (a b : Src) (st : State) : Host.Outcome State Fault Refusal :=
  st.laneFn fnLea d [a, b]
/-- R173. -/
def execShlB32 (d : Dst) (a b : Src) (st : State) : Host.Outcome State Fault Refusal :=
  st.laneFn fnShlB32 d [a, b]
/-- R173. -/
def execShrN32 (d : Dst) (a b : Src) (st : State) : Host.Outcome State Fault Refusal :=
  st.laneFn fnShrN32 d [a, b]
/-- R173. -/
def execShrI32 (d : Dst) (a b : Src) (st : State) : Host.Outcome State Fault Refusal :=
  st.laneFn fnShrI32 d [a, b]
/-- R173. -/
def execShlB64 (d : Dst) (a b : Src) (st : State) : Host.Outcome State Fault Refusal :=
  st.laneFn fnShlB64 d [a, b]
/-- R173. -/
def execShrN64 (d : Dst) (a b : Src) (st : State) : Host.Outcome State Fault Refusal :=
  st.laneFn fnShrN64 d [a, b]
/-- R173. -/
def execShrI64 (d : Dst) (a b : Src) (st : State) : Host.Outcome State Fault Refusal :=
  st.laneFn fnShrI64 d [a, b]
/-- R174. -/
def execBfxB32 (d : Dst) (a b : Src) (st : State) : Host.Outcome State Fault Refusal :=
  st.laneFn fnBfxB32 d [a, b]
/-- R178. -/
def execMinN32 (d : Dst) (a b : Src) (st : State) : Host.Outcome State Fault Refusal :=
  st.laneFn fnMinN32 d [a, b]
/-- R178. -/
def execMaxN32 (d : Dst) (a b : Src) (st : State) : Host.Outcome State Fault Refusal :=
  st.laneFn fnMaxN32 d [a, b]
/-- R178. -/
def execMinI32 (d : Dst) (a b : Src) (st : State) : Host.Outcome State Fault Refusal :=
  st.laneFn fnMinI32 d [a, b]
/-- R178. -/
def execMaxI32 (d : Dst) (a b : Src) (st : State) : Host.Outcome State Fault Refusal :=
  st.laneFn fnMaxI32 d [a, b]
/-- R179. -/
def execFaddF32 (d : Dst) (a b : Src) (st : State) : Host.Outcome State Fault Refusal :=
  st.laneFn fnFaddF32 d [a, b]
/-- R179. -/
def execFsubF32 (d : Dst) (a b : Src) (st : State) : Host.Outcome State Fault Refusal :=
  st.laneFn fnFsubF32 d [a, b]
/-- R179. -/
def execFmulF32 (d : Dst) (a b : Src) (st : State) : Host.Outcome State Fault Refusal :=
  st.laneFn fnFmulF32 d [a, b]
/-- R179. -/
def execFfmaF32 (d : Dst) (a b : Src) (st : State) : Host.Outcome State Fault Refusal :=
  st.laneFn fnFfmaF32 d [a, b]
/-- R179. -/
def execFaddF64 (d : Dst) (a b : Src) (st : State) : Host.Outcome State Fault Refusal :=
  st.laneFn fnFaddF64 d [a, b]
/-- R179. -/
def execFsubF64 (d : Dst) (a b : Src) (st : State) : Host.Outcome State Fault Refusal :=
  st.laneFn fnFsubF64 d [a, b]
/-- R179. -/
def execFmulF64 (d : Dst) (a b : Src) (st : State) : Host.Outcome State Fault Refusal :=
  st.laneFn fnFmulF64 d [a, b]
/-- R179. -/
def execFfmaF64 (d : Dst) (a b : Src) (st : State) : Host.Outcome State Fault Refusal :=
  st.laneFn fnFfmaF64 d [a, b]
/-- R179. -/
def execFaddRzF32 (d : Dst) (a b : Src) (st : State) : Host.Outcome State Fault Refusal :=
  st.laneFn fnFaddRzF32 d [a, b]
/-- R179. -/
def execFaddRuF32 (d : Dst) (a b : Src) (st : State) : Host.Outcome State Fault Refusal :=
  st.laneFn fnFaddRuF32 d [a, b]
/-- R179. -/
def execFaddRdF32 (d : Dst) (a b : Src) (st : State) : Host.Outcome State Fault Refusal :=
  st.laneFn fnFaddRdF32 d [a, b]
/-- R179. -/
def execFmulRzF32 (d : Dst) (a b : Src) (st : State) : Host.Outcome State Fault Refusal :=
  st.laneFn fnFmulRzF32 d [a, b]
/-- R179. -/
def execFfmaRzF32 (d : Dst) (a b : Src) (st : State) : Host.Outcome State Fault Refusal :=
  st.laneFn fnFfmaRzF32 d [a, b]
/-- R179. -/
def execFfmaRuF32 (d : Dst) (a b : Src) (st : State) : Host.Outcome State Fault Refusal :=
  st.laneFn fnFfmaRuF32 d [a, b]
/-- R179. -/
def execFfmaRdF32 (d : Dst) (a b : Src) (st : State) : Host.Outcome State Fault Refusal :=
  st.laneFn fnFfmaRdF32 d [a, b]
/-- R180. -/
def execFfmaSatF32 (d : Dst) (a b : Src) (st : State) : Host.Outcome State Fault Refusal :=
  st.laneFn fnFfmaSatF32 d [a, b]
/-- R163. -/
def execFaddF16x2 (d : Dst) (a b : Src) (st : State) : Host.Outcome State Fault Refusal :=
  st.laneFn fnFaddF16x2 d [a, b]
/-- R163. -/
def execFsubF16x2 (d : Dst) (a b : Src) (st : State) : Host.Outcome State Fault Refusal :=
  st.laneFn fnFsubF16x2 d [a, b]
/-- R163. -/
def execFmulF16x2 (d : Dst) (a b : Src) (st : State) : Host.Outcome State Fault Refusal :=
  st.laneFn fnFmulF16x2 d [a, b]
/-- R163. -/
def execFfmaF16x2 (d : Dst) (a b : Src) (st : State) : Host.Outcome State Fault Refusal :=
  st.laneFn fnFfmaF16x2 d [a, b]
/-- R163. -/
def execFaddBf16x2 (d : Dst) (a b : Src) (st : State) : Host.Outcome State Fault Refusal :=
  st.laneFn fnFaddBf16x2 d [a, b]
/-- R163. -/
def execFsubBf16x2 (d : Dst) (a b : Src) (st : State) : Host.Outcome State Fault Refusal :=
  st.laneFn fnFsubBf16x2 d [a, b]
/-- R163. -/
def execFmulBf16x2 (d : Dst) (a b : Src) (st : State) : Host.Outcome State Fault Refusal :=
  st.laneFn fnFmulBf16x2 d [a, b]
/-- R163. -/
def execFfmaBf16x2 (d : Dst) (a b : Src) (st : State) : Host.Outcome State Fault Refusal :=
  st.laneFn fnFfmaBf16x2 d [a, b]
/-- R182. -/
def execFnegF32 (d : Dst) (a : Src) (st : State) : Host.Outcome State Fault Refusal :=
  st.laneFn fnFnegF32 d [a]
/-- R182. -/
def execFabsF32 (d : Dst) (a : Src) (st : State) : Host.Outcome State Fault Refusal :=
  st.laneFn fnFabsF32 d [a]
/-- R182. -/
def execFminF32 (d : Dst) (a b : Src) (st : State) : Host.Outcome State Fault Refusal :=
  st.laneFn fnFminF32 d [a, b]
/-- R182. -/
def execFmaxF32 (d : Dst) (a b : Src) (st : State) : Host.Outcome State Fault Refusal :=
  st.laneFn fnFmaxF32 d [a, b]
/-- R182. -/
def execFminnF32 (d : Dst) (a b : Src) (st : State) : Host.Outcome State Fault Refusal :=
  st.laneFn fnFminnF32 d [a, b]
/-- R182. -/
def execFmaxnF32 (d : Dst) (a b : Src) (st : State) : Host.Outcome State Fault Refusal :=
  st.laneFn fnFmaxnF32 d [a, b]
/-- R188. -/
def execRcpF32 (d : Dst) (a : Src) (st : State) : Host.Outcome State Fault Refusal :=
  st.laneFn fnRcpF32 d [a]
/-- R188. -/
def execRsqF32 (d : Dst) (a : Src) (st : State) : Host.Outcome State Fault Refusal :=
  st.laneFn fnRsqF32 d [a]
/-- R188. -/
def execSqrtF32 (d : Dst) (a : Src) (st : State) : Host.Outcome State Fault Refusal :=
  st.laneFn fnSqrtF32 d [a]
/-- R188. -/
def execExp2F32 (d : Dst) (a : Src) (st : State) : Host.Outcome State Fault Refusal :=
  st.laneFn fnExp2F32 d [a]
/-- R188. -/
def execLog2F32 (d : Dst) (a : Src) (st : State) : Host.Outcome State Fault Refusal :=
  st.laneFn fnLog2F32 d [a]
/-- R188. -/
def execSinpiF32 (d : Dst) (a : Src) (st : State) : Host.Outcome State Fault Refusal :=
  st.laneFn fnSinpiF32 d [a]
/-- R188. -/
def execCospiF32 (d : Dst) (a : Src) (st : State) : Host.Outcome State Fault Refusal :=
  st.laneFn fnCospiF32 d [a]
/-- R188. -/
def execTanhF32 (d : Dst) (a : Src) (st : State) : Host.Outcome State Fault Refusal :=
  st.laneFn fnTanhF32 d [a]
/-- R189. -/
def execDivF32 (d : Dst) (a b : Src) (st : State) : Host.Outcome State Fault Refusal :=
  st.laneFn fnDivF32 d [a, b]
/-- R182. -/
def execFnegF64 (d : Dst) (a : Src) (st : State) : Host.Outcome State Fault Refusal :=
  st.laneFn fnFnegF64 d [a]
/-- R182. -/
def execFabsF64 (d : Dst) (a : Src) (st : State) : Host.Outcome State Fault Refusal :=
  st.laneFn fnFabsF64 d [a]
/-- R182. -/
def execFminF64 (d : Dst) (a b : Src) (st : State) : Host.Outcome State Fault Refusal :=
  st.laneFn fnFminF64 d [a, b]
/-- R182. -/
def execFmaxF64 (d : Dst) (a b : Src) (st : State) : Host.Outcome State Fault Refusal :=
  st.laneFn fnFmaxF64 d [a, b]
/-- R182. -/
def execFminnF64 (d : Dst) (a b : Src) (st : State) : Host.Outcome State Fault Refusal :=
  st.laneFn fnFminnF64 d [a, b]
/-- R182. -/
def execFmaxnF64 (d : Dst) (a b : Src) (st : State) : Host.Outcome State Fault Refusal :=
  st.laneFn fnFmaxnF64 d [a, b]
/-- R188. -/
def execRcpF64 (d : Dst) (a : Src) (st : State) : Host.Outcome State Fault Refusal :=
  st.laneFn fnRcpF64 d [a]
/-- R188. -/
def execRsqF64 (d : Dst) (a : Src) (st : State) : Host.Outcome State Fault Refusal :=
  st.laneFn fnRsqF64 d [a]
/-- R188. -/
def execSqrtF64 (d : Dst) (a : Src) (st : State) : Host.Outcome State Fault Refusal :=
  st.laneFn fnSqrtF64 d [a]
/-- R188. -/
def execExp2F64 (d : Dst) (a : Src) (st : State) : Host.Outcome State Fault Refusal :=
  st.laneFn fnExp2F64 d [a]
/-- R188. -/
def execLog2F64 (d : Dst) (a : Src) (st : State) : Host.Outcome State Fault Refusal :=
  st.laneFn fnLog2F64 d [a]
/-- R188. -/
def execSinpiF64 (d : Dst) (a : Src) (st : State) : Host.Outcome State Fault Refusal :=
  st.laneFn fnSinpiF64 d [a]
/-- R188. -/
def execCospiF64 (d : Dst) (a : Src) (st : State) : Host.Outcome State Fault Refusal :=
  st.laneFn fnCospiF64 d [a]
/-- R188. -/
def execTanhF64 (d : Dst) (a : Src) (st : State) : Host.Outcome State Fault Refusal :=
  st.laneFn fnTanhF64 d [a]
/-- R189. -/
def execDivF64 (d : Dst) (a b : Src) (st : State) : Host.Outcome State Fault Refusal :=
  st.laneFn fnDivF64 d [a, b]
/-- R187. -/
def execCvtF32 (d : Dst) (a : Src) (s : CvtSrc) (rm : Round) (sat : Bool) (st : State) : Host.Outcome State Fault Refusal :=
  st.laneFn (fnCvtF32 s rm sat) d [a]
/-- R187. -/
def execCvtF64 (d : Dst) (a : Src) (s : CvtSrc) (rm : Round) (sat : Bool) (st : State) : Host.Outcome State Fault Refusal :=
  st.laneFn (fnCvtF64 s rm sat) d [a]
/-- R187. -/
def execCvtH16 (d : Dst) (a : Src) (s : CvtSrc) (rm : Round) (sat : Bool) (x : Bool) (st : State) : Host.Outcome State Fault Refusal :=
  st.laneFn (fnCvtH16 s rm sat x) d [a]
/-- R187. -/
def execCvtF8 (d : Dst) (a : Src) (s : CvtSrc) (rm : Round) (sat : Bool) (x : Bool) (st : State) : Host.Outcome State Fault Refusal :=
  st.laneFn (fnCvtF8 s rm sat x) d [a]
/-- R187. -/
def execCvtI32 (d : Dst) (a : Src) (s : CvtSrc) (rm : Round) (sat : Bool) (st : State) : Host.Outcome State Fault Refusal :=
  st.laneFn (fnCvtI32 s rm sat) d [a]
/-- R187. -/
def execCvtN32 (d : Dst) (a : Src) (s : CvtSrc) (rm : Round) (sat : Bool) (st : State) : Host.Outcome State Fault Refusal :=
  st.laneFn (fnCvtN32 s rm sat) d [a]
/-- R187. -/
def execCvtI64 (d : Dst) (a : Src) (s : CvtSrc) (rm : Round) (sat : Bool) (st : State) : Host.Outcome State Fault Refusal :=
  st.laneFn (fnCvtI64 s rm sat) d [a]
/-- R187. -/
def execCvtN64 (d : Dst) (a : Src) (s : CvtSrc) (rm : Round) (sat : Bool) (st : State) : Host.Outcome State Fault Refusal :=
  st.laneFn (fnCvtN64 s rm sat) d [a]
/-- R181. -/
def execFfmaF32x2 (d : Dst) (a b : Src) (st : State) : Host.Outcome State Fault Refusal :=
  st.laneFn fnFfmaF32x2 d [a, b]
/-- R175. -/
def execNotB32 (d : Dst) (a : Src) (st : State) : Host.Outcome State Fault Refusal :=
  st.laneFn (fnBit .notB32) d [a]
/-- R175. -/
def execPopcB32 (d : Dst) (a : Src) (st : State) : Host.Outcome State Fault Refusal :=
  st.laneFn (fnBit .popcB32) d [a]
/-- R175. -/
def execClzB32 (d : Dst) (a : Src) (st : State) : Host.Outcome State Fault Refusal :=
  st.laneFn (fnBit .clzB32) d [a]
/-- R175. -/
def execCtzB32 (d : Dst) (a : Src) (st : State) : Host.Outcome State Fault Refusal :=
  st.laneFn (fnBit .ctzB32) d [a]
/-- R175. -/
def execBrevB32 (d : Dst) (a : Src) (st : State) : Host.Outcome State Fault Refusal :=
  st.laneFn (fnBit .brevB32) d [a]
/-- R175. -/
def execBswapB32 (d : Dst) (a : Src) (st : State) : Host.Outcome State Fault Refusal :=
  st.laneFn (fnBit .bswapB32) d [a]
/-- R175. -/
def execSextI8 (d : Dst) (a : Src) (st : State) : Host.Outcome State Fault Refusal :=
  st.laneFn (fnBit .sextI8) d [a]
/-- R175. -/
def execSextI16 (d : Dst) (a : Src) (st : State) : Host.Outcome State Fault Refusal :=
  st.laneFn (fnBit .sextI16) d [a]
/-- R175. -/
def execNotB64 (d : Dst) (a : Src) (st : State) : Host.Outcome State Fault Refusal :=
  st.laneFn (fnBit .notB64) d [a]
/-- R175. -/
def execPopcB64 (d : Dst) (a : Src) (st : State) : Host.Outcome State Fault Refusal :=
  st.laneFn (fnBit .popcB64) d [a]
/-- R175. -/
def execClzB64 (d : Dst) (a : Src) (st : State) : Host.Outcome State Fault Refusal :=
  st.laneFn (fnBit .clzB64) d [a]
/-- R175. -/
def execCtzB64 (d : Dst) (a : Src) (st : State) : Host.Outcome State Fault Refusal :=
  st.laneFn (fnBit .ctzB64) d [a]
/-- R175. -/
def execBrevB64 (d : Dst) (a : Src) (st : State) : Host.Outcome State Fault Refusal :=
  st.laneFn (fnBit .brevB64) d [a]
/-- R175. -/
def execBswapB64 (d : Dst) (a : Src) (st : State) : Host.Outcome State Fault Refusal :=
  st.laneFn (fnBit .bswapB64) d [a]
/-- R175. -/
def execSextI32 (d : Dst) (a : Src) (st : State) : Host.Outcome State Fault Refusal :=
  st.laneFn (fnBit .sextI32) d [a]
/-- R175. -/
def execZextN32 (d : Dst) (a : Src) (st : State) : Host.Outcome State Fault Refusal :=
  st.laneFn (fnBit .zextN32) d [a]
/-- R177. -/
def execSetpI32 (c : Cond) (p : Fin 12) (a b : Src) (st : State) : Host.Outcome State Fault Refusal :=
  st.aluPred 0 p.val [(.b32, a), (.b32, b)] fun _ => pred2 (cmpInt true false c)
/-- R177. -/
def execSetpN32 (c : Cond) (p : Fin 12) (a b : Src) (st : State) : Host.Outcome State Fault Refusal :=
  st.aluPred 0 p.val [(.b32, a), (.b32, b)] fun _ => pred2 (cmpInt false false c)
/-- R177. -/
def execSetpI64 (c : Cond) (p : Fin 12) (a b : Src) (st : State) : Host.Outcome State Fault Refusal :=
  st.aluPred 0 p.val [(.i64, a), (.i64, b)] fun _ => pred2 (cmpInt true true c)
/-- R177. -/
def execSetpN64 (c : Cond) (p : Fin 12) (a b : Src) (st : State) : Host.Outcome State Fault Refusal :=
  st.aluPred 0 p.val [(.b64, a), (.b64, b)] fun _ => pred2 (cmpInt false true c)
/-- R183. -/
def execFsetpF32 (c : Cond) (p : Fin 12) (a b : Src) (st : State) : Host.Outcome State Fault Refusal :=
  st.aluPred 0 p.val [(.f32, a), (.f32, b)] fun _ => pred2 (cmpFp .f32 c)
/-- R184. -/
def execFclassF32 (u : ClassUse) (p : Fin 12) (a : Src) (m : BitVec 7) (st : State) : Host.Outcome State Fault Refusal :=
  st.aluPred 0 p.val [(.f32, a)] fun th vs => applyClass u (th.pred p.val) (Fmt.f32.matchesClass m.toNat (vs.headD 0).toNat)
/-- R183. -/
def execFsetpF64 (c : Cond) (p : Fin 12) (a b : Src) (st : State) : Host.Outcome State Fault Refusal :=
  st.aluPred 1 p.val [(.f64, a), (.f64, b)] fun _ => pred2 (cmpFp .f64 c)
/-- R184. -/
def execFclassF64 (u : ClassUse) (p : Fin 12) (a : Src) (m : BitVec 7) (st : State) : Host.Outcome State Fault Refusal :=
  st.aluPred 1 p.val [(.f64, a)] fun th vs => applyClass u (th.pred p.val) (Fmt.f64.matchesClass m.toNat (vs.headD 0).toNat)
/-- R125. -/
def execPlop (d : Fin 12) (a b c : PredSel) (tt : BitVec 8) (st : State) : Host.Outcome State Fault Refusal :=
  st.aluPred 0 d.val [] fun th _ => plopFn tt (th.predSel a) (th.predSel b) (th.predSel c)

/-- The draws of a course (R190): each participating thread's counter advances. A literal as the seed is zero-extended, as .b64 (log 46,
DESIGN CHOICE). -/
def randCourse (d : Dst) (a : Src) (i : CourseIn) : CourseOut :=
  let v := srcView i.rd .b64 a
  let stale := staleLanes [v] i.parts
  let ok := i.parts.filter fun l => !stale.contains l
  let full := i.full && stale.isEmpty
  let c0 := i.course
  let val (l : Nat) : W64 :=
    let th := c0.thread l
    res32 (drawOf (v.val l) i.rd.team th.root th.ords th.draws)
  let r : Result := ⟨if full && c0.live.length = 1 then .u else .g, val⟩
  let c := (c0.noteFree [v] ok).markSources [(.b64, a)] (i.lift.filter fun l => !stale.contains l)
  let c := c.onThreads ok fun _ th => { th with draws := th.draws + 1 }
  let c := if ok.isEmpty then c else (c.writeDst full ok false d r).setLatch 1 i.gen ok false d r
  ⟨c.reapSources [(.b64, a)], staleReqs i.rd.index stale⟩

/-- R190. -/
def execRand (d : Dst) (a : Src) (st : State) : Host.Outcome State Fault Refusal := st.courseUnit (.result 1 (d == .sup)) (randCourse d a)

end Sys2Proof.Machine
end

