-- ==== Sys2Proof/Machine/Crypto.lean ====
section
/-!
DEFINITION. SHA-512 and RSASSA-PSS (PKCS #1 v2.2 with RSA-4096, SHA-512, MGF1 with SHA-512 and a salt of 64 bytes), which the boot ROM and
ATTEST use (R347, R348). The manual names these standards; what they say is taken from them (log 53).
-/

namespace Sys2Proof.Machine

/-! ## Byte strings -/

/-- The bytes of a number, highest first. -/
def beBytes (n v : Nat) : List Byte := (leBytes n v).reverse

/-- The number whose bytes, highest first, are given. -/
def beNat (b : List Byte) : Nat := leNat b.reverse

/-- Bytewise exclusive or. -/
def xorBytes (a b : List Byte) : List Byte := (a.zip b).map fun p => p.1 ^^^ p.2

/-! ## SHA-512 -/

/-- The constants of the rounds (FIPS 180-4). -/
def shaK : List W64 :=
  [0x428A2F98D728AE22, 0x7137449123EF65CD, 0xB5C0FBCFEC4D3B2F, 0xE9B5DBA58189DBBC,
   0x3956C25BF348B538, 0x59F111F1B605D019, 0x923F82A4AF194F9B, 0xAB1C5ED5DA6D8118,
   0xD807AA98A3030242, 0x12835B0145706FBE, 0x243185BE4EE4B28C, 0x550C7DC3D5FFB4E2,
   0x72BE5D74F27B896F, 0x80DEB1FE3B1696B1, 0x9BDC06A725C71235, 0xC19BF174CF692694] ++
  [0xE49B69C19EF14AD2, 0xEFBE4786384F25E3, 0x0FC19DC68B8CD5B5, 0x240CA1CC77AC9C65,
   0x2DE92C6F592B0275, 0x4A7484AA6EA6E483, 0x5CB0A9DCBD41FBD4, 0x76F988DA831153B5,
   0x983E5152EE66DFAB, 0xA831C66D2DB43210, 0xB00327C898FB213F, 0xBF597FC7BEEF0EE4,
   0xC6E00BF33DA88FC2, 0xD5A79147930AA725, 0x06CA6351E003826F, 0x142929670A0E6E70] ++
  [0x27B70A8546D22FFC, 0x2E1B21385C26C926, 0x4D2C6DFC5AC42AED, 0x53380D139D95B3DF,
   0x650A73548BAF63DE, 0x766A0ABB3C77B2A8, 0x81C2C92E47EDAEE6, 0x92722C851482353B,
   0xA2BFE8A14CF10364, 0xA81A664BBC423001, 0xC24B8B70D0F89791, 0xC76C51A30654BE30,
   0xD192E819D6EF5218, 0xD69906245565A910, 0xF40E35855771202A, 0x106AA07032BBD1B8] ++
  [0x19A4C116B8D2D0C8, 0x1E376C085141AB53, 0x2748774CDF8EEB99, 0x34B0BCB5E19B48A8,
   0x391C0CB3C5C95A63, 0x4ED8AA4AE3418ACB, 0x5B9CCA4F7763E373, 0x682E6FF3D6B2B8A3,
   0x748F82EE5DEFB2FC, 0x78A5636F43172F60, 0x84C87814A1F0AB72, 0x8CC702081A6439EC,
   0x90BEFFFA23631E28, 0xA4506CEBDE82BDE9, 0xBEF9A3F7B2C67915, 0xC67178F2E372532B] ++
  [0xCA273ECEEA26619C, 0xD186B8C721C0C207, 0xEADA7DD6CDE0EB1E, 0xF57D4F7FEE6ED178,
   0x06F067AA72176FBA, 0x0A637DC5A2C898A6, 0x113F9804BEF90DAE, 0x1B710B35131C471B,
   0x28DB77F523047D84, 0x32CAAB7B40C72493, 0x3C9EBE0A15C9BEBC, 0x431D67C49C100D4C,
   0x4CC5D4BECB3E42B6, 0x597F299CFC657E2A, 0x5FCB6FAB3AD6FAEC, 0x6C44198C4A475817]

/-- The hash value before the first block. -/
def shaInit : List W64 :=
  [0x6A09E667F3BCC908, 0xBB67AE8584CAA73B, 0x3C6EF372FE94F82B, 0xA54FF53A5F1D36F1,
   0x510E527FADE682D1, 0x9B05688C2B3E6C1F, 0x1F83D9ABFB41BD6B, 0x5BE0CD19137E2179]

/-- The word of a message schedule that follows the last sixteen ones. -/
def shaNext (w : List W64) : W64 :=
  let x := nth w 1 0
  let y := nth w 14 0
  (y.rotateRight 19 ^^^ y.rotateRight 61 ^^^ (y >>> 6)) + nth w 9 0 + (x.rotateRight 1 ^^^ x.rotateRight 8 ^^^ (x >>> 7)) + nth w 0 0

/-- One round on the eight working variables. -/
def shaRound (v : List W64) (k w : W64) : List W64 :=
  match v with
  | [a, b, c, d, e, f, g, h] =>
    let t1 := h + (e.rotateRight 14 ^^^ e.rotateRight 18 ^^^ e.rotateRight 41) + ((e &&& f) ^^^ (~~~e &&& g)) + k + w
    let t2 := (a.rotateRight 28 ^^^ a.rotateRight 34 ^^^ a.rotateRight 39) + ((a &&& b) ^^^ (a &&& c) ^^^ (b &&& c))
    [t1 + t2, a, b, c, d + t1, e, f, g]
  | v => v

/-- The rounds of a block: the schedule's next sixteen words move on with them. -/
def shaRounds (v w : List W64) : List W64 → List W64
  | [] => v
  | k :: ks => shaRounds (shaRound v k (nth w 0 0)) (w.drop 1 ++ [shaNext w]) ks

/-- Takes one block of 128 bytes into the hash value. -/
def shaBlock (h : List W64) (block : List Byte) : List W64 :=
  let w := (List.range 16).map fun k => BitVec.ofNat 64 (beNat ((block.drop (8 * k)).take 8))
  (h.zip (shaRounds h w shaK)).map fun p => p.1 + p.2

/-- A message with its padding: a whole number of blocks. -/
def shaPad (m : List Byte) : List Byte :=
  let zeros := (256 - (m.length + 17) % 128) % 128
  m ++ 0x80#8 :: List.replicate zeros 0 ++ beBytes 16 (8 * m.length)

/-- The SHA-512 digest, 64 bytes. -/
def sha512Bytes (m : List Byte) : List Byte :=
  let p := shaPad m
  ((List.range (p.length / 128)).foldl (fun h k => shaBlock h ((p.drop (128 * k)).take 128)) shaInit).flatMap fun x => beBytes 8 x.toNat

/-- The bytes of a digest in a register: the digest's first byte is the lowest (log 53). -/
def digestBytes (d : BitVec 512) : List Byte := leBytes 64 d.toNat

/-- SHA-512 as a measurement register holds it (R347). -/
def sha512 (m : List Byte) : BitVec 512 := BitVec.ofNat 512 (leNat (sha512Bytes m))

/-! ## RSASSA-PSS -/

/-- MGF1: `n` bytes of mask from a seed. -/
def mgf1 (seed : List Byte) (n : Nat) : List Byte :=
  ((List.range ((n + 63) / 64)).flatMap fun k => sha512Bytes (seed ++ beBytes 4 k)).take n

/-- A power modulo a number, from the exponent's lowest `fuel` bits. -/
def powMod (n : Nat) (b e : Nat) : Nat → Nat
  | 0 => 1 % n
  | fuel + 1 =>
    let h := powMod n (b * b % n) (e / 2) fuel
    if e % 2 = 1 then h * b % n else h

/-- The digest that a salt and a message give (EMSA-PSS). -/
def pssDigest (msg salt : List Byte) : List Byte := sha512Bytes (List.replicate 8 0 ++ sha512Bytes msg ++ salt)

/-- The 512-byte encoded message: 4,095 bits, so the highest bit is 0. -/
def pssEncode (msg salt : List Byte) : List Byte :=
  let h := pssDigest msg salt
  let db := List.replicate 382 0 ++ 0x01#8 :: salt
  match xorBytes db (mgf1 h 447) with
  | [] => []
  | x :: rest => (x &&& 0x7F) :: rest ++ h ++ [0xBC]

/-- Whether an encoded message is one of a message's: its salt is what stands in it. -/
def pssMatches (msg em : List Byte) : Bool :=
  let h := (em.drop 447).take 64
  let db := xorBytes (em.take 447) (mgf1 h 447)
  em == pssEncode msg (db.drop 383)

/-- Verifies a signature of 512 bytes by a public key. -/
def pssVerify (n e : Nat) (msg sig : List Byte) : Bool :=
  sig.length == 512 && decide (beNat sig < n) && pssMatches msg (beBytes 512 (powMod n (beNat sig) e 4096))

/-- Signs with a private key. -/
def pssSign (n d : Nat) (msg salt : List Byte) : List Byte := beBytes 512 (powMod n (beNat (pssEncode msg salt)) d 4096)

/-! ## The device's use of them (R347, R348) -/

/-- Whether firmware stage `j` may run (R347): a signature of its image by a key whose digest is fused, and a sufficient version. -/
def stageVerifies (j : Nat) : Bool :=
  Config.fusedDigests.contains (sha512 (Config.stageKey j)) &&
    pssVerify (Config.stageModulus j) (Config.stageExponent j) (Config.stageImage j) (Config.stageSignature j) &&
    decide (Config.minVersion.toNat ≤ Config.stageVersion j)

/-- A signature with the device's identity key (R348). -/
def identitySign (msg : List Byte) : List Byte :=
  pssSign Config.identityModulus Config.identityExponent msg ((Config.signSalt msg ++ List.replicate 64 0).take 64)

end Sys2Proof.Machine
end

