-- ==== Sys2Proof/Decode.lean ====
section
/-!
DEFINITION. The decoder, total on any words (R78 to R98): it reads an instruction unit and names the step of R96 that fails.
After it the encoder, written from the same layouts, and the two readings the host asks for.
-/

namespace Sys2Proof

/-! ## Fields (R80) -/

/-- Fields of R and I format. -/
abbrev fN (w : Nat) : Nat := fld w 23 1
abbrev fD (w : Nat) : Nat := fld w 17 6
abbrev fA (w : Nat) : Nat := fld w 9 8
abbrev fB (w : Nat) : Nat := fld w 1 8
abbrev fL (w : Nat) : Nat := w % 2
abbrev fImm9 (w : Nat) : Nat := w % 512
/-- Fields of M format. -/
abbrev fmF (w : Nat) : Nat := fld w 20 4
abbrev fmD (w : Nat) : Nat := fld w 14 6
abbrev fmA (w : Nat) : Nat := fld w 6 8
abbrev fmO (w : Nat) : Nat := w % 64
/-- Fields of B format. -/
abbrev fbP (w : Nat) : Nat := fld w 20 4
abbrev fbG (w : Nat) : Nat := fld w 19 1
abbrev fbO (w : Nat) : Nat := w % 2 ^ 19

/-- A register name from the low six bits. -/
abbrev reg64 (n : Nat) : Fin 64 := Fin.ofNat 64 n

/-! ## Operands -/

/-- The special source of an index below 0x3F (R88); 0x34 to 0x3D are reserved. -/
def specialOf (i : Nat) : Option Special :=
  if i < 32 then some (.int (Fin.ofNat 32 i))
  else if i < 48 then some (.fpc (Fin.ofNat 16 i))
  else if i = 48 then some .lane
  else if i = 49 then some .tid
  else if i = 50 then some .course
  else if i = 51 then some .team
  else if i = 62 then some .negZero
  else none

/-- The operand a field names (R87); `none` for a reserved mode or index. -/
def srcOf (f lit : Nat) : Option Src :=
  if f < 64 then some (.reg (reg64 f) false)
  else if f < 128 then some (.reg (reg64 f) true)
  else if f < 144 then some (.opf (Fin.ofNat 16 f))
  else if f < 148 then some (.latch (Fin.ofNat 4 f))
  else if f < 192 then none
  else if f = 255 then some (.lit (BitVec.ofNat 32 lit))
  else (specialOf (f - 192)).map .special

/-- An operand field as read: the operand, and whether its mode and its pair are right. -/
structure Opnd where
  src : Src
  ok3 : Bool
  ok5 : Bool

/-- Reads an operand field for an operand of type `ty` (R87, R88, R90, R91). -/
def opnd (ty : Ty) (f lit : Nat) : Opnd :=
  match srcOf f lit with
  | some s => ⟨s, s.modeOk ty, s.pairOk ty⟩
  | none => ⟨.special .lane, false, true⟩

/-- The outcomes of steps 2 to 5 of R96: `true` where the check passes. -/
structure Chk where
  s2 : Bool := true
  s3 : Bool := true
  s4 : Bool := true
  s5 : Bool := true
deriving DecidableEq, Repr

/-- An instruction word as read: its checks, and the instruction it is if they all pass. -/
structure Parsed where
  chk : Chk
  instr : Instr

/-- The destination of R format (R68, R71, R81). -/
def dstOf (w : Nat) : Dst :=
  if fN w = 1 then .sup else if fL w = 1 then .opf (Fin.ofNat 16 (fD w)) else .reg (reg64 (fD w))

/-- Step 4 of a destination: N = 1 only where the entry allows it and with D = 0, DL = 0; DL = 1 with D[5:4] = 00. -/
def dstRes (n : Bool) (w : Nat) : Bool :=
  if fN w = 1 then n && fD w == 0 && fL w == 0 else fL w == 0 || decide (fD w < 16)

/-- N = 0 and DL = 0. -/
def noND (w : Nat) : Bool := fN w == 0 && fL w == 0

/-! ## Codes -/

def condOf (c : Nat) : Cond := match c with | 0 => .eq | 1 => .ne | 2 => .lt | _ => .le
def condCode : Cond → Nat | .eq => 0 | .ne => 1 | .lt => 2 | .le => 3
def classUseOf (c : Nat) : ClassUse := match c with | 0 => .set | 1 => .neg | 2 => .conj | _ => .disj
def classUseCode : ClassUse → Nat | .set => 0 | .neg => 1 | .conj => 2 | .disj => 3
def roundOf (c : Nat) : Round := match c with | 0 => .rne | 1 => .rtz | 2 => .rup | _ => .rdn
def roundCode : Round → Nat | .rne => 0 | .rtz => 1 | .rup => 2 | .rdn => 3
def cvtSrcOf (c : Nat) : Option CvtSrc :=
  match c with
  | 0 => some .f64 | 1 => some .f32 | 2 => some .f16 | 3 => some .bf16 | 4 => some .e4m3 | 5 => some .e5m2
  | 6 => some .i32 | 7 => some .n32 | 8 => some .i64 | 9 => some .n64 | 10 => some .f32x2 | 11 => some .f16x2
  | 12 => some .bf16x2 | _ => none
def cvtSrcCode : CvtSrc → Nat
  | .f64 => 0 | .f32 => 1 | .f16 => 2 | .bf16 => 3 | .e4m3 => 4 | .e5m2 => 5 | .i32 => 6 | .n32 => 7 | .i64 => 8
  | .n64 => 9 | .f32x2 => 10 | .f16x2 => 11 | .bf16x2 => 12
def bitOpOf (c : Nat) : Option BitOp :=
  match c with
  | 0 => some .notB32 | 1 => some .popcB32 | 2 => some .clzB32 | 3 => some .ctzB32 | 4 => some .brevB32
  | 5 => some .bswapB32 | 6 => some .sextI8 | 7 => some .sextI16 | 8 => some .notB64 | 9 => some .popcB64
  | 10 => some .clzB64 | 11 => some .ctzB64 | 12 => some .brevB64 | 13 => some .bswapB64 | 14 => some .sextI32
  | 15 => some .zextN32 | _ => none
def bitOpCode : BitOp → Nat
  | .notB32 => 0 | .popcB32 => 1 | .clzB32 => 2 | .ctzB32 => 3 | .brevB32 => 4 | .bswapB32 => 5 | .sextI8 => 6
  | .sextI16 => 7 | .notB64 => 8 | .popcB64 => 9 | .clzB64 => 10 | .ctzB64 => 11 | .brevB64 => 12 | .bswapB64 => 13
  | .sextI32 => 14 | .zextN32 => 15
def redKindOf (c : Nat) : Option RedKind :=
  match c with
  | 0 => some .addI32 | 1 => some .andB32 | 2 => some .orB32 | 3 => some .xorB32 | 4 => some .maxI32
  | 5 => some .minI32 | 6 => some .maxN32 | 7 => some .minN32 | 8 => some .addI64 | 9 => some .addF32
  | 10 => some .mulF32 | 11 => some .maxF32 | 12 => some .minF32 | 13 => some .maxnF32 | 14 => some .minnF32
  | 15 => some .addF64 | _ => none
def redKindCode : RedKind → Nat
  | .addI32 => 0 | .andB32 => 1 | .orB32 => 2 | .xorB32 => 3 | .maxI32 => 4 | .minI32 => 5 | .maxN32 => 6
  | .minN32 => 7 | .addI64 => 8 | .addF32 => 9 | .mulF32 => 10 | .maxF32 => 11 | .minF32 => 12 | .maxnF32 => 13
  | .minnF32 => 14 | .addF64 => 15
def mfmtOf (c : Nat) : Option MFmt :=
  match c with
  | 0 => some .e4m3 | 1 => some .e5m2 | 2 => some .e4m3e5m2 | 3 => some .e5m2e4m3 | 4 => some .mxf8 | 5 => some .mxf6
  | 6 => some .mxf4 | 7 => some .i4x | 8 => some .mxi8 | 9 => some .bf16 | 10 => some .f16 | 11 => some .f32
  | 12 => some .f64 | _ => none
def mfmtCode : MFmt → Nat
  | .e4m3 => 0 | .e5m2 => 1 | .e4m3e5m2 => 2 | .e5m2e4m3 => 3 | .mxf8 => 4 | .mxf6 => 5 | .mxf4 => 6 | .i4x => 7
  | .mxi8 => 8 | .bf16 => 9 | .f16 => 10 | .f32 => 11 | .f64 => 12
def fillKindOf (c : Nat) : Option FillKind :=
  match c with | 0 => some .f64 | 1 => some .f32 | 2 => some .bf16 | _ => none
def fillKindCode : FillKind → Nat | .f64 => 0 | .f32 => 1 | .bf16 => 2
def scopeOf (c : Nat) : Option Scope :=
  match c with
  | 0 => some .th | 1 => some .co | 2 => some .te | 3 => some .cl | 4 => some .di | 5 => some .dv | 6 => some .dm
  | _ => none
def scopeCode : Scope → Nat | .th => 0 | .co => 1 | .te => 2 | .cl => 3 | .di => 4 | .dv => 5 | .dm => 6
def orderOf (c : Nat) : Option Order :=
  match c with | 0 => some .relaxed | 1 => some .acq | 2 => some .rel | 3 => some .ar | 4 => some .sc | _ => none
def orderCode : Order → Nat | .relaxed => 0 | .acq => 1 | .rel => 2 | .ar => 3 | .sc => 4
def fenceOrdOf (c : Nat) : Option FenceOrd :=
  match c with | 1 => some .acq | 2 => some .rel | 3 => some .ar | 4 => some .sc | _ => none
def fenceOrdCode : FenceOrd → Nat | .acq => 1 | .rel => 2 | .ar => 3 | .sc => 4
def xlevelOf (c : Nat) : XLevel := match c with | 0 => .spad | 1 => .clm | 2 => .chip | _ => .lp
def xlevelCode : XLevel → Nat | .spad => 0 | .clm => 1 | .chip => 2 | .lp => 3
def xwidthOf (c : Nat) : XWidth := match c with | 0 => .n8 | 1 => .n16 | 2 => .b32 | _ => .b64
def xwidthCode : XWidth → Nat | .n8 => 0 | .n16 => 1 | .b32 => 2 | .b64 => 3
def ldKindOf (c : Nat) : Option LdKind :=
  match c with
  | 0 => some .n8 | 1 => some .i8 | 2 => some .n16 | 3 => some .i16 | 4 => some .b32 | 5 => some .b64 | 6 => some .b128
  | _ => none
def ldKindCode : LdKind → Nat | .n8 => 0 | .i8 => 1 | .n16 => 2 | .i16 => 3 | .b32 => 4 | .b64 => 5 | .b128 => 6
def stKindOf (c : Nat) : Option StKind :=
  match c with | 0 => some .b8 | 2 => some .b16 | 4 => some .b32 | 5 => some .b64 | 6 => some .b128 | _ => none
def stKindCode : StKind → Nat | .b8 => 0 | .b16 => 2 | .b32 => 4 | .b64 => 5 | .b128 => 6
def atomOpOf (c : Nat) : AtomOp :=
  match c with
  | 0 => .addB32 | 1 => .addB64 | 2 => .andB32 | 3 => .orB32 | 4 => .exchB32 | 5 => .maxI32 | 6 => .minI32
  | 7 => .maxN32 | 8 => .minN32 | 9 => .maxN64 | 10 => .minN64 | 11 => .casB32 | 12 => .casB64 | 13 => .faddF32
  | 14 => .fminF32 | _ => .fmaxF32
def atomOpCode : AtomOp → Nat
  | .addB32 => 0 | .addB64 => 1 | .andB32 => 2 | .orB32 => 3 | .exchB32 => 4 | .maxI32 => 5 | .minI32 => 6
  | .maxN32 => 7 | .minN32 => 8 | .maxN64 => 9 | .minN64 => 10 | .casB32 => 11 | .casB64 => 12 | .faddF32 => 13
  | .fminF32 => 14 | .fmaxF32 => 15
def casWOf (c : Nat) : Option CasW := match c with | 0 => some .b32 | 1 => some .b64 | 2 => some .b128 | _ => none
def casWCode : CasW → Nat | .b32 => 0 | .b64 => 1 | .b128 => 2
def sregOf (c : Nat) : Option SReg :=
  match c with
  | 0 => some .tsw | 1 => some .key0 | 2 => some .key1 | 3 => some .key2 | 4 => some .key3 | 5 => some .key4
  | 8 => some .slice | 9 => some .budget | 10 => some .deadline | 11 => some .clkw | 12 => some .trapbase
  | 13 => some .fault | 14 => some .faultaddr | 15 => some .faultmask | 16 => some .tpc | _ => none
def sregCode : SReg → Nat
  | .tsw => 0 | .key0 => 1 | .key1 => 2 | .key2 => 3 | .key3 => 4 | .key4 => 5 | .slice => 8 | .budget => 9
  | .deadline => 10 | .clkw => 11 | .trapbase => 12 | .fault => 13 | .faultaddr => 14 | .faultmask => 15 | .tpc => 16
/-- A predicate field: 0 to 11, or 12 for the constant 1; 13 to 15 are refused by the caller's check. -/
def predOf (c : Nat) : PredSel := if c < 12 then .p (Fin.ofNat 12 c) else .always
def predCode : PredSel → Nat | .p n => n.val | .always => 12

/-! ## The decoders of the formats -/

/-- R format, two operands. -/
def decR2 (ta tb : Ty) (wide n : Bool) (mk : Dst → Src → Src → Instr) (w lit : Nat) : Parsed :=
  let a := opnd ta (fA w) lit
  let b := opnd tb (fB w) lit
  let d := dstOf w
  ⟨⟨true, a.ok3 && b.ok3 && oneLit a.src b.src, dstRes n w, a.ok5 && b.ok5 && d.pairOk wide⟩, mk d a.src b.src⟩
/-- R format, one operand; the B field is a selector the caller has read (Rs), or must be zero (`z`). -/
def decR1 (ta : Ty) (wide z : Bool) (mk : Dst → Src → Instr) (w lit : Nat) : Parsed :=
  let a := opnd ta (fA w) lit
  let d := dstOf w
  ⟨⟨true, a.ok3, dstRes true w && (!z || fB w == 0), a.ok5 && d.pairOk wide⟩, mk d a.src⟩
/-- I format (R82). -/
def decI1 (ta : Ty) (wide : Bool) (mk : Dst → Src → BitVec 9 → Instr) (w lit : Nat) : Parsed :=
  let a := opnd ta (fA w) lit
  let d : Dst := if fN w = 1 then .sup else .reg (reg64 (fD w))
  ⟨⟨true, a.ok3, fN w == 0 || fD w == 0, a.ok5 && d.pairOk wide⟩, mk d a.src (BitVec.ofNat 9 (fImm9 w))⟩
/-- Rp format (R86). -/
def decRp (ta : Ty) (mk : Cond → Fin 12 → Src → Src → Instr) (w lit : Nat) : Parsed :=
  let a := opnd ta (fA w) lit
  let b := opnd ta (fB w) lit
  ⟨⟨true, a.ok3 && b.ok3 && oneLit a.src b.src && decide (fD w % 16 < 12), noND w, a.ok5 && b.ok5⟩,
    mk (condOf (fD w / 16)) (Fin.ofNat 12 (fD w % 16)) a.src b.src⟩
/-- fclass (R184). -/
def decFclass (ta : Ty) (mk : ClassUse → Fin 12 → Src → BitVec 7 → Instr) (w lit : Nat) : Parsed :=
  let a := opnd ta (fA w) lit
  ⟨⟨true, a.ok3 && decide (fD w % 16 < 12), noND w && decide (fB w < 128), a.ok5⟩,
    mk (classUseOf (fD w / 16)) (Fin.ofNat 12 (fD w % 16)) a.src (BitVec.ofNat 7 (fB w))⟩
/-- A word that fails step 2. It takes no literal, also where an operand field of it is 0xFF; the manual does not say whether such a word
has one (log 46). -/
def undefinedValue : Parsed := ⟨{ s2 := false }, .rett⟩
/-- The conversions (R185, R186). -/
def decCvt (k : CvtDst) (mk : Dst → Src → CvtSrc → Round → Bool → Bool → Instr) (w lit : Nat) : Parsed :=
  match cvtSrcOf (fB w / 16) with
  | none => undefinedValue
  | some s =>
    let rm := roundOf (fB w / 4 % 4)
    let sat := fB w / 2 % 2 == 1
    let x := fB w % 2 == 1
    let a := opnd s.ty (fA w) lit
    let d := dstOf w
    ⟨⟨cvtDefined k x s rm sat && (k == .h16 || k == .f8 || !x), a.ok3, dstRes true w, a.ok5 && d.pairOk k.wide⟩,
      mk d a.src s rm sat x⟩
/-- census (R199). -/
def decCensus (mk : Dst → PredSel → Instr) (w : Nat) : Parsed :=
  ⟨⟨decide (fA w % 16 ≤ 12), true, dstRes true w && fA w / 16 == 0, true⟩, mk (dstOf w) (predOf (fA w % 16))⟩
/-- mma and mma.sp (R213, R214). -/
def decMma (sp : Bool) (mk : Fin 16 → MFmt → Fin 64 → Fin 64 → Bool → Bool → Instr) (w : Nat) : Parsed :=
  match mfmtOf (fA w / 64 * 4 + fB w / 64) with
  | none => undefinedValue
  | some f =>
    let a := reg64 (fA w % 64)
    let b := reg64 (fB w % 64)
    ⟨⟨(!sp || f.exactPass) && decide (a.val + f.names ≤ 64) && decide (b.val + f.names + (if sp then 1 else 0) ≤ 64), true,
       noND w, !(f == .f64) || (a.val % 2 == 0 && b.val % 2 == 0)⟩,
      mk (Fin.ofNat 16 (fD w)) f a b (fD w / 16 % 2 == 1) (fD w / 32 == 1)⟩
/-- No field but the selector, if any (`zb`: the B field must be zero too). -/
def decZ (zb : Bool) (i : Instr) (w : Nat) : Parsed :=
  ⟨{ s4 := noND w && fD w == 0 && fA w == 0 && (!zb || fB w == 0) }, i⟩
/-- A alone (`zb` as in `decZ`). -/
def decA (ta : Ty) (zb : Bool) (mk : Src → Instr) (w lit : Nat) : Parsed :=
  let a := opnd ta (fA w) lit
  ⟨⟨true, a.ok3, noND w && fD w == 0 && (!zb || fB w == 0), a.ok5⟩, mk a.src⟩
/-- A and B, no destination. -/
def decAB (ta tb : Ty) (mk : Src → Src → Instr) (w lit : Nat) : Parsed :=
  let a := opnd ta (fA w) lit
  let b := opnd tb (fB w) lit
  ⟨⟨true, a.ok3 && b.ok3 && oneLit a.src b.src, noND w && fD w == 0, a.ok5 && b.ok5⟩, mk a.src b.src⟩
/-- A register destination and A; the destination a multiple of `align`. -/
def decDA (ta : Ty) (align : Nat) (mk : Fin 64 → Src → Instr) (w lit : Nat) : Parsed :=
  let a := opnd ta (fA w) lit
  ⟨⟨true, a.ok3, noND w && fB w == 0, a.ok5 && fD w % align == 0⟩, mk (reg64 (fD w)) a.src⟩
/-- A register destination, A and B: bar.arrive (R291). -/
def decDAB (ta tb : Ty) (mk : Fin 64 → Src → Src → Instr) (w lit : Nat) : Parsed :=
  let a := opnd ta (fA w) lit
  let b := opnd tb (fB w) lit
  ⟨⟨true, a.ok3 && b.ok3 && oneLit a.src b.src, noND w, a.ok5 && b.ok5⟩, mk (reg64 (fD w)) a.src b.src⟩
/-- A register destination alone. -/
def decD (align : Nat) (mk : Fin 64 → Instr) (w : Nat) : Parsed :=
  ⟨{ s4 := noND w && fA w == 0 && fB w == 0, s5 := fD w % align == 0 }, mk (reg64 (fD w))⟩
/-- tile.zero (R213). -/
def decTzero (mk : Fin 16 → Instr) (w : Nat) : Parsed :=
  ⟨{ s4 := noND w && fD w / 16 == 0 && fA w == 0 && fB w == 0 }, mk (Fin.ofNat 16 (fD w))⟩
/-- tile.fill (R213, R223). -/
def decTfill (mk : FillKind → Fin 16 → Fin 64 → Bool → Src → Instr) (w lit : Nat) : Parsed :=
  match fillKindOf (fD w / 16) with
  | none => undefinedValue
  | some k =>
    let c := opnd .b32 (fB w) lit
    let base := reg64 (fA w % 64)
    ⟨⟨decide (fA w / 64 < 2) && decide (base.val + 16 ≤ 64), c.ok3, noND w, c.ok5 && (!(k == .f64) || base.val % 2 == 0)⟩,
      mk k (Fin.ofNat 16 (fD w)) base (fA w / 64 == 1) c.src⟩
/-- tile.drain of one kind (R213, R223). -/
def decTdrain (even : Bool) (mk : Fin 16 → Fin 64 → Src → Instr) (w lit : Nat) : Parsed :=
  let c := opnd .b32 (fA w) lit
  let base := reg64 (fD w)
  ⟨⟨decide (base.val + 16 ≤ 64), c.ok3, noND w, c.ok5 && (!even || base.val % 2 == 0)⟩, mk (Fin.ofNat 16 (fB w)) base c.src⟩
/-- tile.qdrain of one kind (R213, R224). -/
def decTqdrain (q : QKind) (mk : Fin 16 → Fin 64 → Fin 64 → Instr) (w : Nat) : Parsed :=
  let base := reg64 (fD w)
  let s := reg64 (fA w % 64)
  ⟨{ s2 := decide (fA w / 64 = 0) && decide (base.val + q.elemNames ≤ 64) &&
             (decide (s.val < base.val) || decide (base.val + q.elemNames ≤ s.val)), s4 := noND w },
    mk (Fin.ofNat 16 (fB w)) base s⟩
/-- An M-format access: `s2` says whether the field values exist and the names fit, `s4` and `s5` the rest. -/
def decM (ta : Ty) (s2 s4 s5 : Bool) (mk : Fin 64 → Src → Instr) (w lit : Nat) : Parsed :=
  let a := opnd ta (fmA w) lit
  ⟨⟨s2, a.ok3, s4, a.ok5 && s5⟩, mk (reg64 (fmD w)) a.src⟩
/-- The ordered form of a load or store (R273, R274): F = 0xC or 0xD, the scope and `own` (acquire or release) or .sc. -/
def ordAccOf (own : Order) (w : Nat) : Option OrdAcc :=
  match scopeOf (fmO w / 8), orderOf (fmO w % 8) with
  | some s, some o =>
    if o = own ∨ o = .sc then some ⟨fmF w == 13, s, o == .sc⟩ else none
  | _, _ => none
/-- ld and sld (R273, R274). -/
def decLd (plain : LdKind → Fin 64 → Src → BitVec 6 → Instr) (ord : OrdAcc → Fin 64 → Src → Instr) (w lit : Nat) : Parsed :=
  if fmF w = 12 ∨ fmF w = 13 then
    match ordAccOf .acq w with
    | none => undefinedValue
    | some o => decM .addr true true (fmD w % nameAlign o.size == 0) (ord o) w lit
  else
    match ldKindOf (fmF w) with
    | none => undefinedValue
    | some k => decM .addr true true (fmD w % nameAlign k.size == 0) (fun d a => plain k d a (BitVec.ofNat 6 (fmO w))) w lit
/-- st and sst (R273, R274). -/
def decSt (plain : StKind → Fin 64 → Src → BitVec 6 → Instr) (ord : OrdAcc → Fin 64 → Src → Instr) (w lit : Nat) : Parsed :=
  if fmF w = 12 ∨ fmF w = 13 then
    match ordAccOf .rel w with
    | none => undefinedValue
    | some o => decM .addr true true (fmD w % nameAlign o.size == 0) (ord o) w lit
  else
    match stKindOf (fmF w) with
    | none => undefinedValue
    | some k => decM .addr true true (fmD w % nameAlign k.size == 0) (fun d a => plain k d a (BitVec.ofNat 6 (fmO w))) w lit
/-- ldx, stx and their twins (R280). -/
def decX (mk : XLevel → XWidth → Fin 64 → Src → BitVec 6 → Instr) (w lit : Nat) : Parsed :=
  let wd := xwidthOf (fmF w % 4)
  decM .b32 true true (fmD w % nameAlign wd.size == 0)
    (fun d a => mk (xlevelOf (fmF w / 4)) wd d a (BitVec.ofNat 6 (fmO w))) w lit
/-- Where an atomic acts (R282): `none` for an undefined code. -/
def placeOf (w : Nat) : Option AtomPlace :=
  match fmO w % 8 with
  | 5 => some (.level .spad)
  | 6 => some (.level .clm)
  | 7 => some (.level .chip)
  | _ =>
    match scopeOf (fmO w / 8), orderOf (fmO w % 8) with
    | some s, some o => some (.dev s o)
    | _, _ => none
/-- The scope field of a level atomic must be 000 (R282). -/
def placeRes (w : Nat) : Bool := decide (fmO w % 8 < 5) || fmO w / 8 == 0
/-- atom and satom (R282, R283, R285). -/
def decAtom (uni : Bool) (mk : AtomOp → AtomPlace → Fin 64 → Src → Instr) (w lit : Nat) : Parsed :=
  match placeOf w with
  | none => undefinedValue
  | some pl =>
    let op := atomOpOf (fmF w)
    decM pl.ty ((!uni || !op.isCas) && decide (fmD w + op.span ≤ 64)) (placeRes w) (!op.w64 || fmD w % 2 == 0) (mk op pl) w lit
/-- scas (R286). -/
def decScas (mk : CasW → AtomPlace → Fin 64 → Src → Instr) (w lit : Nat) : Parsed :=
  match casWOf (fmF w), placeOf w with
  | some c, some pl =>
    decM pl.ty (decide (fmD w + 3 * c.names ≤ 64) && !(c == .b128 && pl.isLevel)) (placeRes w) (fmD w % c.names == 0) (mk c pl) w lit
  | _, _ => undefinedValue
/-- sts (R287). -/
def decSts (mk : StKind → Fin 64 → Src → Fin 64 → Instr) (w lit : Nat) : Parsed :=
  match stKindOf (fmF w) with
  | none => undefinedValue
  | some k =>
    decM .addr true true (fmD w % nameAlign k.size == 0 && fmO w % 2 == 0) (fun d a => mk k d a (reg64 (fmO w))) w lit
/-- lda (R288). -/
def decLda (mk : Bool → Fin 64 → Src → Fin 64 → Instr) (w lit : Nat) : Parsed :=
  let w64 := fmF w == 5
  decM .addr ((fmF w == 4 || fmF w == 5) && decide (fmD w + (if w64 then 3 else 2) ≤ 64)) true
    ((!w64 || fmD w % 2 == 0) && fmO w % 2 == 0) (fun d a => mk w64 d a (reg64 (fmO w))) w lit
/-- fetch and gather (R296). -/
def decFetch (fetch gather : MFmt → Fin 64 → Src → Fin 32 → Instr) (w lit : Nat) : Parsed :=
  match mfmtOf (fmF w) with
  | none => undefinedValue
  | some f =>
    decM .addr (decide (fmD w + f.names + 1 ≤ 64)) true (!(f == .f64) || fmD w % 2 == 0)
      (fun d a => (if fmO w % 2 = 1 then gather else fetch) f d a (Fin.ofNat 32 (fmO w / 2))) w lit
/-- mon (R293): F, D and OFF6 are zero. -/
def decMon (mk : Src → Instr) (w lit : Nat) : Parsed :=
  decM .addr true (fmF w == 0 && fmD w == 0 && fmO w == 0) true (fun _ a => mk a) w lit
/-- B format (R84). -/
def decB (mk : PredSel → Bool → BitVec 19 → Instr) (w : Nat) : Parsed :=
  ⟨{ s3 := decide (fbP w ≤ 12) }, mk (predOf (fbP w)) (fbG w == 1) (BitVec.ofNat 19 (fbO w))⟩
/-- plop (R125). -/
def decPlop (mk : Fin 12 → PredSel → PredSel → PredSel → BitVec 8 → Instr) (w : Nat) : Parsed :=
  ⟨{ s2 := decide (fbP w < 12) && decide (fld w 16 4 ≤ 12) && decide (fld w 12 4 ≤ 12) && decide (fld w 8 4 ≤ 12) },
    mk (Fin.ofNat 12 (fbP w)) (predOf (fld w 16 4)) (predOf (fld w 12 4)) (predOf (fld w 8 4)) (BitVec.ofNat 8 (w % 256))⟩
/-- The guard prefix (R92). -/
def decGuard (mk : PredSel → Bool → Instr) (w : Nat) : Parsed :=
  ⟨{ s3 := decide (fbP w ≤ 12), s4 := fbO w == 0 }, mk (predOf (fbP w)) (fbG w == 1)⟩
/-- fence (R289): the selector holds the scope and the ordering. -/
def decFence (mk : Scope → FenceOrd → Instr) (w : Nat) : Parsed :=
  match scopeOf (fB w / 16 % 8), fenceOrdOf (fB w % 8) with
  | some s, some o =>
    ⟨{ s2 := decide (fB w < 128) && fB w / 8 % 2 == 0, s4 := noND w && fD w == 0 && fA w == 0 }, mk s o⟩
  | _, _ => undefinedValue
/-- bcopy and bcopy.st (R300): A is a block of four names. -/
def decBcopy (align : Nat) (mk : Fin 64 → Fin 64 → Bool → Src → Instr) (w lit : Nat) : Parsed :=
  let b := opnd .b32 (fB w) lit
  ⟨⟨decide (fA w < 128) && decide (fA w % 64 + 4 ≤ 64), b.ok3, noND w, b.ok5 && fD w % align == 0⟩,
    mk (reg64 (fD w)) (reg64 (fA w % 64)) (fA w / 64 == 1) b.src⟩
/-- tl.read (R307): three names from an even one. -/
def decTlRead (mk : Fin 64 → Src → Instr) (w lit : Nat) : Parsed :=
  let a := opnd .b32 (fA w) lit
  ⟨⟨decide (fD w + 3 ≤ 64), a.ok3, noND w && fB w == 0, a.ok5 && fD w % 2 == 0⟩, mk (reg64 (fD w)) a.src⟩
/-- ckpt.hold (R300). -/
def decHold (mk : Fin 64 → Bool → Instr) (w : Nat) : Parsed :=
  ⟨{ s2 := decide (fA w ≤ 1), s4 := noND w && fB w == 0, s5 := fD w % 2 == 0 }, mk (reg64 (fD w)) (fA w == 1)⟩
/-- ckpt.release (R300). -/
def decRelease (mk : Src → Bool → Instr) (w lit : Nat) : Parsed :=
  let a := opnd .b64 (fA w) lit
  ⟨⟨decide (fB w ≤ 1), a.ok3, noND w && fD w == 0, a.ok5⟩, mk a.src (fB w == 1)⟩
/-- spawn (R130). -/
def decSpawn (mk : Fin 12 → Src → Fin 64 → Bool → Instr) (w lit : Nat) : Parsed :=
  let a := opnd .b64 (fA w) lit
  ⟨⟨decide (fB w < 128) && decide (fB w % 64 + 8 ≤ 64) && decide (fD w % 16 < 12), a.ok3, noND w && fD w / 16 == 0, a.ok5⟩,
    mk (Fin.ofNat 12 (fD w % 16)) a.src (reg64 (fB w % 64)) (fB w / 64 == 1)⟩
/-- repack (R132): A is a name. -/
def decRepack (mk : Fin 64 → Instr) (w : Nat) : Parsed :=
  ⟨{ s2 := decide (fA w < 64), s4 := noND w && fD w == 0 && fB w == 0 }, mk (reg64 (fA w))⟩
/-- vshape (R208): A names storage in mode 00 or 10. -/
def decVshape (mk : Dst → VsRef → Instr) (w : Nat) : Parsed :=
  let r : Option VsRef :=
    if fA w < 64 then some (.reg (reg64 (fA w)))
    else if fA w < 128 then none
    else if fA w < 144 then some (.opf (Fin.ofNat 16 (fA w)))
    else if fA w < 148 then some (.latch (Fin.ofNat 4 (fA w)))
    else none
  match r with
  | none => undefinedValue
  | some r => ⟨{ s4 := dstRes true w && fB w == 0 }, mk (dstOf w) r⟩
/-- sget (R137). -/
def decSget (mk : Fin 64 → SReg → Instr) (w : Nat) : Parsed :=
  match sregOf (fA w) with
  | none => undefinedValue
  | some r => ⟨{ s4 := noND w && fB w == 0, s5 := !r.w64 || fD w % 2 == 0 }, mk (reg64 (fD w)) r⟩
/-- sset (R137). -/
def decSset (mk : SReg → Src → Instr) (w lit : Nat) : Parsed :=
  match sregOf (fA w) with
  | none => undefinedValue
  | some r =>
    let b := opnd (if r.w64 then .b64 else .b32) (fB w) lit
    ⟨⟨true, b.ok3, noND w && fD w == 0, b.ok5⟩, mk r b.src⟩
/-- trap and bkpt (R140): I format with no destination and IMM9 [8] = 0. -/
def decImm (mk : BitVec 8 → Instr) (w : Nat) : Parsed :=
  ⟨{ s4 := fN w == 0 && fD w == 0 && fA w == 0 && decide (fImm9 w < 256) }, mk (BitVec.ofNat 8 (fImm9 w))⟩

/-! ## Selector opcodes (R85) -/

/-- Lane opcode 0x1F. -/
def selBit (w lit : Nat) : Parsed :=
  match fB w with
  | 0 => decR1 .b32 false false .notB32 w lit
  | 1 => decR1 .b32 false false .popcB32 w lit
  | 2 => decR1 .b32 false false .clzB32 w lit
  | 3 => decR1 .b32 false false .ctzB32 w lit
  | 4 => decR1 .b32 false false .brevB32 w lit
  | 5 => decR1 .b32 false false .bswapB32 w lit
  | 6 => decR1 .b32 false false .sextI8 w lit
  | 7 => decR1 .b32 false false .sextI16 w lit
  | 8 => decR1 .b64 true false .notB64 w lit
  | 9 => decR1 .b64 false false .popcB64 w lit
  | 10 => decR1 .b64 false false .clzB64 w lit
  | 11 => decR1 .b64 false false .ctzB64 w lit
  | 12 => decR1 .b64 true false .brevB64 w lit
  | 13 => decR1 .b64 true false .bswapB64 w lit
  | 14 => decR1 .b32 true false .sextI32 w lit
  | 15 => decR1 .b32 true false .zextN32 w lit
  | _ => undefinedValue
/-- Lane opcode 0x58. -/
def selL58 (w lit : Nat) : Parsed :=
  match fB w with
  | 0 => decR1 .f32 false false .rcpF32 w lit
  | 1 => decR1 .f32 false false .rsqF32 w lit
  | 2 => decR1 .f32 false false .sqrtF32 w lit
  | 3 => decR1 .f32 false false .exp2F32 w lit
  | 4 => decR1 .f32 false false .log2F32 w lit
  | 5 => decR1 .f32 false false .sinpiF32 w lit
  | 6 => decR1 .f32 false false .cospiF32 w lit
  | 7 => decR1 .f32 false false .tanhF32 w lit
  | _ => undefinedValue
/-- Lane opcode 0x5A. -/
def selL5A (w lit : Nat) : Parsed :=
  match fB w with
  | 0 => decR1 .f64 true false .rcpF64 w lit
  | 1 => decR1 .f64 true false .rsqF64 w lit
  | 2 => decR1 .f64 true false .sqrtF64 w lit
  | 3 => decR1 .f64 true false .exp2F64 w lit
  | 4 => decR1 .f64 true false .log2F64 w lit
  | 5 => decR1 .f64 true false .sinpiF64 w lit
  | 6 => decR1 .f64 true false .cospiF64 w lit
  | 7 => decR1 .f64 true false .tanhF64 w lit
  | _ => undefinedValue
/-- Lane opcode 0x61. -/
def selL61 (w _lit : Nat) : Parsed :=
  match fB w with
  | 0 => decCensus .censusMask w
  | 1 => decCensus .censusCount w
  | 2 => decCensus .censusAgree w
  | 3 => decCensus .censusFirst w
  | 4 => decCensus .censusLast w
  | 5 => decCensus .censusRank w
  | _ => undefinedValue
/-- Lane opcode 0x65. Its (value, index) pair is read as 64 bits, also from a special source or a literal, for which the manual gives no
type (log 46). -/
def selL65 (w lit : Nat) : Parsed :=
  match fB w with
  | 0 => decR1 .b64 true false .maxiF32 w lit
  | 1 => decR1 .b64 true false .miniF32 w lit
  | 2 => decR1 .b64 true false .maxiF16 w lit
  | 3 => decR1 .b64 true false .miniF16 w lit
  | 4 => decR1 .b64 true false .maxiBf16 w lit
  | 5 => decR1 .b64 true false .miniBf16 w lit
  | 6 => decR1 .b64 true false .maxiI32 w lit
  | 7 => decR1 .b64 true false .miniI32 w lit
  | 8 => decR1 .b64 true false .maxiN32 w lit
  | 9 => decR1 .b64 true false .miniN32 w lit
  | _ => undefinedValue
/-- Lane opcode 0x6E. -/
def selL6E (w lit : Nat) : Parsed :=
  match fB w / 16 with
  | 0 => decTdrain true .tileDrainF64 w lit
  | 1 => decTdrain false .tileDrainF32 w lit
  | 2 => decTdrain false .tileDrainBf16 w lit
  | _ => undefinedValue
/-- Lane opcode 0x6F. -/
def selL6F (w _lit : Nat) : Parsed :=
  match fB w / 16 with
  | 0 => decTqdrain .mxf8 .tileQdrainMxf8 w
  | 1 => decTqdrain .mxf6 .tileQdrainMxf6 w
  | 2 => decTqdrain .mxf4 .tileQdrainMxf4 w
  | 3 => decTqdrain .mxi8 .tileQdrainMxi8 w
  | _ => undefinedValue
/-- Lane opcode 0x7A. -/
def selL7A (w lit : Nat) : Parsed :=
  match fB w with
  | 0 => decA .b64 false .icall w lit
  | 1 => decZ false .ret w
  | 2 => decZ false .join w
  | 3 => decZ false .conv w
  | 4 => decA .b32 false .emitB32 w lit
  | 5 => decA .b64 false .emitB64 w lit
  | _ => undefinedValue
/-- Uniform opcode 0x2E. -/
noncomputable def selU2E (w lit : Nat) : Parsed :=
  match fB w with
  | 0 => decR1 .f32 false false .srcpF32 w lit
  | 1 => decR1 .f32 false false .srsqF32 w lit
  | 2 => decR1 .f32 false false .ssqrtF32 w lit
  | 3 => decR1 .f32 false false .sexp2F32 w lit
  | 4 => decR1 .f32 false false .slog2F32 w lit
  | 5 => decR1 .f32 false false .ssinpiF32 w lit
  | 6 => decR1 .f32 false false .scospiF32 w lit
  | 7 => decR1 .f32 false false .stanhF32 w lit
  | _ => undefinedValue
/-- Uniform opcode 0x1F: bit's selectors (R95). -/
noncomputable def selSbit (w lit : Nat) : Parsed :=
  match bitOpOf (fB w) with
  | none => undefinedValue
  | some k => decR1 k.ty k.wide false (fun d a => .sbit d a k) w lit
/-- red: the selector is the kind code (R201). -/
def selRed (w lit : Nat) : Parsed :=
  match redKindOf (fB w) with
  | none => undefinedValue
  | some k => decR1 k.ty k.wide false (fun d a => .red d a k) w lit
/-- scan: the kind code, plus 0x80 for the exclusive form (R201). -/
def selScan (w lit : Nat) : Parsed :=
  match redKindOf (fB w % 128) with
  | none => undefinedValue
  | some k => decR1 k.ty k.wide false (fun d a => .scan d a k (fB w / 128 == 1)) w lit

/-! ## The opcode maps (R93, R94) -/

/-- Lane opcodes 0x00 to 0x0F; `none` where unallocated. -/
def laneOps0 (lo w lit : Nat) : Option Parsed :=
  match lo with
  | 0 => some (decR2 .b32 .b32 false true .addB32 w lit)
  | 1 => some (decR2 .b64 .b64 true true .addB64 w lit)
  | 2 => some (decR2 .b32 .b32 false true .subB32 w lit)
  | 3 => some (decR2 .b64 .b64 true true .subB64 w lit)
  | 4 => some (decI1 .b32 false .addiB32 w lit)
  | 5 => some (decI1 .b64 true .addiB64 w lit)
  | 6 => some (decR2 .b32 .b32 false true .mulB32 w lit)
  | 7 => some (decR2 .b64 .b64 true true .mulB64 w lit)
  | 8 => some (decR2 .b32 .b32 false true .mulhiI32 w lit)
  | 9 => some (decR2 .b32 .b32 false true .mulhiN32 w lit)
  | 10 => some (decR2 .b32 .b32 true true .mulwI32 w lit)
  | 11 => some (decR2 .b32 .b32 true true .mulwN32 w lit)
  | 12 => some (decR2 .b32 .b32 false true .divI32 w lit)
  | 13 => some (decR2 .b32 .b32 false true .divN32 w lit)
  | 14 => some (decR2 .b32 .b32 false true .remI32 w lit)
  | 15 => some (decR2 .b32 .b32 false true .remN32 w lit)
  | _ => none
/-- Lane opcodes 0x10 to 0x1F; `none` where unallocated. -/
def laneOps1 (lo w lit : Nat) : Option Parsed :=
  -- lea has no type suffix: its A is read as .b64 (log 46, DESIGN CHOICE)
  match lo with
  | 0 => some (decR2 .b32 .b32 false true .andB32 w lit)
  | 1 => some (decR2 .b32 .b32 false true .orB32 w lit)
  | 2 => some (decR2 .b32 .b32 false true .xorB32 w lit)
  | 3 => some (decR2 .b32 .b32 false false .bfiB32 w lit)
  | 4 => some (decR2 .b64 .b64 true true .andB64 w lit)
  | 5 => some (decR2 .b64 .b64 true true .orB64 w lit)
  | 6 => some (decR2 .b64 .b64 true true .xorB64 w lit)
  | 7 => some (decR2 .b64 .b32 true true .lea w lit)
  | 8 => some (decR2 .b32 .b32 false true .shlB32 w lit)
  | 9 => some (decR2 .b32 .b32 false true .shrN32 w lit)
  | 10 => some (decR2 .b32 .b32 false true .shrI32 w lit)
  | 11 => some (decR2 .b64 .b32 true true .shlB64 w lit)
  | 12 => some (decR2 .b64 .b32 true true .shrN64 w lit)
  | 13 => some (decR2 .i64 .b32 true true .shrI64 w lit)
  | 14 => some (decR2 .b32 .b32 false true .bfxB32 w lit)
  | 15 => some (selBit w lit)
  | _ => none
/-- Lane opcodes 0x20 to 0x2F; `none` where unallocated. -/
def laneOps2 (lo w lit : Nat) : Option Parsed :=
  match lo with
  | 0 => some (decRp .b32 .setpI32 w lit)
  | 1 => some (decRp .b32 .setpN32 w lit)
  | 2 => some (decRp .i64 .setpI64 w lit)
  | 3 => some (decRp .b64 .setpN64 w lit)
  | 4 => some (decR2 .b32 .b32 false true .minN32 w lit)
  | 5 => some (decR2 .b32 .b32 false true .maxN32 w lit)
  | 6 => some (decR2 .b32 .b32 false true .minI32 w lit)
  | 7 => some (decR2 .b32 .b32 false true .maxI32 w lit)
  | 8 => some (decR2 .f32 .f32 false true .faddF32 w lit)
  | 9 => some (decR2 .f32 .f32 false true .fsubF32 w lit)
  | 10 => some (decR2 .f32 .f32 false true .fmulF32 w lit)
  | 11 => some (decR2 .f32 .f32 false false .ffmaF32 w lit)
  | 12 => some (decR2 .f64 .f64 true true .faddF64 w lit)
  | 13 => some (decR2 .f64 .f64 true true .fsubF64 w lit)
  | 14 => some (decR2 .f64 .f64 true true .fmulF64 w lit)
  | 15 => some (decR2 .f64 .f64 true false .ffmaF64 w lit)
  | _ => none
/-- Lane opcodes 0x30 to 0x3F; `none` where unallocated. -/
def laneOps3 (lo w lit : Nat) : Option Parsed :=
  match lo with
  | 0 => some (decR2 .f32 .f32 false true .faddRzF32 w lit)
  | 1 => some (decR2 .f32 .f32 false true .faddRuF32 w lit)
  | 2 => some (decR2 .f32 .f32 false true .faddRdF32 w lit)
  | 3 => some (decR2 .f32 .f32 false true .fmulRzF32 w lit)
  | 4 => some (decR2 .f32 .f32 false false .ffmaRzF32 w lit)
  | 5 => some (decR2 .f32 .f32 false false .ffmaRuF32 w lit)
  | 6 => some (decR2 .f32 .f32 false false .ffmaRdF32 w lit)
  | 7 => some (decR2 .f32 .f32 false false .ffmaSatF32 w lit)
  | 8 => some (decR2 .f16x2 .f16x2 false true .faddF16x2 w lit)
  | 9 => some (decR2 .f16x2 .f16x2 false true .fsubF16x2 w lit)
  | 10 => some (decR2 .f16x2 .f16x2 false true .fmulF16x2 w lit)
  | 11 => some (decR2 .f16x2 .f16x2 false false .ffmaF16x2 w lit)
  | 12 => some (decR2 .bf16x2 .bf16x2 false true .faddBf16x2 w lit)
  | 13 => some (decR2 .bf16x2 .bf16x2 false true .fsubBf16x2 w lit)
  | 14 => some (decR2 .bf16x2 .bf16x2 false true .fmulBf16x2 w lit)
  | 15 => some (decR2 .bf16x2 .bf16x2 false false .ffmaBf16x2 w lit)
  | _ => none
/-- Lane opcodes 0x40 to 0x4F; `none` where unallocated. -/
def laneOps4 (lo w lit : Nat) : Option Parsed :=
  match lo with
  | 0 => some (decR1 .f32 false true .fnegF32 w lit)
  | 1 => some (decR1 .f32 false true .fabsF32 w lit)
  | 2 => some (decR1 .f64 true true .fnegF64 w lit)
  | 3 => some (decR1 .f64 true true .fabsF64 w lit)
  | 4 => some (decR2 .f64 .f64 true true .fminF64 w lit)
  | 5 => some (decR2 .f64 .f64 true true .fmaxF64 w lit)
  | 6 => some (decR2 .f64 .f64 true true .fminnF64 w lit)
  | 7 => some (decR2 .f64 .f64 true true .fmaxnF64 w lit)
  | 8 => some (decRp .f32 .fsetpF32 w lit)
  | 9 => some (decRp .f64 .fsetpF64 w lit)
  | 10 => some (decFclass .f32 .fclassF32 w lit)
  | 11 => some (decFclass .f64 .fclassF64 w lit)
  | 12 => some (decR2 .f32 .f32 false true .fminF32 w lit)
  | 13 => some (decR2 .f32 .f32 false true .fmaxF32 w lit)
  | 14 => some (decR2 .f32 .f32 false true .fminnF32 w lit)
  | 15 => some (decR2 .f32 .f32 false true .fmaxnF32 w lit)
  | _ => none
/-- Lane opcodes 0x50 to 0x5F; `none` where unallocated. -/
def laneOps5 (lo w lit : Nat) : Option Parsed :=
  match lo with
  | 0 => some (decCvt .f32 (fun d a s rm sat _ => .cvtF32 d a s rm sat) w lit)
  | 1 => some (decCvt .f64 (fun d a s rm sat _ => .cvtF64 d a s rm sat) w lit)
  | 2 => some (decCvt .h16 .cvtH16 w lit)
  | 3 => some (decCvt .f8 .cvtF8 w lit)
  | 4 => some (decCvt .i32 (fun d a s rm sat _ => .cvtI32 d a s rm sat) w lit)
  | 5 => some (decCvt .n32 (fun d a s rm sat _ => .cvtN32 d a s rm sat) w lit)
  | 6 => some (decCvt .i64 (fun d a s rm sat _ => .cvtI64 d a s rm sat) w lit)
  | 7 => some (decCvt .n64 (fun d a s rm sat _ => .cvtN64 d a s rm sat) w lit)
  | 8 => some (selL58 w lit)
  | 9 => some (decR2 .f32 .f32 false true .divF32 w lit)
  | 10 => some (selL5A w lit)
  | 11 => some (decR2 .f64 .f64 true true .divF64 w lit)
  | 12 => some (decR1 .b64 false true .rand w lit)
  | 13 => some (decR2 .f32x2 .f32x2 true false .ffmaF32x2 w lit)
  | _ => none
/-- Lane opcodes 0x60 to 0x6F; `none` where unallocated. -/
def laneOps6 (lo w lit : Nat) : Option Parsed :=
  match lo with
  | 0 => some (decR2 .b32 .b32 false true .shfl w lit)
  | 1 => some (selL61 w lit)
  | 2 => some (decR2 .b32 .b32 false true .matchKeys w lit)
  | 3 => some (selRed w lit)
  | 4 => some (selScan w lit)
  | 5 => some (selL65 w lit)
  | 6 => some (decR2 .b64 .b32 true true .selk w lit)
  | 7 => some (decR2 .b32 .b32 false true .isect w lit)
  | 8 => some (decMma false .mma w)
  | 9 => some (decMma true .mmaSp w)
  | 10 => some (decA .b32 true .tileAlloc w lit)
  | 11 => some (decZ true .tileFree w)
  | 12 => some (decTzero .tileZero w)
  | 13 => some (decTfill .tileFill w lit)
  | 14 => some (selL6E w lit)
  | 15 => some (selL6F w lit)
  | _ => none
/-- Lane opcodes 0x70 to 0x7F; `none` where unallocated. -/
def laneOps7 (lo w lit : Nat) : Option Parsed :=
  match lo with
  | 0 => some (decLd .ld .ldOrdered w lit)
  | 1 => some (decSt .st .stOrdered w lit)
  | 2 => some (decX .ldx w lit)
  | 3 => some (decX .stx w lit)
  | 4 => some (decAtom false .atom w lit)
  | 5 => some (decSts .sts w lit)
  | 6 => some (decLda .lda w lit)
  | 7 => some (decFetch .fetch .gather w lit)
  | 8 => some (decB .br w)
  | 9 => some (decB .call w)
  | 10 => some (selL7A w lit)
  | 11 => some (decDA .b32 1 .fork w lit)
  | 12 => some (decPlop .plop w)
  | 14 => some (decGuard .guardPrefix w)
  | _ => none
/-- Uniform opcodes 0x00 to 0x0F; `none` where unallocated. -/
noncomputable def uniOps0 (lo w lit : Nat) : Option Parsed :=
  match lo with
  | 0 => some (decR2 .b32 .b32 false true .saddB32 w lit)
  | 1 => some (decR2 .b64 .b64 true true .saddB64 w lit)
  | 2 => some (decR2 .b32 .b32 false true .ssubB32 w lit)
  | 3 => some (decR2 .b64 .b64 true true .ssubB64 w lit)
  | 4 => some (decI1 .b32 false .saddiB32 w lit)
  | 5 => some (decI1 .b64 true .saddiB64 w lit)
  | 6 => some (decR2 .b32 .b32 false true .smulB32 w lit)
  | 7 => some (decR2 .b64 .b64 true true .smulB64 w lit)
  | 8 => some (decR2 .b32 .b32 false true .smulhiI32 w lit)
  | 9 => some (decR2 .b32 .b32 false true .smulhiN32 w lit)
  | 10 => some (decR2 .b32 .b32 true true .smulwI32 w lit)
  | 11 => some (decR2 .b32 .b32 true true .smulwN32 w lit)
  | 12 => some (decR2 .b32 .b32 false true .sdivI32 w lit)
  | 13 => some (decR2 .b32 .b32 false true .sdivN32 w lit)
  | 14 => some (decR2 .b32 .b32 false true .sremI32 w lit)
  | 15 => some (decR2 .b32 .b32 false true .sremN32 w lit)
  | _ => none
/-- Uniform opcodes 0x10 to 0x1F; `none` where unallocated. -/
noncomputable def uniOps1 (lo w lit : Nat) : Option Parsed :=
  match lo with
  | 0 => some (decR2 .b32 .b32 false true .sandB32 w lit)
  | 1 => some (decR2 .b32 .b32 false true .sorB32 w lit)
  | 2 => some (decR2 .b32 .b32 false true .sxorB32 w lit)
  | 3 => some (decR2 .b32 .b32 false false .sbfiB32 w lit)
  | 4 => some (decR2 .b64 .b64 true true .sandB64 w lit)
  | 5 => some (decR2 .b64 .b64 true true .sorB64 w lit)
  | 6 => some (decR2 .b64 .b64 true true .sxorB64 w lit)
  | 7 => some (decR2 .b64 .b32 true true .slea w lit)
  | 8 => some (decRp .b32 .ssetpI32 w lit)
  | 9 => some (decRp .b32 .ssetpN32 w lit)
  | 10 => some (decRp .i64 .ssetpI64 w lit)
  | 11 => some (decRp .b64 .ssetpN64 w lit)
  | 12 => some (decR2 .b32 .b32 false true .sshlB32 w lit)
  | 13 => some (decR2 .b32 .b32 false true .sshrN32 w lit)
  | 14 => some (decR2 .b32 .b32 false true .sshrI32 w lit)
  | 15 => some (selSbit w lit)
  | _ => none
/-- Uniform opcodes 0x20 to 0x2F; `none` where unallocated. -/
noncomputable def uniOps2 (lo w lit : Nat) : Option Parsed :=
  match lo with
  | 0 => some (decR2 .f32 .f32 false true .sfaddF32 w lit)
  | 1 => some (decR2 .f32 .f32 false true .sfsubF32 w lit)
  | 2 => some (decR2 .f32 .f32 false true .sfmulF32 w lit)
  | 3 => some (decR2 .f32 .f32 false false .sffmaF32 w lit)
  | 4 => some (decR2 .f64 .f64 true true .sfaddF64 w lit)
  | 5 => some (decR2 .f64 .f64 true true .sfsubF64 w lit)
  | 6 => some (decR2 .f64 .f64 true true .sfmulF64 w lit)
  | 7 => some (decR2 .f64 .f64 true false .sffmaF64 w lit)
  | 8 => some (decRp .f32 .sfsetpF32 w lit)
  | 9 => some (decRp .f64 .sfsetpF64 w lit)
  | 10 => some (decCvt .f32 (fun d a s rm sat _ => .scvtF32 d a s rm sat) w lit)
  | 11 => some (decCvt .i32 (fun d a s rm sat _ => .scvtI32 d a s rm sat) w lit)
  | 12 => some (decR2 .f32 .f32 false true .sfminF32 w lit)
  | 13 => some (decR2 .f32 .f32 false true .sfmaxF32 w lit)
  | 14 => some (selU2E w lit)
  | 15 => some (decR2 .f32 .f32 false true .sfdivF32 w lit)
  | _ => none
/-- Uniform opcodes 0x30 to 0x3F; `none` where unallocated. -/
noncomputable def uniOps3 (lo w lit : Nat) : Option Parsed :=
  match lo with
  | 0 => some (decLd (fun k d a o => .sld (.plain k o) d a) (fun o d a => .sld (.ordered o) d a) w lit)
  | 1 => some (decSt (fun k d a o => .sst (.plain k o) d a) (fun o d a => .sst (.ordered o) d a) w lit)
  | 2 => some (decX .sldx w lit)
  | 3 => some (decX .sstx w lit)
  | 4 => some (decAtom true .satom w lit)
  | 5 => some (decScas .scas w lit)
  | 8 => some (decFence .fence w)
  | 9 => some (decDAB .b32 .b32 .barArrive w lit)
  | 10 => some (decAB .b32 .b32 .barWait w lit)
  | 11 => some (decMon .mon w lit)
  | 12 => some (decDA .b32 1 .mwait w lit)
  | 13 => some (decZ true .commitw w)
  | 14 => some (decA .b32 true .sleep w lit)
  | _ => none
/-- Uniform opcodes 0x40 to 0x4F; `none` where unallocated. -/
noncomputable def uniOps4 (lo w lit : Nat) : Option Parsed :=
  match lo with
  | 0 => some (decBcopy 2 .bcopy w lit)
  | 1 => some (decBcopy 4 .bcopySt w lit)
  | 2 => some (decAB .b32 .b32 .ringInit w lit)
  | 3 => some (decDA .b32 2 .ringTake w lit)
  | 4 => some (decA .b32 true .ringGive w lit)
  | 5 => some (decDA .b32 1 .ringWait w lit)
  | 6 => some (decTlRead .tlRead w lit)
  | 7 => some (decAB .b32 .b64 .tlWait w lit)
  | 8 => some (decDA .b64 2 .coll w lit)
  | 9 => some (decHold .ckptHold w)
  | 10 => some (decRelease .ckptRelease w lit)
  | _ => none
/-- Uniform opcodes 0x50 to 0x5F; `none` where unallocated. -/
noncomputable def uniOps5 (lo w lit : Nat) : Option Parsed :=
  match lo with
  | 0 => some (decSpawn .spawn w lit)
  | 1 => some (decD 2 .chunk w)
  | 2 => some (decRepack .repack w)
  | 3 => some (decDA .b64 1 .slice w lit)
  | 4 => some (decDA .b32 1 .depdec w lit)
  | 5 => some (decA .b64 true .yield w lit)
  | 8 => some (decD 4 .clkiv w)
  | 9 => some (decVshape .vshape w)
  | 10 => some (decDA .b32 2 .capq w lit)
  | 11 => some (decSget .sget w)
  | 12 => some (decSset .sset w lit)
  | 13 => some (decImm .trap w)
  | 14 => some (decZ true .rett w)
  | 15 => some (decImm .bkpt w)
  | _ => none
/-- The instruction word `w`; `none` where its opcode is unallocated (step 1 of R96). -/
noncomputable def decodeWord (w lit : Nat) : Option Parsed :=
  match fld w 28 4 with
  | 0 => laneOps0 (fld w 24 4) w lit
  | 1 => laneOps1 (fld w 24 4) w lit
  | 2 => laneOps2 (fld w 24 4) w lit
  | 3 => laneOps3 (fld w 24 4) w lit
  | 4 => laneOps4 (fld w 24 4) w lit
  | 5 => laneOps5 (fld w 24 4) w lit
  | 6 => laneOps6 (fld w 24 4) w lit
  | 7 => laneOps7 (fld w 24 4) w lit
  | 8 => uniOps0 (fld w 24 4) w lit
  | 9 => uniOps1 (fld w 24 4) w lit
  | 10 => uniOps2 (fld w 24 4) w lit
  | 11 => uniOps3 (fld w 24 4) w lit
  | 12 => uniOps4 (fld w 24 4) w lit
  | 13 => uniOps5 (fld w 24 4) w lit
  | _ => none

/-! ## Units (R78, R92, R96) -/

/-- A decoded unit: the guard prefix if it has one, the instruction, and its length in words. -/
structure DecUnit where
  guard : Option (PredSel × Bool)
  instr : Instr
  words : Nat
deriving DecidableEq, Repr

/-- A word that is a guard prefix (R92). -/
def isPrefix (w : Nat) : Bool := fld w 24 8 == 0x7E
/-- A B-format word: br or call (R84). -/
def isBFormat (w : Nat) : Bool := fld w 24 8 == 0x78 || fld w 24 8 == 0x79

/-- The literal words an instruction takes: 1 when one of its operands is the literal. -/
def takesLiteral : Instr → Bool
  | .addB32 _ a b => a.isLit || b.isLit
  | .addB64 _ a b => a.isLit || b.isLit
  | .subB32 _ a b => a.isLit || b.isLit
  | .subB64 _ a b => a.isLit || b.isLit
  | .addiB32 _ a _ => a.isLit
  | .addiB64 _ a _ => a.isLit
  | .mulB32 _ a b => a.isLit || b.isLit
  | .mulB64 _ a b => a.isLit || b.isLit
  | .mulhiI32 _ a b => a.isLit || b.isLit
  | .mulhiN32 _ a b => a.isLit || b.isLit
  | .mulwI32 _ a b => a.isLit || b.isLit
  | .mulwN32 _ a b => a.isLit || b.isLit
  | .divI32 _ a b => a.isLit || b.isLit
  | .divN32 _ a b => a.isLit || b.isLit
  | .remI32 _ a b => a.isLit || b.isLit
  | .remN32 _ a b => a.isLit || b.isLit
  | .andB32 _ a b => a.isLit || b.isLit
  | .orB32 _ a b => a.isLit || b.isLit
  | .xorB32 _ a b => a.isLit || b.isLit
  | .bfiB32 _ a b => a.isLit || b.isLit
  | .andB64 _ a b => a.isLit || b.isLit
  | .orB64 _ a b => a.isLit || b.isLit
  | .xorB64 _ a b => a.isLit || b.isLit
  | .lea _ a b => a.isLit || b.isLit
  | .shlB32 _ a b => a.isLit || b.isLit
  | .shrN32 _ a b => a.isLit || b.isLit
  | .shrI32 _ a b => a.isLit || b.isLit
  | .shlB64 _ a b => a.isLit || b.isLit
  | .shrN64 _ a b => a.isLit || b.isLit
  | .shrI64 _ a b => a.isLit || b.isLit
  | .bfxB32 _ a b => a.isLit || b.isLit
  | .notB32 _ a => a.isLit
  | .popcB32 _ a => a.isLit
  | .clzB32 _ a => a.isLit
  | .ctzB32 _ a => a.isLit
  | .brevB32 _ a => a.isLit
  | .bswapB32 _ a => a.isLit
  | .sextI8 _ a => a.isLit
  | .sextI16 _ a => a.isLit
  | .notB64 _ a => a.isLit
  | .popcB64 _ a => a.isLit
  | .clzB64 _ a => a.isLit
  | .ctzB64 _ a => a.isLit
  | .brevB64 _ a => a.isLit
  | .bswapB64 _ a => a.isLit
  | .sextI32 _ a => a.isLit
  | .zextN32 _ a => a.isLit
  | .setpI32 _ _ a b => a.isLit || b.isLit
  | .setpN32 _ _ a b => a.isLit || b.isLit
  | .setpI64 _ _ a b => a.isLit || b.isLit
  | .setpN64 _ _ a b => a.isLit || b.isLit
  | .minN32 _ a b => a.isLit || b.isLit
  | .maxN32 _ a b => a.isLit || b.isLit
  | .minI32 _ a b => a.isLit || b.isLit
  | .maxI32 _ a b => a.isLit || b.isLit
  | .faddF32 _ a b => a.isLit || b.isLit
  | .fsubF32 _ a b => a.isLit || b.isLit
  | .fmulF32 _ a b => a.isLit || b.isLit
  | .ffmaF32 _ a b => a.isLit || b.isLit
  | .faddF64 _ a b => a.isLit || b.isLit
  | .fsubF64 _ a b => a.isLit || b.isLit
  | .fmulF64 _ a b => a.isLit || b.isLit
  | .ffmaF64 _ a b => a.isLit || b.isLit
  | .faddRzF32 _ a b => a.isLit || b.isLit
  | .faddRuF32 _ a b => a.isLit || b.isLit
  | .faddRdF32 _ a b => a.isLit || b.isLit
  | .fmulRzF32 _ a b => a.isLit || b.isLit
  | .ffmaRzF32 _ a b => a.isLit || b.isLit
  | .ffmaRuF32 _ a b => a.isLit || b.isLit
  | .ffmaRdF32 _ a b => a.isLit || b.isLit
  | .ffmaSatF32 _ a b => a.isLit || b.isLit
  | .faddF16x2 _ a b => a.isLit || b.isLit
  | .fsubF16x2 _ a b => a.isLit || b.isLit
  | .fmulF16x2 _ a b => a.isLit || b.isLit
  | .ffmaF16x2 _ a b => a.isLit || b.isLit
  | .faddBf16x2 _ a b => a.isLit || b.isLit
  | .fsubBf16x2 _ a b => a.isLit || b.isLit
  | .fmulBf16x2 _ a b => a.isLit || b.isLit
  | .ffmaBf16x2 _ a b => a.isLit || b.isLit
  | .fnegF32 _ a => a.isLit
  | .fabsF32 _ a => a.isLit
  | .fnegF64 _ a => a.isLit
  | .fabsF64 _ a => a.isLit
  | .fminF64 _ a b => a.isLit || b.isLit
  | .fmaxF64 _ a b => a.isLit || b.isLit
  | .fminnF64 _ a b => a.isLit || b.isLit
  | .fmaxnF64 _ a b => a.isLit || b.isLit
  | .fsetpF32 _ _ a b => a.isLit || b.isLit
  | .fsetpF64 _ _ a b => a.isLit || b.isLit
  | .fclassF32 _ _ a _ => a.isLit
  | .fclassF64 _ _ a _ => a.isLit
  | .fminF32 _ a b => a.isLit || b.isLit
  | .fmaxF32 _ a b => a.isLit || b.isLit
  | .fminnF32 _ a b => a.isLit || b.isLit
  | .fmaxnF32 _ a b => a.isLit || b.isLit
  | .cvtF32 _ a _ _ _ => a.isLit
  | .cvtF64 _ a _ _ _ => a.isLit
  | .cvtH16 _ a _ _ _ _ => a.isLit
  | .cvtF8 _ a _ _ _ _ => a.isLit
  | .cvtI32 _ a _ _ _ => a.isLit
  | .cvtN32 _ a _ _ _ => a.isLit
  | .cvtI64 _ a _ _ _ => a.isLit
  | .cvtN64 _ a _ _ _ => a.isLit
  | .rcpF32 _ a => a.isLit
  | .rsqF32 _ a => a.isLit
  | .sqrtF32 _ a => a.isLit
  | .exp2F32 _ a => a.isLit
  | .log2F32 _ a => a.isLit
  | .sinpiF32 _ a => a.isLit
  | .cospiF32 _ a => a.isLit
  | .tanhF32 _ a => a.isLit
  | .divF32 _ a b => a.isLit || b.isLit
  | .rcpF64 _ a => a.isLit
  | .rsqF64 _ a => a.isLit
  | .sqrtF64 _ a => a.isLit
  | .exp2F64 _ a => a.isLit
  | .log2F64 _ a => a.isLit
  | .sinpiF64 _ a => a.isLit
  | .cospiF64 _ a => a.isLit
  | .tanhF64 _ a => a.isLit
  | .divF64 _ a b => a.isLit || b.isLit
  | .rand _ a => a.isLit
  | .ffmaF32x2 _ a b => a.isLit || b.isLit
  | .shfl _ a b => a.isLit || b.isLit
  | .censusMask _ _ => false
  | .censusCount _ _ => false
  | .censusAgree _ _ => false
  | .censusFirst _ _ => false
  | .censusLast _ _ => false
  | .censusRank _ _ => false
  | .matchKeys _ a b => a.isLit || b.isLit
  | .red _ a _ => a.isLit
  | .scan _ a _ _ => a.isLit
  | .maxiF32 _ a => a.isLit
  | .miniF32 _ a => a.isLit
  | .maxiF16 _ a => a.isLit
  | .miniF16 _ a => a.isLit
  | .maxiBf16 _ a => a.isLit
  | .miniBf16 _ a => a.isLit
  | .maxiI32 _ a => a.isLit
  | .miniI32 _ a => a.isLit
  | .maxiN32 _ a => a.isLit
  | .miniN32 _ a => a.isLit
  | .selk _ a b => a.isLit || b.isLit
  | .isect _ a b => a.isLit || b.isLit
  | .mma _ _ _ _ _ _ => false
  | .mmaSp _ _ _ _ _ _ => false
  | .tileAlloc a => a.isLit
  | .tileFree => false
  | .tileZero _ => false
  | .tileFill _ _ _ _ col => col.isLit
  | .tileDrainF64 _ _ col => col.isLit
  | .tileDrainF32 _ _ col => col.isLit
  | .tileDrainBf16 _ _ col => col.isLit
  | .tileQdrainMxf8 _ _ _ => false
  | .tileQdrainMxf6 _ _ _ => false
  | .tileQdrainMxf4 _ _ _ => false
  | .tileQdrainMxi8 _ _ _ => false
  | .ld _ _ a _ => a.isLit
  | .ldOrdered _ _ a => a.isLit
  | .st _ _ a _ => a.isLit
  | .stOrdered _ _ a => a.isLit
  | .ldx _ _ _ a _ => a.isLit
  | .stx _ _ _ a _ => a.isLit
  | .atom _ _ _ a => a.isLit
  | .sts _ _ a _ => a.isLit
  | .lda _ _ a _ => a.isLit
  | .fetch _ _ a _ => a.isLit
  | .gather _ _ a _ => a.isLit
  | .br _ _ _ => false
  | .call _ _ _ => false
  | .icall a => a.isLit
  | .ret => false
  | .join => false
  | .conv => false
  | .emitB32 a => a.isLit
  | .emitB64 a => a.isLit
  | .fork _ a => a.isLit
  | .plop _ _ _ _ _ => false
  | .guardPrefix _ _ => false
  | .saddB32 _ a b => a.isLit || b.isLit
  | .saddB64 _ a b => a.isLit || b.isLit
  | .ssubB32 _ a b => a.isLit || b.isLit
  | .ssubB64 _ a b => a.isLit || b.isLit
  | .saddiB32 _ a _ => a.isLit
  | .saddiB64 _ a _ => a.isLit
  | .smulB32 _ a b => a.isLit || b.isLit
  | .smulB64 _ a b => a.isLit || b.isLit
  | .smulhiI32 _ a b => a.isLit || b.isLit
  | .smulhiN32 _ a b => a.isLit || b.isLit
  | .smulwI32 _ a b => a.isLit || b.isLit
  | .smulwN32 _ a b => a.isLit || b.isLit
  | .sdivI32 _ a b => a.isLit || b.isLit
  | .sdivN32 _ a b => a.isLit || b.isLit
  | .sremI32 _ a b => a.isLit || b.isLit
  | .sremN32 _ a b => a.isLit || b.isLit
  | .sandB32 _ a b => a.isLit || b.isLit
  | .sorB32 _ a b => a.isLit || b.isLit
  | .sxorB32 _ a b => a.isLit || b.isLit
  | .sbfiB32 _ a b => a.isLit || b.isLit
  | .sandB64 _ a b => a.isLit || b.isLit
  | .sorB64 _ a b => a.isLit || b.isLit
  | .sxorB64 _ a b => a.isLit || b.isLit
  | .slea _ a b => a.isLit || b.isLit
  | .ssetpI32 _ _ a b => a.isLit || b.isLit
  | .ssetpN32 _ _ a b => a.isLit || b.isLit
  | .ssetpI64 _ _ a b => a.isLit || b.isLit
  | .ssetpN64 _ _ a b => a.isLit || b.isLit
  | .sshlB32 _ a b => a.isLit || b.isLit
  | .sshrN32 _ a b => a.isLit || b.isLit
  | .sshrI32 _ a b => a.isLit || b.isLit
  | .sbit _ a _ => a.isLit
  | .sfaddF32 _ a b => a.isLit || b.isLit
  | .sfsubF32 _ a b => a.isLit || b.isLit
  | .sfmulF32 _ a b => a.isLit || b.isLit
  | .sffmaF32 _ a b => a.isLit || b.isLit
  | .sfaddF64 _ a b => a.isLit || b.isLit
  | .sfsubF64 _ a b => a.isLit || b.isLit
  | .sfmulF64 _ a b => a.isLit || b.isLit
  | .sffmaF64 _ a b => a.isLit || b.isLit
  | .sfsetpF32 _ _ a b => a.isLit || b.isLit
  | .sfsetpF64 _ _ a b => a.isLit || b.isLit
  | .scvtF32 _ a _ _ _ => a.isLit
  | .scvtI32 _ a _ _ _ => a.isLit
  | .sfminF32 _ a b => a.isLit || b.isLit
  | .sfmaxF32 _ a b => a.isLit || b.isLit
  | .srcpF32 _ a => a.isLit
  | .srsqF32 _ a => a.isLit
  | .ssqrtF32 _ a => a.isLit
  | .sexp2F32 _ a => a.isLit
  | .slog2F32 _ a => a.isLit
  | .ssinpiF32 _ a => a.isLit
  | .scospiF32 _ a => a.isLit
  | .stanhF32 _ a => a.isLit
  | .sfdivF32 _ a b => a.isLit || b.isLit
  | .sld _ _ a => a.isLit
  | .sst _ _ a => a.isLit
  | .sldx _ _ _ a _ => a.isLit
  | .sstx _ _ _ a _ => a.isLit
  | .satom _ _ _ a => a.isLit
  | .scas _ _ _ a => a.isLit
  | .fence _ _ => false
  | .barArrive _ a b => a.isLit || b.isLit
  | .barWait a b => a.isLit || b.isLit
  | .mon a => a.isLit
  | .mwait _ a => a.isLit
  | .commitw => false
  | .sleep a => a.isLit
  | .bcopy _ _ _ b => b.isLit
  | .bcopySt _ _ _ b => b.isLit
  | .ringInit a b => a.isLit || b.isLit
  | .ringTake _ a => a.isLit
  | .ringGive a => a.isLit
  | .ringWait _ a => a.isLit
  | .tlRead _ a => a.isLit
  | .tlWait a b => a.isLit || b.isLit
  | .coll _ a => a.isLit
  | .ckptHold _ _ => false
  | .ckptRelease a _ => a.isLit
  | .spawn _ a _ _ => a.isLit
  | .chunk _ => false
  | .repack _ => false
  | .slice _ a => a.isLit
  | .depdec _ a => a.isLit
  | .yield a => a.isLit
  | .clkiv _ => false
  | .vshape _ _ => false
  | .capq _ a => a.isLit
  | .sget _ _ => false
  | .sset _ b => b.isLit
  | .trap _ => false
  | .rett => false
  | .bkpt _ => false
  | .loadComplete _ => false
  | .writeBackPerformed _ _ => false
  | .stampedStoreVisible _ => false
  | .visibilityReport _ => false
  | .watermarkRefresh _ _ => false
  | .passAcceptance _ => false
  | .passApplied _ => false
  | .tilePoolGrant _ => false
  | .engineCommandStart _ _ => false
  | .engineCommandComplete _ _ _ => false
  | .collectiveContribution _ _ => false
  | .openGroupStart _ _ => false
  | .spawnTimerExpiry _ _ => false
  | .convTimeout _ _ => false
  | .sleepExpiry _ => false
  | .mwaitTimeout _ => false
  | .waitSentinel _ => false
  | .budget _ => false
  | .teamPlacement _ => false
  | .teamSave _ => false
  | .reset => false
  | .fullServiceStart => false
  | .powerTemperatureLimit => false
  | .patrolScrub _ _ _ => false
  | .linkTimeExchange _ _ _ => false
  | .linkTimeMessage _ _ => false
  | .flitReceived _ _ _ => false
  | .remoteAccessRequest _ => false
  | .linkPlaneFailure _ => false
  | .diePortFailure _ _ => false
  | .dieLost _ => false
  | .dieSetExit _ => false
  | .deviceUnreachable _ => false
  | .partcfgRead _ _ => false
  | .partcfgWrite _ _ => false
  | .submit _ _ => false
  | .submitResume _ _ => false
  | .inval _ _ => false
  | .resume _ _ => false
  | .kill _ _ => false
  | .holdclr _ _ => false
  | .attest _ _ => false
  | .state _ _ => false
  | .stateSave _ _ => false
  | .unknownCommand _ _ => false
  | .overrun _ _ => false
  | .mailboxCommandComplete _ => false
  | .vendorDefinedMessage _ _ _ _ => false
  | .hostBar2Write _ _ _ => false
  | .hostBar2Read _ _ _ => false
  | .classCounterWrite _ _ _ => false
  | .registerWrite _ _ _ _ => false
  | .faultRecordPost _ => false
  | .eventRecordPost _ _ => false
  | .etimeExpiry _ _ => false
  | .unallocatedEncoding _ => false
  | .fetchFault _ _ => false
  | .stampedStoreHeldPending _ => false

/-- The first step of R96 that fails. -/
def Chk.fails (c : Chk) : Option DecStep :=
  if !c.s2 then some .value
  else if !c.s3 then some .operand
  else if !c.s4 then some .reserved
  else if !c.s5 then some .pair
  else none

/-- Both sets of checks, step by step. -/
def Chk.both (c d : Chk) : Chk := ⟨c.s2 && d.s2, c.s3 && d.s3, c.s4 && d.s4, c.s5 && d.s5⟩

/-- The words a unit occupies, seen from its words alone (R78): a prefix is one, the instruction one, a literal one. A word that fails step 2
takes a literal only where its operand fields are of a known form (log 46, DESIGN CHOICE). -/
noncomputable def unitWords (w0 w1 : Nat) : Nat :=
  let body (w : Nat) : Nat :=
    match decodeWord w 0 with
    | some p => if takesLiteral p.instr then 2 else 1
    | none => 1
  if isPrefix w0 then (if isPrefix w1 then 2 else 1 + body w1) else body w0

/-- Decodes the unit whose first three words are `w0`, `w1` and `w2`, or names the failing step (R96). -/
noncomputable def decodeUnit (w0 w1 w2 : Nat) : Except DecStep DecUnit :=
  if isPrefix w0 then
    if isPrefix w1 || isBFormat w1 then .error .opcode
    else
      match decodeWord w1 w2 with
      | none => .error .opcode
      | some p =>
        match ((decGuard .guardPrefix w0).chk.both p.chk).fails with
        | some e => .error e
        | none => .ok ⟨some (predOf (fbP w0), fbG w0 == 1), p.instr, unitWords w0 w1⟩
  else
    match decodeWord w0 w1 with
    | none => .error .opcode
    | some p =>
      match p.chk.fails with
      | some e => .error e
      | none => .ok ⟨none, p.instr, unitWords w0 w1⟩

/-! ## The encoder -/

/-- R format (R80): `op` is S and OP, bits [31:24]. -/
def wordR (op n d a b l : Nat) : W32 :=
  BitVec.ofNat 32 (op * 2 ^ 24 + n * 2 ^ 23 + d * 2 ^ 17 + a * 2 ^ 9 + b * 2 + l)
/-- I format (R80). -/
def wordI (op n d a imm : Nat) : W32 := BitVec.ofNat 32 (op * 2 ^ 24 + n * 2 ^ 23 + d * 2 ^ 17 + a * 2 ^ 9 + imm)
/-- M format (R80). -/
def wordM (op f d a o : Nat) : W32 := BitVec.ofNat 32 (op * 2 ^ 24 + f * 2 ^ 20 + d * 2 ^ 14 + a * 2 ^ 6 + o)
/-- B format (R80). -/
def wordB (op p g o : Nat) : W32 := BitVec.ofNat 32 (op * 2 ^ 24 + p * 2 ^ 20 + g * 2 ^ 19 + o)

/-- The special index of R88. -/
def Special.index : Special → Nat
  | .int n => n.val | .fpc k => 32 + k.val | .lane => 48 | .tid => 49 | .course => 50 | .team => 51 | .negZero => 62
/-- The operand field of R87. -/
def Src.code : Src → Nat
  | .reg n last => last.toNat * 64 + n.val
  | .opf n => 128 + n.val
  | .latch n => 144 + n.val
  | .special s => 192 + s.index
  | .lit _ => 255
/-- The literal word an operand brings (R90). -/
def Src.literal : Src → List W32
  | .lit w => [w]
  | .reg _ _ | .opf _ | .latch _ | .special _ => []
/-- N of a destination (R71). -/
def Dst.n : Dst → Nat | .sup => 1 | .reg _ | .opf _ => 0
/-- D of a destination. -/
def Dst.field : Dst → Nat | .reg n => n.val | .opf n => n.val | .sup => 0
/-- DL of a destination (R81). -/
def Dst.l : Dst → Nat | .opf _ => 1 | .reg _ | .sup => 0
/-- F and OFF6 of an ordered access (R273, R274). -/
def OrdAcc.code (o : OrdAcc) : Nat := 12 + o.w64.toNat
def OrdAcc.off (o : OrdAcc) (own : Order) : Nat := scopeCode o.scope * 8 + (if o.sc then 4 else orderCode own)
/-- OFF6 of an atomic (R282). -/
def AtomPlace.code : AtomPlace → Nat
  | .dev s o => scopeCode s * 8 + orderCode o
  | .level .spad => 5
  | .level .clm => 6
  | .level .chip => 7
/-- The A field of vshape (R208). -/
def VsRef.code : VsRef → Nat | .reg n => n.val | .opf n => 128 + n.val | .latch n => 144 + n.val

def encR2 (op : Nat) (d : Dst) (a b : Src) : List W32 :=
  wordR op d.n d.field a.code b.code d.l :: (a.literal ++ b.literal)
def encR1 (op sel : Nat) (d : Dst) (a : Src) : List W32 := wordR op d.n d.field a.code sel d.l :: a.literal
def encI1 (op : Nat) (d : Dst) (a : Src) (imm : BitVec 9) : List W32 := wordI op d.n d.field a.code imm.toNat :: a.literal
def encRp (op : Nat) (c : Cond) (p : Fin 12) (a b : Src) : List W32 :=
  wordR op 0 (condCode c * 16 + p.val) a.code b.code 0 :: (a.literal ++ b.literal)
def encFclass (op : Nat) (u : ClassUse) (p : Fin 12) (a : Src) (m : BitVec 7) : List W32 :=
  wordR op 0 (classUseCode u * 16 + p.val) a.code m.toNat 0 :: a.literal
def encCvt (op : Nat) (d : Dst) (a : Src) (s : CvtSrc) (rm : Round) (sat x : Bool) : List W32 :=
  encR1 op (cvtSrcCode s * 16 + roundCode rm * 4 + sat.toNat * 2 + x.toNat) d a
def encA (op sel : Nat) (a : Src) : List W32 := wordR op 0 0 a.code sel 0 :: a.literal
def encM (op f : Nat) (d : Fin 64) (a : Src) (o : Nat) : List W32 := wordM op f d.val a.code o :: a.literal
def encLdMode (op : Nat) (m : LdMode) (d : Fin 64) (a : Src) : List W32 :=
  match m with
  | .plain k off => encM op (ldKindCode k) d a off.toNat
  | .ordered o => encM op o.code d a (o.off .acq)
def encStMode (op : Nat) (m : StMode) (d : Fin 64) (a : Src) : List W32 :=
  match m with
  | .plain k off => encM op (stKindCode k) d a off.toNat
  | .ordered o => encM op o.code d a (o.off .rel)

/-- The words of an instruction: its instruction word, and its literal if it has one. An event has no word. -/
def encode : Instr → List W32
  | .addB32 d a b => encR2 0x0 d a b
  | .addB64 d a b => encR2 0x1 d a b
  | .subB32 d a b => encR2 0x2 d a b
  | .subB64 d a b => encR2 0x3 d a b
  | .addiB32 d a imm => encI1 0x4 d a imm
  | .addiB64 d a imm => encI1 0x5 d a imm
  | .mulB32 d a b => encR2 0x6 d a b
  | .mulB64 d a b => encR2 0x7 d a b
  | .mulhiI32 d a b => encR2 0x8 d a b
  | .mulhiN32 d a b => encR2 0x9 d a b
  | .mulwI32 d a b => encR2 0xa d a b
  | .mulwN32 d a b => encR2 0xb d a b
  | .divI32 d a b => encR2 0xc d a b
  | .divN32 d a b => encR2 0xd d a b
  | .remI32 d a b => encR2 0xe d a b
  | .remN32 d a b => encR2 0xf d a b
  | .andB32 d a b => encR2 0x10 d a b
  | .orB32 d a b => encR2 0x11 d a b
  | .xorB32 d a b => encR2 0x12 d a b
  | .bfiB32 d a b => encR2 0x13 d a b
  | .andB64 d a b => encR2 0x14 d a b
  | .orB64 d a b => encR2 0x15 d a b
  | .xorB64 d a b => encR2 0x16 d a b
  | .lea d a b => encR2 0x17 d a b
  | .shlB32 d a b => encR2 0x18 d a b
  | .shrN32 d a b => encR2 0x19 d a b
  | .shrI32 d a b => encR2 0x1a d a b
  | .shlB64 d a b => encR2 0x1b d a b
  | .shrN64 d a b => encR2 0x1c d a b
  | .shrI64 d a b => encR2 0x1d d a b
  | .bfxB32 d a b => encR2 0x1e d a b
  | .notB32 d a => encR1 0x1f 0 d a
  | .popcB32 d a => encR1 0x1f 1 d a
  | .clzB32 d a => encR1 0x1f 2 d a
  | .ctzB32 d a => encR1 0x1f 3 d a
  | .brevB32 d a => encR1 0x1f 4 d a
  | .bswapB32 d a => encR1 0x1f 5 d a
  | .sextI8 d a => encR1 0x1f 6 d a
  | .sextI16 d a => encR1 0x1f 7 d a
  | .notB64 d a => encR1 0x1f 8 d a
  | .popcB64 d a => encR1 0x1f 9 d a
  | .clzB64 d a => encR1 0x1f 10 d a
  | .ctzB64 d a => encR1 0x1f 11 d a
  | .brevB64 d a => encR1 0x1f 12 d a
  | .bswapB64 d a => encR1 0x1f 13 d a
  | .sextI32 d a => encR1 0x1f 14 d a
  | .zextN32 d a => encR1 0x1f 15 d a
  | .setpI32 c p a b => encRp 0x20 c p a b
  | .setpN32 c p a b => encRp 0x21 c p a b
  | .setpI64 c p a b => encRp 0x22 c p a b
  | .setpN64 c p a b => encRp 0x23 c p a b
  | .minN32 d a b => encR2 0x24 d a b
  | .maxN32 d a b => encR2 0x25 d a b
  | .minI32 d a b => encR2 0x26 d a b
  | .maxI32 d a b => encR2 0x27 d a b
  | .faddF32 d a b => encR2 0x28 d a b
  | .fsubF32 d a b => encR2 0x29 d a b
  | .fmulF32 d a b => encR2 0x2a d a b
  | .ffmaF32 d a b => encR2 0x2b d a b
  | .faddF64 d a b => encR2 0x2c d a b
  | .fsubF64 d a b => encR2 0x2d d a b
  | .fmulF64 d a b => encR2 0x2e d a b
  | .ffmaF64 d a b => encR2 0x2f d a b
  | .faddRzF32 d a b => encR2 0x30 d a b
  | .faddRuF32 d a b => encR2 0x31 d a b
  | .faddRdF32 d a b => encR2 0x32 d a b
  | .fmulRzF32 d a b => encR2 0x33 d a b
  | .ffmaRzF32 d a b => encR2 0x34 d a b
  | .ffmaRuF32 d a b => encR2 0x35 d a b
  | .ffmaRdF32 d a b => encR2 0x36 d a b
  | .ffmaSatF32 d a b => encR2 0x37 d a b
  | .faddF16x2 d a b => encR2 0x38 d a b
  | .fsubF16x2 d a b => encR2 0x39 d a b
  | .fmulF16x2 d a b => encR2 0x3a d a b
  | .ffmaF16x2 d a b => encR2 0x3b d a b
  | .faddBf16x2 d a b => encR2 0x3c d a b
  | .fsubBf16x2 d a b => encR2 0x3d d a b
  | .fmulBf16x2 d a b => encR2 0x3e d a b
  | .ffmaBf16x2 d a b => encR2 0x3f d a b
  | .fnegF32 d a => encR1 0x40 0 d a
  | .fabsF32 d a => encR1 0x41 0 d a
  | .fnegF64 d a => encR1 0x42 0 d a
  | .fabsF64 d a => encR1 0x43 0 d a
  | .fminF64 d a b => encR2 0x44 d a b
  | .fmaxF64 d a b => encR2 0x45 d a b
  | .fminnF64 d a b => encR2 0x46 d a b
  | .fmaxnF64 d a b => encR2 0x47 d a b
  | .fsetpF32 c p a b => encRp 0x48 c p a b
  | .fsetpF64 c p a b => encRp 0x49 c p a b
  | .fclassF32 u p a m => encFclass 0x4a u p a m
  | .fclassF64 u p a m => encFclass 0x4b u p a m
  | .fminF32 d a b => encR2 0x4c d a b
  | .fmaxF32 d a b => encR2 0x4d d a b
  | .fminnF32 d a b => encR2 0x4e d a b
  | .fmaxnF32 d a b => encR2 0x4f d a b
  | .cvtF32 d a s rm sat => encCvt 0x50 d a s rm sat false
  | .cvtF64 d a s rm sat => encCvt 0x51 d a s rm sat false
  | .cvtH16 d a s rm sat bf => encCvt 0x52 d a s rm sat bf
  | .cvtF8 d a s rm sat e5 => encCvt 0x53 d a s rm sat e5
  | .cvtI32 d a s rm sat => encCvt 0x54 d a s rm sat false
  | .cvtN32 d a s rm sat => encCvt 0x55 d a s rm sat false
  | .cvtI64 d a s rm sat => encCvt 0x56 d a s rm sat false
  | .cvtN64 d a s rm sat => encCvt 0x57 d a s rm sat false
  | .rcpF32 d a => encR1 0x58 0 d a
  | .rsqF32 d a => encR1 0x58 1 d a
  | .sqrtF32 d a => encR1 0x58 2 d a
  | .exp2F32 d a => encR1 0x58 3 d a
  | .log2F32 d a => encR1 0x58 4 d a
  | .sinpiF32 d a => encR1 0x58 5 d a
  | .cospiF32 d a => encR1 0x58 6 d a
  | .tanhF32 d a => encR1 0x58 7 d a
  | .divF32 d a b => encR2 0x59 d a b
  | .rcpF64 d a => encR1 0x5a 0 d a
  | .rsqF64 d a => encR1 0x5a 1 d a
  | .sqrtF64 d a => encR1 0x5a 2 d a
  | .exp2F64 d a => encR1 0x5a 3 d a
  | .log2F64 d a => encR1 0x5a 4 d a
  | .sinpiF64 d a => encR1 0x5a 5 d a
  | .cospiF64 d a => encR1 0x5a 6 d a
  | .tanhF64 d a => encR1 0x5a 7 d a
  | .divF64 d a b => encR2 0x5b d a b
  | .rand d a => encR1 0x5c 0 d a
  | .ffmaF32x2 d a b => encR2 0x5d d a b
  | .shfl d a b => encR2 0x60 d a b
  | .censusMask d p => [wordR 0x61 d.n d.field (predCode p) 0 d.l]
  | .censusCount d p => [wordR 0x61 d.n d.field (predCode p) 1 d.l]
  | .censusAgree d p => [wordR 0x61 d.n d.field (predCode p) 2 d.l]
  | .censusFirst d p => [wordR 0x61 d.n d.field (predCode p) 3 d.l]
  | .censusLast d p => [wordR 0x61 d.n d.field (predCode p) 4 d.l]
  | .censusRank d p => [wordR 0x61 d.n d.field (predCode p) 5 d.l]
  | .matchKeys d a b => encR2 0x62 d a b
  | .red d a k => encR1 0x63 (redKindCode k) d a
  | .scan d a k ex => encR1 0x64 (redKindCode k + 128 * ex.toNat) d a
  | .maxiF32 d a => encR1 0x65 0 d a
  | .miniF32 d a => encR1 0x65 1 d a
  | .maxiF16 d a => encR1 0x65 2 d a
  | .miniF16 d a => encR1 0x65 3 d a
  | .maxiBf16 d a => encR1 0x65 4 d a
  | .miniBf16 d a => encR1 0x65 5 d a
  | .maxiI32 d a => encR1 0x65 6 d a
  | .miniI32 d a => encR1 0x65 7 d a
  | .maxiN32 d a => encR1 0x65 8 d a
  | .miniN32 d a => encR1 0x65 9 d a
  | .selk d a b => encR2 0x66 d a b
  | .isect d a b => encR2 0x67 d a b
  | .mma t f a b la lb => [wordR 0x68 0 (lb.toNat * 32 + la.toNat * 16 + t.val) (mfmtCode f / 4 * 64 + a.val) (mfmtCode f % 4 * 64 + b.val) 0]
  | .mmaSp t f a b la lb => [wordR 0x69 0 (lb.toNat * 32 + la.toNat * 16 + t.val) (mfmtCode f / 4 * 64 + a.val) (mfmtCode f % 4 * 64 + b.val) 0]
  | .tileAlloc a => encA 0x6a 0 a
  | .tileFree => [wordR 0x6b 0 0 0 0 0]
  | .tileZero t => [wordR 0x6c 0 t.val 0 0 0]
  | .tileFill k t base last col => wordR 0x6d 0 (fillKindCode k * 16 + t.val) (last.toNat * 64 + base.val) col.code 0 :: col.literal
  | .tileDrainF64 t base col => wordR 0x6e 0 base.val col.code (0 * 16 + t.val) 0 :: col.literal
  | .tileDrainF32 t base col => wordR 0x6e 0 base.val col.code (1 * 16 + t.val) 0 :: col.literal
  | .tileDrainBf16 t base col => wordR 0x6e 0 base.val col.code (2 * 16 + t.val) 0 :: col.literal
  | .tileQdrainMxf8 t base scale => [wordR 0x6f 0 base.val scale.val (0 * 16 + t.val) 0]
  | .tileQdrainMxf6 t base scale => [wordR 0x6f 0 base.val scale.val (1 * 16 + t.val) 0]
  | .tileQdrainMxf4 t base scale => [wordR 0x6f 0 base.val scale.val (2 * 16 + t.val) 0]
  | .tileQdrainMxi8 t base scale => [wordR 0x6f 0 base.val scale.val (3 * 16 + t.val) 0]
  | .ld k d a off => encM 0x70 (ldKindCode k) d a off.toNat
  | .ldOrdered o d a => encM 0x70 o.code d a (o.off .acq)
  | .st k d a off => encM 0x71 (stKindCode k) d a off.toNat
  | .stOrdered o d a => encM 0x71 o.code d a (o.off .rel)
  | .ldx l w d a off => encM 0x72 (xlevelCode l * 4 + xwidthCode w) d a off.toNat
  | .stx l w d a off => encM 0x73 (xlevelCode l * 4 + xwidthCode w) d a off.toNat
  | .atom op pl d a => encM 0x74 (atomOpCode op) d a pl.code
  | .sts k d a s => encM 0x75 (stKindCode k) d a s.val
  | .lda w64 d a t => encM 0x76 (4 + w64.toNat) d a t.val
  | .fetch f d a c => encM 0x77 (mfmtCode f) d a (c.val * 2 + 0)
  | .gather f d a c => encM 0x77 (mfmtCode f) d a (c.val * 2 + 1)
  | .br p neg off => [wordB 0x78 (predCode p) neg.toNat off.toNat]
  | .call p neg off => [wordB 0x79 (predCode p) neg.toNat off.toNat]
  | .icall a => encA 0x7a 0 a
  | .ret => [wordR 0x7a 0 0 0 1 0]
  | .join => [wordR 0x7a 0 0 0 2 0]
  | .conv => [wordR 0x7a 0 0 0 3 0]
  | .emitB32 a => encA 0x7a 4 a
  | .emitB64 a => encA 0x7a 5 a
  | .fork d a => wordR 0x7b 0 d.val a.code 0 0 :: a.literal
  | .plop d a b c tt => [BitVec.ofNat 32 (0x7c * 2 ^ 24 + d.val * 2 ^ 20 + predCode a * 2 ^ 16 + predCode b * 2 ^ 12 + predCode c * 2 ^ 8 + tt.toNat)]
  | .guardPrefix p neg => [wordB 0x7e (predCode p) neg.toNat 0]
  | .saddB32 d a b => encR2 0x80 d a b
  | .saddB64 d a b => encR2 0x81 d a b
  | .ssubB32 d a b => encR2 0x82 d a b
  | .ssubB64 d a b => encR2 0x83 d a b
  | .saddiB32 d a imm => encI1 0x84 d a imm
  | .saddiB64 d a imm => encI1 0x85 d a imm
  | .smulB32 d a b => encR2 0x86 d a b
  | .smulB64 d a b => encR2 0x87 d a b
  | .smulhiI32 d a b => encR2 0x88 d a b
  | .smulhiN32 d a b => encR2 0x89 d a b
  | .smulwI32 d a b => encR2 0x8a d a b
  | .smulwN32 d a b => encR2 0x8b d a b
  | .sdivI32 d a b => encR2 0x8c d a b
  | .sdivN32 d a b => encR2 0x8d d a b
  | .sremI32 d a b => encR2 0x8e d a b
  | .sremN32 d a b => encR2 0x8f d a b
  | .sandB32 d a b => encR2 0x90 d a b
  | .sorB32 d a b => encR2 0x91 d a b
  | .sxorB32 d a b => encR2 0x92 d a b
  | .sbfiB32 d a b => encR2 0x93 d a b
  | .sandB64 d a b => encR2 0x94 d a b
  | .sorB64 d a b => encR2 0x95 d a b
  | .sxorB64 d a b => encR2 0x96 d a b
  | .slea d a b => encR2 0x97 d a b
  | .ssetpI32 c p a b => encRp 0x98 c p a b
  | .ssetpN32 c p a b => encRp 0x99 c p a b
  | .ssetpI64 c p a b => encRp 0x9a c p a b
  | .ssetpN64 c p a b => encRp 0x9b c p a b
  | .sshlB32 d a b => encR2 0x9c d a b
  | .sshrN32 d a b => encR2 0x9d d a b
  | .sshrI32 d a b => encR2 0x9e d a b
  | .sbit d a k => encR1 0x9f (bitOpCode k) d a
  | .sfaddF32 d a b => encR2 0xa0 d a b
  | .sfsubF32 d a b => encR2 0xa1 d a b
  | .sfmulF32 d a b => encR2 0xa2 d a b
  | .sffmaF32 d a b => encR2 0xa3 d a b
  | .sfaddF64 d a b => encR2 0xa4 d a b
  | .sfsubF64 d a b => encR2 0xa5 d a b
  | .sfmulF64 d a b => encR2 0xa6 d a b
  | .sffmaF64 d a b => encR2 0xa7 d a b
  | .sfsetpF32 c p a b => encRp 0xa8 c p a b
  | .sfsetpF64 c p a b => encRp 0xa9 c p a b
  | .scvtF32 d a s rm sat => encCvt 0xaa d a s rm sat false
  | .scvtI32 d a s rm sat => encCvt 0xab d a s rm sat false
  | .sfminF32 d a b => encR2 0xac d a b
  | .sfmaxF32 d a b => encR2 0xad d a b
  | .srcpF32 d a => encR1 0xae 0 d a
  | .srsqF32 d a => encR1 0xae 1 d a
  | .ssqrtF32 d a => encR1 0xae 2 d a
  | .sexp2F32 d a => encR1 0xae 3 d a
  | .slog2F32 d a => encR1 0xae 4 d a
  | .ssinpiF32 d a => encR1 0xae 5 d a
  | .scospiF32 d a => encR1 0xae 6 d a
  | .stanhF32 d a => encR1 0xae 7 d a
  | .sfdivF32 d a b => encR2 0xaf d a b
  | .sld m d a => encLdMode 0xb0 m d a
  | .sst m d a => encStMode 0xb1 m d a
  | .sldx l w d a off => encM 0xb2 (xlevelCode l * 4 + xwidthCode w) d a off.toNat
  | .sstx l w d a off => encM 0xb3 (xlevelCode l * 4 + xwidthCode w) d a off.toNat
  | .satom op pl d a => encM 0xb4 (atomOpCode op) d a pl.code
  | .scas w pl d a => encM 0xb5 (casWCode w) d a pl.code
  | .fence sc o => [wordR 0xb8 0 0 0 (scopeCode sc * 16 + fenceOrdCode o) 0]
  | .barArrive d a b => wordR 0xb9 0 d.val a.code b.code 0 :: (a.literal ++ b.literal)
  | .barWait a b => wordR 0xba 0 0 a.code b.code 0 :: (a.literal ++ b.literal)
  | .mon a => encM 0xbb 0 0 a 0
  | .mwait d a => wordR 0xbc 0 d.val a.code 0 0 :: a.literal
  | .commitw => [wordR 0xbd 0 0 0 0 0]
  | .sleep a => encA 0xbe 0 a
  | .bcopy d a last b => wordR 0xc0 0 d.val (last.toNat * 64 + a.val) b.code 0 :: b.literal
  | .bcopySt d a last b => wordR 0xc1 0 d.val (last.toNat * 64 + a.val) b.code 0 :: b.literal
  | .ringInit a b => wordR 0xc2 0 0 a.code b.code 0 :: (a.literal ++ b.literal)
  | .ringTake d a => wordR 0xc3 0 d.val a.code 0 0 :: a.literal
  | .ringGive a => encA 0xc4 0 a
  | .ringWait d a => wordR 0xc5 0 d.val a.code 0 0 :: a.literal
  | .tlRead d a => wordR 0xc6 0 d.val a.code 0 0 :: a.literal
  | .tlWait a b => wordR 0xc7 0 0 a.code b.code 0 :: (a.literal ++ b.literal)
  | .coll d a => wordR 0xc8 0 d.val a.code 0 0 :: a.literal
  | .ckptHold d dm => [wordR 0xc9 0 d.val dm.toNat 0 0]
  | .ckptRelease a dm => wordR 0xca 0 0 a.code dm.toNat 0 :: a.literal
  | .spawn p a b last => wordR 0xd0 0 p.val a.code (last.toNat * 64 + b.val) 0 :: a.literal
  | .chunk d => [wordR 0xd1 0 d.val 0 0 0]
  | .repack k => [wordR 0xd2 0 0 k.val 0 0]
  | .slice d a => wordR 0xd3 0 d.val a.code 0 0 :: a.literal
  | .depdec d a => wordR 0xd4 0 d.val a.code 0 0 :: a.literal
  | .yield a => encA 0xd5 0 a
  | .clkiv d => [wordR 0xd8 0 d.val 0 0 0]
  | .vshape d r => [wordR 0xd9 d.n d.field r.code 0 d.l]
  | .capq d a => wordR 0xda 0 d.val a.code 0 0 :: a.literal
  | .sget d r => [wordR 0xdb 0 d.val (sregCode r) 0 0]
  | .sset r b => wordR 0xdc 0 0 (sregCode r) b.code 0 :: b.literal
  | .trap k => [wordI 0xdd 0 0 0 k.toNat]
  | .rett => [wordR 0xde 0 0 0 0 0]
  | .bkpt k => [wordI 0xdf 0 0 0 k.toNat]
  | .loadComplete _ => []
  | .writeBackPerformed _ _ => []
  | .stampedStoreVisible _ => []
  | .visibilityReport _ => []
  | .watermarkRefresh _ _ => []
  | .passAcceptance _ => []
  | .passApplied _ => []
  | .tilePoolGrant _ => []
  | .engineCommandStart _ _ => []
  | .engineCommandComplete _ _ _ => []
  | .collectiveContribution _ _ => []
  | .openGroupStart _ _ => []
  | .spawnTimerExpiry _ _ => []
  | .convTimeout _ _ => []
  | .sleepExpiry _ => []
  | .mwaitTimeout _ => []
  | .waitSentinel _ => []
  | .budget _ => []
  | .teamPlacement _ => []
  | .teamSave _ => []
  | .reset => []
  | .fullServiceStart => []
  | .powerTemperatureLimit => []
  | .patrolScrub _ _ _ => []
  | .linkTimeExchange _ _ _ => []
  | .linkTimeMessage _ _ => []
  | .flitReceived _ _ _ => []
  | .remoteAccessRequest _ => []
  | .linkPlaneFailure _ => []
  | .diePortFailure _ _ => []
  | .dieLost _ => []
  | .dieSetExit _ => []
  | .deviceUnreachable _ => []
  | .partcfgRead _ _ => []
  | .partcfgWrite _ _ => []
  | .submit _ _ => []
  | .submitResume _ _ => []
  | .inval _ _ => []
  | .resume _ _ => []
  | .kill _ _ => []
  | .holdclr _ _ => []
  | .attest _ _ => []
  | .state _ _ => []
  | .stateSave _ _ => []
  | .unknownCommand _ _ => []
  | .overrun _ _ => []
  | .mailboxCommandComplete _ => []
  | .vendorDefinedMessage _ _ _ _ => []
  | .hostBar2Write _ _ _ => []
  | .hostBar2Read _ _ _ => []
  | .classCounterWrite _ _ _ => []
  | .registerWrite _ _ _ _ => []
  | .faultRecordPost _ => []
  | .eventRecordPost _ _ => []
  | .etimeExpiry _ _ => []
  | .unallocatedEncoding _ => []
  | .fetchFault _ _ => []
  | .stampedStoreHeldPending _ => []

/-- The decoder on the words of a unit, the words past the list read as zero. -/
noncomputable def decodeWords (ws : List W32) : Except DecStep DecUnit :=
  let get (k : Nat) : Nat := ((ws[k]?).getD 0).toNat
  decodeUnit (get 0) (get 1) (get 2)

/-- What this decoder reads from an instruction whose bits are `w`, the first word lowest; later words are zero. A guard
prefix, which is a row of its own, is read as the prefix. -/
noncomputable def decodeTableWord (_nbits w : Nat) : Option Instr :=
  match decodeUnit (w % 2 ^ 32) (w / 2 ^ 32 % 2 ^ 32) (w / 2 ^ 64 % 2 ^ 32) with
  | .error _ => none
  | .ok u =>
    match u.guard with
    | some (p, neg) => some (.guardPrefix p neg)
    | none => some u.instr

end Sys2Proof
end

