-- ==== Sys2Proof/Machine/Access.lean ====
section
/-!
DEFINITION. The device-memory accesses that instructions make (R272 to R296): kind, scope, ordering, names, the address operand and
its displacement. The operand log, the images and the memory instructions all read an access from here.
-/

namespace Sys2Proof.Machine

/-- An access as a word gives it: the address operand and the displacement in bytes (R275). -/
structure MemForm where
  acc : Access
  addr : Src
  disp : Int := 0

/-- Whether a plain load sign-extends (R273). -/
def loadSigned : LdKind → Bool
  | .i8 | .i16 => true
  | .n8 | .n16 | .b32 | .b64 | .b128 => false

/-- The displacement of a plain form (R275). -/
def dispOf (off : BitVec 6) (size : Nat) : Int := off.toInt * (size : Int)

/-- A plain load or store. -/
def plainForm (k : AccKind) (u : Bool) (d : Fin 64) (a : Src) (off : BitVec 6) (size : Nat) : MemForm :=
  ⟨{ kind := k, dest := d.val, uniform := u }, a, dispOf off size⟩

/-- An ordered load or store (R274). -/
def ordForm (load u : Bool) (o : OrdAcc) (d : Fin 64) (a : Src) : MemForm :=
  ⟨{ kind := if load then .load o.size false else .store o.size, scope := o.scope,
     order := if o.sc then .sc else if load then .acq else .rel, dest := d.val, uniform := u }, a, 0⟩

/-- An atomic in device memory (R282). -/
def atomForm (u : Bool) (op : AtomOp) (s : Scope) (o : Order) (d : Fin 64) (a : Src) : MemForm :=
  ⟨{ kind := .atom op, scope := s, order := o, dest := d.val, uniform := u }, a, 0⟩

/-- The device-memory access of an instruction, if it makes one. -/
def memForm : Instr → Option MemForm
  | .ld k d a off => some (plainForm (.load k.size (loadSigned k)) false d a off k.size)
  | .ldOrdered o d a => some (ordForm true false o d a)
  | .st k d a off => some (plainForm (.store k.size) false d a off k.size)
  | .stOrdered o d a => some (ordForm false false o d a)
  | .atom op (.dev s o) d a => some (atomForm false op s o d a)
  | .sts k d a s => some ⟨{ kind := .sts k.size, dest := d.val, aux := s.val }, a, 0⟩
  | .lda w d a t => some ⟨{ kind := .lda w, dest := d.val, aux := t.val }, a, 0⟩
  | .fetch f d a c => some ⟨{ kind := .fetch f, dest := d.val, aux := c.val }, a, 0⟩
  | .gather f d a c => some ⟨{ kind := .fetch f, dest := d.val, aux := c.val }, a, 0⟩
  | .sld (.plain k off) d a => some (plainForm (.load k.size (loadSigned k)) true d a off k.size)
  | .sld (.ordered o) d a => some (ordForm true true o d a)
  | .sst (.plain k off) d a => some (plainForm (.store k.size) true d a off k.size)
  | .sst (.ordered o) d a => some (ordForm false true o d a)
  | .satom op (.dev s o) d a => some (atomForm true op s o d a)
  | .scas w (.dev s o) d a => some ⟨{ kind := .cas w, scope := s, order := o, dest := d.val, uniform := true }, a, 0⟩
  | .mon a => some ⟨{ kind := .mon, uniform := true }, a, 0⟩
  | .bcopySt d a last _ => some ⟨{ kind := .copySt, scope := .dv, order := .rel, dest := d.val, uniform := true }, .reg a last, 0⟩
  | _ => none

/-- Bytes of one value of scas (R286). -/
def casBytes : CasW → Nat
  | .b32 => 4
  | .b64 => 8
  | .b128 => 16

/-- Bytes an access touches; a fetch's first read is its handle. -/
def AccKind.size : AccKind → Nat
  | .load n _ | .store n | .sts n => n
  | .atom op => if op.w64 then 8 else 4
  | .cas w => casBytes w
  | .lda w => if w then 8 else 4
  | .mon | .copySt => 1
  | .fetch _ => 64

/-- Names the access writes: how many from its destination on, and the stamp pair of sts. -/
def Access.writes (a : Access) : List Nat :=
  let run (n : Nat) : List Nat := (List.range n).map fun k => a.dest + k
  match a.kind with
  | .load n _ => run ((n + 3) / 4)
  | .store _ | .mon => []
  | .atom op => run (if op.w64 then 2 else 1)
  | .cas w => run w.names
  | .sts _ => [a.aux, a.aux + 1]
  | .lda w => run (if w then 3 else 2)
  | .fetch f => run (f.names + 1)
  | .copySt => run 4

/-- Names of data or operands an access reads, beside its address. -/
def Access.reads (a : Access) : List Nat :=
  let run (from' n : Nat) : List Nat := (List.range n).map fun k => from' + k
  match a.kind with
  | .load _ _ | .mon | .copySt => []
  | .store n | .sts n => run a.dest ((n + 3) / 4)
  | .atom op => let w := if op.w64 then 2 else 1; run (a.dest + w) (op.span - w)
  | .cas w => run (a.dest + w.names) (2 * w.names)
  | .lda _ => [a.aux, a.aux + 1]
  | .fetch _ => [2 * a.aux, 2 * a.aux + 1]

/-- The access of a parsed word. -/
def parsedAccess (p : Option Parsed) : Option Access := (p.bind fun p => memForm p.instr).map fun f => f.acc

/-- The access of a word in an operand-log entry (R373): a lane opcode's own; a uniform opcode's is that of its lane twin, made once
for the course (R285, R235). -/
def accessOfWord (w : W32) : Access :=
  let n := w.toNat
  let once (p : Parsed) : Option Access := (parsedAccess (some p)).map fun a => { a with uniform := true }
  let a :=
    match fld n 24 8 with
    | 0xB0 => once (decLd .ld .ldOrdered n 0)
    | 0xB1 => once (decSt .st .stOrdered n 0)
    | 0xB4 => once (decAtom true .atom n 0)
    | 0xB5 =>
      match casWOf (fmF n), placeOf n with
      | some c, some (.dev s o) => some { kind := .cas c, scope := s, order := o, dest := fmD n, uniform := true }
      | _, _ => none
    | 0xC1 => some { kind := .copySt, scope := .dv, order := .rel, dest := fD n, uniform := true }
    | k => if k / 16 = 7 then parsedAccess (laneOps7 (k % 16) n 0) else none
  a.getD { kind := .mon, uniform := true }

end Sys2Proof.Machine
end

