-- ==== Sys2Proof/Machine/Image.lean ====
section
/-!
DEFINITION. The bytes of course and team images (R74 to R77, R228, R370 to R373): what a save writes and a restore reads.
-/

namespace Sys2Proof.Machine

/-! ## Fork keys -/

/-- A fork key's 40 bytes (R35). -/
def keyBytes (root : W32) (ords : List (BitVec 16)) : List Byte :=
  leBytes 4 root.toNat ++ leBytes 4 ords.length ++ padTo 32 (ords.flatMap fun o => leBytes 2 o.toNat)

/-- Reads a fork key; levels beyond DEPTH are ignored. -/
def keyOf (b : List Byte) : W32 × List (BitVec 16) :=
  let depth := bytesAt b 4 1 % 32
  (BitVec.ofNat 32 (bytesAt b 0 4), (List.range (min depth 16)).map fun k => BitVec.ofNat 16 (bytesAt b (8 + 2 * k) 2))

/-! ## Lines of the register store (R53) -/

/-- How many names of a course have a shape. -/
def Course.shapeCount (c : Course) (code : Nat) : Nat := ((List.range 64).filter fun n => nameCode c.names n == code).length

/-- The register-store lines a course occupies (R53): its U and A slots packed, and a line for each G name. -/
def Course.lines (c : Course) : Nat := (4 * c.shapeCount 1 + 8 * c.shapeCount 2 + 127) / 128 + c.shapeCount 3

/-- Bytes of a course's U and A slots. -/
def Course.scalarBytes (c : Course) : Nat := 4 * c.shapeCount 1 + 8 * c.shapeCount 2

/-- The line of each allocated name: a G name's own, by its number; U and A names are packed in order of number, as the register section has
them, in lines numbered from 64 on (log 30). -/
def Course.lineMap (c : Course) : List (Nat × Nat) :=
  ((List.range 64).foldl (fun (acc : Nat × List (Nat × Nat)) n =>
    match nameCode c.names n with
    | 1 => (acc.1 + 4, acc.2 ++ [(n, 64 + acc.1 / 128)])
    | 2 => (acc.1 + 8, acc.2 ++ [(n, 64 + acc.1 / 128)])
    | 3 => (acc.1, acc.2 ++ [(n, n)])
    | _ => acc) (0, [])).2

/-- The lines of a course that are in the register store (R66). -/
def Course.linesHere (c : Course) : List Nat := ((c.lineMap.filter fun p => !c.away.contains p.1).map Prod.snd).eraseDups

/-- The cycle in which a unit last named a name of a line; 0 where none has. -/
def Course.lastUse (c : Course) (line : Nat) : Nat :=
  ((c.lineMap.filter fun p => p.2 == line).map fun p => (FMap.get c.used p.1).getD 0).foldl max 0

/-- A unit names some names: their lines are in the register store, and used now (R66). -/
def Course.touch (c : Course) (ns : List Nat) (now : Nat) : Course :=
  let lines := (c.lineMap.filter fun p => ns.contains p.1).map Prod.snd
  { c with
    away := if c.away.isEmpty then [] else
      c.away.filter fun n => !(ns.contains n || c.lineMap.any fun p => p.1 == n && lines.contains p.2)
    used := ns.foldl (fun m n => FMap.set m n now) c.used }

/-- The lines of a team in the register store, which its quota counts (R53, R66): entries of the operand file and latch values lie
elsewhere. -/
def Team.linesHere (t : Team) : Nat := (t.courses.map fun p => if p.2.suspended then 0 else p.2.linesHere.length).foldl (· + ·) 0

/-! ## The register section (R74 to R77) -/

/-- The two areas of a register section as they fill. -/
structure Areas where
  scalar : List Byte := []
  lines : List Byte := []

/-- A rename or operand-file entry (R75), its value placed in an area. -/
def Areas.addName (a : Areas) (v : NameVal) : Areas × Nat :=
  match v with
  | .free => (a, 0)
  | .uni x => ({ a with scalar := a.scalar ++ leBytes 4 x.toNat }, 2 ^ 14 + a.scalar.length / 4)
  | .aff b st link =>
    ({ a with scalar := a.scalar ++ leBytes 4 b.toNat ++ leBytes 4 st.toNat }, 2 * 2 ^ 14 + link.toNat * 2 ^ 13 + a.scalar.length / 4)
  | .gen rows =>
    ({ a with lines := a.lines ++ lanes32.flatMap fun l => leBytes 4 (nth rows l 0).toNat }, 3 * 2 ^ 14 + a.lines.length / 128)

/-- The INDEX of a record whose value is lost: one past what any section holds (R77; log 45). -/
def lostIndex : Nat := 0xFFF

/-- A latch record (R76), its value placed in an area unless it is lost. -/
def Areas.addLatch (a : Areas) (x : LatchRec × Bool) : Areas × Nat :=
  let r := x.1
  if !r.valid then (a, 0)
  else if x.2 then (a, r.word lostIndex)
  else
    match r.val with
    | .uni x => ({ a with scalar := a.scalar ++ leBytes 8 x.toNat }, r.word (a.scalar.length / 4))
    | .aff b st => ({ a with scalar := a.scalar ++ leBytes 8 b.toNat ++ leBytes 8 st.toNat }, r.word (a.scalar.length / 4))
    | .gen rows =>
      ({ a with lines := a.lines ++ lanes32.flatMap fun l => leBytes 8 (nth rows l 0).toNat }, r.word (a.lines.length / 128))

/-- Places a list of values, giving their entries. -/
def Areas.addAll {α : Type} (f : Areas → α → Areas × Nat) (a : Areas) (vs : List α) : Areas × List Nat :=
  vs.foldl (fun acc v => let r := f acc.1 v; (r.1, acc.2 ++ [r.2])) (a, [])

/-- The latches that threads of a course carry of a pipe, but for those of threads that left a group with its hold (R367): where the
thread is covered. -/
def Course.ownLatches (c : Course) (k : Nat) : List (Nat × SavedLatch) :=
  c.threads.filterMap fun p =>
    match p.2.savedFor k with
    | some sv => if (!sv.hold || sv.group) && sv.record.valid && hasLane sv.record.lanes p.1 then some (p.1, sv) else none
    | none => none

/-- A pipe's latch as a save sees it (R73): the record and its value while it can be read. Threads that carry values of their own, but
for those that left a group with its hold, have them in the one record of the pipe: at its shape where they are rows of it, else as lanes of
a G value (log 45). A record whose value is lost, the latch since reused, stays a record (R208); it is marked. -/
def Course.latchToSave (c : Course) (gens : List Nat) (k : Nat) : LatchRec × Bool :=
  let gen := nth gens k 0
  let carried := maskOf ((c.threads.filter fun p => (p.2.savedFor k).isSome).map Prod.fst)
  let own := (c.ownLatches k).filter fun p => p.2.record.readable gen
  let gone := (c.ownLatches k).filter fun p => !p.2.record.readable gen
  let all := nth c.latches k {}
  let all := { all with lanes := all.lanes &&& ~~~carried }
  let r := if all.valid && all.readable gen then all else {}
  match own with
  | [] =>
    if r.valid then (r, false)
    else if all.valid then ({ all with lanes := all.lanes ||| maskOf (gone.map Prod.fst) }, true)
    else match gone with | [] => ({}, false) | (_, sv) :: _ => ({ sv.record with lanes := maskOf (gone.map Prod.fst) }, true)
  | (_, sv) :: _ =>
    let fromRec := if r.valid then r else sv.record
    let base := c.latchBase k
    let v (l : Nat) : W64 := match own.find? (fun p => p.1 == l) with | some p => p.2.value | none => r.val.at r.wide l
    let covered := r.lanes ||| maskOf (own.map Prod.fst)
    ({ fromRec with
      valid := true
      lanes := covered
      val := if (lanesOf covered).all fun l => v l == base.1.at base.2 l then base.1 else .gen (lanes32.map v) }, false)

/-- The register section. R74 gives each item its place by an index and no order of the items: names, then operand-file entries, then
latches, each by number (log 45). -/
def Course.regSection (c : Course) (gens : List Nat) : List Byte :=
  let (a, names) := Areas.addAll Areas.addName {} c.names
  let (a, opf) := Areas.addAll Areas.addName a c.opf
  let (a, lat) := Areas.addAll Areas.addLatch a ((List.range 4).map fun k => c.latchToSave gens k)
  let lines := (a.scalar.length + 127) / 128
  (names.flatMap fun e => leBytes 2 e) ++ (opf.flatMap fun e => leBytes 2 e) ++ (lat.flatMap fun e => leBytes 8 e) ++
  leBytes 2 lines ++ leBytes 2 (a.lines.length / 128) ++ leBytes 4 0 ++ padTo 56 [] ++ (c.dead.flatMap fun m => leBytes 4 m.toNat) ++
  padTo (128 * lines) a.scalar ++ a.lines

/-- Where a line of names stands in a course image, and its bytes, of a register section. -/
def Course.lineAt (c : Course) (sec : List Byte) (line : Nat) : Nat × List Byte :=
  let o := if line < 64 then
      0x200 + 128 * bytesAt sec 0xC0 2 + 128 * ((List.range line).filter fun n => nameCode c.names n == 3).length
    else 0x200 + 128 * (line - 64)
  (0xCB00 + o, (sec.drop o).take (if line < 64 then 128 else min 128 (c.scalarBytes - 128 * (line - 64))))

/-- The parts of a register section that a save writes at once: all but the lines of names (R67). -/
def Course.sectionParts (c : Course) (sec : List Byte) : List (Nat × List Byte) :=
  let g := 0x200 + 128 * bytesAt sec 0xC0 2
  let o := 0x200 + c.scalarBytes
  let e := g + 128 * c.shapeCount 3
  [(0xCB00, sec.take 0x200), (0xCB00 + o, (sec.drop o).take (g - o)), (0xCB00 + e, sec.drop e)]

/-- Bytes of a register section at most (R77). -/
def regSectionMax : Nat := 11776

/-- Reads a rename or operand-file entry. -/
def readName (b : List Byte) (off : Nat) : NameVal :=
  let e := bytesAt b off 2
  let scalar := 0x200
  let lines := 0x200 + 128 * bytesAt b 0xC0 2
  let ix := e % 2 ^ 12
  match e / 2 ^ 14 with
  | 1 => .uni (BitVec.ofNat 32 (bytesAt b (scalar + 4 * ix) 4))
  | 2 => .aff (BitVec.ofNat 32 (bytesAt b (scalar + 4 * ix) 4)) (BitVec.ofNat 32 (bytesAt b (scalar + 4 * ix + 4) 4)) (fld e 13 1 == 1)
  | 3 => .gen (lanes32.map fun l => BitVec.ofNat 32 (bytesAt b (lines + 128 * ix + 4 * l) 4))
  | _ => .free

/-- Reads a latch record. -/
def readLatch (b : List Byte) (gens : List Nat) (k : Nat) : LatchRec :=
  let w := bytesAt b (0xA0 + 8 * k) 8
  let ix := fld w 20 12
  let r := latchOfWord w 0 (if ix = lostIndex then 0 else nth gens k 0) false
  let at64 (off : Nat) : W64 := BitVec.ofNat 64 (bytesAt b off 8)
  let v : LatchVal :=
    match fld w 18 2 with
    | 2 => .aff (at64 (0x200 + 4 * ix)) (at64 (0x200 + 4 * ix + 8))
    | 3 => .gen (lanes32.map fun l => at64 (0x200 + 128 * bytesAt b 0xC0 2 + 128 * ix + 8 * l))
    | _ => .uni (at64 (0x200 + 4 * ix))
  { r with lanes := BitVec.ofNat 32 (w / 2 ^ 32), val := v }

/-! ## Threads (R372) -/

/-- The STACK code of K (R319). -/
def stackCode (k : Nat) : Nat := if k = 4 then 0 else if k = 8 then 1 else 2

/-- Cycles left of a wait that keeps them: sleep, or a conv of the course. -/
def Course.cyclesLeft (c : Course) (t : Thread) : Nat :=
  match t.wait with
  | .sleep n => n
  | .conv => (FMap.get c.convs t.pc.toNat).getD 0
  | _ => 0

/-- Whether a rendezvous has counted the thread's arrival (R142). -/
def Thread.arrived (t : Thread) : Bool :=
  match t.wait with
  | .join | .repack _ _ _ | .yield _ => true
  | _ => false

/-- The thread's latch with a hold (R367). -/
def Thread.heldLatch (t : Thread) : Option SavedLatch := t.saved.find? fun sv => sv.hold

/-- Whether a save records a thread as waiting at its unit (R142), or as struck in an mwait (R297); at every other unit that waits
nothing is done yet (R289, R297). -/
def Thread.recordsWait (t : Thread) : Bool :=
  match t.wait with
  | .join | .conv | .repack _ _ _ | .emit | .yield _ | .sleep _ | .mwait _ _ => true
  | .none => t.progress.isSome
  | _ => false

/-- Thread state. A member of a group whose hold is saved whole has no latch of its own: the register section holds it (R73). -/
def Course.threadBytes (c : Course) (k : Nat) (t : Thread) : List Byte :=
  let h := t.heldLatch
  let own := h.bind fun sv => if sv.group then none else some sv
  let flags := 1 + t.parked.isSome.toNat * 2 + (if t.recordsWait then 4 else 0) +
    (match h with | some sv => sv.pipe.val * 8 + 32 | none => 0)
  let stack := (List.range 16).flatMap fun j => leBytes 8 (nth t.stack j 0).toNat
  leBytes 8 t.pc.toNat ++ leBytes 4 t.tsw.toNat ++ leBytes 2 t.preds.toNat ++ leBytes 1 (t.stack.length % 32 + stackCode k * 32) ++
  leBytes 1 flags ++ keyBytes t.root t.ords ++ leBytes 8 t.sp.toNat ++ stack ++ leBytes 8 t.draws.toNat ++
  leBytes 8 (c.cyclesLeft t % 2 ^ 63 + t.arrived.toNat * 2 ^ 63) ++ leBytes 8 t.sentinel ++
  leBytes 8 (match t.parked with | some p => p.token | none => 0) ++
  (match own with | some sv => leBytes 8 (sv.record.word 0) ++ leBytes 8 sv.value.toNat | none => padTo 16 []) ++
  leBytes 8 t.hostAction ++ padTo 8 []

/-- The fields of sr.tsw; the others read as zero (R5, R138). -/
def tswFields : W32 := 0xF8FF0000

/-- Reads thread state; a waiting thread will issue its unit again, with the progress it kept. -/
def readThread (b : List Byte) : Thread :=
  let flags := bytesAt b 0x0F 1
  let key := keyOf ((b.drop 0x10).take 40)
  let n := bytesAt b 0x0E 1 % 32
  let token := bytesAt b 0xD8 8
  let w := bytesAt b 0xE0 8
  let v := BitVec.ofNat 64 (bytesAt b 0xE8 8)
  { pc := BitVec.ofNat 64 (bytesAt b 0 8), preds := BitVec.ofNat 12 (bytesAt b 0x0C 2), tsw := BitVec.ofNat 32 (bytesAt b 0x08 4) &&& tswFields,
    root := key.1, ords := key.2, stack := (List.range (min n 16)).map fun j => BitVec.ofNat 64 (bytesAt b (0x40 + 8 * j) 8),
    sp := BitVec.ofNat 64 (bytesAt b 0x38 8), draws := BitVec.ofNat 64 (bytesAt b 0xC0 8),
    progress := if fld flags 2 1 = 1 then some (bytesAt b 0xC8 8 % 2 ^ 63) else none,
    sentinel := bytesAt b 0xD0 8,
    parked := if fld flags 1 1 = 1 then some ⟨0, token⟩ else none,
    saved := if fld flags 5 1 = 1 then
        [{ pipe := Fin.ofNat 4 (fld flags 3 2), record := latchOfWord w v 0 true, value := v, hold := true, group := fld w 15 1 == 0 }]
      else [],
    hostAction := bytesAt b 0xF0 8 % 4 }

/-! ## Operand-log entries (R373) -/

/-- The captured data of a lane: store data or operands, or a fetch's coordinates. -/
def LaneAcc.captured (a : Access) (x : LaneAcc) : List Byte :=
  match a.kind with
  | .fetch _ => leBytes 4 x.row.toNat ++ leBytes 4 x.col.toNat
  | _ => x.data.take 32

/-- Where a lane's slot lies: slot 0 for a uniform access. -/
def logSlot (a : Access) (x : LaneAcc) : Nat := if a.uniform then 0 else x.lane

/-- The faulted lanes of an entry. -/
def LogEntry.mask (e : LogEntry) : W32 := if e.acc.uniform then e.group else maskOf (e.lanes.map fun x => x.lane)

/-- An entry's 1,344 bytes. -/
def LogEntry.bytes (e : LogEntry) : List Byte :=
  let head := leBytes 8 e.unitAddr.toNat ++ leBytes 4 e.word.toNat ++ leBytes 4 e.mask.toNat ++ leBytes 8 e.token ++
    leBytes 1 (1 + e.replay.toNat * 2)
  padTo 64 head ++ (lanes32.flatMap fun l =>
    match e.lanes.find? (fun x => logSlot e.acc x == l) with
    | some x => padTo 40 (leBytes 8 x.addr.toNat ++ LaneAcc.captured e.acc x)
    | none => padTo 40 [])

/-- Reads an entry, if it is pending. -/
def readLog (b : List Byte) : Option LogEntry :=
  if bytesAt b 0x18 1 % 2 = 0 then none
  else
    let word := BitVec.ofNat 32 (bytesAt b 8 4)
    let acc := accessOfWord word
    let mask := BitVec.ofNat 32 (bytesAt b 0x0C 4)
    let slot (sl lane : Nat) : LaneAcc :=
      let o := 64 + 40 * sl
      let isFetch := match acc.kind with | .fetch _ => true | _ => false
      { lane := lane, addr := BitVec.ofNat 64 (bytesAt b o 8), data := if isFetch then [] else (b.drop (o + 8)).take 32,
        row := if isFetch then BitVec.ofNat 32 (bytesAt b (o + 8) 4) else 0,
        col := if isFetch then BitVec.ofNat 32 (bytesAt b (o + 12) 4) else 0 }
    let lanes := if acc.uniform then [slot 0 ((lanesOf mask).headD 0)] else (lanesOf mask).map fun l => slot l l
    some { unitAddr := BitVec.ofNat 64 (bytesAt b 0 8), word := word, acc := acc, lanes := lanes,
           group := if acc.uniform then mask else 0, token := bytesAt b 0x10 8, replay := fld (bytesAt b 0x18 1) 1 1 == 1 }

/-! ## Tiles (R228) -/

/-- A tile record. -/
def Tile.bytes (t : Tile) : List Byte :=
  let row (n : Nat) (v : List W64) : List Byte := padTo (8 * n) ((v.take n).flatMap fun x => leBytes 8 x.toNat)
  row 1024 t.c ++ row 32 t.cr ++ row 32 t.cc ++ row 32 t.mc ++ row 32 t.mr ++ leBytes 8 t.p.toNat ++ padTo 120 []

/-- Reads a tile record. -/
def readTile (b : List Byte) : Tile :=
  let row (off n : Nat) : List W64 := (List.range n).map fun k => BitVec.ofNat 64 (bytesAt b (off + 8 * k) 8)
  { c := row 0 1024, cr := row 0x2000 32, cc := row 0x2100 32, mc := row 0x2200 32, mr := row 0x2300 32,
    p := BitVec.ofNat 64 (bytesAt b 0x2400 8) }

/-! ## A course image (R371) -/

/-- sr.tpc, sr.fault, sr.faultmask and sr.faultaddr as an image keeps them (log 7). -/
def Thread.regBytes (t : Thread) : List Byte :=
  leBytes 8 t.tpc.toNat ++ leBytes 4 t.fault.toNat ++ leBytes 4 t.faultmask.toNat ++ leBytes 8 t.faultaddr.toNat

/-- What a save of a course writes: offsets and bytes. Trap records and log entries are in the image already (R368); beside them
the device keeps sr.tpc, sr.fault, sr.faultmask and sr.faultaddr in the trap record's fields of those names (log 7). Where `keep` holds the
lines of names stay in the register store (R67). -/
def Course.imageParts (c : Course) (gens : List Nat) (k : Nat) (keep : Bool) : List (Nat × List Byte) :=
  let pend := (c.log.filter fun e => e.isSome).length
  let head := leBytes 4 c.liveMask.toNat ++ leBytes 1 c.tiles.length ++ leBytes 1 pend ++ leBytes 2 0 ++ leBytes 8 c.tileWait
  let threads := lanes32.flatMap fun l => match FMap.get c.threads l with | some t => c.threadBytes k t | none => padTo 256 []
  let log := (List.range 8).map fun e => (0x2100 + 1344 * e, match nth c.log e none with | some x => x.bytes | none => padTo 64 [])
  let regs := c.threads.flatMap fun p =>
    let o := 0x4B00 + 1024 * p.1
    if p.2.inHandler then [(o + 8, p.2.regBytes)] else [(o + 8, p.2.regBytes), (o + 0x24, leBytes 2 0)]
  let tiles := c.tiles.zipIdx.map fun p => (0x10000 + 9344 * p.2, p.1.bytes)
  let sec := c.regSection gens
  [(0, padTo 0x100 head ++ threads)] ++ log ++ regs ++ (if keep then c.sectionParts sec else [(0xCB00, sec)]) ++ tiles

/-- A restored thread waits again where it waited (R142): the wait as the device keeps it for the thread, if the image still has the
thread waiting at that unit; sleep with the cycles of the image; FORK_RANGE that is due stays due. -/
def Thread.waitAgain (t prev : Thread) : Thread :=
  if prev.wait == .range && prev.pc == t.pc then { t with wait := .range }
  else if t.progress.isNone || prev.pc != t.pc then t
  else
    match prev.wait with
    | .join | .conv | .repack _ _ _ | .emit | .yield _ => { t with wait := prev.wait, waitLen := prev.waitLen, progress := none }
    | .sleep _ => { t with wait := .sleep (t.progress.getD 0), waitLen := prev.waitLen, progress := none }
    | _ => t

/-- The latch of a member of a group whose hold was saved whole: its row of the course's record (R73), its group as the device kept it. -/
def SavedLatch.ofGroup (sv : SavedLatch) (rec' : LatchRec) (l : Nat) (prev : Thread) : SavedLatch :=
  if sv.group then
    { sv with
      record := { rec' with pinned := true }, value := rec'.val.at rec'.wide l,
      members := match prev.savedFor sv.pipe.val with | some o => o.members | none => [] }
  else sv

/-- Reads a course image back; what no image holds (what a waiting thread waits for, stamps on their way) comes from `old`, the course
as the device last saw it; a count of the wait sentinel goes on while a course is suspended (R335). `gens` are the generations of the
core's latches, into which the saved ones are reloaded (R73). -/
def readCourse (b : List Byte) (old : Course) (gens : List Nat) (now : Nat) : Course :=
  let live := lanesOf (BitVec.ofNat 32 (bytesAt b 0 4))
  let sec := b.drop 0xCB00
  let latches := (List.range 4).map fun k => readLatch sec gens k
  let thread (l : Nat) : Nat × Thread :=
    let prev := (FMap.get old.threads l).getD { pc := 0 }
    let t := (readThread ((b.drop (0x100 + 256 * l)).take 256)).waitAgain prev
    let o := 0x4B00 + 1024 * l
    let fault := BitVec.ofNat 32 (bytesAt b (o + 0x10) 4)
    (l, { t with
      readySince := now, sentinel := if prev.pc == t.pc then max t.sentinel prev.sentinel else t.sentinel,
      saved := t.saved.map fun sv => sv.ofGroup (nth latches sv.pipe.val {}) l prev,
      tpc := BitVec.ofNat 64 (bytesAt b (o + 8) 8), fault := fault, faultmask := BitVec.ofNat 32 (bytesAt b (o + 0x14) 4),
      faultaddr := BitVec.ofNat 64 (bytesAt b (o + 0x18) 8), inHandler := fld (bytesAt b (o + 0x24) 2) 15 1 == 1,
      parked := t.parked.map (fun p => { p with code := fault.toNat % 256 }), stamps := prev.stamps, remote := prev.remote, haltedBy := prev.haltedBy })
  let tiles := bytesAt b 4 1
  { threads := live.map thread
    names := (List.range 64).map fun n => readName sec (2 * n)
    dead := (List.range 64).map fun n => BitVec.ofNat 32 (bytesAt sec (0x100 + 4 * n) 4)
    opf := (List.range 16).map fun n => readName sec (0x80 + 2 * n)
    latches := latches
    tiles := (List.range tiles).map fun k => readTile ((b.drop (0x10000 + 9344 * k)).take 9344)
    log := (List.range 8).map fun e => readLog ((b.drop (0x2100 + 1344 * e)).take 1344)
    tileWait := bytesAt b 8 8
    bad := old.bad }

end Sys2Proof.Machine
end

