-- ==== Sys2Proof/Machine/Slices.lean ====
section
/-!
DEFINITION. Slices as the scheduler accounts for them: period ends and class counters (R325), completion records and their event
rings (R384), and the end of teams and grids (R31, R321).
-/

namespace Sys2Proof.Machine

/-- Hands a record to an event ring of a partition (R385); it waits in the device until it is posted. -/
def State.eventRecord (s : State) (part ring : Nat) (b : List Byte) : State :=
  let p := s.part part
  let r := nth p.eventRings ring {}
  (s.setPart part { p with eventRings := setNth p.eventRings ring { r with waiting := r.waiting ++ [b] } }).due
    (.eventRecordPost (Fin.ofNat 16 part) (Fin.ofNat 16 ring))

/-- The end stamp of a period (R325): E of die 0, less U for a domain deadline. -/
def State.endStamp (s : State) (x : Slice) : State × Nat :=
  let (s, e, _) := s.readClock 0
  (s, if x.sdom then e - s.uNs else e)

/-- Counts a period end in the class of a slice (R325). -/
def State.countPeriod (s : State) (x : Slice) (t : Nat) : State :=
  let p := s.part x.part
  let k := nth p.classes x.cls {}
  let late := x.deadline != 0 && decide (x.deadline.toNat < t)
  let excess := BitVec.ofNat 64 (t - x.deadline.toNat)
  let k := { count := k.count + 1, misses := if late then k.misses + 1 else k.misses,
             worst := if late then (if k.worst.toNat < excess.toNat then excess else k.worst) else k.worst }
  s.setPart x.part { p with classes := setNth p.classes x.cls k }

/-- Completion status codes (R384). -/
inductive Status where
  | done | partly | killed | rejected
deriving DecidableEq, Repr

def Status.num : Status → Nat
  | .done => 0
  | .partly => 1
  | .killed => 2
  | .rejected => 3

/-- Adds a team index to a list of ranges. -/
def addRange (rs : List (Nat × Nat)) (k : Nat) : List (Nat × Nat) :=
  match rs with
  | [] => [(k, 1)]
  | (a, n) :: t =>
    if k + 1 < a then (k, 1) :: (a, n) :: t
    else if k + 1 = a then (k, n + 1) :: t
    else if k < a + n then (a, n) :: t
    else if k = a + n then
      match t with
      | (b, m) :: u => if b = k + 1 then (a, n + 1 + m) :: u else (a, n + 1) :: t
      | [] => [(a, n + 1)]
    else (a, n) :: addRange t k

/-- How many teams a list of ranges holds. -/
def rangeCount (rs : List (Nat × Nat)) : Nat := rs.foldl (fun n r => n + r.2) 0

/-- Whether a team index is in a list of ranges. -/
def inRanges (rs : List (Nat × Nat)) (k : Nat) : Bool := rs.any fun r => decide (r.1 ≤ k) && decide (k < r.1 + r.2)

/-- The range entries of a PARTIAL record, four ranges to an entry (R384). -/
def rangeEntries (num : Nat) (rs : List (Nat × Nat)) : Nat → List (List Byte)
  | 0 => []
  | n + 1 =>
    let q (k : Nat) : List Byte := let r := nth rs k (0, 0); leBytes 3 r.1 ++ leBytes 3 r.2
    (q 0 ++ q 1 ++ leBytes 3 0 ++ leBytes 1 2 ++ q 2 ++ q 3 ++ leBytes 4 num) :: rangeEntries num (rs.drop 4) n

/-- The 32 bytes of a completion record (R384). -/
def completionRecord (x : Slice) (st : Status) (t entries : Nat) : List Byte :=
  let late := x.deadline != 0 && decide (x.deadline.toNat < t)
  leBytes 8 t ++ leBytes 4 x.num ++ leBytes 1 st.num ++
  leBytes 1 (x.cls + (decide (x.redispatched ≠ 0)).toNat * 16 + x.streamLost.toNat * 32) ++ leBytes 1 entries ++ leBytes 1 1 ++
  leBytes 8 (if late then t - x.deadline.toNat else 0) ++
  leBytes 8 (x.firstCode + x.records * 2 ^ 8 + x.eccs * 2 ^ 32 + x.redispatched * 2 ^ 48)

/-- The ring a completion goes to: none for bit 63, ring 0 for a handle that is not allowed (R384). -/
def Slice.ringOf (x : Slice) : Option Nat :=
  let h := x.fieldAt 0x58 8
  if h / 2 ^ 63 = 1 ∧ h % 2 ^ 63 / 16 = 0 then none else if h / 16 = 0 then some h else some 0

/-- Whether a slice has run: some team of it has been placed (R325). -/
def Slice.ran (x : Slice) : Bool := decide (0 < x.nextTeam)

/-- Lines left in register stores go (R67): their courses are read back, or run no more. -/
def State.dropLines (s : State) (p : LineLeft → Bool) : State :=
  { s with cores := s.cores.map fun (q : Nat × Core) => (q.1, { q.2 with left := q.2.left.filter fun x => !p x }) }

/-- Completes a slice: it enters Complete, its period is counted if it ran, its record is posted, and its entry is freed when everything
is posted (R321, R325, R384). -/
def State.completeSlice (s : State) (key : Nat) (st : Status) : State :=
  match FMap.get s.slices key with
  | none => s
  | some x =>
    let (s, t) := s.endStamp x
    let s := if st == .rejected || !x.ran then s else s.countPeriod x t
    let entries := if st == .partly then (x.ended.length + 3) / 4 else 0
    let s := s.dropLines fun l => l.team / 2 ^ 24 == key
    let s := s.setSlice key { x with state := .complete, consumed := 0 }
    match x.ringOf with
    | none => { s with slices := FMap.erase s.slices key }
    | some r => (completionRecord x st t entries :: rangeEntries x.num x.ended entries).foldl (fun s b => s.eventRecord x.part r b) s

/-- Whether every team of a grid has ended, lost ones that are not run again included (R31, R383). -/
def Slice.gridDone (x : Slice) : Bool := rangeCount x.ended + x.retired.length == x.gridTeams

/-- Completes a slice whose grid has completed. -/
def State.checkGrid (s : State) (key : Nat) : State :=
  match FMap.get s.slices key with
  | none => s
  | some x =>
    if x.gridDone && x.state != .complete then s.completeSlice key (if x.retired.isEmpty then .done else .partly) else s

/-- Frees tiles of a cluster's pool and lets waiting courses be granted (R212). -/
def State.freeTiles (s : State) (cluster n : Nat) : State :=
  if n = 0 then s
  else
    let c := s.cluster cluster
    let s := s.setCluster cluster { c with freeTiles := c.freeTiles + n }
    if c.pool.isEmpty then s else s.due (.tilePoolGrant cluster)

/-- Takes a course out of its cluster's engine: requests, accepted work, waiting for tiles. -/
def State.leaveEngine (s : State) (cluster : Nat) (r : CourseRef) : State :=
  let c := s.cluster cluster
  s.setCluster cluster
    { c with requests := c.requests.filter (fun q => q.who != r), work := c.work.filter (fun w => w.1 != r),
             pool := c.pool.filter (fun q => q != r) }

/-- A team that holds its gang's cluster memory leaves: the memory is the gang's, and its lowest-indexed resident team holds it from now
on (R280). -/
def State.passClm (s : State) (tk : Nat) (t : Team) : State :=
  match if t.clmOwner = tk then s.teams.find? (fun p => p.1 != tk && p.2.clmOwner == tk) else none with
  | none => s
  | some n =>
    let pass (p : Nat × Team) : Team :=
      let u := if p.1 = n.1 then { p.2 with clmBytes := t.clmBytes, clm := t.clm, clmBad := t.clmBad } else p.2
      if p.1 != tk && p.2.clmOwner == tk then { u with clmOwner := n.1 } else u
    { s with teams := s.teams.map fun p => (p.1, pass p) }

/-- Removes a team from its core: courses, holds, tiles (R368 step 7, R31). -/
def State.releaseTeam (s : State) (tk : Nat) : State :=
  match FMap.get s.teams tk with
  | none => s
  | some t =>
    let cl := clusterOfCore t.core
    let core := s.core t.core
    let s := s.setCore t.core { core with holds := core.holds.filter fun h => h.team != tk }
    let tiles := (t.courses.map fun p => if p.2.suspended || p.2.awaitTiles then 0 else p.2.tiles.length).foldl (· + ·) 0
    let s := s.passClm tk t
    let s := (FMap.keys t.courses).foldl (fun s c => s.leaveEngine cl ⟨tk, c⟩) s
    ({ s with teams := FMap.erase s.teams tk }.freeTiles cl tiles).due (.teamPlacement (Fin.ofNat 16 t.part))

/-- Ends a team that has ended (R31), and its slice with its last team. -/
def State.endTeam (s : State) (tk : Nat) : State :=
  match FMap.get s.teams tk with
  | none => s
  | some t =>
    let key := sliceKey t.part t.slice
    let s := s.releaseTeam tk
    match FMap.get s.slices key with
    | none => s
    | some x => (s.setSlice key { x with ended := addRange x.ended t.index, streamLost := x.streamLost || t.lost }).checkGrid key

/-- Ends a slice by KILL: its teams are removed, and it completes with status KILLED (R324, R395); its
record tells whether some team's stream was set LOST (R384). -/
def State.killSlice (s : State) (key : Nat) : State :=
  let teams := s.teams.filter fun (p : Nat × Team) => sliceKey p.2.part p.2.slice == key
  let s := teams.foldl (fun s p => s.releaseTeam p.1) s
  match FMap.get s.slices key with
  | none => s
  | some x =>
    let lost := teams.any (fun p => p.2.lost) || x.kept.any fun p => p.2.lost
    ((s.setSlice key { x with killed := true, savedTeams := [], streamLost := x.streamLost || lost }).completeSlice key .killed).due
      (.teamPlacement (Fin.ofNat 16 x.part))

/-- Ends a budget period at a yield (R135): every live thread of every team of the slice waits at a yield or has ended. A saved team whose
threads all wait at a yield does not hold the period open (log 50, DESIGN CHOICE). -/
def State.checkYield (s : State) (key : Nat) : State :=
  match FMap.get s.slices key with
  | none => s
  | some x =>
    let teams := s.teams.filter fun (p : Nat × Team) => sliceKey p.2.part p.2.slice == key
    let threads := teams.flatMap fun p => p.2.courses.flatMap fun q => q.2.threads.map Prod.snd
    let deadline (t : Thread) : Option W64 := match t.wait with | .yield d => some d | _ => none
    let resident := threads.filterMap deadline
    let savedOk := x.savedTeams.all fun k => x.savedYields.any fun y => y.1 == k
    let any := !resident.isEmpty || !x.savedYields.isEmpty
    if x.state == .running && any && savedOk && resident.length == threads.length then
      let (s, t) := s.endStamp x
      let s := s.countPeriod x t
      let ds := (resident ++ x.savedYields.flatMap fun y => y.2).filter fun d => d != 0
      let d := ds.foldl (fun (acc : W64) d => if acc = 0 then d else if d.toNat < acc.toNat then d else acc) 0
      (s.setSlice key
        { x with state := .ready, consumed := 0, deadline := if d = 0 then x.deadline else d,
                 yielded := teams.map (fun p => p.2.index) ++ x.savedYields.map Prod.fst, savedYields := [] }).due
        (.teamPlacement (Fin.ofNat 16 x.part))
    else s

end Sys2Proof.Machine
end

