-- ==== Sys2Proof/Machine/Tiles.lean ====
section
/-!
DEFINITION. The matrix engine's arithmetic (R160 to R162, R214 to R224): the values of fragments, one pass, the magnitude words, the
check at drain, fill and drains. It acts on one tile.
-/

namespace Sys2Proof.Machine

/-! ## Elements (R160 to R162, R215) -/

/-- The bit string of a lane's element names (R215). -/
def bitString (names : List W32) : Nat := (names.zipIdx.map fun p => p.1.toNat * 2 ^ (32 * p.2)).foldl (· + ·) 0

/-- A value times a block scale; 0xFF poisons (R161). -/
def scaled (scale : Nat) (v : FVal) : FVal :=
  if scale = 0xFF then .nan
  else match v with
    | .nan => .nan
    | .inf n => .inf n
    | .fin n m e => .fin n m (e + (scale : Int) - 127)

/-- The value of element `k` of an I4X block string, before the scale (R162). -/
def i4xValue (bits k : Nat) : FVal :=
  let byte := fld bits (8 * (k / 2)) 8
  let lo := byte % 16
  let hi := byte / 16
  let small (c : Nat) : FVal := .fin (decide (8 ≤ c)) (if c < 8 then c else 16 - c) 0
  if k % 2 = 0 then
    if lo = 8 then .fin (decide (8 ≤ hi)) 1 ((2 * (hi % 8) + 1 : Nat) - 7) else small lo
  else if lo = 8 || hi = 8 then .fin false 0 0 else small hi

/-- The value of element `k` of a lane's fragment: its element bit string and its scale name (R214, R215). -/
def elemValue (f : MFmt) (isA : Bool) (bits scale k : Nat) : FVal :=
  let code (w : Nat) : Nat := fld bits (w * k) w
  let block := fld scale (8 * (k / 32)) 8
  match f with
  | .e4m3 => Fmt.e4m3.val (code 8)
  | .e5m2 => Fmt.e5m2.val (code 8)
  | .e4m3e5m2 => if isA then Fmt.e4m3.val (code 8) else Fmt.e5m2.val (code 8)
  | .e5m2e4m3 => if isA then Fmt.e5m2.val (code 8) else Fmt.e4m3.val (code 8)
  | .mxf8 => scaled block (Fmt.e4m3.val (code 8))
  | .mxf6 => scaled block (Fmt.e2m3.val (code 6))
  | .mxf4 => scaled block (Fmt.e2m1.val (code 4))
  | .i4x => scaled block (i4xValue bits k)
  | .mxi8 => scaled block (.fin (decide (128 ≤ code 8)) (if code 8 < 128 then code 8 else 256 - code 8) (-6))
  | .bf16 => Fmt.bf16.val (code 16)
  | .f16 => Fmt.f16.val (code 16)
  | .f32 => Fmt.f32.val (code 32)
  | .f64 => Fmt.f64.val (code 64)

/-- K (R214). -/
def passDepth : MFmt → Nat
  | .e4m3 | .e5m2 | .e4m3e5m2 | .e5m2e4m3 | .mxf8 | .mxf6 | .mxi8 => 32
  | .mxf4 | .i4x => 64
  | .bf16 | .f16 => 16
  | .f32 => 8
  | .f64 => 4

/-- A lane's fragment as values. -/
def laneValues (f : MFmt) (isA : Bool) (names : List W32) : List FVal :=
  let bits := bitString (names.take f.elemNames)
  let scale := (nth names f.elemNames 0).toNat
  (List.range (passDepth f)).map fun k => elemValue f isA bits scale k

/-! ## Accumulation (R218 to R220) -/

/-- An exact sum: NaN, or both infinities, give NaN (XSum). -/
def xsum (vs : List FVal) : FVal := vs.foldl (FVal.add false) (.fin false 0 0)

/-- Acc: the new cell and whether it was written. -/
def accCell (x : W64) (s : FVal) : W64 × Bool :=
  match s with
  | .fin _ 0 _ => (x, false)
  | .nan => (BitVec.ofNat 64 Fmt.f64.qnan, true)
  | s => (BitVec.ofNat 64 (Fmt.f64.round .rne false (FVal.add false (Fmt.f64.val x.toNat) s)), true)

/-- Adds the magnitude of a written value to a magnitude word, rounding upward; a non-finite value makes it +Inf (R220). -/
def addMag (m : W64) (v : W64) : W64 :=
  match Fmt.f64.val v.toNat with
  | .fin _ _ _ => BitVec.ofNat 64 (Fmt.f64.add .rup m.toNat (v.toNat % 2 ^ 63))
  | .nan | .inf _ => 0x7FF0000000000000

/-- Adds the written ones of a list of cells to a magnitude word, in order. -/
def addMags (m : W64) (cells : List (W64 × Bool)) : W64 := cells.foldl (fun m p => if p.2 then addMag m p.1 else m) m

/-- 32 indices. -/
abbrev ix32 : List Nat := List.range 32

/-- One accumulation step of the whole tile: sums for each element, and how an element takes its sum. -/
def Tile.accumulate (t : Tile) (sums : List (List FVal)) (cell : W64 → FVal → W64 × Bool) : Tile :=
  let at' (i j : Nat) : FVal := nth (nth sums i []) j (.fin false 0 0)
  let c := ix32.map fun i => ix32.map fun j => cell (nth t.c (32 * i + j) 0) (at' i j)
  let cr := ix32.map fun j => accCell (nth t.cr j 0) (xsum (ix32.map fun i => at' i j))
  let cc := ix32.map fun i => accCell (nth t.cc i 0) (xsum (ix32.map fun j => at' i j))
  let one (i j : Nat) : W64 × Bool := nth (nth c i []) j (0, false)
  { c := (c.flatMap id).map Prod.fst, cr := cr.map Prod.fst, cc := cc.map Prod.fst
    mc := ix32.map fun j => addMags (nth t.mc j 0) ((ix32.map fun i => one i j) ++ [nth cr j (0, false)])
    mr := ix32.map fun i => addMags (nth t.mr i 0) ((ix32.map fun j => one i j) ++ [nth cc i (0, false)])
    p := if t.p == 0xFFFFFFFFFFFFFFFF then t.p else t.p + 1 }

/-- An element of a fused step takes its product with one rounding (R219). -/
def fmaCell (x : W64) (prod : FVal) : W64 × Bool :=
  (BitVec.ofNat 64 (Fmt.f64.round .rne false (FVal.add false (Fmt.f64.val x.toNat) prod)), true)

/-- Whether element `k` takes part in a sparse pass, and with A as +0 (R221). -/
inductive SegUse where
  | whole | zeroA | skip
deriving DecidableEq, Repr

/-- What Q says of a segment. -/
def segUse (q : Option W32) (g : Nat) : SegUse :=
  match q with
  | none => .whole
  | some q => if q.getLsbD g then .whole else if q.getLsbD (4 + g) then .zeroA else .skip

/-- One pass (R218, R219, R221): `a` and `b` are the 32 lanes' names. -/
def Tile.pass (t : Tile) (f : MFmt) (a b : List (List W32)) (q : Option W32) : Tile :=
  let k := passDepth f
  let av := a.map (laneValues f true)
  let bv := b.map (laneValues f false)
  let get (m : List (List FVal)) (i n : Nat) : FVal := nth (nth m i []) n (.fin false 0 0)
  if f.exactPass then
    let ks := (List.range k).filter fun n => segUse q (n / (k / 4)) != .skip
    if ks.isEmpty then t
    else
      let prod (i j n : Nat) : FVal :=
        FVal.mul (if segUse q (n / (k / 4)) == .zeroA then .fin false 0 0 else get av i n) (get bv j n)
      t.accumulate (ix32.map fun i => ix32.map fun j => xsum (ks.map fun n => prod i j n)) accCell
  else
    (List.range k).foldl (fun t n => t.accumulate (ix32.map fun i => ix32.map fun j => FVal.mul (get av i n) (get bv j n)) fmaCell) t

/-! ## Zero, fill, check, drain (R212, R222 to R224) -/

/-- A tile of zeros. -/
def zeroTile : Tile :=
  { c := List.replicate 1024 0, cr := List.replicate 32 0, cc := List.replicate 32 0, mc := List.replicate 32 0, mr := List.replicate 32 0, p := 0 }

/-- The cells of column `j` and of row `i`. -/
def Tile.col (t : Tile) (j : Nat) : List W64 := ix32.map fun i => nth t.c (32 * i + j) 0
def Tile.row (t : Tile) (i : Nat) : List W64 := ix32.map fun j => nth t.c (32 * i + j) 0

/-- The fixed-order sum of R222. -/
def orderedSum (cs : List W64) : W64 := cs.foldl (fun s c => BitVec.ofNat 64 (Fmt.f64.add .rne s.toNat c.toNat)) 0

/-- The exact sum of magnitudes, rounded upward once; +Inf when a value is not finite. -/
def magSum (cs : List W64) : W64 :=
  match xsum (cs.map fun c => Fmt.f64.val (c.toNat % 2 ^ 63)) with
  | .fin n m e => BitVec.ofNat 64 (Fmt.f64.round .rup false (.fin n m e))
  | .nan | .inf _ => 0x7FF0000000000000

/-- Width of a fill or drain kind in columns (R223). -/
def FillWidth : FillKind → Nat
  | .f64 => 8 | .f32 => 16 | .bf16 => 32

/-- Where a fill or drain begins: col0 of the column operand (R223). -/
def fillColumn (k : FillKind) (v : Nat) : Nat := v % 32 / FillWidth k * FillWidth k

/-- Column `c` of a fill source in a lane's 16 names, as binary64. For .f64 the bits go over as they are, a NaN's too (log 56, DESIGN CHOICE). -/
def fillValue (k : FillKind) (names : List W32) (c : Nat) : W64 :=
  let w (m : Nat) : Nat := (nth names m 0).toNat
  match k with
  | .f64 => BitVec.ofNat 64 (w (2 * c + 1) * 2 ^ 32 + w (2 * c))
  | .f32 => BitVec.ofNat 64 (Fmt.f64.round .rne false (Fmt.f32.val (w c)))
  | .bf16 => BitVec.ofNat 64 (Fmt.f64.round .rne false (Fmt.bf16.val (fld (w (c / 2)) (16 * (c % 2)) 16)))

/-- tile.fill (R223): `src` are the 32 lanes' 16 names. -/
def Tile.fill (t : Tile) (k : FillKind) (col : Nat) (src : List (List W32)) : Tile :=
  let w := FillWidth k
  let c := ix32.flatMap fun i => ix32.map fun j =>
    if col ≤ j && j < col + w then fillValue k (nth src i []) (j - col) else nth t.c (32 * i + j) 0
  let t' := { t with c := c, p := 0 }
  { t' with cr := ix32.map fun j => orderedSum (t'.col j), cc := ix32.map fun i => orderedSum (t'.row i),
            mc := ix32.map fun j => magSum (t'.col j), mr := ix32.map fun i => magSum (t'.row i) }

/-- A finite binary64 magnitude in units of 2^-1074, with its sign; nothing otherwise. -/
def ulps (c : W64) : Option Int :=
  match Fmt.f64.val c.toNat with
  | .fin n m e => some (signedMag n (m * 2 ^ (e + 1074).toNat))
  | .nan | .inf _ => none

/-- Whether a column or row fails the check of R222. -/
def lineFails (cells : List W64) (check mag p : W64) : Bool :=
  match ulps (orderedSum cells), ulps check, cells.mapM ulps with
  | some s, some x, some vs =>
    match ulps mag with
    | none => false
    | some m => decide ((m.natAbs + (vs.map Int.natAbs).foldl (· + ·) 0) + p.toNat * 2 ^ 53 < (s - x).natAbs * 2 ^ 47)
  | _, _, _ => false

/-- The check of R222: the detail of ACC_CHECK above the tile, [20] row and [25:21] index, for the first failure. -/
def Tile.check (t : Tile) : Option Nat :=
  match ix32.find? fun j => lineFails (t.col j) (nth t.cr j 0) (nth t.mc j 0) t.p with
  | some j => some (j * 2 ^ 5)
  | none => (ix32.find? fun i => lineFails (t.row i) (nth t.cc i 0) (nth t.mr i 0) t.p).map fun i => 2 ^ 4 + i * 2 ^ 5

/-- The 16 names a drain writes for row `i` (R223). -/
def Tile.drainRow (t : Tile) (k : FillKind) (col i : Nat) : List W32 :=
  let v (c : Nat) : FVal := Fmt.f64.val (nth t.c (32 * i + col + c) 0).toNat
  (List.range 16).map fun m =>
    match k with
    | .f64 => let x := nth t.c (32 * i + col + m / 2) 0; if m % 2 = 0 then lo32 x else hi32 x
    | .f32 => BitVec.ofNat 32 (Fmt.f32.round .rne false (v m))
    | .bf16 => BitVec.ofNat 32 (Fmt.bf16.round .rne false (v (2 * m)) + Fmt.bf16.round .rne false (v (2 * m + 1)) * 2 ^ 16)

/-- The value times 2^-x. -/
def FVal.shift (v : FVal) (x : Int) : FVal :=
  match v with
  | .fin n m e => .fin n m (e - x)
  | .nan => .nan
  | .inf n => .inf n

/-- An element of a requantising drain (R224). -/
def quantElem (k : QKind) (v : FVal) (x : Int) : Nat :=
  match k with
  | .mxf8 => Fmt.e4m3.round .rne true (v.shift x)
  | .mxf6 => Fmt.e2m3.round .rne true (v.shift x)
  | .mxf4 => Fmt.e2m1.round .rne true (v.shift x)
  | .mxi8 => ((FVal.toInt .rne (-127) 127 (v.shift (x - 6))) % 256).toNat

/-- Width of an element and emax of a kind (R224). -/
def quantWidth : QKind → Nat
  | .mxf8 | .mxi8 => 8 | .mxf6 => 6 | .mxf4 => 4
def quantEmax : QKind → Int
  | .mxf8 => 8 | .mxf6 | .mxf4 => 2 | .mxi8 => 0

/-- QRow (R224): the element names and the scale of row `i`. -/
def Tile.quantRow (t : Tile) (k : QKind) (i : Nat) : List W32 × W32 :=
  let vs := (t.row i).map fun c => Fmt.f64.val c.toNat
  let names (codes : List Nat) : List W32 :=
    let bits := (codes.zipIdx.map fun p => p.1 * 2 ^ (quantWidth k * p.2)).foldl (· + ·) 0
    (List.range k.elemNames).map fun m => BitVec.ofNat 32 (bits / 2 ^ (32 * m))
  if vs.any fun v => match v with | .fin _ _ _ => false | _ => true then (names (List.replicate 32 0), 0xFF)
  else
    let m := (t.row i).foldl (fun m c => max m (c.toNat % 2 ^ 63)) 0
    let x : Int := match Fmt.f64.val m with
      | .fin _ mag e => if mag = 0 then 0 else clampInt (-127) 127 (e + (Nat.log2 mag : Int) - quantEmax k)
      | _ => 0
    (names (vs.map fun v => quantElem k v x), BitVec.ofInt 32 (x + 127))

/-- Applies accepted work to a course's tiles (R225, R226). -/
def Course.applyWork (c : Course) (op : EngineOp) : Course :=
  let on (k : Nat) (f : Tile → Tile) : Course :=
    match c.tiles[k]? with
    | some t => { c with tiles := setNth c.tiles k (f t) }
    | none => c
  match op with
  | .pass f k a b q => on k fun t => t.pass f a b q
  | .zero k => let y := on k fun _ => zeroTile; { y with bad := y.heal [.tile k] }
  | .fill kd k col src => on k fun t => t.fill kd col src

/-- Applies all accepted work of a course, oldest first: it completes before the course is saved (R227). -/
def State.flushWork (s : State) (cluster : Nat) (r : CourseRef) : State :=
  let k := s.cluster cluster
  let mine := (k.work.filter fun w => w.1 == r).map Prod.snd
  let s := s.onCourse r.team r.course fun c => mine.foldl (fun c op => c.applyWork op) c
  s.setCluster cluster { k with work := k.work.filter fun w => w.1 != r }

end Sys2Proof.Machine
end

