-- ==== Sys2Proof/Machine/Rings.lean ====
section
/-!
DEFINITION. The explicit memory levels (R249, R280 to R282), the engine contexts (R299, R307, R308), and the slot rings with their fills
(R304 to R306, R313).
-/

namespace Sys2Proof.Machine

/-! ## Explicit levels (R249, R280 to R282) -/

/-- Bytes of cluster memory a team reaches, and the team that holds them (R280). -/
def State.clmOf (s : State) (t : Team) : Nat × Nat :=
  match FMap.get s.teams t.clmOwner with
  | some o => (t.clmOwner, o.clmBytes)
  | none => (t.clmOwner, 0)

/-- CHIPMIB in bytes: a die's share of the chip scratchpad (R280, R339). -/
def Partition.chipShare (q : Partition) : Nat := q.cfg 0x22 2 * 2 ^ 20

/-- Offsets a level has for a team (R280). -/
def State.levelRange (s : State) (t : Team) (l : Level) : Nat :=
  match l with
  | .spad => match s.sliceOf t with | some x => x.scratch | none => 0
  | .clm => (s.clmOf t).2
  | .chip => let g := (s.part t.part).chipShare; if s.boot == .full then 4 * g else g

/-- Reads bytes at their home bank. -/
def State.levelRead (s : State) (t : Team) (tk : Nat) (l : Level) (o n : Nat) : List Byte :=
  match l with
  | .spad => match FMap.get s.teams tk with | some t => t.spad.readN o n | none => []
  | .clm => match FMap.get s.teams (s.clmOf t).1 with | some t => t.clm.readN o n | none => []
  | .chip => (s.part t.part).chip.readN o n

/-- Whether a range touches a unit of `u` bytes that is poisoned. -/
def meetsBad (bad : List Nat) (u o n : Nat) : Bool := bad.any fun k => decide (u * k < o + n) && decide (o < u * k + u)

/-- The poisoned units that a write does not cover whole. -/
def stillBad (bad : List Nat) (u o n : Nat) : List Nat := bad.filter fun k => !(decide (o ≤ u * k) && decide (u * k + u ≤ o + n))

/-- Whether bytes of a level are poisoned (R377, R378): words of a scratchpad or of cluster memory, granules of the chip scratchpad. -/
def State.levelBad (s : State) (t : Team) (tk : Nat) (l : Level) (o n : Nat) : Bool :=
  match l with
  | .spad => match FMap.get s.teams tk with | some t => meetsBad t.spadBad 4 o n | none => false
  | .clm => match FMap.get s.teams (s.clmOf t).1 with | some t => meetsBad t.clmBad 4 o n | none => false
  | .chip => meetsBad (s.part t.part).chipBad 32 o n

/-- Writes bytes at their home bank. -/
def State.levelWrite (s : State) (t : Team) (tk : Nat) (l : Level) (o : Nat) (b : List Byte) : State :=
  match l with
  | .spad => { s with teams := FMap.modify s.teams tk fun t => { t with spad := t.spad.writeN o b, spadBad := stillBad t.spadBad 4 o b.length } }
  | .clm =>
    { s with teams := FMap.modify s.teams (s.clmOf t).1 fun t => { t with clm := t.clm.writeN o b, clmBad := stillBad t.clmBad 4 o b.length } }
  | .chip =>
    let q := s.part t.part
    s.setPart t.part { q with chip := q.chip.writeN o b, chipBad := stillBad q.chipBad 32 o b.length }

/-! ## Contexts (R299, R307, R308) -/

/-- A context of a slice. -/
def State.ctx (s : State) (key k : Nat) : Ctx := match FMap.get s.slices key with | some x => nth x.ctxs k {} | none => {}

/-- Changes a context. -/
def State.onCtx (s : State) (key k : Nat) (f : Ctx → Ctx) : State :=
  { s with slices := FMap.modify s.slices key fun x => { x with ctxs := setNth x.ctxs k (f (nth x.ctxs k {})) } }

/-- Changes a command of a context. -/
def State.onCmd (s : State) (key k num : Nat) (f : Cmd → Cmd) : State :=
  s.onCtx key k fun c => { c with queue := c.queue.map fun q => if q.num = num then f q else q }

/-- Raises a counter over the numbers that have completed (R267). -/
def Ctx.advance (c : Ctx) : Nat → Ctx
  | 0 => c
  | n + 1 =>
    if c.completed.contains (c.counter + 1) then
      ({ c with counter := c.counter + 1, completed := c.completed.filter fun k => k != c.counter + 1 } : Ctx).advance n
    else c

/-- A command has completed. -/
def Ctx.complete (c : Ctx) (num : Nat) : Ctx :=
  ({ c with queue := c.queue.filter (fun q => q.num != num), completed := c.completed ++ [num] } : Ctx).advance (c.completed.length + 1)

/-- The threads' own stamped stores without some that are gone. -/
def State.dropStamps (s : State) (gone : List Nat) : State :=
  if gone.isEmpty then s
  else s.mapThreads fun t => { t with stamps := t.stamps.filter fun i => !gone.contains i }

/-- The command completes; a stamped store of it that never became visible is gone (R308). -/
def State.finishCmd (s : State) (key k num : Nat) : State :=
  let mine (x : StampedStore) : Bool := x.cmd == some (key, num)
  let gone := (s.stores.filter mine).map fun x => x.id
  let s := { s with stores := s.stores.filter fun x => !mine x }.dropStamps gone
  s.onCtx key k fun c => c.complete num

/-- An engine access of a command meets a fault (R308, R378, R379): its record, the error's where it met poison, and the context stops. -/
def State.engineFault (s : State) (key k num : Nat) (code : FCode) (a : W64) (n : Nat) : State :=
  match FMap.get s.slices key with
  | none => s
  | some x =>
    let s := if code == .ecc then s.logPoisonVa x.part a (chunkLen a.toNat n) x.num else s
    let (s, token) := s.record x.part (.engine key k num)
      { code := code, kind := 2, slice := x.num, ctx := k, faultAddr := a, cmd := num }
    s.onCmd key k num fun q => { q with fault := some token }

/-! ## Rings (R304 to R306) -/

/-- The level of a ring. -/
def Ring.level (r : Ring) : Level := if r.wordA.getLsbD 31 then .clm else .spad
/-- Its offset o. -/
def Ring.offset (r : Ring) : Nat := r.wordA.toNat % 2 ^ 24
/-- Its slot bytes z. -/
def Ring.slotBytes (r : Ring) : Nat := r.wordB.toNat / 2 ^ 8
/-- Whether it is initialised. -/
def Ring.ready (r : Ring) : Bool := !r.slots.isEmpty
/-- The header of a slot (R304). -/
def Slot.header (x : Slot) : List Byte := leBytes 8 (x.state % 4 * 2 ^ 62 + x.target % 2 ^ 30 * 2 ^ 32 + x.arrived % 2 ^ 30)
/-- Whether a fill has claimed a slot and has not completed. -/
def Ring.filling (r : Ring) : Bool := r.slots.any fun x => x.state == 1

/-- A ring of a team. -/
def Team.ring (t : Team) (k : Nat) : Ring := nth t.rings k {}

/-- Sets a slot of a ring and writes its header. -/
def State.setSlot (s : State) (tk k i : Nat) (x : Slot) (f : Ring → Ring) : State :=
  match FMap.get s.teams tk with
  | none => s
  | some t =>
    let r := t.ring k
    let r' := f { r with slots := setNth r.slots i x }
    let s := { s with teams := FMap.modify s.teams tk fun t => { t with rings := setNth t.rings k r' } }
    s.levelWrite t tk r.level (r.offset + r.slots.length * r.slotBytes + 8 * i) x.header

/-! ## Fills (R301, R304, R313) -/

/-- The source of a command, read once before it writes (R301). -/
def State.sourceOf (s : State) (part src n : Nat) : Except (FCode × W64) (List Byte) := s.tableRead part true src n (pagesOf n)

/-- Runs a ring fill that has claimed its slot to its end (R301, R304), or to its fault (R308). -/
def State.runFill (s : State) (part key k : Nat) (q : Cmd) (tk r : Nat) (src : W64) (n : Nat) : State :=
  match s.sourceOf part src.toNat n with
  | .error (code, a) => s.engineFault key k q.num code a n
  | .ok b =>
    match FMap.get s.teams tk with
    | none => s.finishCmd key k q.num
    | some t =>
      let x := t.ring r
      let room := s.levelRange t x.level - (x.offset + q.slot * x.slotBytes)
      let s := s.levelWrite t tk x.level (x.offset + q.slot * x.slotBytes) (b.take room)
      (s.setSlot tk r q.slot { state := 2, target := n, arrived := n } id).finishCmd key k q.num

/-- The fills of a team's rings that have claimed a slot and that no fault has stopped: their contexts, and the commands. -/
def State.claimedFills (s : State) (tk : Nat) (t : Team) : List (Nat × Cmd) :=
  (List.range 4).flatMap fun k =>
    ((s.ctx (sliceKey t.part t.slice) k).queue.filter fun q =>
      q.started && q.fault.isNone && match q.kind with | .fill team _ _ _ => team == tk | _ => false).map fun q => (k, q)

/-- The fills that have claimed a slot of a team's rings complete (R313, R368 step 3). One that a fault has stopped, or that waits for a
plane, goes on after its resumption: no ring is in a course image (log 55). -/
def State.finishFills (s : State) (tk : Nat) : State :=
  match FMap.get s.teams tk with
  | none => s
  | some t =>
    (s.claimedFills tk t).foldl (fun s p =>
      match p.2.kind with
      | .fill team r src n =>
        if (s.planeWait t.part true .read src.toNat n (pagesOf n)).isSome then s
        else s.runFill t.part (sliceKey t.part t.slice) p.1 p.2 team r src n
      | _ => s) s

end Sys2Proof.Machine
end

