-- ==== Sys2Proof/Machine/Lines.lean ====
section
/-!
DEFINITION. The lines of the register store (R66, R67): those that saved courses have left in place, and the writing of victims to their course
images. And the device's own writes to the image of a saved team (R395).
-/

namespace Sys2Proof.Machine

/-! ## The image of a saved team (R395) -/

/-- The saved team of a key: its slice, and what the device keeps of it. -/
def State.savedTeam (s : State) (tk : Nat) : Option (Slice × Team) :=
  (FMap.get s.slices (tk / 2 ^ 24)).bind fun x => (FMap.get x.kept (tk % 2 ^ 24)).map fun k => (x, k)

/-- Changes what the device keeps of a saved team. -/
def State.onKept (s : State) (tk : Nat) (f : Team → Team) : State :=
  { s with slices := FMap.modify s.slices (tk / 2 ^ 24) fun x => { x with kept := FMap.modify x.kept (tk % 2 ^ 24) f } }

/-- Holds an access to a saved team's image that met a fault, and posts a slice-kind record (R395); none for one that waits for a plane
(R380). -/
def State.holdKept (s : State) (tk : Nat) (x : Slice) (k : Team) (h : Held) (m : AccMode) (code : FCode) : State :=
  let link := code == .linkLost && s.planeDown x.part m h.addr
  let s := s.onKept tk fun t => { t with held := t.held ++ [{ h with link := link }] }
  if link then s
  else (s.record x.part (.internal (tk / 2 ^ 24) tk) { code := code, kind := 3, slice := x.num, team := k.index, faultAddr := h.addr }).1

/-- A write of the device's own into a saved team's image; one that meets a fault is held, and a slice-kind record is posted (R395). -/
def State.savedWrite (s : State) (tk va : Nat) (b : List Byte) : State :=
  match s.savedTeam tk with
  | none => s
  | some (x, k) =>
    if !k.held.isEmpty then s.onKept tk fun t => { t with held := t.held ++ [{ addr := BitVec.ofNat 64 va, bytes := b }] }
    else
      match s.userWrite x.part va b (pagesOf b.length) with
      | (s, none) => s
      | (s, some (code, a, rest)) => s.holdKept tk x k { addr := a, bytes := rest } .write code

/-- A write of the device's own into a team's image, resident or saved. -/
def State.imageWrite (s : State) (tk va : Nat) (b : List Byte) : State :=
  if (FMap.get s.teams tk).isSome then s.teamWrite tk va b else s.savedWrite tk va b

/-! ## Victims (R66) -/

/-- A line that a saved course has left in a core is written to the course's image, and is there no more. -/
def State.writeLine (s : State) (core : Nat) (x : LineLeft) : State :=
  let c := s.core core
  (s.setCore core { c with left := c.left.filter fun y => y != x }).imageWrite x.team x.va x.bytes

/-- Writes some of the lines that saved courses have left. -/
def State.writeLines (s : State) (p : Nat → LineLeft → Bool) : State :=
  s.cores.foldl (fun s q => (q.2.left.filter (p q.1)).foldl (fun s x => s.writeLine q.1 x) s) s

/-- A line of a resident course: the team's key, the course, the line. -/
abbrev LineRef := Nat × Nat × Nat

/-- The least recently used line of some resident teams. -/
def oldestLine (ts : List (Nat × Team)) : Option LineRef :=
  let all := ts.flatMap fun p => (p.2.courses.filter fun q => !q.2.suspended).flatMap fun q =>
    q.2.linesHere.map fun l => (q.2.lastUse l, ((p.1, q.1, l) : LineRef))
  (all.foldl (fun (acc : Option (Nat × LineRef)) x => match acc with | none => some x | some m => if x.1 < m.1 then some x else acc)
    none).map Prod.snd

/-- A line of a resident course is written to the course's image, and is in the register store no more. -/
def State.evictLine (s : State) (r : LineRef) : State :=
  match FMap.get s.teams r.1, (FMap.get s.teams r.1).bind fun t => s.sliceOf t with
  | some t, some x =>
    let y := t.course r.2.1
    let (o, b) := y.lineAt (y.regSection (s.core t.core).latchGen) r.2.2
    let names := (y.lineMap.filter fun p => p.2 == r.2.2).map Prod.fst
    (s.onCourse r.1 r.2.1 fun y => { y with away := y.away ++ names.filter fun n => !y.away.contains n }).teamWrite r.1
      (x.courseImage t.index r.2.1 + o) b
  | _, _ => s

/-- One victim makes room in a core's register store for a team: a line of an evictable course of any partition, the least recently used of the
team's lines, the least recently used of its partition's (R66). -/
def State.makeLine (s : State) (core part tk : Nat) : State :=
  match (s.core core).left with
  | x :: _ => s.writeLine core x
  | [] =>
    let here := s.teams.filter fun p => p.2.core == core && p.2.part == part
    match (oldestLine (here.filter fun p => p.1 == tk)).orElse fun _ => oldestLine here with
    | some r => s.evictLine r
    | none => s

end Sys2Proof.Machine
end

