-- ==== Sys2Proof/Machine/Team.lean ====
section
/-!
DEFINITION. What happens to a team at an instruction boundary: fork keys and preorder (R36), the output stream (R45, R129), deferred
records and materialisation (R41, R43, R337), packing (R39, R40), suspension and resumption (R44), spawn bins (R47, R328), the
rendezvous of join, conv and repack (R49, R123, R124), and the end of the team (R31).
-/

namespace Sys2Proof.Machine

/-! ## Keys (R36) -/

/-- A fork key: root and ordinals. -/
abbrev Key := W32 × List (BitVec 16)

/-- A thread's key. -/
def Thread.key (t : Thread) : Key := (t.root, t.ords)

/-- Ordinals compared level by level; a proper prefix comes first. -/
def ordsLt : List (BitVec 16) → List (BitVec 16) → Bool
  | _, [] => false
  | [], _ :: _ => true
  | a :: s, b :: t => decide (a.toNat < b.toNat) || (a == b && ordsLt s t)

/-- Preorder. -/
def keyLt (a b : Key) : Bool := decide (a.1.toNat < b.1.toNat) || (a.1 == b.1 && ordsLt a.2 b.2)
/-- Preorder, not strict. -/
def keyLe (a b : Key) : Bool := !keyLt b a

/-- The lowest of some keys. -/
def lowKey (ks : List Key) : Option Key :=
  ks.foldl (fun acc k => match acc with | none => some k | some m => if keyLt k m then some k else acc) none

/-- The keys of a course's live threads. -/
def Course.keys (c : Course) : List Key := c.threads.map fun p => p.2.key

/-- Live threads of a team, resident or suspended. -/
def Team.liveCount (t : Team) : Nat := (t.courses.map fun p => p.2.threads.length).foldl (· + ·) 0
/-- Resident courses. -/
def Team.residents (t : Team) : List (Nat × Course) := t.courses.filter fun p => !p.2.suspended
/-- The lowest index that no course holds (R28). -/
def Team.freeIndex (t : Team) : Nat := ((List.range 1025).find? fun k => !(FMap.keys t.courses).contains k).getD 1025

/-! ## Deferred records (R41) -/

/-- The slot of a deferral area. -/
def Slice.deferSlot (x : Slice) (index slot : Nat) : Nat := x.fieldAt 0x68 8 + (index * x.fieldAt 0x54 2 + slot) * 512

/-- A thread about to be created: its state, its names (none where unallocated), the name that receives its ordinal, the parent
it comes from (R40), and whether FORK_RANGE is due where it stands (R41). `origin` tells parents apart: a record by its slot, a
parent of the lift by its number, a thread that REPACK moves by its place. -/
structure Newborn where
  thread : Thread
  regs : List (Option W32)
  dest : Option Nat
  ordinal : Nat
  origin : Nat := 0
  outOfRange : Bool := false

/-- The 512 bytes of a record for a parent with `first` to `last - 1` left (R41). -/
def recordBytes (parent : Newborn) (dest first last : Nat) (pc : W64) : List Byte :=
  let t := parent.thread
  let stack := (List.range 16).flatMap fun j => leBytes 8 (nth t.stack j 0).toNat
  let regs := parent.regs.flatMap fun v => leBytes 4 ((v.getD 0).toNat)
  let valloc := parent.regs.zipIdx.foldl (fun n p => if p.1.isNone then n + 2 ^ p.2 else n) 0
  padTo 512 (keyBytes t.root t.ords ++ leBytes 4 first ++ leBytes 4 last ++ leBytes 8 pc.toNat ++ leBytes 2 t.preds.toNat ++
    leBytes 1 dest ++ leBytes 1 t.stack.length ++ leBytes 4 t.tsw.toNat ++ regs ++ stack ++ leBytes 8 t.sp.toNat ++ leBytes 8 valloc)

/-- A record read back: DEPTH, FIRST and END as they stand, and the thread it describes. -/
structure DeferRec where
  depth : Nat
  root : W32
  ords : List (BitVec 16)
  first : Nat
  last : Nat
  stackn : Nat
  base : Newborn

/-- Reads a record (R41). -/
def readRecord (b : List Byte) : DeferRec :=
  let depth := bytesAt b 4 1 % 32
  let root : W32 := BitVec.ofNat 32 (bytesAt b 0 4)
  let ord (k : Nat) : BitVec 16 := BitVec.ofNat 16 (bytesAt b (8 + 2 * k) 2)
  let n := min (bytesAt b 59 1) 16
  let valloc := bytesAt b 456 8
  let dest := bytesAt b 58 1 % 64
  let t : Thread :=
    { pc := BitVec.ofNat 64 (bytesAt b 48 8), preds := BitVec.ofNat 12 (bytesAt b 56 2), tsw := BitVec.ofNat 32 (bytesAt b 60 4) &&& tswFields,
      stack := (List.range n).map fun j => BitVec.ofNat 64 (bytesAt b (320 + 8 * j) 8), sp := BitVec.ofNat 64 (bytesAt b 448 8) }
  { depth := depth, root := root, ords := (List.range (min depth 15)).map ord, first := bytesAt b 40 4, last := bytesAt b 44 4,
    stackn := bytesAt b 59 1
    base := { thread := t, dest := some dest, ordinal := 0
              regs := (List.range 64).map fun k =>
                if fld valloc k 1 = 1 then none else some (BitVec.ofNat 32 (bytesAt b (64 + 4 * k) 4)) } }

/-- In range (R41). -/
def DeferRec.inRange (r : DeferRec) : Bool :=
  decide (r.depth ≤ 15) && decide (2 ≤ r.last) && decide (r.last ≤ 65536) && decide (1 ≤ r.first) && decide (r.first < r.last) &&
  decide (r.stackn ≤ 16)

/-- The record's next key: PREFIX followed by FIRST. -/
def DeferRec.next (r : DeferRec) : Key := (r.root, r.ords ++ [BitVec.ofNat 16 (min r.first 65535)])

/-- The thread with one ordinal of the record of a slot. -/
def DeferRec.child (r : DeferRec) (slot o : Nat) (bad : Bool) : Newborn :=
  { r.base with
    origin := slot
    thread := { r.base.thread with root := r.root, ords := r.ords ++ [BitVec.ofNat 16 (min o 65535)] }
    ordinal := o, outOfRange := bad }

/-! ## Packing (R39, R40, R49) -/

/-- The value a newborn has for a name. -/
def Newborn.reg (b : Newborn) (n : Nat) : Option W32 :=
  if b.dest == some n then some (BitVec.ofNat 32 b.ordinal) else nth b.regs n none

/-- Whether the copies hold consecutive ordinals on consecutive lanes from lane 0. -/
def consecutive (bs : List Newborn) : Bool :=
  match bs with
  | [] => false
  | b :: _ => bs.zipIdx.all fun p => p.1.ordinal == b.ordinal + p.2 && p.1.dest == b.dest

/-- What a name of a fresh course holds (R40). -/
def packName (bs : List Newborn) (n : Nat) : NameVal :=
  let vals := bs.map fun b => b.reg n
  let oneParent := match bs with | [] => false | b :: _ => bs.all fun x => x.origin == b.origin
  if vals.all (fun v => v.isNone) then .free
  else if bs.any (fun b => b.dest == some n) then
    if oneParent && consecutive bs then .aff ((vals.headD none).getD 0) 1 false
    else .gen (lanes32.map fun l => (nth vals l none).getD 0)
  else if oneParent then .uni ((vals.headD none).getD 0)
  else .gen (lanes32.map fun l => (nth vals l none).getD 0)

/-- A fresh course: newborns on lanes 0 upward. A name some of its threads lack is dead for those threads (log 16). -/
def packCourse (bs : List Newborn) (now : Nat) : Course :=
  { threads := bs.zipIdx.map fun p => (p.2, { p.1.thread with readySince := now, wait := if p.1.outOfRange then .range else p.1.thread.wait })
    names := (List.range 64).map fun n => packName bs n
    dead := (List.range 64).map fun n =>
      if bs.all (fun b => (b.reg n).isNone) then 0
      else maskOf ((bs.zipIdx.filter fun p => (p.1.reg n).isNone).map Prod.snd) }

/-- Cuts a list into pieces of 32. -/
def chunks32 {α : Type} (l : List α) : Nat → List (List α)
  | 0 => []
  | n + 1 => if l.isEmpty then [] else l.take 32 :: chunks32 (l.drop 32) n

/-! ## Load data (R278) -/

/-- Writes one load's names and latch. -/
def Course.takeLoad (c : Course) (gen : Nat) (x : PendingLoad) : Course :=
  let at' (k l : Nat) : W32 := nth (nth x.vals (x.lanes.idxOf l) []) k 0
  let sh : Shape := if x.oneRead then .u else .g
  let n := (x.vals.headD []).length
  let c := (List.range n).foldl (fun c k => c.writeReg x.full x.lanes false (x.dest + k) ⟨sh, fun l => zx64 (at' k l)⟩) c
  if x.latch then
    c.setLatch 3 gen x.lanes x.wide (.reg (Fin.ofNat 64 x.dest))
      ⟨sh, fun l => if x.wide then pair64 (at' 1 l) (at' 0 l) else zx64 (at' 0 l)⟩
  else c

/-- LOAD_COMPLETE for a course. -/
def State.completeLoads (s : State) (r : CourseRef) : State :=
  match FMap.get s.teams r.team with
  | none => s
  | some t =>
    match FMap.get t.courses r.course with
    | none => s
    | some c =>
      let core := s.core t.core
      let core' := if c.loads.any fun x => x.latch then core.useLatch 3 else core
      let gen := nth core'.latchGen 3 0
      let c' := { c.loads.foldl (fun c x => c.takeLoad gen x) c with loads := [] }
      (s.setCore t.core core').setTeam r.team (t.setCourse r.course c')

/-! ## Suspension and resumption of a course (R44, R368, R369) -/

/-- Every access of a team's threads is performed at device scope (R233): the dirty bytes of its core's L1 are written back. -/
def State.performAll (s : State) (t : Team) : State := s.writeBackAll t.core

/-- The threads of a course that is saved take their groups' holds with them (R73). -/
def State.saveHolds (s : State) (tk c : Nat) (ls : List Nat) : State := ls.foldl (fun s l => s.saveHold tk c l) s

/-- Writes a course's image (R371); where `keep` holds the lines of its names stay in the core, evictable (R67). -/
def State.writeCourse (s : State) (tk c : Nat) (keep : Bool) : State :=
  match FMap.get s.teams tk with
  | none => s
  | some t =>
    match FMap.get s.slices (sliceKey t.part t.slice) with
    | none => s
    | some x =>
      let base := x.courseImage t.index c
      let y := t.course c
      let gens := (s.core t.core).latchGen
      let sec := y.regSection gens
      let lines := if keep then (y.lineMap.map Prod.snd).eraseDups.map fun l => let p := y.lineAt sec l; ⟨tk, c, base + p.1, p.2⟩ else []
      let s := (y.imageParts gens t.stackK keep).foldl (fun s p => s.teamWrite tk (base + p.1) p.2) s
      let k := s.core t.core
      if keep then s.setCore t.core { k with left := k.left ++ lines } else s

/-- A save reads a course's tiles: one that is poisoned parks every thread of the course (R378). Its error, like those of the course's other
places, stays with the saved course (log 49). -/
def State.tileErrors (s : State) (tk c : Nat) : State :=
  match (FMap.get s.teams tk).bind fun t => FMap.get t.courses c with
  | none => s
  | some x =>
    if !(x.bad.any fun p => match p with | .tile _ => true | _ => false) then s
    else (x.threads.filter fun p => p.2.parked.isNone).foldl (fun (s : State) p =>
      s.deliverSystem tk { course := c, lane := p.1, code := .ecc } 0 false p.2.pc) s

/-- A course's waits at ring.take leave the queues of the rings: it waits again when it is resumed (R313). -/
def State.leaveRings (s : State) (tk c : Nat) : State :=
  { s with teams := FMap.modify s.teams tk fun t =>
      { t with rings := t.rings.map fun r => { r with queue := r.queue.filter fun e => e.1 != c } } }

/-- Suspends a course: saved to its image, it keeps its index (R44). -/
def State.suspend (s : State) (tk c : Nat) : State :=
  match FMap.get s.teams tk with
  | none => s
  | some t =>
    let s := (s.saveHolds tk c (t.course c).live).dropHolds tk ((t.course c).live.map fun l => (c, l))
    let s := s.flushWork (clusterOfCore t.core) ⟨tk, c⟩
    let s := (s.completeLoads ⟨tk, c⟩).finishFills tk
    let s := s.tileErrors tk c
    let s := (s.performAll t).writeCourse tk c true
    let tiles := if (t.course c).awaitTiles then 0 else (t.course c).tiles.length
    let s := s.leaveRings tk c
    let s := s.leaveEngine (clusterOfCore t.core) ⟨tk, c⟩
    let s := s.onCourse tk c fun x => { x with suspended := true, awaitTiles := false, away := [], used := [] }
    s.freeTiles (clusterOfCore t.core) tiles

/-- A lane leaves a log entry (R240); an entry without a lane is gone. -/
def LogEntry.without (e : LogEntry) (l : Nat) : Option LogEntry :=
  if e.acc.uniform then
    let g := e.group &&& ~~~(laneBit l)
    if g == 0 then none else some { e with group := g }
  else
    let ls := e.lanes.filter fun q => q.lane != l
    if ls.isEmpty then none else some { e with lanes := ls }

/-- A thread of a course ends (R31): its lane and its parts of log entries go, names without a live reader are freed (R58). -/
def Course.dropLane (c : Course) (l : Nat) : Course :=
  ({ c with threads := FMap.erase c.threads l, log := c.log.map fun e => e.bind fun x => x.without l } : Course).reapAll

/-- Applies what a restored thread's image says the host asked (R365): 1 the thread continues, 2 it ends. -/
def Course.applyHost (c : Course) : Course :=
  let c := ((c.threads.filter fun p => p.2.hostAction == 2).map Prod.fst).foldl (fun c l => c.dropLane l) c
  { c with threads := c.threads.map fun p =>
      if p.2.hostAction = 1 then
        let code := match p.2.parked with | some k => k.code | none => 0
        let halts := code == FCode.brk.num || code == FCode.step.num || (code == FCode.trap.num && p.2.fault.getLsbD 31)
        (p.1, { p.2 with parked := none, hostAction := 0, sentinel := 0, resumed := code == FCode.linkLost.num,
                         tsw := if halts then p.2.tsw &&& ~~~haltBit else p.2.tsw })
      else p }

/-- Reads a course image back and makes the course resident (R369): the acquire of R233, its tiles taken or awaited. Lines that it finds still in
the core are taken back; the others are fetched at first use, with the bytes the image has now (R67; log 30). -/
def State.loadCourse (s : State) (tk c : Nat) (old : Course) : State :=
  match FMap.get s.teams tk with
  | none => s
  | some t =>
    match FMap.get s.slices (sliceKey t.part t.slice) with
    | none => s
    | some x =>
      match s.teamRead tk (x.courseImage t.index c) x.slotSize with
      | (s, none) => s
      | (s, some b) =>
        let base := x.courseImage t.index c
        let mine := (s.core t.core).left.filter fun y => y.team == tk && y.course == c
        let b := mine.foldl (fun b y => putBytes b (y.va - base) y.bytes) b
        let new := readCourse b old (s.core t.core).latchGen s.cycle
        let sec := b.drop 0xCB00
        let new := ({ new with away :=
          (new.lineMap.filter fun p => !(mine.any fun y => y.va == base + (new.lineAt sec p.2).1)).map Prod.fst } : Course).applyHost
        -- a restore that is held begins again (R395)
        let s := if t.restoring then s else s.dropLines fun y => y.team == tk && y.course == c
        let s := s.invalidateClean t.core
        let cl := clusterOfCore t.core
        let k := s.cluster cl
        let n := new.tiles.length
        let take := n != 0 && k.pool.isEmpty && decide (n ≤ k.freeTiles)
        let left (l : Nat) : Nat := bytesAt b (0x100 + 256 * l + 0xC8) 8 % 2 ^ 63
        let convs := new.threads.filterMap fun p =>
          if (p.2.wait == .conv || p.2.progress.isSome) && left p.1 != 0 then some (p.2.pc.toNat, left p.1) else none
        let new := { new with awaitTiles := n != 0 && !take,
                              convs := convs.foldl (fun m q => match FMap.get m q.1 with | some _ => m | none => FMap.set m q.1 q.2) [] }
        let s := if take then s.setCluster cl { k with freeTiles := k.freeTiles - n }
                 else if n = 0 then s else s.setCluster cl { k with pool := k.pool ++ [⟨tk, c⟩] }
        match FMap.get s.teams tk with
        | none => s
        | some t => s.setTeam tk (t.setCourse c new)

/-- The resident course whose lowest live key is highest (R44), leaving out some courses. -/
def Team.victim (t : Team) (skip : List Nat) : Option Nat :=
  let cs := t.residents.filterMap fun p => if skip.contains p.1 then none else (lowKey p.2.keys).map fun k => (p.1, k)
  (cs.foldl (fun (acc : Option (Nat × Key)) p =>
    match acc with | none => some p | some m => if keyLt m.2 p.2 then some p else acc) none).map Prod.fst

/-- Makes a slot free for a course that needs one: nothing if there is one, else the victim is suspended. -/
def State.makeSlot (s : State) (tk : Nat) (skip : List Nat) : State :=
  match FMap.get s.teams tk with
  | none => s
  | some t => if t.residents.length < t.allot then s else match t.victim skip with | none => s | some v => s.suspend tk v

/-- Puts a fresh course into a slot, at the lowest free index (R28, R44). -/
def State.placeFresh (s : State) (tk : Nat) (bs : List Newborn) : State :=
  let s := s.makeSlot tk []
  match FMap.get s.teams tk with
  | none => s
  | some t => s.setTeam tk (t.setCourse t.freeIndex (packCourse bs s.cycle))

/-- Creates threads: sorted by key, packed into fresh courses. -/
def State.create (s : State) (tk : Nat) (born : List Newborn) : State :=
  (chunks32 (sortBy (fun a b => keyLe a.thread.key b.thread.key) born) 2048).foldl (fun s bs => s.placeFresh tk bs) s

/-! ## The output stream (R45, R128, R129) -/

/-- The keys of a team's deferred records, by slot; nothing when an access is held. -/
def State.recordKeys (s : State) (tk : Nat) (slots : List Nat) : State × Option (List (Nat × DeferRec)) :=
  slots.foldl (fun acc slot =>
    match acc.2 with
    | none => acc
    | some rs =>
      match FMap.get acc.1.teams tk, (FMap.get acc.1.teams tk).bind fun t => FMap.get acc.1.slices (sliceKey t.part t.slice) with
      | some t, some x =>
        match acc.1.teamRead tk (x.deferSlot t.index slot) 512 with
        | (s, none) => (s, none)
        | (s, some b) => (s, some (rs ++ [(slot, readRecord b)]))
      | _, _ => acc) (s, some [])

/-- The lowest key of the team's live, suspended and deferred work, the last given by its keys. -/
def Team.lowest (t : Team) (waiting : List Key) : Option Key := lowKey ((t.courses.flatMap fun p => p.2.keys) ++ waiting)

/-- The next keys of deferred records. -/
def nextKeys (recs : List (Nat × DeferRec)) : List Key := recs.map fun r => r.2.next

/-- Writes one commit: the value while the region has room, then the count word (R129). -/
def State.commitOne (s : State) (tk : Nat) (v : W64) : State :=
  match FMap.get s.teams tk, (FMap.get s.teams tk).bind fun t => FMap.get s.slices (sliceKey t.part t.slice) with
  | some t, some x =>
    let e := x.fieldAt 0x56 2
    let base := x.fieldAt 0x70 8 + t.index * 8 * (e + 1)
    let i := t.committed
    let lost := t.lost || decide (e ≤ i)
    let s := s.setTeam tk { t with committed := i + 1, lost := lost }
    let s := if i < e then s.teamWrite tk (base + 8 * (i + 1)) (leBytes 8 v.toNat) else s
    s.teamWrite tk base (leBytes 8 ((i + 1) % 2 ^ 63 + lost.toNat * 2 ^ 63))
  | _, _ => s

/-- Whether a stamped store is still to be reported visible to its threads (R262). -/
def State.stampOpen (s : State) (id : Nat) : Bool := s.stores.any fun x => x.id == id && !x.visible

/-- The window entries that can be committed now, in preorder: no live, deferred or suspended work precedes them, and no stamped store of
theirs or of an earlier one's thread is open (R128, R262). -/
def State.committable (s : State) (t : Team) (waiting : List Key) : List Emission :=
  let low := t.lowest waiting
  let can (e : Emission) : Bool := match low with | none => true | some k => !keyLt k (e.root, e.ords)
  let order (a b : Emission) : Bool :=
    if keyLt (a.root, a.ords) (b.root, b.ords) then true
    else if keyLt (b.root, b.ords) (a.root, a.ords) then false else decide (a.order ≤ b.order)
  (sortBy order (t.emits.filter can)).takeWhile fun e => !e.stamps.any fun id => s.stampOpen id

/-- Commits the entries that can be. Each count word is written with a release at device scope (R129): the dirty bytes of the core's L1
are written back first. -/
def State.commitWindow (s : State) (tk : Nat) (waiting : List Key) : State :=
  match FMap.get s.teams tk with
  | none => s
  | some t =>
    let go := s.committable t waiting
    if go.isEmpty then s
    else
      let s := (s.setTeam tk { t with emits := t.emits.filter fun e => !go.contains e }).writeBackAll t.core
      go.foldl (fun s e => s.commitOne tk e.value) s

/-! ## Materialisation (R43, R337) -/

/-- Takes places in ascending key order from the records until none is left: the newborns, and every record's new FIRST. -/
def serveRecords (recs : List (Nat × DeferRec)) (places : Nat) : Nat → List Newborn × List (Nat × DeferRec)
  | 0 => ([], recs)
  | fuel + 1 =>
    if places = 0 then ([], recs)
    else
      match recs.foldl (fun (acc : Option (Nat × DeferRec)) r =>
          match acc with | none => some r | some m => if keyLt r.2.next m.2.next then some r else acc) none with
      | none => ([], recs)
      | some (slot, r) =>
        if r.inRange then
          let k := min places (r.last - r.first)
          let born := (List.range k).map fun j => r.child slot (r.first + j) false
          let left := if r.first + k = r.last then recs.filter (fun q => q.1 != slot)
            else recs.map fun q => if q.1 = slot then (slot, { r with first := r.first + k }) else q
          let rest := serveRecords left (places - k) fuel
          (born ++ rest.1, rest.2)
        else
          let rest := serveRecords (recs.filter fun q => q.1 != slot) (places - 1) fuel
          (r.child slot r.first true :: rest.1, rest.2)

/-- Records as a service left them: FIRST advanced; a used-up record is freed and keeps the bytes it last held (R43, R337 and the end
state of the run after it). -/
def State.updateRecords (s : State) (tk : Nat) (recs left : List (Nat × DeferRec)) : State :=
  match FMap.get s.teams tk, (FMap.get s.teams tk).bind fun t => FMap.get s.slices (sliceKey t.part t.slice) with
  | some t, some x =>
    let keep (slot : Nat) : Bool := left.any fun q => q.1 == slot
    let write (s : State) (r : Nat × DeferRec) : State :=
      match left.find? fun q => q.1 == r.1 with
      | none => s
      | some q =>
        if q.2.first = r.2.first then s else s.teamWrite tk (x.deferSlot t.index r.1 + 40) (leBytes 4 q.2.first)
    let s := recs.foldl write s
    { s with teams := FMap.modify s.teams tk fun t => { t with records := t.records.filter keep } }
  | _, _ => s

/-- Materialises from deferred records while places are free, without creating the courses yet: the newborns. -/
def State.takeRecords (s : State) (tk : Nat) (recs : List (Nat × DeferRec)) (places : Nat) : State × List Newborn :=
  let served := serveRecords recs places (recs.length + 1)
  let owed := match FMap.get s.teams tk with | some t => t.owed | none => []
  -- what the parent had outstanding at the fork comes before its copies' accesses (R127)
  let give (b : Newborn) : Newborn :=
    match FMap.get owed b.origin with
    | some o => { b with thread := { b.thread with stamps := o.1.filter s.stampOpen, remote := o.2 } }
    | none => b
  (s.updateRecords tk recs served.2, served.1.map give)

/-! ## Spawn bins (R46, R47, R328) -/

/-- The address of an overflow slot (R320). -/
def Slice.overflowSlot (x : Slice) (index slot : Nat) : Nat := x.area index + 64 + 64 * slot

/-- A task's 64 bytes. -/
def Task.bytes (t : Task) : List Byte := padTo 64 (leBytes 8 t.entry.toNat ++ t.args.flatMap fun a => leBytes 4 a.toNat)
/-- Reads a task back. -/
def readTask (b : List Byte) : Task :=
  { entry := BitVec.ofNat 64 (bytesAt b 0 8), args := (List.range 8).map fun k => BitVec.ofNat 32 (bytesAt b (8 + 4 * k) 4) }

/-- Whether a bin is pending: full, or its timer has expired (R47). -/
def Bin.pending (b : Bin) : Bool := !b.tasks.isEmpty && (b.tasks.length == 32 || b.timer == 0)

/-- The tag of a value across the lanes of a bin's course (R47). -/
def tagged (vals : List W32) : NameVal :=
  let b := vals.headD 0
  let st := nth vals 1 b - b
  if vals.all (fun v => v == b) then .uni b
  else if vals.zipIdx.all (fun p => p.1 == b + BitVec.ofNat 32 p.2 * st) then .aff b st false
  else .gen (lanes32.map fun l => nth vals l 0)

/-- The course a bin is launched as (R47). The manual gives the root number in v8 no tag; it is A, base the first lane's and stride 1
(log 44). -/
def spawnCourse (tasks : List Task) (entry : W64) (spawns teamIndex now : Nat) : Course :=
  let root (l : Nat) : W32 := BitVec.ofNat 32 (1024 + 32 * spawns + l)
  let args := (List.range 8).map fun k => tagged (tasks.map fun t => nth t.args k 0)
  { threads := tasks.zipIdx.map fun p => (p.2, { pc := entry, root := root p.2, readySince := now })
    names := args ++ [.aff (root 0) 1 false, .uni (BitVec.ofNat 32 teamIndex), .uni 0xFFFFFFFF] ++ List.replicate 53 .free }

/-- The overflow tasks of a team in order, with their slots; nothing when an access is held. -/
def State.overflowTasks (s : State) (tk : Nat) (slots : List (Nat × Nat)) : State × Option (List (Nat × Task)) :=
  slots.foldl (fun acc slot =>
    match acc.2 with
    | none => acc
    | some rs =>
      match FMap.get acc.1.teams tk, (FMap.get acc.1.teams tk).bind fun t => FMap.get acc.1.slices (sliceKey t.part t.slice) with
      | some t, some x =>
        match acc.1.teamRead tk (x.overflowSlot t.index slot.1) 64 with
        | (s, none) => (s, none)
        | (s, some b) => (s, some (rs ++ [(slot.1, { readTask b with order := slot.2 })]))
      | _, _ => acc) (s, some [])

/-- Whether a line of an entry address lies in the core's instruction cache (R328). -/
def State.entryCached (s : State) (t : Team) (entry : W64) : Bool :=
  let user := match s.sliceOf t with | some x => !x.privileged | none => true
  match ((s.under t).translate none t.part user .fetch entry).2 with
  | .ok x => x.remote.isNone && ((FMap.get (s.core t.core).icache (lineOf x.pa)).isSome)
  | .error _ => false

/-- Places one task (R46): a bin of its entry with room that is not pending, an empty bin, else no bin. -/
def Team.binFor (t : Team) (entry : W64) : Option Nat :=
  let ok := (List.range 8).filter fun k => let b := nth t.bins k {}; !b.tasks.isEmpty && b.entry == entry
  match ok with
  | k :: _ => if (nth t.bins k {}).pending then none else some k
  | [] => (List.range 8).find? fun k => (nth t.bins k {}).tasks.isEmpty

/-- Puts a task into a bin; the first starts the timer. -/
def Team.putTask (t : Team) (k : Nat) (task : Task) (timer : Nat) : Team :=
  let b := nth t.bins k {}
  let b := if b.tasks.isEmpty then { entry := task.entry, tasks := [task], timer := timer } else { b with tasks := b.tasks ++ [task] }
  { t with bins := setNth t.bins k b }

/-- The number of the arrival of a bin's first task (R328). -/
def Bin.first (b : Bin) : Nat := match b.tasks with | [] => 0 | x :: _ => x.order

/-- Moves the oldest overflow tasks into bins that take them (R328). -/
def refillBins (t : Team) (timer : Nat) (tasks : List (Nat × Task)) : Team :=
  tasks.foldl (fun t p =>
    match t.binFor p.2.entry with
    | some k => { t.putTask k p.2 timer with overflow := t.overflow.filter fun x => x.1 != p.1 }
    | none => t) t

/-- Launches one launchable bin, if there is one (R328). -/
def State.launchBin (s : State) (tk : Nat) : State × Bool :=
  match FMap.get s.teams tk, (FMap.get s.teams tk).bind fun t => FMap.get s.slices (sliceKey t.part t.slice) with
  | some t, some x =>
    let room := t.ceiling - t.liveCount
    let can (k : Nat) : Bool :=
      let b := nth t.bins k {}
      b.pending && decide (b.tasks.length ≤ room) && decide (t.residents.length < t.allot) &&
        decide (1024 + 32 * t.spawns + 31 ≤ 0xFFFFFFFF)
    let ks := (List.range 8).filter can
    if ks.isEmpty then (s, false)
    else
      match s.overflowTasks tk t.overflow with
      | (s, none) => (s, false)
      | (s, some over') =>
        let cached := ks.map fun k => (k, s.entryCached t (nth t.bins k {}).entry)
        let count (k : Nat) : Nat :=
          let b := nth t.bins k {}
          b.tasks.length + (over'.filter fun p => p.2.entry == b.entry).length
        let better (a b : Nat × Bool) : Bool :=
          if a.2 != b.2 then a.2
          else if count a.1 != count b.1 then decide (count b.1 < count a.1)
          else decide ((nth t.bins a.1 {}).first ≤ (nth t.bins b.1 {}).first)
        let best := cached.foldl (fun (acc : Option (Nat × Bool)) p =>
          match acc with | none => some p | some m => if better m p then acc else some p) none
        match best with
        | none => (s, false)
        | some (k, _) =>
          let b := nth t.bins k {}
          let extra := ((over'.filter fun p => p.2.entry == b.entry).take (min 32 room - b.tasks.length))
          let tasks := b.tasks ++ extra.map Prod.snd
          let c := spawnCourse tasks b.entry t.spawns t.index s.cycle
          let t := (t.setCourse t.freeIndex c)
          let t := { t with spawns := t.spawns + 1, bins := setNth t.bins k {},
                            overflow := t.overflow.filter fun o => !extra.any fun e => e.1 == o.1 }
          let rest := over'.filter fun p => !extra.any fun e => e.1 == p.1
          let t' := refillBins t x.stimer rest
          let gone := (over'.map Prod.fst).filter fun o => !t'.overflow.any fun y => y.1 == o
          -- a slot without a task has no entry (log 22)
          (gone.foldl (fun s o => s.teamWrite tk (x.overflowSlot t'.index o) (leBytes 8 0)) (s.setTeam tk t'), true)
  | _, _ => (s, false)

/-- Launches bins until none is launchable. -/
def State.launchBins (s : State) (tk : Nat) : Nat → State
  | 0 => s
  | n + 1 => match s.launchBin tk with | (s, true) => s.launchBins tk n | (s, false) => s

/-! ## Rendezvous (R49, R123, R124) -/

/-- Continues every thread of a course at its next unit. -/
def Course.leaveAll (c : Course) (now : Nat) (sel : Thread → Bool) : Course :=
  { c with threads := c.threads.map fun q =>
      if sel q.2 then (q.1, q.2.goto (q.2.pc + BitVec.ofNat 64 q.2.waitLen) now) else q }

/-- Whether a thread waits at a join or a conv. -/
def atJoin (t : Thread) : Bool := match t.wait with | .join => true | _ => false
def atConv (t : Thread) : Bool := match t.wait with | .conv => true | _ => false
/-- The sort value of a thread that waits at a repack. -/
def repackKey (t : Thread) : Option W32 := match t.wait with | .repack k _ _ => some k | _ => none

/-- Completes the join or conv of a course when all its live threads wait at the same unit. -/
def Course.meet (c : Course) (now : Nat) : Course × Bool :=
  match c.threads with
  | [] => (c, false)
  | (_, t) :: _ =>
    let same (p : Thread → Bool) : Bool := c.threads.all fun q => p q.2 && q.2.pc == t.pc
    if same atJoin then (c.leaveAll now atJoin, true)
    else if same atConv then ({ c.leaveAll now atConv with convs := FMap.erase c.convs t.pc.toNat }, true)
    else (c, false)

/-- Completes the joins and convs of a team; the threads that leave retire their unit (R375). -/
def State.meetAll (s : State) (tk : Nat) : State :=
  match FMap.get s.teams tk with
  | none => s
  | some t =>
    t.residents.foldl (fun s p =>
      let (c, done) := p.2.meet s.cycle
      if !done then s
      else
        match FMap.get s.teams tk with
        | none => s
        | some t =>
          let s := s.setTeam tk (t.setCourse p.1 c)
          { s with issue := { s.issue with retired := s.issue.retired ++ p.2.threads.map fun q => (tk, p.1, q.1) } }) s

/-- A thread as REPACK moves it (R49): registers, predicates, status, key, call stack. It acts as its own parent. -/
def moveThread (c : Course) (l : Nat) (t : Thread) (place : Nat) : Newborn :=
  { thread := { t with saved := [] }
    regs := (List.range 64).map fun n => if regFree c n l then none else some (rowOf c.names n l)
    dest := none, ordinal := 0, origin := place }

/-- What the fault ring's tokens of a partition name, after threads of a team have moved. -/
def State.renameThreads (s : State) (part : Nat) (f : ThreadRef → ThreadRef) : State :=
  let q := s.part part
  s.setPart part { q with subjects := q.subjects.map fun p =>
    match p.2 with | .thread t code halts => (p.1, .thread (f t) code (halts.map f)) | _ => p }

/-- The trap records of the moved threads that are in their handlers, read before any is written: the new place and the bytes. -/
def State.readTraps (s : State) (tk : Nat) (x : Slice) (index : Nat) : List (ThreadRef × ThreadRef) → State × Option (List (ThreadRef × List Byte))
  | [] => (s, some [])
  | p :: rest =>
    match s.teamRead tk (x.trapRecord index p.1.course p.1.lane) 1024 with
    | (s, none) => (s, none)
    | (s, some b) =>
      match s.readTraps tk x index rest with
      | (s, some bs) => (s, some ((p.2, b) :: bs))
      | (s, none) => (s, none)

/-- Completes a repack when every live resident thread of the team waits at the same one (R49): threads sorted by sort value and key
move to fresh courses, unless a course holds tiles. A thread that is parked there raises no further fault (R362) and stays parked where
it has moved; its token, and the trap record of one in its handler, go with it. -/
def State.meetRepack (s : State) (tk : Nat) : State :=
  match FMap.get s.teams tk, (FMap.get s.teams tk).bind fun t => s.sliceOf t with
  | some t, some x =>
    let members := t.residents.flatMap fun p => p.2.threads.map fun q => (p.1, q.1, q.2)
    match members with
    | [] => s
    | (_, _, t0) :: _ =>
      if !(members.all fun m => (repackKey m.2.2).isSome && m.2.2.pc == t0.pc) then s
      else
        let tiled := (t.residents.filter fun p => !p.2.tiles.isEmpty).map Prod.fst
        if !tiled.isEmpty then
          let rs : List Req := (members.filter fun m => tiled.contains m.1 && m.2.2.parked.isNone).map fun m =>
            { course := m.1, lane := m.2.1, code := .tileUnalloc, detail := 2 ^ 4 }
          let old := s.issue
          let (word, guard) := match t0.wait with | .repack _ w g => (w, g) | _ => (0, 0)
          let s := { s with issue :=
            { old with team := tk, addr := t0.pc, len := t0.waitLen, operands := [], word := word, literal := 0, guardWord := guard } }
          let s := s.deliver rs
          { s with issue := { old with retired := s.issue.retired } }
        else
          let le (a b : Nat × Nat × Thread) : Bool :=
            let ka := ((repackKey a.2.2).getD 0).toNat
            let kb := ((repackKey b.2.2).getD 0).toNat
            if ka = kb then keyLe a.2.2.key b.2.2.key else decide (ka ≤ kb)
          let sorted := (sortBy le members).zipIdx
          let free := (List.range 1025).filter fun k => !(t.courses.any fun p => p.1 == k && p.2.suspended)
          let place (i : Nat) : ThreadRef := ⟨tk, nth free (i / 32) 0, i % 32⟩
          let moves := sorted.map fun m => ((⟨tk, m.1.1, m.1.2.1⟩ : ThreadRef), place m.2)
          let inTrap := sorted.filter fun m => m.1.2.2.inHandler
          match s.readTraps tk x t.index (inTrap.map fun m => (⟨tk, m.1.1, m.1.2.1⟩, place m.2)) with
          | (s, none) => s
          | (s, some traps) =>
            let s := members.foldl (fun s m => s.leaveHold tk m.1 m.2.1) s
            let pc := t0.pc + BitVec.ofNat 64 t0.waitLen
            let born := sorted.map fun m =>
              let b := moveThread (t.course m.1.1) m.1.2.1 m.1.2.2 m.2
              { b with thread := b.thread.goto pc s.cycle }
            let s := s.setTeam tk { t with courses := t.courses.filter fun p => p.2.suspended }
            let s := (chunks32 born 64).foldl (fun s bs => s.placeFresh tk bs) s
            let s := traps.foldl (fun s p => s.teamWrite tk (x.trapRecord t.index p.1.course p.1.lane) p.2) s
            let s := s.renameThreads t.part fun r => match moves.find? (fun m => m.1 == r) with | some m => m.2 | none => r
            { s with issue := { s.issue with retired := s.issue.retired ++ moves.map fun m => (tk, m.2.course, m.2.lane) } }
  | _, _ => s

/-! ## The boundary -/

/-- Ends the courses without a live thread (R28): their tiles return to the pool. -/
def State.sweep (s : State) (tk : Nat) : State :=
  match FMap.get s.teams tk with
  | none => s
  | some t =>
    let gone := t.courses.filter fun p => p.2.threads.isEmpty
    gone.foldl (fun s p =>
      let cl := clusterOfCore t.core
      let tiles := if p.2.suspended || p.2.awaitTiles then 0 else p.2.tiles.length
      let s := s.leaveEngine cl ⟨tk, p.1⟩
      let s := match FMap.get s.teams tk with
        | none => s
        | some t => s.setTeam tk { t with courses := FMap.erase t.courses p.1 }
      s.freeTiles cl tiles) s

/-- The suspended course that holds the lowest live key of those that are suspended, with that key. -/
def Team.lowestSuspended (t : Team) : Option (Nat × Course × Key) :=
  let cs := (t.courses.filter fun p => p.2.suspended).filterMap fun p => (lowKey p.2.keys).map fun k => (p.1, p.2, k)
  cs.foldl (fun (acc : Option (Nat × Course × Key)) p =>
    match acc with | none => some p | some m => if keyLt p.2.2 m.2.2 then some p else acc) none

/-- Resumes suspended courses into free slots, lowest key first; where none is free, one that holds the team's lowest live key takes the
place of the highest resident one (R44). A course whose last thread the host has killed while it was saved ends as it is read back (R28,
R365), and the next is looked for. `waiting` are keys of work that stands before its creation. -/
def State.resumeCourses (s : State) (tk : Nat) (waiting : List Key) : Nat → State
  | 0 => s
  | n + 1 =>
    let s := s.sweep tk
    match FMap.get s.teams tk with
    | none => s
    | some t =>
      if !t.held.isEmpty then s
      else
        match t.lowestSuspended with
        | none => s
        | some (c, old, k) =>
          if t.residents.length < t.allot || t.lowest waiting == some k then
            ((s.makeSlot tk []).loadCourse tk c old).resumeCourses tk waiting n
          else s

/-- One round of a boundary (R337): ended courses go; freed slots take suspended courses; what can be committed is; freed places are handed
out, to all records at once; rendezvous complete. A KILL noted for a saved thread ends it as its course is read back (R365), so that is done
first: its key no longer holds a commit back, and its place is handed out with the others. `extra` are newborns of a fork at this boundary,
packed with the materialised ones (R38, R39); they are created also while an access of the device's own is held (R395), since their step
has been taken. -/
def State.settleRound (s : State) (tk : Nat) (extra : List Newborn) : State :=
  let s := s.sweep tk
  match FMap.get s.teams tk with
  | none => s
  | some t =>
    if !t.held.isEmpty then s.create tk extra
    else
      match s.recordKeys tk t.records with
      | (s, none) => s.create tk extra
      | (s, some recs) =>
        let waiting := nextKeys recs ++ extra.map fun b => b.thread.key
        let s := s.resumeCourses tk waiting 4096
        match FMap.get s.teams tk with
        | none => s
        | some t =>
          if !t.held.isEmpty then s.create tk extra
          else
            let s := s.commitWindow tk waiting
            let (s, born) := s.takeRecords tk recs (t.ceiling - (t.liveCount + extra.length))
            ((s.create tk (extra ++ born)).meetAll tk).meetRepack tk

/-- Whether a round has left something to hand out: a free place for a record, a free slot for a suspended course, a suspended course with
the team's lowest live key; a rendezvous may leave them. -/
def Team.unsettled (t : Team) : Bool :=
  t.held.isEmpty &&
    (t.courses.any (fun p => p.2.threads.isEmpty) || (match t.lowestSuspended with | some p => t.lowest [] == some p.2.2 | none => false) ||
      (!t.records.isEmpty && decide (t.liveCount < t.ceiling)) ||
      (decide (t.residents.length < t.allot) && t.courses.any fun p => p.2.suspended))

/-- Rounds until nothing is left to hand out. -/
def State.settleMore (s : State) (tk : Nat) : Nat → State
  | 0 => s
  | n + 1 =>
    match FMap.get s.teams tk with
    | none => s
    | some t => if t.unsettled then (s.settleRound tk []).settleMore tk n else s

/-- Everything a boundary settles for a team: rounds of R337, then spawn bins, and the end of the team (R31). -/
def State.settleWith (s : State) (tk : Nat) (extra : List Newborn) : State :=
  let s := (s.settleRound tk extra).settleMore tk 1024
  match FMap.get s.teams tk with
  | none => s
  | some t =>
    if !t.held.isEmpty then s
    else
      let s := s.launchBins tk 32
      match FMap.get s.teams tk with
      | none => s
      | some t =>
        let ended := t.courses.isEmpty && t.records.isEmpty && (t.bins.all fun b => b.tasks.isEmpty) && t.overflow.isEmpty &&
          t.emits.isEmpty && t.held.isEmpty
        let s := if ended then s.endTeam tk else s
        s.checkYield (sliceKey t.part t.slice)

/-- Settles a team at a boundary without a fork. -/
def State.settle (s : State) (tk : Nat) : State := s.settleWith tk []

end Sys2Proof.Machine
end

