-- ==== Sys2Proof/Machine/MemOps.lean ====
section
/-!
DEFINITION. How one lane's access to device memory is checked (R277) and performed (R246 to R253, R258 to R263, R282, R296).
-/

namespace Sys2Proof.Machine

/-! ## Values -/

/-- Register words of bytes, little-endian; a narrow value is zero-extended. -/
def wordsOf (b : List Byte) : List W32 := (List.range ((b.length + 3) / 4)).map fun k => BitVec.ofNat 32 (bytesAt b (4 * k) 4)

/-- The bytes of register words. -/
def bytesOfWords (ws : List W32) : List Byte := ws.flatMap fun w => leBytes 4 w.toNat

/-- A loaded value as register words (R273): narrow ones zero- or sign-extended. -/
def extendLoad (signed : Bool) (b : List Byte) : List W32 :=
  if signed && b.length == 1 then [(BitVec.ofNat 8 (leNat b)).signExtend 32]
  else if signed && b.length == 2 then [(BitVec.ofNat 16 (leNat b)).signExtend 32]
  else wordsOf b

/-- What an atomic stores (R283), from the old value and its operands; nothing when a comparison fails. -/
def atomNew (op : AtomOp) (old : Nat) (args : List Byte) : Option Nat :=
  let w := if op.w64 then 8 else 4
  let x := bytesAt args 0 w
  let y := bytesAt args w w
  let s32 (n : Nat) : Int := (BitVec.ofNat 32 n).toInt
  let canon (n : Nat) : Nat := if Fmt.f32.isNan n then Fmt.f32.qnan else n
  match op with
  | .addB32 => some ((old + x) % 2 ^ 32)
  | .addB64 => some ((old + x) % 2 ^ 64)
  | .andB32 => some (old &&& x)
  | .orB32 => some (old ||| x)
  | .exchB32 => some x
  | .maxI32 => some (if s32 old < s32 x then x else old)
  | .minI32 => some (if s32 x < s32 old then x else old)
  | .maxN32 | .maxN64 => some (max old x)
  | .minN32 | .minN64 => some (min old x)
  | .casB32 | .casB64 => if old = x then some y else none
  | .faddF32 => some (canon (Fmt.f32.add .rne old x))
  | .fminF32 => some (canon (Fmt.f32.pick false false old x))
  | .fmaxF32 => some (canon (Fmt.f32.pick true false old x))

/-- What an atomic or scas stores, as bytes. -/
def AccKind.newBytes (k : AccKind) (old : List Byte) (args : List Byte) : Option (List Byte) :=
  match k with
  | .atom op => (atomNew op (leNat old) args).map fun n => leBytes old.length n
  | .cas w => let n := casBytes w; if old == args.take n then some ((args.drop n).take n) else none
  | .load _ _ | .store _ | .sts _ | .lda _ | .mon | .fetch _ | .copySt => none

/-- Whether an access reads and writes as one (R282, R286). -/
def AccKind.isAtomic : AccKind → Bool
  | .atom _ | .cas _ => true
  | .load _ _ | .store _ | .sts _ | .lda _ | .mon | .fetch _ | .copySt => false

/-- The permission an access needs (R343). -/
def AccKind.mode : AccKind → AccMode
  | .load _ _ | .lda _ | .mon | .fetch _ => .read
  | .store _ | .sts _ | .atom _ | .cas _ | .copySt => .write

/-! ## Scopes and orderings -/

/-- The width of a scope (R232). -/
def Scope.rank : Scope → Nat
  | .th => 0 | .co => 1 | .te => 2 | .cl => 3 | .di => 4 | .dv => 5 | .dm => 6

/-- Whether an ordering releases. -/
def Order.releases : Order → Bool
  | .rel | .ar | .sc => true
  | .relaxed | .acq => false

/-- Whether an ordering acquires. -/
def Order.acquires : Order → Bool
  | .acq | .ar | .sc => true
  | .relaxed | .rel => false

/-- Whose access it is: the team's partition and core, its course, the threads whose access it is. -/
structure Who where
  part : Nat
  core : Nat
  user : Bool
  team : Nat
  course : Nat
  lanes : List Nat
  /-- For the replay of a logged access: whether it has waited at an lda before (R263). -/
  replay : Option Bool := none

/-- What one lane's access came to. -/
inductive LaneRes where
  /-- Performed, with the values of the names it writes. -/
  | done (vals : List W32)
  /-- A fault of its threads: precise, or parking them. -/
  | fault (code : FCode) (detail : Nat) (addr : W64)
  /-- XLATE or PROT, to be logged (R240): the code and the address it met. -/
  | logged (code : FCode) (addr : W64)
  | wait (w : Wait)
deriving DecidableEq, Repr

/-- Changes the threads whose access it is. -/
def State.onWho (s : State) (w : Who) (f : Thread → Thread) : State :=
  w.lanes.foldl (fun s l => s.onThread w.team w.course l f) s

/-- The threads whose access it is. -/
def State.whoThreads (s : State) (w : Who) : List Thread := w.lanes.filterMap fun l => s.threadAt w.team w.course l

/-- The ids of their stamped stores and bcopy.st commands that are not yet reported visible (R262). -/
def State.openStamps (s : State) (w : Who) : List Nat := (s.whoThreads w).flatMap fun t => t.stamps

/-- Whether a device that owes an acknowledgement has become unreachable (R381). -/
def State.lostPeer (s : State) (d : Nat) : Bool := match FMap.get s.peers d with | some x => !x.reachable | none => false

/-- What a release waits for, after the write-back of its core's L1 at .cl and wider (R247, R252, R262): at .di and wider stamped stores, at
.dm acknowledgements; one that a lost device owes faults, and after a RESUME it is waited for again (R382). -/
def State.releaseStop (s : State) (w : Who) (sc : Scope) (addr : W64) : Option LaneRes :=
  let r := Scope.rank sc
  let owed := (s.whoThreads w).flatMap fun t => t.remote
  let lost := (s.whoThreads w).any fun t => !t.resumed && t.remote.any fun o => s.lostPeer o.2
  if 6 ≤ r && lost then some (.fault .linkLost 0 addr)
  else if (4 ≤ r && !(s.openStamps w).isEmpty) || (6 ≤ r && !owed.isEmpty) then some (.wait .commit)
  else none

/-- A release's actions before its own write: the write-back, then what it waits for. -/
def State.releaseActs (s : State) (w : Who) (sc : Scope) (addr : W64) : State × Option LaneRes :=
  let s := if 3 ≤ Scope.rank sc then s.writeBackAll w.core else s
  (s, s.releaseStop w sc addr)

/-- The next ticket of the keystone (R253). -/
def State.ticket (s : State) : State := { s with keystone := (s.keystone + 1) % 2 ^ 64 }

/-- An acquire's actions after its own read (R247, R252, R270). -/
def State.acquireActs (s : State) (w : Who) (sc : Scope) : State := if 3 ≤ Scope.rank sc then s.invalidateClean w.core else s

/-! ## Errors in memory (R378) -/

/-- Whether an L1 holds a byte of a range with an error that is not correctable (R377). -/
def State.l1Bad (s : State) (core pa n : Nat) : Bool :=
  (List.range n).any fun k => ((s.core core).line (lineOf (pa + k))).bad.contains ((pa + k) % 128)

/-- A thread's access meets poison (R378, R379): the error's record, and the fault. -/
def State.meetPoison (s : State) (w : Who) (pa n : Nat) (addr : W64) : State × LaneRes :=
  let slice := match FMap.get s.teams w.team with | some t => t.slice | none => 0
  let s := if s.l1Bad w.core pa n then s.logError 2 w.core (pa / 128 * 128) 128 addr.toNat n slice else s
  (s.logPoison pa n addr.toNat slice, .fault .ecc 0 addr)

/-- The same at a range of some device's memory: what another device's memory meets is logged there (R379). -/
def State.meetPoisonAt (s : State) (w : Who) (dev : Option Nat) (pa n : Nat) (addr : W64) : State × LaneRes :=
  if s.isOwn dev then s.meetPoison w pa n addr else (s, .fault .ecc 0 addr)

/-- The bytes of a range that an L1 does not hold. -/
def State.missing (s : State) (core pa n : Nat) : List Nat :=
  let c := s.core core
  ((List.range n).map fun k => pa + k).filter fun a => (FMap.get (c.line (lineOf a)).valid (a % 128)).isNone

/-- Whether a read through an L1 meets poison: in bytes fetched from the home, or in dirty bytes of its own. -/
def State.l1Poisoned (s : State) (core pa n : Nat) : Bool :=
  (!s.poison.isEmpty && (s.missing core pa n).any fun a => s.poison.contains (a / 32)) || s.l1Bad core pa n

/-- Whether a read at the home slice that takes the issuing L1's dirty bytes meets poison. -/
def State.homePoisoned (s : State) (core pa n : Nat) : Bool :=
  (!s.poison.isEmpty && (List.range n).any fun k =>
    s.poison.contains ((pa + k) / 32) && !((s.core core).line (lineOf (pa + k))).dirty.contains ((pa + k) % 128)) || s.l1Bad core pa n

/-! ## Stamped memory (R258 to R264) -/

/-- The stamp domain of a page (R258): without a domain window, or alone, package. -/
def State.stampDom (s : State) (part : Nat) (domainPage : Bool) : StampDom :=
  if domainPage && (s.part part).cfg 0x38 8 != 0 then .domain else .package

/-- Whether a die's interval passes its ceiling (R259), with the reading. -/
def State.intervalOk (s : State) (die : Nat) (dom : StampDom) : State × Bool × Nat :=
  let (s, e, l) := s.readClock die
  let d := s.die die
  match dom with
  | .package => (s, decide (l - e ≤ d.pkceil), l)
  | .domain => (s, decide (l - e + 2 * s.uNs ≤ d.dmceil), l + s.uNs)

/-- The stamp of R259, once the interval has passed: `lu` is L + u. -/
def State.nextStamp (s : State) (die lu : Nat) : State × Nat :=
  let d := s.die die
  let st := max (lu + 1) (d.last + 1)
  (s.setDie die { d with last := st }, st)

/-- Issues a stamped store or the stamped bytes of a command: it is on its way to its home slice (R260). -/
def State.issueStamped (s : State) (x : StampedStore) : State × Nat :=
  let id := s.nextStore
  ({ s with stores := s.stores ++ [{ x with id := id }], nextStore := id + 1 }.due (.stampedStoreHeldPending id), id)

/-- Whether two pages lead to the memory of one device. -/
def State.sameHome (s : State) (a b : Option Nat) : Bool := if s.isOwn a then s.isOwn b else a == b

/-- Whether a stamped store on its way touches a range of a device's memory. -/
def State.storeMeets (s : State) (x : StampedStore) (dev : Option Nat) (pa n : Nat) : Bool :=
  !x.visible && x.pieces.any fun q => s.sameHome q.dev dev && decide (q.pa < pa + n) && decide (pa < q.pa + q.bytes.length)

/-- The pending stamped stores of its own thread that an access overlaps (R260). -/
def State.overlaps (s : State) (w : Who) (dev : Option Nat) (pa n : Nat) : List Nat :=
  let mine := s.openStamps w
  (s.stores.filter fun x => mine.contains x.id && s.storeMeets x dev pa n).map fun x => x.id

/-- Whether an access overlaps a pending stamped store of its own thread (R260). -/
def State.overlapsOwn (s : State) (w : Who) (dev : Option Nat) (pa n : Nat) : Bool := !(s.overlaps w dev pa n).isEmpty

/-! The stamped attribute of pages as this device sees them (R258). -/

/-- The number of a 64 KiB unit of memory: this device's below 2^40, then those of the others. -/
def State.unitOf (s : State) (dev : Option Nat) (pa : Nat) : Nat :=
  (match dev with | some d => if d = s.devNumber then 0 else d + 1 | none => 0) * 2 ^ 40 + pa / 65536

/-- Whether a unit has lines with stamps. -/
def State.hasStamps (s : State) (unit : Nat) : Bool :=
  let stamps := if unit < 2 ^ 40 then s.lineStamp else (s.peer (unit / 2 ^ 40 - 1)).lineStamp
  stamps.any fun q => q.1 / 512 == unit % 2 ^ 40

/-- Every line's contents become its version with stamp 0 (R258). -/
def State.forgetUnit (s : State) (unit : Nat) : State :=
  let keep (line : Nat) : Bool := line / 512 != unit % 2 ^ 40
  if unit < 2 ^ 40 then { s with lineStamp := s.lineStamp.filter fun q => keep q.1, versions := s.versions.filter fun q => keep q.1 }
  else
    { s with peers := FMap.modify s.peers (unit / 2 ^ 40 - 1) fun p =>
        { p with lineStamp := p.lineStamp.filter fun q => keep q.1, versions := p.versions.filter fun q => keep q.1 } }

/-- How a page that maps a unit was last seen. -/
def State.pageSeen (s : State) (unit part page : Nat) : Option Bool :=
  (((FMap.get s.stampedPages unit).getD []).find? fun p => p.1 == part && p.2.1 == page).map fun p => p.2.2

/-- Notes how a page that maps a unit is seen. -/
def State.notePage (s : State) (unit part page : Nat) (stamped : Bool) : State :=
  let old := ((FMap.get s.stampedPages unit).getD []).filter fun p => !(p.1 == part && p.2.1 == page)
  { s with stampedPages := FMap.set s.stampedPages unit ((part, page, stamped) :: old) }

/-- A page is seen, stamped or plain: one that was plain and is stamped now gives every line of its unit stamp 0 (R258). A page seen for
the first time has been as it is (log 54, DESIGN CHOICE). -/
def State.seePage (s : State) (part : Nat) (dev : Option Nat) (va pa : Nat) (stamped : Bool) : State :=
  let unit := s.unitOf dev pa
  let page := va % 2 ^ 57 / 65536
  match s.pageSeen unit part page, stamped with
  | some false, true => (s.forgetUnit unit).notePage unit part page true
  | none, true => s.notePage unit part page true
  | some true, false => s.notePage unit part page false
  | none, false => if s.hasStamps unit then s.notePage unit part page false else s
  | some true, true | some false, false => s

/-- The version of a line as of a stamp (R263): the latest, or the greatest retained one at or below it. -/
def versionIn (stamps : FMap Nat) (versions : FMap (List Version)) (mem : Bytes) (line stamp : Nat) : Option Version :=
  let latest := (FMap.get stamps line).getD 0
  if latest ≤ stamp then some ⟨latest, .package, mem.readN (128 * line) 128, false⟩
  else ((FMap.get versions line).getD []).find? fun v => decide (v.stamp ≤ stamp)

/-- The version of a line homed here. -/
def State.versionAt (s : State) (line stamp : Nat) : Option Version := versionIn s.lineStamp s.versions s.mem line stamp

/-- Whether a version met at a range of its line is poisoned (R378): the latest by its granules. -/
def State.versionBad (s : State) (v : Version) (pa n : Nat) : Bool :=
  v.bad || (v.stamp == (FMap.get s.lineStamp (lineOf pa)).getD 0 && s.poisoned pa n)

/-- A die's copy of W for a partition's pages (R258, R260). -/
def Die.wOf (x : Die) (dom : StampDom) (part : Nat) : Nat := match dom with | .package => x.wPackage | .domain => nth x.wDomain part 0

/-- The copy of W at the home of a location of a partition's page (R260). Another device's copy is the minimum over the domain's die set as
this device has it: that device's watermark, and the newest copy of W taken here. -/
def State.homeW (s : State) (part : Nat) (dev : Option Nat) (pa : Nat) (dom : StampDom) : Nat :=
  match dev with
  | some d =>
    if d = s.devNumber then (s.die (homeDie pa)).wOf dom part
    else min (s.peer d).watermark ((s.dies.map fun x => x.wOf .domain part).foldl max 0)
  | none => (s.die (homeDie pa)).wOf dom part

/-! ## Fetch (R270, R295, R296) -/

/-- Reads bytes of one line for a fetch at their home. -/
def State.fetchHome (s : State) (w : Who) (x : Xlat) (a : W64) (k : Nat) : State × Except LaneRes (List Byte) :=
  let dev := x.remote.map Prod.fst
  match if (match dev with | some d => s.pathDown d | none => false) then dev else none with
  | some d => (s, .error (.wait (.link d)))
  | none =>
    match s.homeAnswers w.part x k with
    | .error .linkLost => (s, .error (.fault .linkLost 0 a))
    | .error e => (s, .error (.logged e a))
    | .ok _ =>
      if s.poisonAt dev x.pa k then let r := s.meetPoisonAt w dev x.pa k a; (r.1, .error r.2)
      else (s, .ok (match dev with | some d => s.remoteRead d x.pa k | none => s.mem.readN x.pa k))

/-- Reads bytes of one line through a core's fetch cache (R270); stamped and remote pages bypass it. Bytes of a pending stamped store of
the thread's own are waited for (R260). -/
def State.fetchPiece (s : State) (w : Who) (x : Xlat) (a : W64) (k : Nat) : State × Except LaneRes (List Byte) :=
  if s.overlapsOwn w (x.remote.map Prod.fst) x.pa k then (s, .error (.wait (.stamped (s.overlaps w (x.remote.map Prod.fst) x.pa k))))
  else if x.remote.isSome || x.stamped then s.fetchHome w x a k
  else
    match FMap.get (s.core w.core).fcache (lineOf x.pa) with
    | some b => (s, .ok ((b.drop (x.pa % 128)).take k))
    | none =>
      match s.fetchHome w x a k with
      | (s, .ok b) =>
        let base := x.pa / 128 * 128
        if s.poisoned base 128 then (s, .ok b)
        else
          let c := s.core w.core
          (s.setCore w.core { c with fcache := FMap.set c.fcache (lineOf x.pa) (s.mem.readN base 128) }, .ok b)
      | r => r

/-- Reads bytes for a fetch, line piece by line piece. -/
def State.fetchBytes (s : State) (w : Who) (va n : Nat) : Nat → State × Except LaneRes (List Byte)
  | 0 => (s, .ok [])
  | fuel + 1 =>
    if n = 0 then (s, .ok [])
    else
      let a := BitVec.ofNat 64 va
      let k := min n (128 - va % 128)
      match s.translate (some w.core) w.part w.user .read a with
      | (s, .error .linkLost) => (s, .error (.fault .linkLost 0 a))
      | (s, .error e) => (s, .error (.logged e a))
      | (s, .ok x) =>
        match s.fetchPiece w x a k with
        | (s, .error e) => (s, .error e)
        | (s, .ok b) =>
          match s.fetchBytes w (va + k) (n - k) fuel with
          | (s, .error e) => (s, .error e)
          | (s, .ok t) => (s, .ok (b ++ t))

/-- Reads bytes for a fetch. -/
def State.fetchAt (s : State) (w : Who) (va n : Nat) : State × Except LaneRes (List Byte) := s.fetchBytes w (va % 2 ^ 64) n (n / 128 + 2)

/-- Width of an element in bits (R214). -/
def mWidth : MFmt → Nat
  | .e4m3 | .e5m2 | .e4m3e5m2 | .e5m2e4m3 | .mxf8 | .mxi8 => 8
  | .mxf6 => 6
  | .mxf4 | .i4x => 4
  | .bf16 | .f16 => 16
  | .f32 => 32
  | .f64 => 64

/-- K, the depth of a pass (R214). -/
def mDepth : MFmt → Nat
  | .e4m3 | .e5m2 | .e4m3e5m2 | .e5m2e4m3 | .mxf8 | .mxf6 | .mxi8 => 32
  | .mxf4 | .i4x => 64
  | .bf16 | .f16 => 16
  | .f32 => 8
  | .f64 => 4

/-- Whether an element code is an infinity or NaN of its format (R296). The flags serve B fragments (R221), so the mixed formats are read
as their B elements (log 18). -/
def mNonFinite (f : MFmt) (code : Nat) : Bool :=
  match f with
  | .e4m3 | .e5m2e4m3 | .mxf8 => code % 128 == 127
  | .e5m2 | .e4m3e5m2 => decide (124 ≤ code % 128)
  | .bf16 => decide (0x7F80 ≤ code % 2 ^ 15)
  | .f16 => decide (0x7C00 ≤ code % 2 ^ 15)
  | .f32 => decide (0x7F800000 ≤ code % 2 ^ 31)
  | .f64 => decide (0x7FF0000000000000 ≤ code % 2 ^ 63)
  | .mxf6 | .mxf4 | .i4x | .mxi8 => false

/-- A handle (R295). -/
structure MHandle where
  base : Nat
  scales : Nat
  index : Nat
  rows : Nat
  cols : Nat
  stride : Nat
  sparse : Bool

/-- Reads a handle. -/
def handleOf (b : List Byte) : MHandle :=
  { base := bytesAt b 0 8, scales := bytesAt b 8 8, index := bytesAt b 0x10 8, rows := bytesAt b 0x18 4, cols := bytesAt b 0x1C 4,
    stride := bytesAt b 0x20 8, sparse := bytesAt b 0x28 1 == 1 }

/-- Rounded-up quotient. -/
def ceilDiv (a b : Nat) : Nat := (a + b - 1) / b

/-- A segment of a row (R296): its element bits as a number, and whether it is stored and partly inside the matrix. -/
def State.fetchSegment (s : State) (w : Who) (f : MFmt) (h : MHandle) (r c : Nat) : State × Except LaneRes (Nat × Bool) :=
  let n := mDepth f / 4
  let width := mWidth f
  if h.rows ≤ r || h.cols ≤ c then (s, .ok (0, false))
  else
    let count := min n (h.cols - c)
    let take (s : State) (va : Nat) : State × Except LaneRes (Nat × Bool) :=
      match s.fetchAt w va (ceilDiv (count * width) 8) with
      | (s, .error e) => (s, .error e)
      | (s, .ok b) => (s, .ok (leNat b % 2 ^ (count * width), true))
    if !h.sparse then take s (h.base + r * h.stride + c * width / 8)
    else
      let bit0 := r * ceilDiv h.cols n
      let bit := bit0 + c / n
      match s.fetchAt w (h.index + bit0 / 8) (bit / 8 - bit0 / 8 + 1) with
      | (s, .error e) => (s, .error e)
      | (s, .ok b) =>
        let m := leNat b / 2 ^ (bit0 % 8)
        if fld m (c / n) 1 = 0 then (s, .ok (0, false))
        else
          let before := ((List.range (c / n)).filter fun k => fld m k 1 == 1).length
          take s (h.base + r * h.stride + before * (n * width / 8))

/-- Folds a stateful read over a list, stopping at the first failure. -/
def readAll {α β : Type} (f : State → α → State × Except LaneRes β) : State → List α → State × Except LaneRes (List β)
  | s, [] => (s, .ok [])
  | s, a :: t =>
    match f s a with
    | (s, .error e) => (s, .error e)
    | (s, .ok b) =>
      match readAll f s t with
      | (s, .error e) => (s, .error e)
      | (s, .ok bs) => (s, .ok (b :: bs))

/-- A scale byte (R296): those beyond the matrix read as 0x7F. -/
def State.fetchScale (s : State) (w : Who) (h : MHandle) (r b : Nat) : State × Except LaneRes Nat :=
  if h.rows ≤ r || h.cols ≤ 32 * b then (s, .ok 0x7F)
  else
    match s.fetchAt w (h.scales + r * ceilDiv h.cols 32 + b) 1 with
    | (s, .error e) => (s, .error e)
    | (s, .ok x) => (s, .ok (leNat x))

/-- The names a fetch or gather writes for one lane (R296): elements, the scale name, the status name. -/
def State.fetchLane (s : State) (w : Who) (f : MFmt) (handle : W64) (r c : W32) : State × LaneRes :=
  match s.fetchAt w handle.toNat 64 with
  | (s, .error e) => (s, e)
  | (s, .ok hb) =>
    let h := handleOf hb
    let k := mDepth f
    let c0 := c.toNat / k * k
    let n := k / 4
    let width := mWidth f
    match readAll (fun s g => s.fetchSegment w f h r.toNat (c0 + g * n)) s [0, 1, 2, 3] with
    | (s, .error e) => (s, e)
    | (s, .ok segs) =>
      let blocks := if f.scaleNames = 0 then [] else List.range (ceilDiv k 32)
      match readAll (fun s b => s.fetchScale w h r.toNat (c0 / 32 + b)) s blocks with
      | (s, .error e) => (s, e)
      | (s, .ok scales) =>
        let bits := (segs.zipIdx.map fun p => p.1.1 * 2 ^ (p.2 * n * width)).foldl (· + ·) 0
        let names := (List.range f.elemNames).map fun m => BitVec.ofNat 32 (bits / 2 ^ (32 * m))
        let scaleName := if f.scaleNames = 0 then [] else [BitVec.ofNat 32 ((scales.zipIdx.map fun p => p.1 * 2 ^ (8 * p.2)).foldl (· + ·) 0)]
        let flagged (g : Nat) (v : Nat) : Bool :=
          ((List.range n).any fun j => mNonFinite f (fld v (j * width) width)) || nth scales (g * n / 32) 0 == 0xFF
        let status := (segs.zipIdx.map fun p => (if p.1.2 then 2 ^ p.2 else 0) + (if flagged p.2 p.1.1 then 2 ^ (4 + p.2) else 0)).foldl (· + ·) 0
        (s, .done (names ++ scaleName ++ [BitVec.ofNat 32 status]))

/-! ## One lane's access -/

/-- Whether an ordered read takes its value at the home slice (R247). -/
def Access.homeReads (a : Access) : Bool := (Order.acquires a.order) && 3 ≤ Scope.rank a.scope

/-- Whether a store's write is performed at the home slice (R247). -/
def Access.homeWrites (a : Access) : Bool := (Order.releases a.order) && 3 ≤ Scope.rank a.scope

/-- A remote write is sent by its plane: its home's acknowledgement, of the write's number, is on its way (R252, R354). -/
def State.sendRemote (s : State) (w : Who) (dev pa : Nat) (b : List Byte) : State :=
  let s := (if dev = s.devNumber then s.dropBytes w.core pa b.length else s).remoteWrite dev pa b
  if dev = s.devNumber then s
  else
    let id := s.nextStore
    let s := s.onWho w fun t => { t with remote := t.remote ++ [(id, dev)] }
    { s with nextStore := id + 1 }.due (.flitReceived (s.planeOf pa) true (some (.ack id (Fin.ofNat 512 dev))))

/-- Reads for an atomic at the home slice (R247, R248): every L1's exclusive copy is recalled, the issuing L1's dirty bytes of the
line are written back. -/
def State.atomRead (s : State) (core pa n : Nat) : State × List Byte :=
  let s := (linesOf pa n).foldl (fun s l => (s.recall l none).writeBack core l) s
  (s, s.mem.readN pa n)

/-- Performs an atomic in the issuing L1 (R245), or at the home slice, or at a remote home (R247, R251). -/
def State.performAtomic (s : State) (w : Who) (a : Access) (x : Xlat) (args : List Byte) : State × List Byte :=
  let n := a.kind.size
  match x.remote with
  | some (dev, _) =>
    let s := if dev = s.devNumber then s.ownReach w.core x.pa n true else s
    let old := s.remoteRead dev x.pa n
    match a.kind.newBytes old args with
    | some b => (s.sendRemote w dev x.pa b, old)
    | none => (s, old)
  | none =>
    if 4 ≤ Scope.rank a.scope then
      let (s, old) := s.atomRead w.core x.pa n
      let s := s.dropBytes w.core x.pa n
      match a.kind.newBytes old args with
      | some b => (s.homeWrite x.pa b, old)
      | none => (s, old)
    else
      let s := if a.homeReads then s.recall (lineOf x.pa) none else s
      let s := s.own w.core (lineOf x.pa)
      let (s, old) := s.l1Read w.core x.pa n
      match a.kind.newBytes old args with
      | some b => (s.l1Write w.core x.pa b, old)
      | none => (s, old)

/-- The part of an access after its checks and waits: its own read or write. -/
def State.perform (s : State) (w : Who) (a : Access) (x : Xlat) (q : LaneAcc) : State × LaneRes :=
  let n := a.kind.size
  match a.kind with
  | .load size signed =>
    match x.remote with
    | some (dev, _) =>
      let s := if dev = s.devNumber then s.ownReach w.core x.pa size a.homeReads else s
      if s.poisonAt (some dev) x.pa size then s.meetPoisonAt w (some dev) x.pa size q.addr
      else (s, .done (extendLoad signed (s.remoteRead dev x.pa size)))
    | none =>
      if x.stamped then
        if s.poisoned x.pa size then s.meetPoison w x.pa size q.addr else (s, .done (extendLoad signed (s.mem.readN x.pa size)))
      else if a.homeReads then
        let (s', b) := s.homeRead w.core x.pa size
        if s'.homePoisoned w.core x.pa size then s'.meetPoison w x.pa size q.addr else (s', .done (extendLoad signed b))
      else if s.l1Poisoned w.core x.pa size then s.meetPoison w x.pa size q.addr
      else
        let (s, b) := s.l1Read w.core x.pa size
        (s, .done (extendLoad signed b))
  | .store size =>
    let b := q.data.take size
    match x.remote with
    | some (dev, _) => (s.sendRemote w dev x.pa b, .done [])
    | none =>
      if a.homeWrites then ((s.dropBytes w.core x.pa size).homeWrite x.pa b, .done []) else (s.l1Write w.core x.pa b, .done [])
  | .atom _ | .cas _ =>
    let dev := x.remote.map Prod.fst
    let s := if s.isOwn dev then (linesOf x.pa n).foldl (fun s l => s.recall l (some w.core)) s else s
    if if s.isOwn dev then s.homePoisoned w.core x.pa n else s.poisonAt dev x.pa n then s.meetPoisonAt w dev x.pa n q.addr
    else
      let (s, old) := s.performAtomic w a x q.data
      (s, .done (wordsOf old))
  | .mon =>
    let dev := match x.remote with | some (d, _) => if d = s.devNumber then none else some d | none => none
    (s.onWho w fun t => { t with monitor := some ⟨dev, lineOf x.pa, false⟩ }, .done [])
  | .sts _ | .lda _ | .fetch _ | .copySt => (s, .done [])

/-- sts after its checks (R259, R287): the stamp, and the store on its way. -/
def State.performSts (s : State) (w : Who) (x : Xlat) (dom : StampDom) (lu : Nat) (q : LaneAcc) (size : Nat) : State × LaneRes :=
  let die := dieOfCore w.core
  let (s, st) := s.nextStamp die lu
  let (s, id) := s.issueStamped
    { id := 0, part := w.part, dom := dom, die := die, stamp := st, pieces := [⟨x.remote.map Prod.fst, x.pa, q.data.take size⟩],
      va := q.addr }
  (s.onWho w fun t => { t with stamps := t.stamps ++ [id] }, .done (wordsOf (leBytes 8 st)))

/-- Whether an lda has waited (R263): its thread, or its entry of the operand log. -/
def State.hasWaited (s : State) (w : Who) : Bool := match w.replay with | some b => b | none => (s.whoThreads w).any fun t => t.waited

/-- The answer of lda: a part of a version with the status, or zero and history lost (R263). -/
def ldaAnswer (v : Option Version) (pa n : Nat) (waited : Bool) : LaneRes :=
  match v with
  | some v => .done (wordsOf ((v.bytes.drop (pa % 128)).take n) ++ [if waited then 2 else 0])
  | none => .done (wordsOf (List.replicate n 0) ++ [1])

/-- The version another device gives (R263, R264): whether it has discarded an older one that no hold of this device needs is not fixed
(log 19). -/
def State.peerVersion (s : State) (part dev line stamp : Nat) : State × Option Version :=
  let p := s.peer dev
  match versionIn p.lineStamp p.versions p.mem line stamp with
  | none => (s, none)
  | some v =>
    if v.stamp == (FMap.get p.lineStamp line).getD 0 || (s.part part).domHolds.any (fun h => decide (h ≤ stamp)) then (s, some v)
    else ({ s with freeCtr := s.freeCtr + 1 }, if Config.freeChoice s.freeCtr % 2 = 1 then none else some v)

/-- Whether a version another device gives is poisoned in a range of its line (R378): the latest by its granules. -/
def State.peerBad (s : State) (v : Option Version) (dev pa n : Nat) : Bool :=
  match v with
  | none => false
  | some v => if v.stamp == (FMap.get (s.peer dev).lineStamp (lineOf pa)).getD 0 then s.poisonAt (some dev) pa n else v.bad

/-- lda after its checks (R263): it waits for W at the line's home, then gives the version and the status. -/
def State.performLda (s : State) (w : Who) (x : Xlat) (dom : StampDom) (q : LaneAcc) (n : Nat) : State × LaneRes :=
  let stamp := leNat (q.data.take 8)
  let dev := x.remote.map Prod.fst
  let here := match dev with | some d => d == s.devNumber | none => true
  if s.homeW w.part dev x.pa dom < stamp then (s, .wait (.lda dom (BitVec.ofNat 64 stamp)))
  else if here then
    match s.versionAt (lineOf x.pa) stamp with
    | some v =>
      if s.versionBad v x.pa n then s.meetPoison w x.pa n q.addr else (s, ldaAnswer (some v) x.pa n (s.hasWaited w))
    | none => (s, ldaAnswer none x.pa n (s.hasWaited w))
  else
    let (s', v) := s.peerVersion w.part (dev.getD 0) (lineOf x.pa) stamp
    if s'.peerBad v (dev.getD 0) x.pa n then (s', .fault .ecc 0 q.addr) else (s', ldaAnswer v x.pa n (s.hasWaited w))

/-! ## Engine commands (R299, R302) -/

/-- A command is issued on a context of a slice: it takes the context's next number and queues. -/
def State.issueCmd (s : State) (key ctx : Nat) (kind : CmdKind) : State × Nat :=
  match FMap.get s.slices key with
  | none => (s, 0)
  | some x =>
    let k := nth x.ctxs ctx {}
    let n := k.last + 1
    let k := { k with last := n, queue := k.queue ++ [{ num := n, kind := kind }] }
    ((s.setSlice key { x with ctxs := setNth x.ctxs ctx k }).due (.engineCommandStart key (Fin.ofNat 4 ctx)), n)

/-- Whether a context holds 64 commands that have not completed (R299). -/
def State.ctxFull (s : State) (key ctx : Nat) : Bool :=
  match FMap.get s.slices key with
  | none => false
  | some x => decide (64 ≤ (nth x.ctxs ctx {}).queue.length)

/-- bcopy.st after its checks (R302): a stamp, a command, and its stamped store, which reaches its home slice when the engine has
read the source. `lu` is L + u of the issuing die. Gives the four names it writes. -/
def State.performCopySt (s : State) (w : Who) (dom : StampDom) (lu : Nat) (q : LaneAcc) : State × LaneRes :=
  match FMap.get s.teams w.team with
  | none => (s, .done [])
  | some t =>
    let key := sliceKey t.part t.slice
    if s.ctxFull key 0 then (s, .wait (.context 0))
    else
      let die := dieOfCore w.core
      let (s, st) := s.nextStamp die lu
      let src := BitVec.ofNat 64 (bytesAt q.data 0 8)
      let (s, n) := s.issueCmd key 0 (.copySt q.addr src (bytesAt q.data 8 4 % 2 ^ 30) (BitVec.ofNat 64 st))
      let id := s.nextStore
      let store : StampedStore :=
        { id := id, part := w.part, dom := dom, die := die, stamp := st, pieces := [], va := q.addr,
          cmd := some (key, n) }
      let s := { s with stores := s.stores ++ [store], nextStore := id + 1 }
      (s.onWho w fun t => { t with stamps := t.stamps ++ [id] }, .done (wordsOf (leBytes 8 n ++ leBytes 8 st)))

/-- Step 3 of R277: whether the access suits the page's kind. -/
def kindMismatch (k : AccKind) (stamped : Bool) : Option Nat :=
  match k with
  | .store _ | .atom _ | .cas _ => if stamped then some 0 else none
  | .sts _ | .lda _ | .copySt => if stamped then none else some 1
  | .load _ _ | .mon | .fetch _ => none

/-- One lane's access (R277): its checks in order, its waits, its actions, itself. A fetch checks each of its reads. -/
def State.accessLane (s : State) (w : Who) (a : Access) (q : LaneAcc) : State × LaneRes :=
  match a.kind with
  | .fetch f => s.fetchLane w f q.addr q.row q.col
  | k =>
    let n := k.size
    if q.addr.toNat % n ≠ 0 then (s, .fault .align 0 q.addr)
    else
      match s.translate (some w.core) w.part w.user k.mode q.addr with
      | (s, .error .linkLost) => (s, .fault .linkLost 0 q.addr)
      | (s, .error e) => (s, .logged e q.addr)
      | (s, .ok x) =>
        let s := s.seePage w.part (x.remote.map Prod.fst) q.addr.toNat x.pa x.stamped
        let down : Bool := match x.remote with | some (dev, _) => s.pathDown dev | none => false
        let reach : Except FCode Unit :=
          match x.remote with
          | some (dev, rp) => s.remoteCheck w.part dev rp x.pa n
          | none => if s.homeAlive x.pa then .ok () else .error .linkLost
        match reach, kindMismatch k x.stamped with
        | .error .prot, _ => (s, .logged .prot q.addr)
        | _, some d => (s, .fault .stampMix d q.addr)
        | .error e, none => if down then (s, .wait (.link ((x.remote.map Prod.fst).getD 0))) else (s, .fault e 0 q.addr)
        | .ok _, none =>
          let dom := s.stampDom w.part x.domain
          if s.overlapsOwn w (x.remote.map Prod.fst) x.pa n then (s, .wait (.stamped (s.overlaps w (x.remote.map Prod.fst) x.pa n)))
          else
            match k with
            | .sts size =>
              match s.intervalOk (dieOfCore w.core) dom with
              | (s, false, _) => (s, .fault .intervalWide 0 q.addr)
              | (s, true, lu) => s.performSts w x dom lu q size
            | .lda _ =>
              -- the interval is checked once, before the wait (R263)
              if s.hasWaited w then s.performLda w x dom q n
              else
                match s.intervalOk (dieOfCore w.core) dom with
                | (s, false, _) => (s, .fault .intervalWide 0 q.addr)
                | (s, true, _) => s.performLda w x dom q n
            | .copySt =>
              match s.intervalOk (dieOfCore w.core) dom with
              | (s, false, _) => (s, .fault .intervalWide 0 q.addr)
              | (s, true, lu) =>
                match s.releaseActs w .dv q.addr with
                | (s, some r) => (s, r)
                | (s, none) => s.performCopySt w dom lu q
            | _ =>
              let pre : State × Option LaneRes := if (Order.releases a.order) then s.releaseActs w a.scope q.addr else (s, none)
              match pre with
              | (s, some r) => (s, r)
              | (s, none) =>
                let s := if a.order == .sc then s.ticket else s
                match s.perform w a x q with
                | (s, .done v) => (if (Order.acquires a.order) then s.acquireActs w a.scope else s, .done v)
                | r => r

end Sys2Proof.Machine
end

