-- ==== Sys2Proof/Machine/MemUnit.lean ====
section
/-!
DEFINITION. How a memory instruction executes for its lift (R235, R240, R277, R278, R285): each lane's access, the operand log, the
data that come back (LOAD_COMPLETE), and the replay of logged accesses (R242).
-/

namespace Sys2Proof.Machine

/-! ## Explicit levels (R249, R280 to R282) -/

/-- One lane's access on a shared level: alignment, range (R277 step 1), then the access at its home (R249). -/
def State.levelLane (s : State) (w : Who) (t : Team) (l : Level) (k : AccKind) (q : LaneAcc) : State × LaneRes :=
  let n := k.size
  let o := q.addr.toNat % 2 ^ 32
  if o % n ≠ 0 then (s, .fault .align 0 q.addr)
  else if s.levelRange t l < o + n then (s, .fault .prot 0 q.addr)
  else if l == .chip && !(s.die (o / (s.part t.part).chipShare)).alive then (s, .fault .linkLost 0 q.addr)
  else
    let old := s.levelRead t w.team l o n
    let bad := s.levelBad t w.team l o n
    match k with
    | .load _ signed => if bad then (s, .fault .ecc 0 q.addr) else (s, .done (extendLoad signed old))
    | .store _ => (s.levelWrite t w.team l o (q.data.take n), .done [])
    | .atom _ | .cas _ =>
      if bad then (s, .fault .ecc 0 q.addr)
      else
        match k.newBytes old q.data with
        | some b => (s.levelWrite t w.team l o b, .done (wordsOf old))
        | none => (s, .done (wordsOf old))
    | .sts _ | .lda _ | .mon | .fetch _ | .copySt => (s, .done [])

/-- A doubleword of a thread's lane-private slice (R281). -/
def Thread.slice64 (t : Thread) (o : Nat) : Nat :=
  if o = 0 then t.sp.toNat
  else if o = 8 then t.stack.length
  else (nth t.stack ((o - 16) / 8) 0).toNat

/-- Writes a doubleword of the slice: SP, or a return entry in use, of which bit 1 reads back as 0. -/
def Thread.setSlice64 (t : Thread) (o v : Nat) : Thread :=
  if o = 0 then { t with sp := BitVec.ofNat 64 v }
  else if o = 8 then t
  else { t with stack := setNth t.stack ((o - 16) / 8) (BitVec.ofNat 64 v &&& ~~~2#64) }

/-- One lane's access to its lane-private slice (R281): a load from the lowest thread of the access, a store to each. -/
def State.privateLane (s : State) (w : Who) (k : Nat) (acc : AccKind) (q : LaneAcc) : State × LaneRes :=
  let n := acc.size
  let o := q.addr.toNat % 2 ^ 32
  if n < 4 || o % n ≠ 0 then (s, .fault .align 0 q.addr)
  else if 0x10 + 8 * k ≤ o then (s, .fault .prot 0 q.addr)
  else
    let lo := o / 8 * 8
    let t := ((s.whoThreads w).headD { pc := 0 })
    match acc with
    | .store _ =>
      (s.onWho w fun t => t.setSlice64 lo (leNat (putBytes (leBytes 8 (t.slice64 lo)) (o % 8) (q.data.take n))), .done [])
    | _ => (s, .done (wordsOf (((leBytes 8 (t.slice64 lo)).drop (o % 8)).take n)))

/-! ## A memory instruction -/

/-- A memory instruction: its address operand, its access, and how one lane performs it. -/
structure MemSpec where
  ty : Ty
  addr : Src
  acc : Access
  disp : Int := 0
  /-- A fetch takes row and column from the course's lowest participating thread, a gather from each (R296). -/
  gather : Bool := false
  /-- The level is shared by the course's threads: a U address gives one read (R278). -/
  shared : Bool := true
  perf : State → Who → LaneAcc → State × LaneRes

/-- The displaced address (R275, R280). -/
def MemSpec.at (sp : MemSpec) (v : W64) : W64 :=
  let a := v + BitVec.ofInt 64 sp.disp
  if sp.ty.isPair then a else zx64 (lo32 a)

/-- What one course's part of the instruction came to. -/
structure MemOut where
  reqs : List Req := []
  waits : List (Nat × Nat × Wait) := []

/-- A lane's outcome. -/
structure LaneOut where
  q : LaneAcc
  res : LaneRes

/-- The lane's part of the access: address, data or operands captured at issue, row and column. -/
def MemSpec.laneAcc (sp : MemSpec) (c : Course) (v : View) (lead l : Nat) : LaneAcc :=
  let data := bytesOfWords (sp.acc.reads.map fun n => regRow c n l)
  match sp.acc.kind with
  | .fetch _ =>
    let rc (l : Nat) (k : Nat) : W32 := regRow c (2 * sp.acc.aux + k) l
    if sp.gather then { lane := l, addr := sp.at (v.val l), row := rc l 0, col := rc l 1 }
    else { lane := l, addr := sp.at (v.val l), row := rc lead 0 + BitVec.ofNat 32 l, col := rc lead 1 }
  | _ => { lane := l, addr := sp.at (v.val l), data := data }

/-- Whether an access leaves its value in b3 (R278): one of at most 64 bits, of a load, an atomic or lda (log 17). -/
def AccKind.latches : AccKind → Bool
  | .load n _ => decide (n ≤ 8)
  | .atom _ | .lda _ => true
  | .cas w => decide (casBytes w ≤ 8)
  | .store _ | .sts _ | .mon | .fetch _ | .copySt => false

/-- Whether the value an access leaves in b3 has 64 bits. -/
def AccKind.wide : AccKind → Bool
  | .lda w => w
  | k => k.size == 8

/-- Whether the values come back later, as load data (R278); a stamp is written at issue (R259). -/
def AccKind.comesBack : AccKind → Bool
  | .load _ _ | .atom _ | .cas _ | .lda _ | .fetch _ => true
  | .store _ | .sts _ | .mon | .copySt => false

/-- An entry's place in the log area of its course's image. -/
def logOffset (e : Nat) : Nat := 0x2100 + 1344 * e

/-- Puts an entry into a course's log, or retires it, in the image too: entries live there from the moment they are made (R368, R373). -/
def State.setEntry (s : State) (tk c e : Nat) (x : Option LogEntry) : State :=
  let s := s.onCourse tk c fun y => { y with log := setNth y.log e x }
  match FMap.get s.teams tk, (FMap.get s.teams tk).bind fun t => s.sliceOf t with
  | some t, some sl => s.teamWrite tk (sl.courseImage t.index c + logOffset e) (match x with | some x => x.bytes | none => padTo 64 [])
  | _, _ => s

/-- What a lane's logged access met: its part of the access, the code and the address. -/
structure Logged where
  q : LaneAcc
  code : FCode
  addr : W64

/-- The faulted lanes of a course take an entry of its operand log, and the fault is posted (R240, R364): one record for the entry, with the
first lane's code (log 48); each thread's own registers have its own fault (R358). A uniform access's lanes share one. -/
def State.logAccess (s : State) (tk c : Nat) (acc : Access) (uniform : Bool) (lanes : List Nat) (qs : List Logged) : State :=
  match FMap.get s.teams tk, qs with
  | some t, q0 :: _ =>
    let x := t.course c
    let e := ((List.range 8).find? fun k => (nth x.log k none).isNone).getD 0
    let mask := maskOf lanes
    let (s, token) := s.record t.part (.logEntry ⟨tk, c⟩ e)
      { code := q0.code, kind := 1, slice := t.slice, core := t.core, course := c, entry := e, team := t.index, addr := s.issue.addr,
        faultAddr := q0.addr, mask := mask }
    let entry : LogEntry :=
      { unitAddr := s.issue.addr, word := s.issue.word, acc := acc, lanes := qs.map fun q => q.q, group := if uniform then mask else 0,
        token := token }
    let mine (l : Nat) : Logged := (qs.find? fun (q : Logged) => q.q.lane == l).getD q0
    let s := s.onCourse tk c fun x => (x.dropLatch 3 lanes).onThreads lanes fun l th =>
      th.noteFault { course := c, lane := l, code := (mine l).code, addr := some (mine l).addr } mask false
    s.setEntry tk c e (some entry)
  | _, _ => s

/-- Hands the values of an access to its course: as load data on their way, or written at once (a stamp). -/
def Course.give (x : Course) (acc : Access) (full one : Bool) (lanes : List Nat) (vals : List (List W32)) : Course :=
  let val (k l : Nat) : W64 := zx64 (nth (nth vals (lanes.idxOf l) []) k 0)
  let sh : Shape := if one then .u else .g
  match acc.kind with
  | .load _ _ | .atom _ | .cas _ | .lda _ | .fetch _ =>
    let pl : PendingLoad :=
      { dest := acc.dest, wide := acc.kind.wide, full := full, oneRead := one, lanes := lanes, vals := vals, latch := acc.kind.latches }
    let x := { x with loads := x.loads ++ [pl] }
    if acc.kind.latches then x else x.dropLatch 3 lanes
  | .sts _ => ((x.writeReg full lanes false acc.aux ⟨sh, val 0⟩).writeReg full lanes false (acc.aux + 1) ⟨sh, val 1⟩).dropLatch 3 lanes
  | .store _ => x.dropLatch 3 lanes
  | .copySt => (List.range 4).foldl (fun x k => x.writeReg full lanes false (acc.dest + k) ⟨sh, val k⟩) x
  | .mon => x

/-- Hands the values of an access to its course; load data come back later (R278). -/
def State.giveValues (s : State) (tk c : Nat) (acc : Access) (full one : Bool) (lanes : List Nat) (vals : List (List W32)) : State :=
  let s := s.onCourse tk c fun x => x.give acc full one lanes vals
  if acc.kind.comesBack then s.due (.loadComplete ⟨tk, c⟩) else s

/-- Performs the accesses of the ready lanes of a course in ascending lane order (R235). -/
def performLanes (perf : State → Who → LaneAcc → State × LaneRes) (w : Nat → Who) : State → List LaneAcc → State × List LaneOut
  | s, [] => (s, [])
  | s, q :: t =>
    let (s, r) := perf s (w q.lane) q
    let (s, rs) := performLanes perf w s t
    (s, ⟨q, r⟩ :: rs)

/-- The lanes of outcomes that were performed, with their values. -/
def doneLanes (os : List LaneOut) : List (Nat × List W32) := os.filterMap fun o => match o.res with | .done v => some (o.q.lane, v) | _ => none

/-- What a course's outcomes ask: faults and waits. -/
def memOutOf (c : Nat) (os : List LaneOut) : MemOut :=
  { reqs := os.filterMap fun o =>
      match o.res with
      | .fault code d a => some { course := c, lane := o.q.lane, code := code, detail := d, addr := some a }
      | _ => none
    waits := os.filterMap fun o => match o.res with | .wait wt => some (c, o.q.lane, wt) | _ => none }

/-- The lanes that were logged. -/
def loggedAccs (os : List LaneOut) : List Logged := os.filterMap fun o => match o.res with | .logged c a => some ⟨o.q, c, a⟩ | _ => none

/-- Whose access a lane's is. -/
def State.whoOf (s : State) (tk : Nat) (t : Team) (c : Nat) (lanes : List Nat) : Who :=
  let priv := match s.sliceOf t with | some x => x.privileged | none => false
  { part := t.part, core := t.core, user := !priv, team := tk, course := c, lanes := lanes }

/-- READ_FREE in the lanes that read, and the address operand's last reads for the lanes that went on and those that pass by (R57, R59). -/
def State.memReads (s : State) (tk c : Nat) (sp : MemSpec) (i : CourseIn) (v : View) (readers went : List Nat) : State :=
  let idle := i.lift.filter fun l => !i.parts.contains l
  let freeData (l : Nat) : Bool := sp.acc.reads.any fun n => regFree i.course n l
  s.onCourse tk c fun x =>
    let x := x.onThreads (readers.filter fun l => v.free l || freeData l) fun _ t => t.setReadFree
    x.markSources [(sp.ty, sp.addr)] (idle ++ went)

/-- The address operand's names that every live thread has read for the last time are freed, after the writes (R57, R58). -/
def State.memReap (s : State) (tk c : Nat) (sp : MemSpec) : State := s.onCourse tk c fun x => x.reapSources [(sp.ty, sp.addr)]

/-- The lanes of a course whose accesses an instruction makes: participating, and not stopped by a stale address (R72). -/
def memLanes (i : CourseIn) (sp : MemSpec) : List Nat :=
  let stale := staleLanes [srcView i.rd sp.ty sp.addr] i.parts
  i.parts.filter fun l => !stale.contains l

/-- Whether a full-course load of one address is one read for the course (R278). -/
def memOne (i : CourseIn) (sp : MemSpec) : Bool :=
  let v := srcView i.rd sp.ty sp.addr
  i.full && (staleLanes [v] i.parts).isEmpty && (match sp.acc.kind with | .load _ _ => true | _ => false) && v.shape == .u &&
    (sp.shared || decide (i.course.live.length = 1))

/-- The accesses a lane-set memory instruction makes for a course, with their outcomes: one, or one a lane in ascending order (R235). -/
def State.memAccesses (s : State) (tk : Nat) (t : Team) (c : Nat) (sp : MemSpec) : State × List LaneOut :=
  let i := courseIn s t 3 c
  let v := srcView i.rd sp.ty sp.addr
  let ok := memLanes i sp
  let accs := ok.map fun l => sp.laneAcc i.course v (i.parts.headD 0) l
  if memOne i sp then
    match accs with
    | [] => (s, [])
    | q :: _ =>
      let (s, r) := sp.perf s (s.whoOf tk t c ok) q
      (s, accs.map fun x => ⟨x, r⟩)
  else performLanes sp.perf (fun l => s.whoOf tk t c [l]) s accs

/-- A lane-set memory instruction on one course. -/
def State.memCourse (s : State) (tk : Nat) (t : Team) (c : Nat) (sp : MemSpec) : State × MemOut :=
  let i := courseIn s t 3 c
  let v := srcView i.rd sp.ty sp.addr
  let stale := staleLanes [v] i.parts
  let full := i.full && stale.isEmpty
  let (s, outs) := s.memAccesses tk t c sp
  let done := doneLanes outs
  let logged := loggedAccs outs
  let lanes := done.map Prod.fst
  let whole := full && lanes.length == (memLanes i sp).length
  let loggedLanes := logged.map fun (q : Logged) => q.q.lane
  let went := lanes ++ loggedLanes
  let s := s.memReads tk c sp i v went went
  let s := if lanes.isEmpty then s else s.giveValues tk c sp.acc whole (memOne i sp && whole) lanes (done.map Prod.snd)
  let s := s.logAccess tk c sp.acc false loggedLanes logged
  let out := memOutOf c outs
  (s.memReap tk c sp, { out with reqs := staleReqs c stale ++ out.reqs })

/-- A uniform-set memory instruction on one course: one access, in the program order of every participating thread (R235, R285). -/
def State.uniMemCourse (s : State) (tk : Nat) (t : Team) (c : Nat) (sp : MemSpec) : State × MemOut :=
  let i := courseIn s t 2 c
  let v := srcView i.rd sp.ty sp.addr
  let ls := i.parts
  if ls.isEmpty then ((s.memReads tk c sp i v [] []).memReap tk c sp, {})
  else if v.stale i.lead then ((s.memReads tk c sp i v [] []).memReap tk c sp, { reqs := staleReqs c ls })
  else
    let q := sp.laneAcc i.course v i.lead i.lead
    let (s, r) := sp.perf s (s.whoOf tk t c ls) q
    let went := match r with | .done _ | .logged _ _ => ls | _ => []
    let s := s.memReads tk c sp i v (went.take 1) went
    let drop2 (s : State) : State := s.onCourse tk c fun x => x.dropLatch 2 ls
    match r with
    | .done vals => ((drop2 (s.giveValues tk c sp.acc i.all i.all ls (ls.map fun _ => vals))).memReap tk c sp, {})
    | .logged code a => ((drop2 (s.logAccess tk c sp.acc true ls [⟨q, code, a⟩])).memReap tk c sp, {})
    | .fault code d a => (s.memReap tk c sp, { reqs := ls.map fun l => { course := c, lane := l, code := code, detail := d, addr := some a } })
    | .wait wt => (s.memReap tk c sp, { waits := ls.map fun l => (c, l, wt) })

/-- Ends a unit some of whose members wait: the others retire or take their faults. -/
def State.finishWith (s : State) (o : MemOut) : State :=
  let s := o.waits.foldl (fun s x => (s.await [(x.1, x.2.1)] x.2.2).onThread s.issue.team x.1 x.2.1 fun t =>
    { t with waited := match x.2.2 with | .lda _ _ => true | _ => t.waited }) s
  let going := (without s.issue.lift o.reqs).filter fun m => !o.waits.any fun x => x.1 == m.1 && x.2.1 == m.2
  (s.retire going s.issue.next).deliver o.reqs

/-- Runs a per-course operation over the courses of the lift, in ascending course index. -/
def State.eachCourse (s : State) (f : State → Team → Nat → State × MemOut) : Host.Outcome State Fault Refusal :=
  let run (acc : State × MemOut) (c : Nat) : State × MemOut :=
    match acc.1.curTeam with
    | none => acc
    | some t =>
      let (s, o) := f acc.1 t c
      (s, ⟨acc.2.reqs ++ o.reqs, acc.2.waits ++ o.waits⟩)
  let (s, o) := (coursesOf s.issue.lift).foldl run (s, {})
  .next (s.finishWith o)

/-- A lane-set memory instruction. -/
def State.laneMem (s : State) (sp : MemSpec) : Host.Outcome State Fault Refusal :=
  s.eachCourse fun s t c => s.memCourse s.issue.team t c sp

/-- A uniform-set memory instruction. -/
def State.uniMem (s : State) (sp : MemSpec) : Host.Outcome State Fault Refusal :=
  s.eachCourse fun s t c => s.uniMemCourse s.issue.team t c sp

/-- The device-memory instruction of a form. -/
def MemForm.spec (f : MemForm) (gather : Bool) : MemSpec :=
  { ty := .addr, addr := f.addr, acc := f.acc, disp := f.disp, gather := gather, perf := fun s w q => s.accessLane w f.acc q }

/-- The instruction of a level. -/
def levelSpec (l : Level) (acc : Access) (a : Src) (disp : Int) : MemSpec :=
  { ty := .b32, addr := a, acc := acc, disp := disp,
    perf := fun s w q => match FMap.get s.teams w.team with | some t => s.levelLane w t l acc.kind q | none => (s, .done []) }

/-- The instruction of the lane-private slice. -/
def privateSpec (acc : Access) (a : Src) (disp : Int) : MemSpec :=
  { ty := .b32, addr := a, acc := acc, disp := disp, shared := false,
    perf := fun s w q => match FMap.get s.teams w.team with | some t => s.privateLane w t.stackK acc.kind q | none => (s, .done []) }

/-! ## Replay (R242) -/

/-- Removes an entry from the log. -/
def State.retireEntry (s : State) (tk c e : Nat) : State := s.setEntry tk c e none

/-- What a replayed lane's access came to, if it faulted again: the code, its detail, the address. -/
def LaneRes.again : LaneRes → Option (FCode × Nat × W64)
  | .logged code a => some (code, 0, a)
  | .fault code d a => some (code, d, a)
  | .done _ | .wait _ => none

/-- The registers of a thread whose logged access faults again (R358); those of a parked thread hold the fault that parked it (R362). -/
def Thread.faultAgain (t : Thread) (r : Req) (mask : W32) : Thread :=
  if t.parked.isSome then t
  else
    let n := t.noteFault r mask false
    { t with fault := n.fault, faultaddr := n.faultaddr, faultmask := n.faultmask, tsw := n.tsw }

/-- A lane's part of an entry as its replay leaves it: an lda that must wait has waited from now on (R263). -/
def LaneOut.pending (o : LaneOut) : LaneAcc :=
  { o.q with waited := o.q.waited || match o.res with | .wait (.lda _ _) => true | _ => false }

/-- Replays an entry, under the block in force: each faulted thread performs its access once; what faults again or must wait stays pending
(R242, R277). -/
def State.replayUnder (s : State) (tk c e : Nat) : State :=
  match FMap.get s.teams tk with
  | none => s
  | some t =>
    match nth (t.course c).log e none with
    | none => s
    | some x =>
      let saved := s.issue
      let s := { s with issue := { saved with addr := x.unitAddr, word := x.word } }
      let ls := if x.acc.uniform then lanesOf x.group else x.lanes.map fun q => q.lane
      let all := decide (ls.length = (t.course c).threads.length)
      let waited (l : Nat) : Bool := x.lanes.any fun q => (x.acc.uniform || q.lane == l) && q.waited
      let w (l : Nat) : Who := { s.whoOf tk t c (if x.acc.uniform then ls else [l]) with replay := some (waited l) }
      let (s, outs) := performLanes (fun s w q => s.accessLane w x.acc q) w s x.lanes
      let done := doneLanes outs
      let rest := (outs.filter fun o => match o.res with | .done _ => false | _ => true)
      let s :=
        if done.isEmpty then s
        else if x.acc.uniform then s.giveValues tk c x.acc all all ls (ls.map fun _ => (done.headD (0, [])).2)
        else s.giveValues tk c x.acc false false (done.map Prod.fst) (done.map Prod.snd)
      let s := s.completeLoads ⟨tk, c⟩
      let again := rest.filterMap fun o => o.res.again.map fun f => (o.q.lane, f)
      let s :=
        if rest.isEmpty then s.retireEntry tk c e
        else
          let qs := rest.map LaneOut.pending
          match again with
          | [] => s.setEntry tk c e (some { x with lanes := qs, replay := true })
          | (_, code, d, a) :: _ =>
            let mask := if x.acc.uniform then x.group else maskOf (qs.map fun q => q.lane)
            let (s, token) := s.record t.part (.logEntry ⟨tk, c⟩ e)
              { code := code, kind := 1, detail := d, slice := t.slice, core := t.core, course := c, entry := e, team := t.index,
                addr := x.unitAddr, faultAddr := a, mask := mask }
            let mine (l : Nat) : Option (FCode × Nat × W64) :=
              if x.acc.uniform then some (code, d, a) else (again.find? fun p => p.1 == l).map Prod.snd
            let s := s.onCourse tk c fun y => y.onThreads ls fun l th =>
              match mine l with
              | some (code, d, a) => th.faultAgain { course := c, lane := l, code := code, detail := d, addr := some a } mask
              | none => th
            s.setEntry tk c e (some { x with lanes := qs, token := token, replay := false })
      { s with issue := saved }

/-- Replays an entry of a team's course, under the block the team was placed with (R339). -/
def State.replayEntry (s : State) (tk c e : Nat) : State :=
  match FMap.get s.teams tk with
  | none => s
  | some t => (s.asTeam t fun s => (s.replayUnder tk c e, ())).1

/-! ## The operand log and a thread's next unit (R241) -/

/-- Bytes a lane's access touches. -/
def LaneAcc.bytes (a : Access) (q : LaneAcc) : Nat := match a.kind with | .copySt => bytesAt q.data 8 4 % 2 ^ 30 | k => k.size

/-- The part of an entry's access that is a lane's. -/
def LogEntry.laneOf (e : LogEntry) (l : Nat) : Option LaneAcc :=
  if e.acc.uniform then (if hasLane e.group l then e.lanes.head? else none) else e.lanes.find? fun q => q.lane == l

/-- The ranges a fetch or gather reads, as far as its handle tells (R295, R296). -/
def State.fetchRanges (s : State) (w : Who) (f : MFmt) (q : LaneAcc) : List (Nat × Nat) :=
  let own := (q.addr.toNat, 64)
  match (s.fetchAt w q.addr.toNat 64).2 with
  | .error _ => [own]
  | .ok hb =>
    let h := handleOf hb
    let k := mDepth f
    let n := k / 4
    let r := q.row.toNat
    let c0 := q.col.toNat / k * k
    let segs := if h.rows ≤ r then [] else ([0, 1, 2, 3].map fun g => c0 + g * n).filter fun c => decide (c < h.cols)
    let seg (c : Nat) : List (Nat × Nat) :=
      let bytes := ceilDiv (min n (h.cols - c) * mWidth f) 8
      if !h.sparse then [(h.base + r * h.stride + c * mWidth f / 8, bytes)]
      else
        let bit0 := r * ceilDiv h.cols n
        let bit := bit0 + c / n
        let index := (h.index + bit0 / 8, bit / 8 - bit0 / 8 + 1)
        match (s.fetchAt w index.1 index.2).2 with
        | .error _ => [index]
        | .ok b =>
          let m := leNat b / 2 ^ (bit0 % 8)
          if fld m (c / n) 1 = 0 then [index]
          else
            let before := ((List.range (c / n)).filter fun j => fld m j 1 == 1).length
            [index, (h.base + r * h.stride + before * (n * mWidth f / 8), bytes)]
    let scales := if f.scaleNames = 0 || h.rows ≤ r then [] else
      ((List.range (ceilDiv k 32)).filter fun b => decide (32 * (c0 / 32 + b) < h.cols)).map fun b =>
        (h.scales + r * ceilDiv h.cols 32 + (c0 / 32 + b), 1)
    own :: segs.flatMap seg ++ scales

/-- The ranges of virtual addresses a lane's access touches (R241). -/
def State.accRanges (s : State) (w : Who) (a : Access) (q : LaneAcc) : List (Nat × Nat) :=
  match a.kind with
  | .fetch f => s.fetchRanges w f q
  | _ => [(q.addr.toNat, LaneAcc.bytes a q)]

/-- Whether the part of an entry's access that is a lane's overlaps some ranges (R241). -/
def State.entryMeets (s : State) (w : Who) (e : LogEntry) (l : Nat) (ranges : List (Nat × Nat)) : Bool :=
  match e.laneOf l with
  | none => false
  | some q => (s.accRanges w e.acc q).any fun b => ranges.any fun a => decide (a.1 < b.1 + b.2) && decide (b.1 < a.1 + a.2)

/-- The pending entries of a lane. -/
def Course.entriesOf (c : Course) (l : Nat) : List LogEntry :=
  (c.log.filterMap id).filter fun e => (e.laneOf l).isSome

end Sys2Proof.Machine
end

