-- ==== Sys2Proof/Machine/MemInstr.lean ====
section
/-!
DEFINITION. The memory and synchronisation instructions (13).
-/

namespace Sys2Proof.Machine

/-! ## Device memory -/

/-- R279, plain. -/
def execLd (k : LdKind) (d : Fin 64) (a : Src) (off : BitVec 6) (st : State) : Host.Outcome State Fault Refusal :=
  st.laneMem ((plainForm (.load k.size (loadSigned k)) false d a off k.size).spec false)
/-- R279, ordered. -/
def execLdOrdered (o : OrdAcc) (d : Fin 64) (a : Src) (st : State) : Host.Outcome State Fault Refusal :=
  st.laneMem ((ordForm true false o d a).spec false)
/-- R279, plain. -/
def execSt (k : StKind) (d : Fin 64) (a : Src) (off : BitVec 6) (st : State) : Host.Outcome State Fault Refusal :=
  st.laneMem ((plainForm (.store k.size) false d a off k.size).spec false)
/-- R279, ordered. -/
def execStOrdered (o : OrdAcc) (d : Fin 64) (a : Src) (st : State) : Host.Outcome State Fault Refusal :=
  st.laneMem ((ordForm false false o d a).spec false)

/-- The kind of a level load of a width (R280). -/
def xLoad (w : XWidth) : AccKind := .load w.size false

/-- A level access as an instruction makes it. -/
def levelAccess (l : XLevel) (acc : Access) (a : Src) (disp : Int) : MemSpec :=
  match l with
  | .spad => levelSpec .spad acc a disp
  | .clm => levelSpec .clm acc a disp
  | .chip => levelSpec .chip acc a disp
  | .lp => privateSpec acc a disp

/-- R280. -/
def execLdx (l : XLevel) (w : XWidth) (d : Fin 64) (a : Src) (off : BitVec 6) (st : State) : Host.Outcome State Fault Refusal :=
  st.laneMem (levelAccess l { kind := xLoad w, dest := d.val } a (dispOf off w.size))
/-- R280. -/
def execStx (l : XLevel) (w : XWidth) (d : Fin 64) (a : Src) (off : BitVec 6) (st : State) : Host.Outcome State Fault Refusal :=
  st.laneMem (levelAccess l { kind := .store w.size, dest := d.val } a (dispOf off w.size))
/-- The access of an atomic at its place (R282). -/
def atomSpec (u : Bool) (k : AccKind) (pl : AtomPlace) (d : Fin 64) (a : Src) : MemSpec :=
  match pl with
  | .dev s o => (⟨{ kind := k, scope := s, order := o, dest := d.val, uniform := u }, a, 0⟩ : MemForm).spec false
  | .level l => levelSpec l { kind := k, dest := d.val, uniform := u } a 0
/-- R282. -/
def execAtom (op : AtomOp) (pl : AtomPlace) (d : Fin 64) (a : Src) (st : State) : Host.Outcome State Fault Refusal :=
  st.laneMem (atomSpec false (.atom op) pl d a)
/-- R287. -/
def execSts (k : StKind) (d : Fin 64) (a : Src) (s : Fin 64) (st : State) : Host.Outcome State Fault Refusal :=
  st.laneMem ((⟨{ kind := .sts k.size, dest := d.val, aux := s.val }, a, 0⟩ : MemForm).spec false)
/-- R288. -/
def execLda (w64 : Bool) (d : Fin 64) (a : Src) (t : Fin 64) (st : State) : Host.Outcome State Fault Refusal :=
  st.laneMem ((⟨{ kind := .lda w64, dest := d.val, aux := t.val }, a, 0⟩ : MemForm).spec false)
/-- R296. -/
def execFetch (f : MFmt) (d : Fin 64) (a : Src) (c : Fin 32) (st : State) : Host.Outcome State Fault Refusal :=
  st.laneMem ((⟨{ kind := .fetch f, dest := d.val, aux := c.val }, a, 0⟩ : MemForm).spec false)
/-- R296. -/
def execGather (f : MFmt) (d : Fin 64) (a : Src) (c : Fin 32) (st : State) : Host.Outcome State Fault Refusal :=
  st.laneMem ((⟨{ kind := .fetch f, dest := d.val, aux := c.val }, a, 0⟩ : MemForm).spec true)

/-! ## Uniform forms (R285, R286) -/

/-- R285. -/
def execSld (m : LdMode) (d : Fin 64) (a : Src) (st : State) : Host.Outcome State Fault Refusal :=
  match m with
  | .plain k off => st.uniMem ((plainForm (.load k.size (loadSigned k)) true d a off k.size).spec false)
  | .ordered o => st.uniMem ((ordForm true true o d a).spec false)
/-- R285. -/
def execSst (m : StMode) (d : Fin 64) (a : Src) (st : State) : Host.Outcome State Fault Refusal :=
  match m with
  | .plain k off => st.uniMem ((plainForm (.store k.size) true d a off k.size).spec false)
  | .ordered o => st.uniMem ((ordForm false true o d a).spec false)
/-- R285. -/
def execSldx (l : XLevel) (w : XWidth) (d : Fin 64) (a : Src) (off : BitVec 6) (st : State) : Host.Outcome State Fault Refusal :=
  st.uniMem (levelAccess l { kind := xLoad w, dest := d.val, uniform := true } a (dispOf off w.size))
/-- R285. -/
def execSstx (l : XLevel) (w : XWidth) (d : Fin 64) (a : Src) (off : BitVec 6) (st : State) : Host.Outcome State Fault Refusal :=
  st.uniMem (levelAccess l { kind := .store w.size, dest := d.val, uniform := true } a (dispOf off w.size))
/-- R285. -/
def execSatom (op : AtomOp) (pl : AtomPlace) (d : Fin 64) (a : Src) (st : State) : Host.Outcome State Fault Refusal :=
  st.uniMem (atomSpec true (.atom op) pl d a)
/-- R286. -/
def execScas (w : CasW) (pl : AtomPlace) (d : Fin 64) (a : Src) (st : State) : Host.Outcome State Fault Refusal :=
  st.uniMem (atomSpec true (.cas w) pl d a)
/-- R293. -/
def execMon (a : Src) (st : State) : Host.Outcome State Fault Refusal :=
  st.uniMem ((⟨{ kind := .mon, uniform := true }, a, 0⟩ : MemForm).spec false)

/-! ## Synchronisation -/

/-- What one course's part of a uniform instruction came to: faults, waits, and what it writes to its course's registers, after its
last reads are marked (R57). -/
structure SyncOut where
  reqs : List Req := []
  waits : List (Nat × Nat × Wait) := []
  write : Course → Course := id

/-- One course's part of a uniform instruction that may wait: its operands are the lowest participating thread's (R63); the threads that go
on, and with `arrive` those that wait to be continued, have made their last reads; b2, and with `b3` the load latch, keep no record (R194,
R278). -/
def State.uniSyncAt (s : State) (srcs : List Operand) (b3 arrive : Bool)
    (f : State → Team → Nat → CourseIn → List W64 → State × SyncOut) (t : Team) (c : Nat) : State × MemOut :=
  let tk := s.issue.team
  let i := courseIn s t 2 c
  let vs := srcs.map fun o => srcView i.rd o.1 o.2
  let idle := i.lift.filter fun l => !i.parts.contains l
  -- a unit issued again after a restore (R142, R297) has read its operands before
  let again := i.parts.all fun l => match s.threadAt tk c l with | some t => t.progress.isSome | none => false
  let mark (s : State) (ls : List Nat) : State := s.onCourse tk c fun x => (x.markSources srcs ls).reapSources srcs
  if i.parts.isEmpty then (mark s idle, {})
  else if !again && vs.any fun v => v.stale i.lead then (mark s idle, { reqs := staleReqs c i.parts })
  else
    let (s, o) := f s t c i (vs.map fun v => v.val i.lead)
    let stay := o.reqs.map (fun r => r.lane) ++ (if arrive then [] else o.waits.map fun x => x.2.1)
    let went := i.parts.filter fun l => !stay.contains l
    let s := s.onCourse tk c fun x =>
      let x := if went.isEmpty || again then x else x.noteFree vs [i.lead]
      let x := (o.write (x.markSources srcs (idle ++ went))).dropLatch 2 went
      (if b3 then x.dropLatch 3 went else x).reapSources srcs
    (s, ⟨o.reqs, o.waits⟩)

/-- A uniform instruction that may wait, on the courses of its lift. -/
def State.uniSync (s : State) (srcs : List Operand) (b3 arrive : Bool)
    (f : State → Team → Nat → CourseIn → List W64 → State × SyncOut) : Host.Outcome State Fault Refusal :=
  s.eachCourse fun s t c => s.uniSyncAt srcs b3 arrive f t c

/-- The participating threads of a releasing fence that must wait, and those whose wait a lost device ends with a fault (R252, R262). -/
def fenceWaits (s : State) (t : Team) (c : Nat) (sc : Scope) (i : CourseIn) : SyncOut :=
  let stop (l : Nat) : Option LaneRes := s.releaseStop (s.whoOf s.issue.team t c [l]) sc s.issue.addr
  { waits := i.parts.filterMap fun l => match stop l with | some (.wait wt) => some (c, l, wt) | _ => none
    reqs := i.parts.filterMap fun l =>
      match stop l with | some (.fault code d _) => some { course := c, lane := l, code := code, detail := d } | _ => none }

/-- R289. -/
def execFence (sc : Scope) (o : FenceOrd) (st : State) : Host.Outcome State Fault Refusal :=
  st.uniSync [] true false fun s t c i _ =>
    let (rel, acq) := match o with | .acq => (false, true) | .rel => (true, false) | .ar | .sc => (true, true)
    let s := if rel && 3 ≤ Scope.rank sc then s.writeBackAll t.core else s
    let out := if rel then fenceWaits s t c sc i else {}
    let going := decide (out.waits.length + out.reqs.length < i.parts.length)
    let s := if going && o == .sc then s.ticket else s
    (if going && acq then s.acquireActs (s.whoOf s.issue.team t c i.parts) sc else s, out)

/-- R290. -/
def execCommitw (st : State) : Host.Outcome State Fault Refusal :=
  st.uniSync [] true false fun s _ c i _ =>
    let stuck (l : Nat) : Bool := match s.threadAt s.issue.team c l with | some t => !t.stamps.isEmpty | none => false
    (s, { waits := (i.parts.filter stuck).map fun l => (c, l, .commit) })

/-- One course's arrival (R291): the phase it belongs to. -/
def Barrier.arrive (b : Barrier) (e count : Nat) : Barrier :=
  let exp := if b.arrived = 0 then e else b.exp
  let n := b.arrived + count
  if exp ≤ n then { phase := b.phase + 1, arrived := 0, exp := exp } else { b with arrived := n, exp := exp }

/-- The expected total of a barrier word (R291). -/
def barTotal (a : W64) : Nat := max 1 (min (fld a.toNat 16 11) 1024)

/-- R291. -/
def execBarArrive (d : Fin 64) (a b : Src) (st : State) : Host.Outcome State Fault Refusal :=
  st.uniSync [(.b32, a), (.b32, b)] true false fun s t _ i vals =>
    let k := (vals.headD 0).toNat % 16
    let bar := nth t.barriers k {}
    let bar' := bar.arrive (barTotal (vals.headD 0)) ((vals.getD 1 0).toNat % 2 ^ 32)
    let s := { s with teams := FMap.modify s.teams s.issue.team fun t => { t with barriers := setNth t.barriers k bar' } }
    (s, { write := fun x => x.writeUniform i false (.reg d) (zx64 bar.phase) })

/-- Whether the phase a wait names is over (R292). -/
def Barrier.passed (b : Barrier) (phase : W32) : Bool := let n := (b.phase - phase).toNat; decide (1 ≤ n) && decide (n ≤ 2 ^ 31)

/-- R292. -/
def execBarWait (a b : Src) (st : State) : Host.Outcome State Fault Refusal :=
  st.uniSync [(.b32, a), (.b32, b)] true false fun s t c i vals =>
    let k := (vals.headD 0).toNat % 16
    let phase := lo32 (vals.getD 1 0)
    if (nth t.barriers k {}).passed phase then (s, {}) else (s, { waits := i.parts.map fun l => (c, l, .barWait k phase) })

/-- What an mwait finds at once, if anything (R294, R297). -/
def Thread.mwaitNow (t : Thread) : Option W32 :=
  if t.progress.isSome then some 2
  else match t.monitor with | none => some 3 | some m => if m.fired then some 0 else none

/-- R294: a thread whose wait is over at once writes its status; the others wait. -/
def execMwait (d : Fin 64) (a : Src) (st : State) : Host.Outcome State Fault Refusal :=
  st.uniSync [(.b32, a)] true true fun s _ c i vals =>
    let tk := s.issue.team
    let cycles := (vals.headD 0).toNat % 2 ^ 32
    let found := i.parts.filterMap fun l => ((s.threadAt tk c l).bind fun t => t.mwaitNow).map fun v => (l, v)
    let ls := found.map Prod.fst
    let same := match found with | [] => false | p :: t => t.all fun q => q.2 == p.2
    let whole := i.all && ls.length == i.parts.length && same
    let val (l : Nat) : W64 := match found.find? (fun p => p.1 == l) with | some p => zx64 p.2 | none => 0
    let write (x : Course) : Course := if ls.isEmpty then x else
      (x.writeReg whole ls false d.val ⟨if whole then .u else .g, val⟩).onThreads ls fun _ t => { t with monitor := none }
    (s, { write := write, waits := (i.parts.filter fun l => !ls.contains l).map fun l => (c, l, .mwait d.val (if cycles = 0 then none else some cycles)) })

/-- A thread leaves its mwait with a status (R294): vD is written, its monitor disarmed, and it continues. -/
def State.endMwait (s : State) (r : ThreadRef) (status : W32) : State :=
  match s.threadAt r.team r.course r.lane with
  | none => s
  | some t =>
    match t.wait with
    | .mwait d _ =>
      let s := s.onCourse r.team r.course fun x =>
        (x.writeReg false [r.lane] false d ⟨.g, fun _ => zx64 status⟩).onThreads [r.lane] fun _ t =>
          { t.goto (t.pc + BitVec.ofNat 64 t.waitLen) s.cycle with monitor := none }
      { s with issue := { s.issue with retired := s.issue.retired ++ [(r.team, r.course, r.lane)] } }
    | _ => s

end Sys2Proof.Machine
end

