-- ==== Sys2Proof/Machine/Submit.lean ====
section
/-!
DEFINITION. Slice records at submission: their checks (R319, R320, R384), slice numbers (R321), and the capability chain (R389).
-/

namespace Sys2Proof.Machine

/-- Whether a field of a record is an address R275 allows. -/
def goodAddr (n : Nat) : Bool := canonical (BitVec.ofNat 64 n)

/-- Bytes of the largest team image of a slice (R370). -/
def Slice.imageSize (x : Slice) : Nat := 65536 + up64k x.scratch + up64k (x.clmem * 1024) + x.maxCourses * x.slotSize

/-- Whether a record is accepted (R320). -/
def Slice.accepted (x : Slice) : Bool :=
  let h := x.fieldAt 0x58 8
  let area := x.fieldAt 0x78 8
  let teamThr := fld x.shapeW 24 11
  fld x.shapeW 62 2 == 0 && decide (x.gang ≤ 4) && fld x.shapeW 51 2 != 3 && decide (x.tilesMax ≤ 16) &&
  decide (fld x.shapeW 35 11 ≤ 1024) && decide (1 ≤ teamThr) && decide (teamThr ≤ 1024) && decide (x.resW % 2 ^ 21 ≤ 1703936) &&
  x.fieldAt 0 8 % 4 == 0 && fld h 4 59 == 0 && goodAddr (x.fieldAt 0 8) && goodAddr (x.fieldAt 0x60 8) && goodAddr (x.fieldAt 0x68 8) &&
  goodAddr (x.fieldAt 0x70 8) && goodAddr (area / 65536 * 65536) && decide (65536 + x.imageSize ≤ area % 65536 * 65536)

/-- The next slice number of a partition (R321): from `n` on, skipping those that entries hold. -/
def State.numberFrom (s : State) (part n : Nat) : Nat → Nat
  | 0 => n
  | fuel + 1 =>
    let n := if n = 0 || 0xFFFFFFFE < n then 1 else n
    if (FMap.get s.slices (sliceKey part n)).isSome then s.numberFrom part (n + 1) fuel else n

/-- The slice entries of a partition. -/
def State.slicesOf (s : State) (part : Nat) : List (Nat × Slice) := s.slices.filter fun p => p.2.part == part

/-- Makes a slice of a record (R320, R321); nothing when no entry is free. `with'` sets what a moved slice brings (R390). -/
def State.createSlice (s : State) (part : Nat) (priv : Bool) (addr : W64) (record : List Byte) (with' : Slice → Slice) : State × Option Nat :=
  let q := s.part part
  let held := s.slicesOf part
  if q.cfg 0x24 4 ≤ held.length then (s, none)
  else
    let num := s.numberFrom part q.nextSlice (held.length + 1)
    let s := s.setPart part { q with nextSlice := if num = 0xFFFFFFFE then 1 else num + 1 }
    let x : Slice := { part := part, num := num, state := .ready, privileged := priv, recAddr := addr, record := record }
    let dep := x.fieldAt 0x50 4
    let x := with' { x with deadline := BitVec.ofNat 64 (x.fieldAt 0x28 8), depcount := dep, chunkRem := x.fieldAt 0x48 4,
                            state := if dep = 0 then .ready else .waiting }
    let key := sliceKey part num
    let s := s.setSlice key x
    if !x.accepted then (s.completeSlice key .rejected, some num)
    else if dep = 0 then (s.due (.teamPlacement (Fin.ofNat 16 part)), some num)
    else (s, some num)

/-- Takes the next grant of a slice's chunk counter (R48): the start and the count. -/
def Slice.grant (x : Slice) : Slice × Nat × Nat :=
  let total := x.fieldAt 0x48 4
  let m := max 1 (x.fieldAt 0x4C 4)
  let g := x.gridTeams
  let n := min x.chunkRem (max m ((x.chunkRem + 2 * g - 1) / (2 * g)))
  ({ x with chunkRem := x.chunkRem - n }, total - x.chunkRem, n)

/-- Decrements a dependence count (R50, R134): the old count, or nothing when no slice is named. -/
def State.decrement (s : State) (part num : Nat) : State × Option Nat :=
  let key := sliceKey part num
  match FMap.get s.slices key with
  | none => (s, none)
  | some x =>
    if x.state == .complete then (s, none)
    else if x.depcount = 0 then (s, some 0)
    else
      let x' := { x with depcount := x.depcount - 1, state := if x.depcount = 1 then .ready else x.state }
      let s := s.setSlice key x'
      (if x.depcount = 1 then s.due (.teamPlacement (Fin.ofNat 16 part)) else s, some x.depcount)

/-! ## The capability chain (R139, R389) -/

/-- Safe-tier windows of a partition (R386). -/
def State.safeWindows (s : State) (part : Nat) : Nat :=
  match (s.part part).table 0x50 256 with
  | none => 0
  | some base => ((List.range 16).filter fun k => decide (2 ^ 63 ≤ leNat (s.mem.readN (base + 16 * k + 8) 8))).length

/-- Entry `k` of the chain. -/
def State.capEntry (s : State) (part k : Nat) : W64 :=
  let full := s.boot == .full
  let dieBits := ((List.range 4).filter fun d => (s.die d).alive).foldl (fun n d => n + 2 ^ d) 0
  let towerBits := ((List.range 12).filter fun t => (s.die (t / 3)).alive).foldl (fun n t => n + 2 ^ t) 0
  let data : Nat :=
    match k with
    | 0 => if full then dieBits + towerBits * 2 ^ 8 else 0x1 + 0x001 * 2 ^ 8
    | 1 => (if full then 0 else 1) + s.clockMHz / 25 * 2 ^ 8
    | 2 => if full then 0x1FFF else 0x0200
    | 3 => if s.domain then s.devNumber + 2 ^ 9 else 0
    | 4 => if full then s.ports.toNat else 0
    | 5 => s.safeWindows part
    | _ => let q := s.part part; (16 - q.holds.length) + (16 - q.domHolds.length) * 2 ^ 5
  let next := if k = 6 then 0 else k + 1
  if 6 < k then 0 else BitVec.ofNat 64 ((k + 1) * 2 ^ 48 + 1 * 2 ^ 40 + next * 2 ^ 32 + data)

end Sys2Proof.Machine
end

