-- ==== Sys2Proof/Machine/Control.lean ====
section
/-!
DEFINITION. The control, work and system instructions (06): branches and calls, rendezvous, fork, emission, spawned work, slices,
special registers, traps.
-/

namespace Sys2Proof.Machine

/-! ## Threads one by one -/

/-- What a control instruction does to one thread. -/
inductive Go where
  | to (pc : W64)
  | fault (r : Req)
  | wait (w : Wait)
  /-- The thread ends (R31). -/
  | done

/-- Threads of the issuing team end (R31): their holds and their lanes of log entries go, names without a live reader are freed. -/
def State.dropThreads (s : State) (tk : Nat) (ms : List (Nat × Nat)) : State :=
  ms.foldl (fun s m =>
    let s := s.leaveHold tk m.1 m.2
    s.onCourse tk m.1 fun x => x.dropLane m.2) s

/-- Lets some members act one by one, in the order given; then the faults are delivered, the ended threads leave, and the boundary
settles (R337). -/
def State.eachThread (s : State) (ms : List (Nat × Nat)) (f : State → Team → Nat → Nat → State × Go) :
    Host.Outcome State Fault Refusal :=
  let tk := s.issue.team
  let run (acc : State × List Req × List (Nat × Nat)) (m : Nat × Nat) : State × List Req × List (Nat × Nat) :=
    match acc.1.curTeam with
    | none => acc
    | some t =>
      match f acc.1 t m.1 m.2 with
      | (s, .to pc) => (s.retire [m] pc, acc.2)
      | (s, .fault r) => (s, acc.2.1 ++ [r], acc.2.2)
      | (s, .wait w) => (s.await [m] w, acc.2)
      | (s, .done) => (s, acc.2.1, acc.2.2 ++ [m])
  let (s, reqs, ended) := ms.foldl run (s, [], [])
  let s := s.deliver reqs
  let s := s.dropThreads tk ended
  .next (if ended.isEmpty then s else s.settle tk)

/-! ## Branches, calls, returns (R119 to R122) -/

/-- Whether a plain access of a thread must wait for its pending log entries (R241). -/
def State.logBlocks (s : State) (w : Who) (c : Course) (l va n : Nat) : Bool :=
  (c.entriesOf l).any fun e => Order.acquires e.acc.order || e.acc.kind.isAtomic || s.entryMeets w e l [(va, n)]

/-- A fault of a spill or refill (R122). -/
def spillReq (s : State) (w : Who) (c l : Nat) (mode : AccMode) (r : LaneRes) : Go :=
  match r with
  | .fault code d a => .fault { course := c, lane := l, code := code, detail := d, addr := some a }
  | .logged code a =>
    let far := match (s.translate none w.part w.user mode a).2 with | .ok x => x.remote.isSome | .error _ => false
    .fault { course := c, lane := l, code := code, addr := some a, system := far }
  | .wait wt => .wait wt
  | .done _ => .done

/-- Pushes a return address (R122), then goes to the target. -/
def State.push (s : State) (t : Team) (c l : Nat) (ret target : W64) : State × Go :=
  let tk := s.issue.team
  let th := (t.course c).thread l
  let put (s : State) (stack : List W64) (sp : W64) : State :=
    s.onThread tk c l fun th => { th with stack := stack ++ [ret &&& ~~~1#64], sp := sp }
  if th.stack.length < t.stackK then (put s th.stack th.sp, .to target)
  else if th.sp.toNat < 8 then (s, .fault { course := c, lane := l, code := .stackLimit, addr := some th.sp })
  else if th.sp.toNat % 8 ≠ 0 then (s, .fault { course := c, lane := l, code := .align, addr := some (th.sp - 8) })
  else
    let a := th.sp - 8
    let w := s.whoOf tk t c [l]
    if s.logBlocks w (t.course c) l a.toNat 8 then (s, .wait .log)
    else
      match s.accessLane w { kind := .store 8 } { lane := l, addr := a, data := leBytes 8 (th.stack.headD 0).toNat } with
      | (s, .done _) =>
        let rest := th.stack.drop 1
        let rest := match rest with | [] => [] | e :: es => (e ||| 1#64) :: es
        let new := if rest.isEmpty then (ret &&& ~~~1#64) ||| 1#64 else ret &&& ~~~1#64
        (s.onThread tk c l fun th => { th with stack := rest ++ [new], sp := a }, .to target)
      | (s, r) => (s, spillReq s w c l .write r)

/-- Pops a return entry and continues there (R121, R122); at call depth zero the thread ends. -/
def State.pop (s : State) (t : Team) (c l : Nat) : State × Go :=
  let tk := s.issue.team
  let th := (t.course c).thread l
  match th.stack.getLast? with
  | none => (s, .done)
  | some e =>
    let target := e &&& ~~~3#64
    let rest := th.stack.take (th.stack.length - 1)
    if e.getLsbD 0 then
      let w := s.whoOf tk t c [l]
      if s.logBlocks w (t.course c) l th.sp.toNat 8 then (s, .wait .log)
      else
        match s.accessLane w { kind := .load 8 false } { lane := l, addr := th.sp } with
        | (s, .done vals) =>
          (s.onThread tk c l fun th => { th with stack := [pair64 (nth vals 1 0) (nth vals 0 0)], sp := th.sp + 8 }, .to target)
        | (s, r) => (s, spillReq s w c l .read r)
    else (s.onThread tk c l fun th => { th with stack := rest }, .to target)

/-- The target of a B-format word (R84): the word is the unit. -/
def branchTarget (pc : W64) (off : BitVec 19) : W64 := pc + off.signExtend 64 * 4

/-- R119. -/
def execBr (p : PredSel) (neg : Bool) (off : BitVec 19) (st : State) : Host.Outcome State Fault Refusal :=
  st.eachThread st.issue.lift fun s t c l =>
    (s, .to (if ((t.course c).thread l).predSel p != neg then branchTarget s.issue.addr off else s.issue.next))

/-- R119. -/
def execCall (p : PredSel) (neg : Bool) (off : BitVec 19) (st : State) : Host.Outcome State Fault Refusal :=
  st.eachThread st.issue.lift fun s t c l =>
    if ((t.course c).thread l).predSel p != neg then s.push t c l s.issue.next (branchTarget s.issue.addr off) else (s, .to s.issue.next)

/-- Marks and frees a lane-set control operand's last reads for one thread. -/
def State.markThread (s : State) (tk c l : Nat) (vs : List View) (srcs : List Operand) : State :=
  s.onCourse tk c fun x => ((x.noteFree vs [l]).markSources srcs [l]).reapSources srcs

/-- What a thread of the lift whose guard is false does: its last reads (R57), and on. -/
def State.passBy (s : State) (c l : Nat) (srcs : List Operand) : State × Go :=
  (s.markThread s.issue.team c l [] srcs, .to s.issue.next)

/-- R120. -/
def execIcall (a : Src) (st : State) : Host.Outcome State Fault Refusal :=
  st.eachThread st.issue.lift fun s t c l =>
    let srcs : List Operand := [(.addr, a)]
    if !s.issue.parts.contains (c, l) then s.passBy c l srcs
    else
      let v := srcView (rdCtx (s.core t.core) t c) .addr a
      let target := v.val l
      if v.stale l then (s, .fault { course := c, lane := l, code := .staleLatch })
      else if target.toNat % 4 ≠ 0 then (s, .fault { course := c, lane := l, code := .align, addr := some target })
      else
        match s.push t c l s.issue.next target with
        | (s, .to pc) => (s.markThread s.issue.team c l [v] srcs, .to pc)
        | r => r

/-- R121. -/
def execRet (st : State) : Host.Outcome State Fault Refusal :=
  st.eachThread st.issue.lift fun s t c l => if s.issue.parts.contains (c, l) then s.pop t c l else (s, .to s.issue.next)

/-! ## Rendezvous (R123, R124, R132) -/

/-- Makes the participating threads wait, lets the others pass, and settles the boundary. -/
def State.arrive (s : State) (pre : State → State) (w : Thread → Wait) : Host.Outcome State Fault Refusal :=
  let s := pre s
  let s := s.issue.parts.foldl (fun s m => s.await [m] (w ((s.threadAt s.issue.team m.1 m.2).getD { pc := 0 }))) s
  let s := s.retire s.issue.falseParts s.issue.next
  .next (s.settle s.issue.team)

/-- R123. -/
def execJoin (st : State) : Host.Outcome State Fault Refusal := st.arrive id fun _ => .join

/-- The cycles a conv waits (R124). -/
def convCycles : Nat := 64

/-- R124: the first arrival of a course starts the count. -/
def execConv (st : State) : Host.Outcome State Fault Refusal :=
  st.arrive (fun s => (coursesOf s.issue.parts).foldl (fun s c => s.onCourse s.issue.team c fun x =>
    match FMap.get x.convs s.issue.addr.toNat with
    | some _ => x
    | none => { x with convs := FMap.set x.convs s.issue.addr.toNat convCycles }) s) fun _ => .conv

/-- The threads of a course at a conv leave it. -/
def State.leaveConv (s : State) (r : CourseRef) (pc : W64) : State :=
  match (FMap.get s.teams r.team).bind fun t => FMap.get t.courses r.course with
  | none => s
  | some x =>
    let ls := (x.threads.filter fun p => atConv p.2 && p.2.pc == pc).map Prod.fst
    let s := s.onCourse r.team r.course fun x => { x.leaveAll s.cycle (fun t => atConv t && t.pc == pc) with convs := FMap.erase x.convs pc.toNat }
    { s with issue := { s.issue with retired := s.issue.retired ++ ls.map fun l => (r.team, r.course, l) } }

/-- R132. -/
def execRepack (k : Fin 64) (st : State) : Host.Outcome State Fault Refusal :=
  let tk := st.issue.team
  let value (s : State) (m : Nat × Nat) : W32 × Bool :=
    match (FMap.get s.teams tk).bind fun t => FMap.get t.courses m.1 with
    | some x => (regRow x k.val m.2, regFree x k.val m.2)
    | none => (0, false)
  let s := st.issue.parts.foldl (fun s m =>
    let v := value s m
    let s := s.await [m] (.repack v.1 s.issue.word s.issue.guardWord)
    s.onCourse tk m.1 fun x => (x.dropLatch 2 [m.2]).onThreads [m.2] fun _ t => if v.2 then t.setReadFree else t) st
  let s := s.retire s.issue.falseParts s.issue.next
  .next (s.settle tk)

/-! ## EMIT (R128, R129) -/

/-- Admits one emission, or says what it waits for. -/
def State.emitOne (s : State) (tk c l : Nat) (v : W64) : State × Option Wait :=
  match FMap.get s.teams tk with
  | none => (s, none)
  | some t =>
    match s.recordKeys tk t.records with
    | (s, none) => (s, some .emit)
    | (s, some recs) =>
      let th := (t.course c).thread l
      let first := match t.lowest (nextKeys recs) with | some k => !keyLt k th.key | none => true
      if first then
        match s.releaseActs (s.whoOf tk t c [l]) .dv s.issue.addr with
        | (s, some (.wait w)) => (s, some w)
        | (s, _) =>
          let s := s.commitWindow tk (nextKeys recs)
          -- an earlier entry whose release still waits is committed first (R262)
          let behind := match FMap.get s.teams tk with | some t => t.emits.any fun e => !keyLt th.key (e.root, e.ords) | none => false
          if behind then (s, some .emit) else (s.commitOne tk v, none)
      else if t.emits.length < 256 then
        (s.setTeam tk { t with emits := t.emits ++ [⟨th.root, th.ords, v, t.emitOrder, th.stamps⟩], emitOrder := t.emitOrder + 1 }, none)
      else (s, some .emit)

/-- R128: the participating threads are admitted in key order. -/
def State.emit (s : State) (ty : Ty) (a : Src) : Host.Outcome State Fault Refusal :=
  let key (m : Nat × Nat) : Key := ((s.threadAt s.issue.team m.1 m.2).getD { pc := 0 }).key
  let order := s.issue.falseParts ++ sortBy (fun x y => keyLe (key x) (key y)) s.issue.parts
  match s.eachThread order fun s t c l =>
    let srcs : List Operand := [(ty, a)]
    if !s.issue.parts.contains (c, l) then s.passBy c l srcs
    else
      let v := srcView (rdCtx (s.core t.core) t c) ty a
      if v.stale l then (s, .fault { course := c, lane := l, code := .staleLatch })
      else
        match s.emitOne s.issue.team c l (v.val l) with
        | (s, some w) => (s, .wait w)
        | (s, none) => (s.markThread s.issue.team c l [v] srcs, .to s.issue.next)
  with
  | .next s => .next (s.settle s.issue.team)
  | r => r

/-- R128. -/
def execEmitB32 (a : Src) (st : State) : Host.Outcome State Fault Refusal := st.emit .b32 a
/-- R128. -/
def execEmitB64 (a : Src) (st : State) : Host.Outcome State Fault Refusal := st.emit .b64 a

/-! ## FORK (R37 to R44, R126) -/

/-- A thread of a fork lift with its count. -/
structure ForkIn where
  course : Nat
  lane : Nat
  thread : Thread
  n : Nat

/-- What R37 finds wrong with a count: the detail of FORK_RANGE (R358). -/
def ForkIn.bad (f : ForkIn) : Option Nat :=
  if 65536 < f.n then some 0 else if 2 ≤ f.n && decide (16 ≤ f.thread.ords.length) then some 1 else none

/-- A parent's pending copies as a record: ordinals from 1 (R38). -/
def ForkIn.pending (f : ForkIn) (b : Newborn) : DeferRec :=
  { depth := f.thread.ords.length, root := f.thread.root, ords := f.thread.ords, first := 1, last := f.n, stackn := f.thread.stack.length, base := b }

/-- Slot numbers that stand for a lift's own parents in the sharing of places. -/
def parentSlot (k : Nat) : Nat := 2 ^ 20 + k

/-- The sharing of R38 and R42: places go in ascending key order; parents whose copies are left over take records in key order, and
the first that finds none fails, whereupon the sharing is made again without it. Free are the records not in use before the lift: one
that this sharing uses up is free for the next lift (log 43). Gives the failing parents, the newborns, and what is left of every
record. -/
def shareFork (recs : List (Nat × DeferRec)) (places freeRecs : Nat) :
    List (Nat × ForkIn × Newborn) → Nat → List Nat × List Newborn × List (Nat × DeferRec)
  | _, 0 => ([], [], recs)
  | ps, fuel + 1 =>
    let mine := ps.map fun q => (parentSlot q.1, q.2.1.pending q.2.2)
    let served := serveRecords (recs ++ mine) places (recs.length + mine.length + 1)
    let need := ps.filter fun q => served.2.any fun r => r.1 == parentSlot q.1
    let sorted := sortBy (fun a b => keyLe a.2.1.thread.key b.2.1.thread.key) need
    match sorted.drop freeRecs with
    | [] => ([], served.1, served.2)
    | q :: _ =>
      let r := shareFork recs places freeRecs (ps.filter fun x => x.1 != q.1) fuel
      (q.1 :: r.1, r.2)

/-- A copy's state (R39): what the parent had, outside any handler, at the next unit. Its accesses follow those that the parent has
outstanding (R127). -/
def copyOf (c : Course) (l : Nat) (t : Thread) (pc : W64) (dest now : Nat) : Newborn :=
  { thread := { pc := pc, preds := t.preds, tsw := t.tsw, root := t.root, ords := t.ords, stack := t.stack, sp := t.sp, readySince := now,
                stamps := t.stamps, remote := t.remote }
    regs := (List.range 64).map fun n => if regFree c n l then none else some (rowOf c.names n l)
    dest := some dest, ordinal := 0 }

/-- The lowest free slots of a deferral area; R41 does not say which free record a parent is granted (log 43). -/
def freeSlots (d : Nat) (used : List Nat) (n : Nat) : List Nat := ((List.range d).filter fun k => !used.contains k).take n

/-- Writes the records of parents with copies left over (R41). -/
def State.writeRecords (s : State) (tk dest : Nat) (pc : W64) (ps : List (Nat × ForkIn × Newborn)) (left : List (Nat × DeferRec)) (used : List Nat) : State :=
  match FMap.get s.teams tk, (FMap.get s.teams tk).bind fun t => FMap.get s.slices (sliceKey t.part t.slice) with
  | some t, some x =>
    let rest := ps.filterMap fun q => (left.find? fun r => r.1 == parentSlot q.1).map fun r => (q.2.2, r.2)
    let slots := freeSlots (x.fieldAt 0x54 2) used rest.length
    (slots.zip rest).foldl (fun s p =>
      let s := s.teamWrite tk (x.deferSlot t.index p.1) (recordBytes p.2.1 dest p.2.2.first p.2.2.last pc)
      { s with teams := FMap.modify s.teams tk fun t =>
          { t with records := t.records ++ [p.1], owed := FMap.set t.owed p.1 (p.2.1.thread.stamps, p.2.1.thread.remote) } }) s
  | _, _ => s

/-- R126. The faults of one lift are delivered in the order of their codes: STALE_LATCH, FORK_RANGE, FORK_DEFER_FULL, each in the order of
the lift's members; R37 orders its checks by key, and no rule orders the deliveries (log 43). -/
def execFork (d : Fin 64) (a : Src) (st : State) : Host.Outcome State Fault Refusal :=
  let tk := st.issue.team
  let srcs : List Operand := [(.b32, a)]
  match st.curTeam, st.curTeam.bind fun t => st.sliceOf t with
  | some t, some x =>
    let view (c : Nat) : View := srcView (rdCtx (st.core t.core) t c) .b32 a
    let stale := st.issue.parts.filter fun m => (view m.1).stale m.2
    let ins : List ForkIn := (st.issue.parts.filter fun m => !stale.contains m).map fun m =>
      ⟨m.1, m.2, (t.course m.1).thread m.2, ((view m.1).val m.2).toNat⟩
    let bad : List Req := ins.filterMap fun f => f.bad.map fun det => { course := f.course, lane := f.lane, code := .forkRange, detail := det }
    let good := ins.filter fun f => f.bad.isNone
    match st.recordKeys tk t.records with
    | (s, none) => .next s
    | (s, some recs) =>
      let enders := good.filter fun f => f.n == 0
      let places := t.ceiling - t.liveCount + enders.length
      let rough := ((good.filter fun f => decide (2 ≤ f.n)).zipIdx.map fun p =>
        (p.2, p.1, copyOf (t.course p.1.course) p.1.lane p.1.thread s.issue.next d.val s.cycle))
      let free := x.fieldAt 0x54 2 - t.records.length
      let (failed, _, _) := shareFork recs places free rough 33
      let failing := rough.filter fun q => failed.contains q.1
      let defer : List Req := failing.map fun q => { course := q.2.1.course, lane := q.2.1.lane, code := .forkDeferFull }
      let reqs := staleReqsAt stale ++ bad ++ defer
      let ok := without s.issue.parts reqs
      -- the fork's own reads
      let going := ok ++ s.issue.falseParts
      let s := (coursesOf going).foldl (fun s c => s.onCourse tk c fun y =>
        (y.noteFree [view c] (lanesIn ok c)).markSources srcs (lanesIn going c)) s
      -- copies, from the names as they now stand
      let cur (c : Nat) : Course := ((FMap.get s.teams tk).map fun t => t.course c).getD {}
      let parents := (rough.filter fun q => !failed.contains q.1).map fun q =>
        (q.1, q.2.1, copyOf (cur q.2.1.course) q.2.1.lane ((cur q.2.1.course).thread q.2.1.lane) s.issue.next d.val s.cycle)
      let (_, born, left) := shareFork recs places free parents 33
      let zeroth := parents.map fun q => { q.2.2 with origin := parentSlot q.1, thread := { q.2.2.thread with ords := q.2.2.thread.ords ++ [0] }, ordinal := 0 }
      -- n = 1: 0 to vD
      let ones := good.filter fun f => f.n == 1
      let s := (coursesOf (ones.map fun f => (f.course, f.lane))).foldl (fun s c => s.onCourse tk c fun y =>
        let ls := (ones.filter fun f => f.course == c).map fun f => f.lane
        let full := fullCourse s.issue c y && ls.length == y.live.length
        y.writeReg full ls false d.val ⟨if full && (view c).shape == .u then .u else .g, fun _ => 0⟩) s
      let s := (coursesOf going).foldl (fun s c => s.onCourse tk c fun y => y.reapSources srcs) s
      -- the step
      let s := s.updateRecords tk recs left
      let s := s.writeRecords tk d.val s.issue.next parents left t.records
      let gone := (enders ++ parents.map fun q => q.2.1).map fun f => (f.course, f.lane)
      let s := s.dropThreads tk gone
      let s := s.retire (s.issue.falseParts ++ ones.map fun f => (f.course, f.lane)) s.issue.next
      let s := s.deliver reqs
      .next (if gone.isEmpty then s else s.settleWith tk (zeroth ++ born))
  | _, _ => .next st
where
  /-- STALE_LATCH for members. -/
  staleReqsAt (ms : List (Nat × Nat)) : List Req := ms.map fun m => { course := m.1, lane := m.2, code := .staleLatch }

/-! ## Work (R130 to R136) -/

/-- Enqueues a task (R46): in a bin, else in the overflow area, else not. Each is numbered as it arrives (R328). -/
def State.enqueue (s : State) (tk : Nat) (task : Task) : State × Bool :=
  match FMap.get s.teams tk, (FMap.get s.teams tk).bind fun t => FMap.get s.slices (sliceKey t.part t.slice) with
  | some t0, some x =>
    let task := { task with order := t0.taskOrder + 1 }
    let t := { t0 with taskOrder := t0.taskOrder + 1 }
    match t.binFor task.entry with
    | some k => (s.setTeam tk (t.putTask k task x.stimer), true)
    | none =>
      if 1023 ≤ t.overflow.length || 0xFFFFFFFF < 1024 + 32 * t.spawns + 31 then (s, false)
      else
        let slot := (freeSlots 1023 (t.overflow.map Prod.fst) 1).headD 0
        let s := s.setTeam tk { t with overflow := t.overflow ++ [(slot, t.taskOrder)] }
        (s.teamWrite tk (x.overflowSlot t.index slot) task.bytes, true)
  | _, _ => (s, false)

/-- R130. -/
def execSpawn (p : Fin 12) (a : Src) (b : Fin 64) (last : Bool) (st : State) : Host.Outcome State Fault Refusal :=
  let args : List Operand := (List.range 8).map fun k => (.b32, .reg (Fin.ofNat 64 (b.val + k)) last)
  match st.uniSync ((.addr, a) :: args) false false fun s _ c i vals =>
    let entry := vals.headD 0
    if entry.toNat % 4 ≠ 0 then (s, { reqs := i.parts.map fun l => { course := c, lane := l, code := .align, addr := some entry } })
    else
      let (s, ok) := s.enqueue s.issue.team { entry := entry, args := (vals.drop 1).map lo32 }
      (s, { write := fun x => x.onThreads i.parts fun _ t => t.setPred p.val ok })
  with
  | .next s => .next (s.settle s.issue.team)
  | r => r

/-- R131. -/
def execChunk (d : Fin 64) (st : State) : Host.Outcome State Fault Refusal :=
  st.uniSync [] false false fun s t _ i _ =>
    match s.sliceOf t with
    | none => (s, {})
    | some x =>
      let (x, start, n) := x.grant
      let s := s.setSlice (sliceKey t.part t.slice) x
      (s, { write := fun y => y.writeUniform i true (.reg d) (packed 32 start n) })

/-- R133 for one course: the release, the record, the new slice's number. A slice that SLICE creates is at user level (R346). -/
def State.submitFrom (s : State) (t : Team) (c : Nat) (i : CourseIn) (d : Fin 64) (a : W64) : State × SyncOut :=
  -- XLATE and PROT alone give the record's address (R358)
  let faults (code : FCode) (sys : Bool) : SyncOut :=
    { reqs := i.parts.map fun l =>
        { course := c, lane := l, code := code, addr := if code == .xlate || code == .prot then some a else none, system := sys } }
  if a.toNat % 64 ≠ 0 then (s, faults .align false)
  else
    let w := s.whoOf s.issue.team t c i.parts
    match s.releaseActs w .dv s.issue.addr with
    | (s, some (.wait wt)) => (s, { waits := i.parts.map fun l => (c, l, wt) })
    | (s, _) =>
      match s.planeWait t.part w.user .read a.toNat 128 3, s.tableRead t.part w.user a.toNat 128 3 with
      | some dev, _ => (s, { waits := i.parts.map fun l => (c, l, .link dev) })
      | none, .error (code, _) => (s, faults code true)
      | none, .ok b =>
        let (s, num) := s.createSlice t.part false a b id
        (s, { write := fun y => y.writeUniform i false (.reg d) (nat64 (num.getD 0xFFFFFFFF)) })

/-- R133. -/
def execSlice (d : Fin 64) (a : Src) (st : State) : Host.Outcome State Fault Refusal :=
  st.uniSync [(.addr, a)] false false fun s t c i vals => s.submitFrom t c i d (vals.headD 0)

/-- R134. -/
def execDepdec (d : Fin 64) (a : Src) (st : State) : Host.Outcome State Fault Refusal :=
  st.uniSync [(.b32, a)] false false fun s t c i vals =>
    let w := s.whoOf s.issue.team t c i.parts
    match s.releaseActs w .dv s.issue.addr with
    | (s, some (.wait wt)) => (s, { waits := i.parts.map fun l => (c, l, wt) })
    | (s, _) =>
      let (s, old) := s.decrement t.part ((vals.headD 0).toNat % 2 ^ 32)
      let s := s.acquireActs w .dv
      (s, { write := fun y => y.writeUniform i false (.reg d) (nat64 (old.getD 0xFFFFFFFF)) })

/-- R135: the thread waits, and goes on at the next unit when the scheduler runs the slice again. -/
def execYield (a : Src) (st : State) : Host.Outcome State Fault Refusal :=
  match st.uniSync [(.addr, a)] false true fun s _ c i vals => (s, { waits := i.parts.map fun l => (c, l, .yield (vals.headD 0)) })
  with
  | .next s => .next (s.settle s.issue.team)
  | r => r

/-- R136: a restored sleeper sleeps out what it had left (R142). -/
def execSleep (a : Src) (st : State) : Host.Outcome State Fault Refusal :=
  st.uniSync [(.b32, a)] false true fun s _ c i vals =>
    let n (l : Nat) : Nat := match (s.threadAt s.issue.team c l).bind fun t => t.progress with
      | some k => k
      | none => (vals.headD 0).toNat % 2 ^ 32
    (s, { waits := (i.parts.filter fun l => n l != 0).map fun l => (c, l, .sleep (n l)) })

/-- A sleeper's count has run out. -/
def State.endSleep (s : State) (r : ThreadRef) : State :=
  match s.threadAt r.team r.course r.lane with
  | none => s
  | some t =>
    match t.wait with
    | .sleep _ =>
      let s := s.onThread r.team r.course r.lane fun t => t.goto (t.pc + BitVec.ofNat 64 t.waitLen) s.cycle
      { s with issue := { s.issue with retired := s.issue.retired ++ [(r.team, r.course, r.lane)] } }
    | _ => s

/-! ## Special registers (R137 to R139) -/

/-- The index of a special register (R137). -/
def SRegIndex : SReg → Nat
  | .tsw => 0 | .key0 => 1 | .key1 => 2 | .key2 => 3 | .key3 => 4 | .key4 => 5 | .slice => 8 | .budget => 9 | .deadline => 10
  | .clkw => 11 | .trapbase => 12 | .fault => 13 | .faultaddr => 14 | .faultmask => 15 | .tpc => 16

/-- A piece of a fork key (R35). -/
def Thread.keyPiece (t : Thread) (k : Nat) : W64 := nat64 (bytesAt (keyBytes t.root t.ords) (8 * k) 8)

/-- The value of a special register for a thread. -/
def State.sregValue (s : State) (t : Team) (th : Thread) (r : SReg) : W64 :=
  let d := s.die (dieOfCore t.core)
  match r with
  | .tsw => zx64 (th.tsw &&& tswFields)
  | .key0 => th.keyPiece 0
  | .key1 => th.keyPiece 1
  | .key2 => th.keyPiece 2
  | .key3 => th.keyPiece 3
  | .key4 => th.keyPiece 4
  | .slice => nat64 t.slice
  | .budget => match s.sliceOf t with
    | some x => if x.budget = 0 then 0xFFFFFFFFFFFFFFFF else nat64 (x.budget - x.consumed)
    | none => 0
  | .deadline => match s.sliceOf t with | some x => x.deadline | none => 0
  | .clkw => nat64 (d.dmceil * 2 ^ 16 + d.pkceil)
  | .trapbase => t.trapbase
  | .fault => zx64 th.fault
  | .faultaddr => th.faultaddr
  | .faultmask => zx64 th.faultmask
  | .tpc => th.tpc

/-- Whether the issuing team runs at privileged level (R346). -/
def State.isPriv (s : State) (t : Team) : Bool := match s.sliceOf t with | some x => x.privileged | none => false

/-- R137. -/
def execSget (d : Fin 64) (r : SReg) (st : State) : Host.Outcome State Fault Refusal :=
  st.uniSync [] false false fun s t c i _ =>
    if r == .clkw && !s.isPriv t then
      (s, { reqs := i.parts.map fun l => { course := c, lane := l, code := .priv, detail := SRegIndex r } })
    else
      let v := s.sregValue t ((t.course c).thread i.lead) r
      (s, { write := fun y => y.writeUniform i r.w64 (.reg d) v })

/-- A write of sr.tsw (R138): READ_FREE is cleared by a 1; STEP, HALT and STOPMODE change for a privileged writer only. -/
def writeTsw (old v : W32) (priv : Bool) : W32 :=
  let old := if v.getLsbD 27 then old &&& ~~~readFreeBit else old
  if priv then (old &&& 0x0FFFFFFF) ||| (v &&& 0xF0000000) else old

/-- The effect of an sset that is not ignored: on the state, and on the threads that write (after their reads, R57, R59). A write that
halts a thread stops those its STOPMODE names (R376). -/
def State.writeSreg (s : State) (t : Team) (c : Nat) (ls : List Nat) (r : SReg) (v : W64) (priv : Bool) : State × (Thread → Thread) :=
  let tk := s.issue.team
  match r with
  | .tsw =>
    let put (th : Thread) : Thread := { th with tsw := writeTsw th.tsw (lo32 v) priv }
    let newly := ls.filter fun l => let th := (t.course c).thread l; !th.halted && (put th).halted
    (newly.foldl (fun s l =>
      let m := (put ((t.course c).thread l)).stopMode
      s.stopThreads (s.stopSet tk c l m) (m == 0 || m == 3) tk 0) s, put)
  | .clkw =>
    let d := dieOfCore t.core
    (s.setDie d { s.die d with pkceil := max 4 (fld v.toNat 0 16), dmceil := max 100 (fld v.toNat 16 16) }, id)
  | .trapbase => ({ s with teams := FMap.modify s.teams tk fun t => { t with trapbase := v &&& ~~~3#64 } }, id)
  | .tpc => (s, fun th => { th with tpc := v })
  | .key0 | .key1 | .key2 | .key3 | .key4 | .slice | .budget | .deadline | .fault | .faultaddr | .faultmask => (s, id)

/-- R137. -/
def execSset (r : SReg) (b : Src) (st : State) : Host.Outcome State Fault Refusal :=
  st.uniSync [(if r.w64 then .b64 else .b32, b)] false false fun s t c i vals =>
    let priv := s.isPriv t
    if r == .clkw && !priv then
      (s, { reqs := i.parts.map fun l => { course := c, lane := l, code := .priv, detail := SRegIndex r } })
    else
      let (s, upd) := s.writeSreg t c i.parts r (vals.headD 0) priv
      (s, { write := fun y => y.onThreads i.parts fun _ th => upd th })

/-- R139. -/
def execCapq (d : Fin 64) (a : Src) (st : State) : Host.Outcome State Fault Refusal :=
  st.uniSync [(.b32, a)] false false fun s t _ i vals =>
    let v := s.capEntry t.part ((vals.headD 0).toNat % 2 ^ 32)
    (s, { write := fun y => y.writeUniform i true (.reg d) v })

/-! ## Traps (R140, R141) -/

/-- R140: the unit is performed, and each participating thread takes the fault at the next one. -/
def State.raise (s : State) (code : FCode) (imm : Nat) : Host.Outcome State Fault Refusal :=
  s.uniSync [] false false fun s _ c i _ =>
    (s.onCourse s.issue.team c fun x => x.dropLatch 2 i.parts,
      { reqs := i.parts.map fun l => { course := c, lane := l, code := code, imm := imm, done := true } })

/-- R140. -/
def execTrap (k : BitVec 8) (st : State) : Host.Outcome State Fault Refusal := st.raise .trap k.toNat
/-- R140. -/
def execBkpt (k : BitVec 8) (st : State) : Host.Outcome State Fault Refusal := st.raise .brk k.toNat

/-- R141: a thread inside its handler returns; any other raises PRIV. -/
def execRett (st : State) : Host.Outcome State Fault Refusal :=
  let tk := st.issue.team
  let inside (s : State) (m : Nat × Nat) : Bool := match s.threadAt tk m.1 m.2 with | some t => t.inHandler | none => false
  let (go, stay) := st.issue.parts.partition (inside st)
  let reqs : List Req := stay.map fun m => { course := m.1, lane := m.2, code := .priv, detail := 0x3F }
  let s := go.foldl (fun s m => s.onCourse tk m.1 fun x => x.dropLatch 2 [m.2]) st
  let s := s.retire s.issue.falseParts s.issue.next
  let s := go.foldl (fun s m =>
    let s := s.returnFromTrap tk m.1 m.2
    if inside s m then s else { s with issue := { s.issue with retired := s.issue.retired ++ [(tk, m.1, m.2)] } }) s
  .next (s.deliver reqs)

/-- R92: the threads of the lift whose guard is true participate. -/
def execGuardPrefix (p : PredSel) (neg : Bool) (st : State) : Host.Outcome State Fault Refusal :=
  match st.curTeam with
  | none => .next st
  | some t =>
    .next { st with issue := { st.issue with parts := st.issue.lift.filter fun m => ((t.course m.1).thread m.2).predSel p != neg } }

end Sys2Proof.Machine
end

