-- ==== Sys2Proof/Machine/Matrix.lean ====
section
/-!
DEFINITION. The matrix instructions and their engine (R34, R211 to R228, R331): passes through the reservation table, tiles and the
pool, zero, fill and drains.
-/

namespace Sys2Proof.Machine

/-! ## A matrix instruction (R34, R216, R217) -/

/-- How a matrix instruction ends for its course. -/
inductive MatEnd where
  /-- It has its effect; `write` is what it writes to its course's registers, after its last reads are marked (R57). -/
  | done (write : Course → Course := id)
  | wait (w : Wait)
  | fault (code : FCode) (detail : Nat)

/-- Marks last reads of names for every live thread of a course, and frees what no thread will read again (R57, R58). -/
def Course.markNames (c : Course) (names : List Nat) : Course :=
  names.foldl (fun c n => c.reap n) (names.foldl (fun c n => c.markDead n c.liveMask) c)

/-- READ_FREE in the live threads for which one of some names is unallocated or dead (R216). -/
def Course.noteNames (c : Course) (names : List Nat) : Course :=
  c.onThreads (c.live.filter fun l => names.any fun n => regFree c n l) fun _ t => t.setReadFree

/-- Names as the engine reads them, in every lane; a lane without a live thread is zero (R216). -/
def Course.laneRows (c : Course) (names : List Nat) : List (List W32) :=
  lanes32.map fun l => names.map fun n => if c.live.contains l then regRow c n l else 0

/-- The names `base` to `base + n - 1`. -/
def nameRun (base n : Nat) : List Nat := (List.range n).map fun k => base + k

/-- A matrix instruction: formed from one course, for its whole course or not at all. `lasts` are the names it reads last, `srcs` its
operands, `f` what it does when every live thread participates. -/
def State.matrix (s : State) (lasts : List Nat) (srcs : List Operand) (f : State → Team → Nat → State × MatEnd) :
    Host.Outcome State Fault Refusal :=
  match s.curTeam with
  | none => .next s
  | some t =>
    let c := (s.issue.lift.headD (0, 0)).1
    let x := t.course c
    let leave (s : State) (write : Course → Course) : State :=
      (s.onCourse s.issue.team c fun y => ((write (y.markSources srcs y.live)).reapSources srcs).markNames lasts).retire
        s.issue.lift s.issue.next
    if !s.issue.whole c x then .next (s.deliver (s.issue.allRaise .partialMatrix 0))
    else if s.issue.parts.isEmpty then .next (leave s id)
    else if !allParticipate s.issue c x then .next (s.deliver (s.issue.allRaise .partialMatrix 0))
    else
      let vs := srcs.map fun o => srcView (rdCtx (s.core t.core) t c) o.1 o.2
      let stale := staleLanes vs x.live
      if !stale.isEmpty then .next (s.deliver (staleReqs c stale))
      else
        match f s t c with
        | (s, .done write) => .next (leave (s.onCourse s.issue.team c fun y => y.noteFree vs y.live) write)
        | (s, .wait w) => .next (s.await s.issue.lift w)
        | (s, .fault code d) => .next (s.deliver (s.issue.allRaise code d))

/-- The value of an operand for the course's lowest-numbered live thread (R212, R223). -/
def State.lowValue (s : State) (t : Team) (c : Nat) (a : Src) : W32 :=
  lo32 ((srcView (rdCtx (s.core t.core) t c) .b32 a).val ((t.course c).live.headD 0))

/-- The tile a piece of work acts on. -/
def EngineOp.tileOf : EngineOp → Nat
  | .pass _ k _ _ _ | .zero k | .fill _ k _ _ => k

/-- Whether work that the engine has not applied stands against a tile of a course, or against any of them (R225). -/
def State.tileBusy (s : State) (engine : Nat) (r : CourseRef) (tile : Option Nat) : Bool :=
  (s.cluster engine).work.any fun w => w.1 == r && match tile with | some k => w.2.tileOf == k | none => true

/-- The engine accepts work for a course; it is applied later, in order (R225, R226). -/
def State.addWork (s : State) (engine : Nat) (r : CourseRef) (op : EngineOp) : State :=
  let k := s.cluster engine
  (s.setCluster engine { k with work := k.work ++ [(r, op)] }).due (.passApplied engine)

/-- A matrix instruction on one tile the course must hold, once earlier work on it is applied. -/
def State.tileOp (s : State) (lasts : List Nat) (srcs : List Operand) (tile : Nat)
    (f : State → Team → Nat → Tile → State × MatEnd) : Host.Outcome State Fault Refusal :=
  s.matrix lasts srcs fun s t c =>
    match (t.course c).tiles[tile]? with
    | none => (s, .fault .tileUnalloc tile)
    | some x =>
      if s.tileBusy (clusterOfCore t.core) ⟨s.issue.team, c⟩ (some tile) then (s, .wait .tileBusy) else f s t c x

/-! ## Passes (R218, R221, R331) -/

/-- mma and mma.sp up to their request: the course waits for acceptance, except that mma.sp with nothing present or flagged ends at
issue (R225). In reduced service a format other than .bf16 is ILLEGAL_ENC with detail 2 (R388), raised after the checks of decoding, once the
course has met (log 51, DESIGN CHOICE). -/
def State.mma (s : State) (tile : Fin 16) (f : MFmt) (a b : Fin 64) (la lb sparse : Bool) : Host.Outcome State Fault Refusal :=
  let lasts := (if la then nameRun a.val f.names else []) ++ (if lb then nameRun b.val f.names else [])
  if s.boot == .reduced && f != .bf16 then .next (s.deliver (s.issue.allRaise .illegalEnc 2))
  else
    s.matrix lasts [] fun s t c =>
      let x := t.course c
      let qName := b.val + f.names
      let q := regRow x qName (x.live.headD 0)
      if x.tiles.length ≤ tile.val then (s, .fault .tileUnalloc tile.val)
      else if sparse && q.toNat % 256 = 0 then (s.onCourse s.issue.team c fun y => y.noteNames [qName], .done id)
      else
        let e := clusterOfCore t.core
        let k := s.cluster e
        let r : Request :=
          { who := ⟨s.issue.team, c⟩, f := f, tile := tile.val, aBase := a.val, bBase := b.val, aLast := la, bLast := lb, sparse := sparse,
            unitAddr := s.issue.addr, unitLen := s.issue.len }
        ((s.setCluster e { k with requests := k.requests ++ [r] }).due (.passAcceptance e), .wait .pass)

/-- R218. -/
def execMma (t : Fin 16) (f : MFmt) (a b : Fin 64) (la lb : Bool) (st : State) : Host.Outcome State Fault Refusal :=
  st.mma t f a b la lb false
/-- R221. -/
def execMmaSp (t : Fin 16) (f : MFmt) (a b : Fin 64) (la lb : Bool) (st : State) : Host.Outcome State Fault Refusal :=
  st.mma t f a b la lb true

/-- Whether a thread waits for the acceptance of its pass. -/
def atPass (t : Thread) : Bool := match t.wait with | .pass => true | _ => false

/-- Whether a request can be accepted: its course still waits at the instruction, and its team issues. -/
def State.acceptable (s : State) (q : Request) : Bool :=
  match FMap.get s.teams q.who.team with
  | none => false
  | some t =>
    !t.stopped && !t.frozen && t.held.isEmpty &&
      match FMap.get t.courses q.who.course with
      | none => false
      | some c => !c.threads.isEmpty && c.threads.all fun p => atPass p.2 && p.2.pc == q.unitAddr && !p.2.halted

/-- CLASS of a request's slice. -/
def State.requestClass (s : State) (q : Request) : Nat :=
  match (FMap.get s.teams q.who.team).bind fun t => s.sliceOf t with
  | some x => x.cls
  | none => 16

/-- The entry of the reservation table the engine takes (R331). -/
def State.pickRequest (s : State) (engine : Nat) : Option (Nat × Request) :=
  let table := ((s.cluster engine).requests.take 16).zipIdx.filter fun p => s.acceptable p.1
  match table.find? fun p => decide (64 ≤ p.1.passed) with
  | some p => some (p.2, p.1)
  | none =>
    (table.foldl (fun (acc : Option (Nat × Request)) p =>
      match acc with
      | none => some (p.2, p.1)
      | some m => if s.requestClass p.1 < s.requestClass m.2 then some (p.2, p.1) else some m) none)

/-- Whether some bit of an element name belongs to a segment that is present (R221). -/
def nameUsed (f : MFmt) (q : Option W32) (m : Nat) : Bool :=
  let seg := f.elemNames * 32 / 4
  (List.range 4).any fun g => segUse q g == .whole && decide (32 * m < (g + 1) * seg) && decide (g * seg < 32 * m + 32)

/-- Whether a pass reads name `m` of its A range: a scale always, an element where its segment is present. -/
def usedA (f : MFmt) (q : Option W32) (m : Nat) : Bool := decide (f.elemNames ≤ m) || nameUsed f q m

/-- The engine accepts a pass: its names are read, their last reads marked, and the course moves on (R225, R226). -/
def State.acceptPass (s : State) (engine : Nat) (q : Request) : State :=
  match (FMap.get s.teams q.who.team).bind fun t => FMap.get t.courses q.who.course with
  | none => s
  | some x =>
    let aNames := nameRun q.aBase q.f.names
    let bNames := nameRun q.bBase q.f.names
    let qName := q.bBase + q.f.names
    let qv := if q.sparse then some (regRow x qName (x.live.headD 0)) else none
    let used := ((List.range q.f.names).filter (usedA q.f qv)).map fun m => q.aBase + m
    let op : EngineOp := .pass q.f q.tile (x.laneRows aNames) (x.laneRows bNames) qv
    let lasts := (if q.aLast then aNames else []) ++ (if q.bLast then bNames else [])
    let next := q.unitAddr + BitVec.ofNat 64 q.unitLen
    let s := s.onCourse q.who.team q.who.course fun y =>
      ((y.noteNames (used ++ bNames ++ if q.sparse then [qName] else [])).onThreads y.live fun _ t => t.goto next s.cycle).markNames lasts
    let s := s.addWork engine q.who op
    { s with issue := { s.issue with retired := s.issue.retired ++ x.live.map fun l => (q.who.team, q.who.course, l) } }

/-- R331: the engine takes one request; every other one in the table has been passed over once more. -/
def execPassAcceptance (engine : Nat) (st : State) : Host.Outcome State Fault Refusal :=
  match st.pickRequest engine with
  | none => .next st
  | some (i, q) =>
    let k := st.cluster engine
    let rest := (k.requests.zipIdx.filter fun p => p.2 != i).map fun p =>
      if p.2 < 16 then { p.1 with passed := p.1.passed + 1 } else p.1
    .next ((st.setCluster engine { k with requests := rest }).acceptPass engine q)

/-- R225: the oldest accepted work is applied. -/
def execPassApplied (engine : Nat) (st : State) : Host.Outcome State Fault Refusal :=
  let k := st.cluster engine
  match k.work with
  | [] => .next st
  | (r, op) :: rest =>
    .next ((st.setCluster engine { k with work := rest }).onCourse r.team r.course fun c => c.applyWork op)

/-! ## Tiles of a course (R212) -/

/-- R212. -/
def execTileAlloc (a : Src) (st : State) : Host.Outcome State Fault Refusal :=
  st.matrix [] [(.b32, a)] fun s t c =>
    let tk := s.issue.team
    let x := t.course c
    let n := (s.lowValue t c a).toNat
    let limit := match s.sliceOf t with | some y => min 16 y.tilesMax | none => 0
    if x.tileWait ≠ 0 && !x.tiles.isEmpty then (s.onCourse tk c fun y => { y with tileWait := 0 }, .done id)
    else if n = 0 then (s, .done id)
    else if limit < n || !x.tiles.isEmpty then (s, .fault .tileUnalloc (2 ^ 4))
    else
      let e := clusterOfCore t.core
      let k := s.cluster e
      if k.pool.isEmpty && decide (n ≤ k.freeTiles) then
        ((s.setCluster e { k with freeTiles := k.freeTiles - n }).onCourse tk c fun y =>
          { y with tiles := List.replicate n zeroTile, tileWait := 0 }, .done id)
      else
        ((s.setCluster e { k with pool := if k.pool.contains ⟨tk, c⟩ then k.pool else k.pool ++ [⟨tk, c⟩] }).onCourse tk c fun y =>
          { y with tileWait := n }, .wait .tilePool)

/-- Whether a thread waits for tiles. -/
def atTilePool (t : Thread) : Bool := match t.wait with | .tilePool => true | _ => false

/-- R212, R227: the pool serves its first course when it has tiles enough for it. -/
def execTilePoolGrant (engine : Nat) (st : State) : Host.Outcome State Fault Refusal :=
  let k := st.cluster engine
  match k.pool with
  | [] => .next st
  | r :: rest =>
    match (FMap.get st.teams r.team).bind fun t => FMap.get t.courses r.course with
    | none => .next ((st.setCluster engine { k with pool := rest }).due (.tilePoolGrant engine))
    | some x =>
      let n := if x.awaitTiles then x.tiles.length else x.tileWait
      if k.freeTiles < n then .next st
      else
        let s := st.setCluster engine { k with pool := rest, freeTiles := k.freeTiles - n }
        let s := s.onCourse r.team r.course fun y =>
          -- the threads are ready from now on (R329)
          if y.awaitTiles then { y with awaitTiles := false, threads := y.threads.map fun p => (p.1, { p.2 with readySince := st.cycle }) }
          else { y with tiles := List.replicate n zeroTile,
                        threads := y.threads.map fun p =>
                          if atTilePool p.2 then (p.1, { p.2 with wait := .none, readySince := st.cycle }) else p }
        .next (if rest.isEmpty then s else s.due (.tilePoolGrant engine))

/-- R212. -/
def execTileFree (st : State) : Host.Outcome State Fault Refusal :=
  st.matrix [] [] fun s t c =>
    let e := clusterOfCore t.core
    if s.tileBusy e ⟨s.issue.team, c⟩ none then (s, .wait .tileBusy)
    else
      let n := (t.course c).tiles.length
      ((s.onCourse s.issue.team c fun y => { y with tiles := [], bad := y.heal ((List.range 16).map .tile) }).freeTiles e n, .done id)

/-! ## Zero, fill and drains (R222 to R224) -/

/-- R223. -/
def execTileZero (t : Fin 16) (st : State) : Host.Outcome State Fault Refusal :=
  st.tileOp [] [] t.val fun s tm c _ => (s.addWork (clusterOfCore tm.core) ⟨s.issue.team, c⟩ (.zero t.val), .done id)

/-- R223. -/
def execTileFill (k : FillKind) (t : Fin 16) (base : Fin 64) (last : Bool) (col : Src) (st : State) : Host.Outcome State Fault Refusal :=
  let names := nameRun base.val 16
  st.tileOp (if last then names else []) [(.b32, col)] t.val fun s tm c _ =>
    let x := tm.course c
    let col0 := fillColumn k (s.lowValue tm c col).toNat
    let s := s.addWork (clusterOfCore tm.core) ⟨s.issue.team, c⟩ (.fill k t.val col0 (x.laneRows names))
    (s.onCourse s.issue.team c fun y => y.noteNames names, .done id)

/-- Writes names of a course whole, as G (R223, R224): `val n l` is name `n` of lane `l`. -/
def Course.writeRows (c : Course) (base n : Nat) (val : Nat → Nat → W32) : Course :=
  (List.range n).foldl (fun c m => c.writeReg true c.live false (base + m) ⟨.g, fun l => zx64 (val m l)⟩) c

/-- A drain (R222, R223): the check of the whole tile, then the names of its range. -/
def State.drain (s : State) (t : Fin 16) (srcs : List Operand) (write : State → Team → Nat → Tile → Course → Course) :
    Host.Outcome State Fault Refusal :=
  s.tileOp [] srcs t.val fun s tm c x =>
    match x.check with
    | some d => (s, .fault .accCheck (t.val + d))
    | none => (s, .done (write s tm c x))

/-- The names a drain writes (R223). -/
def State.drainCols (s : State) (k : FillKind) (t : Fin 16) (base : Fin 64) (col : Src) : Host.Outcome State Fault Refusal :=
  s.drain t [(.b32, col)] fun s tm c x y =>
    let col0 := fillColumn k (s.lowValue tm c col).toNat
    y.writeRows base.val 16 fun m l => nth (x.drainRow k col0 l) m 0

/-- R223. -/
def execTileDrainF64 (t : Fin 16) (base : Fin 64) (col : Src) (st : State) : Host.Outcome State Fault Refusal := st.drainCols .f64 t base col
/-- R223. -/
def execTileDrainF32 (t : Fin 16) (base : Fin 64) (col : Src) (st : State) : Host.Outcome State Fault Refusal := st.drainCols .f32 t base col
/-- R223. -/
def execTileDrainBf16 (t : Fin 16) (base : Fin 64) (col : Src) (st : State) : Host.Outcome State Fault Refusal := st.drainCols .bf16 t base col

/-- The names a requantising drain writes (R224). -/
def State.qdrain (s : State) (k : QKind) (t : Fin 16) (base scale : Fin 64) : Host.Outcome State Fault Refusal :=
  s.drain t [] fun _ _ _ x y =>
    (y.writeRows base.val k.elemNames fun m l => nth (x.quantRow k l).1 m 0).writeRows scale.val 1 fun _ l => (x.quantRow k l).2

/-- R224. -/
def execTileQdrainMxf8 (t : Fin 16) (base scale : Fin 64) (st : State) : Host.Outcome State Fault Refusal := st.qdrain .mxf8 t base scale
/-- R224. -/
def execTileQdrainMxf6 (t : Fin 16) (base scale : Fin 64) (st : State) : Host.Outcome State Fault Refusal := st.qdrain .mxf6 t base scale
/-- R224. -/
def execTileQdrainMxf4 (t : Fin 16) (base scale : Fin 64) (st : State) : Host.Outcome State Fault Refusal := st.qdrain .mxf4 t base scale
/-- R224. -/
def execTileQdrainMxi8 (t : Fin 16) (base scale : Fin 64) (st : State) : Host.Outcome State Fault Refusal := st.qdrain .mxi8 t base scale

end Sys2Proof.Machine
end

