-- ==== Sys2Proof/Machine/Engine.lean ====
section
/-!
DEFINITION. The asynchronous engines (14, R266 to R271): contexts and command numbers, copies, slot rings, timeline counters,
collectives, holds, and what their events do.
-/

namespace Sys2Proof.Machine

/-! ## Writes of the engines (R301, R302, R308) -/

/-- Writes bytes for an engine, page by page (R301, R302, R308): a stamped page is STAMP_MIX. Gives the fault and how many bytes
were written before it. -/
def State.engineWrite (s : State) (part : Nat) (va : Nat) (b : List Byte) : Nat → State × Nat × Option (FCode × W64)
  | 0 => (s, 0, none)
  | fuel + 1 =>
    if b.isEmpty then (s, 0, none)
    else
      let a := BitVec.ofNat 64 va
      let k := chunkLen va b.length
      match (s.translate none part true .write a).2 with
      | .error e => (s, 0, some (e, a))
      | .ok x =>
        if x.stamped then (s, 0, some (.stampMix, a))
        else
          match s.userWrite part va (b.take k) 1 with
          | (s, some (e, a, _)) => (s, 0, some (e, a))
          | (s, none) =>
            let (s, n, r) := s.engineWrite part (va + k) (b.drop k) fuel
            (s, n + k, r)

/-! ## Rings (R304 to R306) -/

/-- Whether every participating course of a ring instruction must wait for claimed fills. -/
def ringIdleWait (i : CourseIn) (c k : Nat) : SyncOut := { waits := i.parts.map fun l => (c, l, .ringIdle k) }

/-- R305. Threads that wait to take from the ring keep their places (R306). -/
def execRingInit (a b : Src) (st : State) : Host.Outcome State Fault Refusal :=
  st.uniSync [(.b32, a), (.b32, b)] false false fun s t c i vals =>
    let tk := s.issue.team
    let wa := lo32 (vals.headD 0)
    let wb := lo32 (vals.getD 1 0)
    let k := fld wa.toNat 28 3
    let new : Ring := { wordA := wa, wordB := wb }
    let o := new.offset
    let z := new.slotBytes
    let n := wb.toNat % 256
    if (t.ring k).filling then (s, ringIdleWait i c k)
    else if o % 128 ≠ 0 || n = 0 || z % 16 ≠ 0 || z = 0 || s.levelRange t new.level < o + n * z + 8 * n then
      (s, { reqs := i.parts.map fun l => { course := c, lane := l, code := .prot } })
    else
      let s := { s with teams := FMap.modify s.teams tk fun t => { t with rings := setNth t.rings k { new with slots := List.replicate n {}, queue := (t.ring k).queue } } }
      (s.levelWrite t tk new.level (o + n * z) (List.replicate (8 * n) 0), {})

/-- The waits at a ring's ring.take that still stand, in order of arrival: those with a thread that is there and not parked or halted. -/
def Team.takers (t : Team) (k : Nat) : List (Nat × List Nat × W64) :=
  (t.ring k).queue.filter fun e =>
    (t.course e.1).threads.any fun p => e.2.1.contains p.1 && p.2.pc == e.2.2 && p.2.parked.isNone && !p.2.halted

/-- Whether a wait is a course's at a unit. -/
def isTaker (c : Nat) (lanes : List Nat) (pc : W64) (e : Nat × List Nat × W64) : Bool :=
  e.1 == c && e.2.2 == pc && e.2.1.any lanes.contains

/-- R306: arrivals are served in their order. -/
def execRingTake (d : Fin 64) (a : Src) (st : State) : Host.Outcome State Fault Refusal :=
  st.uniSync [(.b32, a)] false false fun s t c i vals =>
    let tk := s.issue.team
    let k := (vals.headD 0).toNat % 8
    let r := t.ring k
    let write (off n : Nat) : SyncOut := { write := fun y => y.writeUniform i true (.reg d) (packed 32 off n) }
    if !r.ready then (s, write 0xFFFFFFFF 0)
    else
      let x := nth r.slots r.take {}
      let q := t.takers k
      let mine := isTaker c i.parts s.issue.addr
      let first := match q with | [] => true | e :: _ => mine e
      if x.state ≠ 2 || !first then
        let q := if q.any mine then q else q ++ [(c, i.parts, s.issue.addr)]
        ({ s with teams := FMap.modify s.teams tk fun t => { t with rings := setNth t.rings k { r with queue := q } } },
          { waits := i.parts.map fun l => (c, l, .ringTake k) })
      else
        let s := s.setSlot tk k r.take { x with state := 3 } fun r =>
          { r with take := (r.take + 1) % r.slots.length, queue := q.filter fun e => !mine e }
        let s := s.acquireActs (s.whoOf tk t c i.parts) .cl
        (s, write (r.offset + r.take * r.slotBytes) x.target)

/-- R306. -/
def execRingGive (a : Src) (st : State) : Host.Outcome State Fault Refusal :=
  st.uniSync [(.b32, a)] false false fun s t c i vals =>
    let tk := s.issue.team
    let k := (vals.headD 0).toNat % 8
    let r := t.ring k
    if !r.ready || (nth r.slots r.give {}).state ≠ 3 then (s, {})
    else
      let (s, _) := s.releaseActs (s.whoOf tk t c i.parts) .cl s.issue.addr
      (s.setSlot tk k r.give {} fun r => { r with give := (r.give + 1) % r.slots.length }, {})

/-- R306. -/
def execRingWait (d : Fin 64) (a : Src) (st : State) : Host.Outcome State Fault Refusal :=
  st.uniSync [(.b32, a)] false false fun s t c i vals =>
    let k := (vals.headD 0).toNat % 8
    let r := t.ring k
    if r.filling then (s, ringIdleWait i c k)
    else
      (s, { write := fun y => y.writeUniform i false (.reg d) (nat64 (r.slots.filter fun x => x.state == 2).length) })

/-! ## bcopy (R301 to R303) -/

/-- The names of a block as operands. -/
def blockSrcs (a n : Nat) (last : Bool) : List Operand := (List.range n).map fun k => (.b32, .reg (Fin.ofNat 64 (a + k)) last)

/-- The wait of a course that finds a full context queue (R299). -/
def ctxWait (i : CourseIn) (c k : Nat) : SyncOut := { waits := i.parts.map fun l => (c, l, .context k) }

/-- The command a bcopy issues, on its context; nothing where it returns 0 (R301). -/
def bcopyKind (t : Team) (tk core kind n : Nat) (dst src stamp : W64) : Option (Nat × CmdKind) :=
  match kind with
  | 0 => some (0, .copy dst src n)
  | 1 =>
    let k := dst.toNat % 8
    let r := t.ring k
    if !r.ready || n = 0 || r.slotBytes < n then none else some (0, .fill tk k src n)
  | 2 => some (1, .prefetch core src n)
  | _ => some (3, .ckpt dst src n stamp)

/-- R301, R303: the stamp of a checkpoint command is in the two names after the block of the others, part of the block (R300). -/
def execBcopy (d a : Fin 64) (last : Bool) (b : Src) (st : State) : Host.Outcome State Fault Refusal :=
  st.eachCourse fun s t c =>
    let i := courseIn s t 2 c
    let ckpt := decide (((srcView i.rd .b32 b).val i.lead).toNat % 2 ^ 32 / 2 ^ 30 = 3)
    let names := if ckpt && decide (a.val + 6 ≤ 64) then 6 else 4
    s.uniSyncAt ((.b32, b) :: blockSrcs a.val names last) false false (fun s t c i vals =>
      let tk := s.issue.team
      let key := sliceKey t.part t.slice
      let w := (vals.headD 0).toNat % 2 ^ 32
      let kind := w / 2 ^ 30
      let name (k : Nat) : W32 := lo32 (vals.getD (1 + k) 0)
      if kind = 3 ∧ 64 < a.val + 6 then
        (s, { reqs := i.parts.map fun l => { course := c, lane := l, code := .illegalEnc, detail := 2 } })
      else
        let give (n : Nat) : SyncOut := { write := fun y => y.writeUniform i true (.reg d) (nat64 n) }
        match bcopyKind t tk t.core kind (w % 2 ^ 30) (pair64 (name 1) (name 0)) (pair64 (name 3) (name 2)) (pair64 (name 5) (name 4)) with
        | none => (s, give 0)
        | some (k, cmd) =>
          if s.ctxFull key k then (s, ctxWait i c k)
          else
            match s.releaseActs (s.whoOf tk t c i.parts) .dv s.issue.addr with
            | (s, some (.wait wt)) => (s, { waits := i.parts.map fun l => (c, l, wt) })
            | (s, _) =>
              let (s, n) := s.issueCmd key k cmd
              (s, give n)) t c

/-- R302. -/
def execBcopySt (d a : Fin 64) (last : Bool) (b : Src) (st : State) : Host.Outcome State Fault Refusal :=
  st.uniSync ((.b32, b) :: blockSrcs a.val 4 last) false false fun s t c i vals =>
    let tk := s.issue.team
    let w := (vals.headD 0).toNat % 2 ^ 32
    let name (k : Nat) : W32 := lo32 (vals.getD (1 + k) 0)
    let acc : Access := { kind := .copySt, scope := .dv, order := .rel, dest := d.val, uniform := true }
    let q : LaneAcc := { lane := i.lead, addr := pair64 (name 1) (name 0), data := bytesOfWords [name 2, name 3] ++ leBytes 4 w }
    let write (v : List W32) : SyncOut :=
      { write := fun y => (List.range 4).foldl (fun y k =>
        y.writeUniform i false (.reg (Fin.ofNat 64 (d.val + k))) (zx64 (nth v k 0))) y }
    if w / 2 ^ 30 ≠ 0 ∨ 2 ^ 20 < w % 2 ^ 30 then (s, write [0, 0, 0, 0])
    else
      match s.accessLane (s.whoOf tk t c i.parts) acc q with
      | (s, .done v) => (s, write v)
      | (s, .wait wt) => (s, { waits := i.parts.map fun l => (c, l, wt) })
      | (s, .logged code e) => (s.logAccess tk c acc true i.parts [⟨q, code, e⟩], {})
      | (s, .fault code det e) => (s, { reqs := i.parts.map fun l => { course := c, lane := l, code := code, detail := det, addr := some e } })

/-! ## Timeline counters (R307) -/

/-- The status word of a context. -/
def Ctx.status (c : Ctx) : W32 := BitVec.ofNat 32 (c.faulted.toNat + c.lost.toNat * 2)

/-- R307. -/
def execTlRead (d : Fin 64) (a : Src) (st : State) : Host.Outcome State Fault Refusal :=
  st.uniSync [(.b32, a)] false false fun s t _ i vals =>
    let k := (vals.headD 0).toNat % 2 ^ 32
    let x : Ctx := if k < 4 then s.ctx (sliceKey t.part t.slice) k else {}
    (s, { write := fun y =>
      (y.writeUniform i true (.reg d) (nat64 x.counter)).writeUniform i false (.reg (Fin.ofNat 64 (d.val + 2))) (zx64 x.status) })

/-- R267, R270, R307. -/
def execTlWait (a b : Src) (st : State) : Host.Outcome State Fault Refusal :=
  st.uniSync [(.b32, a), (.b64, b)] false false fun s t c i vals =>
    let k := (vals.headD 0).toNat % 2 ^ 32
    let target := vals.getD 1 0
    let clear (s : State) : State := let core := s.core t.core; s.setCore t.core { core with fcache := [] }
    if 4 ≤ k then (clear s, {})
    else if (s.ctx (sliceKey t.part t.slice) k).counter < target.toNat then
      (s, { waits := i.parts.map fun l => (c, l, .timeline k target) })
    else if target = 0 then (clear s, {})
    else ((clear s).acquireActs (s.whoOf s.issue.team t c i.parts) (if k = 2 then .dm else .dv), {})

/-! ## Collectives (R309 to R311, R356) -/

/-- Fields of a descriptor (R309). -/
structure CollDesc where
  send : Nat
  recv : Nat
  count : Nat
  kind : Nat
  op : Nat
  group : Nat
  root : Nat
  tag : Nat

/-- Reads a descriptor. -/
def collDesc (b : List Byte) : CollDesc :=
  ⟨bytesAt b 0 8, bytesAt b 8 8, bytesAt b 0x10 8, bytesAt b 0x18 1, bytesAt b 0x19 1, bytesAt b 0x1A 1, bytesAt b 0x1B 1, bytesAt b 0x20 8⟩

/-- Bytes of an element of an operation. -/
def collSize (op : Nat) : Nat := match op with | 1 | 6 => 8 | 2 => 2 | _ => 4

/-- The members of a fixed group, as devices by rank, with whether each is this device in this partition (R356). -/
def State.groupMembers (s : State) (part g : Nat) : List (Option (Nat × Nat)) :=
  match (s.part part).table 0x40 4096 with
  | none => []
  | some base =>
    if 64 ≤ g then []
    else
      let mask := leNat (s.mem.readN (base + 64 * g) 64)
      ((List.range 512).filter fun k => fld mask k 1 == 1).map fun k => s.windowEntry part k

/-- Whether a descriptor passes the checks at issue (R309). -/
def State.collOk (s : State) (part : Nat) (d : CollDesc) : Bool :=
  let ms := s.groupMembers part d.group
  decide (d.kind ≤ 3) && (decide (d.op ≤ 6) || decide (2 ≤ d.kind)) &&
    (d.group == 0xFF ||
      (ms.any (fun m => m == some (s.devNumber, part)) && decide (d.root < ms.length) && (d.kind != 1 || d.count % ms.length == 0)))

/-- R309. -/
def execColl (d : Fin 64) (a : Src) (st : State) : Host.Outcome State Fault Refusal :=
  st.uniSync [(.addr, a)] false false fun s t c i vals =>
    let tk := s.issue.team
    let key := sliceKey t.part t.slice
    let addr := vals.headD 0
    -- XLATE and PROT alone give the descriptor's address (R358)
    let faults (code : FCode) (sys : Bool) : SyncOut :=
      { reqs := i.parts.map fun l =>
          { course := c, lane := l, code := code, addr := if code == .xlate || code == .prot then some addr else none, system := sys } }
    let give (n : Nat) : SyncOut := { write := fun y => y.writeUniform i true (.reg d) (nat64 n) }
    let w := s.whoOf tk t c i.parts
    if addr.toNat % 64 ≠ 0 then (s, faults .align false)
    else if s.ctxFull key 2 then (s, ctxWait i c 2)
    else
      match s.releaseActs w .dm s.issue.addr with
      | (s, some (.wait wt)) => (s, { waits := i.parts.map fun l => (c, l, wt) })
      | (s, some (.fault code _ _)) => (s, faults code true)
      | (s, _) =>
        match s.planeWait t.part w.user .read addr.toNat 64 2, s.tableRead t.part w.user addr.toNat 64 2 with
        | some dev, _ => (s, { waits := i.parts.map fun l => (c, l, .link dev) })
        | none, .error (code, _) => (s, faults code true)
        | none, .ok b =>
          if !s.collOk t.part (collDesc b) then (s, give 0)
          else
            -- a fixed group's ordinal is that of the issue (R310)
            let q := s.part t.part
            let g := (collDesc b).group
            let k := (FMap.get q.ordinals g).getD 0
            let s := if g = 0xFF then s else s.setPart t.part { q with ordinals := FMap.set q.ordinals g (k + 1) }
            let (s, n) := s.issueCmd key 2 (.coll b)
            (s.onCmd key 2 n fun c => { c with ordinal := k }, give n)

/-- Combines neighbours of a list: one step of Tree over ranks (R202, R310). -/
def pairUp (op : Nat → Nat → Nat) : List Nat → List Nat
  | a :: b :: t => op a b :: pairUp op t
  | l => l

/-- One element of a reduction: its Op and Finish (R310). -/
def collOp (op : Nat) : Nat → Nat → Nat :=
  match op with
  | 0 => Fmt.f32.add .rne
  | 1 => Fmt.f64.add .rne
  | 2 => Fmt.bf16.add .rne
  | 3 => Fmt.f32.pick true false
  | 4 => Fmt.f32.pick false false
  | 5 => fun a b => (a + b) % 2 ^ 32
  | _ => fun a b => (a + b) % 2 ^ 64

/-- Finish of R202. -/
def collFinish (op v : Nat) : Nat :=
  let canon (f : Fmt) : Nat := if f.isNan v then f.qnan else v
  match op with
  | 0 | 3 | 4 => canon .f32
  | 1 => canon .f64
  | 2 => canon .bf16
  | _ => v

/-- A reduction of one element over the ranks. -/
def collReduce (op : Nat) (vs : List Nat) : Nat :=
  collFinish op (((List.range 10).foldl (fun vs _ => pairUp (collOp op) vs) vs).headD 0)

/-- Element `k` of a member's contribution; one it does not hold is a free value (log 21). -/
def Member.element (m : Member) (size free k : Nat) : Nat :=
  if (k + 1) * size ≤ m.bytes.length then bytesAt m.bytes (k * size) size else (Config.freeValue (free + k)).toNat % 2 ^ (8 * size)

/-- What a member receives at RECV: the offset from RECV and the bytes (R310). `ms` are the members by rank, those of an open group that fail
its start checks among them (log 21, DESIGN CHOICE). -/
def collResult (d : CollDesc) (ms : List Member) (rank free : Nat) : List Byte :=
  let z := collSize d.op
  let red (k : Nat) : List Byte := leBytes z (collReduce d.op (ms.map fun m => m.element z free k))
  let n := d.count
  match d.kind with
  | 0 => (List.range n).flatMap red
  | 1 => let part := n / ms.length; ((List.range part).map fun k => rank * part + k).flatMap red
  | 2 => ms.flatMap fun m => (List.range n).flatMap fun k => leBytes z (m.element z free k)
  | _ => match ms[d.root]? with | some m => (List.range n).flatMap fun k => leBytes z (m.element z free k) | none => []

/-- The bytes a member sends: none where the kind takes none from it. -/
def collSend (d : CollDesc) (isRoot : Bool) : Nat := if d.kind = 3 && !isRoot then 0 else d.count * collSize d.op

/-- Finds an instance that has not started. -/
def Partition.openInstance (q : Partition) (group tag : Nat) : Option CollInstance :=
  q.instances.find? fun x => x.group == group && x.tag == tag && !x.started

/-- Adds a member to an instance, opening it if need be (R310, R311). -/
def Partition.joinInstance (q : Partition) (group tag : Nat) (m : Member) (now : Nat) : Partition :=
  match q.openInstance group tag with
  | some _ =>
    { q with instances := q.instances.map fun x =>
        if x.group == group && x.tag == tag && !x.started then { x with members := x.members ++ [m] } else x }
  | none => { q with instances := q.instances ++ [{ group := group, tag := tag, members := [m], openedAt := now }] }

/-- A member joins; with the 64th an open instance starts at once, before anyone else can join (R310). -/
def State.joinColl (s : State) (part group tag : Nat) (m : Member) : State :=
  let s := s.setPart part ((s.part part).joinInstance group tag m s.ns)
  match (s.part part).openInstance group tag with
  | some x =>
    if group = 64 && decide (64 ≤ x.members.length) then
      { s with agenda := .openGroupStart (Fin.ofNat 16 part) (BitVec.ofNat 64 tag) :: s.agenda }
    else s
  | none => s

/-- The members of a complete instance of a fixed group by rank, or nothing while one is missing (R271). -/
def State.fixedMembers (s : State) (part group tag : Nat) : Option (List Member) :=
  let ms := s.groupMembers part group
  match (s.part part).openInstance group tag with
  | none => none
  | some x => ms.mapM fun m => m.bind fun dv => x.members.find? fun y => y.device == dv.1

/-- The results of a complete fixed-group instance go to this device's commands of it. -/
def State.settleFixed (s : State) (part group tag : Nat) : State :=
  match s.fixedMembers part group tag with
  | none => s
  | some ms =>
    let rank := ((s.groupMembers part group).idxOf (some (s.devNumber, part)))
    let put (q : Cmd) : Cmd :=
      match q.kind with
      | .coll b =>
        if q.instId == some (group, tag) then { q with data := some (collResult (collDesc b) ms rank s.freeCtr) } else q
      | _ => q
    let mine := (s.slicesOf part).map Prod.fst
    let s := mine.foldl (fun s key => s.onCtx key 2 fun c => { c with queue := c.queue.map put }) s
    let q := s.part part
    let longest := (ms.map fun m => m.bytes.length).foldl max 0
    { s.setPart part { q with instances := q.instances.filter fun x => !(x.group == group && x.tag == tag) } with freeCtr := s.freeCtr + longest }

/-- Whether a partition's domain window names a device (R258, R355). -/
def State.inWindow (s : State) (part dev : Nat) : Bool := (List.range 512).any fun k => (s.windowEntry part k).map Prod.fst == some dev

/-- Whether no plane works for now to a device that a partition's window names (R380). -/
def State.linkOut (s : State) (part : Nat) : Bool :=
  s.domain && s.ports == 0 && (List.range 512).any fun k => (s.windowEntry part k).any fun e => s.pathDown e.1

/-- The command of a collective joins its instance (R310, R311): its SEND bytes are read, its contribution goes out; not while the planes
to a device of the partition's window are out (R380). -/
def State.startColl (s : State) (key num : Nat) (b : List Byte) (ordinal : Nat) : State :=
  match FMap.get s.slices key with
  | none => s
  | some x =>
    if s.linkOut x.part then s
    else
    let d := collDesc b
    let isOpen := d.group == 0xFF
    let isRoot := isOpen || (s.groupMembers x.part d.group)[d.root]? == some (some (s.devNumber, x.part))
    match s.tableRead x.part true d.send (collSend d isRoot) (pagesOf (collSend d isRoot)) with
    | .error (code, a) => s.engineFault key 2 num code a (collSend d isRoot)
    | .ok bytes =>
      let group := if isOpen then 64 else d.group
      let tag := if isOpen then d.tag else ordinal
      let rank := match (s.part x.part).openInstance group tag with | some y => y.members.length | none => 0
      let m : Member := { device := s.devNumber, kind := d.kind, op := d.op, count := d.count, root := d.root, bytes := bytes }
      let s := s.onCmd key 2 num fun c => { c with instId := some (group, tag), rank := rank }
      let s := (s.joinColl x.part group tag m).signal (.contribution x.part group tag m)
      if isOpen then s else s.settleFixed x.part group tag

/-- R271: another member's contribution arrives. -/
def execCollectiveContribution (part : Fin 16) (c : Contribution) (st : State) : Host.Outcome State Fault Refusal :=
  let group := match c.group with | some g => g.val | none => 64
  let m : Member := { device := c.device.val, kind := c.kind, op := c.op, count := c.count, root := c.root, bytes := c.bytes }
  let s := st.joinColl part.val group c.tag m
  .next (if group = 64 then s else s.settleFixed part.val group c.tag)

/-- Whether a member passes the start checks against the opener (R311). -/
def startOk (o m : Member) (n : Nat) : Bool :=
  m.kind == o.kind && m.op == o.op && m.count == o.count && (o.kind != 1 || o.count % n == 0) && (o.kind != 3 || decide (o.root < n))

/-- R310, R311: an open instance starts. Ranks follow the order of joining; this device's commands take their results, or fail the
checks. A member that fails them still has its rank and contributes its bytes to the others (log 21, DESIGN CHOICE). -/
def execOpenGroupStart (part : Fin 16) (tag : BitVec 64) (st : State) : Host.Outcome State Fault Refusal :=
  let q := st.part part.val
  match q.openInstance 64 tag.toNat with
  | none => .next st
  | some x =>
    match x.members with
    | [] => .next st
    | o :: _ =>
      let n := x.members.length
      let cmds := (st.slicesOf part.val).flatMap fun p =>
        ((nth p.2.ctxs 2 {}).queue.filter fun c => c.instId == some (64, tag.toNat) && c.data.isNone).map fun c => (p.1, c)
      let longest := (x.members.map fun m => m.bytes.length).foldl max 0
      let s := cmds.foldl (fun s p =>
        match p.2.kind with
        | .coll b =>
          let m := nth x.members p.2.rank o
          let d := { collDesc b with kind := o.kind, op := o.op, count := o.count, root := o.root }
          if startOk o m n then
            s.onCmd p.1 2 p.2.num fun c => { c with data := some (collResult d x.members p.2.rank st.freeCtr) }
          else
            (s.onCmd p.1 2 p.2.num fun c => { c with data := some [] }).onCtx p.1 2 fun c => { c with faulted := true }
        | _ => s) st
      let q := s.part part.val
      let s := s.setPart part.val { q with instances := q.instances.erase x }
      .next { s with freeCtr := s.freeCtr + longest }

/-! ## Holds (R265, R312) -/

/-- What a die reports as its watermark of a domain when its clock reads E = `e` (R260). -/
def State.dieReport (s : State) (d e : Nat) (dom : StampDom) : Nat :=
  let u := match dom with | .package => 0 | .domain => s.uNs
  let pend := (s.stores.filter fun x => x.source.isNone && x.die == d && !x.held && x.dom == dom).map fun x => x.stamp
  pend.foldl (fun acc x => min acc (x - 1)) (e - u - 1)

/-- The last report of a lost die. -/
def Die.report (x : Die) (dom : StampDom) : Nat := match dom with | .package => x.lastPackage | .domain => x.lastDomain

/-- A die's watermark of a domain (R260), with a reading of its clock; a lost die reports no more, and its last report stands (R265, R381,
R382). -/
def State.dieWatermark (s : State) (d : Nat) (dom : StampDom) : State × Nat :=
  if (s.die d).alive then let r := s.readClock d; (r.1, r.1.dieReport d r.2.1 dom) else (s, (s.die d).report dom)

/-- The least watermark of this device's dies that are in their die set (R260). -/
def State.ownWatermark (s : State) (dom : StampDom) : State × Nat :=
  let dies := (List.range 4).filter fun d => (s.die d).inSet
  let (s, own) := dies.foldl (fun (acc : State × Option Nat) d =>
    let (s, w) := acc.1.dieWatermark d dom
    (s, some (match acc.2 with | none => w | some m => min m w))) (s, none)
  (s, own.getD 0)

/-- The least watermark of a partition's domain (R258, R260), from this device's own: the die set is every die of every device of the
partition's window. -/
def State.withPeers (s : State) (part own : Nat) : Nat :=
  (s.peers.filter fun p => p.2.reachable && p.1 != s.devNumber && s.inWindow part p.1).foldl (fun m p => min m p.2.watermark) own

/-- W of a domain for a partition's pages (R258, R260): the least watermark of its die set. -/
def State.watermark (s : State) (part : Nat) (dom : StampDom) : State × Nat :=
  let (s, own) := s.ownWatermark dom
  match dom with
  | .package => (s, own)
  | .domain => (s, s.withPeers part own)

/-- R312. -/
def execCkptHold (d : Fin 64) (dm : Bool) (st : State) : Host.Outcome State Fault Refusal :=
  st.uniSync [] false false fun s t _ i _ =>
    let q := s.part t.part
    let held := if dm then q.domHolds else q.holds
    let give (v : W64) : SyncOut := { write := fun y => y.writeUniform i true (.reg d) v }
    if 16 ≤ held.length then (s, give 0xFFFFFFFFFFFFFFFF)
    else
      let (s, h) := s.watermark t.part (s.stampDom t.part dm)
      let s := s.setPart t.part (if dm then { q with domHolds := held ++ [h] } else { q with holds := held ++ [h] })
      (s, give (nat64 h))

/-- R312. -/
def execCkptRelease (a : Src) (dm : Bool) (st : State) : Host.Outcome State Fault Refusal :=
  st.uniSync [(.b64, a)] false false fun s t _ _ vals =>
    let h := (vals.headD 0).toNat
    let q := s.part t.part
    (s.setPart t.part (if dm then { q with domHolds := q.domHolds.erase h } else { q with holds := q.holds.erase h }), {})

/-! ## Commands at work (R299, R301 to R304, R308) -/

/-- The next command a context may start, if its resources are free (R299, R304). -/
def State.startable (s : State) (key k : Nat) : Option Cmd :=
  let c := s.ctx key k
  if c.queue.any fun q => q.fault.isSome then none
  else
    match c.queue.find? fun q => !q.started with
    | none => none
    | some q =>
      match q.kind with
      | .fill tk r _ _ =>
        match FMap.get s.teams tk with
        | none => none
        | some t => let x := t.ring r; if x.ready && (nth x.slots x.claim {}).state == 0 then some q else none
      | _ => some q

/-- R299: a context starts its next command; a fill claims its slot. -/
def execEngineCommandStart (key : Nat) (ctx : Fin 4) (st : State) : Host.Outcome State Fault Refusal :=
  match st.startable key ctx.val with
  | none => .next st
  | some q =>
    let s := st.onCmd key ctx.val q.num fun c => { c with started := true }
    let s :=
      match q.kind with
      | .fill tk r _ n =>
        match FMap.get s.teams tk with
        | none => s
        | some t =>
          let i := (t.ring r).claim
          (s.setSlot tk r i { state := 1, target := n } fun x => { x with claim := (x.claim + 1) % x.slots.length }).onCmd key ctx.val q.num
            fun c => { c with slot := i }
      | .coll b => s.startColl key q.num b q.ordinal
      | _ => s
    .next (s.due (.engineCommandComplete key ctx q.num))

/-- The lines of a range with their pages: where a checkpoint copy reads (R303). -/
def State.ckptRead (s : State) (part : Nat) (va n t : Nat) : Nat → Except (FCode × W64) (List Byte × Bool × Bool)
  | 0 => .ok ([], false, true)
  | fuel + 1 =>
    if n = 0 then .ok ([], false, true)
    else
      let a := BitVec.ofNat 64 va
      let k := min n (128 - va % 128)
      match (s.translate none part true .read a).2 with
      | .error e => .error (e, a)
      | .ok x =>
        let dev := x.remote.map Prod.fst
        let piece : Except (FCode × W64) (List Byte × Bool × Bool) :=
          match s.homeAnswers part x k with
          | .error e => .error (e, a)
          | .ok _ =>
            if !x.stamped then (s.tableRead part true va k 2).map fun b => (b, false, true)
            else if s.homeW part dev x.pa (s.stampDom part x.domain) < t then .ok ([], false, false)
            else
              let v := if s.isOwn dev then s.versionAt (lineOf x.pa) t
                else ({ s with freeCtr := s.freeCtr + fuel }.peerVersion part (dev.getD 0) (lineOf x.pa) t).2
              let bad := if s.isOwn dev then (match v with | some v => s.versionBad v x.pa k | none => false)
                else s.peerBad v (dev.getD 0) x.pa k
              if bad then .error (.ecc, a)
              else match v with
                | some v => .ok ((v.bytes.drop (x.pa % 128)).take k, false, true)
                | none => .ok (List.replicate k 0, true, true)
        match piece with
        | .error e => .error e
        | .ok (b, lost, ready) =>
          match s.ckptRead part (va + k) (n - k) t fuel with
          | .error e => .error e
          | .ok (b', lost', ready') => .ok (b ++ b', lost || lost', ready && ready')

/-- The host range of a safe-tier destination (R386); PROT if its offsets leave the entry, LINK_LOST if the table lies on a lost die
(R381). -/
def State.safeTier (s : State) (part dst n : Nat) : Except FCode Nat :=
  match (s.part part).table 0x50 256 with
  | none => .error .prot
  | some base =>
    let e := base + 16 * (fld dst 52 4)
    let len := leNat (s.mem.readN (e + 8) 8)
    let off := dst % 2 ^ 52
    if !s.homeAlive e then .error .linkLost
    else if len / 2 ^ 63 = 0 ∨ len % 2 ^ 63 < off + n then .error .prot
    else .ok (leNat (s.mem.readN e 8) + off)

/-- Fills the lines of a range into a core's fetch cache (R270, R301): plain lines of this device that are not poisoned. -/
def State.prefetchLines (s : State) (part core va n : Nat) : Nat → State
  | 0 => s
  | fuel + 1 =>
    if n = 0 then s
    else
      let k := min n (128 - va % 128)
      let s :=
        match (s.translate none part true .read (BitVec.ofNat 64 va)).2 with
        | .ok x =>
          let base := x.pa / 128 * 128
          if x.remote.isSome || x.stamped || s.poisoned base 128 then s
          else
            let c := s.core core
            s.setCore core { c with fcache := FMap.set c.fcache (lineOf x.pa) (s.mem.readN base 128) }
        | .error _ => s
      s.prefetchLines part core (va + k) (n - k) fuel

/-- The pieces of a stamped destination, by page; each page must be stamped in one domain (R302). -/
def State.stampPieces (s : State) (part : Nat) (dom : StampDom) (va : Nat) (b : List Byte) : Nat → Except (FCode × W64) (List Piece)
  | 0 => .ok []
  | fuel + 1 =>
    if b.isEmpty then .ok []
    else
      let a := BitVec.ofNat 64 va
      let k := chunkLen va b.length
      match (s.translate none part true .write a).2 with
      | .error e => .error (e, a)
      | .ok x =>
        let reach : Except FCode Unit :=
          match x.remote with
          | some (d, rp) => s.remoteCheck part d rp x.pa k
          | none => if s.homeAlive x.pa k then .ok () else .error .linkLost
        if !x.stamped || s.stampDom part x.domain != dom then .error (.stampMix, a)
        else
          match reach with
          | .error e => .error (e, a)
          | .ok _ =>
            match s.stampPieces part dom (va + k) (b.drop k) fuel with
            | .error e => .error e
            | .ok t => .ok (⟨x.remote.map Prod.fst, x.pa, b.take k⟩ :: t)

/-- Records the bytes a command writes. -/
def State.keepData (s : State) (key k num : Nat) (b : List Byte) : State := s.onCmd key k num fun q => { q with data := some b }

/-- Writes what is left of a command's bytes to device memory, and completes it (R308). -/
def State.writeData (s : State) (part key k num : Nat) (q : Cmd) (dst : Nat) (b : List Byte) : State :=
  let rest := b.drop q.progress
  match s.engineWrite part (dst + q.progress) rest (pagesOf rest.length) with
  | (s, n, some (code, a)) =>
    (s.engineFault key k num code a 0).onCmd key k num fun c => { c with progress := q.progress + n, data := some b }
  | (s, _, none) => s.finishCmd key k num

/-- Writes a checkpoint's bytes to their destination (R303, R386), LOST with them where lines are written as zeros. -/
def State.writeCkpt (s : State) (part key k : Nat) (q : Cmd) (dst : W64) (n : Nat) (b : List Byte) (lost : Bool) : State :=
  let mark (s : State) : State := if lost then s.onCtx key k fun c => { c with lost := true } else s
  if n = 0 then s.finishCmd key k q.num
  else if dst.toNat / 2 ^ 56 = 255 then
    match s.safeTier part dst.toNat n with
    | .error e => s.engineFault key k q.num e dst 0
    | .ok a => (mark { s with hostMem := s.hostMem.writeN a b }).finishCmd key k q.num
  else (mark (s.keepData key k q.num b)).writeData part key k q.num q dst.toNat b

/-- The pages of a stamped destination are seen as such (R258). -/
def State.seePieces (s : State) (part va : Nat) (ps : List Piece) : State :=
  (ps.foldl (fun (acc : State × Nat) p => (acc.1.seePage part p.dev acc.2 p.pa true, acc.2 + p.bytes.length)) (s, va)).1

/-- Runs a started command to its end, or to its fault. -/
def State.runCmd (s : State) (part key k : Nat) (q : Cmd) : State :=
  let num := q.num
  match q.kind with
  | .copy dst src n =>
    match q.data with
    | some b => s.writeData part key k num q dst.toNat b
    | none =>
      match s.sourceOf part src.toNat n with
      | .error (code, a) => s.engineFault key k num code a n
      | .ok b => (s.keepData key k num b).writeData part key k num q dst.toNat b
  | .fill tk r src n =>
    s.runFill part key k q tk r src n
  | .prefetch core src n =>
    match s.sourceOf part src.toNat n with
    | .error (code, a) => s.engineFault key k num code a n
    | .ok _ => (s.prefetchLines part core src.toNat n (n / 128 + 2)).finishCmd key k num
  | .ckpt dst src n t =>
    match q.data with
    | some b => s.writeData part key k num q dst.toNat b
    | none =>
      match s.ckptRead part src.toNat n t.toNat (n / 128 + 2) with
      | .error (code, a) => s.engineFault key k num code a (128 - a.toNat % 128)
      | .ok (_, _, false) => s
      | .ok (b, lost, true) => { s with freeCtr := s.freeCtr + n / 128 + 3 }.writeCkpt part key k q dst n b lost
  | .copySt dst src n _ =>
    match s.stores.find? fun x => x.cmd == some (key, num) with
    | none => s.finishCmd key k num
    | some x =>
      if x.visible then s.finishCmd key k num
      else if !x.pieces.isEmpty then s
      else
        match s.sourceOf part src.toNat n with
        | .error (code, a) => s.engineFault key k num code a n
        | .ok b =>
          match s.stampPieces part x.dom dst.toNat b (pagesOf n) with
          | .error (code, a) => s.engineFault key k num code a 0
          | .ok ps =>
            if ps.isEmpty then s.finishCmd key k num
            else ({ s.seePieces part dst.toNat ps with
              stores := s.stores.map fun (y : StampedStore) => if y.id = x.id then { y with pieces := ps } else y }).due (.stampedStoreHeldPending x.id)
  | .coll b =>
    match q.data with
    | some r =>
      let d := collDesc b
      s.writeData part key k num q d.recv r
    | none => if q.instId.isNone then s.startColl key num b q.ordinal else s

/-- Whether a command can be run to its end: started, not faulted, behind no faulted one (R308), and not while the planes to a device of
its partition's window are out (R380). -/
def State.runnable (s : State) (key k : Nat) (q : Cmd) : Bool :=
  let c := s.ctx key k
  q.started && !(match FMap.get s.slices key with | some x => s.linkOut x.part | none => false) && !c.queue.any (fun x => x.fault.isSome && decide (x.num ≤ q.num)) &&
    match q.kind with
    | .copySt _ _ _ _ =>
      match s.stores.find? fun x => x.cmd == some (key, q.num) with
      | some x => x.pieces.isEmpty || x.visible
      | none => true
    | .coll _ => q.data.isSome || q.instId.isNone
    | .ckpt _ src n t =>
      q.data.isSome || match FMap.get s.slices key with
      | some x => match s.ckptRead x.part src.toNat n t.toNat (n / 128 + 2) with | .ok (_, _, ready) => ready | .error _ => true
      | none => true
    | _ => true

/-- R267: a command does its work and completes. -/
def execEngineCommandComplete (key : Nat) (ctx : Fin 4) (num : Nat) (st : State) : Host.Outcome State Fault Refusal :=
  match FMap.get st.slices key, (st.ctx key ctx.val).queue.find? fun q => q.num == num with
  | some x, some q => .next (if st.runnable key ctx.val q then st.runCmd x.part key ctx.val q else st)
  | _, _ => .next st

/-- The engine work that is ready without an event of its own: commands that can start or complete. -/
def State.engineEvent (s : State) : Option Instr :=
  s.slices.findSome? fun p =>
    (List.range 4).findSome? fun k =>
      let c := s.ctx p.1 k
      match c.queue.find? fun q => s.runnable p.1 k q with
      | some q => some (.engineCommandComplete p.1 (Fin.ofNat 4 k) q.num)
      | none => if (s.startable p.1 k).isSome then some (.engineCommandStart p.1 (Fin.ofNat 4 k)) else none

end Sys2Proof.Machine
end

