-- ==== Sys2Proof/Machine/Stamps.lean ====
section
/-!
DEFINITION. Stamped stores on their way (R260 to R265, R315): held at their home slice, made visible in stamp order, reported; the
versions a home slice keeps; the copies of W; and what other devices ask at lines homed here (R251, R355).
-/

namespace Sys2Proof.Machine

/-! ## Versions (R264, R265) -/

/-- The partition whose grants hold a line. -/
def State.partOfLine (s : State) (line : Nat) : Option Nat :=
  (List.range 16).find? fun k => let q := s.part k; q.enabled && q.granted (128 * line) 128

/-- The lowest hold of a stamp domain in the partition of a line (R265). Without a domain window the domain's pages behave as package
pages (R258), and so do its holds. -/
def State.lowestHold (s : State) (line : Nat) (dom : StampDom) : Option Nat :=
  match s.partOfLine line with
  | none => none
  | some k =>
    let q := s.part k
    (match dom with | .package => if q.cfg 0x38 8 = 0 then q.holds ++ q.domHolds else q.holds | .domain => q.domHolds).foldl
      (fun (acc : Option Nat) h => some (match acc with | none => h | some m => min m h)) none

/-- Whether a hold needs a version, by its successor's stamp. -/
def State.holdNeeds (s : State) (line : Nat) (dom : StampDom) (succ : Nat) : Bool :=
  match s.lowestHold line dom with | none => false | some h => decide (h < succ)

/-- The versions of a line, newest first, with the stamps of their successors. -/
def State.versionsOf (s : State) (line : Nat) : List (Version × Nat) :=
  let vs := (FMap.get s.versions line).getD []
  vs.zip ((FMap.get s.lineStamp line).getD 0 :: vs.map fun v => v.stamp)

/-- Sets a line's older versions. -/
def State.setVersions (s : State) (line : Nat) (vs : List Version) : State :=
  { s with versions := if vs.isEmpty then FMap.erase s.versions line else FMap.set s.versions line vs }

/-- Versions a home slice's reserve holds. -/
def State.reserveUsed (s : State) (slice : Nat) : Nat :=
  ((s.versions.filter fun p => homeSlice p.1 == slice).map fun p => p.2.length).foldl (· + ·) 0

/-- The oldest version of a slice that no hold needs: its line and stamp. -/
def State.oldestFree (s : State) (slice : Nat) : Option (Nat × Nat) :=
  let all := (s.versions.filter fun p => homeSlice p.1 == slice).flatMap fun p =>
    ((s.versionsOf p.1).filter fun v => !s.holdNeeds p.1 v.1.dom v.2).map fun v => (p.1, v.1.stamp)
  all.foldl (fun (acc : Option (Nat × Nat)) v => match acc with | none => some v | some m => if v.2 < m.2 then some v else acc) none

/-- Moves a line's latest version into the reserve before a stamped store of a later stamp, its poison with it (R378); nothing when the
store must stall. -/
def State.keepVersion (s : State) (line : Nat) (dom : StampDom) (stamp : Nat) : Option State :=
  let old := (FMap.get s.lineStamp line).getD 0
  if old = stamp then some s
  else
    let put (s : State) : State :=
      s.setVersions line (⟨old, dom, s.mem.readN (128 * line) 128, s.poisoned (128 * line) 128⟩ :: (FMap.get s.versions line).getD [])
    let mark (s : State) : State := { s with lineStamp := FMap.set s.lineStamp line stamp }
    let slice := homeSlice line
    if s.reserveUsed slice < Config.reserveVersions then some (mark (put s))
    else
      match s.oldestFree slice with
      | some (l, st) => some (mark (put (s.setVersions l (((FMap.get s.versions l).getD []).filter fun v => v.stamp != st))))
      | none => if s.holdNeeds line dom stamp then none else some (mark s)

/-- Discards, among the versions of the lines homed on a die, some of those whose successor lies at or below the horizon (R264; which
ones is not fixed, log 11). -/
def State.discardVersions (s : State) (die : Nat) (dom : StampDom) (w : Nat → Nat) : State :=
  let lines := (s.versions.filter fun p => homeDie (128 * p.1) == die).map Prod.fst
  lines.foldl (fun s line =>
    let k := s.partOfLine line
    let w := w (k.getD 0)
    let window := match k with | some k => (s.part k).cfg 0x30 8 | none => 0
    let horizon := match s.lowestHold line dom with | some h => min (w - window) h | none => w - window
    let vs := s.versionsOf line
    let keep := (vs.zipIdx.filter fun p =>
      !(p.1.1.dom == dom && decide (p.1.2 ≤ horizon) && Config.freeChoice (s.freeCtr + p.2) % 2 == 1)).map fun p => p.1.1
    { s.setVersions line keep with freeCtr := s.freeCtr + vs.length }) s

/-! ## Visibility (R260, R262) -/

/-- The lines of a piece. -/
def Piece.lines (p : Piece) : List Nat := linesOf p.pa p.bytes.length

/-- Whether this device homes a piece. -/
def State.homesPiece (s : State) (p : Piece) : Bool := match p.dev with | none => true | some d => d == s.devNumber

/-- The home slices of a store: device and slice. -/
def State.slicesOfStore (s : State) (x : StampedStore) : List (Nat × Nat) :=
  x.pieces.flatMap fun p => p.lines.map fun l => (p.dev.getD s.devNumber, homeSlice l)

/-- Stamp order (R260): equal stamps by device number, then by die. -/
def State.stampLt (s : State) (x y : StampedStore) : Bool :=
  let d (z : StampedStore) : Nat := z.source.getD s.devNumber
  decide (x.stamp < y.stamp) || (x.stamp == y.stamp &&
    (decide (d x < d y) || (d x == d y && (decide (x.die < y.die) || (x.die == y.die && decide (x.id < y.id))))))

/-- Moves the versions a store displaces at this device's home slices; nothing when it must stall. -/
def State.keepAll (s : State) (x : StampedStore) : Option State :=
  ((x.pieces.filter s.homesPiece).flatMap Piece.lines).foldl (fun (acc : Option State) l =>
    acc.bind fun s => s.keepVersion l x.dom x.stamp) (some s)

/-- A line of another device takes a later version (R263, R264), the poison of its bytes with the old one (R378): what that device
discards of the older ones is not fixed (log 19). -/
def Peer.keepVersion (p : Peer) (line : Nat) (dom : StampDom) (stamp : Nat) : Peer :=
  let old := (FMap.get p.lineStamp line).getD 0
  if old = stamp then p
  else
    { p with lineStamp := FMap.set p.lineStamp line stamp
             versions := FMap.set p.versions line (⟨old, dom, p.mem.readN (128 * line) 128, p.poison.any fun g => g / 4 == line⟩ ::
               (FMap.get p.versions line).getD []) }

/-- A piece of a stamped store becomes visible at its home. -/
def State.showPiece (s : State) (dom : StampDom) (stamp : Nat) (p : Piece) : State :=
  match p.dev with
  | none => s.homeWrite p.pa p.bytes
  | some d =>
    if d = s.devNumber then s.homeWrite p.pa p.bytes
    else
      let peer := p.lines.foldl (fun (q : Peer) l => q.keepVersion l dom stamp) (s.peer d)
      { s with peers := FMap.set s.peers d peer }.remoteWrite d p.pa p.bytes

/-- Whether a store may become visible: held, W at its homes at or above its stamp, first among those pending at its home slices, and
room for what it displaces. -/
def State.canShow (s : State) (x : StampedStore) : Bool :=
  x.held && !x.visible && !x.pieces.isEmpty && x.pieces.all (fun p => decide (x.stamp ≤ s.homeW x.part p.dev p.pa x.dom)) &&
    !(s.stores.any fun y => !y.visible && y.dom == x.dom && s.stampLt y x &&
      (s.slicesOfStore y).any fun k => (s.slicesOfStore x).contains k) &&
    (s.keepAll x).isSome

/-- R260: the store is at its home slice. -/
def execStampedStoreHeldPending (id : Nat) (st : State) : Host.Outcome State Fault Refusal :=
  .next { st with stores := st.stores.map fun (x : StampedStore) => if x.id = id then { x with held := true } else x }

/-- R260, R264, R293: the store becomes visible. -/
def execStampedStoreVisible (id : Nat) (st : State) : Host.Outcome State Fault Refusal :=
  match st.stores.find? fun x => x.id == id with
  | none => .next st
  | some x =>
    if !st.canShow x then .next st
    else
      match st.keepAll x with
      | none => .next st
      | some s =>
        let s := x.pieces.foldl (fun s p => s.showPiece x.dom x.stamp p) s
        match x.source with
        | some d => .next ({ s with stores := s.stores.filter fun y => y.id != id }.signal (.remoteDone d []))
        | none =>
          .next ({ s with stores := s.stores.map fun (y : StampedStore) => if y.id = id then { y with visible := true } else y }.due
            (.visibilityReport id))

/-- A store's threads no longer wait for it. -/
def Thread.dropStamp (t : Thread) (id : Nat) : Thread := { t with stamps := t.stamps.filter fun k => k != id }

/-- R262: the report reaches the issuing core; a command's store stays until the command completes. -/
def execVisibilityReport (id : Nat) (st : State) : Host.Outcome State Fault Refusal :=
  match st.stores.find? fun x => x.id == id with
  | none => .next st
  | some x =>
    if !x.visible then .next st
    else
      let s := st.mapThreads fun t => t.dropStamp id
      .next { s with stores :=
        if x.cmd.isNone then s.stores.filter fun y => y.id != id
        else s.stores.map fun (y : StampedStore) => if y.id = id then { y with who := [] } else y }

/-- The next store that may become visible. -/
def State.showEvent (s : State) : Option Instr := (s.stores.find? fun x => s.canShow x).map fun x => .stampedStoreVisible x.id

/-! ## Requests of other devices (R251, R355) -/

/-- Bytes a request touches. -/
def remoteSize : RemoteOp → Nat
  | .read n => n
  | .write b => b.length
  | .atom op _ => if op.w64 then 8 else 4
  | .cas w _ => casBytes w
  | .stamped _ _ _ b => b.length
  | .asOf _ _ n => n

/-- Whether this device performs a request (R355): the named partition's window names the requester, and its grants hold the bytes. -/
def State.remoteAllowed (s : State) (r : RemoteReq) : Bool :=
  let n := (remoteSize r.op)
  (s.part r.part.val).enabled && physOk r.pa n && (s.part r.part.val).granted r.pa n &&
    (List.range 512).any fun k => s.windowEntry r.part.val k == some (r.device.val, r.fromPart.val)

/-- An atomic of another device, at its line's home slice (R247, R251), from which no line is owned now. -/
def State.remoteAtomic (s : State) (dev pa n : Nat) (k : AccKind) (args : List Byte) : State :=
  let old := s.mem.readN pa n
  (match k.newBytes old args with | some b => s.homeWrite pa b | none => s).signal (.remoteDone dev old)

/-- Poison that another device's request meets (R378, R379): it is told, and the error is logged. -/
def State.answerPoison (s : State) (r : RemoteReq) : State :=
  (s.logPoison r.pa (remoteSize r.op) 0 0).signal (.remotePoison r.device.val)

/-- The answer to a read as of a stamp (R263): the value and the status. -/
def State.answerAsOf (s : State) (r : RemoteReq) (stamp n : Nat) (waited : Bool) : State :=
  match s.versionAt (lineOf r.pa) stamp with
  | some v =>
    if s.versionBad v r.pa n then s.answerPoison r
    else s.signal (.remoteDone r.device.val ((v.bytes.drop (r.pa % 128)).take n ++ leBytes 1 (if waited then 2 else 0)))
  | none => s.signal (.remoteDone r.device.val (List.replicate n 0 ++ leBytes 1 1))

/-- Performs a request that is allowed. A request does not say how a read is ordered: every one takes the latest value, as an acquire
does (R247). -/
def State.remotePerform (s : State) (r : RemoteReq) : State :=
  let n := (remoteSize r.op)
  let dev := r.device.val
  let s := match r.op with
    | .read _ | .atom _ _ | .cas _ _ => (linesOf r.pa n).foldl (fun (s : State) l => s.recall l none) s
    | .write _ | .stamped _ _ _ _ | .asOf _ _ _ => s
  let bad := s.poisoned r.pa n
  match r.op with
  | .read _ => if bad then s.answerPoison r else s.signal (.remoteDone dev (s.mem.readN r.pa n))
  | .write b => (s.homeWrite r.pa b).signal (.remoteDone dev [])
  | .atom op args => if bad then s.answerPoison r else s.remoteAtomic dev r.pa n (.atom op) args
  | .cas w args => if bad then s.answerPoison r else s.remoteAtomic dev r.pa n (.cas w) args
  | .stamped die dom stamp b =>
    let x : StampedStore :=
      { id := s.nextStore, part := r.part.val, dom := dom, die := die.val, stamp := stamp, source := some dev, pieces := [⟨none, r.pa, b⟩], va := 0,
        held := true }
    { s with stores := s.stores ++ [x], nextStore := s.nextStore + 1 }
  | .asOf dom stamp _ =>
    if s.homeW r.part.val none r.pa dom < stamp then { s with remoteWaits := s.remoteWaits ++ [r] } else s.answerAsOf r stamp n false

/-- R355: another device's access reaches this one. A line homed on a lost die gives no answer. -/
def execRemoteAccessRequest (r : RemoteReq) (st : State) : Host.Outcome State Fault Refusal :=
  if !st.remoteAllowed r then .next (st.signal (.remoteProt r.device.val))
  else if !st.homeAlive r.pa then .next st
  else .next (st.remotePerform r)

/-- Answers the waiting reads of other devices that W now allows. -/
def State.answerWaits (s : State) : State :=
  let ready (r : RemoteReq) : Bool := match r.op with | .asOf dom stamp _ => decide (stamp ≤ s.homeW r.part.val none r.pa dom) | _ => true
  let go := s.remoteWaits.filter ready
  go.foldl (fun s r => match r.op with | .asOf _ stamp n => s.answerAsOf r stamp n true | _ => s)
    { s with remoteWaits := s.remoteWaits.filter fun r => !ready r }

/-! ## The copies of W (R260) -/

/-- What other devices of the domain report: each one's watermark does not decrease and does not pass this device's time (its place
is not fixed, log 11). -/
def State.refreshPeers (s : State) : State :=
  let named := ((List.range 16).filter fun k => (s.part k).enabled && (s.part k).cfg 0x38 8 != 0).flatMap fun k =>
    (List.range 512).filterMap fun i => (s.windowEntry k i).map Prod.fst
  let peers := named.foldl (fun m d => if d = s.devNumber then m else match FMap.get m d with | some _ => m | none => FMap.set m d {}) s.peers
  { s with
    peers := peers.zipIdx.map fun p =>
      (p.1.1, { p.1.2 with watermark := max p.1.2.watermark (s.ns - Config.freeChoice (s.freeCtr + p.2)) })
    freeCtr := s.freeCtr + peers.length }

/-- A die's copies of W taken anew (R260), from the least watermark of this device. -/
def State.newCopies (s : State) (x : Die) (dom : StampDom) (own : Nat) : Die :=
  match dom with
  | .package => { x with wPackage := max x.wPackage own }
  | .domain => { x with wDomain := x.wDomain.zipIdx.map fun p => max p.1 (s.withPeers p.2 own) }

/-- R260, R264: the home slices of a die take W anew. -/
def execWatermarkRefresh (die : Fin 4) (dom : StampDom) (st : State) : Host.Outcome State Fault Refusal :=
  let s := match dom with | .package => st | .domain => st.refreshPeers
  let (s, own) := s.ownWatermark dom
  let s := s.setDie die.val (s.newCopies (s.die die.val) dom own)
  .next (s.discardVersions die.val dom fun k => (s.die die.val).wOf dom k).answerWaits

end Sys2Proof.Machine
end

