-- ==== Sys2Proof/Machine/Post.lean ====
section
/-!
DEFINITION. The rings of records in memory and their registers: the fault ring (R363), the error log (R379), the event rings (R385);
posting, signals and the ETIME timer.
-/

namespace Sys2Proof.Machine

/-! ## Registers -/

/-- The bytes of a register after a write: `v`'s bytes land where the write covers the register. -/
def overlay (roff rsize old off size : Nat) (v : W64) : Nat :=
  leNat ((List.range rsize).map fun k =>
    if off ≤ roff + k ∧ roff + k < off + size then BitVec.ofNat 8 (v.toNat / 2 ^ (8 * (roff + k - off)))
    else BitVec.ofNat 8 (old / 2 ^ (8 * k)))

/-- The entry count's log2 as it is stored (R363, R385). -/
def clampSize (n : Nat) : Nat := max 6 (min n 16)

/-- The bits of a W1C register that a write clears (R4), applied. -/
def clearOnes (old : W32) (roff off size : Nat) (v : W64) : W32 := old &&& ~~~(BitVec.ofNat 32 (overlay roff 4 0 off size v))

/-- A write to the registers of a fault ring or an error log (R363, R379). FRBASE is 4 KiB aligned: what a write that is not aligned
stores is not stated, and here bits [11:0] are stored as 0 (log 52, DESIGN CHOICE). -/
def RecRing.writeFault (r : RecRing) (off size : Nat) (v : W64) : RecRing :=
  { r with
    base := BitVec.ofNat 64 (overlay 0 8 r.base.toNat off size v / 4096 * 4096)
    size := clampSize (overlay 0x08 4 r.size off size v)
    tail := BitVec.ofNat 32 (overlay 0x10 4 r.tail.toNat off size v)
    stat := clearOnes r.stat 0x14 off size v
    vec := BitVec.ofNat 32 (overlay 0x18 4 r.vec.toNat off size v) }

/-- A write to the registers of an event ring (R385); of EBASE's low 12 bits only [7:4] and [0] are fields. -/
def RecRing.writeEvent (r : RecRing) (off size : Nat) (v : W64) : RecRing :=
  { r with
    base := BitVec.ofNat 64 (overlay 0 8 r.base.toNat off size v) &&& ~~~0xF0E#64
    size := clampSize (overlay 0x08 4 r.size off size v)
    tail := BitVec.ofNat 32 (overlay 0x10 4 r.tail.toNat off size v)
    count := overlay 0x14 2 r.count off size v
    vec := BitVec.ofNat 32 (overlay 0x16 2 r.vec.toNat off size v)
    time := overlay 0x18 4 r.time off size v
    stat := clearOnes r.stat 0x1C off size v }

/-- Entries of a ring. -/
def RecRing.entries (r : RecRing) : Nat := 2 ^ r.size
/-- Whether a ring is full. -/
def RecRing.full (r : RecRing) : Bool := (r.head.toNat + 1) % r.entries == r.tail.toNat
/-- Where the next entry of a ring lies from its base, for entries of `n` bytes. -/
def RecRing.slotOff (r : RecRing) (n : Nat) : Nat := r.head.toNat % r.entries * n

/-- The oldest waiting record has been written. -/
def RecRing.posted (r : RecRing) : RecRing :=
  { r with head := BitVec.ofNat 32 ((r.head.toNat + 1) % r.entries), waiting := r.waiting.drop 1 }

/-- A record waits for room. -/
def RecRing.noteFull (r : RecRing) : RecRing := if r.full && !r.waiting.isEmpty then { r with stat := r.stat ||| 1 } else r

/-! ## The fault ring and the error log (R363, R379) -/

/-- Whether a ring's place in a partition's memory takes a record: in its grants while it is enabled (log 23), and on a die that answers
(log 47). -/
def State.takesRecord (s : State) (part pa n : Nat) : Bool := (s.part part).enabled && (s.part part).granted pa n && s.homeAlive pa

/-- Whether the next record of a ring in a partition's memory can be posted. -/
def State.canPost (s : State) (part n : Nat) (r : RecRing) : Bool :=
  !r.waiting.isEmpty && r.base != 0 && !r.full && s.takesRecord part (r.base.toNat + r.slotOff n) n

/-- Posts the oldest record of a ring of 64-byte records, if it can be: the record, then the head, then the signal. -/
def State.postOne (s : State) (part : Nat) (r : RecRing) (fix : List Byte → List Byte) : State × RecRing :=
  if s.canPost part 64 r then
    ((s.homeWrite (r.base.toNat + r.slotOff 64) (fix (r.waiting.headD []))).signal (.msix part r.vec.toNat),
      ({ r.posted with stat := r.stat ||| 2 } : RecRing).noteFull)
  else (s, r.noteFull)

/-- Where the device-wide error log's next record goes. -/
def State.devicePlace (s : State) : Nat := s.errorLog.base.toNat + s.errorLog.slotOff 64

/-- Whether the device-wide error log has a record to post and room for it, on a die that answers (R353, R379; log 47). -/
def State.devicePost (s : State) : Bool :=
  !s.errorLog.waiting.isEmpty && s.errorLog.base != 0 && !s.errorLog.full && (!physOk s.devicePlace 64 || s.homeAlive s.devicePlace)

/-- Posts the oldest record of the device-wide error log (R379, R353); it names a physical address, and one that holds no memory is a
fault. -/
def State.postDevice (s : State) : Host.Outcome State Fault Refusal :=
  let r := s.errorLog
  if !s.devicePost then .next { s with errorLog := r.noteFull }
  else
    let pa := s.devicePlace
    if physOk pa 64 then
      .next ({ s.homeWrite pa (r.waiting.headD []) with errorLog := ({ r.posted with stat := r.stat ||| 2 } : RecRing).noteFull }.signal
        (.msix 16 r.vec.toNat))
    else .fault (.noMemory pa)

/-- R363, R364, R379: a waiting record of the partition's fault ring, and one of its error log, are posted; so is one of the
device-wide log. -/
def execFaultRecordPost (part : Fin 16) (st : State) : Host.Outcome State Fault Refusal :=
  let k := part.val
  let (s, e, _) := st.readClock 0
  let (s, r) := s.postOne k (s.part k).faultRing fun b => putBytes b 0x30 (leBytes 8 e)
  let s := s.setPart k { s.part k with faultRing := r }
  let (s, r) := s.postOne k (s.part k).errorLog id
  (s.setPart k { s.part k with errorLog := r }).postDevice

/-! ## Event rings (R385) -/

/-- A host window entry (R351): base and length. -/
def State.hostWindow (s : State) (part k : Nat) : Option (Nat × Nat) :=
  match (s.part part).table 0x50 256 with
  | none => none
  | some tab =>
    if !s.homeAlive (tab + 16 * k) then none
    else some (leNat (s.mem.readN (tab + 16 * k) 8), leNat (s.mem.readN (tab + 16 * k + 8) 8) % 2 ^ 63)

/-- Where an event ring's next record goes: `inl` a physical address, `inr` a host address; nothing where it is disabled, full, or
names no place the partition may write (log 23). -/
def State.eventPlace (s : State) (part : Nat) (r : RecRing) : Option (Nat ⊕ Nat) :=
  let base := r.base.toNat
  let at' := base / 4096 * 4096 + r.slotOff 32
  if r.waiting.isEmpty || base = 0 || r.full then none
  else if base % 2 = 0 then (if s.takesRecord part at' 32 then some (.inl at') else none)
  else
    match s.hostWindow part (fld base 4 4) with
    | none => none
    | some (b, n) => if at' + 32 ≤ n then some (.inr (b + at')) else none

/-- The slice a record of an event ring is about (R384). -/
def recordSlice (b : List Byte) : Nat := if bytesAt b 0x0F 1 = 2 then bytesAt b 0x1C 4 else bytesAt b 8 4

/-- Signals an event ring. -/
def State.signalEvents (s : State) (part ring : Nat) : State :=
  let q := s.part part
  let r := nth q.eventRings ring {}
  (s.setPart part { q with eventRings := setNth q.eventRings ring { r with unsignalled := 0, stat := r.stat ||| 2 } }).signal
    (.msix part r.vec.toNat)

/-- R384, R385: a waiting record is written and EHEAD advances; ECOUNT records since the last signal signal EVEC; the slice of the last
record of a completion is freed. -/
def State.postCompletion (st : State) (k ring : Nat) : State :=
  let q := st.part k
  let r := nth q.eventRings ring {}
  match st.eventPlace k r with
  | none => st.setPart k { q with eventRings := setNth q.eventRings ring r.noteFull }
  | some a =>
    let b := r.waiting.headD []
    let s := match a with
      | .inl pa => st.homeWrite pa b
      | .inr ha => { st with hostMem := st.hostMem.writeN ha b }
    let n := r.unsignalled + 1
    let r := ({ r.posted with unsignalled := n, firstAt := if n = 1 then s.ns else r.firstAt } : RecRing).noteFull
    let s := s.setPart k { s.part k with eventRings := setNth (s.part k).eventRings ring r }
    let num := recordSlice b
    let s := if r.waiting.any fun x => recordSlice x == num then s else { s with slices := FMap.erase s.slices (sliceKey k num) }
    if max 1 r.count ≤ n then s.signalEvents k ring else s

/-- R384, R385. -/
def execEventRecordPost (part : Fin 16) (ring : Fin 16) (st : State) : Host.Outcome State Fault Refusal :=
  .next (st.postCompletion part.val ring.val)

/-- Posts what waits in the event rings of a partition, as far as it has a place (R341). -/
def State.postCompletions (s : State) (k : Nat) : State :=
  (List.range 16).foldl (fun (s : State) ring =>
    (List.range (nth (s.part k).eventRings ring {}).waiting.length).foldl (fun (s : State) _ => s.postCompletion k ring) s) s

/-- Whether ETIME has passed since the first record without a signal. -/
def State.etimeDue (s : State) (r : RecRing) : Bool := decide (0 < r.unsignalled) && r.time != 0 && decide (r.firstAt + r.time ≤ s.ns)

/-- R385. -/
def execEtimeExpiry (part : Fin 16) (ring : Fin 16) (st : State) : Host.Outcome State Fault Refusal :=
  .next (if st.etimeDue (nth (st.part part.val).eventRings ring.val {}) then st.signalEvents part.val ring.val else st)

/-- A record that can be posted, or a timer that has run out. -/
def State.postEvent (s : State) : Option Instr :=
  (List.range 16).findSome? fun k =>
    let q := s.part k
    if s.canPost k 64 q.faultRing || s.canPost k 64 q.errorLog then some (.faultRecordPost (Fin.ofNat 16 k))
    else
      (List.range 16).findSome? fun j =>
        let r := nth q.eventRings j {}
        if (s.eventPlace k r).isSome then some (.eventRecordPost (Fin.ofNat 16 k) (Fin.ofNat 16 j))
        else if s.etimeDue r then some (.etimeExpiry (Fin.ofNat 16 k) (Fin.ofNat 16 j)) else none

/-! ## Load data and write-backs -/

/-- R278: data of loads in flight reach their course. -/
def execLoadComplete (c : CourseRef) (st : State) : Host.Outcome State Fault Refusal := .next (st.completeLoads c)

/-- R246: dirty bytes of a line reach their home slice. -/
def execWriteBackPerformed (core line : Nat) (st : State) : Host.Outcome State Fault Refusal := .next (st.writeBack core line)

/-! ## Units that do not decode, and fetches that fail (R78, R96, R97) -/

/-- The step of R96 and its fault. -/
def decodeFault : DecStep → FCode × Nat
  | .opcode => (.illegalEnc, 1)
  | .value => (.illegalEnc, 2)
  | .operand => (.illegalEnc, 3)
  | .reserved => (.reservedField, 4)
  | .pair => (.pairAlign, 5)

/-- R96, R97: a decode fault is raised in every thread of the lift, and the unit has no effect. -/
def execUnallocatedEncoding (step : DecStep) (st : State) : Host.Outcome State Fault Refusal :=
  .next (st.deliver (st.issue.allRaise (decodeFault step).1 (decodeFault step).2))

/-- The fault of a fetch (R78, R343, R378, R381). -/
def fetchFCode : FetchCode → FCode
  | .xlate => .xlate
  | .prot => .prot
  | .linkLost => .linkLost
  | .ecc => .ecc

/-- R78: a fault on a word of the unit is raised at the unit's address in every thread of the lift, as a system fault. R358 gives the
fetch no faulting address. -/
def execFetchFault (code : FetchCode) (_addr : BitVec 64) (st : State) : Host.Outcome State Fault Refusal :=
  .next (st.deliver ((st.issue.allRaise (fetchFCode code) 0).map fun r => { r with system := true }))

end Sys2Proof.Machine
end

