-- ==== Sys2Proof/Machine/Device.lean ====
section
/-!
DEFINITION. What happens to the device as a whole: boot (R347, R388), power and temperature (R24), memory errors (R377 to R379), link
time (R256), flits (R354), and dies, ports, planes and devices that fail (R380 to R383).
-/

namespace Sys2Proof.Machine

/-! ## Boot (R347, R388) -/

/-- Loads, verifies and measures firmware stages from `j` on: the state it leads to (R347). -/
def State.bootStages (s : State) (j : Nat) : Nat → State
  | 0 => { s with boot := .reduced }
  | n + 1 =>
    if stageVerifies j then
      let m := nth s.measures j 0
      let m' := sha512 (digestBytes m ++ digestBytes (sha512 (Config.stageImage j)))
      ({ s with measures := setNth s.measures j m' } : State).bootStages (j + 1) n
    else { s with boot := .bootFail, failStage := j }

/-- R347: the boot ROM runs on a device at its reset values; memory keeps what it holds (log 5). Two stages: the management and the
scheduler firmware; then reduced service (R388). -/
def execReset (st : State) : Host.Outcome State Fault Refusal :=
  let s : State := { State.reset with
    agenda := st.agenda, issue := st.issue, freeCtr := st.freeCtr, signals := st.signals, mem := st.mem, hostMem := st.hostMem,
    poison := st.poison, l2Poison := st.l2Poison }
  .next (s.bootStages 0 2)

/-- R388: full service begins, only while no slice is running. The device's number and whether it lies in a domain come from the switch
it is attached to (log 24). A device that has stopped over its junction limit stays stopped (log 42). -/
def execFullServiceStart (st : State) : Host.Outcome State Fault Refusal :=
  let running := st.slices.any fun p => p.2.state == .running
  if st.boot == .reduced && !running then
    let v := Config.freeValue st.freeCtr
    .next ((List.range 16).foldl (fun s k => s.due (.teamPlacement (Fin.ofNat 16 k)))
      { st with boot := .full, clockMHz := 600, ports := 0x3FFFF, domain := v.getLsbD 63, devNumber := v.toNat % 288,
                uPs := (Config.freeValue (st.freeCtr + 1)).toNat, uAt := st.ns, linkAt := List.replicate 18 st.ns, linkDown := none,
                freeCtr := st.freeCtr + 2 })
  else .next st

/-! ## Power and temperature (R24) -/

/-- R24: the clock goes down by steps of 25 MHz, not below 300 MHz; where it can go no lower, issue stops and a thermal event is
posted: at 300 MHz and, which the manual does not say, at the 150 MHz of reduced service (log 42). How many steps one happening takes is
not fixed (log 11). Neither the clock nor the issue comes back but by RESET, and the clock by FULL_SERVICE_START: the manual names no
recovery (log 42). -/
def execPowerTemperatureLimit (st : State) : Host.Outcome State Fault Refusal :=
  if st.clockMHz ≤ 300 then .next { st with thermalStop := true, thermalEvents := st.thermalEvents + 1 }
  else
    let n := min (max 1 (Config.throttleSteps st.freeCtr).val) ((st.clockMHz - 300) / 25)
    .next { st with clockMHz := st.clockMHz - 25 * n, throttles := st.throttles + n, freeCtr := st.freeCtr + 1 }

/-! ## Memory errors (R377, R379) -/

/-- The key of a unit's corrected-error counter: source and unit number (R377). -/
def unitKey (source unit : Nat) : Nat := source * 1024 + unit

/-- Adds to a unit's counter of corrected errors (R377). -/
def State.countCorrected (s : State) (source unit n : Nat) : State :=
  if n = 0 then s else { s with corrected := FMap.set s.corrected (unitKey source unit) ((FMap.get s.corrected (unitKey source unit)).getD 0 + n) }

/-- Poisons a granule (R378), in an L2 slice or in its tower. -/
def State.poisonGranule (s : State) (g : Nat) (inL2 : Bool) : State :=
  { s with poison := addNew s.poison [g], l2Poison := if inL2 then addNew s.l2Poison [g] else s.l2Poison.filter fun k => k != g }

/-- Poisons a place of a course (R377, R378), and logs it for the team's partition: core SRAM, or the accumulator store. Such a store has
no physical address: base and length are 0 (log 49). -/
def State.poisonCourse (s : State) (r : CourseRef) (p : BadPlace) : State :=
  match FMap.get s.teams r.team with
  | none => s
  | some t =>
    match FMap.get t.courses r.course with
    | none => s
    | some x =>
      let there := match p with
        | .name n => nameCode x.names n != 0
        | .entry n => nameCode x.opf n != 0
        | .latch k => (nth x.latches k {}).valid
        | .tile k => decide (k < x.tiles.length)
      if x.suspended || !there then s
      else
        let s := s.onCourse r.team r.course fun x => { x with bad := if x.bad.contains p then x.bad else x.bad ++ [p] }
        let unit := match p with | .tile _ => (3, clusterOfCore t.core) | .name _ | .entry _ | .latch _ => (2, t.core)
        s.postError (fun k => k == t.part) unit.1 unit.2 0 0 0 0 0

/-- What an error that is not correctable does to the place it is met in (R377, R378). -/
def State.meetError (s : State) (p : ErrPlace) : State :=
  match p with
  | .l2 g => if physOk (32 * g) 32 then (s.poisonGranule g true).logError 1 (homeSlice (lineOf (32 * g))) (32 * g) 32 0 0 0 else s
  | .name c n => s.poisonCourse c (.name n.val)
  | .entry c n => s.poisonCourse c (.entry n.val)
  | .latch c k => s.poisonCourse c (.latch k.val)
  | .tile c k => s.poisonCourse c (.tile k.val)
  | .spad tk w =>
    match FMap.get s.teams tk with
    | none => s
    | some t => (s.setTeam tk { t with spadBad := addNew t.spadBad [w] }).postError (fun k => k == t.part) 2 t.core 0 0 0 0 0
  | .clm tk w =>
    match FMap.get s.teams tk with
    | none => s
    | some t =>
      if t.clmBytes ≤ 4 * w then s
      else
        -- the word lies on the core that its block's offset names (R16)
        (s.setTeam tk { t with clmBad := addNew t.clmBad [w] }).postError (fun k => k == t.part) 2 (clmCore (clusterOfCore t.core) (4 * w)) 0 0 0 0 0
  | .chip part g =>
    let q := s.part part.val
    (s.setPart part.val { q with chipBad := addNew q.chipBad [g] }).postError (fun k => k == part.val) 1 0 0 0 0 0 0
  | .version line stamp =>
    let vs := (FMap.get s.versions line).getD []
    if vs.any fun v => v.stamp == stamp then
      (s.setVersions line (vs.map fun v => if v.stamp = stamp then { v with bad := true } else v)).logError 1 (homeSlice line) (128 * line) 128 0 0 0
    else s
  | .l1Dirty core line off =>
    let c := s.core core
    let ln := c.line line
    if ln.dirty.contains off.val then
      (s.setCore core { c with l1 := FMap.set c.l1 line { ln with bad := addNew ln.bad [off.val] } }).logError 2 core
        (128 * line + off.val / 32 * 32) 32 0 0 0
    else s
  | .l1Clean core line =>
    let c := s.core core
    match FMap.get c.l1 line with
    | none => s
    | some ln => s.setCore core { c with l1 := FMap.set c.l1 line { ln with valid := ln.valid.filter fun q => ln.dirty.contains q.1 } }
  | .icache core line => let c := s.core core; s.setCore core { c with icache := FMap.erase c.icache line }
  | .fcache core line => let c := s.core core; s.setCore core { c with fcache := FMap.erase c.fcache line }
  | .tlb core k => let c := s.core core; s.setCore core { c with tlb := c.tlb.eraseIdx k }

/-- An error that the protection of a store reports while a tower is scrubbed (R377 to R379). -/
def State.softError (tower : Nat) (s : State) (x : SoftError) : State :=
  match x with
  | .granule g => if physOk (32 * g) 32 && towerOf (32 * g) == tower then (s.poisonGranule g false).logError 0 tower (32 * g) 32 0 0 0 else s
  | .corrected source unit => s.countCorrected source.val unit 1
  | .bad p => s.meetError p

/-- R377 to R379: the scrubber passes over a tower: corrected errors are counted, granules that cannot be corrected are poisoned and
logged. With it come the errors that the other stores have met since: the manual gives them no event of their own (log 49). -/
def execPatrolScrub (tower : Fin 12) (corrected : Nat) (bad : List SoftError) (st : State) : Host.Outcome State Fault Refusal :=
  .next (bad.foldl (State.softError tower.val) (st.countCorrected 0 tower.val corrected))

/-! ## Link time (R256) -/

/-- R256: a time message is exchanged on a port. U is computed anew from the round trip, by a rule that is not given (log 25); without
success it grows on (`State.uNow`). -/
def execLinkTimeExchange (port : Fin 18) (ok : Bool) (_roundTripPs : Nat) (st : State) : Host.Outcome State Fault Refusal :=
  let s := st.signal (.timeMessage port.val (BitVec.ofNat 64 st.ns))
  if st.domain && ok then .next { s with uPs := (Config.freeValue s.freeCtr).toNat, uAt := s.ns, freeCtr := s.freeCtr + 1 } else .next s

/-- R256: another device's time steers the package time toward the domain time; it moves forward by a part of the difference that is
not given (log 25). -/
def execLinkTimeMessage (_port : Fin 18) (stamp : BitVec 64) (st : State) : Host.Outcome State Fault Refusal :=
  .next { st with ns := st.ns + min (stamp.toNat - st.ns) (Config.freeChoice st.freeCtr), freeCtr := st.freeCtr + 1 }

/-! ## Flits (R354) -/

/-- A team no longer waits for a remote access: its threads, and what copies of their parents owe (R127, R252). -/
def Team.acknowledge (t : Team) (id dev : Nat) : Team :=
  { t.mapThreads fun x => { x with remote := x.remote.filter fun p => p != (id, dev) } with
    owed := t.owed.map fun o => (o.1, o.2.1, o.2.2.filter fun p => p != (id, dev)) }

/-- A remote access is acknowledged by its home (R252): in the resident teams, and in what is kept of the saved ones. -/
def State.acknowledge (s : State) (id dev : Nat) : State :=
  { s with
    teams := s.teams.map fun p => (p.1, p.2.acknowledge id dev)
    slices := s.slices.map fun p => (p.1, { p.2 with kept := p.2.kept.map fun k => (k.1, k.2.acknowledge id dev) }) }

/-- R354: a flit whose check fails is asked for again; one that is sound brings what it carries. -/
def execFlitReceived (port : Fin 18) (checkOk : Bool) (body : Option FlitBody) (st : State) : Host.Outcome State Fault Refusal :=
  if !checkOk then .next (st.signal (.flitRetry port.val))
  else
    match body with
    | none => .next st
    | some (.request r) => .next (st.due (.remoteAccessRequest r))
    | some (.contribution p c) => .next (st.due (.collectiveContribution p c))
    | some (.time t) => .next (st.due (.linkTimeMessage port t))
    | some (.peerWrite d pa b stamp) =>
      .next (
        if d.val = st.devNumber then st
        else match stamp with
          | some (dom, t) => st.showPiece dom t ⟨some d.val, pa, b⟩
          | none => st.remoteWrite d.val pa b)
    | some (.peerPoison d g) =>
      .next (
        if d.val = st.devNumber then st
        else
          let p := st.peer d.val
          { st with peers := FMap.set st.peers d.val { p with poison := addNew p.poison [g] } })
    | some (.ack id d) => .next (st.acknowledge id d.val)

/-! ## Ports and planes (R380) -/

/-- Ports fail: the number of working planes drops; with the last of them the time runs after which devices are unreachable (R380). -/
def State.failPorts (s : State) (mask : BitVec 18) : State :=
  let ports := s.ports &&& ~~~mask
  { s with ports := ports, linkDown := if ports == 0 && s.ports != 0 then some s.ns else s.linkDown }

/-- R380: a plane fails; accesses go by another. -/
def execLinkPlaneFailure (port : Fin 18) (st : State) : Host.Outcome State Fault Refusal := .next (st.failPorts (1#18 <<< port.val))

/-- The Benia Link ports of a die (R11): 5d to 5d + 4, and of die 3 15 to 17. -/
def linkPortsOf (die : Nat) : BitVec 18 := BitVec.ofNat 18 (31 * 2 ^ (5 * die))

/-- Whether a die-to-die port works. -/
def State.portWorks (s : State) (x y : Nat) : Bool :=
  x != y && !s.diePorts.contains (min x y, max x y) && (s.die x).alive && (s.die y).alive

/-- The dies that plinth 0 reaches over working ports, in at most `n` hops. -/
def State.reach (s : State) (from' : List Nat) : Nat → List Nat
  | 0 => from'
  | n + 1 => s.reach ((List.range 4).filter fun d => from'.contains d || from'.any fun x => s.portWorks x d) n

/-- R380: a die-to-die port fails; a die that plinth 0 reaches by no route is lost. -/
def execDiePortFailure (x y : Fin 4) (st : State) : Host.Outcome State Fault Refusal :=
  if x = y then .next st
  else
    let p := (min x.val y.val, max x.val y.val)
    let s := if st.diePorts.contains p then st else { st with diePorts := st.diePorts ++ [p] }
    let seen := s.reach [0] 4
    let lost := (List.range 4).filter fun d => (s.die d).alive && !seen.contains d
    .next (lost.foldl (fun s d => s.due (.dieLost (Fin.ofNat 4 d))) s)

/-! ## A die is lost (R381, R383) -/

/-- Whether the home of a page of 64 KiB can be reached (R381, R383): not one on a lost die, on a device that is unreachable, or behind a
table that lies there. A page without a translation counts as one that can: the restore itself meets the fault. -/
def State.pageReachable (s : State) (part va : Nat) : Bool :=
  match s.walk (va % 2 ^ 57) ((s.part part).cfg 0x08 8) 4 with
  | .error e => e != .linkLost
  | .ok (leaf, size) =>
    let pa := fld leaf 8 44 * 256 + va % 2 ^ 57 % size
    if fld leaf 7 1 = 0 then s.homeAlive pa 65536
    else
      s.homeAlive ((s.part part).cfg 0x38 8 + 8 * fld leaf 54 9) &&
        match s.windowWord part (fld leaf 54 9) with
        | some (d, _) => if d = s.devNumber then s.homeAlive pa 65536 else (s.peer d).reachable
        | none => true

/-- Whether every page of a range of a partition's addresses can be reached. -/
def State.areaAlive (s : State) (part va n : Nat) : Bool := (List.range (n / 65536)).all fun k => s.pageReachable part (va + 65536 * k)

/-- Bytes of a team's area (R320, R370). -/
def Slice.areaSize (x : Slice) (index : Nat) : Nat :=
  131072 + up64k x.scratch + up64k (x.imageClm index) + x.maxCourses * x.slotSize

/-- A team on a lost die counts as ended: it runs again or it is retired (R383). -/
def State.loseTeam (s : State) (tk : Nat) : State :=
  match FMap.get s.teams tk with
  | none => s
  | some t =>
    let key := sliceKey t.part t.slice
    let s := (s.releaseTeam tk).dropLines fun y => y.team == tk
    match FMap.get s.slices key with
    | none => s
    | some x =>
      if x.restart && s.areaAlive x.part (x.area t.index) (x.areaSize t.index) then
        s.setSlice key { x with relaunch := x.relaunch ++ [t.index], redispatched := satAdd x.redispatched 16,
                                kept := if x.hasImage.contains t.index then x.kept else FMap.erase x.kept t.index }
      else
        ((s.setSlice key { x with retired := x.retired ++ [t.index], streamLost := x.streamLost || t.lost }).checkGrid key).checkYield key

/-- Whether a partition's grants hold memory of a die (log 49). -/
def Partition.meetsDie (p : Partition) (d : Nat) : Bool :=
  let ranges := (List.range 64).map fun k => (p.cfg (0x180 + 16 * k) 8, p.cfg (0x188 + 16 * k) 8)
  (ranges.takeWhile fun r => r.2 != 0).any fun r =>
    decide (r.1 * 65536 < d * 2 ^ 39 + dieBytes) && decide (d * 2 ^ 39 < (r.1 + r.2) * 65536)

/-- R381: die d is lost, with its link ports: those that stand on it (R11), since no route leads to them. -/
def execDieLost (die : Fin 4) (st : State) : Host.Outcome State Fault Refusal :=
  let d := die.val
  if !(st.die d).alive then .next st
  else
    -- its last reports: with the stamps of its stores that have not reached their homes (R260, R382)
    let report (dom : StampDom) : Nat := st.dieReport d (st.die d).e dom
    let s := st.setDie d
      { st.die d with alive := false, lostAt := st.ns, lastPackage := report .package, lastDomain := report .domain }
    let here (core : Nat) : Bool := dieOfCore core == d
    let s := { s with stores := s.stores.filter fun (x : StampedStore) => !(x.source.isNone && x.die == d && !x.held) }
    let ids := s.stores.map fun x => x.id
    let gone := (st.stores.filter fun (x : StampedStore) => !ids.contains x.id).map fun x => x.id
    let s := (s.dropStamps gone).failPorts (linkPortsOf d)
    let lost := (s.teams.filter fun (p : Nat × Team) => here p.2.core).map Prod.fst
    let s := lost.foldl (fun s k => s.loseTeam k) s
    let s := { s with cores := s.cores.filter fun p => !here p.1, clusters := s.clusters.filter fun p => !here (4 * p.1) }
    .next (s.postError (fun k => (s.part k).enabled && (s.part k).meetsDie d) 4 d (d * 2 ^ 39) dieBytes 0 0 0)

/-- R381: after 1 ms without reports a lost die leaves the die set. -/
def execDieSetExit (die : Fin 4) (st : State) : Host.Outcome State Fault Refusal :=
  let x := st.die die.val
  if !x.alive && x.inSet && decide (x.lostAt + 1000000 ≤ st.ns) then .next (st.setDie die.val { x with inSet := false }) else .next st

/-! ## A device becomes unreachable (R381) -/

/-- R381: it leaves the domain's die sets, its domain-window entries read as not valid, and a record of source 5 is posted to the
partitions whose windows name it. What it has not acknowledged cannot arrive any more (R382); what has waited for its plane goes on (R380). -/
def execDeviceUnreachable (dev : Fin 512) (st : State) : Host.Outcome State Fault Refusal :=
  let d := dev.val
  let named := (List.range 16).filter fun k => (st.part k).enabled && (List.range 512).any fun i => (st.windowEntry k i).map Prod.fst == some d
  let lateAck (e : Instr) : Bool := match e with | .flitReceived _ _ (some (.ack _ k)) => k == dev | _ => false
  let s := { st with peers := FMap.set st.peers d { st.peer d with reachable := false }, agenda := st.agenda.filter fun e => !lateAck e }
  let (s, e, _) := s.readClock 0
  let rec' (k : Nat) : List Byte := errorRecord 5 k d 0 0 0 0 0 e
  let s := named.foldl (fun s k =>
    let q := s.part k
    (s.setPart k { q with errorLog := q.errorLog.addError (rec' k) }).due (.faultRecordPost (Fin.ofNat 16 k))) s
  .next { s with errorLog := s.errorLog.addError (rec' 0), agenda := s.agenda ++ s.linkWaits, linkWaits := [] }

end Sys2Proof.Machine
end

