-- ==== Sys2Proof/Machine/Sched.lean ====
section
/-!
DEFINITION. The slice scheduler: saving and restoring teams (R368 to R374), placing teams and gangs (R322, R323, R326, R327), budgets
(R324), and the timers of waiting threads (R47, R124, R136, R294, R335).
-/

namespace Sys2Proof.Machine

/-! ## Team images (R370) -/

/-- State of a course in the course table. -/
def courseState (c : Course) : Nat := if c.suspended then 3 else 2

/-- An entry of the course table. -/
def tableEntry (c : Option Course) : List Byte :=
  match c with
  | none => leBytes 8 0 ++ leBytes 8 0
  | some c => leBytes 8 (courseState c) ++ (match lowKey c.keys with | some k => leBytes 4 k.1.toNat ++ leBytes 4 k.2.length | none => leBytes 8 0)

/-- The bytes of the team image below 0x10000; what is reserved is written as 0 (R370). -/
def Team.header (t : Team) (x : Slice) : List Byte :=
  let atRepack (c : Course) : Bool := c.threads.any fun p => (repackKey p.2).isSome
  let yields := (t.courses.map fun p => (p.2.threads.filter fun q => match q.2.wait with | .yield _ => true | _ => false).length).foldl (· + ·) 0
  let n := x.maxCourses
  let head :=
    leBytes 8 1 ++ leBytes 4 t.index ++ leBytes 4 x.num ++ leBytes 8 (n % 2 ^ 16 + t.allot % 2 ^ 16 * 2 ^ 16 + t.ceiling % 2 ^ 11 * 2 ^ 32) ++
    leBytes 8 t.trapbase.toNat ++ leBytes 8 (t.spawns % 2 ^ 32) ++ leBytes 4 ((t.courses.filter fun p => atRepack p.2).length % 64) ++ leBytes 4 yields
  let bar (b : Barrier) : List Byte := leBytes 4 b.phase.toNat ++ leBytes 4 b.arrived ++ leBytes 4 b.exp ++ leBytes 4 0
  let ring (r : Ring) : List Byte := padTo 32 (leBytes 4 r.wordA.toNat ++ leBytes 4 r.wordB.toNat ++ leBytes 4 r.claim ++ leBytes 4 r.take)
  let bin (b : Bin) : List Byte := leBytes 8 b.entry.toNat ++ leBytes 8 b.tasks.length ++ leBytes 8 b.timer ++ leBytes 8 0
  let emit (e : Emission) : List Byte := padTo 64 (keyBytes e.root e.ords ++ leBytes 8 e.value.toNat ++ leBytes 8 e.order)
  padTo 0x10000 (padTo 0x100 head ++ (t.barriers.flatMap bar) ++ (t.rings.flatMap ring) ++ padTo 0x500 (t.bins.flatMap bin) ++
  (t.bins.flatMap fun b => padTo 2048 (b.tasks.flatMap Task.bytes)) ++ padTo 16384 (t.emits.flatMap emit) ++
  ((List.range n).flatMap fun c => tableEntry (FMap.get t.courses c)))

/-- Where the cluster memory of a gang or a team is saved: the image of its lowest-indexed team (R370). -/
def Slice.clmImage (x : Slice) (index : Nat) : Nat :=
  let first := if x.gang = 0 then index else index / x.gang * x.gang
  x.image first + 65536 + up64k x.scratch

/-! ## Saving a team (R368) -/

/-- The teams of a gang that holds a team, by index; alone without a gang (R326). -/
def Slice.gangOf (x : Slice) (index : Nat) : List Nat :=
  if x.gang = 0 then [index] else ((List.range x.gang).map fun k => index / x.gang * x.gang + k).filter fun k => decide (k < x.gridTeams)

/-- Whether a team can be saved now: no claimed fill of its rings, or of its gang's in the cluster memory it saves, is under way
(R313), and no access is held. -/
def State.canSave (s : State) (tk : Nat) : Bool :=
  match FMap.get s.teams tk with
  | none => false
  | some t =>
    t.held.isEmpty && !t.saving && !t.restoring && !(t.rings.any fun r => r.filling) &&
      (t.clmOwner != tk || !s.teams.any fun p => p.2.clmOwner == tk && p.2.rings.any fun r => r.filling)

/-- The deadlines of a team whose live threads all wait at a yield. -/
def Team.allYield (t : Team) : Option (List W64) :=
  let ts := t.courses.flatMap fun p => p.2.threads.map Prod.snd
  let ds := ts.filterMap fun q => match q.wait with | .yield d => some d | _ => none
  if ts.isEmpty || ds.length != ts.length then none else some ds

/-- What the device itself keeps of a course that is saved: its threads' waits, what they have outstanding, and its log. -/
def Course.outline (c : Course) : Course := { threads := c.threads, log := c.log, suspended := c.suspended, bad := c.bad }

/-- Writes every slot's header from the ring's own state, which a program's write there has not changed (R304). -/
def State.writeHeaders (s : State) (tk : Nat) : State :=
  (List.range 8).foldl (fun s k =>
    match FMap.get s.teams tk with
    | none => s
    | some t => (List.range (t.ring k).slots.length).foldl (fun s i => s.setSlot tk k i (nth (t.ring k).slots i {}) id) s) s

/-- The save is complete: the team is unplaced, its resources pass on (R368 step 7). -/
def State.completeSave (s : State) (tk : Nat) : State :=
  match FMap.get s.teams tk with
  | none => s
  | some t =>
    let key := sliceKey t.part t.slice
    let mine (id : Nat) : List ThreadRef :=
      t.courses.flatMap fun p => (p.2.threads.filter fun q => q.2.stamps.contains id).map fun q => ⟨tk, p.1, q.1⟩
    let s := { s with stores := s.stores.map fun (x : StampedStore) => { x with who := x.who.filter (fun (r : ThreadRef) => r.team != tk) ++ mine x.id } }
    let s := match FMap.get s.slices key with
      | none => s
      | some x => s.setSlice key { x with
          savedTeams := insertBy (fun a b => decide (a ≤ b)) t.index (x.savedTeams.filter fun k => k != t.index)
          hasImage := if x.hasImage.contains t.index then x.hasImage else x.hasImage ++ [t.index]
          kept := FMap.set x.kept t.index
            { t with courses := t.courses.map fun (p : Nat × Course) => (p.1, p.2.outline), spad := [], clm := [], saveDue := false, evicted := false, saving := false }
          -- the yields of a period that has ended are not the next one's (R135)
          savedYields := if x.yielded.contains t.index then x.savedYields
            else match t.allYield with | some ds => x.savedYields ++ [(t.index, ds)] | none => x.savedYields }
    let s := s.releaseTeam tk
    s.checkYield key

/-- Saves a team whole (R368, steps 1 to 7). -/
def State.saveTeam (s : State) (tk : Nat) : State :=
  match FMap.get s.teams tk, (FMap.get s.teams tk).bind fun t => FMap.get s.slices (sliceKey t.part t.slice) with
  | some t, some x =>
    let cl := clusterOfCore t.core
    let residents := t.residents.map Prod.fst
    let s := residents.foldl (fun s c => s.saveHolds tk c (t.course c).live) s
    let s := s.dropHolds tk (residents.flatMap fun c => (t.course c).live.map fun l => (c, l))
    let s := residents.foldl (fun s c => s.flushWork cl ⟨tk, c⟩) s
    let s := residents.foldl (fun s c => s.completeLoads ⟨tk, c⟩) s
    let s := residents.foldl (fun s c => s.tileErrors tk c) s
    let s := s.performAll t
    -- a team that restarts from its last save has it whole (R383), and so has every one that no pre-emption saves (R376, R387, R390)
    let keep := t.evicted && !x.restart
    let s := if keep then s else s.writeLines fun _ y => y.team == tk
    let s := residents.foldl (fun s c => s.writeCourse tk c keep) s
    let s := s.writeHeaders tk
    match FMap.get s.teams tk with
    | none => s
    | some t =>
      let s := s.teamWrite tk (x.image t.index) (t.header x)
      let s := s.teamWrite tk (x.image t.index + 65536) (t.spad.readN 0 x.scratch)
      let s := if t.clmOwner = tk && t.clmBytes != 0 then s.teamWrite tk (x.clmImage t.index) (t.clm.readN 0 t.clmBytes) else s
      match FMap.get s.teams tk with
      | none => s
      | some t => if t.held.isEmpty then s.completeSave tk else s.setTeam tk { t with saving := true }
  | _, _ => s

/-- R368: a team is saved, at once or when claimed fills of its rings have completed. -/
def execTeamSave (tk : Nat) (st : State) : Host.Outcome State Fault Refusal :=
  .next (if st.canSave tk then st.saveTeam tk
    else { st with teams := FMap.modify st.teams tk fun t => { t with saveDue := true } })

/-- Marks teams for saving, for a pre-emption or not. -/
def State.saveAll (s : State) (ks : List Nat) (evict : Bool) : State :=
  ks.foldl (fun s k => { s with teams := FMap.modify s.teams k fun t => { t with saveDue := true, evicted := t.evicted || evict } }.due (.teamSave k)) s

/-- The resident teams of a slice. -/
def State.teamsOf (s : State) (key : Nat) : List (Nat × Team) := s.teams.filter fun p => sliceKey p.2.part p.2.slice == key

/-! ## Budgets (R324) -/

/-- Stops a slice: its teams are saved, and a record of kind 3 is posted. -/
def State.stopSlice (s : State) (key : Nat) (code : FCode) (index : Nat) (a : W64) : State :=
  let s := s.writeLines fun _ y => y.team / 2 ^ 24 == key
  match FMap.get s.slices key with
  | none => s
  | some x =>
    let s := s.setSlice key { x with state := .stopped }
    let (s, _) := s.record x.part (.slice key) { code := code, kind := 3, slice := x.num, team := index, faultAddr := a }
    s.saveAll ((s.teamsOf key).map Prod.fst) false

/-- R324: consumed has reached BUDGET. -/
def execBudget (key : Nat) (st : State) : Host.Outcome State Fault Refusal :=
  match FMap.get st.slices key with
  | some x => .next (if x.state == .running && x.budget != 0 && decide (x.budget ≤ x.consumed) then st.stopSlice key .budget 0 0 else st)
  | none => .next st

/-! ## Launch and restore -/

/-- A thread of a suspended course, as it stands now, goes to the course image (R372). -/
def State.rewriteThread (s : State) (tk c l : Nat) : State :=
  match FMap.get s.teams tk, (FMap.get s.teams tk).bind fun t => s.sliceOf t with
  | some t, some x =>
    match FMap.get (t.course c).threads l with
    | some th =>
      if !(t.course c).suspended then s
      else
        let base := x.courseImage t.index c
        (s.teamWrite tk (base + 0x100 + 256 * l) ((t.course c).threadBytes t.stackK th)).teamWrite tk (base + 0x4B00 + 1024 * l + 8) th.regBytes
    | none => s
  | _, _ => s

/-- The threads of a course that wait at a yield continue at the next unit (R135). -/
def State.leaveYield (s : State) (tk c : Nat) : State :=
  let waits (t : Thread) : Bool := match t.wait with | .yield _ => true | _ => false
  let ls : List Nat := match (FMap.get s.teams tk).bind fun t => FMap.get t.courses c with
    | some x => (x.threads.filter fun (p : Nat × Thread) => waits p.2).map Prod.fst
    | none => []
  let s := s.onCourse tk c fun x => x.leaveAll s.cycle waits
  let s := ls.foldl (fun (s : State) l => s.rewriteThread tk c l) s
  { s with issue := { s.issue with retired := s.issue.retired ++ ls.map fun l => (tk, c, l) } }

/-- A launched course (R27). -/
def launchCourse (x : Slice) (team k now : Nat) : Course :=
  let n := min 32 (x.teamThreads - 32 * k)
  let u (v : Nat) : NameVal := .uni (BitVec.ofNat 32 v)
  { threads := (List.range n).map fun l =>
      (l, { pc := BitVec.ofNat 64 (x.fieldAt 0 8), root := BitVec.ofNat 32 (32 * k + l), readySince := now })
    names := ((List.range 8).map fun j => u (x.fieldAt (8 + 4 * j) 4)) ++
      [.aff (BitVec.ofNat 32 (32 * k)) 1 false, u team, .aff (BitVec.ofNat 32 (team * x.teamThreads + 32 * k)) 1 false] ++ List.replicate 53 .free }

/-- A team as placement makes it. -/
def newTeam (s : State) (x : Slice) (index core owner clmBytes : Nat) : Team :=
  { part := x.part, slice := x.num, index := index, core := core, placed := s.placements, since := s.cycle, allot := x.allot,
    ceiling := x.ceiling, stackK := x.stackK, trapbase := BitVec.ofNat 64 (x.fieldAt 0x60 8) &&& ~~~3#64, clmOwner := owner, clmBytes := clmBytes }

/-- Reads a ring back: its slots from their headers (R304, R369). -/
def restoreRing (b : List Byte) (slotBytes : Ring → List Byte) : Ring :=
  let r : Ring := { wordA := BitVec.ofNat 32 (bytesAt b 0 4), wordB := BitVec.ofNat 32 (bytesAt b 4 4), claim := bytesAt b 8 4, take := bytesAt b 12 4 }
  let n := r.wordB.toNat % 256
  let hs := slotBytes r
  let slots := (List.range n).map fun i =>
    let h := bytesAt hs (8 * i) 8
    ({ state := h / 2 ^ 62, target := fld h 32 30, arrived := h % 2 ^ 30 } : Slot)
  let taken := (slots.filter fun x => x.state == 3).length
  { r with slots := slots, give := if n = 0 then 0 else (r.take + n - taken) % n }

/-- The team fields an image holds; `spad` and `clm` are its scratchpad and cluster memory, read back. -/
def Team.ofImage (t : Team) (b : List Byte) (spad clm : Bytes) : Team :=
  let bar (k : Nat) : Barrier :=
    let o := 0x100 + 16 * k
    { phase := BitVec.ofNat 32 (bytesAt b o 4), arrived := bytesAt b (o + 4) 4, exp := bytesAt b (o + 8) 4 }
  let headers (r : Ring) : List Byte :=
    let o := r.offset + r.wordB.toNat % 256 * r.slotBytes
    (match r.level with | .clm => clm | _ => spad).readN o (8 * (r.wordB.toNat % 256))
  let bin (k : Nat) : Bin :=
    let o := 0x300 + 32 * k
    let n := min (bytesAt b (o + 8) 8) 32
    { entry := BitVec.ofNat 64 (bytesAt b o 8), timer := bytesAt b (o + 16) 8,
      tasks := (List.range n).map fun j => readTask ((b.drop (0x800 + 2048 * k + 64 * j)).take 64) }
  let emit (k : Nat) : Option Emission :=
    let e := (b.drop (0x4800 + 64 * k)).take 64
    let key := keyOf (e.take 40)
    if bytesAt e 48 8 = 0 then none else some ⟨key.1, key.2, BitVec.ofNat 64 (bytesAt e 40 8), bytesAt e 48 8, []⟩
  let emits := (List.range 256).filterMap emit
  { t with
    trapbase := BitVec.ofNat 64 (bytesAt b 0x18 8), spawns := bytesAt b 0x20 4, barriers := (List.range 16).map bar,
    rings := (List.range 8).map fun k => restoreRing ((b.drop (0x200 + 32 * k)).take 32) headers,
    bins := (List.range 8).map bin, emits := emits,
    emitOrder := (emits.map fun e => e.order + 1).foldl max t.emitOrder, spad := spad, clm := clm }

/-- A team without a halted thread is not frozen (R376). -/
def Team.thaw (t : Team) : Team := { t with frozen := t.frozen && t.courses.any fun q => q.2.threads.any fun p => p.2.halted }

/-- What the device kept of a saved team, beside its image: slots in use, the stream, the arrival of tasks, and what is outstanding. -/
def Team.withKept (t k : Team) : Team :=
  let bin (p : Bin × Nat) : Bin :=
    let old := (nth k.bins p.2 {}).tasks
    { p.1 with tasks := p.1.tasks.zipIdx.map fun q => { q.1 with order := (nth old q.2 { entry := 0, args := [] }).order } }
  let emit (e : Emission) : Emission :=
    { e with stamps := match k.emits.find? fun o => o.order == e.order with | some o => o.stamps | none => [] }
  { t with
    records := k.records, owed := k.owed, overflow := k.overflow, committed := k.committed, lost := k.lost, taskOrder := k.taskOrder,
    frozen := k.frozen, spadBad := k.spadBad, clmBad := k.clmBad, bins := t.bins.zipIdx.map bin, emits := t.emits.map emit }

/-- What the device keeps of a saved team; of one moved here from another device, read from the deferral area, the overflow area and
the stream (R390; log 22). Nothing where such a read is held (R395). -/
def State.keptOf (s : State) (tk : Nat) (x : Slice) (t : Team) : State × Option Team :=
  match (FMap.get x.kept t.index).filter fun k => !k.moved with
  | some k => (s, some (t.withKept k))
  | none =>
    let d := x.fieldAt 0x54 2
    let e := x.fieldAt 0x56 2
    match s.recordKeys tk (List.range d) with
    | (s, none) => (s, none)
    | (s, some recs) =>
      match s.teamRead tk (x.overflowSlot t.index 0) (64 * 1023) with
      | (s, none) => (s, none)
      | (s, some area) =>
        match s.teamRead tk (x.fieldAt 0x70 8 + t.index * 8 * (e + 1)) 8 with
        | (s, none) => (s, none)
        | (s, some w) =>
          -- a freed record keeps its bytes, so nothing that moves says which records are in use
          let used := (recs.filter fun r => r.2.inRange && Config.freeChoice (s.freeCtr + r.1) % 2 == 1).map Prod.fst
          let slots := ((List.range 1023).filter fun k => bytesAt area (64 * k) 8 != 0).zipIdx
          ({ s with freeCtr := s.freeCtr + d },
            some { t with records := used, overflow := slots, taskOrder := slots.length, committed := leNat w % 2 ^ 63,
                          lost := leNat w / 2 ^ 63 == 1 })

/-- After a restore: pending stamped stores are the threads' own again, those that wait at a yield whose period has ended go on, logged
accesses whose replay was asked for are performed (R135, R290, R365). -/
def State.afterRestore (s : State) (tk c : Nat) (yieldOver : Bool) : State :=
  let ids (l : Nat) : List Nat := (s.stores.filter fun x => x.who.contains ⟨tk, c, l⟩).map fun x => x.id
  let s := s.onCourse tk c fun x => { x with threads := x.threads.map fun p => (p.1, { p.2 with stamps := ids p.1 }) }
  let s := if yieldOver then s.leaveYield tk c else s
  -- those of a suspended course wait until it is resident again
  let entries := match (FMap.get s.teams tk).bind fun t => FMap.get t.courses c with | some x => if x.suspended then [] else x.log | none => []
  ((List.range 8).filter fun e => match nth entries e none with | some y => y.replay | none => false).foldl (fun s e => s.replayEntry tk c e) s

/-- The accesses to a saved team's image that are held (R395) are the placed team's. -/
def State.takeHeld (s : State) (tk : Nat) (t : Team) (x : Slice) : Option State :=
  match FMap.get x.kept t.index with
  | none => none
  | some k =>
    if k.held.isEmpty then none
    else
      some ((s.setTeam tk { t with held := k.held, stopped := true }).setSlice (sliceKey t.part t.slice)
        { x with kept := FMap.set x.kept t.index { k with held := [] } })

/-- Reads a team's image back (R369), but for accesses to it that are held. -/
def State.readImage (s : State) (tk : Nat) : State :=
  match FMap.get s.teams tk, (FMap.get s.teams tk).bind fun t => FMap.get s.slices (sliceKey t.part t.slice) with
  | some t, some x =>
    let key := sliceKey t.part t.slice
    let n := x.maxCourses
    -- lines that it left in another core are written back first (R67)
    let s := s.writeLines fun core y => y.team == tk && core != t.core
    match s.teamRead tk (x.image t.index) (0x8800 + 16 * n) with
    | (s, none) => s
    | (s, some b) =>
      if bytesAt b 0 8 ≠ 1 ∨ bytesAt b 8 3 ≠ t.index ∨ bytesAt b 12 4 ≠ x.num then
        -- nothing is restored: the team is unplaced again, and the slice stops (R369)
        let s := { s with teams := FMap.erase s.teams tk }
        let s := match FMap.get s.slices key with
          | some x => s.setSlice key { x with savedTeams := insertBy (fun a b => decide (a ≤ b)) t.index x.savedTeams }
          | none => s
        s.stopSlice key .prot t.index (BitVec.ofNat 64 (x.image t.index))
      else
        match s.teamRead tk (x.image t.index + 65536) x.scratch with
        | (s, none) => s
        | (s, some sp) =>
          match (if t.clmOwner = tk && t.clmBytes != 0 then s.teamRead tk (x.clmImage t.index) t.clmBytes else (s, some [])) with
          | (s, none) => s
          | (s, some cm) =>
            let clm : Bytes := Bytes.writeN [] 0 cm
            let clmSeen := if t.clmOwner = tk then clm else match FMap.get s.teams t.clmOwner with | some o => o.clm | none => []
            match s.keptOf tk x (t.ofImage b (Bytes.writeN [] 0 sp) clmSeen) with
            | (s, none) => s
            | (s, some t') =>
              let s := s.setTeam tk { t' with clm := if t.clmOwner = tk then clm else [], courses := [] }
              let done := x.yielded.contains t.index
              let old (c : Nat) : Course := match FMap.get x.kept t.index with | some k => k.course c | none => {}
              let load (s : State) (c : Nat) : State :=
                match bytesAt b (0x8800 + 16 * c) 1 % 4 with
                | 2 => (s.loadCourse tk c (old c)).afterRestore tk c done
                | 3 =>
                  match s.teamRead tk (x.courseImage t.index c) x.slotSize with
                  | (s, none) => s
                  | (s, some cb) =>
                    match FMap.get s.teams tk with
                    | none => s
                    | some t =>
                      let new := { readCourse cb (old c) (s.core t.core).latchGen s.cycle with suspended := true }
                      (s.setTeam tk (t.setCourse c new)).afterRestore tk c done
                | _ => s
              let s := (List.range n).foldl load s
              match FMap.get s.teams tk with
              | none => s
              | some t =>
                if !t.held.isEmpty then s
                else
                  -- the image may have been edited: HALT cleared in every thread (R375)
                  let s := (s.setTeam tk { t with restoring := false }.thaw).dropLines fun y => y.team == tk && !(t.course y.course).suspended
                  let s := match FMap.get s.slices key with
                    | some x => s.setSlice key { x with yielded := x.yielded.filter fun k => k != t.index }
                    | none => s
                  s.settle tk
  | _, _ => s

/-- A saved team image is read back (R369). An access that is held leaves the team restoring. -/
def State.restoreTeam (s : State) (tk : Nat) : State :=
  match (FMap.get s.teams tk).bind fun t => (s.sliceOf t).bind fun x => s.takeHeld tk t x with
  | some s => s
  | none => s.readImage tk

/-- A held restore begins again: what it had loaded is dropped first. -/
def State.restoreAgain (s : State) (tk : Nat) : State :=
  match FMap.get s.teams tk with
  | none => s
  | some t =>
    let cl := clusterOfCore t.core
    let tiles := (t.courses.map fun p => if p.2.suspended || p.2.awaitTiles then 0 else p.2.tiles.length).foldl (· + ·) 0
    let s := (FMap.keys t.courses).foldl (fun s c => s.leaveEngine cl ⟨tk, c⟩) s
    (({ s with teams := FMap.modify s.teams tk fun t => { t with courses := [], held := [], stopped := false } }).freeTiles cl tiles).restoreTeam tk

/-! ## Room (R15, R16, R326, R327, R340) -/

/-- What a set of resident teams takes of a core: course slots, register lines, scratchpad bytes. -/
structure Load where
  slots : Nat := 0
  lines : Nat := 0
  bytes : Nat := 0

/-- The register-store lines a team of a slice reserves (R326). -/
def State.linesOf' (s : State) (x : Slice) : Nat := if x.rsquota = 0 then (s.part x.part).cfg 0x14 4 else x.rsquota

/-- A core's share of a cluster-memory allocation (R16). -/
def clmShare (bytes : Nat) : Nat := (bytes + 511) / 512 * 512 / 4

/-- What the teams of some partitions take of a core: each as it was placed (R339). -/
def State.coreLoad (s : State) (core : Nat) (pick : Nat → Bool) : Load :=
  s.teams.foldl (fun (acc : Load) p =>
    if !pick p.2.part then acc
    else
      let here := p.2.core == core
      let near := clusterOfCore p.2.core == clusterOfCore core
      let x := FMap.get s.slices (sliceKey p.2.part p.2.slice)
      { slots := acc.slots + if here then p.2.allot else 0
        lines := acc.lines + if here then (match x with | some x => (s.under p.2).linesOf' x | none => 0) else 0
        bytes := acc.bytes + (if here then (match x with | some x => x.scratch | none => 0) else 0) + (if near then clmShare p.2.clmBytes else 0) }) {}

/-- Granules of the register store and the scratchpad that a load needs (R15). -/
def carveOf (w : Load) : Nat × Nat := (max 4 ((w.lines + 511) / 512), (w.bytes + 65535) / 65536)

/-- Whether a core takes a further load of a partition: its quotas, the core's slots, and a carve that holds it. -/
def State.roomFor (s : State) (part core : Nat) (w : Load) : Bool :=
  let q := s.part part
  let mine := s.coreLoad core fun k => k == part
  let all := s.coreLoad core fun _ => true
  let carve := carveOf { slots := 0, lines := all.lines + w.lines, bytes := all.bytes + w.bytes }
  decide (mine.slots + w.slots ≤ q.cfg 0x10 4) && decide (all.slots + w.slots ≤ 64) && decide (mine.lines + w.lines ≤ q.cfg 0x14 4) &&
    decide (mine.bytes + w.bytes ≤ q.cfg 0x18 4) && decide (carve.1 + carve.2 ≤ 30)

/-- Whether a partition may use a core now (R339, R381, R388). -/
def State.coreOk (s : State) (part core : Nat) : Bool :=
  decide (core < 768) && fld ((s.part part).cfg 0x100 96) core 1 == 1 && (s.die (dieOfCore core)).alive &&
    (s.boot == .full || (s.boot == .reduced && decide (core < 192)))

/-- Whether a partition's cluster memory quota takes an allocation (R16, R340). -/
def State.clmRoom (s : State) (part cluster bytes : Nat) : Bool :=
  let used := (s.teams.filter fun p => p.2.part == part && clusterOfCore p.2.core == cluster).map fun p => p.2.clmBytes
  bytes = 0 || decide (used.foldl (· + ·) 0 + bytes ≤ (s.part part).cfg 0x1C 4 * 1024)

/-- The load a team adds on its own core. -/
def State.teamLoad (s : State) (x : Slice) : Load := { slots := x.allot, lines := s.linesOf' x, bytes := x.scratch }

/-- Whether a team of a slice fits one core, beside a share of cluster memory. -/
def State.fitsCore (s : State) (x : Slice) (share core : Nat) : Bool :=
  let w := s.teamLoad x
  s.coreOk x.part core && s.roomFor x.part core { w with bytes := w.bytes + share }

/-- Whether teams of a slice fit, one on each of some cores of one cluster, with the cluster memory they are granted together, in bytes. -/
def State.fits (s : State) (x : Slice) (cores : List Nat) (clm : Nat) : Bool :=
  match cores with
  | [] => false
  | c :: _ =>
    let cl := clusterOfCore c
    let share := clmShare clm
    s.clmRoom x.part cl clm && cores.all (s.fitsCore x share) &&
      (share = 0 || (List.range 4).all fun k => cores.contains (4 * cl + k) || s.roomFor x.part (4 * cl + k) { bytes := share })

/-- A team holds no more lines than its quota: its least recently used go (R66, R319). -/
def State.fitTeam (s : State) (tk : Nat) : State :=
  match FMap.get s.teams tk, (FMap.get s.teams tk).bind fun t => s.sliceOf t with
  | some t, some x =>
    (List.range (t.linesHere - (s.under t).linesOf' x)).foldl (fun s _ =>
      match oldestLine (s.teams.filter fun p => p.1 == tk) with | some r => s.evictLine r | none => s) s
  | _, _ => s

/-- A core's register store holds no more lines than its carve has room for (R66, R327); the team for which room is made comes first. -/
def State.fitCore (s : State) (core part tk : Nat) : State :=
  let n := ((s.teams.filter fun p => p.2.core == core).map fun p => p.2.linesHere).foldl (· + ·) (s.core core).left.length
  (List.range (n - 512 * (s.core core).carve.1)).foldl (fun s _ => s.makeLine core part tk) s

/-- The register stores of all cores after a unit or an event: victims have made room for the lines it needed (R66). -/
def State.fitStores (s : State) : State :=
  let s := s.teams.foldl (fun s p => s.fitTeam p.1) s
  let s := s.teams.foldl (fun s p => s.fitCore p.2.core p.2.part p.1) s
  (s.cores.filter fun p => !p.2.left.isEmpty).foldl (fun s p => s.fitCore p.1 16 0) s

/-- Changes a core's carve so that it holds its teams (R327): the smallest register store and scratchpad, the rest for the L1. When that
shrinks, the dirty bytes of the lines in leaving granules are written back and the lines invalidated; which lines those are is not given
(log 11). The lines for which a smaller register store has no room are written to their course images by the order of R66. -/
def State.fitCarve (s : State) (core : Nat) : State :=
  let need := carveOf (s.coreLoad core fun _ => true)
  let (rs, sp, l1) := (s.core core).carve
  if need.1 ≤ rs ∧ need.2 ≤ sp then s
  else
    let new := 32 - need.1 - need.2
    let lines := FMap.keys (s.core core).l1
    let leaving := if new < l1 then (lines.zipIdx.filter fun p => Config.freeChoice (s.freeCtr + p.2) % 2 == 1).map Prod.fst else []
    let s := if new < l1 then { s with freeCtr := s.freeCtr + lines.length } else s
    let s := leaving.foldl (fun s line => s.writeBack core line) s
    let c := s.core core
    (s.setCore core { c with carve := (need.1, need.2, new), l1 := c.l1.filter fun p => !leaving.contains p.1 }).fitCore core 16 0

/-! ## Placement (R322, R323, R326) -/

/-- The order of R322. -/
def Slice.rank (x : Slice) : Nat × Nat × Nat := (if x.deadline = 0 then 2 ^ 64 - 1 else x.deadline.toNat, x.cls, x.num)
/-- Lexicographic order. -/
def rankLt (a b : Nat × Nat × Nat) : Bool :=
  decide (a.1 < b.1) || (a.1 == b.1 && (decide (a.2.1 < b.2.1) || (a.2.1 == b.2.1 && decide (a.2.2 < b.2.2))))

/-- Whether the device does not know yet if a moved team has an image: its read is held (R390, R395). -/
def Slice.unknown (x : Slice) (k : Nat) : Bool := (FMap.get x.kept k).any fun t => t.moved && t.held.any fun h => h.bytes.isEmpty

/-- The lowest unplaced team of a slice; one of which the device does not know whether it was saved waits. -/
def Slice.nextUnplaced (x : Slice) : Option Nat :=
  let fresh := ((List.range (x.kept.length + 1)).map fun j => x.nextTeam + j).find? fun k => !x.unknown k
  let new := fresh.toList.filter fun k => decide (k < x.gridTeams)
  ((x.savedTeams.filter fun k => !x.unknown k) ++ x.relaunch ++ new).foldl (fun (acc : Option Nat) k => match acc with | none => some k | some m => some (min k m)) none

/-- The teams placed together with a team: its gang's that have not ended. -/
def Slice.group (x : Slice) (k : Nat) : List Nat := (x.gangOf k).filter fun j => !inRanges x.ended j && !x.retired.contains j

/-- Whether a team of a gang of a slice is unplaced. -/
def Slice.gangWaits (x : Slice) (g : Nat) : Bool :=
  (x.group (g * x.gang)).any fun j => x.savedTeams.contains j || x.relaunch.contains j || decide (x.nextTeam ≤ j)

/-- Reservations that no gang needs any more end (R318, R326): the slice is over or not being placed, or none of the gang's teams is
unplaced. -/
def State.trimReservations (s : State) : State :=
  let needed (r : Nat × Nat) : Bool := (FMap.get s.slices r.1).any fun x => (x.state == .ready || x.state == .running) && x.gangWaits r.2
  { s with clusters := s.clusters.map fun (p : Nat × Cluster) => (p.1, { p.2 with reserved := p.2.reserved.filter needed }) }

/-- Whether no reservation keeps a gang, or a team without one, off a cluster (R326). -/
def State.reservedFor (s : State) (cl : Nat) (who : Option (Nat × Nat)) : Bool :=
  match (s.cluster cl).reserved with | none => true | some r => some r == who

/-- The cores of a gang's teams in a cluster: team k of the gang on core k. -/
def Slice.gangCores (x : Slice) (cl : Nat) (ks : List Nat) : List Nat := ks.map fun k => 4 * cl + k % x.gang

/-- Free course slots of a cluster. -/
def State.freeSlotsOf (s : State) (cl : Nat) : Nat :=
  ((List.range 4).map fun k => 64 - (s.coreLoad (4 * cl + k) fun _ => true).slots).foldl (· + ·) 0

/-- The resident teams of a gang. -/
def State.mates (s : State) (x : Slice) (k : Nat) : List Team :=
  (x.gangOf k).filterMap fun j => FMap.get s.teams (teamKey x.part x.num j)

/-- The cluster a gang reserves: where a mate is resident, unless another gang holds it, its present one, or the one with the most free
course slots among those it may use. -/
def State.gangCluster (s : State) (x : Slice) (key first : Nat) (ks : List Nat) : Option Nat :=
  let who := some (key, first / x.gang)
  let mine := (List.range 192).find? fun cl => (s.cluster cl).reserved == who
  let near := match s.mates x first with | t :: _ => some (clusterOfCore t.core) | [] => none
  match near.orElse fun _ => mine with
  | some cl => if s.reservedFor cl who then some cl else none
  | none =>
    let ok := (List.range 192).filter fun cl => (s.cluster cl).reserved.isNone && (x.gangCores cl ks).all fun c => s.coreOk x.part c
    (ok.foldl (fun (acc : Option (Nat × Nat)) cl =>
      let n := s.freeSlotsOf cl
      match acc with | none => some (cl, n) | some m => if m.2 < n then some (cl, n) else acc) none).map Prod.fst

/-- The first core, from the one after the last used, on which a single team fits. -/
def State.findCore (s : State) (x : Slice) : Option Nat :=
  let last := (s.part x.part).lastCore
  ((List.range 768).map fun j => (last + 1 + j) % 768).find? fun c => s.reservedFor (clusterOfCore c) none && s.fits x [c] (x.clmem * 1024)

/-- A team leaves a list of unplaced ones. -/
def Slice.take (x : Slice) (k : Nat) : Slice :=
  { x with savedTeams := x.savedTeams.filter (fun j => j != k), relaunch := x.relaunch.filter (fun j => j != k),
           nextTeam := max x.nextTeam (k + 1), savedYields := x.savedYields.filter (fun y => y.1 != k), state := .running }

/-- Places one team on a core: launched, or restored from its image (R27, R369). A launched one sees every access before the DEPDEC that
made its slice ready (R134): the core's L1 gives up its clean bytes. The carves of the cluster's cores are fitted to the newcomer and its
cluster memory (R16, R327). -/
def State.placeTeam (s : State) (key : Nat) (x : Slice) (k core owner : Nat) : State :=
  let fromImage := x.savedTeams.contains k || (x.relaunch.contains k && x.hasImage.contains k)
  let tk := teamKey x.part x.num k
  let t := newTeam s x k core owner (if owner = tk then x.clmem * 1024 else 0)
  let s := { s with slices := FMap.modify s.slices key fun x => x.take k, placements := s.placements + 1 }
  -- a slice enqueued after a store to its code sees it (R99): the instruction cache is emptied
  let c := s.core core
  let s := s.setCore core { c with icache := [] }
  let t := if fromImage then { t with restoring := true }
    else { t with courses := (List.range x.launchCourses).map fun c => (c, launchCourse x k c s.cycle) }
  let s := (List.range 4).foldl (fun s j => s.fitCarve (4 * clusterOfCore core + j)) ((s.invalidateClean core).setTeam tk t)
  let q := s.part x.part
  let s := s.setPart x.part { q with lastCore := core }
  if fromImage then s.restoreTeam tk else s

/-- Places a group of teams on their cores. The cluster memory of a gang is held by the mate that holds it now, else by the first team. -/
def State.placeGroup (s : State) (key : Nat) (x : Slice) (ks cores : List Nat) : State :=
  let first := ks.headD 0
  let owner := match s.mates x first with | t :: _ => t.clmOwner | [] => teamKey x.part x.num first
  let s := { s with clusters := s.clusters.map fun (p : Nat × Cluster) =>
    (p.1, if x.gang != 0 && p.2.reserved == some (key, first / x.gang) then { p.2 with reserved := none } else p.2) }
  (ks.zip cores).foldl (fun s p => s.placeTeam key x p.1 p.2 (if x.gang = 0 then teamKey x.part x.num p.1 else owner)) s

/-- The state without some teams. -/
def State.minus (s : State) (ks : List Nat) : State := { s with teams := s.teams.filter fun p => !ks.contains p.1 }

/-- A group that may be pre-empted: its slice's rank, the highest team index, the keys of its teams. -/
abbrev Prey := (Nat × Nat × Nat) × Nat × List Nat

/-- The later of two groups in the order of R323. -/
def laterPrey (a b : Prey) : Prey := if rankLt a.1 b.1 || (a.1 == b.1 && decide (a.2.1 < b.2.1)) then b else a

/-- The groups the scheduler may pre-empt for a slice (R323). -/
def State.preys (s : State) (key : Nat) (x : Slice) : List Prey :=
  s.teams.filterMap fun p =>
    let kb := sliceKey p.2.part p.2.slice
    match FMap.get s.slices kb with
    | none => none
    | some y =>
      if p.2.part == x.part && kb != key && y.state == .running && rankLt x.rank y.rank && decide (p.2.since + 4096 ≤ s.cycle) then
        some (y.rank, p.2.index, (y.gangOf p.2.index).map fun j => teamKey y.part y.num j)
      else none

/-- The latest of some groups. -/
def bestPrey (gs : List Prey) : Option Prey :=
  gs.foldl (fun acc g => match acc with | none => some g | some m => some (laterPrey m g)) none

/-- The teams whose saving would let a team or gang in (R323): the group of the latest-ranked slice, highest team index. Where a gang is
kept out on several cores, one such group for each of them. -/
def State.victimFor (s : State) (key : Nat) (x : Slice) (cores : List Nat) (clm : Nat) : Option (List Nat) :=
  let groups := s.preys key x
  let fit (s : State) : Bool := if x.gang = 0 then cores.any (fun c => s.fits x [c] clm) else s.fits x cores clm
  let here (ks : List Nat) : List Nat := ks.filter fun k => (FMap.get s.teams k).isSome
  match bestPrey (groups.filter fun g => fit (s.minus g.2.2)) with
  | some g => some (here g.2.2)
  | none =>
    if x.gang = 0 then none
    else
      let all := cores.foldl (fun (acc : List Nat) c =>
        let s' := s.minus acc
        if s'.fitsCore x (clmShare clm) c then acc
        else match bestPrey (groups.filter fun g => (s'.minus g.2.2).fitsCore x (clmShare clm) c) with
          | some g => acc ++ g.2.2
          | none => acc) []
      if fit (s.minus all) then some (here all) else none

/-- What the scheduler did for one slice. -/
inductive Placed where
  | did | waits | passed
deriving DecidableEq, Repr

/-- Ends the wait of resident threads at a yield whose period is over, when the slice runs again (R135). -/
def State.runYielded (s : State) (key : Nat) : State :=
  let teams := s.teamsOf key
  let ks := teams.map Prod.fst
  let s := teams.foldl (fun s p => (FMap.keys p.2.courses).foldl (fun s c => s.leaveYield p.1 c) s) s
  { s with slices := FMap.modify s.slices key fun x =>
      { x with state := .running, yielded := x.yielded.filter fun k => !ks.contains (teamKey x.part x.num k) } }

/-- Brings a team or gang that fits nowhere in by pre-emption (R323): it waits where pre-emptions under way make room for it, or where one
more does; else it is passed over (R322), as it is where saves make room that were asked for otherwise. -/
def State.preempt (s : State) (key : Nat) (x : Slice) (cores : List Nat) (clm : Nat) : State × Placed :=
  let leaving := s.teams.filter fun p => p.2.part == x.part && (p.2.saveDue || p.2.saving)
  let evicted := s.minus ((leaving.filter fun p => p.2.evicted).map Prod.fst)
  let s' := s.minus (leaving.map Prod.fst)
  let fit (s : State) : Bool := if x.gang = 0 then cores.any (fun c => s.fits x [c] clm) else s.fits x cores clm
  if fit evicted then (s, .waits)
  else if fit s' then (s, .passed)
  else
    match s'.victimFor key x cores clm with
    | some ks => (s.saveAll ks true, .waits)
    | none => (s, .passed)

/-- Serves one slice (R322, R323, R326). A gang's teams that are not resident are placed together, beside the resident ones. -/
def State.serve (s : State) (key : Nat) (x : Slice) : State × Placed :=
  let resident := x.yielded.any fun k => (FMap.get s.teams (teamKey x.part x.num k)).isSome
  if x.state == .ready && resident then (s.runYielded key, .did)
  else
    match x.nextUnplaced with
    | none => (s, .passed)
    | some k =>
      if x.gang = 0 then
        match s.findCore x with
        | some c => (s.placeGroup key x [k] [c], .did)
        | none =>
          let cores := (List.range 768).filter fun c => s.coreOk x.part c && s.reservedFor (clusterOfCore c) none
          s.preempt key x cores (x.clmem * 1024)
      else
        let ks := (x.group k).filter fun j => !(FMap.get s.teams (teamKey x.part x.num j)).isSome
        let first := (x.group k).headD k
        let clm := if (s.mates x k).isEmpty then x.clmem * 1024 else 0
        match if ks.any x.unknown then none else s.gangCluster x key first ks with
        | none => (s, .passed)
        | some cl =>
          let c := s.cluster cl
          let s := s.setCluster cl { c with reserved := some (key, first / x.gang) }
          let cores := x.gangCores cl ks
          if s.fits x cores clm then (s.placeGroup key x ks cores, .did) else s.preempt key x cores clm

/-- Whether the scheduler places teams of a slice. -/
def Slice.placeable (x : Slice) : Bool := x.state == .ready || x.state == .running

/-- R322: the scheduler places the next team or gang that fits, from the head of the order. -/
def execTeamPlacement (part : Fin 16) (st : State) : Host.Outcome State Fault Refusal :=
  let st := st.trimReservations
  let order := sortBy (fun a b => !rankLt b.2.rank a.2.rank) ((st.slicesOf part.val).filter fun p => p.2.placeable)
  let r := order.foldl (fun (acc : State × Placed) p =>
    match acc.2 with
    | .passed => match FMap.get acc.1.slices p.1 with | some x => acc.1.serve p.1 x | none => acc
    | _ => acc) (st, .passed)
  if st.thermalStop || !(st.part part.val).enabled then .next st
  else .next (match r.2 with | .did => r.1.due (.teamPlacement part) | _ => r.1)

/-! ## Timers of waiting threads -/

/-- R47. -/
def execSpawnTimerExpiry (tk : Nat) (bin : Fin 8) (st : State) : Host.Outcome State Fault Refusal :=
  match FMap.get st.teams tk with
  | some t => .next (if (nth t.bins bin.val {}).pending then st.settle tk else st)
  | none => .next st

/-- R124. -/
def execConvTimeout (c : CourseRef) (pc : BitVec 64) (st : State) : Host.Outcome State Fault Refusal :=
  match ((FMap.get st.teams c.team).bind fun t => FMap.get t.courses c.course).bind fun x => FMap.get x.convs pc.toNat with
  | some 0 => .next (st.leaveConv c pc)
  | _ => .next st

/-- R136. -/
def execSleepExpiry (t : ThreadRef) (st : State) : Host.Outcome State Fault Refusal :=
  match (st.threadAt t.team t.course t.lane).map Thread.wait with
  | some (.sleep 0) => .next (st.endSleep t)
  | _ => .next st

/-- R294: the count of an mwait has run out. -/
def execMwaitTimeout (t : ThreadRef) (st : State) : Host.Outcome State Fault Refusal :=
  match (st.threadAt t.team t.course t.lane).map Thread.wait with
  | some (.mwait _ (some 0)) => .next (st.endMwait t 1)
  | _ => .next st

/-- SENTINEL of a partition in cycles (R335, R339). -/
def Partition.sentinel (q : Partition) : Nat := 2 ^ (q.cfg 0x28 8)

/-- Whether the wait sentinel watches a wait (R334). -/
def Wait.watched : Wait → Bool
  | .join | .repack _ _ _ | .barWait _ _ | .mwait _ Option.none | .commit | .stamped _ | .lda _ _ | .context _ | .timeline _ _ | .ringTake _ | .ringIdle _
  | .tilePool => true
  | .link _
  | .none | .conv | .emit | .yield _ | .sleep _ | .mwait _ (some _) | .log | .pass | .tileBusy | .internal | .unmet | .range => false

/-- R335: the thread is parked; one of a suspended course in its image. -/
def execWaitSentinel (t : ThreadRef) (st : State) : Host.Outcome State Fault Refusal :=
  match FMap.get st.teams t.team, st.threadAt t.team t.course t.lane with
  | some tm, some x =>
    if x.parked.isNone && decide (((st.under tm).part tm.part).sentinel ≤ x.sentinel) then
      .next ((st.deliverSystem t.team { course := t.course, lane := t.lane, code := .waitSentinel } 0 false x.pc).rewriteThread
        t.team t.course t.lane)
    else .next st
  | _, _ => .next st

end Sys2Proof.Machine
end

