-- ==== Sys2Proof/Machine/Command.lean ====
section
/-!
DEFINITION. The management commands (R352, R353): partitions (R339, R341), submission (R346, R390), invalidation (R345), host actions on
fault records (R365), holds (R312), attestation (R348), and the slice table (R387).
-/

namespace Sys2Proof.Machine

/-- A command as its mailbox or message brings it: from a virtual function (by number) or a physical one. -/
structure CmdIn where
  vf : Option Nat
  cmd : W64
  args : List W64
  payload : Bytes

/-- Results of R353. -/
inductive CmdResult where
  | ok | invalid | denied | unknown
deriving DecidableEq, Repr

/-- A result's code. -/
def CmdResult.num : CmdResult → Nat
  | .ok => 0 | .invalid => 1 | .denied => 2 | .unknown => 3

/-- What a command came to: the state, its result, ARGs and PAYLOAD. -/
structure CmdOut where
  s : State
  result : CmdResult
  args : List W64
  payload : Bytes

/-- A command that changes nothing but reports. -/
def CmdIn.refuse (i : CmdIn) (s : State) (r : CmdResult) : CmdOut := ⟨s, r, i.args, i.payload⟩
/-- A command that has succeeded without output. -/
def CmdIn.done (i : CmdIn) (s : State) : CmdOut := ⟨s, .ok, i.args, i.payload⟩
/-- An argument. -/
def CmdIn.arg (i : CmdIn) (k : Nat) : W64 := nth i.args k 0
/-- Flag bit `k` of CMD. -/
def CmdIn.flag (i : CmdIn) (k : Nat) : Bool := i.cmd.getLsbD k

/-- The partition bound to a virtual function (R339): an enabled one that names it, else any. -/
def State.partOfVf (s : State) (vf : Nat) : Option Nat :=
  let names (k : Nat) : Bool := fld ((s.part k).cfg 0 8) 8 4 == vf
  ((List.range 16).find? fun k => (s.part k).enabled && names k).orElse fun _ => (List.range 16).find? names

/-- The partition a command names (R353). -/
def State.cmdPart (s : State) (i : CmdIn) : Option Nat :=
  match i.vf with | some v => s.partOfVf v | none => some (fld i.cmd.toNat 8 4)

/-- Runs a command that needs an enabled partition. -/
def State.onEnabled (s : State) (i : CmdIn) (f : Nat → CmdOut) : CmdOut :=
  match s.cmdPart i with
  | none => i.refuse s .invalid
  | some k => if (s.part k).enabled then f k else i.refuse s .invalid

/-! ## PARTCFG (R339, R341, R388) -/

/-- The partition's block, with reserved bits as they read (R5). -/
def cleanBlock (b : List Byte) : List Byte :=
  let w (off n : Nat) : Nat := bytesAt b off n
  let head := leBytes 8 (w 0 8 % 2 + fld (w 0 8) 8 4 * 2 ^ 8) ++ (b.drop 8).take 0x40 ++
    leBytes 8 (fld (w 0x48 8) 16 41 * 2 ^ 16 + w 0x48 8 % 64) ++ (b.drop 0x50).take 8
  (head ++ List.replicate 168 0 ++ (b.drop 0x100).take 96 ++ List.replicate 32 0 ++ (b.drop 0x180).take 1024).take 1408

/-- The ranges of a block's GRANTS, in 64 KiB units. -/
def Partition.ranges (p : Partition) : List (Nat × Nat) :=
  ((List.range 64).map fun k => (p.cfg (0x180 + 16 * k) 8, p.cfg (0x188 + 16 * k) 8)).takeWhile fun r => r.2 != 0

/-- Whether two ranges of units meet. -/
def rangesMeet (a b : Nat × Nat) : Bool := decide (a.1 < b.1 + b.2) && decide (b.1 < a.1 + a.2)

/-- Whether a table that a block names lies in its grants. -/
def Partition.tableOk (p : Partition) (off n : Nat) : Bool := p.granted (p.cfg off 8) n

/-- Whether a block's fields lie in their ranges (R339). -/
def Partition.inRange (p : Partition) : Bool :=
  p.cfg 0x08 8 % 4096 == 0 && decide (p.cfg 0x10 4 ≤ 64) && decide (p.cfg 0x20 2 ≤ 16) && decide (p.cfg 0x22 2 ≤ 48) &&
  decide (16 ≤ p.cfg 0x28 8) && decide (p.cfg 0x28 8 ≤ 40) && decide (30 ≤ p.cfg 0x48 8 % 64) && decide (p.cfg 0x48 8 % 64 ≤ 41)

/-- Whether what the enabled partitions are granted on a core fits it (R15, R16, R339). -/
def coreFits (ps : List Partition) (core : Nat) : Bool :=
  let mine := ps.filter fun p => p.enabled && fld (p.cfg 0x100 96) core 1 == 1
  let sum (f : Partition → Nat) : Nat := (mine.map f).foldl (· + ·) 0
  let carve := carveOf { lines := sum fun p => p.cfg 0x14 4, bytes := sum fun p => p.cfg 0x18 4 }
  decide (sum (fun p => p.cfg 0x10 4) ≤ 64) && decide (carve.1 + carve.2 ≤ 30)

/-- Whether a block is accepted for a partition (R339, R388); a domain window table at 0 is none. Of CHIPMIB each block's own range is
checked; R339 names no refusal for the sum over the partitions, and none is made (log 51, DESIGN CHOICE). -/
def State.blockOk (s : State) (k : Nat) (p : Partition) : Bool :=
  let ps := setNth s.parts k p
  let others := (s.parts.zipIdx.filter fun q => q.2 != k && q.1.enabled).map Prod.fst
  p.inRange && (p.cfg 0x38 8 == 0 || p.tableOk 0x38 4096) && p.tableOk 0x40 4096 && p.tableOk 0x50 256 &&
  (List.range 768).all (fun c => fld (p.cfg 0x100 96) c 1 == 0 || coreFits ps c) &&
  p.ranges.all (fun r => physOk (r.1 * 65536) (r.2 * 65536)) &&
  !others.any (fun q => q.ranges.any fun a => p.ranges.any fun b => rangesMeet a b) &&
  (!p.enabled || s.boot == .full || (s.boot == .reduced && k == 0))

/-- Whether a 64 KiB unit lies in a partition's ranges. -/
def Partition.hasUnit (p : Partition) (u : Nat) : Bool := p.ranges.any fun r => decide (r.1 ≤ u) && decide (u < r.1 + r.2)

/-- R341: the slices of a partition end, with their records posted as far as the rings have room, its cached lines go, and the units that
leave it are zeroed. -/
def State.withdraw (s : State) (k : Nat) (old new : Partition) : State :=
  let s := (((s.slicesOf k).filter fun p => p.2.state != .complete).foldl (fun s p => s.killSlice p.1) s).postCompletions k
  let leaves (pa : Nat) : Bool := old.hasUnit (pa / 65536) && !(new.enabled && new.hasUnit (pa / 65536))
  let line (l : Nat) : Bool := !leaves (128 * l)
  { s with
    cores := s.cores.map fun (p : Nat × Core) => (p.1, { p.2 with
      tlb := p.2.tlb.filter fun e => e.part != k
      fcache := p.2.fcache.filter fun q => !old.hasUnit (q.1 / 512)
      icache := p.2.icache.filter fun q => !old.hasUnit (q.1 / 512)
      l1 := p.2.l1.filter fun q => line q.1 })
    mem := s.mem.filter fun c => !leaves c.1
    poison := s.poison.filter fun g => !leaves (32 * g)
    lineStamp := s.lineStamp.filter fun q => line q.1
    versions := s.versions.filter fun q => line q.1
    stores := s.stores.filter fun (x : StampedStore) => !(x.pieces.any fun q => s.homesPiece q && leaves q.pa)
    l2Poison := s.l2Poison.filter fun g => !leaves (32 * g)
    stampedPages := s.stampedPages.filter fun q => !(decide (q.1 < 2 ^ 40) && leaves (65536 * q.1)) }

/-- What a range of units has beside another. -/
def rangeMinus (a b : Nat × Nat) : List (Nat × Nat) :=
  if !rangesMeet a b then [a]
  else [(a.1, b.1 - a.1), (b.1 + b.2, a.1 + a.2 - (b.1 + b.2))].filter fun r => r.2 != 0

/-- Whether some unit of a partition's grants leaves it. -/
def unitLeaves (old new : Partition) : Bool :=
  !(new.ranges.foldl (fun (left : List (Nat × Nat)) b => left.flatMap fun a => rangeMinus a b) old.ranges).isEmpty

/-- After a PARTCFG write a device that had become unreachable joins its domain again: the stamps it assigns lie above W (R381). -/
def State.rejoin (s : State) : State :=
  let lost := s.peers.any fun p => !p.2.reachable
  if !lost then s
  else
    -- no copy of the domain's W, and no report, lies above any of these
    let (s, w) := s.ownWatermark .domain
    let w := (s.dies.flatMap fun (d : Die) => d.wDomain).foldl max (s.peers.foldl (fun m (p : Nat × Peer) => max m p.2.watermark) w)
    { s with peers := s.peers.map fun (p : Nat × Peer) => (p.1, { p.2 with reachable := true })
             dies := s.dies.map fun (d : Die) => { d with last := max d.last (w + 1) }
             linkDown := if s.ports == 0 then some s.ns else s.linkDown }

/-- The teams of a partition that are resident keep the block they were placed under (R339). -/
def State.keepBlocks (s : State) (k : Nat) (old : List Byte) : State :=
  { s with teams := s.teams.map fun (p : Nat × Team) =>
      (p.1, if p.2.part = k then { p.2 with block := p.2.block.orElse fun _ => some old } else p.2) }

/-- PARTCFG with WRITE = 0. -/
def State.cmdPartRead (s : State) (i : CmdIn) : CmdOut :=
  if i.vf.isSome then i.refuse s .denied
  else
    match s.cmdPart i with
    | none => i.refuse s .invalid
    | some k => ⟨s, .ok, i.args, i.payload.writeN 0 (s.part k).block⟩

/-- PARTCFG with WRITE = 1. -/
def State.cmdPartWrite (s : State) (i : CmdIn) : CmdOut :=
  if i.vf.isSome then i.refuse s .denied
  else
    match s.cmdPart i with
    | none => i.refuse s .invalid
    | some k =>
      let old := s.part k
      let new := { old with block := cleanBlock (i.payload.readN 0 1408) }
      if !s.blockOk k new then i.refuse s .invalid
      else
        let s := if old.enabled && (!new.enabled || unitLeaves old new) then s.withdraw k old new else s
        let s := if old.block == new.block then s else s.keepBlocks k old.block
        let s := s.setPart k { s.part k with block := new.block }
        i.done (s.rejoin.due (.teamPlacement (Fin.ofNat 16 k)))

/-! ## SUBMIT (R346, R390) -/

/-- Whether the device accepts slices (R347). -/
def State.serving (s : State) : Bool := s.boot == .reduced || s.boot == .full

/-- SUBMIT. -/
def State.cmdSubmit (s : State) (i : CmdIn) (with' : Slice → Slice) : CmdOut :=
  if i.vf.isSome && i.flag 14 then i.refuse s .denied
  else
    s.onEnabled i fun k =>
      if !s.serving then i.refuse s .invalid
      else
        let (s, num) := s.createSlice k (i.flag 14) 0 (i.payload.readN 0 128) with'
        ⟨s, .ok, setNth i.args 0 (BitVec.ofNat 64 (num.getD 0xFFFFFFFF)), i.payload⟩

/-! ## INVAL (R345, R258) -/

/-- Whether a partition's page maps a unit of memory, this device's or another's, as a stamped page. -/
def State.mapsStamped (s : State) (k page unit : Nat) : Bool :=
  match s.walk (65536 * page) ((s.part k).cfg 0x08 8) 4 with
  | .ok (leaf, size) =>
    let pa := fld leaf 8 44 * 256 + 65536 * page % size
    let dev := (s.windowEntry k (fld leaf 54 9)).map Prod.fst
    fld leaf 5 1 == 1 && (fld leaf 7 1 == 0 || dev.isSome) && s.unitOf (if fld leaf 7 1 = 0 then none else dev) pa == unit
  | .error _ => false

/-- The pages of a range are looked at when an INVAL of it is complete (R258, R345): one that is stamped now and was seen plain before
gives every line of its unit stamp 0; one that is stamped no more is noted as plain. -/
def State.seeRange (s : State) (k va n : Nat) : State :=
  let met (p : Nat × Nat × Bool) : Bool := p.1 == k && decide (65536 * p.2.1 < va + n) && decide (va < 65536 * p.2.1 + 65536)
  let notes := s.stampedPages.flatMap fun q => (q.2.filter met).map fun p => (q.1, p.2.1, p.2.2)
  notes.foldl (fun s q =>
    let now := s.mapsStamped k q.2.1 q.1
    (if now && !q.2.2 then s.forgetUnit q.1 else s).notePage q.1 k q.2.1 now) s

/-- The dirty bytes of a partition's lines in every L1 are performed (R345). -/
def State.performPartition (s : State) (k : Nat) : State :=
  let q := s.part k
  s.cores.foldl (fun s p => (p.2.l1.filter fun l => q.granted (128 * l.1) 128).foldl (fun s l => s.writeBack p.1 l.1) s) s

/-- The stamped stores of a partition to a range of its addresses that are not visible yet. -/
def State.openStores (s : State) (k va n : Nat) : List Nat :=
  (s.stores.filter fun x =>
    let m := (x.pieces.map fun p => p.bytes.length).foldl (· + ·) 0
    !x.visible && x.source.isNone && x.part == k && decide (x.va.toNat % 2 ^ 57 < va + n) && decide (va < x.va.toNat % 2 ^ 57 + m)).map fun x => x.id

/-- INVAL: the entries of a range leave every TLB, and what was accessed by them is performed. -/
def State.cmdInval (s : State) (i : CmdIn) : CmdOut :=
  s.onEnabled i fun k =>
    let a := (i.arg 0).toNat % 2 ^ 57
    let n := (i.arg 1).toNat
    let s := { s with cores := s.cores.map fun (p : Nat × Core) => (p.1, { p.2 with
      tlb := p.2.tlb.filter fun e => !(e.part == k && decide (e.va < a + n) && decide (a < e.va + e.size)) }) }
    i.done (s.performPartition k)

/-- The INVAL a command starts, with the stamped stores whose visibility its completion waits for (R345). -/
def State.invalOf (s : State) (i : CmdIn) : Option Inval :=
  match if i.cmd.toNat % 256 = 0x03 then s.cmdPart i else none with
  | some k =>
    let a := (i.arg 0).toNat % 2 ^ 57
    if (s.part k).enabled then some ⟨k, a, (i.arg 1).toNat, s.openStores k a (i.arg 1).toNat⟩ else none
  | none => none

/-- Whether an INVAL is in progress: no other command is performed meanwhile (R352). -/
def State.invalRuns (s : State) : Bool :=
  s.pfMail.any (fun x => x.inval.isSome) || s.vfMail.any (fun x => x.inval.isSome) || !s.replies.isEmpty

/-- Whether an INVAL still waits for a stamped store. -/
def State.invalOpen (s : State) (v : Inval) : Bool := v.stores.any s.stampOpen

/-- An INVAL is complete: its pages are as they are now, and the commands that have waited are due, in order of arrival (R352). -/
def State.endInval (s : State) (v : Inval) : State :=
  let s := s.seeRange v.part v.va v.len
  { s with agenda := s.cmdWaits ++ s.agenda, cmdWaits := [] }

/-! ## RESUME and KILL (R365) -/

/-- The address of a thread's state in a course image (R371, R372). -/
def State.threadImage (s : State) (part : Nat) (r : ThreadRef) : Option Nat :=
  let key := r.team / 2 ^ 24
  match FMap.get s.slices key with
  | some x => if x.part = part then some (x.courseImage (r.team % 2 ^ 24) r.course + 0x100 + 256 * r.lane) else none
  | none => none

/-- Whether a course of a team is in its core. -/
def State.isResident (s : State) (tk c : Nat) : Bool :=
  match (FMap.get s.teams tk).bind fun t => FMap.get t.courses c with | some x => !x.suspended | none => false

/-- Whether a course is saved: suspended, or in the image of a saved team. -/
def State.isSaved (s : State) (tk c : Nat) : Bool :=
  match (FMap.get s.teams tk).bind fun t => FMap.get t.courses c with
  | some x => x.suspended
  | none => match FMap.get s.slices (tk / 2 ^ 24) with | some x => x.savedTeams.contains (tk % 2 ^ 24) | none => false

/-- Records a host action in a saved thread's state. -/
def State.noteAction (s : State) (part : Nat) (r : ThreadRef) (n : Nat) : State :=
  match s.threadImage part r with
  | none => s
  | some a => s.imageWrite r.team (a + 0xF0) (leBytes 8 n)

/-- A saved course as the device keeps it. -/
def State.keptCourse (s : State) (c : CourseRef) : Option Course :=
  match (FMap.get s.teams c.team).bind fun t => FMap.get t.courses c.course with
  | some x => some x
  | none => (s.savedTeam c.team).bind fun p => FMap.get p.2.courses c.course

/-- The address of an entry of a saved course's log. -/
def State.logImage (s : State) (part : Nat) (c : CourseRef) (e : Nat) : Option Nat :=
  (s.threadImage part ⟨c.team, c.course, 0⟩).map fun a => a - 0x100 + 0x2100 + 1344 * e

/-- The thread of a reference, resident, suspended or saved, as the device has it. -/
def State.keptThread (s : State) (r : ThreadRef) : Option Thread := (s.keptCourse ⟨r.team, r.course⟩).bind fun x => FMap.get x.threads r.lane

/-- Clears HALT in a thread that the stop of a record halted, resident, suspended or saved (R376). -/
def State.clearHalt (s : State) (part token : Nat) (r : ThreadRef) : State :=
  if !(s.keptThread r).any fun t => t.halted && t.haltedBy == token then s
  else if (FMap.get s.teams r.team).isSome then
    (s.onThread r.team r.course r.lane fun t => { t with tsw := t.tsw &&& ~~~haltBit, haltedBy := 0, readySince := s.cycle }).noteTsw
      r.team r.course r.lane
  else
    match s.keptThread r, s.threadImage part r with
    | some t, some a =>
      let tsw := t.tsw &&& ~~~haltBit
      let clear (x : Course) : Course := { x with threads := FMap.modify x.threads r.lane fun t => { t with tsw := tsw, haltedBy := 0 } }
      (s.onKept r.team fun k => { k with courses := FMap.modify k.courses r.course clear }).savedWrite r.team (a + 8) (leBytes 4 tsw.toNat)
    | _, _ => s

/-- Clears HALT in threads that the stop of a record halted (R376); teams without a halted thread are no longer frozen. -/
def State.clearHalts (s : State) (part token : Nat) (rs : List ThreadRef) : State :=
  let s := rs.foldl (fun s r => s.clearHalt part token r) s
  { s with
    teams := s.teams.map fun (p : Nat × Team) => (p.1, p.2.thaw)
    slices := s.slices.map fun (p : Nat × Slice) => (p.1, { p.2 with kept := p.2.kept.map fun k => (k.1, k.2.thaw) }) }

/-- Resumes a parked thread: it executes its unit again, waits again with the count at 0, or continues after a stop (R335, R365); after
LINK_LOST at a release it waits again (R382). -/
def State.resumeThread (s : State) (r : ThreadRef) (token : Nat) : State :=
  s.onThread r.team r.course r.lane fun t =>
    match t.parked with
    | none => t
    | some p =>
      if p.token ≠ token then t
      else
        let stop := p.code == FCode.brk.num || p.code == FCode.step.num || (p.code == FCode.trap.num && t.fault.getLsbD 31)
        { t with parked := none, sentinel := 0, readySince := s.cycle, resumed := p.code == FCode.linkLost.num,
                 tsw := if stop then t.tsw &&& ~~~haltBit else t.tsw, haltedBy := if stop then 0 else t.haltedBy }

/-- Whether a code stops threads (R376). -/
def isStop (code : Nat) : Bool := code == FCode.brk.num || code == FCode.step.num

/-- What the device keeps of a team that has moved here (R390). -/
def State.movedTeam (s : State) (x : Slice) (k : Nat) : Team := { newTeam s x k 0 0 0 with moved := true }

/-- A team of a slice that has moved here counts as saved or not, by its image. -/
def Slice.markMoved (x : Slice) (k : Nat) (t : Team) (saved : Bool) : Slice :=
  let others := x.savedTeams.filter fun j => j != k
  let images := x.hasImage.filter fun j => j != k
  if saved then
    { x with savedTeams := insertBy (fun a b => decide (a ≤ b)) k others, hasImage := images ++ [k], kept := FMap.set x.kept k t }
  else
    { x with savedTeams := others, hasImage := images, kept := FMap.erase x.kept k,
             relaunch := if k < x.nextTeam then x.relaunch ++ [k] else x.relaunch }

/-- Whether a team of a slice that has moved here was saved (R370, R390): its area holds an image of its own, and the slice number is
written there. An access that meets a fault is held (R395). -/
def State.probeMoved (s : State) (key k : Nat) : State :=
  match FMap.get s.slices key with
  | none => s
  | some x =>
    let tk := teamKey x.part x.num k
    let t := s.movedTeam x k
    match s.ownRead x.part (BitVec.ofNat 64 (x.image k)) 16 with
    | .ok b =>
      if bytesAt b 0 8 == 1 && bytesAt b 8 3 == k then
        (s.setSlice key (x.markMoved k t true)).savedWrite tk (x.image k + 0xC) (leBytes 4 x.num)
      else s.setSlice key (x.markMoved k t false)
    | .error (code, a) =>
      let s := if code == .ecc then s.logPoisonVa x.part a (chunkLen a.toNat 16) x.num else s
      (s.setSlice key (x.markMoved k t true)).holdKept tk x t { addr := a, bytes := [] } .read code

/-- Performs the held accesses to a saved team's image again (R395). -/
def State.performKept (s : State) (tk : Nat) : State :=
  match s.savedTeam tk with
  | none => s
  | some (_, k) =>
    let s := s.onKept tk fun t => { t with held := [] }
    if k.moved then (s.probeMoved (tk / 2 ^ 24) k.index).due (.teamPlacement (Fin.ofNat 16 k.part))
    else k.held.foldl (fun s h => s.savedWrite tk h.addr.toNat h.bytes) s

/-- The threads of a team whose issue goes on are ready from now on (R329). -/
def Team.readyNow (t : Team) (now : Nat) : Team := t.mapThreads fun th => { th with readySince := now }

/-- Performs a team's held accesses again, in order (R395); what meets a fault again is held on, with a new record. -/
def State.performHeld (s : State) (tk : Nat) : State :=
  match FMap.get s.teams tk with
  | none => s.performKept tk
  | some t =>
    let s := s.setTeam tk { t with held := [], stopped := false }
    let s := (t.held.filter fun h => !h.bytes.isEmpty).foldl (fun s h => s.teamWrite tk h.addr.toNat h.bytes) s
    match FMap.get s.teams tk with
    | none => s
    | some t' =>
      if !t'.held.isEmpty then s
      else
      let s := s.setTeam tk (t'.readyNow s.cycle)
      if t'.restoring then s.restoreAgain tk
      else if t'.saving then s.completeSave tk
      else s.settle tk

/-- The threads a log entry holds. -/
def LogEntry.faulted (e : LogEntry) : List Nat := if e.acc.uniform then lanesOf e.group else e.lanes.map fun q => q.lane

/-- Whether a thread is parked with a record's token; another may stand in its lane by now (R365). -/
def State.parkedBy (s : State) (r : ThreadRef) (token : Nat) : Bool := (s.keptThread r).any fun t => t.parked.any fun p => p.token == token

/-- The log entry of a record's token, if it is still there. -/
def State.entryOf (s : State) (c : CourseRef) (e token : Nat) : Option LogEntry :=
  ((s.keptCourse c).bind fun x => nth x.log e none).filter fun y => y.token == token

/-- RESUME of a subject. A thread or an entry that is gone takes nothing; what stands in its place is not the record's. -/
def State.resumeSubject (s : State) (part token : Nat) (x : Subject) : State :=
  match x with
  | .thread r code halts =>
    let s := if isStop code then s.clearHalts part token halts else s
    if !s.parkedBy r token then s
    else if s.isResident r.team r.course then
      let s := s.resumeThread r token
      if isStop code then s.clearHalts part token [] else s
    else if s.isSaved r.team r.course then
      (if isStop code then s.clearHalts part token [r] else s).noteAction part r 1
    else s
  | .logEntry c e =>
    if (s.entryOf c e token).isNone then s
    else if s.isResident c.team c.course then (s.replayEntry c.team c.course e).settle c.team
    else if s.isSaved c.team c.course then
      match s.logImage part c e with
      | none => s
      | some a => s.imageWrite c.team (a + 0x18) (leBytes 1 3)
    else s
  | .engine key ctx num => s.onCmd key ctx num fun q => { q with fault := none }
  | .slice key =>
    match FMap.get s.slices key with
    | some x =>
      if x.state == .stopped then
        (s.setSlice key { x with state := .ready, consumed := 0 }).due (.teamPlacement (Fin.ofNat 16 part))
      else s
    | none => s
  | .internal _ tk => s.performHeld tk
  | .hostAccess => s

/-- An engine command ends by KILL (R308): it counts as completed, FAULTED is set, and a slot it had claimed is full with what has
arrived. -/
def State.killCommand (s : State) (key ctx num : Nat) : State :=
  match (s.ctx key ctx).queue.find? fun q => q.num == num with
  | none => s
  | some q =>
    let s :=
      match q.kind with
      | .fill tk r _ n => if q.started then s.setSlot tk r q.slot { state := 2, target := n, arrived := q.progress } id else s
      | _ => s
    (s.finishCmd key ctx num).onCtx key ctx fun c => { c with faulted := true }

/-- KILL of a subject. -/
def State.killSubject (s : State) (part token : Nat) (x : Subject) : State :=
  match x with
  | .thread r code halts =>
    let s := if isStop code then s.clearHalts part token halts else s
    if !s.parkedBy r token then s
    else if s.isResident r.team r.course then
      let s := s.dropThreads r.team [(r.course, r.lane)]
      (if isStop code then s.clearHalts part token [] else s).settle r.team
    else if s.isSaved r.team r.course then s.noteAction part r 2
    else s
  | .logEntry c e =>
    match s.entryOf c e token with
    | none => s
    | some y =>
      if s.isResident c.team c.course then (s.dropThreads c.team (y.faulted.map fun l => (c.course, l))).settle c.team
      else if s.isSaved c.team c.course then y.faulted.foldl (fun s l => s.noteAction part ⟨c.team, c.course, l⟩ 2) s
      else s
  | .engine key ctx num => s.killCommand key ctx num
  | .slice key => if (FMap.get s.slices key).any fun x => x.state == .stopped then s.killSlice key else s
  | .internal key _ => if (FMap.get s.slices key).any fun x => x.state != .complete then s.killSlice key else s
  | .hostAccess => s

/-- RESUME and KILL (R365): a token that names no record, or one already acted on, is INVALID. -/
def State.cmdToken (s : State) (i : CmdIn) (act : State → Nat → Nat → Subject → State) : CmdOut :=
  s.onEnabled i fun k =>
    let token := (i.arg 0).toNat
    match FMap.get (s.part k).subjects token with
    | none => i.refuse s .invalid
    | some x =>
      i.done (act (s.setPart k { s.part k with subjects := FMap.erase (s.part k).subjects token }) k token x)

/-- SUBMIT with RESUME: counters and last numbers from the command; its teams whose areas hold images are saved ones, and the slice number
is written into every such image (R390). -/
def State.cmdSubmitResume (s : State) (i : CmdIn) : CmdOut :=
  let word (k : Nat) : Nat := leNat (i.payload.readN (0x80 + 8 * k) 8)
  let ctxs : List Ctx := (List.range 4).map fun k => { counter := word k, last := word (4 + k) }
  let part := (s.cmdPart i).getD 0
  let o := s.cmdSubmit i fun x => { x with ctxs := ctxs }
  let num := (nth o.args 0 0).toNat
  match FMap.get o.s.slices (sliceKey part num) with
  | some x =>
    if o.result == .ok && num != 0xFFFFFFFF && x.accepted then
      { o with s := (List.range x.gridTeams).foldl (fun s k => s.probeMoved (sliceKey part num) k) o.s }
    else o
  | none => o

/-- RESUME. -/
def State.cmdResume (s : State) (i : CmdIn) : CmdOut := s.cmdToken i fun s k token x => s.resumeSubject k token x
/-- KILL. -/
def State.cmdKill (s : State) (i : CmdIn) : CmdOut := s.cmdToken i fun s k token x => s.killSubject k token x

/-! ## HOLDCLR, ATTEST, STATE -/

/-- HOLDCLR removes one hold at a stamp, if there is one (R312). -/
def State.cmdHoldclr (s : State) (i : CmdIn) : CmdOut :=
  s.onEnabled i fun k =>
    let q := s.part k
    let h := (i.arg 0).toNat
    i.done (s.setPart k (if (i.arg 1).getLsbD 0 then { q with domHolds := q.domHolds.erase h } else { q with holds := q.holds.erase h }))

/-- The part of an attestation report that is signed (R348). -/
def State.attestBody (s : State) (k : Nat) (nonce : List Byte) (e : Nat) : List Byte :=
  let q := s.part k
  leBytes 8 1 ++ leBytes 8 Config.serial.toNat ++ nonce ++ (s.measures.flatMap digestBytes) ++ digestBytes (sha512 q.block) ++
  leBytes 8 (k + fld (q.cfg 0 8) 8 4 * 2 ^ 8) ++ leBytes 8 Config.minVersion.toNat ++ leBytes 8 e ++ List.replicate 88 0

/-- ATTEST: a virtual function attests its own partition only, which is the one `cmdPart` gives it. -/
def State.cmdAttest (s : State) (i : CmdIn) : CmdOut :=
  match s.cmdPart i with
  | none => i.refuse s .invalid
  | some k =>
    let (s, e, _) := s.readClock 0
    let body := s.attestBody k (i.payload.readN 0 64) e
    ⟨s, .ok, i.args, i.payload.writeN 0 (body ++ identitySign body)⟩

/-- The code of a slice's state in the slice table (R387). -/
def SliceState.num : SliceState → Nat
  | .waiting => 1 | .ready => 2 | .running => 3 | .stopped => 4 | .complete => 5

/-- An entry of the slice table (R387; log 26 for the offsets). -/
def State.sliceEntry (s : State) (key : Nat) (x : Slice) : List Byte :=
  leBytes 8 (x.state.num + x.restart.toNat * 2 ^ 3 + x.num * 2 ^ 32) ++ leBytes 8 x.recAddr.toNat ++ leBytes 8 x.consumed ++
  leBytes 8 x.deadline.toNat ++ leBytes 8 x.depcount ++ leBytes 4 (rangeCount x.ended) ++ leBytes 4 (s.teamsOf key).length ++
  leBytes 4 x.savedTeams.length ++ leBytes 4 x.retired.length ++ (x.ctxs.flatMap fun c => leBytes 8 c.counter) ++
  (x.ctxs.flatMap fun c => leBytes 8 c.last) ++ leBytes 8 0

/-- STATE; with SAVE the team is saved, and is then among its slice's unplaced teams; its image is then readable, the lines of its registers with
it. -/
def State.cmdState (s : State) (i : CmdIn) (save : Bool) : CmdOut :=
  s.onEnabled i fun k =>
    let num := (i.arg 0).toNat
    let key := sliceKey k num
    match FMap.get s.slices key with
    | none => i.refuse s .invalid
    | some x =>
      let index := (i.arg 1).toNat
      if num / 2 ^ 32 ≠ 0 ∨ x.gridTeams ≤ index then i.refuse s .invalid
      else
        let tk := teamKey k num index
        let s :=
          if !save then s
          else if (FMap.get s.teams tk).isNone then s.writeLines fun _ y => y.team == tk
          else
            let s := { s with teams := FMap.modify s.teams tk fun t => { t with evicted := false } }
            if s.canSave tk then s.saveTeam tk
            else { s with teams := FMap.modify s.teams tk fun t => { t with saveDue := true } }
        match FMap.get s.slices key with
        | some x => ⟨s, .ok, i.args, i.payload.writeN 0 (s.sliceEntry key x)⟩
        | none => i.done s

/-! ## Mailboxes (R353) -/

/-- A mailbox. -/
def State.mailbox (s : State) (m : Mbox) : Mailbox :=
  match m with | .pf n => nth s.pfMail n.val {} | .vf n => nth s.vfMail n.val {}

/-- Sets a mailbox. -/
def State.setMailbox (s : State) (m : Mbox) (x : Mailbox) : State :=
  match m with
  | .pf n => { s with pfMail := setNth s.pfMail n.val x }
  | .vf n => { s with vfMail := setNth s.vfMail n.val x }

/-- The virtual function of a mailbox. -/
def vfOf : Mbox → Option Nat
  | .pf _ => none
  | .vf n => some n.val

/-- A write to CMD (`e` is its event): ignored with OVERRUN while BUSY; else the command is accepted. It is performed and its completion is
due; but while an INVAL is in progress it waits (R352). -/
def State.command (s : State) (m : Mbox) (cmd : W64) (e : Instr) (f : State → CmdIn → CmdOut) : Host.Outcome State Fault Refusal :=
  let x := s.mailbox m
  if x.busy && !x.queued then .next (s.setMailbox m { x with overrun := true })
  else
    let cmd := cmd &&& 0xFFFF
    let x := { x with cmd := cmd, busy := true, overrun := x.queued && x.overrun, queued := false }
    if s.invalRuns then .next { s.setMailbox m { x with queued := true } with cmdWaits := s.cmdWaits ++ [e] }
    else
      let i : CmdIn := ⟨vfOf m, cmd, x.args, x.payload⟩
      let inval := s.invalOf i
      let o := f (s.setMailbox m x) i
      let y := o.s.mailbox m
      .next ((o.s.setMailbox m { y with result := o.result.num, args := o.args, payload := o.payload, inval := inval }).due
        (.mailboxCommandComplete m))

/-- R339: PARTCFG read. -/
def execPartcfgRead (m : Mbox) (cmd : BitVec 64) (st : State) : Host.Outcome State Fault Refusal :=
  st.command m cmd (.partcfgRead m cmd) fun s i => s.cmdPartRead i
/-- R339, R341: PARTCFG write. -/
def execPartcfgWrite (m : Mbox) (cmd : BitVec 64) (st : State) : Host.Outcome State Fault Refusal :=
  st.command m cmd (.partcfgWrite m cmd) fun s i => s.cmdPartWrite i
/-- R346, R353: SUBMIT. -/
def execSubmit (m : Mbox) (cmd : BitVec 64) (st : State) : Host.Outcome State Fault Refusal :=
  st.command m cmd (.submit m cmd) fun s i => s.cmdSubmit i id
/-- R390: SUBMIT with RESUME. -/
def execSubmitResume (m : Mbox) (cmd : BitVec 64) (st : State) : Host.Outcome State Fault Refusal :=
  st.command m cmd (.submitResume m cmd) fun s i => s.cmdSubmitResume i
/-- R345: INVAL. -/
def execInval (m : Mbox) (cmd : BitVec 64) (st : State) : Host.Outcome State Fault Refusal :=
  st.command m cmd (.inval m cmd) fun s i => s.cmdInval i
/-- R365: RESUME. -/
def execResume (m : Mbox) (cmd : BitVec 64) (st : State) : Host.Outcome State Fault Refusal :=
  st.command m cmd (.resume m cmd) fun s i => s.cmdResume i
/-- R365: KILL. -/
def execKill (m : Mbox) (cmd : BitVec 64) (st : State) : Host.Outcome State Fault Refusal :=
  st.command m cmd (.kill m cmd) fun s i => s.cmdKill i
/-- R312: HOLDCLR. -/
def execHoldclr (m : Mbox) (cmd : BitVec 64) (st : State) : Host.Outcome State Fault Refusal :=
  st.command m cmd (.holdclr m cmd) fun s i => s.cmdHoldclr i
/-- R348: ATTEST. -/
def execAttest (m : Mbox) (cmd : BitVec 64) (st : State) : Host.Outcome State Fault Refusal :=
  st.command m cmd (.attest m cmd) fun s i => s.cmdAttest i
/-- R387: STATE. -/
def execState (m : Mbox) (cmd : BitVec 64) (st : State) : Host.Outcome State Fault Refusal :=
  st.command m cmd (.state m cmd) fun s i => s.cmdState i false
/-- R387: STATE with SAVE. -/
def execStateSave (m : Mbox) (cmd : BitVec 64) (st : State) : Host.Outcome State Fault Refusal :=
  st.command m cmd (.stateSave m cmd) fun s i => s.cmdState i true
/-- R353: a code not in the table. -/
def execUnknownCommand (m : Mbox) (cmd : BitVec 64) (st : State) : Host.Outcome State Fault Refusal :=
  st.command m cmd (.unknownCommand m cmd) fun s i => i.refuse s .unknown
/-- R353: a write to CMD while BUSY. -/
def execOverrun (m : Mbox) (_cmd : BitVec 64) (st : State) : Host.Outcome State Fault Refusal :=
  .next (st.setMailbox m { st.mailbox m with overrun := true })

/-- R345, R353: BUSY falls, and CVEC is signalled; not before the stamped stores an INVAL waits for are visible, nor for a command that waits
itself. -/
def execMailboxCommandComplete (m : Mbox) (st : State) : Host.Outcome State Fault Refusal :=
  let x := st.mailbox m
  if x.queued || x.inval.any st.invalOpen then .next st
  else
    let s := st.setMailbox m { x with busy := false, inval := none }
    let s := match x.inval with | some v => s.endInval v | none => s
    .next (if x.busy && x.cvec != 0xFFFF then s.signal (.commandDone m x.cvec.toNat) else s)

/-- The command a code names (R353). -/
def State.byCode (s : State) (i : CmdIn) : CmdOut :=
  match i.cmd.toNat % 256 with
  | 0x01 => if i.flag 15 then s.cmdPartWrite i else s.cmdPartRead i
  | 0x02 => if i.flag 13 then s.cmdSubmitResume i else s.cmdSubmit i id
  | 0x03 => s.cmdInval i
  | 0x04 => s.cmdResume i
  | 0x05 => s.cmdKill i
  | 0x06 => s.cmdHoldclr i
  | 0x07 => s.cmdAttest i
  | 0x08 => s.cmdState i (i.flag 12)
  | _ => i.refuse s .unknown

/-- R352, R353: a vendor-defined message to a physical function brings a command; the answer carries STATUS, ARG0 to ARG3 and PAYLOAD. -/
def execVendorDefinedMessage (pf : Fin 2) (cmd : BitVec 64) (args : List (BitVec 64)) (payload : List (BitVec 8)) (st : State) :
    Host.Outcome State Fault Refusal :=
  let i : CmdIn := ⟨none, cmd &&& 0xFFFF, (args ++ [0, 0, 0, 0]).take 4, Bytes.writeN [] 0 payload⟩
  if st.invalRuns then .next { st with cmdWaits := st.cmdWaits ++ [.vendorDefinedMessage pf cmd args payload] }
  else
    let o := st.byCode i
    let answer : Signal := .message pf (BitVec.ofNat 32 (o.result.num * 2)) o.args (o.payload.readN 0 3840)
    match st.invalOf i with
    | none => .next (o.s.signal answer)
    | some v => .next (if st.invalOpen v then { o.s with replies := o.s.replies ++ [(v, answer)] } else (o.s.endInval v).signal answer)

/-- The event of a write to CMD, by its code. -/
def commandEvent (m : Mbox) (busy : Bool) (cmd : W64) : Instr :=
  if busy then .overrun m cmd
  else
    match cmd.toNat % 256 with
    | 0x01 => if cmd.getLsbD 15 then .partcfgWrite m cmd else .partcfgRead m cmd
    | 0x02 => if cmd.getLsbD 13 then .submitResume m cmd else .submit m cmd
    | 0x03 => .inval m cmd
    | 0x04 => .resume m cmd
    | 0x05 => .kill m cmd
    | 0x06 => .holdclr m cmd
    | 0x07 => .attest m cmd
    | 0x08 => if cmd.getLsbD 12 then .stateSave m cmd else .state m cmd
    | _ => .unknownCommand m cmd

/-! ## Register writes (R4, R5, R353, R363, R379, R385, R387) -/

/-- A write to a mailbox but for CMD: ARG0 to ARG3, CVEC and PAYLOAD take it; the rest is read-only. -/
def Mailbox.write (x : Mailbox) (off size : Nat) (v : W64) : Mailbox :=
  let args := x.args.zipIdx.map fun p => BitVec.ofNat 64 (overlay (0x10 + 8 * p.2) 8 p.1.toNat off size v)
  let bytes := (List.range size).filterMap fun k =>
    if 0x100 ≤ off + k ∧ off + k < 0x1000 then some (off + k - 0x100, BitVec.ofNat 8 (v.toNat / 2 ^ (8 * k))) else none
  { x with
    args := args, cvec := BitVec.ofNat 16 (overlay 0x30 2 x.cvec.toNat off size v)
    payload := bytes.foldl (fun (m : Bytes) (p : Nat × Byte) => m.write p.1 p.2) x.payload }

/-- A write to a mailbox at an offset: CMD starts a command, which is performed before anything that arrives after it (R352). The manual
gives no access sizes: a write at offset 0 is taken as the whole of CMD, and one at offsets 1 to 7 does nothing (log 52, DESIGN CHOICE). -/
def State.mailWrite (s : State) (m : Mbox) (off size : Nat) (v : W64) : State :=
  if off = 0 then { s with agenda := commandEvent m (s.mailbox m).busy v :: s.agenda } else s.setMailbox m ((s.mailbox m).write off size v)

/-- Clears a class counter when 0 is written to it (R325). -/
def State.classWrite (s : State) (k off : Nat) (v : W64) : State :=
  if v ≠ 0 ∨ off % 8 ≠ 0 ∨ 384 ≤ off then s
  else
    let q := s.part k
    let c := nth q.classes (off / 24) {}
    let c := match off / 8 % 3 with | 0 => { c with count := 0 } | 1 => { c with misses := 0 } | _ => { c with worst := 0 }
    s.setPart k { q with classes := setNth q.classes (off / 24) c }

/-- A write to a partition's window (R387): class counters, mailbox, fault ring, event rings, error log; the rest is read-only. -/
def State.windowWrite (s : State) (k off size : Nat) (v : W64) : State :=
  let q := s.part k
  if 0x1000 ≤ off && off < 0x1180 then s.classWrite k (off - 0x1000) v
  else if 0x2000 ≤ off && off < 0x3000 then s.mailWrite (.vf (Fin.ofNat 16 (fld (q.cfg 0 8) 8 4))) (off - 0x2000) size v
  else if 0x10000 ≤ off && off < 0x1001C then s.setPart k { q with faultRing := q.faultRing.writeFault (off - 0x10000) size v }
  else if 0x11000 ≤ off && off < 0x11200 then
    let r := (off - 0x11000) / 32
    s.setPart k { q with eventRings := setNth q.eventRings r ((nth q.eventRings r {}).writeEvent ((off - 0x11000) % 32) size v) }
  else if 0x12000 ≤ off && off < 0x1201C then s.setPart k { q with errorLog := q.errorLog.writeFault (off - 0x12000) size v }
  else s

/-- R4, R5, R353, R387: a register of a window is written. In BOOTFAIL the management window alone answers (R347). -/
def execRegisterWrite (w : WindowSel) (off size : Nat) (v : BitVec 64) (st : State) : Host.Outcome State Fault Refusal :=
  match w with
  | .partition vf =>
    match st.partOfVf vf.val with
    | some k => .next (if st.boot == .bootFail then st else st.windowWrite k off size v)
    | none => .next st
  | .management pf =>
    .next (
      if 0x1000 ≤ off && off < 0x2000 then st.mailWrite (.pf pf) (off - 0x1000) size v
      else if 0x2000 ≤ off && off < 0x2008 then
        { st with pwsel := setNth st.pwsel pf.val (overlay 0x2000 8 (nth st.pwsel pf.val 0) off size v % 16) }
      else if 0x20000 ≤ off && off < 0x2001C then { st with errorLog := st.errorLog.writeFault (off - 0x20000) size v }
      else if 0x2000000 ≤ off then st.windowWrite (nth st.pwsel pf.val 0) (off - 0x2000000) size v
      else st)

/-- R325: a class counter is written. -/
def execClassCounterWrite (part : Fin 16) (off : Nat) (v : BitVec 64) (st : State) : Host.Outcome State Fault Refusal :=
  .next (st.classWrite part.val off v)

/-! ## The host's BAR2 (R349, R350, R378) -/

/-- An address of 57 bits with its sign above them (R275). -/
def signed57 (v : Nat) : Nat := let t := v % 2 ^ 57; if t < 2 ^ 56 then t else t + (2 ^ 64 - 2 ^ 57)

/-- The virtual address of an offset of a partition's BAR2, if the BAR has it; there is none while the partition is not enabled (R339) or
the device is in BOOTFAIL (R347). -/
def State.barAddr (s : State) (k off n : Nat) : Option Nat :=
  let w := (s.part k).cfg 0x48 8
  if (s.part k).enabled && s.boot != .bootFail && decide (off + n ≤ 2 ^ (w % 64)) then some (signed57 (fld w 16 41 * 2 ^ 16 + off)) else none

/-- A host access faults: a record of kind 4. -/
def State.hostFault (s : State) (k : Nat) (code : FCode) (a : W64) : State :=
  (s.record k .hostAccess { code := code, kind := 4, faultAddr := a }).1

/-- Whether a range of a partition's addresses lies on a stamped page (R258). -/
def State.stampedAt (s : State) (k va n : Nat) : Bool :=
  (List.range (n / 65536 + 2)).any fun j =>
    let a := if j = 0 then va else (va / 65536 + j) * 65536
    decide (a < va + n) && match (s.translate none k true .write (BitVec.ofNat 64 a)).2 with | .ok x => x.stamped | .error _ => false

/-- Whether an event is an access through a partition's BAR2. -/
def isBar2 (k : Nat) (e : Instr) : Bool :=
  match e with | .hostBar2Write p _ _ => p.val == k | .hostBar2Read p _ _ => p.val == k | _ => false

/-- Whether a host access waits for a plane (R380), or behind an earlier one of its function that does (R350). -/
def State.barWaits (s : State) (k va n : Nat) (m : AccMode) : Bool :=
  s.linkWaits.any (isBar2 k) || (s.planeWait k true m va n (pagesOf n)).isSome

/-- R350, R349: a host write is performed at its home slice; one that faults returns Unsupported Request. -/
def execHostBar2Write (part : Fin 16) (off : Nat) (bytes : List (BitVec 8)) (st : State) : Host.Outcome State Fault Refusal :=
  let k := part.val
  match st.barAddr k off bytes.length with
  | none => .next (st.signal (.unsupportedRequest k))
  | some va =>
    if st.barWaits k va bytes.length .write then .next { st with linkWaits := st.linkWaits ++ [.hostBar2Write part off bytes] }
    else if st.stampedAt k va bytes.length then .next ((st.hostFault k .stampMix (BitVec.ofNat 64 va)).signal (.unsupportedRequest k))
    else
      match st.userWrite k va bytes (pagesOf bytes.length) with
      | (s, none) => .next s
      | (s, some (code, a, _)) => .next ((s.hostFault k code a).signal (.unsupportedRequest k))

/-- R349, R350, R378: a host read returns the latest value at the home slice; poison returns Completer Abort. -/
def execHostBar2Read (part : Fin 16) (off n : Nat) (st : State) : Host.Outcome State Fault Refusal :=
  let k := part.val
  match st.barAddr k off n with
  | none => .next (st.signal (.unsupportedRequest k))
  | some va =>
    if st.barWaits k va n .read then .next { st with linkWaits := st.linkWaits ++ [.hostBar2Read part off n] }
    else
    match st.tableRead k true va n (pagesOf n) with
    | .ok b => .next (st.signal (.bar2 k b))
    | .error (.ecc, a) => .next (((st.logPoisonVa k a (chunkLen a.toNat n) 0).hostFault k .ecc a).signal (.completerAbort k))
    | .error (code, a) => .next ((st.hostFault k code a).signal (.unsupportedRequest k))

end Sys2Proof.Machine
end

