-- ==== Sys2Proof/Machine/Group.lean ====
section
/-!
DEFINITION. The group instructions (R195 to R207), which see the members of one whole course, and the two uniform instructions
that report state of the course: vshape (R208) and clkiv (R209).
-/

namespace Sys2Proof.Machine

/-! ## Members and results -/

/-- A group instruction's result: its shape when every live thread is a member (R196), and each member's value. -/
structure GroupFn where
  wide : Bool := false
  shape : List Shape → Shape
  val : Course → List Nat → (Nat → List W64) → Nat → W64

/-- A group instruction on one course: every value is read from the members, then every member is written (R196). A thread whose
latch read is stale takes its fault and is no member (log 14). -/
def groupCourse (g : GroupFn) (d : Dst) (srcs : List Operand) (i : CourseIn) : CourseOut :=
  let vs := srcs.map fun o => srcView i.rd o.1 o.2
  let stale := staleLanes vs i.parts
  let ms := i.parts.filter fun l => !stale.contains l
  let full := i.full && stale.isEmpty
  let rd (l : Nat) : List W64 := vs.map fun v => v.val l
  let r : Result := ⟨if full then g.shape (vs.map fun v => v.shape) else .g, g.val i.course ms rd⟩
  let c := (i.course.noteFree vs ms).markSources srcs (i.lift.filter fun l => !stale.contains l)
  let c := if ms.isEmpty then c else (c.writeDst full ms g.wide d r).setLatch 0 i.gen ms g.wide d r
  ⟨c.reapSources srcs, staleReqs i.rd.index stale⟩

/-- Runs a group instruction. A lift that lacks a live thread of its course is formed only when every missing thread is blocked: the
threads present raise PARTIAL_MATRIX (R34, R195). -/
def State.group (s : State) (g : GroupFn) (d : Dst) (srcs : List Operand) : Host.Outcome State Fault Refusal :=
  match s.curTeam with
  | none => .next s
  | some t =>
    let partly := (coursesOf s.issue.lift).any fun c => !s.issue.whole c (t.course c)
    if partly then .next (s.deliver (s.issue.allRaise .partialMatrix 0))
    else s.courseUnit (.result 0 (d == .sup)) (groupCourse g d srcs)

/-- A value that every member receives. -/
def allU (_ : List Shape) : Shape := .u
/-- Per-lane values. -/
def allG (_ : List Shape) : Shape := .g

/-! ## shfl, census, match, isect -/

/-- R198. -/
def shflFn : GroupFn where
  shape := fun sh => if sh.headD .g == .u then .u else .g
  val := fun _ ms rd l =>
    let j := ((rd l).getD 1 0).toNat
    if decide (j < 32) && ms.contains j then (rd j).headD 0 else (rd l).headD 0

/-- The selectors of census (R199). -/
inductive Census where
  | mask | count | agree | first | last | rank
deriving DecidableEq, Repr

/-- R199. -/
def censusFn (k : Census) (p : PredSel) : GroupFn where
  shape := if k == .rank then allG else allU
  val := fun c ms _ l =>
    let on := ms.filter fun m => (c.thread m).predSel p
    match k with
    | .mask => zx64 (maskOf on)
    | .count => nat32 on.length
    | .agree => if on.isEmpty then 0 else if on.length = ms.length then 2 else 1
    | .first => nat32 (on.headD 32)
    | .last => nat32 (on.getLastD 32)
    | .rank => nat32 (on.filter fun m => decide (m < l)).length

/-- R200. -/
def matchFn : GroupFn where
  shape := allG
  val := fun _ ms rd l => zx64 (maskOf (ms.filter fun m => rd m == rd l))

/-- R207. -/
def isectFn : GroupFn where
  shape := allG
  val := fun _ ms rd l => nat32 ((ms.find? fun m => (rd m).getD 1 0 == (rd l).headD 0).getD 0xFFFFFFFF)

/-! ## Reductions and scans (R201 to R204) -/

/-- The combination of a kind (R201). -/
def redOp (k : RedKind) (a b : W64) : W64 :=
  let i32 (f : W32 → W32 → W32) : W64 := res32 (f (lo32 a) (lo32 b))
  let fp (f : Nat → Nat → Nat) : W64 := nat64 (f a.toNat b.toNat)
  match k with
  | .addI32 => i32 fun x y => x + y
  | .andB32 => i32 fun x y => x &&& y
  | .orB32 => i32 fun x y => x ||| y
  | .xorB32 => i32 fun x y => x ^^^ y
  | .maxI32 => i32 fun x y => if y.toInt ≤ x.toInt then x else y
  | .minI32 => i32 fun x y => if x.toInt ≤ y.toInt then x else y
  | .maxN32 => i32 fun x y => if y.toNat ≤ x.toNat then x else y
  | .minN32 => i32 fun x y => if x.toNat ≤ y.toNat then x else y
  | .addI64 => a + b
  | .addF32 => fp (Fmt.f32.add .rne)
  | .mulF32 => fp (Fmt.f32.mul .rne)
  | .maxF32 => fp (Fmt.f32.pick true false)
  | .minF32 => fp (Fmt.f32.pick false false)
  | .maxnF32 => fp (Fmt.f32.pick true true)
  | .minnF32 => fp (Fmt.f32.pick false true)
  | .addF64 => fp (Fmt.f64.add .rne)

/-- The empty result of a kind (R164). -/
def redEmpty : RedKind → W64
  | .addI32 | .orB32 | .xorB32 | .maxN32 | .addI64 | .addF32 | .addF64 => 0
  | .andB32 | .minN32 => 0xFFFFFFFF
  | .maxI32 => 0x80000000
  | .minI32 => 0x7FFFFFFF
  | .mulF32 => 0x3F800000
  | .maxF32 | .maxnF32 => 0xFF800000
  | .minF32 | .minnF32 => 0x7F800000

/-- A NaN becomes the canonical one (R202, Finish). -/
def redFinish (k : RedKind) : Option W64 → W64
  | none => redEmpty k
  | some v =>
    match k with
    | .addF32 | .mulF32 | .maxF32 | .minF32 | .maxnF32 | .minnF32 => if Fmt.f32.isNan v.toNat then nat64 Fmt.f32.qnan else v
    | .addF64 => if Fmt.f64.isNan v.toNat then nat64 Fmt.f64.qnan else v
    | .addI32 | .andB32 | .orB32 | .xorB32 | .maxI32 | .minI32 | .maxN32 | .minN32 | .addI64 => v

/-- Comb: PAD is `none`, the lower lane comes first (R202). -/
def comb (op : W64 → W64 → W64) : Option W64 → Option W64 → Option W64
  | none, b => b
  | a, none => a
  | some a, some b => some (op a b)

/-- Load (R202). -/
def loadLanes (ms : List Nat) (x : Nat → W64) : List (Option W64) := lanes32.map fun l => if ms.contains l then some (x l) else none

/-- One step of Tree. -/
def treeStep (op : W64 → W64 → W64) (y : List (Option W64)) (st : Nat) : List (Option W64) :=
  lanes32.map fun l =>
    let lo := l - l / st % 2 * st
    comb op (nth y lo none) (nth y (lo + st) none)

/-- Tree (R202): the value every lane holds. -/
def treeOf (op : W64 → W64 → W64) (y : List (Option W64)) : Option W64 := nth ([1, 2, 4, 8, 16].foldl (treeStep op) y) 0 none

/-- Prefix (R202). -/
def runningOf (op : W64 → W64 → W64) (y : List (Option W64)) : List (Option W64) :=
  [1, 2, 4, 8, 16].foldl (fun y st => lanes32.map fun l =>
    if st ≤ l then comb op (nth y (l - st) none) (nth y l none) else nth y l none) y

/-- R203. -/
def redFn (k : RedKind) : GroupFn where
  wide := k.wide
  shape := allU
  val := fun _ ms rd _ => redFinish k (treeOf (redOp k) (loadLanes ms fun l => (rd l).headD 0))

/-- R204. -/
def scanFn (k : RedKind) (ex : Bool) : GroupFn where
  wide := k.wide
  shape := allG
  val := fun _ ms rd l =>
    let y := loadLanes ms fun m => (rd m).headD 0
    let z := if ex then lanes32.map fun m => if m = 0 then none else nth y (m - 1) none else y
    redFinish k (nth (runningOf (redOp k) z) l none)

/-! ## maxi, mini, selk (R205, R206) -/

/-- The value types of maxi and mini. -/
inductive MaxTy where
  | f32 | f16 | bf16 | i32 | n32
deriving DecidableEq, Repr

/-- The value of a candidate: bits of the low name that count. -/
def MaxTy.value (t : MaxTy) (v : W64) : Nat :=
  match t with
  | .f16 | .bf16 => elem 16 0 v
  | .f32 | .i32 | .n32 => elem 32 0 v

/-- Its key in the order of R165: for maxi the largest wins, for mini the smallest; a NaN wins both. -/
def MaxTy.key (t : MaxTy) (wantMax : Bool) (v : W64) : Nat :=
  let x := t.value v
  let fp (f : Fmt) : Nat := if !wantMax && f.isNan x then 0 else f.ord x
  match t with
  | .f32 => fp .f32
  | .f16 => fp .f16
  | .bf16 => fp .bf16
  | .i32 => (x + 2 ^ 31) % 2 ^ 32
  | .n32 => x

/-- Whether candidate `a` is at least as good as `b`. -/
def MaxTy.wins (t : MaxTy) (wantMax : Bool) (a b : W64) : Bool :=
  let x := t.key wantMax a
  let y := t.key wantMax b
  if x = y then decide (elem 32 1 a ≤ elem 32 1 b) else if wantMax then decide (y < x) else decide (x < y)

/-- The winner as it is written: a NaN as the canonical one, a 16-bit value zero-extended. -/
def MaxTy.finish (t : MaxTy) (v : W64) : W64 :=
  let x := t.value v
  let canon (f : Fmt) : Nat := if f.isNan x then f.qnan else x
  packed 32 (match t with
    | .f32 => canon .f32
    | .f16 => canon .f16
    | .bf16 => canon .bf16
    | .i32 | .n32 => x) (elem 32 1 v)

/-- R205. -/
def maxiFn (t : MaxTy) (wantMax : Bool) : GroupFn where
  wide := true
  shape := allU
  val := fun _ ms rd _ =>
    t.finish ((treeOf (fun a b => if t.wins wantMax a b then a else b) (loadLanes ms fun l => (rd l).headD 0)).getD 0)

/-- The padding pair of selk (R164). -/
def selkPad : W64 := 0xFFFFFFFFFF800000

/-- R206. -/
def selkFn : GroupFn where
  wide := true
  shape := allG
  val := fun _ ms rd l =>
    let ranked := sortBy (fun a b => MaxTy.wins .f32 true a b) (ms.map fun m => (rd m).headD 0)
    let k := ((rd l).getD 1 0).toNat
    if l < k then (match ranked[l]? with | some v => MaxTy.finish .f32 v | none => selkPad) else selkPad

/-! ## The meanings -/

/-- R198. -/
def execShfl (d : Dst) (a b : Src) (st : State) : Host.Outcome State Fault Refusal := st.group shflFn d [(.b32, a), (.b32, b)]
/-- R199. -/
def execCensusMask (d : Dst) (p : PredSel) (st : State) : Host.Outcome State Fault Refusal := st.group (censusFn .mask p) d []
/-- R199. -/
def execCensusCount (d : Dst) (p : PredSel) (st : State) : Host.Outcome State Fault Refusal := st.group (censusFn .count p) d []
/-- R199. -/
def execCensusAgree (d : Dst) (p : PredSel) (st : State) : Host.Outcome State Fault Refusal := st.group (censusFn .agree p) d []
/-- R199. -/
def execCensusFirst (d : Dst) (p : PredSel) (st : State) : Host.Outcome State Fault Refusal := st.group (censusFn .first p) d []
/-- R199. -/
def execCensusLast (d : Dst) (p : PredSel) (st : State) : Host.Outcome State Fault Refusal := st.group (censusFn .last p) d []
/-- R199. -/
def execCensusRank (d : Dst) (p : PredSel) (st : State) : Host.Outcome State Fault Refusal := st.group (censusFn .rank p) d []
/-- R200. -/
def execMatchKeys (d : Dst) (a b : Src) (st : State) : Host.Outcome State Fault Refusal := st.group matchFn d [(.b32, a), (.b32, b)]
/-- R203. -/
def execRed (d : Dst) (a : Src) (k : RedKind) (st : State) : Host.Outcome State Fault Refusal := st.group (redFn k) d [(k.ty, a)]
/-- R204. -/
def execScan (d : Dst) (a : Src) (k : RedKind) (ex : Bool) (st : State) : Host.Outcome State Fault Refusal :=
  st.group (scanFn k ex) d [(k.ty, a)]
/-- R205. -/
def execMaxiF32 (d : Dst) (a : Src) (st : State) : Host.Outcome State Fault Refusal := st.group (maxiFn .f32 true) d [(.b64, a)]
/-- R205. -/
def execMiniF32 (d : Dst) (a : Src) (st : State) : Host.Outcome State Fault Refusal := st.group (maxiFn .f32 false) d [(.b64, a)]
/-- R205. -/
def execMaxiF16 (d : Dst) (a : Src) (st : State) : Host.Outcome State Fault Refusal := st.group (maxiFn .f16 true) d [(.b64, a)]
/-- R205. -/
def execMiniF16 (d : Dst) (a : Src) (st : State) : Host.Outcome State Fault Refusal := st.group (maxiFn .f16 false) d [(.b64, a)]
/-- R205. -/
def execMaxiBf16 (d : Dst) (a : Src) (st : State) : Host.Outcome State Fault Refusal := st.group (maxiFn .bf16 true) d [(.b64, a)]
/-- R205. -/
def execMiniBf16 (d : Dst) (a : Src) (st : State) : Host.Outcome State Fault Refusal := st.group (maxiFn .bf16 false) d [(.b64, a)]
/-- R205. -/
def execMaxiI32 (d : Dst) (a : Src) (st : State) : Host.Outcome State Fault Refusal := st.group (maxiFn .i32 true) d [(.b64, a)]
/-- R205. -/
def execMiniI32 (d : Dst) (a : Src) (st : State) : Host.Outcome State Fault Refusal := st.group (maxiFn .i32 false) d [(.b64, a)]
/-- R205. -/
def execMaxiN32 (d : Dst) (a : Src) (st : State) : Host.Outcome State Fault Refusal := st.group (maxiFn .n32 true) d [(.b64, a)]
/-- R205. -/
def execMiniN32 (d : Dst) (a : Src) (st : State) : Host.Outcome State Fault Refusal := st.group (maxiFn .n32 false) d [(.b64, a)]
/-- R206. -/
def execSelk (d : Dst) (a b : Src) (st : State) : Host.Outcome State Fault Refusal := st.group selkFn d [(.b64, a), (.b32, b)]
/-- R207. -/
def execIsect (d : Dst) (a b : Src) (st : State) : Host.Outcome State Fault Refusal := st.group isectFn d [(.b32, a), (.b32, b)]

/-! ## vshape and clkiv -/

/-- The shape word of what vshape names, for the course's lowest participating thread (R208). -/
def vshapeOf (i : CourseIn) (r : VsRef) : Nat :=
  match r with
  | .reg n => nameCode i.course.names n.val + (if isLinked i.course.names n.val then 4 else 0)
  | .opf n => nameCode i.course.opf n.val
  | .latch k =>
    match (i.course.thread i.lead).savedFor k.val with
    | some sv => if sv.record.valid && hasLane sv.record.lanes i.lead then sv.record.val.shape.code else 0
    | none =>
      let rec' := nth i.course.latches k.val {}
      if rec'.valid && hasLane rec'.lanes i.lead then rec'.val.shape.code else 0

/-- R208 on one course; the result goes to b2 (R194). -/
def vshapeCourse (d : Dst) (r : VsRef) (i : CourseIn) : CourseOut :=
  if i.parts.isEmpty then ⟨i.course, []⟩
  else
    let v := nat32 (vshapeOf i r)
    ⟨(i.course.writeUniform i false d v).setLatch 2 i.gen i.parts false d ⟨if i.all then .u else .g, fun _ => v⟩, []⟩

/-- R208. -/
def execVshape (d : Dst) (r : VsRef) (st : State) : Host.Outcome State Fault Refusal :=
  st.courseUnit (.result 2 (d == .sup)) (vshapeCourse d r)

/-- R209 on one course, with its reading. -/
def clkivCourse (d : Nat) (els : FMap (Nat × Nat)) (i : CourseIn) : CourseOut :=
  if i.parts.isEmpty then ⟨i.course, []⟩
  else
    let el := (FMap.get els i.rd.index).getD (0, 0)
    let put (c : Course) (n : Nat) (v : W64) : Course := c.writeReg i.all i.parts true n ⟨if i.all then .u else .g, fun _ => v⟩
    ⟨(put (put i.course d (nat64 el.1)) (d + 2) (nat64 el.2)).dropLatch 2 i.parts, []⟩

/-- The readings of the courses of a lift, in ascending course index. -/
def State.readClocks (s : State) (die : Nat) (cs : List Nat) : State × FMap (Nat × Nat) :=
  cs.foldl (fun acc c =>
    let (s, e, l) := acc.1.readClock die
    (s, FMap.set acc.2 c (e, l))) (s, [])

/-- R209: one reading a course. -/
def execClkiv (d : Fin 64) (st : State) : Host.Outcome State Fault Refusal :=
  match st.curTeam with
  | none => .next st
  | some t =>
    let (s, els) := st.readClocks (dieOfCore t.core) (coursesOf st.issue.parts)
    s.courseUnit .none (clkivCourse d.val els)

end Sys2Proof.Machine
end

