-- ==== Sys2Proof/Machine/Uniform.lean ====
section
/-!
DEFINITION. The uniform arithmetic instructions (R95, R193): each computes its lane twin's function once per course (R63) and
leaves its result in b2 (R194).
-/

namespace Sys2Proof.Machine

/-- R95. -/
def execSaddB32 (d : Dst) (a b : Src) (st : State) : Host.Outcome State Fault Refusal :=
  st.uniFn fnAddB32 d [a, b]
/-- R95. -/
def execSaddB64 (d : Dst) (a b : Src) (st : State) : Host.Outcome State Fault Refusal :=
  st.uniFn fnAddB64 d [a, b]
/-- R95. -/
def execSsubB32 (d : Dst) (a b : Src) (st : State) : Host.Outcome State Fault Refusal :=
  st.uniFn fnSubB32 d [a, b]
/-- R95. -/
def execSsubB64 (d : Dst) (a b : Src) (st : State) : Host.Outcome State Fault Refusal :=
  st.uniFn fnSubB64 d [a, b]
/-- R95. -/
def execSaddiB32 (d : Dst) (a : Src) (imm : BitVec 9) (st : State) : Host.Outcome State Fault Refusal :=
  st.uniFn (fnAddiB32 imm) d [a]
/-- R95. -/
def execSaddiB64 (d : Dst) (a : Src) (imm : BitVec 9) (st : State) : Host.Outcome State Fault Refusal :=
  st.uniFn (fnAddiB64 imm) d [a]
/-- R95. -/
def execSmulB32 (d : Dst) (a b : Src) (st : State) : Host.Outcome State Fault Refusal :=
  st.uniFn fnMulB32 d [a, b]
/-- R95. -/
def execSmulB64 (d : Dst) (a b : Src) (st : State) : Host.Outcome State Fault Refusal :=
  st.uniFn fnMulB64 d [a, b]
/-- R95. -/
def execSmulhiI32 (d : Dst) (a b : Src) (st : State) : Host.Outcome State Fault Refusal :=
  st.uniFn fnMulhiI32 d [a, b]
/-- R95. -/
def execSmulhiN32 (d : Dst) (a b : Src) (st : State) : Host.Outcome State Fault Refusal :=
  st.uniFn fnMulhiN32 d [a, b]
/-- R95. -/
def execSmulwI32 (d : Dst) (a b : Src) (st : State) : Host.Outcome State Fault Refusal :=
  st.uniFn fnMulwI32 d [a, b]
/-- R95. -/
def execSmulwN32 (d : Dst) (a b : Src) (st : State) : Host.Outcome State Fault Refusal :=
  st.uniFn fnMulwN32 d [a, b]
/-- R95. -/
def execSdivI32 (d : Dst) (a b : Src) (st : State) : Host.Outcome State Fault Refusal :=
  st.uniFn fnDivI32 d [a, b]
/-- R95. -/
def execSdivN32 (d : Dst) (a b : Src) (st : State) : Host.Outcome State Fault Refusal :=
  st.uniFn fnDivN32 d [a, b]
/-- R95. -/
def execSremI32 (d : Dst) (a b : Src) (st : State) : Host.Outcome State Fault Refusal :=
  st.uniFn fnRemI32 d [a, b]
/-- R95. -/
def execSremN32 (d : Dst) (a b : Src) (st : State) : Host.Outcome State Fault Refusal :=
  st.uniFn fnRemN32 d [a, b]
/-- R95. -/
def execSandB32 (d : Dst) (a b : Src) (st : State) : Host.Outcome State Fault Refusal :=
  st.uniFn fnAndB32 d [a, b]
/-- R95. -/
def execSorB32 (d : Dst) (a b : Src) (st : State) : Host.Outcome State Fault Refusal :=
  st.uniFn fnOrB32 d [a, b]
/-- R95. -/
def execSxorB32 (d : Dst) (a b : Src) (st : State) : Host.Outcome State Fault Refusal :=
  st.uniFn fnXorB32 d [a, b]
/-- R95. -/
def execSbfiB32 (d : Dst) (a b : Src) (st : State) : Host.Outcome State Fault Refusal :=
  st.uniFn fnBfiB32 d [a, b]
/-- R95. -/
def execSandB64 (d : Dst) (a b : Src) (st : State) : Host.Outcome State Fault Refusal :=
  st.uniFn fnAndB64 d [a, b]
/-- R95. -/
def execSorB64 (d : Dst) (a b : Src) (st : State) : Host.Outcome State Fault Refusal :=
  st.uniFn fnOrB64 d [a, b]
/-- R95. -/
def execSxorB64 (d : Dst) (a b : Src) (st : State) : Host.Outcome State Fault Refusal :=
  st.uniFn fnXorB64 d [a, b]
/-- R95. -/
def execSlea (d : Dst) (a b : Src) (st : State) : Host.Outcome State Fault Refusal :=
  st.uniFn fnLea d [a, b]
/-- R95. -/
def execSshlB32 (d : Dst) (a b : Src) (st : State) : Host.Outcome State Fault Refusal :=
  st.uniFn fnShlB32 d [a, b]
/-- R95. -/
def execSshrN32 (d : Dst) (a b : Src) (st : State) : Host.Outcome State Fault Refusal :=
  st.uniFn fnShrN32 d [a, b]
/-- R95. -/
def execSshrI32 (d : Dst) (a b : Src) (st : State) : Host.Outcome State Fault Refusal :=
  st.uniFn fnShrI32 d [a, b]
/-- R193. -/
def execSfaddF32 (d : Dst) (a b : Src) (st : State) : Host.Outcome State Fault Refusal :=
  st.uniFn fnFaddF32 d [a, b]
/-- R193. -/
def execSfsubF32 (d : Dst) (a b : Src) (st : State) : Host.Outcome State Fault Refusal :=
  st.uniFn fnFsubF32 d [a, b]
/-- R193. -/
def execSfmulF32 (d : Dst) (a b : Src) (st : State) : Host.Outcome State Fault Refusal :=
  st.uniFn fnFmulF32 d [a, b]
/-- R193. -/
def execSffmaF32 (d : Dst) (a b : Src) (st : State) : Host.Outcome State Fault Refusal :=
  st.uniFn fnFfmaF32 d [a, b]
/-- R193. -/
def execSfaddF64 (d : Dst) (a b : Src) (st : State) : Host.Outcome State Fault Refusal :=
  st.uniFn fnFaddF64 d [a, b]
/-- R193. -/
def execSfsubF64 (d : Dst) (a b : Src) (st : State) : Host.Outcome State Fault Refusal :=
  st.uniFn fnFsubF64 d [a, b]
/-- R193. -/
def execSfmulF64 (d : Dst) (a b : Src) (st : State) : Host.Outcome State Fault Refusal :=
  st.uniFn fnFmulF64 d [a, b]
/-- R193. -/
def execSffmaF64 (d : Dst) (a b : Src) (st : State) : Host.Outcome State Fault Refusal :=
  st.uniFn fnFfmaF64 d [a, b]
/-- R193. -/
def execSfminF32 (d : Dst) (a b : Src) (st : State) : Host.Outcome State Fault Refusal :=
  st.uniFn fnFminF32 d [a, b]
/-- R193. -/
def execSfmaxF32 (d : Dst) (a b : Src) (st : State) : Host.Outcome State Fault Refusal :=
  st.uniFn fnFmaxF32 d [a, b]
/-- R193. -/
def execSrcpF32 (d : Dst) (a : Src) (st : State) : Host.Outcome State Fault Refusal :=
  st.uniFn fnRcpF32 d [a]
/-- R193. -/
def execSrsqF32 (d : Dst) (a : Src) (st : State) : Host.Outcome State Fault Refusal :=
  st.uniFn fnRsqF32 d [a]
/-- R193. -/
def execSsqrtF32 (d : Dst) (a : Src) (st : State) : Host.Outcome State Fault Refusal :=
  st.uniFn fnSqrtF32 d [a]
/-- R193. -/
def execSexp2F32 (d : Dst) (a : Src) (st : State) : Host.Outcome State Fault Refusal :=
  st.uniFn fnExp2F32 d [a]
/-- R193. -/
def execSlog2F32 (d : Dst) (a : Src) (st : State) : Host.Outcome State Fault Refusal :=
  st.uniFn fnLog2F32 d [a]
/-- R193. -/
def execSsinpiF32 (d : Dst) (a : Src) (st : State) : Host.Outcome State Fault Refusal :=
  st.uniFn fnSinpiF32 d [a]
/-- R193. -/
def execScospiF32 (d : Dst) (a : Src) (st : State) : Host.Outcome State Fault Refusal :=
  st.uniFn fnCospiF32 d [a]
/-- R193. -/
def execStanhF32 (d : Dst) (a : Src) (st : State) : Host.Outcome State Fault Refusal :=
  st.uniFn fnTanhF32 d [a]
/-- R193. -/
def execSfdivF32 (d : Dst) (a b : Src) (st : State) : Host.Outcome State Fault Refusal :=
  st.uniFn fnDivF32 d [a, b]
/-- R193. -/
def execScvtF32 (d : Dst) (a : Src) (s : CvtSrc) (rm : Round) (sat : Bool) (st : State) : Host.Outcome State Fault Refusal :=
  st.uniFn (fnCvtF32 s rm sat) d [a]
/-- R193. -/
def execScvtI32 (d : Dst) (a : Src) (s : CvtSrc) (rm : Round) (sat : Bool) (st : State) : Host.Outcome State Fault Refusal :=
  st.uniFn (fnCvtI32 s rm sat) d [a]
/-- R95. -/
def execSbit (d : Dst) (a : Src) (k : BitOp) (st : State) : Host.Outcome State Fault Refusal := st.uniFn (fnBit k) d [a]
/-- R95. -/
def execSsetpI32 (c : Cond) (p : Fin 12) (a b : Src) (st : State) : Host.Outcome State Fault Refusal :=
  st.uniPred p.val [(.b32, a), (.b32, b)] (pred2 (cmpInt true false c))
/-- R95. -/
def execSsetpN32 (c : Cond) (p : Fin 12) (a b : Src) (st : State) : Host.Outcome State Fault Refusal :=
  st.uniPred p.val [(.b32, a), (.b32, b)] (pred2 (cmpInt false false c))
/-- R95. -/
def execSsetpI64 (c : Cond) (p : Fin 12) (a b : Src) (st : State) : Host.Outcome State Fault Refusal :=
  st.uniPred p.val [(.i64, a), (.i64, b)] (pred2 (cmpInt true true c))
/-- R95. -/
def execSsetpN64 (c : Cond) (p : Fin 12) (a b : Src) (st : State) : Host.Outcome State Fault Refusal :=
  st.uniPred p.val [(.b64, a), (.b64, b)] (pred2 (cmpInt false true c))
/-- R193. -/
def execSfsetpF32 (c : Cond) (p : Fin 12) (a b : Src) (st : State) : Host.Outcome State Fault Refusal :=
  st.uniPred p.val [(.f32, a), (.f32, b)] (pred2 (cmpFp .f32 c))
/-- R193. -/
def execSfsetpF64 (c : Cond) (p : Fin 12) (a b : Src) (st : State) : Host.Outcome State Fault Refusal :=
  st.uniPred p.val [(.f64, a), (.f64, b)] (pred2 (cmpFp .f64 c))

end Sys2Proof.Machine
end

