-- ==== Sys2Proof/Machine/Dispatch.lean ====
section
/-! DEFINITION. What each instruction does: one arm a constructor of Instr. -/

namespace Sys2Proof.Machine

def exec (i : Instr) (s : State) : Host.Outcome State Fault Refusal :=
  match i with
  | .addB32 d a b => Sys2Proof.Machine.execAddB32 d a b s
  | .addB64 d a b => Sys2Proof.Machine.execAddB64 d a b s
  | .subB32 d a b => Sys2Proof.Machine.execSubB32 d a b s
  | .subB64 d a b => Sys2Proof.Machine.execSubB64 d a b s
  | .addiB32 d a imm => Sys2Proof.Machine.execAddiB32 d a imm s
  | .addiB64 d a imm => Sys2Proof.Machine.execAddiB64 d a imm s
  | .mulB32 d a b => Sys2Proof.Machine.execMulB32 d a b s
  | .mulB64 d a b => Sys2Proof.Machine.execMulB64 d a b s
  | .mulhiI32 d a b => Sys2Proof.Machine.execMulhiI32 d a b s
  | .mulhiN32 d a b => Sys2Proof.Machine.execMulhiN32 d a b s
  | .mulwI32 d a b => Sys2Proof.Machine.execMulwI32 d a b s
  | .mulwN32 d a b => Sys2Proof.Machine.execMulwN32 d a b s
  | .divI32 d a b => Sys2Proof.Machine.execDivI32 d a b s
  | .divN32 d a b => Sys2Proof.Machine.execDivN32 d a b s
  | .remI32 d a b => Sys2Proof.Machine.execRemI32 d a b s
  | .remN32 d a b => Sys2Proof.Machine.execRemN32 d a b s
  | .andB32 d a b => Sys2Proof.Machine.execAndB32 d a b s
  | .orB32 d a b => Sys2Proof.Machine.execOrB32 d a b s
  | .xorB32 d a b => Sys2Proof.Machine.execXorB32 d a b s
  | .bfiB32 d a b => Sys2Proof.Machine.execBfiB32 d a b s
  | .andB64 d a b => Sys2Proof.Machine.execAndB64 d a b s
  | .orB64 d a b => Sys2Proof.Machine.execOrB64 d a b s
  | .xorB64 d a b => Sys2Proof.Machine.execXorB64 d a b s
  | .lea d a b => Sys2Proof.Machine.execLea d a b s
  | .shlB32 d a b => Sys2Proof.Machine.execShlB32 d a b s
  | .shrN32 d a b => Sys2Proof.Machine.execShrN32 d a b s
  | .shrI32 d a b => Sys2Proof.Machine.execShrI32 d a b s
  | .shlB64 d a b => Sys2Proof.Machine.execShlB64 d a b s
  | .shrN64 d a b => Sys2Proof.Machine.execShrN64 d a b s
  | .shrI64 d a b => Sys2Proof.Machine.execShrI64 d a b s
  | .bfxB32 d a b => Sys2Proof.Machine.execBfxB32 d a b s
  | .notB32 d a => Sys2Proof.Machine.execNotB32 d a s
  | .popcB32 d a => Sys2Proof.Machine.execPopcB32 d a s
  | .clzB32 d a => Sys2Proof.Machine.execClzB32 d a s
  | .ctzB32 d a => Sys2Proof.Machine.execCtzB32 d a s
  | .brevB32 d a => Sys2Proof.Machine.execBrevB32 d a s
  | .bswapB32 d a => Sys2Proof.Machine.execBswapB32 d a s
  | .sextI8 d a => Sys2Proof.Machine.execSextI8 d a s
  | .sextI16 d a => Sys2Proof.Machine.execSextI16 d a s
  | .notB64 d a => Sys2Proof.Machine.execNotB64 d a s
  | .popcB64 d a => Sys2Proof.Machine.execPopcB64 d a s
  | .clzB64 d a => Sys2Proof.Machine.execClzB64 d a s
  | .ctzB64 d a => Sys2Proof.Machine.execCtzB64 d a s
  | .brevB64 d a => Sys2Proof.Machine.execBrevB64 d a s
  | .bswapB64 d a => Sys2Proof.Machine.execBswapB64 d a s
  | .sextI32 d a => Sys2Proof.Machine.execSextI32 d a s
  | .zextN32 d a => Sys2Proof.Machine.execZextN32 d a s
  | .setpI32 c p a b => Sys2Proof.Machine.execSetpI32 c p a b s
  | .setpN32 c p a b => Sys2Proof.Machine.execSetpN32 c p a b s
  | .setpI64 c p a b => Sys2Proof.Machine.execSetpI64 c p a b s
  | .setpN64 c p a b => Sys2Proof.Machine.execSetpN64 c p a b s
  | .minN32 d a b => Sys2Proof.Machine.execMinN32 d a b s
  | .maxN32 d a b => Sys2Proof.Machine.execMaxN32 d a b s
  | .minI32 d a b => Sys2Proof.Machine.execMinI32 d a b s
  | .maxI32 d a b => Sys2Proof.Machine.execMaxI32 d a b s
  | .faddF32 d a b => Sys2Proof.Machine.execFaddF32 d a b s
  | .fsubF32 d a b => Sys2Proof.Machine.execFsubF32 d a b s
  | .fmulF32 d a b => Sys2Proof.Machine.execFmulF32 d a b s
  | .ffmaF32 d a b => Sys2Proof.Machine.execFfmaF32 d a b s
  | .faddF64 d a b => Sys2Proof.Machine.execFaddF64 d a b s
  | .fsubF64 d a b => Sys2Proof.Machine.execFsubF64 d a b s
  | .fmulF64 d a b => Sys2Proof.Machine.execFmulF64 d a b s
  | .ffmaF64 d a b => Sys2Proof.Machine.execFfmaF64 d a b s
  | .faddRzF32 d a b => Sys2Proof.Machine.execFaddRzF32 d a b s
  | .faddRuF32 d a b => Sys2Proof.Machine.execFaddRuF32 d a b s
  | .faddRdF32 d a b => Sys2Proof.Machine.execFaddRdF32 d a b s
  | .fmulRzF32 d a b => Sys2Proof.Machine.execFmulRzF32 d a b s
  | .ffmaRzF32 d a b => Sys2Proof.Machine.execFfmaRzF32 d a b s
  | .ffmaRuF32 d a b => Sys2Proof.Machine.execFfmaRuF32 d a b s
  | .ffmaRdF32 d a b => Sys2Proof.Machine.execFfmaRdF32 d a b s
  | .ffmaSatF32 d a b => Sys2Proof.Machine.execFfmaSatF32 d a b s
  | .faddF16x2 d a b => Sys2Proof.Machine.execFaddF16x2 d a b s
  | .fsubF16x2 d a b => Sys2Proof.Machine.execFsubF16x2 d a b s
  | .fmulF16x2 d a b => Sys2Proof.Machine.execFmulF16x2 d a b s
  | .ffmaF16x2 d a b => Sys2Proof.Machine.execFfmaF16x2 d a b s
  | .faddBf16x2 d a b => Sys2Proof.Machine.execFaddBf16x2 d a b s
  | .fsubBf16x2 d a b => Sys2Proof.Machine.execFsubBf16x2 d a b s
  | .fmulBf16x2 d a b => Sys2Proof.Machine.execFmulBf16x2 d a b s
  | .ffmaBf16x2 d a b => Sys2Proof.Machine.execFfmaBf16x2 d a b s
  | .fnegF32 d a => Sys2Proof.Machine.execFnegF32 d a s
  | .fabsF32 d a => Sys2Proof.Machine.execFabsF32 d a s
  | .fnegF64 d a => Sys2Proof.Machine.execFnegF64 d a s
  | .fabsF64 d a => Sys2Proof.Machine.execFabsF64 d a s
  | .fminF64 d a b => Sys2Proof.Machine.execFminF64 d a b s
  | .fmaxF64 d a b => Sys2Proof.Machine.execFmaxF64 d a b s
  | .fminnF64 d a b => Sys2Proof.Machine.execFminnF64 d a b s
  | .fmaxnF64 d a b => Sys2Proof.Machine.execFmaxnF64 d a b s
  | .fsetpF32 c p a b => Sys2Proof.Machine.execFsetpF32 c p a b s
  | .fsetpF64 c p a b => Sys2Proof.Machine.execFsetpF64 c p a b s
  | .fclassF32 u p a m => Sys2Proof.Machine.execFclassF32 u p a m s
  | .fclassF64 u p a m => Sys2Proof.Machine.execFclassF64 u p a m s
  | .fminF32 d a b => Sys2Proof.Machine.execFminF32 d a b s
  | .fmaxF32 d a b => Sys2Proof.Machine.execFmaxF32 d a b s
  | .fminnF32 d a b => Sys2Proof.Machine.execFminnF32 d a b s
  | .fmaxnF32 d a b => Sys2Proof.Machine.execFmaxnF32 d a b s
  | .cvtF32 d a x_s rm sat => Sys2Proof.Machine.execCvtF32 d a x_s rm sat s
  | .cvtF64 d a x_s rm sat => Sys2Proof.Machine.execCvtF64 d a x_s rm sat s
  | .cvtH16 d a x_s rm sat bf => Sys2Proof.Machine.execCvtH16 d a x_s rm sat bf s
  | .cvtF8 d a x_s rm sat e5 => Sys2Proof.Machine.execCvtF8 d a x_s rm sat e5 s
  | .cvtI32 d a x_s rm sat => Sys2Proof.Machine.execCvtI32 d a x_s rm sat s
  | .cvtN32 d a x_s rm sat => Sys2Proof.Machine.execCvtN32 d a x_s rm sat s
  | .cvtI64 d a x_s rm sat => Sys2Proof.Machine.execCvtI64 d a x_s rm sat s
  | .cvtN64 d a x_s rm sat => Sys2Proof.Machine.execCvtN64 d a x_s rm sat s
  | .rcpF32 d a => Sys2Proof.Machine.execRcpF32 d a s
  | .rsqF32 d a => Sys2Proof.Machine.execRsqF32 d a s
  | .sqrtF32 d a => Sys2Proof.Machine.execSqrtF32 d a s
  | .exp2F32 d a => Sys2Proof.Machine.execExp2F32 d a s
  | .log2F32 d a => Sys2Proof.Machine.execLog2F32 d a s
  | .sinpiF32 d a => Sys2Proof.Machine.execSinpiF32 d a s
  | .cospiF32 d a => Sys2Proof.Machine.execCospiF32 d a s
  | .tanhF32 d a => Sys2Proof.Machine.execTanhF32 d a s
  | .divF32 d a b => Sys2Proof.Machine.execDivF32 d a b s
  | .rcpF64 d a => Sys2Proof.Machine.execRcpF64 d a s
  | .rsqF64 d a => Sys2Proof.Machine.execRsqF64 d a s
  | .sqrtF64 d a => Sys2Proof.Machine.execSqrtF64 d a s
  | .exp2F64 d a => Sys2Proof.Machine.execExp2F64 d a s
  | .log2F64 d a => Sys2Proof.Machine.execLog2F64 d a s
  | .sinpiF64 d a => Sys2Proof.Machine.execSinpiF64 d a s
  | .cospiF64 d a => Sys2Proof.Machine.execCospiF64 d a s
  | .tanhF64 d a => Sys2Proof.Machine.execTanhF64 d a s
  | .divF64 d a b => Sys2Proof.Machine.execDivF64 d a b s
  | .rand d a => Sys2Proof.Machine.execRand d a s
  | .ffmaF32x2 d a b => Sys2Proof.Machine.execFfmaF32x2 d a b s
  | .shfl d a b => Sys2Proof.Machine.execShfl d a b s
  | .censusMask d p => Sys2Proof.Machine.execCensusMask d p s
  | .censusCount d p => Sys2Proof.Machine.execCensusCount d p s
  | .censusAgree d p => Sys2Proof.Machine.execCensusAgree d p s
  | .censusFirst d p => Sys2Proof.Machine.execCensusFirst d p s
  | .censusLast d p => Sys2Proof.Machine.execCensusLast d p s
  | .censusRank d p => Sys2Proof.Machine.execCensusRank d p s
  | .matchKeys d a b => Sys2Proof.Machine.execMatchKeys d a b s
  | .red d a k => Sys2Proof.Machine.execRed d a k s
  | .scan d a k ex => Sys2Proof.Machine.execScan d a k ex s
  | .maxiF32 d a => Sys2Proof.Machine.execMaxiF32 d a s
  | .miniF32 d a => Sys2Proof.Machine.execMiniF32 d a s
  | .maxiF16 d a => Sys2Proof.Machine.execMaxiF16 d a s
  | .miniF16 d a => Sys2Proof.Machine.execMiniF16 d a s
  | .maxiBf16 d a => Sys2Proof.Machine.execMaxiBf16 d a s
  | .miniBf16 d a => Sys2Proof.Machine.execMiniBf16 d a s
  | .maxiI32 d a => Sys2Proof.Machine.execMaxiI32 d a s
  | .miniI32 d a => Sys2Proof.Machine.execMiniI32 d a s
  | .maxiN32 d a => Sys2Proof.Machine.execMaxiN32 d a s
  | .miniN32 d a => Sys2Proof.Machine.execMiniN32 d a s
  | .selk d a b => Sys2Proof.Machine.execSelk d a b s
  | .isect d a b => Sys2Proof.Machine.execIsect d a b s
  | .mma t f a b la lb => Sys2Proof.Machine.execMma t f a b la lb s
  | .mmaSp t f a b la lb => Sys2Proof.Machine.execMmaSp t f a b la lb s
  | .tileAlloc a => Sys2Proof.Machine.execTileAlloc a s
  | .tileFree => Sys2Proof.Machine.execTileFree s
  | .tileZero t => Sys2Proof.Machine.execTileZero t s
  | .tileFill k t base last col => Sys2Proof.Machine.execTileFill k t base last col s
  | .tileDrainF64 t base col => Sys2Proof.Machine.execTileDrainF64 t base col s
  | .tileDrainF32 t base col => Sys2Proof.Machine.execTileDrainF32 t base col s
  | .tileDrainBf16 t base col => Sys2Proof.Machine.execTileDrainBf16 t base col s
  | .tileQdrainMxf8 t base scale => Sys2Proof.Machine.execTileQdrainMxf8 t base scale s
  | .tileQdrainMxf6 t base scale => Sys2Proof.Machine.execTileQdrainMxf6 t base scale s
  | .tileQdrainMxf4 t base scale => Sys2Proof.Machine.execTileQdrainMxf4 t base scale s
  | .tileQdrainMxi8 t base scale => Sys2Proof.Machine.execTileQdrainMxi8 t base scale s
  | .ld k d a off => Sys2Proof.Machine.execLd k d a off s
  | .ldOrdered o d a => Sys2Proof.Machine.execLdOrdered o d a s
  | .st k d a off => Sys2Proof.Machine.execSt k d a off s
  | .stOrdered o d a => Sys2Proof.Machine.execStOrdered o d a s
  | .ldx l w d a off => Sys2Proof.Machine.execLdx l w d a off s
  | .stx l w d a off => Sys2Proof.Machine.execStx l w d a off s
  | .atom op pl d a => Sys2Proof.Machine.execAtom op pl d a s
  | .sts k d a x_s => Sys2Proof.Machine.execSts k d a x_s s
  | .lda w64 d a t => Sys2Proof.Machine.execLda w64 d a t s
  | .fetch f d a c => Sys2Proof.Machine.execFetch f d a c s
  | .gather f d a c => Sys2Proof.Machine.execGather f d a c s
  | .br p neg off => Sys2Proof.Machine.execBr p neg off s
  | .call p neg off => Sys2Proof.Machine.execCall p neg off s
  | .icall a => Sys2Proof.Machine.execIcall a s
  | .ret => Sys2Proof.Machine.execRet s
  | .join => Sys2Proof.Machine.execJoin s
  | .conv => Sys2Proof.Machine.execConv s
  | .emitB32 a => Sys2Proof.Machine.execEmitB32 a s
  | .emitB64 a => Sys2Proof.Machine.execEmitB64 a s
  | .fork d a => Sys2Proof.Machine.execFork d a s
  | .plop d a b c tt => Sys2Proof.Machine.execPlop d a b c tt s
  | .guardPrefix p neg => Sys2Proof.Machine.execGuardPrefix p neg s
  | .saddB32 d a b => Sys2Proof.Machine.execSaddB32 d a b s
  | .saddB64 d a b => Sys2Proof.Machine.execSaddB64 d a b s
  | .ssubB32 d a b => Sys2Proof.Machine.execSsubB32 d a b s
  | .ssubB64 d a b => Sys2Proof.Machine.execSsubB64 d a b s
  | .saddiB32 d a imm => Sys2Proof.Machine.execSaddiB32 d a imm s
  | .saddiB64 d a imm => Sys2Proof.Machine.execSaddiB64 d a imm s
  | .smulB32 d a b => Sys2Proof.Machine.execSmulB32 d a b s
  | .smulB64 d a b => Sys2Proof.Machine.execSmulB64 d a b s
  | .smulhiI32 d a b => Sys2Proof.Machine.execSmulhiI32 d a b s
  | .smulhiN32 d a b => Sys2Proof.Machine.execSmulhiN32 d a b s
  | .smulwI32 d a b => Sys2Proof.Machine.execSmulwI32 d a b s
  | .smulwN32 d a b => Sys2Proof.Machine.execSmulwN32 d a b s
  | .sdivI32 d a b => Sys2Proof.Machine.execSdivI32 d a b s
  | .sdivN32 d a b => Sys2Proof.Machine.execSdivN32 d a b s
  | .sremI32 d a b => Sys2Proof.Machine.execSremI32 d a b s
  | .sremN32 d a b => Sys2Proof.Machine.execSremN32 d a b s
  | .sandB32 d a b => Sys2Proof.Machine.execSandB32 d a b s
  | .sorB32 d a b => Sys2Proof.Machine.execSorB32 d a b s
  | .sxorB32 d a b => Sys2Proof.Machine.execSxorB32 d a b s
  | .sbfiB32 d a b => Sys2Proof.Machine.execSbfiB32 d a b s
  | .sandB64 d a b => Sys2Proof.Machine.execSandB64 d a b s
  | .sorB64 d a b => Sys2Proof.Machine.execSorB64 d a b s
  | .sxorB64 d a b => Sys2Proof.Machine.execSxorB64 d a b s
  | .slea d a b => Sys2Proof.Machine.execSlea d a b s
  | .ssetpI32 c p a b => Sys2Proof.Machine.execSsetpI32 c p a b s
  | .ssetpN32 c p a b => Sys2Proof.Machine.execSsetpN32 c p a b s
  | .ssetpI64 c p a b => Sys2Proof.Machine.execSsetpI64 c p a b s
  | .ssetpN64 c p a b => Sys2Proof.Machine.execSsetpN64 c p a b s
  | .sshlB32 d a b => Sys2Proof.Machine.execSshlB32 d a b s
  | .sshrN32 d a b => Sys2Proof.Machine.execSshrN32 d a b s
  | .sshrI32 d a b => Sys2Proof.Machine.execSshrI32 d a b s
  | .sbit d a k => Sys2Proof.Machine.execSbit d a k s
  | .sfaddF32 d a b => Sys2Proof.Machine.execSfaddF32 d a b s
  | .sfsubF32 d a b => Sys2Proof.Machine.execSfsubF32 d a b s
  | .sfmulF32 d a b => Sys2Proof.Machine.execSfmulF32 d a b s
  | .sffmaF32 d a b => Sys2Proof.Machine.execSffmaF32 d a b s
  | .sfaddF64 d a b => Sys2Proof.Machine.execSfaddF64 d a b s
  | .sfsubF64 d a b => Sys2Proof.Machine.execSfsubF64 d a b s
  | .sfmulF64 d a b => Sys2Proof.Machine.execSfmulF64 d a b s
  | .sffmaF64 d a b => Sys2Proof.Machine.execSffmaF64 d a b s
  | .sfsetpF32 c p a b => Sys2Proof.Machine.execSfsetpF32 c p a b s
  | .sfsetpF64 c p a b => Sys2Proof.Machine.execSfsetpF64 c p a b s
  | .scvtF32 d a x_s rm sat => Sys2Proof.Machine.execScvtF32 d a x_s rm sat s
  | .scvtI32 d a x_s rm sat => Sys2Proof.Machine.execScvtI32 d a x_s rm sat s
  | .sfminF32 d a b => Sys2Proof.Machine.execSfminF32 d a b s
  | .sfmaxF32 d a b => Sys2Proof.Machine.execSfmaxF32 d a b s
  | .srcpF32 d a => Sys2Proof.Machine.execSrcpF32 d a s
  | .srsqF32 d a => Sys2Proof.Machine.execSrsqF32 d a s
  | .ssqrtF32 d a => Sys2Proof.Machine.execSsqrtF32 d a s
  | .sexp2F32 d a => Sys2Proof.Machine.execSexp2F32 d a s
  | .slog2F32 d a => Sys2Proof.Machine.execSlog2F32 d a s
  | .ssinpiF32 d a => Sys2Proof.Machine.execSsinpiF32 d a s
  | .scospiF32 d a => Sys2Proof.Machine.execScospiF32 d a s
  | .stanhF32 d a => Sys2Proof.Machine.execStanhF32 d a s
  | .sfdivF32 d a b => Sys2Proof.Machine.execSfdivF32 d a b s
  | .sld m d a => Sys2Proof.Machine.execSld m d a s
  | .sst m d a => Sys2Proof.Machine.execSst m d a s
  | .sldx l w d a off => Sys2Proof.Machine.execSldx l w d a off s
  | .sstx l w d a off => Sys2Proof.Machine.execSstx l w d a off s
  | .satom op pl d a => Sys2Proof.Machine.execSatom op pl d a s
  | .scas w pl d a => Sys2Proof.Machine.execScas w pl d a s
  | .fence sc o => Sys2Proof.Machine.execFence sc o s
  | .barArrive d a b => Sys2Proof.Machine.execBarArrive d a b s
  | .barWait a b => Sys2Proof.Machine.execBarWait a b s
  | .mon a => Sys2Proof.Machine.execMon a s
  | .mwait d a => Sys2Proof.Machine.execMwait d a s
  | .commitw => Sys2Proof.Machine.execCommitw s
  | .sleep a => Sys2Proof.Machine.execSleep a s
  | .bcopy d a last b => Sys2Proof.Machine.execBcopy d a last b s
  | .bcopySt d a last b => Sys2Proof.Machine.execBcopySt d a last b s
  | .ringInit a b => Sys2Proof.Machine.execRingInit a b s
  | .ringTake d a => Sys2Proof.Machine.execRingTake d a s
  | .ringGive a => Sys2Proof.Machine.execRingGive a s
  | .ringWait d a => Sys2Proof.Machine.execRingWait d a s
  | .tlRead d a => Sys2Proof.Machine.execTlRead d a s
  | .tlWait a b => Sys2Proof.Machine.execTlWait a b s
  | .coll d a => Sys2Proof.Machine.execColl d a s
  | .ckptHold d dm => Sys2Proof.Machine.execCkptHold d dm s
  | .ckptRelease a dm => Sys2Proof.Machine.execCkptRelease a dm s
  | .spawn p a b last => Sys2Proof.Machine.execSpawn p a b last s
  | .chunk d => Sys2Proof.Machine.execChunk d s
  | .repack k => Sys2Proof.Machine.execRepack k s
  | .slice d a => Sys2Proof.Machine.execSlice d a s
  | .depdec d a => Sys2Proof.Machine.execDepdec d a s
  | .yield a => Sys2Proof.Machine.execYield a s
  | .clkiv d => Sys2Proof.Machine.execClkiv d s
  | .vshape d r => Sys2Proof.Machine.execVshape d r s
  | .capq d a => Sys2Proof.Machine.execCapq d a s
  | .sget d r => Sys2Proof.Machine.execSget d r s
  | .sset r b => Sys2Proof.Machine.execSset r b s
  | .trap k => Sys2Proof.Machine.execTrap k s
  | .rett => Sys2Proof.Machine.execRett s
  | .bkpt k => Sys2Proof.Machine.execBkpt k s
  | .loadComplete c => Sys2Proof.Machine.execLoadComplete c s
  | .writeBackPerformed core line => Sys2Proof.Machine.execWriteBackPerformed core line s
  | .stampedStoreVisible id => Sys2Proof.Machine.execStampedStoreVisible id s
  | .visibilityReport id => Sys2Proof.Machine.execVisibilityReport id s
  | .watermarkRefresh die dom => Sys2Proof.Machine.execWatermarkRefresh die dom s
  | .passAcceptance engine => Sys2Proof.Machine.execPassAcceptance engine s
  | .passApplied engine => Sys2Proof.Machine.execPassApplied engine s
  | .tilePoolGrant engine => Sys2Proof.Machine.execTilePoolGrant engine s
  | .engineCommandStart sl ctx => Sys2Proof.Machine.execEngineCommandStart sl ctx s
  | .engineCommandComplete sl ctx num => Sys2Proof.Machine.execEngineCommandComplete sl ctx num s
  | .collectiveContribution part c => Sys2Proof.Machine.execCollectiveContribution part c s
  | .openGroupStart part tag => Sys2Proof.Machine.execOpenGroupStart part tag s
  | .spawnTimerExpiry team bin => Sys2Proof.Machine.execSpawnTimerExpiry team bin s
  | .convTimeout c pc => Sys2Proof.Machine.execConvTimeout c pc s
  | .sleepExpiry t => Sys2Proof.Machine.execSleepExpiry t s
  | .mwaitTimeout t => Sys2Proof.Machine.execMwaitTimeout t s
  | .waitSentinel t => Sys2Proof.Machine.execWaitSentinel t s
  | .budget sl => Sys2Proof.Machine.execBudget sl s
  | .teamPlacement part => Sys2Proof.Machine.execTeamPlacement part s
  | .teamSave team => Sys2Proof.Machine.execTeamSave team s
  | .reset => Sys2Proof.Machine.execReset s
  | .fullServiceStart => Sys2Proof.Machine.execFullServiceStart s
  | .powerTemperatureLimit => Sys2Proof.Machine.execPowerTemperatureLimit s
  | .patrolScrub tower corrected bad => Sys2Proof.Machine.execPatrolScrub tower corrected bad s
  | .linkTimeExchange port ok roundTripPs => Sys2Proof.Machine.execLinkTimeExchange port ok roundTripPs s
  | .linkTimeMessage port stamp => Sys2Proof.Machine.execLinkTimeMessage port stamp s
  | .flitReceived port checkOk body => Sys2Proof.Machine.execFlitReceived port checkOk body s
  | .remoteAccessRequest r => Sys2Proof.Machine.execRemoteAccessRequest r s
  | .linkPlaneFailure port => Sys2Proof.Machine.execLinkPlaneFailure port s
  | .diePortFailure x y => Sys2Proof.Machine.execDiePortFailure x y s
  | .dieLost die => Sys2Proof.Machine.execDieLost die s
  | .dieSetExit die => Sys2Proof.Machine.execDieSetExit die s
  | .deviceUnreachable dev => Sys2Proof.Machine.execDeviceUnreachable dev s
  | .partcfgRead m cmd => Sys2Proof.Machine.execPartcfgRead m cmd s
  | .partcfgWrite m cmd => Sys2Proof.Machine.execPartcfgWrite m cmd s
  | .submit m cmd => Sys2Proof.Machine.execSubmit m cmd s
  | .submitResume m cmd => Sys2Proof.Machine.execSubmitResume m cmd s
  | .inval m cmd => Sys2Proof.Machine.execInval m cmd s
  | .resume m cmd => Sys2Proof.Machine.execResume m cmd s
  | .kill m cmd => Sys2Proof.Machine.execKill m cmd s
  | .holdclr m cmd => Sys2Proof.Machine.execHoldclr m cmd s
  | .attest m cmd => Sys2Proof.Machine.execAttest m cmd s
  | .state m cmd => Sys2Proof.Machine.execState m cmd s
  | .stateSave m cmd => Sys2Proof.Machine.execStateSave m cmd s
  | .unknownCommand m cmd => Sys2Proof.Machine.execUnknownCommand m cmd s
  | .overrun m cmd => Sys2Proof.Machine.execOverrun m cmd s
  | .mailboxCommandComplete m => Sys2Proof.Machine.execMailboxCommandComplete m s
  | .vendorDefinedMessage pf cmd args payload => Sys2Proof.Machine.execVendorDefinedMessage pf cmd args payload s
  | .hostBar2Write part off bytes => Sys2Proof.Machine.execHostBar2Write part off bytes s
  | .hostBar2Read part off n => Sys2Proof.Machine.execHostBar2Read part off n s
  | .classCounterWrite part off v => Sys2Proof.Machine.execClassCounterWrite part off v s
  | .registerWrite w off size v => Sys2Proof.Machine.execRegisterWrite w off size v s
  | .faultRecordPost part => Sys2Proof.Machine.execFaultRecordPost part s
  | .eventRecordPost part ring => Sys2Proof.Machine.execEventRecordPost part ring s
  | .etimeExpiry part ring => Sys2Proof.Machine.execEtimeExpiry part ring s
  | .unallocatedEncoding step => Sys2Proof.Machine.execUnallocatedEncoding step s
  | .fetchFault code addr => Sys2Proof.Machine.execFetchFault code addr s
  | .stampedStoreHeldPending id => Sys2Proof.Machine.execStampedStoreHeldPending id s

end Sys2Proof.Machine
end

