-- ==== Sys2Proof/Machine/Use.lean ====
section
/-!
DEFINITION. What a unit names: its source operands by type, the names it writes, and what else it reads. Trap records save
sources from here (R361), and the operand log stops a thread by it (R241).
-/

namespace Sys2Proof.Machine

/-- What a unit names. -/
structure Use where
  srcs : List Operand := []
  writes : List Nat := []
  /-- Names read beside the operands: a third source, a range, data. -/
  more : List Src := []
  /-- Names whose storage is reported, their values unread (R208). -/
  seen : List Nat := []

/-- The names a destination writes. -/
def dstNames (wide : Bool) : Dst → List Nat
  | .reg n => if wide then [n.val, n.val + 1] else [n.val]
  | .opf _ | .sup => []

/-- A destination that is a third source (R168), name by name. -/
def dstSrc (wide : Bool) : Dst → List Src
  | .reg n => .reg n false :: (if wide then [.reg (Fin.ofNat 64 (n.val + 1)) false] else [])
  | .opf n => .opf n :: (if wide then [.opf (Fin.ofNat 16 (n.val + 1))] else [])
  | .sup => []

/-- A run of names as sources. -/
def regRun (base n : Nat) : List Src := (nameRun base n).map fun k => .reg (Fin.ofNat 64 k) false

/-- The names a device-memory access reads and writes. -/
def formUse (f : MemForm) : Use :=
  { srcs := [(.addr, f.addr)], writes := f.acc.writes, more := f.acc.reads.map fun k => .reg (Fin.ofNat 64 k) false }

/-- What each instruction names. -/
def instrUse (i : Instr) : Use :=
  match i with
  | .addB32 d a b => { srcs := [(.b32, a), (.b32, b)], writes := dstNames false d }
  | .addB64 d a b => { srcs := [(.b64, a), (.b64, b)], writes := dstNames true d }
  | .subB32 d a b => { srcs := [(.b32, a), (.b32, b)], writes := dstNames false d }
  | .subB64 d a b => { srcs := [(.b64, a), (.b64, b)], writes := dstNames true d }
  | .addiB32 d a _ => { srcs := [(.b32, a)], writes := dstNames false d }
  | .addiB64 d a _ => { srcs := [(.b64, a)], writes := dstNames true d }
  | .mulB32 d a b => { srcs := [(.b32, a), (.b32, b)], writes := dstNames false d }
  | .mulB64 d a b => { srcs := [(.b64, a), (.b64, b)], writes := dstNames true d }
  | .mulhiI32 d a b => { srcs := [(.b32, a), (.b32, b)], writes := dstNames false d }
  | .mulhiN32 d a b => { srcs := [(.b32, a), (.b32, b)], writes := dstNames false d }
  | .mulwI32 d a b => { srcs := [(.b32, a), (.b32, b)], writes := dstNames true d }
  | .mulwN32 d a b => { srcs := [(.b32, a), (.b32, b)], writes := dstNames true d }
  | .divI32 d a b => { srcs := [(.b32, a), (.b32, b)], writes := dstNames false d }
  | .divN32 d a b => { srcs := [(.b32, a), (.b32, b)], writes := dstNames false d }
  | .remI32 d a b => { srcs := [(.b32, a), (.b32, b)], writes := dstNames false d }
  | .remN32 d a b => { srcs := [(.b32, a), (.b32, b)], writes := dstNames false d }
  | .andB32 d a b => { srcs := [(.b32, a), (.b32, b)], writes := dstNames false d }
  | .orB32 d a b => { srcs := [(.b32, a), (.b32, b)], writes := dstNames false d }
  | .xorB32 d a b => { srcs := [(.b32, a), (.b32, b)], writes := dstNames false d }
  | .bfiB32 d a b => { srcs := [(.b32, a), (.b32, b)], writes := dstNames false d, more := dstSrc false d }
  | .andB64 d a b => { srcs := [(.b64, a), (.b64, b)], writes := dstNames true d }
  | .orB64 d a b => { srcs := [(.b64, a), (.b64, b)], writes := dstNames true d }
  | .xorB64 d a b => { srcs := [(.b64, a), (.b64, b)], writes := dstNames true d }
  | .lea d a b => { srcs := [(.b64, a), (.b32, b)], writes := dstNames true d }
  | .shlB32 d a b => { srcs := [(.b32, a), (.b32, b)], writes := dstNames false d }
  | .shrN32 d a b => { srcs := [(.b32, a), (.b32, b)], writes := dstNames false d }
  | .shrI32 d a b => { srcs := [(.b32, a), (.b32, b)], writes := dstNames false d }
  | .shlB64 d a b => { srcs := [(.b64, a), (.b32, b)], writes := dstNames true d }
  | .shrN64 d a b => { srcs := [(.b64, a), (.b32, b)], writes := dstNames true d }
  | .shrI64 d a b => { srcs := [(.i64, a), (.b32, b)], writes := dstNames true d }
  | .bfxB32 d a b => { srcs := [(.b32, a), (.b32, b)], writes := dstNames false d }
  | .notB32 d a => { srcs := [(.b32, a)], writes := dstNames false d }
  | .popcB32 d a => { srcs := [(.b32, a)], writes := dstNames false d }
  | .clzB32 d a => { srcs := [(.b32, a)], writes := dstNames false d }
  | .ctzB32 d a => { srcs := [(.b32, a)], writes := dstNames false d }
  | .brevB32 d a => { srcs := [(.b32, a)], writes := dstNames false d }
  | .bswapB32 d a => { srcs := [(.b32, a)], writes := dstNames false d }
  | .sextI8 d a => { srcs := [(.b32, a)], writes := dstNames false d }
  | .sextI16 d a => { srcs := [(.b32, a)], writes := dstNames false d }
  | .notB64 d a => { srcs := [(.b64, a)], writes := dstNames true d }
  | .popcB64 d a => { srcs := [(.b64, a)], writes := dstNames false d }
  | .clzB64 d a => { srcs := [(.b64, a)], writes := dstNames false d }
  | .ctzB64 d a => { srcs := [(.b64, a)], writes := dstNames false d }
  | .brevB64 d a => { srcs := [(.b64, a)], writes := dstNames true d }
  | .bswapB64 d a => { srcs := [(.b64, a)], writes := dstNames true d }
  | .sextI32 d a => { srcs := [(.b32, a)], writes := dstNames true d }
  | .zextN32 d a => { srcs := [(.b32, a)], writes := dstNames true d }
  | .setpI32 _ _ a b => { srcs := [(.b32, a), (.b32, b)] }
  | .setpN32 _ _ a b => { srcs := [(.b32, a), (.b32, b)] }
  | .setpI64 _ _ a b => { srcs := [(.i64, a), (.i64, b)] }
  | .setpN64 _ _ a b => { srcs := [(.b64, a), (.b64, b)] }
  | .minN32 d a b => { srcs := [(.b32, a), (.b32, b)], writes := dstNames false d }
  | .maxN32 d a b => { srcs := [(.b32, a), (.b32, b)], writes := dstNames false d }
  | .minI32 d a b => { srcs := [(.b32, a), (.b32, b)], writes := dstNames false d }
  | .maxI32 d a b => { srcs := [(.b32, a), (.b32, b)], writes := dstNames false d }
  | .faddF32 d a b => { srcs := [(.f32, a), (.f32, b)], writes := dstNames false d }
  | .fsubF32 d a b => { srcs := [(.f32, a), (.f32, b)], writes := dstNames false d }
  | .fmulF32 d a b => { srcs := [(.f32, a), (.f32, b)], writes := dstNames false d }
  | .ffmaF32 d a b => { srcs := [(.f32, a), (.f32, b)], writes := dstNames false d, more := dstSrc false d }
  | .faddF64 d a b => { srcs := [(.f64, a), (.f64, b)], writes := dstNames true d }
  | .fsubF64 d a b => { srcs := [(.f64, a), (.f64, b)], writes := dstNames true d }
  | .fmulF64 d a b => { srcs := [(.f64, a), (.f64, b)], writes := dstNames true d }
  | .ffmaF64 d a b => { srcs := [(.f64, a), (.f64, b)], writes := dstNames true d, more := dstSrc true d }
  | .faddRzF32 d a b => { srcs := [(.f32, a), (.f32, b)], writes := dstNames false d }
  | .faddRuF32 d a b => { srcs := [(.f32, a), (.f32, b)], writes := dstNames false d }
  | .faddRdF32 d a b => { srcs := [(.f32, a), (.f32, b)], writes := dstNames false d }
  | .fmulRzF32 d a b => { srcs := [(.f32, a), (.f32, b)], writes := dstNames false d }
  | .ffmaRzF32 d a b => { srcs := [(.f32, a), (.f32, b)], writes := dstNames false d, more := dstSrc false d }
  | .ffmaRuF32 d a b => { srcs := [(.f32, a), (.f32, b)], writes := dstNames false d, more := dstSrc false d }
  | .ffmaRdF32 d a b => { srcs := [(.f32, a), (.f32, b)], writes := dstNames false d, more := dstSrc false d }
  | .ffmaSatF32 d a b => { srcs := [(.f32, a), (.f32, b)], writes := dstNames false d, more := dstSrc false d }
  | .faddF16x2 d a b => { srcs := [(.f16x2, a), (.f16x2, b)], writes := dstNames false d }
  | .fsubF16x2 d a b => { srcs := [(.f16x2, a), (.f16x2, b)], writes := dstNames false d }
  | .fmulF16x2 d a b => { srcs := [(.f16x2, a), (.f16x2, b)], writes := dstNames false d }
  | .ffmaF16x2 d a b => { srcs := [(.f16x2, a), (.f16x2, b)], writes := dstNames false d, more := dstSrc false d }
  | .faddBf16x2 d a b => { srcs := [(.bf16x2, a), (.bf16x2, b)], writes := dstNames false d }
  | .fsubBf16x2 d a b => { srcs := [(.bf16x2, a), (.bf16x2, b)], writes := dstNames false d }
  | .fmulBf16x2 d a b => { srcs := [(.bf16x2, a), (.bf16x2, b)], writes := dstNames false d }
  | .ffmaBf16x2 d a b => { srcs := [(.bf16x2, a), (.bf16x2, b)], writes := dstNames false d, more := dstSrc false d }
  | .fnegF32 d a => { srcs := [(.f32, a)], writes := dstNames false d }
  | .fabsF32 d a => { srcs := [(.f32, a)], writes := dstNames false d }
  | .fnegF64 d a => { srcs := [(.f64, a)], writes := dstNames true d }
  | .fabsF64 d a => { srcs := [(.f64, a)], writes := dstNames true d }
  | .fminF64 d a b => { srcs := [(.f64, a), (.f64, b)], writes := dstNames true d }
  | .fmaxF64 d a b => { srcs := [(.f64, a), (.f64, b)], writes := dstNames true d }
  | .fminnF64 d a b => { srcs := [(.f64, a), (.f64, b)], writes := dstNames true d }
  | .fmaxnF64 d a b => { srcs := [(.f64, a), (.f64, b)], writes := dstNames true d }
  | .fsetpF32 _ _ a b => { srcs := [(.f32, a), (.f32, b)] }
  | .fsetpF64 _ _ a b => { srcs := [(.f64, a), (.f64, b)] }
  | .fclassF32 _ _ a _ => { srcs := [(.f32, a)] }
  | .fclassF64 _ _ a _ => { srcs := [(.f64, a)] }
  | .fminF32 d a b => { srcs := [(.f32, a), (.f32, b)], writes := dstNames false d }
  | .fmaxF32 d a b => { srcs := [(.f32, a), (.f32, b)], writes := dstNames false d }
  | .fminnF32 d a b => { srcs := [(.f32, a), (.f32, b)], writes := dstNames false d }
  | .fmaxnF32 d a b => { srcs := [(.f32, a), (.f32, b)], writes := dstNames false d }
  | .cvtF32 d a s _ _ => { srcs := [(s.ty, a)], writes := dstNames false d }
  | .cvtF64 d a s _ _ => { srcs := [(s.ty, a)], writes := dstNames true d }
  | .cvtH16 d a s _ _ _ => { srcs := [(s.ty, a)], writes := dstNames false d }
  | .cvtF8 d a s _ _ _ => { srcs := [(s.ty, a)], writes := dstNames false d }
  | .cvtI32 d a s _ _ => { srcs := [(s.ty, a)], writes := dstNames false d }
  | .cvtN32 d a s _ _ => { srcs := [(s.ty, a)], writes := dstNames false d }
  | .cvtI64 d a s _ _ => { srcs := [(s.ty, a)], writes := dstNames true d }
  | .cvtN64 d a s _ _ => { srcs := [(s.ty, a)], writes := dstNames true d }
  | .rcpF32 d a => { srcs := [(.f32, a)], writes := dstNames false d }
  | .rsqF32 d a => { srcs := [(.f32, a)], writes := dstNames false d }
  | .sqrtF32 d a => { srcs := [(.f32, a)], writes := dstNames false d }
  | .exp2F32 d a => { srcs := [(.f32, a)], writes := dstNames false d }
  | .log2F32 d a => { srcs := [(.f32, a)], writes := dstNames false d }
  | .sinpiF32 d a => { srcs := [(.f32, a)], writes := dstNames false d }
  | .cospiF32 d a => { srcs := [(.f32, a)], writes := dstNames false d }
  | .tanhF32 d a => { srcs := [(.f32, a)], writes := dstNames false d }
  | .divF32 d a b => { srcs := [(.f32, a), (.f32, b)], writes := dstNames false d }
  | .rcpF64 d a => { srcs := [(.f64, a)], writes := dstNames true d }
  | .rsqF64 d a => { srcs := [(.f64, a)], writes := dstNames true d }
  | .sqrtF64 d a => { srcs := [(.f64, a)], writes := dstNames true d }
  | .exp2F64 d a => { srcs := [(.f64, a)], writes := dstNames true d }
  | .log2F64 d a => { srcs := [(.f64, a)], writes := dstNames true d }
  | .sinpiF64 d a => { srcs := [(.f64, a)], writes := dstNames true d }
  | .cospiF64 d a => { srcs := [(.f64, a)], writes := dstNames true d }
  | .tanhF64 d a => { srcs := [(.f64, a)], writes := dstNames true d }
  | .divF64 d a b => { srcs := [(.f64, a), (.f64, b)], writes := dstNames true d }
  | .rand d a => { srcs := [(.b64, a)], writes := dstNames false d }
  | .ffmaF32x2 d a b => { srcs := [(.f32x2, a), (.f32x2, b)], writes := dstNames true d, more := dstSrc true d }
  | .shfl d a b => { srcs := [(.b32, a), (.b32, b)], writes := dstNames false d }
  | .censusMask d _ => { writes := dstNames false d }
  | .censusCount d _ => { writes := dstNames false d }
  | .censusAgree d _ => { writes := dstNames false d }
  | .censusFirst d _ => { writes := dstNames false d }
  | .censusLast d _ => { writes := dstNames false d }
  | .censusRank d _ => { writes := dstNames false d }
  | .matchKeys d a b => { srcs := [(.b32, a), (.b32, b)], writes := dstNames false d }
  | .red d a k => { srcs := [(k.ty, a)], writes := dstNames k.wide d }
  | .scan d a k _ => { srcs := [(k.ty, a)], writes := dstNames k.wide d }
  | .maxiF32 d a => { srcs := [(.b64, a)], writes := dstNames true d }
  | .miniF32 d a => { srcs := [(.b64, a)], writes := dstNames true d }
  | .maxiF16 d a => { srcs := [(.b64, a)], writes := dstNames true d }
  | .miniF16 d a => { srcs := [(.b64, a)], writes := dstNames true d }
  | .maxiBf16 d a => { srcs := [(.b64, a)], writes := dstNames true d }
  | .miniBf16 d a => { srcs := [(.b64, a)], writes := dstNames true d }
  | .maxiI32 d a => { srcs := [(.b64, a)], writes := dstNames true d }
  | .miniI32 d a => { srcs := [(.b64, a)], writes := dstNames true d }
  | .maxiN32 d a => { srcs := [(.b64, a)], writes := dstNames true d }
  | .miniN32 d a => { srcs := [(.b64, a)], writes := dstNames true d }
  | .selk d a b => { srcs := [(.b64, a), (.b32, b)], writes := dstNames true d }
  | .isect d a b => { srcs := [(.b32, a), (.b32, b)], writes := dstNames false d }
  | .mma _ f a b _ _ => { more := regRun a.val f.names ++ regRun b.val f.names }
  | .mmaSp _ f a b _ _ => { more := regRun a.val f.names ++ regRun b.val (f.names + 1) }
  | .tileAlloc a => { srcs := [(.b32, a)] }
  | .tileFree => {}
  | .tileZero _ => {}
  | .tileFill _ _ base _ col => { srcs := [(.b32, col)], more := regRun base.val 16 }
  | .tileDrainF64 _ base col => { srcs := [(.b32, col)], writes := nameRun base.val 16 }
  | .tileDrainF32 _ base col => { srcs := [(.b32, col)], writes := nameRun base.val 16 }
  | .tileDrainBf16 _ base col => { srcs := [(.b32, col)], writes := nameRun base.val 16 }
  | .tileQdrainMxf8 _ base scale => { writes := nameRun base.val 8 ++ [scale.val] }
  | .tileQdrainMxf6 _ base scale => { writes := nameRun base.val 6 ++ [scale.val] }
  | .tileQdrainMxf4 _ base scale => { writes := nameRun base.val 4 ++ [scale.val] }
  | .tileQdrainMxi8 _ base scale => { writes := nameRun base.val 8 ++ [scale.val] }
  | .ld _ _ _ _ => (memForm i).elim {} formUse
  | .ldOrdered _ _ _ => (memForm i).elim {} formUse
  | .st _ _ _ _ => (memForm i).elim {} formUse
  | .stOrdered _ _ _ => (memForm i).elim {} formUse
  | .ldx _ w d a _ => { srcs := [(.b32, a)], writes := nameRun d.val ((w.size + 3) / 4) }
  | .stx _ w d a _ => { srcs := [(.b32, a)], more := regRun d.val ((w.size + 3) / 4) }
  | .atom op pl d a => { srcs := [(pl.ty, a)], writes := nameRun d.val (if op.w64 then 2 else 1), more := regRun d.val op.span }
  | .sts _ _ _ _ => (memForm i).elim {} formUse
  | .lda _ _ _ _ => (memForm i).elim {} formUse
  | .fetch _ _ _ _ => (memForm i).elim {} formUse
  | .gather _ _ _ _ => (memForm i).elim {} formUse
  | .br _ _ _ => {}
  | .call _ _ _ => {}
  | .icall a => { srcs := [(.b64, a)] }
  | .ret => {}
  | .join => {}
  | .conv => {}
  | .emitB32 a => { srcs := [(.b32, a)] }
  | .emitB64 a => { srcs := [(.b64, a)] }
  | .fork d a => { srcs := [(.b32, a)], writes := [d.val] }
  | .plop _ _ _ _ _ => {}
  | .guardPrefix _ _ => {}
  | .saddB32 d a b => { srcs := [(.b32, a), (.b32, b)], writes := dstNames false d }
  | .saddB64 d a b => { srcs := [(.b64, a), (.b64, b)], writes := dstNames true d }
  | .ssubB32 d a b => { srcs := [(.b32, a), (.b32, b)], writes := dstNames false d }
  | .ssubB64 d a b => { srcs := [(.b64, a), (.b64, b)], writes := dstNames true d }
  | .saddiB32 d a _ => { srcs := [(.b32, a)], writes := dstNames false d }
  | .saddiB64 d a _ => { srcs := [(.b64, a)], writes := dstNames true d }
  | .smulB32 d a b => { srcs := [(.b32, a), (.b32, b)], writes := dstNames false d }
  | .smulB64 d a b => { srcs := [(.b64, a), (.b64, b)], writes := dstNames true d }
  | .smulhiI32 d a b => { srcs := [(.b32, a), (.b32, b)], writes := dstNames false d }
  | .smulhiN32 d a b => { srcs := [(.b32, a), (.b32, b)], writes := dstNames false d }
  | .smulwI32 d a b => { srcs := [(.b32, a), (.b32, b)], writes := dstNames true d }
  | .smulwN32 d a b => { srcs := [(.b32, a), (.b32, b)], writes := dstNames true d }
  | .sdivI32 d a b => { srcs := [(.b32, a), (.b32, b)], writes := dstNames false d }
  | .sdivN32 d a b => { srcs := [(.b32, a), (.b32, b)], writes := dstNames false d }
  | .sremI32 d a b => { srcs := [(.b32, a), (.b32, b)], writes := dstNames false d }
  | .sremN32 d a b => { srcs := [(.b32, a), (.b32, b)], writes := dstNames false d }
  | .sandB32 d a b => { srcs := [(.b32, a), (.b32, b)], writes := dstNames false d }
  | .sorB32 d a b => { srcs := [(.b32, a), (.b32, b)], writes := dstNames false d }
  | .sxorB32 d a b => { srcs := [(.b32, a), (.b32, b)], writes := dstNames false d }
  | .sbfiB32 d a b => { srcs := [(.b32, a), (.b32, b)], writes := dstNames false d, more := dstSrc false d }
  | .sandB64 d a b => { srcs := [(.b64, a), (.b64, b)], writes := dstNames true d }
  | .sorB64 d a b => { srcs := [(.b64, a), (.b64, b)], writes := dstNames true d }
  | .sxorB64 d a b => { srcs := [(.b64, a), (.b64, b)], writes := dstNames true d }
  | .slea d a b => { srcs := [(.b64, a), (.b32, b)], writes := dstNames true d }
  | .ssetpI32 _ _ a b => { srcs := [(.b32, a), (.b32, b)] }
  | .ssetpN32 _ _ a b => { srcs := [(.b32, a), (.b32, b)] }
  | .ssetpI64 _ _ a b => { srcs := [(.i64, a), (.i64, b)] }
  | .ssetpN64 _ _ a b => { srcs := [(.b64, a), (.b64, b)] }
  | .sshlB32 d a b => { srcs := [(.b32, a), (.b32, b)], writes := dstNames false d }
  | .sshrN32 d a b => { srcs := [(.b32, a), (.b32, b)], writes := dstNames false d }
  | .sshrI32 d a b => { srcs := [(.b32, a), (.b32, b)], writes := dstNames false d }
  | .sbit d a k => { srcs := [(k.ty, a)], writes := dstNames k.wide d }
  | .sfaddF32 d a b => { srcs := [(.f32, a), (.f32, b)], writes := dstNames false d }
  | .sfsubF32 d a b => { srcs := [(.f32, a), (.f32, b)], writes := dstNames false d }
  | .sfmulF32 d a b => { srcs := [(.f32, a), (.f32, b)], writes := dstNames false d }
  | .sffmaF32 d a b => { srcs := [(.f32, a), (.f32, b)], writes := dstNames false d, more := dstSrc false d }
  | .sfaddF64 d a b => { srcs := [(.f64, a), (.f64, b)], writes := dstNames true d }
  | .sfsubF64 d a b => { srcs := [(.f64, a), (.f64, b)], writes := dstNames true d }
  | .sfmulF64 d a b => { srcs := [(.f64, a), (.f64, b)], writes := dstNames true d }
  | .sffmaF64 d a b => { srcs := [(.f64, a), (.f64, b)], writes := dstNames true d, more := dstSrc true d }
  | .sfsetpF32 _ _ a b => { srcs := [(.f32, a), (.f32, b)] }
  | .sfsetpF64 _ _ a b => { srcs := [(.f64, a), (.f64, b)] }
  | .scvtF32 d a s _ _ => { srcs := [(s.ty, a)], writes := dstNames false d }
  | .scvtI32 d a s _ _ => { srcs := [(s.ty, a)], writes := dstNames false d }
  | .sfminF32 d a b => { srcs := [(.f32, a), (.f32, b)], writes := dstNames false d }
  | .sfmaxF32 d a b => { srcs := [(.f32, a), (.f32, b)], writes := dstNames false d }
  | .srcpF32 d a => { srcs := [(.f32, a)], writes := dstNames false d }
  | .srsqF32 d a => { srcs := [(.f32, a)], writes := dstNames false d }
  | .ssqrtF32 d a => { srcs := [(.f32, a)], writes := dstNames false d }
  | .sexp2F32 d a => { srcs := [(.f32, a)], writes := dstNames false d }
  | .slog2F32 d a => { srcs := [(.f32, a)], writes := dstNames false d }
  | .ssinpiF32 d a => { srcs := [(.f32, a)], writes := dstNames false d }
  | .scospiF32 d a => { srcs := [(.f32, a)], writes := dstNames false d }
  | .stanhF32 d a => { srcs := [(.f32, a)], writes := dstNames false d }
  | .sfdivF32 d a b => { srcs := [(.f32, a), (.f32, b)], writes := dstNames false d }
  | .sld _ _ _ => (memForm i).elim {} formUse
  | .sst _ _ _ => (memForm i).elim {} formUse
  | .sldx _ w d a _ => { srcs := [(.b32, a)], writes := nameRun d.val ((w.size + 3) / 4) }
  | .sstx _ w d a _ => { srcs := [(.b32, a)], more := regRun d.val ((w.size + 3) / 4) }
  | .satom op pl d a => { srcs := [(pl.ty, a)], writes := nameRun d.val (if op.w64 then 2 else 1), more := regRun d.val op.span }
  | .scas w pl d a => { srcs := [(pl.ty, a)], writes := nameRun d.val w.names, more := regRun d.val (3 * w.names) }
  | .fence _ _ => {}
  | .barArrive d a b => { srcs := [(.b32, a), (.b32, b)], writes := [d.val] }
  | .barWait a b => { srcs := [(.b32, a), (.b32, b)] }
  | .mon _ => (memForm i).elim {} formUse
  | .mwait d a => { srcs := [(.b32, a)], writes := nameRun d.val 1 }
  | .commitw => {}
  | .sleep a => { srcs := [(.b32, a)] }
  | .bcopy d a _ b => { srcs := [(.b32, b)], writes := nameRun d.val 2, more := regRun a.val 4 }
  | .bcopySt d a _ b => { srcs := [(.b32, b)], writes := nameRun d.val 4, more := regRun a.val 4 }
  | .ringInit a b => { srcs := [(.b32, a), (.b32, b)] }
  | .ringTake d a => { srcs := [(.b32, a)], writes := nameRun d.val 2 }
  | .ringGive a => { srcs := [(.b32, a)] }
  | .ringWait d a => { srcs := [(.b32, a)], writes := nameRun d.val 1 }
  | .tlRead d a => { srcs := [(.b32, a)], writes := nameRun d.val 3 }
  | .tlWait a b => { srcs := [(.b32, a), (.b64, b)] }
  | .coll d a => { srcs := [(.b64, a)], writes := nameRun d.val 2 }
  | .ckptHold d _ => { writes := nameRun d.val 2 }
  | .ckptRelease a _ => { srcs := [(.b64, a)] }
  | .spawn _ a b _ => { srcs := [(.b64, a)], more := regRun b.val 8 }
  | .chunk d => { writes := nameRun d.val 2 }
  | .repack k => { more := regRun k.val 1 }
  | .slice d a => { srcs := [(.b64, a)], writes := nameRun d.val 1 }
  | .depdec d a => { srcs := [(.b32, a)], writes := nameRun d.val 1 }
  | .yield a => { srcs := [(.b64, a)] }
  | .clkiv d => { writes := nameRun d.val 4 }
  | .vshape d a => { writes := dstNames false d, seen := match a with | .reg n => [n.val] | .opf _ | .latch _ => [] }
  | .capq d a => { srcs := [(.b32, a)], writes := nameRun d.val 2 }
  | .sget d r => { writes := nameRun d.val (if r.w64 then 2 else 1) }
  | .sset r b => { srcs := [(if r.w64 then .b64 else .b32, b)] }
  | .trap _ => {}
  | .rett => {}
  | .bkpt _ => {}
  | .loadComplete _ => {}
  | .writeBackPerformed _ _ => {}
  | .stampedStoreVisible _ => {}
  | .visibilityReport _ => {}
  | .watermarkRefresh _ _ => {}
  | .passAcceptance _ => {}
  | .passApplied _ => {}
  | .tilePoolGrant _ => {}
  | .engineCommandStart _ _ => {}
  | .engineCommandComplete _ _ _ => {}
  | .collectiveContribution _ _ => {}
  | .openGroupStart _ _ => {}
  | .spawnTimerExpiry _ _ => {}
  | .convTimeout _ _ => {}
  | .sleepExpiry _ => {}
  | .mwaitTimeout _ => {}
  | .waitSentinel _ => {}
  | .budget _ => {}
  | .teamPlacement _ => {}
  | .teamSave _ => {}
  | .reset => {}
  | .fullServiceStart => {}
  | .powerTemperatureLimit => {}
  | .patrolScrub _ _ _ => {}
  | .linkTimeExchange _ _ _ => {}
  | .linkTimeMessage _ _ => {}
  | .flitReceived _ _ _ => {}
  | .remoteAccessRequest _ => {}
  | .linkPlaneFailure _ => {}
  | .diePortFailure _ _ => {}
  | .dieLost _ => {}
  | .dieSetExit _ => {}
  | .deviceUnreachable _ => {}
  | .partcfgRead _ _ => {}
  | .partcfgWrite _ _ => {}
  | .submit _ _ => {}
  | .submitResume _ _ => {}
  | .inval _ _ => {}
  | .resume _ _ => {}
  | .kill _ _ => {}
  | .holdclr _ _ => {}
  | .attest _ _ => {}
  | .state _ _ => {}
  | .stateSave _ _ => {}
  | .unknownCommand _ _ => {}
  | .overrun _ _ => {}
  | .mailboxCommandComplete _ => {}
  | .vendorDefinedMessage _ _ _ _ => {}
  | .hostBar2Write _ _ _ => {}
  | .hostBar2Read _ _ _ => {}
  | .classCounterWrite _ _ _ => {}
  | .registerWrite _ _ _ _ => {}
  | .faultRecordPost _ => {}
  | .eventRecordPost _ _ => {}
  | .etimeExpiry _ _ => {}
  | .unallocatedEncoding _ => {}
  | .fetchFault _ _ => {}
  | .stampedStoreHeldPending _ => {}

/-- What a unit names for a course where values settle it: mma.sp does not read the A names of an absent segment, and only its Q where it performs
nothing, Q being its lowest-numbered live thread's (R221); a checkpoint command of bcopy reads its stamp too (R301). `lead` is the lane whose
value a uniform operand takes. -/
def liveUse (core : Core) (t : Team) (c lead : Nat) (i : Instr) : Use :=
  let u := instrUse i
  match i with
  | .mmaSp _ f a b _ _ =>
    let qName := b.val + f.names
    let q := regRow (t.course c) qName ((t.course c).live.headD 0)
    if q.toNat % 256 = 0 then { more := regRun qName 1 }
    else { more := (((regRun a.val f.names).zipIdx.filter fun p => usedA f (some q) p.2).map Prod.fst) ++ regRun b.val (f.names + 1) }
  | .bcopy _ a _ b =>
    let w := (srcView (rdCtx core t c) .b32 b).val lead
    if w.toNat % 2 ^ 32 / 2 ^ 30 = 3 ∧ a.val + 6 ≤ 64 then { u with more := regRun a.val 6 } else u
  | _ => u

/-- An operand as the names it stands for: a pair is two (R361). -/
def expandSrc (o : Operand) : List Src :=
  if !o.1.isPair then [o.2]
  else
    match o.2 with
    | .reg n l => [.reg n l, .reg (Fin.ofNat 64 (n.val + 1)) l]
    | .opf n => [.opf n, .opf (Fin.ofNat 16 (n.val + 1))]
    | s => [s]

/-- Whether a word is a group or matrix instruction (R34, R195). -/
def isRendezvous (w : Nat) : Bool := decide (0x60 ≤ fld w 24 8) && decide (fld w 24 8 ≤ 0x6F)

/-- Whether a word is an instruction of the memory chapter. -/
def isMemoryWord (w : Nat) : Bool :=
  (decide (0x70 ≤ fld w 24 8) && decide (fld w 24 8 ≤ 0x77)) || (decide (0xB0 ≤ fld w 24 8) && decide (fld w 24 8 ≤ 0xBE))

/-- The sources a trap record saves for a unit: none for a group, matrix or memory instruction (R361). The argument names of spawn and the
sort name of repack are field values, not operands (R118). -/
def trapOperands (w : Nat) (i : Instr) : List Src :=
  let more := match i with | .spawn _ _ _ _ | .repack _ => [] | _ => (instrUse i).more
  if isRendezvous w || isMemoryWord w then [] else ((instrUse i).srcs.flatMap expandSrc) ++ more

/-- Whether a word is a matrix instruction (R211). -/
def isMatrixWord (w : Nat) : Bool := decide (0x68 ≤ fld w 24 8) && decide (fld w 24 8 ≤ 0x6F)

/-- The places of a course that a unit reads (R378): names, operand-file entries, latches. -/
def Use.places (u : Use) : List BadPlace :=
  ((u.srcs.flatMap expandSrc) ++ u.more).filterMap fun s =>
    match s with
    | .reg n _ => some (.name n.val)
    | .opf n => some (.entry n.val)
    | .latch k => some (.latch k.val)
    | .special _ | .lit _ => none

/-- The tile whose error a unit meets (R378): at mma, mma.sp and the drains. -/
def tileRead : Instr → Option Nat
  | .mma t _ _ _ _ _ | .mmaSp t _ _ _ _ _ | .tileDrainF64 t _ _ | .tileDrainF32 t _ _ | .tileDrainBf16 t _ _ | .tileQdrainMxf8 t _ _
  | .tileQdrainMxf6 t _ _ | .tileQdrainMxf4 t _ _ | .tileQdrainMxi8 t _ _ => some t.val
  | _ => none

/-- The names a unit reads or writes (R241), the one that vshape reports among them (log 41). -/
def Use.touches (u : Use) : List Nat :=
  u.writes ++ u.seen ++ ((u.srcs.flatMap expandSrc) ++ u.more).filterMap fun s => match s with | .reg n _ => some n.val | _ => none

/-- The pipes of the latches that a word leaves a result in, or frees of one (R169, R194, R392). -/
def pipesOf (w : Nat) : List Nat :=
  let op := fld w 24 8
  if 0x80 ≤ op then [2]
  else if op < 0x0C then [0]
  else if op < 0x10 then [1]
  else if op < 0x2C then [0]
  else if op < 0x30 then [1]
  else if op < 0x42 then [0]
  else if op < 0x48 then [1]
  else if op < 0x4C then [op % 2]
  else if op < 0x50 then [0]
  else if op < 0x5D then [1]
  else if op = 0x5D then [0, 1]
  else if op < 0x68 || op = 0x7C then [0]
  else []

/-- The instructions at which a thread with any pending entry stops: those of R241, ckpt.hold (R312), and ring.give, whose release makes the
wait of R244 (R269). -/
def stopsAtLog : Instr → Bool
  | .fence _ _ | .join | .barArrive _ _ _ | .barWait _ _ | .mwait _ _ | .commitw | .sts _ _ _ _ | .lda _ _ _ _ | .fork _ _ | .repack _
  | .spawn _ _ _ _ | .slice _ _ | .depdec _ _ | .emitB32 _ | .emitB64 _ | .yield _ | .rett | .bcopy _ _ _ _ | .bcopySt _ _ _ _ | .coll _ _
  | .ckptHold _ _ | .ringGive _ => true
  | _ => false

/-- An atomic on a level (R282). -/
def isLevelAtomic : Instr → Bool
  | .atom _ (.level _) _ _ | .satom _ (.level _) _ _ | .scas _ (.level _) _ _ => true
  | _ => false

/-- An access of a level (R280), which is no device-memory access. -/
def isLevelAccess : Instr → Bool
  | .ldx _ _ _ _ _ | .stx _ _ _ _ _ | .sldx _ _ _ _ _ | .sstx _ _ _ _ _ => true
  | .atom _ (.level _) _ _ | .satom _ (.level _) _ _ | .scas _ (.level _) _ _ => true
  | _ => false

end Sys2Proof.Machine
end

