-- ==== Sys2Proof/Machine/Fetch.lean ====
section
/-!
DEFINITION. Fetching and decoding the unit at which a thread stands (R78, R99), when a thread is ready (R32, R34, R195, R240, R241),
which lift a core issues next (R32, R71, R329), and what comes before and after the meaning of a unit.
-/

namespace Sys2Proof.Machine

/-! ## Fetch (R78, R99, R343) -/

/-- The word at an address as a core fetches it: from its instruction cache, else from the home slice, or from another device. An address
that is no multiple of 4, to which only rett can bring a thread, gives the four bytes from it on; the manual raises ALIGN for icall and
spawn only (log 46). -/
def State.peekWord (s : State) (core part : Nat) (user : Bool) (va : W64) : Except FetchCode Nat :=
  match (s.translate (some core) part user .fetch va).2 with
  | .error .prot => .error .prot
  | .error .linkLost => .error .linkLost
  | .error _ => .error .xlate
  | .ok x =>
    match x.remote with
    | some (dev, _) =>
      match s.homeAnswers part x 4 with
      | .error .linkLost => .error .linkLost
      | .error _ => .error .prot
      | .ok _ => if s.poisonAt (some dev) x.pa 4 then .error .ecc else .ok (leNat (s.remoteRead dev x.pa 4))
    | none =>
      match FMap.get (s.core core).icache (lineOf x.pa) with
      | some b => .ok (bytesAt b (x.pa % 128) 4)
      | none =>
        if !s.homeAlive x.pa then .error .linkLost
        else if s.poisoned x.pa 4 then .error .ecc
        else .ok (leNat (s.mem.readN x.pa 4))

/-- Fetching a word leaves its translation in the TLB (R344) and its line in the instruction cache; a line with a poisoned granule is
not kept, and poison met is logged (R378). -/
def State.takeWord (s : State) (core part : Nat) (user : Bool) (w : Who) (va : W64) : State :=
  match s.translate (some core) part user .fetch va with
  | (s, .error _) => s
  | (s, .ok x) =>
    let c := s.core core
    let line := lineOf x.pa
    let dev := x.remote.map Prod.fst
    if dev.isSome then (if s.poisonAt dev x.pa 4 then (s.meetPoisonAt w dev x.pa 4 va).1 else s)
    else if (FMap.get c.icache line).isSome || !s.homeAlive x.pa then s
    else if s.poisoned x.pa 4 then (s.meetPoison w x.pa 4 va).1
    else if s.poisoned (128 * line) 128 then s
    else s.setCore core { c with icache := FMap.set c.icache line (s.mem.readN (128 * line) 128) }

/-- What stands at an address. -/
inductive Found where
  /-- A unit that decodes: its guard and its instruction. -/
  | unit (guard : Option (PredSel × Bool)) (i : Instr)
  /-- A unit that fails a step of R96. -/
  | illegal (step : DecStep)
  /-- A word of it cannot be fetched. -/
  | noFetch (code : FetchCode) (addr : W64)
deriving DecidableEq, Repr

/-- The unit at an address: its words and what they decode to. -/
structure Stand where
  words : List W32
  found : Found
deriving DecidableEq, Repr

/-- The instruction word of a unit. -/
def Stand.word (x : Stand) : W32 :=
  let w0 := x.words.headD 0
  if isPrefix w0.toNat then nth x.words 1 0 else w0
/-- The guard prefix of a unit, or 0. -/
def Stand.guardWord (x : Stand) : W32 := let w0 := x.words.headD 0; if isPrefix w0.toNat then w0 else 0
/-- The literal of a unit, or 0. -/
def Stand.literal (x : Stand) : W32 := nth x.words (if isPrefix (x.words.headD 0).toNat then 2 else 1) 0
/-- Whether the unit is of the uniform set. -/
def Stand.uniform (x : Stand) : Bool := x.word.getLsbD 31
/-- Its length in bytes. -/
def Stand.len (x : Stand) : Nat := 4 * max 1 x.words.length
/-- Its instruction, if it decodes. -/
def Stand.instr (x : Stand) : Option Instr := match x.found with | .unit _ i => some i | .illegal _ | .noFetch _ _ => none
/-- Whether the unit is a group or matrix instruction (R34, R195). -/
def Stand.meets (x : Stand) : Bool := x.instr.isSome && isRendezvous x.word.toNat

/-- Fetches `n` words from an address up. -/
def State.peekWords (s : State) (core part : Nat) (user : Bool) (va : W64) : Nat → Except (FetchCode × W64) (List W32)
  | 0 => .ok []
  | n + 1 =>
    match s.peekWord core part user va with
    | .error c => .error (c, va)
    | .ok w =>
      match s.peekWords core part user (va + 4) n with
      | .ok ws => .ok (BitVec.ofNat 32 w :: ws)
      | .error e => .error e

/-- The words a unit has beyond those fetched, seen from the first ones (R78): the word after a prefix, then a literal. -/
noncomputable def unitLength (ws : List W32) : Nat := unitWords (ws.headD 0).toNat (nth ws 1 0).toNat

/-- Fetches and decodes the unit at an address: the first word, the word after a prefix, then the literal. -/
noncomputable def State.stand (s : State) (core part : Nat) (user : Bool) (pc : W64) : Stand :=
  match s.peekWords core part user pc 1 with
  | .error (c, a) => ⟨[], .noFetch c a⟩
  | .ok w0 =>
    let n1 := if isPrefix (w0.headD 0).toNat then 2 else 1
    match s.peekWords core part user pc n1 with
    | .error (c, a) => ⟨w0, .noFetch c a⟩
    | .ok ws =>
      match s.peekWords core part user pc (max n1 (unitLength ws)) with
      | .error (c, a) => ⟨ws, .noFetch c a⟩
      | .ok all =>
        ⟨all, match decodeWords all with | .ok u => .unit u.guard u.instr | .error e => .illegal e⟩

/-- Who fetches for a team: user level unless its slice is privileged (R343), under the block the team was placed with (R339). -/
noncomputable def State.standAt (s : State) (t : Team) (pc : W64) : Stand := (s.under t).stand t.core t.part (!s.isPriv t) pc

/-! ## The operand log stops a thread (R240, R241) -/

/-- A lane's part of the device-memory access of a unit; a fetch's coordinates are those of the lowest thread of the course that stands
there (R296). -/
def accessOf (rd : RdCtx) (l : Nat) (i : Instr) (f : MemForm) : LaneAcc :=
  let gather := match i with | .gather _ _ _ _ => true | _ => false
  let pc := (rd.course.thread l).pc
  let lead := match rd.course.threads.find? fun p => p.2.pc == pc with | some p => p.1 | none => l
  (f.spec gather).laneAcc rd.course (srcView rd .addr f.addr) lead l

/-- The bytes of a spilled or refilled return entry that a call or a return moves (R122). -/
def spillRange (t : Team) (th : Thread) : Instr → Option (Nat × Nat)
  | .call p neg _ => if th.predSel p != neg && decide (t.stackK ≤ th.stack.length) then some ((th.sp - 8).toNat, 8) else none
  | .icall _ => if t.stackK ≤ th.stack.length then some ((th.sp - 8).toNat, 8) else none
  | .ret => match th.stack.getLast? with | some e => if e.getLsbD 0 then some (th.sp.toNat, 8) else none | none => none
  | _ => none

/-- Whether an entry stops a thread at an access of some bytes (R241). -/
def State.entryStops (s : State) (w : Who) (e : LogEntry) (l : Nat) (ordered : Bool) (ranges : List (Nat × Nat)) : Bool :=
  ordered || Order.acquires e.acc.order || e.acc.kind.isAtomic || s.entryMeets w e l ranges

/-- Whether pending entries of its course stop a thread at its unit (R240, R241). A thread whose guard is false makes no access. -/
def State.logStops (s : State) (t : Team) (c l : Nat) (x : Course) (th : Thread) (st : Stand) : Bool :=
  if x.log.all Option.isNone then false
  else
    match st.found with
    | .illegal _ | .noFetch _ _ => false
    | .unit g i =>
      if (match g with | some (p, neg) => th.predSel p == neg | none => false) then false
      else
        let s := s.under t
        let es := x.entriesOf l
        let form := memForm i
        let w := s.whoOf (teamKey t.part t.slice t.index) t c [l]
        let ranges := match form with
          | some f => s.accRanges w f.acc (accessOf (rdCtx (s.core t.core) t c) l i f)
          | none => match spillRange t th i with | some r => [r] | none => []
        let access := form.isSome || isLevelAccess i || !ranges.isEmpty
        let ordered := match form with | some f => f.acc.order != .relaxed || f.acc.kind.isAtomic | none => isLevelAtomic i
        ((form.isSome || isLevelAccess i) && x.log.all Option.isSome) || es.any fun e =>
          stopsAtLog i || (access && s.entryStops w e l ordered ranges) || (liveUse (s.core t.core) t c l i).touches.any fun n => e.acc.writes.contains n

/-! ## Ready threads (R32, R34) -/

/-- Whether a team issues at all. -/
def Team.issues (t : Team) : Bool :=
  t.held.isEmpty && !t.stopped && !t.frozen && !t.saveDue && !t.saving && !t.restoring
/-- Whether a thread is free to issue, its next unit allowing. -/
def Thread.free (t : Thread) : Bool := t.wait == .none && t.parked.isNone && !t.halted
/-- Whether the threads of a course issue. -/
def Course.issues (c : Course) : Bool := !c.suspended && !c.awaitTiles

/-- A thread that may issue, with the unit at which it stands and the cycle from which its age counts. -/
structure Cand where
  team : Nat
  course : Nat
  lane : Nat
  thread : Thread
  stand : Stand
  since : Nat

/-- The member a candidate is. -/
def Cand.member (x : Cand) : Nat × Nat := (x.course, x.lane)

/-- The device whose plane a unit's fetch waits for: none works for now, and the device is not unreachable yet (R380). -/
def State.fetchPlane (s : State) (t : Team) (x : Stand) : Option Nat :=
  match x.found with
  | .noFetch .linkLost a =>
    match ((s.under t).translate (some t.core) t.part (!s.isPriv t) .fetch a).2 with
    | .ok y => (y.remote.map Prod.fst).filter s.pathDown
    | .error _ => none
  | .noFetch _ _ | .unit _ _ | .illegal _ => none

/-- Whether a unit's fetch waits for a plane. -/
def State.fetchWaits (s : State) (t : Team) (x : Stand) : Bool := (s.fetchPlane t x).isSome

/-- The threads of a course that are free, with their units. -/
noncomputable def State.freeThreads (s : State) (tk : Nat) (t : Team) (c : Nat) (x : Course) : List Cand :=
  (x.threads.filter fun p => p.2.free).map fun p => ⟨tk, c, p.1, p.2, s.standAt t p.2.pc, p.2.readySince⟩

/-- The ready threads of a course: not stopped by the log, and at a group or matrix instruction only when every live thread of the course
stands there (R34, R195); they are then ready since the last of them came. -/
noncomputable def State.readyThreads (s : State) (tk : Nat) (t : Team) (c : Nat) (x : Course) : List Cand :=
  let fr := s.freeThreads tk t c x
  let going := fr.filter fun q => !s.logStops t c q.lane x q.thread q.stand && !s.fetchWaits t q.stand
  going.filterMap fun q =>
    if !q.stand.meets then some q
    else
      let here := going.filter fun r => r.thread.pc == q.thread.pc
      if here.length = x.threads.length then some { q with since := here.foldl (fun n r => max n r.since) 0 } else none

/-- The ready threads of a core. -/
noncomputable def State.ready (s : State) (core : Nat) : List Cand :=
  s.teams.flatMap fun p =>
    if p.2.core != core || !p.2.issues then []
    else p.2.courses.flatMap fun q => if q.2.issues then s.readyThreads p.1 p.2 q.1 q.2 else []

/-! ## Lifts (R32, R71, R329) -/

/-- A lift about to issue. -/
structure Lift where
  core : Nat
  team : Nat
  members : List (Nat × Nat)
  addr : W64
  stand : Stand
  /-- The hold it consumes (R71). -/
  hold : Option Hold := none
deriving DecidableEq, Repr

/-- Members in ascending order of course, then lane. -/
def sortMembers (ms : List (Nat × Nat)) : List (Nat × Nat) :=
  sortBy (fun a b => decide (a.1 < b.1) || (a.1 == b.1 && decide (a.2 ≤ b.2))) ms

/-- The order of R329: age, then the team placed earlier, then the lower key. -/
def State.before (s : State) (a b : Cand) : Bool :=
  let pl (x : Cand) : Nat := match FMap.get s.teams x.team with | some t => t.placed | none => 0
  decide (a.since < b.since) ||
    (a.since == b.since && (decide (pl a < pl b) || (pl a == pl b && keyLt a.thread.key b.thread.key)))

/-- The pipes that groups hold beside one's own (R71). -/
def Core.heldPipes (c : Core) : List Nat := c.holds.map fun h => h.pipe.val

/-- The pipes a candidate's lift takes: those of its unit, and that of a saved hold (R367). -/
def Cand.pipes (x : Cand) : List Nat :=
  (match x.stand.found with | .unit _ _ => pipesOf x.stand.word.toNat | .illegal _ | .noFetch _ _ => []) ++
    match x.thread.heldLatch with | some sv => [sv.pipe.val] | none => []

/-- The threads that a saved hold is for: the thread itself, or the members of a group saved whole that are still together, of resident
courses (R73, R367). -/
def State.savedGroup (s : State) (q : Cand) : List (Nat × Nat) :=
  match q.thread.heldLatch, FMap.get s.teams q.team with
  | some sv, some t =>
    if !sv.group then [q.member]
    else
      let mate (c l : Nat) (o : SavedLatch) : Bool :=
        o.group && o.pipe == sv.pipe && if sv.members.isEmpty then c == q.course else sv.members.contains (c, l)
      t.residents.flatMap fun p =>
        (p.2.threads.filter fun r => match r.2.heldLatch with | some o => mate p.1 r.1 o | none => false).map fun r => (p.1, r.1)
  | _, _ => [q.member]

/-- Whether all threads that a saved hold is for are there, at the same unit: the lift splits none of them (R71, R73). -/
def State.together (s : State) (cs : List Cand) (q : Cand) : Bool :=
  q.thread.heldLatch.isNone || q.stand.meets ||
    (s.savedGroup q).all fun m => cs.any fun r => r.team == q.team && r.member == m && r.thread.pc == q.thread.pc

/-- Completes a lift from its lead (R32): the other ready threads of its team at the same unit and on other lanes, the lower key first;
from its own course alone at a group or matrix instruction (R34). A saved hold's lift is of the threads it is for and no others (R73, R361,
R367). -/
def completeLift (s : State) (cs : List Cand) (lead : Cand) : List (Nat × Nat) :=
  let others := cs.filter fun q =>
    q.team == lead.team && q.thread.pc == lead.thread.pc && q.member != lead.member && (!lead.stand.meets || q.course == lead.course) &&
      (lead.stand.meets || q.thread.heldLatch.isNone)
  let sorted := sortBy (fun a b => keyLe a.thread.key b.thread.key) others
  if lead.thread.heldLatch.isSome && !lead.stand.meets then sortMembers (s.savedGroup lead)
  else sortMembers (sorted.foldl (fun acc q => if acc.any fun m => m.2 == q.lane then acc else acc ++ [q.member]) [lead.member])

/-- The lift of a group that holds a pipe, when all of it is ready in one set (R71): `some none` where its next unit is of the set but
not ready. -/
def holdLift (cs : List Cand) (core : Nat) (uniform : Bool) (h : Hold) : Option Lift :=
  let mine := cs.filter fun q => q.team == h.team && h.members.contains q.member
  match mine with
  | [] => none
  | q :: _ =>
    if mine.length = h.members.length && q.stand.uniform == uniform && mine.all fun r => r.thread.pc == q.thread.pc then
      some ⟨core, h.team, sortMembers h.members, q.thread.pc, q.stand, some h⟩
    else none

/-- The next lift of a set on a core (R329): of a group that holds its pipe, else led by the oldest ready thread; a unit that would take a
held pipe waits for the group. -/
noncomputable def State.liftOf (s : State) (core : Nat) (uniform : Bool) : Option Lift :=
  let c := s.core core
  if (if uniform then c.uniIssued else c.laneIssued) then none
  else
    let all := s.ready core
    match c.holds.findSome? fun h => holdLift all core uniform h with
    | some l => some l
    | none =>
      let held := c.heldPipes
      let inHold (q : Cand) : Bool := c.holds.any fun h => h.team == q.team && h.members.contains q.member
      let cs := all.filter fun q => q.stand.uniform == uniform && !inHold q && !q.pipes.any fun k => held.contains k
      let cs := cs.filter fun q => s.together cs q
      match cs.foldl (fun (acc : Option Cand) q => match acc with | none => some q | some m => if s.before q m then some q else acc) none with
      | none => none
      | some lead => some ⟨core, lead.team, completeLift s cs lead, lead.thread.pc, lead.stand, none⟩

/-- The cores with a resident team, ascending. -/
def State.busyCores (s : State) : List Nat := s.teams.foldl (fun acc p => if acc.contains p.2.core then acc else insertBy (fun a b => decide (a ≤ b)) p.2.core acc) []

/-- The lift of threads for which PARTIAL_MATRIX is due: those of one course at one unit. -/
noncomputable def State.unmetLift (s : State) : Option Lift :=
  s.teams.findSome? fun p =>
    p.2.courses.findSome? fun q =>
      match q.2.threads.find? fun r => r.2.wait == .unmet with
      | none => none
      | some r =>
        let ms := (q.2.threads.filter fun x => x.2.wait == .unmet && x.2.pc == r.2.pc).map fun x => (q.1, x.1)
        some ⟨p.2.core, p.1, ms, r.2.pc, s.standAt p.2 r.2.pc, none⟩

/-- The next lift of the device: cores in order, the lane set before the uniform set (log 2). A device over its junction limit issues none
(R24). -/
noncomputable def State.nextLift (s : State) : Option Lift :=
  if s.thermalStop then none
  else
    match s.unmetLift with
    | some l => some l
    | none => s.busyCores.findSome? fun k => (s.liftOf k false).orElse fun _ => s.liftOf k true

/-! ## Around the meaning -/

/-- The instructions of a lift's unit, in order: its guard prefix and its instruction, or the event of its fault (R78, R96). -/
def Lift.instrs (l : Lift) : List Instr :=
  match l.stand.found with
  | .unit (some (p, neg)) i => [.guardPrefix p neg, i]
  | .unit none i => [i]
  | .illegal e => [.unallocatedEncoding e]
  | .noFetch c a => [.fetchFault c a]

/-- The words a lift fetches: those read, and the one that failed. -/
def Lift.fetched (l : Lift) : List W64 :=
  let n := match l.stand.found with | .noFetch _ _ => l.stand.words.length + 1 | .unit _ _ | .illegal _ => l.stand.words.length
  (List.range n).map fun k => l.addr + BitVec.ofNat 64 (4 * k)

/-- The holds that the members of a lift bring saved with them: the pipes, and the members each is for (R367). -/
def State.savedHolds (s : State) (tk : Nat) (ms : List (Nat × Nat)) : List Hold :=
  let own := ms.filterMap fun m => ((s.threadAt tk m.1 m.2).bind Thread.heldLatch).map fun sv => (sv.pipe, m)
  (List.range 4).filterMap fun k =>
    let mine := own.filter fun p => p.1.val == k
    if mine.isEmpty then none else some ⟨Fin.ofNat 4 k, tk, mine.map Prod.snd⟩

/-- A thread's saved value of a pipe is in the latch again, and its hold is for the lift that issues (R367). -/
def Thread.reload (t : Thread) (pipe : Fin 4) (gen : Nat) : Thread :=
  { t with saved := t.saved.map fun (sv : SavedLatch) =>
      if sv.pipe = pipe then { sv with record := { sv.record with gen := gen, pinned := false }, hold := false, group := false, members := [] }
      else sv }

/-- Saved latches are reloaded before the lift they are held for: the pipe's latch holds them (R72, R367). -/
def State.reloadLatch (s : State) (core : Nat) (h : Hold) : State :=
  let s := s.setCore core ((s.core core).useLatch h.pipe.val)
  h.members.foldl (fun s m => s.onThread h.team m.1 m.2 fun th => th.reload h.pipe (nth (s.core core).latchGen h.pipe.val 0)) s

/-- What the meanings see of a lift (R32, R78). -/
def Lift.issue (l : Lift) : Issue :=
  { core := l.core, team := l.team, uniform := l.stand.uniform, lift := l.members, parts := l.members, addr := l.addr,
    len := l.stand.len, guardWord := l.stand.guardWord, word := l.stand.word, literal := l.stand.literal,
    operands := match l.stand.found with | .unit _ i => trapOperands l.stand.word.toNat i | .illegal _ | .noFetch _ _ => [] }

/-- A lift issues under the block its team was placed with (R339): its words are fetched, its core's slot is taken, saved latches are
reloaded, the holds it consumes end (R71), and every member participates until a guard says otherwise (R60). -/
def State.issueLift (s : State) (l : Lift) : State :=
  match FMap.get s.teams l.team with
  | none => s
  | some t =>
    let block := t.block.map fun _ => (s.part t.part).block
    let s := s.under t
    let m := l.members.headD (0, 0)
    let w : Who := ⟨t.part, l.core, !s.isPriv t, l.team, m.1, (l.members.filter fun x => x.1 == m.1).map Prod.snd, none⟩
    let s := l.fetched.foldl (fun s a => s.takeWord l.core t.part (!s.isPriv t) w a) s
    let c := s.core l.core
    let s := s.setCore l.core { c with
      holds := match l.hold with | some h => c.holds.filter fun x => x != h | none => c.holds
      laneIssued := c.laneIssued || !l.stand.uniform
      uniIssued := c.uniIssued || l.stand.uniform }
    let s := l.members.foldl (fun s m => s.onThread l.team m.1 m.2 fun th =>
      { th with wait := .none }) s
    -- the lines of the names the unit reads and writes are in the register store (R66)
    let s := (coursesOf l.members).foldl (fun s c =>
      let lead := ((l.members.filter fun m => m.1 == c).map Prod.snd).headD 0
      s.onCourse l.team c fun y => y.touch (l.instrs.flatMap fun i => (liveUse (s.core l.core) t c lead i).touches) s.cycle) s
    let saved := s.savedHolds l.team l.members
    let s := saved.foldl (fun s h => s.reloadLatch l.core h) s
    { s with issue := { l.issue with retired := s.issue.retired, consumed := l.hold.toList ++ saved, block := block } }

/-- Whether a thread waits with its unit not yet issued in the sense of R32: it issues the unit again when the wait is over. -/
def Wait.issuesAgain : Wait → Bool
  | .commit | .stamped _ | .lda _ _ | .log | .context _ | .timeline _ _ | .ringTake _ | .ringIdle _ | .tilePool | .pass | .tileBusy | .internal
  | .barWait _ _ | .emit | .link _ => true
  | .none | .join | .conv | .repack _ _ _ | .yield _ | .sleep _ | .mwait _ _ | .unmet | .range => false

/-- Threads that must issue their unit again keep the latch their group held, each with its own value (R71, R367). -/
def State.keepHold (s : State) : State :=
  if s.issue.consumed.isEmpty then s
  else
    s.issue.lift.foldl (fun s m =>
      match s.threadAt s.issue.team m.1 m.2 with
      | some th => if th.wait.issuesAgain then s.leaveHold s.issue.team m.1 m.2 else s
      | none => s) s

/-- The STEP trap of a thread that has retired a unit (R375, R376); one of a suspended course is parked in its image. -/
def State.stepTrap (s : State) (tk c l : Nat) : State :=
  match s.threadAt tk c l with
  | none => s
  | some th =>
    if th.stepping && th.parked.isNone && !th.halted then
      (s.deliverSystem tk { course := c, lane := l, code := .step } 0 false th.pc).rewriteThread tk c l
    else s

/-- The partition's block in force stands again after a lift that ran under its team's (R339). -/
def State.ownBlock (s : State) : State :=
  match s.issue.block with
  | none => s
  | some b =>
    let part := s.issue.team / 2 ^ 24 / 2 ^ 32
    let s := s.setPart part { s.part part with block := b }
    { s with issue := { s.issue with block := none } }

/-- What follows every event and every lift: holds are kept where the unit issues again, threads that step take their trap at the boundary,
and the register stores hold what they have room for (R66). -/
def State.after (s : State) : State :=
  let s := s.keepHold
  ((s.issue.retired.foldl (fun s x => s.stepTrap x.1 x.2.1 x.2.2) s).ownBlock).fitStores

/-- Continues with a next state. -/
def andThen (r : Host.Outcome State Fault Refusal) (f : State → Host.Outcome State Fault Refusal) : Host.Outcome State Fault Refusal :=
  match r with
  | .next s => f s
  | .fault x => .fault x
  | .refused x => .refused x

/-- Before a step nothing is issuing. -/
def State.startStep (s : State) : State := { s with issue := {} }

end Sys2Proof.Machine
end

