-- ==== Sys2Proof/Machine/Wake.lean ====
section
/-!
DEFINITION. What the device does without an instruction: it ends waits whose condition holds, parks and unparks threads at the operand
log, replays entries, serves its engines and rings, and lets a cycle pass (R34, R71, R124, R136, R142, R241, R242, R322, R324, R329, R334).
-/

namespace Sys2Proof.Machine

/-! ## Events that are ready without having been put on the agenda -/

/-- A course with load data in flight. -/
def State.loadEvent (s : State) : Option Instr :=
  s.teams.findSome? fun p => p.2.courses.findSome? fun q => if q.2.loads.isEmpty then none else some (.loadComplete ⟨p.1, q.1⟩)

/-- An engine that can accept, apply or grant. -/
def State.tileEvent (s : State) : Option Instr :=
  s.clusters.findSome? fun p =>
    let k := p.2
    if !k.work.isEmpty then some (.passApplied p.1)
    else if k.requests.any fun q => s.acceptable q then some (.passAcceptance p.1)
    else
      match k.pool with
      | [] => none
      | r :: _ =>
        match (FMap.get s.teams r.team).bind fun t => FMap.get t.courses r.course with
        | none => some (.tilePoolGrant p.1)
        | some x => if (if x.awaitTiles then x.tiles.length else x.tileWait) ≤ k.freeTiles then some (.tilePoolGrant p.1) else none

/-- A team whose due save can be made. -/
def State.saveEvent (s : State) : Option Instr :=
  (s.teams.find? fun p => p.2.saveDue && s.canSave p.1).map fun p => .teamSave p.1

/-- A mailbox whose command has waited for stamped stores that are all visible now (R345). -/
def State.mailEvent (s : State) : Option Instr :=
  let done (x : Mailbox) : Bool := x.busy && x.inval.any fun v => !s.invalOpen v
  let mail (f : Nat → Mbox) (p : Mailbox × Nat) : Option Instr := if done p.1 then some (.mailboxCommandComplete (f p.2)) else none
  (s.pfMail.zipIdx.findSome? (mail fun k => .pf (Fin.ofNat 2 k))).orElse fun _ => s.vfMail.zipIdx.findSome? (mail fun k => .vf (Fin.ofNat 16 k))

/-- The first event that is ready. -/
def State.readyEvent (s : State) : Option Instr :=
  s.mailEvent.orElse fun _ =>
  s.loadEvent.orElse fun _ => s.tileEvent.orElse fun _ => s.showEvent.orElse fun _ => s.engineEvent.orElse fun _ =>
    s.postEvent.orElse fun _ => if s.devicePost then some (.faultRecordPost 0) else s.saveEvent

/-- The next event: the oldest on the agenda, else one that is ready (log 2). -/
def State.nextEvent (s : State) : Option (Instr × State) :=
  match s.agenda with
  | e :: rest => some (e, { s with agenda := rest })
  | [] => s.readyEvent.map fun e => (e, s)

/-! ## Waits (R334) -/

/-- Whether a release of a thread's unit waits for acknowledgements of remote writes beside stamped stores (R252). -/
def needsAcks : Instr → Bool
  | .fence .dm _ => true
  | i => match memForm i with | some f => f.acc.scope == .dm | none => false

/-- Whether the watermark at the home of an lda's location has reached its stamp (R263). -/
noncomputable def State.ldaReady (s : State) (t : Team) (c l : Nat) (st : Stand) (dom : StampDom) (stamp : W64) : Bool :=
  match st.instr.bind fun i => (memForm i).map fun f => (accessOf (rdCtx (s.core t.core) t c) l i f).addr with
  | none => true
  | some a =>
    match ((s.under t).translate (some t.core) t.part (!s.isPriv t) .read a).2 with
    | .error _ => true
    | .ok x => decide (stamp.toNat ≤ s.homeW t.part (x.remote.map Prod.fst) x.pa dom)

/-- Whether the condition that a thread's wait names holds, so that it issues its unit again. The other waits end by events. -/
noncomputable def State.waitOver (s : State) (tk : Nat) (t : Team) (c : Nat) (x : Course) (l : Nat) (th : Thread) : Bool :=
  let key := sliceKey t.part t.slice
  match th.wait with
  | .barWait b phase => (nth t.barriers b {}).passed phase
  | .commit =>
    let acks := match (s.standAt t th.pc).instr with | some i => needsAcks i | none => false
    (acks && !th.resumed && th.remote.any fun o => s.lostPeer o.2) || (th.stamps.isEmpty && (th.remote.isEmpty || !acks))
  | .stamped ids => !ids.any s.stampOpen
  | .lda dom stamp => s.ldaReady t c l (s.standAt t th.pc) dom stamp
  | .log => !s.logStops t c l x th (s.standAt t th.pc)
  | .context k => !s.ctxFull key k
  | .timeline k target => decide (target.toNat ≤ (s.ctx key k).counter)
  | .ringTake k =>
    let r := t.ring k
    let first := match t.takers k with | [] => true | e :: _ => isTaker c [l] th.pc e
    !r.ready || ((nth r.slots r.take {}).state == 2 && first)
  | .link d => !s.pathDown d
  | .ringIdle k => !(t.ring k).filling
  | .tileBusy => !s.tileBusy (clusterOfCore t.core) ⟨tk, c⟩ none
  | .internal => t.held.isEmpty
  | .emit =>
    t.held.isEmpty &&
      match (s.recordKeys tk t.records).2 with
      | none => true
      | some recs =>
        if (match t.lowest (nextKeys recs) with | some k => !keyLt k th.key | none => true) then
          !t.emits.any fun e => !keyLt th.key (e.root, e.ords) && e.stamps.any s.stampOpen
        else decide (t.emits.length < 256)
  | .none | .join | .conv | .repack _ _ _ | .yield _ | .sleep _ | .mwait _ _ | .tilePool | .pass | .unmet | .range => false

/-- The status with which a thread leaves its mwait now, if it does (R294): it was struck and issues again, or its monitor has fired. -/
def Thread.mwaitEnds (t : Thread) : Option W32 :=
  match t.wait with
  | .mwait _ _ =>
    if t.halted || t.parked.isSome then none
    else if t.struck then some 2
    else match t.monitor with | some m => if m.fired then some 0 else none | none => none
  | _ => none

/-- The resident threads of the device with their teams and courses. -/
def State.residentThreads (s : State) : List (Nat × Team × Nat × Course × Nat × Thread) :=
  s.teams.flatMap fun p => p.2.courses.flatMap fun q =>
    if q.2.suspended then [] else q.2.threads.map fun r => (p.1, p.2, q.1, q.2, r.1, r.2)

/-- A thread whose mwait ends. -/
def State.wakeMwait (s : State) : Option State :=
  s.residentThreads.findSome? fun x => x.2.2.2.2.2.mwaitEnds.map fun v => s.endMwait ⟨x.1, x.2.2.1, x.2.2.2.2.1⟩ v

/-- Threads whose wait is over: all of them at once. -/
noncomputable def State.wakeWaits (s : State) : Option State :=
  let over' := s.residentThreads.filter fun x =>
    x.2.2.2.2.2.parked.isNone && s.waitOver x.1 x.2.1 x.2.2.1 x.2.2.2.1 x.2.2.2.2.1 x.2.2.2.2.2
  if over'.isEmpty then none
  else some (over'.foldl (fun s x => s.onThread x.1 x.2.2.1 x.2.2.2.2.1 fun th =>
    let again := match th.wait with | .lda _ _ => true | _ => th.waited
    { th with wait := .none, waited := again, readySince := s.cycle }) s)

/-! ## The operand log (R241, R242) -/

/-- A free thread whose unit cannot be fetched while its plane is out waits for it (R380). -/
noncomputable def State.wakeFetch (s : State) : Option State :=
  if s.ports != 0 then none
  else
    s.residentThreads.findSome? fun x =>
      let (tk, t, c, co, l, th) := x
      if !th.free || !t.issues || !co.issues then none
      else (s.fetchPlane t (s.standAt t th.pc)).map fun d => (s.leaveHold tk c l).onThread tk c l fun y => { y with wait := .link d }

/-- A free thread whose unit pending entries stop: it parks there, out of any group that holds a pipe. -/
noncomputable def State.wakeLog (s : State) : Option State :=
  s.residentThreads.findSome? fun x =>
    let (tk, t, c, co, l, th) := x
    if !th.free || !t.issues || !co.issues || co.log.all Option.isNone then none
    else
      let st := s.standAt t th.pc
      if s.logStops t c l co th st then
        some ((s.leaveHold tk c l).onThread tk c l fun y => { y with wait := .log, waitLen := st.len })
      else none

/-- A held access of the device's own that has waited for a plane, and waits no more (R380, R395): the team's are performed again. -/
def State.wakeHeld (s : State) : Option State :=
  let over' (part : Nat) (t : Team) : Bool :=
    match t.held with
    | h :: _ => h.link && !(s.under t).planeDown part (if h.bytes.isEmpty then .read else .write) h.addr
    | [] => false
  let saved := s.slices.findSome? fun p => (p.2.kept.find? fun k => over' p.2.part k.2).map fun k => teamKey p.2.part p.2.num k.1
  (((s.teams.find? fun p => over' p.2.part p.2).map Prod.fst).orElse fun _ => saved).map s.performHeld

/-- An entry whose replay the host has asked for and which can make progress (R242). -/
def State.wakeReplay (s : State) : Option State :=
  s.teams.findSome? fun p =>
    if !p.2.issues then none
    else p.2.courses.findSome? fun q =>
      if !q.2.issues then none
      else (List.range 8).findSome? fun e =>
        match nth q.2.log e none with
        | none => none
        | some x =>
          if !x.replay then none
          else
            let s' := s.replayEntry p.1 q.1 e
            let y := (FMap.get s'.teams p.1).bind fun t => (FMap.get t.courses q.1).bind fun c => nth c.log e none
            if y == some x then none else some s'

/-! ## Threads of records out of range (R41) -/

/-- A thread created from a record out of range raises FORK_RANGE at its unit, before that issues. -/
noncomputable def State.wakeRange (s : State) : Option State :=
  s.residentThreads.findSome? fun x =>
    let (tk, t, c, co, l, th) := x
    if th.wait != .range || th.halted || th.parked.isSome || !t.issues || !co.issues then none
    else
      let lift : Lift := ⟨t.core, tk, [(c, l)], th.pc, s.standAt t th.pc, none⟩
      some ({ s with issue := lift.issue }.deliver [{ course := c, lane := l, code := .forkRange, detail := 2 }])

/-! ## Rendezvous whose missing threads are blocked (R34, R195) -/

/-- Whether a thread that is not at a group or matrix instruction is blocked in a way R34 lists. -/
def Thread.blocked (t : Thread) : Bool :=
  t.halted || t.parked.isSome ||
    match t.wait with
    | .join | .barWait _ _ | .mwait _ _ | .emit | .log => true
    | .link _ | .none | .conv | .repack _ _ _ | .yield _ | .sleep _ | .commit | .stamped _ | .lda _ _ | .context _ | .timeline _ _ | .ringTake _
    | .ringIdle _ | .tilePool | .pass | .tileBusy | .internal | .unmet | .range => false

/-- The lanes of a course that stand at group or matrix instructions, with their addresses: free, or stopped there by the log. -/
noncomputable def State.atMeeting (s : State) (t : Team) (x : Course) : List (Nat × W64) :=
  (x.threads.filter fun p => !p.2.halted && p.2.parked.isNone && (p.2.wait == .none || p.2.wait == .log) && (s.standAt t p.2.pc).meets).map
    fun p => (p.1, p.2.pc)

/-- A course of which some threads stand at group or matrix instructions and every other is blocked, and not all at one: PARTIAL_MATRIX is
due in those that stand there. The threads of a team with a held access count as blocked (R395). -/
noncomputable def State.wakeUnmet (s : State) : Option State :=
  s.teams.findSome? fun p =>
    let held := !p.2.held.isEmpty && !p.2.frozen && !p.2.saving && !p.2.restoring
    if !p.2.issues && !held then none
    else p.2.courses.findSome? fun q =>
      if !q.2.issues then none
      else
        let here := s.atMeeting p.2 q.2
        match here with
        | [] => none
        | h :: _ =>
          let whole := here.length = q.2.threads.length && here.all fun x => x.2 == h.2
          if whole then none
          else if q.2.threads.all fun r => here.any (fun x => x.1 == r.1) || held || r.2.blocked then
            some (here.foldl (fun s x => s.onThread p.1 q.1 x.1 fun th => { th with wait := .unmet }) s)
          else none

/-- A group that holds a pipe and has come to a group or matrix instruction with other threads than those of its course: each keeps its own
latch value, and the hold ends. -/
noncomputable def State.wakeHold (s : State) : Option State :=
  s.busyCores.findSome? fun k =>
    (s.core k).holds.findSome? fun h =>
      match (s.ready k).find? fun q => q.stand.meets && q.team == h.team && h.members.contains q.member with
      | none => none
      | some q =>
        let mates := (s.ready k).filter fun r => r.team == q.team && r.course == q.course
        if mates.length = h.members.length && mates.all fun r => h.members.contains r.member then none
        else some (h.members.foldl (fun s m => s.leaveHold h.team m.1 m.2) s)

/-- A window of which an entry can be committed, its thread's stamped stores being visible now (R129, R262). -/
def State.wakeEmits (s : State) : Option State :=
  s.teams.findSome? fun p =>
    if !p.2.held.isEmpty || p.2.saving || p.2.restoring || p.2.emits.all (fun e => e.stamps.isEmpty) then none
    else
      match (s.recordKeys p.1 p.2.records).2 with
      | none => none
      | some recs => if (s.committable p.2 (nextKeys recs)).isEmpty then none else some (s.settle p.1)

/-- Messages whose INVAL is complete are answered (R345, R352). -/
def State.wakeReplies (s : State) : Option State :=
  let go := s.replies.filter fun r => !s.invalOpen r.1
  if go.isEmpty then none
  else some (go.foldl (fun s r => (s.endInval r.1).signal r.2) { s with replies := s.replies.filter fun r => s.invalOpen r.1 })

/-- What the device does next on its own. -/
noncomputable def State.wake (s : State) : Option State :=
  s.wakeReplies.orElse fun _ => s.wakeEmits.orElse fun _ => s.wakeMwait.orElse fun _ => s.wakeHeld.orElse fun _ => s.wakeReplay.orElse fun _ => s.wakeWaits.orElse fun _ => s.wakeFetch.orElse fun _ => s.wakeLog.orElse fun _ =>
    if s.thermalStop then none else s.wakeRange.orElse fun _ => s.wakeUnmet.orElse fun _ => s.wakeHold

/-! ## A cycle passes -/

/-- How many parts a ns has in `State.nsFrac`: a cycle of every core clock that R24 and R388 allow is a whole number of them. -/
def nsParts : Nat := 5354228880

/-- Package time goes on by one cycle of the core clock (R24, R256). -/
def State.advanceTime (s : State) : State :=
  let f := s.nsFrac + 1000 * nsParts / max 1 s.clockMHz
  { s with cycle := s.cycle + 1, ns := s.ns + f / nsParts, nsFrac := f % nsParts,
           cores := s.cores.map fun (p : Nat × Core) => (p.1, { p.2 with laneIssued := false, uniIssued := false }) }

/-- A resident team that is not frozen adds one to its slice's consumed cycles; the budget of a running slice is spent when they reach it
(R324, R376). -/
def State.countBudget (s : State) : State :=
  s.teams.foldl (fun s p =>
    if p.2.frozen then s
    else
      let key := sliceKey p.2.part p.2.slice
      match FMap.get s.slices key with
      | none => s
      | some x =>
        let x := { x with consumed := x.consumed + 1 }
        let s := s.setSlice key x
        if x.state == .running && x.budget != 0 && decide (x.budget ≤ x.consumed) then s.due (.budget key) else s) s

/-- Adds a cycle to the sentinel counts of the waiting threads of a course that does not issue, suspended or waiting for its tiles; those
that reach the limit (R335). -/
def countIdle (limit : Nat) (tk c : Nat) (unformed : Nat → Bool) (x : Course) : Course × List Instr :=
  let waits (l : Nat) (t : Thread) : Bool := !t.halted && t.parked.isNone && (t.wait.watched || unformed l)
  let threads := x.threads.map fun (p : Nat × Thread) => (p.1, if waits p.1 p.2 then { p.2 with sentinel := p.2.sentinel + 1 } else p.2)
  ({ x with threads := threads },
    (threads.filter fun p => waits p.1 p.2 && decide (limit ≤ p.2.sentinel)).map fun p => .waitSentinel ⟨tk, c, p.1⟩)

/-- Lowers the counts of waiting threads of a course and its conv counts; the events they bring to an end (R124, R136, R294, R334, R335). -/
def countCourse (limit : Nat) (tk c : Nat) (unformed : Nat → Bool) (x : Course) : Course × List Instr :=
  let thread (l : Nat) (t : Thread) : Thread :=
    if t.halted || t.parked.isSome then t
    else
      let w := match t.wait with
        | .sleep n => .sleep (n - 1)
        | .mwait d (some n) => .mwait d (some (n - 1))
        | w => w
      { t with wait := w, sentinel := if t.wait.watched || unformed l then t.sentinel + 1 else t.sentinel }
  let threads := x.threads.map fun p => (p.1, thread p.1 p.2)
  let convs := x.convs.map fun p => (p.1, p.2 - 1)
  let ends := threads.flatMap fun p =>
    if p.2.halted || p.2.parked.isSome then []
    else
      (match p.2.wait with
       | .sleep 0 => [Instr.sleepExpiry ⟨tk, c, p.1⟩]
       | .mwait _ (some 0) => [.mwaitTimeout ⟨tk, c, p.1⟩]
       | _ => []) ++
      if (p.2.wait.watched || unformed p.1) && decide (limit ≤ p.2.sentinel) then [.waitSentinel ⟨tk, c, p.1⟩] else []
  ({ x with threads := threads, convs := convs },
    ends ++ (convs.filter fun p => p.2 == 0).map fun p => .convTimeout ⟨tk, c⟩ (BitVec.ofNat 64 p.1))

/-- The lanes of a course that stand at a group or matrix instruction for which course-mates are missing (R34, R334). -/
noncomputable def State.unformed (s : State) (t : Team) (x : Course) : List Nat :=
  let here := s.atMeeting t x
  if here.length = x.threads.length && here.all (fun p => some p.2 == here.head?.map Prod.snd) then [] else here.map Prod.fst

/-- The timers of a team: spawn bins, and the waits of its courses; frozen ones stand still (R376), and of the waits of courses that do not
issue the sentinel alone counts on (R335). -/
noncomputable def State.countTeam (s : State) (tk : Nat) (t : Team) : State :=
  if t.frozen then s
  else
    let limit := ((s.under t).part t.part).sentinel
    let rs := t.courses.map fun q =>
      let unformed := (s.unformed t q.2).contains
      (q.1, if q.2.issues then countCourse limit tk q.1 unformed q.2 else countIdle limit tk q.1 unformed q.2)
    let bins := t.bins.map fun b => if b.tasks.isEmpty then b else { b with timer := b.timer - 1 }
    let run := (List.range 8).filter fun k => let b := nth t.bins k {}; !b.tasks.isEmpty && b.timer == 1
    let s := s.setTeam tk { t with courses := rs.map fun r => (r.1, r.2.1), bins := bins }
    let s := run.foldl (fun s k => s.due (.spawnTimerExpiry tk (Fin.ofNat 8 k))) s
    (rs.flatMap fun r => r.2.2).foldl State.due s

/-- A time message is exchanged on each port every 10 µs in a domain (R256): on a port that works it may succeed. -/
def State.dueTimeMessage (s : State) (port : Nat) : State :=
  if s.boot == .full && s.domain && decide (nth s.linkAt port 0 + 10000 ≤ s.ns) then
    let ok := s.ports.getLsbD port && Config.freeChoice s.freeCtr % 2 == 1
    { s with linkAt := setNth s.linkAt port (nth s.linkAt port 0 + 10000), freeCtr := s.freeCtr + 1 }.due
      (.linkTimeExchange (Fin.ofNat 18 port) ok 0)
  else s

/-- Every device this one knows of is unreachable when no plane has worked for 1 ms (R380): those heard of, and those its windows name, then
or later. -/
def State.dueUnreachable (s : State) : State :=
  match s.linkDown with
  | none => s
  | some t =>
    if s.ns < t + 1000000 then s
    else
      let named := ((List.range 16).filter fun k => (s.part k).enabled).flatMap fun k => (List.range 512).filterMap fun i => (s.windowEntry k i).map Prod.fst
      let known := (addNew (FMap.keys s.peers) named).filter fun d => d != s.devNumber && (s.peer d).reachable
      known.foldl (fun s d => s.due (.deviceUnreachable (Fin.ofNat 512 d))) s

/-- What time alone makes due: watermark refreshes (R260), time messages (R256), devices and dies that have been silent for 1 ms (R380, R381),
the start of an open group (R310), and another try of the scheduler when a team has been resident for 4,096 cycles (R323). -/
def State.dueByTime (s : State) : State :=
  let dies := List.range 4
  let s := (List.range 18).foldl State.dueTimeMessage s
  let s := s.dueUnreachable
  let s := if s.cycle % 2 = 0 then dies.foldl (fun s d => s.due (.watermarkRefresh (Fin.ofNat 4 d) .package)) s else s
  let s := if s.cycle % 128 = 0 then dies.foldl (fun s d => s.due (.watermarkRefresh (Fin.ofNat 4 d) .domain)) s else s
  let s := dies.foldl (fun s d =>
    let x := s.die d
    if !x.alive && x.inSet && decide (x.lostAt + 1000000 ≤ s.ns) then s.due (.dieSetExit (Fin.ofNat 4 d)) else s) s
  let s := (List.range 16).foldl (fun s k =>
    ((s.part k).instances.filter fun g => g.group == 64 && !g.started && decide (g.openedAt + 100000 ≤ s.ns)).foldl
      (fun s g => s.due (.openGroupStart (Fin.ofNat 16 k) (BitVec.ofNat 64 g.tag))) s) s
  (List.range 16).foldl (fun s k =>
    if s.teams.any fun p => p.2.part == k && p.2.since + 4096 == s.cycle then s.due (.teamPlacement (Fin.ofNat 16 k)) else s) s

/-- Nothing more happens in this cycle: it ends, and the next begins. -/
noncomputable def State.tick (s : State) : State :=
  let s := s.countBudget
  let s := s.teams.foldl (fun s p => match FMap.get s.teams p.1 with | some t => s.countTeam p.1 t | none => s) s
  s.advanceTime.dueByTime

end Sys2Proof.Machine
end

