-- ==== Sys2Proof/Machine/Run.lean ====
section
/-!
DEFINITION. One step: an event, something the device does on its own, a lift, or the end of a cycle (log 2). And the placing of a program by
hand, from outside the machine.
-/

namespace Sys2Proof.Machine

/-- The members of a lift whose unit reads a poisoned place of their course (R378): every thread of the course at a tile, else those that
participate. A matrix or group instruction that lacks a thread raises PARTIAL_MATRIX instead, and so does a matrix instruction whose guard is
false in some threads only (R217). -/
def State.meetsError (s : State) (i : Instr) : List (Nat × Nat) :=
  match s.curTeam with
  | none => []
  | some t =>
    (coursesOf s.issue.lift).flatMap fun c =>
      let x := t.course c
      let parts := s.issue.parts.filter fun m => m.1 == c
      let tile := match tileRead i with | some k => x.bad.contains (.tile k) | none => false
      let w := s.issue.word.toNat
      if x.bad.isEmpty || (isRendezvous w && !s.issue.whole c x) || (isMatrixWord w && !allParticipate s.issue c x) then []
      else if tile then s.issue.lift.filter fun m => m.1 == c
      else if (liveUse (s.core t.core) t c ((parts.map Prod.snd).headD 0) i).places.any x.bad.contains then parts
      else []

/-- Executes an instruction for the members that meet no error; the others are parked with nothing done (R378). At a group or matrix
instruction the rest of the course, whose guard is false, goes on. -/
def State.run (s : State) (i : Instr) : Host.Outcome State Fault Refusal :=
  let bad := s.meetsError i
  if bad.isEmpty then exec i s
  else
    let rest := s.issue.lift.filter fun m => !bad.contains m
    let s := s.deliver (bad.map fun m => { course := m.1, lane := m.2, code := .ecc })
    if isRendezvous s.issue.word.toNat then .next (s.retire rest s.issue.next)
    else if rest.isEmpty then .next s
    else exec i { s with issue := { s.issue with lift := rest, parts := s.issue.parts.filter fun m => !bad.contains m } }

/-- Executes the instructions of a unit one after another: a guard prefix settles who participates, and the instruction follows. -/
def runUnit (is : List Instr) (s : State) : Host.Outcome State Fault Refusal :=
  is.foldl (fun r i => andThen r fun s => s.run i) (.next s)

/-- Issues a lift: what comes before its unit, the unit, and what comes after (R32). -/
def State.runLift (s : State) (l : Lift) : Host.Outcome State Fault Refusal :=
  andThen (runUnit l.instrs (s.issueLift l)) fun s => .next s.after

/-- One step. -/
noncomputable def State.oneStep (s : State) : Host.Outcome State Fault Refusal :=
  let s := s.startStep
  match s.nextEvent with
  | some (e, s) => andThen (exec e s) fun s => .next s.after
  | none =>
    match s.wake with
    | some s => .next s.after
    | none =>
      match s.nextLift with
      | some l => s.runLift l
      | none => .next s.tick

/-! ## A program placed from outside (log 27) -/

/-- Where the placed program's first unit stands: its virtual address, and its physical one. -/
def placedVa : Nat := 0x1000
/-- The 1 GiB page that holds it, with tables at three physical addresses below it (R342). -/
def placedPage : Nat := 2 ^ 30

/-- Three levels of tables that map the first GiB of the address space, readable, writable and executable at user level (R342). -/
def placeTables (m : Bytes) : Bytes :=
  ((m.writeN 0x1000 (leBytes 8 (0x2000 + 1))).writeN 0x2000 (leBytes 8 (0x3000 + 1))).writeN 0x3000 (leBytes 8 (placedPage + 0x1F))

/-- A partition that is enabled, maps through those tables, and is granted the page and 512 lines of core 0's register store (R339). -/
def placedPartition : Partition :=
  { block := putBytes (putBytes (putBytes (nth State.reset.parts 0 {}).block 0 (leBytes 8 1 ++ leBytes 8 0x1000 ++ leBytes 4 0 ++ leBytes 4 512))
      0x100 [1]) 0x180 (leBytes 8 (placedPage / 65536) ++ leBytes 8 (placedPage / 65536)) }

/-- The slice the placed thread belongs to: one team of one thread. -/
def placedSlice : Slice :=
  { part := 0, num := 1, state := .running, record := putBytes (List.replicate 128 0) 0x38 (leBytes 8 (1 + 2 ^ 24 + 2 ^ 35)), nextTeam := 1 }

/-- The team: one course with one live thread, on lane 0, at the placed unit. -/
def placedTeam : Team :=
  { part := 0, slice := 1, index := 0, core := 0, allot := 2, ceiling := 1, stackK := 4,
    courses := [(0, { threads := [(0, { pc := BitVec.ofNat 64 placedVa })] })] }

/-- The machine in full service with nothing due, one team of one thread on core 0, and 12 bytes of `w` at the thread's unit. -/
def State.placeWord (s : State) (w : Nat) : State :=
  { s with
    agenda := [], issue := {}, boot := .full, thermalStop := false, errorLog := {}, stores := [], poison := [],
    dies := List.replicate 4 {}, clusters := [], cores := [],
    mem := (placeTables s.mem).writeN (placedPage + placedVa) (leBytes 12 w),
    parts := placedPartition :: List.replicate 15 {},
    slices := [(sliceKey 0 1, placedSlice)],
    teams := [(teamKey 0 1 0, placedTeam)] }

end Sys2Proof.Machine
end

