-- ==== Sys2Proof/Machine/Step.lean ====
section
/-!
DEFINITION. The step of the machine, and the placing of one instruction where the next step fetches it. Both only call Machine/Run.lean.
-/

namespace Sys2Proof.Machine

/-- One step of the machine (log 2). -/
noncomputable def step (s : State) : Host.Outcome State Fault Refusal := s.oneStep

/-- The machine with an instruction of `nbits` bits placed where the next step fetches it, and with all that lets that step issue it: a
loaded slice, its page tables, and a resident thread (log 27). The bits above `nbits` are zero. -/
def State.withFetchWord (s : State) (nbits w : Nat) : State := s.placeWord (w % 2 ^ nbits)

end Sys2Proof.Machine
end

