-- ==== Sys2Proof/Laws/Words.lean ====
section
/-!
SUPPORT. The fields of encoded words, and what each decoder of a format reads from the word of its encoder (R80 to R86).
-/

namespace Sys2Proof

/-! ## Operand fields -/

/-- An operand with its literal replaced: what a decoder that sees another literal word reads. -/
def Src.setLit (lit : Nat) : Src → Src
  | .lit _ => .lit (BitVec.ofNat 32 lit)
  | .reg n l => .reg n l
  | .opf n => .opf n
  | .latch n => .latch n
  | .special s => .special s

@[simp] theorem Src.setLit_isLit (lit : Nat) (a : Src) : (a.setLit lit).isLit = a.isLit := by cases a <;> rfl
@[simp] theorem Src.setLit_modeOk (ty : Ty) (lit : Nat) (a : Src) : (a.setLit lit).modeOk ty = a.modeOk ty := by cases a <;> rfl
@[simp] theorem Src.setLit_pairOk (ty : Ty) (lit : Nat) (a : Src) : (a.setLit lit).pairOk ty = a.pairOk ty := by cases a <;> rfl

theorem Src.setLit_of_not (lit : Nat) (a : Src) (h : a.isLit = false) : a.setLit lit = a := by cases a <;> simp_all [Src.setLit, Src.isLit]

theorem Src.literal_length (a : Src) : a.literal.length = a.isLit.toNat := by cases a <;> rfl

theorem Special.index_lt (s : Special) : s.index < 63 := by cases s <;> simp only [Special.index] <;> omega

theorem Src.code_lt (a : Src) : a.code < 256 := by
  rcases a with ⟨n, l⟩ | n | n | s | w
  · cases l <;> simp only [Src.code, Bool.toNat_true, Bool.toNat_false] <;> omega
  · simp only [Src.code]; omega
  · simp only [Src.code]; omega
  · have := s.index_lt; simp only [Src.code]; omega
  · simp [Src.code]

theorem specialOf_index (s : Special) : specialOf s.index = some s := by
  rcases s with n | k | _ | _ | _ | _ | _
  · simp [Special.index, specialOf]
  · have : ¬ (32 + k.val < 32) := by omega
    have h2 : 32 + k.val < 48 := by omega
    simp only [Special.index, specialOf, this, h2, if_false, if_true]
    congr 2
    apply Fin.ext
    simp only [Fin.val_ofNat]
    omega
  all_goals rfl

theorem srcOf_code (a : Src) (lit : Nat) : srcOf a.code lit = some (a.setLit lit) := by
  rcases a with ⟨n, l⟩ | n | n | s | w
  · cases l
    · have : n.val < 64 := n.isLt
      simp [Src.code, srcOf, Src.setLit, reg64]
    · have h1 : ¬ (64 + n.val < 64) := by omega
      have h2 : 64 + n.val < 128 := by omega
      simp only [Src.code, Bool.toNat_true, Nat.one_mul, srcOf, h1, h2, if_false, if_true, Src.setLit]
      congr 2
      apply Fin.ext
      simp only [Fin.val_ofNat]
      omega
  · have h1 : ¬ (128 + n.val < 64) := by omega
    have h2 : ¬ (128 + n.val < 128) := by omega
    have h3 : 128 + n.val < 144 := by omega
    simp only [Src.code, srcOf, h1, h2, h3, if_false, if_true, Src.setLit]
    congr 2
    apply Fin.ext
    simp only [Fin.val_ofNat]
    omega
  · have h1 : ¬ (144 + n.val < 64) := by omega
    have h2 : ¬ (144 + n.val < 128) := by omega
    have h3 : ¬ (144 + n.val < 144) := by omega
    have h4 : 144 + n.val < 148 := by omega
    simp only [Src.code, srcOf, h1, h2, h3, h4, if_false, if_true, Src.setLit]
    congr 2
    apply Fin.ext
    simp only [Fin.val_ofNat]
    omega
  · have hi := s.index_lt
    have h1 : ¬ (192 + s.index < 64) := by omega
    have h2 : ¬ (192 + s.index < 128) := by omega
    have h3 : ¬ (192 + s.index < 144) := by omega
    have h4 : ¬ (192 + s.index < 148) := by omega
    have h5 : ¬ (192 + s.index < 192) := by omega
    have h6 : ¬ (192 + s.index = 255) := by omega
    have h7 : 192 + s.index - 192 = s.index := by omega
    simp only [Src.code, srcOf, h1, h2, h3, h4, h5, h6, h7, if_false, specialOf_index, Option.map_some, Src.setLit]
  · rfl

/-- The operand a decoder reads from an operand's own field. -/
theorem opnd_code (ty : Ty) (a : Src) (lit : Nat) : opnd ty a.code lit = ⟨a.setLit lit, a.modeOk ty, a.pairOk ty⟩ := by
  simp [opnd, srcOf_code]

/-! ## Fields of words -/

/-- A sum of two parts below 2^m and 2^32 in all. -/
theorem wordR_toNat {op n d a b l : Nat} (ho : op < 256) (hn : n < 2) (hd : d < 64) (ha : a < 256) (hb : b < 256) (hl : l < 2) :
    (wordR op n d a b l).toNat = op * 2 ^ 24 + n * 2 ^ 23 + d * 2 ^ 17 + a * 2 ^ 9 + b * 2 + l := by
  simp only [wordR, BitVec.toNat_ofNat]; omega

theorem wordI_toNat {op n d a i : Nat} (ho : op < 256) (hn : n < 2) (hd : d < 64) (ha : a < 256) (hi : i < 512) :
    (wordI op n d a i).toNat = op * 2 ^ 24 + n * 2 ^ 23 + d * 2 ^ 17 + a * 2 ^ 9 + i := by
  simp only [wordI, BitVec.toNat_ofNat]; omega

theorem wordM_toNat {op f d a o : Nat} (ho : op < 256) (hf : f < 16) (hd : d < 64) (ha : a < 256) (hi : o < 64) :
    (wordM op f d a o).toNat = op * 2 ^ 24 + f * 2 ^ 20 + d * 2 ^ 14 + a * 2 ^ 6 + o := by
  simp only [wordM, BitVec.toNat_ofNat]; omega

theorem wordB_toNat {op p g o : Nat} (ho : op < 256) (hp : p < 16) (hg : g < 2) (hi : o < 2 ^ 19) :
    (wordB op p g o).toNat = op * 2 ^ 24 + p * 2 ^ 20 + g * 2 ^ 19 + o := by
  simp only [wordB, BitVec.toNat_ofNat]; omega

/-- What every format has in common: OP and S. -/
structure OpOf (w op : Nat) : Prop where
  hi : fld w 28 4 = op / 16
  lo : fld w 24 4 = op % 16
  all : fld w 24 8 = op

/-- The fields of an R-format word. -/
structure FieldsR (w op n d a b l : Nat) : Prop extends OpOf w op where
  fn : fN w = n
  fd : fD w = d
  fa : fA w = a
  fb : fB w = b
  fl : fL w = l

structure FieldsI (w op n d a i : Nat) : Prop extends OpOf w op where
  fn : fN w = n
  fd : fD w = d
  fa : fA w = a
  fi : fImm9 w = i

structure FieldsM (w op f d a o : Nat) : Prop extends OpOf w op where
  ff : fmF w = f
  fd : fmD w = d
  fa : fmA w = a
  fo : fmO w = o

structure FieldsB (w op p g o : Nat) : Prop extends OpOf w op where
  fp : fbP w = p
  fg : fbG w = g
  fo : fbO w = o

theorem fieldsR {op n d a b l : Nat} (ho : op < 256) (hn : n < 2) (hd : d < 64) (ha : a < 256) (hb : b < 256) (hl : l < 2) :
    FieldsR (wordR op n d a b l).toNat op n d a b l := by
  rw [wordR_toNat ho hn hd ha hb hl]
  refine ⟨⟨?_, ?_, ?_⟩, ?_, ?_, ?_, ?_, ?_⟩ <;> simp only [fld, fN, fD, fA, fB, fL] <;> omega

theorem fieldsI {op n d a i : Nat} (ho : op < 256) (hn : n < 2) (hd : d < 64) (ha : a < 256) (hi : i < 512) :
    FieldsI (wordI op n d a i).toNat op n d a i := by
  rw [wordI_toNat ho hn hd ha hi]
  refine ⟨⟨?_, ?_, ?_⟩, ?_, ?_, ?_, ?_⟩ <;> simp only [fld, fN, fD, fA, fImm9] <;> omega

theorem fieldsM {op f d a o : Nat} (ho : op < 256) (hf : f < 16) (hd : d < 64) (ha : a < 256) (hi : o < 64) :
    FieldsM (wordM op f d a o).toNat op f d a o := by
  rw [wordM_toNat ho hf hd ha hi]
  refine ⟨⟨?_, ?_, ?_⟩, ?_, ?_, ?_, ?_⟩ <;> simp only [fld, fmF, fmD, fmA, fmO] <;> omega

theorem fieldsB {op p g o : Nat} (ho : op < 256) (hp : p < 16) (hg : g < 2) (hi : o < 2 ^ 19) :
    FieldsB (wordB op p g o).toNat op p g o := by
  rw [wordB_toNat ho hp hg hi]
  refine ⟨⟨?_, ?_, ?_⟩, ?_, ?_, ?_⟩ <;> simp only [fld, fbP, fbG, fbO] <;> omega

/-! ## Destinations -/

theorem Dst.n_lt (d : Dst) : d.n < 2 := by cases d <;> simp [Dst.n]
theorem Dst.field_lt (d : Dst) : d.field < 64 := by cases d <;> simp only [Dst.field] <;> omega
theorem Dst.l_lt (d : Dst) : d.l < 2 := by cases d <;> simp [Dst.l]

/-- The destination a decoder reads from a destination's own fields. -/
theorem dstOf_fields (w : Nat) (d : Dst) (hn : fN w = d.n) (hd : fD w = d.field) (hl : fL w = d.l) : dstOf w = d := by
  cases d with
  | reg n => simp [dstOf, hn, hd, hl, Dst.n, Dst.l, Dst.field, reg64]
  | opf n =>
    simp only [dstOf, hn, hd, hl, Dst.n, Dst.l, Dst.field, Nat.zero_ne_one, if_false, if_true]
    congr 1
    apply Fin.ext
    simp
  | sup => simp [dstOf, hn, Dst.n]

theorem dstRes_fields (n : Bool) (w : Nat) (d : Dst) (h : d.supOk n = true) (hn : fN w = d.n) (hd : fD w = d.field) (hl : fL w = d.l) :
    dstRes n w = true := by
  cases d with
  | reg n => simp [dstRes, hn, hl, Dst.n, Dst.l]
  | opf n => simp [dstRes, hn, hd, hl, Dst.n, Dst.l, Dst.field]
  | sup => simp_all [dstRes, Dst.n, Dst.l, Dst.field, Dst.supOk]

/-! ## Codes -/

@[simp] theorem condOf_code (c : Cond) : condOf (condCode c) = c := by cases c <;> rfl
@[simp] theorem classUseOf_code (c : ClassUse) : classUseOf (classUseCode c) = c := by cases c <;> rfl
@[simp] theorem roundOf_code (c : Round) : roundOf (roundCode c) = c := by cases c <;> rfl
@[simp] theorem cvtSrcOf_code (c : CvtSrc) : cvtSrcOf (cvtSrcCode c) = some c := by cases c <;> rfl
@[simp] theorem bitOpOf_code (c : BitOp) : bitOpOf (bitOpCode c) = some c := by cases c <;> rfl
@[simp] theorem redKindOf_code (c : RedKind) : redKindOf (redKindCode c) = some c := by cases c <;> rfl
@[simp] theorem mfmtOf_code (c : MFmt) : mfmtOf (mfmtCode c) = some c := by cases c <;> rfl
@[simp] theorem fillKindOf_code (c : FillKind) : fillKindOf (fillKindCode c) = some c := by cases c <;> rfl
@[simp] theorem scopeOf_code (c : Scope) : scopeOf (scopeCode c) = some c := by cases c <;> rfl
@[simp] theorem orderOf_code (c : Order) : orderOf (orderCode c) = some c := by cases c <;> rfl
@[simp] theorem fenceOrdOf_code (c : FenceOrd) : fenceOrdOf (fenceOrdCode c) = some c := by cases c <;> rfl
@[simp] theorem xlevelOf_code (c : XLevel) : xlevelOf (xlevelCode c) = c := by cases c <;> rfl
@[simp] theorem xwidthOf_code (c : XWidth) : xwidthOf (xwidthCode c) = c := by cases c <;> rfl
@[simp] theorem ldKindOf_code (c : LdKind) : ldKindOf (ldKindCode c) = some c := by cases c <;> rfl
@[simp] theorem stKindOf_code (c : StKind) : stKindOf (stKindCode c) = some c := by cases c <;> rfl
@[simp] theorem atomOpOf_code (c : AtomOp) : atomOpOf (atomOpCode c) = c := by cases c <;> rfl
@[simp] theorem casWOf_code (c : CasW) : casWOf (casWCode c) = some c := by cases c <;> rfl
@[simp] theorem sregOf_code (c : SReg) : sregOf (sregCode c) = some c := by cases c <;> rfl
@[simp] theorem predOf_code (p : PredSel) : predOf (predCode p) = p := by
  cases p with
  | always => rfl
  | p n => simp [predOf, predCode]

theorem condCode_lt (c : Cond) : condCode c < 4 := by cases c <;> decide
theorem classUseCode_lt (c : ClassUse) : classUseCode c < 4 := by cases c <;> decide
theorem roundCode_lt (c : Round) : roundCode c < 4 := by cases c <;> decide
theorem cvtSrcCode_lt (c : CvtSrc) : cvtSrcCode c < 13 := by cases c <;> decide
theorem bitOpCode_lt (c : BitOp) : bitOpCode c < 16 := by cases c <;> decide
theorem redKindCode_lt (c : RedKind) : redKindCode c < 16 := by cases c <;> decide
theorem mfmtCode_lt (c : MFmt) : mfmtCode c < 13 := by cases c <;> decide
theorem fillKindCode_lt (c : FillKind) : fillKindCode c < 3 := by cases c <;> decide
theorem scopeCode_lt (c : Scope) : scopeCode c < 7 := by cases c <;> decide
theorem orderCode_lt (c : Order) : orderCode c < 5 := by cases c <;> decide
theorem fenceOrdCode_lt (c : FenceOrd) : fenceOrdCode c < 5 := by cases c <;> decide
theorem xlevelCode_lt (c : XLevel) : xlevelCode c < 4 := by cases c <;> decide
theorem xwidthCode_lt (c : XWidth) : xwidthCode c < 4 := by cases c <;> decide
theorem ldKindCode_lt (c : LdKind) : ldKindCode c < 7 := by cases c <;> decide
theorem stKindCode_lt (c : StKind) : stKindCode c < 7 := by cases c <;> decide
theorem atomOpCode_lt (c : AtomOp) : atomOpCode c < 16 := by cases c <;> decide
theorem casWCode_lt (c : CasW) : casWCode c < 3 := by cases c <;> decide
theorem sregCode_lt (c : SReg) : sregCode c < 17 := by cases c <;> decide
theorem predCode_le (p : PredSel) : predCode p ≤ 12 := by
  cases p with
  | always => decide
  | p n => simp only [predCode]; omega
theorem AtomPlace.code_lt (p : AtomPlace) : p.code < 64 := by
  cases p with
  | dev s o => have := scopeCode_lt s; have := orderCode_lt o; simp only [AtomPlace.code]; omega
  | level l => cases l <;> decide
theorem VsRef.code_lt (r : VsRef) : r.code < 256 := by cases r <;> simp only [VsRef.code] <;> omega
theorem OrdAcc.code_lt (o : OrdAcc) : o.code < 16 := by
  obtain ⟨w, s, c⟩ := o; cases w <;> simp [OrdAcc.code]
theorem OrdAcc.off_lt (o : OrdAcc) (own : Order) : o.off own < 64 := by
  obtain ⟨w, s, c⟩ := o
  have := scopeCode_lt s
  have := orderCode_lt own
  simp only [OrdAcc.off]
  split <;> omega

end Sys2Proof
end

