-- ==== Sys2Proof/Laws/Formats.lean ====
section
/-!
SUPPORT. Each format's decoder on a word with the fields its encoder writes: all checks pass, and the operands come back.
-/

namespace Sys2Proof

/-- A decoded word: all checks pass, and it is this instruction. -/
abbrev passed (i : Instr) : Parsed := ⟨{}, i⟩

theorem fin_ofNat_val {n : Nat} [NeZero n] (k : Fin n) : Fin.ofNat n k.val = k := by simp

theorem decR2_fields {op w : Nat} {ta tb : Ty} {wide n : Bool} (mk : Dst → Src → Src → Instr) {d : Dst} {a b : Src}
    (f : FieldsR w op d.n d.field a.code b.code d.l) (h : wfR2 ta tb wide n d a b = true) (lit : Nat) :
    decR2 ta tb wide n mk w lit = passed (mk d (a.setLit lit) (b.setLit lit)) := by
  simp only [wfR2, Dst.ok, Src.ok, Bool.and_eq_true] at h
  obtain ⟨⟨⟨⟨h1, h2⟩, h3, h4⟩, h5, h6⟩, h7⟩ := h
  have hd := dstOf_fields w d f.fn f.fd f.fl
  have hr := dstRes_fields n w d h2 f.fn f.fd f.fl
  have h7' : oneLit (a.setLit lit) (b.setLit lit) = true := by simpa [oneLit] using h7
  simp [decR2, f.fa, f.fb, opnd_code, hd, hr, h1, h3, h4, h5, h6, h7', passed]

theorem decR1_fields {op w s : Nat} {ta : Ty} {wide z : Bool} (mk : Dst → Src → Instr) {d : Dst} {a : Src}
    (f : FieldsR w op d.n d.field a.code s d.l) (h : wfR1 ta wide d a = true) (hz : z = true → s = 0) (lit : Nat) :
    decR1 ta wide z mk w lit = passed (mk d (a.setLit lit)) := by
  simp only [wfR1, Dst.ok, Src.ok, Bool.and_eq_true] at h
  obtain ⟨⟨h1, h2⟩, h3, h4⟩ := h
  have hd := dstOf_fields w d f.fn f.fd f.fl
  have hr := dstRes_fields true w d h2 f.fn f.fd f.fl
  have hs : (!z || fB w == 0) = true := by cases z <;> simp_all [f.fb]
  simp only [decR1, f.fa, opnd_code, hd, hr, h1, h3, h4, hs, passed, Bool.and_self]

theorem decI1_fields {op w : Nat} {ta : Ty} {wide : Bool} (mk : Dst → Src → BitVec 9 → Instr) {d : Dst} {a : Src} {imm : BitVec 9}
    (f : FieldsI w op d.n d.field a.code imm.toNat) (h : wfI1 ta wide d a = true) (lit : Nat) :
    decI1 ta wide mk w lit = passed (mk d (a.setLit lit) imm) := by
  simp only [wfI1, Dst.ok, Src.ok, Bool.and_eq_true] at h
  obtain ⟨⟨⟨h1, h2⟩, h0⟩, h3, h4⟩ := h
  cases d with
  | opf n => simp [Dst.noOpf] at h0
  | reg n =>
    have := f.fn; have := f.fd
    simp_all [decI1, f.fa, f.fi, opnd_code, Dst.n, Dst.field, passed, reg64]
  | sup =>
    have := f.fn; have := f.fd
    simp_all [decI1, f.fa, f.fi, opnd_code, Dst.n, Dst.field, passed, Dst.pairOk]

theorem fin12_div (c : Nat) (p : Fin 12) : (c * 16 + p.val) / 16 = c := by omega

theorem decRp_fields {op w : Nat} {ta : Ty} (mk : Cond → Fin 12 → Src → Src → Instr) {c : Cond} {p : Fin 12} {a b : Src}
    (f : FieldsR w op 0 (condCode c * 16 + p.val) a.code b.code 0) (h : wfRp ta a b = true) (lit : Nat) :
    decRp ta mk w lit = passed (mk c p (a.setLit lit) (b.setLit lit)) := by
  simp only [wfRp, Src.ok, Bool.and_eq_true] at h
  obtain ⟨⟨⟨h3, h4⟩, h5, h6⟩, h7⟩ := h
  have h7' : oneLit (a.setLit lit) (b.setLit lit) = true := by simpa [oneLit] using h7
  have e : p.val % 16 = p.val := by omega
  simp [decRp, f.fa, f.fb, f.fn, f.fd, f.fl, noND, opnd_code, e, fin12_div, h3, h4, h5, h6, h7', passed]

theorem decFclass_fields {op w : Nat} {ta : Ty} (mk : ClassUse → Fin 12 → Src → BitVec 7 → Instr) {u : ClassUse} {p : Fin 12} {a : Src}
    {m : BitVec 7} (f : FieldsR w op 0 (classUseCode u * 16 + p.val) a.code m.toNat 0) (h : a.ok ta = true) (lit : Nat) :
    decFclass ta mk w lit = passed (mk u p (a.setLit lit) m) := by
  simp only [Src.ok, Bool.and_eq_true] at h
  have hm : m.toNat < 128 := m.isLt
  have e : p.val % 16 = p.val := by omega
  simp [decFclass, f.fa, f.fb, f.fn, f.fd, f.fl, noND, opnd_code, e, fin12_div, h, passed, hm]

/-- The selector of a conversion (R185). -/
abbrev cvtSel (s : CvtSrc) (rm : Round) (sat x : Bool) : Nat := cvtSrcCode s * 16 + roundCode rm * 4 + sat.toNat * 2 + x.toNat

theorem cvtSel_lt (s : CvtSrc) (rm : Round) (sat x : Bool) : cvtSel s rm sat x < 256 := by
  have := cvtSrcCode_lt s; have := roundCode_lt rm; have := sat.toNat_lt; have := x.toNat_lt; simp only [cvtSel]; omega

theorem decCvt_fields {op w : Nat} {k : CvtDst} (mk : Dst → Src → CvtSrc → Round → Bool → Bool → Instr) {d : Dst} {a : Src} {s : CvtSrc}
    {rm : Round} {sat x : Bool} (f : FieldsR w op d.n d.field a.code (cvtSel s rm sat x) d.l) (h : wfCvt k x d a s rm sat = true)
    (hx : (k == .h16 || k == .f8 || !x) = true) (lit : Nat) :
    decCvt k mk w lit = passed (mk d (a.setLit lit) s rm sat x) := by
  simp only [wfCvt, Dst.ok, Src.ok, Bool.and_eq_true] at h
  obtain ⟨⟨h0, h1, h2⟩, h3, h4⟩ := h
  have hd := dstOf_fields w d f.fn f.fd f.fl
  have hr := dstRes_fields true w d h2 f.fn f.fd f.fl
  have hs := sat.toNat_lt
  have hxl := x.toNat_lt
  have hrm := roundCode_lt rm
  have e1 : cvtSel s rm sat x / 16 = cvtSrcCode s := by simp only [cvtSel]; omega
  have e2 : cvtSel s rm sat x / 4 % 4 = roundCode rm := by simp only [cvtSel]; omega
  have e3 : cvtSel s rm sat x / 2 % 2 = sat.toNat := by simp only [cvtSel]; omega
  have e4 : cvtSel s rm sat x % 2 = x.toNat := by simp only [cvtSel]; omega
  have e5 : (sat.toNat == 1) = sat := by cases sat <;> rfl
  have e6 : (x.toNat == 1) = x := by cases x <;> rfl
  simp only [decCvt, f.fb, e1, e2, e3, e4, e5, e6, cvtSrcOf_code, roundOf_code, f.fa, opnd_code, hd, hr, h0, h1, h3, h4, hx, passed,
    Bool.and_self]

theorem decCensus_fields {op w s : Nat} (mk : Dst → PredSel → Instr) {d : Dst} {p : PredSel}
    (f : FieldsR w op d.n d.field (predCode p) s d.l) (h : d.ok false true = true) : decCensus mk w = passed (mk d p) := by
  simp only [Dst.ok, Bool.and_eq_true] at h
  have hd := dstOf_fields w d f.fn f.fd f.fl
  have hr := dstRes_fields true w d h.2 f.fn f.fd f.fl
  have hp := predCode_le p
  have e1 : predCode p % 16 = predCode p := by omega
  have e2 : predCode p / 16 = 0 := by omega
  simp [decCensus, f.fa, e1, e2, hd, hr, hp, passed]

/-- The two fields of a matrix pass's fragments. -/
theorem decMma_fields {op w : Nat} {sp : Bool} (mk : Fin 16 → MFmt → Fin 64 → Fin 64 → Bool → Bool → Instr) {t : Fin 16} {fm : MFmt}
    {a b : Fin 64} {la lb : Bool}
    (f : FieldsR w op 0 (lb.toNat * 32 + la.toNat * 16 + t.val) (mfmtCode fm / 4 * 64 + a.val) (mfmtCode fm % 4 * 64 + b.val) 0)
    (h : wfMma sp fm a b = true) : decMma sp mk w = passed (mk t fm a b la lb) := by
  simp only [wfMma, Bool.and_eq_true, decide_eq_true_eq] at h
  obtain ⟨⟨⟨h1, h2⟩, h3⟩, h4⟩ := h
  have hla := la.toNat_lt
  have hlb := lb.toNat_lt
  have e0 : (mfmtCode fm / 4 * 64 + a.val) / 64 * 4 + (mfmtCode fm % 4 * 64 + b.val) / 64 = mfmtCode fm := by omega
  have e1 : (mfmtCode fm / 4 * 64 + a.val) % 64 = a.val := by omega
  have e2 : (mfmtCode fm % 4 * 64 + b.val) % 64 = b.val := by omega
  have e3 : (lb.toNat * 32 + la.toNat * 16 + t.val) / 16 % 2 = la.toNat := by omega
  have e4 : (lb.toNat * 32 + la.toNat * 16 + t.val) / 32 = lb.toNat := by omega
  have e5 : (la.toNat == 1) = la := by cases la <;> rfl
  have e6 : (lb.toNat == 1) = lb := by cases lb <;> rfl
  have e7 : Fin.ofNat 16 (lb.toNat * 32 + la.toNat * 16 + t.val) = t := by apply Fin.ext; simp only [Fin.val_ofNat]; omega
  have e8 : ∀ k : Fin 64, reg64 k.val = k := fun k => by simp [reg64]
  simp only [decMma, f.fa, f.fb, f.fd, f.fn, f.fl, e0, e1, e2, e3, e4, e5, e6, e7, e8, mfmtOf_code, noND, h1, h2, h3, h4, passed,
    decide_true, Bool.and_self, beq_self_eq_true]

theorem decZ_fields {op w s : Nat} {zb : Bool} (i : Instr) (f : FieldsR w op 0 0 0 s 0) (hz : zb = true → s = 0) :
    decZ zb i w = passed i := by
  have hs : (!zb || fB w == 0) = true := by cases zb <;> simp_all [f.fb]
  simp only [decZ, noND, f.fn, f.fl, f.fd, f.fa, hs, passed, beq_self_eq_true, Bool.and_self]

theorem decA_fields {op w s : Nat} {ta : Ty} {zb : Bool} (mk : Src → Instr) {a : Src} (f : FieldsR w op 0 0 a.code s 0)
    (h : a.ok ta = true) (hz : zb = true → s = 0) (lit : Nat) : decA ta zb mk w lit = passed (mk (a.setLit lit)) := by
  simp only [Src.ok, Bool.and_eq_true] at h
  have hs : (!zb || fB w == 0) = true := by cases zb <;> simp_all [f.fb]
  simp only [decA, noND, f.fn, f.fl, f.fd, f.fa, opnd_code, h.1, h.2, hs, passed, beq_self_eq_true, Bool.and_self]

theorem decAB_fields {op w : Nat} {ta tb : Ty} (mk : Src → Src → Instr) {a b : Src} (f : FieldsR w op 0 0 a.code b.code 0)
    (h : wfAB ta tb a b = true) (lit : Nat) : decAB ta tb mk w lit = passed (mk (a.setLit lit) (b.setLit lit)) := by
  simp only [wfAB, Src.ok, Bool.and_eq_true] at h
  obtain ⟨⟨⟨h3, h4⟩, h5, h6⟩, h7⟩ := h
  have h7' : oneLit (a.setLit lit) (b.setLit lit) = true := by simpa [oneLit] using h7
  simp [decAB, f.fa, f.fb, f.fn, f.fd, f.fl, noND, opnd_code, h3, h4, h5, h6, h7', passed]

theorem decDA_fields {op w : Nat} {ta : Ty} {al : Nat} (mk : Fin 64 → Src → Instr) {d : Fin 64} {a : Src}
    (f : FieldsR w op 0 d.val a.code 0 0) (h : wfDA ta al d a = true) (lit : Nat) :
    decDA ta al mk w lit = passed (mk d (a.setLit lit)) := by
  simp only [wfDA, Src.ok, Bool.and_eq_true] at h
  obtain ⟨h1, h2, h3⟩ := h
  simp [decDA, f.fa, f.fb, f.fn, f.fd, f.fl, noND, opnd_code, h1, h2, h3, passed, reg64]

theorem decDAB_fields {op w : Nat} {ta tb : Ty} (mk : Fin 64 → Src → Src → Instr) {d : Fin 64} {a b : Src}
    (f : FieldsR w op 0 d.val a.code b.code 0) (h : wfAB ta tb a b = true) (lit : Nat) :
    decDAB ta tb mk w lit = passed (mk d (a.setLit lit) (b.setLit lit)) := by
  simp only [wfAB, Src.ok, Bool.and_eq_true] at h
  obtain ⟨⟨⟨h3, h4⟩, h5, h6⟩, h7⟩ := h
  have h7' : oneLit (a.setLit lit) (b.setLit lit) = true := by simpa [oneLit] using h7
  simp [decDAB, f.fa, f.fb, f.fn, f.fd, f.fl, noND, opnd_code, h3, h4, h5, h6, h7', passed, reg64]

theorem decD_fields {op w al : Nat} (mk : Fin 64 → Instr) {d : Fin 64} (f : FieldsR w op 0 d.val 0 0 0) (h : (d.val % al == 0) = true) :
    decD al mk w = passed (mk d) := by
  simp [decD, noND, f.fn, f.fl, f.fd, f.fa, f.fb, h, passed, reg64]

theorem decTzero_fields {op w : Nat} (mk : Fin 16 → Instr) {t : Fin 16} (f : FieldsR w op 0 t.val 0 0 0) : decTzero mk w = passed (mk t) := by
  have : t.val / 16 = 0 := by omega
  simp [decTzero, noND, f.fn, f.fl, f.fd, f.fa, f.fb, passed, this]

theorem decTfill_fields {op w : Nat} (mk : FillKind → Fin 16 → Fin 64 → Bool → Src → Instr) {k : FillKind} {t : Fin 16} {base : Fin 64}
    {last : Bool} {col : Src} (f : FieldsR w op 0 (fillKindCode k * 16 + t.val) (last.toNat * 64 + base.val) col.code 0)
    (h : wfTile16 (k == .f64) base col = true) (lit : Nat) : decTfill mk w lit = passed (mk k t base last (col.setLit lit)) := by
  simp only [wfTile16, Src.ok, Bool.and_eq_true, decide_eq_true_eq] at h
  obtain ⟨⟨h1, h2⟩, h3, h4⟩ := h
  have hl := last.toNat_lt
  have e1 : (fillKindCode k * 16 + t.val) / 16 = fillKindCode k := by omega
  have e2 : (last.toNat * 64 + base.val) % 64 = base.val := by omega
  have e3 : (last.toNat * 64 + base.val) / 64 = last.toNat := by omega
  have e4 : Fin.ofNat 16 (fillKindCode k * 16 + t.val) = t := by apply Fin.ext; simp only [Fin.val_ofNat]; omega
  have e5 : (last.toNat == 1) = last := by cases last <;> rfl
  have e6 : reg64 base.val = base := by simp [reg64]
  simp only [decTfill, f.fa, f.fb, f.fd, f.fn, f.fl, e1, e2, e3, e4, e5, e6, fillKindOf_code, opnd_code, noND, h1, h2, h3, h4, hl, passed,
    decide_true, Bool.and_self, beq_self_eq_true]

theorem decTdrain_fields {op w q : Nat} {even : Bool} (mk : Fin 16 → Fin 64 → Src → Instr) {t : Fin 16} {base : Fin 64} {col : Src}
    (f : FieldsR w op 0 base.val col.code (q * 16 + t.val) 0) (h : wfTile16 even base col = true) (lit : Nat) :
    decTdrain even mk w lit = passed (mk t base (col.setLit lit)) := by
  simp only [wfTile16, Src.ok, Bool.and_eq_true, decide_eq_true_eq] at h
  obtain ⟨⟨h1, h2⟩, h3, h4⟩ := h
  have e4 : Fin.ofNat 16 (q * 16 + t.val) = t := by apply Fin.ext; simp only [Fin.val_ofNat]; omega
  have e6 : reg64 base.val = base := by simp [reg64]
  simp only [decTdrain, f.fa, f.fb, f.fd, f.fn, f.fl, e4, e6, opnd_code, noND, h1, h2, h3, h4, passed, decide_true, Bool.and_self,
    beq_self_eq_true]

theorem decTqdrain_fields {op w q : Nat} {qk : QKind} (mk : Fin 16 → Fin 64 → Fin 64 → Instr) {t : Fin 16} {base scale : Fin 64}
    (f : FieldsR w op 0 base.val scale.val (q * 16 + t.val) 0) (h : wfQdrain qk base scale = true) :
    decTqdrain qk mk w = passed (mk t base scale) := by
  simp only [wfQdrain, Bool.and_eq_true, decide_eq_true_eq] at h
  have e4 : Fin.ofNat 16 (q * 16 + t.val) = t := by apply Fin.ext; simp only [Fin.val_ofNat]; omega
  have e6 : ∀ k : Fin 64, reg64 k.val = k := fun k => by simp [reg64]
  have e7 : scale.val / 64 = 0 := by omega
  have e8 : scale.val % 64 = scale.val := by omega
  simp only [decTqdrain, f.fa, f.fb, f.fd, f.fn, f.fl, e4, e6, e7, e8, noND, h.1, h.2, passed, decide_true, Bool.and_self, beq_self_eq_true]

/-! ## M format -/

theorem decM_fields {op w s o : Nat} {ta : Ty} {s2 s4 s5 : Bool} (mk : Fin 64 → Src → Instr) {d : Fin 64} {a : Src}
    (f : FieldsM w op s d.val a.code o) (h : a.ok ta = true) (h2 : s2 = true) (h4 : s4 = true) (h5 : s5 = true) (lit : Nat) :
    decM ta s2 s4 s5 mk w lit = passed (mk d (a.setLit lit)) := by
  simp only [Src.ok, Bool.and_eq_true] at h
  have e6 : reg64 d.val = d := by simp [reg64]
  simp only [decM, f.fa, f.fd, e6, opnd_code, h.1, h.2, h2, h4, h5, passed, Bool.and_self]

theorem bv6_ofNat (o : BitVec 6) : BitVec.ofNat 6 o.toNat = o := by simp

theorem decLd_plain {op w : Nat} {pl : LdKind → Fin 64 → Src → BitVec 6 → Instr} {od : OrdAcc → Fin 64 → Src → Instr} {k : LdKind} {d : Fin 64} {a : Src}
    {off : BitVec 6} (f : FieldsM w op (ldKindCode k) d.val a.code off.toNat) (h : wfMem k.size d a = true) (lit : Nat) :
    decLd pl od w lit = passed (pl k d (a.setLit lit) off) := by
  simp only [wfMem, Bool.and_eq_true] at h
  have hk := ldKindCode_lt k
  have hn : ¬ (fmF w = 12 ∨ fmF w = 13) := by rw [f.ff]; omega
  simp only [decLd, hn, if_false]
  rw [f.ff, ldKindOf_code]
  simp only [f.fo, bv6_ofNat]
  exact decM_fields _ f h.2 rfl rfl (by rw [f.fd]; exact h.1) lit

theorem decSt_plain {op w : Nat} {pl : StKind → Fin 64 → Src → BitVec 6 → Instr} {od : OrdAcc → Fin 64 → Src → Instr} {k : StKind} {d : Fin 64} {a : Src}
    {off : BitVec 6} (f : FieldsM w op (stKindCode k) d.val a.code off.toNat) (h : wfMem k.size d a = true) (lit : Nat) :
    decSt pl od w lit = passed (pl k d (a.setLit lit) off) := by
  simp only [wfMem, Bool.and_eq_true] at h
  have hk := stKindCode_lt k
  have hn : ¬ (fmF w = 12 ∨ fmF w = 13) := by rw [f.ff]; omega
  simp only [decSt, hn, if_false]
  rw [f.ff, stKindOf_code]
  simp only [f.fo, bv6_ofNat]
  exact decM_fields _ f h.2 rfl rfl (by rw [f.fd]; exact h.1) lit

theorem ordAccOf_fields {op w d a : Nat} (own : Order) (ho : own ≠ .sc) (o : OrdAcc) (f : FieldsM w op o.code d a (o.off own)) :
    ordAccOf own w = some o := by
  obtain ⟨w64, s, c⟩ := o
  have ff := f.ff
  have fo := f.fo
  have hs := scopeCode_lt s
  have hc := orderCode_lt own
  simp only [OrdAcc.code, OrdAcc.off] at ff fo
  have e1 : fmO w / 8 = scopeCode s := by rw [fo]; split <;> omega
  have e2 : fmO w % 8 = orderCode (if c then .sc else own) := by
    rw [fo]; cases c
    · simp only [Bool.false_eq_true, if_false]; omega
    · simp only [if_true, orderCode]; omega
  have e3 : (fmF w == 13) = w64 := by rw [ff]; cases w64 <;> rfl
  unfold ordAccOf
  rw [e1, e2, e3]
  cases c
  · have : (own == Order.sc) = false := by simpa using ho
    simp [this]
  · simp

theorem decLd_ordered {op w : Nat} {pl : LdKind → Fin 64 → Src → BitVec 6 → Instr} {od : OrdAcc → Fin 64 → Src → Instr} {o : OrdAcc} {d : Fin 64} {a : Src}
    (f : FieldsM w op o.code d.val a.code (o.off .acq)) (h : wfMem o.size d a = true) (lit : Nat) :
    decLd pl od w lit = passed (od o d (a.setLit lit)) := by
  simp only [wfMem, Bool.and_eq_true] at h
  have hn : fmF w = 12 ∨ fmF w = 13 := by rw [f.ff]; obtain ⟨w64, s, c⟩ := o; cases w64 <;> simp [OrdAcc.code]
  have ho := ordAccOf_fields .acq (by decide) o f
  unfold decLd
  rw [if_pos hn, ho]
  exact decM_fields _ f h.2 rfl rfl (by rw [f.fd]; exact h.1) lit

theorem decSt_ordered {op w : Nat} {pl : StKind → Fin 64 → Src → BitVec 6 → Instr} {od : OrdAcc → Fin 64 → Src → Instr} {o : OrdAcc} {d : Fin 64} {a : Src}
    (f : FieldsM w op o.code d.val a.code (o.off .rel)) (h : wfMem o.size d a = true) (lit : Nat) :
    decSt pl od w lit = passed (od o d (a.setLit lit)) := by
  simp only [wfMem, Bool.and_eq_true] at h
  have hn : fmF w = 12 ∨ fmF w = 13 := by rw [f.ff]; obtain ⟨w64, s, c⟩ := o; cases w64 <;> simp [OrdAcc.code]
  have ho := ordAccOf_fields .rel (by decide) o f
  unfold decSt
  rw [if_pos hn, ho]
  exact decM_fields _ f h.2 rfl rfl (by rw [f.fd]; exact h.1) lit

theorem decX_fields {op w : Nat} (mk : XLevel → XWidth → Fin 64 → Src → BitVec 6 → Instr) {l : XLevel} {x : XWidth} {d : Fin 64} {a : Src}
    {off : BitVec 6} (f : FieldsM w op (xlevelCode l * 4 + xwidthCode x) d.val a.code off.toNat) (h : wfX x d a = true) (lit : Nat) :
    decX mk w lit = passed (mk l x d (a.setLit lit) off) := by
  simp only [wfX, Bool.and_eq_true] at h
  have hx := xwidthCode_lt x
  have e1 : (xlevelCode l * 4 + xwidthCode x) % 4 = xwidthCode x := by omega
  have e2 : (xlevelCode l * 4 + xwidthCode x) / 4 = xlevelCode l := by omega
  unfold decX
  simp only [f.ff, e1, e2, xwidthOf_code, xlevelOf_code, f.fo, bv6_ofNat]
  exact decM_fields _ f h.2 rfl rfl (by rw [f.fd]; exact h.1) lit

theorem placeOf_code {w : Nat} (pl : AtomPlace) (h : fmO w = pl.code) : placeOf w = some pl ∧ placeRes w = true := by
  cases pl with
  | level l => cases l <;> simp [placeOf, placeRes, h, AtomPlace.code]
  | dev s o =>
    have hs := scopeCode_lt s
    have hc := orderCode_lt o
    have e1 : fmO w / 8 = scopeCode s := by rw [h]; simp only [AtomPlace.code]; omega
    have e2 : fmO w % 8 = orderCode o := by rw [h]; simp only [AtomPlace.code]; omega
    constructor
    · unfold placeOf
      rw [e1, e2]
      cases o <;> simp [orderCode, orderOf]
    · simp [placeRes, e2, hc]

theorem decAtom_fields {op w : Nat} {uni : Bool} (mk : AtomOp → AtomPlace → Fin 64 → Src → Instr) {o : AtomOp} {pl : AtomPlace} {d : Fin 64} {a : Src}
    (f : FieldsM w op (atomOpCode o) d.val a.code pl.code) (h : wfAtom o pl d a = true) (hu : (!uni || !o.isCas) = true) (lit : Nat) :
    decAtom uni mk w lit = passed (mk o pl d (a.setLit lit)) := by
  simp only [wfAtom, Bool.and_eq_true, decide_eq_true_eq] at h
  obtain ⟨⟨h1, h2⟩, h3⟩ := h
  obtain ⟨p1, p2⟩ := placeOf_code pl f.fo
  unfold decAtom
  simp only [p1, p2, f.ff, atomOpOf_code]
  exact decM_fields _ f h3 (by rw [f.fd]; simp [hu, h1]) rfl (by rw [f.fd]; exact h2) lit

theorem decScas_fields {op w : Nat} (mk : CasW → AtomPlace → Fin 64 → Src → Instr) {c : CasW} {pl : AtomPlace} {d : Fin 64} {a : Src}
    (f : FieldsM w op (casWCode c) d.val a.code pl.code) (h : wfScas c pl d a = true) (lit : Nat) :
    decScas mk w lit = passed (mk c pl d (a.setLit lit)) := by
  simp only [wfScas, Bool.and_eq_true, decide_eq_true_eq] at h
  obtain ⟨⟨⟨h1, h2⟩, h3⟩, h4⟩ := h
  obtain ⟨p1, p2⟩ := placeOf_code pl f.fo
  unfold decScas
  simp only [p1, p2, f.ff, casWOf_code]
  exact decM_fields _ f h4 (by rw [f.fd]; simp [h1, h3]) rfl (by rw [f.fd]; exact h2) lit

theorem decSts_fields {op w : Nat} (mk : StKind → Fin 64 → Src → Fin 64 → Instr) {k : StKind} {d : Fin 64} {a : Src} {s : Fin 64}
    (f : FieldsM w op (stKindCode k) d.val a.code s.val) (h : wfSts k d a s = true) (lit : Nat) :
    decSts mk w lit = passed (mk k d (a.setLit lit) s) := by
  simp only [wfSts, wfMem, Bool.and_eq_true] at h
  have e6 : reg64 s.val = s := by simp [reg64]
  unfold decSts
  simp only [f.ff, stKindOf_code, f.fo, e6]
  exact decM_fields _ f h.1.2 rfl rfl (by rw [f.fd]; simp [h.1.1, h.2]) lit

theorem decLda_fields {op w : Nat} (mk : Bool → Fin 64 → Src → Fin 64 → Instr) {w64 : Bool} {d : Fin 64} {a : Src} {t : Fin 64}
    (f : FieldsM w op (4 + w64.toNat) d.val a.code t.val) (h : wfLda w64 d a t = true) (lit : Nat) :
    decLda mk w lit = passed (mk w64 d (a.setLit lit) t) := by
  simp only [wfLda, Bool.and_eq_true, decide_eq_true_eq] at h
  obtain ⟨⟨⟨h1, h2⟩, h3⟩, h4⟩ := h
  have e6 : reg64 t.val = t := by simp [reg64]
  have e5 : (4 + w64.toNat == 5) = w64 := by cases w64 <;> rfl
  have e4 : (4 + w64.toNat == 4 || w64) = true := by cases w64 <;> rfl
  unfold decLda
  simp only [f.ff, e5, e4, f.fo, e6]
  exact decM_fields _ f h4 (by rw [f.fd]; simp [h1]) rfl (by rw [f.fd]; simp [h2, h3]) lit

theorem decFetch_fetch {op w : Nat} {fe ga : MFmt → Fin 64 → Src → Fin 32 → Instr} {fm : MFmt} {d : Fin 64} {a : Src} {c : Fin 32}
    (f : FieldsM w op (mfmtCode fm) d.val a.code (c.val * 2 + 0)) (h : wfFetch fm d a = true) (lit : Nat) :
    decFetch fe ga w lit = passed (fe fm d (a.setLit lit) c) := by
  simp only [wfFetch, Bool.and_eq_true, decide_eq_true_eq] at h
  have e1 : ¬ ((c.val * 2 + 0) % 2 = 1) := by omega
  have e2 : Fin.ofNat 32 ((c.val * 2 + 0) / 2) = c := by apply Fin.ext; simp only [Fin.val_ofNat]; omega
  unfold decFetch
  simp only [f.ff, mfmtOf_code, f.fo, e1, e2, if_false]
  exact decM_fields _ f h.2 (by rw [f.fd]; simp [h.1.1]) rfl (by rw [f.fd]; exact h.1.2) lit

theorem decFetch_gather {op w : Nat} {fe ga : MFmt → Fin 64 → Src → Fin 32 → Instr} {fm : MFmt} {d : Fin 64} {a : Src} {c : Fin 32}
    (f : FieldsM w op (mfmtCode fm) d.val a.code (c.val * 2 + 1)) (h : wfFetch fm d a = true) (lit : Nat) :
    decFetch fe ga w lit = passed (ga fm d (a.setLit lit) c) := by
  simp only [wfFetch, Bool.and_eq_true, decide_eq_true_eq] at h
  have e1 : (c.val * 2 + 1) % 2 = 1 := by omega
  have e2 : Fin.ofNat 32 ((c.val * 2 + 1) / 2) = c := by apply Fin.ext; simp only [Fin.val_ofNat]; omega
  unfold decFetch
  simp only [f.ff, mfmtOf_code, f.fo, e1, e2, if_true]
  exact decM_fields _ f h.2 (by rw [f.fd]; simp [h.1.1]) rfl (by rw [f.fd]; exact h.1.2) lit

theorem decMon_fields {op w : Nat} (mk : Src → Instr) {a : Src} (f : FieldsM w op 0 0 a.code 0) (h : a.ok .addr = true) (lit : Nat) :
    decMon mk w lit = passed (mk (a.setLit lit)) := by
  unfold decMon
  exact decM_fields (d := 0) _ f h rfl (by rw [f.ff, f.fd, f.fo]; rfl) rfl lit

/-! ## B format and the rest -/

theorem toNat_beq_one (b : Bool) : (b.toNat == 1) = b := by cases b <;> rfl

theorem decB_fields {op w : Nat} (mk : PredSel → Bool → BitVec 19 → Instr) {p : PredSel} {neg : Bool} {off : BitVec 19}
    (f : FieldsB w op (predCode p) neg.toNat off.toNat) : decB mk w = passed (mk p neg off) := by
  simp [decB, f.fp, f.fg, f.fo, predCode_le, passed]

theorem decGuard_fields {op w : Nat} (mk : PredSel → Bool → Instr) {p : PredSel} {neg : Bool} (f : FieldsB w op (predCode p) neg.toNat 0) :
    decGuard mk w = passed (mk p neg) := by
  simp [decGuard, f.fp, f.fg, f.fo, predCode_le, passed]

theorem decFence_fields {op w : Nat} (mk : Scope → FenceOrd → Instr) {sc : Scope} {o : FenceOrd}
    (f : FieldsR w op 0 0 0 (scopeCode sc * 16 + fenceOrdCode o) 0) : decFence mk w = passed (mk sc o) := by
  have hs := scopeCode_lt sc
  have ho := fenceOrdCode_lt o
  have e1 : (scopeCode sc * 16 + fenceOrdCode o) / 16 % 8 = scopeCode sc := by omega
  have e2 : (scopeCode sc * 16 + fenceOrdCode o) % 8 = fenceOrdCode o := by omega
  have e3 : scopeCode sc * 16 + fenceOrdCode o < 128 := by omega
  have e4 : (scopeCode sc * 16 + fenceOrdCode o) / 8 % 2 = 0 := by omega
  simp [decFence, f.fb, f.fn, f.fd, f.fa, f.fl, e1, e2, e3, e4, noND, passed]

theorem decBcopy_fields {op w al : Nat} (mk : Fin 64 → Fin 64 → Bool → Src → Instr) {d a : Fin 64} {last : Bool} {b : Src}
    (f : FieldsR w op 0 d.val (last.toNat * 64 + a.val) b.code 0) (h4 : a.val + 4 ≤ 64) (h : b.ok .b32 = true) (hal : (d.val % al == 0) = true)
    (lit : Nat) : decBcopy al mk w lit = passed (mk d a last (b.setLit lit)) := by
  simp only [Src.ok, Bool.and_eq_true] at h
  have hl := last.toNat_lt
  have e1 : (last.toNat * 64 + a.val) % 64 = a.val := by omega
  have e2 : (last.toNat * 64 + a.val) / 64 = last.toNat := by omega
  have e3 : last.toNat * 64 + a.val < 128 := by omega
  have e6 : ∀ k : Fin 64, reg64 k.val = k := fun k => by simp [reg64]
  simp only [decBcopy, f.fa, f.fb, f.fd, f.fn, f.fl, e1, e2, e3, e6, opnd_code, noND, h.1, h.2, h4, hal, passed, decide_true, Bool.and_self,
    beq_self_eq_true, toNat_beq_one]

theorem decTlRead_fields {op w : Nat} (mk : Fin 64 → Src → Instr) {d : Fin 64} {a : Src} (f : FieldsR w op 0 d.val a.code 0 0)
    (h3 : d.val + 3 ≤ 64) (h2 : (d.val % 2 == 0) = true) (h : a.ok .b32 = true) (lit : Nat) :
    decTlRead mk w lit = passed (mk d (a.setLit lit)) := by
  simp only [Src.ok, Bool.and_eq_true] at h
  have e6 : reg64 d.val = d := by simp [reg64]
  simp only [decTlRead, f.fa, f.fb, f.fd, f.fn, f.fl, e6, opnd_code, noND, h.1, h.2, h3, h2, passed, decide_true, Bool.and_self,
    beq_self_eq_true]

theorem decHold_fields {op w : Nat} (mk : Fin 64 → Bool → Instr) {d : Fin 64} {dm : Bool} (f : FieldsR w op 0 d.val dm.toNat 0 0)
    (h : (d.val % 2 == 0) = true) : decHold mk w = passed (mk d dm) := by
  have e1 : dm.toNat ≤ 1 := by have := dm.toNat_lt; omega
  simp [decHold, f.fa, f.fb, f.fd, f.fn, f.fl, e1, noND, h, passed, reg64]

theorem decRelease_fields {op w : Nat} (mk : Src → Bool → Instr) {a : Src} {dm : Bool} (f : FieldsR w op 0 0 a.code dm.toNat 0)
    (h : a.ok .b64 = true) (lit : Nat) : decRelease mk w lit = passed (mk (a.setLit lit) dm) := by
  simp only [Src.ok, Bool.and_eq_true] at h
  have e1 : dm.toNat ≤ 1 := by have := dm.toNat_lt; omega
  simp only [decRelease, f.fa, f.fb, f.fd, f.fn, f.fl, e1, opnd_code, noND, h.1, h.2, passed, toNat_beq_one, decide_true, Bool.and_self,
    beq_self_eq_true]

theorem decSpawn_fields {op w : Nat} (mk : Fin 12 → Src → Fin 64 → Bool → Instr) {p : Fin 12} {a : Src} {b : Fin 64} {last : Bool}
    (f : FieldsR w op 0 p.val a.code (last.toNat * 64 + b.val) 0) (h8 : b.val + 8 ≤ 64) (h : a.ok .b64 = true) (lit : Nat) :
    decSpawn mk w lit = passed (mk p (a.setLit lit) b last) := by
  simp only [Src.ok, Bool.and_eq_true] at h
  have hl := last.toNat_lt
  have e1 : (last.toNat * 64 + b.val) % 64 = b.val := by omega
  have e2 : (last.toNat * 64 + b.val) / 64 = last.toNat := by omega
  have e3 : last.toNat * 64 + b.val < 128 := by omega
  have e4 : p.val % 16 = p.val := by omega
  have e5 : p.val / 16 = 0 := by omega
  have e6 : ∀ k : Fin 64, reg64 k.val = k := fun k => by simp [reg64]
  have e7 : Fin.ofNat 12 p.val = p := by simp
  have e8 : p.val < 12 := p.isLt
  simp only [decSpawn, f.fa, f.fb, f.fd, f.fn, f.fl, e1, e2, e3, e4, e5, e6, e7, e8, opnd_code, noND, h.1, h.2, h8, passed, decide_true,
    Bool.and_self, beq_self_eq_true, toNat_beq_one]

theorem decRepack_fields {op w : Nat} (mk : Fin 64 → Instr) {k : Fin 64} (f : FieldsR w op 0 0 k.val 0 0) : decRepack mk w = passed (mk k) := by
  simp [decRepack, noND, f.fn, f.fl, f.fd, f.fa, f.fb, passed, reg64]

theorem decVshape_fields {op w : Nat} (mk : Dst → VsRef → Instr) {d : Dst} {r : VsRef} (f : FieldsR w op d.n d.field r.code 0 d.l)
    (h : d.ok false true = true) : decVshape mk w = passed (mk d r) := by
  simp only [Dst.ok, Bool.and_eq_true] at h
  have hd := dstOf_fields w d f.fn f.fd f.fl
  have hr := dstRes_fields true w d h.2 f.fn f.fd f.fl
  cases r with
  | reg n => simp [decVshape, f.fa, f.fb, VsRef.code, hd, hr, passed, reg64]
  | opf n =>
    have h1 : ¬ (128 + n.val < 64) := by omega
    have h2 : ¬ (128 + n.val < 128) := by omega
    have h3 : 128 + n.val < 144 := by omega
    have h4 : Fin.ofNat 16 (128 + n.val) = n := by apply Fin.ext; simp only [Fin.val_ofNat]; omega
    simp only [decVshape, f.fa, f.fb, VsRef.code, h1, h2, h3, h4, if_false, if_true, hd, hr, passed, beq_self_eq_true, Bool.and_self]
  | latch n =>
    have h1 : ¬ (144 + n.val < 64) := by omega
    have h2 : ¬ (144 + n.val < 128) := by omega
    have h3 : ¬ (144 + n.val < 144) := by omega
    have h4 : 144 + n.val < 148 := by omega
    have h5 : Fin.ofNat 4 (144 + n.val) = n := by apply Fin.ext; simp only [Fin.val_ofNat]; omega
    simp only [decVshape, f.fa, f.fb, VsRef.code, h1, h2, h3, h4, h5, if_false, if_true, hd, hr, passed, beq_self_eq_true, Bool.and_self]

theorem decSget_fields {op w : Nat} (mk : Fin 64 → SReg → Instr) {d : Fin 64} {r : SReg} (f : FieldsR w op 0 d.val (sregCode r) 0 0)
    (h : (!r.w64 || d.val % 2 == 0) = true) : decSget mk w = passed (mk d r) := by
  have e6 : reg64 d.val = d := by simp [reg64]
  simp only [decSget, f.fa, f.fb, f.fd, f.fn, f.fl, sregOf_code, noND, h, passed, e6, beq_self_eq_true, Bool.and_self]

theorem decSset_fields {op w : Nat} (mk : SReg → Src → Instr) {r : SReg} {b : Src} (f : FieldsR w op 0 0 (sregCode r) b.code 0)
    (h : b.ok (if r.w64 then .b64 else .b32) = true) (lit : Nat) : decSset mk w lit = passed (mk r (b.setLit lit)) := by
  simp only [Src.ok, Bool.and_eq_true] at h
  simp only [decSset, f.fa, f.fb, f.fd, f.fn, f.fl, sregOf_code, noND, opnd_code, h.1, h.2, passed, beq_self_eq_true, Bool.and_self]

theorem decImm_fields {op w : Nat} (mk : BitVec 8 → Instr) {k : BitVec 8} (f : FieldsI w op 0 0 0 k.toNat) : decImm mk w = passed (mk k) := by
  have : k.toNat < 256 := k.isLt
  simp [decImm, f.fn, f.fd, f.fa, f.fi, this, passed]

theorem decPlop_fields {op w : Nat} (mk : Fin 12 → PredSel → PredSel → PredSel → BitVec 8 → Instr) {d : Fin 12} {a b c : PredSel}
    {tt : BitVec 8}
    (e : w = op * 2 ^ 24 + d.val * 2 ^ 20 + predCode a * 2 ^ 16 + predCode b * 2 ^ 12 + predCode c * 2 ^ 8 + tt.toNat) :
    decPlop mk w = passed (mk d a b c tt) := by
  have ht : tt.toNat < 256 := tt.isLt
  have ha := predCode_le a
  have hb := predCode_le b
  have hc := predCode_le c
  have hd : d.val < 12 := d.isLt
  have e1 : fbP w = d.val := by subst e; simp only [fbP, fld]; omega
  have e2 : fld w 16 4 = predCode a := by subst e; simp only [fld]; omega
  have e3 : fld w 12 4 = predCode b := by subst e; simp only [fld]; omega
  have e4 : fld w 8 4 = predCode c := by subst e; simp only [fld]; omega
  have e5 : BitVec.ofNat 8 (w % 256) = tt := by apply BitVec.eq_of_toNat_eq; simp only [BitVec.toNat_ofNat]; subst e; omega
  simp [decPlop, e1, e2, e3, e4, e5, ha, hb, hc, passed]

/-! ## Selectors that are an operand -/

theorem selRed_fields {op w : Nat} {d : Dst} {a : Src} {k : RedKind} (f : FieldsR w op d.n d.field a.code (redKindCode k) d.l)
    (h : wfR1 k.ty k.wide d a = true) (lit : Nat) : selRed w lit = passed (.red d (a.setLit lit) k) := by
  unfold selRed
  rw [f.fb, redKindOf_code]
  exact decR1_fields (fun d a => .red d a k) f h (by simp) lit

theorem selScan_fields {op w : Nat} {d : Dst} {a : Src} {k : RedKind} {ex : Bool}
    (f : FieldsR w op d.n d.field a.code (redKindCode k + 128 * ex.toNat) d.l) (h : wfR1 k.ty k.wide d a = true) (lit : Nat) :
    selScan w lit = passed (.scan d (a.setLit lit) k ex) := by
  have h1 := redKindCode_lt k
  have e1 : (redKindCode k + 128 * ex.toNat) % 128 = redKindCode k := by omega
  have e2 : (redKindCode k + 128 * ex.toNat) / 128 = ex.toNat := by omega
  unfold selScan
  rw [f.fb, e1, e2, redKindOf_code, toNat_beq_one]
  exact decR1_fields (fun d a => .scan d a k ex) f h (by simp) lit

theorem selSbit_fields {op w : Nat} {d : Dst} {a : Src} {k : BitOp} (f : FieldsR w op d.n d.field a.code (bitOpCode k) d.l)
    (h : wfR1 k.ty k.wide d a = true) (lit : Nat) : selSbit w lit = passed (.sbit d (a.setLit lit) k) := by
  unfold selSbit
  rw [f.fb, bitOpOf_code]
  exact decR1_fields (fun d a => .sbit d a k) f h (by simp) lit

end Sys2Proof
end

