-- ==== Sys2Proof/Laws/Units.lean ====
section
/-!
SUPPORT. From what a word decodes to, to what a unit decodes to: with its literal, and behind a guard prefix (R78, R92, R96).
-/

set_option Elab.async false

namespace Sys2Proof

/-- The guard prefix's word (R92). -/
def prefixWord (p : PredSel) (neg : Bool) : W32 := wordB 0x7E (predCode p) neg.toNat 0

/-- The words of an instruction are read as it: alone, and behind a guard prefix where it may stand there (R92). -/
def ReadsAs (ws : List W32) (i : Instr) : Prop :=
  match ws with
  | [] => True
  | w :: _ =>
    isPrefix w.toNat = false →
      decodeWords ws = .ok ⟨none, i, ws.length⟩ ∧
      (isBFormat w.toNat = false → ∀ p neg, decodeWords (prefixWord p neg :: ws) = .ok ⟨some (p, neg), i, 1 + ws.length⟩)

theorem prefixWord_fields (p : PredSel) (neg : Bool) : FieldsB (prefixWord p neg).toNat 0x7E (predCode p) neg.toNat 0 :=
  fieldsB (by decide) (by have := predCode_le p; omega) (Bool.toNat_lt neg) (by decide)

theorem prefixWord_isPrefix (p : PredSel) (neg : Bool) : isPrefix (prefixWord p neg).toNat = true := by
  unfold isPrefix; rw [(prefixWord_fields p neg).all]; rfl

theorem prefixWord_chk (p : PredSel) (neg : Bool) : (decGuard Instr.guardPrefix (prefixWord p neg).toNat).chk = {} := by
  rw [decGuard_fields _ (prefixWord_fields p neg)]

theorem prefixWord_pred (p : PredSel) (neg : Bool) : predOf (fbP (prefixWord p neg).toNat) = p := by
  rw [(prefixWord_fields p neg).fp, predOf_code]

theorem prefixWord_neg (p : PredSel) (neg : Bool) : (fbG (prefixWord p neg).toNat == 1) = neg := by
  rw [(prefixWord_fields p neg).fg, toNat_beq_one]

/-- The words of a unit without a prefix. -/
theorem unitWords_plain {w v n : Nat} (h : isPrefix w = false) (h0 : ∃ p, decodeWord w 0 = some p ∧ (if takesLiteral p.instr then 2 else 1) = n) :
    unitWords w v = n := by
  obtain ⟨p, d, e⟩ := h0
  unfold unitWords
  rw [if_neg (by simp [h])]
  beta_reduce
  rw [d]
  exact e

/-- The words of a unit behind a prefix. -/
theorem unitWords_guarded {v w n : Nat} (hv : isPrefix v = true) (h : isPrefix w = false)
    (h0 : ∃ p, decodeWord w 0 = some p ∧ (if takesLiteral p.instr then 2 else 1) = n) : unitWords v w = 1 + n := by
  obtain ⟨p, d, e⟩ := h0
  unfold unitWords
  rw [if_pos hv, if_neg (by simp [h])]
  beta_reduce
  rw [d]
  exact congrArg (1 + ·) e

theorem decodeUnit_plain {w lit z n : Nat} {i : Instr} (h : isPrefix w = false) (hp : decodeWord w lit = some (passed i))
    (hn : unitWords w lit = n) : decodeUnit w lit z = .ok ⟨none, i, n⟩ := by
  unfold decodeUnit
  rw [if_neg (by simp [h]), hp, hn]
  rfl

theorem decodeUnit_guarded {v w lit n : Nat} {i : Instr} {p : PredSel} {neg : Bool} (hv : isPrefix v = true) (h : isPrefix w = false)
    (hb : isBFormat w = false) (hc : (decGuard Instr.guardPrefix v).chk = {}) (hq : predOf (fbP v) = p) (hg : (fbG v == 1) = neg)
    (hp : decodeWord w lit = some (passed i)) (hn : unitWords v w = n) : decodeUnit v w lit = .ok ⟨some (p, neg), i, n⟩ := by
  unfold decodeUnit
  rw [if_pos hv, if_neg (by simp [h, hb]), hp, hn, hc, hq, hg]
  rfl

theorem readsAs_of {w : W32} {rest : List W32} {i : Instr} (lit : Nat) (hl : ((rest[0]?).getD 0).toNat = lit)
    (hp : decodeWord w.toNat lit = some (passed i)) (h0 : ∃ p, decodeWord w.toNat 0 = some p ∧ takesLiteral p.instr = takesLiteral i)
    (hn : rest.length = (takesLiteral i).toNat) : ReadsAs (w :: rest) i := by
  intro hpre
  have hlen : ∃ p, decodeWord w.toNat 0 = some p ∧ (if takesLiteral p.instr then 2 else 1) = (w :: rest).length := by
    obtain ⟨p0, d0, t0⟩ := h0
    refine ⟨p0, d0, ?_⟩
    rw [t0, List.length_cons, hn]; cases takesLiteral i <;> rfl
  refine ⟨?_, fun hb p neg => ?_⟩
  · unfold decodeWords
    simp only [List.getElem?_cons_zero, List.getElem?_cons_succ, Option.getD_some, hl]
    exact decodeUnit_plain hpre hp (unitWords_plain hpre hlen)
  · unfold decodeWords
    simp only [List.getElem?_cons_zero, List.getElem?_cons_succ, Option.getD_some, hl]
    exact decodeUnit_guarded (prefixWord_isPrefix p neg) hpre hb (prefixWord_chk p neg) (prefixWord_pred p neg) (prefixWord_neg p neg) hp
      (unitWords_guarded (prefixWord_isPrefix p neg) hpre hlen)

theorem readsAs_0 {w : W32} {i : Instr} (hd : ∀ lit, decodeWord w.toNat lit = some (passed i)) (ht : takesLiteral i = false) :
    ReadsAs [w] i :=
  readsAs_of _ rfl (hd _) ⟨_, hd 0, rfl⟩ (by simp [ht])

theorem readsAs_1 {w : W32} {f : Src → Instr} {a : Src} (hd : ∀ lit, decodeWord w.toNat lit = some (passed (f (a.setLit lit))))
    (ht : ∀ a, takesLiteral (f a) = a.isLit) : ReadsAs (w :: a.literal) (f a) := by
  refine readsAs_of _ rfl ?_ ⟨_, hd 0, by simp [ht]⟩ (by rw [ht, Src.literal_length])
  rw [hd]
  congr 3
  cases a <;> simp [Src.setLit, Src.literal]

theorem readsAs_2 {w : W32} {f : Src → Src → Instr} {a b : Src}
    (hd : ∀ lit, decodeWord w.toNat lit = some (passed (f (a.setLit lit) (b.setLit lit))))
    (ht : ∀ a b, takesLiteral (f a b) = (a.isLit || b.isLit)) (ho : oneLit a b = true) : ReadsAs (w :: (a.literal ++ b.literal)) (f a b) := by
  refine readsAs_of _ rfl ?_ ⟨_, hd 0, by simp [ht]⟩ ?_
  · rw [hd]
    congr 3 <;> cases a <;> cases b <;> simp_all [Src.setLit, Src.literal, oneLit, Src.isLit]
  · rw [ht]
    cases a <;> cases b <;> simp_all [Src.literal, oneLit, Src.isLit]

theorem wfR2_one {ta tb : Ty} {wide n : Bool} {d : Dst} {a b : Src} (h : wfR2 ta tb wide n d a b = true) : oneLit a b = true := by
  simp only [wfR2, Bool.and_eq_true] at h; exact h.2

theorem wfRp_one {ta : Ty} {a b : Src} (h : wfRp ta a b = true) : oneLit a b = true := by
  simp only [wfRp, Bool.and_eq_true] at h; exact h.2

theorem wfAB_one {ta tb : Ty} {a b : Src} (h : wfAB ta tb a b = true) : oneLit a b = true := by
  simp only [wfAB, Bool.and_eq_true] at h; exact h.2

/-! The opcode maps, by the high digit of the opcode (R93, R94). -/

theorem decodeWord_0 {w op : Nat} (o : OpOf w op) (h : op / 16 = 0) (lit : Nat) : decodeWord w lit = laneOps0 (op % 16) w lit := by
  unfold decodeWord; rw [o.hi, o.lo, h]; rfl

theorem decodeWord_1 {w op : Nat} (o : OpOf w op) (h : op / 16 = 1) (lit : Nat) : decodeWord w lit = laneOps1 (op % 16) w lit := by
  unfold decodeWord; rw [o.hi, o.lo, h]; rfl

theorem decodeWord_2 {w op : Nat} (o : OpOf w op) (h : op / 16 = 2) (lit : Nat) : decodeWord w lit = laneOps2 (op % 16) w lit := by
  unfold decodeWord; rw [o.hi, o.lo, h]; rfl

theorem decodeWord_3 {w op : Nat} (o : OpOf w op) (h : op / 16 = 3) (lit : Nat) : decodeWord w lit = laneOps3 (op % 16) w lit := by
  unfold decodeWord; rw [o.hi, o.lo, h]; rfl

theorem decodeWord_4 {w op : Nat} (o : OpOf w op) (h : op / 16 = 4) (lit : Nat) : decodeWord w lit = laneOps4 (op % 16) w lit := by
  unfold decodeWord; rw [o.hi, o.lo, h]; rfl

theorem decodeWord_5 {w op : Nat} (o : OpOf w op) (h : op / 16 = 5) (lit : Nat) : decodeWord w lit = laneOps5 (op % 16) w lit := by
  unfold decodeWord; rw [o.hi, o.lo, h]; rfl

theorem decodeWord_6 {w op : Nat} (o : OpOf w op) (h : op / 16 = 6) (lit : Nat) : decodeWord w lit = laneOps6 (op % 16) w lit := by
  unfold decodeWord; rw [o.hi, o.lo, h]; rfl

theorem decodeWord_7 {w op : Nat} (o : OpOf w op) (h : op / 16 = 7) (lit : Nat) : decodeWord w lit = laneOps7 (op % 16) w lit := by
  unfold decodeWord; rw [o.hi, o.lo, h]; rfl

theorem decodeWord_8 {w op : Nat} (o : OpOf w op) (h : op / 16 = 8) (lit : Nat) : decodeWord w lit = uniOps0 (op % 16) w lit := by
  unfold decodeWord; rw [o.hi, o.lo, h]; rfl

theorem decodeWord_9 {w op : Nat} (o : OpOf w op) (h : op / 16 = 9) (lit : Nat) : decodeWord w lit = uniOps1 (op % 16) w lit := by
  unfold decodeWord; rw [o.hi, o.lo, h]; rfl

theorem decodeWord_10 {w op : Nat} (o : OpOf w op) (h : op / 16 = 10) (lit : Nat) : decodeWord w lit = uniOps2 (op % 16) w lit := by
  unfold decodeWord; rw [o.hi, o.lo, h]; rfl

theorem decodeWord_11 {w op : Nat} (o : OpOf w op) (h : op / 16 = 11) (lit : Nat) : decodeWord w lit = uniOps3 (op % 16) w lit := by
  unfold decodeWord; rw [o.hi, o.lo, h]; rfl

theorem decodeWord_12 {w op : Nat} (o : OpOf w op) (h : op / 16 = 12) (lit : Nat) : decodeWord w lit = uniOps4 (op % 16) w lit := by
  unfold decodeWord; rw [o.hi, o.lo, h]; rfl

theorem decodeWord_13 {w op : Nat} (o : OpOf w op) (h : op / 16 = 13) (lit : Nat) : decodeWord w lit = uniOps5 (op % 16) w lit := by
  unfold decodeWord; rw [o.hi, o.lo, h]; rfl

theorem Dst.fieldsR {op s : Nat} (d : Dst) (a : Nat) (ho : op < 256) (ha : a < 256) (hs : s < 256) :
    FieldsR (wordR op d.n d.field a s d.l).toNat op d.n d.field a s d.l :=
  Sys2Proof.fieldsR ho d.n_lt d.field_lt ha hs d.l_lt

end Sys2Proof
end

