-- ==== Sys2Proof/Laws/PerInstr.lean ====
section
/-!
SUPPORT. The encoder and the decoder agree (R78 to R98): one lemma for every instruction.
-/

set_option Elab.async false

namespace Sys2Proof.Laws.RoundTrip

/-- The words of a well-formed instruction are read as it, with every operand, alone and behind a guard prefix; an event has no words. -/
def Statement (i : Instr) : Prop := WellFormed i = true → ReadsAs (encode i) i

theorem addB32 (d : Dst) (a b : Src) : Statement (.addB32 d a b) := by
  intro h
  have f := Dst.fieldsR (op := 0x0) d a.code (by decide) a.code_lt b.code_lt
  refine readsAs_2 (f := fun a b => .addB32 d a b) (fun lit => ?_) (fun _ _ => rfl) (wfR2_one h)
  exact (decodeWord_0 f.toOpOf rfl lit).trans (congrArg some (decR2_fields _ f h lit))

theorem addB64 (d : Dst) (a b : Src) : Statement (.addB64 d a b) := by
  intro h
  have f := Dst.fieldsR (op := 0x1) d a.code (by decide) a.code_lt b.code_lt
  refine readsAs_2 (f := fun a b => .addB64 d a b) (fun lit => ?_) (fun _ _ => rfl) (wfR2_one h)
  exact (decodeWord_0 f.toOpOf rfl lit).trans (congrArg some (decR2_fields _ f h lit))

theorem subB32 (d : Dst) (a b : Src) : Statement (.subB32 d a b) := by
  intro h
  have f := Dst.fieldsR (op := 0x2) d a.code (by decide) a.code_lt b.code_lt
  refine readsAs_2 (f := fun a b => .subB32 d a b) (fun lit => ?_) (fun _ _ => rfl) (wfR2_one h)
  exact (decodeWord_0 f.toOpOf rfl lit).trans (congrArg some (decR2_fields _ f h lit))

theorem subB64 (d : Dst) (a b : Src) : Statement (.subB64 d a b) := by
  intro h
  have f := Dst.fieldsR (op := 0x3) d a.code (by decide) a.code_lt b.code_lt
  refine readsAs_2 (f := fun a b => .subB64 d a b) (fun lit => ?_) (fun _ _ => rfl) (wfR2_one h)
  exact (decodeWord_0 f.toOpOf rfl lit).trans (congrArg some (decR2_fields _ f h lit))

theorem addiB32 (d : Dst) (a : Src) (imm : BitVec 9) : Statement (.addiB32 d a imm) := by
  intro h
  have f := fieldsI (op := 0x4) (by decide) d.n_lt d.field_lt a.code_lt imm.isLt
  refine readsAs_1 (f := fun a => .addiB32 d a imm) (fun lit => ?_) (fun _ => rfl)
  exact (decodeWord_0 f.toOpOf rfl lit).trans (congrArg some (decI1_fields _ f h lit))

theorem addiB64 (d : Dst) (a : Src) (imm : BitVec 9) : Statement (.addiB64 d a imm) := by
  intro h
  have f := fieldsI (op := 0x5) (by decide) d.n_lt d.field_lt a.code_lt imm.isLt
  refine readsAs_1 (f := fun a => .addiB64 d a imm) (fun lit => ?_) (fun _ => rfl)
  exact (decodeWord_0 f.toOpOf rfl lit).trans (congrArg some (decI1_fields _ f h lit))

theorem mulB32 (d : Dst) (a b : Src) : Statement (.mulB32 d a b) := by
  intro h
  have f := Dst.fieldsR (op := 0x6) d a.code (by decide) a.code_lt b.code_lt
  refine readsAs_2 (f := fun a b => .mulB32 d a b) (fun lit => ?_) (fun _ _ => rfl) (wfR2_one h)
  exact (decodeWord_0 f.toOpOf rfl lit).trans (congrArg some (decR2_fields _ f h lit))

theorem mulB64 (d : Dst) (a b : Src) : Statement (.mulB64 d a b) := by
  intro h
  have f := Dst.fieldsR (op := 0x7) d a.code (by decide) a.code_lt b.code_lt
  refine readsAs_2 (f := fun a b => .mulB64 d a b) (fun lit => ?_) (fun _ _ => rfl) (wfR2_one h)
  exact (decodeWord_0 f.toOpOf rfl lit).trans (congrArg some (decR2_fields _ f h lit))

theorem mulhiI32 (d : Dst) (a b : Src) : Statement (.mulhiI32 d a b) := by
  intro h
  have f := Dst.fieldsR (op := 0x8) d a.code (by decide) a.code_lt b.code_lt
  refine readsAs_2 (f := fun a b => .mulhiI32 d a b) (fun lit => ?_) (fun _ _ => rfl) (wfR2_one h)
  exact (decodeWord_0 f.toOpOf rfl lit).trans (congrArg some (decR2_fields _ f h lit))

theorem mulhiN32 (d : Dst) (a b : Src) : Statement (.mulhiN32 d a b) := by
  intro h
  have f := Dst.fieldsR (op := 0x9) d a.code (by decide) a.code_lt b.code_lt
  refine readsAs_2 (f := fun a b => .mulhiN32 d a b) (fun lit => ?_) (fun _ _ => rfl) (wfR2_one h)
  exact (decodeWord_0 f.toOpOf rfl lit).trans (congrArg some (decR2_fields _ f h lit))

theorem mulwI32 (d : Dst) (a b : Src) : Statement (.mulwI32 d a b) := by
  intro h
  have f := Dst.fieldsR (op := 0xa) d a.code (by decide) a.code_lt b.code_lt
  refine readsAs_2 (f := fun a b => .mulwI32 d a b) (fun lit => ?_) (fun _ _ => rfl) (wfR2_one h)
  exact (decodeWord_0 f.toOpOf rfl lit).trans (congrArg some (decR2_fields _ f h lit))

theorem mulwN32 (d : Dst) (a b : Src) : Statement (.mulwN32 d a b) := by
  intro h
  have f := Dst.fieldsR (op := 0xb) d a.code (by decide) a.code_lt b.code_lt
  refine readsAs_2 (f := fun a b => .mulwN32 d a b) (fun lit => ?_) (fun _ _ => rfl) (wfR2_one h)
  exact (decodeWord_0 f.toOpOf rfl lit).trans (congrArg some (decR2_fields _ f h lit))

theorem divI32 (d : Dst) (a b : Src) : Statement (.divI32 d a b) := by
  intro h
  have f := Dst.fieldsR (op := 0xc) d a.code (by decide) a.code_lt b.code_lt
  refine readsAs_2 (f := fun a b => .divI32 d a b) (fun lit => ?_) (fun _ _ => rfl) (wfR2_one h)
  exact (decodeWord_0 f.toOpOf rfl lit).trans (congrArg some (decR2_fields _ f h lit))

theorem divN32 (d : Dst) (a b : Src) : Statement (.divN32 d a b) := by
  intro h
  have f := Dst.fieldsR (op := 0xd) d a.code (by decide) a.code_lt b.code_lt
  refine readsAs_2 (f := fun a b => .divN32 d a b) (fun lit => ?_) (fun _ _ => rfl) (wfR2_one h)
  exact (decodeWord_0 f.toOpOf rfl lit).trans (congrArg some (decR2_fields _ f h lit))

theorem remI32 (d : Dst) (a b : Src) : Statement (.remI32 d a b) := by
  intro h
  have f := Dst.fieldsR (op := 0xe) d a.code (by decide) a.code_lt b.code_lt
  refine readsAs_2 (f := fun a b => .remI32 d a b) (fun lit => ?_) (fun _ _ => rfl) (wfR2_one h)
  exact (decodeWord_0 f.toOpOf rfl lit).trans (congrArg some (decR2_fields _ f h lit))

theorem remN32 (d : Dst) (a b : Src) : Statement (.remN32 d a b) := by
  intro h
  have f := Dst.fieldsR (op := 0xf) d a.code (by decide) a.code_lt b.code_lt
  refine readsAs_2 (f := fun a b => .remN32 d a b) (fun lit => ?_) (fun _ _ => rfl) (wfR2_one h)
  exact (decodeWord_0 f.toOpOf rfl lit).trans (congrArg some (decR2_fields _ f h lit))

theorem andB32 (d : Dst) (a b : Src) : Statement (.andB32 d a b) := by
  intro h
  have f := Dst.fieldsR (op := 0x10) d a.code (by decide) a.code_lt b.code_lt
  refine readsAs_2 (f := fun a b => .andB32 d a b) (fun lit => ?_) (fun _ _ => rfl) (wfR2_one h)
  exact (decodeWord_1 f.toOpOf rfl lit).trans (congrArg some (decR2_fields _ f h lit))

theorem orB32 (d : Dst) (a b : Src) : Statement (.orB32 d a b) := by
  intro h
  have f := Dst.fieldsR (op := 0x11) d a.code (by decide) a.code_lt b.code_lt
  refine readsAs_2 (f := fun a b => .orB32 d a b) (fun lit => ?_) (fun _ _ => rfl) (wfR2_one h)
  exact (decodeWord_1 f.toOpOf rfl lit).trans (congrArg some (decR2_fields _ f h lit))

theorem xorB32 (d : Dst) (a b : Src) : Statement (.xorB32 d a b) := by
  intro h
  have f := Dst.fieldsR (op := 0x12) d a.code (by decide) a.code_lt b.code_lt
  refine readsAs_2 (f := fun a b => .xorB32 d a b) (fun lit => ?_) (fun _ _ => rfl) (wfR2_one h)
  exact (decodeWord_1 f.toOpOf rfl lit).trans (congrArg some (decR2_fields _ f h lit))

theorem bfiB32 (d : Dst) (a b : Src) : Statement (.bfiB32 d a b) := by
  intro h
  have f := Dst.fieldsR (op := 0x13) d a.code (by decide) a.code_lt b.code_lt
  refine readsAs_2 (f := fun a b => .bfiB32 d a b) (fun lit => ?_) (fun _ _ => rfl) (wfR2_one h)
  exact (decodeWord_1 f.toOpOf rfl lit).trans (congrArg some (decR2_fields _ f h lit))

theorem andB64 (d : Dst) (a b : Src) : Statement (.andB64 d a b) := by
  intro h
  have f := Dst.fieldsR (op := 0x14) d a.code (by decide) a.code_lt b.code_lt
  refine readsAs_2 (f := fun a b => .andB64 d a b) (fun lit => ?_) (fun _ _ => rfl) (wfR2_one h)
  exact (decodeWord_1 f.toOpOf rfl lit).trans (congrArg some (decR2_fields _ f h lit))

theorem orB64 (d : Dst) (a b : Src) : Statement (.orB64 d a b) := by
  intro h
  have f := Dst.fieldsR (op := 0x15) d a.code (by decide) a.code_lt b.code_lt
  refine readsAs_2 (f := fun a b => .orB64 d a b) (fun lit => ?_) (fun _ _ => rfl) (wfR2_one h)
  exact (decodeWord_1 f.toOpOf rfl lit).trans (congrArg some (decR2_fields _ f h lit))

theorem xorB64 (d : Dst) (a b : Src) : Statement (.xorB64 d a b) := by
  intro h
  have f := Dst.fieldsR (op := 0x16) d a.code (by decide) a.code_lt b.code_lt
  refine readsAs_2 (f := fun a b => .xorB64 d a b) (fun lit => ?_) (fun _ _ => rfl) (wfR2_one h)
  exact (decodeWord_1 f.toOpOf rfl lit).trans (congrArg some (decR2_fields _ f h lit))

theorem lea (d : Dst) (a b : Src) : Statement (.lea d a b) := by
  intro h
  have f := Dst.fieldsR (op := 0x17) d a.code (by decide) a.code_lt b.code_lt
  refine readsAs_2 (f := fun a b => .lea d a b) (fun lit => ?_) (fun _ _ => rfl) (wfR2_one h)
  exact (decodeWord_1 f.toOpOf rfl lit).trans (congrArg some (decR2_fields _ f h lit))

theorem shlB32 (d : Dst) (a b : Src) : Statement (.shlB32 d a b) := by
  intro h
  have f := Dst.fieldsR (op := 0x18) d a.code (by decide) a.code_lt b.code_lt
  refine readsAs_2 (f := fun a b => .shlB32 d a b) (fun lit => ?_) (fun _ _ => rfl) (wfR2_one h)
  exact (decodeWord_1 f.toOpOf rfl lit).trans (congrArg some (decR2_fields _ f h lit))

theorem shrN32 (d : Dst) (a b : Src) : Statement (.shrN32 d a b) := by
  intro h
  have f := Dst.fieldsR (op := 0x19) d a.code (by decide) a.code_lt b.code_lt
  refine readsAs_2 (f := fun a b => .shrN32 d a b) (fun lit => ?_) (fun _ _ => rfl) (wfR2_one h)
  exact (decodeWord_1 f.toOpOf rfl lit).trans (congrArg some (decR2_fields _ f h lit))

theorem shrI32 (d : Dst) (a b : Src) : Statement (.shrI32 d a b) := by
  intro h
  have f := Dst.fieldsR (op := 0x1a) d a.code (by decide) a.code_lt b.code_lt
  refine readsAs_2 (f := fun a b => .shrI32 d a b) (fun lit => ?_) (fun _ _ => rfl) (wfR2_one h)
  exact (decodeWord_1 f.toOpOf rfl lit).trans (congrArg some (decR2_fields _ f h lit))

theorem shlB64 (d : Dst) (a b : Src) : Statement (.shlB64 d a b) := by
  intro h
  have f := Dst.fieldsR (op := 0x1b) d a.code (by decide) a.code_lt b.code_lt
  refine readsAs_2 (f := fun a b => .shlB64 d a b) (fun lit => ?_) (fun _ _ => rfl) (wfR2_one h)
  exact (decodeWord_1 f.toOpOf rfl lit).trans (congrArg some (decR2_fields _ f h lit))

theorem shrN64 (d : Dst) (a b : Src) : Statement (.shrN64 d a b) := by
  intro h
  have f := Dst.fieldsR (op := 0x1c) d a.code (by decide) a.code_lt b.code_lt
  refine readsAs_2 (f := fun a b => .shrN64 d a b) (fun lit => ?_) (fun _ _ => rfl) (wfR2_one h)
  exact (decodeWord_1 f.toOpOf rfl lit).trans (congrArg some (decR2_fields _ f h lit))

theorem shrI64 (d : Dst) (a b : Src) : Statement (.shrI64 d a b) := by
  intro h
  have f := Dst.fieldsR (op := 0x1d) d a.code (by decide) a.code_lt b.code_lt
  refine readsAs_2 (f := fun a b => .shrI64 d a b) (fun lit => ?_) (fun _ _ => rfl) (wfR2_one h)
  exact (decodeWord_1 f.toOpOf rfl lit).trans (congrArg some (decR2_fields _ f h lit))

theorem bfxB32 (d : Dst) (a b : Src) : Statement (.bfxB32 d a b) := by
  intro h
  have f := Dst.fieldsR (op := 0x1e) d a.code (by decide) a.code_lt b.code_lt
  refine readsAs_2 (f := fun a b => .bfxB32 d a b) (fun lit => ?_) (fun _ _ => rfl) (wfR2_one h)
  exact (decodeWord_1 f.toOpOf rfl lit).trans (congrArg some (decR2_fields _ f h lit))

theorem notB32 (d : Dst) (a : Src) : Statement (.notB32 d a) := by
  intro h
  have f := Dst.fieldsR (op := 0x1f) (s := 0) d a.code (by decide) a.code_lt (by decide)
  refine readsAs_1 (f := fun a => .notB32 d a) (fun lit => ?_) (fun _ => rfl)
  simp only [decodeWord, f.hi, f.lo, laneOps1, selBit, f.fb]
  exact congrArg some (decR1_fields _ f h (by simp) lit)

theorem popcB32 (d : Dst) (a : Src) : Statement (.popcB32 d a) := by
  intro h
  have f := Dst.fieldsR (op := 0x1f) (s := 1) d a.code (by decide) a.code_lt (by decide)
  refine readsAs_1 (f := fun a => .popcB32 d a) (fun lit => ?_) (fun _ => rfl)
  simp only [decodeWord, f.hi, f.lo, laneOps1, selBit, f.fb]
  exact congrArg some (decR1_fields _ f h (by simp) lit)

theorem clzB32 (d : Dst) (a : Src) : Statement (.clzB32 d a) := by
  intro h
  have f := Dst.fieldsR (op := 0x1f) (s := 2) d a.code (by decide) a.code_lt (by decide)
  refine readsAs_1 (f := fun a => .clzB32 d a) (fun lit => ?_) (fun _ => rfl)
  simp only [decodeWord, f.hi, f.lo, laneOps1, selBit, f.fb]
  exact congrArg some (decR1_fields _ f h (by simp) lit)

theorem ctzB32 (d : Dst) (a : Src) : Statement (.ctzB32 d a) := by
  intro h
  have f := Dst.fieldsR (op := 0x1f) (s := 3) d a.code (by decide) a.code_lt (by decide)
  refine readsAs_1 (f := fun a => .ctzB32 d a) (fun lit => ?_) (fun _ => rfl)
  simp only [decodeWord, f.hi, f.lo, laneOps1, selBit, f.fb]
  exact congrArg some (decR1_fields _ f h (by simp) lit)

theorem brevB32 (d : Dst) (a : Src) : Statement (.brevB32 d a) := by
  intro h
  have f := Dst.fieldsR (op := 0x1f) (s := 4) d a.code (by decide) a.code_lt (by decide)
  refine readsAs_1 (f := fun a => .brevB32 d a) (fun lit => ?_) (fun _ => rfl)
  simp only [decodeWord, f.hi, f.lo, laneOps1, selBit, f.fb]
  exact congrArg some (decR1_fields _ f h (by simp) lit)

theorem bswapB32 (d : Dst) (a : Src) : Statement (.bswapB32 d a) := by
  intro h
  have f := Dst.fieldsR (op := 0x1f) (s := 5) d a.code (by decide) a.code_lt (by decide)
  refine readsAs_1 (f := fun a => .bswapB32 d a) (fun lit => ?_) (fun _ => rfl)
  simp only [decodeWord, f.hi, f.lo, laneOps1, selBit, f.fb]
  exact congrArg some (decR1_fields _ f h (by simp) lit)

theorem sextI8 (d : Dst) (a : Src) : Statement (.sextI8 d a) := by
  intro h
  have f := Dst.fieldsR (op := 0x1f) (s := 6) d a.code (by decide) a.code_lt (by decide)
  refine readsAs_1 (f := fun a => .sextI8 d a) (fun lit => ?_) (fun _ => rfl)
  simp only [decodeWord, f.hi, f.lo, laneOps1, selBit, f.fb]
  exact congrArg some (decR1_fields _ f h (by simp) lit)

theorem sextI16 (d : Dst) (a : Src) : Statement (.sextI16 d a) := by
  intro h
  have f := Dst.fieldsR (op := 0x1f) (s := 7) d a.code (by decide) a.code_lt (by decide)
  refine readsAs_1 (f := fun a => .sextI16 d a) (fun lit => ?_) (fun _ => rfl)
  simp only [decodeWord, f.hi, f.lo, laneOps1, selBit, f.fb]
  exact congrArg some (decR1_fields _ f h (by simp) lit)

theorem notB64 (d : Dst) (a : Src) : Statement (.notB64 d a) := by
  intro h
  have f := Dst.fieldsR (op := 0x1f) (s := 8) d a.code (by decide) a.code_lt (by decide)
  refine readsAs_1 (f := fun a => .notB64 d a) (fun lit => ?_) (fun _ => rfl)
  simp only [decodeWord, f.hi, f.lo, laneOps1, selBit, f.fb]
  exact congrArg some (decR1_fields _ f h (by simp) lit)

theorem popcB64 (d : Dst) (a : Src) : Statement (.popcB64 d a) := by
  intro h
  have f := Dst.fieldsR (op := 0x1f) (s := 9) d a.code (by decide) a.code_lt (by decide)
  refine readsAs_1 (f := fun a => .popcB64 d a) (fun lit => ?_) (fun _ => rfl)
  simp only [decodeWord, f.hi, f.lo, laneOps1, selBit, f.fb]
  exact congrArg some (decR1_fields _ f h (by simp) lit)

theorem clzB64 (d : Dst) (a : Src) : Statement (.clzB64 d a) := by
  intro h
  have f := Dst.fieldsR (op := 0x1f) (s := 10) d a.code (by decide) a.code_lt (by decide)
  refine readsAs_1 (f := fun a => .clzB64 d a) (fun lit => ?_) (fun _ => rfl)
  simp only [decodeWord, f.hi, f.lo, laneOps1, selBit, f.fb]
  exact congrArg some (decR1_fields _ f h (by simp) lit)

theorem ctzB64 (d : Dst) (a : Src) : Statement (.ctzB64 d a) := by
  intro h
  have f := Dst.fieldsR (op := 0x1f) (s := 11) d a.code (by decide) a.code_lt (by decide)
  refine readsAs_1 (f := fun a => .ctzB64 d a) (fun lit => ?_) (fun _ => rfl)
  simp only [decodeWord, f.hi, f.lo, laneOps1, selBit, f.fb]
  exact congrArg some (decR1_fields _ f h (by simp) lit)

theorem brevB64 (d : Dst) (a : Src) : Statement (.brevB64 d a) := by
  intro h
  have f := Dst.fieldsR (op := 0x1f) (s := 12) d a.code (by decide) a.code_lt (by decide)
  refine readsAs_1 (f := fun a => .brevB64 d a) (fun lit => ?_) (fun _ => rfl)
  simp only [decodeWord, f.hi, f.lo, laneOps1, selBit, f.fb]
  exact congrArg some (decR1_fields _ f h (by simp) lit)

theorem bswapB64 (d : Dst) (a : Src) : Statement (.bswapB64 d a) := by
  intro h
  have f := Dst.fieldsR (op := 0x1f) (s := 13) d a.code (by decide) a.code_lt (by decide)
  refine readsAs_1 (f := fun a => .bswapB64 d a) (fun lit => ?_) (fun _ => rfl)
  simp only [decodeWord, f.hi, f.lo, laneOps1, selBit, f.fb]
  exact congrArg some (decR1_fields _ f h (by simp) lit)

theorem sextI32 (d : Dst) (a : Src) : Statement (.sextI32 d a) := by
  intro h
  have f := Dst.fieldsR (op := 0x1f) (s := 14) d a.code (by decide) a.code_lt (by decide)
  refine readsAs_1 (f := fun a => .sextI32 d a) (fun lit => ?_) (fun _ => rfl)
  simp only [decodeWord, f.hi, f.lo, laneOps1, selBit, f.fb]
  exact congrArg some (decR1_fields _ f h (by simp) lit)

theorem zextN32 (d : Dst) (a : Src) : Statement (.zextN32 d a) := by
  intro h
  have f := Dst.fieldsR (op := 0x1f) (s := 15) d a.code (by decide) a.code_lt (by decide)
  refine readsAs_1 (f := fun a => .zextN32 d a) (fun lit => ?_) (fun _ => rfl)
  simp only [decodeWord, f.hi, f.lo, laneOps1, selBit, f.fb]
  exact congrArg some (decR1_fields _ f h (by simp) lit)

theorem setpI32 (c : Cond) (p : Fin 12) (a b : Src) : Statement (.setpI32 c p a b) := by
  intro h
  have f := fieldsR (op := 0x20) (by decide) (Nat.zero_lt_two) (show condCode c * 16 + p.val < 64 by have := condCode_lt c; omega) a.code_lt b.code_lt (Nat.zero_lt_two)
  refine readsAs_2 (f := fun a b => .setpI32 c p a b) (fun lit => ?_) (fun _ _ => rfl) (wfRp_one h)
  exact (decodeWord_2 f.toOpOf rfl lit).trans (congrArg some (decRp_fields _ f h lit))

theorem setpN32 (c : Cond) (p : Fin 12) (a b : Src) : Statement (.setpN32 c p a b) := by
  intro h
  have f := fieldsR (op := 0x21) (by decide) (Nat.zero_lt_two) (show condCode c * 16 + p.val < 64 by have := condCode_lt c; omega) a.code_lt b.code_lt (Nat.zero_lt_two)
  refine readsAs_2 (f := fun a b => .setpN32 c p a b) (fun lit => ?_) (fun _ _ => rfl) (wfRp_one h)
  exact (decodeWord_2 f.toOpOf rfl lit).trans (congrArg some (decRp_fields _ f h lit))

theorem setpI64 (c : Cond) (p : Fin 12) (a b : Src) : Statement (.setpI64 c p a b) := by
  intro h
  have f := fieldsR (op := 0x22) (by decide) (Nat.zero_lt_two) (show condCode c * 16 + p.val < 64 by have := condCode_lt c; omega) a.code_lt b.code_lt (Nat.zero_lt_two)
  refine readsAs_2 (f := fun a b => .setpI64 c p a b) (fun lit => ?_) (fun _ _ => rfl) (wfRp_one h)
  exact (decodeWord_2 f.toOpOf rfl lit).trans (congrArg some (decRp_fields _ f h lit))

theorem setpN64 (c : Cond) (p : Fin 12) (a b : Src) : Statement (.setpN64 c p a b) := by
  intro h
  have f := fieldsR (op := 0x23) (by decide) (Nat.zero_lt_two) (show condCode c * 16 + p.val < 64 by have := condCode_lt c; omega) a.code_lt b.code_lt (Nat.zero_lt_two)
  refine readsAs_2 (f := fun a b => .setpN64 c p a b) (fun lit => ?_) (fun _ _ => rfl) (wfRp_one h)
  exact (decodeWord_2 f.toOpOf rfl lit).trans (congrArg some (decRp_fields _ f h lit))

theorem minN32 (d : Dst) (a b : Src) : Statement (.minN32 d a b) := by
  intro h
  have f := Dst.fieldsR (op := 0x24) d a.code (by decide) a.code_lt b.code_lt
  refine readsAs_2 (f := fun a b => .minN32 d a b) (fun lit => ?_) (fun _ _ => rfl) (wfR2_one h)
  exact (decodeWord_2 f.toOpOf rfl lit).trans (congrArg some (decR2_fields _ f h lit))

theorem maxN32 (d : Dst) (a b : Src) : Statement (.maxN32 d a b) := by
  intro h
  have f := Dst.fieldsR (op := 0x25) d a.code (by decide) a.code_lt b.code_lt
  refine readsAs_2 (f := fun a b => .maxN32 d a b) (fun lit => ?_) (fun _ _ => rfl) (wfR2_one h)
  exact (decodeWord_2 f.toOpOf rfl lit).trans (congrArg some (decR2_fields _ f h lit))

theorem minI32 (d : Dst) (a b : Src) : Statement (.minI32 d a b) := by
  intro h
  have f := Dst.fieldsR (op := 0x26) d a.code (by decide) a.code_lt b.code_lt
  refine readsAs_2 (f := fun a b => .minI32 d a b) (fun lit => ?_) (fun _ _ => rfl) (wfR2_one h)
  exact (decodeWord_2 f.toOpOf rfl lit).trans (congrArg some (decR2_fields _ f h lit))

theorem maxI32 (d : Dst) (a b : Src) : Statement (.maxI32 d a b) := by
  intro h
  have f := Dst.fieldsR (op := 0x27) d a.code (by decide) a.code_lt b.code_lt
  refine readsAs_2 (f := fun a b => .maxI32 d a b) (fun lit => ?_) (fun _ _ => rfl) (wfR2_one h)
  exact (decodeWord_2 f.toOpOf rfl lit).trans (congrArg some (decR2_fields _ f h lit))

theorem faddF32 (d : Dst) (a b : Src) : Statement (.faddF32 d a b) := by
  intro h
  have f := Dst.fieldsR (op := 0x28) d a.code (by decide) a.code_lt b.code_lt
  refine readsAs_2 (f := fun a b => .faddF32 d a b) (fun lit => ?_) (fun _ _ => rfl) (wfR2_one h)
  exact (decodeWord_2 f.toOpOf rfl lit).trans (congrArg some (decR2_fields _ f h lit))

theorem fsubF32 (d : Dst) (a b : Src) : Statement (.fsubF32 d a b) := by
  intro h
  have f := Dst.fieldsR (op := 0x29) d a.code (by decide) a.code_lt b.code_lt
  refine readsAs_2 (f := fun a b => .fsubF32 d a b) (fun lit => ?_) (fun _ _ => rfl) (wfR2_one h)
  exact (decodeWord_2 f.toOpOf rfl lit).trans (congrArg some (decR2_fields _ f h lit))

theorem fmulF32 (d : Dst) (a b : Src) : Statement (.fmulF32 d a b) := by
  intro h
  have f := Dst.fieldsR (op := 0x2a) d a.code (by decide) a.code_lt b.code_lt
  refine readsAs_2 (f := fun a b => .fmulF32 d a b) (fun lit => ?_) (fun _ _ => rfl) (wfR2_one h)
  exact (decodeWord_2 f.toOpOf rfl lit).trans (congrArg some (decR2_fields _ f h lit))

theorem ffmaF32 (d : Dst) (a b : Src) : Statement (.ffmaF32 d a b) := by
  intro h
  have f := Dst.fieldsR (op := 0x2b) d a.code (by decide) a.code_lt b.code_lt
  refine readsAs_2 (f := fun a b => .ffmaF32 d a b) (fun lit => ?_) (fun _ _ => rfl) (wfR2_one h)
  exact (decodeWord_2 f.toOpOf rfl lit).trans (congrArg some (decR2_fields _ f h lit))

theorem faddF64 (d : Dst) (a b : Src) : Statement (.faddF64 d a b) := by
  intro h
  have f := Dst.fieldsR (op := 0x2c) d a.code (by decide) a.code_lt b.code_lt
  refine readsAs_2 (f := fun a b => .faddF64 d a b) (fun lit => ?_) (fun _ _ => rfl) (wfR2_one h)
  exact (decodeWord_2 f.toOpOf rfl lit).trans (congrArg some (decR2_fields _ f h lit))

theorem fsubF64 (d : Dst) (a b : Src) : Statement (.fsubF64 d a b) := by
  intro h
  have f := Dst.fieldsR (op := 0x2d) d a.code (by decide) a.code_lt b.code_lt
  refine readsAs_2 (f := fun a b => .fsubF64 d a b) (fun lit => ?_) (fun _ _ => rfl) (wfR2_one h)
  exact (decodeWord_2 f.toOpOf rfl lit).trans (congrArg some (decR2_fields _ f h lit))

theorem fmulF64 (d : Dst) (a b : Src) : Statement (.fmulF64 d a b) := by
  intro h
  have f := Dst.fieldsR (op := 0x2e) d a.code (by decide) a.code_lt b.code_lt
  refine readsAs_2 (f := fun a b => .fmulF64 d a b) (fun lit => ?_) (fun _ _ => rfl) (wfR2_one h)
  exact (decodeWord_2 f.toOpOf rfl lit).trans (congrArg some (decR2_fields _ f h lit))

theorem ffmaF64 (d : Dst) (a b : Src) : Statement (.ffmaF64 d a b) := by
  intro h
  have f := Dst.fieldsR (op := 0x2f) d a.code (by decide) a.code_lt b.code_lt
  refine readsAs_2 (f := fun a b => .ffmaF64 d a b) (fun lit => ?_) (fun _ _ => rfl) (wfR2_one h)
  exact (decodeWord_2 f.toOpOf rfl lit).trans (congrArg some (decR2_fields _ f h lit))

theorem faddRzF32 (d : Dst) (a b : Src) : Statement (.faddRzF32 d a b) := by
  intro h
  have f := Dst.fieldsR (op := 0x30) d a.code (by decide) a.code_lt b.code_lt
  refine readsAs_2 (f := fun a b => .faddRzF32 d a b) (fun lit => ?_) (fun _ _ => rfl) (wfR2_one h)
  exact (decodeWord_3 f.toOpOf rfl lit).trans (congrArg some (decR2_fields _ f h lit))

theorem faddRuF32 (d : Dst) (a b : Src) : Statement (.faddRuF32 d a b) := by
  intro h
  have f := Dst.fieldsR (op := 0x31) d a.code (by decide) a.code_lt b.code_lt
  refine readsAs_2 (f := fun a b => .faddRuF32 d a b) (fun lit => ?_) (fun _ _ => rfl) (wfR2_one h)
  exact (decodeWord_3 f.toOpOf rfl lit).trans (congrArg some (decR2_fields _ f h lit))

theorem faddRdF32 (d : Dst) (a b : Src) : Statement (.faddRdF32 d a b) := by
  intro h
  have f := Dst.fieldsR (op := 0x32) d a.code (by decide) a.code_lt b.code_lt
  refine readsAs_2 (f := fun a b => .faddRdF32 d a b) (fun lit => ?_) (fun _ _ => rfl) (wfR2_one h)
  exact (decodeWord_3 f.toOpOf rfl lit).trans (congrArg some (decR2_fields _ f h lit))

theorem fmulRzF32 (d : Dst) (a b : Src) : Statement (.fmulRzF32 d a b) := by
  intro h
  have f := Dst.fieldsR (op := 0x33) d a.code (by decide) a.code_lt b.code_lt
  refine readsAs_2 (f := fun a b => .fmulRzF32 d a b) (fun lit => ?_) (fun _ _ => rfl) (wfR2_one h)
  exact (decodeWord_3 f.toOpOf rfl lit).trans (congrArg some (decR2_fields _ f h lit))

theorem ffmaRzF32 (d : Dst) (a b : Src) : Statement (.ffmaRzF32 d a b) := by
  intro h
  have f := Dst.fieldsR (op := 0x34) d a.code (by decide) a.code_lt b.code_lt
  refine readsAs_2 (f := fun a b => .ffmaRzF32 d a b) (fun lit => ?_) (fun _ _ => rfl) (wfR2_one h)
  exact (decodeWord_3 f.toOpOf rfl lit).trans (congrArg some (decR2_fields _ f h lit))

theorem ffmaRuF32 (d : Dst) (a b : Src) : Statement (.ffmaRuF32 d a b) := by
  intro h
  have f := Dst.fieldsR (op := 0x35) d a.code (by decide) a.code_lt b.code_lt
  refine readsAs_2 (f := fun a b => .ffmaRuF32 d a b) (fun lit => ?_) (fun _ _ => rfl) (wfR2_one h)
  exact (decodeWord_3 f.toOpOf rfl lit).trans (congrArg some (decR2_fields _ f h lit))

theorem ffmaRdF32 (d : Dst) (a b : Src) : Statement (.ffmaRdF32 d a b) := by
  intro h
  have f := Dst.fieldsR (op := 0x36) d a.code (by decide) a.code_lt b.code_lt
  refine readsAs_2 (f := fun a b => .ffmaRdF32 d a b) (fun lit => ?_) (fun _ _ => rfl) (wfR2_one h)
  exact (decodeWord_3 f.toOpOf rfl lit).trans (congrArg some (decR2_fields _ f h lit))

theorem ffmaSatF32 (d : Dst) (a b : Src) : Statement (.ffmaSatF32 d a b) := by
  intro h
  have f := Dst.fieldsR (op := 0x37) d a.code (by decide) a.code_lt b.code_lt
  refine readsAs_2 (f := fun a b => .ffmaSatF32 d a b) (fun lit => ?_) (fun _ _ => rfl) (wfR2_one h)
  exact (decodeWord_3 f.toOpOf rfl lit).trans (congrArg some (decR2_fields _ f h lit))

theorem faddF16x2 (d : Dst) (a b : Src) : Statement (.faddF16x2 d a b) := by
  intro h
  have f := Dst.fieldsR (op := 0x38) d a.code (by decide) a.code_lt b.code_lt
  refine readsAs_2 (f := fun a b => .faddF16x2 d a b) (fun lit => ?_) (fun _ _ => rfl) (wfR2_one h)
  exact (decodeWord_3 f.toOpOf rfl lit).trans (congrArg some (decR2_fields _ f h lit))

theorem fsubF16x2 (d : Dst) (a b : Src) : Statement (.fsubF16x2 d a b) := by
  intro h
  have f := Dst.fieldsR (op := 0x39) d a.code (by decide) a.code_lt b.code_lt
  refine readsAs_2 (f := fun a b => .fsubF16x2 d a b) (fun lit => ?_) (fun _ _ => rfl) (wfR2_one h)
  exact (decodeWord_3 f.toOpOf rfl lit).trans (congrArg some (decR2_fields _ f h lit))

theorem fmulF16x2 (d : Dst) (a b : Src) : Statement (.fmulF16x2 d a b) := by
  intro h
  have f := Dst.fieldsR (op := 0x3a) d a.code (by decide) a.code_lt b.code_lt
  refine readsAs_2 (f := fun a b => .fmulF16x2 d a b) (fun lit => ?_) (fun _ _ => rfl) (wfR2_one h)
  exact (decodeWord_3 f.toOpOf rfl lit).trans (congrArg some (decR2_fields _ f h lit))

theorem ffmaF16x2 (d : Dst) (a b : Src) : Statement (.ffmaF16x2 d a b) := by
  intro h
  have f := Dst.fieldsR (op := 0x3b) d a.code (by decide) a.code_lt b.code_lt
  refine readsAs_2 (f := fun a b => .ffmaF16x2 d a b) (fun lit => ?_) (fun _ _ => rfl) (wfR2_one h)
  exact (decodeWord_3 f.toOpOf rfl lit).trans (congrArg some (decR2_fields _ f h lit))

theorem faddBf16x2 (d : Dst) (a b : Src) : Statement (.faddBf16x2 d a b) := by
  intro h
  have f := Dst.fieldsR (op := 0x3c) d a.code (by decide) a.code_lt b.code_lt
  refine readsAs_2 (f := fun a b => .faddBf16x2 d a b) (fun lit => ?_) (fun _ _ => rfl) (wfR2_one h)
  exact (decodeWord_3 f.toOpOf rfl lit).trans (congrArg some (decR2_fields _ f h lit))

theorem fsubBf16x2 (d : Dst) (a b : Src) : Statement (.fsubBf16x2 d a b) := by
  intro h
  have f := Dst.fieldsR (op := 0x3d) d a.code (by decide) a.code_lt b.code_lt
  refine readsAs_2 (f := fun a b => .fsubBf16x2 d a b) (fun lit => ?_) (fun _ _ => rfl) (wfR2_one h)
  exact (decodeWord_3 f.toOpOf rfl lit).trans (congrArg some (decR2_fields _ f h lit))

theorem fmulBf16x2 (d : Dst) (a b : Src) : Statement (.fmulBf16x2 d a b) := by
  intro h
  have f := Dst.fieldsR (op := 0x3e) d a.code (by decide) a.code_lt b.code_lt
  refine readsAs_2 (f := fun a b => .fmulBf16x2 d a b) (fun lit => ?_) (fun _ _ => rfl) (wfR2_one h)
  exact (decodeWord_3 f.toOpOf rfl lit).trans (congrArg some (decR2_fields _ f h lit))

theorem ffmaBf16x2 (d : Dst) (a b : Src) : Statement (.ffmaBf16x2 d a b) := by
  intro h
  have f := Dst.fieldsR (op := 0x3f) d a.code (by decide) a.code_lt b.code_lt
  refine readsAs_2 (f := fun a b => .ffmaBf16x2 d a b) (fun lit => ?_) (fun _ _ => rfl) (wfR2_one h)
  exact (decodeWord_3 f.toOpOf rfl lit).trans (congrArg some (decR2_fields _ f h lit))

theorem fnegF32 (d : Dst) (a : Src) : Statement (.fnegF32 d a) := by
  intro h
  have f := Dst.fieldsR (op := 0x40) (s := 0) d a.code (by decide) a.code_lt (by decide)
  refine readsAs_1 (f := fun a => .fnegF32 d a) (fun lit => ?_) (fun _ => rfl)
  exact (decodeWord_4 f.toOpOf rfl lit).trans (congrArg some (decR1_fields _ f h (by simp) lit))

theorem fabsF32 (d : Dst) (a : Src) : Statement (.fabsF32 d a) := by
  intro h
  have f := Dst.fieldsR (op := 0x41) (s := 0) d a.code (by decide) a.code_lt (by decide)
  refine readsAs_1 (f := fun a => .fabsF32 d a) (fun lit => ?_) (fun _ => rfl)
  exact (decodeWord_4 f.toOpOf rfl lit).trans (congrArg some (decR1_fields _ f h (by simp) lit))

theorem fnegF64 (d : Dst) (a : Src) : Statement (.fnegF64 d a) := by
  intro h
  have f := Dst.fieldsR (op := 0x42) (s := 0) d a.code (by decide) a.code_lt (by decide)
  refine readsAs_1 (f := fun a => .fnegF64 d a) (fun lit => ?_) (fun _ => rfl)
  exact (decodeWord_4 f.toOpOf rfl lit).trans (congrArg some (decR1_fields _ f h (by simp) lit))

theorem fabsF64 (d : Dst) (a : Src) : Statement (.fabsF64 d a) := by
  intro h
  have f := Dst.fieldsR (op := 0x43) (s := 0) d a.code (by decide) a.code_lt (by decide)
  refine readsAs_1 (f := fun a => .fabsF64 d a) (fun lit => ?_) (fun _ => rfl)
  exact (decodeWord_4 f.toOpOf rfl lit).trans (congrArg some (decR1_fields _ f h (by simp) lit))

theorem fminF64 (d : Dst) (a b : Src) : Statement (.fminF64 d a b) := by
  intro h
  have f := Dst.fieldsR (op := 0x44) d a.code (by decide) a.code_lt b.code_lt
  refine readsAs_2 (f := fun a b => .fminF64 d a b) (fun lit => ?_) (fun _ _ => rfl) (wfR2_one h)
  exact (decodeWord_4 f.toOpOf rfl lit).trans (congrArg some (decR2_fields _ f h lit))

theorem fmaxF64 (d : Dst) (a b : Src) : Statement (.fmaxF64 d a b) := by
  intro h
  have f := Dst.fieldsR (op := 0x45) d a.code (by decide) a.code_lt b.code_lt
  refine readsAs_2 (f := fun a b => .fmaxF64 d a b) (fun lit => ?_) (fun _ _ => rfl) (wfR2_one h)
  exact (decodeWord_4 f.toOpOf rfl lit).trans (congrArg some (decR2_fields _ f h lit))

theorem fminnF64 (d : Dst) (a b : Src) : Statement (.fminnF64 d a b) := by
  intro h
  have f := Dst.fieldsR (op := 0x46) d a.code (by decide) a.code_lt b.code_lt
  refine readsAs_2 (f := fun a b => .fminnF64 d a b) (fun lit => ?_) (fun _ _ => rfl) (wfR2_one h)
  exact (decodeWord_4 f.toOpOf rfl lit).trans (congrArg some (decR2_fields _ f h lit))

theorem fmaxnF64 (d : Dst) (a b : Src) : Statement (.fmaxnF64 d a b) := by
  intro h
  have f := Dst.fieldsR (op := 0x47) d a.code (by decide) a.code_lt b.code_lt
  refine readsAs_2 (f := fun a b => .fmaxnF64 d a b) (fun lit => ?_) (fun _ _ => rfl) (wfR2_one h)
  exact (decodeWord_4 f.toOpOf rfl lit).trans (congrArg some (decR2_fields _ f h lit))

theorem fsetpF32 (c : Cond) (p : Fin 12) (a b : Src) : Statement (.fsetpF32 c p a b) := by
  intro h
  have f := fieldsR (op := 0x48) (by decide) (Nat.zero_lt_two) (show condCode c * 16 + p.val < 64 by have := condCode_lt c; omega) a.code_lt b.code_lt (Nat.zero_lt_two)
  refine readsAs_2 (f := fun a b => .fsetpF32 c p a b) (fun lit => ?_) (fun _ _ => rfl) (wfRp_one h)
  exact (decodeWord_4 f.toOpOf rfl lit).trans (congrArg some (decRp_fields _ f h lit))

theorem fsetpF64 (c : Cond) (p : Fin 12) (a b : Src) : Statement (.fsetpF64 c p a b) := by
  intro h
  have f := fieldsR (op := 0x49) (by decide) (Nat.zero_lt_two) (show condCode c * 16 + p.val < 64 by have := condCode_lt c; omega) a.code_lt b.code_lt (Nat.zero_lt_two)
  refine readsAs_2 (f := fun a b => .fsetpF64 c p a b) (fun lit => ?_) (fun _ _ => rfl) (wfRp_one h)
  exact (decodeWord_4 f.toOpOf rfl lit).trans (congrArg some (decRp_fields _ f h lit))

theorem fclassF32 (u : ClassUse) (p : Fin 12) (a : Src) (m : BitVec 7) : Statement (.fclassF32 u p a m) := by
  intro h
  have f := fieldsR (op := 0x4a) (by decide) (Nat.zero_lt_two) (show classUseCode u * 16 + p.val < 64 by have := classUseCode_lt u; omega) a.code_lt (show m.toNat < 256 by have := m.isLt; omega) (Nat.zero_lt_two)
  refine readsAs_1 (f := fun a => .fclassF32 u p a m) (fun lit => ?_) (fun _ => rfl)
  exact (decodeWord_4 f.toOpOf rfl lit).trans (congrArg some (decFclass_fields _ f h lit))

theorem fclassF64 (u : ClassUse) (p : Fin 12) (a : Src) (m : BitVec 7) : Statement (.fclassF64 u p a m) := by
  intro h
  have f := fieldsR (op := 0x4b) (by decide) (Nat.zero_lt_two) (show classUseCode u * 16 + p.val < 64 by have := classUseCode_lt u; omega) a.code_lt (show m.toNat < 256 by have := m.isLt; omega) (Nat.zero_lt_two)
  refine readsAs_1 (f := fun a => .fclassF64 u p a m) (fun lit => ?_) (fun _ => rfl)
  exact (decodeWord_4 f.toOpOf rfl lit).trans (congrArg some (decFclass_fields _ f h lit))

theorem fminF32 (d : Dst) (a b : Src) : Statement (.fminF32 d a b) := by
  intro h
  have f := Dst.fieldsR (op := 0x4c) d a.code (by decide) a.code_lt b.code_lt
  refine readsAs_2 (f := fun a b => .fminF32 d a b) (fun lit => ?_) (fun _ _ => rfl) (wfR2_one h)
  exact (decodeWord_4 f.toOpOf rfl lit).trans (congrArg some (decR2_fields _ f h lit))

theorem fmaxF32 (d : Dst) (a b : Src) : Statement (.fmaxF32 d a b) := by
  intro h
  have f := Dst.fieldsR (op := 0x4d) d a.code (by decide) a.code_lt b.code_lt
  refine readsAs_2 (f := fun a b => .fmaxF32 d a b) (fun lit => ?_) (fun _ _ => rfl) (wfR2_one h)
  exact (decodeWord_4 f.toOpOf rfl lit).trans (congrArg some (decR2_fields _ f h lit))

theorem fminnF32 (d : Dst) (a b : Src) : Statement (.fminnF32 d a b) := by
  intro h
  have f := Dst.fieldsR (op := 0x4e) d a.code (by decide) a.code_lt b.code_lt
  refine readsAs_2 (f := fun a b => .fminnF32 d a b) (fun lit => ?_) (fun _ _ => rfl) (wfR2_one h)
  exact (decodeWord_4 f.toOpOf rfl lit).trans (congrArg some (decR2_fields _ f h lit))

theorem fmaxnF32 (d : Dst) (a b : Src) : Statement (.fmaxnF32 d a b) := by
  intro h
  have f := Dst.fieldsR (op := 0x4f) d a.code (by decide) a.code_lt b.code_lt
  refine readsAs_2 (f := fun a b => .fmaxnF32 d a b) (fun lit => ?_) (fun _ _ => rfl) (wfR2_one h)
  exact (decodeWord_4 f.toOpOf rfl lit).trans (congrArg some (decR2_fields _ f h lit))

theorem cvtF32 (d : Dst) (a : Src) (s : CvtSrc) (rm : Round) (sat : Bool) : Statement (.cvtF32 d a s rm sat) := by
  intro h
  have f := Dst.fieldsR (op := 0x50) (s := cvtSel s rm sat false) d a.code (by decide) a.code_lt (cvtSel_lt s rm sat false)
  refine readsAs_1 (f := fun a => .cvtF32 d a s rm sat) (fun lit => ?_) (fun _ => rfl)
  exact (decodeWord_5 f.toOpOf rfl lit).trans (congrArg some (decCvt_fields (fun d a s rm sat _ => .cvtF32 d a s rm sat) f h (by simp) lit))

theorem cvtF64 (d : Dst) (a : Src) (s : CvtSrc) (rm : Round) (sat : Bool) : Statement (.cvtF64 d a s rm sat) := by
  intro h
  have f := Dst.fieldsR (op := 0x51) (s := cvtSel s rm sat false) d a.code (by decide) a.code_lt (cvtSel_lt s rm sat false)
  refine readsAs_1 (f := fun a => .cvtF64 d a s rm sat) (fun lit => ?_) (fun _ => rfl)
  exact (decodeWord_5 f.toOpOf rfl lit).trans (congrArg some (decCvt_fields (fun d a s rm sat _ => .cvtF64 d a s rm sat) f h (by simp) lit))

theorem cvtH16 (d : Dst) (a : Src) (s : CvtSrc) (rm : Round) (sat : Bool) (bf : Bool) : Statement (.cvtH16 d a s rm sat bf) := by
  intro h
  have f := Dst.fieldsR (op := 0x52) (s := cvtSel s rm sat bf) d a.code (by decide) a.code_lt (cvtSel_lt s rm sat bf)
  refine readsAs_1 (f := fun a => .cvtH16 d a s rm sat bf) (fun lit => ?_) (fun _ => rfl)
  exact (decodeWord_5 f.toOpOf rfl lit).trans (congrArg some (decCvt_fields _ f h (by simp) lit))

theorem cvtF8 (d : Dst) (a : Src) (s : CvtSrc) (rm : Round) (sat : Bool) (e5 : Bool) : Statement (.cvtF8 d a s rm sat e5) := by
  intro h
  have f := Dst.fieldsR (op := 0x53) (s := cvtSel s rm sat e5) d a.code (by decide) a.code_lt (cvtSel_lt s rm sat e5)
  refine readsAs_1 (f := fun a => .cvtF8 d a s rm sat e5) (fun lit => ?_) (fun _ => rfl)
  exact (decodeWord_5 f.toOpOf rfl lit).trans (congrArg some (decCvt_fields _ f h (by simp) lit))

theorem cvtI32 (d : Dst) (a : Src) (s : CvtSrc) (rm : Round) (sat : Bool) : Statement (.cvtI32 d a s rm sat) := by
  intro h
  have f := Dst.fieldsR (op := 0x54) (s := cvtSel s rm sat false) d a.code (by decide) a.code_lt (cvtSel_lt s rm sat false)
  refine readsAs_1 (f := fun a => .cvtI32 d a s rm sat) (fun lit => ?_) (fun _ => rfl)
  exact (decodeWord_5 f.toOpOf rfl lit).trans (congrArg some (decCvt_fields (fun d a s rm sat _ => .cvtI32 d a s rm sat) f h (by simp) lit))

theorem cvtN32 (d : Dst) (a : Src) (s : CvtSrc) (rm : Round) (sat : Bool) : Statement (.cvtN32 d a s rm sat) := by
  intro h
  have f := Dst.fieldsR (op := 0x55) (s := cvtSel s rm sat false) d a.code (by decide) a.code_lt (cvtSel_lt s rm sat false)
  refine readsAs_1 (f := fun a => .cvtN32 d a s rm sat) (fun lit => ?_) (fun _ => rfl)
  exact (decodeWord_5 f.toOpOf rfl lit).trans (congrArg some (decCvt_fields (fun d a s rm sat _ => .cvtN32 d a s rm sat) f h (by simp) lit))

theorem cvtI64 (d : Dst) (a : Src) (s : CvtSrc) (rm : Round) (sat : Bool) : Statement (.cvtI64 d a s rm sat) := by
  intro h
  have f := Dst.fieldsR (op := 0x56) (s := cvtSel s rm sat false) d a.code (by decide) a.code_lt (cvtSel_lt s rm sat false)
  refine readsAs_1 (f := fun a => .cvtI64 d a s rm sat) (fun lit => ?_) (fun _ => rfl)
  exact (decodeWord_5 f.toOpOf rfl lit).trans (congrArg some (decCvt_fields (fun d a s rm sat _ => .cvtI64 d a s rm sat) f h (by simp) lit))

theorem cvtN64 (d : Dst) (a : Src) (s : CvtSrc) (rm : Round) (sat : Bool) : Statement (.cvtN64 d a s rm sat) := by
  intro h
  have f := Dst.fieldsR (op := 0x57) (s := cvtSel s rm sat false) d a.code (by decide) a.code_lt (cvtSel_lt s rm sat false)
  refine readsAs_1 (f := fun a => .cvtN64 d a s rm sat) (fun lit => ?_) (fun _ => rfl)
  exact (decodeWord_5 f.toOpOf rfl lit).trans (congrArg some (decCvt_fields (fun d a s rm sat _ => .cvtN64 d a s rm sat) f h (by simp) lit))

theorem rcpF32 (d : Dst) (a : Src) : Statement (.rcpF32 d a) := by
  intro h
  have f := Dst.fieldsR (op := 0x58) (s := 0) d a.code (by decide) a.code_lt (by decide)
  refine readsAs_1 (f := fun a => .rcpF32 d a) (fun lit => ?_) (fun _ => rfl)
  simp only [decodeWord, f.hi, f.lo, laneOps5, selL58, f.fb]
  exact congrArg some (decR1_fields _ f h (by simp) lit)

theorem rsqF32 (d : Dst) (a : Src) : Statement (.rsqF32 d a) := by
  intro h
  have f := Dst.fieldsR (op := 0x58) (s := 1) d a.code (by decide) a.code_lt (by decide)
  refine readsAs_1 (f := fun a => .rsqF32 d a) (fun lit => ?_) (fun _ => rfl)
  simp only [decodeWord, f.hi, f.lo, laneOps5, selL58, f.fb]
  exact congrArg some (decR1_fields _ f h (by simp) lit)

theorem sqrtF32 (d : Dst) (a : Src) : Statement (.sqrtF32 d a) := by
  intro h
  have f := Dst.fieldsR (op := 0x58) (s := 2) d a.code (by decide) a.code_lt (by decide)
  refine readsAs_1 (f := fun a => .sqrtF32 d a) (fun lit => ?_) (fun _ => rfl)
  simp only [decodeWord, f.hi, f.lo, laneOps5, selL58, f.fb]
  exact congrArg some (decR1_fields _ f h (by simp) lit)

theorem exp2F32 (d : Dst) (a : Src) : Statement (.exp2F32 d a) := by
  intro h
  have f := Dst.fieldsR (op := 0x58) (s := 3) d a.code (by decide) a.code_lt (by decide)
  refine readsAs_1 (f := fun a => .exp2F32 d a) (fun lit => ?_) (fun _ => rfl)
  simp only [decodeWord, f.hi, f.lo, laneOps5, selL58, f.fb]
  exact congrArg some (decR1_fields _ f h (by simp) lit)

theorem log2F32 (d : Dst) (a : Src) : Statement (.log2F32 d a) := by
  intro h
  have f := Dst.fieldsR (op := 0x58) (s := 4) d a.code (by decide) a.code_lt (by decide)
  refine readsAs_1 (f := fun a => .log2F32 d a) (fun lit => ?_) (fun _ => rfl)
  simp only [decodeWord, f.hi, f.lo, laneOps5, selL58, f.fb]
  exact congrArg some (decR1_fields _ f h (by simp) lit)

theorem sinpiF32 (d : Dst) (a : Src) : Statement (.sinpiF32 d a) := by
  intro h
  have f := Dst.fieldsR (op := 0x58) (s := 5) d a.code (by decide) a.code_lt (by decide)
  refine readsAs_1 (f := fun a => .sinpiF32 d a) (fun lit => ?_) (fun _ => rfl)
  simp only [decodeWord, f.hi, f.lo, laneOps5, selL58, f.fb]
  exact congrArg some (decR1_fields _ f h (by simp) lit)

theorem cospiF32 (d : Dst) (a : Src) : Statement (.cospiF32 d a) := by
  intro h
  have f := Dst.fieldsR (op := 0x58) (s := 6) d a.code (by decide) a.code_lt (by decide)
  refine readsAs_1 (f := fun a => .cospiF32 d a) (fun lit => ?_) (fun _ => rfl)
  simp only [decodeWord, f.hi, f.lo, laneOps5, selL58, f.fb]
  exact congrArg some (decR1_fields _ f h (by simp) lit)

theorem tanhF32 (d : Dst) (a : Src) : Statement (.tanhF32 d a) := by
  intro h
  have f := Dst.fieldsR (op := 0x58) (s := 7) d a.code (by decide) a.code_lt (by decide)
  refine readsAs_1 (f := fun a => .tanhF32 d a) (fun lit => ?_) (fun _ => rfl)
  simp only [decodeWord, f.hi, f.lo, laneOps5, selL58, f.fb]
  exact congrArg some (decR1_fields _ f h (by simp) lit)

theorem divF32 (d : Dst) (a b : Src) : Statement (.divF32 d a b) := by
  intro h
  have f := Dst.fieldsR (op := 0x59) d a.code (by decide) a.code_lt b.code_lt
  refine readsAs_2 (f := fun a b => .divF32 d a b) (fun lit => ?_) (fun _ _ => rfl) (wfR2_one h)
  exact (decodeWord_5 f.toOpOf rfl lit).trans (congrArg some (decR2_fields _ f h lit))

theorem rcpF64 (d : Dst) (a : Src) : Statement (.rcpF64 d a) := by
  intro h
  have f := Dst.fieldsR (op := 0x5a) (s := 0) d a.code (by decide) a.code_lt (by decide)
  refine readsAs_1 (f := fun a => .rcpF64 d a) (fun lit => ?_) (fun _ => rfl)
  simp only [decodeWord, f.hi, f.lo, laneOps5, selL5A, f.fb]
  exact congrArg some (decR1_fields _ f h (by simp) lit)

theorem rsqF64 (d : Dst) (a : Src) : Statement (.rsqF64 d a) := by
  intro h
  have f := Dst.fieldsR (op := 0x5a) (s := 1) d a.code (by decide) a.code_lt (by decide)
  refine readsAs_1 (f := fun a => .rsqF64 d a) (fun lit => ?_) (fun _ => rfl)
  simp only [decodeWord, f.hi, f.lo, laneOps5, selL5A, f.fb]
  exact congrArg some (decR1_fields _ f h (by simp) lit)

theorem sqrtF64 (d : Dst) (a : Src) : Statement (.sqrtF64 d a) := by
  intro h
  have f := Dst.fieldsR (op := 0x5a) (s := 2) d a.code (by decide) a.code_lt (by decide)
  refine readsAs_1 (f := fun a => .sqrtF64 d a) (fun lit => ?_) (fun _ => rfl)
  simp only [decodeWord, f.hi, f.lo, laneOps5, selL5A, f.fb]
  exact congrArg some (decR1_fields _ f h (by simp) lit)

theorem exp2F64 (d : Dst) (a : Src) : Statement (.exp2F64 d a) := by
  intro h
  have f := Dst.fieldsR (op := 0x5a) (s := 3) d a.code (by decide) a.code_lt (by decide)
  refine readsAs_1 (f := fun a => .exp2F64 d a) (fun lit => ?_) (fun _ => rfl)
  simp only [decodeWord, f.hi, f.lo, laneOps5, selL5A, f.fb]
  exact congrArg some (decR1_fields _ f h (by simp) lit)

theorem log2F64 (d : Dst) (a : Src) : Statement (.log2F64 d a) := by
  intro h
  have f := Dst.fieldsR (op := 0x5a) (s := 4) d a.code (by decide) a.code_lt (by decide)
  refine readsAs_1 (f := fun a => .log2F64 d a) (fun lit => ?_) (fun _ => rfl)
  simp only [decodeWord, f.hi, f.lo, laneOps5, selL5A, f.fb]
  exact congrArg some (decR1_fields _ f h (by simp) lit)

theorem sinpiF64 (d : Dst) (a : Src) : Statement (.sinpiF64 d a) := by
  intro h
  have f := Dst.fieldsR (op := 0x5a) (s := 5) d a.code (by decide) a.code_lt (by decide)
  refine readsAs_1 (f := fun a => .sinpiF64 d a) (fun lit => ?_) (fun _ => rfl)
  simp only [decodeWord, f.hi, f.lo, laneOps5, selL5A, f.fb]
  exact congrArg some (decR1_fields _ f h (by simp) lit)

theorem cospiF64 (d : Dst) (a : Src) : Statement (.cospiF64 d a) := by
  intro h
  have f := Dst.fieldsR (op := 0x5a) (s := 6) d a.code (by decide) a.code_lt (by decide)
  refine readsAs_1 (f := fun a => .cospiF64 d a) (fun lit => ?_) (fun _ => rfl)
  simp only [decodeWord, f.hi, f.lo, laneOps5, selL5A, f.fb]
  exact congrArg some (decR1_fields _ f h (by simp) lit)

theorem tanhF64 (d : Dst) (a : Src) : Statement (.tanhF64 d a) := by
  intro h
  have f := Dst.fieldsR (op := 0x5a) (s := 7) d a.code (by decide) a.code_lt (by decide)
  refine readsAs_1 (f := fun a => .tanhF64 d a) (fun lit => ?_) (fun _ => rfl)
  simp only [decodeWord, f.hi, f.lo, laneOps5, selL5A, f.fb]
  exact congrArg some (decR1_fields _ f h (by simp) lit)

theorem divF64 (d : Dst) (a b : Src) : Statement (.divF64 d a b) := by
  intro h
  have f := Dst.fieldsR (op := 0x5b) d a.code (by decide) a.code_lt b.code_lt
  refine readsAs_2 (f := fun a b => .divF64 d a b) (fun lit => ?_) (fun _ _ => rfl) (wfR2_one h)
  exact (decodeWord_5 f.toOpOf rfl lit).trans (congrArg some (decR2_fields _ f h lit))

theorem rand (d : Dst) (a : Src) : Statement (.rand d a) := by
  intro h
  have f := Dst.fieldsR (op := 0x5c) (s := 0) d a.code (by decide) a.code_lt (by decide)
  refine readsAs_1 (f := fun a => .rand d a) (fun lit => ?_) (fun _ => rfl)
  exact (decodeWord_5 f.toOpOf rfl lit).trans (congrArg some (decR1_fields _ f h (by simp) lit))

theorem ffmaF32x2 (d : Dst) (a b : Src) : Statement (.ffmaF32x2 d a b) := by
  intro h
  have f := Dst.fieldsR (op := 0x5d) d a.code (by decide) a.code_lt b.code_lt
  refine readsAs_2 (f := fun a b => .ffmaF32x2 d a b) (fun lit => ?_) (fun _ _ => rfl) (wfR2_one h)
  exact (decodeWord_5 f.toOpOf rfl lit).trans (congrArg some (decR2_fields _ f h lit))

theorem shfl (d : Dst) (a b : Src) : Statement (.shfl d a b) := by
  intro h
  have f := Dst.fieldsR (op := 0x60) d a.code (by decide) a.code_lt b.code_lt
  refine readsAs_2 (f := fun a b => .shfl d a b) (fun lit => ?_) (fun _ _ => rfl) (wfR2_one h)
  exact (decodeWord_6 f.toOpOf rfl lit).trans (congrArg some (decR2_fields _ f h lit))

theorem censusMask (d : Dst) (p : PredSel) : Statement (.censusMask d p) := by
  intro h
  have f := Dst.fieldsR (op := 0x61) (s := 0) d (predCode p) (by decide) (by have := predCode_le p; omega) (by decide)
  refine readsAs_0 (fun lit => ?_) rfl
  simp only [decodeWord, f.hi, f.lo, laneOps6, selL61, f.fb]
  exact congrArg some (decCensus_fields _ f h)

theorem censusCount (d : Dst) (p : PredSel) : Statement (.censusCount d p) := by
  intro h
  have f := Dst.fieldsR (op := 0x61) (s := 1) d (predCode p) (by decide) (by have := predCode_le p; omega) (by decide)
  refine readsAs_0 (fun lit => ?_) rfl
  simp only [decodeWord, f.hi, f.lo, laneOps6, selL61, f.fb]
  exact congrArg some (decCensus_fields _ f h)

theorem censusAgree (d : Dst) (p : PredSel) : Statement (.censusAgree d p) := by
  intro h
  have f := Dst.fieldsR (op := 0x61) (s := 2) d (predCode p) (by decide) (by have := predCode_le p; omega) (by decide)
  refine readsAs_0 (fun lit => ?_) rfl
  simp only [decodeWord, f.hi, f.lo, laneOps6, selL61, f.fb]
  exact congrArg some (decCensus_fields _ f h)

theorem censusFirst (d : Dst) (p : PredSel) : Statement (.censusFirst d p) := by
  intro h
  have f := Dst.fieldsR (op := 0x61) (s := 3) d (predCode p) (by decide) (by have := predCode_le p; omega) (by decide)
  refine readsAs_0 (fun lit => ?_) rfl
  simp only [decodeWord, f.hi, f.lo, laneOps6, selL61, f.fb]
  exact congrArg some (decCensus_fields _ f h)

theorem censusLast (d : Dst) (p : PredSel) : Statement (.censusLast d p) := by
  intro h
  have f := Dst.fieldsR (op := 0x61) (s := 4) d (predCode p) (by decide) (by have := predCode_le p; omega) (by decide)
  refine readsAs_0 (fun lit => ?_) rfl
  simp only [decodeWord, f.hi, f.lo, laneOps6, selL61, f.fb]
  exact congrArg some (decCensus_fields _ f h)

theorem censusRank (d : Dst) (p : PredSel) : Statement (.censusRank d p) := by
  intro h
  have f := Dst.fieldsR (op := 0x61) (s := 5) d (predCode p) (by decide) (by have := predCode_le p; omega) (by decide)
  refine readsAs_0 (fun lit => ?_) rfl
  simp only [decodeWord, f.hi, f.lo, laneOps6, selL61, f.fb]
  exact congrArg some (decCensus_fields _ f h)

theorem matchKeys (d : Dst) (a b : Src) : Statement (.matchKeys d a b) := by
  intro h
  have f := Dst.fieldsR (op := 0x62) d a.code (by decide) a.code_lt b.code_lt
  refine readsAs_2 (f := fun a b => .matchKeys d a b) (fun lit => ?_) (fun _ _ => rfl) (wfR2_one h)
  exact (decodeWord_6 f.toOpOf rfl lit).trans (congrArg some (decR2_fields _ f h lit))

theorem red (d : Dst) (a : Src) (k : RedKind) : Statement (.red d a k) := by
  intro h
  have f := Dst.fieldsR (op := 0x63) (s := redKindCode k) d a.code (by decide) a.code_lt (by have := redKindCode_lt k; omega)
  refine readsAs_1 (f := fun a => .red d a k) (fun lit => ?_) (fun _ => rfl)
  exact (decodeWord_6 f.toOpOf rfl lit).trans (congrArg some (selRed_fields f h lit))

theorem scan (d : Dst) (a : Src) (k : RedKind) (ex : Bool) : Statement (.scan d a k ex) := by
  intro h
  have f := Dst.fieldsR (op := 0x64) (s := redKindCode k + 128 * ex.toNat) d a.code (by decide) a.code_lt (by have := redKindCode_lt k; have := Bool.toNat_lt ex; omega)
  refine readsAs_1 (f := fun a => .scan d a k ex) (fun lit => ?_) (fun _ => rfl)
  exact (decodeWord_6 f.toOpOf rfl lit).trans (congrArg some (selScan_fields f h lit))

theorem maxiF32 (d : Dst) (a : Src) : Statement (.maxiF32 d a) := by
  intro h
  have f := Dst.fieldsR (op := 0x65) (s := 0) d a.code (by decide) a.code_lt (by decide)
  refine readsAs_1 (f := fun a => .maxiF32 d a) (fun lit => ?_) (fun _ => rfl)
  simp only [decodeWord, f.hi, f.lo, laneOps6, selL65, f.fb]
  exact congrArg some (decR1_fields _ f h (by simp) lit)

theorem miniF32 (d : Dst) (a : Src) : Statement (.miniF32 d a) := by
  intro h
  have f := Dst.fieldsR (op := 0x65) (s := 1) d a.code (by decide) a.code_lt (by decide)
  refine readsAs_1 (f := fun a => .miniF32 d a) (fun lit => ?_) (fun _ => rfl)
  simp only [decodeWord, f.hi, f.lo, laneOps6, selL65, f.fb]
  exact congrArg some (decR1_fields _ f h (by simp) lit)

theorem maxiF16 (d : Dst) (a : Src) : Statement (.maxiF16 d a) := by
  intro h
  have f := Dst.fieldsR (op := 0x65) (s := 2) d a.code (by decide) a.code_lt (by decide)
  refine readsAs_1 (f := fun a => .maxiF16 d a) (fun lit => ?_) (fun _ => rfl)
  simp only [decodeWord, f.hi, f.lo, laneOps6, selL65, f.fb]
  exact congrArg some (decR1_fields _ f h (by simp) lit)

theorem miniF16 (d : Dst) (a : Src) : Statement (.miniF16 d a) := by
  intro h
  have f := Dst.fieldsR (op := 0x65) (s := 3) d a.code (by decide) a.code_lt (by decide)
  refine readsAs_1 (f := fun a => .miniF16 d a) (fun lit => ?_) (fun _ => rfl)
  simp only [decodeWord, f.hi, f.lo, laneOps6, selL65, f.fb]
  exact congrArg some (decR1_fields _ f h (by simp) lit)

theorem maxiBf16 (d : Dst) (a : Src) : Statement (.maxiBf16 d a) := by
  intro h
  have f := Dst.fieldsR (op := 0x65) (s := 4) d a.code (by decide) a.code_lt (by decide)
  refine readsAs_1 (f := fun a => .maxiBf16 d a) (fun lit => ?_) (fun _ => rfl)
  simp only [decodeWord, f.hi, f.lo, laneOps6, selL65, f.fb]
  exact congrArg some (decR1_fields _ f h (by simp) lit)

theorem miniBf16 (d : Dst) (a : Src) : Statement (.miniBf16 d a) := by
  intro h
  have f := Dst.fieldsR (op := 0x65) (s := 5) d a.code (by decide) a.code_lt (by decide)
  refine readsAs_1 (f := fun a => .miniBf16 d a) (fun lit => ?_) (fun _ => rfl)
  simp only [decodeWord, f.hi, f.lo, laneOps6, selL65, f.fb]
  exact congrArg some (decR1_fields _ f h (by simp) lit)

theorem maxiI32 (d : Dst) (a : Src) : Statement (.maxiI32 d a) := by
  intro h
  have f := Dst.fieldsR (op := 0x65) (s := 6) d a.code (by decide) a.code_lt (by decide)
  refine readsAs_1 (f := fun a => .maxiI32 d a) (fun lit => ?_) (fun _ => rfl)
  simp only [decodeWord, f.hi, f.lo, laneOps6, selL65, f.fb]
  exact congrArg some (decR1_fields _ f h (by simp) lit)

theorem miniI32 (d : Dst) (a : Src) : Statement (.miniI32 d a) := by
  intro h
  have f := Dst.fieldsR (op := 0x65) (s := 7) d a.code (by decide) a.code_lt (by decide)
  refine readsAs_1 (f := fun a => .miniI32 d a) (fun lit => ?_) (fun _ => rfl)
  simp only [decodeWord, f.hi, f.lo, laneOps6, selL65, f.fb]
  exact congrArg some (decR1_fields _ f h (by simp) lit)

theorem maxiN32 (d : Dst) (a : Src) : Statement (.maxiN32 d a) := by
  intro h
  have f := Dst.fieldsR (op := 0x65) (s := 8) d a.code (by decide) a.code_lt (by decide)
  refine readsAs_1 (f := fun a => .maxiN32 d a) (fun lit => ?_) (fun _ => rfl)
  simp only [decodeWord, f.hi, f.lo, laneOps6, selL65, f.fb]
  exact congrArg some (decR1_fields _ f h (by simp) lit)

theorem miniN32 (d : Dst) (a : Src) : Statement (.miniN32 d a) := by
  intro h
  have f := Dst.fieldsR (op := 0x65) (s := 9) d a.code (by decide) a.code_lt (by decide)
  refine readsAs_1 (f := fun a => .miniN32 d a) (fun lit => ?_) (fun _ => rfl)
  simp only [decodeWord, f.hi, f.lo, laneOps6, selL65, f.fb]
  exact congrArg some (decR1_fields _ f h (by simp) lit)

theorem selk (d : Dst) (a b : Src) : Statement (.selk d a b) := by
  intro h
  have f := Dst.fieldsR (op := 0x66) d a.code (by decide) a.code_lt b.code_lt
  refine readsAs_2 (f := fun a b => .selk d a b) (fun lit => ?_) (fun _ _ => rfl) (wfR2_one h)
  exact (decodeWord_6 f.toOpOf rfl lit).trans (congrArg some (decR2_fields _ f h lit))

theorem isect (d : Dst) (a b : Src) : Statement (.isect d a b) := by
  intro h
  have f := Dst.fieldsR (op := 0x67) d a.code (by decide) a.code_lt b.code_lt
  refine readsAs_2 (f := fun a b => .isect d a b) (fun lit => ?_) (fun _ _ => rfl) (wfR2_one h)
  exact (decodeWord_6 f.toOpOf rfl lit).trans (congrArg some (decR2_fields _ f h lit))

theorem mma (t : Fin 16) (f : MFmt) (a b : Fin 64) (la lb : Bool) : Statement (.mma t f a b la lb) := by
  intro h
  have h1 := mfmtCode_lt f
  have h2 := Bool.toNat_lt la
  have h3 := Bool.toNat_lt lb
  have g := fieldsR (op := 0x68) (n := 0) (d := lb.toNat * 32 + la.toNat * 16 + t.val) (a := mfmtCode f / 4 * 64 + a.val) (b := mfmtCode f % 4 * 64 + b.val) (l := 0) (by decide) (by decide) (by omega) (by omega) (by omega) (by decide)
  refine readsAs_0 (fun lit => ?_) rfl
  exact (decodeWord_6 g.toOpOf rfl lit).trans (congrArg some (decMma_fields _ g h))

theorem mmaSp (t : Fin 16) (f : MFmt) (a b : Fin 64) (la lb : Bool) : Statement (.mmaSp t f a b la lb) := by
  intro h
  have h1 := mfmtCode_lt f
  have h2 := Bool.toNat_lt la
  have h3 := Bool.toNat_lt lb
  have g := fieldsR (op := 0x69) (n := 0) (d := lb.toNat * 32 + la.toNat * 16 + t.val) (a := mfmtCode f / 4 * 64 + a.val) (b := mfmtCode f % 4 * 64 + b.val) (l := 0) (by decide) (by decide) (by omega) (by omega) (by omega) (by decide)
  refine readsAs_0 (fun lit => ?_) rfl
  exact (decodeWord_6 g.toOpOf rfl lit).trans (congrArg some (decMma_fields _ g h))

theorem tileAlloc (a : Src) : Statement (.tileAlloc a) := by
  intro h
  have f := fieldsR (op := 0x6a) (n := 0) (d := 0) (b := 0) (l := 0) (by decide) (by decide) (by decide) a.code_lt (by decide) (by decide)
  refine readsAs_1 (f := fun a => .tileAlloc a) (fun lit => ?_) (fun _ => rfl)
  exact (decodeWord_6 f.toOpOf rfl lit).trans (congrArg some (decA_fields _ f h (by simp) lit))

theorem tileFree  : Statement (.tileFree) := by
  intro h
  have f := fieldsR (op := 0x6b) (n := 0) (d := 0) (a := 0) (b := 0) (l := 0) (by decide) (by decide) (by decide) (by decide) (by decide) (by decide)
  refine readsAs_0 (fun lit => ?_) rfl
  exact (decodeWord_6 f.toOpOf rfl lit).trans (congrArg some (decZ_fields _ f (by simp)))

theorem tileZero (t : Fin 16) : Statement (.tileZero t) := by
  intro h
  have f := fieldsR (op := 0x6c) (n := 0) (d := t.val) (a := 0) (b := 0) (l := 0) (by decide) (by decide) (by omega) (by decide) (by decide) (by decide)
  refine readsAs_0 (fun lit => ?_) rfl
  exact (decodeWord_6 f.toOpOf rfl lit).trans (congrArg some (decTzero_fields _ f))

theorem tileFill (k : FillKind) (t : Fin 16) (base : Fin 64) (last : Bool) (col : Src) : Statement (.tileFill k t base last col) := by
  intro h
  have h1 := fillKindCode_lt k
  have h2 := Bool.toNat_lt last
  have f := fieldsR (op := 0x6d) (n := 0) (d := fillKindCode k * 16 + t.val) (a := last.toNat * 64 + base.val) (l := 0) (by decide) (by decide) (by omega) (by omega) col.code_lt (by decide)
  refine readsAs_1 (f := fun a => .tileFill k t base last a) (fun lit => ?_) (fun _ => rfl)
  exact (decodeWord_6 f.toOpOf rfl lit).trans (congrArg some (decTfill_fields _ f h lit))

theorem tileDrainF64 (t : Fin 16) (base : Fin 64) (col : Src) : Statement (.tileDrainF64 t base col) := by
  intro h
  have f := fieldsR (op := 0x6e) (n := 0) (d := base.val) (b := 0 * 16 + t.val) (l := 0) (by decide) (by decide) (by omega) col.code_lt (by omega) (by decide)
  refine readsAs_1 (f := fun a => .tileDrainF64 t base a) (fun lit => ?_) (fun _ => rfl)
  simp only [decodeWord, f.hi, f.lo, laneOps6, selL6E, f.fb, show (0 * 16 + t.val) / 16 = 0 by omega]
  exact congrArg some (decTdrain_fields _ f h lit)

theorem tileDrainF32 (t : Fin 16) (base : Fin 64) (col : Src) : Statement (.tileDrainF32 t base col) := by
  intro h
  have f := fieldsR (op := 0x6e) (n := 0) (d := base.val) (b := 1 * 16 + t.val) (l := 0) (by decide) (by decide) (by omega) col.code_lt (by omega) (by decide)
  refine readsAs_1 (f := fun a => .tileDrainF32 t base a) (fun lit => ?_) (fun _ => rfl)
  simp only [decodeWord, f.hi, f.lo, laneOps6, selL6E, f.fb, show (1 * 16 + t.val) / 16 = 1 by omega]
  exact congrArg some (decTdrain_fields _ f h lit)

theorem tileDrainBf16 (t : Fin 16) (base : Fin 64) (col : Src) : Statement (.tileDrainBf16 t base col) := by
  intro h
  have f := fieldsR (op := 0x6e) (n := 0) (d := base.val) (b := 2 * 16 + t.val) (l := 0) (by decide) (by decide) (by omega) col.code_lt (by omega) (by decide)
  refine readsAs_1 (f := fun a => .tileDrainBf16 t base a) (fun lit => ?_) (fun _ => rfl)
  simp only [decodeWord, f.hi, f.lo, laneOps6, selL6E, f.fb, show (2 * 16 + t.val) / 16 = 2 by omega]
  exact congrArg some (decTdrain_fields _ f h lit)

theorem tileQdrainMxf8 (t : Fin 16) (base scale : Fin 64) : Statement (.tileQdrainMxf8 t base scale) := by
  intro h
  have f := fieldsR (op := 0x6f) (n := 0) (d := base.val) (a := scale.val) (b := 0 * 16 + t.val) (l := 0) (by decide) (by decide) (by omega) (by omega) (by omega) (by decide)
  refine readsAs_0 (fun lit => ?_) rfl
  simp only [decodeWord, f.hi, f.lo, laneOps6, selL6F, f.fb, show (0 * 16 + t.val) / 16 = 0 by omega]
  exact congrArg some (decTqdrain_fields _ f h)

theorem tileQdrainMxf6 (t : Fin 16) (base scale : Fin 64) : Statement (.tileQdrainMxf6 t base scale) := by
  intro h
  have f := fieldsR (op := 0x6f) (n := 0) (d := base.val) (a := scale.val) (b := 1 * 16 + t.val) (l := 0) (by decide) (by decide) (by omega) (by omega) (by omega) (by decide)
  refine readsAs_0 (fun lit => ?_) rfl
  simp only [decodeWord, f.hi, f.lo, laneOps6, selL6F, f.fb, show (1 * 16 + t.val) / 16 = 1 by omega]
  exact congrArg some (decTqdrain_fields _ f h)

theorem tileQdrainMxf4 (t : Fin 16) (base scale : Fin 64) : Statement (.tileQdrainMxf4 t base scale) := by
  intro h
  have f := fieldsR (op := 0x6f) (n := 0) (d := base.val) (a := scale.val) (b := 2 * 16 + t.val) (l := 0) (by decide) (by decide) (by omega) (by omega) (by omega) (by decide)
  refine readsAs_0 (fun lit => ?_) rfl
  simp only [decodeWord, f.hi, f.lo, laneOps6, selL6F, f.fb, show (2 * 16 + t.val) / 16 = 2 by omega]
  exact congrArg some (decTqdrain_fields _ f h)

theorem tileQdrainMxi8 (t : Fin 16) (base scale : Fin 64) : Statement (.tileQdrainMxi8 t base scale) := by
  intro h
  have f := fieldsR (op := 0x6f) (n := 0) (d := base.val) (a := scale.val) (b := 3 * 16 + t.val) (l := 0) (by decide) (by decide) (by omega) (by omega) (by omega) (by decide)
  refine readsAs_0 (fun lit => ?_) rfl
  simp only [decodeWord, f.hi, f.lo, laneOps6, selL6F, f.fb, show (3 * 16 + t.val) / 16 = 3 by omega]
  exact congrArg some (decTqdrain_fields _ f h)

theorem ld (k : LdKind) (d : Fin 64) (a : Src) (off : BitVec 6) : Statement (.ld k d a off) := by
  intro h
  have f := fieldsM (op := 0x70) (f := ldKindCode k) (d := d.val) (o := off.toNat) (by decide) (by have := ldKindCode_lt k; omega) (by omega) a.code_lt off.isLt
  refine readsAs_1 (f := fun a => .ld k d a off) (fun lit => ?_) (fun _ => rfl)
  exact (decodeWord_7 f.toOpOf rfl lit).trans (congrArg some (decLd_plain f h lit))

theorem ldOrdered (o : OrdAcc) (d : Fin 64) (a : Src) : Statement (.ldOrdered o d a) := by
  intro h
  have f := fieldsM (op := 0x70) (f := o.code) (d := d.val) (o := o.off .acq) (by decide) o.code_lt (by omega) a.code_lt (o.off_lt _)
  refine readsAs_1 (f := fun a => .ldOrdered o d a) (fun lit => ?_) (fun _ => rfl)
  exact (decodeWord_7 f.toOpOf rfl lit).trans (congrArg some (decLd_ordered f h lit))

theorem st (k : StKind) (d : Fin 64) (a : Src) (off : BitVec 6) : Statement (.st k d a off) := by
  intro h
  have f := fieldsM (op := 0x71) (f := stKindCode k) (d := d.val) (o := off.toNat) (by decide) (by have := stKindCode_lt k; omega) (by omega) a.code_lt off.isLt
  refine readsAs_1 (f := fun a => .st k d a off) (fun lit => ?_) (fun _ => rfl)
  exact (decodeWord_7 f.toOpOf rfl lit).trans (congrArg some (decSt_plain f h lit))

theorem stOrdered (o : OrdAcc) (d : Fin 64) (a : Src) : Statement (.stOrdered o d a) := by
  intro h
  have f := fieldsM (op := 0x71) (f := o.code) (d := d.val) (o := o.off .rel) (by decide) o.code_lt (by omega) a.code_lt (o.off_lt _)
  refine readsAs_1 (f := fun a => .stOrdered o d a) (fun lit => ?_) (fun _ => rfl)
  exact (decodeWord_7 f.toOpOf rfl lit).trans (congrArg some (decSt_ordered f h lit))

theorem ldx (l : XLevel) (w : XWidth) (d : Fin 64) (a : Src) (off : BitVec 6) : Statement (.ldx l w d a off) := by
  intro h
  have f := fieldsM (op := 0x72) (f := xlevelCode l * 4 + xwidthCode w) (d := d.val) (o := off.toNat) (by decide) (by have := xlevelCode_lt l; have := xwidthCode_lt w; omega) (by omega) a.code_lt off.isLt
  refine readsAs_1 (f := fun a => .ldx l w d a off) (fun lit => ?_) (fun _ => rfl)
  exact (decodeWord_7 f.toOpOf rfl lit).trans (congrArg some (decX_fields _ f h lit))

theorem stx (l : XLevel) (w : XWidth) (d : Fin 64) (a : Src) (off : BitVec 6) : Statement (.stx l w d a off) := by
  intro h
  have f := fieldsM (op := 0x73) (f := xlevelCode l * 4 + xwidthCode w) (d := d.val) (o := off.toNat) (by decide) (by have := xlevelCode_lt l; have := xwidthCode_lt w; omega) (by omega) a.code_lt off.isLt
  refine readsAs_1 (f := fun a => .stx l w d a off) (fun lit => ?_) (fun _ => rfl)
  exact (decodeWord_7 f.toOpOf rfl lit).trans (congrArg some (decX_fields _ f h lit))

theorem atom (op : AtomOp) (pl : AtomPlace) (d : Fin 64) (a : Src) : Statement (.atom op pl d a) := by
  intro h
  have f := fieldsM (op := 0x74) (f := atomOpCode op) (d := d.val) (o := pl.code) (by decide) (atomOpCode_lt op) (by omega) a.code_lt pl.code_lt
  refine readsAs_1 (f := fun a => .atom op pl d a) (fun lit => ?_) (fun _ => rfl)
  exact (decodeWord_7 f.toOpOf rfl lit).trans (congrArg some (decAtom_fields _ f h rfl lit))

theorem sts (k : StKind) (d : Fin 64) (a : Src) (s : Fin 64) : Statement (.sts k d a s) := by
  intro h
  have f := fieldsM (op := 0x75) (f := stKindCode k) (d := d.val) (o := s.val) (by decide) (by have := stKindCode_lt k; omega) (by omega) a.code_lt s.isLt
  refine readsAs_1 (f := fun a => .sts k d a s) (fun lit => ?_) (fun _ => rfl)
  exact (decodeWord_7 f.toOpOf rfl lit).trans (congrArg some (decSts_fields _ f h lit))

theorem lda (w64 : Bool) (d : Fin 64) (a : Src) (t : Fin 64) : Statement (.lda w64 d a t) := by
  intro h
  have f := fieldsM (op := 0x76) (f := 4 + w64.toNat) (d := d.val) (o := t.val) (by decide) (by have := Bool.toNat_lt w64; omega) (by omega) a.code_lt t.isLt
  refine readsAs_1 (f := fun a => .lda w64 d a t) (fun lit => ?_) (fun _ => rfl)
  exact (decodeWord_7 f.toOpOf rfl lit).trans (congrArg some (decLda_fields _ f h lit))

theorem fetch (f : MFmt) (d : Fin 64) (a : Src) (c : Fin 32) : Statement (.fetch f d a c) := by
  intro h
  have g := fieldsM (op := 0x77) (f := mfmtCode f) (d := d.val) (o := c.val * 2 + 0) (by decide) (by have := mfmtCode_lt f; omega) (by omega) a.code_lt (by omega)
  refine readsAs_1 (f := fun a => .fetch f d a c) (fun lit => ?_) (fun _ => rfl)
  exact (decodeWord_7 g.toOpOf rfl lit).trans (congrArg some (decFetch_fetch g h lit))

theorem gather (f : MFmt) (d : Fin 64) (a : Src) (c : Fin 32) : Statement (.gather f d a c) := by
  intro h
  have g := fieldsM (op := 0x77) (f := mfmtCode f) (d := d.val) (o := c.val * 2 + 1) (by decide) (by have := mfmtCode_lt f; omega) (by omega) a.code_lt (by omega)
  refine readsAs_1 (f := fun a => .gather f d a c) (fun lit => ?_) (fun _ => rfl)
  exact (decodeWord_7 g.toOpOf rfl lit).trans (congrArg some (decFetch_gather g h lit))

theorem br (p : PredSel) (neg : Bool) (off : BitVec 19) : Statement (.br p neg off) := by
  intro h
  have f := fieldsB (op := 0x78) (p := predCode p) (g := neg.toNat) (o := off.toNat) (by decide) (by have := predCode_le p; omega) (Bool.toNat_lt neg) off.isLt
  refine readsAs_0 (fun lit => ?_) rfl
  exact (decodeWord_7 f.toOpOf rfl lit).trans (congrArg some (decB_fields _ f))

theorem call (p : PredSel) (neg : Bool) (off : BitVec 19) : Statement (.call p neg off) := by
  intro h
  have f := fieldsB (op := 0x79) (p := predCode p) (g := neg.toNat) (o := off.toNat) (by decide) (by have := predCode_le p; omega) (Bool.toNat_lt neg) off.isLt
  refine readsAs_0 (fun lit => ?_) rfl
  exact (decodeWord_7 f.toOpOf rfl lit).trans (congrArg some (decB_fields _ f))

theorem icall (a : Src) : Statement (.icall a) := by
  intro h
  have f := fieldsR (op := 0x7a) (n := 0) (d := 0) (b := 0) (l := 0) (by decide) (by decide) (by decide) a.code_lt (by decide) (by decide)
  refine readsAs_1 (f := fun a => .icall a) (fun lit => ?_) (fun _ => rfl)
  simp only [decodeWord, f.hi, f.lo, laneOps7, selL7A, f.fb]
  exact congrArg some (decA_fields _ f h (by simp) lit)

theorem ret  : Statement (.ret) := by
  intro h
  have f := fieldsR (op := 0x7a) (n := 0) (d := 0) (a := 0) (b := 1) (l := 0) (by decide) (by decide) (by decide) (by decide) (by decide) (by decide)
  refine readsAs_0 (fun lit => ?_) rfl
  simp only [decodeWord, f.hi, f.lo, laneOps7, selL7A, f.fb]
  exact congrArg some (decZ_fields _ f (by simp))

theorem join  : Statement (.join) := by
  intro h
  have f := fieldsR (op := 0x7a) (n := 0) (d := 0) (a := 0) (b := 2) (l := 0) (by decide) (by decide) (by decide) (by decide) (by decide) (by decide)
  refine readsAs_0 (fun lit => ?_) rfl
  simp only [decodeWord, f.hi, f.lo, laneOps7, selL7A, f.fb]
  exact congrArg some (decZ_fields _ f (by simp))

theorem conv  : Statement (.conv) := by
  intro h
  have f := fieldsR (op := 0x7a) (n := 0) (d := 0) (a := 0) (b := 3) (l := 0) (by decide) (by decide) (by decide) (by decide) (by decide) (by decide)
  refine readsAs_0 (fun lit => ?_) rfl
  simp only [decodeWord, f.hi, f.lo, laneOps7, selL7A, f.fb]
  exact congrArg some (decZ_fields _ f (by simp))

theorem emitB32 (a : Src) : Statement (.emitB32 a) := by
  intro h
  have f := fieldsR (op := 0x7a) (n := 0) (d := 0) (b := 4) (l := 0) (by decide) (by decide) (by decide) a.code_lt (by decide) (by decide)
  refine readsAs_1 (f := fun a => .emitB32 a) (fun lit => ?_) (fun _ => rfl)
  simp only [decodeWord, f.hi, f.lo, laneOps7, selL7A, f.fb]
  exact congrArg some (decA_fields _ f h (by simp) lit)

theorem emitB64 (a : Src) : Statement (.emitB64 a) := by
  intro h
  have f := fieldsR (op := 0x7a) (n := 0) (d := 0) (b := 5) (l := 0) (by decide) (by decide) (by decide) a.code_lt (by decide) (by decide)
  refine readsAs_1 (f := fun a => .emitB64 a) (fun lit => ?_) (fun _ => rfl)
  simp only [decodeWord, f.hi, f.lo, laneOps7, selL7A, f.fb]
  exact congrArg some (decA_fields _ f h (by simp) lit)

theorem fork (d : Fin 64) (a : Src) : Statement (.fork d a) := by
  intro h
  have f := fieldsR (op := 0x7b) (n := 0) (d := d.val) (b := 0) (l := 0) (by decide) (by decide) d.isLt a.code_lt (by decide) (by decide)
  refine readsAs_1 (f := fun a => .fork d a) (fun lit => ?_) (fun _ => rfl)
  exact (decodeWord_7 f.toOpOf rfl lit).trans (congrArg some (decDA_fields _ f (by simp only [wfDA, Nat.mod_one, beq_self_eq_true, Bool.true_and]; exact h) lit))

theorem plop (d : Fin 12) (a b c : PredSel) (tt : BitVec 8) : Statement (.plop d a b c tt) := by
  intro h
  have ha := predCode_le a
  have hb := predCode_le b
  have hc := predCode_le c
  have hd : d.val < 12 := d.isLt
  have ht : tt.toNat < 256 := tt.isLt
  have e : (BitVec.ofNat 32 (0x7c * 2 ^ 24 + d.val * 2 ^ 20 + predCode a * 2 ^ 16 + predCode b * 2 ^ 12 + predCode c * 2 ^ 8 + tt.toNat)).toNat =
      0x7c * 2 ^ 24 + d.val * 2 ^ 20 + predCode a * 2 ^ 16 + predCode b * 2 ^ 12 + predCode c * 2 ^ 8 + tt.toNat := by
    simp only [BitVec.toNat_ofNat]; omega
  have f : OpOf (BitVec.ofNat 32 (0x7c * 2 ^ 24 + d.val * 2 ^ 20 + predCode a * 2 ^ 16 + predCode b * 2 ^ 12 + predCode c * 2 ^ 8 + tt.toNat)).toNat 0x7c := by
    rw [e]; refine ⟨?_, ?_, ?_⟩ <;> simp only [fld] <;> omega
  refine readsAs_0 (fun lit => ?_) rfl
  simp only [decodeWord, f.hi, f.lo, laneOps7]
  exact congrArg some (decPlop_fields _ e)

theorem guardPrefix (p : PredSel) (neg : Bool) : Statement (.guardPrefix p neg) := by
  intro _ hp
  have f := fieldsB (op := 0x7e) (p := predCode p) (g := neg.toNat) (o := 0) (by decide) (by have := predCode_le p; omega) (Bool.toNat_lt neg) (by decide)
  simp [isPrefix, f.all] at hp

theorem saddB32 (d : Dst) (a b : Src) : Statement (.saddB32 d a b) := by
  intro h
  have f := Dst.fieldsR (op := 0x80) d a.code (by decide) a.code_lt b.code_lt
  refine readsAs_2 (f := fun a b => .saddB32 d a b) (fun lit => ?_) (fun _ _ => rfl) (wfR2_one h)
  exact (decodeWord_8 f.toOpOf rfl lit).trans (congrArg some (decR2_fields _ f h lit))

theorem saddB64 (d : Dst) (a b : Src) : Statement (.saddB64 d a b) := by
  intro h
  have f := Dst.fieldsR (op := 0x81) d a.code (by decide) a.code_lt b.code_lt
  refine readsAs_2 (f := fun a b => .saddB64 d a b) (fun lit => ?_) (fun _ _ => rfl) (wfR2_one h)
  exact (decodeWord_8 f.toOpOf rfl lit).trans (congrArg some (decR2_fields _ f h lit))

theorem ssubB32 (d : Dst) (a b : Src) : Statement (.ssubB32 d a b) := by
  intro h
  have f := Dst.fieldsR (op := 0x82) d a.code (by decide) a.code_lt b.code_lt
  refine readsAs_2 (f := fun a b => .ssubB32 d a b) (fun lit => ?_) (fun _ _ => rfl) (wfR2_one h)
  exact (decodeWord_8 f.toOpOf rfl lit).trans (congrArg some (decR2_fields _ f h lit))

theorem ssubB64 (d : Dst) (a b : Src) : Statement (.ssubB64 d a b) := by
  intro h
  have f := Dst.fieldsR (op := 0x83) d a.code (by decide) a.code_lt b.code_lt
  refine readsAs_2 (f := fun a b => .ssubB64 d a b) (fun lit => ?_) (fun _ _ => rfl) (wfR2_one h)
  exact (decodeWord_8 f.toOpOf rfl lit).trans (congrArg some (decR2_fields _ f h lit))

theorem saddiB32 (d : Dst) (a : Src) (imm : BitVec 9) : Statement (.saddiB32 d a imm) := by
  intro h
  have f := fieldsI (op := 0x84) (by decide) d.n_lt d.field_lt a.code_lt imm.isLt
  refine readsAs_1 (f := fun a => .saddiB32 d a imm) (fun lit => ?_) (fun _ => rfl)
  exact (decodeWord_8 f.toOpOf rfl lit).trans (congrArg some (decI1_fields _ f h lit))

theorem saddiB64 (d : Dst) (a : Src) (imm : BitVec 9) : Statement (.saddiB64 d a imm) := by
  intro h
  have f := fieldsI (op := 0x85) (by decide) d.n_lt d.field_lt a.code_lt imm.isLt
  refine readsAs_1 (f := fun a => .saddiB64 d a imm) (fun lit => ?_) (fun _ => rfl)
  exact (decodeWord_8 f.toOpOf rfl lit).trans (congrArg some (decI1_fields _ f h lit))

theorem smulB32 (d : Dst) (a b : Src) : Statement (.smulB32 d a b) := by
  intro h
  have f := Dst.fieldsR (op := 0x86) d a.code (by decide) a.code_lt b.code_lt
  refine readsAs_2 (f := fun a b => .smulB32 d a b) (fun lit => ?_) (fun _ _ => rfl) (wfR2_one h)
  exact (decodeWord_8 f.toOpOf rfl lit).trans (congrArg some (decR2_fields _ f h lit))

theorem smulB64 (d : Dst) (a b : Src) : Statement (.smulB64 d a b) := by
  intro h
  have f := Dst.fieldsR (op := 0x87) d a.code (by decide) a.code_lt b.code_lt
  refine readsAs_2 (f := fun a b => .smulB64 d a b) (fun lit => ?_) (fun _ _ => rfl) (wfR2_one h)
  exact (decodeWord_8 f.toOpOf rfl lit).trans (congrArg some (decR2_fields _ f h lit))

theorem smulhiI32 (d : Dst) (a b : Src) : Statement (.smulhiI32 d a b) := by
  intro h
  have f := Dst.fieldsR (op := 0x88) d a.code (by decide) a.code_lt b.code_lt
  refine readsAs_2 (f := fun a b => .smulhiI32 d a b) (fun lit => ?_) (fun _ _ => rfl) (wfR2_one h)
  exact (decodeWord_8 f.toOpOf rfl lit).trans (congrArg some (decR2_fields _ f h lit))

theorem smulhiN32 (d : Dst) (a b : Src) : Statement (.smulhiN32 d a b) := by
  intro h
  have f := Dst.fieldsR (op := 0x89) d a.code (by decide) a.code_lt b.code_lt
  refine readsAs_2 (f := fun a b => .smulhiN32 d a b) (fun lit => ?_) (fun _ _ => rfl) (wfR2_one h)
  exact (decodeWord_8 f.toOpOf rfl lit).trans (congrArg some (decR2_fields _ f h lit))

theorem smulwI32 (d : Dst) (a b : Src) : Statement (.smulwI32 d a b) := by
  intro h
  have f := Dst.fieldsR (op := 0x8a) d a.code (by decide) a.code_lt b.code_lt
  refine readsAs_2 (f := fun a b => .smulwI32 d a b) (fun lit => ?_) (fun _ _ => rfl) (wfR2_one h)
  exact (decodeWord_8 f.toOpOf rfl lit).trans (congrArg some (decR2_fields _ f h lit))

theorem smulwN32 (d : Dst) (a b : Src) : Statement (.smulwN32 d a b) := by
  intro h
  have f := Dst.fieldsR (op := 0x8b) d a.code (by decide) a.code_lt b.code_lt
  refine readsAs_2 (f := fun a b => .smulwN32 d a b) (fun lit => ?_) (fun _ _ => rfl) (wfR2_one h)
  exact (decodeWord_8 f.toOpOf rfl lit).trans (congrArg some (decR2_fields _ f h lit))

theorem sdivI32 (d : Dst) (a b : Src) : Statement (.sdivI32 d a b) := by
  intro h
  have f := Dst.fieldsR (op := 0x8c) d a.code (by decide) a.code_lt b.code_lt
  refine readsAs_2 (f := fun a b => .sdivI32 d a b) (fun lit => ?_) (fun _ _ => rfl) (wfR2_one h)
  exact (decodeWord_8 f.toOpOf rfl lit).trans (congrArg some (decR2_fields _ f h lit))

theorem sdivN32 (d : Dst) (a b : Src) : Statement (.sdivN32 d a b) := by
  intro h
  have f := Dst.fieldsR (op := 0x8d) d a.code (by decide) a.code_lt b.code_lt
  refine readsAs_2 (f := fun a b => .sdivN32 d a b) (fun lit => ?_) (fun _ _ => rfl) (wfR2_one h)
  exact (decodeWord_8 f.toOpOf rfl lit).trans (congrArg some (decR2_fields _ f h lit))

theorem sremI32 (d : Dst) (a b : Src) : Statement (.sremI32 d a b) := by
  intro h
  have f := Dst.fieldsR (op := 0x8e) d a.code (by decide) a.code_lt b.code_lt
  refine readsAs_2 (f := fun a b => .sremI32 d a b) (fun lit => ?_) (fun _ _ => rfl) (wfR2_one h)
  exact (decodeWord_8 f.toOpOf rfl lit).trans (congrArg some (decR2_fields _ f h lit))

theorem sremN32 (d : Dst) (a b : Src) : Statement (.sremN32 d a b) := by
  intro h
  have f := Dst.fieldsR (op := 0x8f) d a.code (by decide) a.code_lt b.code_lt
  refine readsAs_2 (f := fun a b => .sremN32 d a b) (fun lit => ?_) (fun _ _ => rfl) (wfR2_one h)
  exact (decodeWord_8 f.toOpOf rfl lit).trans (congrArg some (decR2_fields _ f h lit))

theorem sandB32 (d : Dst) (a b : Src) : Statement (.sandB32 d a b) := by
  intro h
  have f := Dst.fieldsR (op := 0x90) d a.code (by decide) a.code_lt b.code_lt
  refine readsAs_2 (f := fun a b => .sandB32 d a b) (fun lit => ?_) (fun _ _ => rfl) (wfR2_one h)
  exact (decodeWord_9 f.toOpOf rfl lit).trans (congrArg some (decR2_fields _ f h lit))

theorem sorB32 (d : Dst) (a b : Src) : Statement (.sorB32 d a b) := by
  intro h
  have f := Dst.fieldsR (op := 0x91) d a.code (by decide) a.code_lt b.code_lt
  refine readsAs_2 (f := fun a b => .sorB32 d a b) (fun lit => ?_) (fun _ _ => rfl) (wfR2_one h)
  exact (decodeWord_9 f.toOpOf rfl lit).trans (congrArg some (decR2_fields _ f h lit))

theorem sxorB32 (d : Dst) (a b : Src) : Statement (.sxorB32 d a b) := by
  intro h
  have f := Dst.fieldsR (op := 0x92) d a.code (by decide) a.code_lt b.code_lt
  refine readsAs_2 (f := fun a b => .sxorB32 d a b) (fun lit => ?_) (fun _ _ => rfl) (wfR2_one h)
  exact (decodeWord_9 f.toOpOf rfl lit).trans (congrArg some (decR2_fields _ f h lit))

theorem sbfiB32 (d : Dst) (a b : Src) : Statement (.sbfiB32 d a b) := by
  intro h
  have f := Dst.fieldsR (op := 0x93) d a.code (by decide) a.code_lt b.code_lt
  refine readsAs_2 (f := fun a b => .sbfiB32 d a b) (fun lit => ?_) (fun _ _ => rfl) (wfR2_one h)
  exact (decodeWord_9 f.toOpOf rfl lit).trans (congrArg some (decR2_fields _ f h lit))

theorem sandB64 (d : Dst) (a b : Src) : Statement (.sandB64 d a b) := by
  intro h
  have f := Dst.fieldsR (op := 0x94) d a.code (by decide) a.code_lt b.code_lt
  refine readsAs_2 (f := fun a b => .sandB64 d a b) (fun lit => ?_) (fun _ _ => rfl) (wfR2_one h)
  exact (decodeWord_9 f.toOpOf rfl lit).trans (congrArg some (decR2_fields _ f h lit))

theorem sorB64 (d : Dst) (a b : Src) : Statement (.sorB64 d a b) := by
  intro h
  have f := Dst.fieldsR (op := 0x95) d a.code (by decide) a.code_lt b.code_lt
  refine readsAs_2 (f := fun a b => .sorB64 d a b) (fun lit => ?_) (fun _ _ => rfl) (wfR2_one h)
  exact (decodeWord_9 f.toOpOf rfl lit).trans (congrArg some (decR2_fields _ f h lit))

theorem sxorB64 (d : Dst) (a b : Src) : Statement (.sxorB64 d a b) := by
  intro h
  have f := Dst.fieldsR (op := 0x96) d a.code (by decide) a.code_lt b.code_lt
  refine readsAs_2 (f := fun a b => .sxorB64 d a b) (fun lit => ?_) (fun _ _ => rfl) (wfR2_one h)
  exact (decodeWord_9 f.toOpOf rfl lit).trans (congrArg some (decR2_fields _ f h lit))

theorem slea (d : Dst) (a b : Src) : Statement (.slea d a b) := by
  intro h
  have f := Dst.fieldsR (op := 0x97) d a.code (by decide) a.code_lt b.code_lt
  refine readsAs_2 (f := fun a b => .slea d a b) (fun lit => ?_) (fun _ _ => rfl) (wfR2_one h)
  exact (decodeWord_9 f.toOpOf rfl lit).trans (congrArg some (decR2_fields _ f h lit))

theorem ssetpI32 (c : Cond) (p : Fin 12) (a b : Src) : Statement (.ssetpI32 c p a b) := by
  intro h
  have f := fieldsR (op := 0x98) (by decide) (Nat.zero_lt_two) (show condCode c * 16 + p.val < 64 by have := condCode_lt c; omega) a.code_lt b.code_lt (Nat.zero_lt_two)
  refine readsAs_2 (f := fun a b => .ssetpI32 c p a b) (fun lit => ?_) (fun _ _ => rfl) (wfRp_one h)
  exact (decodeWord_9 f.toOpOf rfl lit).trans (congrArg some (decRp_fields _ f h lit))

theorem ssetpN32 (c : Cond) (p : Fin 12) (a b : Src) : Statement (.ssetpN32 c p a b) := by
  intro h
  have f := fieldsR (op := 0x99) (by decide) (Nat.zero_lt_two) (show condCode c * 16 + p.val < 64 by have := condCode_lt c; omega) a.code_lt b.code_lt (Nat.zero_lt_two)
  refine readsAs_2 (f := fun a b => .ssetpN32 c p a b) (fun lit => ?_) (fun _ _ => rfl) (wfRp_one h)
  exact (decodeWord_9 f.toOpOf rfl lit).trans (congrArg some (decRp_fields _ f h lit))

theorem ssetpI64 (c : Cond) (p : Fin 12) (a b : Src) : Statement (.ssetpI64 c p a b) := by
  intro h
  have f := fieldsR (op := 0x9a) (by decide) (Nat.zero_lt_two) (show condCode c * 16 + p.val < 64 by have := condCode_lt c; omega) a.code_lt b.code_lt (Nat.zero_lt_two)
  refine readsAs_2 (f := fun a b => .ssetpI64 c p a b) (fun lit => ?_) (fun _ _ => rfl) (wfRp_one h)
  exact (decodeWord_9 f.toOpOf rfl lit).trans (congrArg some (decRp_fields _ f h lit))

theorem ssetpN64 (c : Cond) (p : Fin 12) (a b : Src) : Statement (.ssetpN64 c p a b) := by
  intro h
  have f := fieldsR (op := 0x9b) (by decide) (Nat.zero_lt_two) (show condCode c * 16 + p.val < 64 by have := condCode_lt c; omega) a.code_lt b.code_lt (Nat.zero_lt_two)
  refine readsAs_2 (f := fun a b => .ssetpN64 c p a b) (fun lit => ?_) (fun _ _ => rfl) (wfRp_one h)
  exact (decodeWord_9 f.toOpOf rfl lit).trans (congrArg some (decRp_fields _ f h lit))

theorem sshlB32 (d : Dst) (a b : Src) : Statement (.sshlB32 d a b) := by
  intro h
  have f := Dst.fieldsR (op := 0x9c) d a.code (by decide) a.code_lt b.code_lt
  refine readsAs_2 (f := fun a b => .sshlB32 d a b) (fun lit => ?_) (fun _ _ => rfl) (wfR2_one h)
  exact (decodeWord_9 f.toOpOf rfl lit).trans (congrArg some (decR2_fields _ f h lit))

theorem sshrN32 (d : Dst) (a b : Src) : Statement (.sshrN32 d a b) := by
  intro h
  have f := Dst.fieldsR (op := 0x9d) d a.code (by decide) a.code_lt b.code_lt
  refine readsAs_2 (f := fun a b => .sshrN32 d a b) (fun lit => ?_) (fun _ _ => rfl) (wfR2_one h)
  exact (decodeWord_9 f.toOpOf rfl lit).trans (congrArg some (decR2_fields _ f h lit))

theorem sshrI32 (d : Dst) (a b : Src) : Statement (.sshrI32 d a b) := by
  intro h
  have f := Dst.fieldsR (op := 0x9e) d a.code (by decide) a.code_lt b.code_lt
  refine readsAs_2 (f := fun a b => .sshrI32 d a b) (fun lit => ?_) (fun _ _ => rfl) (wfR2_one h)
  exact (decodeWord_9 f.toOpOf rfl lit).trans (congrArg some (decR2_fields _ f h lit))

theorem sbit (d : Dst) (a : Src) (k : BitOp) : Statement (.sbit d a k) := by
  intro h
  have f := Dst.fieldsR (op := 0x9f) (s := bitOpCode k) d a.code (by decide) a.code_lt (by have := bitOpCode_lt k; omega)
  refine readsAs_1 (f := fun a => .sbit d a k) (fun lit => ?_) (fun _ => rfl)
  exact (decodeWord_9 f.toOpOf rfl lit).trans (congrArg some (selSbit_fields f h lit))

theorem sfaddF32 (d : Dst) (a b : Src) : Statement (.sfaddF32 d a b) := by
  intro h
  have f := Dst.fieldsR (op := 0xa0) d a.code (by decide) a.code_lt b.code_lt
  refine readsAs_2 (f := fun a b => .sfaddF32 d a b) (fun lit => ?_) (fun _ _ => rfl) (wfR2_one h)
  exact (decodeWord_10 f.toOpOf rfl lit).trans (congrArg some (decR2_fields _ f h lit))

theorem sfsubF32 (d : Dst) (a b : Src) : Statement (.sfsubF32 d a b) := by
  intro h
  have f := Dst.fieldsR (op := 0xa1) d a.code (by decide) a.code_lt b.code_lt
  refine readsAs_2 (f := fun a b => .sfsubF32 d a b) (fun lit => ?_) (fun _ _ => rfl) (wfR2_one h)
  exact (decodeWord_10 f.toOpOf rfl lit).trans (congrArg some (decR2_fields _ f h lit))

theorem sfmulF32 (d : Dst) (a b : Src) : Statement (.sfmulF32 d a b) := by
  intro h
  have f := Dst.fieldsR (op := 0xa2) d a.code (by decide) a.code_lt b.code_lt
  refine readsAs_2 (f := fun a b => .sfmulF32 d a b) (fun lit => ?_) (fun _ _ => rfl) (wfR2_one h)
  exact (decodeWord_10 f.toOpOf rfl lit).trans (congrArg some (decR2_fields _ f h lit))

theorem sffmaF32 (d : Dst) (a b : Src) : Statement (.sffmaF32 d a b) := by
  intro h
  have f := Dst.fieldsR (op := 0xa3) d a.code (by decide) a.code_lt b.code_lt
  refine readsAs_2 (f := fun a b => .sffmaF32 d a b) (fun lit => ?_) (fun _ _ => rfl) (wfR2_one h)
  exact (decodeWord_10 f.toOpOf rfl lit).trans (congrArg some (decR2_fields _ f h lit))

theorem sfaddF64 (d : Dst) (a b : Src) : Statement (.sfaddF64 d a b) := by
  intro h
  have f := Dst.fieldsR (op := 0xa4) d a.code (by decide) a.code_lt b.code_lt
  refine readsAs_2 (f := fun a b => .sfaddF64 d a b) (fun lit => ?_) (fun _ _ => rfl) (wfR2_one h)
  exact (decodeWord_10 f.toOpOf rfl lit).trans (congrArg some (decR2_fields _ f h lit))

theorem sfsubF64 (d : Dst) (a b : Src) : Statement (.sfsubF64 d a b) := by
  intro h
  have f := Dst.fieldsR (op := 0xa5) d a.code (by decide) a.code_lt b.code_lt
  refine readsAs_2 (f := fun a b => .sfsubF64 d a b) (fun lit => ?_) (fun _ _ => rfl) (wfR2_one h)
  exact (decodeWord_10 f.toOpOf rfl lit).trans (congrArg some (decR2_fields _ f h lit))

theorem sfmulF64 (d : Dst) (a b : Src) : Statement (.sfmulF64 d a b) := by
  intro h
  have f := Dst.fieldsR (op := 0xa6) d a.code (by decide) a.code_lt b.code_lt
  refine readsAs_2 (f := fun a b => .sfmulF64 d a b) (fun lit => ?_) (fun _ _ => rfl) (wfR2_one h)
  exact (decodeWord_10 f.toOpOf rfl lit).trans (congrArg some (decR2_fields _ f h lit))

theorem sffmaF64 (d : Dst) (a b : Src) : Statement (.sffmaF64 d a b) := by
  intro h
  have f := Dst.fieldsR (op := 0xa7) d a.code (by decide) a.code_lt b.code_lt
  refine readsAs_2 (f := fun a b => .sffmaF64 d a b) (fun lit => ?_) (fun _ _ => rfl) (wfR2_one h)
  exact (decodeWord_10 f.toOpOf rfl lit).trans (congrArg some (decR2_fields _ f h lit))

theorem sfsetpF32 (c : Cond) (p : Fin 12) (a b : Src) : Statement (.sfsetpF32 c p a b) := by
  intro h
  have f := fieldsR (op := 0xa8) (by decide) (Nat.zero_lt_two) (show condCode c * 16 + p.val < 64 by have := condCode_lt c; omega) a.code_lt b.code_lt (Nat.zero_lt_two)
  refine readsAs_2 (f := fun a b => .sfsetpF32 c p a b) (fun lit => ?_) (fun _ _ => rfl) (wfRp_one h)
  exact (decodeWord_10 f.toOpOf rfl lit).trans (congrArg some (decRp_fields _ f h lit))

theorem sfsetpF64 (c : Cond) (p : Fin 12) (a b : Src) : Statement (.sfsetpF64 c p a b) := by
  intro h
  have f := fieldsR (op := 0xa9) (by decide) (Nat.zero_lt_two) (show condCode c * 16 + p.val < 64 by have := condCode_lt c; omega) a.code_lt b.code_lt (Nat.zero_lt_two)
  refine readsAs_2 (f := fun a b => .sfsetpF64 c p a b) (fun lit => ?_) (fun _ _ => rfl) (wfRp_one h)
  exact (decodeWord_10 f.toOpOf rfl lit).trans (congrArg some (decRp_fields _ f h lit))

theorem scvtF32 (d : Dst) (a : Src) (s : CvtSrc) (rm : Round) (sat : Bool) : Statement (.scvtF32 d a s rm sat) := by
  intro h
  have f := Dst.fieldsR (op := 0xaa) (s := cvtSel s rm sat false) d a.code (by decide) a.code_lt (cvtSel_lt s rm sat false)
  refine readsAs_1 (f := fun a => .scvtF32 d a s rm sat) (fun lit => ?_) (fun _ => rfl)
  exact (decodeWord_10 f.toOpOf rfl lit).trans (congrArg some (decCvt_fields (fun d a s rm sat _ => .scvtF32 d a s rm sat) f h (by simp) lit))

theorem scvtI32 (d : Dst) (a : Src) (s : CvtSrc) (rm : Round) (sat : Bool) : Statement (.scvtI32 d a s rm sat) := by
  intro h
  have f := Dst.fieldsR (op := 0xab) (s := cvtSel s rm sat false) d a.code (by decide) a.code_lt (cvtSel_lt s rm sat false)
  refine readsAs_1 (f := fun a => .scvtI32 d a s rm sat) (fun lit => ?_) (fun _ => rfl)
  exact (decodeWord_10 f.toOpOf rfl lit).trans (congrArg some (decCvt_fields (fun d a s rm sat _ => .scvtI32 d a s rm sat) f h (by simp) lit))

theorem sfminF32 (d : Dst) (a b : Src) : Statement (.sfminF32 d a b) := by
  intro h
  have f := Dst.fieldsR (op := 0xac) d a.code (by decide) a.code_lt b.code_lt
  refine readsAs_2 (f := fun a b => .sfminF32 d a b) (fun lit => ?_) (fun _ _ => rfl) (wfR2_one h)
  exact (decodeWord_10 f.toOpOf rfl lit).trans (congrArg some (decR2_fields _ f h lit))

theorem sfmaxF32 (d : Dst) (a b : Src) : Statement (.sfmaxF32 d a b) := by
  intro h
  have f := Dst.fieldsR (op := 0xad) d a.code (by decide) a.code_lt b.code_lt
  refine readsAs_2 (f := fun a b => .sfmaxF32 d a b) (fun lit => ?_) (fun _ _ => rfl) (wfR2_one h)
  exact (decodeWord_10 f.toOpOf rfl lit).trans (congrArg some (decR2_fields _ f h lit))

theorem srcpF32 (d : Dst) (a : Src) : Statement (.srcpF32 d a) := by
  intro h
  have f := Dst.fieldsR (op := 0xae) (s := 0) d a.code (by decide) a.code_lt (by decide)
  refine readsAs_1 (f := fun a => .srcpF32 d a) (fun lit => ?_) (fun _ => rfl)
  simp only [decodeWord, f.hi, f.lo, uniOps2, selU2E, f.fb]
  exact congrArg some (decR1_fields _ f h (by simp) lit)

theorem srsqF32 (d : Dst) (a : Src) : Statement (.srsqF32 d a) := by
  intro h
  have f := Dst.fieldsR (op := 0xae) (s := 1) d a.code (by decide) a.code_lt (by decide)
  refine readsAs_1 (f := fun a => .srsqF32 d a) (fun lit => ?_) (fun _ => rfl)
  simp only [decodeWord, f.hi, f.lo, uniOps2, selU2E, f.fb]
  exact congrArg some (decR1_fields _ f h (by simp) lit)

theorem ssqrtF32 (d : Dst) (a : Src) : Statement (.ssqrtF32 d a) := by
  intro h
  have f := Dst.fieldsR (op := 0xae) (s := 2) d a.code (by decide) a.code_lt (by decide)
  refine readsAs_1 (f := fun a => .ssqrtF32 d a) (fun lit => ?_) (fun _ => rfl)
  simp only [decodeWord, f.hi, f.lo, uniOps2, selU2E, f.fb]
  exact congrArg some (decR1_fields _ f h (by simp) lit)

theorem sexp2F32 (d : Dst) (a : Src) : Statement (.sexp2F32 d a) := by
  intro h
  have f := Dst.fieldsR (op := 0xae) (s := 3) d a.code (by decide) a.code_lt (by decide)
  refine readsAs_1 (f := fun a => .sexp2F32 d a) (fun lit => ?_) (fun _ => rfl)
  simp only [decodeWord, f.hi, f.lo, uniOps2, selU2E, f.fb]
  exact congrArg some (decR1_fields _ f h (by simp) lit)

theorem slog2F32 (d : Dst) (a : Src) : Statement (.slog2F32 d a) := by
  intro h
  have f := Dst.fieldsR (op := 0xae) (s := 4) d a.code (by decide) a.code_lt (by decide)
  refine readsAs_1 (f := fun a => .slog2F32 d a) (fun lit => ?_) (fun _ => rfl)
  simp only [decodeWord, f.hi, f.lo, uniOps2, selU2E, f.fb]
  exact congrArg some (decR1_fields _ f h (by simp) lit)

theorem ssinpiF32 (d : Dst) (a : Src) : Statement (.ssinpiF32 d a) := by
  intro h
  have f := Dst.fieldsR (op := 0xae) (s := 5) d a.code (by decide) a.code_lt (by decide)
  refine readsAs_1 (f := fun a => .ssinpiF32 d a) (fun lit => ?_) (fun _ => rfl)
  simp only [decodeWord, f.hi, f.lo, uniOps2, selU2E, f.fb]
  exact congrArg some (decR1_fields _ f h (by simp) lit)

theorem scospiF32 (d : Dst) (a : Src) : Statement (.scospiF32 d a) := by
  intro h
  have f := Dst.fieldsR (op := 0xae) (s := 6) d a.code (by decide) a.code_lt (by decide)
  refine readsAs_1 (f := fun a => .scospiF32 d a) (fun lit => ?_) (fun _ => rfl)
  simp only [decodeWord, f.hi, f.lo, uniOps2, selU2E, f.fb]
  exact congrArg some (decR1_fields _ f h (by simp) lit)

theorem stanhF32 (d : Dst) (a : Src) : Statement (.stanhF32 d a) := by
  intro h
  have f := Dst.fieldsR (op := 0xae) (s := 7) d a.code (by decide) a.code_lt (by decide)
  refine readsAs_1 (f := fun a => .stanhF32 d a) (fun lit => ?_) (fun _ => rfl)
  simp only [decodeWord, f.hi, f.lo, uniOps2, selU2E, f.fb]
  exact congrArg some (decR1_fields _ f h (by simp) lit)

theorem sfdivF32 (d : Dst) (a b : Src) : Statement (.sfdivF32 d a b) := by
  intro h
  have f := Dst.fieldsR (op := 0xaf) d a.code (by decide) a.code_lt b.code_lt
  refine readsAs_2 (f := fun a b => .sfdivF32 d a b) (fun lit => ?_) (fun _ _ => rfl) (wfR2_one h)
  exact (decodeWord_10 f.toOpOf rfl lit).trans (congrArg some (decR2_fields _ f h lit))

theorem sld (m : LdMode) (d : Fin 64) (a : Src) : Statement (.sld m d a) := by
  cases m with
  | plain k off =>
    intro h
    have f := fieldsM (op := 0xb0) (f := ldKindCode k) (d := d.val) (o := off.toNat) (by decide) (by have := ldKindCode_lt k; omega) (by omega) a.code_lt off.isLt
    refine readsAs_1 (f := fun a => .sld (.plain k off) d a) (fun lit => ?_) (fun _ => rfl)
    exact (decodeWord_11 f.toOpOf rfl lit).trans (congrArg some (decLd_plain f h lit))
  | ordered o =>
    intro h
    have f := fieldsM (op := 0xb0) (f := o.code) (d := d.val) (o := o.off .acq) (by decide) o.code_lt (by omega) a.code_lt (o.off_lt _)
    refine readsAs_1 (f := fun a => .sld (.ordered o) d a) (fun lit => ?_) (fun _ => rfl)
    exact (decodeWord_11 f.toOpOf rfl lit).trans (congrArg some (decLd_ordered f h lit))

theorem sst (m : StMode) (d : Fin 64) (a : Src) : Statement (.sst m d a) := by
  cases m with
  | plain k off =>
    intro h
    have f := fieldsM (op := 0xb1) (f := stKindCode k) (d := d.val) (o := off.toNat) (by decide) (by have := stKindCode_lt k; omega) (by omega) a.code_lt off.isLt
    refine readsAs_1 (f := fun a => .sst (.plain k off) d a) (fun lit => ?_) (fun _ => rfl)
    exact (decodeWord_11 f.toOpOf rfl lit).trans (congrArg some (decSt_plain f h lit))
  | ordered o =>
    intro h
    have f := fieldsM (op := 0xb1) (f := o.code) (d := d.val) (o := o.off .rel) (by decide) o.code_lt (by omega) a.code_lt (o.off_lt _)
    refine readsAs_1 (f := fun a => .sst (.ordered o) d a) (fun lit => ?_) (fun _ => rfl)
    exact (decodeWord_11 f.toOpOf rfl lit).trans (congrArg some (decSt_ordered f h lit))

theorem sldx (l : XLevel) (w : XWidth) (d : Fin 64) (a : Src) (off : BitVec 6) : Statement (.sldx l w d a off) := by
  intro h
  have f := fieldsM (op := 0xb2) (f := xlevelCode l * 4 + xwidthCode w) (d := d.val) (o := off.toNat) (by decide) (by have := xlevelCode_lt l; have := xwidthCode_lt w; omega) (by omega) a.code_lt off.isLt
  refine readsAs_1 (f := fun a => .sldx l w d a off) (fun lit => ?_) (fun _ => rfl)
  exact (decodeWord_11 f.toOpOf rfl lit).trans (congrArg some (decX_fields _ f h lit))

theorem sstx (l : XLevel) (w : XWidth) (d : Fin 64) (a : Src) (off : BitVec 6) : Statement (.sstx l w d a off) := by
  intro h
  have f := fieldsM (op := 0xb3) (f := xlevelCode l * 4 + xwidthCode w) (d := d.val) (o := off.toNat) (by decide) (by have := xlevelCode_lt l; have := xwidthCode_lt w; omega) (by omega) a.code_lt off.isLt
  refine readsAs_1 (f := fun a => .sstx l w d a off) (fun lit => ?_) (fun _ => rfl)
  exact (decodeWord_11 f.toOpOf rfl lit).trans (congrArg some (decX_fields _ f h lit))

theorem satom (op : AtomOp) (pl : AtomPlace) (d : Fin 64) (a : Src) : Statement (.satom op pl d a) := by
  intro h
  simp only [WellFormed, Bool.and_eq_true] at h
  have f := fieldsM (op := 0xb4) (f := atomOpCode op) (d := d.val) (o := pl.code) (by decide) (atomOpCode_lt op) (by omega) a.code_lt pl.code_lt
  refine readsAs_1 (f := fun a => .satom op pl d a) (fun lit => ?_) (fun _ => rfl)
  exact (decodeWord_11 f.toOpOf rfl lit).trans (congrArg some (decAtom_fields _ f h.2 (by simpa using h.1) lit))

theorem scas (w : CasW) (pl : AtomPlace) (d : Fin 64) (a : Src) : Statement (.scas w pl d a) := by
  intro h
  have f := fieldsM (op := 0xb5) (f := casWCode w) (d := d.val) (o := pl.code) (by decide) (by have := casWCode_lt w; omega) (by omega) a.code_lt pl.code_lt
  refine readsAs_1 (f := fun a => .scas w pl d a) (fun lit => ?_) (fun _ => rfl)
  exact (decodeWord_11 f.toOpOf rfl lit).trans (congrArg some (decScas_fields _ f h lit))

theorem fence (sc : Scope) (o : FenceOrd) : Statement (.fence sc o) := by
  intro h
  have f := fieldsR (op := 0xb8) (n := 0) (d := 0) (a := 0) (b := scopeCode sc * 16 + fenceOrdCode o) (l := 0) (by decide) (by decide) (by decide) (by decide) (by have := scopeCode_lt sc; have := fenceOrdCode_lt o; omega) (by decide)
  refine readsAs_0 (fun lit => ?_) rfl
  exact (decodeWord_11 f.toOpOf rfl lit).trans (congrArg some (decFence_fields _ f))

theorem barArrive (d : Fin 64) (a b : Src) : Statement (.barArrive d a b) := by
  intro h
  have f := fieldsR (op := 0xb9) (n := 0) (d := d.val) (l := 0) (by decide) (by decide) d.isLt a.code_lt b.code_lt (by decide)
  refine readsAs_2 (f := fun a b => .barArrive d a b) (fun lit => ?_) (fun _ _ => rfl) (wfAB_one h)
  exact (decodeWord_11 f.toOpOf rfl lit).trans (congrArg some (decDAB_fields _ f h lit))

theorem barWait (a b : Src) : Statement (.barWait a b) := by
  intro h
  have f := fieldsR (op := 0xba) (n := 0) (d := 0) (l := 0) (by decide) (by decide) (by decide) a.code_lt b.code_lt (by decide)
  refine readsAs_2 (f := fun a b => .barWait a b) (fun lit => ?_) (fun _ _ => rfl) (wfAB_one h)
  exact (decodeWord_11 f.toOpOf rfl lit).trans (congrArg some (decAB_fields _ f h lit))

theorem mon (a : Src) : Statement (.mon a) := by
  intro h
  have f := fieldsM (op := 0xbb) (f := 0) (d := 0) (o := 0) (by decide) (by decide) (by omega) a.code_lt (by decide)
  refine readsAs_1 (f := fun a => .mon a) (fun lit => ?_) (fun _ => rfl)
  exact (decodeWord_11 f.toOpOf rfl lit).trans (congrArg some (decMon_fields _ f h lit))

theorem mwait (d : Fin 64) (a : Src) : Statement (.mwait d a) := by
  intro h
  have f := fieldsR (op := 0xbc) (n := 0) (d := d.val) (b := 0) (l := 0) (by decide) (by decide) d.isLt a.code_lt (by decide) (by decide)
  refine readsAs_1 (f := fun a => .mwait d a) (fun lit => ?_) (fun _ => rfl)
  exact (decodeWord_11 f.toOpOf rfl lit).trans (congrArg some (decDA_fields _ f h lit))

theorem commitw  : Statement (.commitw) := by
  intro h
  have f := fieldsR (op := 0xbd) (n := 0) (d := 0) (a := 0) (b := 0) (l := 0) (by decide) (by decide) (by decide) (by decide) (by decide) (by decide)
  refine readsAs_0 (fun lit => ?_) rfl
  exact (decodeWord_11 f.toOpOf rfl lit).trans (congrArg some (decZ_fields _ f (by simp)))

theorem sleep (a : Src) : Statement (.sleep a) := by
  intro h
  have f := fieldsR (op := 0xbe) (n := 0) (d := 0) (b := 0) (l := 0) (by decide) (by decide) (by decide) a.code_lt (by decide) (by decide)
  refine readsAs_1 (f := fun a => .sleep a) (fun lit => ?_) (fun _ => rfl)
  exact (decodeWord_11 f.toOpOf rfl lit).trans (congrArg some (decA_fields _ f h (by simp) lit))

theorem bcopy (d a : Fin 64) (last : Bool) (b : Src) : Statement (.bcopy d a last b) := by
  intro h
  have h2 := Bool.toNat_lt last
  simp only [WellFormed, Bool.and_eq_true, decide_eq_true_eq] at h
  have f := fieldsR (op := 0xc0) (n := 0) (d := d.val) (a := last.toNat * 64 + a.val) (l := 0) (by decide) (by decide) d.isLt (by omega) b.code_lt (by decide)
  refine readsAs_1 (f := fun b => .bcopy d a last b) (fun lit => ?_) (fun _ => rfl)
  exact (decodeWord_12 f.toOpOf rfl lit).trans (congrArg some (decBcopy_fields _ f (by tauto) (by tauto) (by tauto) lit))

theorem bcopySt (d a : Fin 64) (last : Bool) (b : Src) : Statement (.bcopySt d a last b) := by
  intro h
  have h2 := Bool.toNat_lt last
  simp only [WellFormed, Bool.and_eq_true, decide_eq_true_eq] at h
  have f := fieldsR (op := 0xc1) (n := 0) (d := d.val) (a := last.toNat * 64 + a.val) (l := 0) (by decide) (by decide) d.isLt (by omega) b.code_lt (by decide)
  refine readsAs_1 (f := fun b => .bcopySt d a last b) (fun lit => ?_) (fun _ => rfl)
  exact (decodeWord_12 f.toOpOf rfl lit).trans (congrArg some (decBcopy_fields _ f (by tauto) (by tauto) (by tauto) lit))

theorem ringInit (a b : Src) : Statement (.ringInit a b) := by
  intro h
  have f := fieldsR (op := 0xc2) (n := 0) (d := 0) (l := 0) (by decide) (by decide) (by decide) a.code_lt b.code_lt (by decide)
  refine readsAs_2 (f := fun a b => .ringInit a b) (fun lit => ?_) (fun _ _ => rfl) (wfAB_one h)
  exact (decodeWord_12 f.toOpOf rfl lit).trans (congrArg some (decAB_fields _ f h lit))

theorem ringTake (d : Fin 64) (a : Src) : Statement (.ringTake d a) := by
  intro h
  have f := fieldsR (op := 0xc3) (n := 0) (d := d.val) (b := 0) (l := 0) (by decide) (by decide) d.isLt a.code_lt (by decide) (by decide)
  refine readsAs_1 (f := fun a => .ringTake d a) (fun lit => ?_) (fun _ => rfl)
  exact (decodeWord_12 f.toOpOf rfl lit).trans (congrArg some (decDA_fields _ f h lit))

theorem ringGive (a : Src) : Statement (.ringGive a) := by
  intro h
  have f := fieldsR (op := 0xc4) (n := 0) (d := 0) (b := 0) (l := 0) (by decide) (by decide) (by decide) a.code_lt (by decide) (by decide)
  refine readsAs_1 (f := fun a => .ringGive a) (fun lit => ?_) (fun _ => rfl)
  exact (decodeWord_12 f.toOpOf rfl lit).trans (congrArg some (decA_fields _ f h (by simp) lit))

theorem ringWait (d : Fin 64) (a : Src) : Statement (.ringWait d a) := by
  intro h
  have f := fieldsR (op := 0xc5) (n := 0) (d := d.val) (b := 0) (l := 0) (by decide) (by decide) d.isLt a.code_lt (by decide) (by decide)
  refine readsAs_1 (f := fun a => .ringWait d a) (fun lit => ?_) (fun _ => rfl)
  exact (decodeWord_12 f.toOpOf rfl lit).trans (congrArg some (decDA_fields _ f h lit))

theorem tlRead (d : Fin 64) (a : Src) : Statement (.tlRead d a) := by
  intro h
  simp only [WellFormed, Bool.and_eq_true, decide_eq_true_eq] at h
  have f := fieldsR (op := 0xc6) (n := 0) (d := d.val) (b := 0) (l := 0) (by decide) (by decide) d.isLt a.code_lt (by decide) (by decide)
  refine readsAs_1 (f := fun a => .tlRead d a) (fun lit => ?_) (fun _ => rfl)
  exact (decodeWord_12 f.toOpOf rfl lit).trans (congrArg some (decTlRead_fields _ f (by tauto) (by tauto) (by tauto) lit))

theorem tlWait (a b : Src) : Statement (.tlWait a b) := by
  intro h
  have f := fieldsR (op := 0xc7) (n := 0) (d := 0) (l := 0) (by decide) (by decide) (by decide) a.code_lt b.code_lt (by decide)
  refine readsAs_2 (f := fun a b => .tlWait a b) (fun lit => ?_) (fun _ _ => rfl) (wfAB_one h)
  exact (decodeWord_12 f.toOpOf rfl lit).trans (congrArg some (decAB_fields _ f h lit))

theorem coll (d : Fin 64) (a : Src) : Statement (.coll d a) := by
  intro h
  have f := fieldsR (op := 0xc8) (n := 0) (d := d.val) (b := 0) (l := 0) (by decide) (by decide) d.isLt a.code_lt (by decide) (by decide)
  refine readsAs_1 (f := fun a => .coll d a) (fun lit => ?_) (fun _ => rfl)
  exact (decodeWord_12 f.toOpOf rfl lit).trans (congrArg some (decDA_fields _ f h lit))

theorem ckptHold (d : Fin 64) (dm : Bool) : Statement (.ckptHold d dm) := by
  intro h
  have f := fieldsR (op := 0xc9) (n := 0) (d := d.val) (a := dm.toNat) (b := 0) (l := 0) (by decide) (by decide) d.isLt (by have := Bool.toNat_lt dm; omega) (by decide) (by decide)
  refine readsAs_0 (fun lit => ?_) rfl
  exact (decodeWord_12 f.toOpOf rfl lit).trans (congrArg some (decHold_fields _ f h))

theorem ckptRelease (a : Src) (dm : Bool) : Statement (.ckptRelease a dm) := by
  intro h
  have f := fieldsR (op := 0xca) (n := 0) (d := 0) (b := dm.toNat) (l := 0) (by decide) (by decide) (by decide) a.code_lt (by have := Bool.toNat_lt dm; omega) (by decide)
  refine readsAs_1 (f := fun a => .ckptRelease a dm) (fun lit => ?_) (fun _ => rfl)
  exact (decodeWord_12 f.toOpOf rfl lit).trans (congrArg some (decRelease_fields _ f h lit))

theorem spawn (p : Fin 12) (a : Src) (b : Fin 64) (last : Bool) : Statement (.spawn p a b last) := by
  intro h
  have h2 := Bool.toNat_lt last
  simp only [WellFormed, Bool.and_eq_true, decide_eq_true_eq] at h
  have f := fieldsR (op := 0xd0) (n := 0) (d := p.val) (b := last.toNat * 64 + b.val) (l := 0) (by decide) (by decide) (by omega) a.code_lt (by omega) (by decide)
  refine readsAs_1 (f := fun a => .spawn p a b last) (fun lit => ?_) (fun _ => rfl)
  exact (decodeWord_13 f.toOpOf rfl lit).trans (congrArg some (decSpawn_fields _ f (by tauto) (by tauto) lit))

theorem chunk (d : Fin 64) : Statement (.chunk d) := by
  intro h
  have f := fieldsR (op := 0xd1) (n := 0) (d := d.val) (a := 0) (b := 0) (l := 0) (by decide) (by decide) d.isLt (by decide) (by decide) (by decide)
  refine readsAs_0 (fun lit => ?_) rfl
  exact (decodeWord_13 f.toOpOf rfl lit).trans (congrArg some (decD_fields _ f (by simpa [WellFormed] using h)))

theorem repack (k : Fin 64) : Statement (.repack k) := by
  intro h
  have f := fieldsR (op := 0xd2) (n := 0) (d := 0) (a := k.val) (b := 0) (l := 0) (by decide) (by decide) (by decide) (by omega) (by decide) (by decide)
  refine readsAs_0 (fun lit => ?_) rfl
  exact (decodeWord_13 f.toOpOf rfl lit).trans (congrArg some (decRepack_fields _ f))

theorem slice (d : Fin 64) (a : Src) : Statement (.slice d a) := by
  intro h
  have f := fieldsR (op := 0xd3) (n := 0) (d := d.val) (b := 0) (l := 0) (by decide) (by decide) d.isLt a.code_lt (by decide) (by decide)
  refine readsAs_1 (f := fun a => .slice d a) (fun lit => ?_) (fun _ => rfl)
  exact (decodeWord_13 f.toOpOf rfl lit).trans (congrArg some (decDA_fields _ f h lit))

theorem depdec (d : Fin 64) (a : Src) : Statement (.depdec d a) := by
  intro h
  have f := fieldsR (op := 0xd4) (n := 0) (d := d.val) (b := 0) (l := 0) (by decide) (by decide) d.isLt a.code_lt (by decide) (by decide)
  refine readsAs_1 (f := fun a => .depdec d a) (fun lit => ?_) (fun _ => rfl)
  exact (decodeWord_13 f.toOpOf rfl lit).trans (congrArg some (decDA_fields _ f h lit))

theorem yield (a : Src) : Statement (.yield a) := by
  intro h
  have f := fieldsR (op := 0xd5) (n := 0) (d := 0) (b := 0) (l := 0) (by decide) (by decide) (by decide) a.code_lt (by decide) (by decide)
  refine readsAs_1 (f := fun a => .yield a) (fun lit => ?_) (fun _ => rfl)
  exact (decodeWord_13 f.toOpOf rfl lit).trans (congrArg some (decA_fields _ f h (by simp) lit))

theorem clkiv (d : Fin 64) : Statement (.clkiv d) := by
  intro h
  have f := fieldsR (op := 0xd8) (n := 0) (d := d.val) (a := 0) (b := 0) (l := 0) (by decide) (by decide) d.isLt (by decide) (by decide) (by decide)
  refine readsAs_0 (fun lit => ?_) rfl
  exact (decodeWord_13 f.toOpOf rfl lit).trans (congrArg some (decD_fields _ f (by simpa [WellFormed] using h)))

theorem vshape (d : Dst) (r : VsRef) : Statement (.vshape d r) := by
  intro h
  have f := Dst.fieldsR (op := 0xd9) (s := 0) d r.code (by decide) r.code_lt (by decide)
  refine readsAs_0 (fun lit => ?_) rfl
  exact (decodeWord_13 f.toOpOf rfl lit).trans (congrArg some (decVshape_fields _ f h))

theorem capq (d : Fin 64) (a : Src) : Statement (.capq d a) := by
  intro h
  have f := fieldsR (op := 0xda) (n := 0) (d := d.val) (b := 0) (l := 0) (by decide) (by decide) d.isLt a.code_lt (by decide) (by decide)
  refine readsAs_1 (f := fun a => .capq d a) (fun lit => ?_) (fun _ => rfl)
  exact (decodeWord_13 f.toOpOf rfl lit).trans (congrArg some (decDA_fields _ f h lit))

theorem sget (d : Fin 64) (r : SReg) : Statement (.sget d r) := by
  intro h
  have f := fieldsR (op := 0xdb) (n := 0) (d := d.val) (a := sregCode r) (b := 0) (l := 0) (by decide) (by decide) d.isLt (by have := sregCode_lt r; omega) (by decide) (by decide)
  refine readsAs_0 (fun lit => ?_) rfl
  exact (decodeWord_13 f.toOpOf rfl lit).trans (congrArg some (decSget_fields _ f h))

theorem sset (r : SReg) (b : Src) : Statement (.sset r b) := by
  intro h
  have f := fieldsR (op := 0xdc) (n := 0) (d := 0) (a := sregCode r) (l := 0) (by decide) (by decide) (by decide) (by have := sregCode_lt r; omega) b.code_lt (by decide)
  refine readsAs_1 (f := fun b => .sset r b) (fun lit => ?_) (fun _ => rfl)
  exact (decodeWord_13 f.toOpOf rfl lit).trans (congrArg some (decSset_fields _ f h lit))

theorem trap (k : BitVec 8) : Statement (.trap k) := by
  intro h
  have f := fieldsI (op := 0xdd) (n := 0) (d := 0) (a := 0) (i := k.toNat) (by decide) (by decide) (by decide) (by decide) (by have := k.isLt; omega)
  refine readsAs_0 (fun lit => ?_) rfl
  exact (decodeWord_13 f.toOpOf rfl lit).trans (congrArg some (decImm_fields _ f))

theorem rett  : Statement (.rett) := by
  intro h
  have f := fieldsR (op := 0xde) (n := 0) (d := 0) (a := 0) (b := 0) (l := 0) (by decide) (by decide) (by decide) (by decide) (by decide) (by decide)
  refine readsAs_0 (fun lit => ?_) rfl
  exact (decodeWord_13 f.toOpOf rfl lit).trans (congrArg some (decZ_fields _ f (by simp)))

theorem bkpt (k : BitVec 8) : Statement (.bkpt k) := by
  intro h
  have f := fieldsI (op := 0xdf) (n := 0) (d := 0) (a := 0) (i := k.toNat) (by decide) (by decide) (by decide) (by decide) (by have := k.isLt; omega)
  refine readsAs_0 (fun lit => ?_) rfl
  exact (decodeWord_13 f.toOpOf rfl lit).trans (congrArg some (decImm_fields _ f))

theorem loadComplete (c : CourseRef) : Statement (.loadComplete c) := by
  exact fun _ => trivial

theorem writeBackPerformed (core line : Nat) : Statement (.writeBackPerformed core line) := by
  exact fun _ => trivial

theorem stampedStoreVisible (id : Nat) : Statement (.stampedStoreVisible id) := by
  exact fun _ => trivial

theorem visibilityReport (id : Nat) : Statement (.visibilityReport id) := by
  exact fun _ => trivial

theorem watermarkRefresh (die : Fin 4) (dom : StampDom) : Statement (.watermarkRefresh die dom) := by
  exact fun _ => trivial

theorem passAcceptance (engine : Nat) : Statement (.passAcceptance engine) := by
  exact fun _ => trivial

theorem passApplied (engine : Nat) : Statement (.passApplied engine) := by
  exact fun _ => trivial

theorem tilePoolGrant (engine : Nat) : Statement (.tilePoolGrant engine) := by
  exact fun _ => trivial

theorem engineCommandStart (sl : Nat) (ctx : Fin 4) : Statement (.engineCommandStart sl ctx) := by
  exact fun _ => trivial

theorem engineCommandComplete (sl : Nat) (ctx : Fin 4) (num : Nat) : Statement (.engineCommandComplete sl ctx num) := by
  exact fun _ => trivial

theorem collectiveContribution (part : Fin 16) (c : Contribution) : Statement (.collectiveContribution part c) := by
  exact fun _ => trivial

theorem openGroupStart (part : Fin 16) (tag : BitVec 64) : Statement (.openGroupStart part tag) := by
  exact fun _ => trivial

theorem spawnTimerExpiry (team : Nat) (bin : Fin 8) : Statement (.spawnTimerExpiry team bin) := by
  exact fun _ => trivial

theorem convTimeout (c : CourseRef) (pc : BitVec 64) : Statement (.convTimeout c pc) := by
  exact fun _ => trivial

theorem sleepExpiry (t : ThreadRef) : Statement (.sleepExpiry t) := by
  exact fun _ => trivial

theorem mwaitTimeout (t : ThreadRef) : Statement (.mwaitTimeout t) := by
  exact fun _ => trivial

theorem waitSentinel (t : ThreadRef) : Statement (.waitSentinel t) := by
  exact fun _ => trivial

theorem budget (sl : Nat) : Statement (.budget sl) := by
  exact fun _ => trivial

theorem teamPlacement (part : Fin 16) : Statement (.teamPlacement part) := by
  exact fun _ => trivial

theorem teamSave (team : Nat) : Statement (.teamSave team) := by
  exact fun _ => trivial

theorem reset  : Statement (.reset) := by
  exact fun _ => trivial

theorem fullServiceStart  : Statement (.fullServiceStart) := by
  exact fun _ => trivial

theorem powerTemperatureLimit  : Statement (.powerTemperatureLimit) := by
  exact fun _ => trivial

theorem patrolScrub (tower : Fin 12) (corrected : Nat) (bad : List SoftError) : Statement (.patrolScrub tower corrected bad) := by
  exact fun _ => trivial

theorem linkTimeExchange (port : Fin 18) (ok : Bool) (roundTripPs : Nat) : Statement (.linkTimeExchange port ok roundTripPs) := by
  exact fun _ => trivial

theorem linkTimeMessage (port : Fin 18) (stamp : BitVec 64) : Statement (.linkTimeMessage port stamp) := by
  exact fun _ => trivial

theorem flitReceived (port : Fin 18) (checkOk : Bool) (body : Option FlitBody) : Statement (.flitReceived port checkOk body) := by
  exact fun _ => trivial

theorem remoteAccessRequest (r : RemoteReq) : Statement (.remoteAccessRequest r) := by
  exact fun _ => trivial

theorem linkPlaneFailure (port : Fin 18) : Statement (.linkPlaneFailure port) := by
  exact fun _ => trivial

theorem diePortFailure (x y : Fin 4) : Statement (.diePortFailure x y) := by
  exact fun _ => trivial

theorem dieLost (die : Fin 4) : Statement (.dieLost die) := by
  exact fun _ => trivial

theorem dieSetExit (die : Fin 4) : Statement (.dieSetExit die) := by
  exact fun _ => trivial

theorem deviceUnreachable (dev : Fin 512) : Statement (.deviceUnreachable dev) := by
  exact fun _ => trivial

theorem partcfgRead (m : Mbox) (cmd : BitVec 64) : Statement (.partcfgRead m cmd) := by
  exact fun _ => trivial

theorem partcfgWrite (m : Mbox) (cmd : BitVec 64) : Statement (.partcfgWrite m cmd) := by
  exact fun _ => trivial

theorem submit (m : Mbox) (cmd : BitVec 64) : Statement (.submit m cmd) := by
  exact fun _ => trivial

theorem submitResume (m : Mbox) (cmd : BitVec 64) : Statement (.submitResume m cmd) := by
  exact fun _ => trivial

theorem inval (m : Mbox) (cmd : BitVec 64) : Statement (.inval m cmd) := by
  exact fun _ => trivial

theorem resume (m : Mbox) (cmd : BitVec 64) : Statement (.resume m cmd) := by
  exact fun _ => trivial

theorem kill (m : Mbox) (cmd : BitVec 64) : Statement (.kill m cmd) := by
  exact fun _ => trivial

theorem holdclr (m : Mbox) (cmd : BitVec 64) : Statement (.holdclr m cmd) := by
  exact fun _ => trivial

theorem attest (m : Mbox) (cmd : BitVec 64) : Statement (.attest m cmd) := by
  exact fun _ => trivial

theorem state (m : Mbox) (cmd : BitVec 64) : Statement (.state m cmd) := by
  exact fun _ => trivial

theorem stateSave (m : Mbox) (cmd : BitVec 64) : Statement (.stateSave m cmd) := by
  exact fun _ => trivial

theorem unknownCommand (m : Mbox) (cmd : BitVec 64) : Statement (.unknownCommand m cmd) := by
  exact fun _ => trivial

theorem overrun (m : Mbox) (cmd : BitVec 64) : Statement (.overrun m cmd) := by
  exact fun _ => trivial

theorem mailboxCommandComplete (m : Mbox) : Statement (.mailboxCommandComplete m) := by
  exact fun _ => trivial

theorem vendorDefinedMessage (pf : Fin 2) (cmd : BitVec 64) (args : List (BitVec 64)) (payload : List (BitVec 8)) : Statement (.vendorDefinedMessage pf cmd args payload) := by
  exact fun _ => trivial

theorem hostBar2Write (part : Fin 16) (off : Nat) (bytes : List (BitVec 8)) : Statement (.hostBar2Write part off bytes) := by
  exact fun _ => trivial

theorem hostBar2Read (part : Fin 16) (off n : Nat) : Statement (.hostBar2Read part off n) := by
  exact fun _ => trivial

theorem classCounterWrite (part : Fin 16) (off : Nat) (v : BitVec 64) : Statement (.classCounterWrite part off v) := by
  exact fun _ => trivial

theorem registerWrite (w : WindowSel) (off size : Nat) (v : BitVec 64) : Statement (.registerWrite w off size v) := by
  exact fun _ => trivial

theorem faultRecordPost (part : Fin 16) : Statement (.faultRecordPost part) := by
  exact fun _ => trivial

theorem eventRecordPost (part : Fin 16) (ring : Fin 16) : Statement (.eventRecordPost part ring) := by
  exact fun _ => trivial

theorem etimeExpiry (part : Fin 16) (ring : Fin 16) : Statement (.etimeExpiry part ring) := by
  exact fun _ => trivial

theorem unallocatedEncoding (step : DecStep) : Statement (.unallocatedEncoding step) := by
  exact fun _ => trivial

theorem fetchFault (code : FetchCode) (addr : BitVec 64) : Statement (.fetchFault code addr) := by
  exact fun _ => trivial

theorem stampedStoreHeldPending (id : Nat) : Statement (.stampedStoreHeldPending id) := by
  exact fun _ => trivial

end Sys2Proof.Laws.RoundTrip
end

