-- ==== Sys2Proof/Safety.lean ====
section
/-!
DEFINITION. What counts as a sound state of the machine, and the terms in which the statements say what an instruction does: which registers it
writes, what it leaves alone, where its threads go.
-/

namespace Sys2Proof.Machine

/-! ## Sound states -/

/-- Both names of a linked pair carry the link (R55). -/
def linksSound (names : List NameVal) : Bool := (List.range names.length).all fun n => isLinked names n == isLinked names (partner n)

/-- The storage of a course has the sizes of R52, R68 and R70, its pairs their links, and its threads stand on lanes 0 to 31 (R26). -/
def Course.sound (c : Course) : Bool :=
  c.names.length == 64 && c.dead.length == 64 && c.opf.length == 16 && c.latches.length == 4 && linksSound c.names && linksSound c.opf &&
    c.live.all fun l => decide (l < 32)

/-- Home memory, host memory, what the device holds of the others' and the scratchpads are in the canonical form. -/
def State.memoryWf (s : State) : Bool :=
  Bytes.wf s.mem && Bytes.wf s.hostMem && (s.peers.all fun p => Bytes.wf p.2.mem) && s.parts.all (fun p => Bytes.wf p.chip) &&
    s.teams.all fun p => Bytes.wf p.2.spad && Bytes.wf p.2.clm

/-- The courses of every resident team are sound. -/
def State.coursesSound (s : State) : Bool := s.teams.all fun p => p.2.courses.all fun q => q.2.sound

/-! ## The lift at hand -/

/-- The state stands between the forming of a lift and its unit (R32): `t` is the issuing team, the lift names live threads of it, each
once and in ascending order of lane within a course, some of them participate (R60), and the courses it is drawn from are sound. -/
structure Lifted (s : State) (t : Team) : Prop where
  team : FMap.get s.teams s.issue.team = some t
  live : ∀ m ∈ s.issue.lift, m.2 ∈ (t.course m.1).live
  courses : ∀ m ∈ s.issue.lift, (FMap.get t.courses m.1).isSome
  parts : ∀ m ∈ s.issue.parts, m ∈ s.issue.lift
  sound : ∀ m ∈ s.issue.lift, (t.course m.1).sound = true
  gens : (s.core t.core).latchGen.length = 4
  ascending : ∀ c, (lanesIn s.issue.lift c).Pairwise (· < ·) ∧ (lanesIn s.issue.parts c).Pairwise (· < ·)

/-- How course `c` of the issuing team reads its operands. -/
def State.reads (s : State) (t : Team) (c : Nat) : RdCtx := rdCtx (s.core t.core) t c

/-- No participating thread reads a latch that has lost its value (R72). -/
def Readable (s : State) (t : Team) (srcs : List Operand) : Prop :=
  ∀ m ∈ s.issue.parts, ∀ o ∈ srcs, (srcView (s.reads t m.1) o.1 o.2).stale m.2 = false

/-- The values a thread's operands have, with the old destination as a third one where the instruction reads it (R168). -/
def State.values (s : State) (t : Team) (third wide : Bool) (d : Dst) (srcs : List Operand) (c l : Nat) : List W64 :=
  (srcs.map fun o => (srcView (s.reads t c) o.1 o.2).val l) ++ if third then [(dstView (s.reads t c) wide d).val l] else []

/-! ## What a unit does to a course -/

/-- The register names a destination of 32 or 64 bits writes. -/
def regsOf (wide : Bool) : Dst → List Nat
  | .reg n => if wide then [n.val, n.val + 1] else [n.val]
  | .opf _ | .sup => []

/-- The operand-file entries a destination writes (R68). -/
def entriesOf (wide : Bool) : Dst → List Nat
  | .opf n => if wide then [n.val, n.val + 1] else [n.val]
  | .reg _ | .sup => []

/-- A result at its width: a 32-bit result is its low word. -/
def resultOf (wide : Bool) (v : W64) : W64 := if wide then v else zx64 (lo32 v)

/-- The names the operands mark as last reads (R57). -/
def lastOf (srcs : List Operand) : List Nat := srcs.flatMap fun o => lastNames o.1 o.2

/-- What a lane reads at a destination. -/
def dstRead (c : Course) (wide : Bool) (d : Dst) (l : Nat) : W64 :=
  match d with
  | .reg n => (regView c wide n.val).val l
  | .opf n => (opfView c wide n.val).val l
  | .sup => 0

/-- What a course keeps. `regs` and `ents` are the names and entries written for the lanes `lanes`; `lasts` are read for the last time
by the lanes `lift`; `upd` is what becomes of each thread; latches of other pipes than `pipes` keep their records unless one names a
register that is written or read for the last time. -/
structure CourseFrame (c c' : Course) (regs ents lanes lasts lift : List Nat) (pipes : Nat → Prop) (upd : Nat → Thread → Thread) : Prop where
  live : c'.live = c.live
  /-- Every register keeps its value in every thread, but for those written and those read for the last time (R54, R57). -/
  kept : ∀ n, ∀ l ∈ c.live, ¬ (n ∈ regs ∧ l ∈ lanes) → ¬ (n ∈ lasts ∧ l ∈ lift) →
    regRow c' n l = regRow c n l ∧ (n ∉ regs → regFree c' n l = regFree c n l)
  /-- A name read for the last time reads as a freed one from now on (R57, R59). -/
  last : ∀ n ∈ lasts, ∀ l ∈ lift, l ∈ c.live → ¬ (n ∈ regs ∧ l ∈ lanes) → regRow c' n l = 0 ∧ regFree c' n l = true
  /-- Every operand-file entry keeps its value, but for those written (R68). -/
  entries : ∀ n, ∀ l ∈ c.live, ¬ (n ∈ ents ∧ l ∈ lanes) → rowOf c'.opf n l = rowOf c.opf n l ∧
    (n ∉ ents → (nth c'.opf n .free == .free) = (nth c.opf n .free == .free))
  /-- The other latches keep their records (R70). -/
  latches : ∀ k, ¬ pipes k → (∀ n ∈ regs ++ lasts, (nth c.latches k {}).names false n = false) →
    (∀ n ∈ ents, (nth c.latches k {}).names true n = false) → nth c'.latches k {} = nth c.latches k {}
  /-- Predicates, return stack, draws and the rest of every thread are as `upd` says; a latch value saved with a thread stays with it, unless
  it is one of `pipes` or names what is written or read for the last time (R361, R367). -/
  threads : ∀ l th, FMap.get c.threads l = some th → ∃ sv, FMap.get c'.threads l = some { upd l th with saved := sv } ∧
    ∀ x ∈ (upd l th).saved, ¬ pipes x.pipe.val → (¬ ∃ n ∈ regs ++ lasts, x.record.names false n = true) →
      (¬ ∃ n ∈ ents, x.record.names true n = true) → x ∈ sv
  /-- Tiles, log, load data and waits are untouched. -/
  rest : c'.tiles = c.tiles ∧ c'.log = c.log ∧ c'.loads = c.loads ∧ c'.suspended = c.suspended ∧ c'.awaitTiles = c.awaitTiles ∧
    c'.tileWait = c.tileWait ∧ c'.convs = c.convs

/-- The result of a unit: every lane of `lanes` reads its value at the destination, and at the latch of its pipe (R61, R62, R70). -/
structure CourseResult (c' : Course) (gens : List Nat) (wide : Bool) (pipe : Nat) (d : Dst) (lanes : List Nat) (v : Nat → W64) : Prop where
  value : d ≠ .sup → ∀ l ∈ lanes, dstRead c' wide d l = resultOf wide (v l)
  latch : ∀ l ∈ lanes, (latchView c' gens wide pipe).stale l = false ∧ (latchView c' gens wide pipe).val l = resultOf wide (v l)

/-! ## What a unit does to the state -/

/-- What becomes of the issuing core: the generation of the pipe used, and the hold of a result without write-back (R70 to R72); nothing where
no thread participates (R92, R316). -/
def unitCore (c : Core) (i : Issue) : LatchUse → Core
  | .result p sup => if i.parts.isEmpty then c else if sup then (c.useLatch p).addHold ⟨Fin.ofNat 4 p, i.team, i.lift⟩ else c.useLatch p
  | .none => c

/-- What a unit that acts on its courses alone does: the issuing team keeps everything but its courses, the courses of the lift are as `eff`
says, its core is as `unitCore` says, and nothing else changes but the step's own list of the threads that retired. -/
structure UnitEffect (s s' : State) (t : Team) (u : LatchUse) (eff : Nat → Course → Course → Prop) : Prop where
  courses : ∃ cs, FMap.get s'.teams s.issue.team = some { t with courses := cs } ∧
    (∀ c, c ∉ coursesOf s.issue.lift → FMap.get cs c = FMap.get t.courses c) ∧
    ∀ c ∈ coursesOf s.issue.lift, ∃ x, FMap.get cs c = some x ∧ eff c (t.course c) x
  teams : ∀ k, k ≠ s.issue.team → FMap.get s'.teams k = FMap.get s.teams k
  core : s'.core t.core = unitCore (s.core t.core) s.issue u
  cores : ∀ k, k ≠ t.core → s'.core k = s.core k
  rest : s' = { s with
    teams := s'.teams
    cores := s'.cores
    issue := { s.issue with retired := s.issue.retired ++ s.issue.lift.map fun m => (s.issue.team, m.1, m.2) } }

/-- What becomes of a thread at a unit that completes: READ_FREE where it has read freed storage (R59), `f` where it participates, and every
thread of the lift continues at the next unit. -/
def nextThread (s : State) (c : Nat) (free : Nat → Bool) (f : Nat → Thread → Thread) (l : Nat) (th : Thread) : Thread :=
  let on := s.issue.parts.contains (c, l)
  let th := if on && free l then th.setReadFree else th
  let th := if on then f l th else th
  if s.issue.lift.contains (c, l) then th.goto s.issue.next s.cycle else th

/-- Whether a lane reads freed storage (R59, R69). -/
def freeRead (s : State) (t : Team) (third wide : Bool) (d : Dst) (srcs : List Operand) (c l : Nat) : Bool :=
  (srcs.any fun o => (srcView (s.reads t c) o.1 o.2).free l) || (third && (dstView (s.reads t c) wide d).free l)

/-- A unit of one result (R33, R61, R62, R167): every participating thread's destination takes its value `f`, and so does the pipe's latch;
`upd` is what else becomes of a participating thread; every thread of the lift goes on to the next unit; nothing else changes. -/
def Delivers (s s' : State) (t : Team) (wide : Bool) (pipe : Nat) (d : Dst) (srcs : List Operand) (free : Nat → Nat → Bool)
    (upd : Nat → Thread → Thread) (f : Nat → Nat → W64) : Prop :=
  UnitEffect s s' t (.result pipe (d == .sup)) fun c x x' =>
    CourseFrame x x' (regsOf wide d) (entriesOf wide d) (lanesIn s.issue.parts c) (lastOf srcs) (lanesIn s.issue.lift c) (· = pipe)
      (nextThread s c (free c) upd) ∧
    CourseResult x' (s'.core t.core).latchGen wide pipe d (lanesIn s.issue.parts c) (f c)

/-- A unit that writes no register: every participating thread becomes what `upd` says of it, the pipe's latch has no value for it, every
thread of the lift goes on to the next unit, and nothing else changes. -/
def Touches (s s' : State) (t : Team) (pipe : Nat) (srcs : List Operand) (free : Nat → Nat → Bool)
    (upd : Nat → Nat → Thread → Thread) : Prop :=
  UnitEffect s s' t .none fun c x x' =>
    CourseFrame x x' [] [] (lanesIn s.issue.parts c) (lastOf srcs) (lanesIn s.issue.lift c) (· = pipe) (nextThread s c (free c) (upd c)) ∧
    ∀ l ∈ lanesIn s.issue.parts c, (latchView x' (s'.core t.core).latchGen false pipe).stale l = true

/-- `i` is a lane-set computation (R33, R167): in every participating thread the destination takes `f` of that thread's operands. -/
def LaneUnit (i : Instr) (wide third : Bool) (pipe : Nat) (d : Dst) (srcs : List Operand) (f : List W64 → W64) : Prop :=
  WellFormed i = true → ∀ s t, Lifted s t → Readable s t srcs →
    ∃ s', exec i s = .next s' ∧ Delivers s s' t wide pipe d srcs (freeRead s t third wide d srcs) (fun _ th => th)
      fun c l => f (s.values t third wide d srcs c l)

/-- `i` is a lane-set computation of predicate `p` (R86): in every participating thread it becomes `f` of the thread and its operands. -/
def LanePred (i : Instr) (pipe p : Nat) (srcs : List Operand) (f : Thread → List W64 → Bool) : Prop :=
  WellFormed i = true → ∀ s t, Lifted s t → Readable s t srcs →
    ∃ s', exec i s = .next s' ∧ Touches s s' t pipe srcs (freeRead s t false false .sup srcs)
      fun c l th => th.setPred p (f th (s.values t false false .sup srcs c l))

/-- The thread of a course whose values a uniform-set instruction takes: the lowest-numbered participating one (R63), which is the first, since
the lanes of a lift ascend. -/
def State.leader (s : State) (c : Nat) : Nat := (lanesIn s.issue.parts c).headD 0

/-- The thread whose values a uniform-set instruction takes reads no latch that has lost its value (R63, R72). -/
def LeadReadable (s : State) (t : Team) (srcs : List Operand) : Prop :=
  ∀ m ∈ s.issue.parts, ∀ o ∈ srcs, (srcView (s.reads t m.1) o.1 o.2).stale (s.leader m.1) = false

/-- `i` is a uniform-set computation (R63): in every participating thread the destination takes `f` of the leader's operands. -/
def UniUnit (i : Instr) (wide third : Bool) (d : Dst) (srcs : List Operand) (f : List W64 → W64) : Prop :=
  WellFormed i = true → ∀ s t, Lifted s t → LeadReadable s t srcs →
    ∃ s', exec i s = .next s' ∧ Delivers s s' t wide 2 d srcs (fun c l => l == s.leader c && freeRead s t third wide d srcs c l) (fun _ th => th)
      fun c _ => f (s.values t third wide d srcs c (s.leader c))

/-- `i` is a uniform-set computation of predicate `p`. -/
def UniPred (i : Instr) (p : Nat) (srcs : List Operand) (f : List W64 → Bool) : Prop :=
  WellFormed i = true → ∀ s t, Lifted s t → LeadReadable s t srcs →
    ∃ s', exec i s = .next s' ∧ Touches s s' t 2 srcs (fun c l => l == s.leader c && freeRead s t false false .sup srcs c l)
      fun c _ th => th.setPred p (f (s.values t false false .sup srcs c (s.leader c)))

/-- The whole of every course of the lift stands in it (R34, R195). -/
def State.wholeLift (s : State) (t : Team) : Prop := ∀ c ∈ coursesOf s.issue.lift, s.issue.whole c (t.course c) = true

/-- `i` is a group instruction (R195, R196): every member's destination takes `f` of the course, its members and their operands. -/
def GroupUnit (i : Instr) (wide : Bool) (d : Dst) (srcs : List Operand) (f : Course → List Nat → (Nat → List W64) → Nat → W64) : Prop :=
  WellFormed i = true → ∀ s t, Lifted s t → Readable s t srcs → s.wholeLift t →
    ∃ s', exec i s = .next s' ∧ Delivers s s' t wide 0 d srcs (freeRead s t false wide d srcs) (fun _ th => th)
      fun c l => f (t.course c) (lanesIn s.issue.parts c) (fun m => s.values t false wide d srcs c m) l

/-! ## Units of one course -/

/-- The lift is drawn from course `c` alone, and a thread of it participates. -/
structure OneCourse (s : State) (t : Team) (c : Nat) : Prop where
  lifted : Lifted s t
  one : coursesOf s.issue.lift = [c]
  acts : lanesIn s.issue.parts c ≠ []

/-- Whether the participating threads issue their unit again after a restore (R142, R297): they have read its operands before. -/
def State.again (s : State) (t : Team) (c : Nat) : Bool := (lanesIn s.issue.parts c).all fun l => ((t.course c).thread l).progress.isSome

/-- A unit of course `c` whose own work has led from `s` to `s1`, where its team is `t1`. From there on: the participating threads' names
`regs` take `val`, the latches of the pipes `dropped` have no value for them, the last reads of `srcs` are marked, `loads` is on its way to
the course (R278), participating threads become `upd` and READ_FREE where `free`, every thread of the lift goes on, and nothing else changes. -/
structure Served (s s1 s' : State) (t1 : Team) (c : Nat) (srcs : List Operand) (regs : List Nat) (val : Nat → Nat → W32) (dropped : List Nat)
    (free : Nat → Bool) (loads : List PendingLoad) (upd : Nat → Thread → Thread) : Prop where
  agenda : s'.agenda = s1.agenda ++ loads.map fun _ => .loadComplete ⟨s.issue.team, c⟩
  effect : UnitEffect s1 { s' with agenda := s1.agenda } t1 .none fun k x x' =>
    x'.loads = x.loads ++ loads ∧
    CourseFrame x { x' with loads := x.loads } regs [] (lanesIn s.issue.parts k) (lastOf srcs) (lanesIn s.issue.lift k) (· ∈ dropped)
      (nextThread s k free upd) ∧
    (∀ n ∈ regs, ∀ l ∈ lanesIn s.issue.parts k, regRow x' n l = val n l) ∧
    ∀ p ∈ dropped, ∀ l ∈ lanesIn s.issue.parts k, (latchView x' (s'.core t1.core).latchGen false p).stale l = true

/-- The two names of a 64-bit value from `d` on. -/
def wordOf (d : Nat) (v : W64) (n : Nat) : W32 := if n = d then lo32 v else hi32 v

/-- What a uniform-set unit without a result in a latch does beside writing names: the state its work leads to, the names' values, what
becomes of a participating thread; nothing where it faults or waits. -/
abbrev Work := State → Team → Nat → List W64 → Option (State × (Nat → W32) × (Thread → Thread))

/-- `i` is a uniform-set unit without a result in a latch (R63, R194): on a lift of one course whose operands its leader can read, it does
`work` on them and writes the names `regs`; b2, and with `b3` the load latch, hold nothing for its threads afterwards. -/
def UniServes (i : Instr) (srcs : List Operand) (regs : List Nat) (b3 : Bool) (work : Work) : Prop :=
  WellFormed i = true → ∀ s t c s1 val upd t1, OneCourse s t c → LeadReadable s t srcs →
    work s t c (s.values t false false .sup srcs c (s.leader c)) = some (s1, val, upd) → FMap.get s1.teams s.issue.team = some t1 →
    ∃ s', exec i s = .next s' ∧ Served s s1 s' t1 c srcs regs (fun n _ => val n) (if b3 then [2, 3] else [2])
      (fun l => l == s.leader c && !s.again t c && freeRead s t false false .sup srcs c l) [] fun _ => upd

/-- A unit at which the participating threads stay: they become what `upd` makes of them, the others of the lift go on, and nothing else
changes but the last reads of `srcs` in the lanes `lanes`, the latches `dropped`, and the counts of conv, which become `convs`. -/
def Stays (s s' : State) (t : Team) (srcs : List Operand) (lanes : Nat → List Nat) (dropped : List Nat) (convs : Nat → FMap Nat → FMap Nat)
    (upd : Nat → Nat → Thread → Thread) : Prop :=
  s'.issue = { s.issue with retired := s.issue.retired ++ s.issue.falseParts.map fun m => (s.issue.team, m.1, m.2) } ∧
  UnitEffect s { s' with issue := { s.issue with retired := s.issue.retired ++ s.issue.lift.map fun m => (s.issue.team, m.1, m.2) } } t .none
    fun k x x' =>
      x'.convs = convs k x.convs ∧
      CourseFrame x { x' with convs := x.convs } [] [] [] (lastOf srcs) (lanes k) (· ∈ dropped) fun l th =>
        if s.issue.parts.contains (k, l) then upd k l th
        else if s.issue.lift.contains (k, l) then th.goto s.issue.next s.cycle else th

/-- A unit at which every thread of the lift becomes what `upd` makes of it, and nothing else changes but the last reads of `srcs`. -/
def Goes (s s' : State) (t : Team) (srcs : List Operand) (upd : Nat → Nat → Thread → Thread) : Prop :=
  UnitEffect s s' t .none fun k x x' =>
    CourseFrame x x' [] [] [] (lastOf srcs) (lanesIn s.issue.lift k) (fun _ => False) fun l th =>
      if s.issue.lift.contains (k, l) then upd k l th else th

/-- `i` is a uniform-set unit as `UniServes` says, whose team settles at the instruction boundary (R337). -/
def UniSettles (i : Instr) (srcs : List Operand) (work : Work) : Prop :=
  WellFormed i = true → ∀ s t c s1 val upd t1, OneCourse s t c → LeadReadable s t srcs →
    work s t c (s.values t false false .sup srcs c (s.leader c)) = some (s1, val, upd) → FMap.get s1.teams s.issue.team = some t1 →
    ∃ s', exec i s = .next (s'.settle s.issue.team) ∧ Served s s1 s' t1 c srcs [] (fun n _ => val n) [2]
      (fun l => l == s.leader c && !s.again t c && freeRead s t false false .sup srcs c l) [] fun _ => upd

/-- The lift is a whole course, and every thread of it participates (R34). -/
structure WholeCourse (s : State) (t : Team) (c : Nat) : Prop where
  one : OneCourse s t c
  all : s.issue.parts = s.issue.lift
  whole : s.issue.whole c (t.course c) = true

/-- `i` is a matrix unit that completes at issue (R34, R216): its own work has led to `s1`, it reads `srcs` and the names `block`, for the last
time where `last` says so, and writes the names `regs`. -/
def MatUnit (i : Instr) (srcs : List Operand) (block : List Nat) (last : Bool) (regs : List Nat)
    (work : State → Team → Nat → Option (State × (Nat → Nat → W32))) : Prop :=
  WellFormed i = true → ∀ s t c s1 val t1, WholeCourse s t c → Readable s t srcs → work s t c = some (s1, val) →
    FMap.get s1.teams s.issue.team = some t1 →
    ∃ s', exec i s = .next s' ∧ Served s s1 s' t1 c (srcs ++ block.map fun n => (.b32, .reg (Fin.ofNat 64 n) last)) regs val []
      (fun l => freeRead s t false false .sup srcs c l || block.any fun n => regFree (t.course c) n l) [] fun _ th => th

/-- A tile the course holds, with no accepted work left on it. -/
def State.heldTile (s : State) (t : Team) (c k : Nat) : Option Tile :=
  if s.tileBusy (clusterOfCore t.core) ⟨s.issue.team, c⟩ (some k) then none else (t.course c).tiles[k]?

/-- The lift is one thread, and it participates. -/
structure Solo (s : State) (t : Team) (c l : Nat) : Prop where
  one : OneCourse s t c
  lift : s.issue.lift = [(c, l)]
  parts : s.issue.parts = [(c, l)]

/-- No stamped store of the participating threads is pending, and with `acks` no acknowledgement of a remote write is owed (R252, R262). -/
def State.settled (s : State) (t : Team) (c : Nat) (acks : Bool) : Bool :=
  (lanesIn s.issue.parts c).all fun l => let th := (t.course c).thread l; th.stamps.isEmpty && (!acks || th.remote.isEmpty)

/-- A release and an acquire of a core at .cl or wider: its dirty bytes are written back; its clean ones go (R247). -/
abbrev State.released (s : State) (t : Team) : State := s.writeBackAll t.core
abbrev State.acquired (s : State) (t : Team) : State := s.invalidateClean t.core

/-- The issuing team changed. -/
def State.onTeam (s : State) (f : Team → Team) : State := { s with teams := FMap.modify s.teams s.issue.team f }

/-! ## Memory instructions -/

/-- A device-memory access as an instruction makes it (R272, R275): its address operand, displacement, and whether row and column of a fetch are
each lane's own (R296). -/
def deviceSpec (acc : Access) (a : Src) (disp : Int) (gather : Bool) : MemSpec :=
  { ty := .addr, addr := a, acc := acc, disp := disp, gather := gather, perf := fun s w q => s.accessLane w acc q }

/-- Whether a lane reads freed storage at its address or data (R59). -/
def memFree (s : State) (t : Team) (sp : MemSpec) (c l : Nat) : Bool :=
  (srcView (s.reads t c) sp.ty sp.addr).free l || sp.acc.reads.any fun n => regFree (t.course c) n l

/-- The values an access gave a lane. -/
def outVals (outs : List LaneOut) (l : Nat) : List W32 :=
  match outs.find? fun o => o.q.lane == l with
  | some o => match o.res with | .done v => v | .fault _ _ _ | .logged _ _ | .wait _ => []
  | none => []

/-- Whether a lane-set load of a course is one read that every thread takes (R278): all its live threads take part, and the address is uniform
on a level they share. -/
def State.oneRead (s : State) (t : Team) (c : Nat) (sp : MemSpec) : Bool :=
  fullCourse s.issue c (t.course c) && (match sp.acc.kind with | .load _ _ => true | _ => false) &&
    (srcView (s.reads t c) sp.ty sp.addr).shape == .u && (sp.shared || decide ((t.course c).live.length = 1))

/-- The load data of an access (R278): for every lane the values of the names from the destination on. -/
def memLoad (acc : Access) (full one : Bool) (lanes : List Nat) (vals : Nat → List W32) : PendingLoad :=
  { dest := acc.dest, wide := acc.kind.wide, full := full, oneRead := one, lanes := lanes, vals := lanes.map vals, latch := acc.kind.latches }

/-- `i` is a lane-set memory instruction (R235, R277, R278): where every access of its course is performed, the values are on their way to the
destination (loads, atomics, lda, fetches), or the names `regs` take them at once (the stamp of sts); what leaves no value in b3 leaves b3
without one; address and data are read. -/
def MemUnit (i : Instr) (sp : MemSpec) (regs : List Nat) : Prop :=
  WellFormed i = true → ∀ s t c s1 outs t1, OneCourse s t c → Readable s t [(sp.ty, sp.addr)] →
    s.memAccesses s.issue.team t c sp = (s1, outs) → (∀ o ∈ outs, ∃ v, o.res = .done v) → FMap.get s1.teams s.issue.team = some t1 →
    ∃ s', exec i s = .next s' ∧ Served s s1 s' t1 c [(sp.ty, sp.addr)] regs (fun n l => nth (outVals outs l) (n - sp.acc.aux) 0)
      (if sp.acc.kind.latches then [] else [3]) (memFree s t sp c)
      (if sp.acc.kind.comesBack then
        [memLoad sp.acc (fullCourse s.issue c (t.course c)) (s.oneRead t c sp) (lanesIn s.issue.parts c) (outVals outs)] else [])
      fun _ th => th

/-- `i` is a uniform-set memory instruction (R235, R285): one access at the leader's address and data, whose value every participating thread
takes; b2 keeps no value, and `drop3` says whether b3 keeps none. -/
def UniMemUnit (i : Instr) (sp : MemSpec) (drop3 : Bool) : Prop :=
  WellFormed i = true → ∀ s t c s1 vals t1, OneCourse s t c → LeadReadable s t [(sp.ty, sp.addr)] →
    sp.perf s (s.whoOf s.issue.team t c (lanesIn s.issue.parts c))
      (sp.laneAcc (t.course c) (srcView (s.reads t c) sp.ty sp.addr) (s.leader c) (s.leader c)) = (s1, .done vals) →
    FMap.get s1.teams s.issue.team = some t1 →
    ∃ s', exec i s = .next s' ∧ Served s s1 s' t1 c [(sp.ty, sp.addr)] [] (fun _ _ => 0) (if drop3 then [3, 2] else [2])
      (fun l => l == s.leader c && memFree s t sp c l)
      (if sp.acc.kind.comesBack then
        [memLoad sp.acc (allParticipate s.issue c (t.course c)) (allParticipate s.issue c (t.course c)) (lanesIn s.issue.parts c) fun _ => vals]
        else [])
      fun _ th => th

/-- The byte a plain load of a core reads (R246): the valid one of its L1, or the home's. -/
def State.seenByte (s : State) (core pa : Nat) : Byte := (FMap.get ((s.core core).line (lineOf pa)).valid (pa % 128)).getD (s.mem.read pa)

/-- Whether a byte of a core's L1 is dirty (R246). -/
def State.dirtyByte (s : State) (core pa : Nat) : Bool := ((s.core core).line (lineOf pa)).dirty.contains (pa % 128)

/-- Every exclusive copy of the lines of a range recalled, as a write at the home slice does first (R245, R248). -/
abbrev State.recalled (s : State) (pa n : Nat) : State := (linesOf pa n).foldl (fun s l => s.recall l none) s

/-- Nothing but the L1 of a core differs. -/
def State.onlyL1 (s : State) (core : Nat) (s' : State) : Prop :=
  s' = { s with cores := s'.cores } ∧ (∀ k, k ≠ core → s'.core k = s.core k) ∧ s'.core core = { s.core core with l1 := (s'.core core).l1 }

/-- The access of size `n` at `q` passes every check of R277 as the state `s1` stands after its translation, its page seen (R258): it is aligned,
goes to a live home of this device on an unstamped page, and overlaps no pending stamped store of its own threads (R260). -/
structure PlainlyReaches (s : State) (w : Who) (m : AccMode) (q : LaneAcc) (n : Nat) (s1 : State) (x : Xlat) : Prop where
  aligned : q.addr.toNat % n = 0
  mapped : (s.translate (some w.core) w.part w.user m q.addr).2 = .ok x
  seen : s1 = (s.translate (some w.core) w.part w.user m q.addr).1.seePage w.part none q.addr.toNat x.pa false
  here : x.remote = none
  unstamped : x.stamped = false
  home : s1.homeAlive x.pa = true
  clear : s1.overlapsOwn w none x.pa n = false

/-! ## Functions the statements name -/

/-- The lowest and the highest lane with a property, or 32 (R199, R207). -/
def lowestLane (p : Nat → Bool) : Nat := ((List.range 32).find? p).getD 32
def highestLane (p : Nat → Bool) : Nat := ((List.range 32).reverse.find? p).getD 32

/-- Position and length of a bit field: B[4:0], and B[13:8] clipped at bit 31 (R174). -/
def fieldAt (b : W32) : Nat × Nat := (b.toNat % 32, min (b.toNat / 256 % 64) (32 - b.toNat % 32))

/-- bfx (R174). -/
def extractField (a b : W32) : W32 := (a >>> (fieldAt b).1) &&& BitVec.ofNat 32 (2 ^ (fieldAt b).2 - 1)

/-- bfi (R174). -/
def insertField (a b old : W32) : W32 :=
  let mask : W32 := BitVec.ofNat 32 (2 ^ (fieldAt b).2 - 1) <<< (fieldAt b).1
  (old &&& ~~~mask) ||| ((a <<< (fieldAt b).1) &&& mask)

/-- The one bits among the low `w` bits, the leading and the trailing zeros (R175). -/
def bitsSet (w : Nat) (x : W64) : Nat := ((List.range w).filter fun i => x.getLsbD i).length
def leadingZeros (w : Nat) (x : W64) : Nat := ((List.range w).takeWhile fun i => !x.getLsbD (w - 1 - i)).length
def trailingZeros (w : Nat) (x : W64) : Nat := ((List.range w).takeWhile fun i => !x.getLsbD i).length

/-- Byte `i` of a value. -/
abbrev byteOf (i : Nat) (x : W64) : BitVec 8 := x.extractLsb' (8 * i) 8

/-- A shift by a 32-bit amount: the width or more leaves `past` (R173). -/
def shiftBy {w : Nat} (f : BitVec w → Nat → BitVec w) (x : BitVec w) (y : W32) (past : BitVec w) : BitVec w :=
  if y.toNat < w then f x y.toNat else past

/-- The clamp of ffma.sat.f32 (R180). -/
def unitClamp (r : Nat) : Nat :=
  if Fmt.f32.isNan r then 0
  else if Fmt.f32.lt r 0x3F800000 then (if Fmt.f32.lt 0 r then r else 0)
  else 0x3F800000

/-- A condition on two numbers (R177). -/
def condOf (c : Cond) (x y : Int) : Bool :=
  match c with
  | .eq => decide (x = y)
  | .ne => decide (x ≠ y)
  | .lt => decide (x < y)
  | .le => decide (x ≤ y)

/-- A condition on two codes of a format (R183). -/
def condFp (f : Fmt) (c : Cond) (x y : Nat) : Bool :=
  match c with
  | .eq => f.eq x y
  | .ne => !f.eq x y
  | .lt => f.lt x y
  | .le => f.lt x y || f.eq x y

/-- What fclass makes of its match (R184). -/
def classUse (u : ClassUse) (old m : Bool) : Bool :=
  match u with
  | .set => m
  | .neg => !m
  | .conj => old && m
  | .disj => old || m

/-- Element `i` of a conversion's source, exactly (R185). -/
def sourceValue (s : CvtSrc) (i : Nat) (x : W64) : FVal :=
  match s with
  | .f64 => Fmt.f64.val x.toNat
  | .f32 => Fmt.f32.val (lo32 x).toNat
  | .f16 => Fmt.f16.val (x.toNat % 2 ^ 16)
  | .bf16 => Fmt.bf16.val (x.toNat % 2 ^ 16)
  | .e4m3 => Fmt.e4m3.val (x.toNat % 2 ^ 8)
  | .e5m2 => Fmt.e5m2.val (x.toNat % 2 ^ 8)
  | .i32 => FVal.ofInt (lo32 x).toInt
  | .n32 => FVal.ofInt (lo32 x).toNat
  | .i64 => FVal.ofInt x.toInt
  | .n64 => FVal.ofInt x.toNat
  | .f32x2 => Fmt.f32.val (elem 32 i x)
  | .f16x2 => Fmt.f16.val (elem 16 i x)
  | .bf16x2 => Fmt.bf16.val (elem 16 i x)

/-- The sources that are integers, and those of two elements (R185). -/
def cvtIsInt (s : CvtSrc) : Bool := s == .i32 || s == .n32 || s == .i64 || s == .n64
def cvtIsPair (s : CvtSrc) : Bool := s == .f32x2 || s == .f16x2 || s == .bf16x2

/-- The integer of an integer source. -/
def sourceInt (s : CvtSrc) (x : W64) : Int :=
  match s with
  | .i32 => (lo32 x).toInt
  | .n32 => (lo32 x).toNat
  | .i64 => x.toInt
  | .n64 => x.toNat
  | .f64 | .f32 | .f16 | .bf16 | .e4m3 | .e5m2 | .f32x2 | .f16x2 | .bf16x2 => 0

/-- A conversion to a range of integers (R153, R187): what is not an integer is rounded and clamped, an integer is clamped if `sat` and kept
otherwise. -/
def toRange (lo hi : Int) (s : CvtSrc) (rm : Round) (sat : Bool) (x : W64) : Int :=
  if cvtIsInt s then (if sat then max lo (min hi (sourceInt s x)) else sourceInt s x) else (sourceValue s 0 x).toInt (rmodeOf rm) lo hi

end Sys2Proof.Machine
end

