-- ==== Sys2Proof/Certificates/Slice0/Obligations.lean ====
section
/-!
DEFINITION. The statements for the provers, each with the rules of spec/ it rests on. A statement that mentions a log entry says so.
-/

open Sys2Proof Sys2Proof.Machine

/-- R171, R172, R178: the exact integer result modulo the width, truncated division with its two edge cases, lane by lane (R33, R167), with the frame. -/
def Obligations.IntegerArithmetic : Prop :=
  ∀ (d : Dst) (a b : Src) (imm : BitVec 9),
  LaneUnit (.addB32 d a b) false false 0 d [(.b32, a), (.b32, b)] (fn2 fun x y => zx64 (lo32 x + lo32 y)) ∧
  LaneUnit (.addB64 d a b) true false 0 d [(.b64, a), (.b64, b)] (fn2 fun x y => x + y) ∧
  LaneUnit (.subB32 d a b) false false 0 d [(.b32, a), (.b32, b)] (fn2 fun x y => zx64 (lo32 x - lo32 y)) ∧
  LaneUnit (.subB64 d a b) true false 0 d [(.b64, a), (.b64, b)] (fn2 fun x y => x - y) ∧
  LaneUnit (.addiB32 d a imm) false false 0 d [(.b32, a)] (fn1 fun x => zx64 (lo32 x + imm.signExtend 32)) ∧
  LaneUnit (.addiB64 d a imm) true false 0 d [(.b64, a)] (fn1 fun x => x + imm.signExtend 64) ∧
  LaneUnit (.mulB32 d a b) false false 0 d [(.b32, a), (.b32, b)] (fn2 fun x y => zx64 (lo32 x * lo32 y)) ∧
  LaneUnit (.mulB64 d a b) true false 0 d [(.b64, a), (.b64, b)] (fn2 fun x y => x * y) ∧
  LaneUnit (.mulhiI32 d a b) false false 0 d [(.b32, a), (.b32, b)] (fn2 fun x y => zx64 (hi32 (sx64 (lo32 x) * sx64 (lo32 y)))) ∧
  LaneUnit (.mulhiN32 d a b) false false 0 d [(.b32, a), (.b32, b)] (fn2 fun x y => zx64 (hi32 (zx64 (lo32 x) * zx64 (lo32 y)))) ∧
  LaneUnit (.mulwI32 d a b) true false 0 d [(.b32, a), (.b32, b)] (fn2 fun x y => sx64 (lo32 x) * sx64 (lo32 y)) ∧
  LaneUnit (.mulwN32 d a b) true false 0 d [(.b32, a), (.b32, b)] (fn2 fun x y => zx64 (lo32 x) * zx64 (lo32 y)) ∧
  LaneUnit (.divI32 d a b) false false 1 d [(.b32, a), (.b32, b)] (fn2 fun x y => zx64 (if lo32 y = 0 then 0xFFFFFFFF else (lo32 x).sdiv (lo32 y))) ∧
  LaneUnit (.divN32 d a b) false false 1 d [(.b32, a), (.b32, b)] (fn2 fun x y => zx64 (if lo32 y = 0 then 0xFFFFFFFF else lo32 x / lo32 y)) ∧
  LaneUnit (.remI32 d a b) false false 1 d [(.b32, a), (.b32, b)] (fn2 fun x y => zx64 (if lo32 y = 0 then lo32 x else (lo32 x).srem (lo32 y))) ∧
  LaneUnit (.remN32 d a b) false false 1 d [(.b32, a), (.b32, b)] (fn2 fun x y => zx64 (if lo32 y = 0 then lo32 x else lo32 x % lo32 y)) ∧
  LaneUnit (.minN32 d a b) false false 0 d [(.b32, a), (.b32, b)] (fn2 fun x y => zx64 (if (lo32 x).toNat ≤ (lo32 y).toNat then lo32 x else lo32 y)) ∧
  LaneUnit (.maxN32 d a b) false false 0 d [(.b32, a), (.b32, b)] (fn2 fun x y => zx64 (if (lo32 x).toNat ≤ (lo32 y).toNat then lo32 y else lo32 x)) ∧
  LaneUnit (.minI32 d a b) false false 0 d [(.b32, a), (.b32, b)] (fn2 fun x y => zx64 (if (lo32 x).toInt ≤ (lo32 y).toInt then lo32 x else lo32 y)) ∧
  LaneUnit (.maxI32 d a b) false false 0 d [(.b32, a), (.b32, b)] (fn2 fun x y => zx64 (if (lo32 x).toInt ≤ (lo32 y).toInt then lo32 y else lo32 x))

/-- R173. -/
def Obligations.LogicAndShifts : Prop :=
  ∀ (d : Dst) (a b : Src),
  LaneUnit (.andB32 d a b) false false 0 d [(.b32, a), (.b32, b)] (fn2 fun x y => zx64 (lo32 x &&& lo32 y)) ∧
  LaneUnit (.orB32 d a b) false false 0 d [(.b32, a), (.b32, b)] (fn2 fun x y => zx64 (lo32 x ||| lo32 y)) ∧
  LaneUnit (.xorB32 d a b) false false 0 d [(.b32, a), (.b32, b)] (fn2 fun x y => zx64 (lo32 x ^^^ lo32 y)) ∧
  LaneUnit (.andB64 d a b) true false 0 d [(.b64, a), (.b64, b)] (fn2 fun x y => x &&& y) ∧
  LaneUnit (.orB64 d a b) true false 0 d [(.b64, a), (.b64, b)] (fn2 fun x y => x ||| y) ∧
  LaneUnit (.xorB64 d a b) true false 0 d [(.b64, a), (.b64, b)] (fn2 fun x y => x ^^^ y) ∧
  LaneUnit (.shlB32 d a b) false false 0 d [(.b32, a), (.b32, b)] (fn2 fun x y => zx64 (shiftBy (fun v n => v <<< n) (lo32 x) (lo32 y) 0)) ∧
  LaneUnit (.shrN32 d a b) false false 0 d [(.b32, a), (.b32, b)] (fn2 fun x y => zx64 (shiftBy (fun v n => v >>> n) (lo32 x) (lo32 y) 0)) ∧
  LaneUnit (.shrI32 d a b) false false 0 d [(.b32, a), (.b32, b)] (fn2 fun x y => zx64 (shiftBy BitVec.sshiftRight (lo32 x) (lo32 y) (if x.getLsbD 31 then 0xFFFFFFFF else 0))) ∧
  LaneUnit (.shlB64 d a b) true false 0 d [(.b64, a), (.b32, b)] (fn2 fun x y => shiftBy (fun v n => v <<< n) x (lo32 y) 0) ∧
  LaneUnit (.shrN64 d a b) true false 0 d [(.b64, a), (.b32, b)] (fn2 fun x y => shiftBy (fun v n => v >>> n) x (lo32 y) 0) ∧
  LaneUnit (.shrI64 d a b) true false 0 d [(.i64, a), (.b32, b)] (fn2 fun x y => shiftBy BitVec.sshiftRight x (lo32 y) (if x.getLsbD 63 then 0xFFFFFFFFFFFFFFFF else 0))

/-- R174 (bfi reads its destination, R168) and R176. -/
def Obligations.BitFieldsAndAddresses : Prop :=
  ∀ (d : Dst) (a b : Src),
  LaneUnit (.bfxB32 d a b) false false 0 d [(.b32, a), (.b32, b)] (fn2 fun x y => zx64 (extractField (lo32 x) (lo32 y))) ∧
  LaneUnit (.bfiB32 d a b) false true 0 d [(.b32, a), (.b32, b)] (fn3 fun x y z => zx64 (insertField (lo32 x) (lo32 y) (lo32 z))) ∧
  LaneUnit (.lea d a b) true false 0 d [(.b64, a), (.b32, b)] (fn2 fun x y => x + sx64 (lo32 y))

/-- R175. -/
def Obligations.BitFunctions : Prop :=
  ∀ (d : Dst) (a : Src),
  LaneUnit (.notB32 d a) false false 0 d [(.b32, a)] (fn1 fun x => zx64 (~~~ lo32 x)) ∧
  LaneUnit (.popcB32 d a) false false 0 d [(.b32, a)] (fn1 fun x => zx64 (BitVec.ofNat 32 (bitsSet 32 x))) ∧
  LaneUnit (.clzB32 d a) false false 0 d [(.b32, a)] (fn1 fun x => zx64 (BitVec.ofNat 32 (leadingZeros 32 x))) ∧
  LaneUnit (.ctzB32 d a) false false 0 d [(.b32, a)] (fn1 fun x => zx64 (BitVec.ofNat 32 (trailingZeros 32 x))) ∧
  LaneUnit (.brevB32 d a) false false 0 d [(.b32, a)] (fn1 fun x => zx64 ((lo32 x).reverse)) ∧
  LaneUnit (.bswapB32 d a) false false 0 d [(.b32, a)] (fn1 fun x => zx64 (byteOf 0 x ++ byteOf 1 x ++ byteOf 2 x ++ byteOf 3 x)) ∧
  LaneUnit (.sextI8 d a) false false 0 d [(.b32, a)] (fn1 fun x => zx64 ((x.setWidth 8).signExtend 32)) ∧
  LaneUnit (.sextI16 d a) false false 0 d [(.b32, a)] (fn1 fun x => zx64 ((x.setWidth 16).signExtend 32)) ∧
  LaneUnit (.notB64 d a) true false 0 d [(.b64, a)] (fn1 fun x => ~~~ x) ∧
  LaneUnit (.popcB64 d a) false false 0 d [(.b64, a)] (fn1 fun x => zx64 (BitVec.ofNat 32 (bitsSet 64 x))) ∧
  LaneUnit (.clzB64 d a) false false 0 d [(.b64, a)] (fn1 fun x => zx64 (BitVec.ofNat 32 (leadingZeros 64 x))) ∧
  LaneUnit (.ctzB64 d a) false false 0 d [(.b64, a)] (fn1 fun x => zx64 (BitVec.ofNat 32 (trailingZeros 64 x))) ∧
  LaneUnit (.brevB64 d a) true false 0 d [(.b64, a)] (fn1 fun x => x.reverse) ∧
  LaneUnit (.bswapB64 d a) true false 0 d [(.b64, a)] (fn1 fun x => byteOf 0 x ++ byteOf 1 x ++ byteOf 2 x ++ byteOf 3 x ++ byteOf 4 x ++ byteOf 5 x ++ byteOf 6 x ++ byteOf 7 x) ∧
  LaneUnit (.sextI32 d a) true false 0 d [(.b32, a)] (fn1 fun x => sx64 (lo32 x)) ∧
  LaneUnit (.zextN32 d a) true false 0 d [(.b32, a)] (fn1 fun x => zx64 (lo32 x))

/-- R179, on pairs for FP64 (pipe V1): `Fmt.add`, `sub`, `mul` and `fma` round the exact value once (R151). -/
def Obligations.FloatArithmetic : Prop :=
  ∀ (d : Dst) (a b : Src),
  LaneUnit (.faddF32 d a b) false false 0 d [(.f32, a), (.f32, b)] (fn2 fun x y => nat64 (Fmt.f32.add .rne (lo32 x).toNat (lo32 y).toNat)) ∧
  LaneUnit (.fsubF32 d a b) false false 0 d [(.f32, a), (.f32, b)] (fn2 fun x y => nat64 (Fmt.f32.sub .rne (lo32 x).toNat (lo32 y).toNat)) ∧
  LaneUnit (.fmulF32 d a b) false false 0 d [(.f32, a), (.f32, b)] (fn2 fun x y => nat64 (Fmt.f32.mul .rne (lo32 x).toNat (lo32 y).toNat)) ∧
  LaneUnit (.ffmaF32 d a b) false true 0 d [(.f32, a), (.f32, b)] (fn3 fun x y z => nat64 (Fmt.f32.fma .rne (lo32 x).toNat (lo32 y).toNat (lo32 z).toNat)) ∧
  LaneUnit (.faddRzF32 d a b) false false 0 d [(.f32, a), (.f32, b)] (fn2 fun x y => nat64 (Fmt.f32.add .rtz (lo32 x).toNat (lo32 y).toNat)) ∧
  LaneUnit (.faddRuF32 d a b) false false 0 d [(.f32, a), (.f32, b)] (fn2 fun x y => nat64 (Fmt.f32.add .rup (lo32 x).toNat (lo32 y).toNat)) ∧
  LaneUnit (.faddRdF32 d a b) false false 0 d [(.f32, a), (.f32, b)] (fn2 fun x y => nat64 (Fmt.f32.add .rdn (lo32 x).toNat (lo32 y).toNat)) ∧
  LaneUnit (.fmulRzF32 d a b) false false 0 d [(.f32, a), (.f32, b)] (fn2 fun x y => nat64 (Fmt.f32.mul .rtz (lo32 x).toNat (lo32 y).toNat)) ∧
  LaneUnit (.ffmaRzF32 d a b) false true 0 d [(.f32, a), (.f32, b)] (fn3 fun x y z => nat64 (Fmt.f32.fma .rtz (lo32 x).toNat (lo32 y).toNat (lo32 z).toNat)) ∧
  LaneUnit (.ffmaRuF32 d a b) false true 0 d [(.f32, a), (.f32, b)] (fn3 fun x y z => nat64 (Fmt.f32.fma .rup (lo32 x).toNat (lo32 y).toNat (lo32 z).toNat)) ∧
  LaneUnit (.ffmaRdF32 d a b) false true 0 d [(.f32, a), (.f32, b)] (fn3 fun x y z => nat64 (Fmt.f32.fma .rdn (lo32 x).toNat (lo32 y).toNat (lo32 z).toNat)) ∧
  LaneUnit (.faddF64 d a b) true false 1 d [(.f64, a), (.f64, b)] (fn2 fun x y => nat64 (Fmt.f64.add .rne x.toNat y.toNat)) ∧
  LaneUnit (.fsubF64 d a b) true false 1 d [(.f64, a), (.f64, b)] (fn2 fun x y => nat64 (Fmt.f64.sub .rne x.toNat y.toNat)) ∧
  LaneUnit (.fmulF64 d a b) true false 1 d [(.f64, a), (.f64, b)] (fn2 fun x y => nat64 (Fmt.f64.mul .rne x.toNat y.toNat)) ∧
  LaneUnit (.ffmaF64 d a b) true true 1 d [(.f64, a), (.f64, b)] (fn3 fun x y z => nat64 (Fmt.f64.fma .rne x.toNat y.toNat z.toNat))

/-- R163, R181. -/
def Obligations.PackedArithmetic : Prop :=
  ∀ (d : Dst) (a b : Src),
  LaneUnit (.faddF16x2 d a b) false false 0 d [(.f16x2, a), (.f16x2, b)] (fn2 fun x y => packed 16 (Fmt.f16.add .rne (elem 16 0 x) (elem 16 0 y)) (Fmt.f16.add .rne (elem 16 1 x) (elem 16 1 y))) ∧
  LaneUnit (.fsubF16x2 d a b) false false 0 d [(.f16x2, a), (.f16x2, b)] (fn2 fun x y => packed 16 (Fmt.f16.sub .rne (elem 16 0 x) (elem 16 0 y)) (Fmt.f16.sub .rne (elem 16 1 x) (elem 16 1 y))) ∧
  LaneUnit (.fmulF16x2 d a b) false false 0 d [(.f16x2, a), (.f16x2, b)] (fn2 fun x y => packed 16 (Fmt.f16.mul .rne (elem 16 0 x) (elem 16 0 y)) (Fmt.f16.mul .rne (elem 16 1 x) (elem 16 1 y))) ∧
  LaneUnit (.faddBf16x2 d a b) false false 0 d [(.bf16x2, a), (.bf16x2, b)] (fn2 fun x y => packed 16 (Fmt.bf16.add .rne (elem 16 0 x) (elem 16 0 y)) (Fmt.bf16.add .rne (elem 16 1 x) (elem 16 1 y))) ∧
  LaneUnit (.fsubBf16x2 d a b) false false 0 d [(.bf16x2, a), (.bf16x2, b)] (fn2 fun x y => packed 16 (Fmt.bf16.sub .rne (elem 16 0 x) (elem 16 0 y)) (Fmt.bf16.sub .rne (elem 16 1 x) (elem 16 1 y))) ∧
  LaneUnit (.fmulBf16x2 d a b) false false 0 d [(.bf16x2, a), (.bf16x2, b)] (fn2 fun x y => packed 16 (Fmt.bf16.mul .rne (elem 16 0 x) (elem 16 0 y)) (Fmt.bf16.mul .rne (elem 16 1 x) (elem 16 1 y))) ∧
  LaneUnit (.ffmaF16x2 d a b) false true 0 d [(.f16x2, a), (.f16x2, b)] (fn3 fun x y z => packed 16 (Fmt.f16.fma .rne (elem 16 0 x) (elem 16 0 y) (elem 16 0 z)) (Fmt.f16.fma .rne (elem 16 1 x) (elem 16 1 y) (elem 16 1 z))) ∧
  LaneUnit (.ffmaBf16x2 d a b) false true 0 d [(.bf16x2, a), (.bf16x2, b)] (fn3 fun x y z => packed 16 (Fmt.bf16.fma .rne (elem 16 0 x) (elem 16 0 y) (elem 16 0 z)) (Fmt.bf16.fma .rne (elem 16 1 x) (elem 16 1 y) (elem 16 1 z))) ∧
  LaneUnit (.ffmaF32x2 d a b) true true 0 d [(.f32x2, a), (.f32x2, b)] (fn3 fun x y z => packed 32 (Fmt.f32.fma .rne (elem 32 0 x) (elem 32 0 y) (elem 32 0 z)) (Fmt.f32.fma .rne (elem 32 1 x) (elem 32 1 y) (elem 32 1 z)))

/-- R182. -/
def Obligations.SignBits : Prop :=
  ∀ (d : Dst) (a : Src),
  LaneUnit (.fnegF32 d a) false false 0 d [(.f32, a)] (fn1 fun x => zx64 (lo32 x ^^^ 0x80000000)) ∧
  LaneUnit (.fabsF32 d a) false false 0 d [(.f32, a)] (fn1 fun x => zx64 (lo32 x &&& 0x7FFFFFFF)) ∧
  LaneUnit (.fnegF64 d a) true false 1 d [(.f64, a)] (fn1 fun x => x ^^^ 0x8000000000000000) ∧
  LaneUnit (.fabsF64 d a) true false 1 d [(.f64, a)] (fn1 fun x => x &&& 0x7FFFFFFFFFFFFFFF)

/-- R188, R189: `Fmt.sfu` and `Fmt.div` hold R158; log 13 on the transcendental ones. -/
def Obligations.SpecialFunctionsAndDivision : Prop :=
  ∀ (d : Dst) (a b : Src),
  LaneUnit (.rcpF32 d a) false false 1 d [(.f32, a)] (fn1 fun x => nat64 (Fmt.f32.sfu .rcp (lo32 x).toNat)) ∧
  LaneUnit (.rsqF32 d a) false false 1 d [(.f32, a)] (fn1 fun x => nat64 (Fmt.f32.sfu .rsq (lo32 x).toNat)) ∧
  LaneUnit (.sqrtF32 d a) false false 1 d [(.f32, a)] (fn1 fun x => nat64 (Fmt.f32.sfu .sqrt (lo32 x).toNat)) ∧
  LaneUnit (.exp2F32 d a) false false 1 d [(.f32, a)] (fn1 fun x => nat64 (Fmt.f32.sfu .exp2 (lo32 x).toNat)) ∧
  LaneUnit (.log2F32 d a) false false 1 d [(.f32, a)] (fn1 fun x => nat64 (Fmt.f32.sfu .log2 (lo32 x).toNat)) ∧
  LaneUnit (.sinpiF32 d a) false false 1 d [(.f32, a)] (fn1 fun x => nat64 (Fmt.f32.sfu .sinpi (lo32 x).toNat)) ∧
  LaneUnit (.cospiF32 d a) false false 1 d [(.f32, a)] (fn1 fun x => nat64 (Fmt.f32.sfu .cospi (lo32 x).toNat)) ∧
  LaneUnit (.tanhF32 d a) false false 1 d [(.f32, a)] (fn1 fun x => nat64 (Fmt.f32.sfu .tanh (lo32 x).toNat)) ∧
  LaneUnit (.divF32 d a b) false false 1 d [(.f32, a), (.f32, b)] (fn2 fun x y => nat64 (Fmt.f32.div (lo32 x).toNat (lo32 y).toNat)) ∧
  LaneUnit (.rcpF64 d a) true false 1 d [(.f64, a)] (fn1 fun x => nat64 (Fmt.f64.sfu .rcp x.toNat)) ∧
  LaneUnit (.rsqF64 d a) true false 1 d [(.f64, a)] (fn1 fun x => nat64 (Fmt.f64.sfu .rsq x.toNat)) ∧
  LaneUnit (.sqrtF64 d a) true false 1 d [(.f64, a)] (fn1 fun x => nat64 (Fmt.f64.sfu .sqrt x.toNat)) ∧
  LaneUnit (.exp2F64 d a) true false 1 d [(.f64, a)] (fn1 fun x => nat64 (Fmt.f64.sfu .exp2 x.toNat)) ∧
  LaneUnit (.log2F64 d a) true false 1 d [(.f64, a)] (fn1 fun x => nat64 (Fmt.f64.sfu .log2 x.toNat)) ∧
  LaneUnit (.sinpiF64 d a) true false 1 d [(.f64, a)] (fn1 fun x => nat64 (Fmt.f64.sfu .sinpi x.toNat)) ∧
  LaneUnit (.cospiF64 d a) true false 1 d [(.f64, a)] (fn1 fun x => nat64 (Fmt.f64.sfu .cospi x.toNat)) ∧
  LaneUnit (.tanhF64 d a) true false 1 d [(.f64, a)] (fn1 fun x => nat64 (Fmt.f64.sfu .tanh x.toNat)) ∧
  LaneUnit (.divF64 d a b) true false 1 d [(.f64, a), (.f64, b)] (fn2 fun x y => nat64 (Fmt.f64.div x.toNat y.toNat))

/-- R177, R183, R184, R125. -/
def Obligations.PredicateResults : Prop :=
  ∀ (c : Cond) (u : ClassUse) (p : Fin 12) (a b : Src) (m : BitVec 7) (i j k : PredSel) (tt : BitVec 8),
  LanePred (.setpI32 c p a b) 0 p.val [(.b32, a), (.b32, b)] (fun _ => pred2 fun x y => condOf c (lo32 x).toInt (lo32 y).toInt) ∧
  LanePred (.setpN32 c p a b) 0 p.val [(.b32, a), (.b32, b)] (fun _ => pred2 fun x y => condOf c (lo32 x).toNat (lo32 y).toNat) ∧
  LanePred (.setpI64 c p a b) 0 p.val [(.i64, a), (.i64, b)] (fun _ => pred2 fun x y => condOf c x.toInt y.toInt) ∧
  LanePred (.setpN64 c p a b) 0 p.val [(.b64, a), (.b64, b)] (fun _ => pred2 fun x y => condOf c x.toNat y.toNat) ∧
  LanePred (.fsetpF32 c p a b) 0 p.val [(.f32, a), (.f32, b)] (fun _ => pred2 fun x y => condFp .f32 c x.toNat y.toNat) ∧
  LanePred (.fsetpF64 c p a b) 1 p.val [(.f64, a), (.f64, b)] (fun _ => pred2 fun x y => condFp .f64 c x.toNat y.toNat) ∧
  LanePred (.fclassF32 u p a m) 0 p.val [(.f32, a)] (fun th v => classUse u (th.pred p.val) (Fmt.f32.matchesClass m.toNat (v.headD 0).toNat)) ∧
  LanePred (.fclassF64 u p a m) 1 p.val [(.f64, a)] (fun th v => classUse u (th.pred p.val) (Fmt.f64.matchesClass m.toNat (v.headD 0).toNat)) ∧
  LanePred (.plop p i j k tt) 0 p.val [] (fun th _ => tt.getLsbD (4 * (th.predSel i).toNat + 2 * (th.predSel j).toNat + (th.predSel k).toNat))

/-- R185 to R187, R152, R153. -/
def Obligations.Conversions : Prop :=
  ∀ (d : Dst) (a : Src) (k : CvtSrc) (rm : Round) (sat x : Bool),
  (k = .f32 → LaneUnit (.cvtF32 d a k rm sat) false false 1 d [(k.ty, a)] (fn1 fun x => nat64 (Fmt.f32.integral (rmodeOf rm) (lo32 x).toNat))) ∧
  (k ≠ .f32 → LaneUnit (.cvtF32 d a k rm sat) false false 1 d [(k.ty, a)] (fn1 fun x => nat64 (Fmt.f32.round (rmodeOf rm) sat (sourceValue k 0 x)))) ∧
  (k = .f64 → LaneUnit (.cvtF64 d a k rm sat) true false 1 d [(k.ty, a)] (fn1 fun x => nat64 (Fmt.f64.integral (rmodeOf rm) x.toNat))) ∧
  (k ≠ .f64 → LaneUnit (.cvtF64 d a k rm sat) true false 1 d [(k.ty, a)] (fn1 fun x => nat64 (Fmt.f64.round (rmodeOf rm) sat (sourceValue k 0 x)))) ∧
  (cvtIsPair k = false → LaneUnit (.cvtH16 d a k rm sat x) false false 1 d [(k.ty, a)] (fn1 fun v => nat64 ((if x then .bf16 else .f16 : Fmt).round (rmodeOf rm) sat (sourceValue k 0 v)))) ∧
  (cvtIsPair k = true → LaneUnit (.cvtH16 d a k rm sat x) false false 1 d [(k.ty, a)] (fn1 fun v => packed 16 ((if x then .bf16 else .f16 : Fmt).round (rmodeOf rm) sat (sourceValue k 0 v)) ((if x then .bf16 else .f16 : Fmt).round (rmodeOf rm) sat (sourceValue k 1 v)))) ∧
  (cvtIsPair k = false → LaneUnit (.cvtF8 d a k rm sat x) false false 1 d [(k.ty, a)] (fn1 fun v => nat64 ((if x then .e5m2 else .e4m3 : Fmt).round (rmodeOf rm) sat (sourceValue k 0 v)))) ∧
  (cvtIsPair k = true → LaneUnit (.cvtF8 d a k rm sat x) false false 1 d [(k.ty, a)] (fn1 fun v => packed 8 ((if x then .e5m2 else .e4m3 : Fmt).round (rmodeOf rm) sat (sourceValue k 0 v)) ((if x then .e5m2 else .e4m3 : Fmt).round (rmodeOf rm) sat (sourceValue k 1 v)))) ∧
  LaneUnit (.cvtI32 d a k rm sat) false false 1 d [(k.ty, a)] (fn1 fun x => zx64 (BitVec.ofInt 32 (toRange (-2147483648) 2147483647 k rm sat x))) ∧
  LaneUnit (.cvtN32 d a k rm sat) false false 1 d [(k.ty, a)] (fn1 fun x => zx64 (BitVec.ofInt 32 (toRange 0 4294967295 k rm sat x))) ∧
  LaneUnit (.cvtI64 d a k rm sat) true false 1 d [(k.ty, a)] (fn1 fun x => BitVec.ofInt 64 (toRange (-9223372036854775808) 9223372036854775807 k rm sat x)) ∧
  LaneUnit (.cvtN64 d a k rm sat) true false 1 d [(k.ty, a)] (fn1 fun x => BitVec.ofInt 64 (toRange 0 18446744073709551615 k rm sat x))

/-- R190. -/
def Obligations.RandDraws : Prop :=
  ∀ (d : Dst) (a : Src), WellFormed (.rand d a) = true → ∀ s t, Lifted s t → Readable s t [(.b64, a)] →
    ∃ s', exec (.rand d a) s = .next s' ∧ Delivers s s' t false 1 d [(.b64, a)] (freeRead s t false false d [(.b64, a)])
      (fun _ th => { th with draws := th.draws + 1 }) fun c l =>
        let th := (t.course c).thread l
        zx64 (drawOf ((srcView (s.reads t c) .b64 a).val l) t.index th.root th.ords th.draws)

/-- R95, R63. -/
def Obligations.UniformIntegers : Prop :=
  ∀ (d : Dst) (a b : Src) (imm : BitVec 9) (c : Cond) (p : Fin 12),
  UniUnit (.saddB32 d a b) false false d [(.b32, a), (.b32, b)] (fn2 fun x y => zx64 (lo32 x + lo32 y)) ∧
  UniUnit (.saddB64 d a b) true false d [(.b64, a), (.b64, b)] (fn2 fun x y => x + y) ∧
  UniUnit (.ssubB32 d a b) false false d [(.b32, a), (.b32, b)] (fn2 fun x y => zx64 (lo32 x - lo32 y)) ∧
  UniUnit (.ssubB64 d a b) true false d [(.b64, a), (.b64, b)] (fn2 fun x y => x - y) ∧
  UniUnit (.saddiB32 d a imm) false false d [(.b32, a)] (fn1 fun x => zx64 (lo32 x + imm.signExtend 32)) ∧
  UniUnit (.saddiB64 d a imm) true false d [(.b64, a)] (fn1 fun x => x + imm.signExtend 64) ∧
  UniUnit (.smulB32 d a b) false false d [(.b32, a), (.b32, b)] (fn2 fun x y => zx64 (lo32 x * lo32 y)) ∧
  UniUnit (.smulB64 d a b) true false d [(.b64, a), (.b64, b)] (fn2 fun x y => x * y) ∧
  UniUnit (.smulhiI32 d a b) false false d [(.b32, a), (.b32, b)] (fn2 fun x y => zx64 (hi32 (sx64 (lo32 x) * sx64 (lo32 y)))) ∧
  UniUnit (.smulhiN32 d a b) false false d [(.b32, a), (.b32, b)] (fn2 fun x y => zx64 (hi32 (zx64 (lo32 x) * zx64 (lo32 y)))) ∧
  UniUnit (.smulwI32 d a b) true false d [(.b32, a), (.b32, b)] (fn2 fun x y => sx64 (lo32 x) * sx64 (lo32 y)) ∧
  UniUnit (.smulwN32 d a b) true false d [(.b32, a), (.b32, b)] (fn2 fun x y => zx64 (lo32 x) * zx64 (lo32 y)) ∧
  UniUnit (.sdivI32 d a b) false false d [(.b32, a), (.b32, b)] (fn2 fun x y => zx64 (if lo32 y = 0 then 0xFFFFFFFF else (lo32 x).sdiv (lo32 y))) ∧
  UniUnit (.sdivN32 d a b) false false d [(.b32, a), (.b32, b)] (fn2 fun x y => zx64 (if lo32 y = 0 then 0xFFFFFFFF else lo32 x / lo32 y)) ∧
  UniUnit (.sremI32 d a b) false false d [(.b32, a), (.b32, b)] (fn2 fun x y => zx64 (if lo32 y = 0 then lo32 x else (lo32 x).srem (lo32 y))) ∧
  UniUnit (.sremN32 d a b) false false d [(.b32, a), (.b32, b)] (fn2 fun x y => zx64 (if lo32 y = 0 then lo32 x else lo32 x % lo32 y)) ∧
  UniUnit (.sandB32 d a b) false false d [(.b32, a), (.b32, b)] (fn2 fun x y => zx64 (lo32 x &&& lo32 y)) ∧
  UniUnit (.sorB32 d a b) false false d [(.b32, a), (.b32, b)] (fn2 fun x y => zx64 (lo32 x ||| lo32 y)) ∧
  UniUnit (.sxorB32 d a b) false false d [(.b32, a), (.b32, b)] (fn2 fun x y => zx64 (lo32 x ^^^ lo32 y)) ∧
  UniUnit (.sandB64 d a b) true false d [(.b64, a), (.b64, b)] (fn2 fun x y => x &&& y) ∧
  UniUnit (.sorB64 d a b) true false d [(.b64, a), (.b64, b)] (fn2 fun x y => x ||| y) ∧
  UniUnit (.sxorB64 d a b) true false d [(.b64, a), (.b64, b)] (fn2 fun x y => x ^^^ y) ∧
  UniUnit (.sbfiB32 d a b) false true d [(.b32, a), (.b32, b)] (fn3 fun x y z => zx64 (insertField (lo32 x) (lo32 y) (lo32 z))) ∧
  UniUnit (.slea d a b) true false d [(.b64, a), (.b32, b)] (fn2 fun x y => x + sx64 (lo32 y)) ∧
  UniUnit (.sshlB32 d a b) false false d [(.b32, a), (.b32, b)] (fn2 fun x y => zx64 (shiftBy (fun v n => v <<< n) (lo32 x) (lo32 y) 0)) ∧
  UniUnit (.sshrN32 d a b) false false d [(.b32, a), (.b32, b)] (fn2 fun x y => zx64 (shiftBy (fun v n => v >>> n) (lo32 x) (lo32 y) 0)) ∧
  UniUnit (.sshrI32 d a b) false false d [(.b32, a), (.b32, b)] (fn2 fun x y => zx64 (shiftBy BitVec.sshiftRight (lo32 x) (lo32 y) (if x.getLsbD 31 then 0xFFFFFFFF else 0))) ∧
  (∀ k : BitOp, UniUnit (.sbit d a k) k.wide false d [(k.ty, a)] (fn1 (bitFn k))) ∧
  UniPred (.ssetpI32 c p a b) p.val [(.b32, a), (.b32, b)] (pred2 fun x y => condOf c (lo32 x).toInt (lo32 y).toInt) ∧
  UniPred (.ssetpN32 c p a b) p.val [(.b32, a), (.b32, b)] (pred2 fun x y => condOf c (lo32 x).toNat (lo32 y).toNat) ∧
  UniPred (.ssetpI64 c p a b) p.val [(.i64, a), (.i64, b)] (pred2 fun x y => condOf c x.toInt y.toInt) ∧
  UniPred (.ssetpN64 c p a b) p.val [(.b64, a), (.b64, b)] (pred2 fun x y => condOf c x.toNat y.toNat)

/-- R193, R63. -/
def Obligations.UniformFloats : Prop :=
  ∀ (d : Dst) (a b : Src) (c : Cond) (p : Fin 12),
  UniUnit (.sfaddF32 d a b) false false d [(.f32, a), (.f32, b)] (fn2 fun x y => nat64 (Fmt.f32.add .rne (lo32 x).toNat (lo32 y).toNat)) ∧
  UniUnit (.sfsubF32 d a b) false false d [(.f32, a), (.f32, b)] (fn2 fun x y => nat64 (Fmt.f32.sub .rne (lo32 x).toNat (lo32 y).toNat)) ∧
  UniUnit (.sfmulF32 d a b) false false d [(.f32, a), (.f32, b)] (fn2 fun x y => nat64 (Fmt.f32.mul .rne (lo32 x).toNat (lo32 y).toNat)) ∧
  UniUnit (.sffmaF32 d a b) false true d [(.f32, a), (.f32, b)] (fn3 fun x y z => nat64 (Fmt.f32.fma .rne (lo32 x).toNat (lo32 y).toNat (lo32 z).toNat)) ∧
  UniUnit (.sfaddF64 d a b) true false d [(.f64, a), (.f64, b)] (fn2 fun x y => nat64 (Fmt.f64.add .rne x.toNat y.toNat)) ∧
  UniUnit (.sfsubF64 d a b) true false d [(.f64, a), (.f64, b)] (fn2 fun x y => nat64 (Fmt.f64.sub .rne x.toNat y.toNat)) ∧
  UniUnit (.sfmulF64 d a b) true false d [(.f64, a), (.f64, b)] (fn2 fun x y => nat64 (Fmt.f64.mul .rne x.toNat y.toNat)) ∧
  UniUnit (.sffmaF64 d a b) true true d [(.f64, a), (.f64, b)] (fn3 fun x y z => nat64 (Fmt.f64.fma .rne x.toNat y.toNat z.toNat)) ∧
  UniUnit (.srcpF32 d a) false false d [(.f32, a)] (fn1 fun x => nat64 (Fmt.f32.sfu .rcp (lo32 x).toNat)) ∧
  UniUnit (.srsqF32 d a) false false d [(.f32, a)] (fn1 fun x => nat64 (Fmt.f32.sfu .rsq (lo32 x).toNat)) ∧
  UniUnit (.ssqrtF32 d a) false false d [(.f32, a)] (fn1 fun x => nat64 (Fmt.f32.sfu .sqrt (lo32 x).toNat)) ∧
  UniUnit (.sexp2F32 d a) false false d [(.f32, a)] (fn1 fun x => nat64 (Fmt.f32.sfu .exp2 (lo32 x).toNat)) ∧
  UniUnit (.slog2F32 d a) false false d [(.f32, a)] (fn1 fun x => nat64 (Fmt.f32.sfu .log2 (lo32 x).toNat)) ∧
  UniUnit (.ssinpiF32 d a) false false d [(.f32, a)] (fn1 fun x => nat64 (Fmt.f32.sfu .sinpi (lo32 x).toNat)) ∧
  UniUnit (.scospiF32 d a) false false d [(.f32, a)] (fn1 fun x => nat64 (Fmt.f32.sfu .cospi (lo32 x).toNat)) ∧
  UniUnit (.stanhF32 d a) false false d [(.f32, a)] (fn1 fun x => nat64 (Fmt.f32.sfu .tanh (lo32 x).toNat)) ∧
  UniUnit (.sfdivF32 d a b) false false d [(.f32, a), (.f32, b)] (fn2 fun x y => nat64 (Fmt.f32.div (lo32 x).toNat (lo32 y).toNat)) ∧
  (∀ (k : CvtSrc) (rm : Round) (sat : Bool), UniUnit (.scvtF32 d a k rm sat) false false d [(k.ty, a)] (fn1 fun x => nat64 (if k = .f32 then Fmt.f32.integral (rmodeOf rm) (lo32 x).toNat else Fmt.f32.round (rmodeOf rm) sat (sourceValue k 0 x)))) ∧
  (∀ (k : CvtSrc) (rm : Round) (sat : Bool), UniUnit (.scvtI32 d a k rm sat) false false d [(k.ty, a)] (fn1 fun x => zx64 (BitVec.ofInt 32 (toRange (-2147483648) 2147483647 k rm sat x)))) ∧
  UniPred (.sfsetpF32 c p a b) p.val [(.f32, a), (.f32, b)] (pred2 fun x y => condFp .f32 c x.toNat y.toNat) ∧
  UniPred (.sfsetpF64 c p a b) p.val [(.f64, a), (.f64, b)] (pred2 fun x y => condFp .f64 c x.toNat y.toNat)

/-- R198 to R200, R207, on the members of R195. -/
def Obligations.GroupExchange : Prop :=
  ∀ (d : Dst) (a b : Src) (p : PredSel),
  GroupUnit (.shfl d a b) false d [(.b32, a), (.b32, b)] (fun _ ms v l =>
    if ((v l).getD 1 0).toNat < 32 ∧ ((v l).getD 1 0).toNat ∈ ms then (v ((v l).getD 1 0).toNat).headD 0 else (v l).headD 0) ∧
  GroupUnit (.censusMask d p) false d [] (fun c ms _ _ => zx64 (maskOf (ms.filter fun m => (c.thread m).predSel p))) ∧
  GroupUnit (.censusCount d p) false d [] (fun c ms _ _ => zx64 (BitVec.ofNat 32 (ms.filter fun m => (c.thread m).predSel p).length)) ∧
  GroupUnit (.censusAgree d p) false d [] (fun c ms _ _ => if ∀ m ∈ ms, (c.thread m).predSel p = false then 0 else if ∀ m ∈ ms, (c.thread m).predSel p = true then 2 else 1) ∧
  GroupUnit (.censusFirst d p) false d [] (fun c ms _ _ => zx64 (BitVec.ofNat 32 (lowestLane fun m => ms.contains m && (c.thread m).predSel p))) ∧
  GroupUnit (.censusLast d p) false d [] (fun c ms _ _ => zx64 (BitVec.ofNat 32 (highestLane fun m => ms.contains m && (c.thread m).predSel p))) ∧
  GroupUnit (.censusRank d p) false d [] (fun c ms _ l => zx64 (BitVec.ofNat 32 (ms.filter fun m => (c.thread m).predSel p && decide (m < l)).length)) ∧
  GroupUnit (.matchKeys d a b) false d [(.b32, a), (.b32, b)] (fun _ ms v l => zx64 (maskOf (ms.filter fun m => v m == v l))) ∧
  GroupUnit (.isect d a b) false d [(.b32, a), (.b32, b)] (fun _ ms v l =>
    let hit := lowestLane fun m => ms.contains m && (v m).getD 1 0 == (v l).headD 0
    if hit < 32 then zx64 (BitVec.ofNat 32 hit) else 0xFFFFFFFF)

/-- R203, R204: `treeOf` and `runningOf` are Tree and Prefix of R202, `redFinish` is Finish. -/
def Obligations.GroupReductions : Prop :=
  ∀ (d : Dst) (a : Src),
  (∀ k : RedKind, GroupUnit (.red d a k) k.wide d [(k.ty, a)] (fun _ ms v _ => redFinish k (treeOf (redOp k) (loadLanes ms fun l => (v l).headD 0)))) ∧
  (∀ k : RedKind, GroupUnit (.scan d a k false) k.wide d [(k.ty, a)] (fun _ ms v l =>
    redFinish k (nth (runningOf (redOp k) (loadLanes ms fun m => (v m).headD 0)) l none))) ∧
  (∀ k : RedKind, GroupUnit (.scan d a k true) k.wide d [(k.ty, a)] (fun _ ms v l =>
    redFinish k (nth (runningOf (redOp k) ((List.range 32).map fun m => if m = 0 then none else if ms.contains (m - 1) then some ((v (m - 1)).headD 0) else none)) l none)))

/-- R205, R206. R205 and the order of R165. -/
def Obligations.Selections : Prop :=
  
  (∀ (d : Dst) (a b : Src),
    GroupUnit (.maxiF32 d a) true d [(.b64, a)] (fun _ ms v _ =>
      MaxTy.f32.finish ((treeOf (fun x y => if MaxTy.f32.wins true x y then x else y) (loadLanes ms fun l => (v l).headD 0)).getD 0)) ∧
    GroupUnit (.miniF32 d a) true d [(.b64, a)] (fun _ ms v _ =>
      MaxTy.f32.finish ((treeOf (fun x y => if MaxTy.f32.wins false x y then x else y) (loadLanes ms fun l => (v l).headD 0)).getD 0)) ∧
    GroupUnit (.maxiF16 d a) true d [(.b64, a)] (fun _ ms v _ =>
      MaxTy.f16.finish ((treeOf (fun x y => if MaxTy.f16.wins true x y then x else y) (loadLanes ms fun l => (v l).headD 0)).getD 0)) ∧
    GroupUnit (.miniF16 d a) true d [(.b64, a)] (fun _ ms v _ =>
      MaxTy.f16.finish ((treeOf (fun x y => if MaxTy.f16.wins false x y then x else y) (loadLanes ms fun l => (v l).headD 0)).getD 0)) ∧
    GroupUnit (.maxiBf16 d a) true d [(.b64, a)] (fun _ ms v _ =>
      MaxTy.bf16.finish ((treeOf (fun x y => if MaxTy.bf16.wins true x y then x else y) (loadLanes ms fun l => (v l).headD 0)).getD 0)) ∧
    GroupUnit (.miniBf16 d a) true d [(.b64, a)] (fun _ ms v _ =>
      MaxTy.bf16.finish ((treeOf (fun x y => if MaxTy.bf16.wins false x y then x else y) (loadLanes ms fun l => (v l).headD 0)).getD 0)) ∧
    GroupUnit (.maxiI32 d a) true d [(.b64, a)] (fun _ ms v _ =>
      MaxTy.i32.finish ((treeOf (fun x y => if MaxTy.i32.wins true x y then x else y) (loadLanes ms fun l => (v l).headD 0)).getD 0)) ∧
    GroupUnit (.miniI32 d a) true d [(.b64, a)] (fun _ ms v _ =>
      MaxTy.i32.finish ((treeOf (fun x y => if MaxTy.i32.wins false x y then x else y) (loadLanes ms fun l => (v l).headD 0)).getD 0)) ∧
    GroupUnit (.maxiN32 d a) true d [(.b64, a)] (fun _ ms v _ =>
      MaxTy.n32.finish ((treeOf (fun x y => if MaxTy.n32.wins true x y then x else y) (loadLanes ms fun l => (v l).headD 0)).getD 0)) ∧
    GroupUnit (.miniN32 d a) true d [(.b64, a)] (fun _ ms v _ =>
      MaxTy.n32.finish ((treeOf (fun x y => if MaxTy.n32.wins false x y then x else y) (loadLanes ms fun l => (v l).headD 0)).getD 0)) ∧
    GroupUnit (.selk d a b) true d [(.b64, a), (.b32, b)] (fun _ ms v l =>
      let best := sortBy (fun x y => MaxTy.f32.wins true x y) (ms.map fun m => (v m).headD 0)
      if l < ((v l).getD 1 0).toNat ∧ l < best.length then MaxTy.f32.finish (best.getD l 0) else 0xFFFFFFFFFF800000)) ∧
  (∀ (t : MaxTy) (most : Bool) (x : Nat → W64) (ms : List Nat), (∀ m ∈ ms, m < 32) → ms ≠ [] →
      ∃ m ∈ ms, treeOf (fun a b => if t.wins most a b then a else b) (loadLanes ms x) = some (x m) ∧ ∀ k ∈ ms, t.wins most (x m) (x k) = true)

/-- R202: the integer kinds give one result in any order. -/
def Obligations.IntegerReductionAnyOrder : Prop :=
  ∀ (k : RedKind) (x : Nat → W64) (ms order : List Nat), k ≠ .addF32 → k ≠ .mulF32 → k ≠ .maxF32 → k ≠ .minF32 → k ≠ .maxnF32 → k ≠ .minnF32 → k ≠ .addF64 →
    (∀ m ∈ ms, m < 32) → ms.Nodup → ms.Perm order → (∀ m ∈ ms, k.wide = false → x m = zx64 (lo32 (x m))) →
    redFinish k (treeOf (redOp k) (loadLanes ms x)) = order.foldl (fun acc m => redOp k acc (x m)) (redEmpty k)

/-- R289 to R292. A fence that must wait, a bar.wait whose phase is not over and a commitw with a pending store waits instead. -/
def Obligations.SynchronisationUnits : Prop :=
  ∀ (d : Fin 64) (a b : Src),
  UniServes (.barArrive d a b) [(.b32, a), (.b32, b)] [d.val] true (fun s t _ v =>
    let k := (v.headD 0).toNat % 16
    let bar := nth t.barriers k {}
    let e := if bar.arrived = 0 then max 1 (min (fld (v.headD 0).toNat 16 11) 1024) else bar.exp
    let n := bar.arrived + (lo32 (v.getD 1 0)).toNat
    let bar' : Barrier := if e ≤ n then ⟨bar.phase + 1, 0, e⟩ else ⟨bar.phase, n, e⟩
    some (s.onTeam fun t => { t with barriers := setNth t.barriers k bar' }, fun _ => bar.phase, id)) ∧
  UniServes (.barWait a b) [(.b32, a), (.b32, b)] [] true (fun s t _ v =>
    let past := ((nth t.barriers ((v.headD 0).toNat % 16) {}).phase - lo32 (v.getD 1 0)).toNat
    if 1 ≤ past ∧ past ≤ 2 ^ 31 then some (s, fun _ => 0, id) else none) ∧
  (∀ (sc : Scope) (o : FenceOrd), UniServes (.fence sc o) [] [] true (fun s t c _ =>
    let rel := o != .acq
    let acq := o != .rel
    let s1 := if rel && 3 ≤ Scope.rank sc then s.released t else s
    let s2 := if o == .sc then s1.ticket else s1
    if rel && 4 ≤ Scope.rank sc && !s.settled t c (sc == .dm) then none
    else some (if acq && 3 ≤ Scope.rank sc then s2.acquired t else s2, fun _ => 0, id))) ∧
  UniServes (.commitw) [] [] true (fun s t c _ =>
    if (lanesIn s.issue.parts c).all fun l => ((t.course c).thread l).stamps.isEmpty then some (s, fun _ => 0, id) else none)

/-- R131, R133, R134, R136, R139. -/
def Obligations.WorkUnits : Prop :=
  ∀ (d : Fin 64) (a : Src),
  UniServes (.chunk d) [] [d.val, d.val + 1] false (fun s t _ _ =>
    (s.sliceOf t).map fun x =>
      let n := min x.chunkRem (max (max 1 (x.fieldAt 0x4C 4)) ((x.chunkRem + 2 * x.gridTeams - 1) / (2 * x.gridTeams)))
      (s.setSlice (sliceKey t.part t.slice) { x with chunkRem := x.chunkRem - n }, wordOf d.val (packed 32 (x.fieldAt 0x48 4 - x.chunkRem) n), id)) ∧
  UniServes (.depdec d a) [(.b32, a)] [d.val] false (fun s t c v =>
    if s.settled t c false then
      let r := (s.released t).decrement t.part (lo32 (v.headD 0)).toNat
      some (r.1.acquired t, fun _ => BitVec.ofNat 32 (r.2.getD 0xFFFFFFFF), id)
    else none) ∧
  UniServes (.slice d a) [(.addr, a)] [d.val] false (fun s t c v =>
    if s.settled t c false ∧ (v.headD 0).toNat % 64 = 0 then
      match (s.released t).tableRead t.part (!s.isPriv t) (v.headD 0).toNat 128 3 with
      | .ok b =>
        let r := (s.released t).createSlice t.part false (v.headD 0) b id
        some (r.1, fun _ => BitVec.ofNat 32 (r.2.getD 0xFFFFFFFF), id)
      | .error _ => none
    else none) ∧
  UniServes (.capq d a) [(.b32, a)] [d.val, d.val + 1] false (fun s t _ v =>
    some (s, wordOf d.val (s.capEntry t.part (lo32 (v.headD 0)).toNat), id)) ∧
  UniServes (.sleep a) [(.b32, a)] [] false (fun s t c v =>
    if lo32 (v.headD 0) = 0 ∧ (lanesIn s.issue.parts c).all (fun l => ((t.course c).thread l).progress.isNone) then some (s, fun _ => 0, id)
    else none)

/-- R137, R138, R376: keyPiece is the key image of R35. A write to a read-only register is ignored, in privileged mode too (R4, R138). Which threads
the write that halts stops beside its own is `State.stopSet`, what becomes of them `State.stopThreads`; the last clauses say what the two do. -/
def Obligations.SpecialRegisters : Prop :=
  
  (∀ (d : Fin 64) (r : SReg),
    UniServes (.sget d r) [] (if r.w64 then [d.val, d.val + 1] else [d.val]) false (fun s t c _ =>
      let th := (t.course c).thread (s.leader c)
      let x : W64 := match r with
      | .tsw => zx64 (th.tsw &&& 0xF8FF0000)
      | .key0 => th.keyPiece 0
      | .key1 => th.keyPiece 1
      | .key2 => th.keyPiece 2
      | .key3 => th.keyPiece 3
      | .key4 => th.keyPiece 4
      | .slice => nat64 t.slice
      | .budget => match s.sliceOf t with
        | some x => if x.budget = 0 then 0xFFFFFFFFFFFFFFFF else nat64 (x.budget - x.consumed)
        | none => 0
      | .deadline => match s.sliceOf t with
        | some x => x.deadline
        | none => 0
      | .clkw => nat64 ((s.die (dieOfCore t.core)).dmceil * 2 ^ 16 + (s.die (dieOfCore t.core)).pkceil)
      | .trapbase => t.trapbase
      | .fault => zx64 th.fault
      | .faultaddr => th.faultaddr
      | .faultmask => zx64 th.faultmask
      | .tpc => th.tpc
      if r = .clkw ∧ s.isPriv t = false then none else some (s, wordOf d.val x, id))) ∧
  (∀ (r : SReg) (b : Src),
    UniServes (.sset r b) [(if r.w64 then .b64 else .b32, b)] [] false (fun s t c v =>
      let x := v.headD 0
      let p := s.isPriv t
      match r with
      | .tsw =>
        let mode := (lo32 x).toNat / 2 ^ 28 % 4
        let halts := if p = true ∧ (lo32 x).getLsbD 30 = true then (lanesIn s.issue.parts c).filter fun l => !((t.course c).thread l).halted else []
        some (halts.foldl (fun u l => u.stopThreads (u.stopSet s.issue.team c l mode) (mode == 0 || mode == 3) s.issue.team 0) s, fun _ => 0, fun th =>
          let old := if (lo32 x).getLsbD 27 then th.tsw &&& 0xF7FFFFFF else th.tsw
          { th with tsw := if p then (old &&& 0x0FFFFFFF) ||| (lo32 x &&& 0xF0000000) else old })
      | .trapbase => some (s.onTeam fun t => { t with trapbase := x &&& 0xFFFFFFFFFFFFFFFC }, fun _ => 0, id)
      | .tpc => some (s, fun _ => 0, fun th => { th with tpc := x })
      | .clkw =>
        let k := dieOfCore t.core
        if p then some (s.setDie k { s.die k with pkceil := max 4 (fld x.toNat 0 16), dmceil := max 100 (fld x.toNat 16 16) }, fun _ => 0, id)
        else none
      | .key0 | .key1 | .key2 | .key3 | .key4 | .slice | .budget | .deadline | .fault | .faultaddr | .faultmask => some (s, fun _ => 0, id))) ∧
  (∀ (s : State) (tk c l : Nat) (t : Team) (r : ThreadRef) (th : Thread), FMap.get s.teams tk = some t →
    s.threadAt r.team r.course r.lane = some th →
    s.stopSet tk c l 1 = [] ∧
    (r ∈ s.stopSet tk c l 2 ↔ r ≠ ⟨tk, c, l⟩ ∧ r.team = tk ∧ r.course = c) ∧
    (r ∈ s.stopSet tk c l 0 ↔ r ≠ ⟨tk, c, l⟩ ∧ r.team = tk) ∧
    (∀ u, FMap.get s.teams r.team = some u → u.part = t.part → r ≠ ⟨tk, c, l⟩ → r ∈ s.stopSet tk c l 3)) ∧
  (∀ (s : State) (xs : List ThreadRef) (freeze : Bool) (tk token : Nat) (r : ThreadRef) (th : Thread),
    s.threadAt r.team r.course r.lane = some th →
    ∃ th', (s.stopThreads xs freeze tk token).threadAt r.team r.course r.lane = some th' ∧ th'.pc = th.pc ∧ th'.wait = th.wait ∧
      th'.tsw = (if r ∈ xs then th.tsw ||| 0x40000000 else th.tsw))

/-- What each access does to memory is State.accessLane, which further statements describe. That a 128-bit load leaves b3 without a value
(`AccKind.latches`) is the model's reading of R70 and R278 (log 17). The last clauses are R296: the words of a fetch or gather, from the segments and
scales it reads, and where those are read; the flags of a mixed format are those of its B elements by log 18. -/
def Obligations.DeviceLoads : Prop :=
  ∀ (k : LdKind) (o : OrdAcc) (op : AtomOp) (sc : Scope) (od : Order) (f : MFmt) (w : Bool) (d t : Fin 64) (c : Fin 32) (a : Src) (off : BitVec 6),
  MemUnit (.ld k d a off) (deviceSpec { kind := .load k.size (k == .i8 || k == .i16), dest := d.val } a (off.toInt * k.size) false) [] ∧
  MemUnit (.ldOrdered o d a) (deviceSpec { kind := .load o.size false, scope := o.scope, order := if o.sc then .sc else .acq, dest := d.val } a 0 false) [] ∧
  MemUnit (.atom op (.dev sc od) d a) (deviceSpec { kind := .atom op, scope := sc, order := od, dest := d.val } a 0 false) [] ∧
  MemUnit (.lda w d a t) (deviceSpec { kind := .lda w, dest := d.val, aux := t.val } a 0 false) [] ∧
  MemUnit (.fetch f d a c) (deviceSpec { kind := .fetch f, dest := d.val, aux := c.val } a 0 false) [] ∧
  MemUnit (.gather f d a c) (deviceSpec { kind := .fetch f, dest := d.val, aux := c.val } a 0 true) [] ∧
  (∀ (s s1 s2 s3 : State) (w : Who) (q : LaneAcc) (hb : List Byte) (segs : List (Nat × Bool)) (scales : List Nat) (dest aux : Nat),
    let h := handleOf hb
    let n := mDepth f / 4
    let wd := mWidth f
    let c0 := q.col.toNat / mDepth f * mDepth f
    s.fetchAt w q.addr.toNat 64 = (s1, .ok hb) →
    readAll (fun s g => s.fetchSegment w f h q.row.toNat (c0 + g * n)) s1 [0, 1, 2, 3] = (s2, .ok segs) →
    readAll (fun s b => s.fetchScale w h q.row.toNat (c0 / 32 + b)) s2 (if f.scaleNames = 0 then [] else List.range ((mDepth f + 31) / 32)) = (s3, .ok scales) →
    (∀ p ∈ segs, p.1 < 2 ^ (n * wd)) → (∀ x ∈ scales, x < 256) →
    ∃ v, s.accessLane w { kind := .fetch f, dest := dest, aux := aux } q = (s3, .done v) ∧ v.length = f.names + 1 ∧
      (∀ g j i, g < 4 → j < n → i < wd →
        (nth v (((g * n + j) * wd + i) / 32) 0).getLsbD (((g * n + j) * wd + i) % 32) = (nth segs g (0, false)).1.testBit (j * wd + i)) ∧
      (f.scaleNames ≠ 0 → ∀ b, b < scales.length → (nth v f.elemNames 0).toNat / 2 ^ (8 * b) % 256 = nth scales b 0) ∧
      ∀ k, k < 32 → (nth v f.names 0).getLsbD k =
        if k < 4 then (nth segs k (0, false)).2
        else if k < 8 then ((List.range n).any fun j => mNonFinite f ((nth segs (k - 4) (0, false)).1 / 2 ^ (j * wd) % 2 ^ wd)) ||
          nth scales ((k - 4) * n / 32) 0 == 0xFF
        else false) ∧
  (∀ (s s1 : State) (w : Who) (h : MHandle) (r col : Nat) (b : List Byte),
    let n := mDepth f / 4
    let bytes := (min n (h.cols - col) * mWidth f + 7) / 8
    (h.rows ≤ r ∨ h.cols ≤ col → s.fetchSegment w f h r col = (s, .ok (0, false))) ∧
    (r < h.rows → col < h.cols → h.sparse = false → s.fetchAt w (h.base + r * h.stride + col * mWidth f / 8) bytes = (s1, .ok b) →
      s.fetchSegment w f h r col = (s1, .ok (leNat b % 2 ^ (min n (h.cols - col) * mWidth f), true))) ∧
    (let bit0 := r * ((h.cols + n - 1) / n);
      r < h.rows → col < h.cols → h.sparse = true → s.fetchAt w (h.index + bit0 / 8) ((bit0 + col / n) / 8 - bit0 / 8 + 1) = (s1, .ok b) →
      let m := leNat b / 2 ^ (bit0 % 8)
      (m.testBit (col / n) = false → s.fetchSegment w f h r col = (s1, .ok (0, false))) ∧
      ∀ s2 b2, m.testBit (col / n) = true →
        s1.fetchAt w (h.base + r * h.stride + ((List.range (col / n)).filter fun k => m.testBit k).length * (n * mWidth f / 8)) bytes = (s2, .ok b2) →
        s.fetchSegment w f h r col = (s2, .ok (leNat b2 % 2 ^ (min n (h.cols - col) * mWidth f), true))) ∧
    (h.rows ≤ r ∨ h.cols ≤ 32 * col → s.fetchScale w h r col = (s, .ok 0x7F)) ∧
    (r < h.rows → 32 * col < h.cols → s.fetchAt w (h.scales + r * ((h.cols + 31) / 32) + col) 1 = (s1, .ok b) → s.fetchScale w h r col = (s1, .ok (leNat b)))) ∧
  (∀ (s s1 : State) (w : Who) (va n : Nat) (x : Xlat), 0 < n → va % 128 + n ≤ 128 → va < 2 ^ 64 →
    s.translate (some w.core) w.part w.user .read (BitVec.ofNat 64 va) = (s1, .ok x) → x.remote = none → x.stamped = false →
    s1.overlapsOwn w none x.pa n = false →
    (∀ b, FMap.get (s1.core w.core).fcache (lineOf x.pa) = some b → s.fetchAt w va n = (s1, .ok ((b.drop (x.pa % 128)).take n))) ∧
    (FMap.get (s1.core w.core).fcache (lineOf x.pa) = none → s1.homeAlive x.pa n = true → s1.poisoned x.pa n = false →
      ∃ s2, s.fetchAt w va n = (s2, .ok (s1.mem.readN x.pa n)) ∧ s2 = { s1 with cores := s2.cores } ∧
        (s1.poisoned (x.pa / 128 * 128) 128 = false →
          FMap.get (s2.core w.core).fcache (lineOf x.pa) = some (s1.mem.readN (x.pa / 128 * 128) 128))))

/-- The stored address is the access's own (MemSpec.laneAcc): the address operand and the displacement, R275. -/
def Obligations.DeviceStores : Prop :=
  ∀ (k : StKind) (o : OrdAcc) (d t : Fin 64) (a : Src) (off : BitVec 6),
  MemUnit (.st k d a off) (deviceSpec { kind := .store k.size, dest := d.val } a (off.toInt * k.size) false) [] ∧
  MemUnit (.stOrdered o d a) (deviceSpec { kind := .store o.size, scope := o.scope, order := if o.sc then .sc else .rel, dest := d.val } a 0 false) [] ∧
  MemUnit (.sts k d a t) (deviceSpec { kind := .sts k.size, dest := d.val, aux := t.val } a 0 false) [t.val, t.val + 1]

/-- ldx, stx and atom on an explicit level -/
def Obligations.LevelAccesses : Prop :=
  ∀ (w : XWidth) (op : AtomOp) (d : Fin 64) (a : Src) (off : BitVec 6),
  (∀ l : XLevel, MemUnit (.ldx l w d a off) (levelAccess l { kind := .load w.size false, dest := d.val } a (off.toInt * w.size)) []) ∧
  (∀ l : XLevel, MemUnit (.stx l w d a off) (levelAccess l { kind := .store w.size, dest := d.val } a (off.toInt * w.size)) []) ∧
  (∀ l : Level, MemUnit (.atom op (.level l) d a) (levelSpec l { kind := .atom op, dest := d.val } a 0) [])

/-- R63, R235, R285, R286. That a 128-bit sld or scas leaves b3 without a value, and that mon leaves b3 as it was, is the model's reading of R70 and
R278 (log 17). -/
def Obligations.UniformAccesses : Prop :=
  ∀ (o : OrdAcc) (sc : Scope) (od : Order) (d : Fin 64) (a : Src) (off : BitVec 6),
  (∀ (k : LdKind), UniMemUnit (.sld (.plain k off) d a) (deviceSpec { kind := .load k.size (k == .i8 || k == .i16), dest := d.val, uniform := true } a (off.toInt * k.size) false) (decide (8 < k.size))) ∧
  UniMemUnit (.sld (.ordered o) d a) (deviceSpec { kind := .load o.size false, scope := o.scope, order := if o.sc then .sc else .acq, dest := d.val, uniform := true } a 0 false) (decide (8 < o.size)) ∧
  (∀ (k : StKind), UniMemUnit (.sst (.plain k off) d a) (deviceSpec { kind := .store k.size, dest := d.val, uniform := true } a (off.toInt * k.size) false) true) ∧
  UniMemUnit (.sst (.ordered o) d a) (deviceSpec { kind := .store o.size, scope := o.scope, order := if o.sc then .sc else .rel, dest := d.val, uniform := true } a 0 false) true ∧
  (∀ (l : XLevel) (w : XWidth), UniMemUnit (.sldx l w d a off) (levelAccess l { kind := .load w.size false, dest := d.val, uniform := true } a (off.toInt * w.size)) (decide (8 < w.size))) ∧
  (∀ (l : XLevel) (w : XWidth), UniMemUnit (.sstx l w d a off) (levelAccess l { kind := .store w.size, dest := d.val, uniform := true } a (off.toInt * w.size)) true) ∧
  (∀ op, UniMemUnit (.satom op (.dev sc od) d a) (deviceSpec { kind := .atom op, scope := sc, order := od, dest := d.val, uniform := true } a 0 false) false) ∧
  (∀ op l, UniMemUnit (.satom op (.level l) d a) (levelSpec l { kind := .atom op, dest := d.val, uniform := true } a 0) false) ∧
  (∀ w, UniMemUnit (.scas w (.dev sc od) d a) (deviceSpec { kind := .cas w, scope := sc, order := od, dest := d.val, uniform := true } a 0 false) (w == .b128)) ∧
  (∀ w l, UniMemUnit (.scas w (.level l) d a) (levelSpec l { kind := .cas w, dest := d.val, uniform := true } a 0) (w == .b128)) ∧
  UniMemUnit (.mon a) (deviceSpec { kind := .mon } a 0 false) false

/-- R277: the first failing check decides. The detail numbers of STAMP_MIX are those the model reports. `State.seePage` keeps how a page was last seen,
plain or stamped (R258, log 54). -/
def Obligations.AccessChecks : Prop :=
  ∀ (s : State) (w : Who) (a : Access) (q : LaneAcc), (∀ f, a.kind ≠ .fetch f) →
  (q.addr.toNat % a.kind.size ≠ 0 → s.accessLane w a q = (s, .fault .align 0 q.addr)) ∧
  (q.addr.toNat % a.kind.size = 0 →
    (∀ s1 e, s.translate (some w.core) w.part w.user a.kind.mode q.addr = (s1, .error e) →
      s.accessLane w a q = (s1, if e = .linkLost then .fault .linkLost 0 q.addr else .logged e q.addr)) ∧
    (∀ s0 x, s.translate (some w.core) w.part w.user a.kind.mode q.addr = (s0, .ok x) → x.remote = none → s0.homeAlive x.pa = true →
      let s1 := s0.seePage w.part none q.addr.toNat x.pa x.stamped
      (x.stamped = true → (∃ n, a.kind = .store n) ∨ (∃ op, a.kind = .atom op) ∨ (∃ c, a.kind = .cas c) →
        s.accessLane w a q = (s1, .fault .stampMix 0 q.addr)) ∧
      (x.stamped = false → (∃ n, a.kind = .sts n) ∨ (∃ b, a.kind = .lda b) → s.accessLane w a q = (s1, .fault .stampMix 1 q.addr))))

/-- R342 to R345. A leaf of a remote page (RM = 1) goes through the domain window and is not part of this statement. -/
def Obligations.Translation : Prop :=
  ∀ (s : State) (k part : Nat) (user : Bool) (m : AccMode) (va : W64),
  (canonical va = false → s.translate (some k) part user m va = (s, .error .xlate)) ∧
  let out := fun (leaf size : Nat) => (if m = .write ∧ leaf.testBit 2 = false ∨ m = .fetch ∧ leaf.testBit 3 = false ∨ user = true ∧ leaf.testBit 4 = false ∨
      (s.part part).granted (leaf / 256 % 2 ^ 44 * 256) size = false then .error .prot
    else .ok { pa := leaf / 256 % 2 ^ 44 * 256 + va.toNat % 2 ^ 57 % size, remote := none, stamped := leaf.testBit 5, domain := leaf.testBit 6 } : Except FCode Xlat)
  (∀ e, canonical va = true → tlbFind (s.core k).tlb part (va.toNat % 2 ^ 57) = some e → e.leaf.toNat.testBit 7 = false →
    s.translate (some k) part user m va = (s, out e.leaf.toNat e.size)) ∧
  (canonical va = true → tlbFind (s.core k).tlb part (va.toNat % 2 ^ 57) = none →
    (∀ e, s.walk (va.toNat % 2 ^ 57) ((s.part part).cfg 0x08 8) 4 = .error e → (e = .xlate ∨ e = .linkLost) ∧ s.translate (some k) part user m va = (s, .error e)) ∧
    ∀ leaf size, s.walk (va.toNat % 2 ^ 57) ((s.part part).cfg 0x08 8) 4 = .ok (leaf, size) → leaf.testBit 7 = false →
      ∃ tlb, s.translate (some k) part user m va = (s.setCore k { s.core k with tlb := tlb }, out leaf size))

/-- R235, R246, R273, R276, R277. That a load whose bytes are not all valid takes only the dirty ones from its L1 and the others, with the rest of their
16-byte block, from the home is the model's reading of R246 and R276 (log 12). -/
def Obligations.PlainMemory : Prop :=
  ∀ (s : State) (w : Who) (q : LaneAcc) (d n : Nat) (u : Bool) (s1 : State) (x : Xlat),
  (∀ signed, PlainlyReaches s w .read q n s1 x → s1.l1Poisoned w.core x.pa n = false →
    let loaded := fun a => if s1.l1Has w.core x.pa n || s1.dirtyByte w.core a then s1.seenByte w.core a else s1.mem.read a
    ∃ s', s.accessLane w { kind := .load n signed, dest := d, uniform := u } q =
        (s', .done (extendLoad signed ((List.range n).map fun k => loaded (x.pa + k)))) ∧
      s1.onlyL1 w.core s' ∧ (∀ k a, s'.seenByte k a =
        if k = w.core ∧ x.pa / 16 * 16 ≤ a ∧ a < (x.pa + n + 15) / 16 * 16 then loaded a else s1.seenByte k a) ∧
      ∀ k a, s'.dirtyByte k a = s1.dirtyByte k a) ∧
  (PlainlyReaches s w .write q n s1 x → n ≤ q.data.length →
    ∃ s', s.accessLane w { kind := .store n, dest := d, uniform := u } q = (s', .done []) ∧ s1.onlyL1 w.core s' ∧
      (∀ k a, s'.seenByte k a = if k = w.core ∧ x.pa ≤ a ∧ a < x.pa + n then nth q.data (a - x.pa) 0 else s1.seenByte k a) ∧
      ∀ k a, s'.dirtyByte k a = if k = w.core ∧ x.pa ≤ a ∧ a < x.pa + n then true else s1.dirtyByte k a)

/-- R238, R245, R247, R248, R282, R283, R286. That an atomic in an L1 reads the home's bytes with the rest of their 16-byte block is log 12. -/
def Obligations.Atomics : Prop :=
  (∀ (s : State) (w : Who) (q : LaneAcc) (k : AccKind) (sc : Scope) (od : Order) (d : Nat) (u : Bool) (s1 : State) (x : Xlat),
    (∃ op, k = .atom op) ∨ (∃ c, k = .cas c) → PlainlyReaches s w .write q k.size s1 x →
      let rel := if Order.releases od then s1.releaseActs w sc q.addr else (s1, none)
      let ordered := if od = .sc then rel.1.ticket else rel.1
      let s0 := (linesOf x.pa k.size).foldl (fun s l => s.recall l (some w.core)) ordered
      let n := k.size
      let after := fun (t : State) => if Order.acquires od then t.acquireActs w sc else t
      rel.2 = none → s0.homePoisoned w.core x.pa n = false →
      (4 ≤ Scope.rank sc →
        let s2 := ((linesOf x.pa n).foldl (fun s l => (s.recall l none).writeBack w.core l) s0).dropBytes w.core x.pa n
        let old := s2.mem.readN x.pa n
        s.accessLane w { kind := k, scope := sc, order := od, dest := d, uniform := u } q =
          (after (match k.newBytes old q.data with
            | some b => s2.homeWrite x.pa b
            | none => s2), .done (wordsOf old))) ∧
      (Scope.rank sc < 4 →
        let s2 := (if Order.acquires od ∧ 3 ≤ Scope.rank sc then s0.recall (lineOf x.pa) none else s0).own w.core (lineOf x.pa)
        let held := fun a => if s2.l1Has w.core x.pa n || s2.dirtyByte w.core a then s2.seenByte w.core a else s2.mem.read a
        let old := (List.range n).map fun j => held (x.pa + j)
        let new := (k.newBytes old q.data).getD []
        ∃ s', s.accessLane w { kind := k, scope := sc, order := od, dest := d, uniform := u } q = (after s', .done (wordsOf old)) ∧
          s2.onlyL1 w.core s' ∧ ((s'.core w.core).line (lineOf x.pa)).owned = true ∧
          (∀ c a, s'.seenByte c a =
            if c = w.core ∧ x.pa ≤ a ∧ a < x.pa + new.length then nth new (a - x.pa) 0
            else if c = w.core ∧ x.pa / 16 * 16 ≤ a ∧ a < (x.pa + n + 15) / 16 * 16 then held a else s2.seenByte c a) ∧
          ∀ c a, s'.dirtyByte c a = if c = w.core ∧ x.pa ≤ a ∧ a < x.pa + new.length then true else s2.dirtyByte c a)) ∧
  (∀ (old x y : W32),
    let go := fun op => atomNew op old.toNat (leBytes 4 x.toNat ++ leBytes 4 y.toNat)
    let fp := fun (r : Nat) => if Fmt.f32.isNan r then Fmt.f32.qnan else r
    go .addB32 = some (old + x).toNat ∧ go .andB32 = some (old &&& x).toNat ∧ go .orB32 = some (old ||| x).toNat ∧ go .exchB32 = some x.toNat ∧
    go .maxI32 = some (if old.toInt < x.toInt then x else old).toNat ∧ go .minI32 = some (if x.toInt < old.toInt then x else old).toNat ∧
    go .maxN32 = some (max old.toNat x.toNat) ∧ go .minN32 = some (min old.toNat x.toNat) ∧
    go .casB32 = (if old = x then some y.toNat else none) ∧
    go .faddF32 = some (fp (Fmt.f32.add .rne old.toNat x.toNat)) ∧
    go .fminF32 = some (if Fmt.f32.isNan old.toNat || Fmt.f32.isNan x.toNat then Fmt.f32.qnan else if Fmt.f32.lt x.toNat old.toNat then x.toNat else old.toNat) ∧
    go .fmaxF32 = some (if Fmt.f32.isNan old.toNat || Fmt.f32.isNan x.toNat then Fmt.f32.qnan else if Fmt.f32.lt old.toNat x.toNat then x.toNat else old.toNat)) ∧
  (∀ (old x y : W64),
    let go := fun op => atomNew op old.toNat (leBytes 8 x.toNat ++ leBytes 8 y.toNat)
    go .addB64 = some (old + x).toNat ∧ go .maxN64 = some (max old.toNat x.toNat) ∧ go .minN64 = some (min old.toNat x.toNat) ∧
    go .casB64 = if old = x then some y.toNat else none)

/-- R258, R259, R260, R263, R277, R287: sts assigns its stamp and sends its store on its way; a load of a stamped page gives what is visible at the
home; lda gives the version as of its stamp. `State.seePage` keeps how a page was last seen (R258, log 54). -/
def Obligations.StampedStores : Prop :=
  (∀ (s : State) (w : Who) (q : LaneAcc) (n d aux : Nat) (s0 s2 : State) (x : Xlat) (ok : Bool) (lu : Nat),
  let s1 := s0.seePage w.part none q.addr.toNat x.pa true
  q.addr.toNat % n = 0 → s.translate (some w.core) w.part w.user .write q.addr = (s0, .ok x) → x.remote = none → x.stamped = true →
  s1.homeAlive x.pa = true → s1.overlapsOwn w none x.pa n = false →
  s1.intervalOk (dieOfCore w.core) (s1.stampDom w.part x.domain) = (s2, ok, lu) →
    let dn := dieOfCore w.core
    let st := max (lu + 1) ((s2.die dn).last + 1)
    let store : StampedStore := { id := s2.nextStore, part := w.part, dom := s1.stampDom w.part x.domain, die := dn, stamp := st,
                                  pieces := [⟨none, x.pa, q.data.take n⟩], va := q.addr }
    s.accessLane w { kind := .sts n, dest := d, aux := aux } q =
      if ok then
        ((({ s2.setDie dn { s2.die dn with last := st } with stores := s2.stores ++ [store], nextStore := s2.nextStore + 1 } : State).due
          (.stampedStoreHeldPending s2.nextStore)).onWho w fun t => { t with stamps := t.stamps ++ [s2.nextStore] }, .done (wordsOf (leBytes 8 st)))
      else (s2, .fault .intervalWide 0 q.addr)) ∧
  (∀ (s : State) (w : Who) (q : LaneAcc) (n d : Nat) (signed u : Bool) (sc : Scope) (s0 : State) (x : Xlat),
    let s1 := s0.seePage w.part none q.addr.toNat x.pa true
    q.addr.toNat % n = 0 → s.translate (some w.core) w.part w.user .read q.addr = (s0, .ok x) → x.remote = none → x.stamped = true →
    s1.homeAlive x.pa = true → s1.overlapsOwn w none x.pa n = false → s1.poisoned x.pa n = false →
    s.accessLane w { kind := .load n signed, dest := d, uniform := u } q = (s1, .done (extendLoad signed (s1.mem.readN x.pa n))) ∧
    s.accessLane w { kind := .load n signed, scope := sc, order := .acq, dest := d, uniform := u } q =
      (s1.acquireActs w sc, .done (extendLoad signed (s1.mem.readN x.pa n)))) ∧
  ∀ (s : State) (w : Who) (q : LaneAcc) (wide : Bool) (d aux : Nat) (s0 : State) (x : Xlat),
    let s1 := s0.seePage w.part none q.addr.toNat x.pa true
    let n := if wide then 8 else 4
    let line := lineOf x.pa
    let stamp := leNat (q.data.take 8)
    let dom := s1.stampDom w.part x.domain
    let waited := match w.replay with
      | some b => b
      | none => (s1.whoThreads w).any fun t => t.waited
    let latest := (FMap.get s1.lineStamp line).getD 0
    let vs := (FMap.get s1.versions line).getD []
    let gives := fun (b : List Byte) (status : Nat) => ∃ s', s.accessLane w { kind := .lda wide, dest := d, aux := aux } q =
      (s', .done (wordsOf b ++ [BitVec.ofNat 32 status])) ∧ s'.mem = s1.mem ∧ s'.cores = s1.cores ∧ s'.teams = s1.teams
    q.addr.toNat % n = 0 → s.translate (some w.core) w.part w.user .read q.addr = (s0, .ok x) → x.remote = none → x.stamped = true →
    s1.homeAlive x.pa = true → s1.overlapsOwn w none x.pa n = false → x.pa % 128 + n ≤ 128 →
    waited = true ∨ (s1.intervalOk (dieOfCore w.core) dom).2.1 = true →
    ((s1.die (homeDie x.pa)).wOf dom w.part < stamp → ∃ s', s.accessLane w { kind := .lda wide, dest := d, aux := aux } q =
      (s', .wait (.lda dom (BitVec.ofNat 64 stamp))) ∧ s'.mem = s1.mem ∧ s'.cores = s1.cores ∧ s'.teams = s1.teams) ∧
    (stamp ≤ (s1.die (homeDie x.pa)).wOf dom w.part →
      (latest ≤ stamp → s1.poisoned x.pa n = false → gives (s1.mem.readN x.pa n) (if waited then 2 else 0)) ∧
      (∀ v ∈ vs, stamp < latest → v.stamp ≤ stamp → v.bad = false → vs.Pairwise (fun a b => b.stamp < a.stamp) →
        (∀ y ∈ vs, y.stamp ≤ stamp → y.stamp ≤ v.stamp) → gives ((v.bytes.drop (x.pa % 128)).take n) (if waited then 2 else 0)) ∧
      (stamp < latest → (∀ v ∈ vs, stamp < v.stamp) → gives (List.replicate n 0) 1))

/-- Accesses to the explicit levels -/
def Obligations.LevelMemory : Prop :=
  ∀ (s : State) (w : Who) (t : Team) (l : Level) (q : LaneAcc),
  let o := q.addr.toNat % 2 ^ 32
  let reaches := fun (k : AccKind) => o % k.size = 0 ∧ o + k.size ≤ s.levelRange t l ∧ (l = .chip → (s.die (o / (s.part t.part).chipShare)).alive = true)
  (∀ k, o % k.size ≠ 0 → s.levelLane w t l k q = (s, .fault .align 0 q.addr)) ∧
  (∀ k, o % k.size = 0 → s.levelRange t l < o + k.size → s.levelLane w t l k q = (s, .fault .prot 0 q.addr)) ∧
  (∀ n signed, reaches (.load n signed) → s.levelLane w t l (.load n signed) q =
    (s, if s.levelBad t w.team l o n then .fault .ecc 0 q.addr else .done (extendLoad signed (s.levelRead t w.team l o n)))) ∧
  (∀ n, reaches (.store n) → s.levelLane w t l (.store n) q = (s.levelWrite t w.team l o (q.data.take n), .done [])) ∧
  (∀ k, (∃ op, k = .atom op) ∨ (∃ c, k = .cas c) → reaches k → s.levelBad t w.team l o k.size = true →
    s.levelLane w t l k q = (s, .fault .ecc 0 q.addr)) ∧
  (∀ k, (∃ op, k = .atom op) ∨ (∃ c, k = .cas c) → reaches k → s.levelBad t w.team l o k.size = false →
    let old := s.levelRead t w.team l o k.size
    s.levelLane w t l k q =
      (match k.newBytes old q.data with
        | some b => s.levelWrite t w.team l o b
        | none => s, .done (wordsOf old))) ∧
  (∀ (c : CasW) (old x y : List Byte), old.length = casBytes c → x.length = casBytes c → y.length = casBytes c →
    (AccKind.cas c).newBytes old (x ++ y) = if old = x then some y else none)

/-- R304 to R306. Where an instruction must wait, or ring.init raises PROT, the statement says nothing. A new ring keeps the waits at the old one in order
of arrival (R306). -/
def Obligations.RingsTimelinesAndHolds : Prop :=
  
  (∀ (d : Fin 64) (a b : Src),
    UniServes (.ringInit a b) [(.b32, a), (.b32, b)] [] false (fun s t _ v =>
      let new : Ring := { wordA := lo32 (v.headD 0), wordB := lo32 (v.getD 1 0) }
      let k := (lo32 (v.headD 0)).toNat / 2 ^ 28 % 8
      let n := (lo32 (v.getD 1 0)).toNat % 256
      let o := new.offset
      let z := new.slotBytes
      if (t.ring k).filling = true ∨ o % 128 ≠ 0 ∨ n = 0 ∨ z % 16 ≠ 0 ∨ z = 0 ∨ s.levelRange t new.level < o + n * z + 8 * n then none
      else some ((s.onTeam fun t => { t with rings := setNth t.rings k { new with slots := List.replicate n {}, queue := (t.ring k).queue } }).levelWrite t s.issue.team new.level
        (o + n * z) (List.replicate (8 * n) 0), fun _ => 0, id)) ∧
    UniServes (.ringTake d a) [(.b32, a)] [d.val, d.val + 1] false (fun s t c v =>
      let k := (v.headD 0).toNat % 8
      let r := t.ring k
      let mine := isTaker c (lanesIn s.issue.parts c) s.issue.addr
      if r.ready = false then some (s, wordOf d.val (packed 32 0xFFFFFFFF 0), id)
      else if (nth r.slots r.take {}).state = 2 ∧ (∀ e, (t.takers k).head? = some e → mine e = true) then
        some ((s.setSlot s.issue.team k r.take { nth r.slots r.take {} with state := 3 } fun r =>
            { r with take := (r.take + 1) % r.slots.length, queue := (t.takers k).filter fun e => !mine e }).acquired t,
          wordOf d.val (packed 32 (r.offset + r.take * r.slotBytes) (nth r.slots r.take {}).target), id)
      else none) ∧
    UniServes (.ringGive a) [(.b32, a)] [] false (fun s t _ v =>
      let k := (v.headD 0).toNat % 8
      let r := t.ring k
      if r.ready = true ∧ (nth r.slots r.give {}).state = 3 then
        some ((s.released t).setSlot s.issue.team k r.give {} fun r => { r with give := (r.give + 1) % r.slots.length }, fun _ => 0, id)
      else some (s, fun _ => 0, id)) ∧
    UniServes (.ringWait d a) [(.b32, a)] [d.val] false (fun s t _ v =>
      let r := t.ring ((v.headD 0).toNat % 8)
      if r.filling then none
      else some (s, fun _ => BitVec.ofNat 32 (r.slots.filter fun x => x.state == 2).length, id))) ∧
  (∀ (d : Fin 64) (a b : Src),
    UniServes (.tlRead d a) [(.b32, a)] [d.val, d.val + 1, d.val + 2] false (fun s t _ v =>
      let k := (lo32 (v.headD 0)).toNat
      let x : Ctx := if k < 4 then s.ctx (sliceKey t.part t.slice) k else {}
      some (s, fun n => if n = d.val + 2 then BitVec.ofNat 32 (x.faulted.toNat + 2 * x.lost.toNat) else wordOf d.val (nat64 x.counter) n, id)) ∧
    UniServes (.tlWait a b) [(.b32, a), (.b64, b)] [] false (fun s t _ v =>
      let k := (lo32 (v.headD 0)).toNat
      let s1 := s.setCore t.core { s.core t.core with fcache := [] }
      if 4 ≤ k ∨ v.getD 1 0 = 0 then some (s1, fun _ => 0, id)
      else if (s.ctx (sliceKey t.part t.slice) k).counter < (v.getD 1 0).toNat then none
      else some (s1.acquired t, fun _ => 0, id)) ∧
    (∀ dm : Bool, UniServes (.ckptHold d dm) [] [d.val, d.val + 1] false (fun s t _ _ =>
      let q := s.part t.part
      let held := if dm then q.domHolds else q.holds
      if 16 ≤ held.length then some (s, fun _ => 0xFFFFFFFF, id)
      else
        let r := s.watermark t.part (s.stampDom t.part dm)
        some (r.1.setPart t.part (if dm then { q with domHolds := held ++ [r.2] } else { q with holds := held ++ [r.2] }), wordOf d.val (nat64 r.2), id))) ∧
    (∀ dm : Bool, UniServes (.ckptRelease a dm) [(.b64, a)] [] false (fun s t _ v =>
      let q := s.part t.part
      some (s.setPart t.part (if dm then { q with domHolds := q.domHolds.erase (v.headD 0).toNat } else { q with holds := q.holds.erase (v.headD 0).toNat }),
        fun _ => 0, id))))

/-- R299 to R303, R309. Where an instruction must wait or faults, the statement says nothing. -/
def Obligations.EngineCommands : Prop :=
  ∀ (d a : Fin 64) (last : Bool) (b : Src),
  UniServes (.bcopy d a last b) ((.b32, b) :: blockSrcs a.val 4 last) [d.val, d.val + 1] false (fun s t c v =>
    let w := (lo32 (v.headD 0)).toNat
    let name := fun k => lo32 (v.getD (1 + k) 0)
    if w / 2 ^ 30 ≠ 3 then
      match bcopyKind t s.issue.team t.core (w / 2 ^ 30) (w % 2 ^ 30) (pair64 (name 1) (name 0)) (pair64 (name 3) (name 2)) (pair64 (name 5) (name 4)) with
      | none => some (s, fun _ => 0, id)
      | some (k, cmd) =>
        if s.ctxFull (sliceKey t.part t.slice) k = false ∧ s.settled t c false = true then
          let r := (s.released t).issueCmd (sliceKey t.part t.slice) k cmd
          some (r.1, wordOf d.val (nat64 r.2), id)
        else none
    else none) ∧
  (a.val + 6 ≤ 64 → UniServes (.bcopy d a last b) ((.b32, b) :: blockSrcs a.val 6 last) [d.val, d.val + 1] false (fun s t c v =>
    let w := (lo32 (v.headD 0)).toNat
    let name := fun k => lo32 (v.getD (1 + k) 0)
    if w / 2 ^ 30 = 3 then
      match bcopyKind t s.issue.team t.core (w / 2 ^ 30) (w % 2 ^ 30) (pair64 (name 1) (name 0)) (pair64 (name 3) (name 2)) (pair64 (name 5) (name 4)) with
      | none => some (s, fun _ => 0, id)
      | some (k, cmd) =>
        if s.ctxFull (sliceKey t.part t.slice) k = false ∧ s.settled t c false = true then
          let r := (s.released t).issueCmd (sliceKey t.part t.slice) k cmd
          some (r.1, wordOf d.val (nat64 r.2), id)
        else none
    else none)) ∧
  UniServes (.bcopySt d a last b) ((.b32, b) :: blockSrcs a.val 4 last) [d.val, d.val + 1, d.val + 2, d.val + 3] false (fun s t c v =>
    let w := (lo32 (v.headD 0)).toNat
    let name := fun k => lo32 (v.getD (1 + k) 0)
    if w / 2 ^ 30 ≠ 0 ∨ 2 ^ 20 < w % 2 ^ 30 then some (s, fun _ => 0, id)
    else
      match s.accessLane (s.whoOf s.issue.team t c (lanesIn s.issue.parts c))
        { kind := .copySt, scope := .dv, order := .rel, dest := d.val, uniform := true }
        { lane := s.leader c, addr := pair64 (name 1) (name 0), data := bytesOfWords [name 2, name 3] ++ leBytes 4 w } with
      | (s1, .done x) => some (s1, fun n => nth x (n - d.val) 0, id)
      | _ => none) ∧
  (∀ a : Src, UniServes (.coll d a) [(.addr, a)] [d.val, d.val + 1] false (fun s t c v =>
    if (v.headD 0).toNat % 64 = 0 ∧ s.ctxFull (sliceKey t.part t.slice) 2 = false ∧ s.settled t c true = true then
      match (s.released t).tableRead t.part (!s.isPriv t) (v.headD 0).toNat 64 2 with
      | .error _ => none
      | .ok b =>
        if (s.released t).collOk t.part (collDesc b) then
          let u := s.released t
          let g := (collDesc b).group
          let n := (FMap.get (u.part t.part).ordinals g).getD 0
          let u := if g = 0xFF then u else u.setPart t.part { u.part t.part with ordinals := FMap.set (u.part t.part).ordinals g (n + 1) }
          let r := u.issueCmd (sliceKey t.part t.slice) 2 (.coll b)
          some (r.1.onCmd (sliceKey t.part t.slice) 2 r.2 fun q => { q with ordinal := n }, wordOf d.val (nat64 r.2), id)
        else some (s.released t, fun _ => 0, id)
    else none))

/-- R135, R136, R294. What ends the waits is stated with the events; `settle` is the boundary of R337. -/
def Obligations.WaitingUnits : Prop :=
  ∀ (d : Fin 64) (a : Src),
  UniServes (.mwait d a) [(.b32, a)] [d.val] true (fun s t c _ =>
    match ((t.course c).thread (s.leader c)).mwaitNow with
    | some x => if ((lanesIn s.issue.parts c).all fun l => ((t.course c).thread l).mwaitNow == some x) then some (s, fun _ => x, fun th => { th with monitor := none }) else none
    | none => none) ∧
  (∀ s t c, WellFormed (.mwait d a) = true → OneCourse s t c → LeadReadable s t [(.b32, a)] →
    ((lanesIn s.issue.parts c).all fun l => ((t.course c).thread l).mwaitNow.isNone) = true →
    let n := (lo32 ((s.values t false false .sup [(.b32, a)] c (s.leader c)).headD 0)).toNat
    ∃ s', exec (.mwait d a) s = .next s' ∧ Stays s s' t [(.b32, a)] (lanesIn s.issue.lift) [2, 3] (fun _ m => m) fun k l th =>
      let th := if l == s.leader k && freeRead s t false false .sup [(.b32, a)] k l then th.setReadFree else th
      { th with wait := .mwait d.val (if n = 0 then none else some n), waitLen := s.issue.len }) ∧
  (∀ s t c, WellFormed (.sleep a) = true → OneCourse s t c → LeadReadable s t [(.b32, a)] →
    ((lanesIn s.issue.parts c).all fun l => ((t.course c).thread l).progress.isNone) = true →
    let n := (lo32 ((s.values t false false .sup [(.b32, a)] c (s.leader c)).headD 0)).toNat
    n ≠ 0 →
    ∃ s', exec (.sleep a) s = .next s' ∧ Stays s s' t [(.b32, a)] (lanesIn s.issue.lift) [2] (fun _ m => m) fun k l th =>
      let th := if l == s.leader k && freeRead s t false false .sup [(.b32, a)] k l then th.setReadFree else th
      { th with wait := .sleep n, waitLen := s.issue.len }) ∧
  (∀ s t c, WellFormed (.yield a) = true → OneCourse s t c → LeadReadable s t [(.addr, a)] →
    ∃ s', exec (.yield a) s = .next (s'.settle s.issue.team) ∧
      Stays s s' t [(.addr, a)] (lanesIn s.issue.lift) [2] (fun _ m => m) fun k l th =>
        let th := if l == s.leader k && !s.again t c && freeRead s t false false .sup [(.addr, a)] k l then th.setReadFree else th
        { th with wait := .yield ((s.values t false false .sup [(.addr, a)] c (s.leader c)).headD 0), waitLen := s.issue.len }) ∧
  ∀ (s : State) (t : Team) (tk c l : Nat) (x : Course) (th : Thread) (d : W64), FMap.get s.teams tk = some t → FMap.get t.courses c = some x →
    x.suspended = false → FMap.get x.threads l = some th → th.wait = .yield d →
    ∃ s', s.leaveYield tk c = s' ∧ s'.threadAt tk c l = some (th.goto (th.pc + BitVec.ofNat 64 th.waitLen) s.cycle) ∧
      ∀ q : ThreadRef, (q.team, q.course) ≠ (tk, c) → s'.threadAt q.team q.course q.lane = s.threadAt q.team q.course q.lane

/-- spawn, clkiv and vshape -/
def Obligations.SpawnClockShape : Prop :=
  
  (∀ (p : Fin 12) (a : Src) (b : Fin 64) (last : Bool), UniSettles (.spawn p a b last) ((.addr, a) :: (List.range 8).map fun k => (.b32, .reg (Fin.ofNat 64 (b.val + k)) last)) (fun s _ _ v =>
    if (v.headD 0).toNat % 4 = 0 then
      let r := s.enqueue s.issue.team { entry := v.headD 0, args := (v.drop 1).map lo32 }
      some (r.1, fun _ => 0, fun th => th.setPred p.val r.2)
    else none)) ∧
  (∀ d : Fin 64, UniServes (.clkiv d) [] [d.val, d.val + 1, d.val + 2, d.val + 3] false (fun s t _ _ =>
    let r := s.readClock (dieOfCore t.core)
    some (r.1, fun n => if n < d.val + 2 then wordOf d.val (nat64 r.2.1) n else wordOf (d.val + 2) (nat64 r.2.2) n, id))) ∧
  (∀ (d : Dst) (r : VsRef) s t, WellFormed (.vshape d r) = true → Lifted s t →
    ∃ s', exec (.vshape d r) s = .next s' ∧ Delivers s s' t false 2 d [] (fun _ _ => false) (fun _ th => th) fun c _ =>
      let x := t.course c
      nat32 (match r with
        | .reg n => nameCode x.names n.val + if isLinked x.names n.val then 4 else 0
        | .opf n => nameCode x.opf n.val
        | .latch k =>
          let rec' := match (x.thread (s.leader c)).savedFor k.val with
            | some sv => sv.record
            | none => nth x.latches k.val {}
          if rec'.valid && hasLane rec'.lanes (s.leader c) then rec'.val.shape.code else 0))

/-- R119 to R122: first without, then with a spill or refill. Bit 1 of a return entry reads back as 0, and its bit 0 says whether entries lie below in
memory. The store and the load of a spill are plain accesses of the thread (State.accessLane). -/
def Obligations.BranchesCallsAndSpill : Prop :=
  
  (∀ (p : PredSel) (neg : Bool) (off : BitVec 19) (a : Src),
    (∀ s t, Lifted s t →
      ∃ s', exec (.br p neg off) s = .next s' ∧ Goes s s' t [] fun _ _ th =>
        th.goto (if th.predSel p != neg then s.issue.addr + off.signExtend 64 * 4 else s.issue.next) s.cycle) ∧
    (∀ s t, Lifted s t → (∀ m ∈ s.issue.lift, ((t.course m.1).thread m.2).predSel p != neg → ((t.course m.1).thread m.2).stack.length < t.stackK) →
      ∃ s', exec (.call p neg off) s = .next s' ∧ Goes s s' t [] fun _ _ th =>
        if th.predSel p != neg then { th with stack := th.stack ++ [s.issue.next &&& ~~~1#64] }.goto (s.issue.addr + off.signExtend 64 * 4) s.cycle
        else th.goto s.issue.next s.cycle) ∧
    (∀ s t, WellFormed (.icall a) = true → Lifted s t → Readable s t [(.addr, a)] →
      (∀ m ∈ s.issue.parts, ((t.course m.1).thread m.2).stack.length < t.stackK ∧ ((srcView (s.reads t m.1) .addr a).val m.2).toNat % 4 = 0) →
      ∃ s', exec (.icall a) s = .next s' ∧ Goes s s' t [(.addr, a)] fun k l th =>
        if s.issue.parts.contains (k, l) then
          let v := srcView (s.reads t k) .addr a
          let th := if v.free l then th.setReadFree else th
          { th with stack := th.stack ++ [s.issue.next &&& ~~~1#64] }.goto (v.val l) s.cycle
        else th.goto s.issue.next s.cycle) ∧
    (∀ s t, Lifted s t → (∀ m ∈ s.issue.parts, ∃ e, ((t.course m.1).thread m.2).stack.getLast? = some e ∧ e.getLsbD 0 = false) →
      ∃ s', exec .ret s = .next s' ∧ Goes s s' t [] fun k l th =>
        if s.issue.parts.contains (k, l) then { th with stack := th.stack.dropLast }.goto (th.stack.getLastD 0 &&& ~~~3#64) s.cycle
        else th.goto s.issue.next s.cycle) ∧
    (∀ s t c l, Solo s t c l → ((t.course c).thread l).stack = [] → exec .ret s = .next ((s.dropThreads s.issue.team [(c, l)]).settle s.issue.team))) ∧
  (∀ (p : PredSel) (neg : Bool) (off : BitVec 19) (s : State) (t : Team) (c l : Nat), Solo s t c l →
    let th := (t.course c).thread l
    let w := s.whoOf s.issue.team t c [l]
    (th.predSel p != neg → t.stackK ≤ th.stack.length →
      let r : Req := { course := c, lane := l, code := .stackLimit, addr := some th.sp }
      (th.sp.toNat < 8 → exec (.call p neg off) s = .next (s.deliver [r])) ∧
      (8 ≤ th.sp.toNat → th.sp.toNat % 8 ≠ 0 → exec (.call p neg off) s = .next (s.deliver [{ r with code := .align, addr := some (th.sp - 8) }])) ∧
      ∀ s1 v, 8 ≤ th.sp.toNat → th.sp.toNat % 8 = 0 → s.logBlocks w (t.course c) l (th.sp - 8).toNat 8 = false →
        s.accessLane w { kind := .store 8 } { lane := l, addr := th.sp - 8, data := leBytes 8 (th.stack.headD 0).toNat } = (s1, .done v) →
        exec (.call p neg off) s = .next ((s1.onThread s.issue.team c l fun x =>
          { x with
            sp := th.sp - 8
            stack := match th.stack.drop 1 with
              | [] => [(s.issue.next &&& ~~~1#64) ||| 1#64]
              | e :: es => (e ||| 1#64) :: es ++ [s.issue.next &&& ~~~1#64] }).retire [(c, l)] (s.issue.addr + off.signExtend 64 * 4))) ∧
    (∀ a : Src, WellFormed (.icall a) = true → Readable s t [(.addr, a)] → t.stackK ≤ th.stack.length →
      let v := srcView (s.reads t c) .addr a
      (v.val l).toNat % 4 = 0 →
      let r : Req := { course := c, lane := l, code := .stackLimit, addr := some th.sp }
      (th.sp.toNat < 8 → exec (.icall a) s = .next (s.deliver [r])) ∧
      (8 ≤ th.sp.toNat → th.sp.toNat % 8 ≠ 0 → exec (.icall a) s = .next (s.deliver [{ r with code := .align, addr := some (th.sp - 8) }])) ∧
      ∀ s1 x, 8 ≤ th.sp.toNat → th.sp.toNat % 8 = 0 → s.logBlocks w (t.course c) l (th.sp - 8).toNat 8 = false →
        s.accessLane w { kind := .store 8 } { lane := l, addr := th.sp - 8, data := leBytes 8 (th.stack.headD 0).toNat } = (s1, .done x) →
        exec (.icall a) s = .next (((s1.onThread s.issue.team c l fun x =>
          { x with
            sp := th.sp - 8
            stack := match th.stack.drop 1 with
              | [] => [(s.issue.next &&& ~~~1#64) ||| 1#64]
              | e :: es => (e ||| 1#64) :: es ++ [s.issue.next &&& ~~~1#64] }).markThread s.issue.team c l [v] [(.addr, a)]).retire [(c, l)] (v.val l))) ∧
    ∀ e s1 v, th.stack.getLast? = some e → e.getLsbD 0 = true → s.logBlocks w (t.course c) l th.sp.toNat 8 = false →
      s.accessLane w { kind := .load 8 false } { lane := l, addr := th.sp } = (s1, .done v) →
      exec .ret s = .next ((s1.onThread s.issue.team c l fun x => { x with stack := [pair64 (nth v 1 0) (nth v 0 0)], sp := th.sp + 8 }).retire
        [(c, l)] (e &&& ~~~3#64)))

/-- R49, R123, R124, R132. -/
def Obligations.Rendezvous : Prop :=
  
  (∀ s t, Lifted s t → ∃ s', exec .join s = .next (s'.settle s.issue.team) ∧
    Stays s s' t [] (fun _ => []) [] (fun _ m => m) fun _ _ th => { th with wait := .join, waitLen := s.issue.len }) ∧
  (∀ s t, Lifted s t → ∃ s', exec .conv s = .next (s'.settle s.issue.team) ∧
    Stays s s' t [] (fun _ => []) []
      (fun k m => if lanesIn s.issue.parts k = [] ∨ (FMap.get m s.issue.addr.toNat).isSome then m else FMap.set m s.issue.addr.toNat 64)
      fun _ _ th => { th with wait := .conv, waitLen := s.issue.len }) ∧
  (∀ (n : Fin 64) s t, Lifted s t → ∃ s', exec (.repack n) s = .next (s'.settle s.issue.team) ∧
    Stays s s' t [] (fun _ => []) [2] (fun _ m => m) fun k l th =>
      let th := if regFree (t.course k) n.val l then th.setReadFree else th
      { th with wait := .repack (regRow (t.course k) n.val l) s.issue.word s.issue.guardWord, waitLen := s.issue.len }) ∧
  (∀ (c : Course) (now : Nat) (pc : W64), c.threads ≠ [] →
    ((∀ q ∈ c.threads, q.2.wait = .join ∧ q.2.pc = pc) ∨ (∀ q ∈ c.threads, q.2.wait = .conv ∧ q.2.pc = pc) →
      (c.meet now).2 = true ∧ (c.meet now).1.threads = c.threads.map fun q => (q.1, q.2.goto (q.2.pc + BitVec.ofNat 64 q.2.waitLen) now)) ∧
    ((∃ q ∈ c.threads, q.2.wait ≠ .join ∧ q.2.wait ≠ .conv) → c.meet now = (c, false)))

/-- R37 to R39, R126, on a team without deferred records. What packing and the boundary make of the copies is settleWith; the packing is stated below. R39, R40: every copy has the ordinal it was created with in vD. -/
def Obligations.Forks : Prop :=
  
  (∀ (d : Fin 64) (a : Src) (s : State) (t : Team) (c l : Nat) (x : Slice), WellFormed (.fork d a) = true → Solo s t c l → Readable s t [(.b32, a)] →
    s.sliceOf t = some x → t.records = [] →
    let th := (t.course c).thread l
    let v := srcView (s.reads t c) .b32 a
    let n := (lo32 (v.val l)).toNat
    let srcs : List Operand := [(.b32, a)]
    let read : State := s.markThread s.issue.team c l [v] srcs
    let gone : State := read.dropThreads s.issue.team [(c, l)]
    let y := ((t.course c).noteFree [v] [l]).markSources srcs [l]
    let copy : Newborn := copyOf y l (y.thread l) s.issue.next d.val s.cycle
    (65536 < n → exec (.fork d a) s = .next (s.deliver [{ course := c, lane := l, code := .forkRange, detail := 0 }])) ∧
    (n = 0 → exec (.fork d a) s = .next (gone.settle s.issue.team)) ∧
    (n = 1 → ∃ s', exec (.fork d a) s = .next s' ∧ Served s s s' t c srcs [d.val] (fun _ _ => 0) [] (fun k => k == l && v.free l) [] fun _ th => th) ∧
    (2 ≤ n → n ≤ 65536 → 16 ≤ th.ords.length →
      exec (.fork d a) s = .next (s.deliver [{ course := c, lane := l, code := .forkRange, detail := 1 }])) ∧
    (2 ≤ n → n ≤ 65536 → th.ords.length < 16 → th.stack.length ≤ 16 → n ≤ t.ceiling - t.liveCount + 1 →
      exec (.fork d a) s = .next (gone.settleWith s.issue.team ((List.range n).map fun j =>
        { copy with origin := parentSlot 0, thread := { copy.thread with ords := th.ords ++ [BitVec.ofNat 16 j] }, ordinal := j })))) ∧
  (∀ (b : Newborn) (n d now : Nat), 1 ≤ n → n ≤ 32 → d < 64 → b.dest = some d →
    let x := packCourse ((List.range n).map fun j => { b with thread := { b.thread with ords := b.thread.ords ++ [BitVec.ofNat 16 j] }, ordinal := j }) now
    x.live = List.range n ∧
    ∀ j, j < n →
      regRow x d j = BitVec.ofNat 32 j ∧
      (∃ th, FMap.get x.threads j = some th ∧ th.pc = b.thread.pc ∧ th.root = b.thread.root ∧ th.ords = b.thread.ords ++ [BitVec.ofNat 16 j]) ∧
      ∀ m, m < 64 → m ≠ d → (∀ v, nth b.regs m none = some v → regRow x m j = v) ∧ (nth b.regs m none = none → regFree x m j = true))

/-- R45, R128, R129, R262, on a team without deferred records. That the thread with the lowest key waits while an emission with a lower key is left
behind, whose thread's stamped stores are not visible yet, is the model's reading of R262 beside R128 (log 57). -/
def Obligations.EmitUnit : Prop :=
  ∀ (wide : Bool) (a : Src) (s : State) (t : Team) (c l : Nat),
  let i : Instr := if wide then .emitB64 a else .emitB32 a
  let srcs : List Operand := [(if wide then .b64 else .b32, a)]
  WellFormed i = true → Solo s t c l → Readable s t srcs → t.records = [] →
  let th := (t.course c).thread l
  let v := srcView (s.reads t c) (if wide then .b64 else .b32) a
  let finish := fun (u : State) => Host.Outcome.next (((u.markThread s.issue.team c l [v] srcs).retire [(c, l)] s.issue.next).settle s.issue.team)
  let first := ∀ k, t.lowest [] = some k → keyLt k th.key = false
  let stay := fun (u : State) => Host.Outcome.next ((u.onThread s.issue.team c l fun th => { th with wait := .emit, waitLen := s.issue.len }).settle s.issue.team)
  let done := (s.released t).commitWindow s.issue.team []
  let behind := ∃ t', FMap.get done.teams s.issue.team = some t' ∧ ∃ e ∈ t'.emits, keyLt th.key (e.root, e.ords) = false
  (first → s.settled t c false = true → ¬ behind → exec i s = finish (done.commitOne s.issue.team (v.val l))) ∧
  (first → s.settled t c false = true → behind → exec i s = stay done) ∧
  (¬ first → t.emits.length < 256 → exec i s = finish (s.setTeam s.issue.team
    { t with emits := t.emits ++ [⟨th.root, th.ords, v.val l, t.emitOrder, th.stamps⟩], emitOrder := t.emitOrder + 1 })) ∧
  (¬ first → ¬ t.emits.length < 256 → exec i s = stay s)

/-- R140, R357 to R362. Details numbers and record fields beyond these are the model's reading of R358 and R364. R141, R361; R92. -/
def Obligations.TrapsAndReturns : Prop :=
  
  ((∀ (brk : Bool) (n : BitVec 8) s t c, OneCourse s t c →
      ∃ s', exec (if brk then .bkpt n else .trap n) s = .next (s'.deliver ((lanesIn s.issue.parts c).map fun l =>
          { course := c, lane := l, code := if brk then .brk else .trap, imm := n.toNat, done := true })) ∧
        Stays s s' t [] (fun _ => []) [2] (fun _ m => m) fun _ _ th => th) ∧
    (∀ (s : State) (t : Team) (x : Slice) (r : Req) (th : Thread), FMap.get s.teams s.issue.team = some t → s.sliceOf t = some x →
      s.threadAt s.issue.team r.course r.lane = some th → r.isProgram = true →
      let resume := if r.done then s.issue.next else s.issue.addr
      ∃ s' th', s.deliver [r] = s' ∧ s'.threadAt s.issue.team r.course r.lane = some th' ∧
        th'.fault = r.faultWord (decide (t.trapbase = 0) || th.inHandler) ∧ th'.faultaddr = r.addr.getD 0 ∧
        th'.faultmask = (if r.addr.isSome then maskOf [r.lane] else 0) ∧ (th'.tsw.toNat / 2 ^ 16 % 256 = r.code.num) ∧
        th'.preds = th.preds ∧ th'.stack = th.stack ∧ th'.root = th.root ∧ th'.ords = th.ords ∧
        if t.trapbase = 0 ∨ th.inHandler = true then th'.pc = resume ∧ th'.tpc = th.tpc ∧ th'.inHandler = th.inHandler ∧
          ∃ token, th'.parked = some ⟨r.code.num, token⟩
        else th'.pc = t.trapbase ∧ th'.tpc = resume ∧ th'.inHandler = true ∧ th'.parked = th.parked) ∧
    (∀ (s : State) (t : Team) (r : Req) (th : Thread), FMap.get s.teams s.issue.team = some t →
      s.threadAt s.issue.team r.course r.lane = some th → r.isProgram = false →
      ∃ s' th' token, s.deliver [r] = s' ∧ s'.threadAt s.issue.team r.course r.lane = some th' ∧ th'.parked = some ⟨r.code.num, token⟩ ∧
        th'.pc = (if r.done then s.issue.next else s.issue.addr) ∧ th'.fault = r.faultWord false ∧ th'.faultaddr = r.addr.getD 0 ∧
        th'.halted = (th.halted || r.code == .brk || r.code == .step) ∧ Instr.faultRecordPost (Fin.ofNat 16 t.part) ∈ s'.agenda)) ∧
  ((∀ (s : State) (t : Team) (x : Slice) (c l : Nat) (b : List Byte) (s1 : State), Solo s t c l → s.sliceOf t = some x →
      let u := s.onCourse s.issue.team c fun y => y.dropLatch 2 [l]
      ((t.course c).thread l).inHandler = true → u.teamRead s.issue.team (x.trapRecord t.index c l) 1024 = (s1, some b) →
      ∃ s' th', exec .rett s = .next s' ∧ s'.threadAt s.issue.team c l = some th' ∧ th'.pc = ((t.course c).thread l).tpc ∧ th'.inHandler = false ∧
        th'.preds = BitVec.ofNat 12 (bytesAt b 0x24 2) ∧ th'.stack = ((t.course c).thread l).stack ∧ th'.tsw = ((t.course c).thread l).tsw) ∧
    (∀ (s : State) (t : Team) (c l : Nat), Solo s t c l → ((t.course c).thread l).inHandler = false →
      exec .rett s = .next (s.deliver [{ course := c, lane := l, code := .priv, detail := 0x3F }])) ∧
    (∀ (p : PredSel) (neg : Bool) (s : State) (t : Team), FMap.get s.teams s.issue.team = some t →
      exec (.guardPrefix p neg) s = .next { s with issue := { s.issue with
        parts := s.issue.lift.filter fun m => ((t.course m.1).thread m.2).predSel p != neg } }))

/-- R212, R223. Where a course must wait, or holds no such tile, the statement says nothing. -/
def Obligations.Tiles : Prop :=
  
  ((∀ a : Src, MatUnit (.tileAlloc a) [(.b32, a)] [] false [] (fun s t c =>
      let n := (s.lowValue t c a).toNat
      let e := clusterOfCore t.core
      let k := s.cluster e
      match s.sliceOf t with
      | some y =>
        if n = 0 ∧ (t.course c).tileWait = 0 then some (s, fun _ _ => 0)
        else if n ≤ min 16 y.tilesMax ∧ (t.course c).tiles = [] ∧ k.pool = [] ∧ n ≤ k.freeTiles ∧ 0 < n then
          some ((s.setCluster e { k with freeTiles := k.freeTiles - n }).onCourse s.issue.team c fun x =>
            { x with tiles := List.replicate n zeroTile, tileWait := 0 }, fun _ _ => 0)
        else none
      | none => none)) ∧
    MatUnit (.tileFree) [] [] false [] (fun s t c =>
      let e := clusterOfCore t.core
      if s.tileBusy e ⟨s.issue.team, c⟩ none then none
      else some ((s.onCourse s.issue.team c fun x => { x with tiles := [] }).freeTiles e (t.course c).tiles.length, fun _ _ => 0)) ∧
    (∀ k : Fin 16, MatUnit (.tileZero k) [] [] false [] (fun s t c =>
      (s.heldTile t c k.val).map fun _ =>
        (s.addWork (clusterOfCore t.core) ⟨s.issue.team, c⟩ (.zero k.val), fun _ _ => 0))) ∧
    (∀ (w : FillKind) (k : Fin 16) (b : Fin 64) (last : Bool) (a : Src), MatUnit (.tileFill w k b last a) [(.b32, a)] (nameRun b.val 16) last [] (fun s t c =>
      (s.heldTile t c k.val).map fun _ =>
        (s.addWork (clusterOfCore t.core) ⟨s.issue.team, c⟩
          (.fill w k.val (fillColumn w (s.lowValue t c a).toNat) ((t.course c).laneRows (nameRun b.val 16))), fun _ _ => 0)))) ∧
  ((∀ (k : Fin 16) (b : Fin 64) (a : Src), MatUnit (.tileDrainF64 k b a) [(.b32, a)] [] false (nameRun b.val 16) (fun s t c =>
      match s.heldTile t c k.val with
      | some x => if x.check = none then some (s, fun n l => nth (x.drainRow .f64 (fillColumn .f64 (s.lowValue t c a).toNat) l) (n - b.val) 0) else none
      | none => none)) ∧
    (∀ (k : Fin 16) (b : Fin 64) (a : Src), MatUnit (.tileDrainF32 k b a) [(.b32, a)] [] false (nameRun b.val 16) (fun s t c =>
      match s.heldTile t c k.val with
      | some x => if x.check = none then some (s, fun n l => nth (x.drainRow .f32 (fillColumn .f32 (s.lowValue t c a).toNat) l) (n - b.val) 0) else none
      | none => none)) ∧
    (∀ (k : Fin 16) (b : Fin 64) (a : Src), MatUnit (.tileDrainBf16 k b a) [(.b32, a)] [] false (nameRun b.val 16) (fun s t c =>
      match s.heldTile t c k.val with
      | some x => if x.check = none then some (s, fun n l => nth (x.drainRow .bf16 (fillColumn .bf16 (s.lowValue t c a).toNat) l) (n - b.val) 0) else none
      | none => none)) ∧
    (∀ (k : Fin 16) (b sc : Fin 64), MatUnit (.tileQdrainMxf8 k b sc) [] [] false (nameRun b.val (QKind.mxf8).elemNames ++ [sc.val]) (fun s t c =>
      match s.heldTile t c k.val with
      | some x =>
        if x.check = none then some (s, fun n l => if n = sc.val then (x.quantRow .mxf8 l).2 else nth (x.quantRow .mxf8 l).1 (n - b.val) 0) else none
      | none => none)) ∧
    (∀ (k : Fin 16) (b sc : Fin 64), MatUnit (.tileQdrainMxf6 k b sc) [] [] false (nameRun b.val (QKind.mxf6).elemNames ++ [sc.val]) (fun s t c =>
      match s.heldTile t c k.val with
      | some x =>
        if x.check = none then some (s, fun n l => if n = sc.val then (x.quantRow .mxf6 l).2 else nth (x.quantRow .mxf6 l).1 (n - b.val) 0) else none
      | none => none)) ∧
    (∀ (k : Fin 16) (b sc : Fin 64), MatUnit (.tileQdrainMxf4 k b sc) [] [] false (nameRun b.val (QKind.mxf4).elemNames ++ [sc.val]) (fun s t c =>
      match s.heldTile t c k.val with
      | some x =>
        if x.check = none then some (s, fun n l => if n = sc.val then (x.quantRow .mxf4 l).2 else nth (x.quantRow .mxf4 l).1 (n - b.val) 0) else none
      | none => none)) ∧
    (∀ (k : Fin 16) (b sc : Fin 64), MatUnit (.tileQdrainMxi8 k b sc) [] [] false (nameRun b.val (QKind.mxi8).elemNames ++ [sc.val]) (fun s t c =>
      match s.heldTile t c k.val with
      | some x =>
        if x.check = none then some (s, fun n l => if n = sc.val then (x.quantRow .mxi8 l).2 else nth (x.quantRow .mxi8 l).1 (n - b.val) 0) else none
      | none => none)))

/-- mma and mma.sp, their acceptance and their application, and the tile pool -/
def Obligations.MatrixPasses : Prop :=
  
  (∀ (k : Fin 16) (f : MFmt) (a b : Fin 64) (la lb sparse : Bool) (s : State) (t : Team) (c : Nat), WholeCourse s t c → k.val < (t.course c).tiles.length →
    (s.boot = .reduced → f = .bf16) →
    let q := regRow (t.course c) (b.val + f.names) ((t.course c).live.headD 0)
    let i : Instr := if sparse then .mmaSp k f a b la lb else .mma k f a b la lb
    let e := clusterOfCore t.core
    let r : Request := { who := ⟨s.issue.team, c⟩, f := f, tile := k.val, aBase := a.val, bBase := b.val, aLast := la, bLast := lb, sparse := sparse,
                         unitAddr := s.issue.addr, unitLen := s.issue.len }
    (sparse = true → q.toNat % 256 = 0 → WellFormed i = true →
      ∃ s', exec i s = .next s' ∧ Served s s s' t c (((if la then nameRun a.val f.names else []) ++ (if lb then nameRun b.val f.names else [])).map
        fun n => (.b32, .reg (Fin.ofNat 64 n) true)) [] (fun _ _ => 0) [] (fun l => regFree (t.course c) (b.val + f.names) l) [] fun _ th => th) ∧
    (sparse = false ∨ q.toNat % 256 ≠ 0 →
      exec i s = .next (((s.setCluster e { s.cluster e with requests := (s.cluster e).requests ++ [r] }).due (.passAcceptance e)).await s.issue.lift .pass))) ∧
  (∀ (e : Nat) (s : State) (q : Request) (t : Team) (x : Course), (s.cluster e).requests = [q] → s.acceptable q = true →
    FMap.get s.teams q.who.team = some t → FMap.get t.courses q.who.course = some x →
    let qv := if q.sparse then some (regRow x (q.bBase + q.f.names) (x.live.headD 0)) else none
    ∃ s', exec (.passAcceptance e) s = .next s' ∧ (s'.cluster e).requests = [] ∧
      (s'.cluster e).work = (s.cluster e).work ++
        [(q.who, .pass q.f q.tile (x.laneRows (nameRun q.aBase q.f.names)) (x.laneRows (nameRun q.bBase q.f.names)) qv)] ∧
      Instr.passApplied e ∈ s'.agenda ∧
      ∀ l th, FMap.get x.threads l = some th → ∃ th', s'.threadAt q.who.team q.who.course l = some th' ∧ th'.wait = .none ∧
        th'.pc = q.unitAddr + BitVec.ofNat 64 q.unitLen) ∧
  (∀ (e : Nat) (s : State) (r : CourseRef) (f : MFmt) (k : Nat) (a b : List (List W32)) (q : Option W32) (rest : List (CourseRef × EngineOp)) (t : Team)
    (x : Course) (tl : Tile), (s.cluster e).work = (r, .pass f k a b q) :: rest → FMap.get s.teams r.team = some t → FMap.get t.courses r.course = some x →
    x.tiles[k]? = some tl →
    ∃ s' t', exec (.passApplied e) s = .next s' ∧ (s'.cluster e).work = rest ∧ FMap.get s'.teams r.team = some t' ∧
      FMap.get t'.courses r.course = some { x with tiles := setNth x.tiles k (tl.pass f a b q) }) ∧
  (∀ (e : Nat) (s : State) (r : CourseRef) (rest : List CourseRef) (t : Team) (x : Course), (s.cluster e).pool = r :: rest →
    FMap.get s.teams r.team = some t → FMap.get t.courses r.course = some x → x.awaitTiles = false → x.tileWait ≤ (s.cluster e).freeTiles →
    ∃ s' t' x', exec (.tilePoolGrant e) s = .next s' ∧ (s'.cluster e).pool = rest ∧ (s'.cluster e).freeTiles = (s.cluster e).freeTiles - x.tileWait ∧
      FMap.get s'.teams r.team = some t' ∧ FMap.get t'.courses r.course = some x' ∧ x'.tiles = List.replicate x.tileWait zeroTile ∧
      ∀ l th, FMap.get x.threads l = some th → th.wait = .tilePool → ∃ th', FMap.get x'.threads l = some th' ∧ th'.wait = .none ∧ th'.pc = th.pc)

/-- One pass of the exact formats on a tile -/
def Obligations.PassArithmetic : Prop :=
  ∀ (t : Tile) (f : MFmt) (a b : List (List W32)) (i j : Nat), f.exactPass = true → i < 32 → j < 32 → t.c.length = 1024 →
  let av := laneValues f true (nth a i [])
  let bv := laneValues f false (nth b j [])
  let sum := xsum ((List.range (passDepth f)).map fun k => FVal.mul (nth av k (.fin false 0 0)) (nth bv k (.fin false 0 0)))
  a.length = 32 → b.length = 32 →
  nth (t.pass f a b none).c (32 * i + j) 0 = (accCell (nth t.c (32 * i + j) 0) sum).1 ∧
  (t.pass f a b none).p = if t.p = 0xFFFFFFFFFFFFFFFF then t.p else t.p + 1

/-- R47, R124, R136, R294, R335. That a timer is an event of its own between units is the model's arrangement (log 2). -/
def Obligations.TimersRunOut : Prop :=
  ∀ (s : State) (r : ThreadRef) (t : Team) (x : Course) (th : Thread), FMap.get s.teams r.team = some t → FMap.get t.courses r.course = some x →
  FMap.get x.threads r.lane = some th →
  let next := fun (q : Thread) => q.goto (q.pc + BitVec.ofNat 64 q.waitLen) s.cycle
  (th.wait = .sleep 0 → ∃ s', exec (.sleepExpiry r) s = .next s' ∧ s'.threadAt r.team r.course r.lane = some (next th) ∧
    (∀ q : ThreadRef, q ≠ r → s'.threadAt q.team q.course q.lane = s.threadAt q.team q.course q.lane) ∧
    s' = { s with teams := s'.teams, issue := s'.issue }) ∧
  (∀ d, th.wait = .mwait d (some 0) → d < 64 → x.sound = true → ∃ s' x', exec (.mwaitTimeout r) s = .next s' ∧
    (∃ cs, FMap.get s'.teams r.team = some { t with courses := cs } ∧ FMap.get cs r.course = some x' ∧
      ∀ k, k ≠ r.course → FMap.get cs k = FMap.get t.courses k) ∧
    (∃ sv, FMap.get x'.threads r.lane = some { next th with monitor := none, saved := sv }) ∧ regRow x' d r.lane = 1 ∧
    (∀ n, ∀ l ∈ x.live, ¬ (n = d ∧ l = r.lane) → regRow x' n l = regRow x n l) ∧
    (∀ k, k ≠ r.team → FMap.get s'.teams k = FMap.get s.teams k) ∧ s' = { s with teams := s'.teams, issue := s'.issue }) ∧
  (∀ pc : BitVec 64, FMap.get x.convs pc.toNat = some 0 → ∃ s', exec (.convTimeout ⟨r.team, r.course⟩ pc) s = .next s' ∧
    s'.threadAt r.team r.course r.lane = some (if th.wait = .conv ∧ th.pc = pc then next th else th) ∧
    (∀ q : ThreadRef, (q.team, q.course) ≠ (r.team, r.course) → s'.threadAt q.team q.course q.lane = s.threadAt q.team q.course q.lane) ∧
    s' = { s with teams := s'.teams, issue := s'.issue }) ∧
  (th.parked = none → t.part < s.parts.length → ((s.under t).part t.part).sentinel ≤ th.sentinel → ∃ s' th' token, exec (.waitSentinel r) s = .next s' ∧
    s'.threadAt r.team r.course r.lane = some th' ∧ th'.parked = some ⟨FCode.waitSentinel.num, token⟩ ∧ th'.pc = th.pc ∧ th'.wait = th.wait ∧
    FMap.get (s'.part t.part).subjects token = some (.thread r FCode.waitSentinel.num []) ∧
    Instr.faultRecordPost (Fin.ofNat 16 t.part) ∈ s'.agenda) ∧
  (∀ bin : Fin 8, (nth t.bins bin.val {}).pending = true → exec (.spawnTimerExpiry r.team bin) s = .next (s.settle r.team))

/-- R246, R259 to R264, R278. That each is a step of its own is the model's arrangement (log 2). -/
def Obligations.MemoryEvents : Prop :=
  
  (∀ (s : State) (r : CourseRef) (t : Team) (x : Course) (ld : PendingLoad), FMap.get s.teams r.team = some t → FMap.get t.courses r.course = some x →
    x.sound = true → x.loads = [ld] → (∀ l ∈ ld.lanes, l ∈ x.live) → (ld.full = true → ld.lanes = x.live) →
    let words := (ld.vals.headD []).length
    let word := fun (k l : Nat) => nth (nth ld.vals (ld.lanes.idxOf l) []) k 0
    ld.dest + words ≤ 64 → (ld.oneRead = true → ∀ k, ∀ l ∈ ld.lanes, ∀ m ∈ ld.lanes, word k l = word k m) →
    ∃ s' x', exec (.loadComplete r) s = .next s' ∧
      (∃ cs, FMap.get s'.teams r.team = some { t with courses := cs } ∧ FMap.get cs r.course = some x' ∧
        ∀ k, k ≠ r.course → FMap.get cs k = FMap.get t.courses k) ∧ x'.loads = [] ∧ x'.live = x.live ∧
      (∀ k, k < words → ∀ l ∈ ld.lanes, regRow x' (ld.dest + k) l = word k l) ∧
      (∀ n, ∀ l ∈ x.live, ¬ (ld.dest ≤ n ∧ n < ld.dest + words ∧ l ∈ ld.lanes) → regRow x' n l = regRow x n l) ∧
      s' = { s with teams := s'.teams, cores := s'.cores }) ∧
  (∀ (s : State) (core line : Nat), (∀ o ∈ ((s.core core).line line).dirty, o < 128 ∧ (FMap.get ((s.core core).line line).valid o).isSome = true) →
    s.homeAlive (128 * line) = true →
    let r := if ((s.core core).line line).dirty = [] then s else s.recall line (some core)
    ∃ s', exec (.writeBackPerformed core line) s = .next s' ∧
      (∀ pa, s'.mem.read pa = if lineOf pa = line ∧ s.dirtyByte core pa = true then s.seenByte core pa else r.mem.read pa) ∧
      (∀ pa, s'.seenByte core pa = r.seenByte core pa) ∧
      ∀ pa, s'.dirtyByte core pa = (s.dirtyByte core pa && decide (lineOf pa ≠ line))) ∧
  (∀ (s : State) (id : Nat), exec (.stampedStoreHeldPending id) s =
    .next { s with stores := s.stores.map fun (x : StampedStore) => if x.id = id then { x with held := true } else x }) ∧
  (∀ (s : State) (id pa : Nat) (b : List Byte) (x : StampedStore), s.stores.find? (fun y => y.id == id) = some x → s.canShow x = true →
    x.source = none → x.pieces = [⟨none, pa, b⟩] → b ≠ [] → lineOf (pa + b.length - 1) = lineOf pa →
    ∃ s', exec (.stampedStoreVisible id) s = .next s' ∧
      (∀ k, (h : k < b.length) → s'.mem.read (pa + k) = b[k]) ∧
      (∀ a, a < pa ∨ pa + b.length ≤ a → s'.mem.read a = (s.recalled pa b.length).mem.read a) ∧
      (FMap.get s'.lineStamp (lineOf pa)).getD 0 = x.stamp ∧
      (∀ l, l ≠ lineOf pa → (FMap.get s'.lineStamp l).getD 0 = (FMap.get s.lineStamp l).getD 0) ∧
      s'.stores = (s.stores.map fun (y : StampedStore) => if y.id = id then { y with visible := true } else y) ∧
      s'.agenda = s.agenda ++ [.visibilityReport id]) ∧
  (∀ (s : State) (id : Nat) (x : StampedStore), s.stores.find? (fun y => y.id == id) = some x → x.visible = true → x.cmd = none →
    ∃ s', exec (.visibilityReport id) s = .next s' ∧ s'.stores = s.stores.filter (fun y => y.id != id) ∧
      (∀ r : ThreadRef, s'.threadAt r.team r.course r.lane = (s.threadAt r.team r.course r.lane).map fun th => th.dropStamp id) ∧
      s' = { s with teams := s'.teams, stores := s'.stores }) ∧
  (∀ (s : State) (die : Fin 4) (dom : StampDom), s.dies.length = 4 →
    let seen := match dom with | .package => s | .domain => s.refreshPeers
    ∃ s', exec (.watermarkRefresh die dom) s = .next s' ∧
      (match dom with
        | .package => (s'.die die.val).wPackage = max (s.die die.val).wPackage (seen.ownWatermark dom).2 ∧
            (s'.die die.val).wDomain = (s.die die.val).wDomain
        | .domain => (s'.die die.val).wDomain.length = (s.die die.val).wDomain.length ∧
            (∀ k, k < (s.die die.val).wDomain.length → nth (s'.die die.val).wDomain k 0 =
              max (nth (s.die die.val).wDomain k 0) (seen.withPeers k (seen.ownWatermark dom).2)) ∧
            (s'.die die.val).wPackage = (s.die die.val).wPackage) ∧
      s'.mem = s.mem ∧ s'.stores = s.stores)

/-- R267, R271, R299, R301, R304, R307, R310, R311. Which element values a contribution too short for its count has is a free value (log 21). -/
def Obligations.EngineEvents : Prop :=
  
  (∀ (s : State) (key : Nat) (k : Fin 4) (q : Cmd), s.startable key k.val = some q →
    let on : State := s.onCmd key k.val q.num fun c => { c with started := true }
    let last := Instr.engineCommandComplete key k q.num
    match q.kind with
    | .copy _ _ _ | .prefetch _ _ _ | .ckpt _ _ _ _ | .copySt _ _ _ _ => exec (.engineCommandStart key k) s = .next (on.due last)
    | .fill tk r _ n => ∀ t, FMap.get s.teams tk = some t →
      let x := t.ring r
      ∃ s' t', exec (.engineCommandStart key k) s = .next s' ∧ FMap.get s'.teams tk = some t' ∧ last ∈ s'.agenda ∧
        (r < t.rings.length → (t'.ring r).claim = (x.claim + 1) % x.slots.length ∧
          (t'.ring r).slots = setNth x.slots x.claim { state := 1, target := n })
    | .coll b => exec (.engineCommandStart key k) s = .next ((on.startColl key q.num b q.ordinal).due last)) ∧
  (∀ (s : State) (key : Nat) (k : Fin 4) (x : Slice) (q : Cmd) (dst src : W64) (n : Nat) (b : List Byte) (y : Xlat),
    FMap.get s.slices key = some x → (s.ctx key k.val).queue = [q] → q.kind = .copy dst src n → q.started = true → q.fault = none →
    q.data = none → q.progress = 0 → k.val < x.ctxs.length → q.num = (s.ctx key k.val).counter + 1 → s.sourceOf x.part src.toNat n = .ok b →
    b ≠ [] → b.length ≤ 65536 - dst.toNat % 65536 → (s.translate none x.part true .write dst).2 = .ok y → y.stamped = false →
    y.remote = none → s.homeAlive y.pa b.length = true → s.linkOut x.part = false →
    ∃ s', exec (.engineCommandComplete key k q.num) s = .next s' ∧
      (∀ j, (h : j < b.length) → s'.mem.read (y.pa + j) = b[j]) ∧
      (∀ a, a < y.pa ∨ y.pa + b.length ≤ a → s'.mem.read a = (s.recalled y.pa b.length).mem.read a) ∧
      (s'.ctx key k.val).queue = [] ∧ q.num ≤ (s'.ctx key k.val).counter) ∧
  (∀ (s : State) (part : Fin 16) (c : Contribution), s.parts.length = 16 →
    let group := match c.group with | some g => g.val | none => 64
    let m : Member := { device := c.device.val, kind := c.kind, op := c.op, count := c.count, root := c.root, bytes := c.bytes }
    (group = 64 ∨ (s.joinColl part.val group c.tag m).fixedMembers part.val group c.tag = none) →
    ∃ s', exec (.collectiveContribution part c) s = .next s' ∧
      ∃ y, (s'.part part.val).openInstance group c.tag = some y ∧
        y.members = (match (s.part part.val).openInstance group c.tag with | some o => o.members | none => []) ++ [m]) ∧
  (∀ (s : State) (part : Fin 16) (tag : BitVec 64) (x : CollInstance) (o : Member) (rest : List Member) (key : Nat) (c : Cmd) (b : List Byte),
    (s.part part.val).openInstance 64 tag.toNat = some x → x.members = o :: rest →
    ((s.slicesOf part.val).flatMap fun p =>
        ((nth p.2.ctxs 2 {}).queue.filter fun c => c.instId == some (64, tag.toNat) && c.data.isNone).map fun c => (p.1, c)) = [(key, c)] →
    (∀ y ∈ (s.part part.val).instances.erase x, ¬ (y.group = 64 ∧ y.tag = tag.toNat ∧ y.started = false)) → c.kind = .coll b →
    startOk o (nth x.members c.rank o) x.members.length = true →
    let d : CollDesc := { collDesc b with kind := o.kind, op := o.op, count := o.count, root := o.root }
    ∃ s', exec (.openGroupStart part tag) s = .next s' ∧ (s'.part part.val).openInstance 64 tag.toNat = none ∧
      s' = { s.onCmd key 2 c.num (fun q => { q with data := some (collResult d x.members c.rank s.freeCtr) }) with
        parts := s'.parts, freeCtr := s'.freeCtr })

/-- R27, R135, R322, R324, R368, R395. That a scratchpad reads 0 at launch is the model's choice (log 1). `State.writeLines` writes the register-store lines
that saved teams of the stopped slice have left (R66, R67). -/
def Obligations.Scheduling : Prop :=
  
  (∀ (s : State) (key : Nat) (x : Slice), FMap.get s.slices key = some x → x.state = .running → x.budget ≠ 0 → x.budget ≤ x.consumed →
    let u := s.writeLines fun _ y => y.team / 2 ^ 24 == key
    ∃ s' x', exec (.budget key) s = .next s' ∧ FMap.get s'.slices key = some x' ∧ x'.state = .stopped ∧
      Instr.faultRecordPost (Fin.ofNat 16 x.part) ∈ s'.agenda ∧
      (∀ k t, FMap.get u.teams k = some t → sliceKey t.part t.slice = key →
        FMap.get s'.teams k = some { t with saveDue := true } ∧ Instr.teamSave k ∈ s'.agenda) ∧
      ∀ k t, FMap.get u.teams k = some t → sliceKey t.part t.slice ≠ key → k ∉ FMap.keys (u.teamsOf key) → FMap.get s'.teams k = some t) ∧
  (∀ (s : State) (tk : Nat) (t : Team) (x : Slice), FMap.get s.teams tk = some t → FMap.get s.slices (sliceKey t.part t.slice) = some x →
    (s.canSave tk = false → exec (.teamSave tk) s = .next { s with teams := FMap.modify s.teams tk fun t => { t with saveDue := true } }) ∧
    (s.canSave tk = true → ∃ s', exec (.teamSave tk) s = .next s' ∧
      ((∃ t', FMap.get s'.teams tk = some t' ∧ t'.saving = true ∧ t'.held ≠ []) ∨
       (FMap.get s'.teams tk = none ∧ ∃ x', FMap.get s'.slices (sliceKey t.part t.slice) = some x' ∧ t.index ∈ x'.savedTeams ∧ t.index ∈ x'.hasImage)))) ∧
  (∀ (x : Slice) (team k now l : Nat), 32 * k + l < x.teamThreads → l < 32 →
    let c := launchCourse x team k now
    (∃ th, FMap.get c.threads l = some th ∧ th.pc = BitVec.ofNat 64 (x.fieldAt 0 8) ∧ th.root = BitVec.ofNat 32 (32 * k + l) ∧ th.ords = [] ∧
      th.stack = [] ∧ th.sp = 0 ∧ th.draws = 0 ∧ th.tsw = 0) ∧
    (∀ j, j < 8 → regRow c j l = BitVec.ofNat 32 (x.fieldAt (8 + 4 * j) 4)) ∧ regRow c 8 l = BitVec.ofNat 32 (32 * k + l) ∧
    regRow c 9 l = BitVec.ofNat 32 team ∧ regRow c 10 l = BitVec.ofNat 32 (team * x.teamThreads + 32 * k + l) ∧
    (∀ n, 11 ≤ n → n < 64 → regFree c n l = true) ∧ ∀ n, n < 16 → nth c.opf n .free = .free) ∧
  (∀ (s : State) (part : Fin 16) (key : Nat) (x : Slice) (k core : Nat), s.thermalStop = false → (s.part part.val).enabled = true →
    ((s.slicesOf part.val).filter fun p => p.2.placeable) = [(key, x)] → FMap.get s.slices key = some x → x.yielded = [] → x.gang = 0 →
    x.nextUnplaced = some k → k ∉ x.savedTeams → k ∉ x.relaunch → s.trimReservations.findCore x = some core →
    ∃ s' t', exec (.teamPlacement part) s = .next s' ∧ FMap.get s'.teams (teamKey x.part x.num k) = some t' ∧ t'.core = core ∧ t'.index = k ∧
      t'.courses = ((List.range x.launchCourses).map fun c => (c, launchCourse x k c s.cycle)) ∧ t'.spad = [] ∧ t'.rings = List.replicate 8 {} ∧
      (∃ x', FMap.get s'.slices key = some x' ∧ x'.state = .running ∧ k < x'.nextTeam ∧ x'.ended = x.ended) ∧
      Instr.teamPlacement part ∈ s'.agenda) ∧
  ∀ (s : State) (part : Fin 16) (key : Nat) (x : Slice), s.thermalStop = false → (s.part part.val).enabled = true →
    ((s.slicesOf part.val).filter fun p => p.2.placeable) = [(key, x)] → FMap.get s.slices key = some x → x.state = .ready →
    (∃ k ∈ x.yielded, (FMap.get s.teams (teamKey x.part x.num k)).isSome = true) →
    exec (.teamPlacement part) s = .next ((s.trimReservations.runYielded key).due (.teamPlacement part))

/-- R24, R256, R347, R354, R355, R377, R378, R388. The model's own: memory keeps its contents at RESET (log 5); a limit at or below 300 MHz stops issue, in
reduced service too (log 42); all eighteen ports work from full service on (log 24); errors of other stores come with PATROL_SCRUB (log 49); the byte
order of a digest (log 53). How far a clock steps and how far time moves is not stated (logs 11 and 25). -/
def Obligations.DeviceEvents : Prop :=
  
  (∀ s : State, ∃ s', exec .reset s = .next s' ∧
    (stageVerifies 0 = false → s'.boot = .bootFail ∧ s'.failStage = 0 ∧ s'.measures = List.replicate 4 0) ∧
    (stageVerifies 0 = true → nth s'.measures 0 0 = sha512 (digestBytes 0 ++ digestBytes (sha512 (Config.stageImage 0))) ∧
      if stageVerifies 1 = true then s'.boot = .reduced ∧
        nth s'.measures 1 0 = sha512 (digestBytes 0 ++ digestBytes (sha512 (Config.stageImage 1)))
      else s'.boot = .bootFail ∧ s'.failStage = 1) ∧
    s' = { State.reset with
      agenda := s.agenda, issue := s.issue, freeCtr := s.freeCtr, signals := s.signals, mem := s.mem, hostMem := s.hostMem
      poison := s.poison, l2Poison := s.l2Poison, boot := s'.boot, failStage := s'.failStage, measures := s'.measures }) ∧
  (∀ s : State, s.boot = .reduced →
    (s.slices.any (fun p => p.2.state == .running) = true → exec .fullServiceStart s = .next s) ∧
    (s.slices.any (fun p => p.2.state == .running) = false → ∃ s', exec .fullServiceStart s = .next s' ∧ s'.boot = .full ∧ s'.clockMHz = 600 ∧
      s'.ports = 0x3FFFF ∧ s'.slices = s.slices ∧ s'.mem = s.mem ∧ ∀ k : Fin 16, Instr.teamPlacement k ∈ s'.agenda)) ∧
  (∀ (s : State) (m : Nat), 1 ≤ m → s.clockMHz = 300 + 25 * m → ∃ s' n, exec .powerTemperatureLimit s = .next s' ∧ 1 ≤ n ∧ n ≤ m ∧
      s' = { s with clockMHz := s.clockMHz - 25 * n, throttles := s.throttles + n, freeCtr := s'.freeCtr }) ∧
  (∀ s : State, s.clockMHz ≤ 300 → exec .powerTemperatureLimit s = .next { s with thermalStop := true, thermalEvents := s.thermalEvents + 1 }) ∧
  (∀ (s : State) (tower : Fin 12) (n : Nat) (bad : List Nat), ∃ s', exec (.patrolScrub tower n (bad.map .granule)) s = .next s' ∧
      (FMap.get s'.corrected (unitKey 0 tower.val)).getD 0 = (FMap.get s.corrected (unitKey 0 tower.val)).getD 0 + n ∧ s'.mem = s.mem ∧
      ∀ g, g ∈ s'.poison ↔ g ∈ s.poison ∨ (g ∈ bad ∧ physOk (32 * g) 32 = true ∧ towerOf (32 * g) = tower.val)) ∧
  (∀ (s : State) (tower : Fin 12) (source : Fin 4) (unit g : Nat),
      (∃ s', exec (.patrolScrub tower 0 [.corrected source unit]) s = .next s' ∧ s' = { s with corrected := s'.corrected } ∧
        (FMap.get s'.corrected (unitKey source.val unit)).getD 0 = (FMap.get s.corrected (unitKey source.val unit)).getD 0 + 1) ∧
      (physOk (32 * g) 32 = true → ∃ s', exec (.patrolScrub tower 0 [.bad (.l2 g)]) s = .next s' ∧ s'.mem = s.mem ∧
        ∀ k, k ∈ s'.poison ↔ k ∈ s.poison ∨ k = g)) ∧
  (∀ (s : State) (r : CourseRef) (t : Team) (x : Course) (tower : Fin 12) (n : Fin 64), FMap.get s.teams r.team = some t →
      FMap.get t.courses r.course = some x → x.suspended = false → nameCode x.names n.val ≠ 0 →
      ∃ s' t' x', exec (.patrolScrub tower 0 [.bad (.name r n)]) s = .next s' ∧ FMap.get s'.teams r.team = some t' ∧
        FMap.get t'.courses r.course = some x' ∧ (∀ p, p ∈ x'.bad ↔ p ∈ x.bad ∨ p = .name n.val) ∧ x' = { x with bad := x'.bad }) ∧
  (∀ (s : State) (port : Fin 18) (ok : Bool) (n : Nat),
      (s.domain = false ∨ ok = false → exec (.linkTimeExchange port ok n) s = .next (s.signal (.timeMessage port.val (BitVec.ofNat 64 s.ns)))) ∧
      (s.domain = true → ok = true → ∃ s', exec (.linkTimeExchange port ok n) s = .next s' ∧ s'.uNow = s'.uPs ∧
        s' = { s with signals := s.signals ++ [.timeMessage port.val (BitVec.ofNat 64 s.ns)], uPs := s'.uPs, uAt := s.ns, freeCtr := s'.freeCtr }) ∧
      (s.domain = false → s.uNow = 0) ∧
      ∀ d, s.domain = true → s.uAt ≤ s.ns → s.uNow + d / 20 ≤ ({ s with ns := s.ns + d } : State).uNow ∧
        ({ s with ns := s.ns + d } : State).uNow ≤ s.uNow + d / 20 + 1) ∧
  (∀ (s : State) (port : Fin 18) (stamp : BitVec 64), ∃ s', exec (.linkTimeMessage port stamp) s = .next s' ∧ s.ns ≤ s'.ns ∧
      s'.ns ≤ max s.ns stamp.toNat ∧ s' = { s with ns := s'.ns, freeCtr := s'.freeCtr }) ∧
  (∀ (s : State) (port : Fin 18) (body : Option FlitBody) (r : RemoteReq) (p : Fin 16) (c : Contribution) (w : BitVec 64),
      exec (.flitReceived port false body) s = .next (s.signal (.flitRetry port.val)) ∧ exec (.flitReceived port true none) s = .next s ∧
      exec (.flitReceived port true (some (.request r))) s = .next (s.due (.remoteAccessRequest r)) ∧
      exec (.flitReceived port true (some (.contribution p c))) s = .next (s.due (.collectiveContribution p c)) ∧
      exec (.flitReceived port true (some (.time w))) s = .next (s.due (.linkTimeMessage port w))) ∧
  (∀ (s : State) (port : Fin 18) (id : Nat) (d : Fin 512), ∃ s', exec (.flitReceived port true (some (.ack id d))) s = .next s' ∧
      (∀ q : ThreadRef, s'.threadAt q.team q.course q.lane =
        (s.threadAt q.team q.course q.lane).map fun th => { th with remote := th.remote.filter fun p => p != (id, d.val) }) ∧
      s' = { s with teams := s'.teams, slices := s'.slices }) ∧
  (∀ (s : State) (r : RemoteReq),
      (s.remoteAllowed r = false → exec (.remoteAccessRequest r) s = .next (s.signal (.remoteProt r.device.val))) ∧
      (s.remoteAllowed r = true → s.homeAlive r.pa = true →
        (∀ n, r.op = .read n → (s.recalled r.pa n).poisoned r.pa n = false →
          exec (.remoteAccessRequest r) s = .next ((s.recalled r.pa n).signal (.remoteDone r.device.val ((s.recalled r.pa n).mem.readN r.pa n)))) ∧
        (∀ n, r.op = .read n → (s.recalled r.pa n).poisoned r.pa n = true → ∃ s', exec (.remoteAccessRequest r) s = .next s' ∧
          s'.mem = (s.recalled r.pa n).mem ∧ s'.signals = s.signals ++ [.remotePoison r.device.val]) ∧
        (∀ b, r.op = .write b → ∃ s', exec (.remoteAccessRequest r) s = .next s' ∧ s'.signals = s.signals ++ [.remoteDone r.device.val []] ∧
          ∀ a, s'.mem.read a = if h : r.pa ≤ a ∧ a - r.pa < b.length then b[a - r.pa]'h.2 else (s.recalled r.pa b.length).mem.read a)))

/-- R380, R381, R383. The model's own: no core of a lost die stays in the machine's map (log 31), and a die's link ports, which stand on it (R11), fail with
it (log 31). -/
def Obligations.Failures : Prop :=
  
  (∀ (s : State) (port : Fin 18), ∃ s', exec (.linkPlaneFailure port) s = .next s' ∧
      s' = { s with ports := s'.ports, linkDown := if s'.ports = 0 ∧ s.ports ≠ 0 then some s.ns else s.linkDown } ∧
      ∀ k, s'.ports.getLsbD k = (s.ports.getLsbD k && decide (k ≠ port.val))) ∧
  (∀ (s : State) (x y : Fin 4), x ≠ y → ∃ s', exec (.diePortFailure x y) s = .next s' ∧ (min x.val y.val, max x.val y.val) ∈ s'.diePorts ∧
      s' = { s with diePorts := s'.diePorts, agenda := s'.agenda } ∧
      ∀ d : Fin 4, (s.die d.val).alive = true → d.val ∉ s'.reach [0] 4 → Instr.dieLost d ∈ s'.agenda) ∧
  (∀ (s : State) (d : Fin 4), s.dies.length = 4 → (s.die d.val).alive = true → ∃ s', exec (.dieLost d) s = .next s' ∧
      (s'.die d.val).alive = false ∧ (s'.die d.val).lostAt = s.ns ∧
      (∀ k, s'.ports.getLsbD k = (s.ports.getLsbD k && decide (k / 5 ≠ d.val))) ∧ (∀ k, k ≠ d.val → (s'.die k).alive = (s.die k).alive) ∧
      (∀ k t, FMap.get s'.teams k = some t → dieOfCore t.core ≠ d.val) ∧ (∀ p ∈ s'.cores, dieOfCore p.1 ≠ d.val)) ∧
  (∀ (s : State) (d : Fin 4), s.dies.length = 4 → (s.die d.val).alive = false → (s.die d.val).inSet = true → (s.die d.val).lostAt + 1000000 ≤ s.ns →
      ∃ s', exec (.dieSetExit d) s = .next s' ∧ (s'.die d.val).inSet = false ∧ s' = { s with dies := s'.dies }) ∧
  (∀ (s : State) (d : Fin 512), ∃ s', exec (.deviceUnreachable d) s = .next s' ∧ (∀ part k v, s'.windowEntry part k ≠ some (d.val, v)) ∧
      (FMap.get s'.peers d.val).map Peer.reachable = some false ∧ s'.mem = s.mem ∧ s'.teams = s.teams ∧ s'.slices = s.slices)

/-- R312, R339, R345, R346, R348, R352, R353, R365, R387, R390. The model's own: a command is performed at once and completes at a later step (log 2);
STATE with SAVE answers at once and saves later where it must wait (log 35); INVAL writes dirty bytes back at once and waits for the stamped stores
that are pending, and other commands wait for it (log 50). -/
def Obligations.MailboxCommands : Prop :=
  (∀ (s : State) (m : Mbox) (cmd : BitVec 64), s.pfMail.length = 2 → s.vfMail.length = 16 →
    let x := s.mailbox m
    let word : BitVec 64 := cmd &&& 0xFFFF
    let who : CmdIn := ⟨vfOf m, word, x.args, x.payload⟩
    let commands := [Instr.partcfgRead m cmd, .partcfgWrite m cmd, .submit m cmd, .submitResume m cmd, .inval m cmd, .resume m cmd, .kill m cmd,
      .holdclr m cmd, .attest m cmd, .state m cmd, .stateSave m cmd, .unknownCommand m cmd]
    x.queued = false →
    (x.busy = true → ∀ e ∈ commands, exec e s = .next (s.setMailbox m { x with overrun := true })) ∧
    exec (.overrun m cmd) s = .next (s.setMailbox m { x with overrun := true }) ∧
    (x.busy = false → s.invalRuns = true → ∀ e ∈ commands, exec e s =
      .next { s.setMailbox m { x with cmd := word, busy := true, overrun := false, queued := true } with cmdWaits := s.cmdWaits ++ [e] }) ∧
    (x.busy = true →
      let done := fun (u : State) => if x.cvec = 0xFFFF then u else u.signal (.commandDone m x.cvec.toNat)
      (x.inval = none → exec (.mailboxCommandComplete m) s = .next (done (s.setMailbox m { x with busy := false }))) ∧
      ∀ v, x.inval = some v →
        (v.stores.any s.stampOpen = true → exec (.mailboxCommandComplete m) s = .next s) ∧
        (v.stores.any s.stampOpen = false →
          let u := (s.setMailbox m { x with busy := false, inval := none }).seeRange v.part v.va v.len
          exec (.mailboxCommandComplete m) s = .next (done { u with agenda := u.cmdWaits ++ u.agenda, cmdWaits := [] }))) ∧
    (s.invalRuns = false →
    (x.busy = false → (vfOf m).isSome = true → ∀ e ∈ [Instr.partcfgRead m cmd, .partcfgWrite m cmd], ∃ s', exec e s = .next s' ∧
      (s'.mailbox m).busy = true ∧ (s'.mailbox m).cmd = word ∧ (s'.mailbox m).overrun = false ∧ (s'.mailbox m).result = 2 ∧ Instr.mailboxCommandComplete m ∈ s'.agenda ∧ s' = { s with pfMail := s'.pfMail, vfMail := s'.vfMail, agenda := s'.agenda }) ∧
    (x.busy = false → ∀ k, s.cmdPart who = some k → vfOf m = none → ∃ s', exec (.partcfgRead m cmd) s = .next s' ∧ (s'.mailbox m).busy = true ∧ (s'.mailbox m).cmd = word ∧ (s'.mailbox m).overrun = false ∧ (s'.mailbox m).result = 0 ∧
      (s'.mailbox m).payload = x.payload.writeN 0 (s.part k).block ∧ Instr.mailboxCommandComplete m ∈ s'.agenda ∧ s' = { s with pfMail := s'.pfMail, vfMail := s'.vfMail, agenda := s'.agenda }) ∧
    (x.busy = false → ∀ k, s.cmdPart who = some k → vfOf m = none → k < s.parts.length →
      let new : Partition := { s.part k with block := cleanBlock (x.payload.readN 0 1408) }
      (s.blockOk k new = false → ∃ s', exec (.partcfgWrite m cmd) s = .next s' ∧ (s'.mailbox m).busy = true ∧ (s'.mailbox m).cmd = word ∧ (s'.mailbox m).overrun = false ∧ (s'.mailbox m).result = 1 ∧ Instr.mailboxCommandComplete m ∈ s'.agenda ∧ s' = { s with pfMail := s'.pfMail, vfMail := s'.vfMail, agenda := s'.agenda }) ∧
      (s.blockOk k new = true → (s.part k).enabled = false → (∀ p ∈ s.peers, p.2.reachable = true) → ∃ s', exec (.partcfgWrite m cmd) s = .next s' ∧
        (s'.mailbox m).busy = true ∧ (s'.mailbox m).cmd = word ∧ (s'.mailbox m).overrun = false ∧ (s'.mailbox m).result = 0 ∧ s'.part k = new ∧ (∀ j, j ≠ k → s'.part j = s.part j) ∧ Instr.teamPlacement (Fin.ofNat 16 k) ∈ s'.agenda ∧ Instr.mailboxCommandComplete m ∈ s'.agenda ∧
        s'.teams = (if (s.part k).block = new.block then s.teams else (s.keepBlocks k (s.part k).block).teams) ∧
        s' = { s with pfMail := s'.pfMail, vfMail := s'.vfMail, agenda := s'.agenda, parts := s'.parts, teams := s'.teams })) ∧
    (x.busy = false → ∃ s', exec (.unknownCommand m cmd) s = .next s' ∧ (s'.mailbox m).busy = true ∧ (s'.mailbox m).cmd = word ∧ (s'.mailbox m).overrun = false ∧ (s'.mailbox m).result = 3 ∧ Instr.mailboxCommandComplete m ∈ s'.agenda ∧ s' = { s with pfMail := s'.pfMail, vfMail := s'.vfMail, agenda := s'.agenda }))) ∧
  (∀ (s : State) (m : Mbox) (cmd : BitVec 64), s.pfMail.length = 2 → s.vfMail.length = 16 → (s.mailbox m).queued = false → s.invalRuns = false →
    let x := s.mailbox m
    let word : BitVec 64 := cmd &&& 0xFFFF
    let who : CmdIn := ⟨vfOf m, word, x.args, x.payload⟩
    (x.busy = false → ∀ k, s.cmdPart who = some k → (s.part k).enabled = true → k < s.parts.length → s.serving = true → ((vfOf m).isSome && who.flag 14) = false →
      (s.slicesOf k).length < (s.part k).cfg 0x24 4 →
      let num := s.numberFrom k (s.part k).nextSlice ((s.slicesOf k).length + 1)
      let record := x.payload.readN 0 128
      let new : Slice := { part := k, num := num, state := .ready, privileged := who.flag 14, record := record }
      let made : Slice := { new with
        deadline := BitVec.ofNat 64 (new.fieldAt 0x28 8), depcount := new.fieldAt 0x50 4, chunkRem := new.fieldAt 0x48 4
        state := if new.fieldAt 0x50 4 = 0 then .ready else .waiting }
      made.accepted = true →
      (∃ s', exec (.submit m cmd) s = .next s' ∧ FMap.get s'.slices (sliceKey k num) = some made ∧ (∀ j, j ≠ sliceKey k num → FMap.get s'.slices j = FMap.get s.slices j) ∧
        (s'.mailbox m).busy = true ∧ (s'.mailbox m).cmd = word ∧ (s'.mailbox m).overrun = false ∧ (s'.mailbox m).result = 0 ∧ (x.args ≠ [] → nth (s'.mailbox m).args 0 0 = BitVec.ofNat 64 num) ∧ Instr.mailboxCommandComplete m ∈ s'.agenda ∧ s' = { s with pfMail := s'.pfMail, vfMail := s'.vfMail, agenda := s'.agenda, slices := s'.slices, parts := s'.parts }) ∧
      (let after := fun (s' : State) (y : Slice) => FMap.get s'.slices (sliceKey k num) = some y ∧ y.record = record ∧ y.state = made.state ∧
          y.depcount = made.depcount ∧ Instr.mailboxCommandComplete m ∈ s'.agenda ∧
          ∀ c : Fin 4, (nth y.ctxs c.val {}).counter = leNat (x.payload.readN (0x80 + 8 * c.val) 8) ∧
            (nth y.ctxs c.val {}).last = leNat (x.payload.readN (0xA0 + 8 * c.val) 8);
        ((∀ j, j < made.gridTeams → ∃ b, s.ownRead k (BitVec.ofNat 64 (made.image j)) 16 = .ok b ∧ ¬ (bytesAt b 0 8 = 1 ∧ bytesAt b 8 3 = j)) →
          ∃ s' y, exec (.submitResume m cmd) s = .next s' ∧ after s' y ∧ y.savedTeams = [] ∧
            s' = { s with pfMail := s'.pfMail, vfMail := s'.vfMail, agenda := s'.agenda, slices := s'.slices, parts := s'.parts }) ∧
        (∀ b, made.gridTeams = 1 → s.ownRead k (BitVec.ofNat 64 (made.image 0)) 16 = .ok b → bytesAt b 0 8 = 1 → bytesAt b 8 3 = 0 →
          ∃ s' y, exec (.submitResume m cmd) s = .next s' ∧ after s' y ∧ y.savedTeams = [0] ∧ y.hasImage = [0]))) ∧
    (x.busy = false → ∀ k, s.cmdPart who = some k → (s.part k).enabled = true → ∃ s', exec (.inval m cmd) s = .next s' ∧ (s'.mailbox m).busy = true ∧ (s'.mailbox m).cmd = word ∧ (s'.mailbox m).overrun = false ∧ (s'.mailbox m).result = 0 ∧ Instr.mailboxCommandComplete m ∈ s'.agenda ∧
      (∀ (core : Nat) (e : TlbEntry), e ∈ (s'.core core).tlb ↔ e ∈ (s.core core).tlb ∧
        ¬ (e.part = k ∧ e.va < (who.arg 0).toNat % 2 ^ 57 + (who.arg 1).toNat ∧ (who.arg 0).toNat % 2 ^ 57 < e.va + e.size)) ∧
      (∀ core line, (s.part k).granted (128 * line) 128 = true → ((s'.core core).line line).dirty = []) ∧
      (cmd.toNat % 256 = 3 → (s'.mailbox m).inval =
        some ⟨k, (who.arg 0).toNat % 2 ^ 57, (who.arg 1).toNat, s.openStores k ((who.arg 0).toNat % 2 ^ 57) (who.arg 1).toNat⟩)) ∧
    (x.busy = false → ∀ k, s.cmdPart who = some k → (s.part k).enabled = true → k < s.parts.length →
      let token := (who.arg 0).toNat
      let used := FMap.erase (s.part k).subjects token
      (FMap.get (s.part k).subjects token = none → ∀ e ∈ [Instr.resume m cmd, .kill m cmd], ∃ s', exec e s = .next s' ∧ (s'.mailbox m).busy = true ∧ (s'.mailbox m).cmd = word ∧ (s'.mailbox m).overrun = false ∧ (s'.mailbox m).result = 1 ∧ Instr.mailboxCommandComplete m ∈ s'.agenda ∧ s' = { s with pfMail := s'.pfMail, vfMail := s'.vfMail, agenda := s'.agenda }) ∧
      (∀ (r : ThreadRef) (code : Nat) (th : Thread), FMap.get (s.part k).subjects token = some (.thread r code []) → isStop code = false →
        s.isResident r.team r.course = true → s.threadAt r.team r.course r.lane = some th → th.parked = some ⟨code, token⟩ → th.fault.getLsbD 31 = false →
        ∃ s', exec (.resume m cmd) s = .next s' ∧ (s'.mailbox m).busy = true ∧ (s'.mailbox m).cmd = word ∧ (s'.mailbox m).overrun = false ∧ (s'.mailbox m).result = 0 ∧ Instr.mailboxCommandComplete m ∈ s'.agenda ∧ (s'.part k).subjects = used ∧
          s'.threadAt r.team r.course r.lane = some
            { th with parked := none, sentinel := 0, readySince := s.cycle, resumed := code == FCode.linkLost.num } ∧ s' = { s with pfMail := s'.pfMail, vfMail := s'.vfMail, agenda := s'.agenda, parts := s'.parts, teams := s'.teams }) ∧
      (∀ (r : ThreadRef) (code : Nat), FMap.get (s.part k).subjects token = some (.thread r code []) → isStop code = false → s.parkedBy r token = false →
        ∀ e ∈ [Instr.resume m cmd, .kill m cmd], ∃ s', exec e s = .next s' ∧ (s'.mailbox m).result = 0 ∧ (s'.part k).subjects = used ∧ s'.teams = s.teams) ∧
      (∀ (key : Nat) (y : Slice), FMap.get (s.part k).subjects token = some (.slice key) → FMap.get s.slices key = some y → y.state = .stopped →
        ∃ s', exec (.kill m cmd) s = .next s' ∧ (s'.mailbox m).busy = true ∧ (s'.mailbox m).cmd = word ∧ (s'.mailbox m).overrun = false ∧ (s'.mailbox m).result = 0 ∧ Instr.mailboxCommandComplete m ∈ s'.agenda ∧ (s'.part k).subjects = used ∧
          (∀ z, FMap.get s'.slices key = some z → z.state = .complete) ∧ ∀ j t, FMap.get s'.teams j = some t → sliceKey t.part t.slice ≠ key))) ∧
  (∀ (s : State) (m : Mbox) (cmd : BitVec 64), s.pfMail.length = 2 → s.vfMail.length = 16 → (s.mailbox m).queued = false → s.invalRuns = false →
    let x := s.mailbox m
    let word : BitVec 64 := cmd &&& 0xFFFF
    let who : CmdIn := ⟨vfOf m, word, x.args, x.payload⟩
    (x.busy = false → ∀ k, s.cmdPart who = some k → (s.part k).enabled = true → k < s.parts.length → ∃ s', exec (.holdclr m cmd) s = .next s' ∧ (s'.mailbox m).busy = true ∧ (s'.mailbox m).cmd = word ∧ (s'.mailbox m).overrun = false ∧ (s'.mailbox m).result = 0 ∧
      Instr.mailboxCommandComplete m ∈ s'.agenda ∧ (s'.part k).holds = (if (who.arg 1).getLsbD 0 then (s.part k).holds else (s.part k).holds.erase (who.arg 0).toNat) ∧
      (s'.part k).domHolds = (if (who.arg 1).getLsbD 0 then (s.part k).domHolds.erase (who.arg 0).toNat else (s.part k).domHolds) ∧ s' = { s with pfMail := s'.pfMail, vfMail := s'.vfMail, agenda := s'.agenda, parts := s'.parts }) ∧
    (x.busy = false → ∀ k, s.cmdPart who = some k → ∃ s', exec (.attest m cmd) s = .next s' ∧ (s'.mailbox m).busy = true ∧ (s'.mailbox m).cmd = word ∧ (s'.mailbox m).overrun = false ∧ (s'.mailbox m).result = 0 ∧ Instr.mailboxCommandComplete m ∈ s'.agenda ∧
      (let body := s.attestBody k (x.payload.readN 0 64) (s.readClock 0).2.1
       (s'.mailbox m).payload = x.payload.writeN 0 (body ++ identitySign body)) ∧ s' = { s with pfMail := s'.pfMail, vfMail := s'.vfMail, agenda := s'.agenda, dies := s'.dies, freeCtr := s'.freeCtr }) ∧
    (x.busy = false → ∀ k y, s.cmdPart who = some k → (s.part k).enabled = true →
      let num := (who.arg 0).toNat
      let index := (who.arg 1).toNat
      FMap.get s.slices (sliceKey k num) = some y → num < 2 ^ 32 → index < y.gridTeams →
      (∃ s', exec (.state m cmd) s = .next s' ∧ (s'.mailbox m).busy = true ∧ (s'.mailbox m).cmd = word ∧ (s'.mailbox m).overrun = false ∧ (s'.mailbox m).result = 0 ∧ (s'.mailbox m).payload = x.payload.writeN 0 (s.sliceEntry (sliceKey k num) y) ∧ Instr.mailboxCommandComplete m ∈ s'.agenda ∧ s' = { s with pfMail := s'.pfMail, vfMail := s'.vfMail, agenda := s'.agenda }) ∧
      (let tk := teamKey k num index
        let began : State := s.setMailbox m { x with cmd := word, busy := true, overrun := false }
        let whole : State := { began with teams := FMap.modify s.teams tk fun t => { t with evicted := false } }
        (∀ t, FMap.get s.teams tk = some t →
          (whole.canSave tk = false → ∃ s', exec (.stateSave m cmd) s = .next s' ∧
            s'.teams = FMap.modify whole.teams tk (fun t => { t with saveDue := true }) ∧ Instr.mailboxCommandComplete m ∈ s'.agenda ∧
            s' = { s with pfMail := s'.pfMail, vfMail := s'.vfMail, agenda := s'.agenda, teams := s'.teams }) ∧
          (whole.canSave tk = true → ∃ s', exec (.stateSave m cmd) s = .next s' ∧ s'.teams = (whole.saveTeam tk).teams ∧
            s'.slices = (whole.saveTeam tk).slices ∧ s'.mem = (whole.saveTeam tk).mem ∧ Instr.mailboxCommandComplete m ∈ s'.agenda)) ∧
        (FMap.get s.teams tk = none → let u := began.writeLines fun _ l => l.team == tk
          ∃ s', exec (.stateSave m cmd) s = .next s' ∧ s'.teams = u.teams ∧ s'.slices = u.slices ∧ s'.mem = u.mem ∧
            Instr.mailboxCommandComplete m ∈ s'.agenda)))) ∧
  (∀ (pf : Fin 2) (cmd : BitVec 64) (args : List (BitVec 64)) (body : List Byte) (s : State), (cmd &&& 0xFFFF).toNat % 256 = 1 → cmd.getLsbD 15 = false →
    (s.invalRuns = true → exec (.vendorDefinedMessage pf cmd args body) s =
      .next { s with cmdWaits := s.cmdWaits ++ [.vendorDefinedMessage pf cmd args body] }) ∧
    (s.invalRuns = false → exec (.vendorDefinedMessage pf cmd args body) s = .next (s.signal (.message pf 0 ((args ++ [0, 0, 0, 0]).take 4)
      ((Bytes.writeN (Bytes.writeN [] 0 body) 0 (s.part (fld (cmd &&& 0xFFFF).toNat 8 4)).block).readN 0 3840)))))

/-- R4, R5, R325, R349, R350, R353, R363, R387. The model's own: an access beyond the BAR is unsupported (log 36); a host write to a stamped page is turned
away as a whole, its reading of R258 and R350 (log 36); a partition's window ignores writes in BOOTFAIL, and a write at CMD's offset is one of the whole
of CMD (log 52); the command's event goes to the head of the agenda (log 2); a base is stored with its low 12 bits clear (log 52). -/
def Obligations.HostAccesses : Prop :=
  
  (∀ (s : State) (part : Fin 16) (off : Nat) (b : List Byte), s.barAddr part.val off b.length = none →
    exec (.hostBar2Write part off b) s = .next (s.signal (.unsupportedRequest part.val)) ∧
    ∀ n, s.barAddr part.val off n = none → exec (.hostBar2Read part off n) s = .next (s.signal (.unsupportedRequest part.val))) ∧
  (∀ (s : State) (part : Fin 16) (off va : Nat) (b : List Byte) (y : Xlat), s.barAddr part.val off b.length = some va → b ≠ [] → va < 2 ^ 64 →
    va % 65536 + b.length ≤ 65536 → (s.translate none part.val true .write (BitVec.ofNat 64 va)).2 = .ok y → y.remote = none →
    s.homeAlive y.pa b.length = true → s.linkWaits = [] →
    (y.stamped = false → ∃ s', exec (.hostBar2Write part off b) s = .next s' ∧ s'.signals = s.signals ∧
      ∀ a, s'.mem.read a = if h : y.pa ≤ a ∧ a - y.pa < b.length then b[a - y.pa]'h.2 else (s.recalled y.pa b.length).mem.read a) ∧
    (y.stamped = true → ∃ s', exec (.hostBar2Write part off b) s = .next s' ∧ s'.mem = s.mem ∧ .unsupportedRequest part.val ∈ s'.signals ∧
      Instr.faultRecordPost part ∈ s'.agenda)) ∧
  (∀ (s : State) (part : Fin 16) (off n va : Nat) (b : List Byte), s.barAddr part.val off n = some va → s.barWaits part.val va n .read = false →
    s.tableRead part.val true va n (pagesOf n) = .ok b → exec (.hostBar2Read part off n) s = .next (s.signal (.bar2 part.val b))) ∧
  (∀ (s : State) (part : Fin 16) (k j : Nat), s.parts.length = 16 → ((s.part part.val).classes).length = 16 → k < 16 → j < 3 →
    (∀ v, v ≠ 0 → exec (.classCounterWrite part (24 * k + 8 * j) v) s = .next s) ∧
    ∃ s', exec (.classCounterWrite part (24 * k + 8 * j) 0) s = .next s' ∧
      (let c := nth (s.part part.val).classes k {}
       nth (s'.part part.val).classes k {} = { count := if j = 0 then 0 else c.count, misses := if j = 1 then 0 else c.misses, worst := if j = 2 then 0 else c.worst }) ∧
      (∀ i, i ≠ k → nth (s'.part part.val).classes i {} = nth (s.part part.val).classes i {}) ∧ s' = { s with parts := s'.parts }) ∧
  (∀ (s : State) (vf : Fin 16) (k : Nat) (v : BitVec 64) (off size : Nat), s.partOfVf vf.val = some k → s.boot = .bootFail →
    exec (.registerWrite (.partition vf) off size v) s = .next s) ∧
  (∀ (s : State) (vf : Fin 16) (k : Nat) (v : BitVec 64), s.partOfVf vf.val = some k → k < s.parts.length → s.boot ≠ .bootFail →
    let r := (s.part k).faultRing
    let q := s.part k
    let only := fun (f : RecRing) => (Host.Outcome.next (s.setPart k { q with faultRing := f }) : Host.Outcome State Fault Refusal)
    (∀ b : Nat, b < 2 ^ 64 → exec (.registerWrite (.partition vf) 0x10000 8 (BitVec.ofNat 64 b)) s = only { r with
        base := BitVec.ofNat 64 (b / 4096 * 4096), size := clampSize (r.size % 2 ^ 32) }) ∧
    exec (.registerWrite (.partition vf) 0x1000C 4 v) s = only { r with base := BitVec.ofNat 64 (r.base.toNat / 4096 * 4096), size := clampSize (r.size % 2 ^ 32) } ∧
    exec (.registerWrite (.partition vf) 0x10014 4 v) s =
      only { r with base := BitVec.ofNat 64 (r.base.toNat / 4096 * 4096), size := clampSize (r.size % 2 ^ 32), stat := r.stat &&& ~~~(lo32 v) } ∧
    exec (.registerWrite (.partition vf) 0 8 v) s = .next s ∧
    exec (.registerWrite (.partition vf) 0x2000 8 v) s = .next { s with
      agenda := commandEvent (.vf (Fin.ofNat 16 (fld ((s.part k).cfg 0 8) 8 4))) (s.mailbox (.vf (Fin.ofNat 16 (fld ((s.part k).cfg 0 8) 8 4)))).busy v :: s.agenda })

/-- R78, R96, R97, R357, R363, R364, R379, R384, R385. The model's own: the stop of the device-wide log (log 23); a fetch that fails leaves sr.faultaddr and
sr.faultmask 0 whatever the address, its reading of R358 (log 7). -/
def Obligations.RecordsAndBadUnits : Prop :=
  
  (∀ (s : State) (part : Fin 16) (b : List Byte), s.parts.length = 16 → (s.part part.val).faultRing.waiting = [b] → (s.part part.val).errorLog.waiting = [] →
    s.errorLog.waiting = [] → b.length = 64 → s.canPost part.val 64 (s.part part.val).faultRing = true →
    let r := (s.part part.val).faultRing
    let at' := r.base.toNat + r.slotOff 64
    let e := (s.readClock 0).2.1
    ∃ s', exec (.faultRecordPost part) s = .next s' ∧
      (∀ a, s'.mem.read a = if at' ≤ a ∧ a - at' < 64 then (nth (putBytes b 0x30 (leBytes 8 e)) (a - at') 0) else (s.recalled at' 64).mem.read a) ∧
      (s'.part part.val).faultRing = { r with head := BitVec.ofNat 32 ((r.head.toNat + 1) % r.entries), waiting := [], stat := r.stat ||| 2 } ∧
      s'.signals = s.signals ++ [.msix part.val r.vec.toNat]) ∧
  (∀ (s : State) (b : List Byte) (rest : List (List Byte)), (∀ k, (s.part k).faultRing.waiting = [] ∧ (s.part k).errorLog.waiting = []) →
    s.errorLog.waiting = b :: rest → s.errorLog.base ≠ 0 → s.errorLog.full = false → physOk (s.errorLog.base.toNat + s.errorLog.slotOff 64) 64 = false →
    exec (.faultRecordPost 0) s = .fault (.noMemory (s.errorLog.base.toNat + s.errorLog.slotOff 64))) ∧
  (∀ (s : State) (part ring : Fin 16) (b : List Byte) (rest : List (List Byte)) (pa : Nat), s.parts.length = 16 → (s.part part.val).eventRings.length = 16 →
    let r := nth (s.part part.val).eventRings ring.val {}
    r.waiting = b :: rest → b.length = 32 → s.eventPlace part.val r = some (.inl pa) →
    let due := decide (max 1 r.count ≤ r.unsignalled + 1)
    ∃ s' r', exec (.eventRecordPost part ring) s = .next s' ∧ nth (s'.part part.val).eventRings ring.val {} = r' ∧
      (∀ a, s'.mem.read a = if pa ≤ a ∧ a - pa < 32 then nth b (a - pa) 0 else (s.recalled pa 32).mem.read a) ∧
      r'.head = BitVec.ofNat 32 ((r.head.toNat + 1) % r.entries) ∧ r'.waiting = rest ∧ r'.unsignalled = (if due then 0 else r.unsignalled + 1) ∧
      s'.signals = s.signals ++ (if due then [.msix part.val r.vec.toNat] else [])) ∧
  (∀ (s : State) (part ring : Fin 16), s.parts.length = 16 → (s.part part.val).eventRings.length = 16 →
    let r := nth (s.part part.val).eventRings ring.val {}
    (s.etimeDue r = false → exec (.etimeExpiry part ring) s = .next s) ∧
    (s.etimeDue r = true → ∃ s', exec (.etimeExpiry part ring) s = .next s' ∧ s'.signals = s.signals ++ [.msix part.val r.vec.toNat] ∧
      nth (s'.part part.val).eventRings ring.val {} = { r with unsignalled := 0, stat := r.stat ||| 2 } ∧ s' = { s with parts := s'.parts, signals := s'.signals })) ∧
  (∀ s : State, let raise := fun (c : FCode) (n : Nat) (sys : Bool) => (Host.Outcome.next (s.deliver (s.issue.lift.map fun m =>
      ({ course := m.1, lane := m.2, code := c, detail := n, system := sys } : Req))) : Host.Outcome State Fault Refusal)
    exec (.unallocatedEncoding .opcode) s = raise .illegalEnc 1 false ∧ exec (.unallocatedEncoding .value) s = raise .illegalEnc 2 false ∧
    exec (.unallocatedEncoding .operand) s = raise .illegalEnc 3 false ∧ exec (.unallocatedEncoding .reserved) s = raise .reservedField 4 false ∧
    exec (.unallocatedEncoding .pair) s = raise .pairAlign 5 false ∧
    ∀ a, exec (.fetchFault .xlate a) s = raise .xlate 0 true ∧ exec (.fetchFault .prot a) s = raise .prot 0 true ∧
      exec (.fetchFault .linkLost a) s = raise .linkLost 0 true ∧ exec (.fetchFault .ecc a) s = raise .ecc 0 true)

/-- R54, for a name that is not one half of a linked pair (R55). -/
def Obligations.LaneExpander : Prop :=
  ∀ (names : List NameVal) (n l : Nat), l < 32 →
  (∀ v, nth names n .free = .uni v → rowOf names n l = v) ∧
  (∀ base stride : W32, nth names n .free = .aff base stride false →
    (rowOf names n l).toNat = (base.toNat + l * stride.toNat) % 2 ^ 32 ∧
    ∀ rows : List W32, (∀ k, k < 32 → nth rows k 0 = BitVec.ofNat 32 (base.toNat + k * stride.toNat)) →
      n < names.length → rowOf names n l = rowOf (setNth names n (.gen rows)) n l) ∧
  (∀ rows, nth names n .free = .gen rows → rowOf names n l = nth rows l 0)

/-- R356, with the place of the table by R339 and the check of R309. -/
def Obligations.FixedGroups : Prop :=
  ∀ (s : State) (part g : Nat),
  let base := (s.part part).cfg 0x40 8
  let mask := leNat (s.mem.readN (base + 64 * g) 64)
  ((s.part part).granted base 4096 = true → g < 64 → s.groupMembers part g = ((List.range 512).filter fun k => mask.testBit k).map fun k => s.windowEntry part k) ∧
  (g < 64 → mask = 0 → s.groupMembers part g = []) ∧
  (64 ≤ g → s.groupMembers part g = []) ∧
  ∀ d : CollDesc, s.groupMembers part d.group = [] → d.group ≠ 0xFF → s.collOk part d = false

/-- R159. -/
def Obligations.MinimumAndMaximum : Prop :=
  ∀ (d : Dst) (a b : Src),
  LaneUnit (.fminF32 d a b) false false 0 d [(.f32, a), (.f32, b)] (fn2 fun x y =>
      let a := (lo32 x).toNat; let b := (lo32 y).toNat
      if Fmt.f32.isNan a && Fmt.f32.isNan b then nat64 Fmt.f32.qnan
      else if Fmt.f32.isNan a then nat64 (Fmt.f32.qnan)
      else if Fmt.f32.isNan b then nat64 (Fmt.f32.qnan)
      else nat64 (if Fmt.f32.lt b a then b else a)) ∧
  LaneUnit (.fmaxF32 d a b) false false 0 d [(.f32, a), (.f32, b)] (fn2 fun x y =>
      let a := (lo32 x).toNat; let b := (lo32 y).toNat
      if Fmt.f32.isNan a && Fmt.f32.isNan b then nat64 Fmt.f32.qnan
      else if Fmt.f32.isNan a then nat64 (Fmt.f32.qnan)
      else if Fmt.f32.isNan b then nat64 (Fmt.f32.qnan)
      else nat64 (if Fmt.f32.lt a b then b else a)) ∧
  LaneUnit (.fminnF32 d a b) false false 0 d [(.f32, a), (.f32, b)] (fn2 fun x y =>
      let a := (lo32 x).toNat; let b := (lo32 y).toNat
      if Fmt.f32.isNan a && Fmt.f32.isNan b then nat64 Fmt.f32.qnan
      else if Fmt.f32.isNan a then nat64 (b)
      else if Fmt.f32.isNan b then nat64 (a)
      else nat64 (if Fmt.f32.lt b a then b else a)) ∧
  LaneUnit (.fmaxnF32 d a b) false false 0 d [(.f32, a), (.f32, b)] (fn2 fun x y =>
      let a := (lo32 x).toNat; let b := (lo32 y).toNat
      if Fmt.f32.isNan a && Fmt.f32.isNan b then nat64 Fmt.f32.qnan
      else if Fmt.f32.isNan a then nat64 (b)
      else if Fmt.f32.isNan b then nat64 (a)
      else nat64 (if Fmt.f32.lt a b then b else a)) ∧
  LaneUnit (.fminF64 d a b) true false 1 d [(.f64, a), (.f64, b)] (fn2 fun x y =>
      let a := x.toNat; let b := y.toNat
      if Fmt.f64.isNan a && Fmt.f64.isNan b then nat64 Fmt.f64.qnan
      else if Fmt.f64.isNan a then nat64 (Fmt.f64.qnan)
      else if Fmt.f64.isNan b then nat64 (Fmt.f64.qnan)
      else nat64 (if Fmt.f64.lt b a then b else a)) ∧
  LaneUnit (.fmaxF64 d a b) true false 1 d [(.f64, a), (.f64, b)] (fn2 fun x y =>
      let a := x.toNat; let b := y.toNat
      if Fmt.f64.isNan a && Fmt.f64.isNan b then nat64 Fmt.f64.qnan
      else if Fmt.f64.isNan a then nat64 (Fmt.f64.qnan)
      else if Fmt.f64.isNan b then nat64 (Fmt.f64.qnan)
      else nat64 (if Fmt.f64.lt a b then b else a)) ∧
  LaneUnit (.fminnF64 d a b) true false 1 d [(.f64, a), (.f64, b)] (fn2 fun x y =>
      let a := x.toNat; let b := y.toNat
      if Fmt.f64.isNan a && Fmt.f64.isNan b then nat64 Fmt.f64.qnan
      else if Fmt.f64.isNan a then nat64 (b)
      else if Fmt.f64.isNan b then nat64 (a)
      else nat64 (if Fmt.f64.lt b a then b else a)) ∧
  LaneUnit (.fmaxnF64 d a b) true false 1 d [(.f64, a), (.f64, b)] (fn2 fun x y =>
      let a := x.toNat; let b := y.toNat
      if Fmt.f64.isNan a && Fmt.f64.isNan b then nat64 Fmt.f64.qnan
      else if Fmt.f64.isNan a then nat64 (b)
      else if Fmt.f64.isNan b then nat64 (a)
      else nat64 (if Fmt.f64.lt a b then b else a)) ∧
  UniUnit (.sfminF32 d a b) false false d [(.f32, a), (.f32, b)] (fn2 fun x y =>
      let a := (lo32 x).toNat; let b := (lo32 y).toNat
      if Fmt.f32.isNan a && Fmt.f32.isNan b then nat64 Fmt.f32.qnan
      else if Fmt.f32.isNan a then nat64 (Fmt.f32.qnan)
      else if Fmt.f32.isNan b then nat64 (Fmt.f32.qnan)
      else nat64 (if Fmt.f32.lt b a then b else a)) ∧
  UniUnit (.sfmaxF32 d a b) false false d [(.f32, a), (.f32, b)] (fn2 fun x y =>
      let a := (lo32 x).toNat; let b := (lo32 y).toNat
      if Fmt.f32.isNan a && Fmt.f32.isNan b then nat64 Fmt.f32.qnan
      else if Fmt.f32.isNan a then nat64 (Fmt.f32.qnan)
      else if Fmt.f32.isNan b then nat64 (Fmt.f32.qnan)
      else nat64 (if Fmt.f32.lt a b then b else a)) ∧
  (Fmt.f32.lt 0x80000000 0 = true ∧ Fmt.f32.lt 0 0x80000000 = false) ∧
  (Fmt.f64.lt 0x8000000000000000 0 = true ∧ Fmt.f64.lt 0 0x8000000000000000 = false)

/-- R180. -/
def Obligations.SaturatingMultiplyAdd : Prop :=
  ∀ (d : Dst) (a b : Src),
  LaneUnit (.ffmaSatF32 d a b) false true 0 d [(.f32, a), (.f32, b)] (fn3 fun x y z =>
      let r := Fmt.f32.fma .rne (lo32 x).toNat (lo32 y).toNat (lo32 z).toNat
      nat64 (if Fmt.f32.isNan r then 0 else if Fmt.f32.lt 0 r = false then 0 else if Fmt.f32.lt r 0x3F800000 then r else 0x3F800000))

/-- R78 to R95: no bit of an encoding is dropped. -/
def Obligations.EncodingsRoundTrip : Prop :=
  ∀ i : Instr, Sys2Proof.Laws.RoundTrip.Statement i

/-- R393, R351: the form of memory is the model's (log 1). -/
def Obligations.HomeMemoryCanonical : Prop :=
  ∀ s s' : State, Bytes.wf s.mem = true → Bytes.wf s.hostMem = true → step s = .next s' →
  Bytes.wf s'.mem = true ∧ Bytes.wf s'.hostMem = true

/-- R257, R339, R347, R363, R385, R388. What the manual gives no reset value for is 0 or empty (log 5). -/
def Obligations.ResetState : Prop :=
  Bytes.wf State.reset.mem = true ∧ Bytes.wf State.reset.hostMem = true ∧ State.reset.memoryWf = true ∧ State.reset.coursesSound = true ∧
  State.reset.boot = .booting ∧ State.reset.agenda = [.reset] ∧ State.reset.clockMHz = 150 ∧ State.reset.teams = [] ∧ State.reset.slices = [] ∧
  State.reset.measures = List.replicate 4 0 ∧ (State.reset.dies.all fun d => d.pkceil == 16 && d.dmceil == 400 && d.last == 0) = true ∧
  (State.reset.parts.all fun p => !p.enabled && p.cfg 0x24 4 == 1024 && p.cfg 0x28 8 == 28 && p.cfg 0x30 8 == 10000000 && p.faultRing.size == 6 &&
    p.eventRings.all fun r => r.size == 6 && r.count == 1) = true ∧
  (State.reset.pfMail.all fun m => m.cvec == 0xFFFF && !m.busy) = true ∧ (State.reset.vfMail.all fun m => m.cvec == 0xFFFF && !m.busy) = true

/-- R32, R60, R78, R92, R99, R343, R378. The model's own: what comes between the steps (log 2); that poison is met at issue, by the participants that read
it (log 49). -/
def Obligations.StepRunsUnit : Prop :=
  (∀ (s : State) (l : Lift) (i : Instr), s.startStep.nextEvent = none → s.startStep.wake = none → s.startStep.nextLift = some l →
    (l.stand.found = .unit none i → step s = andThen ((s.startStep.issueLift l).run i) fun u => .next u.after) ∧
    (∀ p neg, l.stand.found = .unit (some (p, neg)) i →
      step s = andThen (andThen (exec (.guardPrefix p neg) (s.startStep.issueLift l)) fun u => u.run i) fun u => .next u.after)) ∧
  (∀ (s : State) (i : Instr),
    ((∀ t, s.curTeam = some t → ∀ c ∈ coursesOf s.issue.lift, (t.course c).bad = []) → s.run i = exec i s) ∧
    (s.meetsError i = s.issue.lift → s.issue.lift ≠ [] → isRendezvous s.issue.word.toNat = false →
      s.run i = .next (s.deliver (s.issue.lift.map fun m => { course := m.1, lane := m.2, code := .ecc })))) ∧
  (∀ (s s1 : State) (e : Instr), s.startStep.nextEvent = some (e, s1) → step s = andThen (exec e s1) fun u => .next u.after) ∧
  (∀ (s : State) (core part : Nat) (user : Bool) (pc : W64) (ws : List W32) (u : DecUnit),
    (∀ n, n ≤ ws.length → s.peekWords core part user pc n = .ok (ws.take n)) → decodeWords ws = .ok u → u.words = ws.length →
    s.stand core part user pc = ⟨ws, .unit u.guard u.instr⟩) ∧
  (∀ (s s1 : State) (core part : Nat) (user : Bool) (pc : W64) (x : Xlat), s.translate (some core) part user .fetch pc = (s1, .ok x) → x.remote = none →
    FMap.get (s.core core).icache (lineOf x.pa) = none → s.homeAlive x.pa = true → s.poisoned x.pa 4 = false →
    s.peekWord core part user pc = .ok (leNat (s.mem.readN x.pa 4)))

/-- R80 to R96, with the worked encodings of 04, 08 and 09. -/
def Obligations.DecodedWords : Prop :=
  
  decodeWords [0x7E300000, 0x281889FE, 0x3FC00000] = .ok ⟨some (.p 3, false), .faddF32 (.reg 12) (.reg 4 true) (.lit 0x3FC00000), 3⟩ ∧
  decodeWords [0x8006138B] = .ok ⟨none, .saddB32 (.opf 3) (.reg 9 false) (.special (.int 5)), 1⟩ ∧
  decodeWords [0x782FFFF0] = .ok ⟨none, .br (.p 2) true 0x7FFF0, 1⟩ ∧
  decodeWords [0x4A040EC6] = .ok ⟨none, .fclassF32 .set 2 (.reg 7 false) 0x63, 1⟩ ∧
  decodeWords [0x53120824] = .ok ⟨none, .cvtF8 (.reg 9) (.reg 4 false) .f32 .rne true false, 1⟩ ∧
  decodeWords [0xA842080A] = .ok ⟨none, .sfsetpF32 .lt 1 (.reg 4 false) (.reg 5 false), 1⟩ ∧
  decodeWords [0x610A0600] = .ok ⟨none, .censusMask (.reg 5) (.p 3), 1⟩ ∧
  decodeWords [0x641C0912] = .ok ⟨none, .scan (.reg 14) (.reg 4 false) .addF32 true, 1⟩ ∧
  decodeWords [0x7D000000] = .error .opcode ∧
  decodeWords [0xE0000000] = .error .opcode ∧
  decodeWords [0x281889E8] = .error .operand ∧
  decodeWords [0x289889FE, 0] = .error .reserved ∧
  decodeWords [0x2C180A06] = .error .pair
end

