-- ==== Sys2Proof/Laws/Map.lean ====
section
/-!
SUPPORT. Laws of finite maps, of list elements by number, and of byte memories.
-/

namespace Sys2Proof.Machine

/-! ## Finite maps -/

@[simp] theorem FMap.get_nil {α : Type} (k : Nat) : FMap.get ([] : FMap α) k = none := rfl

theorem FMap.get_cons {α : Type} (j : Nat) (v : α) (m : FMap α) (k : Nat) :
    FMap.get ((j, v) :: m) k = if j = k then some v else FMap.get m k := rfl

@[simp] theorem FMap.get_set_same {α : Type} (m : FMap α) (k : Nat) (v : α) : FMap.get (FMap.set m k v) k = some v := by
  induction m with
  | nil => simp [FMap.set, FMap.get]
  | cons p t ih =>
    obtain ⟨j, w⟩ := p
    unfold FMap.set
    split
    · simp [FMap.get]
    · split
      · simp [FMap.get]
      · simp [FMap.get, *]

theorem FMap.get_set_ne {α : Type} (m : FMap α) {k j : Nat} (v : α) (h : j ≠ k) : FMap.get (FMap.set m k v) j = FMap.get m j := by
  induction m with
  | nil => simp [FMap.set, FMap.get, Ne.symm h]
  | cons p t ih =>
    obtain ⟨i, w⟩ := p
    unfold FMap.set
    split
    · subst_vars; simp [FMap.get, Ne.symm h]
    · split
      · simp [FMap.get, Ne.symm h]
      · simp [FMap.get, ih]

theorem FMap.get_set {α : Type} (m : FMap α) (k j : Nat) (v : α) :
    FMap.get (FMap.set m k v) j = if j = k then some v else FMap.get m j := by
  by_cases h : j = k
  · subst h; simp
  · simp [h, FMap.get_set_ne m v h]

theorem FMap.get_modify {α : Type} (m : FMap α) (k j : Nat) (f : α → α) :
    FMap.get (FMap.modify m k f) j = if j = k then (FMap.get m k).map f else FMap.get m j := by
  induction m with
  | nil => simp [FMap.modify, FMap.get]
  | cons p t ih =>
    obtain ⟨i, w⟩ := p
    simp only [FMap.modify, List.map_cons] at ih ⊢
    by_cases hi : i = k
    · subst hi
      by_cases hj : j = i
      · subst hj; simp [FMap.get]
      · have hij : ¬ i = j := fun e => hj e.symm
        simp [FMap.get, hij, hj, ih]
    · by_cases hj : j = k
      · subst hj; simp [FMap.get, hi, ih]
      · simp only [hi, if_false, FMap.get]
        by_cases hij : i = j <;> simp [hij, ih, hj]

@[simp] theorem FMap.get_modify_same {α : Type} (m : FMap α) (k : Nat) (f : α → α) :
    FMap.get (FMap.modify m k f) k = (FMap.get m k).map f := by simp [FMap.get_modify]

theorem FMap.get_modify_ne {α : Type} (m : FMap α) {k j : Nat} (f : α → α) (h : j ≠ k) :
    FMap.get (FMap.modify m k f) j = FMap.get m j := by simp [FMap.get_modify, h]

theorem FMap.modify_id {α : Type} (m : FMap α) (k : Nat) : FMap.modify m k (fun t => t) = m := by
  simp [FMap.modify]

theorem FMap.modify_modify {α : Type} (m : FMap α) (k : Nat) (f g : α → α) :
    FMap.modify (FMap.modify m k f) k g = FMap.modify m k fun t => g (f t) := by
  unfold FMap.modify
  rw [List.map_map]
  apply List.map_congr_left
  intro p _
  by_cases h : p.1 = k <;> simp [h]

theorem FMap.get_map {α β : Type} (m : FMap α) (k : Nat) (g : Nat → α → β) :
    FMap.get (m.map fun p => (p.1, g p.1 p.2)) k = (FMap.get m k).map (g k) := by
  induction m with
  | nil => simp [FMap.get]
  | cons p t ih =>
    obtain ⟨i, w⟩ := p
    by_cases h : i = k
    · subst h; simp [FMap.get]
    · simp [FMap.get, h, ih]

theorem FMap.get_erase {α : Type} (m : FMap α) (k j : Nat) :
    FMap.get (FMap.erase m k) j = if j = k then none else FMap.get m j := by
  induction m with
  | nil => simp [FMap.erase, FMap.get]
  | cons p t ih =>
    obtain ⟨i, w⟩ := p
    simp only [FMap.erase] at ih ⊢
    by_cases hi : i = k
    · subst hi
      simp only [List.filter_cons, bne_self_eq_false, Bool.false_eq_true, if_false, ih, FMap.get]
      by_cases hj : j = i
      · simp [hj]
      · have : ¬ i = j := fun e => hj e.symm
        simp [hj, this]
    · have hb : (i != k) = true := by simp [hi]
      simp only [List.filter_cons, hb, if_true, FMap.get, ih]
      by_cases hij : i = j
      · subst hij; simp [hi]
      · simp [hij]

theorem FMap.keys_modify {α : Type} (m : FMap α) (k : Nat) (f : α → α) : FMap.keys (FMap.modify m k f) = FMap.keys m := by
  induction m with
  | nil => rfl
  | cons p t ih =>
    simp only [FMap.keys, FMap.modify, List.map_cons] at ih ⊢
    rw [ih]
    by_cases h : p.1 = k <;> simp [h]

theorem FMap.keys_mapVals {α β : Type} (m : FMap α) (g : Nat × α → Nat × β) (h : ∀ p ∈ m, (g p).1 = p.1) :
    FMap.keys (m.map g) = FMap.keys m := by
  induction m with
  | nil => rfl
  | cons p t ih =>
    simp only [FMap.keys, List.map_cons, List.map_map] at ih ⊢
    rw [h p (by simp)]
    congr 1
    have := ih fun q hq => h q (by simp [hq])
    simpa using this

theorem FMap.mem_keys {α : Type} (m : FMap α) (k : Nat) : k ∈ FMap.keys m ↔ (FMap.get m k).isSome := by
  induction m with
  | nil => simp [FMap.keys, FMap.get]
  | cons p t ih =>
    obtain ⟨i, w⟩ := p
    simp only [FMap.keys, List.map_cons, List.mem_cons] at ih ⊢
    rw [ih]
    by_cases h : i = k
    · simp [FMap.get, h]
    · have : ¬ k = i := fun e => h e.symm
      simp [FMap.get, h, this]

theorem FMap.mem_of_get {α : Type} {m : FMap α} {k : Nat} {v : α} (h : FMap.get m k = some v) : (k, v) ∈ m := by
  induction m with
  | nil => simp [FMap.get] at h
  | cons p t ih =>
    obtain ⟨i, w⟩ := p
    by_cases hi : i = k
    · subst hi; simp [FMap.get] at h; simp [h]
    · simp [FMap.get, hi] at h; simp [ih h]

/-! ## Elements by number -/

@[simp] theorem nth_set_same {α : Type} (l : List α) (k : Nat) (v d : α) (h : k < l.length) : nth (setNth l k v) k d = v := by
  simp [nth, setNth, h]

theorem nth_set_ne {α : Type} (l : List α) {k j : Nat} (v d : α) (h : j ≠ k) : nth (setNth l k v) j d = nth l j d := by
  simp [nth, setNth, Ne.symm h]

theorem length_setNth {α : Type} (l : List α) (k : Nat) (v : α) : (setNth l k v).length = l.length := by simp [setNth]

/-! ## Byte memories -/

@[simp] theorem Bytes.read_write_same (m : Bytes) (a : Nat) (v : Byte) : Bytes.read (Bytes.write m a v) a = v := by
  by_cases h : v = unlistedByte
  · simp [Bytes.write, Bytes.read, FMap.get_erase, h]
  · simp [Bytes.write, Bytes.read, h]

theorem Bytes.read_write_ne (m : Bytes) {a b : Nat} (v : Byte) (h : b ≠ a) : Bytes.read (Bytes.write m a v) b = Bytes.read m b := by
  by_cases hv : v = unlistedByte
  · simp [Bytes.write, Bytes.read, FMap.get_erase, h, hv]
  · simp [Bytes.write, Bytes.read, FMap.get_set_ne _ _ h, hv]

theorem Bytes.read_writeN (m : Bytes) (a : Nat) (bs : List Byte) (b : Nat) :
    Bytes.read (Bytes.writeN m a bs) b = if a ≤ b ∧ b < a + bs.length then nth bs (b - a) 0 else Bytes.read m b := by
  induction bs generalizing m a with
  | nil => simp [Bytes.writeN]
  | cons v t ih =>
    rw [Bytes.writeN, ih]
    by_cases h1 : a + 1 ≤ b ∧ b < a + 1 + t.length
    · have h2 : a ≤ b ∧ b < a + (v :: t).length := by simp only [List.length_cons]; omega
      rw [if_pos h1, if_pos h2]
      obtain ⟨k, rfl⟩ : ∃ k, b = a + 1 + k := ⟨b - (a + 1), by omega⟩
      have e1 : a + 1 + k - (a + 1) = k := by omega
      have e2 : a + 1 + k - a = k + 1 := by omega
      simp [nth, e1, e2]
    · rw [if_neg h1]
      by_cases hab : b = a
      · subst hab; simp [nth]
      · rw [Bytes.read_write_ne _ _ hab, if_neg]
        simp only [List.length_cons]; omega

/-- A write leaves every byte outside it alone. -/
theorem Bytes.read_writeN_out (m : Bytes) (a : Nat) (bs : List Byte) (b : Nat) (h : b < a ∨ a + bs.length ≤ b) :
    Bytes.read (Bytes.writeN m a bs) b = Bytes.read m b := by
  rw [Bytes.read_writeN, if_neg]; omega

theorem Bytes.wfFrom_mono {lo lo' : Nat} (m : Bytes) (h : lo' ≤ lo) (w : Bytes.wfFrom lo m = true) : Bytes.wfFrom lo' m = true := by
  cases m with
  | nil => rfl
  | cons c t =>
    simp only [Bytes.wfFrom, Bool.and_eq_true, decide_eq_true_eq] at w ⊢
    exact ⟨⟨by omega, w.1.2⟩, w.2⟩

theorem Bytes.wfFrom_set {lo a : Nat} (m : Bytes) (v : Byte) (hv : v ≠ unlistedByte) (ha : lo ≤ a) (w : Bytes.wfFrom lo m = true) :
    Bytes.wfFrom lo (FMap.set m a v) = true := by
  induction m generalizing lo with
  | nil => simp [FMap.set, Bytes.wfFrom, ha, hv]
  | cons c t ih =>
    obtain ⟨j, u⟩ := c
    simp only [Bytes.wfFrom, Bool.and_eq_true, decide_eq_true_eq] at w
    unfold FMap.set
    split
    · subst_vars; simp [Bytes.wfFrom, ha, hv, w.2]
    · split
      · have := w.1.2
        simp only [Bytes.wfFrom, Bool.and_eq_true, decide_eq_true_eq]
        refine ⟨⟨ha, by simpa using hv⟩, ⟨by omega, w.1.2⟩, w.2⟩
      · simp only [Bytes.wfFrom, Bool.and_eq_true, decide_eq_true_eq]
        exact ⟨⟨w.1.1, w.1.2⟩, ih (by omega) w.2⟩

theorem Bytes.wfFrom_filter {lo : Nat} (m : Bytes) (p : Host.Cell → Bool) (w : Bytes.wfFrom lo m = true) :
    Bytes.wfFrom lo (m.filter p) = true := by
  induction m generalizing lo with
  | nil => rfl
  | cons c t ih =>
    obtain ⟨j, u⟩ := c
    simp only [Bytes.wfFrom, Bool.and_eq_true, decide_eq_true_eq] at w
    simp only [List.filter_cons]
    split
    · simp only [Bytes.wfFrom, Bool.and_eq_true, decide_eq_true_eq]
      exact ⟨w.1, ih w.2⟩
    · exact Bytes.wfFrom_mono _ (by omega) (ih w.2)

/-- Writing a byte keeps the canonical form. -/
theorem Bytes.wf_write (m : Bytes) (a : Nat) (v : Byte) (w : Bytes.wf m = true) : Bytes.wf (Bytes.write m a v) = true := by
  unfold Bytes.write
  split
  · exact Bytes.wfFrom_filter m _ w
  · next h => exact Bytes.wfFrom_set m v h (Nat.zero_le _) w

/-- Writing bytes keeps the canonical form. -/
theorem Bytes.wf_writeN (m : Bytes) (a : Nat) (bs : List Byte) (w : Bytes.wf m = true) : Bytes.wf (Bytes.writeN m a bs) = true := by
  induction bs generalizing m a with
  | nil => exact w
  | cons v t ih => exact ih _ _ (Bytes.wf_write m a v w)

/-- Clearing a range keeps the canonical form. -/
theorem Bytes.wf_clearRange (m : Bytes) (a n : Nat) (w : Bytes.wf m = true) : Bytes.wf (Bytes.clearRange m a n) = true :=
  Bytes.wfFrom_filter m _ w

@[simp] theorem length_leBytes (n v : Nat) : (leBytes n v).length = n := by simp [leBytes]

@[simp] theorem length_readN (m : Bytes) (a n : Nat) : (Bytes.readN m a n).length = n := by simp [Bytes.readN]

theorem leBytes_succ (n v : Nat) : leBytes (n + 1) v = BitVec.ofNat 8 v :: leBytes n (v / 256) := by
  simp only [leBytes, List.range_succ_eq_map, List.map_cons, List.map_map]
  refine congrArg₂ _ (by simp) (List.map_congr_left fun k _ => ?_)
  simp only [Function.comp]
  congr 1
  rw [Nat.div_div_eq_div_mul, show (2 : Nat) ^ (8 * (k + 1)) = 256 * 2 ^ (8 * k) by
    rw [show 8 * (k + 1) = 8 * k + 8 by ring, pow_add]; norm_num [Nat.mul_comm]]

/-- Bytes written little-endian read back as the number, below their range (R2). -/
theorem leNat_leBytes (n v : Nat) : leNat (leBytes n v) = v % 2 ^ (8 * n) := by
  induction n generalizing v with
  | zero => simp [leBytes, leNat, Nat.mod_one]
  | succ n ih =>
    rw [leBytes_succ, leNat, ih, BitVec.toNat_ofNat]
    rw [show 8 * (n + 1) = 8 + 8 * n by ring, pow_add, Nat.mod_mul]
    norm_num

end Sys2Proof.Machine
end

