-- ==== Sys2Proof/Laws/Names.lean ====
section
/-!
SUPPORT. What reads of names and entries find after writes of them: the lane expander, linked pairs, whole and partial writes, last reads
(R54 to R63).
-/

namespace Sys2Proof.Machine

/-! ## Links (R55) -/

/-- Both names of a linked pair carry the link. -/
def LinksOk (names : List NameVal) : Prop := ∀ n, isLinked names n = isLinked names (partner n)

theorem partner_partner (n : Nat) : partner (partner n) = n := by
  unfold partner; split <;> split <;> omega

theorem partner_ne (n : Nat) : partner n ≠ n := by unfold partner; split <;> omega

theorem partner_lt {n N : Nat} (hN : N % 2 = 0) (h : n < N) : partner n < N := by unfold partner; split <;> omega

@[simp] theorem length_unlink (names : List NameVal) (n : Nat) : (unlink names n).length = names.length := by
  unfold unlink; split <;> simp [setNth]

theorem nth_unlink (names : List NameVal) (n m : Nat) (h : partner n < names.length) :
    nth (unlink names n) m .free = if isLinked names n ∧ m = partner n then expandName names (partner n) else nth names m .free := by
  unfold unlink
  by_cases hl : isLinked names n = true
  · rw [if_pos hl]
    by_cases hm : m = partner n
    · subst hm; simp [hl, h]
    · rw [nth_set_ne _ _ _ hm]; simp [hm]
  · simp [hl]

/-- A row of a name depends on the name, and on its partner where it is linked. -/
theorem rowOf_congr {a b : List NameVal} {n : Nat} (l : Nat) (h : nth a n .free = nth b n .free)
    (hp : isLinked b n = true → nth a (partner n) .free = nth b (partner n) .free) : rowOf a n l = rowOf b n l := by
  unfold rowOf
  rw [h]
  split
  · rfl
  · rfl
  · rfl
  · next base st link e =>
    by_cases hc : (link && n % 2 == 1) = true
    · simp only [hc, if_true]
      have hl : isLinked b n = true := by
        unfold isLinked; rw [e]; simp only [Bool.and_eq_true] at hc; exact hc.1
      have ho : n % 2 = 1 := by simpa using (Bool.and_eq_true _ _ |>.mp hc).2
      have hq : partner n = n - 1 := by unfold partner; split <;> omega
      have := hp hl
      rw [hq] at this
      rw [this]
    · simp [hc]

theorem rowOf_expand (names : List NameVal) (names' : List NameVal) (n l : Nat) (hl : l < 32)
    (h : nth names' n .free = expandName names n) : rowOf names' n l = rowOf names n l := by
  conv_lhs => unfold rowOf
  rw [h]
  simp [expandName, nth, hl]

/-- Expanding the partner of a linked name changes no row but its own name's link. -/
theorem rowOf_unlink_ne (names : List NameVal) {n m l : Nat} (hp : partner n < names.length) (hm : m ≠ n) (hl : l < 32) :
    rowOf (unlink names n) m l = rowOf names m l := by
  by_cases hn : isLinked names n = true
  · by_cases he : m = partner n
    · subst he
      apply rowOf_expand _ _ _ _ hl
      rw [nth_unlink _ _ _ hp]; simp [hn]
    · apply rowOf_congr
      · rw [nth_unlink _ _ _ hp]; simp [he]
      · intro _
        rw [nth_unlink _ _ _ hp, if_neg]
        rintro ⟨_, h⟩
        apply hm
        rw [← partner_partner m, h, partner_partner]
  · simp [unlink, hn]

theorem isLinked_unlink_partner (names : List NameVal) {n : Nat} (hp : partner n < names.length) (hk : LinksOk names) :
    isLinked (unlink names n) (partner n) = false := by
  by_cases hn : isLinked names n = true
  · unfold isLinked
    rw [nth_unlink _ _ _ hp]
    simp [hn, expandName]
  · have : unlink names n = names := by simp [unlink, hn]
    rw [this, ← hk]
    simpa using hn

theorem isLinked_unlink_other (names : List NameVal) {n m : Nat} (hp : partner n < names.length) (hm : m ≠ partner n) :
    isLinked (unlink names n) m = isLinked names m := by
  unfold isLinked
  rw [nth_unlink _ _ _ hp, if_neg (fun h => hm h.2)]

/-! ## Writing one name -/

/-- The other names keep their rows when one name, freed of its link, is replaced. -/
theorem rowOf_set_unlink_ne (names : List NameVal) {n m l : Nat} (v : NameVal) (hp : partner n < names.length) (hk : LinksOk names)
    (hm : m ≠ n) (hl : l < 32) : rowOf (setNth (unlink names n) n v) m l = rowOf names m l := by
  rw [← rowOf_unlink_ne names hp hm hl]
  apply rowOf_congr
  · exact nth_set_ne _ _ _ hm
  · intro h
    by_cases he : m = partner n
    · subst he
      rw [isLinked_unlink_partner names hp hk] at h
      cases h
    · refine nth_set_ne _ _ _ fun e => he ?_
      rw [← e, partner_partner]

theorem isFree_expand (names : List NameVal) (n : Nat) : (expandName names n == NameVal.free) = false := rfl

theorem nth_set_unlink_free (names : List NameVal) {n m : Nat} (v : NameVal) (hp : partner n < names.length) (hk : LinksOk names)
    (hm : m ≠ n) : (nth (setNth (unlink names n) n v) m .free == .free) = (nth names m .free == .free) := by
  rw [nth_set_ne _ _ _ hm, nth_unlink _ _ _ hp]
  split
  · next h =>
    obtain ⟨h1, rfl⟩ := h
    rw [hk n] at h1
    unfold isLinked at h1
    rw [isFree_expand]
    split at h1
    · next e => rw [e]; rfl
    · cases h1
  · rfl

/-- A stored value that is not one of a linked pair. -/
def NameVal.single : NameVal → Bool
  | .aff _ _ link => !link
  | .free | .uni _ | .gen _ => true

theorem isLinked_of_single {names : List NameVal} {n : Nat} {v : NameVal} (h : nth names n .free = v) (hs : v.single = true) :
    isLinked names n = false := by
  unfold isLinked; rw [h]; cases v <;> simp_all [NameVal.single]

theorem nth_set_lt {α : Type} (l : List α) {k : Nat} (v d : α) (h : k < l.length) : nth (setNth l k v) k d = v := nth_set_same l k v d h

/-- Replacing one name by one that is not linked keeps the links. -/
theorem linksOk_set_unlink (names : List NameVal) {n : Nat} {v : NameVal} (hn : n < names.length) (hp : partner n < names.length)
    (hk : LinksOk names) (hs : v.single = true) : LinksOk (setNth (unlink names n) n v) := by
  have own : isLinked (setNth (unlink names n) n v) n = false :=
    isLinked_of_single (nth_set_same _ _ _ _ (by simpa using hn)) hs
  have ne : ∀ m, m ≠ n → isLinked (setNth (unlink names n) n v) m = isLinked (unlink names n) m := by
    intro m hm; unfold isLinked; rw [nth_set_ne _ _ _ hm]
  have part : isLinked (setNth (unlink names n) n v) (partner n) = false := by
    rw [ne _ (partner_ne n)]; exact isLinked_unlink_partner names hp hk
  intro m
  by_cases h1 : m = n
  · subst h1; rw [own, part]
  · by_cases h2 : m = partner n
    · subst h2; rw [part, partner_partner, own]
    · have h3 : partner m ≠ n := fun e => h2 (by rw [← e, partner_partner])
      have h4 : partner m ≠ partner n := fun e => h1 (by rw [← partner_partner m, e, partner_partner])
      rw [ne _ h1, ne _ h3, isLinked_unlink_other names hp h2, isLinked_unlink_other names hp h4, hk]

/-! ## Results -/

/-- The values form a progression over the lanes. -/
def ProgOver (wide : Bool) (v : Nat → W64) : Prop :=
  ∀ l < 32, if wide then v l = v 0 + BitVec.ofNat 64 l * (v 1 - v 0) else lo32 (v l) = lo32 (v 0) + BitVec.ofNat 32 l * lo32 (v 1 - v 0)

/-- A result's values agree with its tag on the live lanes: one value for U, a progression for A (R52). -/
structure Result.Ok (r : Result) (wide : Bool) (live : List Nat) : Prop where
  uni : r.shape = .u → ∀ l ∈ live, r.val l = r.val (live.headD 0)
  aff : r.shape = .a → ProgOver wide r.val

theorem pair64_halves (v : W64) : pair64 (hi32 v) (lo32 v) = v := by
  apply BitVec.eq_of_getLsbD_eq
  intro i hi
  simp only [pair64, hi32, lo32, BitVec.getLsbD_append, BitVec.getLsbD_setWidth, BitVec.getLsbD_ushiftRight]
  by_cases h : i < 32
  · simp [h]
  · have h1 : i - 32 < 32 := by omega
    have h2 : 32 + (i - 32) = i := by omega
    simp [h, h1, h2]

theorem lo32_add (a b : W64) : lo32 (a + b) = lo32 a + lo32 b := by simp only [lo32]; bv_omega
theorem lo32_sub (a b : W64) : lo32 (a - b) = lo32 a - lo32 b := by simp only [lo32]; bv_omega
theorem lo32_mul (l : Nat) (b : W64) : lo32 (BitVec.ofNat 64 l * b) = BitVec.ofNat 32 l * lo32 b := by
  apply BitVec.eq_of_toNat_eq
  simp only [lo32, BitVec.toNat_setWidth, BitVec.toNat_mul, BitVec.toNat_ofNat]
  rw [Nat.mod_mod_of_dvd _ (by decide), Nat.mul_mod, Nat.mod_mod_of_dvd _ (by decide)]

theorem rows_get (f : Nat → W32) {l : Nat} (d : W32) (hl : l < 32) : nth (lanes32.map f) l d = f l := by simp [nth, hl]

/-- A name written whole for a 32-bit result reads as the result on the live lanes. -/
theorem rowOf_full {names : List NameVal} {n l : Nat} {live : List Nat} {r : Result} (h : nth names n .free = fullVal live false 0 r)
    (hr : r.Ok false live) (hl : l < 32) (hv : l ∈ live) : rowOf names n l = lo32 (r.val l) := by
  unfold rowOf
  rw [h]
  unfold fullVal
  cases hs : r.shape
  · simp only [halfOf, if_true]; rw [hr.uni hs l hv]
  · have := hr.aff hs l hl
    simp only [Bool.false_eq_true, if_false, lo32_sub] at this ⊢
    simp [this]
  · simp only [rows_get _ _ hl]; simp [hv, halfOf]

/-- A pair written whole for a 64-bit result reads as the result on the live lanes. -/
theorem rowOf_full_pair {names : List NameVal} {n l : Nat} {live : List Nat} {r : Result} (he : n % 2 = 0)
    (h0 : nth names n .free = fullVal live true 0 r) (h1 : nth names (n + 1) .free = fullVal live true 1 r) (hr : r.Ok true live)
    (hl : l < 32) (hv : l ∈ live) : rowOf names n l = lo32 (r.val l) ∧ rowOf names (n + 1) l = hi32 (r.val l) := by
  have ho : (n + 1) % 2 = 1 := by omega
  unfold rowOf
  simp only [Nat.add_sub_cancel, h0, h1]
  unfold fullVal
  cases hs : r.shape
  · simp only [halfOf, if_true, Nat.one_ne_zero, if_false]; rw [hr.uni hs l hv]; exact ⟨rfl, rfl⟩
  · have := hr.aff hs l hl
    simp only [if_true] at this
    simp only [if_true, halfOf, Nat.one_ne_zero, if_false, he, ho, Bool.true_and, beq_self_eq_true, pair64_halves]
    constructor
    · rw [this, lo32_add, lo32_mul]; simp
    · rw [← this]
  · simp only [rows_get _ _ hl]; simp [hv, halfOf]

/-- A name written in part: the written lanes take the result, the others keep their rows. -/
theorem rowOf_part {names old : List NameVal} {n half l : Nat} {ls : List Nat} {r : Result} (h : nth names n .free = partVal old n ls half r)
    (hl : l < 32) : rowOf names n l = if ls.contains l then halfOf half (r.val l) else rowOf old n l := by
  conv_lhs => unfold rowOf
  rw [h]
  simp only [partVal, rows_get _ _ hl]

theorem single_full (live : List Nat) (half : Nat) (r : Result) : (fullVal live false half r).single = true := by
  unfold fullVal; cases r.shape <;> simp [NameVal.single]
theorem single_part (old : List NameVal) (n : Nat) (ls : List Nat) (half : Nat) (r : Result) : (partVal old n ls half r).single = true := rfl

theorem full_ne_free (live : List Nat) (wide : Bool) (half : Nat) (r : Result) : (fullVal live wide half r == .free) = false := by
  unfold fullVal
  cases r.shape
  · rfl
  · cases wide <;> rfl
  · rfl

/-- Where a store of a result leaves what it was. -/
structure Stored (a b : List NameVal) (live : List Nat) (full : Bool) (ls : List Nat) (wide : Bool) (n : Nat) (r : Result) : Prop where
  len : b.length = a.length
  links : LinksOk b
  lo : ∀ l < 32, (if full then l ∈ live else l ∈ ls) → rowOf b n l = lo32 (r.val l)
  hi : wide = true → ∀ l < 32, (if full then l ∈ live else l ∈ ls) → rowOf b (n + 1) l = hi32 (r.val l)
  keep : full = false → ∀ l < 32, l ∉ ls → rowOf b n l = rowOf a n l ∧ (wide = true → rowOf b (n + 1) l = rowOf a (n + 1) l)
  others : ∀ m, m ≠ n → (wide = true → m ≠ n + 1) → ∀ l < 32, rowOf b m l = rowOf a m l
  freeLo : (nth b n .free == .free) = false
  freeHi : wide = true → (nth b (n + 1) .free == .free) = false
  freeOthers : ∀ m, m ≠ n → (wide = true → m ≠ n + 1) → (nth b m .free == .free) = (nth a m .free == .free)

/-- What `storeIn` does (R61, R62, R55). -/
theorem storeIn_spec {names : List NameVal} {live : List Nat} {full : Bool} {ls : List Nat} {wide : Bool} {n : Nat} {r : Result}
    (hN : names.length % 2 = 0) (hn : n < names.length) (he : wide = true → n % 2 = 0) (hk : LinksOk names)
    (hr : full = true → r.Ok wide live) : Stored names (storeIn names live full ls wide n r) live full ls wide n r := by
  have hp := partner_lt hN hn
  cases wide
  · have e : storeIn names live full ls false n r =
        setNth (unlink names n) n (if full then fullVal live false 0 r else partVal names n ls 0 r) := by
      simp [storeIn]
    have own : nth (storeIn names live full ls false n r) n .free = if full then fullVal live false 0 r else partVal names n ls 0 r := by
      rw [e]; exact nth_set_same _ _ _ _ (by simpa using hn)
    have sing : (if full then fullVal live false 0 r else partVal names n ls 0 r).single = true := by
      cases full <;> simp [single_full, single_part]
    refine ⟨?_, ?_, ?_, by simp, ?_, ?_, ?_, by simp, ?_⟩
    · rw [e, length_setNth, length_unlink]
    · rw [e]; exact linksOk_set_unlink names hn hp hk sing
    · intro l hl hm
      cases full
      · rw [rowOf_part (by simpa using own) hl]; simp_all [halfOf]
      · exact rowOf_full (by simpa using own) (hr rfl) hl (by simpa using hm)
    · intro hf l hl hm
      subst hf
      refine ⟨?_, by simp⟩
      rw [rowOf_part (by simpa using own) hl]; simp [hm]
    · intro m hm _ l hl
      rw [e]; exact rowOf_set_unlink_ne names _ hp hk hm hl
    · rw [own]; cases full
      · rfl
      · exact full_ne_free _ _ _ _
    · intro m hm _
      rw [e]; exact nth_set_unlink_free names _ hp hk hm
  · have he' := he rfl
    have hp1 : partner n = n + 1 := by unfold partner; rw [if_pos he']
    have hp2 : partner (n + 1) = n := by rw [← hp1, partner_partner]
    have kept : (if isLinked names n && isLinked names (n + 1) then names else unlink (unlink names n) (n + 1)) = names := by
      have hkn := hk n
      rw [hp1] at hkn
      cases h : isLinked names n
      · rw [h] at hkn
        simp [unlink, h, ← hkn]
      · simp [← hkn, h]
    have e : storeIn names live full ls true n r =
        setNth (setNth names n (if full then fullVal live true 0 r else partVal names n ls 0 r)) (n + 1)
          (if full then fullVal live true 1 r else partVal names (n + 1) ls 1 r) := by
      simp only [storeIn, if_true, kept]
    have hn1 : n + 1 < names.length := by rw [← hp1]; exact hp
    have own0 : nth (storeIn names live full ls true n r) n .free = if full then fullVal live true 0 r else partVal names n ls 0 r := by
      rw [e, nth_set_ne _ _ _ (by omega)]; exact nth_set_same _ _ _ _ hn
    have own1 : nth (storeIn names live full ls true n r) (n + 1) .free = if full then fullVal live true 1 r else partVal names (n + 1) ls 1 r := by
      rw [e]; exact nth_set_same _ _ _ _ (by simpa [setNth] using hn1)
    have oth : ∀ m, m ≠ n → m ≠ n + 1 → nth (storeIn names live full ls true n r) m .free = nth names m .free := by
      intro m h0 h1
      rw [e, nth_set_ne _ _ _ h1, nth_set_ne _ _ _ h0]
    have il : ∀ m, m ≠ n → m ≠ n + 1 → isLinked (storeIn names live full ls true n r) m = isLinked names m := by
      intro m h0 h1; unfold isLinked; rw [oth m h0 h1]
    refine ⟨?_, ?_, ?_, fun _ => ?_, ?_, ?_, ?_, fun _ => ?_, ?_⟩
    · rw [e, length_setNth, length_setNth]
    · intro m
      have both : isLinked (storeIn names live full ls true n r) n = isLinked (storeIn names live full ls true n r) (n + 1) := by
        unfold isLinked
        rw [own0, own1]
        cases full
        · rfl
        · simp only [if_true]; unfold fullVal; cases r.shape <;> rfl
      by_cases h0 : m = n
      · subst h0; rw [hp1]; exact both
      · by_cases h1 : m = n + 1
        · subst h1; rw [hp2]; exact both.symm
        · have h2 : partner m ≠ n := fun x => h1 (by rw [← hp1, ← x, partner_partner])
          have h3 : partner m ≠ n + 1 := fun x => h0 (by rw [← hp2, ← x, partner_partner])
          rw [il m h0 h1, il _ h2 h3, hk]
    · intro l hl hm
      cases full
      · rw [rowOf_part (by simpa using own0) hl]; simp_all [halfOf]
      · exact (rowOf_full_pair he' (by simpa using own0) (by simpa using own1) (hr rfl) hl (by simpa using hm)).1
    · intro l hl hm
      cases full
      · rw [rowOf_part (by simpa using own1) hl]; simp_all [halfOf]
      · exact (rowOf_full_pair he' (by simpa using own0) (by simpa using own1) (hr rfl) hl (by simpa using hm)).2
    · intro hf l hl hm
      subst hf
      refine ⟨?_, fun _ => ?_⟩
      · rw [rowOf_part (by simpa using own0) hl]; simp [hm]
      · rw [rowOf_part (by simpa using own1) hl]; simp [hm]
    · intro m h0 h1 l hl
      have h1 := h1 rfl
      apply rowOf_congr
      · exact oth m h0 h1
      · intro _
        refine oth _ (fun x => h1 ?_) (fun x => h0 ?_)
        · rw [← hp1, ← x, partner_partner]
        · rw [← hp2, ← x, partner_partner]
    · rw [own0]; cases full
      · rfl
      · exact full_ne_free _ _ _ _
    · rw [own1]; cases full
      · rfl
      · exact full_ne_free _ _ _ _
    · intro m h0 h1
      rw [oth m h0 (h1 rfl)]

end Sys2Proof.Machine
end

