-- ==== Sys2Proof/Laws/Courses.lean ====
section
/-!
SUPPORT. What each operation on a course does to what its threads read: names, operand-file entries, latches, threads (R54 to R70).
-/

namespace Sys2Proof.Machine

/-! ## Masks -/

theorem hasLane_laneBit (k l : Nat) (hl : l < 32) : hasLane (laneBit k) l = decide (k = l) := by
  simp only [hasLane, laneBit, Nat.one_shiftLeft]
  show (BitVec.ofNat 32 (2 ^ k)).getLsbD l = _
  simp only [BitVec.getLsbD_ofNat, Nat.testBit_two_pow, hl, decide_true, Bool.true_and]

theorem hasLane_foldl (ls : List Nat) (m : W32) (l : Nat) (hl : l < 32) :
    hasLane (ls.foldl (fun m l => m ||| laneBit l) m) l = (hasLane m l || ls.contains l) := by
  induction ls generalizing m with
  | nil => simp
  | cons k t ih =>
    rw [List.foldl_cons, ih]
    simp only [hasLane, BitVec.getLsbD_or]
    rw [show (laneBit k).getLsbD l = decide (k = l) from hasLane_laneBit k l hl]
    by_cases h : k = l
    · subst h; simp
    · have : ¬ l = k := fun e => h e.symm
      simp [h, this]

@[simp] theorem hasLane_maskOf (ls : List Nat) (l : Nat) (hl : l < 32) : hasLane (maskOf ls) l = ls.contains l := by
  unfold maskOf; rw [hasLane_foldl _ _ _ hl]; simp [hasLane]

theorem hasLane_or (a b : W32) (l : Nat) : hasLane (a ||| b) l = (hasLane a l || hasLane b l) := by simp [hasLane]
theorem hasLane_and (a b : W32) (l : Nat) : hasLane (a &&& b) l = (hasLane a l && hasLane b l) := by simp [hasLane]
theorem hasLane_not (a : W32) (l : Nat) (hl : l < 32) : hasLane (~~~a) l = !hasLane a l := by simp [hasLane, hl]
theorem hasLane_full (l : Nat) (hl : l < 32) : hasLane (0xFFFFFFFF : W32) l = true := by
  simp only [hasLane]; interval_cases l <;> rfl
theorem hasLane_zero (l : Nat) : hasLane (0 : W32) l = false := by simp [hasLane]

/-! ## Threads -/

theorem map_ite_get {α : Type} (m : FMap α) (p : Nat → Bool) (f : Nat → α → α) (l : Nat) :
    FMap.get (m.map fun (x : Nat × α) => if p x.1 then (x.1, f x.1 x.2) else x) l = (FMap.get m l).map fun v => if p l then f l v else v := by
  have := FMap.get_map m l fun k v => if p k then f k v else v
  rw [← this]
  congr 1
  apply List.map_congr_left
  intro x _
  by_cases h : p x.1 = true <;> simp [h]

theorem map_ite_keys {α : Type} (m : FMap α) (p : Nat → Bool) (f : Nat → α → α) :
    FMap.keys (m.map fun (x : Nat × α) => if p x.1 then (x.1, f x.1 x.2) else x) = FMap.keys m := by
  apply FMap.keys_mapVals
  intro x _
  by_cases h : p x.1 = true <;> simp [h]

@[simp] theorem Course.onThreads_live (c : Course) (ls : List Nat) (f : Nat → Thread → Thread) : (c.onThreads ls f).live = c.live :=
  map_ite_keys c.threads (fun l => ls.contains l) f

theorem Course.onThreads_get (c : Course) (ls : List Nat) (f : Nat → Thread → Thread) (l : Nat) :
    FMap.get (c.onThreads ls f).threads l = (FMap.get c.threads l).map fun t => if ls.contains l then f l t else t :=
  map_ite_get c.threads (fun l => ls.contains l) f l

@[simp] theorem Course.clearLatches_live (c : Course) (dl : Bool) (n : Nat) (m : W32) : (c.clearLatches dl n m).live = c.live :=
  map_ite_keys c.threads (fun l => hasLane m l) fun _ (t : Thread) => { t with saved := t.saved.filter fun sv => !sv.record.names dl n }

/-- Two threads are the same but for the latch values saved with them. -/
def Thread.SameBut (a b : Thread) : Prop := ∃ sv, b = { a with saved := sv }

theorem Thread.SameBut.refl (a : Thread) : a.SameBut a := ⟨a.saved, rfl⟩
theorem Thread.SameBut.trans {a b c : Thread} (h : a.SameBut b) (k : b.SameBut c) : a.SameBut c := by
  obtain ⟨s, rfl⟩ := h; obtain ⟨u, rfl⟩ := k; exact ⟨u, rfl⟩

/-- Saved latch values only go. -/
def SavedLess (a b : Thread) : Prop := ∀ k, a.savedFor k = none → b.savedFor k = none

theorem savedFor_filter (t : Thread) (p : SavedLatch → Bool) (k : Nat) (h : t.savedFor k = none) :
    ({ t with saved := t.saved.filter p } : Thread).savedFor k = none := by
  simp only [Thread.savedFor, List.find?_eq_none] at h ⊢
  intro x hx
  exact h x (List.mem_of_mem_filter hx)

/-- What a course keeps when only its saved latches, latch records, names, entries and dead masks change. -/
structure SameThreads (a b : Course) : Prop where
  live : b.live = a.live
  get : ∀ l th, FMap.get a.threads l = some th → ∃ th', FMap.get b.threads l = some th' ∧ th.SameBut th' ∧ SavedLess th th'
  none : ∀ l, FMap.get a.threads l = none → FMap.get b.threads l = none

theorem SameThreads.refl (a : Course) : SameThreads a a := ⟨rfl, fun _ th h => ⟨th, h, .refl th, fun _ h => h⟩, fun _ h => h⟩
theorem SameThreads.trans {a b c : Course} (h : SameThreads a b) (k : SameThreads b c) : SameThreads a c := by
  refine ⟨k.live.trans h.live, fun l th e => ?_, fun l e => k.none l (h.none l e)⟩
  obtain ⟨t1, e1, s1, v1⟩ := h.get l th e
  obtain ⟨t2, e2, s2, v2⟩ := k.get l t1 e1
  exact ⟨t2, e2, s1.trans s2, fun j hj => v2 j (v1 j hj)⟩

theorem SameThreads.of_map {a b : Course} (p : Nat → Bool) (f : Nat → Thread → Thread) (hf : ∀ l t, t.SameBut (f l t) ∧ SavedLess t (f l t))
    (h : b.threads = a.threads.map fun (x : Nat × Thread) => if p x.1 then (x.1, f x.1 x.2) else x) : SameThreads a b := by
  refine ⟨?_, fun l th e => ?_, fun l e => ?_⟩
  · unfold Course.live; rw [h]; exact map_ite_keys _ p f
  · rw [h, map_ite_get _ p f, e]
    refine ⟨_, rfl, ?_⟩
    beta_reduce
    by_cases hp : p l = true
    · rw [if_pos hp]; exact hf l th
    · rw [if_neg hp]; exact ⟨.refl th, fun _ h => h⟩
  · rw [h, map_ite_get _ p f, e]; rfl

theorem clearLatches_same (c : Course) (dl : Bool) (n : Nat) (m : W32) : SameThreads c (c.clearLatches dl n m) :=
  .of_map (fun l => hasLane m l) (fun _ (t : Thread) => { t with saved := t.saved.filter fun sv => !sv.record.names dl n })
    (fun _ t => ⟨⟨_, rfl⟩, savedFor_filter t _⟩) rfl

/-- The latch values saved with the threads stay, but for those of which `D` holds. -/
def SavedKept (a b : Course) (D : SavedLatch → Prop) : Prop :=
  ∀ l th th', FMap.get a.threads l = some th → FMap.get b.threads l = some th' → ∀ x ∈ th.saved, ¬ D x → x ∈ th'.saved

theorem SavedKept.same {a b : Course} (D : SavedLatch → Prop) (h : b.threads = a.threads) : SavedKept a b D := by
  intro l th th' e e' x hx _
  rw [h, e] at e'; cases e'; exact hx

theorem SavedKept.mono {a b : Course} {D E : SavedLatch → Prop} (h : SavedKept a b D) (k : ∀ x, D x → E x) : SavedKept a b E :=
  fun l th th' e e' x hx hn => h l th th' e e' x hx fun d => hn (k x d)

theorem SavedKept.trans {a b c : Course} {D : SavedLatch → Prop} (h : SavedKept a b D) (st : SameThreads a b) (k : SavedKept b c D) :
    SavedKept a c D := by
  intro l th th' e e' x hx hn
  obtain ⟨t1, e1, _, _⟩ := st.get l th e
  exact k l t1 th' e1 e' x (h l th t1 e e1 x hx hn) hn

theorem SavedKept.of_filter {a b : Course} {D : SavedLatch → Prop} (p : Nat → Bool) (q : SavedLatch → Bool) (hq : ∀ x, q x = false → D x)
    (h : b.threads = a.threads.map fun (x : Nat × Thread) => if p x.1 then (x.1, { x.2 with saved := x.2.saved.filter q }) else x) :
    SavedKept a b D := by
  intro l th th' e e' x hx hn
  rw [h, map_ite_get _ p (fun _ (t : Thread) => { t with saved := t.saved.filter q }), e] at e'
  simp only [Option.map_some, Option.some.injEq] at e'
  subst e'
  by_cases hp : p l = true
  · rw [if_pos hp]
    refine List.mem_filter.mpr ⟨hx, ?_⟩
    cases hqx : q x
    · exact absurd (hq x hqx) hn
    · rfl
  · rw [if_neg hp]; exact hx

/-- A saved value names one of some names, or one of some entries. -/
def SavedLatch.namesAny (regs ents : List Nat) (x : SavedLatch) : Prop :=
  (∃ n ∈ regs, x.record.names false n = true) ∨ ∃ n ∈ ents, x.record.names true n = true

theorem namesAny_mono {r r' e e' : List Nat} (hr : r ⊆ r') (he : e ⊆ e') {x : SavedLatch} (h : x.namesAny r e) : x.namesAny r' e' := by
  rcases h with ⟨n, hn, h⟩ | ⟨n, hn, h⟩
  · exact .inl ⟨n, hr hn, h⟩
  · exact .inr ⟨n, he hn, h⟩

theorem clearLatches_kept (c : Course) (dl : Bool) (n : Nat) (m : W32) {D : SavedLatch → Prop} (hD : ∀ x : SavedLatch, x.record.names dl n = true → D x) :
    SavedKept c (c.clearLatches dl n m) D :=
  .of_filter (fun l => hasLane m l) (fun sv => !sv.record.names dl n) (fun x h => hD x (by simpa using h)) rfl

/-! ## Sound courses -/

/-- The storage of a course has its sizes, and its pairs their links (R52, R55, R68, R70). -/
structure Course.Ok (c : Course) : Prop where
  names : c.names.length = 64
  dead : c.dead.length = 64
  opf : c.opf.length = 16
  latches : c.latches.length = 4
  links : LinksOk c.names
  opfLinks : LinksOk c.opf

theorem live_lt_of {c : Course} (h : ∀ l ∈ c.live, l < 32) {l : Nat} (hl : l ∈ c.live) : l < 32 := h l hl

/-! ## Reads that an operation leaves alone -/

/-- Every live lane below 32 reads every name as before. -/
def SameReg (a b : Course) (n l : Nat) : Prop := regRow b n l = regRow a n l ∧ regFree b n l = regFree a n l

theorem SameReg.trans {a b c : Course} {n l : Nat} (h : SameReg a b n l) (k : SameReg b c n l) : SameReg a c n l :=
  ⟨k.1.trans h.1, k.2.trans h.2⟩

theorem sameReg_of {a b : Course} {n l : Nat} (hd : hasLane (nth b.dead n 0) l = hasLane (nth a.dead n 0) l) (hv : b.live = a.live)
    (hr : rowOf b.names n l = rowOf a.names n l) (hf : (nth b.names n .free == .free) = (nth a.names n .free == .free)) : SameReg a b n l := by
  constructor
  · unfold regRow; rw [hd, hv, hr]
  · unfold regFree; rw [hd, hf]

/-- The fields of a course that no register instruction touches. -/
structure Rest (a b : Course) : Prop where
  tiles : b.tiles = a.tiles
  log : b.log = a.log
  loads : b.loads = a.loads
  suspended : b.suspended = a.suspended
  awaitTiles : b.awaitTiles = a.awaitTiles
  tileWait : b.tileWait = a.tileWait
  convs : b.convs = a.convs

theorem Rest.refl (a : Course) : Rest a a := ⟨rfl, rfl, rfl, rfl, rfl, rfl, rfl⟩
theorem Rest.trans {a b c : Course} (h : Rest a b) (k : Rest b c) : Rest a c :=
  ⟨k.1.trans h.1, k.2.trans h.2, k.3.trans h.3, k.4.trans h.4, k.5.trans h.5, k.6.trans h.6, k.7.trans h.7⟩

/-- The operation leaves what every live lane reads; latch records that name none of `ns` stay. -/
structure Quiet (a b : Course) (ns : List Nat) : Prop where
  ok : b.Ok
  threads : SameThreads a b
  saved : SavedKept a b (SavedLatch.namesAny ns [])
  reg : ∀ n, ∀ l ∈ a.live, SameReg a b n l
  opf : b.opf = a.opf
  latch : ∀ k, (∀ n ∈ ns, (nth a.latches k {}).names false n = false) → nth b.latches k {} = nth a.latches k {}
  rest : Rest a b

theorem Quiet.refl {a : Course} (h : a.Ok) (ns : List Nat) : Quiet a a ns :=
  ⟨h, .refl a, .same _ rfl, fun _ _ _ => ⟨rfl, rfl⟩, rfl, fun _ _ => rfl, .refl a⟩

theorem Quiet.trans {a b c : Course} {ns ms : List Nat} (h : Quiet a b ns) (k : Quiet b c ms) : Quiet a c (ns ++ ms) := by
  refine ⟨k.ok, h.threads.trans k.threads,
    (h.saved.mono fun x hx => namesAny_mono (by simp) (by simp) hx).trans h.threads (k.saved.mono fun x hx => namesAny_mono (by simp) (by simp) hx), fun n l hl => (h.reg n l hl).trans (k.reg n l (by rw [h.threads.live]; exact hl)), k.opf.trans h.opf,
    fun j hj => ?_, h.rest.trans k.rest⟩
  have e := h.latch j fun n hn => hj n (by simp [hn])
  rw [k.latch j fun n hn => by rw [e]; exact hj n (by simp [hn]), e]

/-! ## Freeing (R58) -/

theorem latches_map_get (ls : List LatchRec) (f : LatchRec → LatchRec) (k : Nat) (h : nth ls k {} = f (nth ls k {}) ∨ ls.length ≤ k) :
    nth (ls.map f) k {} = nth ls k {} := by
  rcases h with h | h
  · by_cases hk : k < ls.length
    · simp only [nth, List.getElem?_map, List.getElem?_eq_getElem hk, Option.map_some, Option.getD_some] at h ⊢
      exact h.symm
    · simp [nth, hk]
  · simp [nth, h]

theorem clearLatches_get (c : Course) (dl : Bool) (n : Nat) (m : W32) (k : Nat) (h : (nth c.latches k {}).names dl n = false) :
    nth (c.clearLatches dl n m).latches k {} = nth c.latches k {} := by
  unfold Course.clearLatches
  apply latches_map_get
  left
  rw [h]; rfl

theorem rest_clearLatches (c : Course) (dl : Bool) (n : Nat) (m : W32) : Rest c (c.clearLatches dl n m) := ⟨rfl, rfl, rfl, rfl, rfl, rfl, rfl⟩

theorem mem_live_get {c : Course} {l : Nat} (h : l ∈ c.live) : ∃ t, FMap.get c.threads l = some t := by
  have := (FMap.mem_keys c.threads l).mp h
  exact Option.isSome_iff_exists.mp this

theorem hasLane_liveMask {c : Course} {l : Nat} (hl : l < 32) : hasLane c.liveMask l = c.live.contains l := hasLane_maskOf _ _ hl

/-- Freeing a name that every live lane has read for the last time changes no read. -/
theorem freeName_quiet {c : Course} {n : Nat} (hc : c.Ok) (hn : n < 64) (hlt : ∀ l ∈ c.live, l < 32)
    (hd : ∀ l ∈ c.live, hasLane (nth c.dead n 0) l = true) : Quiet c (c.freeName n) [n] := by
  have hp : partner n < c.names.length := by rw [hc.names]; exact partner_lt (by decide) hn
  have hn' : n < c.names.length := by rw [hc.names]; exact hn
  have sing : NameVal.free.single = true := rfl
  have lv : (c.freeName n).live = c.live := Course.clearLatches_live _ _ _ _
  refine ⟨⟨?_, ?_, hc.opf, ?_, ?_, hc.opfLinks⟩, ?_, ?_, ?_, rfl, ?_, ⟨rfl, rfl, rfl, rfl, rfl, rfl, rfl⟩⟩
  · simp only [Course.freeName, Course.clearLatches, length_setNth, length_unlink]; exact hc.names
  · simp only [Course.freeName, Course.clearLatches, length_setNth]; exact hc.dead
  · simp only [Course.freeName, Course.clearLatches, List.length_map]; exact hc.latches
  · exact linksOk_set_unlink c.names hn' hp hc.links sing
  · exact SameThreads.trans (b := { c with names := setNth (unlink c.names n) n .free, dead := setNth c.dead n 0, bad := c.heal [.name n] })
      ⟨rfl, fun l th e => ⟨th, e, .refl th, fun _ h => h⟩, fun l e => e⟩ (clearLatches_same _ _ _ _)
  · exact SavedKept.trans (b := { c with names := setNth (unlink c.names n) n .free, dead := setNth c.dead n 0, bad := c.heal [.name n] }) (.same _ rfl)
      ⟨rfl, fun l th e => ⟨th, e, .refl th, fun _ h => h⟩, fun l e => e⟩ (clearLatches_kept _ _ _ _ fun x h => .inl ⟨n, by simp, h⟩)
  · intro m l hl
    by_cases hm : m = n
    · subst hm
      have h1 : nth (c.freeName m).names m .free = .free := nth_set_same _ _ _ _ (by simpa using hn')
      constructor
      · have a : regRow c m l = 0 := by
          unfold regRow; rw [hd l hl]; simp [hl]
        rw [a]
        unfold regRow rowOf
        rw [h1]; simp
      · have a : regFree c m l = true := by unfold regFree; rw [hd l hl]; simp
        rw [a]; unfold regFree; rw [h1]; simp
    · apply sameReg_of
      · show hasLane (nth (setNth c.dead n 0) m 0) l = _
        rw [nth_set_ne _ _ _ hm]
      · exact lv
      · exact rowOf_set_unlink_ne c.names _ hp hc.links hm (hlt l hl)
      · exact nth_set_unlink_free c.names _ hp hc.links hm
  · intro k hk
    exact clearLatches_get _ _ _ _ _ (hk n (by simp))

theorem and_not_zero {a b : W32} (h : (a &&& ~~~b) == 0) {l : Nat} (hl : l < 32) (ha : hasLane a l = true) : hasLane b l = true := by
  have h0 : a &&& ~~~b = 0 := by simpa using h
  have := congrArg (fun x => hasLane x l) h0
  simp only [hasLane_and, hasLane_not _ _ hl, ha, Bool.true_and, hasLane_zero] at this
  simpa using this

/-- Freeing what every live lane has read for the last time changes no read (R58, R59). -/
theorem reap_quiet {c : Course} {n : Nat} (hc : c.Ok) (hn : n < 64) (hlt : ∀ l ∈ c.live, l < 32) : Quiet c (c.reap n) [n] := by
  unfold Course.reap
  split
  · next h =>
    apply freeName_quiet hc hn hlt
    intro l hl
    exact and_not_zero h (hlt l hl) (by rw [hasLane_liveMask (hlt l hl)]; simpa using hl)
  · exact .refl hc _

theorem reapAll_quiet {ns : List Nat} {c : Course} (hc : c.Ok) (hn : ∀ n ∈ ns, n < 64) (hlt : ∀ l ∈ c.live, l < 32) :
    Quiet c (ns.foldl (fun c n => c.reap n) c) ns := by
  induction ns generalizing c with
  | nil => exact .refl hc _
  | cons n t ih =>
    have q := reap_quiet hc (hn n (by simp)) hlt
    have r := ih q.ok (fun m hm => hn m (by simp [hm])) (by rw [q.threads.live]; exact hlt)
    exact q.trans r

/-! ## Last reads (R57) -/

theorem markDead_eq (c : Course) (n : Nat) (m : W32) : c.markDead n m = { c with dead := setNth c.dead n (nth c.dead n 0 ||| m) } := rfl

theorem markAll_spec (ns : List Nat) (m : W32) (c : Course) (hd : c.dead.length = 64) (hn : ∀ n ∈ ns, n < 64) :
    ∃ d, ns.foldl (fun c n => c.markDead n m) c = { c with dead := d } ∧ d.length = 64 ∧
      ∀ k l, hasLane (nth d k 0) l = (hasLane (nth c.dead k 0) l || (ns.contains k && hasLane m l)) := by
  induction ns generalizing c with
  | nil => exact ⟨c.dead, rfl, hd, fun k l => by simp⟩
  | cons n t ih =>
    obtain ⟨d, e, hl, h⟩ := ih (c.markDead n m) (by simp [Course.markDead, setNth, hd]) (fun k hk => hn k (by simp [hk]))
    refine ⟨d, by rw [List.foldl_cons, e]; rfl, hl, fun k l => ?_⟩
    rw [h]
    show (hasLane (nth (setNth c.dead n (nth c.dead n 0 ||| m)) k 0) l || _) = _
    by_cases hk : k = n
    · subst hk
      rw [nth_set_same _ _ _ _ (by rw [hd]; exact hn k (by simp)), hasLane_or]
      cases hasLane m l <;> simp
    · rw [nth_set_ne _ _ _ hk]
      simp [hk]

end Sys2Proof.Machine
end

