-- ==== Sys2Proof/Laws/Lanes.lean ====
section
/-!
SUPPORT. What a unit that acts on the registers of its courses does: writes of results, latches, and the lane-set computation (R60 to R72, R167).
-/

namespace Sys2Proof.Machine

theorem linksOk_of_sound {names : List NameVal} (he : names.length % 2 = 0) (h : linksSound names = true) : LinksOk names := by
  intro n
  by_cases hn : n < names.length
  · have := List.all_eq_true.mp h n (by simpa using hn)
    simpa using this
  · have hp : ¬ partner n < names.length := fun x => hn (by have := partner_lt he x; rwa [partner_partner] at this)
    unfold isLinked
    simp [nth, hn, hp]

/-- A sound course. -/
theorem Course.sound_ok {c : Course} (h : c.sound = true) : c.Ok ∧ ∀ l ∈ c.live, l < 32 := by
  simp only [Course.sound, Bool.and_eq_true, beq_iff_eq, List.all_eq_true, decide_eq_true_eq] at h
  obtain ⟨⟨⟨⟨⟨⟨h1, h2⟩, h3⟩, h4⟩, h5⟩, h6⟩, h7⟩ := h
  exact ⟨⟨h1, h2, h3, h4, linksOk_of_sound (by rw [h1]) h5, linksOk_of_sound (by rw [h3]) h6⟩, h7⟩

/-! ## Writing a result (R56, R61, R62, R68) -/

/-- What a write of names or entries does to a course. -/
structure Written (a b : Course) (regs ents ls : List Nat) : Prop where
  ok : b.Ok
  threads : SameThreads a b
  saved : SavedKept a b (SavedLatch.namesAny regs ents)
  reg : ∀ n, ∀ l ∈ a.live, ¬ (n ∈ regs ∧ l ∈ ls) → regRow b n l = regRow a n l
  free : ∀ n, n ∉ regs → ∀ l ∈ a.live, regFree b n l = regFree a n l
  dead : ∀ n, ∀ l ∈ a.live, ¬ (n ∈ regs ∧ l ∈ ls) → hasLane (nth b.dead n 0) l = hasLane (nth a.dead n 0) l
  opf : ∀ n, ∀ l ∈ a.live, ¬ (n ∈ ents ∧ l ∈ ls) → rowOf b.opf n l = rowOf a.opf n l ∧
    (n ∉ ents → (nth b.opf n .free == .free) = (nth a.opf n .free == .free))
  latch : ∀ k, (∀ n ∈ regs, (nth a.latches k {}).names false n = false) → (∀ n ∈ ents, (nth a.latches k {}).names true n = false) →
    nth b.latches k {} = nth a.latches k {}
  rest : Rest a b

theorem hasLane_write {c : Course} {full : Bool} {ls : List Nat} {l : Nat} (hl : l < 32) (hv : l ∈ c.live) (hf : full = true → ∀ k ∈ c.live, k ∈ ls) :
    hasLane (if full then 0xFFFFFFFF else maskOf ls) l = ls.contains l := by
  cases full
  · exact hasLane_maskOf _ _ hl
  · rw [if_pos rfl, hasLane_full _ hl]
    simpa using (hf rfl l hv)

/-- Clearing the dead bits of the lanes written. -/
theorem dead_clear {d : List W32} {n k l : Nat} {m : W32} (hl : l < 32) (hn : n < d.length) :
    hasLane (nth (setNth d n (nth d n 0 &&& ~~~m)) k 0) l = (hasLane (nth d k 0) l && !(decide (k = n) && hasLane m l)) := by
  by_cases h : k = n
  · subst h; rw [nth_set_same _ _ _ _ hn, hasLane_and, hasLane_not _ _ hl]; simp
  · rw [nth_set_ne _ _ _ h]; simp [h]

/-- The lanes and names of a register write, whole or in part. -/
structure WriteArgs (c : Course) (full : Bool) (ls : List Nat) (wide : Bool) (n : Nat) (r : Result) : Prop where
  even : wide = true → n % 2 = 0
  live : ∀ l ∈ ls, l ∈ c.live
  all : full = true → ∀ l ∈ c.live, l ∈ ls
  ok : full = true → r.Ok wide c.live

theorem WriteArgs.cover {c : Course} {full wide : Bool} {ls : List Nat} {n : Nat} {r : Result} (h : WriteArgs c full ls wide n r) {l : Nat} (hl : l ∈ ls) :
    if full = true then l ∈ c.live else l ∈ ls := by
  cases full
  · simpa using hl
  · simpa using h.live l hl

/-- The values a write of names leaves. -/
structure WroteReg (c : Course) (ls : List Nat) (wide : Bool) (n : Nat) (r : Result) : Prop where
  lo : ∀ l ∈ ls, regRow c n l = lo32 (r.val l)
  hi : wide = true → ∀ l ∈ ls, regRow c (n + 1) l = hi32 (r.val l)
  dead : ∀ l ∈ ls, hasLane (nth c.dead n 0) l = false
  deadHi : wide = true → ∀ l ∈ ls, hasLane (nth c.dead (n + 1) 0) l = false
  some : (nth c.names n .free == .free) = false
  someHi : wide = true → (nth c.names (n + 1) .free == .free) = false

theorem written_reg_of {c b : Course} (hc : c.Ok) (hlt : ∀ l ∈ c.live, l < 32) {full : Bool} {ls : List Nat} {wide : Bool} {n : Nat} {r : Result}
    (hn : n < 64) (ha : WriteArgs c full ls wide n r) {regs : List Nat} (hregs : regs = if wide then [n, n + 1] else [n])
    (hnames : b.names = storeIn c.names c.live full ls wide n r) (hopf : b.opf = c.opf) (hdl : b.dead.length = 64) (hll : b.latches.length = 4)
    (ht : SameThreads c b) (hsv : SavedKept c b (SavedLatch.namesAny regs [])) (hrest : Rest c b)
    (hd : ∀ k, ∀ l ∈ c.live, hasLane (nth b.dead k 0) l = (hasLane (nth c.dead k 0) l && !(regs.contains k && ls.contains l)))
    (hlat : ∀ k, (∀ n ∈ regs, (nth c.latches k {}).names false n = false) → nth b.latches k {} = nth c.latches k {}) :
    Written c b regs [] ls ∧ WroteReg b ls wide n r := by
  have st := storeIn_spec (names := c.names) (live := c.live) (full := full) (ls := ls) (wide := wide) (n := n) (r := r)
    (by rw [hc.names]) (by rw [hc.names]; exact hn) ha.even hc.links ha.ok
  rw [← hnames] at st
  have mem_n : n ∈ regs := by rw [hregs]; cases wide <;> simp
  have mem_n1 : wide = true → n + 1 ∈ regs := by intro h; rw [hregs, h]; simp
  have nmem : ∀ k, k ∉ regs → k ≠ n ∧ (wide = true → k ≠ n + 1) := by
    intro k hk; rw [hregs] at hk; cases wide <;> simp_all
  have keepRow : ∀ k, ∀ l ∈ c.live, ¬ (k ∈ regs ∧ l ∈ ls) → rowOf b.names k l = rowOf c.names k l := by
    intro k l hl hk
    by_cases hm : k ∈ regs
    · have hnl : l ∉ ls := fun x => hk ⟨hm, x⟩
      have hff : full = false := by
        cases full
        · rfl
        · exact absurd (ha.all rfl l hl) hnl
      have kp := st.keep hff l (hlt l hl) hnl
      rw [hregs] at hm
      cases wide
      · simp only [Bool.false_eq_true, if_false, List.mem_singleton] at hm; subst hm; exact kp.1
      · simp only [if_true, List.mem_cons, List.not_mem_nil, or_false] at hm
        rcases hm with rfl | rfl
        · exact kp.1
        · exact kp.2 rfl
    · exact st.others k (nmem k hm).1 (nmem k hm).2 l (hlt l hl)
  have keepDead : ∀ k, ∀ l ∈ c.live, ¬ (k ∈ regs ∧ l ∈ ls) → hasLane (nth b.dead k 0) l = hasLane (nth c.dead k 0) l := by
    intro k l hl hk
    rw [hd k l hl]
    by_cases h1 : k ∈ regs
    · have h2 : l ∉ ls := fun x => hk ⟨h1, x⟩
      simp [h2]
    · simp [h1]
  have clear : ∀ k ∈ regs, ∀ l ∈ ls, hasLane (nth b.dead k 0) l = false := by
    intro k hk l hl
    rw [hd k l (ha.live l hl)]; simp [hk, hl]
  refine ⟨⟨⟨st.len.trans hc.names, hdl, by rw [hopf]; exact hc.opf, hll, st.links, by rw [hopf]; exact hc.opfLinks⟩, ht, hsv, ?_, ?_, keepDead, ?_, ?_, hrest⟩, ?_⟩
  · intro k l hl hk
    unfold regRow
    rw [keepDead k l hl hk, ht.live, keepRow k l hl hk]
  · intro k hk l hl
    unfold regFree
    rw [keepDead k l hl (fun x => hk x.1), st.freeOthers k (nmem k hk).1 (nmem k hk).2]
  · intro k l _ _; rw [hopf]; exact ⟨rfl, fun _ => rfl⟩
  · intro k h1 _; exact hlat k h1
  · refine ⟨fun l hl => ?_, fun hw l hl => ?_, clear n mem_n, fun hw => clear (n + 1) (mem_n1 hw), st.freeLo, st.freeHi⟩
    · unfold regRow
      rw [clear n mem_n l hl]
      simpa using st.lo l (hlt l (ha.live l hl)) (ha.cover hl)
    · unfold regRow
      rw [clear (n + 1) (mem_n1 hw) l hl]
      simpa using st.hi hw l (hlt l (ha.live l hl)) (ha.cover hl)

theorem regsOf_reg (wide : Bool) (n : Fin 64) : regsOf wide (.reg n) = if wide then [n.val, n.val + 1] else [n.val] := rfl

theorem writeReg_spec {c : Course} (hc : c.Ok) (hlt : ∀ l ∈ c.live, l < 32) {full : Bool} {ls : List Nat} {wide : Bool} {n : Nat} {r : Result}
    (hn : n < 64) (ha : WriteArgs c full ls wide n r) :
    Written c (c.writeReg full ls wide n r) (if wide then [n, n + 1] else [n]) [] ls ∧ WroteReg (c.writeReg full ls wide n r) ls wide n r := by
  have t0 : ∀ (N : List NameVal) (D : List W32) (B : List BadPlace) (x : Course), SameThreads x { x with names := N, dead := D, bad := B } :=
    fun _ _ _ _ => ⟨rfl, fun l th e => ⟨th, e, .refl th, fun _ h => h⟩, fun l e => e⟩
  have hm := fun l (hl : l ∈ c.live) => hasLane_write (c := c) (full := full) (ls := ls) (hlt l hl) hl ha.all
  cases wide
  · apply written_reg_of hc hlt hn ha rfl
    · rfl
    · rfl
    · show (setNth _ _ _).length = 64; rw [length_setNth]; exact hc.dead
    · show (List.map _ _).length = 4; rw [List.length_map]; exact hc.latches
    · exact (t0 _ _ _ c).trans (clearLatches_same _ _ _ _)
    · exact SavedKept.trans (.same _ rfl) (t0 _ _ _ c) (clearLatches_kept _ _ _ _ fun x h => .inl ⟨n, by simp, h⟩)
    · exact ⟨rfl, rfl, rfl, rfl, rfl, rfl, rfl⟩
    · intro k l hl
      show hasLane (nth (setNth c.dead n (nth c.dead n 0 &&& ~~~(if full then 0xFFFFFFFF else maskOf ls))) k 0) l = _
      rw [dead_clear (hlt l hl) (by rw [hc.dead]; exact hn), hm l hl]
      simp
    · intro k h1
      exact clearLatches_get _ _ _ _ _ (h1 n (by simp))
  · have he := ha.even rfl
    have hn1 : n + 1 < 64 := by omega
    apply written_reg_of hc hlt hn ha rfl
    · rfl
    · rfl
    · show (setNth (setNth _ _ _) _ _).length = 64; rw [length_setNth, length_setNth]; exact hc.dead
    · show (List.map _ (List.map _ _)).length = 4; rw [List.length_map, List.length_map]; exact hc.latches
    · exact ((t0 _ _ _ c).trans (clearLatches_same _ _ _ _)).trans ((t0 _ _ _ _).trans (clearLatches_same _ _ _ _))
    · exact SavedKept.trans (SavedKept.trans (.same _ rfl) (t0 _ _ _ c) (clearLatches_kept _ _ _ _ fun x h => .inl ⟨n, by simp, h⟩))
        ((t0 _ _ _ c).trans (clearLatches_same _ _ _ _))
        (SavedKept.trans (.same _ rfl) (t0 _ _ _ _) (clearLatches_kept _ _ _ _ fun x h => .inl ⟨n + 1, by simp, h⟩))
    · exact ⟨rfl, rfl, rfl, rfl, rfl, rfl, rfl⟩
    · intro k l hl
      show hasLane (nth (setNth (setNth c.dead n (nth c.dead n 0 &&& ~~~(if full then 0xFFFFFFFF else maskOf ls))) (n + 1)
        (nth (setNth c.dead n (nth c.dead n 0 &&& ~~~(if full then 0xFFFFFFFF else maskOf ls))) (n + 1) 0 &&&
          ~~~(if full then 0xFFFFFFFF else maskOf ls))) k 0) l = _
      rw [dead_clear (hlt l hl) (by rw [length_setNth, hc.dead]; exact hn1), dead_clear (hlt l hl) (by rw [hc.dead]; exact hn), hm l hl]
      by_cases h1 : k = n
      · subst h1; simp
      · by_cases h2 : k = n + 1
        · subst h2; simp
        · simp [h1, h2]
    · intro k h1
      refine (clearLatches_get _ _ _ _ k ?_).trans (clearLatches_get _ _ _ _ _ (h1 n (by simp)))
      refine (congrArg (fun x => LatchRec.names x false (n + 1)) ?_).trans (h1 (n + 1) (by simp))
      exact clearLatches_get _ _ _ _ _ (h1 n (by simp))

/-- The values a write of entries leaves. -/
structure WroteOpf (c : Course) (ls : List Nat) (wide : Bool) (n : Nat) (r : Result) : Prop where
  lo : ∀ l ∈ ls, rowOf c.opf n l = lo32 (r.val l)
  hi : wide = true → ∀ l ∈ ls, rowOf c.opf (n + 1) l = hi32 (r.val l)

theorem writeOpf_spec {c : Course} (hc : c.Ok) (hlt : ∀ l ∈ c.live, l < 32) {full : Bool} {ls : List Nat} {wide : Bool} {n : Nat} {r : Result}
    (hn : n < 16) (ha : WriteArgs c full ls wide n r) :
    Written c (c.writeOpf full ls wide n r) [] (if wide then [n, n + 1] else [n]) ls ∧ WroteOpf (c.writeOpf full ls wide n r) ls wide n r := by
  have st := storeIn_spec (names := c.opf) (live := c.live) (full := full) (ls := ls) (wide := wide) (n := n) (r := r)
    (by rw [hc.opf]) (by rw [hc.opf]; exact hn) ha.even hc.opfLinks ha.ok
  have t0 : ∀ (N : List NameVal) (B : List BadPlace) (x : Course), SameThreads x { x with opf := N, bad := B } :=
    fun _ _ _ => ⟨rfl, fun l th e => ⟨th, e, .refl th, fun _ h => h⟩, fun l e => e⟩
  have hopf : (c.writeOpf full ls wide n r).opf = storeIn c.opf c.live full ls wide n r := by cases wide <;> rfl
  have hnames : (c.writeOpf full ls wide n r).names = c.names := by cases wide <;> rfl
  have hdead : (c.writeOpf full ls wide n r).dead = c.dead := by cases wide <;> rfl
  have ht : SameThreads c (c.writeOpf full ls wide n r) := by
    cases wide
    · exact (t0 _ _ c).trans (clearLatches_same _ _ _ _)
    · exact ((t0 _ _ c).trans (clearLatches_same _ _ _ _)).trans (clearLatches_same _ _ _ _)
  have hsv : SavedKept c (c.writeOpf full ls wide n r) (SavedLatch.namesAny [] (if wide then [n, n + 1] else [n])) := by
    cases wide
    · exact SavedKept.trans (.same _ rfl) (t0 _ _ c) (clearLatches_kept _ _ _ _ fun x h => .inr ⟨n, by simp, h⟩)
    · exact SavedKept.trans (SavedKept.trans (.same _ rfl) (t0 _ _ c) (clearLatches_kept _ _ _ _ fun x h => .inr ⟨n, by simp, h⟩))
        ((t0 _ _ c).trans (clearLatches_same _ _ _ _)) (clearLatches_kept _ _ _ _ fun x h => .inr ⟨n + 1, by simp, h⟩)
  have hll : (c.writeOpf full ls wide n r).latches.length = 4 := by
    cases wide
    · show (List.map _ _).length = 4; rw [List.length_map]; exact hc.latches
    · show (List.map _ (List.map _ _)).length = 4; rw [List.length_map, List.length_map]; exact hc.latches
  rw [← hopf] at st
  refine ⟨⟨⟨by rw [hnames]; exact hc.names, by rw [hdead]; exact hc.dead, st.len.trans hc.opf, hll, by rw [hnames]; exact hc.links, st.links⟩, ht, hsv, ?_, ?_, ?_, ?_, ?_, ?_⟩,
    fun l hl => st.lo l (hlt l (ha.live l hl)) (ha.cover hl), fun hw l hl => st.hi hw l (hlt l (ha.live l hl)) (ha.cover hl)⟩
  · intro k l _ _; unfold regRow; rw [hnames, hdead, ht.live]
  · intro k _ l _; unfold regFree; rw [hnames, hdead]
  · intro k l _ _; rw [hdead]
  · intro k l hl hk
    have nmem : k ∉ (if wide then [n, n + 1] else [n]) → k ≠ n ∧ (wide = true → k ≠ n + 1) := by
      intro hk; cases wide <;> simp_all
    by_cases hm : k ∈ (if wide then [n, n + 1] else [n])
    · refine ⟨?_, fun x => absurd hm x⟩
      have hnl : l ∉ ls := fun x => hk ⟨hm, x⟩
      have hff : full = false := by
        cases full
        · rfl
        · exact absurd (ha.all rfl l hl) hnl
      have kp := st.keep hff l (hlt l hl) hnl
      cases wide
      · simp only [Bool.false_eq_true, if_false, List.mem_singleton] at hm; subst hm; exact kp.1
      · simp only [if_true, List.mem_cons, List.not_mem_nil, or_false] at hm
        rcases hm with rfl | rfl
        · exact kp.1
        · exact kp.2 rfl
    · exact ⟨st.others k (nmem hm).1 (nmem hm).2 l (hlt l hl), fun _ => st.freeOthers k (nmem hm).1 (nmem hm).2⟩
  · intro k _ h2
    cases wide
    · exact clearLatches_get _ _ _ _ _ (h2 n (by simp))
    · refine (clearLatches_get _ _ _ _ k ?_).trans (clearLatches_get _ _ _ _ _ (h2 n (by simp)))
      refine (congrArg (fun x => LatchRec.names x true (n + 1)) ?_).trans (h2 (n + 1) (by simp))
      exact clearLatches_get _ _ _ _ _ (h2 n (by simp))
  · cases wide <;> exact ⟨rfl, rfl, rfl, rfl, rfl, rfl, rfl⟩

end Sys2Proof.Machine
end

