-- ==== Sys2Proof/Laws/Views.lean ====
section
/-!
SUPPORT. Operands by lane: a source of shape U gives every live thread one value (R52, R61), and what a latch gives after a result has been
left in it (R70, R72).
-/

namespace Sys2Proof.Machine

theorem head_mem {l : Nat} {ls : List Nat} (h : l ∈ ls) : ls.headD 0 ∈ ls := by
  cases ls with
  | nil => cases h
  | cons a t => simp

/-- A view gives every live thread one value. -/
def ConstOn (live : List Nat) (v : Nat → W64) : Prop := ∀ l ∈ live, v l = v (live.headD 0)

theorem rowOf_simple {names : List NameVal} {n : Nat} (h : (match nth names n .free with | .free | .uni _ => true | _ => false) = true) (l k : Nat) :
    rowOf names n l = rowOf names n k := by
  unfold rowOf
  split at h
  · next e => simp [e]
  · next e => simp [e]
  · cases h

theorem shapeOf_u {names : List NameVal} {n : Nat} (h : shapeOf names n = .u) :
    (match nth names n .free with | .free | .uni _ => true | _ => false) = true := by
  unfold shapeOf at h
  split at h
  · next e => simp [e]
  · next e => simp [e]
  · cases h
  · split at h <;> cases h

/-- A name whose shape counts as U reads as one value in every live thread. -/
theorem regRow_const {c : Course} {n : Nat} (hlt : ∀ l ∈ c.live, l < 32) (h : deadShape c n (shapeOf c.names n) = .u) {l : Nat} (hl : l ∈ c.live) :
    regRow c n l = regRow c n (c.live.headD 0) := by
  have hh := head_mem hl
  have cl : ∀ k ∈ c.live, c.live.contains k = true := fun k hk => by simpa using hk
  have dead_of : ∀ k ∈ c.live, hasLane (nth c.dead n 0 &&& c.liveMask) k = hasLane (nth c.dead n 0) k := by
    intro k hk
    rw [hasLane_and, hasLane_liveMask (hlt k hk), cl k hk, Bool.and_true]
  unfold deadShape at h
  simp only at h
  split at h
  · next e =>
    have e0 : nth c.dead n 0 &&& c.liveMask = 0 := by simpa using e
    have z : ∀ k ∈ c.live, hasLane (nth c.dead n 0) k = false := by
      intro k hk; rw [← dead_of k hk, e0, hasLane_zero]
    unfold regRow
    rw [z l hl, z _ hh]
    simpa using rowOf_simple (shapeOf_u h) l _
  · split at h
    · next e =>
      have e1 : nth c.dead n 0 &&& c.liveMask = c.liveMask := by simpa using e
      have o : ∀ k ∈ c.live, hasLane (nth c.dead n 0) k = true := by
        intro k hk; rw [← dead_of k hk, e1, hasLane_liveMask (hlt k hk), cl k hk]
      unfold regRow
      rw [o l hl, o _ hh, cl l hl, cl _ hh]
      simp
    · cases h

theorem shapeOfPair_u {names : List NameVal} {n : Nat} (h : shapeOfPair names n = .u) (l k : Nat) :
    rowOf names n l = rowOf names n k ∧ rowOf names (n + 1) l = rowOf names (n + 1) k := by
  have key : (match nth names n .free with | .free | .uni _ => true | _ => false) = true ∧
      (match nth names (n + 1) .free with | .free | .uni _ => true | _ => false) = true := by
    unfold shapeOfPair at h
    revert h
    generalize nth names n .free = x
    generalize nth names (n + 1) .free = y
    intro h
    cases x <;> cases y <;> first | exact ⟨rfl, rfl⟩ | (exfalso; revert h; simp; done) | skip
    exfalso
    rename_i b s k b' s' k'
    cases k <;> cases k' <;> simp at h
  exact ⟨rowOf_simple key.1 l k, rowOf_simple key.2 l k⟩

theorem regView_const {c : Course} (hlt : ∀ l ∈ c.live, l < 32) (wide : Bool) (n : Nat) (h : (regView c wide n).shape = .u) :
    ConstOn c.live (regView c wide n).val := by
  intro l hl
  cases wide
  · simp only [regView, Bool.false_eq_true, if_false] at h ⊢
    rw [regRow_const hlt h hl]
  · simp only [regView, if_true] at h ⊢
    unfold pairShape at h
    simp only at h
    split at h
    · next e =>
      have hh := head_mem hl
      have cl : ∀ k ∈ c.live, c.live.contains k = true := fun k hk => by simpa using hk
      simp only [Bool.and_eq_true, beq_iff_eq] at e
      have z : ∀ m, nth c.dead m 0 &&& c.liveMask = 0 → ∀ k ∈ c.live, hasLane (nth c.dead m 0) k = false := by
        intro m hm k hk
        have : hasLane (nth c.dead m 0 &&& c.liveMask) k = hasLane (nth c.dead m 0) k := by
          rw [hasLane_and, hasLane_liveMask (hlt k hk), cl k hk, Bool.and_true]
        rw [← this, hm, hasLane_zero]
      have p := shapeOfPair_u h l (c.live.headD 0)
      unfold regRow
      rw [z n e.1 l hl, z n e.1 _ hh, z (n + 1) e.2 l hl, z (n + 1) e.2 _ hh]
      simp only [Bool.false_and, Bool.false_eq_true, if_false]
      rw [p.1, p.2]
    · split at h
      · next e =>
        simp only [Bool.and_eq_true, beq_iff_eq] at e
        rw [regRow_const hlt e.1 hl, regRow_const hlt e.2 hl]
      · cases h

theorem opfView_const {c : Course} (wide : Bool) (n : Nat) (h : (opfView c wide n).shape = .u) : ConstOn c.live (opfView c wide n).val := by
  intro l _
  cases wide
  · simp only [opfView, Bool.false_eq_true, if_false] at h ⊢
    rw [rowOf_simple (shapeOf_u h) l (c.live.headD 0)]
  · simp only [opfView, if_true] at h ⊢
    have p := shapeOfPair_u h l (c.live.headD 0)
    rw [p.1, p.2]

theorem if_ctx_const (wide : Bool) {a b : W64} (h : a = b) : (if wide then a else zx64 (lo32 a)) = if wide then b else zx64 (lo32 b) := by rw [h]

/-- A U latch value is the same for every lane. -/
theorem LatchVal.at_u {v : LatchVal} (h : v.shape = .u) (wide : Bool) (l m : Nat) : v.at wide l = v.at wide m := by
  cases v <;> first | rfl | cases h

theorem latchView_const {c : Course} (gens : List Nat) (wide : Bool) (k : Nat) (h : (latchView c gens wide k).shape = .u) :
    ConstOn c.live (latchView c gens wide k).val := by
  intro l hl
  have hh := head_mem hl
  obtain ⟨t, ht⟩ := mem_live_get hl
  obtain ⟨t', ht'⟩ := mem_live_get hh
  refine if_ctx_const wide ?_
  unfold latchView at h
  by_cases e : (c.threads.any fun p => (p.2.savedFor k).isSome) = true
  · simp only [e, Bool.true_and, if_true] at h ⊢
    split at h
    · cases h
    · next e1 =>
      split at h
      · cases h
      · simp only [Bool.not_eq_true, Bool.not_eq_false'] at e1
        have all := List.all_eq_true.mp e1
        rw [eq_of_beq (all l hl), eq_of_beq (all _ hh)]
        exact LatchVal.at_u h _ _ _
  · have nosaved : ∀ l ∈ c.live, ((FMap.get c.threads l).bind fun t => t.savedFor k) = none := by
      intro l hl
      obtain ⟨t, ht⟩ := mem_live_get hl
      rw [ht, Option.bind_some]
      have hm := FMap.mem_of_get ht
      by_contra hs
      apply e
      rw [List.any_eq_true]
      exact ⟨(l, t), hm, by simpa using Option.isSome_iff_ne_none.mpr hs⟩
    simp only [Bool.not_eq_true] at e
    simp only [e, Bool.false_and, Bool.false_eq_true, if_false] at h ⊢
    rw [nosaved l hl, nosaved _ hh]
    simp only [ht, ht', Option.isNone_some, Bool.false_eq_true, if_false]
    split at h
    · cases h
    · exact LatchVal.at_u h _ _ _

/-- A source of shape U gives every live thread one value. -/
theorem srcView_const {x : RdCtx} (hlt : ∀ l ∈ x.course.live, l < 32) (ty : Ty) (s : Src) (h : (srcView x ty s).shape = .u) :
    ConstOn x.course.live (srcView x ty s).val := by
  cases s with
  | reg n last => exact regView_const hlt _ _ h
  | opf n => exact opfView_const _ _ h
  | latch n => exact latchView_const _ _ _ h
  | special sp =>
    cases sp <;> first | (intro l _; rfl) | cases h
  | lit w => intro l _; rfl

theorem dstView_const {x : RdCtx} (hlt : ∀ l ∈ x.course.live, l < 32) (wide : Bool) (d : Dst) (h : (dstView x wide d).shape = .u) :
    ConstOn x.course.live (dstView x wide d).val := by
  cases d with
  | reg n => exact regView_const hlt _ _ h
  | opf n => exact opfView_const _ _ h
  | sup => intro l _; rfl

/-- The tag of a result suits its values (R61). -/
theorem resultShape_ok {live : List Nat} (cls : ShapeClass) (wide : Bool) (vs : List View) (f : List W64 → W64)
    (hv : ∀ v ∈ vs, v.shape = .u → ConstOn live v.val) (val : Nat → W64) (hval : val = fun l => f (vs.map fun v => v.val l)) :
    Result.Ok ⟨resultShape cls wide (vs.map fun v => v.shape) val, val⟩ wide live := by
  refine ⟨fun h l hl => ?_, fun h => ?_⟩
  · simp only [resultShape] at h
    split at h
    · next e =>
      simp only [List.all_map, List.all_eq_true, Function.comp, beq_iff_eq] at e
      show val l = val (live.headD 0)
      rw [hval]
      beta_reduce
      congr 1
      exact List.map_congr_left fun v hm => hv v hm (e v hm) l hl
    · split at h <;> cases h
  · simp only [resultShape] at h
    split at h
    · cases h
    · split at h
      · next e =>
        simp only [Bool.and_eq_true] at e
        have p := e.2
        unfold isProgression at p
        intro l hl
        have := List.all_eq_true.mp p l (by simpa using hl)
        show if wide = true then val l = val 0 + _ * (val 1 - val 0) else _
        cases wide
        · simpa using this
        · simpa using this
      · cases h

/-! ## The latch of a result (R70) -/

/-- A course with a result in a latch. -/
structure Latched (c : Course) (pipe gen : Nat) (ls : List Nat) (wide sup : Bool) (v : Nat → W64) : Prop where
  valid : (nth c.latches pipe {}).valid = true
  lanes : ∀ l ∈ ls, hasLane (nth c.latches pipe {}).lanes l = true
  gen : (nth c.latches pipe {}).gen = gen
  width : (nth c.latches pipe {}).wide = wide
  val : ∀ l ∈ ls, resultOf wide ((nth c.latches pipe {}).val.at wide l) = resultOf wide (v l)
  saved : ∀ l ∈ ls, ∀ t, FMap.get c.threads l = some t → t.savedFor pipe = none

theorem Latched.view {c : Course} {pipe gen : Nat} {ls : List Nat} {wide sup : Bool} {v : Nat → W64} (h : Latched c pipe gen ls wide sup v)
    (gens : List Nat) (hg : nth gens pipe 0 = gen) {l : Nat} (hl : l ∈ ls) (hc : l ∈ c.live) :
    (latchView c gens wide pipe).stale l = false ∧ (latchView c gens wide pipe).val l = resultOf wide (v l) := by
  obtain ⟨t, ht⟩ := mem_live_get hc
  have ns : t.savedFor pipe = none := h.saved l hl t ht
  unfold latchView
  simp only [ht, Option.bind_some, ns, Option.isNone_some, Bool.false_eq_true, if_false]
  constructor
  · have : (nth c.latches pipe {}).readable (nth gens pipe 0) = true := by
      simp only [LatchRec.readable, h.gen, hg, beq_self_eq_true, Bool.or_true]
    rw [h.valid, h.lanes l hl, this]; rfl
  · rw [h.width, ← h.val l hl]
    cases wide <;> simp [resultOf]

end Sys2Proof.Machine
end

