-- ==== Sys2Proof/Laws/Unit.lean ====
section
/-!
SUPPORT. A unit that acts on the registers, predicates and latches of a course, from its reads to the freeing of what it has read for the last
time (R33, R57 to R63, R167).
-/

namespace Sys2Proof.Machine

/-! ## The threads' part -/

/-- Only the threads of a course change, each as `u` says. -/
structure Updated (a b : Course) (u : Nat → Thread → Thread) : Prop where
  eq : b = { a with threads := b.threads }
  live : b.live = a.live
  get : ∀ l, FMap.get b.threads l = (FMap.get a.threads l).map (u l)

theorem onThreads_updated (c : Course) (ls : List Nat) (f : Nat → Thread → Thread) :
    Updated c (c.onThreads ls f) fun l t => if ls.contains l then f l t else t :=
  ⟨rfl, c.onThreads_live ls f, c.onThreads_get ls f⟩

theorem Updated.refl (c : Course) : Updated c c fun _ t => t := ⟨rfl, rfl, fun l => by simp⟩

theorem Updated.congr {a b : Course} {u v : Nat → Thread → Thread} (h : Updated a b u) (e : ∀ l t, u l t = v l t) : Updated a b v :=
  ⟨h.eq, h.live, fun l => by rw [h.get l]; congr 1; funext t; exact e l t⟩

theorem Updated.trans {a b c : Course} {u v : Nat → Thread → Thread} (h : Updated a b u) (k : Updated b c v) :
    Updated a c fun l t => v l (u l t) := by
  refine ⟨?_, k.live.trans h.live, fun l => ?_⟩
  · rw [k.eq, h.eq]
  · rw [k.get, h.get, Option.map_map]; rfl

/-- Setting READ_FREE in the lanes that read freed storage. -/
theorem noteFree_updated (c : Course) (vs : List View) (ls : List Nat) :
    Updated c (c.noteFree vs ls) fun l t => if ls.contains l && vs.any (fun v => v.free l) then t.setReadFree else t := by
  refine (onThreads_updated c (ls.filter fun l => vs.any fun v => v.free l) fun _ t => t.setReadFree).congr fun l t => ?_
  by_cases h1 : l ∈ ls <;> by_cases h2 : (vs.any fun v => v.free l) = true <;> simp [h1, h2]

/-! ## The latch's part -/

/-- Only the latch records of some pipes, and the latch values saved with threads, change. -/
structure LatchStep (a b : Course) (pipes : Nat → Prop) : Prop where
  eq : b = { a with latches := b.latches, threads := b.threads, bad := b.bad }
  threads : SameThreads a b
  saved : SavedKept a b fun x => pipes x.pipe.val
  others : ∀ k, ¬ pipes k → nth b.latches k {} = nth a.latches k {}
  len : b.latches.length = a.latches.length

theorem saved_updated (pipe : Nat) : ∀ (_ : Nat) (t : Thread),
    t.SameBut { t with saved := t.saved.filter fun sv => sv.pipe.val != pipe } ∧
      SavedLess t { t with saved := t.saved.filter fun sv => sv.pipe.val != pipe } :=
  fun _ t => ⟨⟨_, rfl⟩, savedFor_filter t _⟩

theorem setLatch_step (c : Course) (pipe gen : Nat) (ls : List Nat) (wide : Bool) (d : Dst) (r : Result) :
    LatchStep c (c.setLatch pipe gen ls wide d r) (· = pipe) :=
  ⟨rfl, .of_map (fun l => ls.contains l) _ (saved_updated pipe) rfl,
    .of_filter (fun l => ls.contains l) (fun sv => sv.pipe.val != pipe) (fun x h => by simpa using h) rfl, fun _ hk => nth_set_ne _ _ _ hk, length_setNth _ _ _⟩

theorem dropLatch_step (c : Course) (pipe : Nat) (ls : List Nat) : LatchStep c (c.dropLatch pipe ls) (· = pipe) :=
  ⟨rfl, .of_map (fun l => ls.contains l) _ (saved_updated pipe) rfl,
    .of_filter (fun l => ls.contains l) (fun sv => sv.pipe.val != pipe) (fun x h => by simpa using h) rfl, fun _ hk => nth_set_ne _ _ _ hk, length_setNth _ _ _⟩

theorem LatchStep.refl (c : Course) (pipes : Nat → Prop) : LatchStep c c pipes := ⟨rfl, .refl c, .same _ rfl, fun _ _ => rfl, rfl⟩

theorem LatchStep.trans {a b c : Course} {P Q R : Nat → Prop} (h : LatchStep a b P) (k : LatchStep b c Q) (hp : ∀ n, P n → R n)
    (hq : ∀ n, Q n → R n) : LatchStep a c R :=
  ⟨by rw [k.eq, h.eq], h.threads.trans k.threads,
    (h.saved.mono fun x hx => hp _ hx).trans h.threads (k.saved.mono fun x hx => hq _ hx),
    fun n hn => (k.others n fun x => hn (hq n x)).trans (h.others n fun x => hn (hp n x)), k.len.trans h.len⟩

theorem savedFor_filter_same (t : Thread) (pipe : Nat) :
    ({ t with saved := t.saved.filter fun sv => sv.pipe.val != pipe } : Thread).savedFor pipe = none := by
  simp only [Thread.savedFor, List.find?_eq_none, List.mem_filter]
  rintro x ⟨_, hx⟩
  simpa using hx

theorem resultOf_aff {r : Result} {wide : Bool} (h : ProgOver wide r.val) {l : Nat} (hl : l < 32) :
    resultOf wide ((LatchVal.aff (r.val 0) (r.val 1 - r.val 0)).at wide l) = resultOf wide (r.val l) := by
  have := h l hl
  cases wide
  · simp only [Bool.false_eq_true, if_false] at this
    simp only [resultOf, LatchVal.at, Bool.false_eq_true, if_false, this]
    congr 1
    simp
  · simp only [if_true] at this
    simp only [resultOf, LatchVal.at, if_true]
    rw [← this]

/-- What a result leaves in its latch. -/
theorem setLatch_latched {c : Course} {pipe gen : Nat} {ls : List Nat} {wide : Bool} {d : Dst} {r : Result} (hp : pipe < c.latches.length)
    (hne : ls ≠ []) (hls : ∀ l ∈ ls, l < 32) (hu : r.shape = .u → ∀ l ∈ ls, r.val l = r.val (ls.headD 0)) (ha : r.shape = .a → ProgOver wide r.val) :
    Latched (c.setLatch pipe gen ls wide d r) pipe gen ls wide (d == .sup) r.val := by
  have rec' : nth (c.setLatch pipe gen ls wide d r).latches pipe {} = _ := nth_set_same c.latches pipe _ _ hp
  refine ⟨?_, ?_, ?_, ?_, ?_, ?_⟩
  · rw [rec']; cases ls with
    | nil => exact absurd rfl hne
    | cons a t => rfl
  · intro l hl; rw [rec']
    show hasLane (maskOf ls) l = true
    rw [hasLane_maskOf _ _ (hls l hl)]; simpa using hl
  · rw [rec']
  · rw [rec']
  · intro l hl; rw [rec']
    cases hs : r.shape
    · show resultOf wide (r.val (ls.headD 0)) = _
      rw [hu hs l hl]
    · exact resultOf_aff (ha hs) (hls l hl)
    · simp only [LatchVal.at]
      congr 1
      simp [nth, hls l hl, hl]
  · intro l hl t ht
    have g := map_ite_get c.threads (fun l => ls.contains l) (fun _ (t : Thread) => { t with saved := t.saved.filter fun sv => sv.pipe.val != pipe }) l
    have e : FMap.get (c.setLatch pipe gen ls wide d r).threads l = _ := g
    rw [e] at ht
    cases e2 : FMap.get c.threads l with
    | none => rw [e2] at ht; cases ht
    | some u =>
      rw [e2] at ht
      simp only [Option.map_some, Option.some.injEq] at ht
      rw [if_pos (by simpa using hl)] at ht
      rw [← ht]
      exact savedFor_filter_same u pipe

/-! ## Freeing leaves a live result alone -/

theorem reap_live {c : Course} {n l : Nat} (hlt : ∀ l ∈ c.live, l < 32) (hl : l ∈ c.live) (hf : regFree c n l = false) : c.reap n = c := by
  have h2 : hasLane (nth c.dead n 0) l = false := by
    unfold regFree at hf; simp only [Bool.or_eq_false_iff] at hf; exact hf.2
  unfold Course.reap
  split
  · next h =>
    have := and_not_zero h (hlt l hl) (by rw [hasLane_liveMask (hlt l hl)]; simpa using hl)
    rw [h2] at this; cases this
  · rfl

/-- A latch record stays when every name it could lose is still read by some live thread. -/
theorem reapAll_latch {ns : List Nat} {c : Course} (hc : c.Ok) (hn : ∀ n ∈ ns, n < 64) (hlt : ∀ l ∈ c.live, l < 32) (k : Nat)
    (h : ∀ n ∈ ns, (nth c.latches k {}).names false n = false ∨ ∃ l ∈ c.live, regFree c n l = false) :
    nth (ns.foldl (fun c n => c.reap n) c).latches k {} = nth c.latches k {} := by
  induction ns generalizing c with
  | nil => rfl
  | cons n t ih =>
    have q := reap_quiet hc (hn n (by simp)) hlt
    have e : nth (c.reap n).latches k {} = nth c.latches k {} := by
      rcases h n (by simp) with h1 | ⟨l, hl, hf⟩
      · exact q.latch k (by simpa using h1)
      · rw [reap_live hlt hl hf]
    rw [List.foldl_cons, ih q.ok (fun m hm => hn m (by simp [hm])) (by rw [q.threads.live]; exact hlt), e]
    intro m hm
    rw [e, q.threads.live]
    rcases h m (by simp [hm]) with h1 | ⟨l, hl, hf⟩
    · exact .inl h1
    · exact .inr ⟨l, hl, by rw [(q.reg m l hl).2]; exact hf⟩

/-! ## The whole unit -/

theorem lastOf_lt (srcs : List Operand) : ∀ n ∈ lastOf srcs, n < 64 ∨ n = 64 := by
  intro n hn
  simp only [lastOf, List.mem_flatMap] at hn
  obtain ⟨o, _, h⟩ := hn
  obtain ⟨ty, s⟩ := o
  cases s with
  | reg k last =>
    cases last
    · simp [lastNames] at h
    · simp only [lastNames] at h
      split at h <;> simp at h <;> omega
  | opf k => simp [lastNames] at h
  | latch k => simp [lastNames] at h
  | special sp => simp [lastNames] at h
  | lit w => simp [lastNames] at h

/-- The pair operands are aligned (R91), so the names read for the last time exist. -/
theorem lastOf_lt_of_ok (srcs : List Operand) (h : ∀ o ∈ srcs, o.2.pairOk o.1 = true) : ∀ n ∈ lastOf srcs, n < 64 := by
  intro n hn
  simp only [lastOf, List.mem_flatMap] at hn
  obtain ⟨o, ho, h1⟩ := hn
  have hp := h o ho
  obtain ⟨ty, s⟩ := o
  cases s with
  | reg k last =>
    cases last
    · simp [lastNames] at h1
    · simp only [lastNames] at h1
      simp only [Src.pairOk, Bool.or_eq_true, Bool.not_eq_true', beq_iff_eq] at hp
      split at h1
      · next e =>
        rw [e] at hp
        simp at hp h1
        omega
      · simp at h1; omega
  | opf k => simp [lastNames] at h1
  | latch k => simp [lastNames] at h1
  | special sp => simp [lastNames] at h1
  | lit w => simp [lastNames] at h1

/-- The frame of a unit, from its parts. -/
theorem frame_of_parts {c c1 c3 c4 : Course} {srcs : List Operand} {lift lanes regs ents : List Nat} {pipes : Nat → Prop} {u : Nat → Thread → Thread}
    (hc : c.Ok) (hlt : ∀ l ∈ c.live, l < 32) (hsrc : ∀ n ∈ lastOf srcs, n < 64) (hlift : ∀ l ∈ lift, l < 32)
    (h1 : Updated c c1 u) (h3 : Written (c1.markSources srcs lift) c3 regs ents lanes) (h4 : LatchStep c3 c4 pipes) :
    CourseFrame c (c4.reapSources srcs) regs ents lanes (lastOf srcs) lift pipes u ∧ (c4.reapSources srcs).Ok ∧
      Quiet c4 (c4.reapSources srcs) (lastOf srcs) := by
  have dead1 : c1.dead = c.dead := by rw [h1.eq]
  have names1 : c1.names = c.names := by rw [h1.eq]
  have opf1 : c1.opf = c.opf := by rw [h1.eq]
  have lat1 : c1.latches = c.latches := by rw [h1.eq]
  obtain ⟨dm, e2, dl, hd⟩ := markAll_spec (lastOf srcs) (maskOf lift) c1 (by rw [dead1]; exact hc.dead) hsrc
  have e2' : c1.markSources srcs lift = { c1 with dead := dm } := e2
  have ok3 := h3.ok
  have ok4 : c4.Ok := by
    rw [h4.eq]
    exact ⟨ok3.names, ok3.dead, ok3.opf, h4.len.trans ok3.latches, ok3.links, ok3.opfLinks⟩
  have live3 : c3.live = c.live := by rw [h3.threads.live, e2']; exact h1.live
  have live4 : c4.live = c.live := h4.threads.live.trans live3
  have q := reapAll_quiet (ns := lastOf srcs) ok4 hsrc (by rw [live4]; exact hlt)
  have e5 : c4.reapSources srcs = (lastOf srcs).foldl (fun c n => c.reap n) c4 := rfl
  rw [← e5] at q
  have live5 : (c4.reapSources srcs).live = c.live := q.threads.live.trans live4
  have names4 : c4.names = c3.names := by rw [h4.eq]
  have dead4 : c4.dead = c3.dead := by rw [h4.eq]
  have opf4 : c4.opf = c3.opf := by rw [h4.eq]
  have reg4 : ∀ n l, regRow c4 n l = regRow c3 n l ∧ regFree c4 n l = regFree c3 n l := by
    intro n l
    refine ⟨?_, ?_⟩
    · unfold regRow; rw [names4, dead4, live4, live3]
    · unfold regFree; rw [names4, dead4]
  have live2 : (c1.markSources srcs lift).live = c.live := by rw [e2']; exact h1.live
  have reg2 : ∀ n l, l ∈ c.live → ¬ (n ∈ lastOf srcs ∧ l ∈ lift) →
      regRow (c1.markSources srcs lift) n l = regRow c n l ∧ regFree (c1.markSources srcs lift) n l = regFree c n l := by
    intro n l hl hn
    have dd : hasLane (nth dm n 0) l = hasLane (nth c.dead n 0) l := by
      rw [hd, dead1, hasLane_maskOf _ _ (hlt l hl)]
      by_cases a : n ∈ lastOf srcs
      · have b : l ∉ lift := fun x => hn ⟨a, x⟩
        simp [b]
      · simp [a]
    refine ⟨?_, ?_⟩
    · unfold regRow; rw [live2, e2']
      show (if hasLane (nth dm n 0) l && _ then _ else rowOf c1.names n l) = _
      rw [dd, names1]
    · unfold regFree; rw [e2']
      show (nth c1.names n .free == .free || hasLane (nth dm n 0) l) = _
      rw [dd, names1]
  refine ⟨⟨live5, ?_, ?_, ?_, ?_, ?_, ?_⟩, q.ok, q⟩
  · intro n l hl hw hn
    have r2 := reg2 n l hl hn
    have hl2 : l ∈ (c1.markSources srcs lift).live := by rw [live2]; exact hl
    have hl4 : l ∈ c4.live := by rw [live4]; exact hl
    refine ⟨?_, fun hr => ?_⟩
    · rw [(q.reg n l hl4).1, (reg4 n l).1, h3.reg n l hl2 hw, r2.1]
    · rw [(q.reg n l hl4).2, (reg4 n l).2, h3.free n hr l hl2, r2.2]
  · intro n hn l hl hv hw
    have hl2 : l ∈ (c1.markSources srcs lift).live := by rw [live2]; exact hv
    have hl4 : l ∈ c4.live := by rw [live4]; exact hv
    have d2 : hasLane (nth (c1.markSources srcs lift).dead n 0) l = true := by
      rw [e2']
      show hasLane (nth dm n 0) l = true
      rw [hd, hasLane_maskOf _ _ (hlift l hl)]
      simp [hn, hl]
    have d3 : hasLane (nth c3.dead n 0) l = true := by rw [h3.dead n l hl2 hw]; exact d2
    have c3l : c3.live.contains l = true := by rw [live3]; simpa using hv
    refine ⟨?_, ?_⟩
    · rw [(q.reg n l hl4).1, (reg4 n l).1]; unfold regRow; rw [d3, c3l]; rfl
    · rw [(q.reg n l hl4).2, (reg4 n l).2]; unfold regFree; rw [d3]; simp
  · intro n l hl hw
    have hl2 : l ∈ (c1.markSources srcs lift).live := by rw [live2]; exact hl
    have o := h3.opf n l hl2 hw
    have e : (c1.markSources srcs lift).opf = c.opf := by rw [e2']; exact opf1
    rw [e] at o
    rw [q.opf, opf4]
    exact o
  · intro k hk h5 h6
    have e : (c1.markSources srcs lift).latches = c.latches := by rw [e2']; exact lat1
    have a3 := h3.latch k (by rw [e]; exact fun n hn => h5 n (by simp [hn])) (by rw [e]; exact h6)
    rw [e] at a3
    have a4 : nth c4.latches k {} = nth c.latches k {} := by rw [h4.others k hk, a3]
    rw [q.latch k (by rw [a4]; exact fun n hn => h5 n (by simp [hn])), a4]
  · intro l th hth
    have g1 : FMap.get c1.threads l = some (u l th) := by rw [h1.get, hth]; rfl
    have g2 : FMap.get (c1.markSources srcs lift).threads l = some (u l th) := by rw [e2']; exact g1
    obtain ⟨t3, g3, s3, _⟩ := h3.threads.get l _ g2
    obtain ⟨t4, g4, s4, _⟩ := h4.threads.get l _ g3
    obtain ⟨t5, g5, s5, _⟩ := q.threads.get l _ g4
    obtain ⟨sv, e⟩ := (s3.trans s4).trans s5
    refine ⟨sv, by rw [g5, e], fun x hx hp hr he => ?_⟩
    have k3 := h3.saved l _ t3 g2 g3 x hx fun k => k.elim (fun ⟨n, hn, h⟩ => hr ⟨n, by simp [hn], h⟩) (fun ⟨n, hn, h⟩ => he ⟨n, hn, h⟩)
    have k4 := h4.saved l _ t4 g3 g4 x k3 hp
    have k5 := q.saved l _ t5 g4 g5 x k4 fun k => k.elim (fun ⟨n, hn, h⟩ => hr ⟨n, by simp [hn], h⟩) (fun ⟨n, hn, _⟩ => by cases hn)
    rw [e] at k5; exact k5
  · have r3 := h3.rest
    rw [e2'] at r3
    have r4 : Rest c3 c4 := by rw [h4.eq]; exact ⟨rfl, rfl, rfl, rfl, rfl, rfl, rfl⟩
    have r1 : Rest c c1 := by rw [h1.eq]; exact ⟨rfl, rfl, rfl, rfl, rfl, rfl, rfl⟩
    have r2 : Rest c1 { c1 with dead := dm } := ⟨rfl, rfl, rfl, rfl, rfl, rfl, rfl⟩
    have r := r1.trans (r2.trans (r3.trans (r4.trans q.rest)))
    exact ⟨r.1, r.2, r.3, r.4, r.5, r.6, r.7⟩

/-! ## Writing a destination -/

/-- A write of a destination: what it leaves alone, and what its lanes read there (R61, R62, R68). -/
theorem writeDst_spec {c : Course} (hc : c.Ok) (hlt : ∀ l ∈ c.live, l < 32) {full : Bool} {ls : List Nat} {wide : Bool} {d : Dst} {r : Result}
    (hd : d.pairOk wide = true) (hls : ∀ l ∈ ls, l ∈ c.live) (hall : full = true → ∀ l ∈ c.live, l ∈ ls) (hr : full = true → r.Ok wide c.live) :
    Written c (c.writeDst full ls wide d r) (regsOf wide d) (entriesOf wide d) ls ∧
    (d ≠ .sup → ∀ l ∈ ls, dstRead (c.writeDst full ls wide d r) wide d l = resultOf wide (r.val l)) ∧
    (∀ n ∈ regsOf wide d, ∀ l ∈ ls, regFree (c.writeDst full ls wide d r) n l = false) := by
  cases d with
  | reg n =>
    have ha : WriteArgs c full ls wide n.val r := ⟨fun h => by simpa [Dst.pairOk, h] using hd, hls, hall, hr⟩
    obtain ⟨w, v⟩ := writeReg_spec hc hlt n.isLt ha
    refine ⟨w, fun _ l hl => ?_, fun k hk l hl => ?_⟩
    · show (regView (c.writeReg full ls wide n.val r) wide n.val).val l = _
      cases wide
      · simp only [regView, Bool.false_eq_true, if_false, resultOf]; rw [v.lo l hl]
      · simp only [regView, if_true, resultOf]; rw [v.lo l hl, v.hi rfl l hl, pair64_halves]
    · show regFree (c.writeReg full ls wide n.val r) k l = false
      unfold regFree
      cases wide
      · simp only [regsOf, Bool.false_eq_true, if_false, List.mem_singleton] at hk; subst hk
        rw [v.some, v.dead l hl]; rfl
      · simp only [regsOf, if_true, List.mem_cons, List.not_mem_nil, or_false] at hk
        rcases hk with rfl | rfl
        · rw [v.some, v.dead l hl]; rfl
        · rw [v.someHi rfl, v.deadHi rfl l hl]; rfl
  | opf n =>
    have ha : WriteArgs c full ls wide n.val r := ⟨fun h => by simpa [Dst.pairOk, h] using hd, hls, hall, hr⟩
    obtain ⟨w, v⟩ := writeOpf_spec hc hlt n.isLt ha
    refine ⟨w, fun _ l hl => ?_, fun k hk => by simp [regsOf] at hk⟩
    show (opfView (c.writeOpf full ls wide n.val r) wide n.val).val l = _
    cases wide
    · simp only [opfView, Bool.false_eq_true, if_false, resultOf]; rw [v.lo l hl]
    · simp only [opfView, if_true, resultOf]; rw [v.lo l hl, v.hi rfl l hl, pair64_halves]
  | sup =>
    refine ⟨⟨hc, .refl c, .same _ rfl, fun _ _ _ _ => rfl, fun _ _ _ _ => rfl, fun _ _ _ _ => rfl, fun _ _ _ _ => ⟨rfl, fun _ => rfl⟩, fun _ _ _ => rfl, .refl c⟩,
      fun h => absurd rfl h, fun k hk => by simp [regsOf] at hk⟩

/-- The record a result leaves does not name a name its lanes have not written. -/
theorem setLatch_names {c : Course} {pipe gen : Nat} {ls : List Nat} {wide : Bool} {d : Dst} {r : Result} (hp : pipe < c.latches.length) {n : Nat}
    (h : n ∉ regsOf wide d) : (nth (c.setLatch pipe gen ls wide d r).latches pipe {}).names false n = false := by
  have rec' : nth (c.setLatch pipe gen ls wide d r).latches pipe {} = _ := nth_set_same c.latches pipe _ _ hp
  rw [rec']
  cases d with
  | reg k =>
    cases wide
    · simp only [regsOf, Bool.false_eq_true, if_false, List.mem_singleton] at h
      have : (k.val == n) = false := by simpa using fun e => h e.symm
      simp [LatchRec.names, this]
    · simp only [regsOf, if_true, List.mem_cons, List.not_mem_nil, or_false, not_or] at h
      have h1 : (k.val == n) = false := by simpa using fun e => h.1 e.symm
      have h2 : (k.val + 1 == n) = false := by simpa using fun e => h.2 e.symm
      simp [LatchRec.names, h1, h2]
  | opf k => simp [LatchRec.names]
  | sup => simp [LatchRec.names]

/-- The result of a unit that writes a destination and leaves its latch. -/
theorem result_of_parts {c2 : Course} {srcs : List Operand} {full wide : Bool} {ls : List Nat} {pipe gen : Nat} {d : Dst} {r : Result} (hc : c2.Ok)
    (hlt : ∀ l ∈ c2.live, l < 32) (hsrc : ∀ n ∈ lastOf srcs, n < 64) (hp : pipe < 4) (hne : ls ≠ [])
    (hd : d.pairOk wide = true) (hls : ∀ l ∈ ls, l ∈ c2.live) (hall : full = true → ∀ l ∈ c2.live, l ∈ ls) (hr : full = true → r.Ok wide c2.live)
    (hu : r.shape = .u → ∀ l ∈ ls, r.val l = r.val (ls.headD 0)) (ha : r.shape = .a → ProgOver wide r.val) (gens : List Nat)
    (hg : nth gens pipe 0 = gen) :
    CourseResult (((c2.writeDst full ls wide d r).setLatch pipe gen ls wide d r).reapSources srcs) gens wide pipe d ls r.val := by
  obtain ⟨w, v, nf⟩ := writeDst_spec hc hlt hd hls hall hr
  set c3 := c2.writeDst full ls wide d r with h3
  have st := setLatch_step c3 pipe gen ls wide d r
  set c4 := c3.setLatch pipe gen ls wide d r with h4
  have ok3 := w.ok
  have ok4 : c4.Ok := by
    rw [st.eq]; exact ⟨ok3.names, ok3.dead, ok3.opf, st.len.trans ok3.latches, ok3.links, ok3.opfLinks⟩
  have live3 : c3.live = c2.live := w.threads.live
  have live4 : c4.live = c2.live := st.threads.live.trans live3
  have hlt4 : ∀ l ∈ c4.live, l < 32 := by rw [live4]; exact hlt
  have q := reapAll_quiet (ns := lastOf srcs) ok4 hsrc hlt4
  have e5 : c4.reapSources srcs = (lastOf srcs).foldl (fun c n => c.reap n) c4 := rfl
  rw [← e5] at q
  have names4 : c4.names = c3.names := by rw [st.eq]
  have dead4 : c4.dead = c3.dead := by rw [st.eq]
  have opf4 : c4.opf = c3.opf := by rw [st.eq]
  have free4 : ∀ n l, regFree c4 n l = regFree c3 n l := by intro n l; unfold regFree; rw [names4, dead4]
  have row4 : ∀ n l, regRow c4 n l = regRow c3 n l := by intro n l; unfold regRow; rw [names4, dead4, live4, live3]
  have plen : pipe < c3.latches.length := by rw [ok3.latches]; exact hp
  have lt := setLatch_latched (c := c3) (gen := gen) (wide := wide) (d := d) (r := r) plen hne (fun l hl => hlt l (hls l hl)) hu ha
  rw [← h4] at lt
  have lrec : nth (c4.reapSources srcs).latches pipe {} = nth c4.latches pipe {} := by
    rw [e5]
    apply reapAll_latch ok4 hsrc hlt4
    intro n _
    by_cases hn : n ∈ regsOf wide d
    · right
      have hm : ls.headD 0 ∈ ls := by cases ls with | nil => exact absurd rfl hne | cons a t => simp
      exact ⟨ls.headD 0, by rw [live4]; exact hls _ hm, by rw [free4]; exact nf n hn _ hm⟩
    · left
      exact setLatch_names plen hn
  refine ⟨fun hs l hl => ?_, fun l hl => ?_⟩
  · rw [← v hs l hl]
    have hl4 : l ∈ c4.live := by rw [live4]; exact hls l hl
    cases d with
    | reg n =>
      have a := (q.reg n.val l hl4).1.trans (row4 n.val l)
      have b := (q.reg (n.val + 1) l hl4).1.trans (row4 (n.val + 1) l)
      simp only [dstRead, regView]
      cases wide
      · simp only [Bool.false_eq_true, if_false, a]
      · simp only [if_true, a, b]
    | opf n => simp only [dstRead, opfView, q.opf, opf4]
    | sup => exact absurd rfl hs
  · refine Latched.view (sup := (d == .sup)) ⟨?_, ?_, ?_, ?_, ?_, ?_⟩ gens hg hl (by rw [q.threads.live, live4]; exact hls _ hl)
    · rw [lrec]; exact lt.valid
    · rw [lrec]; exact lt.lanes
    · rw [lrec]; exact lt.gen
    · rw [lrec]; exact lt.width
    · rw [lrec]; exact lt.val
    · intro k hk t ht
      cases e : FMap.get c4.threads k with
      | none => rw [q.threads.none k e] at ht; cases ht
      | some u =>
        obtain ⟨t', g, _, sl⟩ := q.threads.get k u e
        rw [g] at ht; cases ht
        exact sl pipe (lt.saved k hk u e)

/-! ## The lane-set computation -/

/-- What a course brings to a unit that completes: its threads are live ones, and no operand is stale. -/
structure CourseIn.Fit (i : CourseIn) (srcs : List Operand) : Prop where
  sound : i.course.sound = true
  lift : ∀ l ∈ i.lift, l ∈ i.course.live
  parts : ∀ l ∈ i.parts, l ∈ i.lift
  full : i.full = true → ∀ l ∈ i.course.live, l ∈ i.parts
  all : i.all = true → ∀ l ∈ i.course.live, l ∈ i.parts
  pairs : ∀ o ∈ srcs, o.2.pairOk o.1 = true
  fresh : ∀ l ∈ i.parts, ∀ o ∈ srcs, (srcView i.rd o.1 o.2).stale l = false

/-- The values of the operands in a lane, with the old destination as a third one where the instruction reads it (R168). -/
def CourseIn.vals (i : CourseIn) (third wide : Bool) (d : Dst) (srcs : List Operand) (l : Nat) : List W64 :=
  (srcs.map fun o => (srcView i.rd o.1 o.2).val l) ++ if third then [(dstView i.rd wide d).val l] else []

/-- Whether a lane reads freed storage. -/
def CourseIn.free (i : CourseIn) (third wide : Bool) (d : Dst) (srcs : List Operand) (l : Nat) : Bool :=
  (srcs.any fun o => (srcView i.rd o.1 o.2).free l) || (third && (dstView i.rd wide d).free l)

theorem stale_nil {vs : List View} {ls : List Nat} (h : ∀ l ∈ ls, ∀ v ∈ vs, v.stale l = false) : staleLanes vs ls = [] := by
  unfold staleLanes
  rw [List.filter_eq_nil_iff]
  intro l hl hs
  rw [List.any_eq_true] at hs
  obtain ⟨v, hv, e⟩ := hs
  rw [h l hl v hv] at e; cases e

theorem dstView_fresh (x : RdCtx) (wide : Bool) (d : Dst) (l : Nat) : (dstView x wide d).stale l = false := by
  cases d with
  | reg n => cases wide <;> rfl
  | opf n => cases wide <;> rfl
  | sup => rfl

theorem filter_not_nil (ls : List Nat) : (ls.filter fun l => !([] : List Nat).contains l) = ls := by simp

/-- What a lane-set computation does to a course (R61, R62, R167). -/
theorem aluCourse_spec {sp : AluSpec} {d : Dst} {srcs : List Operand} {f : List W64 → W64} {i : CourseIn} (h : i.Fit srcs)
    (hd : d.pairOk sp.wide = true) (hp : sp.pipe < 4) (gens : List Nat) (hg : nth gens sp.pipe 0 = i.gen) :
    (aluCourse sp d srcs f i).reqs = [] ∧
    CourseFrame i.course (aluCourse sp d srcs f i).course (regsOf sp.wide d) (entriesOf sp.wide d) i.parts (lastOf srcs) i.lift (· = sp.pipe)
      (fun l t => if i.parts.contains l && i.free sp.third sp.wide d srcs l then t.setReadFree else t) ∧
    CourseResult (aluCourse sp d srcs f i).course gens sp.wide sp.pipe d i.parts fun l => f (i.vals sp.third sp.wide d srcs l) := by
  obtain ⟨hc, hlt⟩ := Course.sound_ok h.sound
  have hsrc := lastOf_lt_of_ok srcs h.pairs
  set vs := srcs.map fun o => srcView i.rd o.1 o.2 with hvs
  set vs' := if sp.third then vs ++ [dstView i.rd sp.wide d] else vs with hvs'
  have mem_vs : ∀ v ∈ vs', (∃ o ∈ srcs, v = srcView i.rd o.1 o.2) ∨ v = dstView i.rd sp.wide d := by
    intro v hv
    rw [hvs'] at hv
    split at hv
    · rw [List.mem_append] at hv
      rcases hv with hv | hv
      · rw [hvs, List.mem_map] at hv; obtain ⟨o, ho, e⟩ := hv; exact .inl ⟨o, ho, e.symm⟩
      · right; simpa using hv
    · rw [hvs, List.mem_map] at hv; obtain ⟨o, ho, e⟩ := hv; exact .inl ⟨o, ho, e.symm⟩
  have hstale : staleLanes vs' i.parts = [] := by
    apply stale_nil
    intro l hl v hv
    rcases mem_vs v hv with ⟨o, ho, rfl⟩ | rfl
    · exact h.fresh l hl o ho
    · exact dstView_fresh _ _ _ _
  have hconst : ∀ v ∈ vs', v.shape = .u → ConstOn i.course.live v.val := by
    intro v hv hs
    rcases mem_vs v hv with ⟨o, _, rfl⟩ | rfl
    · exact srcView_const (x := i.rd) hlt _ _ hs
    · exact dstView_const (x := i.rd) hlt _ _ hs
  have hval : ∀ l, (vs'.map fun v => v.val l) = i.vals sp.third sp.wide d srcs l := by
    intro l
    rw [hvs', hvs]
    unfold CourseIn.vals
    cases sp.third <;> simp [List.map_map, Function.comp_def]
  have hfree : ∀ l, (vs'.any fun v => v.free l) = i.free sp.third sp.wide d srcs l := by
    intro l
    rw [hvs', hvs]
    unfold CourseIn.free
    cases sp.third <;> simp [List.any_map, Function.comp_def]
  set val : Nat → W64 := fun l => f (vs'.map fun v => v.val l) with hv0
  have hval0 : val = fun l => f (i.vals sp.third sp.wide d srcs l) := by funext l; rw [hv0]; beta_reduce; rw [hval]
  set r : Result := ⟨if i.full then resultShape sp.cls sp.wide (vs'.map fun v => v.shape) val else .g, val⟩ with hr0
  have rok : i.full = true → r.Ok sp.wide i.course.live := by
    intro hf
    have := resultShape_ok (live := i.course.live) sp.cls sp.wide vs' f hconst val rfl
    rw [hr0]; simp only [hf, if_true]; exact this
  have rnot : i.full = false → r.shape = .g := by intro hf; rw [hr0]; simp [hf]
  -- the course step by step
  set c1 := i.course.noteFree vs' i.parts with h1
  have u1 := (noteFree_updated i.course vs' i.parts).congr (v := fun l t => if i.parts.contains l && i.free sp.third sp.wide d srcs l then t.setReadFree else t)
    (fun l t => by rw [hfree])
  rw [← h1] at u1
  obtain ⟨dm, e2, dl, _⟩ := markAll_spec (lastOf srcs) (maskOf i.lift) c1 (by rw [u1.eq]; exact hc.dead) hsrc
  set c2 := c1.markSources srcs i.lift with h2
  have e2' : c2 = { c1 with dead := dm } := e2
  have ok2 : c2.Ok := by
    rw [e2', u1.eq]; exact ⟨hc.names, dl, hc.opf, hc.latches, hc.links, hc.opfLinks⟩
  have live2 : c2.live = i.course.live := by rw [e2']; exact u1.live
  have heq : aluCourse sp d srcs f i =
      ⟨(if i.parts.isEmpty then c2 else (c2.writeDst i.full i.parts sp.wide d r).setLatch sp.pipe i.gen i.parts sp.wide d r).reapSources srcs, []⟩ := by
    simp only [aluCourse]
    rw [← hvs, ← hvs', hstale]
    simp only [filter_not_nil, List.isEmpty_nil, Bool.and_true, staleReqs, List.map_nil]
    rfl
  rw [heq]
  refine ⟨rfl, ?_⟩
  have hpl : ∀ l ∈ i.parts, l ∈ i.course.live := fun l hl => h.lift l (h.parts l hl)
  by_cases hne : i.parts = []
  · have : i.parts.isEmpty = true := by simp [hne]
    simp only [this, if_true]
    have w : Written c2 c2 (regsOf sp.wide d) (entriesOf sp.wide d) i.parts :=
      ⟨ok2, .refl c2, .same _ rfl, fun _ _ _ _ => rfl, fun _ _ _ _ => rfl, fun _ _ _ _ => rfl, fun _ _ _ _ => ⟨rfl, fun _ => rfl⟩, fun _ _ _ => rfl, .refl c2⟩
    refine ⟨(frame_of_parts hc hlt hsrc (fun l hl => hlt l (h.lift l hl)) u1 w (.refl c2 (· = sp.pipe))).1, ⟨fun _ l hl => ?_, fun l hl => ?_⟩⟩
    · rw [hne] at hl; cases hl
    · rw [hne] at hl; cases hl
  · have : i.parts.isEmpty = false := by simpa using hne
    simp only [this, Bool.false_eq_true, if_false]
    have hd2 : ∀ l ∈ i.parts, l ∈ c2.live := by rw [live2]; exact hpl
    have ha2 : i.full = true → ∀ l ∈ c2.live, l ∈ i.parts := by rw [live2]; exact h.full
    have hr2 : i.full = true → r.Ok sp.wide c2.live := by rw [live2]; exact rok
    obtain ⟨w, _, _⟩ := writeDst_spec (r := r) ok2 (by rw [live2]; exact hlt) hd hd2 ha2 hr2
    refine ⟨(frame_of_parts hc hlt hsrc (fun l hl => hlt l (h.lift l hl)) u1 w (setLatch_step _ _ _ _ _ _ _)).1, ?_⟩
    rw [← hval0]
    refine result_of_parts (r := r) ok2 (by rw [live2]; exact hlt) hsrc hp hne hd hd2 ha2 hr2 ?_ ?_ gens hg
    · intro hs l hl
      have hf : i.full = true := by
        cases e : i.full
        · rw [rnot e] at hs; cases hs
        · rfl
      have k := (rok hf).uni hs
      have hm : i.parts.headD 0 ∈ i.parts := head_mem hl
      rw [k l (hpl l hl), k _ (hpl _ hm)]
    · intro hs
      have hf : i.full = true := by
        cases e : i.full
        · rw [rnot e] at hs; cases hs
        · rfl
      exact (rok hf).aff hs

end Sys2Proof.Machine
end

