-- ==== Sys2Proof/Laws/Issue.lean ====
section
/-!
SUPPORT. From courses to the state: retiring a lift, running a unit on each course of it, and what that leaves alone (R32, R33).
-/

namespace Sys2Proof.Machine

/-! ## Cores and teams by number -/

@[simp] theorem core_setTeam (s : State) (k j : Nat) (t : Team) : (s.setTeam k t).core j = s.core j := rfl
@[simp] theorem core_setCore_same (s : State) (k : Nat) (c : Core) : (s.setCore k c).core k = c := by
  simp [State.core, State.setCore]
theorem core_setCore_ne (s : State) {k j : Nat} (c : Core) (h : j ≠ k) : (s.setCore k c).core j = s.core j := by
  simp [State.core, State.setCore, FMap.get_set_ne _ _ h]

/-! ## Retiring (R32) -/

/-- The threads of a course after those on some lanes have retired. -/
def Course.onward (c : Course) (ls : List Nat) (pc : W64) (now : Nat) : Course :=
  { c with threads := c.threads.map fun (p : Nat × Thread) => if ls.contains p.1 then (p.1, p.2.goto pc now) else p }

theorem goto_goto (t : Thread) (pc : W64) (now : Nat) : (t.goto pc now).goto pc now = t.goto pc now := rfl

/-- The courses of a team after some members have retired. -/
def onwardAll (cs : FMap Course) (ms : List (Nat × Nat)) (pc : W64) (now : Nat) : FMap Course :=
  cs.map fun (p : Nat × Course) => (p.1, p.2.onward (lanesIn ms p.1) pc now)

theorem mem_lanesIn {ms : List (Nat × Nat)} {c l : Nat} : l ∈ lanesIn ms c ↔ (c, l) ∈ ms := by
  simp only [lanesIn, List.mem_map, List.mem_filter, beq_iff_eq]
  constructor
  · rintro ⟨⟨a, b⟩, ⟨h, rfl⟩, rfl⟩; exact h
  · intro h; exact ⟨(c, l), ⟨h, rfl⟩, rfl⟩

theorem onward_nil (c : Course) (pc : W64) (now : Nat) : c.onward [] pc now = c := by
  simp [Course.onward]

theorem onwardAll_nil (cs : FMap Course) (pc : W64) (now : Nat) : onwardAll cs [] pc now = cs := by
  unfold onwardAll
  conv_rhs => rw [← List.map_id cs]
  apply List.map_congr_left
  intro p _
  have : lanesIn [] p.1 = [] := rfl
  rw [this, onward_nil]; rfl

/-- One member, then the rest. -/
theorem onwardAll_cons (cs : FMap Course) (m : Nat × Nat) (ms : List (Nat × Nat)) (pc : W64) (now : Nat) :
    onwardAll (FMap.modify cs m.1 fun x => { x with threads := FMap.modify x.threads m.2 fun t => t.goto pc now }) ms pc now =
      onwardAll cs (m :: ms) pc now := by
  unfold onwardAll FMap.modify
  rw [List.map_map]
  apply List.map_congr_left
  intro p _
  simp only [Function.comp]
  by_cases hc : p.1 = m.1
  · rw [if_pos hc]
    refine congrArg (Prod.mk p.1) ?_
    unfold Course.onward
    congr 1
    rw [List.map_map]
    apply List.map_congr_left
    intro q _
    simp only [Function.comp]
    have hl : ∀ k, (lanesIn (m :: ms) p.1).contains k = (decide (k = m.2) || (lanesIn ms p.1).contains k) := by
      intro k
      rw [Bool.eq_iff_iff]
      simp only [List.contains_iff_mem, mem_lanesIn, List.mem_cons, Bool.or_eq_true, decide_eq_true_eq]
      constructor
      · rintro (h | h)
        · left; exact congrArg Prod.snd h
        · right; exact h
      · rintro (h | h)
        · left; exact Prod.ext hc h
        · right; exact h
    by_cases hq : q.1 = m.2
    · rw [if_pos hq, hl]
      simp only [hq, decide_true, Bool.true_or, if_true]
      by_cases h2 : m.2 ∈ lanesIn ms p.1
      · simp [h2, goto_goto]
      · simp [h2]
    · rw [if_neg hq, hl]
      simp [hq]
  · rw [if_neg hc]
    refine congrArg (Prod.mk p.1) ?_
    have : lanesIn (m :: ms) p.1 = lanesIn ms p.1 := by
      unfold lanesIn
      have h : (m.1 == p.1) = false := by simpa using fun e => hc e.symm
      rw [List.filter_cons, h]; rfl
    rw [this]

/-- What retiring members does: their threads go on, and nothing else changes. -/
theorem retire_fold (s : State) (ms : List (Nat × Nat)) (pc : W64) :
    ms.foldl (fun s m => s.onThread s.issue.team m.1 m.2 fun t => t.goto pc s.cycle) s =
      { s with teams := FMap.modify s.teams s.issue.team fun t => { t with courses := onwardAll t.courses ms pc s.cycle } } := by
  induction ms generalizing s with
  | nil => simp only [List.foldl_nil, onwardAll_nil, FMap.modify_id]
  | cons m ms ih =>
    rw [List.foldl_cons, ih]
    simp only [State.onThread, State.onCourse, FMap.modify_modify, onwardAll_cons]

theorem retire_eq (s : State) (ms : List (Nat × Nat)) (pc : W64) :
    s.retire ms pc = { s with
      teams := FMap.modify s.teams s.issue.team fun t => { t with courses := onwardAll t.courses ms pc s.cycle }
      issue := { s.issue with retired := s.issue.retired ++ ms.map fun m => (s.issue.team, m.1, m.2) } } := by
  unfold State.retire
  rw [retire_fold]

theorem onwardAll_get (cs : FMap Course) (ms : List (Nat × Nat)) (pc : W64) (now c : Nat) :
    FMap.get (onwardAll cs ms pc now) c = (FMap.get cs c).map fun x => x.onward (lanesIn ms c) pc now :=
  FMap.get_map cs c fun k x => x.onward (lanesIn ms k) pc now

/-! ## Courses of a lift -/

theorem mem_insertBy {le : Nat → Nat → Bool} (x y : Nat) (l : List Nat) : y ∈ insertBy le x l ↔ y = x ∨ y ∈ l := by
  induction l with
  | nil => simp [insertBy]
  | cons a t ih =>
    unfold insertBy
    split
    · simp only [List.mem_cons, ih]; tauto
    · simp

theorem mem_coursesOf_aux (ms : List (Nat × Nat)) (acc : List Nat) (c : Nat) :
    c ∈ ms.foldl (fun acc m => if acc.contains m.1 then acc else insertBy (fun a b => decide (a ≤ b)) m.1 acc) acc ↔
      c ∈ acc ∨ ∃ m ∈ ms, m.1 = c := by
  induction ms generalizing acc with
  | nil => simp
  | cons m t ih =>
    rw [List.foldl_cons, ih]
    split
    · next h =>
      have hm : m.1 ∈ acc := by simpa using h
      constructor
      · rintro (h | ⟨x, hx, e⟩)
        · exact .inl h
        · exact .inr ⟨x, by simp [hx], e⟩
      · rintro (h | ⟨x, hx, e⟩)
        · exact .inl h
        · rcases List.mem_cons.mp hx with rfl | hx
          · exact .inl (e ▸ hm)
          · exact .inr ⟨x, hx, e⟩
    · rw [mem_insertBy]
      constructor
      · rintro ((h | h) | ⟨x, hx, e⟩)
        · exact .inr ⟨m, by simp, h.symm⟩
        · exact .inl h
        · exact .inr ⟨x, by simp [hx], e⟩
      · rintro (h | ⟨x, hx, e⟩)
        · exact .inl (.inr h)
        · rcases List.mem_cons.mp hx with rfl | hx
          · exact .inl (.inl e.symm)
          · exact .inr ⟨x, hx, e⟩

/-- The courses of a list of members. -/
theorem mem_coursesOf {ms : List (Nat × Nat)} {c : Nat} : c ∈ coursesOf ms ↔ ∃ m ∈ ms, m.1 = c := by
  unfold coursesOf; rw [mem_coursesOf_aux]; simp

/-- The members of a lift as a fold of courses: each course is set from the team as it was. -/
theorem runCourses_fold (g : Nat → CourseOut) (cs : List Nat) (t : Team) (rs : List Req) :
    ∃ t', cs.foldl (fun acc c => (Team.setCourse acc.1 c (g c).course, acc.2 ++ (g c).reqs)) (t, rs) =
        (t', rs ++ cs.flatMap fun c => (g c).reqs) ∧ t' = { t with courses := t'.courses } ∧
      ∀ c, FMap.get t'.courses c = if c ∈ cs then some (g c).course else FMap.get t.courses c := by
  induction cs generalizing t rs with
  | nil => exact ⟨t, by simp, rfl, by simp⟩
  | cons k cs ih =>
    obtain ⟨t', e, h1, h2⟩ := ih (t.setCourse k (g k).course) (rs ++ (g k).reqs)
    refine ⟨t', by rw [List.foldl_cons, e]; simp [List.append_assoc], by rw [h1]; rfl, fun c => ?_⟩
    rw [h2]
    by_cases hc : c ∈ cs
    · simp [hc]
    · rw [if_neg hc]
      show FMap.get (FMap.set t.courses k (g k).course) c = _
      rw [FMap.get_set]
      by_cases hk : c = k
      · simp [hk]
      · simp [hk, hc]

theorem without_nil (ms : List (Nat × Nat)) : without ms [] = ms := by simp [without]

/-! ## The unit on the state -/

/-- What a course is after a unit: what `f` makes of it, its threads of the lift gone on. -/
def afterUnit (s : State) (t : Team) (pipe : Nat) (f : CourseIn → CourseOut) (c : Nat) : Course :=
  (f (courseIn s t pipe c)).course.onward (lanesIn s.issue.lift c) s.issue.next s.cycle

/-- The pipe of a latch use. -/
def LatchUse.at : LatchUse → Nat
  | .result p _ => p
  | .none => 0

/-- The latch generations after a unit. -/
theorem unitCore_gens (c : Core) (i : Issue) (u : LatchUse) :
    (unitCore c i u).latchGen =
      match u with | .result p _ => if i.parts.isEmpty then c.latchGen else (c.useLatch p).latchGen | .none => c.latchGen := by
  cases u with
  | none => rfl
  | result p sup =>
    cases hp : i.parts.isEmpty <;> cases sup <;> simp only [unitCore, hp, if_true, Bool.false_eq_true, if_false, Core.addHold]
    split <;> rfl

/-- A unit in which no thread raises a fault completes: every course of the lift becomes what the unit makes of it, its threads go on, the
pipe's latch has a new generation if the unit left a result, and nothing else changes. -/
theorem courseUnit_spec {s : State} {t : Team} (ht : FMap.get s.teams s.issue.team = some t) (u : LatchUse) (f : CourseIn → CourseOut)
    (hr : ∀ c ∈ coursesOf s.issue.lift, (f (courseIn s t u.at c)).reqs = []) :
    ∃ s', s.courseUnit u f = .next s' ∧ UnitEffect s s' t u fun c _ x' => x' = afterUnit s t u.at f c := by
  have hcur : s.curTeam = some t := ht
  obtain ⟨pipe, hpipe⟩ : ∃ k, k = u.at := ⟨_, rfl⟩
  rw [← hpipe] at hr ⊢
  obtain ⟨t', e, h1, h2⟩ := runCourses_fold (fun c => f (courseIn s t pipe c)) (coursesOf s.issue.lift) t []
  have hrs : (coursesOf s.issue.lift).flatMap (fun c => (f (courseIn s t pipe c)).reqs) = [] := by
    rw [List.flatMap_eq_nil_iff]; exact hr
  rw [hrs] at e
  have e' : runCourses s t pipe f = (t', []) := by
    unfold runCourses; exact e
  have fin : ∀ s1 : State, s1.issue = s.issue → s1.finish [] = s1.retire s.issue.lift s.issue.next := by
    intro s1 h; unfold State.finish; rw [without_nil, h]; rfl
  have main : ∀ s1 : State, s1.issue = s.issue → s1.cycle = s.cycle → s1.teams = FMap.set s.teams s.issue.team t' →
      s1.core t.core = unitCore (s.core t.core) s.issue u → (∀ k, k ≠ t.core → s1.core k = s.core k) →
      (∃ ts cs, s1 = { s with teams := ts, cores := cs }) →
      UnitEffect s (s1.retire s.issue.lift s.issue.next) t u (fun c _ x' => x' = afterUnit s t pipe f c) := by
    intro s1 hi hcy hteams hcore hcores hrest
    rw [retire_eq]
    refine ⟨⟨onwardAll t'.courses s.issue.lift s.issue.next s1.cycle, ?_, ?_, ?_⟩, ?_, hcore, hcores, ?_⟩
    · dsimp only
      rw [hi, FMap.get_modify_same, hteams, FMap.get_set_same, Option.map_some, h1]
    · intro c hc
      rw [onwardAll_get, h2 c, if_neg hc]
      have : lanesIn s.issue.lift c = [] := by
        rw [List.eq_nil_iff_forall_not_mem]
        intro l hl
        rw [mem_lanesIn] at hl
        exact hc (mem_coursesOf.mpr ⟨_, hl, rfl⟩)
      rw [this]
      cases FMap.get t.courses c with
      | none => rfl
      | some x => simp [onward_nil]
    · intro c hc
      refine ⟨_, ?_, rfl⟩
      rw [onwardAll_get, h2 c, if_pos hc, hcy]; rfl
    · intro k hk
      dsimp only
      rw [hi, FMap.get_modify_ne _ _ hk, hteams, FMap.get_set_ne _ _ hk]
    · obtain ⟨ts, cs, rfl⟩ := hrest
      rfl
  unfold State.courseUnit
  rw [hcur]
  simp only
  cases u with
  | none =>
    simp only [LatchUse.at] at hpipe
    subst hpipe
    simp only [e']
    refine ⟨_, rfl, ?_⟩
    rw [fin (s.setTeam s.issue.team t') rfl]
    exact main _ rfl rfl rfl rfl (fun _ _ => rfl) ⟨_, _, rfl⟩
  | result p sup =>
    simp only [LatchUse.at] at hpipe
    subst hpipe
    simp only [e']
    refine ⟨_, rfl, ?_⟩
    rw [fin ((s.setTeam s.issue.team t').setCore t.core _) rfl]
    refine main _ rfl rfl rfl ?_ (fun k hk => core_setCore_ne _ _ hk) ⟨_, _, rfl⟩
    rw [core_setCore_same, without_nil, without_nil]; rfl

end Sys2Proof.Machine
end

