-- ==== Sys2Proof/Laws/Kin.lean ====
section
/-!
SUPPORT. What an access to memory leaves of the machine's threads: the issue, the cycle and every course but for fields of its threads
(monitors, stamped stores, remote writes); one lemma for each operation on memory.
-/

namespace Sys2Proof.Machine

/-- The course is the same but for fields of its threads. -/
def Course.Akin (x y : Course) : Prop := ∃ ths, y = { x with threads := ths } ∧ FMap.keys ths = FMap.keys x.threads

/-- The team has the same courses, each but for fields of its threads. -/
def Team.Akin (t u : Team) : Prop := ∀ c x, FMap.get t.courses c = some x → ∃ y, FMap.get u.courses c = some y ∧ x.Akin y

/-- The step is at the same unit of the same cycle, and every course is as it was but for fields of its threads. -/
structure Kin (s u : State) : Prop where
  issue : u.issue = s.issue
  cycle : u.cycle = s.cycle
  teams : ∀ k t, FMap.get s.teams k = some t → ∃ t', FMap.get u.teams k = some t' ∧ t.Akin t'

theorem Course.Akin.refl (x : Course) : x.Akin x := ⟨x.threads, rfl, rfl⟩
theorem Course.Akin.trans {x y z : Course} (h : x.Akin y) (k : y.Akin z) : x.Akin z := by
  obtain ⟨a, rfl, e⟩ := h
  obtain ⟨b, rfl, f⟩ := k
  exact ⟨b, rfl, f.trans e⟩
theorem Course.Akin.live {x y : Course} (h : x.Akin y) : y.live = x.live := by obtain ⟨a, rfl, e⟩ := h; exact e

theorem Course.Akin.sound {x y : Course} (h : x.Akin y) (k : x.sound = true) : y.sound = true := by
  have e := h.live
  obtain ⟨a, rfl, _⟩ := h
  unfold Course.sound at k ⊢
  rw [e]
  exact k

theorem Team.Akin.of_eq {t u : Team} (h : u.courses = t.courses) : t.Akin u := fun c x hx => ⟨x, by rw [h]; exact hx, .refl x⟩
theorem Team.Akin.refl (t : Team) : t.Akin t := .of_eq rfl
theorem Team.Akin.trans {t u v : Team} (h : t.Akin u) (k : u.Akin v) : t.Akin v := by
  intro c x hx
  obtain ⟨y, hy, a⟩ := h c x hx
  obtain ⟨z, hz, b⟩ := k c y hy
  exact ⟨z, hz, a.trans b⟩

theorem Kin.of_eq {s u : State} (hi : u.issue = s.issue) (hc : u.cycle = s.cycle) (ht : u.teams = s.teams) : Kin s u :=
  ⟨hi, hc, fun k t h => ⟨t, by rw [ht]; exact h, .refl t⟩⟩
theorem Kin.refl (s : State) : Kin s s := .of_eq rfl rfl rfl
theorem Kin.trans {s u v : State} (h : Kin s u) (k : Kin u v) : Kin s v := by
  refine ⟨k.issue.trans h.issue, k.cycle.trans h.cycle, fun n t ht => ?_⟩
  obtain ⟨t', h1, a⟩ := h.teams n t ht
  obtain ⟨t'', h2, b⟩ := k.teams n t' h1
  exact ⟨t'', h2, a.trans b⟩

theorem Kin.after {s u v : State} (k : Kin u v) (hi : u.issue = s.issue) (hc : u.cycle = s.cycle) (ht : u.teams = s.teams) : Kin s v :=
  (Kin.of_eq hi hc ht).trans k

theorem Kin.before {s u v : State} (k : Kin s u) (hi : v.issue = u.issue) (hc : v.cycle = u.cycle) (ht : v.teams = u.teams) : Kin s v :=
  k.trans (Kin.of_eq hi hc ht)

theorem Kin.fold {α : Type} {f : State → α → State} (h : ∀ s a, Kin s (f s a)) (l : List α) (s : State) : Kin s (l.foldl f s) := by
  induction l generalizing s with
  | nil => exact .refl s
  | cons a t ih => exact (h s a).trans (ih (f s a))

/-- A change of one team that keeps its courses. -/
theorem kin_modify (s : State) (k : Nat) (f : Team → Team) (h : ∀ t : Team, t.Akin (f t)) : Kin s { s with teams := FMap.modify s.teams k f } := by
  refine ⟨rfl, rfl, fun n t ht => ?_⟩
  by_cases e : n = k
  · subst e
    refine ⟨f t, ?_, h t⟩
    show FMap.get (FMap.modify s.teams n f) n = _
    rw [FMap.get_modify_same, ht]; rfl
  · exact ⟨t, by show FMap.get (FMap.modify s.teams k f) n = _; rw [FMap.get_modify_ne _ _ e]; exact ht, .refl t⟩

theorem kin_setTeam {s : State} {k : Nat} {t u : Team} (ht : FMap.get s.teams k = some t) (h : t.Akin u) : Kin s (s.setTeam k u) := by
  refine ⟨rfl, rfl, fun n v hv => ?_⟩
  by_cases e : n = k
  · subst e
    rw [ht] at hv; cases hv
    exact ⟨u, FMap.get_set_same _ _ _, h⟩
  · exact ⟨v, by show FMap.get (FMap.set s.teams k u) n = _; rw [FMap.get_set_ne _ _ e]; exact hv, .refl v⟩

theorem kin_onThread (s : State) (tk c l : Nat) (f : Thread → Thread) : Kin s (s.onThread tk c l f) := by
  refine kin_modify s tk _ fun t d x hx => ?_
  by_cases e : d = c
  · subst e
    refine ⟨{ x with threads := FMap.modify x.threads l f }, ?_, ⟨_, rfl, FMap.keys_modify _ _ _⟩⟩
    dsimp only
    rw [FMap.get_modify_same, hx, Option.map_some]
  · exact ⟨x, by dsimp only; rw [FMap.get_modify_ne _ _ e]; exact hx, .refl x⟩

theorem kin_onWho (s : State) (w : Who) (f : Thread → Thread) : Kin s (s.onWho w f) := by
  unfold State.onWho
  exact .fold (fun s l => kin_onThread s _ _ l f) _ s

theorem kin_setCore (s : State) (k : Nat) (c : Core) : Kin s (s.setCore k c) := .of_eq rfl rfl rfl
theorem kin_setPart (s : State) (k : Nat) (p : Partition) : Kin s (s.setPart k p) := .of_eq rfl rfl rfl
theorem kin_setSlice (s : State) (k : Nat) (x : Slice) : Kin s (s.setSlice k x) := .of_eq rfl rfl rfl
theorem kin_due (s : State) (e : Instr) : Kin s (s.due e) := .of_eq rfl rfl rfl

/-! ## Memory -/

theorem kin_mapTeams (s : State) (f : Team → Team) (h : ∀ t : Team, t.Akin (f t)) : Kin s { s with teams := s.teams.map fun p => (p.1, f p.2) } := by
  refine ⟨rfl, rfl, fun k t ht => ⟨f t, ?_, h t⟩⟩
  have e := FMap.get_map s.teams k fun _ (x : Team) => f x
  rw [ht] at e
  exact e

theorem akin_mapCourses (t : Team) (f : Course → Course) (h : ∀ x : Course, x.Akin (f x)) : t.Akin { t with courses := t.courses.map fun q => (q.1, f q.2) } := by
  intro c x hx
  have e := FMap.get_map t.courses c fun _ (y : Course) => f y
  rw [hx] at e
  exact ⟨f x, e, h x⟩

theorem kin_fireMonitors (s : State) (dev : Option Nat) (line : Nat) : Kin s (s.fireMonitors dev line) :=
  kin_mapTeams s (fun t => t.hear dev line) fun t => akin_mapCourses t (fun x => x.hear dev line) fun _ => ⟨_, rfl, FMap.keys_mapVals _ _ fun _ _ => rfl⟩

theorem kin_performDirty (s : State) (core line : Nat) : Kin s (s.performDirty core line) := by
  unfold State.performDirty
  dsimp only
  split
  · exact .refl s
  · split
    · exact kin_setCore _ _ _
    · exact .after (kin_fireMonitors _ none line) rfl rfl rfl

theorem kin_recall (s : State) (line : Nat) (e : Option Nat) : Kin s (s.recall line e) := by
  unfold State.recall
  dsimp only
  exact .fold (fun s k => (kin_performDirty s k line).trans (kin_setCore _ _ _)) _ s

theorem kin_recallAll (s : State) (ls : List Nat) (e : Option Nat) : Kin s (ls.foldl (fun s l => s.recall l e) s) :=
  .fold (fun s l => kin_recall s l e) _ s

theorem kin_homeWrite (s : State) (pa : Nat) (b : List Byte) : Kin s (s.homeWrite pa b) := by
  unfold State.homeWrite
  dsimp only
  exact (kin_recallAll s _ none).trans (.after (.fold (fun s l => kin_fireMonitors s none l) _ _) rfl rfl rfl)

theorem kin_l1Fill (s : State) (core a : Nat) : Kin s (s.l1Fill core a) := by
  unfold State.l1Fill
  dsimp only
  split
  · exact .refl s
  · exact kin_setCore _ _ _

theorem kin_l1Read (s : State) (core pa n : Nat) : Kin s (s.l1Read core pa n).1 := by
  unfold State.l1Read
  dsimp only
  split
  · exact .refl s
  · exact .fold (fun s a => kin_l1Fill s core a) _ s

theorem kin_l1Write (s : State) (core pa : Nat) (b : List Byte) : Kin s (s.l1Write core pa b) := kin_setCore _ _ _

theorem kin_writeBack (s : State) (core line : Nat) : Kin s (s.writeBack core line) := by
  unfold State.writeBack
  split
  · exact .refl s
  · exact (kin_recall s line _).trans (kin_performDirty _ core line)

theorem kin_writeBackAll (s : State) (core : Nat) : Kin s (s.writeBackAll core) := by
  unfold State.writeBackAll
  exact .fold (fun s (p : Nat × L1Line) => kin_writeBack s core p.1) _ s
theorem kin_invalidateClean (s : State) (core : Nat) : Kin s (s.invalidateClean core) := kin_setCore _ _ _

theorem kin_own (s : State) (core line : Nat) : Kin s (s.own core line) := by
  unfold State.own
  dsimp only
  split
  · exact kin_recall _ _ _
  · exact (kin_recall s line _).trans (kin_setCore _ _ _)

theorem kin_dropBytes (s : State) (core pa n : Nat) : Kin s (s.dropBytes core pa n) := kin_setCore _ _ _

theorem kin_ownReach (s : State) (core pa n : Nat) (recalls : Bool) : Kin s (s.ownReach core pa n recalls) := by
  unfold State.ownReach
  refine .trans (.fold (fun s l => ?_) _ s) (kin_dropBytes _ _ _ _)
  split
  · exact (kin_recall s l none).trans (kin_writeBack _ core l)
  · exact kin_writeBack _ core l

theorem kin_forgetUnit (s : State) (unit : Nat) : Kin s (s.forgetUnit unit) := by
  unfold State.forgetUnit
  dsimp only
  split
  · exact .of_eq rfl rfl rfl
  · exact .of_eq rfl rfl rfl

theorem kin_notePage (s : State) (unit part page : Nat) (b : Bool) : Kin s (s.notePage unit part page b) := .of_eq rfl rfl rfl

theorem kin_seePage (s : State) (part : Nat) (dev : Option Nat) (va pa : Nat) (b : Bool) : Kin s (s.seePage part dev va pa b) := by
  unfold State.seePage
  dsimp only
  split
  · exact (kin_forgetUnit s _).trans (kin_notePage _ _ _ _ _)
  · exact kin_notePage _ _ _ _ _
  · exact kin_notePage _ _ _ _ _
  · split
    · exact kin_notePage _ _ _ _ _
    · exact .refl s
  · exact .refl s
  · exact .refl s
theorem kin_homeRead (s : State) (core pa n : Nat) : Kin s (s.homeRead core pa n).1 := by
  unfold State.homeRead
  exact kin_recallAll s _ none

theorem kin_remoteWrite (s : State) (dev pa : Nat) (b : List Byte) : Kin s (s.remoteWrite dev pa b) := by
  unfold State.remoteWrite
  split
  · exact kin_homeWrite _ _ _
  · dsimp only
    exact .after (.fold (fun s l => kin_fireMonitors s _ l) _ _) rfl rfl rfl

theorem kin_translate (s : State) (core : Option Nat) (part : Nat) (user : Bool) (m : AccMode) (va : W64) : Kin s (s.translate core part user m va).1 := by
  unfold State.translate
  split
  · exact .refl s
  · dsimp only
    split
    · exact .refl s
    · split
      · exact .refl s
      · cases core
        · exact .refl s
        · dsimp only
          split
          · exact kin_setCore _ _ _
          · exact .refl s

theorem kin_readClock (s : State) (d : Nat) : Kin s (s.readClock d).1 := .of_eq rfl rfl rfl

theorem kin_postError (s : State) (hit : Nat → Bool) (a b c d e f g : Nat) : Kin s (s.postError hit a b c d e f g) := by
  unfold State.postError
  dsimp only
  refine (kin_readClock s 0).trans (Kin.before (u := List.foldl _ _ _) (Kin.fold (fun s k => ?_) _ _) rfl rfl rfl)
  exact .of_eq rfl rfl rfl

theorem kin_logError (s : State) (a b c d e f g : Nat) : Kin s (s.logError a b c d e f g) := kin_postError _ _ _ _ _ _ _ _ _

theorem kin_logPoison (s : State) (pa n va slice : Nat) : Kin s (s.logPoison pa n va slice) := by
  unfold State.logPoison
  refine .fold (fun s g => ?_) _ s
  split <;> exact kin_logError s _ _ _ _ _ _ _

theorem kin_meetPoison (s : State) (w : Who) (pa n : Nat) (a : W64) : Kin s (s.meetPoison w pa n a).1 := by
  unfold State.meetPoison
  dsimp only
  split
  · exact (kin_logError s _ _ _ _ _ _ _).trans (kin_logPoison _ _ _ _ _)
  · exact kin_logPoison _ _ _ _ _

theorem kin_meetPoisonAt (s : State) (w : Who) (dev : Option Nat) (pa n : Nat) (a : W64) : Kin s (s.meetPoisonAt w dev pa n a).1 := by
  unfold State.meetPoisonAt
  split
  · exact kin_meetPoison _ _ _ _ _
  · exact .refl s

theorem kin_releaseActs (s : State) (w : Who) (sc : Scope) (a : W64) : Kin s (s.releaseActs w sc a).1 := by
  unfold State.releaseActs
  dsimp only
  split
  · exact kin_writeBackAll _ _
  · exact .refl s

theorem kin_ticket (s : State) : Kin s s.ticket := .of_eq rfl rfl rfl
theorem kin_acquireActs (s : State) (w : Who) (sc : Scope) : Kin s (s.acquireActs w sc) := by
  unfold State.acquireActs
  split
  · exact kin_invalidateClean _ _
  · exact .refl s

/-! ## Instruction accesses -/

/-- What holds of both branches holds of the choice. -/
theorem apply_ite_prop {α : Type} {p : α → Prop} {c : Prop} [Decidable c] {x y : α} (hx : p x) (hy : p y) : p (if c then x else y) := by
  split
  · exact hx
  · exact hy

theorem kin_sendRemote (s : State) (w : Who) (dev pa : Nat) (b : List Byte) : Kin s (s.sendRemote w dev pa b) := by
  unfold State.sendRemote
  have k := (apply_ite_prop (p := Kin s) (c := dev = s.devNumber) (kin_dropBytes s w.core pa b.length) (.refl s)).trans (kin_remoteWrite _ dev pa b)
  dsimp only
  generalize State.remoteWrite (if dev = s.devNumber then s.dropBytes w.core pa b.length else s) dev pa b = u at k ⊢
  split
  · exact k
  · exact (k.trans (kin_onWho _ w _)).before rfl rfl rfl

theorem kin_atomRead (s : State) (core pa n : Nat) : Kin s (s.atomRead core pa n).1 := by
  unfold State.atomRead
  exact .fold (fun s l => (kin_recall s l none).trans (kin_writeBack _ _ _)) _ s

theorem kin_performAtomic (s : State) (w : Who) (a : Access) (x : Xlat) (args : List Byte) : Kin s (s.performAtomic w a x args).1 := by
  unfold State.performAtomic
  dsimp only
  split
  · rename_i dev _ _
    have k0 := apply_ite_prop (p := Kin s) (c := dev = s.devNumber) (kin_ownReach s w.core x.pa a.kind.size true) (.refl s)
    split
    · exact k0.trans (kin_sendRemote _ _ _ _ _)
    · exact k0
  · split
    · have k := (kin_atomRead s w.core x.pa a.kind.size).trans (kin_dropBytes (s.atomRead w.core x.pa a.kind.size).1 w.core x.pa a.kind.size)
      split
      · exact k.trans (kin_homeWrite _ _ _)
      · exact k
    · have k1 : Kin s (if a.homeReads then s.recall (lineOf x.pa) none else s) := by
        split
        · exact kin_recall _ _ _
        · exact .refl s
      have k2 := (k1.trans (kin_own _ w.core (lineOf x.pa))).trans (kin_l1Read _ w.core x.pa a.kind.size)
      split
      · exact k2.trans (kin_l1Write _ _ _ _)
      · exact k2

theorem kin_performAtom (s : State) (w : Who) (a : Access) (x : Xlat) (q : LaneAcc) :
    Kin s (let s := if s.isOwn (x.remote.map Prod.fst) then (linesOf x.pa a.kind.size).foldl (fun s l => s.recall l (some w.core)) s else s
      if if s.isOwn (x.remote.map Prod.fst) then s.homePoisoned w.core x.pa a.kind.size else s.poisonAt (x.remote.map Prod.fst) x.pa a.kind.size
      then s.meetPoisonAt w (x.remote.map Prod.fst) x.pa a.kind.size q.addr
      else ((s.performAtomic w a x q.data).1, LaneRes.done (wordsOf (s.performAtomic w a x q.data).2)) : State × LaneRes).1 := by
  have k := apply_ite_prop (p := Kin s) (c := s.isOwn (x.remote.map Prod.fst) = true)
    (kin_recallAll s (linesOf x.pa a.kind.size) (some w.core)) (.refl s)
  refine k.trans ?_
  dsimp only
  exact apply_ite_prop (p := fun z : State × LaneRes => Kin _ z.1) (kin_meetPoisonAt _ _ _ _ _ _) (kin_performAtomic _ _ _ _ _)

theorem kin_perform (s : State) (w : Who) (a : Access) (x : Xlat) (q : LaneAcc) : Kin s (s.perform w a x q).1 := by
  unfold State.perform
  dsimp only
  split
  · split
    · rename_i size _ _ _ dev _ _
      refine (apply_ite_prop (p := Kin s) (c := dev = s.devNumber) (kin_ownReach s w.core x.pa size a.homeReads) (.refl s)).trans ?_
      exact apply_ite_prop (p := fun z : State × LaneRes => Kin _ z.1) (kin_meetPoisonAt _ _ _ _ _ _) (.refl _)
    · split
      · split
        · exact kin_meetPoison _ _ _ _ _
        · exact .refl s
      · split
        · have k := kin_homeRead s w.core x.pa (by assumption)
          split
          · exact k.trans (kin_meetPoison _ _ _ _ _)
          · exact k
        · split
          · exact kin_meetPoison _ _ _ _ _
          · exact kin_l1Read _ _ _ _
  · split
    · exact kin_sendRemote _ _ _ _ _
    · split
      · exact (kin_dropBytes _ _ _ _).trans (kin_homeWrite _ _ _)
      · exact kin_l1Write _ _ _ _
  · exact kin_performAtom s w a x q
  · exact kin_performAtom s w a x q
  · exact kin_onWho _ _ _
  all_goals exact .refl s

theorem kin_nextStamp (s : State) (die lu : Nat) : Kin s (s.nextStamp die lu).1 := .of_eq rfl rfl rfl
theorem kin_issueStamped (s : State) (x : StampedStore) : Kin s (s.issueStamped x).1 := .of_eq rfl rfl rfl
theorem kin_intervalOk (s : State) (die : Nat) (dom : StampDom) : Kin s (s.intervalOk die dom).1 := by
  unfold State.intervalOk
  cases dom <;> exact kin_readClock s die

theorem kin_performSts (s : State) (w : Who) (x : Xlat) (dom : StampDom) (lu : Nat) (q : LaneAcc) (n : Nat) : Kin s (s.performSts w x dom lu q n).1 := by
  unfold State.performSts
  exact ((kin_nextStamp s _ _).trans (kin_issueStamped _ _)).trans (kin_onWho _ _ _)

theorem kin_peerVersion (s : State) (part dev line stamp : Nat) : Kin s (s.peerVersion part dev line stamp).1 := by
  unfold State.peerVersion
  dsimp only
  split
  · exact .refl s
  · split
    · exact .refl s
    · exact .of_eq rfl rfl rfl

theorem kin_performLda (s : State) (w : Who) (x : Xlat) (dom : StampDom) (q : LaneAcc) (n : Nat) : Kin s (s.performLda w x dom q n).1 := by
  unfold State.performLda
  dsimp only
  split
  · exact .refl s
  · refine apply_ite_prop (p := fun z : State × LaneRes => Kin s z.1) ?_ ?_
    · split
      · split
        · exact kin_meetPoison _ _ _ _ _
        · exact .refl s
      · exact .refl s
    · exact apply_ite_prop (p := fun z : State × LaneRes => Kin s z.1) (kin_peerVersion _ _ _ _ _) (kin_peerVersion _ _ _ _ _)

theorem kin_issueCmd (s : State) (key ctx : Nat) (k : CmdKind) : Kin s (s.issueCmd key ctx k).1 := by
  unfold State.issueCmd
  split
  · exact .refl s
  · exact Kin.of_eq rfl rfl rfl

theorem kin_performCopySt (s : State) (w : Who) (dom : StampDom) (lu : Nat) (q : LaneAcc) : Kin s (s.performCopySt w dom lu q).1 := by
  unfold State.performCopySt
  split
  · exact .refl s
  · dsimp only
    split
    · exact .refl s
    · refine .trans ?_ (kin_onWho _ _ _)
      exact ((kin_nextStamp s _ _).trans (kin_issueCmd _ _ _ _)).trans (Kin.of_eq rfl rfl rfl)

theorem kin_fetchHome (s : State) (w : Who) (x : Xlat) (a : W64) (k : Nat) : Kin s (s.fetchHome w x a k).1 := by
  unfold State.fetchHome
  dsimp only
  split
  · exact .refl s
  · split
    · exact .refl s
    · exact .refl s
    · exact apply_ite_prop (p := fun z : State × Except LaneRes (List Byte) => Kin s z.1) (kin_meetPoisonAt _ _ _ _ _ _) (.refl s)

theorem kin_fetchPiece (s : State) (w : Who) (x : Xlat) (a : W64) (k : Nat) : Kin s (s.fetchPiece w x a k).1 := by
  unfold State.fetchPiece
  have kd := kin_fetchHome s w x a k
  split
  · exact .refl _
  · split
    · exact kd
    · split
      · exact .refl _
      · generalize s.fetchHome w x a k = z at kd
        obtain ⟨s2, r2⟩ := z
        cases r2 with
        | error e => exact kd
        | ok b =>
          dsimp only
          split
          · exact kd
          · exact kd.trans (kin_setCore _ _ _)

theorem kin_fetchBytes (fuel : Nat) (s : State) (w : Who) (va n : Nat) : Kin s (s.fetchBytes w va n fuel).1 := by
  induction fuel generalizing s va n with
  | zero => exact .refl s
  | succ fuel ih =>
    unfold State.fetchBytes
    split
    · exact .refl s
    · dsimp only
      have k := kin_translate s (some w.core) w.part w.user .read (BitVec.ofNat 64 va)
      generalize s.translate (some w.core) w.part w.user .read (BitVec.ofNat 64 va) = r at k
      obtain ⟨s1, r⟩ := r
      cases r with
      | error e => cases e <;> exact k
      | ok x =>
        dsimp only at k ⊢
        have kg := kin_fetchPiece s1 w x (BitVec.ofNat 64 va) (min n (128 - va % 128))
        generalize s1.fetchPiece w x (BitVec.ofNat 64 va) (min n (128 - va % 128)) = got at kg
        obtain ⟨s3, g⟩ := got
        cases g with
        | error e => exact k.trans kg
        | ok b =>
          dsimp only
          have k4 := ih s3 (va + min n (128 - va % 128)) (n - min n (128 - va % 128))
          generalize s3.fetchBytes w (va + min n (128 - va % 128)) (n - min n (128 - va % 128)) fuel = z at k4
          obtain ⟨s4, z⟩ := z
          cases z <;> exact (k.trans kg).trans k4

theorem kin_fetchAt (s : State) (w : Who) (va n : Nat) : Kin s (s.fetchAt w va n).1 := kin_fetchBytes _ _ _ _ _

theorem kin_fetchSegment (s : State) (w : Who) (f : MFmt) (h : MHandle) (r c : Nat) : Kin s (s.fetchSegment w f h r c).1 := by
  unfold State.fetchSegment
  dsimp only
  have take : ∀ (s : State) (va n : Nat) (g : List Byte → Nat × Bool),
      Kin s (match s.fetchAt w va n with | (s, .error e) => (s, Except.error e) | (s, .ok b) => (s, .ok (g b)) : State × Except LaneRes (Nat × Bool)).1 := by
    intro s va n g
    have k := kin_fetchAt s w va n
    generalize s.fetchAt w va n = z at k
    obtain ⟨s4, z⟩ := z
    cases z <;> exact k
  split
  · exact .refl s
  · split
    · exact take _ _ _ fun b => (_, true)
    · have k := kin_fetchAt s w (h.index + r * ceilDiv h.cols (mDepth f / 4) / 8)
        ((r * ceilDiv h.cols (mDepth f / 4) + c / (mDepth f / 4)) / 8 - r * ceilDiv h.cols (mDepth f / 4) / 8 + 1)
      generalize s.fetchAt w (h.index + r * ceilDiv h.cols (mDepth f / 4) / 8)
        ((r * ceilDiv h.cols (mDepth f / 4) + c / (mDepth f / 4)) / 8 - r * ceilDiv h.cols (mDepth f / 4) / 8 + 1) = z at k
      obtain ⟨s4, z⟩ := z
      cases z with
      | error e => exact k
      | ok b =>
        dsimp only
        split
        · exact k
        · exact k.trans (take _ _ _ fun b => (_, true))

theorem kin_readAll {α β : Type} {f : State → α → State × Except LaneRes β} (h : ∀ s a, Kin s (f s a).1) (l : List α) (s : State) :
    Kin s (readAll f s l).1 := by
  induction l generalizing s with
  | nil => exact .refl s
  | cons a t ih =>
    unfold readAll
    have k := h s a
    generalize f s a = z at k
    obtain ⟨s1, z⟩ := z
    cases z with
    | error e => exact k
    | ok b =>
      dsimp only
      have k2 := ih s1
      generalize readAll f s1 t = y at k2
      obtain ⟨s2, y⟩ := y
      cases y <;> exact k.trans k2

theorem kin_fetchScale (s : State) (w : Who) (h : MHandle) (r b : Nat) : Kin s (s.fetchScale w h r b).1 := by
  unfold State.fetchScale
  split
  · exact .refl s
  · have k := kin_fetchAt s w (h.scales + r * ceilDiv h.cols 32 + b) 1
    generalize s.fetchAt w (h.scales + r * ceilDiv h.cols 32 + b) 1 = z at k
    obtain ⟨s1, z⟩ := z
    cases z <;> exact k

theorem kin_fetchLane (s : State) (w : Who) (f : MFmt) (a : W64) (r c : W32) : Kin s (s.fetchLane w f a r c).1 := by
  unfold State.fetchLane
  have k := kin_fetchAt s w a.toNat 64
  generalize s.fetchAt w a.toNat 64 = z at k
  obtain ⟨s1, z⟩ := z
  cases z with
  | error e => exact k
  | ok hb =>
    dsimp only
    have k2 := kin_readAll (fun s (g : Nat) => kin_fetchSegment s w f (handleOf hb) r.toNat (c.toNat / mDepth f * mDepth f + g * (mDepth f / 4))) [0, 1, 2, 3] s1
    generalize readAll (fun s (g : Nat) => State.fetchSegment s w f (handleOf hb) r.toNat (c.toNat / mDepth f * mDepth f + g * (mDepth f / 4))) s1 [0, 1, 2, 3] = z at k2
    obtain ⟨s2, z⟩ := z
    cases z with
    | error e => exact k.trans k2
    | ok segs =>
      dsimp only
      have k3 := kin_readAll (fun s (b : Nat) => kin_fetchScale s w (handleOf hb) r.toNat (c.toNat / mDepth f * mDepth f / 32 + b))
        (if f.scaleNames = 0 then [] else List.range (ceilDiv (mDepth f) 32)) s2
      generalize readAll (fun s (b : Nat) => State.fetchScale s w (handleOf hb) r.toNat (c.toNat / mDepth f * mDepth f / 32 + b)) s2
        (if f.scaleNames = 0 then [] else List.range (ceilDiv (mDepth f) 32)) = z at k3
      obtain ⟨s3, z⟩ := z
      cases z <;> exact (k.trans k2).trans k3

theorem kin_accessLane (s : State) (w : Who) (a : Access) (q : LaneAcc) : Kin s (s.accessLane w a q).1 := by
  unfold State.accessLane
  split
  · exact kin_fetchLane _ _ _ _ _ _
  · dsimp only
    split
    · exact .refl s
    · have k := kin_translate s (some w.core) w.part w.user a.kind.mode q.addr
      generalize s.translate (some w.core) w.part w.user a.kind.mode q.addr = z at k
      obtain ⟨s1, z⟩ := z
      cases z with
      | error e => cases e <;> exact k
      | ok x =>
        dsimp only at k ⊢
        replace k := k.trans (kin_seePage s1 w.part (x.remote.map Prod.fst) q.addr.toNat x.pa x.stamped)
        generalize s1.seePage w.part (x.remote.map Prod.fst) q.addr.toNat x.pa x.stamped = s1 at k
        split
        · exact k
        · exact k
        · exact apply_ite_prop (p := fun z : State × LaneRes => Kin s z.1) k k
        · split
          · exact k
          · have stamp : ∀ (g : State → Nat → State × LaneRes), (∀ s n, Kin s (g s n).1) → Kin s
              (match s1.intervalOk (dieOfCore w.core) (s1.stampDom w.part x.domain) with
                | (s, false, _) => (s, .fault .intervalWide 0 q.addr)
                | (s, true, lu) => g s lu : State × LaneRes).1 := by
              intro g hg
              have k2 := kin_intervalOk s1 (dieOfCore w.core) (s1.stampDom w.part x.domain)
              generalize s1.intervalOk (dieOfCore w.core) (s1.stampDom w.part x.domain) = z at k2
              obtain ⟨s2, b, n⟩ := z
              cases b
              · exact k.trans k2
              · exact (k.trans k2).trans (hg s2 n)
            split
            · exact stamp _ fun s n => kin_performSts _ _ _ _ _ _ _
            · exact apply_ite_prop (p := fun z : State × LaneRes => Kin s z.1) (k.trans (kin_performLda _ _ _ _ _ _))
                (stamp _ fun s n => kin_performLda _ _ _ _ _ _)
            · refine stamp _ fun s n => ?_
              have k3 := kin_releaseActs s w .dv q.addr
              generalize s.releaseActs w .dv q.addr = z at k3
              obtain ⟨s3, z⟩ := z
              cases z with
              | some r => exact k3
              | none => exact k3.trans (kin_performCopySt _ _ _ _ _)
            · generalize hp : (if (Order.releases a.order) then s1.releaseActs w a.scope q.addr else (s1, none)) = pre
              have kp : Kin s1 pre.1 := by
                rw [← hp]
                split
                · exact kin_releaseActs _ _ _ _
                · exact .refl _
              obtain ⟨s2, r⟩ := pre
              cases r with
              | some r => exact k.trans kp
              | none =>
                dsimp only
                have kt : Kin s2 (if a.order == .sc then s2.ticket else s2) := by
                  split
                  · exact kin_ticket _
                  · exact .refl _
                have kf := kin_perform (if a.order == .sc then s2.ticket else s2) w a x q
                generalize State.perform (if a.order == .sc then s2.ticket else s2) w a x q = z at kf
                obtain ⟨s3, z⟩ := z
                have all := ((k.trans kp).trans kt).trans kf
                cases z with
                | done v =>
                  dsimp only
                  split
                  · exact all.trans (kin_acquireActs _ _ _)
                  · exact all
                | fault _ _ _ => exact all
                | logged _ _ => exact all
                | wait _ => exact all

end Sys2Proof.Machine
end

