-- ==== Sys2Proof/Laws/Result.lean ====
section
/-!
SUPPORT. Lane-set, uniform-set and group units that complete, on the state: one lemma each, from the course (Unit.lean) and the issue
(Issue.lean).
-/

namespace Sys2Proof.Machine

/-! ## Going on -/

theorem onward_live (c : Course) (ls : List Nat) (pc : W64) (now : Nat) : (c.onward ls pc now).live = c.live :=
  map_ite_keys c.threads (fun l => ls.contains l) fun _ (t : Thread) => t.goto pc now

theorem onward_get (c : Course) (ls : List Nat) (pc : W64) (now l : Nat) :
    FMap.get (c.onward ls pc now).threads l = (FMap.get c.threads l).map fun t => if ls.contains l then t.goto pc now else t :=
  map_ite_get c.threads (fun l => ls.contains l) (fun _ (t : Thread) => t.goto pc now) l

theorem onward_frame {x y : Course} {regs ents lanes lasts lift ls : List Nat} {pipe : Nat → Prop} {u : Nat → Thread → Thread}
    (h : CourseFrame x y regs ents lanes lasts lift pipe u) (pc : W64) (now : Nat) :
    CourseFrame x (y.onward ls pc now) regs ents lanes lasts lift pipe fun l t => if ls.contains l then (u l t).goto pc now else u l t := by
  have row : ∀ n l, regRow (y.onward ls pc now) n l = regRow y n l := by
    intro n l; unfold regRow; rw [onward_live]; rfl
  have free : ∀ n l, regFree (y.onward ls pc now) n l = regFree y n l := fun _ _ => rfl
  refine ⟨(onward_live ..).trans h.live, ?_, ?_, h.entries, h.latches, ?_, h.rest⟩
  · intro n l hl h1 h2; rw [row, free]; exact h.kept n l hl h1 h2
  · intro n hn l hl hv hw; rw [row, free]; exact h.last n hn l hl hv hw
  · intro l th hth
    obtain ⟨sv, e, k⟩ := h.threads l th hth
    refine ⟨sv, ?_, ?_⟩
    · rw [onward_get, e]
      simp only [Option.map_some, Option.some.injEq]
      split <;> rfl
    · intro z hz
      apply k
      split at hz <;> exact hz

theorem onward_saved (y : Course) (ls : List Nat) (pc : W64) (now l k : Nat) :
    ((FMap.get (y.onward ls pc now).threads l).bind fun t => t.savedFor k) = (FMap.get y.threads l).bind fun t => t.savedFor k := by
  rw [onward_get]
  cases FMap.get y.threads l with
  | none => rfl
  | some t => simp only [Option.map_some, Option.bind_some]; split <;> rfl

/-- Going on changes no latch view. -/
theorem onward_latchView (y : Course) (ls : List Nat) (pc : W64) (now : Nat) (gens : List Nat) (wide : Bool) (k : Nat) :
    latchView (y.onward ls pc now) gens wide k = latchView y gens wide k := by
  have sv := onward_saved y ls pc now
  have one : ∀ p : Nat × Thread, (if ls.contains p.1 then (p.1, p.2.goto pc now) else p).2.savedFor k = p.2.savedFor k ∧
      (if ls.contains p.1 then (p.1, p.2.goto pc now) else p).1 = p.1 := by
    intro p; split <;> exact ⟨rfl, rfl⟩
  have any : ∀ g : Option SavedLatch → Bool,
      ((y.onward ls pc now).threads.any fun p => g (p.2.savedFor k)) = y.threads.any fun p => g (p.2.savedFor k) := by
    intro g
    show ((y.threads.map _).any _) = _
    rw [List.any_map]
    congr 1; funext p
    exact congrArg g (one p).1
  have fm : ((y.onward ls pc now).threads.filterMap fun p => (p.2.savedFor k).map fun sv => (p.1, sv)) =
      y.threads.filterMap fun p => (p.2.savedFor k).map fun sv => (p.1, sv) := by
    show ((y.threads.map _).filterMap _) = _
    rw [List.filterMap_map]
    congr 1; funext p
    show Option.map _ (Thread.savedFor _ k) = _
    rw [(one p).1, (one p).2]
  have base : (y.onward ls pc now).latchBase k = y.latchBase k := by
    unfold Course.latchBase
    rw [any fun o => o.isNone, fm]
    rfl
  have none' : ∀ l, (FMap.get (y.onward ls pc now).threads l).isNone = (FMap.get y.threads l).isNone := by
    intro l; rw [onward_get]; cases FMap.get y.threads l <;> rfl
  unfold latchView
  simp only [sv, base, none', onward_live, any fun o => o.isSome]
  rfl

theorem onward_result {y : Course} {gens lanes ls : List Nat} {wide : Bool} {pipe : Nat} {d : Dst} {v : Nat → W64}
    (h : CourseResult y gens wide pipe d lanes v) (pc : W64) (now : Nat) : CourseResult (y.onward ls pc now) gens wide pipe d lanes v := by
  have row : ∀ n l, regRow (y.onward ls pc now) n l = regRow y n l := by
    intro n l; unfold regRow; rw [onward_live]; rfl
  refine ⟨fun hs l hl => ?_, fun l hl => ?_⟩
  · rw [← h.value hs l hl]
    cases d with
    | reg n => cases wide <;> simp only [dstRead, regView, row, if_true, Bool.false_eq_true, if_false]
    | opf n => rfl
    | sup => rfl
  · rw [onward_latchView]
    exact h.latch l hl

theorem CourseFrame.congr {x y : Course} {regs ents lanes lasts lift : List Nat} {pipe : Nat → Prop} {u v : Nat → Thread → Thread}
    (h : CourseFrame x y regs ents lanes lasts lift pipe u) (e : ∀ l th, FMap.get x.threads l = some th → u l th = v l th) :
    CourseFrame x y regs ents lanes lasts lift pipe v :=
  ⟨h.live, h.kept, h.last, h.entries, h.latches, fun l th k => by rw [← e l th k]; exact h.threads l th k, h.rest⟩

/-! ## The course of a lift -/

theorem contains_lanesIn (ms : List (Nat × Nat)) (c l : Nat) : (lanesIn ms c).contains l = ms.contains (c, l) := by
  rw [Bool.eq_iff_iff, List.contains_iff_mem, List.contains_iff_mem]
  exact mem_lanesIn

theorem fullCourse_all {i : Issue} {c : Nat} {x : Course} (h : fullCourse i c x = true) : ∀ l ∈ x.live, l ∈ lanesIn i.parts c := by
  simp only [fullCourse, Bool.and_eq_true, List.all_eq_true] at h
  intro l hl
  have := h.1.2 l hl
  exact mem_lanesIn.mpr (by simpa using this)

/-- A lift gives each of its courses what a unit needs of it. -/
theorem Lifted.fit {s : State} {t : Team} (h : Lifted s t) (pipe : Nat) {srcs : List Operand} (hr : Readable s t srcs)
    (hp : ∀ o ∈ srcs, o.2.pairOk o.1 = true) {c : Nat} (hc : c ∈ coursesOf s.issue.lift) : (courseIn s t pipe c).Fit srcs := by
  obtain ⟨m, hm, rfl⟩ := mem_coursesOf.mp hc
  refine ⟨h.sound m hm, fun l hl => h.live (m.1, l) (mem_lanesIn.mp hl), fun l hl => ?_, fun hf => fullCourse_all hf, fun ha l hl => ?_, hp, fun l hl o ho => ?_⟩
  · exact mem_lanesIn.mpr (h.parts _ (mem_lanesIn.mp hl))
  · have := List.all_eq_true.mp ha l hl
    exact mem_lanesIn.mpr (by simpa using this)
  · exact hr (m.1, l) (mem_lanesIn.mp hl) o ho

theorem lift_live {s : State} {t : Team} (h : Lifted s t) {c l : Nat} (hl : l ∈ lanesIn s.issue.lift c) : l ∈ (t.course c).live :=
  h.live (c, l) (mem_lanesIn.mp hl)

/-- The generation a result of this unit has, after it. -/
theorem useLatch_gen {c : Core} {pipe : Nat} (hp : pipe < c.latchGen.length) : nth (c.useLatch pipe).latchGen pipe 0 = nth c.latchGen pipe 0 + 1 :=
  nth_set_same _ _ _ _ hp

/-- From what a unit does on each course to what it does on the state. -/
theorem delivers_of {s : State} {t : Team} (hL : Lifted s t) {wide : Bool} {pipe : Nat} {d : Dst} {srcs : List Operand} {free : Nat → Nat → Bool}
    {upd : Nat → Thread → Thread} {v : Nat → Nat → W64} {f : CourseIn → CourseOut} (hp : pipe < 4)
    (h : ∀ gens, (∀ c ∈ coursesOf s.issue.lift, nth gens pipe 0 = (courseIn s t pipe c).gen) → ∀ c ∈ coursesOf s.issue.lift,
      (f (courseIn s t pipe c)).reqs = [] ∧
      CourseFrame (t.course c) (f (courseIn s t pipe c)).course (regsOf wide d) (entriesOf wide d) (lanesIn s.issue.parts c) (lastOf srcs)
        (lanesIn s.issue.lift c) (· = pipe) (fun l th =>
          let th := if s.issue.parts.contains (c, l) && free c l then th.setReadFree else th
          if s.issue.parts.contains (c, l) then upd l th else th) ∧
      CourseResult (f (courseIn s t pipe c)).course gens wide pipe d (lanesIn s.issue.parts c) (v c)) :
    ∃ s', s.courseUnit (.result pipe (d == .sup)) f = .next s' ∧ Delivers s s' t wide pipe d srcs free upd v := by
  have hg : ∀ c ∈ coursesOf s.issue.lift, nth ((s.core t.core).useLatch pipe).latchGen pipe 0 = (courseIn s t pipe c).gen :=
    fun c _ => useLatch_gen (by rw [hL.gens]; exact hp)
  have h' := h _ hg
  obtain ⟨s', e, ue⟩ := courseUnit_spec hL.team (.result pipe (d == .sup)) f fun c hc => (h' c hc).1
  refine ⟨s', e, ?_⟩
  have gens : (s'.core t.core).latchGen =
      if s.issue.parts.isEmpty then (s.core t.core).latchGen else ((s.core t.core).useLatch pipe).latchGen := by
    rw [ue.core, unitCore_gens]
  obtain ⟨cs, h1, h2, h3⟩ := ue.courses
  refine ⟨⟨cs, h1, h2, fun c hc => ?_⟩, ue.teams, ue.core, ue.cores, ue.rest⟩
  obtain ⟨x, g, rfl⟩ := h3 c hc
  refine ⟨_, g, ?_, ?_⟩
  · refine (onward_frame (h' c hc).2.1 _ _).congr fun l th _ => ?_
    rw [contains_lanesIn]; rfl
  · rw [gens]
    split
    · rename_i none
      have no : lanesIn s.issue.parts c = [] := by
        rw [List.isEmpty_iff.mp none]; rfl
      rw [no]
      exact ⟨fun _ _ hl => absurd hl (List.not_mem_nil), fun _ hl => absurd hl (List.not_mem_nil)⟩
    · exact onward_result (h' c hc).2.2 _ _

/-- From what a unit that writes no register does on each course to what it does on the state. -/
theorem touches_of {s : State} {t : Team} (hL : Lifted s t) {pipe : Nat} {srcs : List Operand} {free : Nat → Nat → Bool}
    {upd : Nat → Nat → Thread → Thread} {f : CourseIn → CourseOut}
    (h : ∀ c ∈ coursesOf s.issue.lift, ∃ y, f (courseIn s t 0 c) = ⟨y, []⟩ ∧
      CourseFrame (t.course c) y [] [] (lanesIn s.issue.parts c) (lastOf srcs) (lanesIn s.issue.lift c) (· = pipe) (fun l th =>
          let th := if s.issue.parts.contains (c, l) && free c l then th.setReadFree else th
          if s.issue.parts.contains (c, l) then upd c l th else th) ∧
      ∀ gens, ∀ l ∈ lanesIn s.issue.parts c, (latchView y gens false pipe).stale l = true) :
    ∃ s', s.courseUnit .none f = .next s' ∧ Touches s s' t pipe srcs free upd := by
  have hr : ∀ c ∈ coursesOf s.issue.lift, (f (courseIn s t LatchUse.none.at c)).reqs = [] := by
    intro c hc
    obtain ⟨y, e, _⟩ := h c hc
    show (f (courseIn s t 0 c)).reqs = []
    rw [e]
  obtain ⟨s', e, ue⟩ := courseUnit_spec hL.team .none f hr
  refine ⟨s', e, ?_⟩
  obtain ⟨cs, h1, h2, h3⟩ := ue.courses
  refine ⟨⟨cs, h1, h2, fun c hc => ?_⟩, ue.teams, ue.core, ue.cores, ue.rest⟩
  obtain ⟨x, g, rfl⟩ := h3 c hc
  obtain ⟨y, ey, fr, lt⟩ := h c hc
  refine ⟨_, g, ?_, ?_⟩
  · unfold afterUnit
    show CourseFrame _ ((f (courseIn s t 0 c)).course.onward _ _ _) _ _ _ _ _ _ _
    rw [ey]
    refine (onward_frame fr _ _).congr fun l th _ => ?_
    rw [contains_lanesIn]; rfl
  · intro l hl
    have e : afterUnit s t LatchUse.none.at f c = y.onward (lanesIn s.issue.lift c) s.issue.next s.cycle := by
      show (f (courseIn s t 0 c)).course.onward _ _ _ = _
      rw [ey]
    rw [e]
    have k := lt (s'.core t.core).latchGen l hl
    rw [onward_latchView]
    exact k

/-! ## Lane-set computations -/

theorem alu_spec {s : State} {t : Team} (hL : Lifted s t) {sp : AluSpec} {d : Dst} {srcs : List Operand} (f : List W64 → W64)
    (hr : Readable s t srcs) (hd : d.pairOk sp.wide = true) (hs : ∀ o ∈ srcs, o.2.pairOk o.1 = true) (hp : sp.pipe < 4) :
    ∃ s', s.alu sp d srcs f = .next s' ∧ Delivers s s' t sp.wide sp.pipe d srcs (freeRead s t sp.third sp.wide d srcs) (fun _ th => th)
      fun c l => f (s.values t sp.third sp.wide d srcs c l) := by
  apply delivers_of hL hp
  intro gens hg c hc
  obtain ⟨a, b, e⟩ := aluCourse_spec (f := f) (hL.fit sp.pipe hr hs hc) hd hp gens (hg c hc)
  refine ⟨a, b.congr fun l th _ => ?_, e⟩
  show (if (lanesIn s.issue.parts c).contains l && _ then _ else _) = _
  rw [contains_lanesIn]
  simp only [ite_self]
  rfl

theorem laneFn_spec {s : State} {t : Team} (hL : Lifted s t) {fn : Fn} {d : Dst} {srcs : List Src} (hr : Readable s t (fn.tys.zip srcs))
    (hd : d.pairOk fn.wide = true) (hs : ∀ o ∈ fn.tys.zip srcs, o.2.pairOk o.1 = true) (hp : fn.pipe < 4) :
    ∃ s', s.laneFn fn d srcs = .next s' ∧ Delivers s s' t fn.wide fn.pipe d (fn.tys.zip srcs) (freeRead s t fn.third fn.wide d (fn.tys.zip srcs))
      (fun _ th => th) fun c l => fn.f (s.values t fn.third fn.wide d (fn.tys.zip srcs) c l) :=
  alu_spec hL (sp := ⟨fn.wide, fn.pipe, fn.cls, fn.third⟩) fn.f hr hd hs hp

end Sys2Proof.Machine
end

