-- ==== Sys2Proof/Laws/Kinds.lean ====
section
/-!
SUPPORT. What the other kinds of unit do when they complete: predicates, uniform-set computations, group instructions and RAND.
-/

namespace Sys2Proof.Machine

theorem markSources_onThreads (c : Course) (srcs : List Operand) (ls ks : List Nat) (f : Nat → Thread → Thread) :
    (c.markSources srcs ls).onThreads ks f = (c.onThreads ks f).markSources srcs ls := by
  unfold Course.markSources
  generalize (srcs.flatMap fun o => lastNames o.1 o.2) = ns
  induction ns generalizing c with
  | nil => rfl
  | cons n t ih => rw [List.foldl_cons, List.foldl_cons, ih]; rfl

/-- The end of a unit that writes its participating lanes, or none. -/
def CourseIn.write (i : CourseIn) (c1 : Course) (srcs : List Operand) (full wide : Bool) (pipe : Nat) (d : Dst) (r : Result) : Course :=
  let c2 := c1.markSources srcs i.lift
  (if i.parts.isEmpty then c2 else (c2.writeDst full i.parts wide d r).setLatch pipe i.gen i.parts wide d r).reapSources srcs

theorem write_spec {srcs : List Operand} {i : CourseIn} (h : i.Fit []) (hs : ∀ o ∈ srcs, o.2.pairOk o.1 = true) {c1 : Course} {u : Nat → Thread → Thread} (h1 : Updated i.course c1 u)
    {full wide : Bool} {pipe : Nat} {d : Dst} {r : Result} (hd : d.pairOk wide = true) (hp : pipe < 4)
    (hfull : full = true → ∀ l ∈ i.course.live, l ∈ i.parts) (hr : full = true → r.Ok wide i.course.live) (hg : full = false → r.shape = .g)
    (gens : List Nat) (hgen : nth gens pipe 0 = i.gen) :
    CourseFrame i.course (i.write c1 srcs full wide pipe d r) (regsOf wide d) (entriesOf wide d) i.parts (lastOf srcs) i.lift (· = pipe) u ∧
    CourseResult (i.write c1 srcs full wide pipe d r) gens wide pipe d i.parts r.val := by
  obtain ⟨hc, hlt⟩ := Course.sound_ok h.sound
  have hsrc := lastOf_lt_of_ok srcs hs
  obtain ⟨dm, e2, dl, _⟩ := markAll_spec (lastOf srcs) (maskOf i.lift) c1 (by rw [h1.eq]; exact hc.dead) hsrc
  unfold CourseIn.write
  set c2 := c1.markSources srcs i.lift with h2
  have e2' : c2 = { c1 with dead := dm } := e2
  have ok2 : c2.Ok := by
    rw [e2', h1.eq]; exact ⟨hc.names, dl, hc.opf, hc.latches, hc.links, hc.opfLinks⟩
  have live2 : c2.live = i.course.live := by rw [e2']; exact h1.live
  have hpl : ∀ l ∈ i.parts, l ∈ i.course.live := fun l hl => h.lift l (h.parts l hl)
  have hlift : ∀ l ∈ i.lift, l < 32 := fun l hl => hlt l (h.lift l hl)
  by_cases hne : i.parts = []
  · have : i.parts.isEmpty = true := by simp [hne]
    simp only [this, if_true]
    have w : Written c2 c2 (regsOf wide d) (entriesOf wide d) i.parts :=
      ⟨ok2, .refl c2, .same _ rfl, fun _ _ _ _ => rfl, fun _ _ _ _ => rfl, fun _ _ _ _ => rfl, fun _ _ _ _ => ⟨rfl, fun _ => rfl⟩, fun _ _ _ => rfl, .refl c2⟩
    refine ⟨(frame_of_parts hc hlt hsrc hlift h1 w (.refl c2 (· = pipe))).1, ⟨fun _ l hl => ?_, fun l hl => ?_⟩⟩
    · rw [hne] at hl; cases hl
    · rw [hne] at hl; cases hl
  · have : i.parts.isEmpty = false := by simpa using hne
    simp only [this, Bool.false_eq_true, if_false]
    have hd2 : ∀ l ∈ i.parts, l ∈ c2.live := by rw [live2]; exact hpl
    have ha2 : full = true → ∀ l ∈ c2.live, l ∈ i.parts := by rw [live2]; exact hfull
    have hr2 : full = true → r.Ok wide c2.live := by rw [live2]; exact hr
    obtain ⟨w, _, _⟩ := writeDst_spec (r := r) ok2 (by rw [live2]; exact hlt) hd hd2 ha2 hr2
    refine ⟨(frame_of_parts hc hlt hsrc hlift h1 w (setLatch_step _ _ _ _ _ _ _)).1, ?_⟩
    refine result_of_parts (r := r) ok2 (by rw [live2]; exact hlt) hsrc hp hne hd hd2 ha2 hr2 ?_ ?_ gens hgen
    · intro hs l hl
      have hf : full = true := by
        cases e : full
        · rw [hg e] at hs; cases hs
        · rfl
      have k := (hr hf).uni hs
      have hm : i.parts.headD 0 ∈ i.parts := head_mem hl
      rw [k l (hpl l hl), k _ (hpl _ hm)]
    · intro hs
      have hf : full = true := by
        cases e : full
        · rw [hg e] at hs; cases hs
        · rfl
      exact (hr hf).aff hs

theorem drop_lost {r : LatchRec} {m : W32} {l : Nat} (h : hasLane r.lanes l = false) : hasLane (r.drop m).lanes l = false := by
  show hasLane (r.lanes &&& ~~~m) l = false
  rw [hasLane_and, h]; rfl

theorem reap_lost {c : Course} {n k l : Nat} (h : hasLane (nth c.latches k {}).lanes l = false) :
    hasLane (nth (c.reap n).latches k {}).lanes l = false := by
  unfold Course.reap
  split
  · show hasLane (nth (c.latches.map fun (r : LatchRec) => if r.names false n then r.drop 0xFFFFFFFF else r) k {}).lanes l = false
    by_cases hk : k < c.latches.length
    · have e : nth (c.latches.map fun (r : LatchRec) => if r.names false n then r.drop 0xFFFFFFFF else r) k {} =
          if (nth c.latches k {}).names false n then (nth c.latches k {}).drop 0xFFFFFFFF else nth c.latches k {} := by
        simp [nth, hk]
      rw [e]
      split
      · exact drop_lost h
      · exact h
    · have e : nth (c.latches.map fun (r : LatchRec) => if r.names false n then r.drop 0xFFFFFFFF else r) k {} = ({} : LatchRec) := by
        simp [nth, hk]
      rw [e]; exact hasLane_zero l
  · exact h

theorem reapAll_lost (ns : List Nat) {c : Course} {k l : Nat} (h : hasLane (nth c.latches k {}).lanes l = false) :
    hasLane (nth (ns.foldl (fun c n => c.reap n) c).latches k {}).lanes l = false := by
  induction ns generalizing c with
  | nil => exact h
  | cons n t ih => exact ih (reap_lost h)

/-- The end of a unit that writes no register. -/
theorem touch_spec {srcs : List Operand} {i : CourseIn} (h : i.Fit []) (hs : ∀ o ∈ srcs, o.2.pairOk o.1 = true) {c1 : Course} {u : Nat → Thread → Thread} (h1 : Updated i.course c1 u)
    {pipe : Nat} (hp : pipe < 4) :
    CourseFrame i.course (((c1.markSources srcs i.lift).dropLatch pipe i.parts).reapSources srcs) [] [] i.parts (lastOf srcs) i.lift (· = pipe) u ∧
    ∀ gens, ∀ l ∈ i.parts, (latchView (((c1.markSources srcs i.lift).dropLatch pipe i.parts).reapSources srcs) gens false pipe).stale l = true := by
  obtain ⟨hc, hlt⟩ := Course.sound_ok h.sound
  have hsrc := lastOf_lt_of_ok srcs hs
  obtain ⟨dm, e2, dl, _⟩ := markAll_spec (lastOf srcs) (maskOf i.lift) c1 (by rw [h1.eq]; exact hc.dead) hsrc
  set c2 := c1.markSources srcs i.lift with h2
  have e2' : c2 = { c1 with dead := dm } := e2
  have ok2 : c2.Ok := by
    rw [e2', h1.eq]; exact ⟨hc.names, dl, hc.opf, hc.latches, hc.links, hc.opfLinks⟩
  have hlift : ∀ l ∈ i.lift, l < 32 := fun l hl => hlt l (h.lift l hl)
  have w : Written c2 c2 [] [] i.parts :=
    ⟨ok2, .refl c2, .same _ rfl, fun _ _ _ _ => rfl, fun _ _ _ _ => rfl, fun _ _ _ _ => rfl, fun _ _ _ _ => ⟨rfl, fun _ => rfl⟩, fun _ _ _ => rfl, .refl c2⟩
  obtain ⟨fr, ok, q⟩ := frame_of_parts hc hlt hsrc hlift h1 w (dropLatch_step c2 pipe i.parts)
  refine ⟨fr, fun gens l hl => ?_⟩
  have hlen : pipe < c2.latches.length := by rw [ok2.latches]; exact hp
  have rec' : nth (c2.dropLatch pipe i.parts).latches pipe {} = (nth c2.latches pipe {}).drop (maskOf i.parts) := nth_set_same _ _ _ _ hlen
  have hl32 : l < 32 := hlt l (h.lift l (h.parts l hl))
  have lost : hasLane (nth (c2.dropLatch pipe i.parts).latches pipe {}).lanes l = false := by
    rw [rec']
    show hasLane ((nth c2.latches pipe {}).lanes &&& ~~~(maskOf i.parts)) l = false
    rw [hasLane_and, hasLane_not _ _ hl32, hasLane_maskOf _ _ hl32]
    simp [hl]
  have lost' : hasLane (nth ((c2.dropLatch pipe i.parts).reapSources srcs).latches pipe {}).lanes l = false := reapAll_lost (lastOf srcs) lost
  have sv : ((FMap.get ((c2.dropLatch pipe i.parts).reapSources srcs).threads l).bind fun t => t.savedFor pipe) = none := by
    have g : FMap.get (c2.dropLatch pipe i.parts).threads l = (FMap.get c2.threads l).map fun t =>
        if i.parts.contains l then { t with saved := t.saved.filter fun sv => sv.pipe.val != pipe } else t :=
      map_ite_get c2.threads (fun l => i.parts.contains l) (fun _ (t : Thread) => { t with saved := t.saved.filter fun sv => sv.pipe.val != pipe }) l
    cases e : FMap.get c2.threads l with
    | none =>
      rw [e] at g
      rw [q.threads.none l g]; rfl
    | some th =>
      rw [e] at g
      simp only [Option.map_some] at g
      rw [if_pos (by simpa using hl)] at g
      obtain ⟨t', g', _, sl⟩ := q.threads.get l _ g
      rw [g']
      exact sl pipe (savedFor_filter_same th pipe)
  simp only [latchView, sv, lost', Bool.and_false, Bool.false_and, Bool.not_false]

/-! ## The reads of a unit that completes -/

theorem CourseIn.Fit.nil {srcs : List Operand} {i : CourseIn} (h : i.Fit srcs) : i.Fit [] :=
  ⟨h.sound, h.lift, h.parts, h.full, h.all, fun _ ho => (by cases ho), fun _ _ _ ho => (by cases ho)⟩

/-- The sources of a unit, the old destination among them where it is read. -/
def CourseIn.views (i : CourseIn) (third wide : Bool) (d : Dst) (srcs : List Operand) : List View :=
  let vs := srcs.map fun o => srcView i.rd o.1 o.2
  if third then vs ++ [dstView i.rd wide d] else vs

theorem views_val (s : State) (t : Team) (pipe : Nat) (third wide : Bool) (d : Dst) (srcs : List Operand) (c l : Nat) :
    (((courseIn s t pipe c).views third wide d srcs).map fun v => v.val l) = s.values t third wide d srcs c l := by
  unfold State.values CourseIn.views
  cases third <;> simp [List.map_map, Function.comp_def, courseIn, State.reads]

theorem views_free (s : State) (t : Team) (pipe : Nat) (third wide : Bool) (d : Dst) (srcs : List Operand) (c l : Nat) :
    (((courseIn s t pipe c).views third wide d srcs).any fun v => v.free l) = freeRead s t third wide d srcs c l := by
  unfold freeRead CourseIn.views
  cases third <;> simp [List.any_map, Function.comp_def, courseIn, State.reads]

theorem stale_srcs {srcs : List Operand} {i : CourseIn} (h : i.Fit srcs) : staleLanes (srcs.map fun o => srcView i.rd o.1 o.2) i.parts = [] := by
  apply stale_nil
  intro l hl v hv
  rw [List.mem_map] at hv
  obtain ⟨o, ho, rfl⟩ := hv
  exact h.fresh l hl o ho

theorem updated_after {c1 c : Course} {u : Nat → Thread → Thread} (h : Updated c c1 u) (ls : List Nat) (f : Nat → Thread → Thread) :
    Updated c (c1.onThreads ls f) fun l t => if ls.contains l then f l (u l t) else u l t :=
  h.trans (onThreads_updated c1 ls f)

/-! ## Predicates (R86) -/

theorem aluPred_spec {s : State} {t : Team} (hL : Lifted s t) {pipe p : Nat} {srcs : List Operand} (f : Thread → List W64 → Bool)
    (hr : Readable s t srcs) (hs : ∀ o ∈ srcs, o.2.pairOk o.1 = true) (hp : pipe < 4) :
    ∃ s', s.aluPred pipe p srcs f = .next s' ∧ Touches s s' t pipe srcs (freeRead s t false false .sup srcs)
      fun c l th => th.setPred p (f th (s.values t false false .sup srcs c l)) := by
  apply touches_of hL
  intro c hc
  have h := hL.fit 0 hr hs hc
  have u1 := noteFree_updated (courseIn s t 0 c).course (srcs.map fun o => srcView (courseIn s t 0 c).rd o.1 o.2) (courseIn s t 0 c).parts
  have u2 := updated_after u1 (courseIn s t 0 c).parts
    fun l th => th.setPred p (f th ((srcs.map fun o => srcView (courseIn s t 0 c).rd o.1 o.2).map fun v => v.val l))
  have tch := touch_spec h.nil hs u2 (pipe := pipe) hp
  refine ⟨_, ?_, tch.1.congr ?_, tch.2⟩
  · simp only [predCourse, stale_srcs h, filter_not_nil, staleReqs, List.map_nil, markSources_onThreads]
  · intro l th _
    have e : (courseIn s t 0 c).parts = lanesIn s.issue.parts c := rfl
    have ev := views_val s t 0 false false .sup srcs c l
    have ef := views_free s t 0 false false .sup srcs c l
    simp only [CourseIn.views, Bool.false_eq_true, if_false] at ev ef
    simp only [e, contains_lanesIn, ev, ef]

/-! ## Uniform-set computations (R63) -/

/-- A lift gives each of its courses what a uniform-set unit needs of it: the leader's reads alone must be fresh. -/
structure CourseIn.LeadFit (i : CourseIn) (srcs : List Operand) : Prop where
  fit : i.Fit []
  pairs : ∀ o ∈ srcs, o.2.pairOk o.1 = true
  fresh : i.parts ≠ [] → ∀ o ∈ srcs, (srcView i.rd o.1 o.2).stale i.lead = false

theorem Lifted.leadFit {s : State} {t : Team} (h : Lifted s t) (pipe : Nat) {srcs : List Operand} (hr : LeadReadable s t srcs)
    (hp : ∀ o ∈ srcs, o.2.pairOk o.1 = true) {c : Nat} (hc : c ∈ coursesOf s.issue.lift) : (courseIn s t pipe c).LeadFit srcs := by
  refine ⟨h.fit pipe (fun _ _ _ ho => by cases ho) (fun _ ho => by cases ho) hc, hp, fun hne o ho => ?_⟩
  cases e : lanesIn s.issue.parts c with
  | nil => exact absurd e hne
  | cons a r =>
    have ha : a ∈ lanesIn s.issue.parts c := by rw [e]; simp
    exact hr (c, a) (mem_lanesIn.mp ha) o ho

theorem uni_spec {s : State} {t : Team} (hL : Lifted s t) {sp : AluSpec} {d : Dst} {srcs : List Operand} (f : List W64 → W64)
    (hr : LeadReadable s t srcs) (hd : d.pairOk sp.wide = true) (hs : ∀ o ∈ srcs, o.2.pairOk o.1 = true) (hp : sp.pipe < 4) :
    ∃ s', s.uni sp d srcs f = .next s' ∧
      Delivers s s' t sp.wide sp.pipe d srcs (fun c l => l == s.leader c && freeRead s t sp.third sp.wide d srcs c l) (fun _ th => th)
      fun c _ => f (s.values t sp.third sp.wide d srcs c (s.leader c)) := by
  apply delivers_of hL hp
  intro gens hg c hc
  have h := hL.leadFit sp.pipe hr hs hc
  set i := courseIn s t sp.pipe c with hi
  have eparts : i.parts = lanesIn s.issue.parts c := rfl
  set vs := srcs.map fun o => srcView i.rd o.1 o.2 with hvs
  set vs' := if sp.third then vs ++ [dstView i.rd sp.wide d] else vs with hvs'
  have hval : (vs'.map fun v => v.val i.lead) = s.values t sp.third sp.wide d srcs c (s.leader c) :=
    views_val s t sp.pipe sp.third sp.wide d srcs c _
  have hfree : ∀ l, (vs'.any fun v => v.free l) = freeRead s t sp.third sp.wide d srcs c l := views_free s t sp.pipe sp.third sp.wide d srcs c
  set v := f (s.values t sp.third sp.wide d srcs c (s.leader c)) with hv0
  by_cases hne : i.parts = []
  · have e1 : i.parts.isEmpty = true := by simp [hne]
    have ex : uniCourse sp d srcs f i = ⟨i.write i.course srcs false sp.wide sp.pipe d ⟨.g, fun _ => v⟩, []⟩ := by
      simp only [uniCourse, CourseIn.write, e1, if_true]
    rw [ex]
    obtain ⟨a, b⟩ := write_spec h.fit hs (Updated.refl i.course) (full := false) (d := d) (r := ⟨.g, fun _ => v⟩) hd hp (by simp) (by simp) (by simp) gens (hg c hc)
    refine ⟨rfl, a.congr fun l th _ => ?_, b⟩
    have e2 : s.issue.parts.contains (c, l) = false := by
      rw [← contains_lanesIn, ← eparts, hne]; rfl
    simp only [e2, Bool.false_and, Bool.false_eq_true, if_false]
  · have e1 : i.parts.isEmpty = false := by simpa using hne
    have lead_mem : i.lead ∈ i.parts := by
      unfold CourseIn.lead
      cases e : i.parts with
      | nil => exact absurd e hne
      | cons a r => simp
    have est : (vs'.any fun v => v.stale i.lead) = false := by
      rw [hvs', hvs]
      have a : ((srcs.map fun o => srcView i.rd o.1 o.2).any fun v => v.stale i.lead) = false := by
        rw [List.any_eq_false]
        intro x hx
        rw [List.mem_map] at hx
        obtain ⟨o, ho, rfl⟩ := hx
        rw [h.fresh hne o ho]; decide
      cases sp.third
      · exact a
      · simp only [if_true, List.any_append, a, List.any_cons, List.any_nil, dstView_fresh, Bool.or_self]
    have ex : uniCourse sp d srcs f i = ⟨i.write (i.course.noteFree vs' [i.lead]) srcs i.all sp.wide sp.pipe d ⟨if i.all then .u else .g, fun _ => v⟩, []⟩ := by
      simp only [uniCourse, CourseIn.write, e1, Bool.false_eq_true, if_false]
      rw [← hvs, ← hvs', est, hval]
      rfl
    rw [ex]
    obtain ⟨a, b⟩ := write_spec h.fit hs (noteFree_updated i.course vs' [i.lead]) (full := i.all) (d := d) (r := ⟨if i.all then .u else .g, fun _ => v⟩)
      hd hp h.fit.all (fun e => ⟨fun _ _ _ => rfl, fun x => by simp [e] at x⟩) (fun e => by simp [e]) gens (hg c hc)
    refine ⟨rfl, a.congr fun l th _ => ?_, b⟩
    rw [hfree]
    have e3 : ([i.lead].contains l) = (l == s.leader c) := by
      simp only [List.contains_cons, List.contains_nil, Bool.or_false]; rfl
    rw [e3]
    by_cases hl : l = s.leader c
    · have e2 : s.issue.parts.contains (c, l) = true := by
        rw [← contains_lanesIn, ← eparts, hl]
        exact List.contains_iff_mem.mpr lead_mem
      simp only [e2, Bool.true_and, ite_self]
    · have : (l == s.leader c) = false := by simpa using hl
      simp only [this, Bool.false_and, Bool.and_false, Bool.false_eq_true, if_false, ite_self]

theorem uniFn_spec {s : State} {t : Team} (hL : Lifted s t) {fn : Fn} {d : Dst} {srcs : List Src} (hr : LeadReadable s t (fn.tys.zip srcs))
    (hd : d.pairOk fn.wide = true) (hs : ∀ o ∈ fn.tys.zip srcs, o.2.pairOk o.1 = true) :
    ∃ s', s.uniFn fn d srcs = .next s' ∧ Delivers s s' t fn.wide 2 d (fn.tys.zip srcs)
      (fun c l => l == s.leader c && freeRead s t fn.third fn.wide d (fn.tys.zip srcs) c l)
      (fun _ th => th) fun c _ => fn.f (s.values t fn.third fn.wide d (fn.tys.zip srcs) c (s.leader c)) :=
  uni_spec hL (sp := ⟨fn.wide, 2, .other, fn.third⟩) fn.f hr hd hs (show 2 < 4 by decide)

theorem uniPred_spec {s : State} {t : Team} (hL : Lifted s t) {p : Nat} {srcs : List Operand} (f : List W64 → Bool)
    (hr : LeadReadable s t srcs) (hs : ∀ o ∈ srcs, o.2.pairOk o.1 = true) :
    ∃ s', s.uniPred p srcs f = .next s' ∧ Touches s s' t 2 srcs (fun c l => l == s.leader c && freeRead s t false false .sup srcs c l)
      fun c _ th => th.setPred p (f (s.values t false false .sup srcs c (s.leader c))) := by
  apply touches_of hL
  intro c hc
  have h := hL.leadFit 0 hr hs hc
  set i := courseIn s t 0 c with hi
  have eparts : i.parts = lanesIn s.issue.parts c := rfl
  set vs := srcs.map fun o => srcView i.rd o.1 o.2 with hvs
  have hval : (vs.map fun v => v.val i.lead) = s.values t false false .sup srcs c (s.leader c) := views_val s t 0 false false .sup srcs c _
  have hfree : ∀ l, (vs.any fun v => v.free l) = freeRead s t false false .sup srcs c l := views_free s t 0 false false .sup srcs c
  by_cases hne : i.parts = []
  · have e1 : i.parts.isEmpty = true := by simp [hne]
    have u0 : Updated i.course i.course fun _ th => th := .refl _
    obtain ⟨hc', hlt⟩ := Course.sound_ok h.fit.sound
    have hsrc := lastOf_lt_of_ok srcs hs
    obtain ⟨dm, e2, dl, _⟩ := markAll_spec (lastOf srcs) (maskOf i.lift) i.course hc'.dead hsrc
    have e2' : i.course.markSources srcs i.lift = { i.course with dead := dm } := e2
    have w : Written (i.course.markSources srcs i.lift) (i.course.markSources srcs i.lift) [] [] i.parts :=
      ⟨by rw [e2']; exact ⟨hc'.names, dl, hc'.opf, hc'.latches, hc'.links, hc'.opfLinks⟩, .refl _, .same _ rfl, fun _ _ _ _ => rfl, fun _ _ _ _ => rfl,
        fun _ _ _ _ => rfl, fun _ _ _ _ => ⟨rfl, fun _ => rfl⟩, fun _ _ _ => rfl, .refl _⟩
    have fr := (frame_of_parts hc' hlt hsrc (fun l hl => hlt l (h.fit.lift l hl)) u0 w (.refl _ (· = 2))).1
    refine ⟨_, ?_, fr.congr ?_, ?_⟩
    · simp only [uniPredCourse, e1, if_true]
    · intro l th _
      have e3 : s.issue.parts.contains (c, l) = false := by
        rw [← contains_lanesIn, ← eparts, hne]; rfl
      simp only [e3, Bool.false_and, Bool.false_eq_true, if_false]
    · intro _ l hl
      rw [← eparts, hne] at hl; cases hl
  · have e1 : i.parts.isEmpty = false := by simpa using hne
    have lead_mem : i.lead ∈ i.parts := by
      unfold CourseIn.lead
      cases e : i.parts with
      | nil => exact absurd e hne
      | cons a r => simp
    have est : (vs.any fun v => v.stale i.lead) = false := by
      rw [List.any_eq_false]
      intro x hx
      rw [hvs, List.mem_map] at hx
      obtain ⟨o, ho, rfl⟩ := hx
      rw [h.fresh hne o ho]; decide
    have u2 := updated_after (noteFree_updated i.course vs [i.lead]) i.parts
      fun _ th => th.setPred p (f (s.values t false false .sup srcs c (s.leader c)))
    have tch := touch_spec h.fit hs u2 (pipe := 2) (by decide)
    refine ⟨_, ?_, tch.1.congr ?_, tch.2⟩
    · simp only [uniPredCourse, e1, Bool.false_eq_true, if_false]
      rw [← hvs, est, hval]
      simp only [Bool.false_eq_true, if_false, markSources_onThreads]
    · intro l th _
      rw [hfree]
      have e3 : ([i.lead].contains l) = (l == s.leader c) := by
        simp only [List.contains_cons, List.contains_nil, Bool.or_false]; rfl
      rw [e3, eparts, contains_lanesIn]
      by_cases hl : l = s.leader c
      · have e2 : s.issue.parts.contains (c, l) = true := by
          rw [← contains_lanesIn, ← eparts, hl]
          exact List.contains_iff_mem.mpr lead_mem
        simp only [e2, Bool.true_and]
      · have : (l == s.leader c) = false := by simpa using hl
        simp only [this, Bool.false_and, Bool.and_false, Bool.false_eq_true, if_false]

/-! ## Group instructions (R195, R196) -/

/-- The shape of a group result suits its values: one value for every member where it says U, and never A. -/
structure GroupFn.Ok (g : GroupFn) : Prop where
  uni : ∀ (c : Course) (ms : List Nat) (vs : List View), (∀ v ∈ vs, v.shape = .u → ∀ a ∈ ms, ∀ b ∈ ms, v.val a = v.val b) →
    g.shape (vs.map fun v => v.shape) = .u → ∀ a ∈ ms, ∀ b ∈ ms,
      g.val c ms (fun l => vs.map fun v => v.val l) a = g.val c ms (fun l => vs.map fun v => v.val l) b
  aff : ∀ sh, g.shape sh ≠ .a

theorem group_spec {s : State} {t : Team} (hL : Lifted s t) {g : GroupFn} (hg : g.Ok) {d : Dst} {srcs : List Operand}
    (hr : Readable s t srcs) (hw : s.wholeLift t) (hd : d.pairOk g.wide = true) (hs : ∀ o ∈ srcs, o.2.pairOk o.1 = true) :
    ∃ s', s.group g d srcs = .next s' ∧ Delivers s s' t g.wide 0 d srcs (freeRead s t false g.wide d srcs) (fun _ th => th)
      fun c l => g.val (t.course c) (lanesIn s.issue.parts c) (fun m => s.values t false g.wide d srcs c m) l := by
  have e0 : s.group g d srcs = s.courseUnit (.result 0 (d == .sup)) (groupCourse g d srcs) := by
    unfold State.group
    have : s.curTeam = some t := hL.team
    rw [this]
    have e : ((coursesOf s.issue.lift).any fun c => !s.issue.whole c (t.course c)) = false := by
      rw [List.any_eq_false]
      intro c hc
      rw [hw c hc]; decide
    simp only [e, Bool.false_eq_true, if_false]
  rw [e0]
  apply delivers_of hL (by decide)
  intro gens hgen c hc
  have h := hL.fit 0 hr hs hc
  obtain ⟨hc', hlt⟩ := Course.sound_ok h.sound
  set i := courseIn s t 0 c with hi
  set vs := srcs.map fun o => srcView i.rd o.1 o.2 with hvs
  have hval : ∀ l, (vs.map fun v => v.val l) = s.values t false g.wide d srcs c l := views_val s t 0 false g.wide d srcs c
  have hfree : ∀ l, (vs.any fun v => v.free l) = freeRead s t false g.wide d srcs c l := views_free s t 0 false g.wide d srcs c
  have est : staleLanes vs i.parts = [] := stale_srcs h
  set rd := fun l : Nat => vs.map fun v => v.val l with hrd
  set r : Result := ⟨if i.full then g.shape (vs.map fun v => v.shape) else .g, g.val i.course i.parts rd⟩ with hr0
  have ex : groupCourse g d srcs i = ⟨i.write (i.course.noteFree vs i.parts) srcs i.full g.wide 0 d r, []⟩ := by
    simp only [groupCourse, CourseIn.write]
    rw [← hvs, est]
    simp only [filter_not_nil, List.isEmpty_nil, Bool.and_true, staleReqs, List.map_nil]
    rfl
  have live_parts : i.full = true → ∀ l ∈ i.course.live, l ∈ i.parts := h.full
  have rok : i.full = true → r.Ok g.wide i.course.live := by
    intro hf
    refine ⟨fun hs' l hl => ?_, fun hs' => ?_⟩
    · rw [hr0] at hs'
      simp only [hf, if_true] at hs'
      refine hg.uni i.course i.parts vs ?_ hs' l (h.full hf l hl) _ (h.full hf _ (head_mem hl))
      intro v hv hu a ha b hb
      rw [hvs, List.mem_map] at hv
      obtain ⟨o, _, rfl⟩ := hv
      have k := srcView_const (x := i.rd) hlt o.1 o.2 hu
      rw [k a (h.lift a (h.parts a ha)), k b (h.lift b (h.parts b hb))]
    · rw [hr0] at hs'
      simp only [hf, if_true] at hs'
      exact absurd hs' (hg.aff _)
  rw [ex]
  obtain ⟨a, b⟩ := write_spec h.nil hs (noteFree_updated i.course vs i.parts) hd (by decide) h.full rok (fun e => by rw [hr0]; simp [e]) gens (hgen c hc)
  refine ⟨rfl, a.congr fun l th _ => ?_, ?_⟩
  · have e : i.parts = lanesIn s.issue.parts c := rfl
    simp only [e, contains_lanesIn, hfree, ite_self]
  · have e : r.val = fun l => g.val (t.course c) (lanesIn s.issue.parts c) (fun m => s.values t false g.wide d srcs c m) l := by
      rw [hr0]
      have : rd = fun m => s.values t false g.wide d srcs c m := by funext m; exact hval m
      rw [this]; rfl
    rw [← e]; exact b

/-! ## RAND (R190) -/

/-- The draw of a thread (R190). -/
def drawnBy (t : Team) (seed : W64) (th : Thread) : W64 := res32 (drawOf seed t.index th.root th.ords th.draws)

theorem rand_spec {s : State} {t : Team} (hL : Lifted s t) {d : Dst} {a : Src} (hr : Readable s t [(.b64, a)]) (hd : d.pairOk false = true)
    (hs : a.pairOk .b64 = true) :
    ∃ s', execRand d a s = .next s' ∧ Delivers s s' t false 1 d [(.b64, a)] (freeRead s t false false d [(.b64, a)])
      (fun _ th => { th with draws := th.draws + 1 })
      fun c l => drawnBy t ((srcView (s.reads t c) .b64 a).val l) ((t.course c).thread l) := by
  unfold execRand
  have hs' : ∀ o ∈ [((Ty.b64, a) : Operand)], o.2.pairOk o.1 = true := by
    intro o ho; rw [List.mem_singleton] at ho; subst ho; exact hs
  apply delivers_of hL (by decide)
  intro gens hgen c hc
  have h := hL.fit 1 hr hs' hc
  obtain ⟨hc', hlt⟩ := Course.sound_ok h.sound
  set i := courseIn s t 1 c with hi
  have est : staleLanes [srcView i.rd .b64 a] i.parts = [] := stale_srcs h
  have hfree : ∀ l, ([srcView i.rd .b64 a].any fun v => v.free l) = freeRead s t false false d [(.b64, a)] c l := views_free s t 1 false false d [(.b64, a)] c
  set v : Nat → W64 := fun l => drawnBy t ((srcView (s.reads t c) .b64 a).val l) ((t.course c).thread l) with hv
  set r : Result := ⟨if i.full && decide (i.course.live.length = 1) then .u else .g, v⟩ with hr0
  have u2 := updated_after (noteFree_updated i.course [srcView i.rd .b64 a] i.parts) i.parts fun _ th => { th with draws := th.draws + 1 }
  have ex : randCourse d a i = ⟨i.write ((i.course.noteFree [srcView i.rd .b64 a] i.parts).onThreads i.parts fun _ th => { th with draws := th.draws + 1 })
      [(.b64, a)] i.full false 1 d r, []⟩ := by
    simp only [randCourse, CourseIn.write]
    rw [est]
    simp only [filter_not_nil, List.isEmpty_nil, Bool.and_true, staleReqs, List.map_nil, markSources_onThreads]
    rfl
  have rok : i.full = true → r.Ok false i.course.live := by
    intro hf
    refine ⟨fun hu l hl => ?_, fun hu => ?_⟩
    · rw [hr0] at hu
      simp only [hf, Bool.true_and, decide_eq_true_eq] at hu
      split at hu
      · next e =>
        have : i.course.live = [i.course.live.headD 0] := by
          cases e2 : i.course.live with
          | nil => rw [e2] at e; cases e
          | cons x xs =>
            rw [e2] at e
            have : xs = [] := by simpa using e
            rw [this]; rfl
        rw [this] at hl
        rw [List.mem_singleton.mp hl]
      · cases hu
    · rw [hr0] at hu
      simp only [] at hu
      split at hu <;> cases hu
  rw [ex]
  obtain ⟨p, q⟩ := write_spec h.nil hs' u2 (r := r) hd (by decide) h.full rok (fun e => by rw [hr0]; simp [e]) gens (hgen c hc)
  refine ⟨rfl, p.congr fun l th _ => ?_, q⟩
  have e : i.parts = lanesIn s.issue.parts c := rfl
  simp only [e, contains_lanesIn, hfree]

end Sys2Proof.Machine
end

