-- ==== Sys2Proof/Laws/Served.lean ====
section
/-!
SUPPORT. What a uniform-set unit without a result in a latch does when it completes on a lift of one course (R57, R59, R63, R194): one lemma
for every instruction that runs through `State.uniSync`.
-/

namespace Sys2Proof.Machine

theorem maskOf_congr {as bs : List Nat} (h : ∀ l, l ∈ as ↔ l ∈ bs) : maskOf as = maskOf bs := by
  apply BitVec.eq_of_getLsbD_eq
  intro l hl
  have e : as.contains l = bs.contains l := by
    rw [Bool.eq_iff_iff, List.contains_iff_mem, List.contains_iff_mem]; exact h l
  have a := hasLane_maskOf as l hl
  have b := hasLane_maskOf bs l hl
  unfold hasLane at a b
  rw [a, b, e]

theorem markSources_congr (x : Course) (srcs : List Operand) {as bs : List Nat} (h : ∀ l, l ∈ as ↔ l ∈ bs) :
    x.markSources srcs as = x.markSources srcs bs := by
  unfold Course.markSources
  rw [maskOf_congr h]

/-- Dropping several latches. -/
def Course.dropLatches (x : Course) (ps ls : List Nat) : Course := ps.foldl (fun x p => x.dropLatch p ls) x

theorem dropLatches_step (ps : List Nat) (x : Course) (ls : List Nat) : LatchStep x (x.dropLatches ps ls) (· ∈ ps) := by
  induction ps generalizing x with
  | nil => exact .refl x _
  | cons p t ih =>
    exact (dropLatch_step x p ls).trans (ih (x.dropLatch p ls)) (fun n hn => by simp [hn]) fun n hn => by simp [hn]

/-- A latch without a record for a lane, and without a value saved for it. -/
def Course.lost (x : Course) (p l : Nat) : Prop :=
  hasLane (nth x.latches p {}).lanes l = false ∧ ((FMap.get x.threads l).bind fun t => t.savedFor p) = none

theorem dropLatch_get (x : Course) (p : Nat) (ls : List Nat) (l : Nat) :
    FMap.get (x.dropLatch p ls).threads l = (FMap.get x.threads l).map fun t =>
      if ls.contains l then { t with saved := t.saved.filter fun sv => sv.pipe.val != p } else t :=
  map_ite_get x.threads (fun l => ls.contains l) (fun _ (t : Thread) => { t with saved := t.saved.filter fun sv => sv.pipe.val != p }) l

theorem dropLatch_lost {x : Course} {p l : Nat} {ls : List Nat} (hp : p < x.latches.length) (hl : l ∈ ls) (h32 : l < 32) : (x.dropLatch p ls).lost p l := by
  refine ⟨?_, ?_⟩
  · have rec' : nth (x.dropLatch p ls).latches p {} = (nth x.latches p {}).drop (maskOf ls) := nth_set_same _ _ _ _ hp
    rw [rec']
    show hasLane ((nth x.latches p {}).lanes &&& ~~~(maskOf ls)) l = false
    rw [hasLane_and, hasLane_not _ _ h32, hasLane_maskOf _ _ h32]
    simp [hl]
  · rw [dropLatch_get]
    cases FMap.get x.threads l with
    | none => rfl
    | some t =>
      simp only [Option.map_some, Option.bind_some]
      rw [if_pos (by simpa using hl)]
      exact savedFor_filter_same t p

theorem dropLatch_keeps {x : Course} {p q l : Nat} {ls : List Nat} (h : x.lost q l) : (x.dropLatch p ls).lost q l := by
  refine ⟨?_, ?_⟩
  · show hasLane (nth (setNth x.latches p ((nth x.latches p {}).drop (maskOf ls))) q {}).lanes l = false
    by_cases e : q = p
    · subst e
      by_cases hp : q < x.latches.length
      · rw [nth_set_same _ _ _ _ hp]; exact drop_lost h.1
      · have : nth (setNth x.latches q ((nth x.latches q {}).drop (maskOf ls))) q {} = ({} : LatchRec) := by
          have hl : (setNth x.latches q ((nth x.latches q {}).drop (maskOf ls))).length = x.latches.length := length_setNth _ _ _
          unfold nth
          rw [List.getElem?_eq_none (by unfold nth at hl; omega)]; rfl
        rw [this]; exact hasLane_zero l
    · rw [nth_set_ne _ _ _ e]; exact h.1
  · have k := h.2
    rw [dropLatch_get]
    cases e : FMap.get x.threads l with
    | none => rfl
    | some t =>
      rw [e] at k
      simp only [Option.map_some, Option.bind_some] at k ⊢
      split
      · exact savedFor_filter t _ q k
      · exact k

theorem dropLatches_lost {ps ls : List Nat} {x : Course} {p l : Nat} (hp : p ∈ ps) (hlen : ∀ p ∈ ps, p < x.latches.length) (hl : l ∈ ls) (h32 : l < 32) :
    (x.dropLatches ps ls).lost p l := by
  have keeps : ∀ (ps : List Nat) (x : Course), x.lost p l → (x.dropLatches ps ls).lost p l := by
    intro ps
    induction ps with
    | nil => exact fun _ h => h
    | cons q t ih => exact fun x h => ih _ (dropLatch_keeps h)
  induction ps generalizing x with
  | nil => cases hp
  | cons q t ih =>
    by_cases e : p = q
    · subst e
      exact keeps t _ (dropLatch_lost (hlen p (by simp)) hl h32)
    · refine ih (by simpa [e] using hp) fun r hr => ?_
      show r < (setNth x.latches q _).length
      rw [length_setNth]; exact hlen r (by simp [hr])

theorem reapSources_lost {x : Course} {srcs : List Operand} {p l : Nat} (q : Quiet x (x.reapSources srcs) (lastOf srcs)) (h : x.lost p l) : (x.reapSources srcs).lost p l := by
  refine ⟨reapAll_lost (lastOf srcs) h.1, ?_⟩
  have k := h.2
  cases e : FMap.get x.threads l with
  | none => rw [q.threads.none l e]; rfl
  | some t =>
    obtain ⟨t', g, _, sl⟩ := q.threads.get l t e
    rw [g]
    rw [e] at k
    exact sl p k

theorem onward_lost {x : Course} {p l : Nat} {ls : List Nat} {pc : W64} {now : Nat} (h : x.lost p l) : (x.onward ls pc now).lost p l :=
  ⟨h.1, by rw [onward_saved]; exact h.2⟩

theorem lost_stale {x : Course} {p l : Nat} (h : x.lost p l) (gens : List Nat) (wide : Bool) : (latchView x gens wide p).stale l = true := by
  simp only [latchView, h.2, h.1, Bool.and_false, Bool.false_and, Bool.not_false]

/-- The course after a unit that writes names and drops latches. -/
theorem serve_spec {srcs : List Operand} {x c1 w : Course} {lift parts regs ps : List Nat} {u : Nat → Thread → Thread} {val : Nat → Nat → W32}
    (hx : x.sound = true) (hlift : ∀ l ∈ lift, l ∈ x.live) (hparts : ∀ l ∈ parts, l ∈ lift) (hs : ∀ o ∈ srcs, o.2.pairOk o.1 = true)
    (h1 : Updated x c1 u) (hw : Written (c1.markSources srcs lift) w regs [] parts) (hv : ∀ n ∈ regs, ∀ l ∈ parts, regRow w n l = val n l)
    (hps : ∀ p ∈ ps, p < 4) :
    CourseFrame x ((w.dropLatches ps parts).reapSources srcs) regs [] parts (lastOf srcs) lift (· ∈ ps) u ∧
    (∀ n ∈ regs, ∀ l ∈ parts, regRow ((w.dropLatches ps parts).reapSources srcs) n l = val n l) ∧
    ∀ p ∈ ps, ∀ l ∈ parts, ((w.dropLatches ps parts).reapSources srcs).lost p l := by
  obtain ⟨hc, hlt⟩ := Course.sound_ok hx
  have hsrc := lastOf_lt_of_ok srcs hs
  have st := dropLatches_step ps w parts
  obtain ⟨fr, ok, q⟩ := frame_of_parts hc hlt hsrc (fun l hl => hlt l (hlift l hl)) h1 hw st
  have live4 : (w.dropLatches ps parts).live = x.live := q.threads.live.symm.trans fr.live
  have livew : w.live = x.live := st.threads.live.symm.trans live4
  have row4 : ∀ n l, regRow (w.dropLatches ps parts) n l = regRow w n l := by
    intro n l; unfold regRow; rw [live4, livew, st.eq]
  refine ⟨fr, fun n hn l hl => ?_, fun p hp l hl => ?_⟩
  · have hv4 : l ∈ (w.dropLatches ps parts).live := by rw [live4]; exact hlift l (hparts l hl)
    rw [(q.reg n l hv4).1, row4]; exact hv n hn l hl
  · exact reapSources_lost q (dropLatches_lost hp (fun r hr => by rw [hw.ok.latches]; exact hps r hr) hl (hlt l (hlift l (hparts l hl))))

theorem onCourse_get (s : State) (tk c : Nat) (f : Course → Course) : FMap.get (s.onCourse tk c f).teams tk =
    (FMap.get s.teams tk).map fun t => { t with courses := FMap.modify t.courses c f } := by
  simp only [State.onCourse, FMap.get_modify_same]

theorem onCourse_get_ne (s : State) {tk k : Nat} (c : Nat) (f : Course → Course) (h : k ≠ tk) :
    FMap.get (s.onCourse tk c f).teams k = FMap.get s.teams k := by
  simp only [State.onCourse, FMap.get_modify_ne _ _ h]

/-- The issue of a unit whose work is done: its course becomes what `f` makes of it, and its threads go on. -/
theorem effect_of_retire {s : State} {t : Team} {c : Nat} {x : Course} (f : Course → Course) (ht : FMap.get s.teams s.issue.team = some t)
    (hx : FMap.get t.courses c = some x) (one : coursesOf s.issue.lift = [c]) :
    UnitEffect s ((s.onCourse s.issue.team c f).retire s.issue.lift s.issue.next) t .none fun k _ x' =>
      k = c ∧ x' = (f x).onward (lanesIn s.issue.lift c) s.issue.next s.cycle := by
  have e0 : FMap.get (s.onCourse s.issue.team c f).teams s.issue.team = some { t with courses := FMap.modify t.courses c f } := by
    rw [onCourse_get, ht]; rfl
  rw [retire_eq]
  refine ⟨⟨onwardAll (FMap.modify t.courses c f) s.issue.lift s.issue.next s.cycle, ?_, ?_, ?_⟩, ?_, rfl, fun _ _ => rfl, rfl⟩
  · dsimp only
    have e1 : (s.onCourse s.issue.team c f).issue.team = s.issue.team := rfl
    rw [e1, FMap.get_modify_same, e0]; rfl
  · intro k hk
    have hne : k ≠ c := by rintro rfl; exact hk (by rw [one]; simp)
    have : lanesIn s.issue.lift k = [] := by
      rw [List.eq_nil_iff_forall_not_mem]
      intro l hl
      rw [mem_lanesIn] at hl
      exact hk (mem_coursesOf.mpr ⟨_, hl, rfl⟩)
    rw [onwardAll_get, FMap.get_modify_ne _ _ hne, this]
    cases FMap.get t.courses k with
    | none => rfl
    | some z => simp [onward_nil]
  · intro k hk
    rw [one, List.mem_singleton] at hk
    subst hk
    refine ⟨_, ?_, rfl, rfl⟩
    rw [onwardAll_get, FMap.get_modify_same, hx]; rfl
  · intro k hk
    dsimp only
    have e1 : (s.onCourse s.issue.team c f).issue.team = s.issue.team := rfl
    rw [e1, FMap.get_modify_ne _ _ hk, onCourse_get_ne _ _ _ hk]

/-- What a write of a unit does to its course: names `regs`, beside what becomes of the participating threads. -/
structure Writes (w : Course → Course) (x : Course) (parts regs : List Nat) (val : Nat → W32) (upd : Thread → Thread) : Prop where
  wrote : ∀ (srcs : List Operand) (ls : List Nat) (z : Course), z.Ok → z.live = x.live → (∀ o ∈ srcs, o.2.pairOk o.1 = true) →
    Written ((z.onThreads parts fun _ => upd).markSources srcs ls) (w (z.markSources srcs ls)) regs [] parts ∧
      ∀ n ∈ regs, ∀ l ∈ parts, regRow (w (z.markSources srcs ls)) n l = val n

theorem markSources_ok {z : Course} (h : z.Ok) {srcs : List Operand} (hs : ∀ o ∈ srcs, o.2.pairOk o.1 = true) (ls : List Nat) :
    (z.markSources srcs ls).Ok ∧ (z.markSources srcs ls).live = z.live := by
  obtain ⟨dm, e, dl, _⟩ := markAll_spec (lastOf srcs) (maskOf ls) z h.dead (lastOf_lt_of_ok srcs hs)
  have e' : z.markSources srcs ls = { z with dead := dm } := e
  rw [e']
  exact ⟨⟨h.names, dl, h.opf, h.latches, h.links, h.opfLinks⟩, rfl⟩

theorem Written.rfl' {c : Course} (h : c.Ok) (ls : List Nat) : Written c c [] [] ls :=
  ⟨h, .refl c, .same _ rfl, fun _ _ _ _ => rfl, fun _ _ _ _ => rfl, fun _ _ _ _ => rfl, fun _ _ _ _ => ⟨rfl, fun _ => rfl⟩, fun _ _ _ => rfl, .refl c⟩

/-- A unit whose only effect on its course is what becomes of its threads. -/
theorem writes_threads (x : Course) (parts : List Nat) (upd : Thread → Thread) (val : Nat → W32) :
    Writes (fun y => y.onThreads parts fun _ => upd) x parts [] val upd := by
  refine ⟨fun srcs ls z hz _ hs => ⟨?_, fun _ h => by cases h⟩⟩
  rw [markSources_onThreads]
  refine Written.rfl' ?_ _
  have h : (z.onThreads parts fun _ => upd).Ok := ⟨hz.names, hz.dead, hz.opf, hz.latches, hz.links, hz.opfLinks⟩
  exact (markSources_ok h hs ls).1

theorem onThreads_id (c : Course) (ls : List Nat) : (c.onThreads ls fun _ th => th) = c := by
  have : (fun p : Nat × Thread => if ls.contains p.1 then (p.1, p.2) else p) = id := by funext p; split <;> rfl
  unfold Course.onThreads
  rw [this, List.map_id]

/-- A unit that leaves its course alone. -/
theorem writes_none (x : Course) (parts : List Nat) (val : Nat → W32) : Writes id x parts [] val id := by
  refine ⟨fun srcs ls z hz _ hs => ⟨?_, fun _ h => by cases h⟩⟩
  have e : (z.onThreads parts fun _ => id) = z := onThreads_id z parts
  rw [e]
  exact Written.rfl' (markSources_ok hz hs ls).1 _

theorem lo32_pair (h l : W32) : lo32 (pair64 h l) = l := by
  apply BitVec.eq_of_getLsbD_eq
  intro i hi
  simp [hi, BitVec.getLsbD_append]

theorem hi32_pair (h l : W32) : hi32 (pair64 h l) = h := by
  apply BitVec.eq_of_getLsbD_eq
  intro i hi
  simp [hi, BitVec.getLsbD_append]

/-- A unit that writes one value to its destination names, uniform where the course takes part whole (R63). -/
theorem writes_uniform {i : CourseIn} (h : i.Fit []) {wide : Bool} {d : Fin 64} (hd : (Dst.reg d).pairOk wide = true) (v : W64) :
    Writes (fun y => y.writeUniform i wide (.reg d) v) i.course i.parts (regsOf wide (.reg d)) (wordOf d.val v) id := by
  obtain ⟨_, hlt⟩ := Course.sound_ok h.sound
  refine ⟨fun srcs ls z hz hl hs => ?_⟩
  have e : (z.onThreads i.parts fun _ => id) = z := onThreads_id z i.parts
  rw [e]
  obtain ⟨ok, live⟩ := markSources_ok hz hs ls
  have live' := live.trans hl
  obtain ⟨w, val, _⟩ := writeDst_spec (c := z.markSources srcs ls) ok (by rw [live']; exact hlt) (full := i.all) (ls := i.parts) (d := .reg d)
    (r := ⟨if i.all then .u else .g, fun _ => v⟩) hd (fun l hl => by rw [live']; exact h.lift l (h.parts l hl))
    (by rw [live']; exact h.all) (fun e => ⟨fun _ _ _ => rfl, fun x => by simp [e] at x⟩)
  refine ⟨w, fun n hn l hl => ?_⟩
  have k := val (by simp) l hl
  cases wide
  · simp only [regsOf, Bool.false_eq_true, if_false, List.mem_singleton] at hn
    subst hn
    simp only [dstRead, regView, resultOf, Bool.false_eq_true, if_false] at k
    simp only [wordOf, if_true]
    have := congrArg lo32 k
    simpa [Course.writeUniform] using this
  · simp only [dstRead, regView, resultOf, if_true] at k
    simp only [regsOf, if_true, List.mem_cons, List.not_mem_nil, or_false] at hn
    rcases hn with rfl | rfl
    · have := congrArg lo32 k
      rw [lo32_pair] at this
      simp only [wordOf, if_true]
      exact this
    · have := congrArg hi32 k
      rw [hi32_pair] at this
      simp only [wordOf, Nat.add_eq_left, Nat.one_ne_zero, if_false]
      exact this

/-! ## The state -/

theorem one_mem {s : State} {t : Team} {c : Nat} (h : OneCourse s t c) : c ∈ coursesOf s.issue.lift := by rw [h.one]; simp

theorem one_course {s : State} {t : Team} {c : Nat} (h : OneCourse s t c) : FMap.get t.courses c = some (t.course c) := by
  obtain ⟨m, hm, rfl⟩ := mem_coursesOf.mp (one_mem h)
  have := h.lifted.courses m hm
  unfold Team.course
  cases e : FMap.get t.courses m.1 with
  | none => rw [e] at this; cases this
  | some x => rfl

theorem one_sound {s : State} {t : Team} {c : Nat} (h : OneCourse s t c) : (t.course c).sound = true := by
  obtain ⟨m, hm, rfl⟩ := mem_coursesOf.mp (one_mem h)
  exact h.lifted.sound m hm

theorem again_eq {s : State} {t : Team} {c : Nat} (h : OneCourse s t c) :
    ((lanesIn s.issue.parts c).all fun l => match s.threadAt s.issue.team c l with | some t => t.progress.isSome | none => false) = s.again t c := by
  unfold State.again
  congr 1
  funext l
  have e : s.threadAt s.issue.team c l = FMap.get (t.course c).threads l := by
    unfold State.threadAt
    rw [h.lifted.team]
    show (FMap.get t.courses c).bind _ = _
    rw [one_course h]; rfl
  rw [e]
  unfold Course.thread
  cases FMap.get (t.course c).threads l <;> rfl

/-- Ends a unit none of whose threads waits or faults. -/
theorem finishWith_none (s : State) : s.finishWith {} = s.retire s.issue.lift s.issue.next := by
  unfold State.finishWith
  simp only [List.foldl_nil, without_nil, List.any_nil, Bool.not_false, List.filter_true]
  rfl

theorem onward_loads (x : Course) (ls : List Nat) (pc : W64) (now : Nat) (v : List PendingLoad) :
    ({ x.onward ls pc now with loads := v } : Course) = ({ x with loads := v } : Course).onward ls pc now := rfl

/-- One instruction of one course, from what it does to its course: its own work leads to `s1`, the course becomes `g` of what it was, and
`loads` is on its way to it. -/
theorem served_of {s s1 : State} {t t1 : Team} {c : Nat} {srcs : List Operand} {regs ps : List Nat} {val : Nat → Nat → W32} {free : Nat → Bool}
    {upd : Nat → Thread → Thread} {g : Course → Course} {x1 : Course} {loads : List PendingLoad} (h : OneCourse s t c) (hi : s1.issue = s.issue)
    (hcy : s1.cycle = s.cycle) (ht : FMap.get s1.teams s.issue.team = some t1) (hx : FMap.get t1.courses c = some x1)
    (hlo : (g x1).loads = x1.loads ++ loads)
    (hg : CourseFrame x1 { g x1 with loads := x1.loads } regs [] (lanesIn s.issue.parts c) (lastOf srcs) (lanesIn s.issue.lift c) (· ∈ ps) (fun l th =>
        let th := if (lanesIn s.issue.parts c).contains l && free l then th.setReadFree else th
        if (lanesIn s.issue.parts c).contains l then upd l th else th))
    (hv : ∀ n ∈ regs, ∀ l ∈ lanesIn s.issue.parts c, regRow (g x1) n l = val n l)
    (hl : ∀ p ∈ ps, ∀ l ∈ lanesIn s.issue.parts c, (g x1).lost p l) :
    Served s s1 (({ s1.onCourse s.issue.team c g with agenda := s1.agenda ++ loads.map fun _ => .loadComplete ⟨s.issue.team, c⟩ } : State).finishWith {})
      t1 c srcs regs val ps free loads upd := by
  set ag := s1.agenda ++ loads.map fun _ => Instr.loadComplete ⟨s.issue.team, c⟩ with hag
  have e1 : ({ s1.onCourse s.issue.team c g with agenda := ag } : State).finishWith {} =
      { (s1.onCourse s1.issue.team c g).retire s1.issue.lift s1.issue.next with agenda := ag } := by
    rw [finishWith_none, retire_eq, retire_eq, ← hi]
    rfl
  rw [e1]
  have one1 : coursesOf s1.issue.lift = [c] := by rw [hi]; exact h.one
  have ue := effect_of_retire g (by rw [hi]; exact ht) hx one1
  refine ⟨rfl, ?_⟩
  have same : ({ ({ (s1.onCourse s1.issue.team c g).retire s1.issue.lift s1.issue.next with agenda := ag } : State) with agenda := s1.agenda } : State) =
      (s1.onCourse s1.issue.team c g).retire s1.issue.lift s1.issue.next := by rw [retire_eq]; rfl
  rw [same]
  obtain ⟨cs, h1, h2, h3⟩ := ue.courses
  refine ⟨⟨cs, h1, h2, fun k hk => ?_⟩, ue.teams, ue.core, ue.cores, ue.rest⟩
  obtain ⟨x, hx', rfl, rfl⟩ := h3 k hk
  have ex : t1.course k = x1 := by unfold Team.course; rw [hx]; rfl
  rw [hi, hcy] at hx'
  have fr := onward_frame hg s.issue.next s.cycle (ls := lanesIn s.issue.lift k)
  rw [ex]
  refine ⟨_, hx', hlo, ?_, ?_, ?_⟩
  · rw [onward_loads]
    refine fr.congr fun l th _ => ?_
    simp only [contains_lanesIn]
    rfl
  · intro n hn l hl'
    have := hv n hn l hl'
    rw [← this]
    unfold regRow; rw [onward_live]; rfl
  · intro p hp l hl'
    exact lost_stale (onward_lost (hl p hp l hl')) _ _

theorem uniSync_serves {F : State → Team → Nat → State × MemOut} {s s1 : State} {t t1 : Team} {c : Nat} {srcs : List Operand} {b3 arrive : Bool}
    {f : State → Team → Nat → CourseIn → List W64 → State × SyncOut} {w : Course → Course} {regs : List Nat} {val : Nat → W32} {upd : Thread → Thread}
    (h : OneCourse s t c) (hr : LeadReadable s t srcs) (hs : ∀ o ∈ srcs, o.2.pairOk o.1 = true)
    (hf : f s t c (courseIn s t 2 c) (s.values t false false .sup srcs c (s.leader c)) = (s1, { write := w }))
    (hi : s1.issue = s.issue) (hcy : s1.cycle = s.cycle) (ht : FMap.get s1.teams s.issue.team = some t1) (hc : t.Akin t1)
    (hw : Writes w (t.course c) (lanesIn s.issue.parts c) regs val upd) (hF : F s t c = s.uniSyncAt srcs b3 arrive f t c) :
    ∃ s', s.eachCourse F = .next s' ∧
      Served s s1 s' t1 c srcs regs (fun n _ => val n) (if b3 then [2, 3] else [2])
        (fun l => l == s.leader c && !s.again t c && freeRead s t false false .sup srcs c l) [] fun _ => upd := by
  have hfit := h.lifted.leadFit 2 hr hs (one_mem h)
  set i := courseIn s t 2 c with hi0
  have eparts : i.parts = lanesIn s.issue.parts c := rfl
  have elift : i.lift = lanesIn s.issue.lift c := rfl
  have hne : i.parts ≠ [] := h.acts
  have e1 : i.parts.isEmpty = false := by simpa using hne
  set vs := srcs.map fun o => srcView i.rd o.1 o.2 with hvs
  have hval : (vs.map fun v => v.val i.lead) = s.values t false false .sup srcs c (s.leader c) := views_val s t 2 false false .sup srcs c _
  have hfree : ∀ l, (vs.any fun v => v.free l) = freeRead s t false false .sup srcs c l := views_free s t 2 false false .sup srcs c
  have est : (vs.any fun v => v.stale i.lead) = false := by
    rw [List.any_eq_false]
    intro x hx
    rw [hvs, List.mem_map] at hx
    obtain ⟨o, ho, rfl⟩ := hx
    rw [hfit.fresh hne o ho]; decide
  have ps4 : ∀ p ∈ (if b3 then [2, 3] else [2] : List Nat), p < 4 := by intro p hp; cases b3 <;> simp at hp <;> omega
  -- the course
  let g : Course → Course := fun x =>
    let x := if s.again t c then x else x.noteFree vs [i.lead]
    let x := (w (x.markSources srcs ((i.lift.filter fun l => !i.parts.contains l) ++ i.parts))).dropLatch 2 i.parts
    (if b3 then x.dropLatch 3 i.parts else x).reapSources srcs
  obtain ⟨x1, hx, ak⟩ := hc c _ (one_course h)
  have hsame : ∀ l, l ∈ (i.lift.filter fun l => !i.parts.contains l) ++ i.parts ↔ l ∈ i.lift := by
    intro l
    simp only [List.mem_append, List.mem_filter, Bool.not_eq_true', List.contains_eq_mem, decide_eq_false_iff_not]
    constructor
    · rintro (a | a)
      · exact a.1
      · exact hfit.fit.parts l a
    · intro a
      by_cases b : l ∈ i.parts
      · exact .inr b
      · exact .inl ⟨a, b⟩
  let c0 : Course := if s.again t c then x1 else x1.noteFree vs [i.lead]
  have sound1 := ak.sound (one_sound h)
  have live1 := ak.live
  obtain ⟨hc', hlt⟩ := Course.sound_ok sound1
  have u0 : Updated x1 c0 fun l th => if l == i.lead && !s.again t c && freeRead s t false false .sup srcs c l then th.setReadFree else th := by
    show Updated _ (if s.again t c then x1 else x1.noteFree vs [i.lead]) _
    cases e : s.again t c
    · simp only [Bool.false_eq_true, if_false]
      refine (noteFree_updated x1 vs [i.lead]).congr fun l th => ?_
      rw [hfree]
      have e3 : ([i.lead].contains l) = (l == i.lead) := by simp only [List.contains_cons, List.contains_nil, Bool.or_false]
      rw [e3]; simp
    · simp only [if_true]
      exact (Updated.refl _).congr fun l th => by simp
  have ok0 : c0.Ok := by
    rw [u0.eq]; exact ⟨hc'.names, hc'.dead, hc'.opf, hc'.latches, hc'.links, hc'.opfLinks⟩
  obtain ⟨wr, wv⟩ := hw.wrote srcs i.lift c0 ok0 (u0.live.trans live1) hs
  have u1 := updated_after u0 i.parts fun _ => upd
  have eg : g x1 = ((w (c0.markSources srcs i.lift)).dropLatches (if b3 then [2, 3] else [2]) i.parts).reapSources srcs := by
    show (let x := c0; let x := (w (x.markSources srcs _)).dropLatch 2 i.parts; (if b3 then x.dropLatch 3 i.parts else x).reapSources srcs) = _
    simp only [markSources_congr c0 srcs hsame]
    cases b3 <;> rfl
  obtain ⟨fr, va, lo⟩ := serve_spec sound1 (fun l hl => by rw [live1]; exact hfit.fit.lift l hl) hfit.fit.parts hs u1 wr wv ps4
  rw [← eg] at fr va lo
  have lo0 : (g x1).loads = x1.loads := fr.rest.2.2.1
  have e0 : ({ g x1 with loads := x1.loads } : Course) = g x1 := by rw [← lo0]
  have fr' := fr
  rw [← e0] at fr'
  have done := served_of (loads := []) (free := fun l => l == s.leader c && !s.again t c && freeRead s t false false .sup srcs c l) (upd := fun _ => upd)
    h hi hcy ht hx (by rw [lo0, List.append_nil]) (fr'.congr ?side) va lo
  case side =>
    intro l th _
    dsimp only
    by_cases hl : l = i.lead
    · have hm : i.parts.contains l = true := by
        rw [hl]; unfold CourseIn.lead
        cases e : i.parts with
        | nil => exact absurd e hne
        | cons a r => simp
      rw [← eparts]
      simp only [hm, if_true, Bool.true_and]
      rfl
    · have : (l == i.lead) = false := by simpa using hl
      have this' : (l == s.leader c) = false := this
      simp only [this, this', Bool.false_and, Bool.and_false, Bool.false_eq_true, if_false]
      rfl
  refine ⟨_, ?_, done⟩
  · unfold State.eachCourse
    rw [h.one]
    have hcur : s.curTeam = some t := h.lifted.team
    simp only [List.foldl_cons, List.foldl_nil, hcur, hF, State.uniSyncAt]
    simp only [← hi0, ← hvs, e1, est, Bool.and_false, Bool.false_eq_true, if_false, hval, hf]
    have ag := again_eq h
    rw [← eparts] at ag
    generalize hA : List.all i.parts _ = A
    have eA : A = s.again t c := hA.symm.trans ag
    subst eA
    have eag : ({ s1.onCourse s.issue.team c g with agenda := s1.agenda ++ ([] : List PendingLoad).map fun _ => Instr.loadComplete ⟨s.issue.team, c⟩ } : State) =
        s1.onCourse s.issue.team c g := by simp only [List.map_nil, List.append_nil]; rfl
    rw [eag]
    simp only [List.map_nil, ite_self, List.append_nil, List.contains_nil, Bool.not_false, List.filter_true, e1, Bool.false_or]
    rfl

/-- What an instruction that runs through `State.uniSyncAt` on a course must do for `UniServes`. -/
theorem uniServes_at {i : Instr} {srcs : List Operand} {regs : List Nat} {b3 arrive : Bool} {work : Work} {F : State → Team → Nat → State × MemOut}
    {f : State → Team → Nat → CourseIn → List W64 → State × SyncOut} (hs : WellFormed i = true → ∀ o ∈ srcs, o.2.pairOk o.1 = true)
    (he : ∀ s, exec i s = s.eachCourse F)
    (hf : WellFormed i = true → ∀ s t c s1 val upd, OneCourse s t c →
      work s t c (s.values t false false .sup srcs c (s.leader c)) = some (s1, val, upd) → ∃ w,
      f s t c (courseIn s t 2 c) (s.values t false false .sup srcs c (s.leader c)) = (s1, { write := w }) ∧
      Writes w (t.course c) (lanesIn s.issue.parts c) regs val upd ∧ Kin s s1 ∧ F s t c = s.uniSyncAt srcs b3 arrive f t c) :
    UniServes i srcs regs b3 work := by
  intro hw s t c s1 val upd t1 h hr hv ht
  obtain ⟨w, e, wr, k, eF⟩ := hf hw s t c s1 val upd h hv
  rw [he]
  refine uniSync_serves h hr (hs hw) e k.issue k.cycle ht ?_ wr eF
  obtain ⟨t', g, a⟩ := k.teams _ _ h.lifted.team
  rw [ht] at g; cases g
  exact a

/-- What an instruction that runs through `State.uniSync` must do for `UniServes`. -/
theorem uniServes_of {i : Instr} {srcs : List Operand} {regs : List Nat} {b3 arrive : Bool} {work : Work}
    {f : State → Team → Nat → CourseIn → List W64 → State × SyncOut} (hs : WellFormed i = true → ∀ o ∈ srcs, o.2.pairOk o.1 = true)
    (he : ∀ s, exec i s = s.uniSync srcs b3 arrive f)
    (hf : WellFormed i = true → ∀ s t c v s1 val upd, OneCourse s t c → work s t c v = some (s1, val, upd) → ∃ w,
      f s t c (courseIn s t 2 c) v = (s1, { write := w }) ∧ Writes w (t.course c) (lanesIn s.issue.parts c) regs val upd ∧ Kin s s1) :
    UniServes i srcs regs b3 work :=
  uniServes_at hs he fun hw s t c s1 val upd h hv => by
    obtain ⟨w, a, b, k⟩ := hf hw s t c _ s1 val upd h hv
    exact ⟨w, a, b, k, rfl⟩

theorem fit_of {s : State} {t : Team} {c : Nat} (h : OneCourse s t c) : (courseIn s t 2 c).Fit [] :=
  (h.lifted.leadFit 2 (srcs := []) (fun _ _ _ ho => by cases ho) (fun _ ho => by cases ho) (one_mem h)).fit

theorem pairOk_of_ok {ty : Ty} {a : Src} (h : a.ok ty = true) : a.pairOk ty = true := by
  unfold Src.ok at h; simp only [Bool.and_eq_true] at h; tauto

end Sys2Proof.Machine
end

