-- ==== Sys2Proof/Laws/MemServed.lean ====
section
/-!
SUPPORT. What a memory instruction does when all its accesses are performed, on a lift of one course (R57, R59, R235, R277, R278, R285).
-/

namespace Sys2Proof.Machine

theorem onCourse_onCourse (s : State) (tk c : Nat) (f g : Course → Course) :
    (s.onCourse tk c f).onCourse tk c g = s.onCourse tk c fun x => g (f x) := by
  simp only [State.onCourse, FMap.modify_modify]

theorem onCourse_due (s : State) (tk c : Nat) (f : Course → Course) (e : Instr) : (s.due e).onCourse tk c f = (s.onCourse tk c f).due e := rfl

theorem kin_performLanes {perf : State → Who → LaneAcc → State × LaneRes} (h : ∀ s w q, Kin s (perf s w q).1) (w : Nat → Who) (l : List LaneAcc)
    (s : State) : Kin s (performLanes perf w s l).1 := by
  induction l generalizing s with
  | nil => exact .refl s
  | cons q t ih => exact (h s _ q).trans (ih _)

theorem performLanes_accs (perf : State → Who → LaneAcc → State × LaneRes) (w : Nat → Who) (l : List LaneAcc) (s : State) :
    (performLanes perf w s l).2.map (fun o => o.q) = l := by
  induction l generalizing s with
  | nil => rfl
  | cons q t ih => simp only [performLanes, List.map_cons, ih]

theorem kin_memAccesses {sp : MemSpec} (h : ∀ s w q, Kin s (sp.perf s w q).1) (s : State) (tk : Nat) (t : Team) (c : Nat) :
    Kin s (s.memAccesses tk t c sp).1 := by
  unfold State.memAccesses
  dsimp only
  split
  · split
    · exact .refl s
    · exact h _ _ _
  · exact kin_performLanes h _ _ _

theorem laneAcc_lane (sp : MemSpec) (x : Course) (v : View) (lead l : Nat) : (sp.laneAcc x v lead l).lane = l := by
  unfold MemSpec.laneAcc
  dsimp only
  split
  · split <;> rfl
  · rfl

/-- The accesses of an instruction are those of its lanes, in order. -/
theorem memAccesses_lanes (s : State) (tk : Nat) (t : Team) (c : Nat) (sp : MemSpec) :
    (s.memAccesses tk t c sp).2.map (fun o => o.q.lane) = memLanes (courseIn s t 3 c) sp := by
  have e : ∀ ls : List Nat, (ls.map fun l => sp.laneAcc (courseIn s t 3 c).course (srcView (courseIn s t 3 c).rd sp.ty sp.addr)
      ((courseIn s t 3 c).parts.headD 0) l).map (fun q => q.lane) = ls := by
    intro ls
    rw [List.map_map]
    conv_rhs => rw [← List.map_id ls]
    congr 1
    funext l
    exact laneAcc_lane ..
  unfold State.memAccesses
  dsimp only
  split
  · split
    · next h => have := e (memLanes (courseIn s t 3 c) sp); rw [h] at this; exact this
    · rw [List.map_map]; exact e _
  · have := performLanes_accs sp.perf (fun l => s.whoOf tk t c [l]) ((memLanes (courseIn s t 3 c) sp).map fun l =>
      sp.laneAcc (courseIn s t 3 c).course (srcView (courseIn s t 3 c).rd sp.ty sp.addr) ((courseIn s t 3 c).parts.headD 0) l) s
    have h2 := congrArg (List.map fun q : LaneAcc => q.lane) this
    rw [List.map_map, e] at h2
    exact h2

theorem doneLanes_all {outs : List LaneOut} (h : ∀ o ∈ outs, ∃ v, o.res = .done v) (nd : (outs.map fun o => o.q.lane).Nodup) :
    doneLanes outs = (outs.map fun o => o.q.lane).map fun l => (l, outVals outs l) := by
  induction outs with
  | nil => rfl
  | cons o t ih =>
    obtain ⟨v, hv⟩ := h o (by simp)
    rw [List.map_cons, List.nodup_cons] at nd
    have it := ih (fun o ho => h o (by simp [ho])) nd.2
    have e1 : doneLanes (o :: t) = (o.q.lane, v) :: doneLanes t := by
      unfold doneLanes; rw [List.filterMap_cons, hv]
    rw [e1, it, List.map_cons, List.map_cons]
    have e2 : outVals (o :: t) o.q.lane = v := by
      unfold outVals; simp [hv]
    rw [e2]
    congr 1
    apply List.map_congr_left
    intro l hl
    have : (o.q.lane == l) = false := by
      have : o.q.lane ≠ l := by rintro rfl; exact nd.1 hl
      simpa using this
    unfold outVals
    rw [List.find?_cons, this]

theorem logged_none {outs : List LaneOut} (h : ∀ o ∈ outs, ∃ v, o.res = .done v) : loggedAccs outs = [] := by
  unfold loggedAccs
  rw [List.filterMap_eq_nil_iff]
  intro o ho
  obtain ⟨v, e⟩ := h o ho
  rw [e]

theorem logAccess_none (s : State) (tk c : Nat) (acc : Access) (uniform : Bool) (lanes : List Nat) : s.logAccess tk c acc uniform lanes [] = s := by
  unfold State.logAccess
  cases FMap.get s.teams tk <;> rfl

theorem memOutOf_none {c : Nat} {outs : List LaneOut} (h : ∀ o ∈ outs, ∃ v, o.res = .done v) : memOutOf c outs = {} := by
  unfold memOutOf
  congr 1
  · rw [List.filterMap_eq_nil_iff]
    intro o ho
    obtain ⟨v, e⟩ := h o ho
    rw [e]
  · rw [List.filterMap_eq_nil_iff]
    intro o ho
    obtain ⟨v, e⟩ := h o ho
    rw [e]

theorem memLanes_all {s : State} {t : Team} {c : Nat} {sp : MemSpec} (hr : Readable s t [(sp.ty, sp.addr)]) :
    staleLanes [srcView (courseIn s t 3 c).rd sp.ty sp.addr] (courseIn s t 3 c).parts = [] ∧ memLanes (courseIn s t 3 c) sp = lanesIn s.issue.parts c := by
  have e : staleLanes [srcView (courseIn s t 3 c).rd sp.ty sp.addr] (courseIn s t 3 c).parts = [] := by
    apply stale_nil
    intro l hl v hv
    rw [List.mem_singleton] at hv
    subst hv
    exact hr (c, l) (mem_lanesIn.mp hl) (sp.ty, sp.addr) (by simp)
  refine ⟨e, ?_⟩
  unfold memLanes
  dsimp only
  rw [e, filter_not_nil]
  rfl

theorem parts_nodup {s : State} {t : Team} {c : Nat} (h : OneCourse s t c) : (lanesIn s.issue.parts c).Nodup :=
  (h.lifted.ascending c).2.imp fun h => Nat.ne_of_lt h

theorem reap_loads (z : Course) (n : Nat) (v : List PendingLoad) : ({ z with loads := v } : Course).reap n = { z.reap n with loads := v } := by
  by_cases h : (z.liveMask &&& ~~~(nth z.dead n 0)) == 0
  · have h' : (({ z with loads := v } : Course).liveMask &&& ~~~(nth ({ z with loads := v } : Course).dead n 0)) == 0 := h
    rw [Course.reap, Course.reap, if_pos h, if_pos h']
    rfl
  · have h' : ¬ (({ z with loads := v } : Course).liveMask &&& ~~~(nth ({ z with loads := v } : Course).dead n 0)) == 0 := h
    rw [Course.reap, Course.reap, if_neg h, if_neg h']

theorem reapSources_loads (z : Course) (srcs : List Operand) (v : List PendingLoad) :
    ({ z with loads := v } : Course).reapSources srcs = { z.reapSources srcs with loads := v } := by
  unfold Course.reapSources
  generalize (srcs.flatMap fun o => lastNames o.1 o.2) = ns
  induction ns generalizing z with
  | nil => rfl
  | cons n t ih => rw [List.foldl_cons, List.foldl_cons, reap_loads]; exact ih (z.reap n)

theorem Written.trans {a b c : Course} {r1 r2 ls : List Nat} (h : Written a b r1 [] ls) (k : Written b c r2 [] ls) : Written a c (r1 ++ r2) [] ls := by
  have live : b.live = a.live := h.threads.live
  refine ⟨k.ok, h.threads.trans k.threads, ?_, ?_, ?_, ?_, ?_, ?_, h.rest.trans k.rest⟩
  · exact (h.saved.mono fun x hx => namesAny_mono (by simp) (by simp) hx).trans h.threads (k.saved.mono fun x hx => namesAny_mono (by simp) (by simp) hx)
  · intro n l hl hn
    rw [k.reg n l (by rw [live]; exact hl) (fun e => hn ⟨by simp [e.1], e.2⟩), h.reg n l hl fun e => hn ⟨by simp [e.1], e.2⟩]
  · intro n hn l hl
    simp only [List.mem_append, not_or] at hn
    rw [k.free n hn.2 l (by rw [live]; exact hl), h.free n hn.1 l hl]
  · intro n l hl hn
    rw [k.dead n l (by rw [live]; exact hl) (fun e => hn ⟨by simp [e.1], e.2⟩), h.dead n l hl fun e => hn ⟨by simp [e.1], e.2⟩]
  · intro n l hl hn
    obtain ⟨a1, a2⟩ := h.opf n l hl (by simp)
    obtain ⟨b1, b2⟩ := k.opf n l (by rw [live]; exact hl) (by simp)
    exact ⟨b1.trans a1, fun e => (b2 (by simp)).trans (a2 (by simp))⟩
  · intro j h1 h2
    have e := h.latch j (fun n hn => h1 n (by simp [hn])) h2
    rw [← e] at h1 h2 ⊢
    exact k.latch j (fun n hn => h1 n (by simp [hn])) h2

/-- A write of one 32-bit name per lane. -/
theorem write32 {z : Course} (hz : z.Ok) (hlt : ∀ l ∈ z.live, l < 32) {full : Bool} {L : List Nat} {n : Nat} (hn : n < 64) {sh : Shape} {v : Nat → W64}
    (hL : ∀ l ∈ L, l ∈ z.live) (hfull : full = true → ∀ l ∈ z.live, l ∈ L) (hsh : sh = .g ∨ (sh = .u ∧ ∀ l k, v l = v k)) :
    Written z (z.writeReg full L false n ⟨sh, v⟩) [n] [] L ∧ ∀ l ∈ L, regRow (z.writeReg full L false n ⟨sh, v⟩) n l = lo32 (v l) := by
  obtain ⟨w, val, _⟩ := writeDst_spec (c := z) hz hlt (full := full) (ls := L) (wide := false) (d := .reg ⟨n, hn⟩) (r := ⟨sh, v⟩) rfl hL hfull
    (fun _ => ⟨fun h l _ => by
        rcases hsh with e | e
        · rw [e] at h; cases h
        · exact e.2 _ _,
      fun h => by
        rcases hsh with e | e
        · rw [e] at h; cases h
        · rw [e.1] at h; cases h⟩)
  refine ⟨w, fun l hl => ?_⟩
  have k := val (by simp) l hl
  simp only [dstRead, regView, resultOf, Bool.false_eq_true, if_false] at k
  have := congrArg lo32 k
  simpa [Course.writeDst] using this

theorem vals_at {L : List Nat} {f : Nat → List W32} {l : Nat} (hl : l ∈ L) : nth (L.map f) (L.idxOf l) [] = f l := by
  have h : L.idxOf l < L.length := List.idxOf_lt_length_iff.mpr hl
  unfold nth
  rw [List.getElem?_map, List.getElem?_eq_getElem h]
  simp

/-- What an access leaves in its course at once, and what is on its way to it. -/
structure Gives (acc : Access) (full one : Bool) (L : List Nat) (vals : Nat → List W32) (z : Course) (regs ps : List Nat) (loads : List PendingLoad) : Prop where
  written : ∃ W, Written z W regs [] L ∧ (∀ n ∈ regs, ∀ l ∈ L, regRow W n l = nth (vals l) (n - acc.aux) 0) ∧
    ({ z.give acc full one L (L.map vals) with loads := z.loads } : Course) = W.dropLatches ps L
  loads : (z.give acc full one L (L.map vals)).loads = z.loads ++ loads

theorem gives_load {acc : Access} (hb : acc.kind.comesBack = true) {full one : Bool} {L : List Nat} {vals : Nat → List W32} {z : Course} (hz : z.Ok) :
    Gives acc full one L vals z [] (if acc.kind.latches then [] else [3]) [memLoad acc full one L vals] := by
  have key : z.give acc full one L (L.map vals) =
      (let x : Course := { z with loads := z.loads ++ [memLoad acc full one L vals] }
       if acc.kind.latches then x else x.dropLatch 3 L) := by
    unfold Course.give memLoad
    cases hk : acc.kind <;> rw [hk] at hb <;> first | rfl | (exfalso; revert hb; simp [AccKind.comesBack])
  refine ⟨⟨z, .rfl' hz L, fun _ h => (by cases h), ?_⟩, ?_⟩
  · rw [key]; dsimp only; split <;> rfl
  · rw [key]; dsimp only; split <;> rfl

theorem gives_store {acc : Access} {n : Nat} (hb : acc.kind = .store n) {full one : Bool} {L : List Nat} {vals : Nat → List W32} {z : Course} (hz : z.Ok) :
    Gives acc full one L vals z [] [3] [] := by
  have key : z.give acc full one L (L.map vals) = z.dropLatch 3 L := by unfold Course.give; rw [hb]
  refine ⟨⟨z, .rfl' hz L, fun _ h => (by cases h), ?_⟩, ?_⟩
  · rw [key]; rfl
  · rw [key]; exact (List.append_nil _).symm

theorem gives_none {acc : Access} (hb : acc.kind = .mon) {full one : Bool} {L : List Nat} {vals : Nat → List W32} {z : Course} (hz : z.Ok) :
    Gives acc full one L vals z [] [] [] := by
  have key : z.give acc full one L (L.map vals) = z := by unfold Course.give; rw [hb]
  refine ⟨⟨z, .rfl' hz L, fun _ h => (by cases h), ?_⟩, ?_⟩
  · rw [key]; rfl
  · rw [key]; exact (List.append_nil _).symm

theorem gives_stamp {acc : Access} {n : Nat} (hb : acc.kind = .sts n) (ha : acc.aux + 1 < 64) {full : Bool} {L : List Nat} {vals : Nat → List W32} {z : Course}
    (hz : z.Ok) (hlt : ∀ l ∈ z.live, l < 32) (hL : ∀ l ∈ L, l ∈ z.live) (hfull : full = true → ∀ l ∈ z.live, l ∈ L) :
    Gives acc full false L vals z [acc.aux, acc.aux + 1] [3] [] := by
  let val (k l : Nat) : W64 := zx64 (nth (nth (L.map vals) (L.idxOf l) []) k 0)
  have key : z.give acc full false L (L.map vals) =
      ((z.writeReg full L false acc.aux ⟨.g, val 0⟩).writeReg full L false (acc.aux + 1) ⟨.g, val 1⟩).dropLatch 3 L := by unfold Course.give; rw [hb]; rfl
  obtain ⟨w1, v1⟩ := write32 hz hlt (n := acc.aux) (by omega) (sh := .g) (v := val 0) hL hfull (.inl rfl)
  have live1 : (z.writeReg full L false acc.aux ⟨.g, val 0⟩).live = z.live := w1.threads.live
  obtain ⟨w2, v2⟩ := write32 w1.ok (by rw [live1]; exact hlt) (n := acc.aux + 1) ha (sh := .g) (v := val 1) (by rw [live1]; exact hL) (by rw [live1]; exact hfull) (.inl rfl)
  have w := w1.trans w2
  refine ⟨⟨_, w, fun k hk l hl => ?_, ?_⟩, ?_⟩
  · have at0 : ∀ j, lo32 (val j l) = nth (vals l) j 0 := by
      intro j
      show lo32 (zx64 _) = _
      rw [vals_at hl]; simp
    simp only [List.mem_cons, List.not_mem_nil, or_false] at hk
    rcases hk with rfl | rfl
    · rw [w2.reg acc.aux l (by rw [live1]; exact hL l hl) (by simp), v1 l hl, at0]; simp
    · rw [v2 l hl, at0]; simp
  · rw [key]
    have : ((z.writeReg full L false acc.aux ⟨.g, val 0⟩).writeReg full L false (acc.aux + 1) ⟨.g, val 1⟩).loads = z.loads := w.rest.loads
    show ({ Course.dropLatch _ 3 L with loads := z.loads } : Course) = Course.dropLatch _ 3 L
    rw [← this]
    rfl
  · rw [key, List.append_nil]
    exact w.rest.loads

/-- The reads of a memory instruction, on its course. -/
def Course.memRead (x : Course) (srcs : List Operand) (rd ls : List Nat) : Course := (x.onThreads rd fun _ t => t.setReadFree).markSources srcs ls

/-- A memory instruction on one course, from its reads to the freeing of what it has read for the last time. -/
theorem mem_serves {s s1 : State} {t t1 : Team} {c : Nat} {srcs : List Operand} {acc : Access} {full one : Bool} {vals : Nat → List W32}
    {regs ps ps2 : List Nat} {loads : List PendingLoad} {rd ls : List Nat} {free : Nat → Bool} (h : OneCourse s t c)
    (hs : ∀ o ∈ srcs, o.2.pairOk o.1 = true) (hk : Kin s s1) (ht : FMap.get s1.teams s.issue.team = some t1) (ps4 : ∀ p ∈ ps ++ ps2, p < 4)
    (hread : ∀ l, rd.contains l = ((lanesIn s.issue.parts c).contains l && free l)) (hls : ∀ l, l ∈ ls ↔ l ∈ lanesIn s.issue.lift c)
    (hg : ∀ z : Course, z.Ok → z.live = (t.course c).live → Gives acc full one (lanesIn s.issue.parts c) vals z regs ps loads) :
    Served s s1 (({ s1.onCourse s.issue.team c fun x =>
        (((x.memRead srcs rd ls).give acc full one (lanesIn s.issue.parts c) ((lanesIn s.issue.parts c).map vals)).dropLatches ps2
          (lanesIn s.issue.parts c)).reapSources srcs with
        agenda := s1.agenda ++ loads.map fun _ => .loadComplete ⟨s.issue.team, c⟩ } : State).finishWith {})
      t1 c srcs regs (fun n l => nth (vals l) (n - acc.aux) 0) (ps ++ ps2) free loads fun _ th => th := by
  have fit := fit_of h
  obtain ⟨t', g, ak⟩ := hk.teams _ _ h.lifted.team
  rw [ht] at g; cases g
  obtain ⟨x1, hx, ak1⟩ := ak c _ (one_course h)
  have sound1 := ak1.sound (one_sound h)
  have live1 := ak1.live
  obtain ⟨ok1, _⟩ := Course.sound_ok sound1
  set L := lanesIn s.issue.parts c with hL
  set c1 := x1.onThreads rd fun _ t => t.setReadFree with hc1
  have u1 : Updated x1 c1 fun l th => if L.contains l && free l then th.setReadFree else th :=
    (onThreads_updated x1 rd fun _ t => t.setReadFree).congr fun l th => by rw [hread l]
  have okc1 : c1.Ok := by rw [u1.eq]; exact ⟨ok1.names, ok1.dead, ok1.opf, ok1.latches, ok1.links, ok1.opfLinks⟩
  obtain ⟨okz, livez⟩ := markSources_ok okc1 hs (lanesIn s.issue.lift c)
  obtain ⟨⟨W, hw, hv, he⟩, hlo⟩ := hg _ okz (livez.trans (u1.live.trans live1))
  have hlift : ∀ l ∈ lanesIn s.issue.lift c, l ∈ x1.live := by rw [live1]; exact fit.lift
  obtain ⟨fr, va, lo⟩ := serve_spec (ps := ps ++ ps2) (parts := L) sound1 hlift fit.parts hs u1 hw hv ps4
  have emark : x1.memRead srcs rd ls = c1.markSources srcs (lanesIn s.issue.lift c) := markSources_congr c1 srcs hls
  set z := c1.markSources srcs (lanesIn s.issue.lift c) with hz
  have zl : z.loads = x1.loads := by
    obtain ⟨dm, e2, _, _⟩ := markAll_spec (lastOf srcs) (maskOf (lanesIn s.issue.lift c)) c1 okc1.dead (lastOf_lt_of_ok srcs hs)
    have e2' : z = { c1 with dead := dm } := e2
    rw [e2']; rfl
  have dl : ∀ (q : List Nat) (x : Course) (v : List PendingLoad), ({ x with loads := v } : Course).dropLatches q L = { x.dropLatches q L with loads := v } := by
    intro q
    induction q with
    | nil => exact fun _ _ => rfl
    | cons p q ih => exact fun x v => ih (x.dropLatch p L) v
  have dapp : W.dropLatches (ps ++ ps2) L = (W.dropLatches ps L).dropLatches ps2 L := List.foldl_append
  set Y := z.give acc full one L (L.map vals) with hY
  have e1 : ((Y.dropLatches ps2 L).reapSources srcs) = { (W.dropLatches (ps ++ ps2) L).reapSources srcs with loads := x1.loads ++ loads } := by
    have ey : Y = { W.dropLatches ps L with loads := x1.loads ++ loads } := by rw [← he, ← zl, ← hlo]
    rw [ey, dl, reapSources_loads, dapp]
  have frl := fr.rest.2.2.1
  have sv := served_of (s1 := s1) (t1 := t1) (g := fun x => (((x.memRead srcs rd ls).give acc full one L (L.map vals)).dropLatches ps2 L).reapSources srcs)
    (loads := loads) (srcs := srcs) (regs := regs) (ps := ps ++ ps2) (val := fun n l => nth (vals l) (n - acc.aux) 0) (free := free) (upd := fun _ th => th)
    h hk.issue hk.cycle ht hx
  apply sv
  · rw [emark, e1]
  · dsimp only
    rw [emark, e1]
    have : ({ ({ (W.dropLatches (ps ++ ps2) L).reapSources srcs with loads := x1.loads ++ loads } : Course) with loads := x1.loads } : Course) =
        (W.dropLatches (ps ++ ps2) L).reapSources srcs := by
      show ({ (W.dropLatches (ps ++ ps2) L).reapSources srcs with loads := x1.loads } : Course) = _
      rw [← frl]
    rw [this]
    exact fr.congr fun l th _ => by simp only [ite_self, ← hL]
  · rw [emark, e1]; exact va
  · rw [emark, e1]; exact lo

theorem giveValues_onCourse (s : State) (tk c : Nat) (acc : Access) (full one : Bool) (L : List Nat) (vals : List (List W32)) (f g : Course → Course) :
    ((s.onCourse tk c f).giveValues tk c acc full one L vals).onCourse tk c g =
      { s.onCourse tk c fun x => g ((f x).give acc full one L vals) with
        agenda := s.agenda ++ if acc.kind.comesBack then [.loadComplete ⟨tk, c⟩] else [] } := by
  unfold State.giveValues
  dsimp only
  split
  · rw [onCourse_due, onCourse_onCourse, onCourse_onCourse]; rfl
  · rw [onCourse_onCourse, onCourse_onCourse, List.append_nil]; rfl

/-- A lift of one course runs a per-course operation once. -/
theorem eachCourse_one {s s2 : State} {t : Team} {c : Nat} {f : State → Team → Nat → State × MemOut} (h : OneCourse s t c) (e : f s t c = (s2, {})) :
    s.eachCourse f = .next (s2.finishWith {}) := by
  unfold State.eachCourse
  rw [h.one]
  have hcur : s.curTeam = some t := h.lifted.team
  simp only [List.foldl_cons, List.foldl_nil, hcur, e, List.append_nil]

theorem idle_parts {s : State} {t : Team} {c : Nat} (h : OneCourse s t c) (l : Nat) :
    l ∈ ((lanesIn s.issue.lift c).filter fun l => !(lanesIn s.issue.parts c).contains l) ++ lanesIn s.issue.parts c ↔ l ∈ lanesIn s.issue.lift c := by
  simp only [List.mem_append, List.mem_filter, Bool.not_eq_true', List.contains_eq_mem, decide_eq_false_iff_not]
  constructor
  · rintro (a | a)
    · exact a.1
    · exact (fit_of h).parts l a
  · intro a
    by_cases b : l ∈ lanesIn s.issue.parts c
    · exact .inr b
    · exact .inl ⟨a, b⟩

theorem memOne_eq {s : State} {t : Team} {c : Nat} {sp : MemSpec} (hr : Readable s t [(sp.ty, sp.addr)]) :
    memOne (courseIn s t 3 c) sp = s.oneRead t c sp := by
  unfold memOne State.oneRead
  dsimp only
  rw [(memLanes_all (c := c) hr).1, List.isEmpty_nil, Bool.and_true]
  rfl

/-- What a lane-set memory instruction must do for `MemUnit`. -/
theorem memUnit_of {i : Instr} {sp : MemSpec} {regs : List Nat} (he : ∀ s, exec i s = s.laneMem sp) (hp : WellFormed i = true → sp.addr.pairOk sp.ty = true)
    (hk : ∀ s w q, Kin s (sp.perf s w q).1)
    (hg : WellFormed i = true → ∀ (full one : Bool) (L : List Nat) (vals : Nat → List W32) (z : Course), z.Ok → (∀ l ∈ z.live, l < 32) →
      (∀ l ∈ L, l ∈ z.live) → (full = true → ∀ l ∈ z.live, l ∈ L) → (one = true → ∃ n sg, sp.acc.kind = .load n sg) →
      Gives sp.acc full one L vals z regs (if sp.acc.kind.latches then [] else [3]) (if sp.acc.kind.comesBack then [memLoad sp.acc full one L vals] else [])) :
    MemUnit i sp regs := by
  intro hw s t c s1 outs t1 h hr ha hd ht
  have fit := fit_of h
  set L := lanesIn s.issue.parts c with hL
  obtain ⟨st0, ml⟩ := memLanes_all (c := c) hr
  have lanes := memAccesses_lanes s s.issue.team t c sp
  rw [ha, ml] at lanes
  have nd := parts_nodup h
  have dn := doneLanes_all hd (by rw [lanes]; exact nd)
  rw [lanes] at dn
  have lg := logged_none hd
  have mo := memOutOf_none (c := c) hd
  have k1 : Kin s s1 := by have := kin_memAccesses hk s s.issue.team t c; rw [ha] at this; exact this
  let full := fullCourse s.issue c (t.course c)
  let one := s.oneRead t c sp
  have hone : memOne (courseIn s t 3 c) sp = one := memOne_eq hr
  have hone_full : (one && full) = one := by
    show (s.oneRead t c sp && fullCourse s.issue c (t.course c)) = s.oneRead t c sp
    unfold State.oneRead
    cases fullCourse s.issue c (t.course c) <;> simp
  have lne : L ≠ [] := h.acts
  let rd := L.filter fun l => (srcView (courseIn s t 3 c).rd sp.ty sp.addr).free l || sp.acc.reads.any fun n => regFree (courseIn s t 3 c).course n l
  have sv := mem_serves (acc := sp.acc) (full := full) (one := one) (vals := outVals outs) (regs := regs) (ps := if sp.acc.kind.latches then [] else [3]) (ps2 := [])
    (loads := if sp.acc.kind.comesBack then [memLoad sp.acc full one L (outVals outs)] else []) (rd := rd) (free := memFree s t sp c)
    (srcs := [(sp.ty, sp.addr)]) h (by intro o ho; rw [List.mem_singleton] at ho; subst ho; exact hp hw) k1 ht
    (by intro p; rw [List.append_nil]; split <;> simp +contextual)
    (by
      intro l
      rw [← hL, Bool.eq_iff_iff, List.contains_iff_mem, Bool.and_eq_true, List.contains_iff_mem]
      exact List.mem_filter)
    (idle_parts h)
    (by
      intro z hz hl
      obtain ⟨_, hlt⟩ := Course.sound_ok (one_sound h)
      refine hg hw full one L (outVals outs) z hz (by rw [hl]; exact hlt) (by rw [hl]; exact fun l k => fit.lift l (fit.parts l k))
        (by rw [hl]; exact fun e => fullCourse_all e) ?_
      intro e
      have : (match sp.acc.kind with | .load _ _ => true | _ => false) = true := by
        have e' : s.oneRead t c sp = true := e
        unfold State.oneRead at e'
        simp only [Bool.and_eq_true] at e'
        exact e'.1.1.2
      split at this
      · next n sg e => exact ⟨n, sg, e⟩
      · cases this)
  rw [List.append_nil] at sv
  refine ⟨_, ?_, sv⟩
  rw [he]
  apply eachCourse_one h
  dsimp only
  unfold State.memCourse
  dsimp only
  rw [ha]
  dsimp only
  rw [dn, lg, logAccess_none, mo, st0, ml]
  have emap : (L.map fun l => (l, outVals outs l)).map Prod.fst = L := by
    rw [List.map_map]; conv_rhs => rw [← List.map_id L]
    rfl
  have emap2 : (L.map fun l => (l, outVals outs l)).map Prod.snd = L.map (outVals outs) := by rw [List.map_map]; rfl
  have enil : L.isEmpty = false := by simpa using lne
  rw [emap, emap2, enil]
  simp only [List.map_nil, List.append_nil, List.isEmpty_nil, Bool.and_true, Bool.false_eq_true, if_false, staleReqs]
  refine Prod.ext ?_ rfl
  show State.memReap _ _ _ _ = _
  unfold State.memReap State.memReads
  dsimp only
  have ef : (courseIn s t 3 c).full = full := rfl
  rw [hone, ef, ← hL, beq_self_eq_true, Bool.and_true, hone_full, giveValues_onCourse]
  have eag : (if sp.acc.kind.comesBack = true then [Instr.loadComplete ⟨s.issue.team, c⟩] else []) =
      (if sp.acc.kind.comesBack = true then [memLoad sp.acc full one L (outVals outs)] else []).map fun _ => Instr.loadComplete ⟨s.issue.team, c⟩ := by
    split <;> rfl
  rw [eag]
  rfl

/-- What a uniform-set memory instruction must do for `UniMemUnit`. -/
theorem uniMemUnit_of {i : Instr} {sp : MemSpec} {drop3 : Bool} (he : ∀ s, exec i s = s.uniMem sp) (hp : WellFormed i = true → sp.addr.pairOk sp.ty = true)
    (hk : ∀ s w q, Kin s (sp.perf s w q).1)
    (hg : WellFormed i = true → ∀ (full : Bool) (L : List Nat) (vals : Nat → List W32) (z : Course), z.Ok → 
      Gives sp.acc full full L vals z [] (if drop3 then [3] else []) (if sp.acc.kind.comesBack then [memLoad sp.acc full full L vals] else [])) :
    UniMemUnit i sp drop3 := by
  intro hw s t c s1 vals t1 h hr ha ht
  have fit := fit_of h
  set L := lanesIn s.issue.parts c with hL
  have lne : L ≠ [] := h.acts
  have lead_mem : s.leader c ∈ L := by
    unfold State.leader
    rw [← hL]
    cases e : L with
    | nil => exact absurd e lne
    | cons a r => simp
  have k1 : Kin s s1 := by
    have := hk s (s.whoOf s.issue.team t c L) (sp.laneAcc (t.course c) (srcView (s.reads t c) sp.ty sp.addr) (s.leader c) (s.leader c))
    rw [ha] at this; exact this
  let full := allParticipate s.issue c (t.course c)
  let rd := (L.take 1).filter fun l => (srcView (courseIn s t 2 c).rd sp.ty sp.addr).free l || sp.acc.reads.any fun n => regFree (courseIn s t 2 c).course n l
  have take1 : ∀ l, l ∈ L.take 1 ↔ l = s.leader c := by
    intro l
    unfold State.leader
    rw [← hL]
    cases e : L with
    | nil => exact absurd e lne
    | cons a r => simp
  have sv := mem_serves (acc := sp.acc) (full := full) (one := full) (vals := fun _ => vals) (regs := []) (ps := if drop3 then [3] else []) (ps2 := [2])
    (loads := if sp.acc.kind.comesBack then [memLoad sp.acc full full L fun _ => vals] else []) (rd := rd)
    (free := fun l => l == s.leader c && memFree s t sp c l)
    (srcs := [(sp.ty, sp.addr)]) h (by intro o ho; rw [List.mem_singleton] at ho; subst ho; exact hp hw) k1 ht
    (by cases drop3 <;> decide)
    (by
      intro l
      rw [← hL, Bool.eq_iff_iff, List.contains_iff_mem, Bool.and_eq_true, List.contains_iff_mem]
      show l ∈ List.filter _ _ ↔ _
      rw [List.mem_filter, take1, Bool.and_eq_true, beq_iff_eq]
      constructor
      · rintro ⟨rfl, b⟩; exact ⟨lead_mem, rfl, b⟩
      · rintro ⟨_, rfl, b⟩; exact ⟨rfl, b⟩)
    (idle_parts h)
    (fun z hz _ => hg hw full L (fun _ => vals) z hz)
  have eps : ((if drop3 then [3] else []) ++ [2] : List Nat) = if drop3 then [3, 2] else [2] := by cases drop3 <;> rfl
  rw [eps] at sv
  refine ⟨_, ?_, ⟨sv.agenda, ?_⟩⟩
  · rw [he]
    apply eachCourse_one h
    have eparts : (courseIn s t 2 c).parts = L := rfl
    have enil : L.isEmpty = false := by simpa using lne
    have est : (srcView (courseIn s t 2 c).rd sp.ty sp.addr).stale (courseIn s t 2 c).lead = false :=
      hr (c, s.leader c) (mem_lanesIn.mp lead_mem) (sp.ty, sp.addr) (by simp)
    have ha' : sp.perf s (s.whoOf s.issue.team t c L) (sp.laneAcc (courseIn s t 2 c).course (srcView (courseIn s t 2 c).rd sp.ty sp.addr)
        (courseIn s t 2 c).lead (courseIn s t 2 c).lead) = (s1, .done vals) := ha
    simp only [State.uniMemCourse, eparts, enil, est, ha', Bool.false_eq_true, if_false]
    refine Prod.ext ?_ rfl
    show State.memReap _ _ _ _ = _
    unfold State.memReap State.memReads
    dsimp only
    rw [onCourse_onCourse, giveValues_onCourse]
    have eag : (if sp.acc.kind.comesBack = true then [Instr.loadComplete ⟨s.issue.team, c⟩] else []) =
        (if sp.acc.kind.comesBack = true then [memLoad sp.acc full full L fun _ => vals] else []).map fun _ => Instr.loadComplete ⟨s.issue.team, c⟩ := by
      split <;> rfl
    rw [eag]
    rfl
  · have e0 : (fun (n l : Nat) => nth ((fun _ : Nat => vals) l) (n - sp.acc.aux) 0) = fun n _ => nth vals (n - sp.acc.aux) 0 := rfl
    have := sv.effect
    obtain ⟨cs, h1, h2, h3⟩ := this.courses
    refine ⟨⟨cs, h1, h2, fun k hk => ?_⟩, this.teams, this.core, this.cores, this.rest⟩
    obtain ⟨x, g, a, b, _, d⟩ := h3 k hk
    exact ⟨x, g, a, b, fun n hn => absurd hn (by simp), d⟩

/-! ## Levels -/

theorem kin_levelWrite (s : State) (t : Team) (tk : Nat) (l : Level) (o : Nat) (b : List Byte) : Kin s (s.levelWrite t tk l o b) := by
  unfold State.levelWrite
  cases l
  · exact kin_modify _ _ _ fun _ => .of_eq rfl
  · exact kin_modify _ _ _ fun _ => .of_eq rfl
  · exact kin_setPart _ _ _

theorem kin_levelLane (s : State) (w : Who) (t : Team) (l : Level) (k : AccKind) (q : LaneAcc) : Kin s (s.levelLane w t l k q).1 := by
  unfold State.levelLane
  dsimp only
  split
  · exact .refl s
  · split
    · exact .refl s
    · split
      · exact .refl s
      · split
        all_goals first
          | exact kin_levelWrite _ _ _ _ _ _
          | exact .refl s
          | (split <;> first | exact .refl s | exact kin_levelWrite _ _ _ _ _ _)
          | (split
             · exact .refl s
             · split <;> first | exact .refl s | exact kin_levelWrite _ _ _ _ _ _)

theorem kin_privateLane (s : State) (w : Who) (k : Nat) (acc : AccKind) (q : LaneAcc) : Kin s (s.privateLane w k acc q).1 := by
  unfold State.privateLane
  dsimp only
  split
  · exact .refl s
  · split
    · exact .refl s
    · split
      · exact kin_onWho _ _ _
      · exact .refl s

theorem kin_levelSpec (l : Level) (acc : Access) (a : Src) (disp : Int) (s : State) (w : Who) (q : LaneAcc) :
    Kin s ((levelSpec l acc a disp).perf s w q).1 := by
  unfold levelSpec
  dsimp only
  split
  · exact kin_levelLane _ _ _ _ _ _
  · exact .refl s

theorem kin_levelAccess (l : XLevel) (acc : Access) (a : Src) (disp : Int) (s : State) (w : Who) (q : LaneAcc) :
    Kin s ((levelAccess l acc a disp).perf s w q).1 := by
  cases l
  · exact kin_levelSpec _ _ _ _ _ _ _
  · exact kin_levelSpec _ _ _ _ _ _ _
  · exact kin_levelSpec _ _ _ _ _ _ _
  · show Kin s ((privateSpec acc a disp).perf s w q).1
    unfold privateSpec
    dsimp only
    split
    · exact kin_privateLane _ _ _ _ _
    · exact .refl s

end Sys2Proof.Machine
end

