-- ==== Sys2Proof/Laws/Memory.lean ====
section
/-!
SUPPORT. Every operation on memory keeps the canonical form (Bytes.wf) of the device's home memory, of the host's memory behind the
windows and of the other devices' memory as this one sees it; the memories after reset have it.
-/

namespace Sys2Proof.Machine

/-- Where the memories of `s` are in canonical form, those of `u` are. -/
structure Tame (s u : State) : Prop where
  mem : Bytes.wf s.mem = true → Bytes.wf u.mem = true
  hostMem : Bytes.wf s.hostMem = true → Bytes.wf u.hostMem = true
  peers : (∀ k p, FMap.get s.peers k = some p → Bytes.wf p.mem = true) → ∀ k p, FMap.get u.peers k = some p → Bytes.wf p.mem = true

theorem reset_mem_wf : Bytes.wf State.reset.mem = true := rfl
theorem reset_hostMem_wf : Bytes.wf State.reset.hostMem = true := rfl

theorem Tame.of_eq {s u : State} (hm : u.mem = s.mem) (hh : u.hostMem = s.hostMem) (hp : u.peers = s.peers) : Tame s u :=
  ⟨fun h => hm ▸ h, fun h => hh ▸ h, fun h => hp ▸ h⟩
theorem Tame.refl (s : State) : Tame s s := .of_eq rfl rfl rfl
theorem Tame.trans {s u v : State} (h : Tame s u) (k : Tame u v) : Tame s v :=
  ⟨fun w => k.mem (h.mem w), fun w => k.hostMem (h.hostMem w), fun w => k.peers (h.peers w)⟩

theorem Tame.after {s u v : State} (k : Tame u v) (hm : u.mem = s.mem) (hh : u.hostMem = s.hostMem) (hp : u.peers = s.peers) : Tame s v :=
  (Tame.of_eq hm hh hp).trans k

theorem Tame.before {s u v : State} (k : Tame s u) (hm : v.mem = u.mem) (hh : v.hostMem = u.hostMem) (hp : v.peers = u.peers) : Tame s v :=
  k.trans (Tame.of_eq hm hh hp)

theorem Tame.fold {α : Type} {f : State → α → State} (h : ∀ s a, Tame s (f s a)) (l : List α) (s : State) : Tame s (l.foldl f s) := by
  induction l generalizing s with
  | nil => exact .refl s
  | cons a t ih => exact (h s a).trans (ih (f s a))

/-- A change of one team that keeps its courses. -/
theorem tame_onThread (s : State) (tk c l : Nat) (f : Thread → Thread) : Tame s (s.onThread tk c l f) := .of_eq rfl rfl rfl

theorem tame_onWho (s : State) (w : Who) (f : Thread → Thread) : Tame s (s.onWho w f) := by
  unfold State.onWho
  exact .fold (fun s l => tame_onThread s _ _ l f) _ s

theorem tame_setCore (s : State) (k : Nat) (c : Core) : Tame s (s.setCore k c) := .of_eq rfl rfl rfl
theorem tame_setPart (s : State) (k : Nat) (p : Partition) : Tame s (s.setPart k p) := .of_eq rfl rfl rfl
theorem tame_setSlice (s : State) (k : Nat) (x : Slice) : Tame s (s.setSlice k x) := .of_eq rfl rfl rfl
theorem tame_due (s : State) (e : Instr) : Tame s (s.due e) := .of_eq rfl rfl rfl

/-! ## Memory -/

theorem tame_fireMonitors (s : State) (dev : Option Nat) (line : Nat) : Tame s (s.fireMonitors dev line) := .of_eq rfl rfl rfl

/-- Writing bytes of a line one by one keeps the canonical form. -/
theorem Bytes.wf_scatter (l : List (Nat × Byte)) (a : Nat) (m : Bytes) (w : Bytes.wf m = true) :
    Bytes.wf (l.foldl (fun (m : Bytes) (p : Nat × Byte) => m.write (a + p.1) p.2) m) = true := by
  induction l generalizing m with
  | nil => exact w
  | cons p t ih => exact ih _ (Bytes.wf_write m _ _ w)

theorem tame_performDirty (s : State) (core line : Nat) : Tame s (s.performDirty core line) := by
  unfold State.performDirty
  dsimp only
  split
  · exact .refl s
  · split
    · exact tame_setCore _ _ _
    · refine Tame.trans ?_ (tame_fireMonitors _ none line)
      exact ⟨Bytes.wf_scatter _ _ _, id, id⟩

theorem tame_recall (s : State) (line : Nat) (e : Option Nat) : Tame s (s.recall line e) := by
  unfold State.recall
  dsimp only
  exact .fold (fun s k => (tame_performDirty s k line).trans (tame_setCore _ _ _)) _ s

theorem tame_recallAll (s : State) (ls : List Nat) (e : Option Nat) : Tame s (ls.foldl (fun s l => s.recall l e) s) :=
  .fold (fun s l => tame_recall s l e) _ s

theorem tame_homeWrite (s : State) (pa : Nat) (b : List Byte) : Tame s (s.homeWrite pa b) := by
  unfold State.homeWrite
  dsimp only
  refine (tame_recallAll s (linesOf pa b.length) none).trans (Tame.trans ?_ (.fold (fun s l => tame_fireMonitors s none l) _ _))
  exact ⟨Bytes.wf_writeN _ _ _, id, id⟩

theorem tame_l1Fill (s : State) (core a : Nat) : Tame s (s.l1Fill core a) := by
  unfold State.l1Fill
  dsimp only
  split
  · exact .refl s
  · exact tame_setCore _ _ _

theorem tame_l1Read (s : State) (core pa n : Nat) : Tame s (s.l1Read core pa n).1 := by
  unfold State.l1Read
  dsimp only
  split
  · exact .refl s
  · exact .fold (fun s a => tame_l1Fill s core a) _ s

theorem tame_l1Write (s : State) (core pa : Nat) (b : List Byte) : Tame s (s.l1Write core pa b) := tame_setCore _ _ _

theorem tame_writeBack (s : State) (core line : Nat) : Tame s (s.writeBack core line) := by
  unfold State.writeBack
  split
  · exact .refl s
  · exact (tame_recall s line _).trans (tame_performDirty _ core line)

theorem tame_writeBackAll (s : State) (core : Nat) : Tame s (s.writeBackAll core) := by
  unfold State.writeBackAll
  exact .fold (fun s (p : Nat × L1Line) => tame_writeBack s core p.1) _ s
theorem tame_invalidateClean (s : State) (core : Nat) : Tame s (s.invalidateClean core) := tame_setCore _ _ _

theorem tame_own (s : State) (core line : Nat) : Tame s (s.own core line) := by
  unfold State.own
  dsimp only
  split
  · exact tame_recall _ _ _
  · exact (tame_recall s line _).trans (tame_setCore _ _ _)

theorem tame_dropBytes (s : State) (core pa n : Nat) : Tame s (s.dropBytes core pa n) := tame_setCore _ _ _

theorem tame_ownReach (s : State) (core pa n : Nat) (recalls : Bool) : Tame s (s.ownReach core pa n recalls) := by
  unfold State.ownReach
  refine .trans (.fold (fun s l => ?_) _ s) (tame_dropBytes _ _ _ _)
  split
  · exact (tame_recall s l none).trans (tame_writeBack _ core l)
  · exact tame_writeBack _ core l

theorem tame_forgetUnit (s : State) (unit : Nat) : Tame s (s.forgetUnit unit) := by
  unfold State.forgetUnit
  dsimp only
  split
  · exact .of_eq rfl rfl rfl
  · refine ⟨id, id, fun h k p hp => ?_⟩
    dsimp only at hp
    rw [FMap.get_modify] at hp
    split at hp
    · obtain ⟨y, hy, rfl⟩ := Option.map_eq_some_iff.mp hp
      exact h _ y hy
    · exact h _ _ hp

theorem tame_notePage (s : State) (unit part page : Nat) (b : Bool) : Tame s (s.notePage unit part page b) := .of_eq rfl rfl rfl

theorem tame_seePage (s : State) (part : Nat) (dev : Option Nat) (va pa : Nat) (b : Bool) : Tame s (s.seePage part dev va pa b) := by
  unfold State.seePage
  dsimp only
  split
  · exact (tame_forgetUnit s _).trans (tame_notePage _ _ _ _ _)
  · exact tame_notePage _ _ _ _ _
  · exact tame_notePage _ _ _ _ _
  · split
    · exact tame_notePage _ _ _ _ _
    · exact .refl s
  · exact .refl s
  · exact .refl s

theorem tame_homeRead (s : State) (core pa n : Nat) : Tame s (s.homeRead core pa n).1 := by
  unfold State.homeRead
  exact tame_recallAll s _ none

theorem tame_remoteWrite (s : State) (dev pa : Nat) (b : List Byte) : Tame s (s.remoteWrite dev pa b) := by
  unfold State.remoteWrite
  split
  · exact tame_homeWrite _ _ _
  · dsimp only
    refine Tame.trans ?_ (.fold (fun s l => tame_fireMonitors s _ l) _ _)
    refine ⟨id, id, fun h k p hp => ?_⟩
    dsimp only at hp
    rw [FMap.get_set] at hp
    split at hp
    · cases hp
      refine Bytes.wf_writeN _ _ _ ?_
      unfold State.peer
      cases e : FMap.get s.peers dev with
      | none => rfl
      | some q => exact h _ _ e
    · exact h _ _ hp

theorem tame_translate (s : State) (core : Option Nat) (part : Nat) (user : Bool) (m : AccMode) (va : W64) : Tame s (s.translate core part user m va).1 := by
  unfold State.translate
  split
  · exact .refl s
  · dsimp only
    split
    · exact .refl s
    · split
      · exact .refl s
      · cases core
        · exact .refl s
        · dsimp only
          split
          · exact tame_setCore _ _ _
          · exact .refl s

theorem tame_readClock (s : State) (d : Nat) : Tame s (s.readClock d).1 := .of_eq rfl rfl rfl

theorem tame_postError (s : State) (hit : Nat → Bool) (a b c d e f g : Nat) : Tame s (s.postError hit a b c d e f g) := by
  unfold State.postError
  dsimp only
  refine (tame_readClock s 0).trans (Tame.before (u := List.foldl _ _ _) (Tame.fold (fun s k => ?_) _ _) rfl rfl rfl)
  exact .of_eq rfl rfl rfl

theorem tame_logError (s : State) (a b c d e f g : Nat) : Tame s (s.logError a b c d e f g) := tame_postError _ _ _ _ _ _ _ _ _

theorem tame_logPoison (s : State) (pa n va slice : Nat) : Tame s (s.logPoison pa n va slice) := by
  unfold State.logPoison
  refine .fold (fun s g => ?_) _ s
  split <;> exact tame_logError s _ _ _ _ _ _ _

theorem tame_meetPoison (s : State) (w : Who) (pa n : Nat) (a : W64) : Tame s (s.meetPoison w pa n a).1 := by
  unfold State.meetPoison
  dsimp only
  split
  · exact (tame_logError s _ _ _ _ _ _ _).trans (tame_logPoison _ _ _ _ _)
  · exact tame_logPoison _ _ _ _ _

theorem tame_meetPoisonAt (s : State) (w : Who) (dev : Option Nat) (pa n : Nat) (a : W64) : Tame s (s.meetPoisonAt w dev pa n a).1 := by
  unfold State.meetPoisonAt
  split
  · exact tame_meetPoison _ _ _ _ _
  · exact .refl s

theorem tame_releaseActs (s : State) (w : Who) (sc : Scope) (a : W64) : Tame s (s.releaseActs w sc a).1 := by
  unfold State.releaseActs
  dsimp only
  split
  · exact tame_writeBackAll _ _
  · exact .refl s

theorem tame_ticket (s : State) : Tame s s.ticket := .of_eq rfl rfl rfl
theorem tame_acquireActs (s : State) (w : Who) (sc : Scope) : Tame s (s.acquireActs w sc) := by
  unfold State.acquireActs
  split
  · exact tame_invalidateClean _ _
  · exact .refl s

/-! ## Instruction accesses -/

theorem tame_sendRemote (s : State) (w : Who) (dev pa : Nat) (b : List Byte) : Tame s (s.sendRemote w dev pa b) := by
  unfold State.sendRemote
  have k := (apply_ite_prop (p := Tame s) (c := dev = s.devNumber) (tame_dropBytes s w.core pa b.length) (.refl s)).trans (tame_remoteWrite _ dev pa b)
  dsimp only
  generalize State.remoteWrite (if dev = s.devNumber then s.dropBytes w.core pa b.length else s) dev pa b = u at k ⊢
  split
  · exact k
  · exact (k.trans (tame_onWho _ w _)).before rfl rfl rfl

theorem tame_atomRead (s : State) (core pa n : Nat) : Tame s (s.atomRead core pa n).1 := by
  unfold State.atomRead
  exact .fold (fun s l => (tame_recall s l none).trans (tame_writeBack _ _ _)) _ s

theorem tame_performAtomic (s : State) (w : Who) (a : Access) (x : Xlat) (args : List Byte) : Tame s (s.performAtomic w a x args).1 := by
  unfold State.performAtomic
  dsimp only
  split
  · rename_i dev _ _
    have k0 := apply_ite_prop (p := Tame s) (c := dev = s.devNumber) (tame_ownReach s w.core x.pa a.kind.size true) (.refl s)
    split
    · exact k0.trans (tame_sendRemote _ _ _ _ _)
    · exact k0
  · split
    · have k := (tame_atomRead s w.core x.pa a.kind.size).trans (tame_dropBytes (s.atomRead w.core x.pa a.kind.size).1 w.core x.pa a.kind.size)
      split
      · exact k.trans (tame_homeWrite _ _ _)
      · exact k
    · have k1 : Tame s (if a.homeReads then s.recall (lineOf x.pa) none else s) := by
        split
        · exact tame_recall _ _ _
        · exact .refl s
      have k2 := (k1.trans (tame_own _ w.core (lineOf x.pa))).trans (tame_l1Read _ w.core x.pa a.kind.size)
      split
      · exact k2.trans (tame_l1Write _ _ _ _)
      · exact k2

theorem tame_performAtom (s : State) (w : Who) (a : Access) (x : Xlat) (q : LaneAcc) :
    Tame s (let s := if s.isOwn (x.remote.map Prod.fst) then (linesOf x.pa a.kind.size).foldl (fun s l => s.recall l (some w.core)) s else s
      if if s.isOwn (x.remote.map Prod.fst) then s.homePoisoned w.core x.pa a.kind.size else s.poisonAt (x.remote.map Prod.fst) x.pa a.kind.size
      then s.meetPoisonAt w (x.remote.map Prod.fst) x.pa a.kind.size q.addr
      else ((s.performAtomic w a x q.data).1, LaneRes.done (wordsOf (s.performAtomic w a x q.data).2)) : State × LaneRes).1 := by
  have k := apply_ite_prop (p := Tame s) (c := s.isOwn (x.remote.map Prod.fst) = true)
    (tame_recallAll s (linesOf x.pa a.kind.size) (some w.core)) (.refl s)
  refine k.trans ?_
  dsimp only
  exact apply_ite_prop (p := fun z : State × LaneRes => Tame _ z.1) (tame_meetPoisonAt _ _ _ _ _ _) (tame_performAtomic _ _ _ _ _)

theorem tame_perform (s : State) (w : Who) (a : Access) (x : Xlat) (q : LaneAcc) : Tame s (s.perform w a x q).1 := by
  unfold State.perform
  dsimp only
  split
  · split
    · rename_i size _ _ _ dev _ _
      refine (apply_ite_prop (p := Tame s) (c := dev = s.devNumber) (tame_ownReach s w.core x.pa size a.homeReads) (.refl s)).trans ?_
      exact apply_ite_prop (p := fun z : State × LaneRes => Tame _ z.1) (tame_meetPoisonAt _ _ _ _ _ _) (.refl _)
    · split
      · split
        · exact tame_meetPoison _ _ _ _ _
        · exact .refl s
      · split
        · have k := tame_homeRead s w.core x.pa (by assumption)
          split
          · exact k.trans (tame_meetPoison _ _ _ _ _)
          · exact k
        · split
          · exact tame_meetPoison _ _ _ _ _
          · exact tame_l1Read _ _ _ _
  · split
    · exact tame_sendRemote _ _ _ _ _
    · split
      · exact (tame_dropBytes _ _ _ _).trans (tame_homeWrite _ _ _)
      · exact tame_l1Write _ _ _ _
  · exact tame_performAtom s w a x q
  · exact tame_performAtom s w a x q
  · exact tame_onWho _ _ _
  all_goals exact .refl s

theorem tame_nextStamp (s : State) (die lu : Nat) : Tame s (s.nextStamp die lu).1 := .of_eq rfl rfl rfl
theorem tame_issueStamped (s : State) (x : StampedStore) : Tame s (s.issueStamped x).1 := .of_eq rfl rfl rfl
theorem tame_intervalOk (s : State) (die : Nat) (dom : StampDom) : Tame s (s.intervalOk die dom).1 := by
  unfold State.intervalOk
  cases dom <;> exact tame_readClock s die

theorem tame_performSts (s : State) (w : Who) (x : Xlat) (dom : StampDom) (lu : Nat) (q : LaneAcc) (n : Nat) : Tame s (s.performSts w x dom lu q n).1 := by
  unfold State.performSts
  exact ((tame_nextStamp s _ _).trans (tame_issueStamped _ _)).trans (tame_onWho _ _ _)

theorem tame_peerVersion (s : State) (part dev line stamp : Nat) : Tame s (s.peerVersion part dev line stamp).1 := by
  unfold State.peerVersion
  dsimp only
  split
  · exact .refl s
  · split
    · exact .refl s
    · exact .of_eq rfl rfl rfl

theorem tame_performLda (s : State) (w : Who) (x : Xlat) (dom : StampDom) (q : LaneAcc) (n : Nat) : Tame s (s.performLda w x dom q n).1 := by
  unfold State.performLda
  dsimp only
  split
  · exact .refl s
  · refine apply_ite_prop (p := fun z : State × LaneRes => Tame s z.1) ?_ ?_
    · split
      · split
        · exact tame_meetPoison _ _ _ _ _
        · exact .refl s
      · exact .refl s
    · exact apply_ite_prop (p := fun z : State × LaneRes => Tame s z.1) (tame_peerVersion _ _ _ _ _) (tame_peerVersion _ _ _ _ _)

theorem tame_issueCmd (s : State) (key ctx : Nat) (k : CmdKind) : Tame s (s.issueCmd key ctx k).1 := by
  unfold State.issueCmd
  split
  · exact .refl s
  · exact Tame.of_eq rfl rfl rfl

theorem tame_performCopySt (s : State) (w : Who) (dom : StampDom) (lu : Nat) (q : LaneAcc) : Tame s (s.performCopySt w dom lu q).1 := by
  unfold State.performCopySt
  split
  · exact .refl s
  · dsimp only
    split
    · exact .refl s
    · refine .trans ?_ (tame_onWho _ _ _)
      exact ((tame_nextStamp s _ _).trans (tame_issueCmd _ _ _ _)).trans (Tame.of_eq rfl rfl rfl)

theorem tame_fetchHome (s : State) (w : Who) (x : Xlat) (a : W64) (k : Nat) : Tame s (s.fetchHome w x a k).1 := by
  unfold State.fetchHome
  dsimp only
  split
  · exact .refl s
  · split
    · exact .refl s
    · exact .refl s
    · exact apply_ite_prop (p := fun z : State × Except LaneRes (List Byte) => Tame s z.1) (tame_meetPoisonAt _ _ _ _ _ _) (.refl s)

theorem tame_fetchPiece (s : State) (w : Who) (x : Xlat) (a : W64) (k : Nat) : Tame s (s.fetchPiece w x a k).1 := by
  unfold State.fetchPiece
  have kd := tame_fetchHome s w x a k
  split
  · exact .refl _
  · split
    · exact kd
    · split
      · exact .refl _
      · generalize s.fetchHome w x a k = z at kd
        obtain ⟨s2, r2⟩ := z
        cases r2 with
        | error e => exact kd
        | ok b =>
          dsimp only
          split
          · exact kd
          · exact kd.trans (tame_setCore _ _ _)

theorem tame_fetchBytes (fuel : Nat) (s : State) (w : Who) (va n : Nat) : Tame s (s.fetchBytes w va n fuel).1 := by
  induction fuel generalizing s va n with
  | zero => exact .refl s
  | succ fuel ih =>
    unfold State.fetchBytes
    split
    · exact .refl s
    · dsimp only
      have k := tame_translate s (some w.core) w.part w.user .read (BitVec.ofNat 64 va)
      generalize s.translate (some w.core) w.part w.user .read (BitVec.ofNat 64 va) = r at k
      obtain ⟨s1, r⟩ := r
      cases r with
      | error e => cases e <;> exact k
      | ok x =>
        dsimp only at k ⊢
        have kg := tame_fetchPiece s1 w x (BitVec.ofNat 64 va) (min n (128 - va % 128))
        generalize s1.fetchPiece w x (BitVec.ofNat 64 va) (min n (128 - va % 128)) = got at kg
        obtain ⟨s3, g⟩ := got
        cases g with
        | error e => exact k.trans kg
        | ok b =>
          dsimp only
          have k4 := ih s3 (va + min n (128 - va % 128)) (n - min n (128 - va % 128))
          generalize s3.fetchBytes w (va + min n (128 - va % 128)) (n - min n (128 - va % 128)) fuel = z at k4
          obtain ⟨s4, z⟩ := z
          cases z <;> exact (k.trans kg).trans k4

theorem tame_fetchAt (s : State) (w : Who) (va n : Nat) : Tame s (s.fetchAt w va n).1 := tame_fetchBytes _ _ _ _ _

theorem tame_fetchSegment (s : State) (w : Who) (f : MFmt) (h : MHandle) (r c : Nat) : Tame s (s.fetchSegment w f h r c).1 := by
  unfold State.fetchSegment
  dsimp only
  have take : ∀ (s : State) (va n : Nat) (g : List Byte → Nat × Bool),
      Tame s (match s.fetchAt w va n with | (s, .error e) => (s, Except.error e) | (s, .ok b) => (s, .ok (g b)) : State × Except LaneRes (Nat × Bool)).1 := by
    intro s va n g
    have k := tame_fetchAt s w va n
    generalize s.fetchAt w va n = z at k
    obtain ⟨s4, z⟩ := z
    cases z <;> exact k
  split
  · exact .refl s
  · split
    · exact take _ _ _ fun b => (_, true)
    · have k := tame_fetchAt s w (h.index + r * ceilDiv h.cols (mDepth f / 4) / 8)
        ((r * ceilDiv h.cols (mDepth f / 4) + c / (mDepth f / 4)) / 8 - r * ceilDiv h.cols (mDepth f / 4) / 8 + 1)
      generalize s.fetchAt w (h.index + r * ceilDiv h.cols (mDepth f / 4) / 8)
        ((r * ceilDiv h.cols (mDepth f / 4) + c / (mDepth f / 4)) / 8 - r * ceilDiv h.cols (mDepth f / 4) / 8 + 1) = z at k
      obtain ⟨s4, z⟩ := z
      cases z with
      | error e => exact k
      | ok b =>
        dsimp only
        split
        · exact k
        · exact k.trans (take _ _ _ fun b => (_, true))

theorem tame_readAll {α β : Type} {f : State → α → State × Except LaneRes β} (h : ∀ s a, Tame s (f s a).1) (l : List α) (s : State) :
    Tame s (readAll f s l).1 := by
  induction l generalizing s with
  | nil => exact .refl s
  | cons a t ih =>
    unfold readAll
    have k := h s a
    generalize f s a = z at k
    obtain ⟨s1, z⟩ := z
    cases z with
    | error e => exact k
    | ok b =>
      dsimp only
      have k2 := ih s1
      generalize readAll f s1 t = y at k2
      obtain ⟨s2, y⟩ := y
      cases y <;> exact k.trans k2

theorem tame_fetchScale (s : State) (w : Who) (h : MHandle) (r b : Nat) : Tame s (s.fetchScale w h r b).1 := by
  unfold State.fetchScale
  split
  · exact .refl s
  · have k := tame_fetchAt s w (h.scales + r * ceilDiv h.cols 32 + b) 1
    generalize s.fetchAt w (h.scales + r * ceilDiv h.cols 32 + b) 1 = z at k
    obtain ⟨s1, z⟩ := z
    cases z <;> exact k

theorem tame_fetchLane (s : State) (w : Who) (f : MFmt) (a : W64) (r c : W32) : Tame s (s.fetchLane w f a r c).1 := by
  unfold State.fetchLane
  have k := tame_fetchAt s w a.toNat 64
  generalize s.fetchAt w a.toNat 64 = z at k
  obtain ⟨s1, z⟩ := z
  cases z with
  | error e => exact k
  | ok hb =>
    dsimp only
    have k2 := tame_readAll (fun s (g : Nat) => tame_fetchSegment s w f (handleOf hb) r.toNat (c.toNat / mDepth f * mDepth f + g * (mDepth f / 4))) [0, 1, 2, 3] s1
    generalize readAll (fun s (g : Nat) => State.fetchSegment s w f (handleOf hb) r.toNat (c.toNat / mDepth f * mDepth f + g * (mDepth f / 4))) s1 [0, 1, 2, 3] = z at k2
    obtain ⟨s2, z⟩ := z
    cases z with
    | error e => exact k.trans k2
    | ok segs =>
      dsimp only
      have k3 := tame_readAll (fun s (b : Nat) => tame_fetchScale s w (handleOf hb) r.toNat (c.toNat / mDepth f * mDepth f / 32 + b))
        (if f.scaleNames = 0 then [] else List.range (ceilDiv (mDepth f) 32)) s2
      generalize readAll (fun s (b : Nat) => State.fetchScale s w (handleOf hb) r.toNat (c.toNat / mDepth f * mDepth f / 32 + b)) s2
        (if f.scaleNames = 0 then [] else List.range (ceilDiv (mDepth f) 32)) = z at k3
      obtain ⟨s3, z⟩ := z
      cases z <;> exact (k.trans k2).trans k3

theorem tame_accessLane (s : State) (w : Who) (a : Access) (q : LaneAcc) : Tame s (s.accessLane w a q).1 := by
  unfold State.accessLane
  split
  · exact tame_fetchLane _ _ _ _ _ _
  · dsimp only
    split
    · exact .refl s
    · have k := tame_translate s (some w.core) w.part w.user a.kind.mode q.addr
      generalize s.translate (some w.core) w.part w.user a.kind.mode q.addr = z at k
      obtain ⟨s1, z⟩ := z
      cases z with
      | error e => cases e <;> exact k
      | ok x =>
        dsimp only at k ⊢
        replace k := k.trans (tame_seePage s1 w.part (x.remote.map Prod.fst) q.addr.toNat x.pa x.stamped)
        generalize s1.seePage w.part (x.remote.map Prod.fst) q.addr.toNat x.pa x.stamped = s1 at k
        split
        · exact k
        · exact k
        · exact apply_ite_prop (p := fun z : State × LaneRes => Tame s z.1) k k
        · split
          · exact k
          · have stamp : ∀ (g : State → Nat → State × LaneRes), (∀ s n, Tame s (g s n).1) → Tame s
              (match s1.intervalOk (dieOfCore w.core) (s1.stampDom w.part x.domain) with
                | (s, false, _) => (s, .fault .intervalWide 0 q.addr)
                | (s, true, lu) => g s lu : State × LaneRes).1 := by
              intro g hg
              have k2 := tame_intervalOk s1 (dieOfCore w.core) (s1.stampDom w.part x.domain)
              generalize s1.intervalOk (dieOfCore w.core) (s1.stampDom w.part x.domain) = z at k2
              obtain ⟨s2, b, n⟩ := z
              cases b
              · exact k.trans k2
              · exact (k.trans k2).trans (hg s2 n)
            split
            · exact stamp _ fun s n => tame_performSts _ _ _ _ _ _ _
            · exact apply_ite_prop (p := fun z : State × LaneRes => Tame s z.1) (k.trans (tame_performLda _ _ _ _ _ _))
                (stamp _ fun s n => tame_performLda _ _ _ _ _ _)
            · refine stamp _ fun s n => ?_
              have k3 := tame_releaseActs s w .dv q.addr
              generalize s.releaseActs w .dv q.addr = z at k3
              obtain ⟨s3, z⟩ := z
              cases z with
              | some r => exact k3
              | none => exact k3.trans (tame_performCopySt _ _ _ _ _)
            · generalize hp : (if (Order.releases a.order) then s1.releaseActs w a.scope q.addr else (s1, none)) = pre
              have kp : Tame s1 pre.1 := by
                rw [← hp]
                split
                · exact tame_releaseActs _ _ _ _
                · exact .refl _
              obtain ⟨s2, r⟩ := pre
              cases r with
              | some r => exact k.trans kp
              | none =>
                dsimp only
                have kt : Tame s2 (if a.order == .sc then s2.ticket else s2) := by
                  split
                  · exact tame_ticket _
                  · exact .refl _
                have kf := tame_perform (if a.order == .sc then s2.ticket else s2) w a x q
                generalize State.perform (if a.order == .sc then s2.ticket else s2) w a x q = z at kf
                obtain ⟨s3, z⟩ := z
                have all := ((k.trans kp).trans kt).trans kf
                cases z with
                | done v =>
                  dsimp only
                  split
                  · exact all.trans (tame_acquireActs _ _ _)
                  · exact all
                | fault _ _ _ => exact all
                | logged _ _ => exact all
                | wait _ => exact all

/-! ## The device's own writes (R395) and the level memories -/

theorem tame_userWrite (fuel : Nat) (s : State) (part va : Nat) (b : List Byte) : Tame s (s.userWrite part va b fuel).1 := by
  induction fuel generalizing s va b with
  | zero => exact .refl s
  | succ fuel ih =>
    unfold State.userWrite
    dsimp only
    split
    · exact .refl s
    · split
      · exact .refl s
      · split
        · split
          · exact .refl s
          · exact (tame_remoteWrite _ _ _ _).trans (ih _ _ _)
        · split
          · exact .refl s
          · exact (tame_homeWrite _ _ _).trans (ih _ _ _)

theorem tame_record (s : State) (part : Nat) (j : Subject) (f : RecFields) : Tame s (s.record part j f).1 := by
  unfold State.record
  dsimp only
  split <;> exact .of_eq rfl rfl rfl

/-- An operation of a team under the block of its slice (R319) is tame where the operation is. -/
theorem tame_asTeam {α : Type} (s : State) (t : Team) (f : State → State × α) (h : ∀ s, Tame s (f s).1) : Tame s (s.asTeam t f).1 := by
  unfold State.asTeam
  split
  · exact h s
  · have u : Tame s (s.under t) := by
      unfold State.under
      split
      · exact .refl s
      · exact tame_setPart _ _ _
    exact (u.trans (h _)).trans (tame_setPart _ _ _)

theorem tame_teamWrite (s : State) (tk va : Nat) (b : List Byte) : Tame s (s.teamWrite tk va b) := by
  unfold State.teamWrite
  split
  · exact .refl s
  · split
    · exact .of_eq rfl rfl rfl
    · have k := tame_asTeam s (by assumption : Team) (fun s => s.userWrite (by assumption : Team).part va b (pagesOf b.length)) fun s => tame_userWrite _ s _ va b
      split
      · simp_all
      · split
        · simp_all
        · rename_i e _ _ _
          rw [e] at k
          dsimp only
          have kt : ∀ x, Tame _ (State.setTeam _ tk x) := fun x => k.trans (.of_eq rfl rfl rfl)
          split
          · exact kt _
          · exact (kt _).trans (tame_record _ _ _ _)

theorem tame_levelWrite (s : State) (t : Team) (tk : Nat) (l : Level) (o : Nat) (b : List Byte) : Tame s (s.levelWrite t tk l o b) := by
  unfold State.levelWrite
  cases l <;> exact .of_eq rfl rfl rfl

/-- A write to a core's scratchpad keeps the canonical form of every team's. -/
theorem wf_levelWrite_spad (s : State) (t : Team) (tk o : Nat) (b : List Byte) (h : ∀ k x, FMap.get s.teams k = some x → Bytes.wf x.spad = true) :
    ∀ k x, FMap.get (s.levelWrite t tk .spad o b).teams k = some x → Bytes.wf x.spad = true := by
  intro k x hx
  simp only [State.levelWrite] at hx
  rw [FMap.get_modify] at hx
  split at hx
  · obtain ⟨y, hy, rfl⟩ := Option.map_eq_some_iff.mp hx
    exact Bytes.wf_writeN _ _ _ (h _ _ hy)
  · exact h _ _ hx

/-- A write to the cluster memory keeps the canonical form of every team's part of it. -/
theorem wf_levelWrite_clm (s : State) (t : Team) (tk o : Nat) (b : List Byte) (h : ∀ k x, FMap.get s.teams k = some x → Bytes.wf x.clm = true) :
    ∀ k x, FMap.get (s.levelWrite t tk .clm o b).teams k = some x → Bytes.wf x.clm = true := by
  intro k x hx
  simp only [State.levelWrite] at hx
  rw [FMap.get_modify] at hx
  split at hx
  · obtain ⟨y, hy, rfl⟩ := Option.map_eq_some_iff.mp hx
    exact Bytes.wf_writeN _ _ _ (h _ _ hy)
  · exact h _ _ hx

/-- A write to the chip scratchpad keeps the canonical form of the partition's. -/
theorem wf_levelWrite_chip (s : State) (t : Team) (tk o : Nat) (b : List Byte) (h : Bytes.wf (s.part t.part).chip = true) (hp : t.part < s.parts.length) :
    Bytes.wf ((s.levelWrite t tk .chip o b).part t.part).chip = true := by
  show Bytes.wf (nth (setNth s.parts t.part _) t.part {}).chip = true
  rw [nth_set_same _ _ _ _ hp]
  exact Bytes.wf_writeN _ _ _ h

end Sys2Proof.Machine
end

