-- ==== Sys2Proof/Laws/State.lean ====
section
/-!
SUPPORT. What each named update of the state does to each field of it.
-/

set_option Elab.async false

namespace Sys2Proof.Machine

/-! ## setTeam -/

@[simp] theorem State.setTeam_agenda (s : State) (k : Nat) (t : Team) : (s.setTeam k t).agenda = s.agenda := rfl
@[simp] theorem State.setTeam_issue (s : State) (k : Nat) (t : Team) : (s.setTeam k t).issue = s.issue := rfl
@[simp] theorem State.setTeam_freeCtr (s : State) (k : Nat) (t : Team) : (s.setTeam k t).freeCtr = s.freeCtr := rfl
@[simp] theorem State.setTeam_signals (s : State) (k : Nat) (t : Team) : (s.setTeam k t).signals = s.signals := rfl
@[simp] theorem State.setTeam_boot (s : State) (k : Nat) (t : Team) : (s.setTeam k t).boot = s.boot := rfl
@[simp] theorem State.setTeam_failStage (s : State) (k : Nat) (t : Team) : (s.setTeam k t).failStage = s.failStage := rfl
@[simp] theorem State.setTeam_measures (s : State) (k : Nat) (t : Team) : (s.setTeam k t).measures = s.measures := rfl
@[simp] theorem State.setTeam_clockMHz (s : State) (k : Nat) (t : Team) : (s.setTeam k t).clockMHz = s.clockMHz := rfl
@[simp] theorem State.setTeam_throttles (s : State) (k : Nat) (t : Team) : (s.setTeam k t).throttles = s.throttles := rfl
@[simp] theorem State.setTeam_thermalStop (s : State) (k : Nat) (t : Team) : (s.setTeam k t).thermalStop = s.thermalStop := rfl
@[simp] theorem State.setTeam_thermalEvents (s : State) (k : Nat) (t : Team) : (s.setTeam k t).thermalEvents = s.thermalEvents := rfl
@[simp] theorem State.setTeam_cycle (s : State) (k : Nat) (t : Team) : (s.setTeam k t).cycle = s.cycle := rfl
@[simp] theorem State.setTeam_ns (s : State) (k : Nat) (t : Team) : (s.setTeam k t).ns = s.ns := rfl
@[simp] theorem State.setTeam_nsFrac (s : State) (k : Nat) (t : Team) : (s.setTeam k t).nsFrac = s.nsFrac := rfl
@[simp] theorem State.setTeam_uPs (s : State) (k : Nat) (t : Team) : (s.setTeam k t).uPs = s.uPs := rfl
@[simp] theorem State.setTeam_uAt (s : State) (k : Nat) (t : Team) : (s.setTeam k t).uAt = s.uAt := rfl
@[simp] theorem State.setTeam_linkAt (s : State) (k : Nat) (t : Team) : (s.setTeam k t).linkAt = s.linkAt := rfl
@[simp] theorem State.setTeam_linkDown (s : State) (k : Nat) (t : Team) : (s.setTeam k t).linkDown = s.linkDown := rfl
@[simp] theorem State.setTeam_keystone (s : State) (k : Nat) (t : Team) : (s.setTeam k t).keystone = s.keystone := rfl
@[simp] theorem State.setTeam_dies (s : State) (k : Nat) (t : Team) : (s.setTeam k t).dies = s.dies := rfl
@[simp] theorem State.setTeam_devNumber (s : State) (k : Nat) (t : Team) : (s.setTeam k t).devNumber = s.devNumber := rfl
@[simp] theorem State.setTeam_domain (s : State) (k : Nat) (t : Team) : (s.setTeam k t).domain = s.domain := rfl
@[simp] theorem State.setTeam_ports (s : State) (k : Nat) (t : Team) : (s.setTeam k t).ports = s.ports := rfl
@[simp] theorem State.setTeam_diePorts (s : State) (k : Nat) (t : Team) : (s.setTeam k t).diePorts = s.diePorts := rfl
@[simp] theorem State.setTeam_peers (s : State) (k : Nat) (t : Team) : (s.setTeam k t).peers = s.peers := rfl
@[simp] theorem State.setTeam_corrected (s : State) (k : Nat) (t : Team) : (s.setTeam k t).corrected = s.corrected := rfl
@[simp] theorem State.setTeam_errorLog (s : State) (k : Nat) (t : Team) : (s.setTeam k t).errorLog = s.errorLog := rfl
@[simp] theorem State.setTeam_pwsel (s : State) (k : Nat) (t : Team) : (s.setTeam k t).pwsel = s.pwsel := rfl
@[simp] theorem State.setTeam_pfMail (s : State) (k : Nat) (t : Team) : (s.setTeam k t).pfMail = s.pfMail := rfl
@[simp] theorem State.setTeam_vfMail (s : State) (k : Nat) (t : Team) : (s.setTeam k t).vfMail = s.vfMail := rfl
@[simp] theorem State.setTeam_mem (s : State) (k : Nat) (t : Team) : (s.setTeam k t).mem = s.mem := rfl
@[simp] theorem State.setTeam_hostMem (s : State) (k : Nat) (t : Team) : (s.setTeam k t).hostMem = s.hostMem := rfl
@[simp] theorem State.setTeam_poison (s : State) (k : Nat) (t : Team) : (s.setTeam k t).poison = s.poison := rfl
@[simp] theorem State.setTeam_l2Poison (s : State) (k : Nat) (t : Team) : (s.setTeam k t).l2Poison = s.l2Poison := rfl
@[simp] theorem State.setTeam_lineStamp (s : State) (k : Nat) (t : Team) : (s.setTeam k t).lineStamp = s.lineStamp := rfl
@[simp] theorem State.setTeam_versions (s : State) (k : Nat) (t : Team) : (s.setTeam k t).versions = s.versions := rfl
@[simp] theorem State.setTeam_stores (s : State) (k : Nat) (t : Team) : (s.setTeam k t).stores = s.stores := rfl
@[simp] theorem State.setTeam_nextStore (s : State) (k : Nat) (t : Team) : (s.setTeam k t).nextStore = s.nextStore := rfl
@[simp] theorem State.setTeam_stampedPages (s : State) (k : Nat) (t : Team) : (s.setTeam k t).stampedPages = s.stampedPages := rfl
@[simp] theorem State.setTeam_replies (s : State) (k : Nat) (t : Team) : (s.setTeam k t).replies = s.replies := rfl
@[simp] theorem State.setTeam_remoteWaits (s : State) (k : Nat) (t : Team) : (s.setTeam k t).remoteWaits = s.remoteWaits := rfl
@[simp] theorem State.setTeam_linkWaits (s : State) (k : Nat) (t : Team) : (s.setTeam k t).linkWaits = s.linkWaits := rfl
@[simp] theorem State.setTeam_cmdWaits (s : State) (k : Nat) (t : Team) : (s.setTeam k t).cmdWaits = s.cmdWaits := rfl
@[simp] theorem State.setTeam_cores (s : State) (k : Nat) (t : Team) : (s.setTeam k t).cores = s.cores := rfl
@[simp] theorem State.setTeam_clusters (s : State) (k : Nat) (t : Team) : (s.setTeam k t).clusters = s.clusters := rfl
@[simp] theorem State.setTeam_parts (s : State) (k : Nat) (t : Team) : (s.setTeam k t).parts = s.parts := rfl
@[simp] theorem State.setTeam_slices (s : State) (k : Nat) (t : Team) : (s.setTeam k t).slices = s.slices := rfl
@[simp] theorem State.setTeam_teams (s : State) (k : Nat) (t : Team) : (s.setTeam k t).teams = FMap.set s.teams k t := rfl
@[simp] theorem State.setTeam_placements (s : State) (k : Nat) (t : Team) : (s.setTeam k t).placements = s.placements := rfl

/-! ## setCore -/

@[simp] theorem State.setCore_agenda (s : State) (k : Nat) (c : Core) : (s.setCore k c).agenda = s.agenda := rfl
@[simp] theorem State.setCore_issue (s : State) (k : Nat) (c : Core) : (s.setCore k c).issue = s.issue := rfl
@[simp] theorem State.setCore_freeCtr (s : State) (k : Nat) (c : Core) : (s.setCore k c).freeCtr = s.freeCtr := rfl
@[simp] theorem State.setCore_signals (s : State) (k : Nat) (c : Core) : (s.setCore k c).signals = s.signals := rfl
@[simp] theorem State.setCore_boot (s : State) (k : Nat) (c : Core) : (s.setCore k c).boot = s.boot := rfl
@[simp] theorem State.setCore_failStage (s : State) (k : Nat) (c : Core) : (s.setCore k c).failStage = s.failStage := rfl
@[simp] theorem State.setCore_measures (s : State) (k : Nat) (c : Core) : (s.setCore k c).measures = s.measures := rfl
@[simp] theorem State.setCore_clockMHz (s : State) (k : Nat) (c : Core) : (s.setCore k c).clockMHz = s.clockMHz := rfl
@[simp] theorem State.setCore_throttles (s : State) (k : Nat) (c : Core) : (s.setCore k c).throttles = s.throttles := rfl
@[simp] theorem State.setCore_thermalStop (s : State) (k : Nat) (c : Core) : (s.setCore k c).thermalStop = s.thermalStop := rfl
@[simp] theorem State.setCore_thermalEvents (s : State) (k : Nat) (c : Core) : (s.setCore k c).thermalEvents = s.thermalEvents := rfl
@[simp] theorem State.setCore_cycle (s : State) (k : Nat) (c : Core) : (s.setCore k c).cycle = s.cycle := rfl
@[simp] theorem State.setCore_ns (s : State) (k : Nat) (c : Core) : (s.setCore k c).ns = s.ns := rfl
@[simp] theorem State.setCore_nsFrac (s : State) (k : Nat) (c : Core) : (s.setCore k c).nsFrac = s.nsFrac := rfl
@[simp] theorem State.setCore_uPs (s : State) (k : Nat) (c : Core) : (s.setCore k c).uPs = s.uPs := rfl
@[simp] theorem State.setCore_uAt (s : State) (k : Nat) (c : Core) : (s.setCore k c).uAt = s.uAt := rfl
@[simp] theorem State.setCore_linkAt (s : State) (k : Nat) (c : Core) : (s.setCore k c).linkAt = s.linkAt := rfl
@[simp] theorem State.setCore_linkDown (s : State) (k : Nat) (c : Core) : (s.setCore k c).linkDown = s.linkDown := rfl
@[simp] theorem State.setCore_keystone (s : State) (k : Nat) (c : Core) : (s.setCore k c).keystone = s.keystone := rfl
@[simp] theorem State.setCore_dies (s : State) (k : Nat) (c : Core) : (s.setCore k c).dies = s.dies := rfl
@[simp] theorem State.setCore_devNumber (s : State) (k : Nat) (c : Core) : (s.setCore k c).devNumber = s.devNumber := rfl
@[simp] theorem State.setCore_domain (s : State) (k : Nat) (c : Core) : (s.setCore k c).domain = s.domain := rfl
@[simp] theorem State.setCore_ports (s : State) (k : Nat) (c : Core) : (s.setCore k c).ports = s.ports := rfl
@[simp] theorem State.setCore_diePorts (s : State) (k : Nat) (c : Core) : (s.setCore k c).diePorts = s.diePorts := rfl
@[simp] theorem State.setCore_peers (s : State) (k : Nat) (c : Core) : (s.setCore k c).peers = s.peers := rfl
@[simp] theorem State.setCore_corrected (s : State) (k : Nat) (c : Core) : (s.setCore k c).corrected = s.corrected := rfl
@[simp] theorem State.setCore_errorLog (s : State) (k : Nat) (c : Core) : (s.setCore k c).errorLog = s.errorLog := rfl
@[simp] theorem State.setCore_pwsel (s : State) (k : Nat) (c : Core) : (s.setCore k c).pwsel = s.pwsel := rfl
@[simp] theorem State.setCore_pfMail (s : State) (k : Nat) (c : Core) : (s.setCore k c).pfMail = s.pfMail := rfl
@[simp] theorem State.setCore_vfMail (s : State) (k : Nat) (c : Core) : (s.setCore k c).vfMail = s.vfMail := rfl
@[simp] theorem State.setCore_mem (s : State) (k : Nat) (c : Core) : (s.setCore k c).mem = s.mem := rfl
@[simp] theorem State.setCore_hostMem (s : State) (k : Nat) (c : Core) : (s.setCore k c).hostMem = s.hostMem := rfl
@[simp] theorem State.setCore_poison (s : State) (k : Nat) (c : Core) : (s.setCore k c).poison = s.poison := rfl
@[simp] theorem State.setCore_l2Poison (s : State) (k : Nat) (c : Core) : (s.setCore k c).l2Poison = s.l2Poison := rfl
@[simp] theorem State.setCore_lineStamp (s : State) (k : Nat) (c : Core) : (s.setCore k c).lineStamp = s.lineStamp := rfl
@[simp] theorem State.setCore_versions (s : State) (k : Nat) (c : Core) : (s.setCore k c).versions = s.versions := rfl
@[simp] theorem State.setCore_stores (s : State) (k : Nat) (c : Core) : (s.setCore k c).stores = s.stores := rfl
@[simp] theorem State.setCore_nextStore (s : State) (k : Nat) (c : Core) : (s.setCore k c).nextStore = s.nextStore := rfl
@[simp] theorem State.setCore_stampedPages (s : State) (k : Nat) (c : Core) : (s.setCore k c).stampedPages = s.stampedPages := rfl
@[simp] theorem State.setCore_replies (s : State) (k : Nat) (c : Core) : (s.setCore k c).replies = s.replies := rfl
@[simp] theorem State.setCore_remoteWaits (s : State) (k : Nat) (c : Core) : (s.setCore k c).remoteWaits = s.remoteWaits := rfl
@[simp] theorem State.setCore_linkWaits (s : State) (k : Nat) (c : Core) : (s.setCore k c).linkWaits = s.linkWaits := rfl
@[simp] theorem State.setCore_cmdWaits (s : State) (k : Nat) (c : Core) : (s.setCore k c).cmdWaits = s.cmdWaits := rfl
@[simp] theorem State.setCore_cores (s : State) (k : Nat) (c : Core) : (s.setCore k c).cores = FMap.set s.cores k c := rfl
@[simp] theorem State.setCore_clusters (s : State) (k : Nat) (c : Core) : (s.setCore k c).clusters = s.clusters := rfl
@[simp] theorem State.setCore_parts (s : State) (k : Nat) (c : Core) : (s.setCore k c).parts = s.parts := rfl
@[simp] theorem State.setCore_slices (s : State) (k : Nat) (c : Core) : (s.setCore k c).slices = s.slices := rfl
@[simp] theorem State.setCore_teams (s : State) (k : Nat) (c : Core) : (s.setCore k c).teams = s.teams := rfl
@[simp] theorem State.setCore_placements (s : State) (k : Nat) (c : Core) : (s.setCore k c).placements = s.placements := rfl

/-! ## setCluster -/

@[simp] theorem State.setCluster_agenda (s : State) (k : Nat) (c : Cluster) : (s.setCluster k c).agenda = s.agenda := rfl
@[simp] theorem State.setCluster_issue (s : State) (k : Nat) (c : Cluster) : (s.setCluster k c).issue = s.issue := rfl
@[simp] theorem State.setCluster_freeCtr (s : State) (k : Nat) (c : Cluster) : (s.setCluster k c).freeCtr = s.freeCtr := rfl
@[simp] theorem State.setCluster_signals (s : State) (k : Nat) (c : Cluster) : (s.setCluster k c).signals = s.signals := rfl
@[simp] theorem State.setCluster_boot (s : State) (k : Nat) (c : Cluster) : (s.setCluster k c).boot = s.boot := rfl
@[simp] theorem State.setCluster_failStage (s : State) (k : Nat) (c : Cluster) : (s.setCluster k c).failStage = s.failStage := rfl
@[simp] theorem State.setCluster_measures (s : State) (k : Nat) (c : Cluster) : (s.setCluster k c).measures = s.measures := rfl
@[simp] theorem State.setCluster_clockMHz (s : State) (k : Nat) (c : Cluster) : (s.setCluster k c).clockMHz = s.clockMHz := rfl
@[simp] theorem State.setCluster_throttles (s : State) (k : Nat) (c : Cluster) : (s.setCluster k c).throttles = s.throttles := rfl
@[simp] theorem State.setCluster_thermalStop (s : State) (k : Nat) (c : Cluster) : (s.setCluster k c).thermalStop = s.thermalStop := rfl
@[simp] theorem State.setCluster_thermalEvents (s : State) (k : Nat) (c : Cluster) : (s.setCluster k c).thermalEvents = s.thermalEvents := rfl
@[simp] theorem State.setCluster_cycle (s : State) (k : Nat) (c : Cluster) : (s.setCluster k c).cycle = s.cycle := rfl
@[simp] theorem State.setCluster_ns (s : State) (k : Nat) (c : Cluster) : (s.setCluster k c).ns = s.ns := rfl
@[simp] theorem State.setCluster_nsFrac (s : State) (k : Nat) (c : Cluster) : (s.setCluster k c).nsFrac = s.nsFrac := rfl
@[simp] theorem State.setCluster_uPs (s : State) (k : Nat) (c : Cluster) : (s.setCluster k c).uPs = s.uPs := rfl
@[simp] theorem State.setCluster_uAt (s : State) (k : Nat) (c : Cluster) : (s.setCluster k c).uAt = s.uAt := rfl
@[simp] theorem State.setCluster_linkAt (s : State) (k : Nat) (c : Cluster) : (s.setCluster k c).linkAt = s.linkAt := rfl
@[simp] theorem State.setCluster_linkDown (s : State) (k : Nat) (c : Cluster) : (s.setCluster k c).linkDown = s.linkDown := rfl
@[simp] theorem State.setCluster_keystone (s : State) (k : Nat) (c : Cluster) : (s.setCluster k c).keystone = s.keystone := rfl
@[simp] theorem State.setCluster_dies (s : State) (k : Nat) (c : Cluster) : (s.setCluster k c).dies = s.dies := rfl
@[simp] theorem State.setCluster_devNumber (s : State) (k : Nat) (c : Cluster) : (s.setCluster k c).devNumber = s.devNumber := rfl
@[simp] theorem State.setCluster_domain (s : State) (k : Nat) (c : Cluster) : (s.setCluster k c).domain = s.domain := rfl
@[simp] theorem State.setCluster_ports (s : State) (k : Nat) (c : Cluster) : (s.setCluster k c).ports = s.ports := rfl
@[simp] theorem State.setCluster_diePorts (s : State) (k : Nat) (c : Cluster) : (s.setCluster k c).diePorts = s.diePorts := rfl
@[simp] theorem State.setCluster_peers (s : State) (k : Nat) (c : Cluster) : (s.setCluster k c).peers = s.peers := rfl
@[simp] theorem State.setCluster_corrected (s : State) (k : Nat) (c : Cluster) : (s.setCluster k c).corrected = s.corrected := rfl
@[simp] theorem State.setCluster_errorLog (s : State) (k : Nat) (c : Cluster) : (s.setCluster k c).errorLog = s.errorLog := rfl
@[simp] theorem State.setCluster_pwsel (s : State) (k : Nat) (c : Cluster) : (s.setCluster k c).pwsel = s.pwsel := rfl
@[simp] theorem State.setCluster_pfMail (s : State) (k : Nat) (c : Cluster) : (s.setCluster k c).pfMail = s.pfMail := rfl
@[simp] theorem State.setCluster_vfMail (s : State) (k : Nat) (c : Cluster) : (s.setCluster k c).vfMail = s.vfMail := rfl
@[simp] theorem State.setCluster_mem (s : State) (k : Nat) (c : Cluster) : (s.setCluster k c).mem = s.mem := rfl
@[simp] theorem State.setCluster_hostMem (s : State) (k : Nat) (c : Cluster) : (s.setCluster k c).hostMem = s.hostMem := rfl
@[simp] theorem State.setCluster_poison (s : State) (k : Nat) (c : Cluster) : (s.setCluster k c).poison = s.poison := rfl
@[simp] theorem State.setCluster_l2Poison (s : State) (k : Nat) (c : Cluster) : (s.setCluster k c).l2Poison = s.l2Poison := rfl
@[simp] theorem State.setCluster_lineStamp (s : State) (k : Nat) (c : Cluster) : (s.setCluster k c).lineStamp = s.lineStamp := rfl
@[simp] theorem State.setCluster_versions (s : State) (k : Nat) (c : Cluster) : (s.setCluster k c).versions = s.versions := rfl
@[simp] theorem State.setCluster_stores (s : State) (k : Nat) (c : Cluster) : (s.setCluster k c).stores = s.stores := rfl
@[simp] theorem State.setCluster_nextStore (s : State) (k : Nat) (c : Cluster) : (s.setCluster k c).nextStore = s.nextStore := rfl
@[simp] theorem State.setCluster_stampedPages (s : State) (k : Nat) (c : Cluster) : (s.setCluster k c).stampedPages = s.stampedPages := rfl
@[simp] theorem State.setCluster_replies (s : State) (k : Nat) (c : Cluster) : (s.setCluster k c).replies = s.replies := rfl
@[simp] theorem State.setCluster_remoteWaits (s : State) (k : Nat) (c : Cluster) : (s.setCluster k c).remoteWaits = s.remoteWaits := rfl
@[simp] theorem State.setCluster_linkWaits (s : State) (k : Nat) (c : Cluster) : (s.setCluster k c).linkWaits = s.linkWaits := rfl
@[simp] theorem State.setCluster_cmdWaits (s : State) (k : Nat) (c : Cluster) : (s.setCluster k c).cmdWaits = s.cmdWaits := rfl
@[simp] theorem State.setCluster_cores (s : State) (k : Nat) (c : Cluster) : (s.setCluster k c).cores = s.cores := rfl
@[simp] theorem State.setCluster_clusters (s : State) (k : Nat) (c : Cluster) : (s.setCluster k c).clusters = FMap.set s.clusters k c := rfl
@[simp] theorem State.setCluster_parts (s : State) (k : Nat) (c : Cluster) : (s.setCluster k c).parts = s.parts := rfl
@[simp] theorem State.setCluster_slices (s : State) (k : Nat) (c : Cluster) : (s.setCluster k c).slices = s.slices := rfl
@[simp] theorem State.setCluster_teams (s : State) (k : Nat) (c : Cluster) : (s.setCluster k c).teams = s.teams := rfl
@[simp] theorem State.setCluster_placements (s : State) (k : Nat) (c : Cluster) : (s.setCluster k c).placements = s.placements := rfl

/-! ## setPart -/

@[simp] theorem State.setPart_agenda (s : State) (p : Nat) (x : Partition) : (s.setPart p x).agenda = s.agenda := rfl
@[simp] theorem State.setPart_issue (s : State) (p : Nat) (x : Partition) : (s.setPart p x).issue = s.issue := rfl
@[simp] theorem State.setPart_freeCtr (s : State) (p : Nat) (x : Partition) : (s.setPart p x).freeCtr = s.freeCtr := rfl
@[simp] theorem State.setPart_signals (s : State) (p : Nat) (x : Partition) : (s.setPart p x).signals = s.signals := rfl
@[simp] theorem State.setPart_boot (s : State) (p : Nat) (x : Partition) : (s.setPart p x).boot = s.boot := rfl
@[simp] theorem State.setPart_failStage (s : State) (p : Nat) (x : Partition) : (s.setPart p x).failStage = s.failStage := rfl
@[simp] theorem State.setPart_measures (s : State) (p : Nat) (x : Partition) : (s.setPart p x).measures = s.measures := rfl
@[simp] theorem State.setPart_clockMHz (s : State) (p : Nat) (x : Partition) : (s.setPart p x).clockMHz = s.clockMHz := rfl
@[simp] theorem State.setPart_throttles (s : State) (p : Nat) (x : Partition) : (s.setPart p x).throttles = s.throttles := rfl
@[simp] theorem State.setPart_thermalStop (s : State) (p : Nat) (x : Partition) : (s.setPart p x).thermalStop = s.thermalStop := rfl
@[simp] theorem State.setPart_thermalEvents (s : State) (p : Nat) (x : Partition) : (s.setPart p x).thermalEvents = s.thermalEvents := rfl
@[simp] theorem State.setPart_cycle (s : State) (p : Nat) (x : Partition) : (s.setPart p x).cycle = s.cycle := rfl
@[simp] theorem State.setPart_ns (s : State) (p : Nat) (x : Partition) : (s.setPart p x).ns = s.ns := rfl
@[simp] theorem State.setPart_nsFrac (s : State) (p : Nat) (x : Partition) : (s.setPart p x).nsFrac = s.nsFrac := rfl
@[simp] theorem State.setPart_uPs (s : State) (p : Nat) (x : Partition) : (s.setPart p x).uPs = s.uPs := rfl
@[simp] theorem State.setPart_uAt (s : State) (p : Nat) (x : Partition) : (s.setPart p x).uAt = s.uAt := rfl
@[simp] theorem State.setPart_linkAt (s : State) (p : Nat) (x : Partition) : (s.setPart p x).linkAt = s.linkAt := rfl
@[simp] theorem State.setPart_linkDown (s : State) (p : Nat) (x : Partition) : (s.setPart p x).linkDown = s.linkDown := rfl
@[simp] theorem State.setPart_keystone (s : State) (p : Nat) (x : Partition) : (s.setPart p x).keystone = s.keystone := rfl
@[simp] theorem State.setPart_dies (s : State) (p : Nat) (x : Partition) : (s.setPart p x).dies = s.dies := rfl
@[simp] theorem State.setPart_devNumber (s : State) (p : Nat) (x : Partition) : (s.setPart p x).devNumber = s.devNumber := rfl
@[simp] theorem State.setPart_domain (s : State) (p : Nat) (x : Partition) : (s.setPart p x).domain = s.domain := rfl
@[simp] theorem State.setPart_ports (s : State) (p : Nat) (x : Partition) : (s.setPart p x).ports = s.ports := rfl
@[simp] theorem State.setPart_diePorts (s : State) (p : Nat) (x : Partition) : (s.setPart p x).diePorts = s.diePorts := rfl
@[simp] theorem State.setPart_peers (s : State) (p : Nat) (x : Partition) : (s.setPart p x).peers = s.peers := rfl
@[simp] theorem State.setPart_corrected (s : State) (p : Nat) (x : Partition) : (s.setPart p x).corrected = s.corrected := rfl
@[simp] theorem State.setPart_errorLog (s : State) (p : Nat) (x : Partition) : (s.setPart p x).errorLog = s.errorLog := rfl
@[simp] theorem State.setPart_pwsel (s : State) (p : Nat) (x : Partition) : (s.setPart p x).pwsel = s.pwsel := rfl
@[simp] theorem State.setPart_pfMail (s : State) (p : Nat) (x : Partition) : (s.setPart p x).pfMail = s.pfMail := rfl
@[simp] theorem State.setPart_vfMail (s : State) (p : Nat) (x : Partition) : (s.setPart p x).vfMail = s.vfMail := rfl
@[simp] theorem State.setPart_mem (s : State) (p : Nat) (x : Partition) : (s.setPart p x).mem = s.mem := rfl
@[simp] theorem State.setPart_hostMem (s : State) (p : Nat) (x : Partition) : (s.setPart p x).hostMem = s.hostMem := rfl
@[simp] theorem State.setPart_poison (s : State) (p : Nat) (x : Partition) : (s.setPart p x).poison = s.poison := rfl
@[simp] theorem State.setPart_l2Poison (s : State) (p : Nat) (x : Partition) : (s.setPart p x).l2Poison = s.l2Poison := rfl
@[simp] theorem State.setPart_lineStamp (s : State) (p : Nat) (x : Partition) : (s.setPart p x).lineStamp = s.lineStamp := rfl
@[simp] theorem State.setPart_versions (s : State) (p : Nat) (x : Partition) : (s.setPart p x).versions = s.versions := rfl
@[simp] theorem State.setPart_stores (s : State) (p : Nat) (x : Partition) : (s.setPart p x).stores = s.stores := rfl
@[simp] theorem State.setPart_nextStore (s : State) (p : Nat) (x : Partition) : (s.setPart p x).nextStore = s.nextStore := rfl
@[simp] theorem State.setPart_stampedPages (s : State) (p : Nat) (x : Partition) : (s.setPart p x).stampedPages = s.stampedPages := rfl
@[simp] theorem State.setPart_replies (s : State) (p : Nat) (x : Partition) : (s.setPart p x).replies = s.replies := rfl
@[simp] theorem State.setPart_remoteWaits (s : State) (p : Nat) (x : Partition) : (s.setPart p x).remoteWaits = s.remoteWaits := rfl
@[simp] theorem State.setPart_linkWaits (s : State) (p : Nat) (x : Partition) : (s.setPart p x).linkWaits = s.linkWaits := rfl
@[simp] theorem State.setPart_cmdWaits (s : State) (p : Nat) (x : Partition) : (s.setPart p x).cmdWaits = s.cmdWaits := rfl
@[simp] theorem State.setPart_cores (s : State) (p : Nat) (x : Partition) : (s.setPart p x).cores = s.cores := rfl
@[simp] theorem State.setPart_clusters (s : State) (p : Nat) (x : Partition) : (s.setPart p x).clusters = s.clusters := rfl
@[simp] theorem State.setPart_parts (s : State) (p : Nat) (x : Partition) : (s.setPart p x).parts = setNth s.parts p x := rfl
@[simp] theorem State.setPart_slices (s : State) (p : Nat) (x : Partition) : (s.setPart p x).slices = s.slices := rfl
@[simp] theorem State.setPart_teams (s : State) (p : Nat) (x : Partition) : (s.setPart p x).teams = s.teams := rfl
@[simp] theorem State.setPart_placements (s : State) (p : Nat) (x : Partition) : (s.setPart p x).placements = s.placements := rfl

/-! ## setSlice -/

@[simp] theorem State.setSlice_agenda (s : State) (k : Nat) (x : Slice) : (s.setSlice k x).agenda = s.agenda := rfl
@[simp] theorem State.setSlice_issue (s : State) (k : Nat) (x : Slice) : (s.setSlice k x).issue = s.issue := rfl
@[simp] theorem State.setSlice_freeCtr (s : State) (k : Nat) (x : Slice) : (s.setSlice k x).freeCtr = s.freeCtr := rfl
@[simp] theorem State.setSlice_signals (s : State) (k : Nat) (x : Slice) : (s.setSlice k x).signals = s.signals := rfl
@[simp] theorem State.setSlice_boot (s : State) (k : Nat) (x : Slice) : (s.setSlice k x).boot = s.boot := rfl
@[simp] theorem State.setSlice_failStage (s : State) (k : Nat) (x : Slice) : (s.setSlice k x).failStage = s.failStage := rfl
@[simp] theorem State.setSlice_measures (s : State) (k : Nat) (x : Slice) : (s.setSlice k x).measures = s.measures := rfl
@[simp] theorem State.setSlice_clockMHz (s : State) (k : Nat) (x : Slice) : (s.setSlice k x).clockMHz = s.clockMHz := rfl
@[simp] theorem State.setSlice_throttles (s : State) (k : Nat) (x : Slice) : (s.setSlice k x).throttles = s.throttles := rfl
@[simp] theorem State.setSlice_thermalStop (s : State) (k : Nat) (x : Slice) : (s.setSlice k x).thermalStop = s.thermalStop := rfl
@[simp] theorem State.setSlice_thermalEvents (s : State) (k : Nat) (x : Slice) : (s.setSlice k x).thermalEvents = s.thermalEvents := rfl
@[simp] theorem State.setSlice_cycle (s : State) (k : Nat) (x : Slice) : (s.setSlice k x).cycle = s.cycle := rfl
@[simp] theorem State.setSlice_ns (s : State) (k : Nat) (x : Slice) : (s.setSlice k x).ns = s.ns := rfl
@[simp] theorem State.setSlice_nsFrac (s : State) (k : Nat) (x : Slice) : (s.setSlice k x).nsFrac = s.nsFrac := rfl
@[simp] theorem State.setSlice_uPs (s : State) (k : Nat) (x : Slice) : (s.setSlice k x).uPs = s.uPs := rfl
@[simp] theorem State.setSlice_uAt (s : State) (k : Nat) (x : Slice) : (s.setSlice k x).uAt = s.uAt := rfl
@[simp] theorem State.setSlice_linkAt (s : State) (k : Nat) (x : Slice) : (s.setSlice k x).linkAt = s.linkAt := rfl
@[simp] theorem State.setSlice_linkDown (s : State) (k : Nat) (x : Slice) : (s.setSlice k x).linkDown = s.linkDown := rfl
@[simp] theorem State.setSlice_keystone (s : State) (k : Nat) (x : Slice) : (s.setSlice k x).keystone = s.keystone := rfl
@[simp] theorem State.setSlice_dies (s : State) (k : Nat) (x : Slice) : (s.setSlice k x).dies = s.dies := rfl
@[simp] theorem State.setSlice_devNumber (s : State) (k : Nat) (x : Slice) : (s.setSlice k x).devNumber = s.devNumber := rfl
@[simp] theorem State.setSlice_domain (s : State) (k : Nat) (x : Slice) : (s.setSlice k x).domain = s.domain := rfl
@[simp] theorem State.setSlice_ports (s : State) (k : Nat) (x : Slice) : (s.setSlice k x).ports = s.ports := rfl
@[simp] theorem State.setSlice_diePorts (s : State) (k : Nat) (x : Slice) : (s.setSlice k x).diePorts = s.diePorts := rfl
@[simp] theorem State.setSlice_peers (s : State) (k : Nat) (x : Slice) : (s.setSlice k x).peers = s.peers := rfl
@[simp] theorem State.setSlice_corrected (s : State) (k : Nat) (x : Slice) : (s.setSlice k x).corrected = s.corrected := rfl
@[simp] theorem State.setSlice_errorLog (s : State) (k : Nat) (x : Slice) : (s.setSlice k x).errorLog = s.errorLog := rfl
@[simp] theorem State.setSlice_pwsel (s : State) (k : Nat) (x : Slice) : (s.setSlice k x).pwsel = s.pwsel := rfl
@[simp] theorem State.setSlice_pfMail (s : State) (k : Nat) (x : Slice) : (s.setSlice k x).pfMail = s.pfMail := rfl
@[simp] theorem State.setSlice_vfMail (s : State) (k : Nat) (x : Slice) : (s.setSlice k x).vfMail = s.vfMail := rfl
@[simp] theorem State.setSlice_mem (s : State) (k : Nat) (x : Slice) : (s.setSlice k x).mem = s.mem := rfl
@[simp] theorem State.setSlice_hostMem (s : State) (k : Nat) (x : Slice) : (s.setSlice k x).hostMem = s.hostMem := rfl
@[simp] theorem State.setSlice_poison (s : State) (k : Nat) (x : Slice) : (s.setSlice k x).poison = s.poison := rfl
@[simp] theorem State.setSlice_l2Poison (s : State) (k : Nat) (x : Slice) : (s.setSlice k x).l2Poison = s.l2Poison := rfl
@[simp] theorem State.setSlice_lineStamp (s : State) (k : Nat) (x : Slice) : (s.setSlice k x).lineStamp = s.lineStamp := rfl
@[simp] theorem State.setSlice_versions (s : State) (k : Nat) (x : Slice) : (s.setSlice k x).versions = s.versions := rfl
@[simp] theorem State.setSlice_stores (s : State) (k : Nat) (x : Slice) : (s.setSlice k x).stores = s.stores := rfl
@[simp] theorem State.setSlice_nextStore (s : State) (k : Nat) (x : Slice) : (s.setSlice k x).nextStore = s.nextStore := rfl
@[simp] theorem State.setSlice_stampedPages (s : State) (k : Nat) (x : Slice) : (s.setSlice k x).stampedPages = s.stampedPages := rfl
@[simp] theorem State.setSlice_replies (s : State) (k : Nat) (x : Slice) : (s.setSlice k x).replies = s.replies := rfl
@[simp] theorem State.setSlice_remoteWaits (s : State) (k : Nat) (x : Slice) : (s.setSlice k x).remoteWaits = s.remoteWaits := rfl
@[simp] theorem State.setSlice_linkWaits (s : State) (k : Nat) (x : Slice) : (s.setSlice k x).linkWaits = s.linkWaits := rfl
@[simp] theorem State.setSlice_cmdWaits (s : State) (k : Nat) (x : Slice) : (s.setSlice k x).cmdWaits = s.cmdWaits := rfl
@[simp] theorem State.setSlice_cores (s : State) (k : Nat) (x : Slice) : (s.setSlice k x).cores = s.cores := rfl
@[simp] theorem State.setSlice_clusters (s : State) (k : Nat) (x : Slice) : (s.setSlice k x).clusters = s.clusters := rfl
@[simp] theorem State.setSlice_parts (s : State) (k : Nat) (x : Slice) : (s.setSlice k x).parts = s.parts := rfl
@[simp] theorem State.setSlice_slices (s : State) (k : Nat) (x : Slice) : (s.setSlice k x).slices = FMap.set s.slices k x := rfl
@[simp] theorem State.setSlice_teams (s : State) (k : Nat) (x : Slice) : (s.setSlice k x).teams = s.teams := rfl
@[simp] theorem State.setSlice_placements (s : State) (k : Nat) (x : Slice) : (s.setSlice k x).placements = s.placements := rfl

/-! ## setDie -/

@[simp] theorem State.setDie_agenda (s : State) (d : Nat) (x : Die) : (s.setDie d x).agenda = s.agenda := rfl
@[simp] theorem State.setDie_issue (s : State) (d : Nat) (x : Die) : (s.setDie d x).issue = s.issue := rfl
@[simp] theorem State.setDie_freeCtr (s : State) (d : Nat) (x : Die) : (s.setDie d x).freeCtr = s.freeCtr := rfl
@[simp] theorem State.setDie_signals (s : State) (d : Nat) (x : Die) : (s.setDie d x).signals = s.signals := rfl
@[simp] theorem State.setDie_boot (s : State) (d : Nat) (x : Die) : (s.setDie d x).boot = s.boot := rfl
@[simp] theorem State.setDie_failStage (s : State) (d : Nat) (x : Die) : (s.setDie d x).failStage = s.failStage := rfl
@[simp] theorem State.setDie_measures (s : State) (d : Nat) (x : Die) : (s.setDie d x).measures = s.measures := rfl
@[simp] theorem State.setDie_clockMHz (s : State) (d : Nat) (x : Die) : (s.setDie d x).clockMHz = s.clockMHz := rfl
@[simp] theorem State.setDie_throttles (s : State) (d : Nat) (x : Die) : (s.setDie d x).throttles = s.throttles := rfl
@[simp] theorem State.setDie_thermalStop (s : State) (d : Nat) (x : Die) : (s.setDie d x).thermalStop = s.thermalStop := rfl
@[simp] theorem State.setDie_thermalEvents (s : State) (d : Nat) (x : Die) : (s.setDie d x).thermalEvents = s.thermalEvents := rfl
@[simp] theorem State.setDie_cycle (s : State) (d : Nat) (x : Die) : (s.setDie d x).cycle = s.cycle := rfl
@[simp] theorem State.setDie_ns (s : State) (d : Nat) (x : Die) : (s.setDie d x).ns = s.ns := rfl
@[simp] theorem State.setDie_nsFrac (s : State) (d : Nat) (x : Die) : (s.setDie d x).nsFrac = s.nsFrac := rfl
@[simp] theorem State.setDie_uPs (s : State) (d : Nat) (x : Die) : (s.setDie d x).uPs = s.uPs := rfl
@[simp] theorem State.setDie_uAt (s : State) (d : Nat) (x : Die) : (s.setDie d x).uAt = s.uAt := rfl
@[simp] theorem State.setDie_linkAt (s : State) (d : Nat) (x : Die) : (s.setDie d x).linkAt = s.linkAt := rfl
@[simp] theorem State.setDie_linkDown (s : State) (d : Nat) (x : Die) : (s.setDie d x).linkDown = s.linkDown := rfl
@[simp] theorem State.setDie_keystone (s : State) (d : Nat) (x : Die) : (s.setDie d x).keystone = s.keystone := rfl
@[simp] theorem State.setDie_dies (s : State) (d : Nat) (x : Die) : (s.setDie d x).dies = setNth s.dies d x := rfl
@[simp] theorem State.setDie_devNumber (s : State) (d : Nat) (x : Die) : (s.setDie d x).devNumber = s.devNumber := rfl
@[simp] theorem State.setDie_domain (s : State) (d : Nat) (x : Die) : (s.setDie d x).domain = s.domain := rfl
@[simp] theorem State.setDie_ports (s : State) (d : Nat) (x : Die) : (s.setDie d x).ports = s.ports := rfl
@[simp] theorem State.setDie_diePorts (s : State) (d : Nat) (x : Die) : (s.setDie d x).diePorts = s.diePorts := rfl
@[simp] theorem State.setDie_peers (s : State) (d : Nat) (x : Die) : (s.setDie d x).peers = s.peers := rfl
@[simp] theorem State.setDie_corrected (s : State) (d : Nat) (x : Die) : (s.setDie d x).corrected = s.corrected := rfl
@[simp] theorem State.setDie_errorLog (s : State) (d : Nat) (x : Die) : (s.setDie d x).errorLog = s.errorLog := rfl
@[simp] theorem State.setDie_pwsel (s : State) (d : Nat) (x : Die) : (s.setDie d x).pwsel = s.pwsel := rfl
@[simp] theorem State.setDie_pfMail (s : State) (d : Nat) (x : Die) : (s.setDie d x).pfMail = s.pfMail := rfl
@[simp] theorem State.setDie_vfMail (s : State) (d : Nat) (x : Die) : (s.setDie d x).vfMail = s.vfMail := rfl
@[simp] theorem State.setDie_mem (s : State) (d : Nat) (x : Die) : (s.setDie d x).mem = s.mem := rfl
@[simp] theorem State.setDie_hostMem (s : State) (d : Nat) (x : Die) : (s.setDie d x).hostMem = s.hostMem := rfl
@[simp] theorem State.setDie_poison (s : State) (d : Nat) (x : Die) : (s.setDie d x).poison = s.poison := rfl
@[simp] theorem State.setDie_l2Poison (s : State) (d : Nat) (x : Die) : (s.setDie d x).l2Poison = s.l2Poison := rfl
@[simp] theorem State.setDie_lineStamp (s : State) (d : Nat) (x : Die) : (s.setDie d x).lineStamp = s.lineStamp := rfl
@[simp] theorem State.setDie_versions (s : State) (d : Nat) (x : Die) : (s.setDie d x).versions = s.versions := rfl
@[simp] theorem State.setDie_stores (s : State) (d : Nat) (x : Die) : (s.setDie d x).stores = s.stores := rfl
@[simp] theorem State.setDie_nextStore (s : State) (d : Nat) (x : Die) : (s.setDie d x).nextStore = s.nextStore := rfl
@[simp] theorem State.setDie_stampedPages (s : State) (d : Nat) (x : Die) : (s.setDie d x).stampedPages = s.stampedPages := rfl
@[simp] theorem State.setDie_replies (s : State) (d : Nat) (x : Die) : (s.setDie d x).replies = s.replies := rfl
@[simp] theorem State.setDie_remoteWaits (s : State) (d : Nat) (x : Die) : (s.setDie d x).remoteWaits = s.remoteWaits := rfl
@[simp] theorem State.setDie_linkWaits (s : State) (d : Nat) (x : Die) : (s.setDie d x).linkWaits = s.linkWaits := rfl
@[simp] theorem State.setDie_cmdWaits (s : State) (d : Nat) (x : Die) : (s.setDie d x).cmdWaits = s.cmdWaits := rfl
@[simp] theorem State.setDie_cores (s : State) (d : Nat) (x : Die) : (s.setDie d x).cores = s.cores := rfl
@[simp] theorem State.setDie_clusters (s : State) (d : Nat) (x : Die) : (s.setDie d x).clusters = s.clusters := rfl
@[simp] theorem State.setDie_parts (s : State) (d : Nat) (x : Die) : (s.setDie d x).parts = s.parts := rfl
@[simp] theorem State.setDie_slices (s : State) (d : Nat) (x : Die) : (s.setDie d x).slices = s.slices := rfl
@[simp] theorem State.setDie_teams (s : State) (d : Nat) (x : Die) : (s.setDie d x).teams = s.teams := rfl
@[simp] theorem State.setDie_placements (s : State) (d : Nat) (x : Die) : (s.setDie d x).placements = s.placements := rfl

/-! ## due -/

@[simp] theorem State.due_agenda (s : State) (e : Instr) : (s.due e).agenda = s.agenda ++ [e] := rfl
@[simp] theorem State.due_issue (s : State) (e : Instr) : (s.due e).issue = s.issue := rfl
@[simp] theorem State.due_freeCtr (s : State) (e : Instr) : (s.due e).freeCtr = s.freeCtr := rfl
@[simp] theorem State.due_signals (s : State) (e : Instr) : (s.due e).signals = s.signals := rfl
@[simp] theorem State.due_boot (s : State) (e : Instr) : (s.due e).boot = s.boot := rfl
@[simp] theorem State.due_failStage (s : State) (e : Instr) : (s.due e).failStage = s.failStage := rfl
@[simp] theorem State.due_measures (s : State) (e : Instr) : (s.due e).measures = s.measures := rfl
@[simp] theorem State.due_clockMHz (s : State) (e : Instr) : (s.due e).clockMHz = s.clockMHz := rfl
@[simp] theorem State.due_throttles (s : State) (e : Instr) : (s.due e).throttles = s.throttles := rfl
@[simp] theorem State.due_thermalStop (s : State) (e : Instr) : (s.due e).thermalStop = s.thermalStop := rfl
@[simp] theorem State.due_thermalEvents (s : State) (e : Instr) : (s.due e).thermalEvents = s.thermalEvents := rfl
@[simp] theorem State.due_cycle (s : State) (e : Instr) : (s.due e).cycle = s.cycle := rfl
@[simp] theorem State.due_ns (s : State) (e : Instr) : (s.due e).ns = s.ns := rfl
@[simp] theorem State.due_nsFrac (s : State) (e : Instr) : (s.due e).nsFrac = s.nsFrac := rfl
@[simp] theorem State.due_uPs (s : State) (e : Instr) : (s.due e).uPs = s.uPs := rfl
@[simp] theorem State.due_uAt (s : State) (e : Instr) : (s.due e).uAt = s.uAt := rfl
@[simp] theorem State.due_linkAt (s : State) (e : Instr) : (s.due e).linkAt = s.linkAt := rfl
@[simp] theorem State.due_linkDown (s : State) (e : Instr) : (s.due e).linkDown = s.linkDown := rfl
@[simp] theorem State.due_keystone (s : State) (e : Instr) : (s.due e).keystone = s.keystone := rfl
@[simp] theorem State.due_dies (s : State) (e : Instr) : (s.due e).dies = s.dies := rfl
@[simp] theorem State.due_devNumber (s : State) (e : Instr) : (s.due e).devNumber = s.devNumber := rfl
@[simp] theorem State.due_domain (s : State) (e : Instr) : (s.due e).domain = s.domain := rfl
@[simp] theorem State.due_ports (s : State) (e : Instr) : (s.due e).ports = s.ports := rfl
@[simp] theorem State.due_diePorts (s : State) (e : Instr) : (s.due e).diePorts = s.diePorts := rfl
@[simp] theorem State.due_peers (s : State) (e : Instr) : (s.due e).peers = s.peers := rfl
@[simp] theorem State.due_corrected (s : State) (e : Instr) : (s.due e).corrected = s.corrected := rfl
@[simp] theorem State.due_errorLog (s : State) (e : Instr) : (s.due e).errorLog = s.errorLog := rfl
@[simp] theorem State.due_pwsel (s : State) (e : Instr) : (s.due e).pwsel = s.pwsel := rfl
@[simp] theorem State.due_pfMail (s : State) (e : Instr) : (s.due e).pfMail = s.pfMail := rfl
@[simp] theorem State.due_vfMail (s : State) (e : Instr) : (s.due e).vfMail = s.vfMail := rfl
@[simp] theorem State.due_mem (s : State) (e : Instr) : (s.due e).mem = s.mem := rfl
@[simp] theorem State.due_hostMem (s : State) (e : Instr) : (s.due e).hostMem = s.hostMem := rfl
@[simp] theorem State.due_poison (s : State) (e : Instr) : (s.due e).poison = s.poison := rfl
@[simp] theorem State.due_l2Poison (s : State) (e : Instr) : (s.due e).l2Poison = s.l2Poison := rfl
@[simp] theorem State.due_lineStamp (s : State) (e : Instr) : (s.due e).lineStamp = s.lineStamp := rfl
@[simp] theorem State.due_versions (s : State) (e : Instr) : (s.due e).versions = s.versions := rfl
@[simp] theorem State.due_stores (s : State) (e : Instr) : (s.due e).stores = s.stores := rfl
@[simp] theorem State.due_nextStore (s : State) (e : Instr) : (s.due e).nextStore = s.nextStore := rfl
@[simp] theorem State.due_stampedPages (s : State) (e : Instr) : (s.due e).stampedPages = s.stampedPages := rfl
@[simp] theorem State.due_replies (s : State) (e : Instr) : (s.due e).replies = s.replies := rfl
@[simp] theorem State.due_remoteWaits (s : State) (e : Instr) : (s.due e).remoteWaits = s.remoteWaits := rfl
@[simp] theorem State.due_linkWaits (s : State) (e : Instr) : (s.due e).linkWaits = s.linkWaits := rfl
@[simp] theorem State.due_cmdWaits (s : State) (e : Instr) : (s.due e).cmdWaits = s.cmdWaits := rfl
@[simp] theorem State.due_cores (s : State) (e : Instr) : (s.due e).cores = s.cores := rfl
@[simp] theorem State.due_clusters (s : State) (e : Instr) : (s.due e).clusters = s.clusters := rfl
@[simp] theorem State.due_parts (s : State) (e : Instr) : (s.due e).parts = s.parts := rfl
@[simp] theorem State.due_slices (s : State) (e : Instr) : (s.due e).slices = s.slices := rfl
@[simp] theorem State.due_teams (s : State) (e : Instr) : (s.due e).teams = s.teams := rfl
@[simp] theorem State.due_placements (s : State) (e : Instr) : (s.due e).placements = s.placements := rfl

/-! ## signal -/

@[simp] theorem State.signal_agenda (s : State) (x : Signal) : (s.signal x).agenda = s.agenda := rfl
@[simp] theorem State.signal_issue (s : State) (x : Signal) : (s.signal x).issue = s.issue := rfl
@[simp] theorem State.signal_freeCtr (s : State) (x : Signal) : (s.signal x).freeCtr = s.freeCtr := rfl
@[simp] theorem State.signal_signals (s : State) (x : Signal) : (s.signal x).signals = s.signals ++ [x] := rfl
@[simp] theorem State.signal_boot (s : State) (x : Signal) : (s.signal x).boot = s.boot := rfl
@[simp] theorem State.signal_failStage (s : State) (x : Signal) : (s.signal x).failStage = s.failStage := rfl
@[simp] theorem State.signal_measures (s : State) (x : Signal) : (s.signal x).measures = s.measures := rfl
@[simp] theorem State.signal_clockMHz (s : State) (x : Signal) : (s.signal x).clockMHz = s.clockMHz := rfl
@[simp] theorem State.signal_throttles (s : State) (x : Signal) : (s.signal x).throttles = s.throttles := rfl
@[simp] theorem State.signal_thermalStop (s : State) (x : Signal) : (s.signal x).thermalStop = s.thermalStop := rfl
@[simp] theorem State.signal_thermalEvents (s : State) (x : Signal) : (s.signal x).thermalEvents = s.thermalEvents := rfl
@[simp] theorem State.signal_cycle (s : State) (x : Signal) : (s.signal x).cycle = s.cycle := rfl
@[simp] theorem State.signal_ns (s : State) (x : Signal) : (s.signal x).ns = s.ns := rfl
@[simp] theorem State.signal_nsFrac (s : State) (x : Signal) : (s.signal x).nsFrac = s.nsFrac := rfl
@[simp] theorem State.signal_uPs (s : State) (x : Signal) : (s.signal x).uPs = s.uPs := rfl
@[simp] theorem State.signal_uAt (s : State) (x : Signal) : (s.signal x).uAt = s.uAt := rfl
@[simp] theorem State.signal_linkAt (s : State) (x : Signal) : (s.signal x).linkAt = s.linkAt := rfl
@[simp] theorem State.signal_linkDown (s : State) (x : Signal) : (s.signal x).linkDown = s.linkDown := rfl
@[simp] theorem State.signal_keystone (s : State) (x : Signal) : (s.signal x).keystone = s.keystone := rfl
@[simp] theorem State.signal_dies (s : State) (x : Signal) : (s.signal x).dies = s.dies := rfl
@[simp] theorem State.signal_devNumber (s : State) (x : Signal) : (s.signal x).devNumber = s.devNumber := rfl
@[simp] theorem State.signal_domain (s : State) (x : Signal) : (s.signal x).domain = s.domain := rfl
@[simp] theorem State.signal_ports (s : State) (x : Signal) : (s.signal x).ports = s.ports := rfl
@[simp] theorem State.signal_diePorts (s : State) (x : Signal) : (s.signal x).diePorts = s.diePorts := rfl
@[simp] theorem State.signal_peers (s : State) (x : Signal) : (s.signal x).peers = s.peers := rfl
@[simp] theorem State.signal_corrected (s : State) (x : Signal) : (s.signal x).corrected = s.corrected := rfl
@[simp] theorem State.signal_errorLog (s : State) (x : Signal) : (s.signal x).errorLog = s.errorLog := rfl
@[simp] theorem State.signal_pwsel (s : State) (x : Signal) : (s.signal x).pwsel = s.pwsel := rfl
@[simp] theorem State.signal_pfMail (s : State) (x : Signal) : (s.signal x).pfMail = s.pfMail := rfl
@[simp] theorem State.signal_vfMail (s : State) (x : Signal) : (s.signal x).vfMail = s.vfMail := rfl
@[simp] theorem State.signal_mem (s : State) (x : Signal) : (s.signal x).mem = s.mem := rfl
@[simp] theorem State.signal_hostMem (s : State) (x : Signal) : (s.signal x).hostMem = s.hostMem := rfl
@[simp] theorem State.signal_poison (s : State) (x : Signal) : (s.signal x).poison = s.poison := rfl
@[simp] theorem State.signal_l2Poison (s : State) (x : Signal) : (s.signal x).l2Poison = s.l2Poison := rfl
@[simp] theorem State.signal_lineStamp (s : State) (x : Signal) : (s.signal x).lineStamp = s.lineStamp := rfl
@[simp] theorem State.signal_versions (s : State) (x : Signal) : (s.signal x).versions = s.versions := rfl
@[simp] theorem State.signal_stores (s : State) (x : Signal) : (s.signal x).stores = s.stores := rfl
@[simp] theorem State.signal_nextStore (s : State) (x : Signal) : (s.signal x).nextStore = s.nextStore := rfl
@[simp] theorem State.signal_stampedPages (s : State) (x : Signal) : (s.signal x).stampedPages = s.stampedPages := rfl
@[simp] theorem State.signal_replies (s : State) (x : Signal) : (s.signal x).replies = s.replies := rfl
@[simp] theorem State.signal_remoteWaits (s : State) (x : Signal) : (s.signal x).remoteWaits = s.remoteWaits := rfl
@[simp] theorem State.signal_linkWaits (s : State) (x : Signal) : (s.signal x).linkWaits = s.linkWaits := rfl
@[simp] theorem State.signal_cmdWaits (s : State) (x : Signal) : (s.signal x).cmdWaits = s.cmdWaits := rfl
@[simp] theorem State.signal_cores (s : State) (x : Signal) : (s.signal x).cores = s.cores := rfl
@[simp] theorem State.signal_clusters (s : State) (x : Signal) : (s.signal x).clusters = s.clusters := rfl
@[simp] theorem State.signal_parts (s : State) (x : Signal) : (s.signal x).parts = s.parts := rfl
@[simp] theorem State.signal_slices (s : State) (x : Signal) : (s.signal x).slices = s.slices := rfl
@[simp] theorem State.signal_teams (s : State) (x : Signal) : (s.signal x).teams = s.teams := rfl
@[simp] theorem State.signal_placements (s : State) (x : Signal) : (s.signal x).placements = s.placements := rfl

/-! ## onCourse -/

@[simp] theorem State.onCourse_agenda (s : State) (tk c : Nat) (f : Course → Course) : (s.onCourse tk c f).agenda = s.agenda := rfl
@[simp] theorem State.onCourse_issue (s : State) (tk c : Nat) (f : Course → Course) : (s.onCourse tk c f).issue = s.issue := rfl
@[simp] theorem State.onCourse_freeCtr (s : State) (tk c : Nat) (f : Course → Course) : (s.onCourse tk c f).freeCtr = s.freeCtr := rfl
@[simp] theorem State.onCourse_signals (s : State) (tk c : Nat) (f : Course → Course) : (s.onCourse tk c f).signals = s.signals := rfl
@[simp] theorem State.onCourse_boot (s : State) (tk c : Nat) (f : Course → Course) : (s.onCourse tk c f).boot = s.boot := rfl
@[simp] theorem State.onCourse_failStage (s : State) (tk c : Nat) (f : Course → Course) : (s.onCourse tk c f).failStage = s.failStage := rfl
@[simp] theorem State.onCourse_measures (s : State) (tk c : Nat) (f : Course → Course) : (s.onCourse tk c f).measures = s.measures := rfl
@[simp] theorem State.onCourse_clockMHz (s : State) (tk c : Nat) (f : Course → Course) : (s.onCourse tk c f).clockMHz = s.clockMHz := rfl
@[simp] theorem State.onCourse_throttles (s : State) (tk c : Nat) (f : Course → Course) : (s.onCourse tk c f).throttles = s.throttles := rfl
@[simp] theorem State.onCourse_thermalStop (s : State) (tk c : Nat) (f : Course → Course) : (s.onCourse tk c f).thermalStop = s.thermalStop := rfl
@[simp] theorem State.onCourse_thermalEvents (s : State) (tk c : Nat) (f : Course → Course) : (s.onCourse tk c f).thermalEvents = s.thermalEvents := rfl
@[simp] theorem State.onCourse_cycle (s : State) (tk c : Nat) (f : Course → Course) : (s.onCourse tk c f).cycle = s.cycle := rfl
@[simp] theorem State.onCourse_ns (s : State) (tk c : Nat) (f : Course → Course) : (s.onCourse tk c f).ns = s.ns := rfl
@[simp] theorem State.onCourse_nsFrac (s : State) (tk c : Nat) (f : Course → Course) : (s.onCourse tk c f).nsFrac = s.nsFrac := rfl
@[simp] theorem State.onCourse_uPs (s : State) (tk c : Nat) (f : Course → Course) : (s.onCourse tk c f).uPs = s.uPs := rfl
@[simp] theorem State.onCourse_uAt (s : State) (tk c : Nat) (f : Course → Course) : (s.onCourse tk c f).uAt = s.uAt := rfl
@[simp] theorem State.onCourse_linkAt (s : State) (tk c : Nat) (f : Course → Course) : (s.onCourse tk c f).linkAt = s.linkAt := rfl
@[simp] theorem State.onCourse_linkDown (s : State) (tk c : Nat) (f : Course → Course) : (s.onCourse tk c f).linkDown = s.linkDown := rfl
@[simp] theorem State.onCourse_keystone (s : State) (tk c : Nat) (f : Course → Course) : (s.onCourse tk c f).keystone = s.keystone := rfl
@[simp] theorem State.onCourse_dies (s : State) (tk c : Nat) (f : Course → Course) : (s.onCourse tk c f).dies = s.dies := rfl
@[simp] theorem State.onCourse_devNumber (s : State) (tk c : Nat) (f : Course → Course) : (s.onCourse tk c f).devNumber = s.devNumber := rfl
@[simp] theorem State.onCourse_domain (s : State) (tk c : Nat) (f : Course → Course) : (s.onCourse tk c f).domain = s.domain := rfl
@[simp] theorem State.onCourse_ports (s : State) (tk c : Nat) (f : Course → Course) : (s.onCourse tk c f).ports = s.ports := rfl
@[simp] theorem State.onCourse_diePorts (s : State) (tk c : Nat) (f : Course → Course) : (s.onCourse tk c f).diePorts = s.diePorts := rfl
@[simp] theorem State.onCourse_peers (s : State) (tk c : Nat) (f : Course → Course) : (s.onCourse tk c f).peers = s.peers := rfl
@[simp] theorem State.onCourse_corrected (s : State) (tk c : Nat) (f : Course → Course) : (s.onCourse tk c f).corrected = s.corrected := rfl
@[simp] theorem State.onCourse_errorLog (s : State) (tk c : Nat) (f : Course → Course) : (s.onCourse tk c f).errorLog = s.errorLog := rfl
@[simp] theorem State.onCourse_pwsel (s : State) (tk c : Nat) (f : Course → Course) : (s.onCourse tk c f).pwsel = s.pwsel := rfl
@[simp] theorem State.onCourse_pfMail (s : State) (tk c : Nat) (f : Course → Course) : (s.onCourse tk c f).pfMail = s.pfMail := rfl
@[simp] theorem State.onCourse_vfMail (s : State) (tk c : Nat) (f : Course → Course) : (s.onCourse tk c f).vfMail = s.vfMail := rfl
@[simp] theorem State.onCourse_mem (s : State) (tk c : Nat) (f : Course → Course) : (s.onCourse tk c f).mem = s.mem := rfl
@[simp] theorem State.onCourse_hostMem (s : State) (tk c : Nat) (f : Course → Course) : (s.onCourse tk c f).hostMem = s.hostMem := rfl
@[simp] theorem State.onCourse_poison (s : State) (tk c : Nat) (f : Course → Course) : (s.onCourse tk c f).poison = s.poison := rfl
@[simp] theorem State.onCourse_l2Poison (s : State) (tk c : Nat) (f : Course → Course) : (s.onCourse tk c f).l2Poison = s.l2Poison := rfl
@[simp] theorem State.onCourse_lineStamp (s : State) (tk c : Nat) (f : Course → Course) : (s.onCourse tk c f).lineStamp = s.lineStamp := rfl
@[simp] theorem State.onCourse_versions (s : State) (tk c : Nat) (f : Course → Course) : (s.onCourse tk c f).versions = s.versions := rfl
@[simp] theorem State.onCourse_stores (s : State) (tk c : Nat) (f : Course → Course) : (s.onCourse tk c f).stores = s.stores := rfl
@[simp] theorem State.onCourse_nextStore (s : State) (tk c : Nat) (f : Course → Course) : (s.onCourse tk c f).nextStore = s.nextStore := rfl
@[simp] theorem State.onCourse_stampedPages (s : State) (tk c : Nat) (f : Course → Course) : (s.onCourse tk c f).stampedPages = s.stampedPages := rfl
@[simp] theorem State.onCourse_replies (s : State) (tk c : Nat) (f : Course → Course) : (s.onCourse tk c f).replies = s.replies := rfl
@[simp] theorem State.onCourse_remoteWaits (s : State) (tk c : Nat) (f : Course → Course) : (s.onCourse tk c f).remoteWaits = s.remoteWaits := rfl
@[simp] theorem State.onCourse_linkWaits (s : State) (tk c : Nat) (f : Course → Course) : (s.onCourse tk c f).linkWaits = s.linkWaits := rfl
@[simp] theorem State.onCourse_cmdWaits (s : State) (tk c : Nat) (f : Course → Course) : (s.onCourse tk c f).cmdWaits = s.cmdWaits := rfl
@[simp] theorem State.onCourse_cores (s : State) (tk c : Nat) (f : Course → Course) : (s.onCourse tk c f).cores = s.cores := rfl
@[simp] theorem State.onCourse_clusters (s : State) (tk c : Nat) (f : Course → Course) : (s.onCourse tk c f).clusters = s.clusters := rfl
@[simp] theorem State.onCourse_parts (s : State) (tk c : Nat) (f : Course → Course) : (s.onCourse tk c f).parts = s.parts := rfl
@[simp] theorem State.onCourse_slices (s : State) (tk c : Nat) (f : Course → Course) : (s.onCourse tk c f).slices = s.slices := rfl
@[simp] theorem State.onCourse_placements (s : State) (tk c : Nat) (f : Course → Course) : (s.onCourse tk c f).placements = s.placements := rfl

/-! ## onThread -/

@[simp] theorem State.onThread_agenda (s : State) (tk c l : Nat) (f : Thread → Thread) : (s.onThread tk c l f).agenda = s.agenda := rfl
@[simp] theorem State.onThread_issue (s : State) (tk c l : Nat) (f : Thread → Thread) : (s.onThread tk c l f).issue = s.issue := rfl
@[simp] theorem State.onThread_freeCtr (s : State) (tk c l : Nat) (f : Thread → Thread) : (s.onThread tk c l f).freeCtr = s.freeCtr := rfl
@[simp] theorem State.onThread_signals (s : State) (tk c l : Nat) (f : Thread → Thread) : (s.onThread tk c l f).signals = s.signals := rfl
@[simp] theorem State.onThread_boot (s : State) (tk c l : Nat) (f : Thread → Thread) : (s.onThread tk c l f).boot = s.boot := rfl
@[simp] theorem State.onThread_failStage (s : State) (tk c l : Nat) (f : Thread → Thread) : (s.onThread tk c l f).failStage = s.failStage := rfl
@[simp] theorem State.onThread_measures (s : State) (tk c l : Nat) (f : Thread → Thread) : (s.onThread tk c l f).measures = s.measures := rfl
@[simp] theorem State.onThread_clockMHz (s : State) (tk c l : Nat) (f : Thread → Thread) : (s.onThread tk c l f).clockMHz = s.clockMHz := rfl
@[simp] theorem State.onThread_throttles (s : State) (tk c l : Nat) (f : Thread → Thread) : (s.onThread tk c l f).throttles = s.throttles := rfl
@[simp] theorem State.onThread_thermalStop (s : State) (tk c l : Nat) (f : Thread → Thread) : (s.onThread tk c l f).thermalStop = s.thermalStop := rfl
@[simp] theorem State.onThread_thermalEvents (s : State) (tk c l : Nat) (f : Thread → Thread) : (s.onThread tk c l f).thermalEvents = s.thermalEvents := rfl
@[simp] theorem State.onThread_cycle (s : State) (tk c l : Nat) (f : Thread → Thread) : (s.onThread tk c l f).cycle = s.cycle := rfl
@[simp] theorem State.onThread_ns (s : State) (tk c l : Nat) (f : Thread → Thread) : (s.onThread tk c l f).ns = s.ns := rfl
@[simp] theorem State.onThread_nsFrac (s : State) (tk c l : Nat) (f : Thread → Thread) : (s.onThread tk c l f).nsFrac = s.nsFrac := rfl
@[simp] theorem State.onThread_uPs (s : State) (tk c l : Nat) (f : Thread → Thread) : (s.onThread tk c l f).uPs = s.uPs := rfl
@[simp] theorem State.onThread_uAt (s : State) (tk c l : Nat) (f : Thread → Thread) : (s.onThread tk c l f).uAt = s.uAt := rfl
@[simp] theorem State.onThread_linkAt (s : State) (tk c l : Nat) (f : Thread → Thread) : (s.onThread tk c l f).linkAt = s.linkAt := rfl
@[simp] theorem State.onThread_linkDown (s : State) (tk c l : Nat) (f : Thread → Thread) : (s.onThread tk c l f).linkDown = s.linkDown := rfl
@[simp] theorem State.onThread_keystone (s : State) (tk c l : Nat) (f : Thread → Thread) : (s.onThread tk c l f).keystone = s.keystone := rfl
@[simp] theorem State.onThread_dies (s : State) (tk c l : Nat) (f : Thread → Thread) : (s.onThread tk c l f).dies = s.dies := rfl
@[simp] theorem State.onThread_devNumber (s : State) (tk c l : Nat) (f : Thread → Thread) : (s.onThread tk c l f).devNumber = s.devNumber := rfl
@[simp] theorem State.onThread_domain (s : State) (tk c l : Nat) (f : Thread → Thread) : (s.onThread tk c l f).domain = s.domain := rfl
@[simp] theorem State.onThread_ports (s : State) (tk c l : Nat) (f : Thread → Thread) : (s.onThread tk c l f).ports = s.ports := rfl
@[simp] theorem State.onThread_diePorts (s : State) (tk c l : Nat) (f : Thread → Thread) : (s.onThread tk c l f).diePorts = s.diePorts := rfl
@[simp] theorem State.onThread_peers (s : State) (tk c l : Nat) (f : Thread → Thread) : (s.onThread tk c l f).peers = s.peers := rfl
@[simp] theorem State.onThread_corrected (s : State) (tk c l : Nat) (f : Thread → Thread) : (s.onThread tk c l f).corrected = s.corrected := rfl
@[simp] theorem State.onThread_errorLog (s : State) (tk c l : Nat) (f : Thread → Thread) : (s.onThread tk c l f).errorLog = s.errorLog := rfl
@[simp] theorem State.onThread_pwsel (s : State) (tk c l : Nat) (f : Thread → Thread) : (s.onThread tk c l f).pwsel = s.pwsel := rfl
@[simp] theorem State.onThread_pfMail (s : State) (tk c l : Nat) (f : Thread → Thread) : (s.onThread tk c l f).pfMail = s.pfMail := rfl
@[simp] theorem State.onThread_vfMail (s : State) (tk c l : Nat) (f : Thread → Thread) : (s.onThread tk c l f).vfMail = s.vfMail := rfl
@[simp] theorem State.onThread_mem (s : State) (tk c l : Nat) (f : Thread → Thread) : (s.onThread tk c l f).mem = s.mem := rfl
@[simp] theorem State.onThread_hostMem (s : State) (tk c l : Nat) (f : Thread → Thread) : (s.onThread tk c l f).hostMem = s.hostMem := rfl
@[simp] theorem State.onThread_poison (s : State) (tk c l : Nat) (f : Thread → Thread) : (s.onThread tk c l f).poison = s.poison := rfl
@[simp] theorem State.onThread_l2Poison (s : State) (tk c l : Nat) (f : Thread → Thread) : (s.onThread tk c l f).l2Poison = s.l2Poison := rfl
@[simp] theorem State.onThread_lineStamp (s : State) (tk c l : Nat) (f : Thread → Thread) : (s.onThread tk c l f).lineStamp = s.lineStamp := rfl
@[simp] theorem State.onThread_versions (s : State) (tk c l : Nat) (f : Thread → Thread) : (s.onThread tk c l f).versions = s.versions := rfl
@[simp] theorem State.onThread_stores (s : State) (tk c l : Nat) (f : Thread → Thread) : (s.onThread tk c l f).stores = s.stores := rfl
@[simp] theorem State.onThread_nextStore (s : State) (tk c l : Nat) (f : Thread → Thread) : (s.onThread tk c l f).nextStore = s.nextStore := rfl
@[simp] theorem State.onThread_stampedPages (s : State) (tk c l : Nat) (f : Thread → Thread) : (s.onThread tk c l f).stampedPages = s.stampedPages := rfl
@[simp] theorem State.onThread_replies (s : State) (tk c l : Nat) (f : Thread → Thread) : (s.onThread tk c l f).replies = s.replies := rfl
@[simp] theorem State.onThread_remoteWaits (s : State) (tk c l : Nat) (f : Thread → Thread) : (s.onThread tk c l f).remoteWaits = s.remoteWaits := rfl
@[simp] theorem State.onThread_linkWaits (s : State) (tk c l : Nat) (f : Thread → Thread) : (s.onThread tk c l f).linkWaits = s.linkWaits := rfl
@[simp] theorem State.onThread_cmdWaits (s : State) (tk c l : Nat) (f : Thread → Thread) : (s.onThread tk c l f).cmdWaits = s.cmdWaits := rfl
@[simp] theorem State.onThread_cores (s : State) (tk c l : Nat) (f : Thread → Thread) : (s.onThread tk c l f).cores = s.cores := rfl
@[simp] theorem State.onThread_clusters (s : State) (tk c l : Nat) (f : Thread → Thread) : (s.onThread tk c l f).clusters = s.clusters := rfl
@[simp] theorem State.onThread_parts (s : State) (tk c l : Nat) (f : Thread → Thread) : (s.onThread tk c l f).parts = s.parts := rfl
@[simp] theorem State.onThread_slices (s : State) (tk c l : Nat) (f : Thread → Thread) : (s.onThread tk c l f).slices = s.slices := rfl
@[simp] theorem State.onThread_placements (s : State) (tk c l : Nat) (f : Thread → Thread) : (s.onThread tk c l f).placements = s.placements := rfl

/-! ## Reads after writes -/

theorem State.part_setPart (s : State) (p : Nat) (x : Partition) (h : p < s.parts.length) : (s.setPart p x).part p = x := nth_set_same _ _ _ _ h
theorem State.part_setPart_ne (s : State) {p q : Nat} (x : Partition) (h : q ≠ p) : (s.setPart p x).part q = s.part q := nth_set_ne _ _ _ h
theorem State.cluster_setCluster (s : State) (k : Nat) (c : Cluster) : (s.setCluster k c).cluster k = c := by
  simp [State.cluster, State.setCluster]
theorem State.cluster_setCluster_ne (s : State) {k j : Nat} (c : Cluster) (h : j ≠ k) : (s.setCluster k c).cluster j = s.cluster j := by
  simp [State.cluster, State.setCluster, FMap.get_set_ne _ _ h]

/-- A change of one thread, seen from any thread. -/
theorem State.threadAt_onThread (s : State) (tk c l : Nat) (f : Thread → Thread) (uk d m : Nat) :
    (s.onThread tk c l f).threadAt uk d m =
      if uk = tk ∧ d = c ∧ m = l then (s.threadAt tk c l).map f else s.threadAt uk d m := by
  simp only [State.threadAt, State.onThread, State.onCourse, FMap.get_modify]
  by_cases h1 : uk = tk
  · subst h1
    cases ht : FMap.get s.teams uk with
    | none => simp
    | some t =>
      simp only [if_true, Option.map_some, Option.bind_some, true_and, FMap.get_modify]
      by_cases h2 : d = c
      · subst h2
        cases hx : FMap.get t.courses d with
        | none => simp
        | some x =>
          simp only [if_true, Option.map_some, Option.bind_some, true_and, FMap.get_modify]
      · simp [h2]
  · simp [h1]

end Sys2Proof.Machine
end

