-- ==== Sys2Proof/Machine/Windows.lean ====
section
/-!
DEFINITION. What a host read of a BAR0 window returns (R349): the management window (R353) and the partition windows (R387), register by
register as the Read side of R4 and R5 has it. A read changes nothing, so it is no event.
-/

namespace Sys2Proof.Machine

/-- A byte of a region that begins at an offset, where the offset lies in it. -/
def regionByte (start : Nat) (b : List Byte) (off : Nat) : Option Byte :=
  if start ≤ off ∧ off < start + b.length then some (nth b (off - start) 0) else none

/-- The registers of a fault ring or an error log (R363, R379). -/
def RecRing.faultBytes (r : RecRing) : List Byte :=
  leBytes 8 r.base.toNat ++ leBytes 4 r.size ++ leBytes 4 r.head.toNat ++ leBytes 4 r.tail.toNat ++ leBytes 4 r.stat.toNat ++ leBytes 4 r.vec.toNat

/-- The registers of an event ring (R385); an ECOUNT of 0 reads as 1. -/
def RecRing.eventBytes (r : RecRing) : List Byte :=
  leBytes 8 r.base.toNat ++ leBytes 4 r.size ++ leBytes 4 r.head.toNat ++ leBytes 4 r.tail.toNat ++ leBytes 2 (max 1 r.count) ++
    leBytes 2 r.vec.toNat ++ leBytes 4 r.time ++ leBytes 4 r.stat.toNat

/-- STATUS of a mailbox (R353). -/
def Mailbox.status (x : Mailbox) : Nat := x.busy.toNat + x.result * 2 + x.overrun.toNat * 2 ^ 4

/-- The 4,096 bytes of a command mailbox (R353). -/
def Mailbox.bytes (x : Mailbox) : List Byte :=
  padTo 0x100 (leBytes 8 x.cmd.toNat ++ leBytes 4 x.status ++ leBytes 4 0 ++ (x.args.flatMap fun a => leBytes 8 a.toNat) ++ leBytes 2 x.cvec.toNat) ++
    x.payload.readN 0 3840

/-- A class's counters (R325). -/
def ClassCount.bytes (c : ClassCount) : List Byte := leBytes 8 c.count.toNat ++ leBytes 8 c.misses.toNat ++ leBytes 8 c.worst.toNat

/-- Sixteen holds; a free one reads 0 (R387). -/
def holdBytes (hs : List Nat) : List Byte := (List.range 16).flatMap fun k => leBytes 8 (nth hs k 0)

/-- The slice table (R387): the entries in use first, by slice number; which entry a slice takes is not given (log 52). -/
def State.sliceTableByte (s : State) (k off : Nat) : Byte :=
  let xs := s.slices.filter fun p => p.2.part == k
  match xs[off / 128]? with
  | some p => nth (s.sliceEntry p.1 p.2) (off % 128) 0
  | none => 0

/-- A byte of a partition window (R387); nothing where the manual gives the window no contents. -/
def State.partitionByte (s : State) (k off : Nat) : Option Byte :=
  let q := s.part k
  let slices := 128 * q.cfg 0x24 4
  if off < 0x1000 then regionByte 0 q.block off
  else if off < 0x2000 then regionByte 0x1000 (q.classes.flatMap ClassCount.bytes) off
  else if off < 0x3000 then regionByte 0x2000 (s.mailbox (.vf (Fin.ofNat 16 (fld (q.cfg 0 8) 8 4)))).bytes off
  else if off < 0x11000 then regionByte 0x10000 q.faultRing.faultBytes off
  else if off < 0x12000 then regionByte 0x11000 (q.eventRings.flatMap RecRing.eventBytes) off
  else if off < 0x20000 then regionByte 0x12000 q.errorLog.faultBytes off
  else if off < 0x100000 then regionByte 0x20000 (holdBytes q.holds ++ holdBytes q.domHolds) off
  else if off < 0x400000 then (if off < 0x100000 + slices then some (s.sliceTableByte k (off - 0x100000)) else none)
  else if off < 0x2000000 then some (nth (leBytes 8 (s.capEntry k ((off - 0x400000) / 8)).toNat) (off % 8) 0)
  else none

/-- Boot states by number (R353). -/
def Boot.num : Boot → Nat
  | .booting => 0
  | .bootFail => 1
  | .reduced => 2
  | .full => 3

/-- The identity registers (R353). -/
def State.identity (s : State) : List Byte :=
  padTo 4096 (leBytes 8 1 ++ leBytes 8 Config.serial.toNat ++ leBytes 8 (s.boot.num + s.failStage % 16 * 2 ^ 4))

/-- What the device status region of the management window shows (R353). -/
structure DeviceStatus where
  /-- The present core clock in MHz, and the count of throttling steps (R24). -/
  clockMHz : Nat
  throttles : Nat
  /-- U in ps (R256). -/
  uPs : Nat
  /-- Thermal events (R24). -/
  thermalEvents : Nat
  /-- Corrected errors by unit (R377). -/
  corrected : FMap Nat
  /-- Byte `k` of the identity certificate chain (R348). -/
  chain : Nat → Byte

/-- The device status as a read finds it. -/
def State.deviceStatus (s : State) : DeviceStatus :=
  { clockMHz := s.clockMHz, throttles := s.throttles, uPs := s.uNow, thermalEvents := s.thermalEvents, corrected := s.corrected,
    chain := Config.certByte }

/-- A byte of the device status region (R353). Its places are this model's (log 52, DESIGN CHOICE): at 0x0000 the clock, the throttle steps,
U and the thermal events in 8 bytes each; from 0x1000 the certificate chain; from 0x8000 the counters of corrected errors, 8 bytes each, by
source and unit number. -/
def DeviceStatus.byte (d : DeviceStatus) (o : Nat) : Byte :=
  if o < 0x1000 then nth (leBytes 8 d.clockMHz ++ leBytes 8 d.throttles ++ leBytes 8 d.uPs ++ leBytes 8 d.thermalEvents) o 0
  else if o < 0x8000 then d.chain (o - 0x1000)
  else nth (leBytes 8 ((FMap.get d.corrected ((o - 0x8000) / 8)).getD 0)) (o % 8) 0

/-- A byte of the management window as a physical function sees it (R353); nothing where the manual gives no contents. -/
def State.managementByte (s : State) (pf : Fin 2) (off : Nat) : Option Byte :=
  if off < 0x1000 then regionByte 0 s.identity off
  else if off < 0x2000 then regionByte 0x1000 (s.mailbox (.pf pf)).bytes off
  else if off < 0x10000 then regionByte 0x2000 (leBytes 8 (nth s.pwsel pf.val 0 % 16)) off
  else if off < 0x20000 then some (s.deviceStatus.byte (off - 0x10000))
  else if off < 0x2000000 then regionByte 0x20000 s.errorLog.faultBytes off
  else s.partitionByte (nth s.pwsel pf.val 0 % 16) (off - 0x2000000)

/-- A host read of a window: in BOOTFAIL the management window alone answers (R347). -/
def State.windowRead (s : State) (w : WindowSel) (off n : Nat) : Option (List Byte) :=
  match w with
  | .management pf => (List.range n).mapM fun k => s.managementByte pf (off + k)
  | .partition vf =>
    if s.boot = .bootFail then none
    else
      match s.partOfVf vf.val with
      | some k => (List.range n).mapM fun j => s.partitionByte k (off + j)
      | none => none

end Sys2Proof.Machine
end

