-- ==== Sys2Proof/Tests/Slice0.lean ====
section
/-!
SUPPORT. The model's own tests: ill-formed terms that WellFormed refuses, words of the manual that the decoder reads, single steps whose results the
manual's worked examples or its rules give, and for every statement that has hypotheses a concrete state that meets them.
-/

set_option Elab.async false

open Sys2Proof Sys2Proof.Machine

namespace Sys2Proof.Tests

/-! ## A small state -/

/-- The key of the test team. -/
abbrev teamNo : Nat := teamKey 0 1 0

/-- `n` threads at 0x1000 on the first lanes of course 0. -/
abbrev threadsOf (n : Nat) : FMap Thread := (List.range n).map fun l => (l, { pc := 0x1000 })

/-- A course of `n` threads whose registers hold `f`. -/
abbrev courseOf (n : Nat) (f : Nat → NameVal) : Course := { threads := threadsOf n, names := (List.range 64).map f }

/-- The lanes of course 0 below `n`, as members of a lift. -/
abbrev lanes (n : Nat) : List (Nat × Nat) := (List.range n).map fun l => (0, l)

/-- The lift of all the `n` threads, of which the first `p` participate. -/
abbrev issueOf (n p : Nat) : Issue := { core := 0, team := teamNo, lift := lanes n, parts := lanes p, addr := 0x1000, len := 4 }

/-- The test team with course 0 as given. -/
abbrev teamOf (c : Course) : Team := { placedTeam with ceiling := 32, courses := [(0, c)] }

/-- The machine in full service with one team, and the first `p` of its threads participating at their unit. -/
abbrev stateOf (c : Course) (p : Nat) : State :=
  { State.reset.placeWord 0 with teams := [(teamNo, teamOf c)], issue := issueOf c.threads.length p }

/-- Two threads; every register holds its own number. -/
abbrev course2 : Course := courseOf 2 fun k => .uni (BitVec.ofNat 32 k)
abbrev team2 : Team := teamOf course2
abbrev demo : State := stateOf course2 2

/-- The next state of an outcome. -/
def after : Host.Outcome State Fault Refusal → State
  | .next s => s
  | .fault _ => State.reset
  | .refused _ => State.reset

/-- The test team and its course in a state. -/
def teamIn (s : State) : Team := (FMap.get s.teams teamNo).getD placedTeam
def courseIn0 (s : State) : Course := (teamIn s).course 0

/-- What an instruction leaves in a register of a lane, on a course of `n` threads that hold `f`. -/
def gives (i : Instr) (n : Nat) (f : Nat → NameVal) (d l : Nat) : W32 := regRow (courseIn0 (after (exec i (stateOf (courseOf n f) n)))) d l

/-- Registers with a few values, and 0 elsewhere. -/
def vals (xs : List (Nat × W32)) (k : Nat) : NameVal := .uni ((FMap.get xs k).getD 0)

/-! ## WellFormed refuses -/

/-- R91: a 64-bit source, destination or entry with an odd name. -/
theorem test_refuses_odd_pairs :
    WellFormed (.addB64 (.reg 3) (.reg 4 false) (.reg 6 false)) = false ∧ WellFormed (.addB64 (.reg 2) (.reg 5 false) (.reg 6 false)) = false ∧
    WellFormed (.addB64 (.opf 3) (.reg 4 false) (.reg 6 false)) = false ∧ WellFormed (.addB64 (.reg 2) (.opf 5) (.reg 6 false)) = false := by decide

/-- R88: a special source that the operand's type does not admit; R83: a literal or special source as a device address. -/
theorem test_refuses_sources :
    WellFormed (.addB32 (.reg 1) (.special (.fpc 2)) (.reg 0 false)) = false ∧ WellFormed (.addB32 (.reg 1) (.special .negZero) (.reg 0 false)) = false ∧
    WellFormed (.faddF32 (.reg 1) (.special .lane) (.reg 0 false)) = false ∧ WellFormed (.cvtF32 (.reg 1) (.special (.int 3)) .e4m3 .rne false) = false ∧
    WellFormed (.ld .b32 1 (.special (.int 8)) 0) = false ∧ WellFormed (.st .b32 1 (.lit 8) 0) = false := by decide

/-- R90: a second literal. R71, R168: no suppressed result where the destination is read. R82: no operand-file result in I format. -/
theorem test_refuses_destinations :
    WellFormed (.addB32 (.reg 1) (.lit 1) (.lit 1)) = false ∧ WellFormed (.ssetpI32 .eq 1 (.lit 1) (.lit 1)) = false ∧
    WellFormed (.barArrive 1 (.lit 1) (.lit 1)) = false ∧ WellFormed (.ffmaF32 .sup (.reg 1 false) (.reg 2 false)) = false ∧
    WellFormed (.bfiB32 .sup (.reg 1 false) (.reg 2 false)) = false ∧ WellFormed (.addiB32 (.opf 1) (.reg 1 false) 5) = false := by decide

/-- R186: conversions that do not exist. -/
theorem test_refuses_conversions :
    WellFormed (.cvtF32 (.reg 1) (.reg 2 false) .f16 .rtz false) = false ∧ WellFormed (.cvtF64 (.reg 2) (.reg 2 false) .f32 .rne true) = false ∧
    WellFormed (.cvtI32 (.reg 1) (.reg 2 false) .i32 .rne false) = false ∧ WellFormed (.cvtH16 (.reg 1) (.reg 2 false) .f16 .rne false false) = false ∧
    WellFormed (.cvtF8 (.reg 1) (.reg 2 false) .f64 .rne false false) = false ∧ WellFormed (.scvtI32 (.reg 1) (.reg 2 false) .e4m3 .rne false) = false := by
  decide

/-- R213, R214, R221, R223, R224: ranges past v63, FP64 bases, sparse passes of the chained formats, a scale name inside its elements. -/
theorem test_refuses_matrix :
    WellFormed (.mma 0 .bf16 57 0 false false) = false ∧ WellFormed (.mma 0 .mxf8 0 56 false false) = false ∧ WellFormed (.mma 0 .f64 1 8 false false) = false ∧
    WellFormed (.mmaSp 0 .f32 0 8 false false) = false ∧ WellFormed (.mmaSp 0 .bf16 0 56 false false) = false ∧
    WellFormed (.tileFill .f64 0 1 false (.special (.int 0))) = false ∧ WellFormed (.tileDrainF32 0 49 (.special (.int 0))) = false ∧
    WellFormed (.tileQdrainMxf6 0 10 15) = false := by decide

/-- R273, R280, R283, R286 to R288, R296: names of memory instructions. -/
theorem test_refuses_memory :
    WellFormed (.ld .b64 5 (.reg 2 false) 0) = false ∧ WellFormed (.ld .b128 6 (.reg 2 false) 0) = false ∧ WellFormed (.ld .b32 5 (.reg 3 false) 0) = false ∧
    WellFormed (.ldx .spad .b64 5 (.reg 2 false) 0) = false ∧ WellFormed (.atom .addB32 (.level .chip) 63 (.reg 2 false)) = false ∧
    WellFormed (.atom .addB64 (.dev .dv .relaxed) 5 (.reg 2 false)) = false ∧ WellFormed (.satom .casB32 (.dev .dv .relaxed) 4 (.reg 2 false)) = false ∧
    WellFormed (.scas .b128 (.level .spad) 4 (.reg 2 false)) = false ∧ WellFormed (.sts .b32 4 (.reg 2 false) 7) = false ∧
    WellFormed (.lda false 63 (.reg 2 false) 4) = false ∧ WellFormed (.fetch .mxf8 55 (.reg 2 false) 0) = false := by decide

/-- R133, R137, R209, R298, R301, R302, R307: names of the uniform system instructions; R353: a command under another code. -/
theorem test_refuses_system :
    WellFormed (.clkiv 6) = false ∧ WellFormed (.sget 5 .tpc) = false ∧ WellFormed (.sset .tpc (.reg 5 false)) = false ∧ WellFormed (.chunk 5) = false ∧
    WellFormed (.spawn 0 (.reg 2 false) 57 false) = false ∧ WellFormed (.bcopy 5 8 false (.reg 0 false)) = false ∧
    WellFormed (.bcopySt 6 8 false (.reg 0 false)) = false ∧ WellFormed (.tlRead 62 (.reg 0 false)) = false ∧ WellFormed (.ckptHold 3 false) = false ∧
    WellFormed (.submit (.pf 0) 3) = false := by decide

/-! ## Decoding: words of the manual's tables, and words written out from its formats -/

/-- The encoding tables of R117, R192, R213 and R298, and the words of 08. -/
theorem test_decode_control :
    decodeWords [0x78C00002] = .ok ⟨none, .br .always false 2, 1⟩ ∧ decodeWords [0x79C00040] = .ok ⟨none, .call .always false 64, 1⟩ ∧
    decodeWords [0x7A002800] = .ok ⟨none, .icall (.reg 20 false), 1⟩ ∧ decodeWords [0x7A000002] = .ok ⟨none, .ret, 1⟩ ∧
    decodeWords [0x7A000004] = .ok ⟨none, .join, 1⟩ ∧ decodeWords [0x7A000006] = .ok ⟨none, .conv, 1⟩ ∧
    decodeWords [0x7A000A08] = .ok ⟨none, .emitB32 (.reg 5 false), 1⟩ ∧ decodeWords [0x7A000C0A] = .ok ⟨none, .emitB64 (.reg 6 false), 1⟩ ∧
    decodeWords [0x7B3F8000] = .ok ⟨none, .fork 31 (.special (.int 0)), 1⟩ ∧ decodeWords [0x7C123CC0] = .ok ⟨none, .plop 1 (.p 2) (.p 3) .always 0xC0, 1⟩ := by
  decide +kernel

theorem test_decode_work :
    decodeWords [0xD0020400] = .ok ⟨none, .spawn 1 (.reg 2 false) 0 false, 1⟩ ∧ decodeWords [0xD1280000] = .ok ⟨none, .chunk 20, 1⟩ ∧
    decodeWords [0xD2001800] = .ok ⟨none, .repack 12, 1⟩ ∧ decodeWords [0xD33C0400] = .ok ⟨none, .slice 30 (.reg 2 false), 1⟩ ∧
    decodeWords [0xD43E3C00] = .ok ⟨none, .depdec 31 (.reg 30 false), 1⟩ ∧ decodeWords [0xD5000400] = .ok ⟨none, .yield (.reg 2 false), 1⟩ ∧
    decodeWords [0xBE000800] = .ok ⟨none, .sleep (.reg 4 false), 1⟩ ∧ decodeWords [0xDA280800] = .ok ⟨none, .capq 20 (.reg 4 false), 1⟩ ∧
    decodeWords [0xDB281000] = .ok ⟨none, .sget 20 .slice, 1⟩ ∧ decodeWords [0xDC001804] = .ok ⟨none, .sset .trapbase (.reg 2 false), 1⟩ ∧
    decodeWords [0xDD000007] = .ok ⟨none, .trap 7, 1⟩ ∧ decodeWords [0xDE000000] = .ok ⟨none, .rett, 1⟩ ∧ decodeWords [0xDF000000] = .ok ⟨none, .bkpt 0, 1⟩ := by
  decide +kernel

theorem test_decode_group :
    decodeWords [0xA00A0C0E] = .ok ⟨none, .sfaddF32 (.reg 5) (.reg 6 false) (.reg 7 false), 1⟩ ∧
    decodeWords [0xAB0A0C28] = .ok ⟨none, .scvtI32 (.reg 5) (.reg 6 false) .f32 .rtz false, 1⟩ ∧
    decodeWords [0xAE101204] = .ok ⟨none, .ssqrtF32 (.reg 8) (.reg 9 false), 1⟩ ∧ decodeWords [0x6012080C] = .ok ⟨none, .shfl (.reg 9) (.reg 4 false) (.reg 6 false), 1⟩ ∧
    decodeWords [0x62160980] = .ok ⟨none, .matchKeys (.reg 11) (.reg 4 false) (.special (.int 0)), 1⟩ ∧
    decodeWords [0x63180812] = .ok ⟨none, .red (.reg 12) (.reg 4 false) .addF32, 1⟩ ∧ decodeWords [0x65280C04] = .ok ⟨none, .maxiF16 (.reg 20) (.reg 6 false), 1⟩ ∧
    decodeWords [0x662C0C10] = .ok ⟨none, .selk (.reg 22) (.reg 6 false) (.reg 8 false), 1⟩ ∧
    decodeWords [0x6714080A] = .ok ⟨none, .isect (.reg 10) (.reg 4 false) (.reg 5 false), 1⟩ ∧ decodeWords [0xD8280000] = .ok ⟨none, .clkiv 20, 1⟩ ∧
    decodeWords [0xD9061800] = .ok ⟨none, .vshape (.reg 3) (.reg 12), 1⟩ ∧ decodeWords [0x540A0C28] = .ok ⟨none, .cvtI32 (.reg 5) (.reg 6 false) .f32 .rtz false, 1⟩ := by
  decide +kernel

theorem test_decode_matrix :
    decodeWords [0x68262030] = .ok ⟨none, .mma 3 .e4m3 16 24 true false, 1⟩ ∧ decodeWords [0x69022030] = .ok ⟨none, .mmaSp 1 .e4m3 16 24 false false, 1⟩ ∧
    decodeWords [0x6800A040] = .ok ⟨none, .mma 0 .mxf8 16 32 false false, 1⟩ ∧ decodeWords [0x680720B0] = .ok ⟨none, .mma 3 .bf16 16 24 false false, 1⟩ ∧
    decodeWords [0x6A018800] = .ok ⟨none, .tileAlloc (.special (.int 4)), 1⟩ ∧ decodeWords [0x6B000000] = .ok ⟨none, .tileFree, 1⟩ ∧
    decodeWords [0x6C060000] = .ok ⟨none, .tileZero 3, 1⟩ ∧ decodeWords [0x6D040190] = .ok ⟨none, .tileFill .f64 2 0 false (.special (.int 8)), 1⟩ ∧
    decodeWords [0x6E41A026] = .ok ⟨none, .tileDrainF32 3 32 (.special (.int 16)), 1⟩ ∧ decodeWords [0x6F203000] = .ok ⟨none, .tileQdrainMxf8 0 16 24, 1⟩ := by
  decide +kernel

/-- M format (R80, R273, R274, R280, R282, R287, R288, R296): OP, F [23:20], D [19:14], A [13:6], OFF6 [5:0], written out by hand. -/
theorem test_decode_memory :
    decodeWords [0x70528101] = .ok ⟨none, .ld .b64 10 (.reg 4 false) 1, 1⟩ ∧ decodeWords [0x70C24191] = .ok ⟨none, .ldOrdered ⟨false, .te, false⟩ 9 (.reg 6 false), 1⟩ ∧
    decodeWords [0x7101C0BF] = .ok ⟨none, .st .b8 7 (.reg 2 false) 0x3F, 1⟩ ∧ decodeWords [0x71D2012A] = .ok ⟨none, .stOrdered ⟨true, .dv, false⟩ 8 (.reg 4 false), 1⟩ ∧
    decodeWords [0x726140C2] = .ok ⟨none, .ldx .clm .b32 5 (.reg 3 false) 2, 1⟩ ∧ decodeWords [0x73F1B400] = .ok ⟨none, .stx .lp .b64 6 (.special (.int 16)) 0, 1⟩ ∧
    decodeWords [0x7401021B] = .ok ⟨none, .atom .addB32 (.dev .cl .ar) 4 (.reg 8 false), 1⟩ ∧
    decodeWords [0x74B10245] = .ok ⟨none, .atom .casB32 (.level .spad) 4 (.reg 9 false), 1⟩ ∧
    decodeWords [0x7542810C] = .ok ⟨none, .sts .b32 10 (.reg 4 false) 12, 1⟩ ∧ decodeWords [0x76528114] = .ok ⟨none, .lda true 10 (.reg 4 false) 20, 1⟩ ∧
    decodeWords [0x7794011E] = .ok ⟨none, .fetch .bf16 16 (.reg 4 false) 15, 1⟩ ∧ decodeWords [0x7754011F] = .ok ⟨none, .gather .mxf6 16 (.reg 4 false) 15, 1⟩ ∧
    decodeWords [0xB0414101] = .ok ⟨none, .sld (.plain .b32 1) 5 (.reg 4 false), 1⟩ ∧ decodeWords [0xB5120124] = .ok ⟨none, .scas .b64 (.dev .di .sc) 8 (.reg 4 false), 1⟩ := by
  decide +kernel

theorem test_decode_synchronisation :
    decodeWords [0xB80000A2] = .ok ⟨none, .fence .dv .acq, 1⟩ ∧ decodeWords [0xB9282BBE] = .ok ⟨none, .barArrive 20 (.reg 21 false) (.special (.int 31)), 1⟩ ∧
    decodeWords [0xBA002A28] = .ok ⟨none, .barWait (.reg 21 false) (.reg 20 false), 1⟩ ∧ decodeWords [0xBB000100] = .ok ⟨none, .mon (.reg 4 false), 1⟩ ∧
    decodeWords [0xBC0A0C00] = .ok ⟨none, .mwait 5 (.reg 6 false), 1⟩ ∧ decodeWords [0xBD000000] = .ok ⟨none, .commitw, 1⟩ := by decide +kernel

theorem test_decode_engine :
    decodeWords [0xC018200E] = .ok ⟨none, .bcopy 12 16 false (.reg 7 false), 1⟩ ∧ decodeWords [0xC128200E] = .ok ⟨none, .bcopySt 20 16 false (.reg 7 false), 1⟩ ∧
    decodeWords [0xC200080A] = .ok ⟨none, .ringInit (.reg 4 false) (.reg 5 false), 1⟩ ∧ decodeWords [0xC3280800] = .ok ⟨none, .ringTake 20 (.reg 4 false), 1⟩ ∧
    decodeWords [0xC4000800] = .ok ⟨none, .ringGive (.reg 4 false), 1⟩ ∧ decodeWords [0xC52C0800] = .ok ⟨none, .ringWait 22 (.reg 4 false), 1⟩ ∧
    decodeWords [0xC6281C00] = .ok ⟨none, .tlRead 20 (.reg 14 false), 1⟩ ∧ decodeWords [0xC7001C18] = .ok ⟨none, .tlWait (.reg 14 false) (.reg 12 false), 1⟩ ∧
    decodeWords [0xC8280400] = .ok ⟨none, .coll 20 (.reg 2 false), 1⟩ ∧ decodeWords [0xC9280200] = .ok ⟨none, .ckptHold 20 true, 1⟩ ∧
    decodeWords [0xC9280000] = .ok ⟨none, .ckptHold 20 false, 1⟩ ∧ decodeWords [0xCA002800] = .ok ⟨none, .ckptRelease (.reg 20 false) false, 1⟩ ∧
    decodeWords [0xCA002802] = .ok ⟨none, .ckptRelease (.reg 20 false) true, 1⟩ := by decide +kernel

/-- R80, R95: one word of each lane and uniform integer and floating-point kind, by hand; R96 on words that no entry admits. -/
theorem test_decode_arithmetic :
    decodeWords [0x000A0C0E] = .ok ⟨none, .addB32 (.reg 5) (.reg 6 false) (.reg 7 false), 1⟩ ∧
    decodeWords [0x850C09FF] = .ok ⟨none, .saddiB64 (.reg 6) (.reg 4 false) 0x1FF, 1⟩ ∧
    decodeWords [0x7D000000] = .error .opcode ∧ decodeWords [0x7E300000, 0x7E300000] = .error .opcode ∧ decodeWords [0x7E300000, 0x782FFFF0] = .error .opcode ∧
    decodeWords [0x7AC00002] = .error .reserved ∧ decodeWords [0x70F28101] = .error .value ∧ decodeWords [0xB80000E2] = .error .value := by decide +kernel

/-! ## Single steps: lane and uniform arithmetic -/

/-- R171: the sum keeps its low 32 bits; R172: division by zero, and the most negative number by -1. -/
theorem test_integer_edges :
    gives (.addB32 (.reg 5) (.reg 4 false) (.special (.int 1))) 2 (vals [(4, 0xFFFFFFFF)]) 5 0 = 0 ∧
    gives (.divI32 (.reg 5) (.reg 4 false) (.reg 6 false)) 2 (vals [(4, 7)]) 5 1 = 0xFFFFFFFF ∧
    gives (.remN32 (.reg 5) (.reg 4 false) (.reg 6 false)) 2 (vals [(4, 7)]) 5 1 = 7 ∧
    gives (.divI32 (.reg 5) (.reg 4 false) (.reg 6 false)) 2 (vals [(4, 0x80000000), (6, 0xFFFFFFFF)]) 5 0 = 0x80000000 ∧
    gives (.remI32 (.reg 5) (.reg 4 false) (.reg 6 false)) 2 (vals [(4, 0x80000000), (6, 0xFFFFFFFF)]) 5 0 = 0 ∧
    gives (.remI32 (.reg 5) (.reg 4 false) (.reg 6 false)) 2 (vals [(4, 0xFFFFFFF9), (6, 2)]) 5 0 = 0xFFFFFFFF := by decide +kernel

/-- R171: a 64-bit sum carries into the second name; mulhi of -1 and -1 signed and unsigned; the unit goes on to the next one. -/
theorem test_wide_results :
    gives (.addB64 (.reg 8) (.reg 4 false) (.special (.int 1))) 2 (vals [(4, 0xFFFFFFFF), (5, 2)]) 9 0 = 3 ∧
    gives (.mulhiI32 (.reg 5) (.reg 4 false) (.reg 4 false)) 2 (vals [(4, 0xFFFFFFFF)]) 5 0 = 0 ∧
    gives (.mulhiN32 (.reg 5) (.reg 4 false) (.reg 4 false)) 2 (vals [(4, 0xFFFFFFFF)]) 5 0 = 0xFFFFFFFE ∧
    ((courseIn0 (after (exec (.addB32 (.reg 5) (.reg 4 false) (.special .lane)) demo))).thread 1).pc = 0x1004 := by decide +kernel

/-- R173: a shift by the width or more; R174: a field that would pass bit 31 ends there, and bfi keeps the rest; R175. -/
theorem test_shifts_and_fields :
    gives (.shlB32 (.reg 5) (.reg 4 false) (.lit 32)) 2 (vals [(4, 0xF0000001)]) 5 0 = 0 ∧
    gives (.shrI32 (.reg 5) (.reg 4 false) (.lit 33)) 2 (vals [(4, 0x80000000)]) 5 0 = 0xFFFFFFFF ∧
    gives (.bfxB32 (.reg 5) (.reg 4 false) (.lit 0x101C)) 2 (vals [(4, 0xA0000000)]) 5 0 = 0xA ∧
    gives (.bfiB32 (.reg 5) (.reg 4 false) (.lit 0x0804)) 2 (vals [(4, 0xFFF), (5, 0x12345678)]) 5 0 = 0x12345FF8 ∧
    gives (.clzB32 (.reg 5) (.reg 4 false)) 2 (vals [(4, 0x00010000)]) 5 0 = 15 ∧ gives (.ctzB32 (.reg 5) (.reg 4 false)) 2 (vals []) 5 0 = 32 ∧
    gives (.bswapB32 (.reg 5) (.reg 4 false)) 2 (vals [(4, 0x12345678)]) 5 0 = 0x78563412 ∧
    gives (.sextI8 (.reg 5) (.reg 4 false)) 2 (vals [(4, 0x1280)]) 5 0 = 0xFFFFFF80 := by decide +kernel

/-- The example after R176, on five lanes: an index that stops being affine, and one that stays so, as a linked pair (R55). -/
theorem test_lea :
    (let f := fun k => if k = 12 then NameVal.aff 0x7FFFFFF0 4 false else vals [(3, 2)] k
     gives (.lea (.reg 20) (.reg 2 false) (.reg 12 false)) 5 f 20 3 = 0x7FFFFFFC ∧ gives (.lea (.reg 20) (.reg 2 false) (.reg 12 false)) 5 f 21 3 = 2 ∧
     gives (.lea (.reg 20) (.reg 2 false) (.reg 12 false)) 5 f 20 4 = 0x80000000 ∧ gives (.lea (.reg 20) (.reg 2 false) (.reg 12 false)) 5 f 21 4 = 1) ∧
    (let c := courseIn0 (after (exec (.lea (.reg 20) (.reg 2 false) (.reg 12 false))
       (stateOf (courseOf 5 fun k => if k = 12 then .aff 0 4 false else vals [(3, 2)] k) 5)))
     nth c.names 20 .free = .aff 0 4 true ∧ nth c.names 21 .free = .aff 2 0 true) := by decide +kernel

/-- The example of 03: steps 3 (lanes 0 to 15 of 32 take part), 4 (a last read) and 5 (a uniform-set sum). -/
theorem test_divergence_and_last_read :
    (let c := courseIn0 (after (exec (.addiB32 (.reg 13) (.reg 13 false) 1) (stateOf (courseOf 32 fun k => if k = 13 then .aff 0x1000 4 false else .free) 16)))
     regRow c 13 5 = 0x1015 ∧ regRow c 13 20 = 0x1050 ∧ nth c.names 13 .free ≠ .aff 0x1001 4 false) ∧
    (let c := courseIn0 (after (exec (.addB32 (.reg 14) (.reg 12 true) (.reg 10 false))
       (stateOf (courseOf 32 fun k => if k = 12 then .aff 0 4 false else if k = 10 then .aff 0 1 false else .free) 32)))
     nth c.names 12 .free = .free ∧ nth c.names 14 .free = .aff 0 5 false) ∧
    nth (courseIn0 (after (exec (.saddB32 (.reg 15) (.reg 13 false) (.special (.int 0)))
      (stateOf (courseOf 4 fun k => if k = 13 then .gen ((List.range 32).map fun l => BitVec.ofNat 32 (0x1001 + 4 * l)) else .free) 4)))).names 15 .free
      = .uni 0x1001 := by decide +kernel

/-- R86, R177, R183, R184, R125: signed and unsigned order, an unordered pair, the example mask 0x63, and pand. -/
theorem test_predicates :
    (let p := fun (i : Instr) (f : Nat → NameVal) (k : Nat) => ((courseIn0 (after (exec i (stateOf (courseOf 2 f) 2)))).thread 1).pred k
     p (.setpI32 .lt 3 (.reg 4 false) (.reg 6 false)) (vals [(4, 0xFFFFFFFF), (6, 1)]) 3 = true ∧
     p (.setpN32 .lt 3 (.reg 4 false) (.reg 6 false)) (vals [(4, 0xFFFFFFFF), (6, 1)]) 3 = false ∧
     p (.fsetpF32 .eq 3 (.reg 4 false) (.reg 4 false)) (vals [(4, 0x7FC00000)]) 3 = false ∧
     p (.fsetpF32 .ne 3 (.reg 4 false) (.reg 4 false)) (vals [(4, 0x7FC00000)]) 3 = true ∧
     p (.fclassF32 .set 2 (.reg 7 false) 0x63) (vals [(7, 0xFF800000)]) 2 = true ∧ p (.fclassF32 .set 2 (.reg 7 false) 0x63) (vals [(7, 0x3F800000)]) 2 = false ∧
     p (.plop 1 .always .always .always 0x80) (vals []) 1 = true ∧ p (.plop 1 (.p 2) .always .always 0xC0) (vals []) 1 = false) := by decide +kernel

/-- R151, R157, R159, R180: a tie to even, the sign of an exact zero sum, minimum of NaN, the saturating multiply-add. -/
theorem test_float :
    gives (.faddF32 (.reg 5) (.reg 4 false) (.reg 6 false)) 2 (vals [(4, 0x3F800000), (6, 0x4B800000)]) 5 0 = 0x4B800000 ∧
    gives (.fsubF32 (.reg 5) (.reg 4 false) (.reg 4 false)) 2 (vals [(4, 0x40490FDB)]) 5 0 = 0 ∧
    gives (.fminF32 (.reg 5) (.reg 4 false) (.reg 6 false)) 2 (vals [(4, 0x3F800000), (6, 0x7FC01234)]) 5 0 = 0x7FC00000 ∧
    gives (.fminnF32 (.reg 5) (.reg 4 false) (.reg 6 false)) 2 (vals [(4, 0x3F800000), (6, 0x7FC01234)]) 5 0 = 0x3F800000 ∧
    gives (.ffmaSatF32 (.reg 5) (.reg 4 false) (.reg 4 false)) 2 (vals [(4, 0x40000000)]) 5 0 = 0x3F800000 ∧
    gives (.ffmaF64 (.reg 6) (.reg 4 false) (.reg 4 false)) 2 (vals [(5, 0x40000000), (7, 0x3FF00000)]) 7 0 = 0x40140000 ∧
    gives (.sqrtF32 (.reg 5) (.reg 4 false)) 2 (vals [(4, 0x41100000)]) 5 0 = 0x40400000 ∧
    gives (.divF32 (.reg 5) (.reg 4 false) (.reg 6 false)) 2 (vals [(4, 0x3F800000), (6, 0x40000000)]) 5 0 = 0x3F000000 := by decide +kernel

/-- The examples after R187, and R163. -/
theorem test_conversions :
    gives (.cvtF8 (.reg 9) (.reg 4 false) .f32 .rne false false) 2 (vals [(4, 0x43EB0000)]) 9 0 = 0x7F ∧
    gives (.cvtF8 (.reg 9) (.reg 4 false) .f32 .rne true false) 2 (vals [(4, 0x43EB0000)]) 9 0 = 0x7E ∧
    gives (.cvtF8 (.reg 9) (.reg 4 false) .f32 .rne false false) 2 (vals [(4, 0x43E80000)]) 9 0 = 0x7E ∧
    gives (.cvtF8 (.reg 9) (.reg 4 false) .f32 .rne true false) 2 (vals [(4, 0x7F800000)]) 9 0 = 0x7E ∧
    gives (.cvtF8 (.reg 9) (.reg 4 false) .f32 .rne true false) 2 (vals [(4, 0xBA800000)]) 9 0 = 0x80 ∧
    gives (.cvtI32 (.reg 5) (.reg 6 false) .f32 .rtz false) 2 (vals [(6, 0xC0300000)]) 5 0 = 0xFFFFFFFE ∧
    gives (.cvtI32 (.reg 5) (.reg 6 false) .f32 .rtz false) 2 (vals [(6, 0x4F32D05E)]) 5 0 = 0x7FFFFFFF ∧
    gives (.cvtI32 (.reg 5) (.reg 6 false) .f32 .rtz false) 2 (vals [(6, 0x7FC01234)]) 5 0 = 0 ∧
    gives (.faddF16x2 (.reg 5) (.reg 4 false) (.reg 4 false)) 2 (vals [(4, 0x3C004000)]) 5 0 = 0x40004400 := by decide +kernel

/-- R190, worked by hand from Mix for the seed 0x123456789ABCDEF0 in team 0 at ROOT 0, C = 0; the counter goes on. -/
theorem test_rand :
    (let c := courseIn0 (after (exec (.rand (.reg 5) (.reg 4 false)) (stateOf (courseOf 1 (vals [(4, 0x9ABCDEF0), (5, 0x12345678)])) 1)))
     regRow c 5 0 = 0x2F34B513 ∧ (c.thread 0).draws = 1) := by decide +kernel

/-! ## Groups -/

/-- The example after R206: one sum, a scan and an exclusive scan of 1, 2^24, 1, -2^24 over four lanes. -/
theorem test_reductions :
    (let f := fun k => if k = 4 then NameVal.gen [0x3F800000, 0x4B800000, 0x3F800000, 0xCB800000] else .free
     let r := fun (i : Instr) (d : Nat) => let c := courseIn0 (after (exec i (stateOf (courseOf 4 f) 4))); (List.range 4).map (regRow c d)
     r (.red (.reg 12) (.reg 4 false) .addF32) 12 = [0x3F800000, 0x3F800000, 0x3F800000, 0x3F800000] ∧
     r (.scan (.reg 13) (.reg 4 false) .addF32 false) 13 = [0x3F800000, 0x4B800000, 0x4B800000, 0x3F800000] ∧
     r (.scan (.reg 14) (.reg 4 false) .addF32 true) 14 = [0, 0x3F800000, 0x4B800000, 0x4B800000]) := by decide +kernel

/-- R198 to R200, R207: a lane outside the group keeps its own value; the mask of equal keys; the lane that holds a key, or a miss. -/
theorem test_group_exchange :
    (let f := fun k => if k = 4 then NameVal.gen [10, 20, 10, 40] else if k = 6 then .gen [3, 7, 0, 1] else .free
     let r := fun (i : Instr) (d : Nat) => let c := courseIn0 (after (exec i (stateOf (courseOf 4 f) 4))); (List.range 4).map (regRow c d)
     r (.shfl (.reg 9) (.reg 4 false) (.reg 6 false)) 9 = [40, 20, 10, 20] ∧
     r (.matchKeys (.reg 9) (.reg 4 false) (.special (.int 0))) 9 = [5, 2, 5, 8] ∧
     r (.isect (.reg 9) (.special (.int 10)) (.reg 4 false)) 9 = [0, 0, 0, 0] ∧
     r (.isect (.reg 9) (.special (.int 11)) (.reg 4 false)) 9 = [0xFFFFFFFF, 0xFFFFFFFF, 0xFFFFFFFF, 0xFFFFFFFF] ∧
     r (.censusMask (.reg 9) .always) 9 = [15, 15, 15, 15] ∧ r (.censusRank (.reg 9) .always) 9 = [0, 1, 2, 3]) := by decide +kernel

/-! ## Memory -/

/-- The walk of the example in 20: a store to 0x240601234 reaches 0x1234401234; a leaf with PA [20:12] not zero does not translate. -/
theorem test_walk :
    (let tables := fun leaf : Nat => (Bytes.writeN (Bytes.writeN (Bytes.writeN (Bytes.writeN [] 0x1000000000 (leBytes 8 0x1000001001)) 0x1000001000 (leBytes 8 0x1000002001))
        0x1000002048 (leBytes 8 0x1000003001)) 0x1000003018 (leBytes 8 leaf))
     ({ State.reset with mem := tables 0x1234400017 } : State).walk 0x240601234 0x1000000000 4 = .ok (0x1234400017, 2 ^ 21) ∧
     0x240601234 % 2 ^ 21 = 0x1234 ∧
     ({ State.reset with mem := tables 0x1234401017 } : State).walk 0x240601234 0x1000000000 4 = .error .xlate) := by decide +kernel

/-- R246, R279: a plain store stays in the L1, dirty; R275: the displacement counts accesses. R283: an atomic at the home. -/
theorem test_store_and_atomic :
    (let s := after (exec (.st .b32 5 (.reg 2 false) 1) (stateOf (courseOf 1 (vals [(2, 0x2000), (5, 0x11223344)])) 1))
     s.seenByte 0 (placedPage + 0x2004) = 0x44 ∧ s.seenByte 1 (placedPage + 0x2004) = 0 ∧ s.dirtyByte 0 (placedPage + 0x2007) = true) ∧
    (let s := after (exec (.atom .addB32 (.dev .dv .relaxed) 4 (.reg 2 false)) (stateOf (courseOf 2 (vals [(2, 0x2000), (5, 3)])) 2))
     s.mem.readN (placedPage + 0x2000) 4 = [6, 0, 0, 0] ∧
     ((courseIn0 s).loads.map fun ld => (ld.dest, ld.vals)) = [(4, [[0], [3]])]) := by decide +kernel

/-- R277: a misaligned access raises ALIGN (0x0B); R280: an access past the grant raises PROT (0x11). -/
theorem test_access_faults :
    (let t := (courseIn0 (after (exec (.ld .b32 5 (.reg 2 false) 0) (stateOf (courseOf 1 (vals [(2, 0x2002)])) 1)))).thread 0
     t.fault.toNat % 256 = 0x0B ∧ t.faultaddr = 0x2002 ∧ t.faultmask = 1) ∧
    ((courseIn0 (after (exec (.ldx .spad .b32 5 (.special (.int 0)) 0) (stateOf (courseOf 1 (vals [])) 1)))).thread 0).fault.toNat % 256 = 0x11 := by decide +kernel

/-! ## Control, traps and work -/

/-- A thread at an address, with a stack. -/
abbrev callState (th : Thread) : State :=
  { State.reset.placeWord 0 with teams := [(teamNo, teamOf { threads := [(0, th)], names := List.replicate 64 (.uni 3) })],
                                 issue := { issueOf 1 1 with addr := th.pc } }

/-- The example after R122: step 5 spills the bottom entry and marks the new one; step 9 takes it back. -/
theorem test_spill_and_refill :
    (let s := after (exec (.call .always false 64) (callState { pc := 0x2400, stack := [0x2004, 0x2104, 0x2204, 0x2304], sp := 0x3000 }))
     let t := (courseIn0 s).thread 0
     t.pc = 0x2500 ∧ t.stack = [0x2105, 0x2204, 0x2304, 0x2404] ∧ t.sp = 0x2FF8 ∧
     ((List.range 8).map fun k => s.seenByte 0 (placedPage + 0x2FF8 + k)) = [4, 0x20, 0, 0, 0, 0, 0, 0] ∧
     (let back := after (exec .ret { s with
        teams := [(teamNo, teamOf { threads := [(0, { pc := 0x2210, stack := [0x2105], sp := 0x2FF8 })] })], issue := { issueOf 1 1 with addr := 0x2210 } })
      let u := (courseIn0 back).thread 0
      u.pc = 0x2104 ∧ u.stack = [0x2004] ∧ u.sp = 0x3000)) := by decide +kernel

/-- R119: a branch is taken by the threads whose condition holds. R140, R359: a trap goes to the handler with sr.fault and sr.tpc. -/
theorem test_branch_and_trap :
    ((courseIn0 (after (exec (.br (.p 1) true 4) (callState { pc := 0x1000 })))).thread 0).pc = 0x1010 ∧
    ((courseIn0 (after (exec (.br (.p 1) false 4) (callState { pc := 0x1000 })))).thread 0).pc = 0x1004 ∧
    (let t := (courseIn0 (after (exec (.trap 7) { callState { pc := 0x1000 } with
        teams := [(teamNo, { teamOf { threads := [(0, { pc := 0x1000 })] } with trapbase := 0x5000 })] }))).thread 0
     t.pc = 0x5000 ∧ t.tpc = 0x1004 ∧ t.fault = 0x70F ∧ t.inHandler = true) := by decide +kernel

/-- R126: no copies end the thread, one writes 0, three have the ordinals 0 to 2. -/
theorem test_fork :
    (teamIn (after (exec (.fork 6 (.special (.int 0))) (stateOf (courseOf 2 (vals [])) 1)))).liveCount = 1 ∧
    regRow (courseIn0 (after (exec (.fork 6 (.special (.int 1))) (stateOf (courseOf 1 (vals [(6, 9)])) 1)))) 6 0 = 0 ∧
    (let t := teamIn (after (exec (.fork 6 (.special (.int 3))) (stateOf (courseOf 1 (vals [(6, 9)])) 1)))
     t.liveCount = 3 ∧ (t.courses.map fun p => (p.2.live, p.2.live.map (regRow p.2 6))) = [(0, [0])].map fun _ => ([0, 1, 2], [0, 1, 2])) := by
  decide +kernel

/-- R291: two arrivals of a barrier for three, by a course that adds 2, and then the third. -/
theorem test_barrier :
    (let s := after (exec (.barArrive 9 (.lit 0x30001) (.special (.int 2))) (stateOf (courseOf 2 (vals [])) 2))
     (nth (teamIn s).barriers 1 {}).arrived = 2 ∧ (nth (teamIn s).barriers 1 {}).phase = 0 ∧
     (let u := after (exec (.barArrive 9 (.lit 0x30001) (.special (.int 2))) { s with issue := issueOf 2 2 })
      (nth (teamIn u).barriers 1 {}).arrived = 0 ∧ (nth (teamIn u).barriers 1 {}).phase = 1 ∧ regRow (courseIn0 u) 9 1 = 0)) := by decide +kernel

/-- R137, R138: sr.tpc is written and read back; a user thread's read of the clock ceiling raises PRIV (0x0E). -/
theorem test_special_registers :
    ((courseIn0 (after (exec (.sset .tpc (.reg 4 false)) (stateOf (courseOf 1 (vals [(4, 0x1234), (5, 1)])) 1)))).thread 0).tpc = 0x100001234 ∧
    gives (.sget 8 .slice) 1 (vals []) 8 0 = 1 ∧
    ((courseIn0 (after (exec (.sget 8 .clkw) (stateOf (courseOf 1 (vals [])) 1)))).thread 0).fault.toNat % 256 = 0x0E := by decide +kernel

/-! ## Engine and matrix -/

/-- Step 3 of the example after R306, on a ring of two full slots: the take names slot 0 at 0x0400, with 256 bytes. -/
theorem test_ring_take :
    (let ring : Ring := { wordA := 0x400, wordB := 0x10002, slots := [⟨2, 256, 256⟩, ⟨2, 256, 256⟩] }
     let s := after (exec (.ringTake 20 (.special (.int 0))) { stateOf (courseOf 1 (vals [])) 1 with
        teams := [(teamNo, { teamOf (courseOf 1 (vals [])) with rings := ring :: List.replicate 7 {} })] })
     regRow (courseIn0 s) 20 0 = 0x400 ∧ regRow (courseIn0 s) 21 0 = 256 ∧ (((teamIn s).ring 0).slots.map fun x => x.state) = [3, 2] ∧
     ((teamIn s).ring 0).take = 1) := by decide +kernel

/-- The example of R161 and R214: one I4X block, its first ten elements, as FP32 codes. -/
theorem test_i4x :
    ((laneValues .i4x true [0x888F587A, 0xF8, 0, 0, 0, 0, 0, 0, 0x7E7E]).take 10).map (fun v => Fmt.f32.round .rne false v) =
      [0xC0400000, 0x40600000, 0x41000000, 0, 0xBF000000, 0, 0xBC000000, 0, 0xC3000000, 0] := by decide +kernel

/-- The example at the end of 10: one element through an MXFP8 pass. -/
theorem test_pass :
    (let t : Tile := { zeroTile with c := 0x4340000000000000 :: zeroTile.c.drop 1 }
     let a : List (List W32) := [0x383838, 0, 0, 0, 0, 0, 0, 0, 0x7D] :: List.replicate 31 []
     let b : List (List W32) := [0x303030, 0, 0, 0, 0, 0, 0, 0, 0x82] :: List.replicate 31 []
     nth (t.pass .mxf8 a b none).c 0 0 = 0x4340000000000002 ∧ (t.pass .mxf8 a b none).p = 1) := by decide +kernel

/-! ## Steps of the machine and of the device -/

/-- A step fetches, decodes and runs the unit at the program counter: `add.b32 v5, v6, #7` and a guarded unit (R78, R92). -/
theorem test_step :
    (courseIn0 (after (step (State.reset.withFetchWord 32 0x000A0D8E)))).threads.map (fun p => p.2.pc) = [0x1004] ∧
    regRow (courseIn0 (after (step (State.reset.withFetchWord 32 0x000A0D8E)))) 5 0 = 7 ∧
    ((courseIn0 (after (step (State.reset.withFetchWord 32 0x7D000000)))).thread 0).fault.toNat % 256 = 1 := by decide +kernel

/-- R353: a code that no command has gives UNKNOWN (3), a write to a busy mailbox OVERRUN. -/
theorem test_mailbox :
    ((after (exec (.unknownCommand (.pf 0) 0x0B) (State.reset.placeWord 0))).mailbox (.pf 0)).result = 3 ∧
    ((after (exec (.overrun (.pf 1) 0x02) ((State.reset.placeWord 0).setMailbox (.pf 1) { busy := true }))).mailbox (.pf 1)).overrun = true := by decide +kernel

/-! ## Witnesses

For every statement with hypotheses, a concrete state and operands that meet them together. Where a statement's hypotheses contain the work of its
unit, the witness applies the statement: its proof meets every hypothesis at the state it names. -/

theorem ascending_of {ms : List (Nat × Nat)} (h : ∀ m ∈ ms, m.1 = 0) (h0 : (lanesIn ms 0).Pairwise (· < ·)) (c : Nat) :
    (lanesIn ms c).Pairwise (· < ·) := by
  by_cases e : c = 0
  · subst e; exact h0
  · have n : lanesIn ms c = [] := by
      unfold lanesIn
      rw [List.filter_eq_nil_iff.mpr fun m hm => by rw [h m hm]; simpa using Ne.symm e]
      rfl
    rw [n]
    exact List.Pairwise.nil

/-- A lift drawn from course 0 alone, checked by evaluation. -/
theorem lifted_of {s : State} {t : Team} (ht : FMap.get s.teams s.issue.team = some t)
    (h : ((s.issue.lift.all fun m => m.1 == 0 && (t.course 0).live.contains m.2) && (s.issue.parts.all fun m => s.issue.lift.contains m) &&
      (FMap.get t.courses 0).isSome && (t.course 0).sound && (s.core t.core).latchGen.length == 4 &&
      decide ((lanesIn s.issue.lift 0).Pairwise (· < ·)) && decide ((lanesIn s.issue.parts 0).Pairwise (· < ·))) = true) : Lifted s t := by
  simp only [Bool.and_eq_true, List.all_eq_true, beq_iff_eq, decide_eq_true_eq, List.contains_iff_mem] at h
  obtain ⟨⟨⟨⟨⟨⟨h1, h2⟩, h3⟩, h4⟩, h5⟩, h6⟩, h7⟩ := h
  refine ⟨ht, fun m hm => ?_, fun m hm => ?_, fun m hm => h2 m hm, fun m hm => ?_, h5,
    fun c => ⟨ascending_of (fun m hm => (h1 m hm).1) h6 c, ascending_of (fun m hm => (h1 m (h2 m hm)).1) h7 c⟩⟩
  · rw [(h1 m hm).1]; exact (h1 m hm).2
  · rw [(h1 m hm).1]; exact h3
  · rw [(h1 m hm).1]; exact h4

theorem demo_lifted : Lifted demo team2 := lifted_of rfl (by decide +kernel)
theorem demo_one : OneCourse demo team2 0 := ⟨demo_lifted, by decide, by decide⟩
theorem demo_whole : WholeCourse demo team2 0 := ⟨demo_one, rfl, by decide +kernel⟩

/-- Operands of every type, for the demo state: registers, a special source, a literal. -/
abbrev anyOperands : List Operand :=
  [(.b32, .reg 4 false), (.b32, .reg 6 true), (.b64, .reg 8 false), (.i64, .reg 8 false), (.f32, .reg 4 false), (.f64, .reg 8 false), (.f16, .reg 4 false),
   (.bf16, .reg 4 false), (.f16x2, .reg 4 false), (.bf16x2, .reg 4 false), (.f32x2, .reg 8 false), (.fp8, .reg 4 false), (.b32, .special .lane), (.b32, .lit 7)]

theorem demo_readable : Readable demo team2 anyOperands := by unfold Readable; decide +kernel
theorem demo_leadReadable : LeadReadable demo team2 anyOperands := by unfold LeadReadable; decide +kernel
theorem demo_wholeLift : demo.wholeLift team2 := by unfold State.wholeLift; decide +kernel

theorem witness_IntegerArithmetic :
    Lifted demo team2 ∧ Readable demo team2 anyOperands ∧ ∀ i ∈ ([.addB32 (.reg 5) (.reg 4 false) (.reg 6 true), .subB32 .sup (.reg 4 false) (.lit 7),
      .addiB32 (.reg 5) (.reg 4 false) 0x1FF, .addB64 (.reg 10) (.reg 8 false) (.reg 8 false), .subB64 (.opf 2) (.reg 8 false) (.reg 8 false), .addiB64 (.reg 10) (.reg 8 false) 1,
      .mulB32 (.reg 5) (.reg 4 false) (.special .lane), .mulB64 (.reg 10) (.reg 8 false) (.reg 8 false), .mulhiI32 (.reg 5) (.reg 4 false) (.reg 4 false),
      .mulhiN32 (.reg 5) (.reg 4 false) (.reg 4 false), .mulwI32 (.reg 10) (.reg 4 false) (.reg 4 false), .mulwN32 (.reg 10) (.reg 4 false) (.reg 4 false),
      .divI32 (.reg 5) (.reg 4 false) (.reg 4 false), .divN32 (.reg 5) (.reg 4 false) (.reg 4 false), .remI32 (.reg 5) (.reg 4 false) (.reg 4 false),
      .remN32 (.reg 5) (.reg 4 false) (.reg 4 false), .minN32 (.reg 5) (.reg 4 false) (.reg 4 false), .maxN32 (.reg 5) (.reg 4 false) (.reg 4 false),
      .minI32 (.reg 5) (.reg 4 false) (.reg 4 false), .maxI32 (.reg 5) (.reg 4 false) (.reg 4 false)] : List Instr), WellFormed i = true :=
  ⟨demo_lifted, demo_readable, by decide⟩

theorem witness_LogicAndShifts :
    Lifted demo team2 ∧ Readable demo team2 anyOperands ∧ ∀ i ∈ ([.andB32 (.reg 5) (.reg 4 false) (.reg 6 true), .orB32 (.reg 5) (.reg 4 false) (.reg 4 false),
      .xorB32 (.reg 5) (.reg 4 false) (.reg 4 false), .andB64 (.reg 10) (.reg 8 false) (.reg 8 false), .orB64 (.reg 10) (.reg 8 false) (.reg 8 false),
      .xorB64 (.reg 10) (.reg 8 false) (.reg 8 false), .shlB32 (.reg 5) (.reg 4 false) (.lit 7), .shrN32 (.reg 5) (.reg 4 false) (.lit 7),
      .shrI32 (.reg 5) (.reg 4 false) (.lit 7), .shlB64 (.reg 10) (.reg 8 false) (.lit 7), .shrN64 (.reg 10) (.reg 8 false) (.lit 7),
      .shrI64 (.reg 10) (.reg 8 false) (.lit 7)] : List Instr), WellFormed i = true := ⟨demo_lifted, demo_readable, by decide⟩

theorem witness_BitFieldsAndAddresses :
    Lifted demo team2 ∧ Readable demo team2 anyOperands ∧ ∀ i ∈ ([.bfxB32 (.reg 5) (.reg 4 false) (.lit 7), .bfiB32 (.reg 5) (.reg 4 false) (.lit 7),
      .lea (.reg 10) (.reg 8 false) (.reg 4 false)] : List Instr), WellFormed i = true := ⟨demo_lifted, demo_readable, by decide⟩

theorem witness_BitFunctions :
    Lifted demo team2 ∧ Readable demo team2 anyOperands ∧ ∀ i ∈ ([.notB32 (.reg 5) (.reg 4 false), .popcB32 (.reg 5) (.reg 4 false), .clzB32 (.reg 5) (.reg 4 false),
      .ctzB32 (.reg 5) (.reg 4 false), .brevB32 (.reg 5) (.reg 4 false), .bswapB32 (.reg 5) (.reg 4 false), .sextI8 (.reg 5) (.reg 4 false), .sextI16 (.reg 5) (.reg 4 false),
      .notB64 (.reg 10) (.reg 8 false), .popcB64 (.reg 5) (.reg 8 false), .clzB64 (.reg 5) (.reg 8 false), .ctzB64 (.reg 5) (.reg 8 false),
      .brevB64 (.reg 10) (.reg 8 false), .bswapB64 (.reg 10) (.reg 8 false), .sextI32 (.reg 10) (.reg 4 false), .zextN32 (.reg 10) (.reg 4 false)] : List Instr),
      WellFormed i = true := ⟨demo_lifted, demo_readable, by decide⟩

theorem witness_FloatArithmetic :
    Lifted demo team2 ∧ Readable demo team2 anyOperands ∧ ∀ i ∈ ([.faddF32 (.reg 5) (.reg 4 false) (.special (.fpc 2)), .fsubF32 (.reg 5) (.reg 4 false) (.reg 4 false),
      .fmulF32 (.reg 5) (.reg 4 false) (.reg 4 false), .ffmaF32 (.reg 5) (.reg 4 false) (.reg 4 false), .faddRzF32 (.reg 5) (.reg 4 false) (.reg 4 false),
      .faddRuF32 (.reg 5) (.reg 4 false) (.reg 4 false), .faddRdF32 (.reg 5) (.reg 4 false) (.reg 4 false), .fmulRzF32 (.reg 5) (.reg 4 false) (.reg 4 false),
      .ffmaRzF32 (.reg 5) (.reg 4 false) (.reg 4 false), .ffmaRuF32 (.reg 5) (.reg 4 false) (.reg 4 false), .ffmaRdF32 (.reg 5) (.reg 4 false) (.reg 4 false),
      .faddF64 (.reg 10) (.reg 8 false) (.reg 8 false), .fsubF64 (.reg 10) (.reg 8 false) (.reg 8 false), .fmulF64 (.reg 10) (.reg 8 false) (.reg 8 false),
      .ffmaF64 (.reg 10) (.reg 8 false) (.reg 8 false)] : List Instr), WellFormed i = true := ⟨demo_lifted, demo_readable, by decide⟩

theorem witness_PackedArithmetic :
    Lifted demo team2 ∧ Readable demo team2 anyOperands ∧ ∀ i ∈ ([.faddF16x2 (.reg 5) (.reg 4 false) (.reg 4 false), .fsubF16x2 (.reg 5) (.reg 4 false) (.reg 4 false),
      .fmulF16x2 (.reg 5) (.reg 4 false) (.reg 4 false), .ffmaF16x2 (.reg 5) (.reg 4 false) (.reg 4 false), .faddBf16x2 (.reg 5) (.reg 4 false) (.reg 4 false),
      .fsubBf16x2 (.reg 5) (.reg 4 false) (.reg 4 false), .fmulBf16x2 (.reg 5) (.reg 4 false) (.reg 4 false), .ffmaBf16x2 (.reg 5) (.reg 4 false) (.reg 4 false),
      .ffmaF32x2 (.reg 10) (.reg 8 false) (.reg 8 false)] : List Instr), WellFormed i = true := ⟨demo_lifted, demo_readable, by decide⟩

theorem witness_SignBits :
    Lifted demo team2 ∧ Readable demo team2 anyOperands ∧ ∀ i ∈ ([.fnegF32 (.reg 5) (.reg 4 false), .fabsF32 (.reg 5) (.reg 4 false), .fnegF64 (.reg 10) (.reg 8 false),
      .fabsF64 (.reg 10) (.reg 8 false)] : List Instr), WellFormed i = true := ⟨demo_lifted, demo_readable, by decide⟩

theorem witness_SpecialFunctionsAndDivision :
    Lifted demo team2 ∧ Readable demo team2 anyOperands ∧ ∀ i ∈ ([.rcpF32 (.reg 5) (.reg 4 false), .rsqF32 (.reg 5) (.reg 4 false), .sqrtF32 (.reg 5) (.reg 4 false),
      .exp2F32 (.reg 5) (.reg 4 false), .log2F32 (.reg 5) (.reg 4 false), .sinpiF32 (.reg 5) (.reg 4 false), .cospiF32 (.reg 5) (.reg 4 false), .tanhF32 (.reg 5) (.reg 4 false),
      .divF32 (.reg 5) (.reg 4 false) (.reg 4 false), .rcpF64 (.reg 10) (.reg 8 false), .rsqF64 (.reg 10) (.reg 8 false), .sqrtF64 (.reg 10) (.reg 8 false),
      .exp2F64 (.reg 10) (.reg 8 false), .log2F64 (.reg 10) (.reg 8 false), .sinpiF64 (.reg 10) (.reg 8 false), .cospiF64 (.reg 10) (.reg 8 false),
      .tanhF64 (.reg 10) (.reg 8 false), .divF64 (.reg 10) (.reg 8 false) (.reg 8 false)] : List Instr), WellFormed i = true := ⟨demo_lifted, demo_readable, by decide⟩

theorem witness_PredicateResults :
    Lifted demo team2 ∧ Readable demo team2 anyOperands ∧ ∀ i ∈ ([.setpI32 .lt 11 (.reg 4 false) (.reg 4 false), .setpN32 .le 0 (.reg 4 false) (.reg 4 false),
      .setpI64 .eq 1 (.reg 8 false) (.reg 8 false), .setpN64 .ne 1 (.reg 8 false) (.reg 8 false), .fsetpF32 .lt 1 (.reg 4 false) (.reg 4 false),
      .fsetpF64 .lt 1 (.reg 8 false) (.reg 8 false), .fclassF32 .conj 1 (.reg 4 false) 0x7F, .fclassF64 .neg 1 (.reg 8 false) 0, .plop 1 (.p 0) (.p 11) .always 0xC0] : List Instr),
      WellFormed i = true := ⟨demo_lifted, demo_readable, by decide⟩

theorem witness_Conversions :
    Lifted demo team2 ∧ Readable demo team2 anyOperands ∧ ∀ i ∈ ([.cvtF32 (.reg 5) (.reg 4 false) .f32 .rup false, .cvtF32 (.reg 5) (.reg 8 false) .f64 .rtz true,
      .cvtF64 (.reg 10) (.reg 8 false) .f64 .rdn false, .cvtF64 (.reg 10) (.reg 4 false) .f32 .rne false, .cvtH16 (.reg 5) (.reg 4 false) .f32 .rtz true false,
      .cvtH16 (.reg 5) (.reg 8 false) .f32x2 .rne false true, .cvtF8 (.reg 5) (.reg 4 false) .f32 .rne true false, .cvtF8 (.reg 5) (.reg 4 false) .f16x2 .rne true true,
      .cvtI32 (.reg 5) (.reg 4 false) .f32 .rtz false, .cvtN32 (.reg 5) (.reg 8 false) .i64 .rne true, .cvtI64 (.reg 10) (.reg 4 false) .f32 .rtz false,
      .cvtN64 (.reg 10) (.reg 4 false) .i32 .rne true] : List Instr), WellFormed i = true := ⟨demo_lifted, demo_readable, by decide⟩

theorem witness_RandDraws : Lifted demo team2 ∧ Readable demo team2 anyOperands ∧ WellFormed (.rand (.reg 5) (.reg 8 false)) = true :=
  ⟨demo_lifted, demo_readable, by decide⟩

theorem witness_UniformIntegers :
    Lifted demo team2 ∧ LeadReadable demo team2 anyOperands ∧ ∀ i ∈ ([.saddB32 (.reg 5) (.reg 4 false) (.reg 6 true), .ssubB32 .sup (.reg 4 false) (.lit 7),
      .saddiB32 (.reg 5) (.reg 4 false) 0x1FF, .saddB64 (.reg 10) (.reg 8 false) (.reg 8 false), .ssubB64 (.opf 2) (.reg 8 false) (.reg 8 false), .saddiB64 (.reg 10) (.reg 8 false) 1,
      .smulB32 (.reg 5) (.reg 4 false) (.special .lane), .smulB64 (.reg 10) (.reg 8 false) (.reg 8 false), .smulhiI32 (.reg 5) (.reg 4 false) (.reg 4 false),
      .smulhiN32 (.reg 5) (.reg 4 false) (.reg 4 false), .smulwI32 (.reg 10) (.reg 4 false) (.reg 4 false), .smulwN32 (.reg 10) (.reg 4 false) (.reg 4 false),
      .sdivI32 (.reg 5) (.reg 4 false) (.reg 4 false), .sdivN32 (.reg 5) (.reg 4 false) (.reg 4 false), .sremI32 (.reg 5) (.reg 4 false) (.reg 4 false),
      .sremN32 (.reg 5) (.reg 4 false) (.reg 4 false), .sandB32 (.reg 5) (.reg 4 false) (.reg 4 false), .sorB32 (.reg 5) (.reg 4 false) (.reg 4 false),
      .sxorB32 (.reg 5) (.reg 4 false) (.reg 4 false), .sandB64 (.reg 10) (.reg 8 false) (.reg 8 false), .sorB64 (.reg 10) (.reg 8 false) (.reg 8 false),
      .sxorB64 (.reg 10) (.reg 8 false) (.reg 8 false), .sbfiB32 (.reg 5) (.reg 4 false) (.lit 7), .slea (.reg 10) (.reg 8 false) (.reg 4 false),
      .sshlB32 (.reg 5) (.reg 4 false) (.lit 7), .sshrN32 (.reg 5) (.reg 4 false) (.lit 7), .sshrI32 (.reg 5) (.reg 4 false) (.lit 7), .sbit (.reg 5) (.reg 4 false) .popcB32,
      .sbit (.reg 10) (.reg 4 false) .sextI32, .ssetpI32 .eq 1 (.reg 4 false) (.reg 4 false), .ssetpN32 .eq 1 (.reg 4 false) (.reg 4 false),
      .ssetpI64 .eq 1 (.reg 8 false) (.reg 8 false), .ssetpN64 .eq 1 (.reg 8 false) (.reg 8 false)] : List Instr), WellFormed i = true :=
  ⟨demo_lifted, demo_leadReadable, by decide⟩

theorem witness_UniformFloats :
    Lifted demo team2 ∧ LeadReadable demo team2 anyOperands ∧ ∀ i ∈ ([.sfaddF32 (.reg 5) (.reg 4 false) (.reg 4 false), .sfsubF32 (.reg 5) (.reg 4 false) (.reg 4 false),
      .sfmulF32 (.reg 5) (.reg 4 false) (.reg 4 false), .sffmaF32 (.reg 5) (.reg 4 false) (.reg 4 false), .sfaddF64 (.reg 10) (.reg 8 false) (.reg 8 false),
      .sfsubF64 (.reg 10) (.reg 8 false) (.reg 8 false), .sfmulF64 (.reg 10) (.reg 8 false) (.reg 8 false), .sffmaF64 (.reg 10) (.reg 8 false) (.reg 8 false),
      .srcpF32 (.reg 5) (.reg 4 false), .srsqF32 (.reg 5) (.reg 4 false), .ssqrtF32 (.reg 5) (.reg 4 false), .sexp2F32 (.reg 5) (.reg 4 false),
      .slog2F32 (.reg 5) (.reg 4 false), .ssinpiF32 (.reg 5) (.reg 4 false), .scospiF32 (.reg 5) (.reg 4 false), .stanhF32 (.reg 5) (.reg 4 false),
      .sfdivF32 (.reg 5) (.reg 4 false) (.reg 4 false), .scvtF32 (.reg 5) (.reg 8 false) .f64 .rtz true, .scvtI32 (.reg 5) (.reg 4 false) .f32 .rtz false,
      .sfsetpF32 .eq 1 (.reg 4 false) (.reg 4 false), .sfsetpF64 .eq 1 (.reg 8 false) (.reg 8 false)] : List Instr), WellFormed i = true :=
  ⟨demo_lifted, demo_leadReadable, by decide⟩

theorem witness_MinimumAndMaximum :
    Lifted demo team2 ∧ Readable demo team2 anyOperands ∧ LeadReadable demo team2 anyOperands ∧ ∀ i ∈ ([.fminF32 (.reg 5) (.reg 4 false) (.reg 4 false),
      .fmaxF32 (.reg 5) (.reg 4 false) (.reg 4 false), .fminnF32 (.reg 5) (.reg 4 false) (.reg 4 false), .fmaxnF32 (.reg 5) (.reg 4 false) (.reg 4 false),
      .fminF64 (.reg 10) (.reg 8 false) (.reg 8 false), .fmaxF64 (.reg 10) (.reg 8 false) (.reg 8 false), .fminnF64 (.reg 10) (.reg 8 false) (.reg 8 false),
      .fmaxnF64 (.reg 10) (.reg 8 false) (.reg 8 false), .sfminF32 (.reg 5) (.reg 4 false) (.reg 4 false), .sfmaxF32 (.reg 5) (.reg 4 false) (.reg 4 false)] : List Instr),
      WellFormed i = true := ⟨demo_lifted, demo_readable, demo_leadReadable, by decide⟩

theorem witness_SaturatingMultiplyAdd :
    Lifted demo team2 ∧ Readable demo team2 anyOperands ∧ WellFormed (.ffmaSatF32 (.reg 5) (.reg 4 false) (.reg 4 false)) = true := ⟨demo_lifted, demo_readable, by decide⟩

theorem witness_GroupExchange :
    Lifted demo team2 ∧ Readable demo team2 anyOperands ∧ demo.wholeLift team2 ∧ ∀ i ∈ ([.shfl (.reg 5) (.reg 4 false) (.special .lane), .censusMask (.reg 5) (.p 3),
      .censusCount (.reg 5) .always, .censusAgree (.reg 5) (.p 3), .censusFirst (.reg 5) (.p 3), .censusLast (.reg 5) (.p 3), .censusRank (.reg 5) (.p 3),
      .matchKeys (.reg 5) (.reg 4 false) (.reg 6 true), .isect (.reg 5) (.reg 4 false) (.reg 6 true)] : List Instr), WellFormed i = true :=
  ⟨demo_lifted, demo_readable, demo_wholeLift, by decide⟩

theorem witness_GroupReductions :
    Lifted demo team2 ∧ Readable demo team2 anyOperands ∧ demo.wholeLift team2 ∧
    (∀ k ∈ [RedKind.addI32, .andB32, .orB32, .xorB32, .maxI32, .minI32, .maxN32, .minN32, .addF32, .mulF32, .maxF32, .minF32, .maxnF32, .minnF32],
      WellFormed (.red (.reg 5) (.reg 4 false) k) = true ∧ WellFormed (.scan (.reg 5) (.reg 4 false) k true) = true) ∧
    ∀ k ∈ [RedKind.addI64, .addF64], WellFormed (.red (.reg 10) (.reg 8 false) k) = true ∧ WellFormed (.scan (.reg 10) (.reg 8 false) k false) = true :=
  ⟨demo_lifted, demo_readable, demo_wholeLift, by decide, by decide⟩

theorem witness_Selections :
    Lifted demo team2 ∧ Readable demo team2 anyOperands ∧ demo.wholeLift team2 ∧ (∀ i ∈ ([.maxiF32 (.reg 10) (.reg 8 false), .miniF32 (.reg 10) (.reg 8 false),
      .maxiF16 (.reg 10) (.reg 8 false), .miniF16 (.reg 10) (.reg 8 false), .maxiBf16 (.reg 10) (.reg 8 false), .miniBf16 (.reg 10) (.reg 8 false),
      .maxiI32 (.reg 10) (.reg 8 false), .miniI32 (.reg 10) (.reg 8 false), .maxiN32 (.reg 10) (.reg 8 false), .miniN32 (.reg 10) (.reg 8 false),
      .selk (.reg 10) (.reg 8 false) (.special (.int 1))] : List Instr), WellFormed i = true) ∧ (∀ m ∈ [0, 31], m < 32) ∧ [0, 31] ≠ [] :=
  ⟨demo_lifted, demo_readable, demo_wholeLift, by decide, by decide, by decide⟩

theorem witness_IntegerReductionAnyOrder :
    RedKind.maxN32 ≠ .addF32 ∧ RedKind.maxN32 ≠ .mulF32 ∧ RedKind.maxN32 ≠ .maxF32 ∧ RedKind.maxN32 ≠ .minF32 ∧ RedKind.maxN32 ≠ .maxnF32 ∧
    RedKind.maxN32 ≠ .minnF32 ∧ RedKind.maxN32 ≠ .addF64 ∧ (∀ m ∈ [0, 5, 31], m < 32) ∧ [0, 5, 31].Nodup ∧ [0, 5, 31].Perm [31, 0, 5] ∧
    ∀ m ∈ [0, 5, 31], RedKind.maxN32.wide = false → (fun l : Nat => zx64 (BitVec.ofNat 32 l)) m = zx64 (lo32 ((fun l : Nat => zx64 (BitVec.ofNat 32 l)) m)) := by
  decide

theorem witness_EncodingsRoundTrip : WellFormed (.addB32 (.reg 63) (.reg 0 true) (.lit 0xFFFFFFFF)) = true ∧ WellFormed (.br .always true 0x40000) = true := by decide

theorem witness_LaneExpander :
    nth [NameVal.uni 7] 0 .free = .uni 7 ∧ nth [NameVal.aff 0xFFFFFFFF 2 false] 0 .free = .aff 0xFFFFFFFF 2 false ∧
    (∀ k, k < 32 → nth ((List.range 32).map fun k => BitVec.ofNat 32 (4294967295 + k * 2)) k 0 = BitVec.ofNat 32 ((0xFFFFFFFF : W32).toNat + k * (2 : W32).toNat)) := by
  refine ⟨rfl, rfl, ?_⟩
  decide +kernel

/-! ### Units of one course -/

theorem of_isSome {α : Type} {o : Option α} (h : o.isSome = true) : ∃ x, o = some x := by cases o with
  | none => cases h
  | some x => exact ⟨x, rfl⟩

/-- The statement of a uniform-set unit, at a state where its work is done. -/
theorem serves_at {i : Instr} {srcs : List Operand} {regs : List Nat} {b3 : Bool} {w : Work} (h : UniServes i srcs regs b3 w) (wf : WellFormed i = true)
    {s : State} {t : Team} {c : Nat} (one : OneCourse s t c) (lead : LeadReadable s t srcs)
    (done : ((w s t c (s.values t false false .sup srcs c (s.leader c))).bind fun r => FMap.get r.1.teams s.issue.team).isSome = true) :
    ∃ s', exec i s = .next s' := by
  obtain ⟨t1, e⟩ := of_isSome done
  obtain ⟨⟨s1, val, upd⟩, e1, e2⟩ := Option.bind_eq_some_iff.mp e
  obtain ⟨s', x, _⟩ := h wf s t c s1 val upd t1 one lead e1 e2
  exact ⟨s', x⟩

theorem settles_at {i : Instr} {srcs : List Operand} {w : Work} (h : UniSettles i srcs w) (wf : WellFormed i = true) {s : State} {t : Team} {c : Nat}
    (one : OneCourse s t c) (lead : LeadReadable s t srcs)
    (done : ((w s t c (s.values t false false .sup srcs c (s.leader c))).bind fun r => FMap.get r.1.teams s.issue.team).isSome = true) :
    ∃ s', exec i s = .next s' := by
  obtain ⟨t1, e⟩ := of_isSome done
  obtain ⟨⟨s1, val, upd⟩, e1, e2⟩ := Option.bind_eq_some_iff.mp e
  obtain ⟨s', x, _⟩ := h wf s t c s1 val upd t1 one lead e1 e2
  exact ⟨_, x⟩

/-- A team with scratchpad, a ring of four slots of 32 bytes and a fired monitor, a privileged slice, and registers that hold addresses. -/
abbrev richSlice : Slice :=
  { placedSlice with privileged := true, record := putBytes (putBytes placedSlice.record 0x40 (leBytes 8 4096)) 0x48 (leBytes 4 100) }
abbrev richCourse : Course :=
  { threads := (List.range 2).map fun l => (l, { pc := 0x1000, monitor := some ⟨none, 0, true⟩ }), names := (List.range 64).map (vals [(2, 0x2000), (4, 0x3000)]) }
abbrev richRing : Ring := { wordA := 0, wordB := 0x2004, slots := [⟨2, 32, 32⟩, {}, {}, {}] }
abbrev richTeam : Team := { teamOf richCourse with rings := richRing :: List.replicate 7 {} }
abbrev rich : State := { demo with slices := [(sliceKey 0 1, richSlice)], teams := [(teamNo, richTeam)] }
theorem rich_one : OneCourse rich richTeam 0 := ⟨lifted_of rfl (by decide +kernel), by decide, by decide⟩
theorem rich_lead (o : Operand) (h : ((srcView (rich.reads richTeam 0) o.1 o.2).stale 0) = false) : LeadReadable rich richTeam [o] := by
  intro m hm p hp
  rw [List.mem_singleton] at hp
  subst hp
  have : m = (0, 0) ∨ m = (0, 1) := by
    have e : rich.issue.parts = [(0, 0), (0, 1)] := by decide
    rw [e] at hm
    simpa using hm
  have l : rich.leader 0 = 0 := by decide
  rcases this with rfl | rfl <;> (show View.stale _ (rich.leader 0) = false; rw [l]; exact h)

theorem rich_free (srcs : List Operand) (h : (srcs.all fun o => !(srcView (rich.reads richTeam 0) o.1 o.2).stale 0) = true) : LeadReadable rich richTeam srcs := by
  intro m hm o ho
  have a := List.all_eq_true.mp h o ho
  have z := rich_lead o (by simpa using a) m hm o (List.mem_singleton.mpr rfl)
  exact z

theorem witness_SynchronisationUnits (h : Obligations.SynchronisationUnits) :
    (∃ s', exec (.barArrive 9 (.lit 0xFFFFFFFF) (.special (.int 31))) rich = .next s') ∧ (∃ s', exec (.barWait (.special (.int 15)) (.lit 0xFFFFFFFF)) rich = .next s') ∧
    (∃ s', exec (.fence .cl .ar) rich = .next s') ∧ (∃ s', exec (.fence .dm .sc) rich = .next s') ∧ ∃ s', exec .commitw rich = .next s' := by
  exact ⟨serves_at (h 9 _ _).1 (by decide) rich_one (rich_free _ (by decide +kernel)) (by decide +kernel),
    serves_at (h 0 _ _).2.1 (by decide) rich_one (rich_free _ (by decide +kernel)) (by decide +kernel),
    serves_at ((h 0 (.lit 0) (.lit 0)).2.2.1 .cl .ar) (by decide) rich_one (rich_free _ (by decide +kernel)) (by decide +kernel),
    serves_at ((h 0 (.lit 0) (.lit 0)).2.2.1 .dm .sc) (by decide) rich_one (rich_free _ (by decide +kernel)) (by decide +kernel),
    serves_at (h 0 (.lit 0) (.lit 0)).2.2.2 (by decide) rich_one (rich_free _ (by decide +kernel)) (by decide +kernel)⟩

theorem witness_WorkUnits (h : Obligations.WorkUnits) :
    (∃ s', exec (.chunk 8) rich = .next s') ∧ (∃ s', exec (.depdec 8 (.special (.int 1))) rich = .next s') ∧ (∃ s', exec (.slice 8 (.reg 2 false)) rich = .next s') ∧
    (∃ s', exec (.capq 8 (.special (.int 0))) rich = .next s') ∧ ∃ s', exec (.sleep (.special (.int 0))) rich = .next s' :=
  ⟨serves_at (h 8 (.lit 0)).1 (by decide) rich_one (rich_free _ (by decide +kernel)) (by decide +kernel),
    serves_at (h 8 _).2.1 (by decide) rich_one (rich_free _ (by decide +kernel)) (by decide +kernel),
    serves_at (h 8 _).2.2.1 (by decide) rich_one (rich_free _ (by decide +kernel)) (by decide +kernel),
    serves_at (h 8 _).2.2.2.1 (by decide) rich_one (rich_free _ (by decide +kernel)) (by decide +kernel),
    serves_at (h 8 _).2.2.2.2 (by decide) rich_one (rich_free _ (by decide +kernel)) (by decide +kernel)⟩

theorem witness_SpecialRegisters (h : Obligations.SpecialRegisters) :
    (∀ r ∈ [SReg.tsw, .key0, .key1, .key2, .key3, .key4, .slice, .budget, .deadline, .clkw, .trapbase, .fault, .faultaddr, .faultmask, .tpc],
      ∃ s', exec (.sget 8 r) rich = .next s') ∧
    (∀ r ∈ [SReg.tsw, .key0, .slice, .budget, .clkw, .trapbase, .fault, .tpc], ∃ s', exec (.sset r (.reg 2 false)) rich = .next s') ∧
    (∀ x ∈ [0x40000000, 0x50000000, 0x60000000, 0x70000000], ∃ s', exec (.sset .tsw (.lit x)) rich = .next s') ∧
    (rich.stopSet teamNo 0 0 1 = [] ∧ (⟨teamNo, 0, 1⟩ : ThreadRef) ∈ rich.stopSet teamNo 0 0 2 ∧ (⟨teamNo, 0, 1⟩ : ThreadRef) ∈ rich.stopSet teamNo 0 0 3) ∧
    ∃ th, (rich.stopThreads [⟨teamNo, 0, 1⟩] true teamNo 0).threadAt teamNo 0 1 = some th ∧ th.tsw = 0x40000000 := by
  obtain ⟨th, e⟩ := of_isSome (o := rich.threadAt teamNo 0 1) (by decide +kernel)
  have z : th.tsw = 0 := by
    have : (rich.threadAt teamNo 0 1).map Thread.tsw = some 0 := by decide +kernel
    rw [e] at this
    exact Option.some.inj this
  have r := h.2.2.1 rich teamNo 0 0 richTeam ⟨teamNo, 0, 1⟩ th (by decide +kernel) e
  refine ⟨?_, ?_, ?_, ⟨r.1, r.2.1.mpr ⟨by decide, rfl, rfl⟩, r.2.2.2 richTeam (by decide +kernel) rfl (by decide)⟩, ?_⟩
  · intro r hr
    fin_cases hr <;> exact serves_at (h.1 8 _) (by decide) rich_one (rich_free _ (by decide +kernel)) (by decide +kernel)
  · intro r hr
    fin_cases hr <;> exact serves_at (h.2.1 _ _) (by decide) rich_one (rich_free _ (by decide +kernel)) (by decide +kernel)
  · intro x hx
    fin_cases hx <;> exact serves_at (h.2.1 _ _) (by decide) rich_one (rich_free _ (by decide +kernel)) (by decide +kernel)
  · obtain ⟨th', a, _, _, b⟩ := h.2.2.2 rich [⟨teamNo, 0, 1⟩] true teamNo 0 ⟨teamNo, 0, 1⟩ th e
    exact ⟨th', a, by rw [b, z]; decide⟩

theorem witness_RingsTimelinesAndHolds (h : Obligations.RingsTimelinesAndHolds) :
    (∃ s', exec (.ringInit (.special (.int 0)) (.lit 0x2004)) rich = .next s') ∧ (∃ s', exec (.ringTake 8 (.special (.int 0))) rich = .next s') ∧
    (∃ s', exec (.ringGive (.special (.int 0))) rich = .next s') ∧ (∃ s', exec (.ringWait 9 (.special (.int 0))) rich = .next s') ∧
    (∃ s', exec (.tlRead 8 (.special (.int 3))) rich = .next s') ∧ (∃ s', exec (.tlWait (.special (.int 4)) (.lit 9)) rich = .next s') ∧
    (∃ s', exec (.ckptHold 8 false) rich = .next s') ∧ ∃ s', exec (.ckptRelease (.reg 2 false) true) rich = .next s' :=
  ⟨serves_at (h.1 0 _ _).1 (by decide) rich_one (rich_free _ (by decide +kernel)) (by decide +kernel),
    serves_at (h.1 8 _ (.lit 0)).2.1 (by decide) rich_one (rich_free _ (by decide +kernel)) (by decide +kernel),
    serves_at (h.1 0 _ (.lit 0)).2.2.1 (by decide) rich_one (rich_free _ (by decide +kernel)) (by decide +kernel),
    serves_at (h.1 9 _ (.lit 0)).2.2.2 (by decide) rich_one (rich_free _ (by decide +kernel)) (by decide +kernel),
    serves_at (h.2 8 _ (.lit 0)).1 (by decide) rich_one (rich_free _ (by decide +kernel)) (by decide +kernel),
    serves_at (h.2 0 _ _).2.1 (by decide) rich_one (rich_free _ (by decide +kernel)) (by decide +kernel),
    serves_at ((h.2 8 (.lit 0) (.lit 0)).2.2.1 false) (by decide) rich_one (rich_free _ (by decide +kernel)) (by decide +kernel),
    serves_at ((h.2 0 _ (.lit 0)).2.2.2 true) (by decide) rich_one (rich_free _ (by decide +kernel)) (by decide +kernel)⟩

theorem witness_EngineCommands (h : Obligations.EngineCommands) :
    (∃ s', exec (.bcopy 8 2 false (.special (.int 16))) rich = .next s') ∧ (∃ s', exec (.bcopy 8 2 true (.lit 0xC0000010)) rich = .next s') ∧
    (∃ s', exec (.bcopySt 8 2 false (.lit 0x200000)) rich = .next s') ∧ ∃ s', exec (.coll 8 (.reg 2 false)) rich = .next s' :=
  ⟨serves_at (h 8 2 false _).1 (by decide) rich_one (rich_free _ (by decide +kernel)) (by decide +kernel),
    serves_at ((h 8 2 true _).2.1 (by decide)) (by decide) rich_one (rich_free _ (by decide +kernel)) (by decide +kernel),
    serves_at (h 8 2 false _).2.2.1 (by decide) rich_one (rich_free _ (by decide +kernel)) (by decide +kernel),
    serves_at ((h 8 2 false (.lit 0)).2.2.2 _) (by decide) rich_one (rich_free _ (by decide +kernel)) (by decide +kernel)⟩

/-- The same team with monitors that have not fired, and with threads that wait at a yield. -/
abbrev armedTeam : Team := { richTeam with courses := [(0, { richCourse with threads := (List.range 2).map fun l => (l, { pc := 0x1000, monitor := some ⟨none, 0, false⟩ }) })] }
abbrev armed : State := { rich with teams := [(teamNo, armedTeam)] }
abbrev yieldedTeam : Team := { richTeam with courses := [(0, { richCourse with threads := (List.range 2).map fun l => (l, { pc := 0x1000, wait := .yield 3, waitLen := 4 }) })] }
abbrev yieldedState : State := { rich with teams := [(teamNo, yieldedTeam)] }
theorem armed_one : OneCourse armed armedTeam 0 := ⟨lifted_of rfl (by decide +kernel), by decide, by decide⟩

theorem witness_WaitingUnits (h : Obligations.WaitingUnits) :
    (∃ s', exec (.mwait 9 (.special (.int 5))) rich = .next s') ∧ (∃ s', exec (.mwait 9 (.special (.int 5))) armed = .next s') ∧
    (∃ s', exec (.sleep (.special (.int 5))) armed = .next s') ∧ (∃ s', exec (.yield (.reg 2 false)) armed = .next s') ∧
    ∃ th, (yieldedState.leaveYield teamNo 0).threadAt teamNo 0 1 = some th ∧ th.pc = 0x1004 :=
  ⟨serves_at (h 9 _).1 (by decide) rich_one (rich_free _ (by decide +kernel)) (by decide +kernel),
    (let ⟨s', e, _⟩ := (h 9 (.special (.int 5))).2.1 armed armedTeam 0 (by decide) armed_one (by unfold LeadReadable; decide +kernel) (by decide +kernel); ⟨s', e⟩),
    (let ⟨s', e, _⟩ := (h 9 (.special (.int 5))).2.2.1 armed armedTeam 0 (by decide) armed_one (by unfold LeadReadable; decide +kernel) (by decide +kernel)
      (by decide +kernel); ⟨s', e⟩),
    (let ⟨_, e, _⟩ := (h 9 (.reg 2 false)).2.2.2.1 armed armedTeam 0 (by decide) armed_one (by unfold LeadReadable; decide +kernel); ⟨_, e⟩),
    (let ⟨_, e, x, _⟩ := (h 9 (.reg 2 false)).2.2.2.2 yieldedState yieldedTeam teamNo 0 1 (yieldedTeam.course 0) { pc := 0x1000, wait := .yield 3, waitLen := 4 } 3
      (by decide +kernel) (by decide +kernel) (by decide) (by decide +kernel) rfl
     ⟨_, e ▸ x, by decide⟩)⟩

theorem witness_SpawnClockShape (h : Obligations.SpawnClockShape) :
    (∃ s', exec (.spawn 1 (.reg 2 false) 56 false) rich = .next s') ∧ (∃ s', exec (.clkiv 8) rich = .next s') ∧
    (∃ s', exec (.vshape (.reg 5) (.latch 2)) demo = .next s') :=
  ⟨settles_at (h.1 1 _ 56 false) (by decide) rich_one (rich_free _ (by decide +kernel)) (by decide +kernel),
    serves_at (h.2.1 8) (by decide) rich_one (rich_free _ (by decide +kernel)) (by decide +kernel),
    let ⟨s', e, _⟩ := h.2.2 (.reg 5) (.latch 2) demo team2 (by decide) demo_lifted; ⟨s', e⟩⟩

/-! ### Memory -/

/-- Whether a lane's access was performed. -/
def isDone : LaneRes → Bool
  | .done _ => true
  | .fault _ _ _ => false
  | .logged _ _ => false
  | .wait _ => false

theorem of_isDone {r : LaneRes} (h : isDone r = true) : ∃ v, r = .done v := by
  cases r with
  | done v => exact ⟨v, rfl⟩
  | fault _ _ _ => cases h
  | logged _ _ => cases h
  | wait _ => cases h

theorem mem_at {i : Instr} {sp : MemSpec} {regs : List Nat} (h : MemUnit i sp regs) (wf : WellFormed i = true) {s : State} {t : Team} {c : Nat}
    (one : OneCourse s t c) (rd : Readable s t [(sp.ty, sp.addr)])
    (done : (((s.memAccesses s.issue.team t c sp).2.all fun o => isDone o.res) && (FMap.get (s.memAccesses s.issue.team t c sp).1.teams s.issue.team).isSome) = true) :
    ∃ s', exec i s = .next s' := by
  rw [Bool.and_eq_true, List.all_eq_true] at done
  obtain ⟨t1, e⟩ := of_isSome done.2
  obtain ⟨s', x, _⟩ := h wf s t c _ _ t1 one rd rfl (fun o ho => of_isDone (done.1 o ho)) e
  exact ⟨s', x⟩

theorem unimem_at {i : Instr} {sp : MemSpec} {b : Bool} (h : UniMemUnit i sp b) (wf : WellFormed i = true) {s : State} {t : Team} {c : Nat}
    (one : OneCourse s t c) (rd : LeadReadable s t [(sp.ty, sp.addr)])
    (done : (let r := sp.perf s (s.whoOf s.issue.team t c (lanesIn s.issue.parts c)) (sp.laneAcc (t.course c) (srcView (s.reads t c) sp.ty sp.addr) (s.leader c) (s.leader c))
      isDone r.2 && (FMap.get r.1.teams s.issue.team).isSome) = true) :
    ∃ s', exec i s = .next s' := by
  dsimp only at done
  rw [Bool.and_eq_true] at done
  obtain ⟨t1, e⟩ := of_isSome done.2
  obtain ⟨v, ev⟩ := of_isDone done.1
  obtain ⟨s', x, _⟩ := h wf s t c _ v t1 one rd (by rw [← ev]) e
  exact ⟨s', x⟩

theorem triple {α β γ : Type} (r : α × β × γ) : r = (r.1, r.2.1, r.2.2) := rfl
theorem val_of {α ε β : Type} {r : α × Except ε β} {s : α} {x y : β} (e : r = (s, .ok x)) (k : x = y) : ∃ s', r = (s', .ok y) := ⟨s, by rw [e, k]⟩
theorem res_of {r : State × LaneRes} {s : State} {x y : LaneRes} (e : r = (s, x)) (k : x = y) : ∃ s', r = (s', y) := ⟨s, by rw [e, k]⟩
theorem pair_of {α ε β : Type} {r : α × Except ε β} {x : Except ε β} (h : r.2 = x) : r = (r.1, x) := by rw [← h]

/-- Lane 0's accesses in the rich state; and the same state with the page stamped (R342, bit 5 of the leaf). -/
abbrev richWho : Who := { part := 0, core := 0, user := false, team := teamNo, course := 0, lanes := [0] }
abbrev stamped : State := { rich with mem := rich.mem.writeN 0x3000 (leBytes 8 (placedPage + 0x3F)) }
abbrev laneAt (a : W64) (b : List Byte) : LaneAcc := { lane := 0, addr := a, data := b }

/-- Threads that have waited for W, on the stamped page. -/
abbrev waitedTeam : Team :=
  { richTeam with courses := [(0, { richCourse with threads := (List.range 2).map fun l => (l, { pc := 0x1000, waited := true }) })] }
abbrev waitedState : State := { stamped with teams := [(teamNo, waitedTeam)] }
theorem waited_one : OneCourse waitedState waitedTeam 0 := ⟨lifted_of rfl (by decide +kernel), by decide, by decide⟩

theorem witness_DeviceLoads (h : Obligations.DeviceLoads) :
    (∃ s', exec (.ld .b128 8 (.reg 2 false) 1) rich = .next s') ∧ (∃ s', exec (.ldOrdered ⟨true, .dm, true⟩ 8 (.reg 2 false)) rich = .next s') ∧
    (∃ s', exec (.atom .casB64 (.dev .dv .ar) 58 (.reg 2 false)) rich = .next s') ∧ (∃ s', exec (.lda true 8 (.reg 2 false) 6) waitedState = .next s') ∧
    (∃ s', exec (.fetch .mxf8 54 (.reg 4 false) 31) rich = .next s') ∧ (∃ s', exec (.gather .bf16 8 (.reg 4 false) 0) rich = .next s') :=
  ⟨mem_at (h .b128 ⟨true, .dm, true⟩ .addB32 .th .relaxed .bf16 false 8 0 0 (.reg 2 false) 1).1 (by decide) rich_one (by unfold Readable; decide +kernel) (by decide +kernel),
    mem_at (h .b128 ⟨true, .dm, true⟩ .addB32 .th .relaxed .bf16 false 8 0 0 (.reg 2 false) 1).2.1 (by decide) rich_one (by unfold Readable; decide +kernel) (by decide +kernel),
    mem_at (h .b128 ⟨true, .dm, true⟩ .casB64 .dv .ar .bf16 false 58 0 0 (.reg 2 false) 1).2.2.1 (by decide) rich_one (by unfold Readable; decide +kernel) (by decide +kernel),
    mem_at (h .b128 ⟨true, .dm, true⟩ .casB64 .dv .ar .bf16 true 8 6 0 (.reg 2 false) 1).2.2.2.1 (by decide) waited_one (by unfold Readable; decide +kernel) (by decide +kernel),
    mem_at (h .b128 ⟨true, .dm, true⟩ .casB64 .dv .ar .mxf8 false 54 0 31 (.reg 4 false) 1).2.2.2.2.1 (by decide) rich_one (by unfold Readable; decide +kernel) (by decide +kernel),
    mem_at (h .b128 ⟨true, .dm, true⟩ .casB64 .dv .ar .bf16 false 8 0 0 (.reg 4 false) 1).2.2.2.2.2.1 (by decide) rich_one (by unfold Readable; decide +kernel) (by decide +kernel)⟩

/-- A handle of two rows of 64 elements whose data, bitmap and scales lie in the placed page, dense or sparse; and memory in which the first bit of the
bitmap is set. -/
abbrev handle (sparse : Bool) : MHandle := { base := 0x2100, stride := 256, rows := 2, cols := 64, index := 0x2000, scales := 0x2040, sparse := sparse }
abbrev bitState : State := { rich with mem := rich.mem.writeN (placedPage + 0x2000) [1] }

theorem witness_DeviceLoads_fetch (h : Obligations.DeviceLoads) :
    (∃ s' v, rich.accessLane richWho { kind := .fetch .mxf8, dest := 8, aux := 4 } (laneAt 0x2000 []) = (s', .done v)) ∧
    rich.fetchSegment richWho .bf16 (handle false) 2 0 = (rich, .ok (0, false)) ∧ rich.fetchSegment richWho .bf16 (handle false) 1 64 = (rich, .ok (0, false)) ∧
    (∃ s', rich.fetchSegment richWho .bf16 (handle false) 1 60 = (s', .ok (0, true))) ∧
    (∃ s', rich.fetchSegment richWho .bf16 (handle true) 0 0 = (s', .ok (0, false))) ∧
    (∃ s', bitState.fetchSegment richWho .bf16 (handle true) 0 0 = (s', .ok (0, true))) ∧
    rich.fetchScale richWho (handle false) 1 2 = (rich, .ok 0x7F) ∧ (∃ s', rich.fetchScale richWho (handle false) 1 1 = (s', .ok 0)) ∧
    (∃ s', rich.fetchAt richWho 0x207E 2 = (s', .ok [0, 0])) ∧ ∃ s' b, (rich.fetchAt richWho 0x2000 4).1.fetchAt richWho 0x2000 4 = (s', .ok b) := by
  have g := fun f => h .b32 ⟨true, .dm, true⟩ .addB32 .th .relaxed f false 8 0 0 (.lit 0) 0
  have sg := fun (s s1 : State) (q : MHandle) (r c : Nat) (b : List Byte) => (g .bf16).2.2.2.2.2.2.2.1 s s1 richWho q r c b
  refine ⟨?_, (sg rich rich (handle false) 2 0 []).1 (.inl (by decide)), (sg rich rich (handle false) 1 64 []).1 (.inr (by decide)),
    val_of ((sg rich _ (handle false) 1 60 (List.replicate 8 0)).2.1 (by decide) (by decide) rfl (pair_of (by decide +kernel))) (by decide +kernel),
    ⟨_, ((sg rich _ (handle true) 0 0 [0]).2.2.1 (by decide) (by decide) rfl (pair_of (by decide +kernel))).1 (by decide +kernel)⟩,
    val_of (((sg bitState _ (handle true) 0 0 [1]).2.2.1 (by decide) (by decide) rfl (pair_of (by decide +kernel))).2 _ (List.replicate 8 0) (by decide +kernel)
      (pair_of (by decide +kernel))) (by decide +kernel),
    (sg rich rich (handle false) 1 2 []).2.2.2.1 (.inr (by decide)),
    val_of ((sg rich _ (handle false) 1 1 [0]).2.2.2.2 (by decide) (by decide) (pair_of (by decide +kernel))) (by decide +kernel), ?_, ?_⟩
  · obtain ⟨v, e, _⟩ := (g .mxf8).2.2.2.2.2.2.1 rich _ _ _ richWho (laneAt 0x2000 []) (List.replicate 64 0) (List.replicate 4 (0, false)) [0x7F] 8 4
      (pair_of (by decide +kernel)) (pair_of (by decide +kernel)) (pair_of (by decide +kernel)) (by decide +kernel) (by decide)
    exact ⟨_, v, e⟩
  · obtain ⟨s', e, _⟩ := ((g .bf16).2.2.2.2.2.2.2.2 rich _ richWho 0x207E 2 ⟨placedPage + 0x207E, none, false, false⟩ (by decide) (by decide) (by decide)
      (pair_of (by decide +kernel)) rfl rfl (by decide +kernel)).2 (by decide +kernel) (by decide +kernel) (by decide +kernel)
    exact val_of e (by decide +kernel)
  · obtain ⟨b, e⟩ := of_isSome (o := FMap.get (((rich.fetchAt richWho 0x2000 4).1.translate (some richWho.core) richWho.part richWho.user .read 0x2000).1.core richWho.core).fcache
      (lineOf (placedPage + 0x2000))) (by decide +kernel)
    exact ⟨_, _, ((g .bf16).2.2.2.2.2.2.2.2 (rich.fetchAt richWho 0x2000 4).1 _ richWho 0x2000 4 ⟨placedPage + 0x2000, none, false, false⟩ (by decide) (by decide) (by decide)
      (pair_of (by decide +kernel)) rfl rfl (by decide +kernel)).1 b e⟩

/-- The interval is within the ceiling where the ceiling is what this read of the clock takes its latest time to be; and too wide where that time is
1,000 already. -/
theorem interval_in {s : State} (hn : s.ns = 0) (hl : (s.die 0).l = 0) (hd : 0 < s.dies.length) (hc : (s.die 0).pkceil = Config.clockAhead 0 s.freeCtr) :
    (s.intervalOk 0 .package).2.1 = true := by
  have e : ∀ x : Die, ({ s.setDie 0 x with freeCtr := s.freeCtr + 1 } : State).die 0 = x := fun x => nth_set_same _ _ _ _ hd
  simp only [State.intervalOk, State.readClock, e, hn, hl, hc, decide_eq_true_eq]
  omega
theorem interval_out {s : State} (hn : s.ns = 0) (he : (s.die 0).e = 0) (hl : 1000 ≤ (s.die 0).l) (hd : 0 < s.dies.length) (hc : (s.die 0).pkceil = 16) :
    (s.intervalOk 0 .package).2.1 = false := by
  have e : ∀ x : Die, ({ s.setDie 0 x with freeCtr := s.freeCtr + 1 } : State).die 0 = x := fun x => nth_set_same _ _ _ _ hd
  simp only [State.intervalOk, State.readClock, e, hn, he, hc, decide_eq_false_iff_not]
  omega

/-- The stamped page where the interval is within the ceiling, and where it is too wide. -/
abbrev calm (w : Nat) : Die := { wPackage := w, pkceil := Config.clockAhead 0 0 }
abbrev calmState : State := { stamped with dies := List.replicate 4 (calm 0) }
abbrev wideState : State := { stamped with dies := List.replicate 4 { l := 1000 } }

/-- The translation of 0x2000 in a state with the stamped page, and the state once the page is seen. -/
abbrev stampedXlat : Xlat := ⟨placedPage + 0x2000, none, true, false⟩
abbrev stampedSeen (s : State) (m : AccMode) : State :=
  (s.translate (some richWho.core) richWho.part richWho.user m 0x2000).1.seePage richWho.part none 0x2000 (placedPage + 0x2000) true

/-- Neither a translation nor seeing a page changes the dies. -/
theorem seen_dies (s : State) (m : AccMode) : (stampedSeen s m).dies = s.dies := by
  have t : (s.translate (some richWho.core) richWho.part richWho.user m 0x2000).1.dies = s.dies := by
    unfold State.translate
    split
    · rfl
    · dsimp only
      split
      · rfl
      · split
        · rfl
        · split <;> rfl
  rw [← t]
  unfold stampedSeen State.seePage State.forgetUnit State.notePage
  dsimp only
  split
  · split <;> rfl
  · rfl
  · rfl
  · split <;> rfl
  · rfl
  · rfl
theorem seen_in {s : State} {m : AccMode} (hn : (stampedSeen s m).ns = 0) (hf : (stampedSeen s m).freeCtr = 0) (hl : ((stampedSeen s m).die 0).l = 0)
    (hd : 0 < (stampedSeen s m).dies.length) (hc : (s.die 0).pkceil = Config.clockAhead 0 0) : ((stampedSeen s m).intervalOk 0 .package).2.1 = true := by
  refine interval_in hn hl hd ?_
  show (nth (stampedSeen s m).dies 0 {}).pkceil = _
  rw [seen_dies, hf]
  exact hc

theorem sts_done (s : State) (w : Who) (q : LaneAcc) (n d aux : Nat) (x : Xlat) (h1 : q.addr.toNat % n = 0)
    (h2 : (s.translate (some w.core) w.part w.user .write q.addr).2 = .ok x) (h3 : x.remote = none) (h4 : x.stamped = true)
    (h5 : ((s.translate (some w.core) w.part w.user .write q.addr).1.seePage w.part none q.addr.toNat x.pa true).homeAlive x.pa = true)
    (h6 : ((s.translate (some w.core) w.part w.user .write q.addr).1.seePage w.part none q.addr.toNat x.pa true).overlapsOwn w none x.pa n = false)
    (dom : StampDom) (hd : ((s.translate (some w.core) w.part w.user .write q.addr).1.seePage w.part none q.addr.toNat x.pa true).stampDom w.part x.domain = dom)
    (h7 : (((s.translate (some w.core) w.part w.user .write q.addr).1.seePage w.part none q.addr.toNat x.pa true).intervalOk (dieOfCore w.core) dom).2.1 = true) :
    isDone (s.accessLane w { kind := .sts n, dest := d, aux := aux } q).2 = true := by
  subst hd
  have e : s.translate (some w.core) w.part w.user .write q.addr = ((s.translate (some w.core) w.part w.user .write q.addr).1, .ok x) := pair_of h2
  generalize (s.translate (some w.core) w.part w.user .write q.addr).1 = s1 at e h5 h6 h7
  obtain ⟨pa, rm, st, dm⟩ := x
  dsimp only at h3 h4
  subst h3 h4
  dsimp only at h5 h6 h7
  generalize hr : (s1.seePage w.part none q.addr.toNat pa true).intervalOk (dieOfCore w.core) ((s1.seePage w.part none q.addr.toNat pa true).stampDom w.part dm) = r at h7
  obtain ⟨s2, b, lu⟩ := r
  dsimp only at h7
  subst h7
  simp only [State.accessLane, AccKind.size, AccKind.mode, h1, e, kindMismatch, Option.map_none, h5, h6, hr, if_true, if_false, ne_eq, not_true_eq_false, Bool.false_eq_true]
  rfl

/-- One lane's store on the stamped page. -/
abbrev lonelyTeam : Team := teamOf { courseOf 1 (vals [(2, 0x2000), (4, 0x3000)]) with threads := [(0, { pc := 0x1000 })] }
abbrev lonelyState : State := { calmState with teams := [(teamNo, lonelyTeam)], issue := issueOf 1 1 }
abbrev lonelyAcc : LaneAcc := laneAt 0x2000 (leBytes 4 0)
abbrev lonelySpec : MemSpec := deviceSpec { kind := .sts StKind.b32.size, dest := (8 : Fin 64).val, aux := (6 : Fin 64).val } (.reg 2 false) 0 false
theorem lonely_who : lonelyState.whoOf lonelyState.issue.team lonelyTeam 0 [0] = richWho := by
  have e : lonelyState.sliceOf lonelyTeam = some richSlice := by decide +kernel
  unfold State.whoOf
  rw [e]
  rfl
theorem lonely_one : OneCourse lonelyState lonelyTeam 0 := ⟨lifted_of rfl (by decide +kernel), by decide, by decide⟩

theorem sts_lonely (s : State) (e : (s.translate (some richWho.core) richWho.part richWho.user .write 0x2000).2 = .ok stampedXlat)
    (k1 : (stampedSeen s .write).homeAlive stampedXlat.pa = true) (k2 : (stampedSeen s .write).overlapsOwn richWho none stampedXlat.pa 4 = false)
    (k3 : (stampedSeen s .write).stampDom richWho.part false = .package) (i : ((stampedSeen s .write).intervalOk 0 .package).2.1 = true) :
    isDone (s.accessLane richWho lonelySpec.acc lonelyAcc).2 = true := sts_done s richWho lonelyAcc 4 8 6 stampedXlat (by decide) e rfl rfl k1 k2 .package k3 i

theorem witness_DeviceStores (h : Obligations.DeviceStores) :
    (∃ s', exec (.st .b64 8 (.reg 2 false) 0x3F) rich = .next s') ∧ (∃ s', exec (.stOrdered ⟨false, .cl, false⟩ 8 (.reg 2 false)) rich = .next s') ∧
    ∃ s', exec (.sts .b32 8 (.reg 2 false) 6) lonelyState = .next s' := by
  refine ⟨mem_at (h .b64 ⟨true, .dm, true⟩ 8 0 (.reg 2 false) 0x3F).1 (by decide) rich_one (by unfold Readable; decide +kernel) (by decide +kernel),
    mem_at (h .b64 ⟨false, .cl, false⟩ 8 0 (.reg 2 false) 0x3F).2.1 (by decide) rich_one (by unfold Readable; decide +kernel) (by decide +kernel),
    mem_at (h .b32 ⟨false, .cl, false⟩ 8 6 (.reg 2 false) 0).2.2 (by decide) lonely_one (by unfold Readable; decide +kernel) ?_⟩
  have one : lonelyState.memAccesses lonelyState.issue.team lonelyTeam 0 lonelySpec =
      (let r := lonelyState.accessLane richWho lonelySpec.acc lonelyAcc; (r.1, [⟨lonelyAcc, r.2⟩])) := by
    unfold State.memAccesses
    dsimp only
    rw [show memLanes (courseIn lonelyState lonelyTeam 3 0) lonelySpec = [0] by decide +kernel,
      show memOne (courseIn lonelyState lonelyTeam 3 0) lonelySpec = false by decide +kernel]
    rw [← lonely_who]
    rfl
  obtain ⟨t', there, _⟩ := (kin_accessLane lonelyState richWho lonelySpec.acc lonelyAcc).teams lonelyState.issue.team lonelyTeam (by decide +kernel)
  have d := sts_lonely lonelyState (by decide +kernel) (by decide +kernel) (by decide +kernel) (by decide +kernel)
    (seen_in (by decide +kernel) (by decide +kernel) (by decide +kernel) (by decide +kernel) rfl)
  rw [one]
  dsimp only
  rw [there, List.all_cons, List.all_nil, d]
  rfl

theorem witness_LevelAccesses (h : Obligations.LevelAccesses) :
    (∃ s', exec (.ldx .spad .b64 8 (.lit 4088) 0) rich = .next s') ∧ (∃ s', exec (.ldx .lp .b64 8 (.special (.int 8)) 0x3F) rich = .next s') ∧
    (∃ s', exec (.stx .lp .b32 8 (.special (.int 0)) 1) rich = .next s') ∧ (∃ s', exec (.stx .spad .n8 8 (.lit 4095) 0) rich = .next s') ∧
    ∃ s', exec (.atom .fminF32 (.level .spad) 8 (.special (.int 16))) rich = .next s' :=
  ⟨mem_at ((h .b64 .addB32 8 _ 0).1 .spad) (by decide) rich_one (by unfold Readable; decide +kernel) (by decide +kernel),
    mem_at ((h .b64 .addB32 8 _ 0x3F).1 .lp) (by decide) rich_one (by unfold Readable; decide +kernel) (by decide +kernel),
    mem_at ((h .b32 .addB32 8 _ 1).2.1 .lp) (by decide) rich_one (by unfold Readable; decide +kernel) (by decide +kernel),
    mem_at ((h .n8 .addB32 8 _ 0).2.1 .spad) (by decide) rich_one (by unfold Readable; decide +kernel) (by decide +kernel),
    mem_at ((h .n8 .fminF32 8 _ 0).2.2 .spad) (by decide) rich_one (by unfold Readable; decide +kernel) (by decide +kernel)⟩

theorem witness_UniformAccesses (h : Obligations.UniformAccesses) :
    (∃ s', exec (.sld (.plain .b32 1) 8 (.reg 2 false)) rich = .next s') ∧ (∃ s', exec (.sld (.ordered ⟨true, .te, false⟩) 8 (.reg 2 false)) rich = .next s') ∧
    (∃ s', exec (.sst (.plain .b64 1) 8 (.reg 2 false)) rich = .next s') ∧ (∃ s', exec (.sst (.ordered ⟨true, .dv, true⟩) 8 (.reg 2 false)) rich = .next s') ∧
    (∃ s', exec (.sldx .spad .b32 8 (.special (.int 4)) 0) rich = .next s') ∧ (∃ s', exec (.sstx .lp .b64 8 (.special (.int 0)) 0) rich = .next s') ∧
    (∃ s', exec (.satom .addB32 (.dev .th .relaxed) 8 (.reg 2 false)) rich = .next s') ∧ (∃ s', exec (.satom .addB64 (.level .spad) 8 (.special (.int 8))) rich = .next s') ∧
    (∃ s', exec (.scas .b128 (.dev .dm .sc) 8 (.reg 2 false)) rich = .next s') ∧ (∃ s', exec (.scas .b64 (.level .spad) 8 (.special (.int 8))) rich = .next s') ∧
    ∃ s', exec (.mon (.reg 2 false)) rich = .next s' :=
  ⟨unimem_at ((h ⟨true, .te, false⟩ .th .relaxed 8 (.reg 2 false) 1).1 .b32) (by decide) rich_one (rich_free _ (by decide +kernel)) (by decide +kernel),
    unimem_at (h ⟨true, .te, false⟩ .th .relaxed 8 (.reg 2 false) 1).2.1 (by decide) rich_one (rich_free _ (by decide +kernel)) (by decide +kernel),
    unimem_at ((h ⟨true, .te, false⟩ .th .relaxed 8 (.reg 2 false) 1).2.2.1 .b64) (by decide) rich_one (rich_free _ (by decide +kernel)) (by decide +kernel),
    unimem_at (h ⟨true, .dv, true⟩ .th .relaxed 8 (.reg 2 false) 1).2.2.2.1 (by decide) rich_one (rich_free _ (by decide +kernel)) (by decide +kernel),
    unimem_at ((h ⟨true, .dv, true⟩ .th .relaxed 8 _ 0).2.2.2.2.1 .spad .b32) (by decide) rich_one (rich_free _ (by decide +kernel)) (by decide +kernel),
    unimem_at ((h ⟨true, .dv, true⟩ .th .relaxed 8 _ 0).2.2.2.2.2.1 .lp .b64) (by decide) rich_one (rich_free _ (by decide +kernel)) (by decide +kernel),
    unimem_at ((h ⟨true, .dv, true⟩ .th .relaxed 8 _ 0).2.2.2.2.2.2.1 .addB32) (by decide) rich_one (rich_free _ (by decide +kernel)) (by decide +kernel),
    unimem_at ((h ⟨true, .dv, true⟩ .th .relaxed 8 _ 0).2.2.2.2.2.2.2.1 .addB64 .spad) (by decide) rich_one (rich_free _ (by decide +kernel)) (by decide +kernel),
    unimem_at ((h ⟨true, .dv, true⟩ .dm .sc 8 _ 0).2.2.2.2.2.2.2.2.1 .b128) (by decide) rich_one (rich_free _ (by decide +kernel)) (by decide +kernel),
    unimem_at ((h ⟨true, .dv, true⟩ .th .relaxed 8 _ 0).2.2.2.2.2.2.2.2.2.1 .b64 .spad) (by decide) rich_one (rich_free _ (by decide +kernel)) (by decide +kernel),
    unimem_at (h ⟨true, .dv, true⟩ .th .relaxed 8 _ 0).2.2.2.2.2.2.2.2.2.2 (by decide) rich_one (rich_free _ (by decide +kernel)) (by decide +kernel)⟩

theorem witness_AccessChecks (h : Obligations.AccessChecks) :
    rich.accessLane richWho { kind := .load 4 false } (laneAt 0x2001 []) = (rich, .fault .align 0 0x2001) ∧
    (∃ s1, rich.accessLane richWho { kind := .load 4 false } (laneAt 0x40000000 []) = (s1, .logged .xlate 0x40000000)) ∧
    (∃ s1, stamped.accessLane richWho { kind := .store 4 } (laneAt 0x2000 []) = (s1, .fault .stampMix 0 0x2000)) ∧
    ∃ s1, rich.accessLane richWho { kind := .lda false } (laneAt 0x2000 []) = (s1, .fault .stampMix 1 0x2000) :=
  ⟨(h rich richWho { kind := .load 4 false } _ (by intro f e; cases e)).1 (by decide),
    ⟨_, ((h rich richWho { kind := .load 4 false } (laneAt 0x40000000 []) (by intro f e; cases e)).2 (by decide)).1 _ .xlate (pair_of (by decide +kernel))⟩,
    ⟨_, (((h stamped richWho { kind := .store 4 } (laneAt 0x2000 []) (by intro f e; cases e)).2 (by decide)).2 _ ⟨placedPage + 0x2000, none, true, false⟩
      (pair_of (by decide +kernel)) rfl (by decide +kernel)).1 rfl (.inl ⟨4, rfl⟩)⟩,
    ⟨_, (((h rich richWho { kind := .lda false } (laneAt 0x2000 []) (by intro f e; cases e)).2 (by decide)).2 _ ⟨placedPage + 0x2000, none, false, false⟩
      (pair_of (by decide +kernel)) rfl (by decide +kernel)).2 rfl (.inr ⟨false, rfl⟩)⟩⟩

/-- The rich state once a read of its page has filled the translation buffer. -/
abbrev hitState : State := (rich.translate (some 0) 0 true .read 0x2000).1

theorem witness_Translation (h : Obligations.Translation) :
    rich.translate (some 0) 0 true .read 0x8000000000000000 = (rich, .error .xlate) ∧
    rich.translate (some 0) 0 true .read 0x40000000 = (rich, .error .xlate) ∧
    (∃ tlb r, rich.translate (some 0) 0 true .write 0x3FFFFFFF = (rich.setCore 0 { rich.core 0 with tlb := tlb }, r)) ∧
    ∃ r, hitState.translate (some 0) 0 true .write 0x3FFFFFFF = (hitState, r) :=
  ⟨(h rich 0 0 true .read 0x8000000000000000).1 (by decide), (((h rich 0 0 true .read 0x40000000).2.2 (by decide) (by decide)).1 .xlate (by decide +kernel)).2,
    (let ⟨tlb, e⟩ := ((h rich 0 0 true .write 0x3FFFFFFF).2.2 (by decide) (by decide)).2 (placedPage + 0x1F) (2 ^ 30) (by decide +kernel) (by decide); ⟨tlb, _, e⟩),
    ⟨_, (h hitState 0 0 true .write 0x3FFFFFFF).2.1 ⟨0, 0, 2 ^ 30, BitVec.ofNat 64 (placedPage + 0x1F)⟩ (by decide) (by decide +kernel) (by decide)⟩⟩

/-- The rich state once lane 0 has translated `a` and its page is seen. -/
abbrev richSeen (m : AccMode) (a : W64) : State :=
  (rich.translate (some richWho.core) richWho.part richWho.user m a).1.seePage richWho.part none a.toNat (placedPage + a.toNat) false

theorem rich_reaches (m : AccMode) (a : W64) (n : Nat) (b : List Byte) (h1 : a.toNat % n = 0)
    (h2 : (rich.translate (some richWho.core) richWho.part richWho.user m a).2 = .ok ⟨placedPage + a.toNat, none, false, false⟩)
    (h3 : (richSeen m a).homeAlive (placedPage + a.toNat) = true) (h4 : (richSeen m a).overlapsOwn richWho none (placedPage + a.toNat) n = false) :
    PlainlyReaches rich richWho m (laneAt a b) n (richSeen m a) ⟨placedPage + a.toNat, none, false, false⟩ :=
  ⟨h1, h2, rfl, rfl, rfl, h3, h4⟩

theorem witness_PlainMemory (h : Obligations.PlainMemory) :
    (∃ s' v, rich.accessLane richWho { kind := .load 8 false } (laneAt 0x3FFFFFF8 []) = (s', .done v)) ∧
    ∃ s', rich.accessLane richWho { kind := .store 8 } (laneAt 0x3FFFFFF8 (leBytes 8 5)) = (s', .done []) :=
  ⟨(let ⟨s', e, _⟩ := (h rich richWho (laneAt 0x3FFFFFF8 []) 0 8 false _ _).1 false
      (rich_reaches .read 0x3FFFFFF8 8 [] (by decide) (by decide +kernel) (by decide +kernel) (by decide +kernel)) (by decide +kernel); ⟨s', _, e⟩),
    (let ⟨s', e, _⟩ := (h rich richWho (laneAt 0x3FFFFFF8 (leBytes 8 5)) 0 8 false _ _).2
      (rich_reaches .write 0x3FFFFFF8 8 (leBytes 8 5) (by decide) (by decide +kernel) (by decide +kernel) (by decide +kernel)) (by decide); ⟨s', e⟩)⟩

theorem witness_Atomics (h : Obligations.Atomics) :
    (∃ s' v, rich.accessLane richWho { kind := .atom .addB64, scope := .dv } (laneAt 0x2000 (leBytes 8 5)) = (s', .done v)) ∧
    (∃ s' v, rich.accessLane richWho { kind := .cas .b128, scope := .dm, order := .sc } (laneAt 0x2000 (leBytes 32 5)) = (s', .done v)) ∧
    (∃ s' v, rich.accessLane richWho { kind := .atom .fmaxF32, scope := .th } (laneAt 0x2004 (leBytes 4 5)) = (s', .done v)) ∧
    ∃ s' v, rich.accessLane richWho { kind := .cas .b64, scope := .cl, order := .ar } (laneAt 0x2008 (leBytes 16 5)) = (s', .done v) :=
  ⟨⟨_, _, (h.1 rich richWho (laneAt 0x2000 (leBytes 8 5)) (.atom .addB64) .dv .relaxed 0 false _ _ (.inl ⟨_, rfl⟩)
      (rich_reaches .write 0x2000 8 (leBytes 8 5) (by decide) (by decide +kernel) (by decide +kernel) (by decide +kernel)) (by decide +kernel) (by decide +kernel)).1 (by decide)⟩,
    ⟨_, _, (h.1 rich richWho (laneAt 0x2000 (leBytes 32 5)) (.cas .b128) .dm .sc 0 false _ _ (.inr ⟨_, rfl⟩)
      (rich_reaches .write 0x2000 16 (leBytes 32 5) (by decide) (by decide +kernel) (by decide +kernel) (by decide +kernel)) (by decide +kernel) (by decide +kernel)).1 (by decide)⟩,
    (let ⟨_, e, _⟩ := (h.1 rich richWho (laneAt 0x2004 (leBytes 4 5)) (.atom .fmaxF32) .th .relaxed 0 false _ _ (.inl ⟨_, rfl⟩)
      (rich_reaches .write 0x2004 4 (leBytes 4 5) (by decide) (by decide +kernel) (by decide +kernel) (by decide +kernel)) (by decide +kernel) (by decide +kernel)).2 (by decide)
     ⟨_, _, e⟩),
    (let ⟨_, e, _⟩ := (h.1 rich richWho (laneAt 0x2008 (leBytes 16 5)) (.cas .b64) .cl .ar 0 false _ _ (.inr ⟨_, rfl⟩)
      (rich_reaches .write 0x2008 8 (leBytes 16 5) (by decide) (by decide +kernel) (by decide +kernel) (by decide +kernel)) (by decide +kernel) (by decide +kernel)).2 (by decide)
     ⟨_, _, e⟩)⟩

/-- The stamped page where W is 5 and the line's latest version has stamp 5, with older ones as given. -/
abbrev versionState (vs : List Version) : State :=
  { stamped with lineStamp := [(lineOf (placedPage + 0x2000), 5)], versions := [(lineOf (placedPage + 0x2000), vs)], dies := List.replicate 4 (calm 5) }
abbrev oldVersion : Version := { stamp := 2, dom := .package, bytes := List.replicate 128 9 }

theorem sts_at (h : Obligations.StampedStores) (s : State) (b : Bool)
    (e : (s.translate (some richWho.core) richWho.part richWho.user .write 0x2000).2 = .ok stampedXlat)
    (k : ((stampedSeen s .write).homeAlive stampedXlat.pa && !(stampedSeen s .write).overlapsOwn richWho none stampedXlat.pa 4) = true)
    (i : ((stampedSeen s .write).intervalOk 0 ((stampedSeen s .write).stampDom richWho.part false)).2.1 = b) :
    ∃ s' r, s.accessLane richWho { kind := .sts 4, aux := 8 } (laneAt 0x2000 (leBytes 4 5)) = (s', r) ∧ isDone r = b := by
  simp only [Bool.and_eq_true, Bool.not_eq_true'] at k
  have z := h.1 s richWho (laneAt 0x2000 (leBytes 4 5)) 4 0 8 _ ((stampedSeen s .write).intervalOk 0 ((stampedSeen s .write).stampDom richWho.part false)).1 stampedXlat b
    ((stampedSeen s .write).intervalOk 0 ((stampedSeen s .write).stampDom richWho.part false)).2.2 (by decide) (pair_of e) rfl rfl k.1 k.2 (by rw [← i]; rfl)
  cases b
  · exact ⟨_, _, z, rfl⟩
  · exact ⟨_, _, z, rfl⟩

theorem witness_StampedStores (h : Obligations.StampedStores) :
    (∃ s' r, calmState.accessLane richWho { kind := .sts 4, aux := 8 } (laneAt 0x2000 (leBytes 4 5)) = (s', r) ∧ isDone r = true) ∧
    (∃ s' r, wideState.accessLane richWho { kind := .sts 4, aux := 8 } (laneAt 0x2000 (leBytes 4 5)) = (s', r) ∧ isDone r = false) ∧
    (∃ s', stamped.accessLane richWho { kind := .load 4 false } (laneAt 0x2000 []) = (s', .done [0])) ∧
    (∃ s', stamped.accessLane richWho { kind := .load 4 false, scope := .dv, order := .acq } (laneAt 0x2000 []) = (s', .done [0])) ∧
    (∃ s', (versionState []).accessLane richWho { kind := .lda false, dest := 8, aux := 6 } (laneAt 0x2000 (leBytes 8 6)) = (s', .wait (.lda .package 6))) ∧
    (∃ s', (versionState []).accessLane richWho { kind := .lda false, dest := 8, aux := 6 } (laneAt 0x2000 (leBytes 8 5)) = (s', .done [0, 0])) ∧
    (∃ s', waitedState.accessLane richWho { kind := .lda false, dest := 8, aux := 6 } (laneAt 0x2000 (leBytes 8 0)) = (s', .done [0, 2])) ∧
    (∃ s', (versionState [oldVersion]).accessLane richWho { kind := .lda false, dest := 8, aux := 6 } (laneAt 0x2000 (leBytes 8 4)) = (s', .done [0x09090909, 0])) ∧
    ∃ s', (versionState [oldVersion]).accessLane richWho { kind := .lda false, dest := 8, aux := 6 } (laneAt 0x2000 (leBytes 8 1)) = (s', .done [0, 1]) := by
  have lda := fun (s : State) (T : Nat) e k1 k2 => h.2.2 s richWho (laneAt 0x2000 (leBytes 8 T)) false 8 6 _ stampedXlat
    (show (0x2000 : W64).toNat % 4 = 0 by decide) (pair_of e) rfl rfl k1 k2 (by decide)
  have old := fun (vs : List Version) (T : Nat) e k1 k2 a b c d f => lda (versionState vs) T e k1 k2 (.inr (seen_in (s := versionState vs) (m := .read) a b c d f))
  refine ⟨sts_at h calmState true (by decide +kernel) (by decide +kernel) (seen_in (by decide +kernel) (by decide +kernel) (by decide +kernel) (by decide +kernel) rfl),
    sts_at h wideState false (by decide +kernel) (by decide +kernel) (interval_out (by decide +kernel) (by decide +kernel) (by decide +kernel) (by decide +kernel) (by decide +kernel)), ?_, ?_, ?_, ?_, ?_, ?_, ?_⟩
  · exact res_of (h.2.1 stamped richWho (laneAt 0x2000 []) 4 0 false false .th _ stampedXlat (by decide) (pair_of (by decide +kernel)) rfl rfl (by decide +kernel)
      (by decide +kernel) (by decide +kernel)).1 (by decide +kernel)
  · exact res_of (h.2.1 stamped richWho (laneAt 0x2000 []) 4 0 false false .dv _ stampedXlat (by decide) (pair_of (by decide +kernel)) rfl rfl (by decide +kernel)
      (by decide +kernel) (by decide +kernel)).2 (by decide +kernel)
  · obtain ⟨s', e, _⟩ := (old [] 6 (by decide +kernel) (by decide +kernel) (by decide +kernel) (by decide +kernel) (by decide +kernel) (by decide +kernel) (by decide +kernel) rfl).1 (by decide +kernel)
    exact res_of e (by decide +kernel)
  · obtain ⟨s', e, _⟩ := ((old [] 5 (by decide +kernel) (by decide +kernel) (by decide +kernel) (by decide +kernel) (by decide +kernel) (by decide +kernel) (by decide +kernel) rfl).2 (by decide +kernel)).1
      (by decide +kernel) (by decide +kernel)
    exact res_of e (by decide +kernel)
  · obtain ⟨s', e, _⟩ := ((lda waitedState 0 (by decide +kernel) (by decide +kernel) (by decide +kernel) (.inl (by decide +kernel))).2 (by decide +kernel)).1
      (by decide +kernel) (by decide +kernel)
    exact res_of e (by decide +kernel)
  · obtain ⟨s', e, _⟩ := ((old [oldVersion] 4 (by decide +kernel) (by decide +kernel) (by decide +kernel) (by decide +kernel) (by decide +kernel) (by decide +kernel) (by decide +kernel) rfl).2 (by decide +kernel)).2.1
      oldVersion (by decide +kernel) (by decide +kernel) (by decide +kernel) rfl (by decide +kernel) (by decide +kernel)
    exact res_of e (by decide +kernel)
  · obtain ⟨s', e, _⟩ := ((old [oldVersion] 1 (by decide +kernel) (by decide +kernel) (by decide +kernel) (by decide +kernel) (by decide +kernel) (by decide +kernel) (by decide +kernel) rfl).2 (by decide +kernel)).2.2
      (by decide +kernel) (by decide +kernel)
    exact res_of e (by decide +kernel)

/-- The same state with a poisoned word in the team's scratchpad. -/
abbrev spoiltLevel : State := { rich with teams := [(teamNo, { richTeam with spadBad := [0xFFC / 4] })] }

theorem witness_LevelMemory (h : Obligations.LevelMemory) :
    rich.levelLane richWho richTeam .spad (.load 4 false) (laneAt 0x2 []) = (rich, .fault .align 0 2) ∧
    rich.levelLane richWho richTeam .spad (.store 4) (laneAt 0x1000 []) = (rich, .fault .prot 0 0x1000) ∧
    rich.levelLane richWho richTeam .spad (.load 4 false) (laneAt 0xFFC []) = (rich, .done [0]) ∧
    (∃ s', rich.levelLane richWho richTeam .spad (.store 4) (laneAt 0xFFC [1, 2, 3, 4]) = (s', .done [])) ∧
    (∃ s' v, rich.levelLane richWho richTeam .spad (.atom .addB64) (laneAt 0xFF8 (leBytes 8 1)) = (s', .done v)) ∧
    spoiltLevel.levelLane richWho richTeam .spad (.atom .addB64) (laneAt 0xFF8 (leBytes 8 1)) = (spoiltLevel, .fault .ecc 0 0xFF8) ∧
    (∃ s' v, rich.levelLane richWho richTeam .spad (.cas .b64) (laneAt 0xFF8 (leBytes 16 1)) = (s', .done v)) ∧
    spoiltLevel.levelLane richWho richTeam .spad (.cas .b64) (laneAt 0xFF8 (leBytes 16 1)) = (spoiltLevel, .fault .ecc 0 0xFF8) ∧
    (AccKind.cas .b32).newBytes [1, 2, 3, 4] ([1, 2, 3, 4] ++ [5, 6, 7, 8]) = some [5, 6, 7, 8] ∧
    (AccKind.cas .b32).newBytes [1, 2, 3, 0] ([1, 2, 3, 4] ++ [5, 6, 7, 8]) = none :=
  ⟨(h rich richWho richTeam .spad _).1 (.load 4 false) (by decide), (h rich richWho richTeam .spad _).2.1 (.store 4) (by decide) (by decide),
    (h rich richWho richTeam .spad _).2.2.1 4 false ⟨by decide, by decide, fun e => nomatch e⟩,
    ⟨_, (h rich richWho richTeam .spad _).2.2.2.1 4 ⟨by decide, by decide, fun e => nomatch e⟩⟩,
    ⟨_, _, (h rich richWho richTeam .spad _).2.2.2.2.2.1 (.atom .addB64) (.inl ⟨_, rfl⟩) ⟨by decide, by decide, fun e => nomatch e⟩ (by decide)⟩,
    (h spoiltLevel richWho richTeam .spad (laneAt 0xFF8 (leBytes 8 1))).2.2.2.2.1 (.atom .addB64) (.inl ⟨_, rfl⟩) ⟨by decide, by decide, fun e => nomatch e⟩ (by decide +kernel),
    ⟨_, _, (h rich richWho richTeam .spad _).2.2.2.2.2.1 (.cas .b64) (.inr ⟨_, rfl⟩) ⟨by decide, by decide, fun e => nomatch e⟩ (by decide)⟩,
    (h spoiltLevel richWho richTeam .spad (laneAt 0xFF8 (leBytes 16 1))).2.2.2.2.1 (.cas .b64) (.inr ⟨_, rfl⟩) ⟨by decide, by decide, fun e => nomatch e⟩ (by decide +kernel),
    (h rich richWho richTeam .spad (laneAt 0 [])).2.2.2.2.2.2 .b32 [1, 2, 3, 4] [1, 2, 3, 4] [5, 6, 7, 8] rfl rfl rfl,
    (h rich richWho richTeam .spad (laneAt 0 [])).2.2.2.2.2.2 .b32 [1, 2, 3, 0] [1, 2, 3, 4] [5, 6, 7, 8] rfl rfl rfl⟩

/-! ### Control, traps, work -/

/-- One thread, with one return entry. -/
abbrev soloCourse : Course := { courseOf 1 (vals [(2, 0x2000), (4, 2)]) with threads := [(0, { pc := 0x1000, stack := [0x2004] })] }
abbrev soloTeam : Team := { teamOf soloCourse with bins := { entry := 0x2000, tasks := [{ entry := 0x2000, args := [] }] } :: List.replicate 7 {} }
abbrev soloState : State := { rich with teams := [(teamNo, soloTeam)], issue := issueOf 1 1 }
theorem solo : Solo soloState soloTeam 0 0 := ⟨⟨lifted_of rfl (by decide +kernel), by decide, by decide⟩, rfl, rfl⟩

/-- A full stack of four, or one entry below which memory holds more, or an empty stack. -/
abbrev stackTeam (st : List W64) (sp : W64) : Team := teamOf { soloCourse with threads := [(0, { pc := 0x1000, stack := st, sp := sp })] }
abbrev stackState (st : List W64) (sp : W64) : State := { rich with teams := [(teamNo, stackTeam st sp)], issue := issueOf 1 1 }
abbrev four : List W64 := [0x2004, 0x2104, 0x2204, 0x2304]
theorem use_done {r : State × LaneRes} {P : Prop} (hd : isDone r.2 = true) (k : ∀ s1 v, r = (s1, .done v) → P) : P := by
  obtain ⟨v, e⟩ := of_isDone hd
  exact k r.1 v (by rw [← e])

theorem witness_BranchesCallsAndSpill (h : Obligations.BranchesCallsAndSpill) :
    (∃ s', exec (.br (.p 11) true 0x40000) demo = .next s') ∧ (∃ s', exec (.call .always false 0x3FFFF) demo = .next s') ∧
    (∃ s', exec (.icall (.reg 2 false)) soloState = .next s') ∧ (∃ s', exec .ret soloState = .next s') ∧
    (∃ s', exec .ret (stackState [] 0) = .next s') ∧ (∃ s', exec (.call .always false 1) (stackState four 7) = .next s') ∧
    (∃ s', exec (.call .always false 1) (stackState four 9) = .next s') ∧ (∃ s', exec (.call .always false 1) (stackState four 0x3000) = .next s') ∧
    (∃ s', exec .ret (stackState [0x2005] 0x2FF8) = .next s') ∧ (∃ s', exec (.icall (.reg 2 false)) (stackState four 7) = .next s') ∧
    (∃ s', exec (.icall (.reg 2 false)) (stackState four 9) = .next s') ∧ ∃ s', exec (.icall (.reg 2 false)) (stackState four 0x3000) = .next s' := by
  have h7 : Solo (stackState four 7) (stackTeam four 7) 0 0 := ⟨⟨lifted_of rfl (by decide +kernel), by decide, by decide⟩, rfl, rfl⟩
  have h9 : Solo (stackState four 9) (stackTeam four 9) 0 0 := ⟨⟨lifted_of rfl (by decide +kernel), by decide, by decide⟩, rfl, rfl⟩
  have h3 : Solo (stackState four 0x3000) (stackTeam four 0x3000) 0 0 := ⟨⟨lifted_of rfl (by decide +kernel), by decide, by decide⟩, rfl, rfl⟩
  have hr : Solo (stackState [0x2005] 0x2FF8) (stackTeam [0x2005] 0x2FF8) 0 0 := ⟨⟨lifted_of rfl (by decide +kernel), by decide, by decide⟩, rfl, rfl⟩
  have h0 : Solo (stackState [] 0) (stackTeam [] 0) 0 0 := ⟨⟨lifted_of rfl (by decide +kernel), by decide, by decide⟩, rfl, rfl⟩
  refine ⟨?_, ?_, ?_, ?_, ?_, ?_, ?_, ?_, ?_, ?_, ?_, ?_⟩
  · obtain ⟨s', e, _⟩ := (h.1 (.p 11) true 0x40000 (.lit 0)).1 demo team2 demo_lifted
    exact ⟨s', e⟩
  · obtain ⟨s', e, _⟩ := (h.1 .always false 0x3FFFF (.lit 0)).2.1 demo team2 demo_lifted (by decide +kernel)
    exact ⟨s', e⟩
  · obtain ⟨s', e, _⟩ := (h.1 .always false 0 (.reg 2 false)).2.2.1 soloState soloTeam (by decide) solo.one.lifted (by unfold Readable; decide +kernel) (by decide +kernel)
    exact ⟨s', e⟩
  · obtain ⟨s', e, _⟩ := (h.1 .always false 0 (.lit 0)).2.2.2.1 soloState soloTeam solo.one.lifted (by
      intro m hm
      have e : soloState.issue.parts = [(0, 0)] := by decide
      rw [e, List.mem_singleton] at hm
      subst hm
      exact ⟨0x2004, by decide +kernel, by decide⟩)
    exact ⟨s', e⟩
  · exact ⟨_, (h.1 .always false 0 (.lit 0)).2.2.2.2 _ _ 0 0 h0 (by decide +kernel)⟩
  · exact ⟨_, ((h.2 .always false 1 _ _ 0 0 h7).1 (by decide +kernel) (by decide +kernel)).1 (by decide +kernel)⟩
  · exact ⟨_, ((h.2 .always false 1 _ _ 0 0 h9).1 (by decide +kernel) (by decide +kernel)).2.1 (by decide +kernel) (by decide +kernel)⟩
  · exact use_done (by decide +kernel) fun s1 v e => ⟨_, ((h.2 .always false 1 _ _ 0 0 h3).1 (by decide +kernel) (by decide +kernel)).2.2 s1 v (by decide +kernel)
      (by decide +kernel) (by decide +kernel) e⟩
  · exact use_done (by decide +kernel) fun s1 v e => ⟨_, (h.2 .always false 1 _ _ 0 0 hr).2.2 0x2005 s1 v (by decide +kernel) (by decide) (by decide +kernel) e⟩
  · exact ⟨_, ((h.2 .always false 1 _ _ 0 0 h7).2.1 (.reg 2 false) (by decide) (by unfold Readable; decide +kernel) (by decide +kernel) (by decide +kernel)).1 (by decide +kernel)⟩
  · exact ⟨_, ((h.2 .always false 1 _ _ 0 0 h9).2.1 (.reg 2 false) (by decide) (by unfold Readable; decide +kernel) (by decide +kernel) (by decide +kernel)).2.1
      (by decide +kernel) (by decide +kernel)⟩
  · exact use_done (by decide +kernel) fun s1 v e => ⟨_, ((h.2 .always false 1 _ _ 0 0 h3).2.1 (.reg 2 false) (by decide) (by unfold Readable; decide +kernel) (by decide +kernel)
      (by decide +kernel)).2.2 s1 v (by decide +kernel) (by decide +kernel) (by decide +kernel) e⟩

theorem witness_Rendezvous (h : Obligations.Rendezvous) :
    (∃ s', exec .join demo = .next s') ∧ (∃ s', exec .conv demo = .next s') ∧ (∃ s', exec (.repack 63) demo = .next s') ∧
    (({ course2 with threads := [(0, { pc := 0x1000, wait := .join }), (1, { pc := 0x1000, wait := .join })] } : Course).meet 7).2 = true ∧
    (course2.meet 7).2 = false :=
  ⟨(let ⟨_, e, _⟩ := h.1 demo team2 demo_lifted; ⟨_, e⟩), (let ⟨_, e, _⟩ := h.2.1 demo team2 demo_lifted; ⟨_, e⟩),
    (let ⟨_, e, _⟩ := h.2.2.1 63 demo team2 demo_lifted; ⟨_, e⟩),
    ((h.2.2.2 _ 7 0x1000 (by decide)).1 (.inl (by decide))).1, by rw [(h.2.2.2 course2 7 0x1000 (by decide)).2 (by decide)]⟩

theorem witness_Forks (h : Obligations.Forks) :
    (∃ s', exec (.fork 6 (.lit 65537)) soloState = .next s') ∧ (∃ s', exec (.fork 6 (.special (.int 0))) soloState = .next s') ∧
    (∃ s', exec (.fork 6 (.special (.int 1))) soloState = .next s') ∧ (∃ s', exec (.fork 6 (.reg 4 false)) soloState = .next s') ∧
    (∃ s', exec (.fork 63 (.special (.int 31))) soloState = .next s') ∧
    (packCourse ((List.range 32).map fun j => ({ (copyOf soloCourse 0 {pc := 0x1000} 0x1004 6 0) with
      thread := { (copyOf soloCourse 0 {pc := 0x1000} 0x1004 6 0).thread with ords := (copyOf soloCourse 0 {pc := 0x1000} 0x1004 6 0).thread.ords ++ [BitVec.ofNat 16 j] },
      ordinal := j } : Newborn)) 0).live = List.range 32 := by
  have go : ∀ a, WellFormed (.fork 6 a) = true → Readable soloState soloTeam [(.b32, a)] →
      _ := fun a wf rd => h.1 6 a soloState soloTeam 0 0 richSlice wf solo rd (by decide +kernel) (by decide +kernel)
  refine ⟨⟨_, (go (.lit 65537) (by decide) (by unfold Readable; decide +kernel)).1 (by decide +kernel)⟩,
    ⟨_, (go (.special (.int 0)) (by decide) (by unfold Readable; decide +kernel)).2.1 (by decide +kernel)⟩, ?_,
    ⟨_, (go (.reg 4 false) (by decide) (by unfold Readable; decide +kernel)).2.2.2.2 (by decide +kernel) (by decide +kernel) (by decide +kernel) (by decide +kernel) (by decide +kernel)⟩,
    ⟨_, (h.1 63 (.special (.int 31)) soloState soloTeam 0 0 richSlice (by decide) solo (by unfold Readable; decide +kernel) (by decide +kernel) (by decide +kernel)).2.2.2.2
      (by decide +kernel) (by decide +kernel) (by decide +kernel) (by decide +kernel) (by decide +kernel)⟩,
    (h.2 (copyOf soloCourse 0 {pc := 0x1000} 0x1004 6 0) 32 6 0 (by decide) (by decide) (by decide) (by decide)).1⟩
  obtain ⟨s', e, _⟩ := (go (.special (.int 1)) (by decide) (by unfold Readable; decide +kernel)).2.2.1 (by decide +kernel)
  exact ⟨s', e⟩

/-- Two threads with roots 0 and 1, of which the second is at its emit, and `n` emissions in the window. -/
abbrev emitTeam (n : Nat) : Team :=
  { teamOf { courseOf 2 (vals [(4, 2)]) with threads := [(0, { pc := 0x1000 }), (1, { pc := 0x1000, root := 1 })] } with
    emits := (List.range n).map fun k => ⟨1, [], 0, k, []⟩ }
abbrev emitState (n : Nat) : State := { rich with teams := [(teamNo, emitTeam n)], issue := { issueOf 1 1 with lift := [(0, 1)], parts := [(0, 1)] } }

/-- An entry of its own key is still in the window: it waits for a stamped store. -/
abbrev behindTeam : Team := { soloTeam with emits := [⟨0, [], 0, 0, [7]⟩] }
abbrev behindState : State :=
  { soloState with teams := [(teamNo, behindTeam)], stores := [{ id := 7, part := 0, dom := .package, die := 0, stamp := 5, pieces := [], va := 0x2000 }] }

theorem witness_EmitUnit (h : Obligations.EmitUnit) :
    (∃ s', exec (.emitB64 (.reg 4 false)) soloState = .next s') ∧ (∃ s', exec (.emitB64 (.reg 4 false)) behindState = .next s') ∧
    (∃ s', exec (.emitB32 (.reg 4 false)) (emitState 3) = .next s') ∧ ∃ s', exec (.emitB32 (.reg 4 false)) (emitState 256) = .next s' := by
  have e3 : Solo (emitState 3) (emitTeam 3) 0 1 := ⟨⟨lifted_of rfl (by decide +kernel), by decide, by decide⟩, rfl, rfl⟩
  have e256 : Solo (emitState 256) (emitTeam 256) 0 1 := ⟨⟨lifted_of rfl (by decide +kernel), by decide, by decide⟩, rfl, rfl⟩
  have eb : Solo behindState behindTeam 0 0 := ⟨⟨lifted_of rfl (by decide +kernel), by decide, by decide⟩, rfl, rfl⟩
  have first {t : Team} {q : Key} (e : t.lowest [] = some q) (lt : keyLt q q = false) : ∀ k, t.lowest [] = some k → keyLt k q = false := by
    intro k hk
    rw [e] at hk
    cases hk
    exact lt
  refine ⟨⟨_, (h true (.reg 4 false) soloState soloTeam 0 0 (by decide) solo (by unfold Readable; decide +kernel) (by decide +kernel)).1
      (first (by decide +kernel) (by decide +kernel)) (by decide +kernel) ?_⟩,
    ⟨_, (h true (.reg 4 false) behindState behindTeam 0 0 (by decide) eb (by unfold Readable; decide +kernel) (by decide +kernel)).2.1
      (first (by decide +kernel) (by decide +kernel)) (by decide +kernel) ⟨behindTeam, by decide +kernel, ⟨0, [], 0, 0, [7]⟩, by decide, by decide +kernel⟩⟩,
    ⟨_, (h false (.reg 4 false) (emitState 3) (emitTeam 3) 0 1 (by decide) e3 (by unfold Readable; decide +kernel) (by decide +kernel)).2.2.1 ?_ (by decide +kernel)⟩,
    ⟨_, (h false (.reg 4 false) (emitState 256) (emitTeam 256) 0 1 (by decide) e256 (by unfold Readable; decide +kernel) (by decide +kernel)).2.2.2 ?_ (by decide +kernel)⟩⟩
  · rintro ⟨t', a, e, m, _⟩
    have n : (FMap.get ((soloState.released soloTeam).commitWindow soloState.issue.team []).teams soloState.issue.team).map Team.emits = some [] := by decide +kernel
    rw [a] at n
    cases Option.some.inj n ▸ m
  all_goals
    intro all
    have e := all ((emitTeam 0).course 0 |>.thread 0).key (by decide +kernel)
    revert e
    decide +kernel

abbrev handlerTeam : Team := teamOf { soloCourse with threads := [(0, { pc := 0x5000, inHandler := true, tpc := 0x1008 })] }
abbrev handlerSlice : Slice := { richSlice with record := putBytes richSlice.record 0x78 (leBytes 8 0x10004) }
abbrev handlerState : State := { rich with slices := [(sliceKey 0 1, handlerSlice)],
                                           teams := [(teamNo, handlerTeam)], issue := issueOf 1 1 }

theorem witness_TrapsAndReturns (h : Obligations.TrapsAndReturns) :
    (∃ s', exec (.bkpt 255) demo = .next s') ∧ (∃ s', exec (.trap 0) demo = .next s') ∧
    (∃ th', (soloState.deliver [{ course := 0, lane := 0, code := .align, addr := some 5 }]).threadAt teamNo 0 0 = some th' ∧ th'.faultaddr = 5) ∧
    (∃ th', (soloState.deliver [{ course := 0, lane := 0, code := .brk, done := true }]).threadAt teamNo 0 0 = some th' ∧ th'.pc = 0x1004) ∧
    (∃ s', exec .rett soloState = .next s') ∧ (∃ s' th', exec .rett handlerState = .next s' ∧ s'.threadAt teamNo 0 0 = some th' ∧ th'.pc = 0x1008) ∧
    (∃ s', exec (.guardPrefix (.p 3) true) demo = .next s') := by
  have hs : Solo handlerState handlerTeam 0 0 := ⟨⟨lifted_of rfl (by decide +kernel), by decide, by decide⟩, rfl, rfl⟩
  refine ⟨?_, ?_, ?_, ?_, ⟨_, h.2.2.1 soloState soloTeam 0 0 solo (by decide +kernel)⟩, ?_, ⟨_, h.2.2.2 (.p 3) true demo team2 (by decide +kernel)⟩⟩
  · obtain ⟨_, e, _⟩ := h.1.1 true 255 demo team2 0 demo_one
    exact ⟨_, e⟩
  · obtain ⟨_, e, _⟩ := h.1.1 false 0 demo team2 0 demo_one
    exact ⟨_, e⟩
  · obtain ⟨s', th', e, a, _, b, _⟩ := h.1.2.1 soloState soloTeam richSlice { course := 0, lane := 0, code := .align, addr := some 5 } { pc := 0x1000, stack := [0x2004] }
      (by decide +kernel) (by decide +kernel) (by decide +kernel) (by decide)
    subst e
    exact ⟨th', a, b⟩
  · obtain ⟨s', th', token, e, a, _, b, _⟩ := h.1.2.2 soloState soloTeam { course := 0, lane := 0, code := .brk, done := true } { pc := 0x1000, stack := [0x2004] }
      (by decide +kernel) (by decide +kernel) (by decide)
    subst e
    exact ⟨th', a, b⟩
  · have go : ∀ x : State × Option (List Byte), ((handlerState.onCourse teamNo 0 fun y => y.dropLatch 2 [0]).teamRead teamNo
        (Slice.trapRecord handlerSlice handlerTeam.index 0 0) 1024) = x → x.2.isSome = true → ∃ s' th', exec .rett handlerState = .next s' ∧
          s'.threadAt teamNo 0 0 = some th' ∧ th'.pc = 0x1008 := by
      intro x hx rd
      obtain ⟨s1, o⟩ := x
      obtain ⟨b, rfl⟩ := of_isSome (o := o) rd
      obtain ⟨s', th', x, y, z, _⟩ := h.2.1 handlerState handlerTeam handlerSlice 0 0 b s1 hs (by decide +kernel) (by decide +kernel) hx
      exact ⟨s', th', x, y, z⟩
    exact go _ rfl (by decide +kernel)

/-! ### The matrix engine -/

theorem mat_at {i : Instr} {srcs : List Operand} {block : List Nat} {last : Bool} {regs : List Nat}
    {work : State → Team → Nat → Option (State × (Nat → Nat → W32))} (h : MatUnit i srcs block last regs work) (wf : WellFormed i = true)
    {s : State} {t : Team} {c : Nat} (whole : WholeCourse s t c) (rd : Readable s t srcs)
    (done : ((work s t c).bind fun r => FMap.get r.1.teams s.issue.team).isSome = true) : ∃ s', exec i s = .next s' := by
  obtain ⟨t1, e⟩ := of_isSome done
  obtain ⟨⟨s1, val⟩, e1, e2⟩ := Option.bind_eq_some_iff.mp e
  obtain ⟨s', x, _⟩ := h wf s t c s1 val t1 whole rd e1 e2
  exact ⟨s', x⟩

/-- A course of two threads that holds `n` tiles, in a slice that allows four; register 4 holds 2, register 5 nothing. -/
abbrev tileSlice : Slice := { richSlice with record := putBytes richSlice.record 0x38 (leBytes 8 (1 + 2 ^ 24 + 2 ^ 35 + 4 * 2 ^ 46)) }
abbrev tileCourse (n : Nat) : Course := { courseOf 2 (vals [(4, 2)]) with tiles := List.replicate n zeroTile }
abbrev tileTeam (n : Nat) : Team := teamOf (tileCourse n)
abbrev tileState (n : Nat) : State := { demo with slices := [(sliceKey 0 1, tileSlice)], teams := [(teamNo, tileTeam n)] }
theorem tile0 : WholeCourse (tileState 0) (tileTeam 0) 0 := ⟨⟨lifted_of rfl (by decide +kernel), by decide, by decide⟩, rfl, by decide +kernel⟩
theorem tile2 : WholeCourse (tileState 2) (tileTeam 2) 0 := ⟨⟨lifted_of rfl (by decide +kernel), by decide, by decide⟩, rfl, by decide +kernel⟩

theorem witness_Tiles (h : Obligations.Tiles) :
    (∃ s', exec (.tileAlloc (.reg 4 false)) (tileState 0) = .next s') ∧ (∃ s', exec .tileFree (tileState 2) = .next s') ∧
    (∃ s', exec (.tileZero 1) (tileState 2) = .next s') ∧ (∃ s', exec (.tileFill .f32 1 16 true (.special (.int 3))) (tileState 2) = .next s') :=
  ⟨mat_at (h.1.1 (.reg 4 false)) (by decide) tile0 (by unfold Readable; decide +kernel) (by decide +kernel),
    mat_at h.1.2.1 (by decide) tile2 (by unfold Readable; decide +kernel) (by decide +kernel),
    mat_at (h.1.2.2.1 1) (by decide) tile2 (by unfold Readable; decide +kernel) (by decide +kernel),
    mat_at (h.1.2.2.2 .f32 1 16 true _) (by decide) tile2 (by unfold Readable; decide +kernel) (by decide +kernel)⟩

theorem nth_replicate {α : Type} (v : α) (n i : Nat) : nth (List.replicate n v) i v = v := by
  induction n generalizing i with
  | zero => rfl
  | succ n ih =>
    cases i with
    | zero => rfl
    | succ i => exact ih i
theorem zero_line : lineFails (List.replicate 32 0) 0 0 0 = false := by decide +kernel
theorem check_none (t : Tile) (c : ∀ j, lineFails (t.col j) (nth t.cr j 0) (nth t.mc j 0) t.p = false)
    (r : ∀ j, lineFails (t.row j) (nth t.cc j 0) (nth t.mr j 0) t.p = false) : t.check = none := by
  unfold Tile.check
  rw [List.find?_eq_none.mpr fun j _ => by rw [c j]; decide, List.find?_eq_none.mpr fun j _ => by rw [r j]; decide]
  rfl
theorem zero_check : zeroTile.check = none := by
  have col (j : Nat) : zeroTile.col j = List.replicate 32 0 := by
    simp only [Tile.col, zeroTile, nth_replicate]
    rfl
  have row (j : Nat) : zeroTile.row j = List.replicate 32 0 := by
    simp only [Tile.row, zeroTile, nth_replicate]
    rfl
  have z (j : Nat) : nth (List.replicate 32 (0 : W64)) j 0 = 0 := nth_replicate 0 32 j
  refine check_none zeroTile (fun j => ?_) fun j => ?_
  · rw [col]
    exact (congrArg₂ (fun x y => lineFails (List.replicate 32 0) x y 0) (z j) (z j)).trans zero_line
  · rw [row]
    exact (congrArg₂ (fun x y => lineFails (List.replicate 32 0) x y 0) (z j) (z j)).trans zero_line
theorem held_zero0 : (tileState 2).heldTile (tileTeam 2) 0 (0 : Fin 16).val = some zeroTile := rfl
theorem held_zero1 : (tileState 2).heldTile (tileTeam 2) 0 (1 : Fin 16).val = some zeroTile := rfl

theorem team_there : (FMap.get (tileState 2).teams (tileState 2).issue.team).isSome = true := by decide +kernel

theorem witness_Tiles_drains (h : Obligations.Tiles) :
    (∃ s', exec (.tileDrainF64 0 48 (.special (.int 3))) (tileState 2) = .next s') ∧ (∃ s', exec (.tileDrainF32 1 0 (.special (.int 1))) (tileState 2) = .next s') ∧
    (∃ s', exec (.tileDrainBf16 1 0 (.special (.int 0))) (tileState 2) = .next s') ∧ (∃ s', exec (.tileQdrainMxf8 1 16 40) (tileState 2) = .next s') ∧
    (∃ s', exec (.tileQdrainMxf6 1 16 40) (tileState 2) = .next s') ∧ (∃ s', exec (.tileQdrainMxf4 1 16 40) (tileState 2) = .next s') ∧
    ∃ s', exec (.tileQdrainMxi8 0 16 40) (tileState 2) = .next s' := by
  refine ⟨mat_at (h.2.1 0 48 _) (by decide) tile2 (by unfold Readable; decide +kernel) ?_,
    mat_at (h.2.2.1 1 0 _) (by decide) tile2 (by unfold Readable; decide +kernel) ?_,
    mat_at (h.2.2.2.1 1 0 _) (by decide) tile2 (by unfold Readable; decide +kernel) ?_,
    mat_at (h.2.2.2.2.1 1 16 40) (by decide) tile2 (by unfold Readable; decide +kernel) ?_,
    mat_at (h.2.2.2.2.2.1 1 16 40) (by decide) tile2 (by unfold Readable; decide +kernel) ?_,
    mat_at (h.2.2.2.2.2.2.1 1 16 40) (by decide) tile2 (by unfold Readable; decide +kernel) ?_,
    mat_at (h.2.2.2.2.2.2.2 0 16 40) (by decide) tile2 (by unfold Readable; decide +kernel) ?_⟩
  all_goals
    first
      | rw [held_zero0]
      | rw [held_zero1]
    simp only [zero_check, ↓reduceIte, Option.bind_some]
    exact team_there

/-- A request of the course's whole lift, whose threads wait for its acceptance. -/
abbrev passRequest : Request := { who := ⟨teamNo, 0⟩, f := .bf16, tile := 0, aBase := 0, bBase := 16, aLast := false, bLast := false, sparse := false, unitAddr := 0x1000, unitLen := 4 }
abbrev passTeam : Team := teamOf { tileCourse 2 with threads := (List.range 2).map fun l => (l, { pc := 0x1000, wait := .pass }) }
abbrev passState : State := { tileState 2 with teams := [(teamNo, passTeam)], clusters := [(0, { requests := [passRequest] })] }
abbrev workState : State := { passState with clusters := [(0, { work := [(⟨teamNo, 0⟩, .pass .bf16 0 [] [] none)] })] }
abbrev poolTeam : Team := teamOf { tileCourse 0 with threads := (List.range 2).map fun l => (l, { pc := 0x1000, wait := .tilePool }), tileWait := 3 }
abbrev poolState : State := { tileState 2 with teams := [(teamNo, poolTeam)], clusters := [(0, { pool := [⟨teamNo, 0⟩], freeTiles := 3 })] }

theorem witness_MatrixPasses (h : Obligations.MatrixPasses) :
    (∃ s', exec (.mma 1 .bf16 0 16 false true) (tileState 2) = .next s') ∧ (∃ s', exec (.mmaSp 1 .e4m3 0 16 false true) (tileState 2) = .next s') ∧
    (∃ s', exec (.passAcceptance 0) passState = .next s') ∧ (∃ s', exec (.passApplied 0) workState = .next s') ∧
    ∃ s', exec (.tilePoolGrant 0) poolState = .next s' := by
  refine ⟨⟨_, (h.1 1 .bf16 0 16 false true false (tileState 2) (tileTeam 2) 0 tile2 (by decide) (by decide)).2 (.inl rfl)⟩, ?_, ?_, ?_, ?_⟩
  · obtain ⟨s', e, _⟩ := (h.1 1 .e4m3 0 16 false true true (tileState 2) (tileTeam 2) 0 tile2 (by decide) (by decide)).1 rfl (by decide +kernel) (by decide)
    exact ⟨s', e⟩
  · obtain ⟨s', e, _⟩ := h.2.1 0 passState passRequest passTeam _ (by decide +kernel) (by decide +kernel) rfl rfl
    exact ⟨s', e⟩
  · obtain ⟨s', _, e, _⟩ := h.2.2.1 0 workState ⟨teamNo, 0⟩ .bf16 0 [] [] none [] passTeam _ zeroTile rfl rfl rfl rfl
    exact ⟨s', e⟩
  · obtain ⟨s', _, _, e, _⟩ := h.2.2.2 0 poolState ⟨teamNo, 0⟩ [] poolTeam _ rfl rfl rfl rfl (by decide +kernel)
    exact ⟨s', e⟩

theorem witness_PassArithmetic (h : Obligations.PassArithmetic) :
    (zeroTile.pass .bf16 (List.replicate 32 (List.replicate 8 0)) (List.replicate 32 (List.replicate 8 0)) none).p = 1 ∧
    ∃ f : MFmt, f.exactPass = true := by
  have e := (h zeroTile .bf16 (List.replicate 32 (List.replicate 8 0)) (List.replicate 32 (List.replicate 8 0)) 31 0 (by decide) (by decide) (by decide) (by decide +kernel)
    (by decide) (by decide)).2
  exact ⟨e, .bf16, by decide⟩

/-! ### Events -/

/-- One thread at rest in course 0 of the test team, as given, and the team with it. -/
abbrev restCourse (th : Thread) : Course := { courseOf 1 (vals [(2, 0x2000), (4, 2)]) with threads := [(0, th)], convs := [(0x1000, 0)] }
abbrev restTeam (th : Thread) : Team := { teamOf (restCourse th) with bins := { entry := 0x2000, tasks := [{ entry := 0x2000, args := [] }], timer := 0 } :: List.replicate 7 {} }
abbrev restState (th : Thread) : State := { rich with teams := [(teamNo, restTeam th)], issue := {} }
abbrev restRef : ThreadRef := ⟨teamNo, 0, 0⟩

theorem witness_TimersRunOut (h : Obligations.TimersRunOut) :
    (∃ s', exec (.sleepExpiry restRef) (restState { pc := 0x1000, wait := .sleep 0 }) = .next s') ∧
    (∃ s', exec (.mwaitTimeout restRef) (restState { pc := 0x1000, wait := .mwait 63 (some 0) }) = .next s') ∧
    (∃ s', exec (.convTimeout ⟨teamNo, 0⟩ 0x1000) (restState { pc := 0x1000, wait := .conv }) = .next s') ∧
    (∃ s', exec (.waitSentinel restRef) (restState { pc := 0x1000, wait := .commit, sentinel := 2 ^ 40 }) = .next s') ∧
    ∃ s', exec (.spawnTimerExpiry teamNo 0) (restState { pc := 0x1000 }) = .next s' := by
  refine ⟨?_, ?_, ?_, ?_, ?_⟩
  · obtain ⟨s', e, _⟩ := (h (restState { pc := 0x1000, wait := .sleep 0 }) restRef _ _ _ rfl rfl rfl).1 rfl
    exact ⟨s', e⟩
  · obtain ⟨s', _, e, _⟩ := (h (restState { pc := 0x1000, wait := .mwait 63 (some 0) }) restRef _ _ _ rfl rfl rfl).2.1 63 rfl (by decide) (by decide +kernel)
    exact ⟨s', e⟩
  · obtain ⟨s', e, _⟩ := (h (restState { pc := 0x1000, wait := .conv }) restRef _ _ _ rfl rfl rfl).2.2.1 0x1000 rfl
    exact ⟨s', e⟩
  · obtain ⟨s', _, _, e, _⟩ := (h (restState { pc := 0x1000, wait := .commit, sentinel := 2 ^ 40 }) restRef _ _ _ rfl rfl rfl).2.2.2.1 rfl (by decide +kernel) (by decide +kernel)
    exact ⟨s', e⟩
  · exact ⟨_, (h (restState { pc := 0x1000 }) restRef _ _ _ rfl rfl rfl).2.2.2.2 0 (by decide +kernel)⟩

/-- Two words of load data for the one thread of the course. -/
abbrev loadedCourse : Course :=
  { courseOf 1 (vals [(4, 2)]) with loads := [{ dest := 62, wide := true, full := true, oneRead := true, lanes := [0], vals := [[7, 8]], latch := true }] }
abbrev loadedState : State := { rich with teams := [(teamNo, teamOf loadedCourse)], issue := {} }

/-- A core with a dirty byte, and a stamped store at its home that may become visible. -/
abbrev dirtyState : State := { rich with cores := [(0, { l1 := [(lineOf 0x40002080, { valid := [(0, 9), (1, 3)], dirty := [0] })] })] }
abbrev pendingStore : StampedStore :=
  { id := 3, part := 0, dom := .package, die := 0, stamp := 5, pieces := [⟨none, 0x40002000, [1, 2, 3, 4]⟩], va := 0x2000, held := true, who := [restRef] }
abbrev storeState : State := { rich with stores := [pendingStore], lineStamp := [(lineOf 0x40002000, 5)], dies := List.replicate 4 { wPackage := 5 } }
abbrev shownState : State := { rich with stores := [{ pendingStore with visible := true }] }

theorem witness_MemoryEvents (h : Obligations.MemoryEvents) :
    (∃ s', exec (.loadComplete ⟨teamNo, 0⟩) loadedState = .next s') ∧
    (∃ s', exec (.writeBackPerformed 0 (lineOf 0x40002080)) dirtyState = .next s' ∧ s'.mem.read 0x40002080 = 9) ∧
    (∃ s', exec (.stampedStoreHeldPending 3) storeState = .next s') ∧ (∃ s', exec (.stampedStoreVisible 3) storeState = .next s') ∧
    (∃ s', exec (.visibilityReport 3) shownState = .next s') ∧ (∃ s', exec (.watermarkRefresh 3 .domain) rich = .next s') := by
  refine ⟨?_, ?_, ⟨_, h.2.2.1 storeState 3⟩, ?_, ?_, ?_⟩
  · obtain ⟨s', _, e, _⟩ := h.1 loadedState ⟨teamNo, 0⟩ _ loadedCourse _ rfl rfl (by decide +kernel) rfl (by decide) (fun _ => by decide) (by decide)
      (fun _ k l hl m hm => by
        have el : l = 0 := List.mem_singleton.mp hl
        have em : m = 0 := List.mem_singleton.mp hm
        subst el
        subst em
        rfl)
    exact ⟨s', e⟩
  · obtain ⟨s', e, a, _⟩ := h.2.1 dirtyState 0 (lineOf 0x40002080) (by decide +kernel) (by decide +kernel)
    exact ⟨s', e, (a 0x40002080).trans (by decide +kernel)⟩
  · obtain ⟨s', e, _⟩ := h.2.2.2.1 storeState 3 0x40002000 [1, 2, 3, 4] pendingStore rfl (by decide +kernel) rfl rfl (by decide) (by decide)
    exact ⟨s', e⟩
  · obtain ⟨s', e, _⟩ := h.2.2.2.2.1 shownState 3 _ rfl rfl rfl
    exact ⟨s', e⟩
  · obtain ⟨s', e, _⟩ := h.2.2.2.2.2 rich 3 .domain (by decide +kernel)
    exact ⟨s', e⟩

/-- A result that is there and has a property. -/
def okWith {ε α : Type} (p : α → Bool) (e : Except ε α) : Bool := match e with | .ok a => p a | .error _ => false
theorem of_okWith {ε α : Type} {p : α → Bool} {e : Except ε α} (h : okWith p e = true) : ∃ a, e = .ok a ∧ p a = true := by
  cases e with
  | error _ => cases h
  | ok a => exact ⟨a, rfl, h⟩

/-- A copy command on context 0 of the rich slice, as it waits, and once it is started. -/
abbrev copyCmd (started : Bool) : Cmd := { num := 1, kind := .copy 0x3000 0x2000 16, started := started }
abbrev engineState (ctx : Nat) (q : Cmd) : State :=
  { rich with slices := [(sliceKey 0 1, { richSlice with ctxs := setNth (List.replicate 4 {}) ctx { last := 1, queue := [q] } })] }
abbrev fillTeam : Team := { richTeam with rings := { richRing with slots := List.replicate 4 {} } :: List.replicate 7 {} }
abbrev fillState : State := { engineState 0 { num := 1, kind := .fill teamNo 0 0x2000 32 } with teams := [(teamNo, fillTeam)] }

/-- A contribution of device 7 to an open-group collective, and an instance this device opened with one element. -/
abbrev contribution : Contribution := { group := none, tag := 4, device := 7, kind := 0, op := 0, count := 1, root := 0, bytes := [1, 0, 0, 0] }

abbrev joined : Member := ⟨0, 0, 0, 1, 0, [1, 0, 0, 0]⟩
abbrev joinedCmd : Cmd := { num := 1, kind := .coll [], started := true, instId := some (64, 4) }
abbrev openState : State := { engineState 2 joinedCmd with parts := { placedPartition with instances := [{ group := 64, tag := 4, members := [joined] }] } :: List.replicate 15 {} }

theorem witness_EngineEvents (h : Obligations.EngineEvents) :
    exec (.engineCommandStart (sliceKey 0 1) 0) (engineState 0 (copyCmd false)) =
      .next (((engineState 0 (copyCmd false)).onCmd (sliceKey 0 1) 0 1 fun c => { c with started := true }).due (.engineCommandComplete (sliceKey 0 1) 0 1)) ∧
    (∃ s' t', exec (.engineCommandStart (sliceKey 0 1) 0) fillState = .next s' ∧ FMap.get s'.teams teamNo = some t' ∧ (t'.ring 0).claim = 1) ∧
    (∃ s', exec (.engineCommandComplete (sliceKey 0 1) 0 1) (engineState 0 (copyCmd true)) = .next s') ∧
    (∃ s', exec (.collectiveContribution 15 contribution) rich = .next s') ∧
    (∃ s', exec (.openGroupStart 0 4) openState = .next s') := by
  refine ⟨h.1 (engineState 0 (copyCmd false)) (sliceKey 0 1) 0 (copyCmd false) (by decide +kernel), ?_, ?_, ?_, ?_⟩
  · obtain ⟨s', t', e, a, _, b⟩ := h.1 fillState (sliceKey 0 1) 0 { num := 1, kind := .fill teamNo 0 0x2000 32 } (by decide +kernel) fillTeam rfl
    exact ⟨s', t', e, a, (b (by decide)).1.trans (by decide +kernel)⟩
  · obtain ⟨b, eb, pb⟩ := of_okWith (p := fun (b : List Byte) => decide (b ≠ [] ∧ b.length ≤ 65536 - (0x3000 : W64).toNat % 65536))
      (e := (engineState 0 (copyCmd true)).sourceOf 0 (0x2000 : W64).toNat 16) (by decide +kernel)
    obtain ⟨y, ey, py⟩ := of_okWith (p := fun (y : Xlat) => decide (y.stamped = false ∧ y.remote = none ∧ (engineState 0 (copyCmd true)).homeAlive y.pa = true))
      (e := ((engineState 0 (copyCmd true)).translate none 0 true .write 0x3000).2) (by decide +kernel)
    obtain ⟨b1, b2⟩ := of_decide_eq_true pb
    obtain ⟨y1, y2, y3⟩ := of_decide_eq_true py
    obtain ⟨s', e, _⟩ := h.2.1 (engineState 0 (copyCmd true)) (sliceKey 0 1) 0 _ (copyCmd true) 0x3000 0x2000 16 b y rfl rfl rfl rfl rfl rfl rfl (by decide) rfl
      eb b1 b2 ey y1 y2 y3 (by decide +kernel)
    exact ⟨s', e⟩
  · obtain ⟨s', e, _⟩ := h.2.2.1 rich 15 contribution (by decide +kernel) (.inl rfl)
    exact ⟨s', e⟩
  · obtain ⟨s', e, _⟩ := h.2.2.2 openState 0 4 { group := 64, tag := 4, members := [joined] } joined [] (sliceKey 0 1) joinedCmd [] rfl rfl (by decide +kernel) (by decide +kernel) rfl
      (by decide +kernel)
    exact ⟨s', e⟩

/-! ### The scheduler, the device, the host's commands -/

/-- A slice that has used up its budget; a partition with a core, course slots and register lines; a slice that may be placed there. -/
abbrev spentSlice : Slice := { richSlice with record := putBytes richSlice.record 0x30 (leBytes 8 10), consumed := 10 }
abbrev spentState : State := { rich with slices := [(sliceKey 0 1, spentSlice)] }
abbrev heldTeam : Team := { richTeam with held := [{ addr := 0x2000, bytes := [] }] }
abbrev heldState : State := { rich with teams := [(teamNo, heldTeam)] }
abbrev roomBlock : List Byte :=
  let b := putBytes placedPartition.block 0 (leBytes 8 1 ++ leBytes 8 0x1000 ++ leBytes 4 64 ++ leBytes 4 8192 ++ leBytes 4 0x100000 ++ leBytes 4 1024)
  putBytes b 0x100 [3]
abbrev goodRecord : List Byte :=
  let r := putBytes (List.replicate 128 0) 0 (leBytes 8 0x2000)
  let r := putBytes r 0x38 (leBytes 8 (3 + 40 * 2 ^ 24 + 64 * 2 ^ 35) ++ leBytes 8 (64 + 8 * 2 ^ 21))
  let r := putBytes r 0x58 (leBytes 8 (2 ^ 63))
  putBytes r 0x78 (leBytes 8 (0x10000000 + 200))
abbrev readySlice : Slice := { part := 0, num := 7, state := .ready, record := goodRecord }
abbrev placeState : State :=
  { State.reset.placeWord 0 with parts := { block := roomBlock } :: List.replicate 15 {}, slices := [(sliceKey 0 7, readySlice)], teams := [] }

/-- A slice whose resident team has yielded, ready to run again. -/
abbrev resumableSlice : Slice := { richSlice with state := .ready, yielded := [0] }
abbrev resumableState : State := { rich with slices := [(sliceKey 0 1, resumableSlice)], parts := { placedPartition with block := roomBlock } :: List.replicate 15 {} }

theorem witness_Scheduling (h : Obligations.Scheduling) :
    (∃ s', exec (.budget (sliceKey 0 1)) spentState = .next s') ∧ (∃ s', exec (.teamSave teamNo) (restState { pc := 0x1000 }) = .next s') ∧
    (∃ s', exec (.teamSave teamNo) heldState = .next s') ∧
    (∃ th, FMap.get (launchCourse readySlice 2 1 5).threads 7 = some th ∧ th.root = 39) ∧ (∃ s', exec (.teamPlacement 0) placeState = .next s') ∧
    ∃ s', exec (.teamPlacement 0) resumableState = .next s' := by
  refine ⟨?_, ?_, ⟨_, (h.2.1 heldState teamNo heldTeam richSlice (by decide +kernel) (by decide +kernel)).1 (by decide +kernel)⟩, ?_, ?_, ⟨_, h.2.2.2.2 resumableState 0 (sliceKey 0 1) resumableSlice rfl (by decide +kernel) (by decide +kernel) rfl rfl
      ⟨0, by decide, by decide +kernel⟩⟩⟩
  · obtain ⟨s', _, e, _⟩ := h.1 spentState (sliceKey 0 1) spentSlice (by decide +kernel) (by decide +kernel) (by decide +kernel) (by decide +kernel)
    exact ⟨s', e⟩
  · obtain ⟨s', e, _⟩ := (h.2.1 (restState { pc := 0x1000 }) teamNo (restTeam { pc := 0x1000 }) richSlice (by decide +kernel) (by decide +kernel)).2 (by decide +kernel)
    exact ⟨s', e⟩
  · obtain ⟨⟨th, a, _, b, _⟩, _⟩ := h.2.2.1 readySlice 2 1 5 7 (by decide +kernel) (by decide)
    exact ⟨th, a, b⟩
  · obtain ⟨core, ec⟩ := of_isSome (o := placeState.trimReservations.findCore readySlice) (by decide +kernel)
    obtain ⟨s', _, e, _⟩ := h.2.2.2.1 placeState 0 (sliceKey 0 7) readySlice 0 core rfl (by decide +kernel) (by decide +kernel) rfl rfl (by decide +kernel) (by decide +kernel)
      (by decide) (by decide) ec
    exact ⟨s', e⟩

/-- What another device of the domain asks of partition 0, whose window names it. -/
abbrev domainState : State :=
  { rich with parts := { placedPartition with block := putBytes placedPartition.block 0x38 (leBytes 8 0x40003000) } :: List.replicate 15 {},
              mem := rich.mem.writeN 0x40003000 (leBytes 8 (2 ^ 63 + 5)) }
abbrev askedRead : RemoteReq := { device := 5, fromPart := 0, part := 0, pa := 0x40000100, op := .read 8 }
abbrev askedWrite : RemoteReq := { askedRead with op := .write [1, 2] }
abbrev spoiltState : State := { domainState with poison := [0x40000100 / 32] }

theorem witness_DeviceEvents (h : Obligations.DeviceEvents) :
    (∃ s', exec .reset State.reset = .next s') ∧ exec .fullServiceStart { rich with boot := .reduced } = .next { rich with boot := .reduced } ∧
    (∃ s', exec .fullServiceStart { State.reset with boot := .reduced } = .next s') ∧ (∃ s', exec .powerTemperatureLimit { rich with clockMHz := 325 } = .next s') ∧
    (∃ s', exec .powerTemperatureLimit State.reset = .next s') ∧ (∃ s', exec (.patrolScrub 0 2 [.granule 0x2000080]) rich = .next s') ∧
    (∃ s', exec (.patrolScrub 0 0 [.corrected 1 3]) rich = .next s') ∧ (∃ s', exec (.patrolScrub 0 0 [.bad (.l2 0x2000080)]) rich = .next s') ∧
    (∃ s', exec (.patrolScrub 0 0 [.bad (.name ⟨teamNo, 0⟩ 2)]) rich = .next s') ∧
    (∃ s', exec (.linkTimeExchange 17 false 0) rich = .next s') ∧ (∃ s', exec (.linkTimeExchange 17 true 3) { rich with domain := true } = .next s' ∧ s'.uNow = s'.uPs) ∧
    rich.uNow = 0 ∧ ({ rich with domain := true, ns := 40 } : State).uNow ≤ ({ rich with domain := true } : State).uNow + 3 ∧
    (∃ s', exec (.linkTimeMessage 0 5) rich = .next s') ∧ (∃ s', exec (.flitReceived 0 true (some (.ack 3 5))) rich = .next s') ∧
    (∃ s', exec (.flitReceived 0 true (some (.request askedRead))) rich = .next s') ∧ (∃ s', exec (.remoteAccessRequest askedRead) rich = .next s') ∧
    (∃ s', exec (.remoteAccessRequest askedRead) domainState = .next s') ∧ (∃ s', exec (.remoteAccessRequest askedRead) spoiltState = .next s') ∧
    ∃ s', exec (.remoteAccessRequest askedWrite) domainState = .next s' := by
  obtain ⟨h1, h2, h3, h4, h5, hc, hn, h6, h7, h8, ha, h9⟩ := h
  refine ⟨?_, (h2 { rich with boot := .reduced } rfl).1 (by decide +kernel), ?_, ?_, ⟨_, h4 State.reset (by decide)⟩, ?_, ?_, ?_, ?_, ⟨_, (h6 rich 17 false 0).1 (.inr rfl)⟩, ?_, (h6 rich 0 true 0).2.2.1 rfl, ?_, ?_, ?_,
    ⟨_, (h8 rich 0 none askedRead 0 contribution 0).2.2.1⟩, ⟨_, (h9 rich askedRead).1 (by decide +kernel)⟩,
    ⟨_, ((h9 domainState askedRead).2 (by decide +kernel) (by decide +kernel)).1 8 rfl (by decide +kernel)⟩, ?_, ?_⟩
  · obtain ⟨s', e, _⟩ := h1 State.reset
    exact ⟨s', e⟩
  · obtain ⟨s', e, _⟩ := (h2 { State.reset with boot := .reduced } rfl).2 (by decide)
    exact ⟨s', e⟩
  · obtain ⟨s', _, e, _⟩ := h3 { rich with clockMHz := 325 } 1 (by decide) rfl
    exact ⟨s', e⟩
  · obtain ⟨s', e, _⟩ := h5 rich 0 2 [0x2000080]
    exact ⟨s', e⟩
  · obtain ⟨s', e, _⟩ := (hc rich 0 1 3 0).1
    exact ⟨s', e⟩
  · obtain ⟨s', e, _⟩ := (hc rich 0 0 0 0x2000080).2 (by decide)
    exact ⟨s', e⟩
  · obtain ⟨s', _, _, e, _⟩ := hn rich ⟨teamNo, 0⟩ richTeam richCourse 0 2 (by decide +kernel) (by decide +kernel) rfl (by decide +kernel)
    exact ⟨s', e⟩
  · obtain ⟨s', e, u, _⟩ := (h6 { rich with domain := true } 17 true 3).2.1 rfl rfl
    exact ⟨s', e, u⟩
  · exact ((h6 { rich with domain := true } 0 true 0).2.2.2 40 rfl (by decide)).2
  · obtain ⟨s', e, _⟩ := h7 rich 0 5
    exact ⟨s', e⟩
  · obtain ⟨s', e, _⟩ := ha rich 0 3 5
    exact ⟨s', e⟩
  · obtain ⟨s', e, _⟩ := ((h9 spoiltState askedRead).2 (by decide +kernel) (by decide +kernel)).2.1 8 rfl (by decide +kernel)
    exact ⟨s', e⟩
  · obtain ⟨s', e, _⟩ := ((h9 domainState askedWrite).2 (by decide +kernel) (by decide +kernel)).2.2 [1, 2] rfl
    exact ⟨s', e⟩

theorem witness_Failures (h : Obligations.Failures) :
    (∃ s', exec (.linkPlaneFailure 17) rich = .next s') ∧ (∃ s', exec (.diePortFailure 0 3) rich = .next s') ∧ (∃ s', exec (.dieLost 0) rich = .next s') ∧
    (∃ s', exec (.dieSetExit 2) { rich with dies := [{}, {}, { alive := false }, {}], ns := 1000000 } = .next s') ∧
    ∃ s', exec (.deviceUnreachable 5) domainState = .next s' ∧ s'.windowEntry 0 0 ≠ some (5, 0) := by
  obtain ⟨h1, h2, h3, h4, h5⟩ := h
  refine ⟨?_, ?_, ?_, ?_, ?_⟩
  · obtain ⟨s', e, _⟩ := h1 rich 17
    exact ⟨s', e⟩
  · obtain ⟨s', e, _⟩ := h2 rich 0 3 (by decide)
    exact ⟨s', e⟩
  · obtain ⟨s', e, _⟩ := h3 rich 0 (by decide +kernel) (by decide +kernel)
    exact ⟨s', e⟩
  · obtain ⟨s', e, _⟩ := h4 { rich with dies := [{}, {}, { alive := false }, {}], ns := 1000000 } 2 rfl rfl rfl (by decide)
    exact ⟨s', e⟩
  · obtain ⟨s', e, a, _⟩ := h5 domainState 5
    exact ⟨s', e, a 0 0 0⟩

/-- Mailbox PF0 with arguments and input, in the rich state. -/
abbrev mailState (args : List W64) (body : List Byte) : State := { rich with pfMail := [{ args := args, payload := Bytes.writeN [] 0 body }, {}] }
abbrev busyState : State := { rich with pfMail := [{ busy := true }, {}] }
/-- A token names a parked thread of the team, or the stopped slice. -/
abbrev parkedTeam : Team := restTeam { pc := 0x1000, parked := some ⟨2, 9⟩ }
abbrev parkedState : State :=
  { mailState [9, 0, 0, 0] [] with teams := [(teamNo, parkedTeam)], parts := { placedPartition with subjects := [(9, .thread restRef 2 [])] } :: List.replicate 15 {} }
abbrev stoppedState : State :=
  { mailState [9, 0, 0, 0] [] with slices := [(sliceKey 0 1, { richSlice with state := .stopped })]
                                   parts := { placedPartition with subjects := [(9, .slice (sliceKey 0 1))] } :: List.replicate 15 {} }

/-- A block for partition 1: one grant of 1 MiB that holds its group and window tables, a BAR2 of 1 GiB. -/
abbrev newBlock : List Byte :=
  putBytes (putBytes placedPartition.block 0x180 (leBytes 8 0x8000 ++ leBytes 8 16)) 0x40 (leBytes 8 0x80000000 ++ leBytes 8 30 ++ leBytes 8 0x80001000)

/-- Mailbox PF0 in the middle of an INVAL, without and with a stamped store that is pending. -/
abbrev invalState (xs : List Nat) : State := { rich with pfMail := [{ busy := true, inval := some ⟨0, 0x1000, 0x10000, xs⟩ }, {}], stores := [pendingStore] }

theorem witness_MailboxCommands (h : Obligations.MailboxCommands) :
    (∃ s', exec (.overrun (.pf 0) 7) busyState = .next s') ∧ (∃ s', exec (.state (.pf 0) 7) busyState = .next s') ∧
    (∃ s', exec (.mailboxCommandComplete (.pf 0)) busyState = .next s') ∧
    (∃ s', exec (.state (.pf 1) 8) (invalState []) = .next s' ∧ s'.cmdWaits = [.state (.pf 1) 8]) ∧
    (∃ s', exec (.mailboxCommandComplete (.pf 0)) (invalState []) = .next s') ∧
    exec (.mailboxCommandComplete (.pf 0)) (invalState [3]) = .next (invalState [3]) ∧
    (∃ s', exec (.partcfgWrite (.vf 3) 1) rich = .next s') ∧ (∃ s', exec (.partcfgRead (.pf 0) 1) rich = .next s') ∧
    (∃ s', exec (.partcfgWrite (.pf 0) 0x8001) rich = .next s') ∧
    (∃ s', exec (.partcfgWrite (.pf 0) 0x8101) (mailState [] newBlock) = .next s') ∧
    (∃ s', exec (.unknownCommand (.pf 0) 0xFF) rich = .next s') := by
  obtain ⟨a, b, _, c, _⟩ := h.1 busyState (.pf 0) 7 rfl rfl rfl
  obtain ⟨_, _, q, _, _⟩ := h.1 (invalState []) (.pf 1) 8 rfl rfl rfl
  obtain ⟨_, _, _, v, _⟩ := h.1 (invalState []) (.pf 0) 3 rfl rfl rfl
  obtain ⟨_, _, _, v', _⟩ := h.1 (invalState [3]) (.pf 0) 3 rfl rfl rfl
  obtain ⟨_, d', _, _⟩ := (h.1 rich (.pf 0) 1 (by decide) (by decide) (by decide)).2.2.2.2 (by decide +kernel)
  obtain ⟨c1, _, _, _⟩ := (h.1 rich (.vf 3) 1 (by decide) (by decide) (by decide)).2.2.2.2 (by decide +kernel)
  obtain ⟨_, _, e2, _⟩ := (h.1 rich (.pf 0) 0x8001 (by decide) (by decide) (by decide)).2.2.2.2 (by decide +kernel)
  obtain ⟨_, _, e3, _⟩ := (h.1 (mailState [] newBlock) (.pf 0) 0x8101 (by decide) (by decide) (by decide)).2.2.2.2 (by decide +kernel)
  obtain ⟨_, _, _, f4⟩ := (h.1 rich (.pf 0) 0xFF (by decide) (by decide) (by decide)).2.2.2.2 (by decide +kernel)
  refine ⟨⟨_, b⟩, ⟨_, a rfl _ (by simp)⟩, ⟨_, (c rfl).1 rfl⟩, ⟨_, q rfl (by decide +kernel) _ (by simp), rfl⟩, ⟨_, ((v rfl).2 _ rfl).2 (by decide +kernel)⟩,
    ((v' rfl).2 _ rfl).1 (by decide +kernel), ?_, ?_, ?_, ?_, ?_⟩
  · obtain ⟨s', x, _⟩ := c1 (by decide) (by decide) _ (.tail _ (.head _))
    exact ⟨s', x⟩
  · obtain ⟨s', x, _⟩ := d' (by decide) 0 (by decide +kernel) rfl
    exact ⟨s', x⟩
  · obtain ⟨s', x, _⟩ := (e2 (by decide) 0 (by decide +kernel) rfl (by decide +kernel)).1 (by decide +kernel)
    exact ⟨s', x⟩
  · obtain ⟨s', x, _⟩ := (e3 (by decide) 1 (by decide +kernel) rfl (by decide +kernel)).2 (by decide +kernel) (by decide +kernel) (by decide +kernel)
    exact ⟨s', x⟩
  · obtain ⟨s', x, _⟩ := f4 (by decide)
    exact ⟨s', x⟩

/-- A record of one team whose image lies in the placed page; the mailbox that brings it, with the image of that team in memory. -/
abbrev imageRecord : List Byte := putBytes goodRecord 0x38 (leBytes 8 (1 + 40 * 2 ^ 24 + 64 * 2 ^ 35))
abbrev imageState : State :=
  { mailState [0, 0, 0, 0] imageRecord with mem := rich.mem.writeN (placedPage + ({ readySlice with record := imageRecord } : Slice).image 0) (leBytes 8 1) }
/-- Where the image lies, as the command computes it from the mailbox's memory. -/
abbrev imageVa : W64 := 0x10010000
theorem at_image {s : State} {v : W64} {b : List Byte} (e : v = imageVa) (h : s.ownRead 0 imageVa 16 = .ok b) : s.ownRead 0 v 16 = .ok b := by rw [e]; exact h

/-- A token whose subject is not parked by it any more. -/
abbrev staleState : State := { parkedState with teams := [(teamNo, restTeam { pc := 0x1000 })] }

theorem witness_MailboxCommands_slices (h : Obligations.MailboxCommands) :
    (∃ s', exec (.submit (.pf 0) 2) (mailState [0, 0, 0, 0] goodRecord) = .next s') ∧ (∃ s', exec (.submitResume (.pf 0) 0x2002) (mailState [0, 0, 0, 0] imageRecord) = .next s') ∧
    (∃ s', exec (.submitResume (.pf 0) 0x2002) imageState = .next s') ∧
    (∃ s', exec (.inval (.pf 0) 3) (mailState [0x1000, 0x10000, 0, 0] []) = .next s') ∧ (∃ s', exec (.resume (.pf 0) 4) (mailState [5, 0, 0, 0] []) = .next s') ∧
    (∃ s', exec (.resume (.pf 0) 4) parkedState = .next s') ∧ (∃ s', exec (.kill (.pf 0) 5) staleState = .next s') ∧ (∃ s', exec (.kill (.pf 0) 5) stoppedState = .next s') := by
  obtain ⟨a, b, c⟩ := h.2.1 (mailState [0, 0, 0, 0] goodRecord) (.pf 0) 2 (by decide) (by decide) (by decide) (by decide +kernel)
  obtain ⟨a', b', c'⟩ := h.2.1 (mailState [0, 0, 0, 0] imageRecord) (.pf 0) 0x2002 (by decide) (by decide) (by decide) (by decide +kernel)
  obtain ⟨a'', _, _⟩ := h.2.1 imageState (.pf 0) 0x2002 (by decide) (by decide) (by decide) (by decide +kernel)
  obtain ⟨a1, b1, c1⟩ := h.2.1 (mailState [0x1000, 0x10000, 0, 0] []) (.pf 0) 3 (by decide) (by decide) (by decide) (by decide +kernel)
  obtain ⟨a2, b2, c2⟩ := h.2.1 (mailState [5, 0, 0, 0] []) (.pf 0) 4 (by decide) (by decide) (by decide) (by decide +kernel)
  obtain ⟨a3, b3, c3⟩ := h.2.1 parkedState (.pf 0) 4 (by decide) (by decide) (by decide) (by decide +kernel)
  obtain ⟨_, _, c5⟩ := h.2.1 staleState (.pf 0) 5 (by decide) (by decide) (by decide) (by decide +kernel)
  obtain ⟨a4, b4, c4⟩ := h.2.1 stoppedState (.pf 0) 5 (by decide) (by decide) (by decide) (by decide +kernel)
  refine ⟨?_, ?_, ?_, ?_, ?_, ?_, ?_, ?_⟩
  · obtain ⟨s', x, _⟩ := (a (by decide) 0 (by decide +kernel) (by decide +kernel) (by decide +kernel) rfl (by decide +kernel) (by decide +kernel) (by decide +kernel)).1
    exact ⟨s', x⟩
  · obtain ⟨s', _, x, _⟩ := (a' (by decide) 0 (by decide +kernel) (by decide +kernel) (by decide +kernel) rfl (by decide +kernel) (by decide +kernel) (by decide +kernel)).2.1
      (fun j hj => by
        have e : j = 0 := Nat.lt_one_iff.mp (Nat.lt_of_lt_of_le hj (by decide +kernel))
        subst e
        obtain ⟨b, eb, pb⟩ := of_okWith (p := fun (b : List Byte) => decide (¬ (bytesAt b 0 8 = 1 ∧ bytesAt b 8 3 = 0)))
          (e := (mailState [0, 0, 0, 0] imageRecord).ownRead 0 imageVa 16) (by decide +kernel)
        exact ⟨b, at_image (by decide +kernel) eb, of_decide_eq_true pb⟩)
    exact ⟨s', x⟩
  · obtain ⟨b, eb, pb⟩ := of_okWith (p := fun (b : List Byte) => decide (bytesAt b 0 8 = 1 ∧ bytesAt b 8 3 = 0))
      (e := imageState.ownRead 0 imageVa 16) (by decide +kernel)
    obtain ⟨s', _, x, _⟩ := (a'' (by decide) 0 (by decide +kernel) (by decide +kernel) (by decide +kernel) rfl (by decide +kernel) (by decide +kernel) (by decide +kernel)).2.2
      b (by decide +kernel) (at_image (by decide +kernel) eb) (of_decide_eq_true pb).1 (of_decide_eq_true pb).2
    exact ⟨s', x⟩
  · obtain ⟨s', x, _⟩ := b1 (by decide) 0 (by decide +kernel) (by decide +kernel)
    exact ⟨s', x⟩
  · obtain ⟨s', x, _⟩ := (c2 (by decide) 0 (by decide +kernel) (by decide +kernel) (by decide +kernel)).1 (by decide +kernel) _ (.head _)
    exact ⟨s', x⟩
  · obtain ⟨s', x, _⟩ := (c3 (by decide) 0 (by decide +kernel) (by decide +kernel) (by decide +kernel)).2.1 restRef 2 { pc := 0x1000, parked := some ⟨2, 9⟩ }
      (by decide +kernel) (by decide) (by decide +kernel) (by decide +kernel) (by decide) (by decide)
    exact ⟨s', x⟩
  · obtain ⟨s', x, _⟩ := (c5 (by decide) 0 (by decide +kernel) (by decide +kernel) (by decide +kernel)).2.2.1 restRef 2
      (by decide +kernel) (by decide) (by decide +kernel) _ (.tail _ (.head _))
    exact ⟨s', x⟩
  · obtain ⟨s', x, _⟩ := (c4 (by decide) 0 (by decide +kernel) (by decide +kernel) (by decide +kernel)).2.2.2 (sliceKey 0 1) { richSlice with state := .stopped }
      (by decide +kernel) (by decide +kernel) rfl
    exact ⟨s', x⟩

/-- The team of the slice is held back by its memory, and may not be saved now; the slice has no resident team. -/
abbrev waitingState : State := { mailState [1, 0, 0, 0] [] with teams := [(teamNo, heldTeam)] }
abbrev awayState : State := { mailState [1, 0, 0, 0] [] with teams := [] }

theorem witness_MailboxCommands_more (h : Obligations.MailboxCommands) :
    (∃ s', exec (.holdclr (.pf 0) 6) (mailState [4, 1, 0, 0] []) = .next s') ∧ (∃ s', exec (.attest (.pf 0) 7) (mailState [] []) = .next s') ∧
    (∃ s', exec (.state (.pf 0) 8) (mailState [1, 0, 0, 0] []) = .next s') ∧ (∃ s', exec (.stateSave (.pf 0) 0x1008) (mailState [1, 0, 0, 0] []) = .next s') ∧
    (∃ s', exec (.stateSave (.pf 0) 0x1008) waitingState = .next s') ∧ (∃ s', exec (.stateSave (.pf 0) 0x1008) awayState = .next s') ∧
    (∃ s', exec (.vendorDefinedMessage 0 0x101 [] []) rich = .next s') ∧ ∃ s', exec (.vendorDefinedMessage 0 0x101 [] []) (invalState []) = .next s' := by
  obtain ⟨a, _, _⟩ := h.2.2.1 (mailState [4, 1, 0, 0] []) (.pf 0) 6 (by decide) (by decide) (by decide) (by decide +kernel)
  obtain ⟨_, b, _⟩ := h.2.2.1 (mailState [] []) (.pf 0) 7 (by decide) (by decide) (by decide) (by decide +kernel)
  obtain ⟨_, _, c⟩ := h.2.2.1 (mailState [1, 0, 0, 0] []) (.pf 0) 8 (by decide) (by decide) (by decide) (by decide +kernel)
  obtain ⟨_, _, d⟩ := h.2.2.1 (mailState [1, 0, 0, 0] []) (.pf 0) 0x1008 (by decide) (by decide) (by decide) (by decide +kernel)
  obtain ⟨_, _, e⟩ := h.2.2.1 waitingState (.pf 0) 0x1008 (by decide) (by decide) (by decide) (by decide +kernel)
  obtain ⟨_, _, f⟩ := h.2.2.1 awayState (.pf 0) 0x1008 (by decide) (by decide) (by decide) (by decide +kernel)
  refine ⟨?_, ?_, ?_, ?_, ?_, ?_, ⟨_, (h.2.2.2 0 0x101 [] [] rich (by decide) (by decide)).2 (by decide +kernel)⟩,
    ⟨_, (h.2.2.2 0 0x101 [] [] (invalState []) (by decide) (by decide)).1 (by decide +kernel)⟩⟩
  · obtain ⟨s', x, _⟩ := a (by decide) 0 (by decide +kernel) (by decide +kernel) (by decide +kernel)
    exact ⟨s', x⟩
  · obtain ⟨s', x, _⟩ := b (by decide) 0 (by decide +kernel)
    exact ⟨s', x⟩
  · obtain ⟨⟨s', x, _⟩, _⟩ := c (by decide) 0 richSlice (by decide +kernel) (by decide +kernel) (by decide +kernel) (by decide) (by decide +kernel)
    exact ⟨s', x⟩
  · obtain ⟨s', x, _⟩ := ((d (by decide) 0 richSlice (by decide +kernel) (by decide +kernel) (by decide +kernel) (by decide) (by decide +kernel)).2.1
      richTeam (by decide +kernel)).2 (by decide +kernel)
    exact ⟨s', x⟩
  · obtain ⟨s', x, _⟩ := ((e (by decide) 0 richSlice (by decide +kernel) (by decide +kernel) (by decide +kernel) (by decide) (by decide +kernel)).2.1
      heldTeam (by decide +kernel)).1 (by decide +kernel)
    exact ⟨s', x⟩
  · obtain ⟨s', x, _⟩ := (f (by decide) 0 richSlice (by decide +kernel) (by decide +kernel) (by decide +kernel) (by decide) (by decide +kernel)).2.2 (by decide +kernel)
    exact ⟨s', x⟩

/-- Partition 0 with a BAR2 of 1 GiB at virtual address 0. -/
abbrev barState : State := { rich with parts := { placedPartition with block := putBytes placedPartition.block 0x48 (leBytes 8 30) } :: List.replicate 15 {} }
abbrev barStamped : State := { barState with mem := stamped.mem }

theorem witness_HostAccesses (h : Obligations.HostAccesses) :
    (∃ s', exec (.hostBar2Write 0 (2 ^ 41) [1]) barState = .next s') ∧ (∃ s', exec (.hostBar2Read 0 (2 ^ 41) 4) barState = .next s') ∧
    (∃ s', exec (.hostBar2Write 0 0x2FFF [7, 8]) barState = .next s') ∧ (∃ s', exec (.hostBar2Write 0 0x2FFF [7, 8]) barStamped = .next s') ∧
    (∃ s', exec (.hostBar2Read 0 0x2000 16) barState = .next s') ∧ exec (.classCounterWrite 0 376 7) barState = .next barState ∧
    (∃ s', exec (.classCounterWrite 0 376 0) barState = .next s') ∧ (∃ s', exec (.registerWrite (.partition 0) 0x10000 8 (BitVec.ofNat 64 0x1FFF)) barState = .next s') ∧
    exec (.registerWrite (.partition 0) 0x10000 8 0) { barState with boot := .bootFail } = .next { barState with boot := .bootFail } := by
  obtain ⟨h1, h2, h3, h4, hb, h5⟩ := h
  refine ⟨⟨_, (h1 barState 0 (2 ^ 41) [1] (by decide +kernel)).1⟩, ⟨_, (h1 barState 0 (2 ^ 41) [1] (by decide +kernel)).2 4 (by decide +kernel)⟩, ?_, ?_, ?_,
    (h4 barState 0 15 2 rfl (by decide +kernel) (by decide) (by decide)).1 7 (by decide), ?_, ⟨_, (h5 barState 0 0 0 (by decide +kernel) (by decide +kernel) (by decide)).1 0x1FFF (by decide)⟩,
    hb { barState with boot := .bootFail } 0 0 0 0x10000 8 (by decide +kernel) rfl⟩
  · obtain ⟨va, ev⟩ := of_isSome (o := barState.barAddr (0 : Fin 16).val 0x2FFF 2) (by decide +kernel)
    have pv : decide (va < 2 ^ 64 ∧ va % 65536 + 2 ≤ 65536) = true := by
      have e := congrArg (fun o => (o.getD 0)) ev
      simp only [Option.getD_some] at e
      rw [← e]
      decide +kernel
    obtain ⟨p1, p2⟩ := of_decide_eq_true pv
    obtain ⟨y, ey, py⟩ := of_okWith (p := fun (y : Xlat) => decide (y.remote = none ∧ barState.homeAlive y.pa 2 = true ∧ y.stamped = false))
      (e := (barState.translate none (0 : Fin 16).val true .write (BitVec.ofNat 64 va)).2) (by
        have e := congrArg (fun o => (o.getD 0)) ev
        simp only [Option.getD_some] at e
        rw [← e]
        decide +kernel)
    obtain ⟨y1, y2, y3⟩ := of_decide_eq_true py
    obtain ⟨s', e, _⟩ := (h2 barState 0 0x2FFF va [7, 8] y ev (by decide) p1 p2 ey y1 y2 rfl).1 y3
    exact ⟨s', e⟩
  · obtain ⟨va, ev⟩ := of_isSome (o := barStamped.barAddr (0 : Fin 16).val 0x2FFF 2) (by decide +kernel)
    have e0 := congrArg (fun o => (o.getD 0)) ev
    simp only [Option.getD_some] at e0
    have pv : decide (va < 2 ^ 64 ∧ va % 65536 + 2 ≤ 65536) = true := by
      rw [← e0]
      decide +kernel
    obtain ⟨p1, p2⟩ := of_decide_eq_true pv
    obtain ⟨y, ey, py⟩ := of_okWith (p := fun (y : Xlat) => decide (y.remote = none ∧ barStamped.homeAlive y.pa 2 = true ∧ y.stamped = true))
      (e := (barStamped.translate none (0 : Fin 16).val true .write (BitVec.ofNat 64 va)).2) (by
        rw [← e0]
        decide +kernel)
    obtain ⟨y1, y2, y3⟩ := of_decide_eq_true py
    obtain ⟨s', e, _⟩ := (h2 barStamped 0 0x2FFF va [7, 8] y ev (by decide) p1 p2 ey y1 y2 rfl).2 y3
    exact ⟨s', e⟩
  · obtain ⟨va, ev⟩ := of_isSome (o := barState.barAddr (0 : Fin 16).val 0x2000 16) (by decide +kernel)
    have e0 := congrArg (fun o => (o.getD 0)) ev
    simp only [Option.getD_some] at e0
    obtain ⟨b, eb, _⟩ := of_okWith (p := fun (_ : List Byte) => true) (e := barState.tableRead (0 : Fin 16).val true va 16 (pagesOf 16)) (by
      rw [← e0]
      decide +kernel)
    exact ⟨_, h3 barState 0 0x2000 16 va b ev (by rw [← e0]; decide +kernel) eb⟩
  · obtain ⟨s', e, _⟩ := (h4 barState 0 15 2 rfl (by decide +kernel) (by decide) (by decide)).2
    exact ⟨s', e⟩

/-- Partition 0 with a record that waits for each of its rings, and a device-wide log without memory behind it. -/
abbrev ringPart : Partition :=
  { placedPartition with faultRing := { base := 0x40004000, waiting := [List.replicate 64 9] }
                         eventRings := { base := 0x40005000, waiting := [List.replicate 32 8] } :: List.replicate 15 {} }
abbrev ringState : State := { rich with parts := ringPart :: List.replicate 15 {} }
abbrev lateState : State := { rich with ns := 100, parts := { placedPartition with eventRings := { base := 0x40005000, time := 50, unsignalled := 1 } :: List.replicate 15 {} } :: List.replicate 15 {} }
abbrev logState : State := { rich with parts := List.replicate 16 {}, errorLog := { base := 2 ^ 50, waiting := [List.replicate 64 7] } }

theorem of_inl {α β : Type} {o : Option (α ⊕ β)} (h : (o.any fun x => x.isLeft) = true) : ∃ a, o = some (.inl a) := by
  match o with
  | none => cases h
  | some (.inl a) => exact ⟨a, rfl⟩
  | some (.inr _) => cases h

theorem witness_RecordsAndBadUnits (h : Obligations.RecordsAndBadUnits) :
    (∃ s', exec (.faultRecordPost 0) ringState = .next s') ∧ (∃ pa, exec (.faultRecordPost 0) logState = .fault (.noMemory pa)) ∧
    (∃ s', exec (.eventRecordPost 0 0) ringState = .next s') ∧ exec (.etimeExpiry 0 15) ringState = .next ringState ∧
    (∃ s', exec (.etimeExpiry 0 0) lateState = .next s') ∧ (∃ s', exec (.unallocatedEncoding .pair) demo = .next s') ∧
    ∃ s', exec (.fetchFault .ecc 0x1000) demo = .next s' := by
  obtain ⟨h1, h2, h3, h4, h5⟩ := h
  refine ⟨?_, ⟨_, h2 logState _ [] (fun k => ?_) rfl (by decide) (by decide) (by decide +kernel)⟩, ?_, (h4 ringState 0 15 rfl (by decide +kernel)).1 (by decide +kernel), ?_,
    ⟨_, (h5 demo).2.2.2.2.1⟩, ⟨_, ((h5 demo).2.2.2.2.2 0x1000).2.2.2⟩⟩
  · obtain ⟨s', e, _⟩ := h1 ringState 0 (List.replicate 64 9) rfl rfl rfl rfl rfl (by decide +kernel)
    exact ⟨s', e⟩
  · have e : logState.part k = {} := nth_replicate _ 16 k
    rw [e]
    exact ⟨rfl, rfl⟩
  · obtain ⟨pa, ep⟩ := of_inl (o := ringState.eventPlace (0 : Fin 16).val (nth (ringState.part (0 : Fin 16).val).eventRings (0 : Fin 16).val {})) (by decide +kernel)
    obtain ⟨s', _, e, _⟩ := h3 ringState 0 0 (List.replicate 32 8) [] pa rfl (by decide +kernel) rfl rfl ep
    exact ⟨s', e⟩
  · obtain ⟨s', e, _⟩ := (h4 lateState 0 0 rfl (by decide +kernel)).2 (by decide +kernel)
    exact ⟨s', e⟩

/-- A table of fixed groups whose first mask holds members 0 and 2. -/
abbrev groupState : State :=
  { rich with parts := { placedPartition with block := putBytes placedPartition.block 0x40 (leBytes 8 0x40006000) } :: List.replicate 15 {},
              mem := rich.mem.writeN 0x40006000 [5] }
theorem witness_FixedGroups (h : Obligations.FixedGroups) :
    groupState.groupMembers 0 0 = [none, none] ∧ groupState.groupMembers 0 63 = [] ∧ groupState.groupMembers 0 64 = [] ∧
    groupState.collOk 0 (collDesc (putBytes (List.replicate 64 0) 0x1A [9])) = false := by
  have e : groupState.groupMembers 0 9 = [] := (h groupState 0 9).2.1 (by decide) (by decide +kernel)
  refine ⟨((h groupState 0 0).1 (by decide +kernel) (by decide)).trans (by decide +kernel), (h groupState 0 63).2.1 (by decide) (by decide +kernel),
    (h groupState 0 64).2.2.1 (by decide), (h groupState 0 9).2.2.2 _ ?_ (by decide +kernel)⟩
  rw [show (collDesc (putBytes (List.replicate 64 0) 0x1A [9])).group = 9 by decide +kernel]
  exact e

/-- A plane fails as the only event due; and the state in which the event is performed. -/
abbrev planeState : State := { rich with agenda := [.linkPlaneFailure 3] }
abbrev planeStart : State := { planeState.startStep with agenda := [] }

theorem witness_HomeMemoryCanonical (h : Obligations.HomeMemoryCanonical) (h2 : Obligations.StepRunsUnit) :
    ∃ s', step planeState = .next s' ∧ Bytes.wf s'.mem = true := by
  have e := h2.2.2.1 planeState planeStart (.linkPlaneFailure 3) rfl
  have n : andThen (exec (.linkPlaneFailure 3) planeStart) (fun u => Host.Outcome.next u.after) = .next (after (exec (.linkPlaneFailure 3) planeStart)).after := rfl
  exact ⟨_, e.trans n, (h _ _ (by decide +kernel) (by decide +kernel) (e.trans n)).1⟩

theorem witness_StepRunsUnit :
    (State.reset.withFetchWord 32 0).startStep.nextEvent = none ∧ (State.reset.withFetchWord 32 0).startStep.wake = none ∧
    ((State.reset.withFetchWord 32 0).startStep.nextLift.any fun l => match l.stand.found with | .unit none _ => true | .unit (some _) _ | .illegal _ | .noFetch _ _ => false) = true ∧
    ((State.reset.withFetchWord 64 0x281889FE7E300000).startStep.nextLift.any fun l =>
      match l.stand.found with | .unit (some _) _ => true | .unit none _ | .illegal _ | .noFetch _ _ => false) = true ∧
    okWith (fun (y : Xlat) => y.remote.isNone) ((State.reset.withFetchWord 32 0).translate (some 0) 0 true .fetch 0x1000).2 = true ∧
    ({ demo with teams := [(teamNo, teamOf { course2 with bad := [.name 4] })] } : State).meetsError (.addB32 (.reg 5) (.reg 4 false) (.reg 4 false)) = demo.issue.lift ∧
    demo.issue.lift ≠ [] := by
  refine ⟨?_, ?_, ?_, ?_, ?_, ?_, ?_⟩ <;> decide +kernel

end Sys2Proof.Tests
end

section
/-!
SUPPORT. What a host does to the device by itself: its accesses through a partition's BAR2 (R349, R350), the class counters (R325), and
the registers of the windows (R4, R363, R387). `hostAccesses` settles O50.
-/

namespace Sys2Proof.Machine

/-! ## The home slice -/

/-- What every step of a fold keeps, the fold keeps. -/
theorem foldl_keeps {σ α β : Type} (p : σ → β) (f : σ → α → σ) (h : ∀ s a, p (f s a) = p s) (l : List α) (s : σ) : p (l.foldl f s) = p s := by
  induction l generalizing s with
  | nil => rfl
  | cons a t ih => exact (ih (f s a)).trans (h s a)

@[simp] theorem State.fireMonitors_mem (s : State) (dev : Option Nat) (line : Nat) : (s.fireMonitors dev line).mem = s.mem := rfl
@[simp] theorem State.fireMonitors_signals (s : State) (dev : Option Nat) (line : Nat) : (s.fireMonitors dev line).signals = s.signals := rfl

@[simp] theorem State.performDirty_signals (s : State) (core line : Nat) : (s.performDirty core line).signals = s.signals := by
  unfold State.performDirty
  dsimp only
  split
  · rfl
  · split <;> rfl

@[simp] theorem State.recall_signals (s : State) (line : Nat) (except : Option Nat) : (s.recall line except).signals = s.signals := by
  unfold State.recall
  refine foldl_keeps State.signals _ (fun s k => ?_) _ s
  exact s.performDirty_signals k line

@[simp] theorem State.homeWrite_signals (s : State) (pa : Nat) (b : List Byte) : (s.homeWrite pa b).signals = s.signals :=
  (foldl_keeps State.signals _ (fun s l => s.fireMonitors_signals none l) _ _).trans
    (foldl_keeps State.signals _ (fun s l => s.recall_signals l none) _ s)

/-- A write at the home slice: the exclusive copies of its lines come home first (R245, R248). -/
theorem State.homeWrite_mem (s : State) (pa : Nat) (b : List Byte) : (s.homeWrite pa b).mem = (s.recalled pa b.length).mem.writeN pa b :=
  foldl_keeps State.mem _ (fun s l => s.fireMonitors_mem none l) _ _

theorem State.homeWrite_read (s : State) (pa : Nat) (b : List Byte) (a : Nat) :
    (s.homeWrite pa b).mem.read a =
      if h : pa ≤ a ∧ a - pa < b.length then b[a - pa]'h.2 else (s.recalled pa b.length).mem.read a := by
  rw [s.homeWrite_mem, Bytes.read_writeN]
  by_cases h : pa ≤ a ∧ a - pa < b.length
  · rw [dif_pos h, if_pos (by omega), nth, List.getElem?_eq_getElem h.2, Option.getD_some]
  · rw [dif_neg h, if_neg (by omega)]

/-! ## Accesses within a page -/

theorem chunkLen_page {va n : Nat} (h : va % 65536 + n ≤ 65536) : chunkLen va n = n := by unfold chunkLen; omega

theorem State.planeWait_nothing (s : State) (part : Nat) (user : Bool) (m : AccMode) (va fuel : Nat) :
    s.planeWait part user m va 0 fuel = none := by cases fuel <;> rfl

section Page
variable {s : State} {part va n : Nat} {y : Xlat}

/-- An access within a page of the device's own memory waits for no plane (R380). -/
theorem State.planeWait_page {user : Bool} {m : AccMode} (hp : va % 65536 + n ≤ 65536)
    (ht : (s.translate none part user m (BitVec.ofNat 64 va)).2 = .ok y) (hr : y.remote = none) (fuel : Nat) :
    s.planeWait part user m va n (fuel + 1) = none := by
  have hk : min n (65536 - va % 65536) = n := chunkLen_page hp
  unfold State.planeWait
  simp only [ht, hr, hk, Nat.sub_self, State.planeWait_nothing, ite_self]

/-- An access that lies in a page touches a stamped page when its own is one (R258). -/
theorem State.stampedAt_page (hn : 0 < n) (hp : va % 65536 + n ≤ 65536)
    (ht : (s.translate none part true .write (BitVec.ofNat 64 va)).2 = .ok y) : s.stampedAt part va n = y.stamped := by
  have later (j : Nat) : ¬ (va / 65536 + (j + 1)) * 65536 < va + n := by omega
  unfold State.stampedAt
  rw [List.range_succ_eq_map, List.any_cons, List.any_map]
  simp [ht, hn, later]

/-- A write within a page of the device's own memory is one write at the home slice (R350). -/
theorem State.userWrite_page {b : List Byte} (hb : b ≠ []) (hp : va % 65536 + b.length ≤ 65536)
    (ht : (s.translate none part true .write (BitVec.ofNat 64 va)).2 = .ok y) (hr : y.remote = none) (ha : s.homeAlive y.pa b.length = true)
    (fuel : Nat) : s.userWrite part va b (fuel + 1) = (s.homeWrite y.pa b, none) := by
  have done (u : State) (va' : Nat) : u.userWrite part va' [] fuel = (u, none) := by cases fuel <;> rfl
  unfold State.userWrite
  simp only [List.isEmpty_iff, hb, if_false, ht, hr, chunkLen_page hp, ha, Bool.not_true, Bool.false_eq_true, List.take_length,
    List.drop_length, done]

end Page

/-! ## Records -/

@[simp] theorem State.record_mem (s : State) (part : Nat) (j : Subject) (f : RecFields) : (s.record part j f).1.mem = s.mem := by
  unfold State.record
  dsimp only
  split <;> rfl

/-- A record becomes due to be posted (R363). -/
@[simp] theorem State.record_agenda (s : State) (part : Nat) (j : Subject) (f : RecFields) :
    (s.record part j f).1.agenda = s.agenda ++ [.faultRecordPost (Fin.ofNat 16 part)] := by
  unfold State.record
  dsimp only
  split <;> rfl

theorem State.hostFault_mem (s : State) (k : Nat) (code : FCode) (a : W64) : (s.hostFault k code a).mem = s.mem := s.record_mem _ _ _

theorem State.faultRecordPost_mem_hostFault (s : State) (part : Fin 16) (code : FCode) (a : W64) :
    .faultRecordPost part ∈ (s.hostFault part.val code a).agenda := by
  simp [State.hostFault]

/-! ## BAR2 -/

section Bar2
variable {s : State} {part : Fin 16} {off va : Nat}

theorem exec_hostBar2Write_beyond {b : List Byte} (h : s.barAddr part.val off b.length = none) :
    exec (.hostBar2Write part off b) s = .next (s.signal (.unsupportedRequest part.val)) := by
  change execHostBar2Write part off b s = _
  simp only [execHostBar2Write, h]

theorem exec_hostBar2Read_beyond {n : Nat} (h : s.barAddr part.val off n = none) :
    exec (.hostBar2Read part off n) s = .next (s.signal (.unsupportedRequest part.val)) := by
  change execHostBar2Read part off n s = _
  simp only [execHostBar2Read, h]

theorem exec_hostBar2Read_ok {n : Nat} {b : List Byte} (hv : s.barAddr part.val off n = some va) (hw : s.barWaits part.val va n .read = false)
    (hb : s.tableRead part.val true va n (pagesOf n) = .ok b) : exec (.hostBar2Read part off n) s = .next (s.signal (.bar2 part.val b)) := by
  change execHostBar2Read part off n s = _
  simp only [execHostBar2Read, hv, hw, hb, Bool.false_eq_true, if_false]

variable {b : List Byte} {y : Xlat}

/-- With no access of the host's waiting, one within a page of the device's own memory does not wait either (R350, R380). -/
theorem State.barWaits_page {k n : Nat} {m : AccMode} (hl : s.linkWaits = []) (hp : va % 65536 + n ≤ 65536)
    (ht : (s.translate none k true m (BitVec.ofNat 64 va)).2 = .ok y) (hr : y.remote = none) : s.barWaits k va n m = false := by
  simp only [State.barWaits, hl, pagesOf, State.planeWait_page hp ht hr, List.any_nil, Option.isSome_none, Bool.or_false]

theorem exec_hostBar2Write_plain (hv : s.barAddr part.val off b.length = some va) (hb : b ≠ []) (hp : va % 65536 + b.length ≤ 65536)
    (ht : (s.translate none part.val true .write (BitVec.ofNat 64 va)).2 = .ok y) (hr : y.remote = none)
    (ha : s.homeAlive y.pa b.length = true) (hl : s.linkWaits = []) (hs : y.stamped = false) :
    exec (.hostBar2Write part off b) s = .next (s.homeWrite y.pa b) := by
  change execHostBar2Write part off b s = _
  simp only [execHostBar2Write, hv, State.barWaits_page hl hp ht hr, State.stampedAt_page (List.length_pos_iff.mpr hb) hp ht, hs, pagesOf,
    State.userWrite_page hb hp ht hr ha, Bool.false_eq_true, if_false]

theorem exec_hostBar2Write_stamped (hv : s.barAddr part.val off b.length = some va) (hb : b ≠ []) (hp : va % 65536 + b.length ≤ 65536)
    (ht : (s.translate none part.val true .write (BitVec.ofNat 64 va)).2 = .ok y) (hr : y.remote = none)
    (hl : s.linkWaits = []) (hs : y.stamped = true) :
    exec (.hostBar2Write part off b) s =
      .next ((s.hostFault part.val .stampMix (BitVec.ofNat 64 va)).signal (.unsupportedRequest part.val)) := by
  change execHostBar2Write part off b s = _
  simp only [execHostBar2Write, hv, State.barWaits_page hl hp ht hr, State.stampedAt_page (List.length_pos_iff.mpr hb) hp ht, hs,
    Bool.false_eq_true, if_false, if_true]

end Bar2

/-! ## Class counters -/

theorem exec_classCounterWrite (s : State) (part : Fin 16) (off : Nat) (v : W64) :
    exec (.classCounterWrite part off v) s = .next (s.classWrite part.val off v) := rfl

theorem State.classWrite_ne_zero (s : State) (k off : Nat) {v : W64} (h : v ≠ 0) : s.classWrite k off v = s := by
  simp only [State.classWrite, h, ne_eq, not_false_eq_true, true_or, if_true]

/-- A class's counters with the one of the three at index `j` cleared. -/
def ClassCount.cleared (c : ClassCount) (j : Nat) : ClassCount :=
  { count := if j = 0 then 0 else c.count, misses := if j = 1 then 0 else c.misses, worst := if j = 2 then 0 else c.worst }

theorem State.classWrite_zero (s : State) (p : Nat) {k j : Nat} (hk : k < 16) (hj : j < 3) :
    s.classWrite p (24 * k + 8 * j) 0 =
      s.setPart p { s.part p with classes := setNth (s.part p).classes k ((nth (s.part p).classes k {}).cleared j) } := by
  have aligned : (24 * k + 8 * j) % 8 = 0 := by omega
  have inside : ¬ 384 ≤ 24 * k + 8 * j := by omega
  have hclass : (24 * k + 8 * j) / 24 = k := by omega
  have hword : (24 * k + 8 * j) / 8 % 3 = j := by omega
  simp only [State.classWrite, aligned, inside, hclass, hword, ne_eq, not_true_eq_false, or_self, if_false]
  congr 4
  match j, hj with
  | 0, _ | 1, _ | 2, _ => rfl

/-! ## Registers -/

/-- A write beside a register leaves its value. -/
theorem overlay_beside {roff rsize off size : Nat} (h : roff + rsize ≤ off ∨ off + size ≤ roff) (old : Nat) (v : W64) :
    overlay roff rsize old off size v = old % 2 ^ (8 * rsize) := by
  rw [← leNat_leBytes]
  unfold overlay leBytes
  refine congrArg leNat (List.map_congr_left fun k hk => if_neg ?_)
  have := List.mem_range.mp hk
  omega

/-- A write of a whole register gives it the value's low bytes. -/
theorem overlay_whole (roff size old : Nat) (v : W64) : overlay roff size old roff size v = v.toNat % 2 ^ (8 * size) := by
  rw [← leNat_leBytes]
  unfold overlay leBytes
  refine congrArg leNat (List.map_congr_left fun k hk => ?_)
  have := List.mem_range.mp hk
  rw [if_pos (by omega), Nat.add_sub_cancel_left]

/-- Nothing of a write-1-to-clear register is cleared by a write beside it (R4). -/
theorem clearOnes_beside {roff off size : Nat} (h : roff + 4 ≤ off ∨ off + size ≤ roff) (old : W32) (v : W64) :
    clearOnes old roff off size v = old := by
  rw [clearOnes, overlay_beside h, Nat.zero_mod, BitVec.not_zero, BitVec.and_allOnes]

/-- A write of a whole write-1-to-clear register clears the bits it has set (R4). -/
theorem clearOnes_whole (roff : Nat) (old : W32) (v : W64) : clearOnes old roff roff 4 v = old &&& ~~~(lo32 v) := by
  have : BitVec.ofNat 32 (v.toNat % 2 ^ (8 * 4)) = lo32 v := by
    apply BitVec.eq_of_toNat_eq
    simp
  rw [clearOnes, overlay_whole, this]

/-- A 32-bit register that a write does not reach keeps its value. -/
theorem ofNat_overlay_beside {roff off size : Nat} (h : roff + 4 ≤ off ∨ off + size ≤ roff) (old : W32) (v : W64) :
    BitVec.ofNat 32 (overlay roff 4 old.toNat off size v) = old := by
  rw [overlay_beside h, Nat.mod_eq_of_lt old.isLt, BitVec.ofNat_toNat, BitVec.setWidth_eq]

/-- A ring of records as every write to its registers leaves it where the write does not reach: the base at 4 KiB, the size in its bounds. -/
def RecRing.settled (r : RecRing) : RecRing :=
  { r with base := BitVec.ofNat 64 (r.base.toNat / 4096 * 4096), size := clampSize (r.size % 2 ^ 32) }

/-- The base of a ring that a write does not reach. -/
theorem overlay_base_beside {off : Nat} (h : 8 ≤ off) (base : W64) (size : Nat) (v : W64) : overlay 0 8 base.toNat off size v = base.toNat := by
  rw [overlay_beside (.inl (by omega)), Nat.mod_eq_of_lt base.isLt]

/-- The size of a ring that a write does not reach. -/
theorem overlay_size_beside {off size : Nat} (h : 0xC ≤ off ∨ off + size ≤ 8) (n : Nat) (v : W64) : overlay 8 4 n off size v = n % 2 ^ 32 :=
  overlay_beside h n v

theorem RecRing.writeFault_base (r : RecRing) (v : W64) :
    r.writeFault 0 8 v = { r.settled with base := BitVec.ofNat 64 (v.toNat / 4096 * 4096) } := by
  have whole : overlay 0 8 r.base.toNat 0 8 v = v.toNat := by rw [overlay_whole, Nat.mod_eq_of_lt v.isLt]
  simp (disch := omega) only [RecRing.writeFault, RecRing.settled, whole, overlay_size_beside, ofNat_overlay_beside, clearOnes_beside]

/-- The head of a ring is read-only (R363). -/
theorem RecRing.writeFault_head (r : RecRing) (v : W64) : r.writeFault 0xC 4 v = r.settled := by
  simp (disch := omega) only [RecRing.writeFault, RecRing.settled, overlay_base_beside, overlay_size_beside, ofNat_overlay_beside,
    clearOnes_beside]

theorem RecRing.writeFault_stat (r : RecRing) (v : W64) : r.writeFault 0x14 4 v = { r.settled with stat := r.stat &&& ~~~(lo32 v) } := by
  simp (disch := omega) only [RecRing.writeFault, RecRing.settled, overlay_base_beside, overlay_size_beside, ofNat_overlay_beside,
    clearOnes_whole]

/-! ## A partition's window -/

theorem State.windowWrite_faultRing (s : State) (k : Nat) {off : Nat} (h : off < 0x1C) (size : Nat) (v : W64) :
    s.windowWrite k (0x10000 + off) size v =
      s.setPart k { s.part k with faultRing := (s.part k).faultRing.writeFault off size v } := by
  simp only [State.windowWrite, Bool.and_eq_true, decide_eq_true_eq]
  rw [if_neg (by omega), if_neg (by omega), if_pos (by omega), Nat.add_sub_cancel_left]

theorem State.windowWrite_configuration (s : State) (k : Nat) {off : Nat} (h : off < 0x1000) (size : Nat) (v : W64) :
    s.windowWrite k off size v = s := by
  simp only [State.windowWrite, Bool.and_eq_true, decide_eq_true_eq]
  rw [if_neg (by omega), if_neg (by omega), if_neg (by omega), if_neg (by omega), if_neg (by omega)]

/-- A write to CMD of a partition's mailbox: its command is the first thing due (R352). -/
theorem State.windowWrite_cmd (s : State) (k size : Nat) (v : W64) :
    s.windowWrite k 0x2000 size v =
      let m : Mbox := .vf (Fin.ofNat 16 (fld ((s.part k).cfg 0 8) 8 4))
      { s with agenda := commandEvent m (s.mailbox m).busy v :: s.agenda } := rfl

section Window
variable {s : State} {vf : Fin 16} {k : Nat}

theorem exec_registerWrite_bootFail (hk : s.partOfVf vf.val = some k) (hb : s.boot = .bootFail) (off size : Nat) (v : W64) :
    exec (.registerWrite (.partition vf) off size v) s = .next s := by
  change execRegisterWrite (.partition vf) off size v s = _
  simp only [execRegisterWrite, hk, hb, beq_self_eq_true, if_true]

theorem exec_registerWrite_partition (hk : s.partOfVf vf.val = some k) (hb : s.boot ≠ .bootFail) (off size : Nat) (v : W64) :
    exec (.registerWrite (.partition vf) off size v) s = .next (s.windowWrite k off size v) := by
  change execRegisterWrite (.partition vf) off size v s = _
  simp only [execRegisterWrite, hk, beq_eq_false_iff_ne.mpr hb, Bool.false_eq_true, if_false]

end Window

/-- Settles O50: each clause is the rule of its event above. -/
theorem hostAccesses : Obligations.HostAccesses := by
  unfold Obligations.HostAccesses
  refine ⟨?beyond, ?write, ?read, ?classes, ?bootFail, ?registers⟩
  case beyond =>
    exact fun s part off b h => ⟨exec_hostBar2Write_beyond h, fun n hn => exec_hostBar2Read_beyond hn⟩
  case write =>
    intro s part off va b y hv hb _ hp ht hr ha hl
    refine ⟨fun hs => ⟨_, exec_hostBar2Write_plain hv hb hp ht hr ha hl hs, s.homeWrite_signals _ _, s.homeWrite_read y.pa b⟩,
      fun hs => ⟨_, exec_hostBar2Write_stamped hv hb hp ht hr hl hs, s.hostFault_mem _ _ _, ?_, s.faultRecordPost_mem_hostFault part _ _⟩⟩
    exact List.mem_append_right _ (List.mem_singleton_self _)
  case read => exact fun s part off n va b hv hw hb => exec_hostBar2Read_ok hv hw hb
  case classes =>
    intro s part k j hparts hclasses hk hj
    simp only [exec_classCounterWrite, s.classWrite_zero part.val hk hj]
    refine ⟨fun v hv => by rw [s.classWrite_ne_zero _ _ hv], _, rfl, ?_, ?_, rfl⟩
    · rw [State.part_setPart _ _ _ (by omega)]
      exact nth_set_same _ _ _ _ (by omega)
    · intro i hi
      rw [State.part_setPart _ _ _ (by omega)]
      exact nth_set_ne _ _ _ hi
  case bootFail => exact fun s vf k v off size hk hb => exec_registerWrite_bootFail hk hb off size v
  case registers =>
    intro s vf k v hk _ hb
    dsimp only
    simp only [exec_registerWrite_partition hk hb]
    refine ⟨fun b hlt => ?base, ?head, ?stat, ?configuration, ?cmd⟩
    case base =>
      rw [s.windowWrite_faultRing k (off := 0) (by omega), RecRing.writeFault_base, BitVec.toNat_ofNat, Nat.mod_eq_of_lt hlt]
      rfl
    case head => rw [s.windowWrite_faultRing k (off := 0xC) (by omega), RecRing.writeFault_head]; rfl
    case stat => rw [s.windowWrite_faultRing k (off := 0x14) (by omega), RecRing.writeFault_stat]; rfl
    case configuration => rw [s.windowWrite_configuration k (by omega)]
    case cmd => rw [s.windowWrite_cmd]

end Sys2Proof.Machine
end

section
/-!
SUPPORT. What happens to the device as a whole: boot and full service (R347, R388), the clock (R24), memory errors (R377 to R379), link time
(R256), flits (R354) and requests of other devices (R355). `deviceEvents` settles O47.
-/

namespace Sys2Proof.Machine

/-! ## Boot (R347, R388) -/

/-- A measurement register of value `m` after stage `j` has been measured into it (R347). -/
def stageMeasure (j : Nat) (m : BitVec 512) : BitVec 512 := sha512 (digestBytes m ++ digestBytes (sha512 (Config.stageImage j)))

theorem State.bootStages_fails {j : Nat} (s : State) (n : Nat) (h : stageVerifies j = false) :
    s.bootStages j (n + 1) = { s with boot := .bootFail, failStage := j } := by
  simp only [State.bootStages, h, Bool.false_eq_true, if_false]

theorem State.bootStages_verifies {j : Nat} (s : State) (n : Nat) (h : stageVerifies j = true) :
    s.bootStages j (n + 1) =
      ({ s with measures := setNth s.measures j (stageMeasure j (nth s.measures j 0)) } : State).bootStages (j + 1) n := by
  simp only [State.bootStages, h, if_true, stageMeasure]

/-- Booting sets the boot state, the stage it fails at and the measurements, and nothing else. -/
theorem State.bootStages_frame (s : State) (j n : Nat) :
    s.bootStages j n =
      { s with boot := (s.bootStages j n).boot, failStage := (s.bootStages j n).failStage, measures := (s.bootStages j n).measures } := by
  induction n generalizing s j with
  | zero => rfl
  | succ n ih =>
    cases h : stageVerifies j with
    | false => rw [s.bootStages_fails n h]
    | true =>
      rw [s.bootStages_verifies n h]
      exact ih _ _

/-- The device at its reset values, with what RESET leaves alone (log 5). -/
def State.restarted (s : State) : State :=
  { State.reset with
    agenda := s.agenda, issue := s.issue, freeCtr := s.freeCtr, signals := s.signals, mem := s.mem, hostMem := s.hostMem,
    poison := s.poison, l2Poison := s.l2Poison }

theorem exec_reset (s : State) : exec .reset s = .next (s.restarted.bootStages 0 2) := rfl

theorem State.restarted_boot_fails (s : State) (h : stageVerifies 0 = false) :
    s.restarted.bootStages 0 2 = { s.restarted with boot := .bootFail, failStage := 0 } := s.restarted.bootStages_fails 1 h

theorem State.restarted_boot_stops (s : State) (h : stageVerifies 0 = true) (h' : stageVerifies 1 = false) :
    s.restarted.bootStages 0 2 = { s.restarted with boot := .bootFail, failStage := 1, measures := [stageMeasure 0 0, 0, 0, 0] } := by
  rw [s.restarted.bootStages_verifies 1 h, State.bootStages_fails _ 0 h']
  rfl

theorem State.restarted_boot_completes (s : State) (h : stageVerifies 0 = true) (h' : stageVerifies 1 = true) :
    s.restarted.bootStages 0 2 = { s.restarted with boot := .reduced, measures := [stageMeasure 0 0, stageMeasure 1 0, 0, 0] } := by
  rw [s.restarted.bootStages_verifies 1 h, State.bootStages_verifies _ 0 h']
  rfl

/-! ## Events that become due one after another -/

/-- What becomes due joins the agenda, and nothing else changes. -/
theorem State.dueAll_eq {α : Type} (s : State) (e : α → Instr) (l : List α) :
    l.foldl (fun s k => s.due (e k)) s = { s with agenda := s.agenda ++ l.map e } := by
  induction l generalizing s with
  | nil => simp
  | cons k l ih => exact (ih (s.due (e k))).trans (by rw [State.due_agenda, List.append_assoc]; rfl)

theorem exec_fullServiceStart_running {s : State} (hr : s.slices.any (fun p => p.2.state == .running) = true) :
    exec .fullServiceStart s = .next s := by
  change execFullServiceStart s = _
  simp only [execFullServiceStart, hr, Bool.not_true, Bool.and_false, Bool.false_eq_true, if_false]

/-- The device as full service finds it, before anything is placed (R388): its number, its domain and U are free values (log 24). -/
def State.fullService (s : State) : State :=
  let v := Config.freeValue s.freeCtr
  { s with boot := .full, clockMHz := 600, ports := 0x3FFFF, domain := v.getLsbD 63, devNumber := v.toNat % 288,
           uPs := (Config.freeValue (s.freeCtr + 1)).toNat, uAt := s.ns, linkAt := List.replicate 18 s.ns, linkDown := none,
           freeCtr := s.freeCtr + 2 }

theorem exec_fullServiceStart {s : State} (hb : s.boot = .reduced) (hr : s.slices.any (fun p => p.2.state == .running) = false) :
    exec .fullServiceStart s =
      .next { s.fullService with agenda := s.agenda ++ (List.range 16).map fun k => .teamPlacement (Fin.ofNat 16 k) } := by
  change execFullServiceStart s = _
  simp only [execFullServiceStart, hb, hr, beq_self_eq_true, Bool.not_false, Bool.and_self, if_true, State.dueAll_eq]
  rfl

theorem teamPlacement_mem (k : Fin 16) : Instr.teamPlacement k ∈ (List.range 16).map fun j => Instr.teamPlacement (Fin.ofNat 16 j) :=
  List.mem_map.mpr ⟨k.val, List.mem_range.mpr k.isLt, by rw [Fin.ofNat_eq_cast, Fin.cast_val_eq_self]⟩

/-! ## Power and temperature (R24) -/

theorem exec_powerTemperatureLimit_low {s : State} (h : s.clockMHz ≤ 300) :
    exec .powerTemperatureLimit s = .next { s with thermalStop := true, thermalEvents := s.thermalEvents + 1 } := by
  change execPowerTemperatureLimit s = _
  simp only [execPowerTemperatureLimit, h, if_true]

/-- The steps that the clock goes down where it has `m` of them left. -/
def State.clockSteps (s : State) (m : Nat) : Nat := min (max 1 (Config.throttleSteps s.freeCtr).val) m

theorem State.one_le_clockSteps (s : State) {m : Nat} (h : 1 ≤ m) : 1 ≤ s.clockSteps m := by unfold State.clockSteps; omega
theorem State.clockSteps_le (s : State) (m : Nat) : s.clockSteps m ≤ m := Nat.min_le_right _ _

theorem exec_powerTemperatureLimit_high {s : State} {m : Nat} (hm : 1 ≤ m) (h : s.clockMHz = 300 + 25 * m) :
    exec .powerTemperatureLimit s =
      .next { s with clockMHz := s.clockMHz - 25 * s.clockSteps m, throttles := s.throttles + s.clockSteps m, freeCtr := s.freeCtr + 1 } := by
  have steps : (s.clockMHz - 300) / 25 = m := by omega
  have high : ¬ s.clockMHz ≤ 300 := by omega
  change execPowerTemperatureLimit s = _
  simp only [execPowerTemperatureLimit, high, steps, if_false, State.clockSteps]

/-! ## The error log (R379) -/

section ErrorLog
variable (s : State) (hit : Nat → Bool) (source unit base len va valen slice : Nat)

@[simp] theorem State.postError_signals : (s.postError hit source unit base len va valen slice).signals = s.signals :=
  foldl_keeps State.signals _ (by exact fun _ _ => rfl) _ _
@[simp] theorem State.postError_corrected : (s.postError hit source unit base len va valen slice).corrected = s.corrected :=
  foldl_keeps State.corrected _ (by exact fun _ _ => rfl) _ _
@[simp] theorem State.postError_mem : (s.postError hit source unit base len va valen slice).mem = s.mem :=
  foldl_keeps State.mem _ (by exact fun _ _ => rfl) _ _
@[simp] theorem State.postError_poison : (s.postError hit source unit base len va valen slice).poison = s.poison :=
  foldl_keeps State.poison _ (by exact fun _ _ => rfl) _ _
@[simp] theorem State.postError_teams : (s.postError hit source unit base len va valen slice).teams = s.teams :=
  foldl_keeps State.teams _ (by exact fun _ _ => rfl) _ _

@[simp] theorem State.logError_signals : (s.logError source unit base len va valen slice).signals = s.signals := s.postError_signals ..
@[simp] theorem State.logError_corrected : (s.logError source unit base len va valen slice).corrected = s.corrected := s.postError_corrected ..
@[simp] theorem State.logError_mem : (s.logError source unit base len va valen slice).mem = s.mem := s.postError_mem ..
@[simp] theorem State.logError_poison : (s.logError source unit base len va valen slice).poison = s.poison := s.postError_poison ..

end ErrorLog

@[simp] theorem State.logPoison_mem (s : State) (pa n va slice : Nat) : (s.logPoison pa n va slice).mem = s.mem :=
  foldl_keeps State.mem _ (fun s g => by split <;> exact s.logError_mem ..) _ s

@[simp] theorem State.logPoison_signals (s : State) (pa n va slice : Nat) : (s.logPoison pa n va slice).signals = s.signals :=
  foldl_keeps State.signals _ (fun s g => by split <;> exact s.logError_signals ..) _ s

/-! ## Memory errors (R377, R378) -/

theorem mem_addNew_singleton {l : List Nat} {g k : Nat} : k ∈ addNew l [g] ↔ k ∈ l ∨ k = g := by
  by_cases h : g ∈ l
  · have : k = g → k ∈ l := fun e => e ▸ h
    simp [addNew, h, or_iff_left_of_imp this]
  · simp [addNew, h]

theorem State.countCorrected_frame (s : State) (source unit n : Nat) :
    s.countCorrected source unit n = { s with corrected := (s.countCorrected source unit n).corrected } := by
  unfold State.countCorrected
  split <;> rfl

theorem State.countCorrected_count (s : State) (source unit n : Nat) :
    (FMap.get (s.countCorrected source unit n).corrected (unitKey source unit)).getD 0 =
      (FMap.get s.corrected (unitKey source unit)).getD 0 + n := by
  unfold State.countCorrected
  split
  · next h => rw [h, Nat.add_zero]
  · rw [FMap.get_set_same, Option.getD_some]

theorem exec_patrolScrub (s : State) (tower : Fin 12) (n : Nat) (bad : List SoftError) :
    exec (.patrolScrub tower n bad) s = .next (bad.foldl (State.softError tower.val) (s.countCorrected 0 tower.val n)) := rfl

/-- One thing that the scrubber of a tower reports, without a corrected error of the tower's own. -/
theorem exec_patrolScrub_one (s : State) (tower : Fin 12) (x : SoftError) :
    exec (.patrolScrub tower 0 [x]) s = .next (s.softError tower.val x) := rfl

section Granule
variable (s : State) (tower g : Nat)

@[simp] theorem State.softError_granule_mem : (State.softError tower s (.granule g)).mem = s.mem := by
  dsimp only [State.softError]
  split
  · rw [State.logError_mem, State.poisonGranule]
  · rfl

@[simp] theorem State.softError_granule_corrected : (State.softError tower s (.granule g)).corrected = s.corrected := by
  dsimp only [State.softError]
  split
  · rw [State.logError_corrected, State.poisonGranule]
  · rfl

/-- A granule that the scrubber cannot correct is poisoned when it is memory of the scrubbed tower. -/
theorem State.softError_granule_poison (k : Nat) :
    k ∈ (State.softError tower s (.granule g)).poison ↔
      k ∈ s.poison ∨ (k = g ∧ physOk (32 * k) 32 = true ∧ towerOf (32 * k) = tower) := by
  dsimp only [State.softError]
  split
  · next h =>
    obtain ⟨hphys, htower⟩ : physOk (32 * g) 32 = true ∧ towerOf (32 * g) = tower := by simpa using h
    rw [State.logError_poison]
    exact mem_addNew_singleton.trans (or_congr_right ⟨fun e => ⟨e, by rw [e]; exact ⟨hphys, htower⟩⟩, And.left⟩)
  · next h =>
    have : ¬ (physOk (32 * g) 32 = true ∧ towerOf (32 * g) = tower) := by simpa using h
    exact (or_iff_left fun ⟨e, there⟩ => this (e ▸ there)).symm

end Granule

/-- A pass over granules that cannot be corrected. -/
def State.scrubbed (s : State) (tower : Nat) (bad : List Nat) : State := (bad.map SoftError.granule).foldl (State.softError tower) s

theorem State.scrubbed_mem (s : State) (tower : Nat) (bad : List Nat) : (s.scrubbed tower bad).mem = s.mem := by
  rw [State.scrubbed, List.foldl_map]
  exact foldl_keeps State.mem _ (fun s g => s.softError_granule_mem tower g) bad s

theorem State.scrubbed_corrected (s : State) (tower : Nat) (bad : List Nat) : (s.scrubbed tower bad).corrected = s.corrected := by
  rw [State.scrubbed, List.foldl_map]
  exact foldl_keeps State.corrected _ (fun s g => s.softError_granule_corrected tower g) bad s

theorem State.scrubbed_poison (s : State) (tower : Nat) (bad : List Nat) (k : Nat) :
    k ∈ (s.scrubbed tower bad).poison ↔ k ∈ s.poison ∨ (k ∈ bad ∧ physOk (32 * k) 32 = true ∧ towerOf (32 * k) = tower) := by
  induction bad generalizing s with
  | nil => simp [State.scrubbed]
  | cons g bad ih =>
    change k ∈ ((State.softError tower s (.granule g)).scrubbed tower bad).poison ↔ _
    rw [ih, State.softError_granule_poison, List.mem_cons, or_and_right, or_assoc]

/-- An L2 slice poisons a granule in which it meets an error that it cannot correct (R377, R378). -/
theorem State.softError_l2 {s : State} {tower g : Nat} (h : physOk (32 * g) 32 = true) :
    State.softError tower s (.bad (.l2 g)) = (s.poisonGranule g true).logError 1 (homeSlice (lineOf (32 * g))) (32 * g) 32 0 0 0 := by
  simp only [State.softError, State.meetError, h, if_true]

/-- A course in which a place has met an error that cannot be corrected. -/
def Course.spoiled (x : Course) (p : BadPlace) : Course := { x with bad := if x.bad.contains p then x.bad else x.bad ++ [p] }

theorem Course.mem_bad_spoiled (x : Course) (p q : BadPlace) : q ∈ (x.spoiled p).bad ↔ q ∈ x.bad ∨ q = p := by
  by_cases h : p ∈ x.bad
  · have : q = p → q ∈ x.bad := fun e => e ▸ h
    simp [Course.spoiled, h, or_iff_left_of_imp this]
  · simp [Course.spoiled, h]

theorem State.poisonCourse_name_teams {s : State} {r : CourseRef} {t : Team} {x : Course} {n : Nat} (ht : FMap.get s.teams r.team = some t)
    (hx : FMap.get t.courses r.course = some x) (hs : x.suspended = false) (hn : nameCode x.names n ≠ 0) :
    (s.poisonCourse r (.name n)).teams = (s.onCourse r.team r.course fun x => x.spoiled (.name n)).teams := by
  simp only [State.poisonCourse, ht, hx, hs, bne_iff_ne.mpr hn, Bool.not_true, Bool.or_self, Bool.false_eq_true, if_false,
    State.postError_teams, Course.spoiled]

theorem State.get_onCourse {s : State} {tk c : Nat} {t : Team} {x : Course} (ht : FMap.get s.teams tk = some t)
    (hx : FMap.get t.courses c = some x) (f : Course → Course) :
    ∃ t', FMap.get (s.onCourse tk c f).teams tk = some t' ∧ FMap.get t'.courses c = some (f x) := by
  refine ⟨{ t with courses := FMap.modify t.courses c f }, ?_, ?_⟩
  · simp only [State.onCourse, FMap.get_modify_same, ht, Option.map_some]
  · simp only [FMap.get_modify_same, hx, Option.map_some]

/-! ## Link time (R256) -/

theorem exec_linkTimeExchange_fails {s : State} {ok : Bool} (h : s.domain = false ∨ ok = false) (port : Fin 18) (n : Nat) :
    exec (.linkTimeExchange port ok n) s = .next (s.signal (.timeMessage port.val (BitVec.ofNat 64 s.ns))) := by
  change execLinkTimeExchange port ok n s = _
  have : (s.domain && ok) = false := Bool.and_eq_false_iff.mpr h
  simp only [execLinkTimeExchange, this, Bool.false_eq_true, if_false]

theorem exec_linkTimeExchange_succeeds {s : State} (h : s.domain = true) (port : Fin 18) (n : Nat) :
    exec (.linkTimeExchange port true n) s =
      .next { s with signals := s.signals ++ [.timeMessage port.val (BitVec.ofNat 64 s.ns)], uPs := (Config.freeValue s.freeCtr).toNat,
                     uAt := s.ns, freeCtr := s.freeCtr + 1 } := by
  change execLinkTimeExchange port true n s = _
  exact if_pos (by rw [h, Bool.and_self])

theorem State.uNow_alone {s : State} (h : s.domain = false) : s.uNow = 0 := by
  simp only [State.uNow, h, Bool.false_eq_true, if_false]

theorem State.uNow_domain {s : State} (h : s.domain = true) : s.uNow = s.uPs + (s.ns - s.uAt) / 20 := by
  simp only [State.uNow, h, if_true]

/-- An exchange leaves U at the value that it computed. -/
theorem State.uNow_exchanged {s : State} (h : s.domain = true) (hat : s.uAt = s.ns) : s.uNow = s.uPs := by
  rw [State.uNow_domain h, hat, Nat.sub_self, Nat.zero_div, Nat.add_zero]

/-- U grows by 0.05 ns a µs: by 1 ps in 20 ns. -/
theorem State.uNow_later {s : State} (h : s.domain = true) (hat : s.uAt ≤ s.ns) (d : Nat) :
    s.uNow + d / 20 ≤ ({ s with ns := s.ns + d } : State).uNow ∧ ({ s with ns := s.ns + d } : State).uNow ≤ s.uNow + d / 20 + 1 := by
  rw [State.uNow_domain h, State.uNow_domain (s := { s with ns := s.ns + d }) h]
  dsimp only
  omega

/-! ## Flits (R354) -/

/-- What a thread still waits for once a remote access is acknowledged. -/
def Thread.acknowledge (th : Thread) (id dev : Nat) : Thread := { th with remote := th.remote.filter fun p => p != (id, dev) }

/-- The same of a course's threads. -/
def Course.acknowledge (x : Course) (id dev : Nat) : Course := { x with threads := x.threads.map fun r => (r.1, r.2.acknowledge id dev) }

theorem Course.get_acknowledge (x : Course) (id dev l : Nat) :
    FMap.get (x.acknowledge id dev).threads l = (FMap.get x.threads l).map fun th => th.acknowledge id dev :=
  FMap.get_map x.threads l fun _ (th : Thread) => th.acknowledge id dev

theorem Team.get_acknowledge (t : Team) (id dev c : Nat) :
    FMap.get (t.acknowledge id dev).courses c = (FMap.get t.courses c).map fun x => x.acknowledge id dev :=
  FMap.get_map t.courses c fun _ (x : Course) => x.acknowledge id dev

theorem State.get_acknowledge (s : State) (id dev tk : Nat) :
    FMap.get (s.acknowledge id dev).teams tk = (FMap.get s.teams tk).map fun t => t.acknowledge id dev :=
  FMap.get_map s.teams tk fun _ (t : Team) => t.acknowledge id dev

theorem State.threadAt_acknowledge (s : State) (id dev tk c l : Nat) :
    (s.acknowledge id dev).threadAt tk c l = (s.threadAt tk c l).map fun th => th.acknowledge id dev := by
  simp only [State.threadAt, State.get_acknowledge, Team.get_acknowledge, Course.get_acknowledge, Option.bind_map, Option.map_bind,
    Option.bind_assoc, Function.comp_def]

theorem exec_flitReceived_ack (s : State) (port : Fin 18) (id : Nat) (d : Fin 512) :
    exec (.flitReceived port true (some (.ack id d))) s = .next (s.acknowledge id d.val) := rfl

/-! ## Requests of other devices (R355) -/

@[simp] theorem State.recalled_signals (s : State) (pa n : Nat) : (s.recalled pa n).signals = s.signals :=
  foldl_keeps State.signals _ (fun s l => s.recall_signals l none) _ s

@[simp] theorem State.answerPoison_mem (s : State) (r : RemoteReq) : (s.answerPoison r).mem = s.mem := s.logPoison_mem ..
theorem State.answerPoison_signals (s : State) (r : RemoteReq) : (s.answerPoison r).signals = s.signals ++ [.remotePoison r.device.val] :=
  congrArg (· ++ [Signal.remotePoison r.device.val]) (s.logPoison_signals ..)

section Remote
variable {s : State} {r : RemoteReq}

theorem exec_remoteAccessRequest_denied (h : s.remoteAllowed r = false) :
    exec (.remoteAccessRequest r) s = .next (s.signal (.remoteProt r.device.val)) := by
  change execRemoteAccessRequest r s = _
  simp only [execRemoteAccessRequest, h, Bool.not_false, if_true]

theorem exec_remoteAccessRequest_performed (h : s.remoteAllowed r = true) (ha : s.homeAlive r.pa = true) :
    exec (.remoteAccessRequest r) s = .next (s.remotePerform r) := by
  change execRemoteAccessRequest r s = _
  simp only [execRemoteAccessRequest, h, ha, Bool.not_true, Bool.false_eq_true, if_false]

theorem State.remotePerform_read {n : Nat} (h : r.op = .read n) :
    s.remotePerform r =
      if (s.recalled r.pa n).poisoned r.pa n then (s.recalled r.pa n).answerPoison r
      else (s.recalled r.pa n).signal (.remoteDone r.device.val ((s.recalled r.pa n).mem.readN r.pa n)) := by
  simp only [State.remotePerform, h, remoteSize]

theorem State.remotePerform_write {b : List Byte} (h : r.op = .write b) :
    s.remotePerform r = (s.homeWrite r.pa b).signal (.remoteDone r.device.val []) := by
  simp only [State.remotePerform, h]

end Remote

/-- Settles O47: each clause is the rule of its event above. -/
theorem deviceEvents : Obligations.DeviceEvents := by
  unfold Obligations.DeviceEvents
  refine ⟨?reset, ?fullService, ?clockDown, ?clockLow, ?scrub, fun s tower source unit g => ⟨?corrected, ?l2⟩, ?name, ?time, ?timeMessage,
    ?flit, ?ack, ?remote⟩
  case reset =>
    refine fun s => ⟨_, exec_reset s, fun h => ?_, fun h => ⟨?_, ?_⟩, s.restarted.bootStages_frame 0 2⟩
    · rw [s.restarted_boot_fails h]
      exact ⟨rfl, rfl, rfl⟩
    · cases h' : stageVerifies 1 with
      | true => rw [s.restarted_boot_completes h h']; rfl
      | false => rw [s.restarted_boot_stops h h']; rfl
    · cases h' : stageVerifies 1 with
      | true => rw [s.restarted_boot_completes h h']; exact ⟨rfl, rfl⟩
      | false => rw [s.restarted_boot_stops h h']; exact ⟨rfl, rfl⟩
  case fullService =>
    exact fun s hb => ⟨fun hr => exec_fullServiceStart_running hr, fun hr => ⟨_, exec_fullServiceStart hb hr, rfl, rfl, rfl, rfl, rfl,
      fun k => List.mem_append_right _ (teamPlacement_mem k)⟩⟩
  case clockDown =>
    exact fun s m hm h => ⟨_, s.clockSteps m, exec_powerTemperatureLimit_high hm h, s.one_le_clockSteps hm, s.clockSteps_le m, rfl⟩
  case clockLow => exact fun s h => exec_powerTemperatureLimit_low h
  case scrub =>
    intro s tower n bad
    have frame := s.countCorrected_frame 0 tower.val n
    refine ⟨_, exec_patrolScrub s tower n _, ?_, ?_, fun g => ?_⟩
    · rw [← State.scrubbed, State.scrubbed_corrected, s.countCorrected_count]
    · rw [← State.scrubbed, State.scrubbed_mem, frame]
    · rw [← State.scrubbed, State.scrubbed_poison, frame]
  case corrected =>
    exact ⟨_, exec_patrolScrub_one s tower _, s.countCorrected_frame source.val unit 1, s.countCorrected_count source.val unit 1⟩
  case l2 =>
    intro h
    refine ⟨_, exec_patrolScrub_one s tower _, ?_, fun k => ?_⟩
    · rw [State.softError_l2 h, State.logError_mem]
      rfl
    · rw [State.softError_l2 h, State.logError_poison]
      exact mem_addNew_singleton
  case name =>
    intro s r t x tower n ht hx hs hn
    obtain ⟨t', ht', hx'⟩ := s.get_onCourse ht hx fun x => x.spoiled (.name n.val)
    refine ⟨_, t', _, exec_patrolScrub_one s tower _, ?_, hx', fun p => x.mem_bad_spoiled _ p, rfl⟩
    exact (congrArg (FMap.get · r.team) (State.poisonCourse_name_teams ht hx hs hn)).trans ht'
  case time =>
    refine fun s port ok n => ⟨fun h => exec_linkTimeExchange_fails h port n, ?_, State.uNow_alone, fun d h hat => State.uNow_later h hat d⟩
    rintro h rfl
    exact ⟨_, exec_linkTimeExchange_succeeds h port n, State.uNow_exchanged h rfl, rfl⟩
  case timeMessage =>
    refine fun s port stamp => ⟨_, rfl, Nat.le_add_right _ _, ?_, rfl⟩
    dsimp only
    omega
  case flit => exact fun s port body r p c w => ⟨rfl, rfl, rfl, rfl, rfl⟩
  case ack =>
    exact fun s port id d => ⟨_, exec_flitReceived_ack s port id d, fun q => s.threadAt_acknowledge id d.val q.team q.course q.lane, rfl⟩
  case remote =>
    refine fun s r => ⟨fun h => exec_remoteAccessRequest_denied h, fun h ha => ?_⟩
    rw [exec_remoteAccessRequest_performed h ha]
    refine ⟨fun n hr hp => ?_, fun n hr hp => ⟨_, rfl, ?_, ?_⟩, fun b hw => ⟨_, rfl, ?_, ?_⟩⟩
    · rw [State.remotePerform_read hr, hp]
      rfl
    · rw [State.remotePerform_read hr, hp, if_pos rfl, State.answerPoison_mem]
    · rw [State.remotePerform_read hr, hp, if_pos rfl, State.answerPoison_signals, State.recalled_signals]
    · rw [State.remotePerform_write hw, State.signal_signals, State.homeWrite_signals]
    · rw [State.remotePerform_write hw]
      exact s.homeWrite_read r.pa b

end Sys2Proof.Machine
end

section
/-!
SUPPORT. Delivering faults (R357 to R362) changes no course but its threads, and leaves the unit at hand as it is.
-/

namespace Sys2Proof.Machine

theorem kin_userWrite (fuel : Nat) (s : State) (part va : Nat) (b : List Byte) : Kin s (s.userWrite part va b fuel).1 := by
  induction fuel generalizing s va b with
  | zero => exact .refl s
  | succ fuel ih =>
    unfold State.userWrite
    dsimp only
    split
    · exact .refl s
    · split
      · exact .refl s
      · split
        · split
          · exact .refl s
          · exact (kin_remoteWrite _ _ _ _).trans (ih _ _ _)
        · split
          · exact .refl s
          · exact (kin_homeWrite _ _ _).trans (ih _ _ _)

theorem kin_record (s : State) (part : Nat) (j : Subject) (f : RecFields) : Kin s (s.record part j f).1 := by
  unfold State.record
  dsimp only
  split <;> exact .of_eq rfl rfl rfl

theorem kin_under (s : State) (t : Team) : Kin s (s.under t) := by
  unfold State.under
  split
  · exact .refl s
  · exact kin_setPart _ _ _

theorem kin_asTeam {α : Type} (s : State) (t : Team) (f : State → State × α) (h : ∀ s, Kin s (f s).1) : Kin s (s.asTeam t f).1 := by
  unfold State.asTeam
  split
  · exact h s
  · exact ((kin_under s t).trans (h _)).trans (kin_setPart _ _ _)

/-- A write of the device's own for a team changes nothing of a team but what it is held by (R395). -/
theorem kin_teamWrite (s : State) (tk va : Nat) (b : List Byte) : Kin s (s.teamWrite tk va b) := by
  unfold State.teamWrite
  split
  next => exact .refl s
  next t ht =>
    split
    · exact kin_setTeam ht (.of_eq rfl)
    · have k := kin_asTeam s t (fun s => s.userWrite t.part va b (pagesOf b.length)) fun s => kin_userWrite _ s _ va b
      split
      next e => rwa [e] at k
      next e =>
        rw [e] at k
        split
        next => exact k
        next t' ht' =>
          have held (u : Team) (h : u.courses = t'.courses) := k.trans (kin_setTeam ht' (.of_eq h))
          dsimp only
          split
          · exact held _ rfl
          · refine Kin.trans ?_ (kin_record _ _ _ _)
            exact held _ rfl

theorem kin_onCourse (s : State) (tk c : Nat) (f : Course → Course) (h : ∀ x : Course, x.Akin (f x)) : Kin s (s.onCourse tk c f) := by
  refine kin_modify s tk _ fun t d x hx => ?_
  by_cases e : d = c
  · subst e
    exact ⟨f x, by dsimp only; rw [FMap.get_modify_same, hx, Option.map_some], h x⟩
  · exact ⟨x, by dsimp only; rw [FMap.get_modify_ne _ _ e]; exact hx, .refl x⟩

theorem Course.akin_onThreads (x : Course) (ls : List Nat) (f : Nat → Thread → Thread) : x.Akin (x.onThreads ls f) :=
  ⟨_, rfl, map_ite_keys _ _ _⟩

theorem kin_leaveHold (s : State) (tk c l : Nat) : Kin s (s.leaveHold tk c l) := by
  unfold State.leaveHold
  split
  · exact .refl s
  · dsimp only
    split
    · split
      · exact kin_onThread _ _ _ _ _
      · exact .refl s
    all_goals exact (kin_setCore _ _ _).trans (kin_onCourse _ _ _ _ fun x => x.akin_onThreads _ _)

theorem kin_noteTsw (s : State) (tk c l : Nat) : Kin s (s.noteTsw tk c l) := by
  unfold State.noteTsw
  split
  · split
    · split
      · exact kin_teamWrite _ _ _ _
      · exact .refl s
    · exact .refl s
  · exact .refl s

theorem kin_freeze (s : State) (ks : List Nat) :
    Kin s { s with teams := s.teams.map fun p => if ks.contains p.1 then (p.1, { p.2 with frozen := true }) else p } := by
  refine ⟨rfl, rfl, fun k t ht => ⟨if ks.contains k then { t with frozen := true } else t, ?_, ?_⟩⟩
  · exact (map_ite_get s.teams _ (fun _ t => { t with frozen := true }) k).trans (by rw [ht]; rfl)
  · split <;> exact .of_eq rfl

theorem kin_stopThreads (s : State) (xs : List ThreadRef) (freeze : Bool) (tk token : Nat) : Kin s (s.stopThreads xs freeze tk token) := by
  unfold State.stopThreads
  dsimp only
  split
  · refine Kin.trans ?_ (kin_freeze _ _)
    exact .fold (fun s x => ((kin_leaveHold s _ _ _).trans (kin_onThread _ _ _ _ _)).trans (kin_noteTsw _ _ _ _)) _ _
  · exact .fold (fun s x => ((kin_leaveHold s _ _ _).trans (kin_onThread _ _ _ _ _)).trans (kin_noteTsw _ _ _ _)) _ _

/-- A thread that takes a fault for itself leaves the group that holds its pipe, if its unit is not performed (R367). -/
theorem kin_leaveUndone (s : State) (tk : Nat) (r : Req) : Kin s (if r.done then s else s.leaveHold tk r.course r.lane) := by
  split
  · exact .refl s
  · exact kin_leaveHold _ _ _ _

theorem kin_deliverSystem (s : State) (tk : Nat) (r : Req) (mask : W32) (escalated : Bool) (resume : W64) :
    Kin s (s.deliverSystem tk r mask escalated resume) := by
  unfold State.deliverSystem
  split
  · exact .refl s
  · dsimp only
    split
    · refine Kin.trans ?_ (kin_stopThreads _ _ _ _ _)
      exact ((kin_leaveUndone s tk r).trans (kin_record _ _ _ _)).trans (kin_onThread _ _ _ _ _)
    · exact ((kin_leaveUndone s tk r).trans (kin_record _ _ _ _)).trans (kin_onThread _ _ _ _ _)

theorem kin_deliverProgram (s : State) (tk : Nat) (r : Req) (mask : W32) : Kin s (s.deliverProgram tk r mask) := by
  unfold State.deliverProgram
  split
  · exact .refl s
  · dsimp only
    split
    · exact .refl s
    · split
      · exact kin_deliverSystem _ _ _ _ _ _
      · split
        · exact ((kin_leaveUndone s tk r).trans (kin_teamWrite _ _ _ _)).trans (kin_onThread _ _ _ _ _)
        · exact kin_leaveUndone s tk r

theorem kin_deliver (s : State) (rs : List Req) : Kin s (s.deliver rs) := by
  unfold State.deliver
  refine .fold (fun s r => ?_) rs s
  dsimp only
  split
  · exact kin_deliverProgram _ _ _ _
  · exact kin_deliverSystem _ _ _ _ _ _

end Sys2Proof.Machine
end

section
/-!
SUPPORT. The step at an event or a lift (R32, R60), the unit at an address (R78), and the word a fetch reads (R99, R343). `stepRunsUnit`
settles O59.
-/

namespace Sys2Proof.Machine

/-! ## The step (R32) -/

theorem step_event {s s1 : State} {e : Instr} (h : s.startStep.nextEvent = some (e, s1)) :
    step s = andThen (exec e s1) fun u => .next u.after := by
  unfold step State.oneStep
  simp only [h]

theorem step_lift {s : State} {l : Lift} (he : s.startStep.nextEvent = none) (hw : s.startStep.wake = none)
    (hl : s.startStep.nextLift = some l) : step s = s.startStep.runLift l := by
  unfold step State.oneStep
  simp only [he, hw, hl]

/-- A guard word reads no place of a course, and so meets no error (R378). -/
theorem State.meetsError_guardPrefix (s : State) (p : PredSel) (neg : Bool) : s.meetsError (.guardPrefix p neg) = [] := by
  unfold State.meetsError
  split
  · rfl
  · refine List.flatMap_eq_nil_iff.mpr fun c _ => ?_
    have places : (liveUse (s.core (by assumption : Team).core) (by assumption : Team) c
      (((s.issue.parts.filter fun m => m.1 == c).map Prod.snd).headD 0) (.guardPrefix p neg)).places = [] := rfl
    simp only [tileRead, places, List.any_nil, Bool.false_eq_true, if_false, ite_self]

theorem State.run_of_meetsNone {s : State} {i : Instr} (h : s.meetsError i = []) : s.run i = exec i s := by
  simp only [State.run, h, List.isEmpty_nil, if_true]

theorem State.run_guardPrefix (s : State) (p : PredSel) (neg : Bool) : s.run (.guardPrefix p neg) = exec (.guardPrefix p neg) s :=
  State.run_of_meetsNone (s.meetsError_guardPrefix p neg)

/-- Where no course of the lift has a poisoned place, the unit is its instruction (R378). -/
theorem State.run_of_sound {s : State} {i : Instr} (h : ∀ t, s.curTeam = some t → ∀ c ∈ coursesOf s.issue.lift, (t.course c).bad = []) :
    s.run i = exec i s := by
  refine State.run_of_meetsNone ?_
  unfold State.meetsError
  split
  · rfl
  · rename_i t ht
    refine List.flatMap_eq_nil_iff.mpr fun c hc => ?_
    simp only [h t ht c hc, List.isEmpty_nil, Bool.true_or, if_true]

/-- A unit that every thread of the lift reads poison at: each takes ECC, and nothing else is done (R378). -/
theorem State.run_of_meetsAll {s : State} {i : Instr} (h : s.meetsError i = s.issue.lift) (hne : s.issue.lift ≠ [])
    (hr : isRendezvous s.issue.word.toNat = false) :
    s.run i = .next (s.deliver (s.issue.lift.map fun m => { course := m.1, lane := m.2, code := .ecc })) := by
  have he : s.issue.lift.isEmpty = false := by simpa using hne
  have rest : (s.issue.lift.filter fun m => !s.issue.lift.contains m) = [] := List.filter_eq_nil_iff.mpr fun m hm => by simpa using hm
  unfold State.run
  simp only [h, he, Bool.false_eq_true, if_false, (kin_deliver s _).issue, hr, rest, List.isEmpty_nil, if_true]

theorem State.runLift_plain {s : State} {l : Lift} {i : Instr} (h : l.stand.found = .unit none i) :
    s.runLift l = andThen ((s.issueLift l).run i) fun u => .next u.after := by
  unfold State.runLift Lift.instrs
  rw [h]
  rfl

theorem State.runLift_guarded {s : State} {l : Lift} {i : Instr} {p : PredSel} {neg : Bool} (h : l.stand.found = .unit (some (p, neg)) i) :
    s.runLift l = andThen (andThen (exec (.guardPrefix p neg) (s.issueLift l)) fun u => u.run i) fun u => .next u.after := by
  unfold State.runLift Lift.instrs
  rw [h]
  change andThen (andThen ((s.issueLift l).run (.guardPrefix p neg)) fun u => u.run i) _ = _
  rw [State.run_guardPrefix]

/-! ## The unit at an address (R78) -/

theorem two_le_unitWords {w0 : Nat} (h : isPrefix w0 = true) (w1 : Nat) : 2 ≤ unitWords w0 w1 := by
  unfold unitWords
  dsimp only
  rw [if_pos h]
  split
  · decide
  · split
    · split <;> decide
    · decide

theorem unitWords_pos (w0 w1 : Nat) : 1 ≤ unitWords w0 w1 := by
  by_cases h : isPrefix w0 = true
  · exact Nat.le_of_succ_le (two_le_unitWords h w1)
  · unfold unitWords
    dsimp only
    rw [if_neg h]
    split
    · split <;> decide
    · decide

/-- Without a guard the first word alone says how long the unit is. -/
theorem unitWords_congr {w0 : Nat} (h : isPrefix w0 = false) (w1 w2 : Nat) : unitWords w0 w1 = unitWords w0 w2 := by
  unfold unitWords
  simp only [h, Bool.false_eq_true, if_false]

theorem decodeUnit_words {w0 w1 w2 : Nat} {u : DecUnit} (h : decodeUnit w0 w1 w2 = .ok u) : u.words = unitWords w0 w1 := by
  unfold decodeUnit at h
  split at h
  · split at h
    · exact nomatch h
    · split at h
      · exact nomatch h
      · split at h
        · exact nomatch h
        · cases h; rfl
  · split at h
    · exact nomatch h
    · split at h
      · exact nomatch h
      · cases h; rfl

theorem decodeWords_words {ws : List W32} {u : DecUnit} (h : decodeWords ws = .ok u) :
    u.words = unitWords (ws.headD 0).toNat (nth ws 1 0).toNat := by
  have e := decodeUnit_words h
  cases ws <;> exact e

/-- A unit whose words can all be fetched is the one they decode to. -/
theorem State.stand_of_words {s : State} {core part : Nat} {user : Bool} {pc : W64} {ws : List W32} {u : DecUnit}
    (hp : ∀ n, n ≤ ws.length → s.peekWords core part user pc n = .ok (ws.take n)) (hd : decodeWords ws = .ok u) (hw : u.words = ws.length) :
    s.stand core part user pc = ⟨ws, .unit u.guard u.instr⟩ := by
  have len : unitWords (ws.headD 0).toNat (nth ws 1 0).toNat = ws.length := (decodeWords_words hd).symm.trans hw
  have pos : 1 ≤ ws.length := len ▸ unitWords_pos _ _
  have head (n : Nat) (h : 1 ≤ n) : (ws.take n).headD 0 = ws.headD 0 := by
    obtain ⟨k, rfl⟩ := Nat.exists_eq_add_of_le' h
    cases ws <;> rfl
  unfold State.stand unitLength
  simp only [hp 1 pos, head 1 (Nat.le_refl 1)]
  cases hpre : isPrefix (ws.headD 0).toNat with
  | true =>
    have two : 2 ≤ ws.length := len ▸ two_le_unitWords hpre _
    have second : nth (ws.take 2) 1 0 = nth ws 1 0 := by simp [nth]
    simp only [if_true, hp 2 two, head 2 (by decide), second, len, Nat.max_eq_right two, hp _ (Nat.le_refl _), List.take_length, hd]
  | false =>
    simp only [Bool.false_eq_true, if_false, hp 1 pos, head 1 (Nat.le_refl 1), (unitWords_congr hpre _ _).trans len, Nat.max_eq_right pos,
      hp _ (Nat.le_refl _), List.take_length, hd]

/-! ## The word a fetch reads (R99, R343) -/

theorem State.peekWord_home {s s1 : State} {core part : Nat} {user : Bool} {pc : W64} {x : Xlat}
    (ht : s.translate (some core) part user .fetch pc = (s1, .ok x)) (hr : x.remote = none)
    (hc : FMap.get (s.core core).icache (lineOf x.pa) = none) (ha : s.homeAlive x.pa = true) (hb : s.poisoned x.pa 4 = false) :
    s.peekWord core part user pc = .ok (leNat (s.mem.readN x.pa 4)) := by
  unfold State.peekWord
  simp only [ht, hr, hc, ha, hb, Bool.not_true, Bool.false_eq_true, if_false]

/-- Settles O59: the step, its lift and the fetch of a unit follow the definitions; a guard word reads nothing, so no error comes before it. -/
theorem stepRunsUnit : Obligations.StepRunsUnit := by
  unfold Obligations.StepRunsUnit
  refine ⟨fun s l i he hw hl => ⟨fun h => ?_, fun p neg h => ?_⟩, fun s i => ⟨State.run_of_sound, State.run_of_meetsAll⟩,
    fun _ _ _ => step_event, fun _ _ _ _ _ _ _ => State.stand_of_words, fun _ _ _ _ _ _ _ => State.peekWord_home⟩
  · exact (step_lift he hw hl).trans (State.runLift_plain h)
  · exact (step_lift he hw hl).trans (State.runLift_guarded h)

end Sys2Proof.Machine
end

section
/-!
SUPPORT. The timers of waiting threads (R47, R124, R136, R294, R335). `timersRunOut` settles O43.
-/

namespace Sys2Proof.Machine

/-! ## Threads by place -/

theorem State.threadAt_eq {s : State} {tk c l : Nat} {t : Team} {x : Course} (ht : FMap.get s.teams tk = some t)
    (hx : FMap.get t.courses c = some x) : s.threadAt tk c l = FMap.get x.threads l := by
  simp only [State.threadAt, ht, hx, Option.bind_some]

/-- A change of one course, seen from any thread. -/
theorem State.threadAt_onCourse (s : State) (tk c : Nat) (f : Course → Course) (uk d m : Nat) :
    (s.onCourse tk c f).threadAt uk d m =
      if uk = tk ∧ d = c then ((FMap.get s.teams tk).bind fun t => FMap.get t.courses c).bind fun x => FMap.get (f x).threads m
      else s.threadAt uk d m := by
  by_cases h1 : uk = tk
  · subst h1
    simp only [State.threadAt, onCourse_get]
    cases ht : FMap.get s.teams uk with
    | none => simp
    | some t =>
      simp only [Option.map_some, Option.bind_some, true_and, FMap.get_modify]
      by_cases h2 : d = c
      · subst h2
        simp only [if_true]
        cases FMap.get t.courses d <;> rfl
      · simp only [if_neg h2]
  · simp only [State.threadAt, onCourse_get_ne s c f h1, h1, false_and, if_false]

theorem State.threadAt_onCourse_ne (s : State) (tk c : Nat) (f : Course → Course) {q : ThreadRef} (h : (q.team, q.course) ≠ (tk, c)) :
    (s.onCourse tk c f).threadAt q.team q.course q.lane = s.threadAt q.team q.course q.lane := by
  rw [State.threadAt_onCourse, if_neg]
  rintro ⟨h1, h2⟩
  exact h (by rw [h1, h2])

/-! ## What an access of the device's own leaves alone (R395) -/

/-- Nothing that is due, no token's subject and nothing of a thread but its monitor is gone. -/
structure Calm (s u : State) : Prop where
  agenda : s.agenda ⊆ u.agenda
  threads : ∀ k c l th, s.threadAt k c l = some th → ∃ m, u.threadAt k c l = some { th with monitor := m }
  parts : u.parts.length = s.parts.length
  tokens : ∀ p, (s.part p).nextToken ≤ (u.part p).nextToken
  subjects : ∀ p k, k < (s.part p).nextToken → FMap.get (u.part p).subjects k = FMap.get (s.part p).subjects k

theorem Calm.of_eq {s u : State} (ha : u.agenda = s.agenda) (ht : u.teams = s.teams) (hp : u.parts = s.parts) : Calm s u where
  agenda := ha ▸ List.Subset.refl _
  threads k c l th h := ⟨th.monitor, by rw [State.threadAt, ht]; exact h⟩
  parts := by rw [hp]
  tokens p := by simp only [State.part, hp, Nat.le_refl]
  subjects p k _ := by simp only [State.part, hp]

theorem Calm.refl (s : State) : Calm s s := .of_eq rfl rfl rfl

theorem Calm.trans {s u v : State} (h : Calm s u) (k : Calm u v) : Calm s v where
  agenda := List.Subset.trans h.agenda k.agenda
  threads n c l th ht := by
    obtain ⟨m, hm⟩ := h.threads n c l th ht
    obtain ⟨m', hm'⟩ := k.threads n c l _ hm
    exact ⟨m', hm'⟩
  parts := k.parts.trans h.parts
  tokens p := (h.tokens p).trans (k.tokens p)
  subjects p n hn := (k.subjects p n (Nat.lt_of_lt_of_le hn (h.tokens p))).trans (h.subjects p n hn)

theorem Calm.fold {α : Type} {f : State → α → State} (h : ∀ s a, Calm s (f s a)) (l : List α) (s : State) : Calm s (l.foldl f s) := by
  induction l generalizing s with
  | nil => exact .refl s
  | cons a t ih => exact (h s a).trans (ih (f s a))

theorem Thread.hear_eq (th : Thread) (dev : Option Nat) (line : Nat) : ∃ m, th.hear dev line = { th with monitor := m } := by
  unfold Thread.hear
  split
  · split
    · exact ⟨_, rfl⟩
    · exact ⟨th.monitor, rfl⟩
  · exact ⟨th.monitor, rfl⟩

theorem State.threadAt_fireMonitors (s : State) (dev : Option Nat) (line k c l : Nat) :
    (s.fireMonitors dev line).threadAt k c l = (s.threadAt k c l).map fun th => th.hear dev line := by
  have team : FMap.get (s.fireMonitors dev line).teams k = (FMap.get s.teams k).map fun t => t.hear dev line :=
    FMap.get_map s.teams k fun _ t => t.hear dev line
  have course (t : Team) : FMap.get (t.hear dev line).courses c = (FMap.get t.courses c).map fun x => x.hear dev line :=
    FMap.get_map t.courses c fun _ x => x.hear dev line
  have thread (x : Course) : FMap.get (x.hear dev line).threads l = (FMap.get x.threads l).map fun th => th.hear dev line :=
    FMap.get_map x.threads l fun _ th => th.hear dev line
  simp only [State.threadAt, team]
  cases FMap.get s.teams k with
  | none => rfl
  | some t =>
    simp only [Option.map_some, Option.bind_some, course]
    cases FMap.get t.courses c with
    | none => rfl
    | some x => exact thread x

theorem calm_fireMonitors (s : State) (dev : Option Nat) (line : Nat) : Calm s (s.fireMonitors dev line) where
  agenda := List.Subset.refl _
  threads k c l th h := by
    obtain ⟨m, hm⟩ := th.hear_eq dev line
    exact ⟨m, by rw [State.threadAt_fireMonitors, h, Option.map_some, hm]⟩
  parts := rfl
  tokens _ := Nat.le_refl _
  subjects _ _ _ := rfl

theorem calm_performDirty (s : State) (core line : Nat) : Calm s (s.performDirty core line) := by
  unfold State.performDirty
  dsimp only
  split
  · exact .refl s
  · split
    · exact .of_eq rfl rfl rfl
    · refine Calm.trans ?_ (calm_fireMonitors _ none line)
      exact .of_eq rfl rfl rfl

theorem calm_recall (s : State) (line : Nat) (e : Option Nat) : Calm s (s.recall line e) := by
  unfold State.recall
  dsimp only
  refine .fold (fun s k => Calm.trans (calm_performDirty s k line) ?_) _ s
  exact .of_eq rfl rfl rfl

theorem calm_homeWrite (s : State) (pa : Nat) (b : List Byte) : Calm s (s.homeWrite pa b) := by
  unfold State.homeWrite
  dsimp only
  refine Calm.trans (.fold (fun s l => calm_recall s l none) (linesOf pa b.length) s) (Calm.trans ?_ (.fold (fun s l => calm_fireMonitors s none l) _ _))
  exact .of_eq rfl rfl rfl

theorem calm_remoteWrite (s : State) (dev pa : Nat) (b : List Byte) : Calm s (s.remoteWrite dev pa b) := by
  unfold State.remoteWrite
  split
  · exact calm_homeWrite s pa b
  · dsimp only
    refine Calm.trans ?_ (.fold (fun s l => calm_fireMonitors s (some dev) l) _ _)
    exact .of_eq rfl rfl rfl

theorem calm_userWrite (fuel : Nat) (s : State) (part va : Nat) (b : List Byte) : Calm s (s.userWrite part va b fuel).1 := by
  induction fuel generalizing s va b with
  | zero => exact .refl s
  | succ fuel ih =>
    unfold State.userWrite
    dsimp only
    split
    · exact .refl s
    · split
      · exact .refl s
      · split
        · split
          · exact .refl s
          · exact (calm_remoteWrite _ _ _ _).trans (ih _ _ _)
        · split
          · exact .refl s
          · exact (calm_homeWrite _ _ _).trans (ih _ _ _)

/-- A partition after one is set, at any number. -/
theorem State.part_setPart_or (s : State) (p q : Nat) (x : Partition) :
    (s.setPart p x).part q = s.part q ∨ (p = q ∧ (s.setPart p x).part q = x) := by
  by_cases h : q = p
  · subst h
    by_cases hp : q < s.parts.length
    · exact .inr ⟨rfl, s.part_setPart q x hp⟩
    · refine .inl ?_
      simp only [State.part, State.setPart, setNth, List.set_eq_of_length_le (Nat.le_of_not_lt hp)]
  · exact .inl (s.part_setPart_ne x h)

/-- Setting a partition that keeps its tokens and their subjects. -/
theorem calm_setPart (s : State) (p : Nat) (x : Partition) (ht : (s.part p).nextToken ≤ x.nextToken)
    (hs : ∀ k, k < (s.part p).nextToken → FMap.get x.subjects k = FMap.get (s.part p).subjects k) : Calm s (s.setPart p x) where
  agenda := List.Subset.refl _
  threads _ _ _ th h := ⟨th.monitor, h⟩
  parts := length_setNth _ _ _
  tokens q := by
    obtain h | ⟨rfl, h⟩ := s.part_setPart_or p q x
    · rw [h]
    · rw [h]; exact ht
  subjects q k hk := by
    obtain h | ⟨rfl, h⟩ := s.part_setPart_or p q x
    · rw [h]
    · rw [h]; exact hs k hk

theorem calm_due (s : State) (e : Instr) : Calm s (s.due e) where
  agenda := List.subset_append_left _ _
  threads _ _ _ th h := ⟨th.monitor, h⟩
  parts := rfl
  tokens _ := Nat.le_refl _
  subjects _ _ _ := rfl

theorem calm_record (s : State) (part : Nat) (j : Subject) (f : RecFields) : Calm s (s.record part j f).1 := by
  have posted : Calm s ((s.setPart part { s.part part with
      nextToken := (s.part part).nextToken + 1
      subjects := FMap.set (s.part part).subjects (s.part part).nextToken j
      faultRing := { (s.part part).faultRing with waiting := (s.part part).faultRing.waiting ++ [f.bytes (s.part part).nextToken] } }).due
        (.faultRecordPost (Fin.ofNat 16 part))) := by
    refine Calm.trans (calm_setPart s part _ (Nat.le_succ _) fun k hk => ?_) (calm_due _ _)
    exact FMap.get_set_ne _ _ (Nat.ne_of_lt hk)
  unfold State.record
  dsimp only
  split
  · exact posted.trans (.of_eq rfl rfl rfl)
  · exact posted

theorem calm_asTeam {α : Type} (s : State) (t : Team) (f : State → State × α) (h : ∀ s, Calm s (f s).1) : Calm s (s.asTeam t f).1 := by
  unfold State.asTeam
  split
  · exact h s
  · refine Calm.trans ?_ (calm_setPart _ _ _ (Nat.le_refl _) fun _ _ => rfl)
    refine Calm.trans ?_ (h _)
    unfold State.under
    split
    · exact .refl s
    · exact calm_setPart _ _ _ (Nat.le_refl _) fun _ _ => rfl

theorem calm_setTeam {s : State} {k : Nat} {t u : Team} (ht : FMap.get s.teams k = some t) (h : u.courses = t.courses) : Calm s (s.setTeam k u) where
  agenda := List.Subset.refl _
  threads n c l th hn := by
    refine ⟨th.monitor, ?_⟩
    by_cases e : n = k
    · subst e
      simp only [State.threadAt, ht, Option.bind_some, State.setTeam_teams, FMap.get_set_same, h] at hn ⊢
      exact hn
    · simp only [State.threadAt, State.setTeam_teams, FMap.get_set_ne _ _ e] at hn ⊢
      exact hn
  parts := rfl
  tokens _ := Nat.le_refl _
  subjects _ _ _ := rfl

theorem calm_teamWrite (s : State) (tk va : Nat) (b : List Byte) : Calm s (s.teamWrite tk va b) := by
  unfold State.teamWrite
  split
  next => exact .refl s
  next t ht =>
    split
    · exact calm_setTeam ht rfl
    · have k := calm_asTeam s t (fun s => s.userWrite t.part va b (pagesOf b.length)) fun s => calm_userWrite _ s _ va b
      split
      next e => rwa [e] at k
      next e =>
        rw [e] at k
        split
        next => exact k
        next t' ht' =>
          have held (u : Team) (h : u.courses = t'.courses) := k.trans (calm_setTeam ht' h)
          dsimp only
          split
          · exact held _ rfl
          · refine Calm.trans ?_ (calm_record _ _ _ _)
            exact held _ rfl

theorem calm_rewriteThread (s : State) (tk c l : Nat) : Calm s (s.rewriteThread tk c l) := by
  unfold State.rewriteThread
  split
  · split
    · dsimp only
      split
      · exact .refl s
      · exact (calm_teamWrite _ _ _ _).trans (calm_teamWrite _ _ _ _)
    · exact .refl s
  · exact .refl s

/-! ## A thread that is parked (R362) -/

theorem Course.get_keepLatch {x : Course} {l : Nat} {th : Thread} (h : FMap.get x.threads l = some th) (pipe : Fin 4) :
    ∃ sv, FMap.get (x.keepLatch pipe l).threads l = some { th with saved := sv } := by
  unfold Course.keepLatch
  rw [Course.onThreads_get, h, Option.map_some, if_pos (by simp)]
  exact ⟨_, rfl⟩

/-- A thread that leaves the group that holds a pipe keeps all but the latches saved with it (R367). -/
theorem State.threadAt_leaveHold {s : State} {tk c l : Nat} {th : Thread} (h : s.threadAt tk c l = some th) :
    ∃ sv, (s.leaveHold tk c l).threadAt tk c l = some { th with saved := sv } := by
  unfold State.leaveHold
  split
  · exact ⟨th.saved, h⟩
  · dsimp only
    split
    · split
      · exact ⟨_, by rw [State.threadAt_onThread, if_pos ⟨rfl, rfl, rfl⟩, h]; rfl⟩
      · exact ⟨th.saved, h⟩
    all_goals
      obtain ⟨x, hx, hth⟩ := Option.bind_eq_some_iff.mp h
      obtain ⟨sv, hsv⟩ := Course.get_keepLatch hth (by assumption : Hold).pipe
      refine ⟨sv, ?_⟩
      rw [State.threadAt_onCourse, if_pos ⟨rfl, rfl⟩]
      change ((FMap.get s.teams tk).bind _).bind _ = _
      rw [hx, Option.bind_some, hsv]

theorem State.leaveHold_parts (s : State) (tk c l : Nat) : (s.leaveHold tk c l).parts = s.parts := by
  unfold State.leaveHold
  split
  · rfl
  · dsimp only
    split
    · split <;> rfl
    all_goals rfl

theorem State.part_setSlice (s : State) (k : Nat) (x : Slice) (p : Nat) : (s.setSlice k x).part p = s.part p := rfl

/-- The token a record is given, and what it stands for (R363). -/
theorem State.record_subject {s : State} {part : Nat} (h : part < s.parts.length) (j : Subject) (f : RecFields) :
    FMap.get ((s.record part j f).1.part part).subjects (s.record part j f).2 = some j ∧
      (s.record part j f).2 < ((s.record part j f).1.part part).nextToken := by
  have posted (x : Partition) : ((s.setPart part x).due (.faultRecordPost (Fin.ofNat 16 part))).part part = x := s.part_setPart part x h
  unfold State.record
  dsimp only
  split
  · rw [State.part_setSlice, posted]
    exact ⟨FMap.get_set_same _ _ _, Nat.lt_succ_self _⟩
  · rw [posted]
    exact ⟨FMap.get_set_same _ _ _, Nat.lt_succ_self _⟩

/-- A fault that parks its thread at its unit, without halting others. -/
theorem State.deliverSystem_parks {s : State} {tk : Nat} {t : Team} {th : Thread} {r : Req} (ht : FMap.get s.teams tk = some t)
    (hth : s.threadAt tk r.course r.lane = some th) (hp : t.part < s.parts.length) (hd : r.done = false)
    (hc : (r.code == .brk || r.code == .step) = false) (mask : W32) (escalated : Bool) (resume : W64) :
    ∃ sv token, (s.deliverSystem tk r mask escalated resume).threadAt tk r.course r.lane =
        some { ({ th with saved := sv } : Thread).noteFault r mask escalated with pc := resume, parked := some ⟨r.code.num, token⟩ } ∧
      FMap.get ((s.deliverSystem tk r mask escalated resume).part t.part).subjects token = some (.thread ⟨tk, r.course, r.lane⟩ r.code.num []) ∧
      token < ((s.deliverSystem tk r mask escalated resume).part t.part).nextToken ∧
      Instr.faultRecordPost (Fin.ofNat 16 t.part) ∈ (s.deliverSystem tk r mask escalated resume).agenda := by
  obtain ⟨sv, hsv⟩ := State.threadAt_leaveHold hth
  have hp' : t.part < (s.leaveHold tk r.course r.lane).parts.length := by rw [State.leaveHold_parts]; exact hp
  unfold State.deliverSystem
  simp only [ht, hd, hc, Bool.false_eq_true, if_false]
  generalize hf : ({ code := r.code, kind := 0, detail := _, slice := t.slice, core := t.core, course := r.course, lane := r.lane, team := t.index, addr := resume, faultAddr := _, mask := _ } : RecFields) = f
  obtain ⟨hsub, hlt⟩ := State.record_subject hp' (.thread ⟨tk, r.course, r.lane⟩ r.code.num []) f
  obtain ⟨m, hm⟩ := (calm_record (s.leaveHold tk r.course r.lane) t.part (.thread ⟨tk, r.course, r.lane⟩ r.code.num []) f).threads _ _ _ _ hsv
  refine ⟨sv, _, ?_, hsub, hlt, ?_⟩
  · have hm' : ((s.leaveHold tk r.course r.lane).record t.part (.thread ⟨tk, r.course, r.lane⟩ r.code.num []) f).1.threadAt tk r.course r.lane =
        some { th with saved := sv } := by
      rw [← hsv]
      unfold State.record
      dsimp only
      split <;> rfl
    rw [State.threadAt_onThread, if_pos ⟨rfl, rfl, rfl⟩, hm', Option.map_some]
  · rw [State.onThread_agenda, State.record_agenda]
    exact List.mem_append_right _ (List.mem_singleton_self _)

/-! ## The timers -/

section Timers
variable {s : State} {r : ThreadRef} {t : Team} {x : Course} {th : Thread} (ht : FMap.get s.teams r.team = some t)
  (hx : FMap.get t.courses r.course = some x) (hth : FMap.get x.threads r.lane = some th)
include ht hx hth

/-- R136: a sleeper whose count is out goes on, and nothing else changes. -/
theorem exec_sleepExpiry (hw : th.wait = .sleep 0) :
    exec (.sleepExpiry r) s = .next { s.onThread r.team r.course r.lane fun t => t.goto (t.pc + BitVec.ofNat 64 t.waitLen) s.cycle with
      issue := { s.issue with retired := s.issue.retired ++ [(r.team, r.course, r.lane)] } } := by
  have h := (State.threadAt_eq ht hx (l := r.lane)).trans hth
  change execSleepExpiry r s = _
  unfold execSleepExpiry State.endSleep
  simp only [h, Option.map_some, hw]
  rfl

/-- What R294 makes of the course of a thread whose mwait ends with a status. -/
def Course.endMwait (x : Course) (l d : Nat) (status : W32) (now : Nat) : Course :=
  (x.writeReg false [l] false d ⟨.g, fun _ => zx64 status⟩).onThreads [l] fun _ t =>
    { t.goto (t.pc + BitVec.ofNat 64 t.waitLen) now with monitor := none }

/-- R294: a monitor wait whose count is out ends with status 1. -/
theorem exec_mwaitTimeout {d : Nat} (hw : th.wait = .mwait d (some 0)) :
    exec (.mwaitTimeout r) s = .next { s.onCourse r.team r.course fun x => x.endMwait r.lane d 1 s.cycle with
      issue := { s.issue with retired := s.issue.retired ++ [(r.team, r.course, r.lane)] } } := by
  have h := (State.threadAt_eq ht hx (l := r.lane)).trans hth
  change execMwaitTimeout r s = _
  unfold execMwaitTimeout State.endMwait
  simp only [h, Option.map_some, hw]
  rfl

/-- R335: a thread that has waited SENTINEL cycles is parked. -/
theorem exec_waitSentinel (hn : th.parked = none) (hs : ((s.under t).part t.part).sentinel ≤ th.sentinel) :
    exec (.waitSentinel r) s = .next ((s.deliverSystem r.team { course := r.course, lane := r.lane, code := .waitSentinel } 0 false
      th.pc).rewriteThread r.team r.course r.lane) := by
  have h := (State.threadAt_eq ht hx (l := r.lane)).trans hth
  change execWaitSentinel r s = _
  unfold execWaitSentinel
  simp only [ht, h, hn, Option.isNone_none, hs, decide_true, Bool.true_and, if_true]

end Timers

/-- R124: the count of a conv is out. -/
theorem exec_convTimeout {s : State} {r : CourseRef} {t : Team} {x : Course} {pc : BitVec 64} (ht : FMap.get s.teams r.team = some t)
    (hx : FMap.get t.courses r.course = some x) (hc : FMap.get x.convs pc.toNat = some 0) :
    exec (.convTimeout r pc) s = .next (s.leaveConv r pc) := by
  change execConvTimeout r pc s = _
  unfold execConvTimeout
  simp only [ht, hx, hc, Option.bind_some]

theorem exec_spawnTimerExpiry {s : State} {tk : Nat} {t : Team} {bin : Fin 8} (ht : FMap.get s.teams tk = some t)
    (hb : (nth t.bins bin.val {}).pending = true) : exec (.spawnTimerExpiry tk bin) s = .next (s.settle tk) := by
  change execSpawnTimerExpiry tk bin s = _
  unfold execSpawnTimerExpiry
  simp only [ht, hb, if_true]

theorem atConv_iff (th : Thread) : atConv th = true ↔ th.wait = .conv := by
  unfold atConv
  cases th.wait <;> simp

/-- The threads of a course that leave a conv (R124). -/
theorem Course.get_leaveAll (x : Course) (now : Nat) (sel : Thread → Bool) (l : Nat) :
    FMap.get (x.leaveAll now sel).threads l =
      (FMap.get x.threads l).map fun th => if sel th then th.goto (th.pc + BitVec.ofNat 64 th.waitLen) now else th := by
  refine Eq.trans (congrArg (FMap.get · l) ?_) (FMap.get_map x.threads l fun _ th => if sel th then th.goto (th.pc + BitVec.ofNat 64 th.waitLen) now else th)
  refine List.map_congr_left fun q _ => ?_
  split <;> rfl

section LeaveConv
variable {s : State} {r : CourseRef} {t : Team} {x : Course} (ht : FMap.get s.teams r.team = some t)
  (hx : FMap.get t.courses r.course = some x) (pc : BitVec 64)
include ht hx

theorem State.leaveConv_threadAt (l : Nat) :
    (s.leaveConv r pc).threadAt r.team r.course l =
      (FMap.get x.threads l).map fun th => if th.wait = .conv ∧ th.pc = pc then th.goto (th.pc + BitVec.ofNat 64 th.waitLen) s.cycle else th := by
  unfold State.leaveConv
  simp only [ht, hx, Option.bind_some]
  refine (State.threadAt_onCourse s _ _ _ _ _ _).trans ?_
  rw [if_pos ⟨rfl, rfl⟩, ht, Option.bind_some, hx, Option.bind_some]
  change FMap.get (x.leaveAll s.cycle fun t => atConv t && t.pc == pc).threads l = _
  rw [Course.get_leaveAll]
  simp only [Bool.and_eq_true, beq_iff_eq, atConv_iff]

theorem State.leaveConv_others {q : ThreadRef} (h : (q.team, q.course) ≠ (r.team, r.course)) :
    (s.leaveConv r pc).threadAt q.team q.course q.lane = s.threadAt q.team q.course q.lane := by
  unfold State.leaveConv
  simp only [ht, hx, Option.bind_some]
  exact State.threadAt_onCourse_ne s _ _ _ h

theorem State.leaveConv_frame :
    s.leaveConv r pc = { s with teams := (s.leaveConv r pc).teams, issue := (s.leaveConv r pc).issue } := by
  unfold State.leaveConv
  simp only [ht, hx, Option.bind_some]
  rfl

end LeaveConv

/-- What R294 leaves of the course: the status in the destination, every other name as it was, the thread gone on. -/
theorem Course.endMwait_spec {x : Course} (hx : x.sound = true) {l d : Nat} {th : Thread} (hth : FMap.get x.threads l = some th) (hd : d < 64)
    (status : W32) (now : Nat) :
    (∃ sv, FMap.get (x.endMwait l d status now).threads l =
      some { th.goto (th.pc + BitVec.ofNat 64 th.waitLen) now with monitor := none, saved := sv }) ∧
    regRow (x.endMwait l d status now) d l = status ∧
    ∀ n, ∀ k ∈ x.live, ¬ (n = d ∧ k = l) → regRow (x.endMwait l d status now) n k = regRow x n k := by
  obtain ⟨ok, lanes⟩ := Course.sound_ok hx
  have hl : l ∈ x.live := (FMap.mem_keys _ _).mpr (by rw [hth]; rfl)
  have mem : ∀ k ∈ [l], k ∈ x.live := fun k hk => List.mem_singleton.mp hk ▸ hl
  obtain ⟨w, wrote⟩ := write32 ok lanes (full := false) (sh := .g) (v := fun _ => zx64 status) hd mem nofun (.inl rfl)
  have row (n k : Nat) : regRow (x.endMwait l d status now) n k = regRow (x.writeReg false [l] false d ⟨.g, fun _ => zx64 status⟩) n k := by
    simp only [regRow, Course.endMwait, Course.onThreads_live]
    rfl
  refine ⟨?_, ?_, fun n k hk hne => ?_⟩
  · obtain ⟨th', hth', ⟨sv, rfl⟩, _⟩ := w.threads.get l th hth
    refine ⟨sv, ?_⟩
    rw [Course.endMwait, Course.onThreads_get, hth', Option.map_some]
    simp only [List.contains_cons, beq_self_eq_true, Bool.true_or, if_true]
    rfl
  · rw [row, wrote l (List.mem_singleton_self l)]
    simp [lo32, zx64]
  · rw [row]
    exact w.reg n k hk fun h => hne ⟨List.mem_singleton.mp h.1, List.mem_singleton.mp h.2⟩

/-- Settles O43: each timer by the rule of its wait; the parked thread's record by what the device's own accesses leave alone. -/
theorem timersRunOut : Obligations.TimersRunOut := by
  unfold Obligations.TimersRunOut
  intro s r t x th ht hx hth next
  have here := (State.threadAt_eq ht hx (l := r.lane)).trans hth
  refine ⟨fun hw => ⟨_, exec_sleepExpiry ht hx hth hw, ?_, fun q hq => ?_, rfl⟩, fun d hw hd hs => ⟨_, x.endMwait r.lane d 1 s.cycle, exec_mwaitTimeout ht hx hth hw, ?_⟩,
    fun pc hc => ⟨_, exec_convTimeout (r := ⟨r.team, r.course⟩) ht hx hc, ?_, fun q hq => State.leaveConv_others ht hx pc hq, State.leaveConv_frame ht hx pc⟩,
    fun hn hp hs => ?_, fun bin hb => exec_spawnTimerExpiry ht hb⟩
  · refine (State.threadAt_onThread s _ _ _ _ _ _ _).trans ?_
    rw [if_pos ⟨rfl, rfl, rfl⟩, here, Option.map_some]
  · refine (State.threadAt_onThread s _ _ _ _ _ _ _).trans (if_neg ?_)
    rintro ⟨h1, h2, h3⟩
    exact hq (by cases q; cases r; simp_all)
  · obtain ⟨hsv, hv, hrow⟩ := Course.endMwait_spec hs hth hd 1 s.cycle
    refine ⟨⟨_, (onCourse_get s _ _ _).trans (by rw [ht, Option.map_some]), ?_, fun k hk => FMap.get_modify_ne _ _ hk⟩, hsv, hv, hrow,
      fun k hk => onCourse_get_ne s _ _ hk, rfl⟩
    rw [FMap.get_modify_same, hx, Option.map_some]
  · exact (State.leaveConv_threadAt ht hx pc r.lane).trans (by rw [hth, Option.map_some])
  · obtain ⟨sv, token, hpark, hsub, hlt, hdue⟩ := State.deliverSystem_parks
      (r := { course := r.course, lane := r.lane, code := .waitSentinel }) ht here hp rfl rfl 0 false th.pc
    have calm := calm_rewriteThread (s.deliverSystem r.team { course := r.course, lane := r.lane, code := .waitSentinel } 0 false th.pc)
      r.team r.course r.lane
    obtain ⟨m, hm⟩ := calm.threads _ _ _ _ hpark
    exact ⟨_, _, token, exec_waitSentinel ht hx hth hn hs, hm, rfl, rfl, rfl, (calm.subjects _ _ hlt).trans hsub, calm.agenda hdue⟩

end Sys2Proof.Machine
end


section

/-!
SUPPORT. The refutation of O35: a course whose thread map holds its one lane twice. A ret that takes its last on-chip entry raises SP in every entry of
the lane by that entry's own SP; the statement sets every entry to the SP of the first, and 8.
-/

namespace Sys2Proof.Machine

/-- The placed machine with the teams `T`, at a unit of lane 0 of the placed team's course. -/
def loneState (T : FMap Team) : State :=
  { State.reset.placeWord 0 with
    teams := T
    issue := { core := 0, team := teamKey 0 1 0, lift := [(0, 0)], parts := [(0, 0)], addr := 0x1000, len := 4 } }

theorem lone_ascending (c : Nat) : (lanesIn [(0, 0)] c).Pairwise (· < ·) := by
  unfold lanesIn
  by_cases h : ((0, 0) : Nat × Nat).1 == c <;> simp [h]

/-- What is to be checked of a team whose course 0 issues its lane 0. -/
theorem solo_loneState {t : Team} {T : FMap Team} (ht : FMap.get T (teamKey 0 1 0) = some t) (live : 0 ∈ (t.course 0).live)
    (course : (FMap.get t.courses 0).isSome = true) (sound : (t.course 0).sound = true) (core : t.core = 0) : Solo (loneState T) t 0 0 := by
  have only {P : Nat × Nat → Prop} (h : P (0, 0)) : ∀ m ∈ [((0, 0) : Nat × Nat)], P m := fun m hm => by
    rw [List.mem_singleton.mp hm]
    exact h
  have gens : ((loneState T).core 0).latchGen.length = 4 := rfl
  exact ⟨⟨⟨ht, only live, only course, only (List.mem_singleton_self _), only sound, by rw [core]; exact gens,
    fun c => ⟨lone_ascending c, lone_ascending c⟩⟩, rfl, List.cons_ne_nil _ _⟩, rfl, rfl⟩

/-- The placed team with lane 0 twice in the thread map, with two stack pointers; the map answers with the first. -/
def doubledTeam : Team :=
  { placedTeam with courses := [(0, { threads :=
      [(0, { pc := 0x1000, stack := [0x2005], sp := 0x2FF8 }), (0, { pc := 0x1000, stack := [0x2005], sp := 0x3000 })] })] }

/-- The state in which that thread issues its ret. -/
def doubledState : State := loneState [(teamKey 0 1 0, doubledTeam)]

theorem solo_doubledState : Solo doubledState doubledTeam 0 0 :=
  solo_loneState rfl (by decide +kernel) (by decide +kernel) (by decide +kernel) rfl

/-- The stack pointers that the teams hold, entry by entry. -/
def spEntries (s : State) : List W64 :=
  s.teams.flatMap fun k => k.2.courses.flatMap fun c => c.2.threads.map fun q => q.2.sp

/-- The stack pointers after an instruction that goes on. -/
def spAfter : Host.Outcome State Fault Refusal → List W64
  | .next s => spEntries s
  | _ => []

/-- What the thread's load of its refilled entry answers. -/
def refill : State × LaneRes :=
  doubledState.accessLane (doubledState.whoOf doubledState.issue.team doubledTeam 0 [0]) { kind := .load 8 false }
    { lane := 0, addr := ((doubledTeam.course 0).thread 0).sp }

/-- The words in the answer of an access that is done. -/
def LaneRes.words : LaneRes → List W32
  | .done v => v
  | _ => []

theorem refill_done : refill = (refill.1, .done refill.2.words) := by decide +kernel

/-- What the refill leaves in the two entries: each is raised by 8 from where it stood. -/
theorem spAfter_ret_doubledState : spAfter (exec .ret doubledState) = [0x3000, 0x3008] := by decide +kernel

/-- Refutes O35: where a course's thread map holds the one lane of the lift twice, a ret that refills the call stack raises each entry's own SP, while
the statement gives both the first entry's SP and 8. -/
theorem not_branchesCallsAndSpill : ¬ Obligations.BranchesCallsAndSpill := by
  unfold Obligations.BranchesCallsAndSpill
  intro h
  have hret := (h.2 .always false 1 _ _ 0 0 solo_doubledState).2.2 0x2005 refill.1 refill.2.words (by decide +kernel) (by decide) (by decide +kernel) refill_done
  have hsp := congrArg spAfter hret
  rw [spAfter_ret_doubledState] at hsp
  exact absurd hsp (by decide +kernel)

end Sys2Proof.Machine

end

section
/-!
SUPPORT. Units that act on their threads one after another: what a sequence of changes of single lanes makes of the courses of a lift.
-/

namespace Sys2Proof.Machine

/-! ## One lane of a course -/

/-- A change of the thread on one lane. -/
def Course.atLane (x : Course) (l : Nat) (f : Thread → Thread) : Course := { x with threads := FMap.modify x.threads l f }

theorem State.onThread_eq (s : State) (tk c l : Nat) (f : Thread → Thread) : s.onThread tk c l f = s.onCourse tk c fun x => x.atLane l f := rfl

theorem Course.atLane_live (x : Course) (l : Nat) (f : Thread → Thread) : (x.atLane l f).live = x.live := FMap.keys_modify _ _ _

theorem Course.atLane_get (x : Course) (l : Nat) (f : Thread → Thread) (k : Nat) :
    FMap.get (x.atLane l f).threads k = (FMap.get x.threads k).map fun th => if k = l then f th else th := by
  rw [Course.atLane, FMap.get_modify]
  by_cases h : k = l
  · subst h; simp only [if_true]
  · simp only [if_neg h, Option.map_id']

theorem Course.atLane_atLane (x : Course) (l : Nat) (f g : Thread → Thread) : (x.atLane l f).atLane l g = x.atLane l fun th => g (f th) := by
  simp only [Course.atLane, FMap.modify_modify]

theorem Course.atLane_updated (x : Course) (l : Nat) (f : Thread → Thread) : Updated x (x.atLane l f) fun k th => if k = l then f th else th :=
  ⟨rfl, x.atLane_live l f, x.atLane_get l f⟩

theorem Course.atLane_ok {x : Course} (h : x.Ok) (l : Nat) (f : Thread → Thread) : (x.atLane l f).Ok :=
  ⟨h.names, h.dead, h.opf, h.latches, h.links, h.opfLinks⟩

/-- A change of a thread that does not look at the latches saved with it, and keeps them. -/
def Blind (f : Thread → Thread) : Prop := ∀ th sv, f { th with saved := sv } = { f th with saved := sv }

theorem Blind.saved {f : Thread → Thread} (h : Blind f) (th : Thread) : (f th).saved = th.saved := by
  have e := congrArg Thread.saved (h th th.saved)
  exact e

theorem Blind.comp {f g : Thread → Thread} (hg : Blind g) (hf : Blind f) : Blind fun th => g (f th) := fun th sv => by
  dsimp only
  rw [hf, hg]

theorem blind_goto (pc : W64) (now : Nat) : Blind fun th => th.goto pc now := fun _ _ => rfl

/-- READ_FREE where a condition holds. -/
def Thread.noteFree (th : Thread) (free : Bool) : Thread := if free then th.setReadFree else th

theorem blind_noteFree (free : Bool) : Blind fun th => th.noteFree free := fun th sv => by cases free <;> rfl

/-! ## What a sequence of lanes keeps -/

theorem CourseFrame.refl (x : Course) (lasts : List Nat) (pipes : Nat → Prop) : CourseFrame x x [] [] [] lasts [] pipes fun _ th => th where
  live := rfl
  kept _ _ _ _ _ := ⟨rfl, fun _ => rfl⟩
  last _ _ _ h := absurd h List.not_mem_nil
  entries _ _ _ _ := ⟨rfl, fun _ => rfl⟩
  latches _ _ _ _ := rfl
  threads _ th h := ⟨th.saved, h, fun _ hz _ _ _ => hz⟩
  rest := ⟨rfl, rfl, rfl, rfl, rfl, rfl, rfl⟩

/-- Where nothing is read for the last time, it does not matter by whom. -/
theorem CourseFrame.ofNoLast {x y : Course} {lift : List Nat} {pipes : Nat → Prop} {u : Nat → Thread → Thread}
    (h : CourseFrame x y [] [] [] [] lift pipes u) (lift' : List Nat) : CourseFrame x y [] [] [] [] lift' pipes u where
  live := h.live
  kept n l hl h1 _ := h.kept n l hl h1 fun e => absurd e.1 List.not_mem_nil
  last _ hn := absurd hn List.not_mem_nil
  entries := h.entries
  latches := h.latches
  threads := h.threads
  rest := h.rest

/-- A thread changes after the frame is settled. -/
theorem CourseFrame.atLane {x y : Course} {regs ents lanes lasts lift : List Nat} {pipes : Nat → Prop} {u : Nat → Thread → Thread}
    (h : CourseFrame x y regs ents lanes lasts lift pipes u) (l : Nat) {f : Thread → Thread} (hf : Blind f) :
    CourseFrame x (y.atLane l f) regs ents lanes lasts lift pipes fun k th => if k = l then f (u k th) else u k th where
  live := (y.atLane_live l f).trans h.live
  kept n k hk h1 h2 := by
    obtain ⟨row, free⟩ := h.kept n k hk h1 h2
    refine ⟨?_, free⟩
    rw [← row, regRow, regRow, y.atLane_live]
    rfl
  last n hn k hk hv hw := by
    obtain ⟨row, free⟩ := h.last n hn k hk hv hw
    refine ⟨?_, free⟩
    rw [← row, regRow, regRow, y.atLane_live]
    rfl
  entries := h.entries
  latches := h.latches
  threads k th hth := by
    obtain ⟨sv, e, keeps⟩ := h.threads k th hth
    refine ⟨sv, ?_, fun z hz => keeps z ?_⟩
    · rw [y.atLane_get, e, Option.map_some]
      split
      · rw [hf]
      · rfl
    · split at hz
      · rwa [hf.saved] at hz
      · exact hz
  rest := h.rest

/-- One more lane after some others. -/
theorem CourseFrame.thenLane {x y z : Course} {lasts ls : List Nat} {l : Nat} {pipes : Nat → Prop} {u : Nat → Thread → Thread}
    (h : CourseFrame x y [] [] [] lasts ls pipes fun k th => if k ∈ ls then u k th else th)
    (k : CourseFrame y z [] [] [] lasts [l] pipes fun k th => if k = l then u k th else th) (hl : l ∉ ls) (hu : Blind (u l)) :
    CourseFrame x z [] [] [] lasts (ls ++ [l]) pipes fun k th => if k ∈ ls ++ [l] then u k th else th where
  live := k.live.trans h.live
  kept n m hm _ h2 := by
    obtain ⟨r1, f1⟩ := h.kept n m hm (fun e => nomatch e.1) fun e => h2 ⟨e.1, List.mem_append_left _ e.2⟩
    obtain ⟨r2, f2⟩ := k.kept n m (h.live ▸ hm) (fun e => nomatch e.1) fun e => h2 ⟨e.1, List.mem_append_right _ e.2⟩
    exact ⟨r2.trans r1, fun e => (f2 e).trans (f1 e)⟩
  last n hn m hm hv hw := by
    by_cases e : m ∈ [l]
    · exact k.last n hn m e (h.live ▸ hv) hw
    · obtain ⟨r1, f1⟩ := h.last n hn m ((List.mem_append.mp hm).resolve_right e) hv hw
      obtain ⟨r2, f2⟩ := k.kept n m (h.live ▸ hv) hw fun w => e w.2
      exact ⟨r2.trans r1, (f2 List.not_mem_nil).trans f1⟩
  entries n m hm hw := by
    obtain ⟨r1, f1⟩ := h.entries n m hm hw
    obtain ⟨r2, f2⟩ := k.entries n m (h.live ▸ hm) hw
    exact ⟨r2.trans r1, fun e => (f2 e).trans (f1 e)⟩
  latches j hj hr he := by
    have e := h.latches j hj hr he
    exact (k.latches j hj (fun n hn => by rw [e]; exact hr n hn) fun n hn => by rw [e]; exact he n hn).trans e
  threads m th hth := by
    obtain ⟨sv, e, keeps⟩ := h.threads m th hth
    obtain ⟨sv', e', keeps'⟩ := k.threads m _ e
    refine ⟨sv', ?_, fun z hz h1 h2 h3 => keeps' z ?_ h1 h2 h3⟩
    · rw [e']
      by_cases w : m = l
      · subst w
        simp only [hl, if_false, if_true, List.mem_append, List.mem_singleton, or_true, hu th sv]
      · simp only [w, if_false, List.mem_append, List.mem_singleton, or_false]
    · by_cases w : m = l
      · subst w
        have mem : m ∈ ls ++ [m] := List.mem_append_right _ (List.mem_singleton_self m)
        rw [if_pos rfl, hu.saved]
        rw [if_pos mem, hu.saved] at hz
        exact keeps z (by rwa [if_neg hl]) h1 h2 h3
      · have mem : m ∈ ls ++ [l] ↔ m ∈ ls := by simp [w]
        simp only [mem] at hz
        rw [if_neg w]
        exact keeps z hz h1 h2 h3
  rest := by
    obtain ⟨a1, a2, a3, a4, a5, a6, a7⟩ := h.rest
    obtain ⟨b1, b2, b3, b4, b5, b6, b7⟩ := k.rest
    exact ⟨b1.trans a1, b2.trans a2, b3.trans a3, b4.trans a4, b5.trans a5, b6.trans a6, b7.trans a7⟩
/-! ## One course after some of its lanes -/

/-- The course `y` after the lanes `ls` of `x` have been changed by `u`, each alone. -/
structure Trod (x y : Course) (ls : List Nat) (pipes : Nat → Prop) (u : Nat → Thread → Thread) : Prop where
  ok : y.Ok
  frame : CourseFrame x y [] [] [] [] ls pipes fun k th => if k ∈ ls then u k th else th

theorem Trod.start {x : Course} (h : x.Ok) (pipes : Nat → Prop) (u : Nat → Thread → Thread) : Trod x x [] pipes u where
  ok := h
  frame := (CourseFrame.refl x _ pipes).congr fun _ _ _ => by simp only [List.not_mem_nil, if_false]

/-- The next lane's thread is as it was, but for the latches saved with it. -/
theorem Trod.thread {x y : Course} {ls : List Nat} {pipes : Nat → Prop} {u : Nat → Thread → Thread}
    (h : Trod x y ls pipes u) {l : Nat} (hl : l ∈ x.live) (hn : l ∉ ls) : ∃ sv, y.thread l = { x.thread l with saved := sv } := by
  obtain ⟨th, hth⟩ := mem_live_get hl
  obtain ⟨sv, e, -⟩ := h.frame.threads l th hth
  refine ⟨sv, ?_⟩
  rw [Course.thread, Course.thread, e, hth]
  simp only [hn, if_false, Option.getD_some]

/-- Changes that agree on a thread agree on it with other latches saved. -/
theorem Blind.agree {f g : Thread → Thread} (hf : Blind f) (hg : Blind g) {th : Thread} (e : f th = g th) (sv : List SavedLatch) :
    f { th with saved := sv } = g { th with saved := sv } := by rw [hf, hg, e]

section Next
variable {x y : Course} {ls : List Nat} {pipes : Nat → Prop} {u : Nat → Thread → Thread}
  (h : Trod x y ls pipes u) {l : Nat} (hl : l ∈ x.live) (hn : l ∉ ls) (hb : Blind (u l))
include h hl hn hb

/-- One more lane, whose thread the frame of its step changes as `u` says. -/
theorem Trod.next {z : Course} {f : Thread → Thread} (hf : Blind f) (e : u l (x.thread l) = f (x.thread l)) (hz : z.Ok)
    (k : CourseFrame y z [] [] [] [] [l] pipes fun k th => if k = l then f th else th) : Trod x z (ls ++ [l]) pipes u where
  ok := hz
  frame := by
    refine h.frame.thenLane (k.congr fun j th hth => ?_) hn hb
    obtain ⟨sv, hsv⟩ := h.thread hl hn
    split
    next ej =>
      have here : th = { x.thread l with saved := sv } := by
        rw [← hsv, Course.thread, ← ej, hth, Option.getD_some]
      rw [here, ej]
      exact hf.agree hb e.symm sv
    next => rfl

/-- One more lane whose thread alone changes. -/
theorem Trod.atLane {f : Thread → Thread} (hf : Blind f) (e : u l (x.thread l) = f (x.thread l)) :
    Trod x (y.atLane l f) (ls ++ [l]) pipes u :=
  h.next hl hn hb hf e (Course.atLane_ok h.ok l f) (((CourseFrame.refl y [] pipes).atLane l hf).ofNoLast [l])

end Next

/-! ## A team after some members of its lift -/

/-- The state with some teams. -/
def State.withTeams (s : State) (T : FMap Team) : State := { s with teams := T }

/-- The teams `T`, their issuing team with courses `cs`, after the members `ms` of the lift of team `t` have acted, each on its lane alone; `b`
are the courses they began with. -/
structure Walk (s : State) (t : Team) (b : Nat → Course) (pipes : Nat → Prop) (u : Nat → Nat → Thread → Thread)
    (ms : List (Nat × Nat)) (cs : FMap Course) (T : FMap Team) : Prop where
  team : FMap.get T s.issue.team = some { t with courses := cs }
  out : ∀ c, c ∉ coursesOf s.issue.lift → FMap.get cs c = FMap.get t.courses c
  trod : ∀ c ∈ coursesOf s.issue.lift, ∃ y, FMap.get cs c = some y ∧ Trod (b c) y (lanesIn ms c) pipes (u c)
  others : ∀ k, k ≠ s.issue.team → FMap.get T k = FMap.get s.teams k

theorem Lifted.course {s : State} {t : Team} (h : Lifted s t) {c : Nat} (hc : c ∈ coursesOf s.issue.lift) :
    FMap.get t.courses c = some (t.course c) ∧ (t.course c).Ok ∧ ∀ l ∈ (t.course c).live, l < 32 := by
  obtain ⟨m, hm, rfl⟩ := mem_coursesOf.mp hc
  refine ⟨?_, Course.sound_ok (h.sound m hm)⟩
  obtain ⟨x, hx⟩ := Option.isSome_iff_exists.mp (h.courses m hm)
  rw [Team.course, hx, Option.getD_some]

theorem Walk.start {s : State} {t : Team} (h : Lifted s t) (pipes : Nat → Prop) (u : Nat → Nat → Thread → Thread) :
    Walk s t t.course pipes u [] t.courses s.teams where
  team := h.team
  out _ _ := rfl
  trod _ hc := ⟨_, (h.course hc).1, .start (h.course hc).2.1 pipes _⟩
  others _ _ := rfl

theorem lanesIn_append (ms ns : List (Nat × Nat)) (c : Nat) : lanesIn (ms ++ ns) c = lanesIn ms c ++ lanesIn ns c := by
  simp only [lanesIn, List.filter_append, List.map_append]

theorem lanesIn_single (c l k : Nat) : lanesIn [(c, l)] k = if k = c then [l] else [] := by
  by_cases h : k = c
  · subst h; simp [lanesIn]
  · simp [lanesIn, h, Ne.symm h]

/-- The teams after one course of the issuing team has changed. -/
def State.changed (s : State) (T : FMap Team) (c : Nat) (g : Course → Course) : FMap Team :=
  FMap.modify T s.issue.team fun t => { t with courses := FMap.modify t.courses c g }

theorem State.withTeams_onCourse (s : State) (T : FMap Team) (c : Nat) (g : Course → Course) :
    (s.withTeams T).onCourse s.issue.team c g = s.withTeams (s.changed T c g) := rfl

/-- A lift's members stand on lanes not met before. -/
theorem fresh_lane {ms rest : List (Nat × Nat)} {c l : Nat} (h : (lanesIn (ms ++ (c, l) :: rest) c).Nodup) : l ∉ lanesIn ms c := by
  rw [lanesIn_append] at h
  intro hl
  exact (List.nodup_append.mp h).2.2 l hl l (mem_lanesIn.mpr List.mem_cons_self) rfl

section Steps
variable {s : State} {t : Team} {b : Nat → Course} {pipes : Nat → Prop} {u : Nat → Nat → Thread → Thread}

theorem Walk.next {ms : List (Nat × Nat)} {cs : FMap Course} {T : FMap Team} (h : Walk s t b pipes u ms cs T) {c l : Nat} {y : Course}
    (hc : c ∈ coursesOf s.issue.lift) (hy : FMap.get cs c = some y) {g : Course → Course}
    (hg : Trod (b c) (g y) (lanesIn ms c ++ [l]) pipes (u c)) :
    Walk s t b pipes u (ms ++ [(c, l)]) (FMap.modify cs c g) (s.changed T c g) where
  team := by rw [State.changed, FMap.get_modify_same, h.team, Option.map_some]
  out k hk := by
    have ne : k ≠ c := fun e => hk (by rw [e]; exact hc)
    rw [FMap.get_modify_ne _ _ ne]
    exact h.out k hk
  trod k hk := by
    rw [lanesIn_append, lanesIn_single]
    by_cases e : k = c
    · subst e
      exact ⟨g y, by rw [FMap.get_modify_same, hy, Option.map_some], by rw [if_pos rfl]; exact hg⟩
    · obtain ⟨z, hz, tz⟩ := h.trod k hk
      exact ⟨z, by rw [FMap.get_modify_ne _ _ e]; exact hz, by rw [if_neg e, List.append_nil]; exact tz⟩
  others k hk := by
    rw [State.changed, FMap.get_modify_ne _ _ hk]
    exact h.others k hk

/-- What a step for member `m` does in a walk: it changes the member's course alone, at the member's lane alone. -/
def Treads (s : State) (t : Team) (b : Nat → Course) (pipes : Nat → Prop) (u : Nat → Nat → Thread → Thread) (F : State → Nat × Nat → State)
    (m : Nat × Nat) : Prop :=
  ∀ T cs ls y, m.2 ∉ ls → FMap.get T s.issue.team = some { t with courses := cs } → FMap.get cs m.1 = some y → Trod (b m.1) y ls pipes (u m.1) →
    ∃ g, F (s.withTeams T) m = (s.withTeams T).onCourse s.issue.team m.1 g ∧ Trod (b m.1) (g y) (ls ++ [m.2]) pipes (u m.1)

/-- Members one after another, each on a lane of its own. -/
theorem Walk.fold {F : State → Nat × Nat → State} : ∀ (rest : List (Nat × Nat)) {ms : List (Nat × Nat)} {cs : FMap Course} {T : FMap Team},
    (∀ m ∈ rest, m ∈ s.issue.lift) → (∀ m ∈ rest, Treads s t b pipes u F m) → (∀ c, (lanesIn (ms ++ rest) c).Nodup) →
    Walk s t b pipes u ms cs T → ∃ T' cs', rest.foldl F (s.withTeams T) = s.withTeams T' ∧ Walk s t b pipes u (ms ++ rest) cs' T' := by
  intro rest
  induction rest with
  | nil => exact fun _ _ _ w => ⟨_, _, rfl, by rwa [List.append_nil]⟩
  | cons m rest ih =>
    intro ms cs T hin step nodup w
    obtain ⟨c, l⟩ := m
    have hc : c ∈ coursesOf s.issue.lift := mem_coursesOf.mpr ⟨_, hin _ List.mem_cons_self, rfl⟩
    obtain ⟨y, hy, ty⟩ := w.trod c hc
    obtain ⟨g, hF, hg⟩ := step _ List.mem_cons_self T cs _ y (fresh_lane (nodup c)) w.team hy ty
    obtain ⟨T', cs', eq, w'⟩ := ih (fun k hk => hin k (List.mem_cons_of_mem _ hk)) (fun k hk => step k (List.mem_cons_of_mem _ hk))
      (fun k => by rw [List.append_assoc]; exact nodup k) (w.next hc hy hg)
    rw [List.append_assoc] at w'
    exact ⟨T', cs', by rw [List.foldl_cons, hF]; exact eq, w'⟩

/-- A step that changes one thread, as `u` changes it. -/
theorem treads_onThread {m : Nat × Nat} {f : Thread → Thread} (live : m.2 ∈ (b m.1).live) (hb : Blind (u m.1 m.2)) (hf : Blind f)
    (e : u m.1 m.2 ((b m.1).thread m.2) = f ((b m.1).thread m.2)) {F : State → Nat × Nat → State}
    (hF : ∀ T, F (s.withTeams T) m = (s.withTeams T).onThread s.issue.team m.1 m.2 f) : Treads s t b pipes u F m :=
  fun T _ _ _ hn _ _ ty => ⟨fun x => x.atLane m.2 f, hF T, ty.atLane live hn hb hf e⟩

end Steps

end Sys2Proof.Machine
end

section
/-!
SUPPORT. The rendezvous units (R123, R124, R132), and what settles O36.
-/

namespace Sys2Proof.Machine

/-! ## The members of a lift, participants first -/

theorem mem_falseParts {i : Issue} {m : Nat × Nat} : m ∈ i.falseParts ↔ m ∈ i.lift ∧ m ∉ i.parts := by
  simp [Issue.falseParts]

theorem Lifted.mem_parts_falseParts {s : State} {t : Team} (h : Lifted s t) {m : Nat × Nat} :
    m ∈ s.issue.parts ++ s.issue.falseParts ↔ m ∈ s.issue.lift := by
  rw [List.mem_append, mem_falseParts]
  exact ⟨fun e => e.elim (h.parts m) And.left, fun e => (em _).imp id fun n => ⟨e, n⟩⟩

theorem Lifted.parts_falseParts_nodup {s : State} {t : Team} (h : Lifted s t) (c : Nat) :
    (lanesIn (s.issue.parts ++ s.issue.falseParts) c).Nodup := by
  rw [lanesIn_append]
  refine List.Nodup.append ((h.ascending c).2.imp Nat.ne_of_lt) ?_ fun l hp hf => ?_
  · have sub : (lanesIn s.issue.falseParts c).Sublist (lanesIn s.issue.lift c) := (List.filter_sublist.filter _).map _
    exact ((h.ascending c).1.imp Nat.ne_of_lt).sublist sub
  · exact (mem_falseParts.mp (mem_lanesIn.mp hf)).2 (mem_lanesIn.mp hp)

/-! ## Arriving -/

/-- What becomes of a thread of the lift where the participating ones become `upd`. -/
def stayed (s : State) (upd : Nat → Nat → Thread → Thread) (k l : Nat) (th : Thread) : Thread :=
  if s.issue.parts.contains (k, l) then upd k l th else th.goto s.issue.next s.cycle

theorem stayed_part {s : State} {upd : Nat → Nat → Thread → Thread} {m : Nat × Nat} (h : m ∈ s.issue.parts) :
    stayed s upd m.1 m.2 = upd m.1 m.2 := by
  funext th
  exact if_pos (List.contains_iff_mem.mpr h)

theorem stayed_falsePart {s : State} {upd : Nat → Nat → Thread → Thread} {m : Nat × Nat} (h : m ∈ s.issue.falseParts) :
    stayed s upd m.1 m.2 = fun th => th.goto s.issue.next s.cycle := by
  funext th
  exact if_neg fun e => (mem_falseParts.mp h).2 (List.contains_iff_mem.mp e)

theorem blind_stayed {s : State} {upd : Nat → Nat → Thread → Thread} (h : ∀ k l, Blind (upd k l)) (k l : Nat) : Blind (stayed s upd k l) := by
  intro th sv
  unfold stayed
  split
  · exact h k l th sv
  · rfl

/-- A course with its counts of conv replaced. -/
def reconv (t : Team) (convs : Nat → FMap Nat → FMap Nat) (c : Nat) : Course := { t.course c with convs := convs c (t.course c).convs }

section Arrive
variable {s : State} {t : Team} {dropped : List Nat} {convs : Nat → FMap Nat → FMap Nat} {upd : Nat → Nat → Thread → Thread}
  {cs : FMap Course} {T : FMap Team}

/-- After the participating threads the others go on. -/
theorem Walk.retire (h : Lifted s t) (hb : ∀ k l, Blind (upd k l)) (w : Walk s t (reconv t convs) (· ∈ dropped) (stayed s upd) s.issue.parts cs T) :
    ∃ T' cs', (s.withTeams T).retire s.issue.falseParts s.issue.next =
        { s.withTeams T' with issue := { s.issue with retired := s.issue.retired ++ s.issue.falseParts.map fun m => (s.issue.team, m.1, m.2) } } ∧
      Walk s t (reconv t convs) (· ∈ dropped) (stayed s upd) (s.issue.parts ++ s.issue.falseParts) cs' T' := by
  obtain ⟨T', cs', e, w'⟩ := w.fold (F := fun v m => v.onThread v.issue.team m.1 m.2 fun t => t.goto s.issue.next v.cycle) s.issue.falseParts
    (fun m hm => (mem_falseParts.mp hm).1) (fun m hm => treads_onThread (b := reconv t convs) (h.live m (mem_falseParts.mp hm).1)
      (blind_stayed hb _ _) (blind_goto _ _) (by rw [stayed_falsePart hm]) fun T => rfl) h.parts_falseParts_nodup
  exact ⟨T', cs', by unfold State.retire; rw [e]; rfl, w'⟩

/-- A walk over the whole lift is what Stays says. -/
theorem Walk.stays (h : Lifted s t) (w : Walk s t (reconv t convs) (· ∈ dropped) (stayed s upd) (s.issue.parts ++ s.issue.falseParts) cs T) :
    Stays s { s.withTeams T with issue := { s.issue with retired := s.issue.retired ++ s.issue.falseParts.map fun m => (s.issue.team, m.1, m.2) } }
      t [] (fun _ => []) dropped convs upd := by
  refine ⟨rfl, ⟨cs, w.team, w.out, fun c hc => ?_⟩, w.others, rfl, fun _ _ => rfl, rfl⟩
  obtain ⟨y, hy, ty⟩ := w.trod c hc
  obtain ⟨tiles, log, loads, suspended, awaitTiles, tileWait, convs⟩ := ty.frame.rest
  refine ⟨y, hy, convs, ?_⟩
  have moved : CourseFrame (t.course c) { y with convs := (t.course c).convs } [] [] [] [] (lanesIn (s.issue.parts ++ s.issue.falseParts) c) (· ∈ dropped)
      fun l th => if l ∈ lanesIn (s.issue.parts ++ s.issue.falseParts) c then stayed s upd c l th else th :=
    { ty.frame with rest := ⟨tiles, log, loads, suspended, awaitTiles, tileWait, rfl⟩ }
  refine (moved.ofNoLast []).congr fun l th _ => ?_
  simp only [mem_lanesIn, h.mem_parts_falseParts, stayed, List.contains_iff_mem]
  by_cases hp : (c, l) ∈ s.issue.parts
  · simp only [hp, h.parts _ hp, if_true]
  · simp only [hp, if_false]

/-- The participating threads stay where `F` puts them, one after another; the others go on. -/
theorem arrives (h : Lifted s t) (hb : ∀ k l, Blind (upd k l)) (w : Walk s t (reconv t convs) (· ∈ dropped) (stayed s upd) [] cs T)
    {F : State → Nat × Nat → State} (hF : ∀ m ∈ s.issue.parts, Treads s t (reconv t convs) (· ∈ dropped) (stayed s upd) F m) :
    ∃ s', (s.issue.parts.foldl F (s.withTeams T)).retire (s.issue.parts.foldl F (s.withTeams T)).issue.falseParts
        (s.issue.parts.foldl F (s.withTeams T)).issue.next = s' ∧ Stays s s' t [] (fun _ => []) dropped convs upd := by
  obtain ⟨T1, cs1, e1, w1⟩ := w.fold (ms := []) s.issue.parts h.parts hF fun c => (h.ascending c).2.imp Nat.ne_of_lt
  obtain ⟨T2, cs2, e2, w2⟩ := w1.retire h hb
  refine ⟨_, ?_, w2.stays h⟩
  rw [e1]
  exact e2

end Arrive

/-! ## join and conv -/

/-- What a thread becomes that waits at its unit. -/
def Thread.waits (w : Wait) (len : Nat) (th : Thread) : Thread := { th with wait := w, waitLen := len }

theorem blind_waits (w : Wait) (len : Nat) : Blind (Thread.waits w len) := fun _ _ => rfl

section
variable {s : State} {t : Team} {convs : Nat → FMap Nat → FMap Nat}

/-- The participating threads wait, after the counts of conv have changed. -/
theorem arrive_stays (h : Lifted s t) (w : Wait) {pre : State → State} {T : FMap Team} {cs : FMap Course} (hpre : pre s = s.withTeams T)
    (start : Walk s t (reconv t convs) (· ∈ []) (stayed s fun _ _ => Thread.waits w s.issue.len) [] cs T) :
    ∃ s', s.arrive pre (fun _ => w) = .next (s'.settle s.issue.team) ∧
      Stays s s' t [] (fun _ => []) [] convs fun _ _ => Thread.waits w s.issue.len := by
  obtain ⟨s', e, st⟩ := arrives (F := fun s m => s.await [m] w) h (fun _ _ => blind_waits w _) start fun m hm =>
    treads_onThread (b := reconv t convs) (h.live m (h.parts m hm)) (blind_stayed (fun _ _ => blind_waits w _) _ _) (blind_waits w s.issue.len)
      (by rw [stayed_part hm]) fun T => rfl
  refine ⟨s', ?_, st⟩
  have team : s'.issue.team = s.issue.team := by rw [st.1]
  rw [State.arrive, hpre, ← team, ← e]
  rfl

theorem join_stays (h : Lifted s t) : ∃ s', exec .join s = .next (s'.settle s.issue.team) ∧
    Stays s s' t [] (fun _ => []) [] (fun _ m => m) fun _ _ => Thread.waits .join s.issue.len :=
  arrive_stays h .join (pre := id) rfl (.start h _ _)

/-- A change of some courses that is the same once as twice. -/
theorem onCourses_get {g : Course → Course} (idem : ∀ x, g (g x) = g x) {F : State → Nat → State}
    (hF : ∀ T c, F (s.withTeams T) c = (s.withTeams T).onCourse s.issue.team c g) : ∀ (L : List Nat) (T : FMap Team) (cs : FMap Course),
    FMap.get T s.issue.team = some { t with courses := cs } →
    ∃ T' cs', L.foldl F (s.withTeams T) = s.withTeams T' ∧ FMap.get T' s.issue.team = some { t with courses := cs' } ∧
      (∀ k, k ≠ s.issue.team → FMap.get T' k = FMap.get T k) ∧
      ∀ k, FMap.get cs' k = (FMap.get cs k).map fun x => if k ∈ L then g x else x := by
  intro L
  induction L with
  | nil => exact fun T cs ht => ⟨T, cs, rfl, ht, fun _ _ => rfl, fun k => by simp⟩
  | cons c L ih =>
    intro T cs ht
    have ht1 : FMap.get (s.changed T c g) s.issue.team = some { t with courses := FMap.modify cs c g } := by
      rw [State.changed, FMap.get_modify_same, ht, Option.map_some]
    obtain ⟨T', cs', e, ht', others, get⟩ := ih _ _ ht1
    refine ⟨T', cs', by rw [List.foldl_cons, hF]; exact e, ht', fun k hk => ?_, fun k => ?_⟩
    · rw [others k hk, State.changed, FMap.get_modify_ne _ _ hk]
    · rw [get k]
      by_cases hk : k = c
      · subst hk
        rw [FMap.get_modify_same, Option.map_map]
        congr 1
        funext x
        simp only [Function.comp_apply, List.mem_cons, true_or, if_true, idem, ite_self]
      · rw [FMap.get_modify_ne _ _ hk]
        simp only [List.mem_cons, hk, false_or]

/-- R124: the first arrival of a course at the conv at address `a` starts the count. -/
def Course.armConv (a : Nat) (x : Course) : Course :=
  match FMap.get x.convs a with
  | some _ => x
  | none => { x with convs := FMap.set x.convs a convCycles }

theorem Course.armConv_eq (a : Nat) (x : Course) :
    x.armConv a = { x with convs := if (FMap.get x.convs a).isSome then x.convs else FMap.set x.convs a 64 } := by
  unfold Course.armConv
  split
  next e => simp only [e, Option.isSome_some, if_true]
  next e => simp only [e, Option.isSome_none, Bool.false_eq_true, if_false, convCycles]

theorem Course.armConv_idem (a : Nat) (x : Course) : (x.armConv a).armConv a = x.armConv a := by
  rw [Course.armConv_eq, Course.armConv_eq]
  by_cases e : (FMap.get x.convs a).isSome
  · simp only [e, if_true]
  · simp only [e, if_false, FMap.get_set_same, Option.isSome_some, if_true, Bool.false_eq_true]

theorem mem_coursesOf_parts {ms : List (Nat × Nat)} {c : Nat} : c ∈ coursesOf ms ↔ lanesIn ms c ≠ [] := by
  rw [mem_coursesOf]
  constructor
  · rintro ⟨m, hm, rfl⟩
    exact List.ne_nil_of_mem (mem_lanesIn.mpr hm)
  · intro h
    obtain ⟨l, hl⟩ := List.exists_mem_of_ne_nil _ h
    exact ⟨_, mem_lanesIn.mp hl, rfl⟩

/-- The counts of conv of a course after its arrival. -/
abbrev armedConvs (s : State) (k : Nat) (m : FMap Nat) : FMap Nat :=
  if lanesIn s.issue.parts k = [] ∨ (FMap.get m s.issue.addr.toNat).isSome then m else FMap.set m s.issue.addr.toNat 64

/-- The courses before anyone of them waits. -/
theorem reconv_armed (k : Nat) :
    reconv t (armedConvs s) k = if k ∈ coursesOf s.issue.parts then (t.course k).armConv s.issue.addr.toNat else t.course k := by
  by_cases hk : lanesIn s.issue.parts k = []
  · have out : k ∉ coursesOf s.issue.parts := fun e => mem_coursesOf_parts.mp e hk
    rw [if_neg out, reconv, armedConvs, if_pos (.inl hk)]
  · rw [if_pos (mem_coursesOf_parts.mpr hk), Course.armConv_eq, reconv, armedConvs]
    simp only [hk, false_or]

theorem conv_stays (h : Lifted s t) : ∃ s', exec .conv s = .next (s'.settle s.issue.team) ∧
    Stays s s' t [] (fun _ => []) [] (armedConvs s) fun _ _ => Thread.waits .conv s.issue.len := by
  obtain ⟨T, cs, e, ht, others, get⟩ := onCourses_get (s := s) (t := t) (g := fun x => x.armConv s.issue.addr.toNat)
    (Course.armConv_idem _) (F := fun v c => v.onCourse v.issue.team c fun x => x.armConv v.issue.addr.toNat) (fun _ _ => rfl)
    (coursesOf s.issue.parts) s.teams t.courses h.team
  have start : Walk s t (reconv t (armedConvs s)) (· ∈ []) (stayed s fun _ _ => Thread.waits .conv s.issue.len) [] cs T := by
    refine ⟨ht, fun c hc => ?_, fun c hc => ?_, others⟩
    · have out : c ∉ coursesOf s.issue.parts := fun k => by
        obtain ⟨m, hm, rfl⟩ := mem_coursesOf.mp k
        exact hc (mem_coursesOf.mpr ⟨m, h.parts m hm, rfl⟩)
      rw [get]
      simp only [out, if_false, Option.map_id']
    · obtain ⟨hx, ok, -⟩ := h.course hc
      refine ⟨reconv t (armedConvs s) c, by rw [get, hx, reconv_armed]; rfl, .start ?_ _ _⟩
      exact ⟨ok.names, ok.dead, ok.opf, ok.latches, ok.links, ok.opfLinks⟩
  have run : exec .conv s = s.arrive
    (fun v => (coursesOf v.issue.parts).foldl (fun v c => v.onCourse v.issue.team c fun x => x.armConv v.issue.addr.toNat) v) fun _ => .conv := rfl
  rw [run]
  exact arrive_stays h .conv e start

end

/-! ## repack -/

/-- What a repack does to the course of a thread that arrives at it: the thread waits, b2 has no value for it, READ_FREE is noted. -/
def Course.repacks (x : Course) (l : Nat) (w : Wait) (len : Nat) (free : Bool) : Course :=
  ((x.atLane l (Thread.waits w len)).dropLatch 2 [l]).onThreads [l] fun _ th => th.noteFree free

theorem Course.repacks_live (x : Course) (l : Nat) (w : Wait) (len : Nat) (free : Bool) : (x.repacks l w len free).live = x.live := by
  rw [Course.repacks, Course.onThreads_live, ← x.atLane_live l (Thread.waits w len)]
  exact (dropLatch_step _ 2 [l]).threads.live

theorem Course.repacks_get (x : Course) (l : Nat) (w : Wait) (len : Nat) (free : Bool) (k : Nat) :
    FMap.get (x.repacks l w len free).threads k = (FMap.get x.threads k).map fun th =>
      if k = l then { (th.waits w len).noteFree free with saved := th.saved.filter fun sv => sv.pipe.val != 2 } else th := by
  rw [Course.repacks, Course.onThreads_get, dropLatch_get, Course.atLane_get, Option.map_map, Option.map_map]
  congr 1
  funext th
  by_cases hk : k = l
  · subst hk
    cases free <;> simp [Thread.noteFree, Thread.waits, Thread.setReadFree]
  · simp [hk]

/-- Bits of a waiting thread's change. -/
theorem blind_repacks (w : Wait) (len : Nat) (free : Bool) : Blind fun th => (th.waits w len).noteFree free :=
  (blind_noteFree free).comp (blind_waits w len)

theorem Course.repacks_frame (x : Course) (l : Nat) (w : Wait) (len : Nat) (free : Bool) :
    CourseFrame x (x.repacks l w len free) [] [] [] [] [l] (· ∈ [2]) fun k th => if k = l then (th.waits w len).noteFree free else th where
  live := x.repacks_live l w len free
  kept n k hk _ _ := by
    refine ⟨?_, fun _ => rfl⟩
    rw [regRow, regRow, x.repacks_live]
    rfl
  last _ hn := absurd hn List.not_mem_nil
  entries _ _ _ _ := ⟨rfl, fun _ => rfl⟩
  latches k hk _ _ := (dropLatch_step _ 2 [l]).others k fun e => hk (List.mem_singleton.mpr e)
  threads k th hth := by
    by_cases e : k = l
    · refine ⟨th.saved.filter fun sv => sv.pipe.val != 2, ?_, fun z hz hp _ _ => ?_⟩
      · rw [Course.repacks_get, hth, Option.map_some, if_pos e, if_pos e]
      · rw [if_pos e, (blind_repacks w len free).saved] at hz
        exact List.mem_filter.mpr ⟨hz, by simpa using hp⟩
    · refine ⟨th.saved, ?_, fun z hz _ _ _ => ?_⟩
      · rw [Course.repacks_get, hth, Option.map_some, if_neg e, if_neg e]
      · rwa [if_neg e] at hz
  rest := ⟨rfl, rfl, rfl, rfl, rfl, rfl, rfl⟩

theorem Course.repacks_ok {x : Course} (h : x.Ok) (l : Nat) (w : Wait) (len : Nat) (free : Bool) : (x.repacks l w len free).Ok :=
  ⟨h.names, h.dead, h.opf, (dropLatch_step (x.atLane l (Thread.waits w len)) 2 [l]).len.trans h.latches, h.links, h.opfLinks⟩

/-- What a thread becomes that arrives at the repack on name `n`. -/
def repacked (s : State) (t : Team) (n k l : Nat) (th : Thread) : Thread :=
  (th.waits (.repack (regRow (t.course k) n l) s.issue.word s.issue.guardWord) s.issue.len).noteFree (regFree (t.course k) n l)

/-- One thread's arrival at the repack on name `n`. -/
def State.repackOne (tk n : Nat) (s : State) (m : Nat × Nat) : State :=
  let v := match (FMap.get s.teams tk).bind fun t => FMap.get t.courses m.1 with
    | some x => (regRow x n m.2, regFree x n m.2)
    | none => (0, false)
  (s.await [m] (.repack v.1 s.issue.word s.issue.guardWord)).onCourse tk m.1 fun x =>
    (x.dropLatch 2 [m.2]).onThreads [m.2] fun _ t => if v.2 then t.setReadFree else t

section
variable {s : State} {t : Team}

/-- Its sort value is what it was before the others arrived. -/
theorem treads_repackOne (h : Lifted s t) (n : Nat) {m : Nat × Nat} (hm : m ∈ s.issue.parts) :
    Treads s t (reconv t fun _ m => m) (· ∈ [2]) (stayed s (repacked s t n)) (State.repackOne s.issue.team n) m := by
  intro T cs ls y hn ht hy ty
  have live := h.live m (h.parts m hm)
  obtain ⟨row, free⟩ := ty.frame.kept n m.2 live (fun e => nomatch e.1) fun e => nomatch e.1
  have here : (FMap.get (s.withTeams T).teams s.issue.team).bind (fun t => FMap.get t.courses m.1) = some y := by
    rw [show FMap.get (s.withTeams T).teams s.issue.team = _ from ht]
    exact hy
  refine ⟨fun x => x.repacks m.2 (.repack (regRow y n m.2) s.issue.word s.issue.guardWord) s.issue.len (regFree y n m.2), ?_, ?_⟩
  · unfold State.repackOne
    rw [here]
    exact onCourse_onCourse (s.withTeams T) s.issue.team m.1
      (fun x => x.atLane m.2 (Thread.waits (.repack (regRow y n m.2) s.issue.word s.issue.guardWord) s.issue.len)) _
  · refine ty.next live hn (blind_stayed (fun _ _ => blind_repacks _ _ _) _ _) (blind_repacks _ _ _) ?_ (Course.repacks_ok ty.ok _ _ _ _)
      (y.repacks_frame _ _ _ _)
    rw [stayed_part hm, row, free List.not_mem_nil]
    rfl

theorem repack_stays (h : Lifted s t) (n : Fin 64) : ∃ s', exec (.repack n) s = .next (s'.settle s.issue.team) ∧
    Stays s s' t [] (fun _ => []) [2] (fun _ m => m) (repacked s t n.val) := by
  obtain ⟨s', e, st⟩ := arrives (dropped := [2]) (convs := fun _ m => m) (upd := repacked s t n.val) h (fun _ _ => blind_repacks _ _ _)
    (.start h _ _) fun m hm => treads_repackOne h n.val hm
  refine ⟨s', ?_, st⟩
  rw [← e]
  rfl

end

/-! ## The meeting of a course -/

theorem atJoin_iff {th : Thread} : atJoin th = true ↔ th.wait = .join := by
  unfold atJoin
  cases th.wait <;> simp

theorem Course.leaveAll_threads_of_all {c : Course} {now : Nat} {sel : Thread → Bool} (h : ∀ q ∈ c.threads, sel q.2 = true) :
    (c.leaveAll now sel).threads = c.threads.map fun q => (q.1, q.2.goto (q.2.pc + BitVec.ofNat 64 q.2.waitLen) now) :=
  List.map_congr_left fun q hq => if_pos (h q hq)

/-- Whether all threads of a course wait, as `p` says, at the unit `pc`. -/
def Course.allAt (c : Course) (p : Thread → Bool) (pc : W64) : Bool := c.threads.all fun q => p q.2 && q.2.pc == pc

theorem Course.allAt_iff {c : Course} {p : Thread → Bool} {pc : W64} : c.allAt p pc = true ↔ ∀ q ∈ c.threads, p q.2 = true ∧ q.2.pc = pc := by
  simp only [Course.allAt, List.all_eq_true, Bool.and_eq_true, beq_iff_eq]

theorem Course.meet_eq {c : Course} {q : Nat × Thread} {ths : FMap Thread} (h : c.threads = q :: ths) (now : Nat) :
    c.meet now = if c.allAt atJoin q.2.pc then (c.leaveAll now atJoin, true)
      else if c.allAt atConv q.2.pc then ({ c.leaveAll now atConv with convs := FMap.erase c.convs q.2.pc.toNat }, true)
      else (c, false) := by
  unfold Course.meet
  rw [h]
  simp only [Course.allAt, h]

/-- Where all threads wait at one join, or all at one conv, all go on. -/
theorem Course.meet_done {c : Course} {pc : W64} (now : Nat) (ne : c.threads ≠ [])
    (h : (∀ q ∈ c.threads, q.2.wait = .join ∧ q.2.pc = pc) ∨ ∀ q ∈ c.threads, q.2.wait = .conv ∧ q.2.pc = pc) :
    (c.meet now).2 = true ∧
      (c.meet now).1.threads = c.threads.map fun q => (q.1, q.2.goto (q.2.pc + BitVec.ofNat 64 q.2.waitLen) now) := by
  obtain ⟨q, ths, e⟩ := List.exists_cons_of_ne_nil ne
  have hq : q ∈ c.threads := e ▸ List.mem_cons_self
  rw [Course.meet_eq e]
  rcases h with h | h
  · have all : c.allAt atJoin q.2.pc = true := Course.allAt_iff.mpr fun r hr => ⟨atJoin_iff.mpr (h r hr).1, (h r hr).2.trans (h q hq).2.symm⟩
    rw [if_pos all]
    exact ⟨rfl, Course.leaveAll_threads_of_all fun r hr => atJoin_iff.mpr (h r hr).1⟩
  · have none : ¬ c.allAt atJoin q.2.pc = true := fun k => by
      have e := atJoin_iff.mp (Course.allAt_iff.mp k q hq).1
      rw [(h q hq).1] at e
      exact nomatch e
    have all : c.allAt atConv q.2.pc = true := Course.allAt_iff.mpr fun r hr => ⟨(atConv_iff _).mpr (h r hr).1, (h r hr).2.trans (h q hq).2.symm⟩
    rw [if_neg none, if_pos all]
    exact ⟨rfl, Course.leaveAll_threads_of_all (c := c) fun r hr => (atConv_iff _).mpr (h r hr).1⟩

/-- Where one thread waits at neither, none goes on. -/
theorem Course.meet_not {c : Course} (now : Nat) (h : ∃ q ∈ c.threads, q.2.wait ≠ .join ∧ q.2.wait ≠ .conv) : c.meet now = (c, false) := by
  obtain ⟨r, hr, nj, nc⟩ := h
  obtain ⟨q, ths, e⟩ := List.exists_cons_of_ne_nil (List.ne_nil_of_mem hr)
  have j : ¬ c.allAt atJoin q.2.pc = true := fun k => nj (atJoin_iff.mp (Course.allAt_iff.mp k r hr).1)
  have v : ¬ c.allAt atConv q.2.pc = true := fun k => nc ((atConv_iff _).mp (Course.allAt_iff.mp k r hr).1)
  rw [Course.meet_eq e, if_neg j, if_neg v]

/-- Settles O36: each participating thread waits on its own lane, in any order, and the others go on. -/
theorem rendezvous : Obligations.Rendezvous := by
  unfold Obligations.Rendezvous
  refine ⟨fun s t h => join_stays h, fun s t h => conv_stays h, fun n s t h => ?_, fun c now pc ne => ⟨Course.meet_done now ne, Course.meet_not now⟩⟩
  have upd : repacked s t n.val = fun k l th =>
      { (if regFree (t.course k) n.val l then th.setReadFree else th) with
        wait := .repack (regRow (t.course k) n.val l) s.issue.word s.issue.guardWord, waitLen := s.issue.len } := by
    funext k l th
    unfold repacked
    cases regFree (t.course k) n.val l <;> rfl
  rw [← upd]
  exact repack_stays h n

end Sys2Proof.Machine
end

section
/-!
SUPPORT. spawn, clkiv and vshape (R130, R208, R209), and what settles O34.
-/

namespace Sys2Proof.Machine

/-! ## spawn -/

theorem Team.putTask_courses (t : Team) (k : Nat) (task : Task) (timer : Nat) : (t.putTask k task timer).courses = t.courses := rfl

/-- Enqueuing a task changes its team's bins, overflow and what the team holds of memory (R46). -/
theorem kin_enqueue (s : State) (tk : Nat) (task : Task) : Kin s (s.enqueue tk task).1 := by
  unfold State.enqueue
  split
  next t0 x ht _ =>
    dsimp only
    split
    · exact kin_setTeam ht (.of_eq rfl)
    · split
      · exact .refl s
      · refine Kin.trans ?_ (kin_teamWrite _ _ _ _)
        exact kin_setTeam ht (.of_eq rfl)
  next => exact .refl s

/-- The operands of spawn: the entry address and its eight arguments. -/
abbrev spawnSrcs (a : Src) (b : Fin 64) (last : Bool) : List Operand :=
  (.addr, a) :: (List.range 8).map fun k => (.b32, .reg (Fin.ofNat 64 (b.val + k)) last)

theorem spawnSrcs_pairOk {p : Fin 12} {a : Src} {b : Fin 64} {last : Bool} (wf : WellFormed (.spawn p a b last) = true) :
    ∀ o ∈ spawnSrcs a b last, o.2.pairOk o.1 = true := by
  intro o ho
  rcases List.mem_cons.mp ho with rfl | ho
  · have ok : a.ok .b64 = true := (Bool.and_eq_true_iff.mp wf).1
    have pair : a.pairOk .b64 = true := pairOk_of_ok ok
    exact pair
  · obtain ⟨k, -, rfl⟩ := List.mem_map.mp ho
    rfl

/-- What spawn does for its course: it enqueues the task, or faults where the entry is misaligned. -/
def State.spawnTask (p : Nat) (s : State) (_ : Team) (c : Nat) (i : CourseIn) (vals : List W64) : State × SyncOut :=
  if (vals.headD 0).toNat % 4 ≠ 0 then
    (s, { reqs := i.parts.map fun l => { course := c, lane := l, code := .align, addr := some (vals.headD 0) } })
  else
    let r := s.enqueue s.issue.team { entry := vals.headD 0, args := (vals.drop 1).map lo32 }
    (r.1, { write := fun x => x.onThreads i.parts fun _ t => t.setPred p r.2 })

theorem exec_spawn {p : Fin 12} {a : Src} {b : Fin 64} {last : Bool} {s s' : State}
    (h : s.uniSync (spawnSrcs a b last) false false (State.spawnTask p.val) = .next s') :
    exec (.spawn p a b last) s = .next (s'.settle s'.issue.team) := by
  have run : exec (.spawn p a b last) s =
      match s.uniSync (spawnSrcs a b last) false false (State.spawnTask p.val) with
      | Host.Outcome.next s => Host.Outcome.next (s.settle s.issue.team)
      | r => r := rfl
  rw [run, h]

/-- What the settling of a uniform unit turns on: the state it leads to is the same team's. -/
theorem Served.team {s s1 s' : State} {t1 : Team} {c : Nat} {srcs : List Operand} {regs dropped : List Nat} {val : Nat → Nat → W32}
    {free : Nat → Bool} {loads : List PendingLoad} {upd : Nat → Thread → Thread}
    (h : Served s s1 s' t1 c srcs regs val dropped free loads upd) : s'.issue.team = s1.issue.team := by
  have team := congrArg (fun u : State => u.issue.team) h.effect.rest
  exact team

/-- R130. -/
theorem spawn_settles (p : Fin 12) (a : Src) (b : Fin 64) (last : Bool) :
    UniSettles (.spawn p a b last) (spawnSrcs a b last) fun s _ _ v =>
      if (v.headD 0).toNat % 4 = 0 then
        let r := s.enqueue s.issue.team { entry := v.headD 0, args := (v.drop 1).map lo32 }
        some (r.1, fun _ => 0, fun th => th.setPred p.val r.2)
      else none := by
  intro wf s t c s1 val upd t1 one lead hv ht
  dsimp only at hv
  split at hv
  next aligned =>
    cases hv
    have k := kin_enqueue s s.issue.team
      { entry := (s.values t false false .sup (spawnSrcs a b last) c (s.leader c)).headD 0,
        args := ((s.values t false false .sup (spawnSrcs a b last) c (s.leader c)).drop 1).map lo32 }
    obtain ⟨t', ht', akin⟩ := k.teams _ _ one.lifted.team
    obtain rfl : t' = t1 := Option.some.inj (ht'.symm.trans ht)
    obtain ⟨s', e, served⟩ := uniSync_serves (arrive := false) (b3 := false) (f := State.spawnTask p.val)
      (F := fun s t c => s.uniSyncAt (spawnSrcs a b last) false false (State.spawnTask p.val) t c) one lead (spawnSrcs_pairOk wf)
      (if_neg (not_not.mpr aligned)) k.issue k.cycle ht akin (writes_threads _ _ _ _) rfl
    have team : s'.issue.team = s.issue.team := served.team.trans (congrArg Issue.team k.issue)
    exact ⟨s', by rw [exec_spawn e, team], served⟩
  next => cases hv

/-! ## clkiv -/

theorem coursesOf_eq_single {ms : List (Nat × Nat)} {c : Nat} (h : ∀ m ∈ ms, m.1 = c) (ne : ms ≠ []) : coursesOf ms = [c] := by
  obtain ⟨m, ms, rfl⟩ := List.exists_cons_of_ne_nil ne
  have stays : ∀ L : List (Nat × Nat), (∀ m ∈ L, m.1 = c) →
      L.foldl (fun acc m => if acc.contains m.1 then acc else insertBy (fun a b => decide (a ≤ b)) m.1 acc) [c] = [c] := by
    intro L hL
    induction L with
    | nil => rfl
    | cons m L ih =>
      have here : [c].contains m.1 = true := by simp [hL m List.mem_cons_self]
      rw [List.foldl_cons, if_pos here]
      exact ih fun k hk => hL k (List.mem_cons_of_mem _ hk)
  have first : m.1 = c := h m List.mem_cons_self
  unfold coursesOf
  rw [List.foldl_cons, first]
  exact stays ms fun k hk => h k (List.mem_cons_of_mem _ hk)

/-- The course that a unit of one course acts on is the one its participating threads are of. -/
theorem OneCourse.coursesOf_parts {s : State} {t : Team} {c : Nat} (h : OneCourse s t c) : coursesOf s.issue.parts = [c] := by
  refine coursesOf_eq_single (fun m hm => ?_) fun e => h.acts (by rw [e]; rfl)
  have inLift := mem_coursesOf.mpr ⟨m, h.lifted.parts m hm, rfl⟩
  rw [h.one] at inLift
  exact List.mem_singleton.mp inLift

/-- A unit without operands that ends with `y` as its course. -/
theorem courseUnit_serves {s : State} {t : Team} {c : Nat} (h : OneCourse s t c) {f : CourseIn → CourseOut} {y : Course} {regs ps : List Nat}
    {val : Nat → Nat → W32} (hy : f (courseIn s t 0 c) = ⟨y, []⟩)
    (fr : CourseFrame (t.course c) y regs [] (lanesIn s.issue.parts c) [] (lanesIn s.issue.lift c) (· ∈ ps) fun _ th => th)
    (hv : ∀ n ∈ regs, ∀ l ∈ lanesIn s.issue.parts c, regRow y n l = val n l) (hl : ∀ p ∈ ps, ∀ l ∈ lanesIn s.issue.parts c, y.lost p l) :
    ∃ s', s.courseUnit .none f = .next s' ∧ Served s s s' t c [] regs val ps (fun _ => false) [] fun _ th => th := by
  have here : ∀ k ∈ coursesOf s.issue.lift, k = c := fun k hk => by rw [h.one] at hk; exact List.mem_singleton.mp hk
  obtain ⟨s', e, ue⟩ := courseUnit_spec h.lifted.team .none f fun k hk => by rw [here k hk]; exact congrArg CourseOut.reqs hy
  have agenda : s'.agenda = s.agenda := by
    have e := congrArg State.agenda ue.rest
    exact e
  have same : ({ s' with agenda := s.agenda } : State) = s' := by rw [← agenda]
  refine ⟨s', e, by rw [agenda, List.map_nil, List.append_nil], ?_⟩
  rw [same]
  obtain ⟨cs, team, out, courses⟩ := ue.courses
  refine ⟨⟨cs, team, out, fun k hk => ?_⟩, ue.teams, ue.core, ue.cores, ue.rest⟩
  obtain ⟨x, hx, rfl⟩ := courses k hk
  obtain rfl := here k hk
  have after : afterUnit s t LatchUse.none.at f k = y.onward (lanesIn s.issue.lift k) s.issue.next s.cycle := by
    rw [afterUnit, show LatchUse.none.at = 0 from rfl, hy]
  have loads : y.loads = (t.course k).loads := fr.rest.2.2.1
  rw [after] at hx
  refine ⟨_, hx, by rw [List.append_nil]; exact loads, ?_, fun n hn l hm => ?_, fun p hp l hm => lost_stale (onward_lost (hl p hp l hm)) _ _⟩
  · have keep : ({ y.onward (lanesIn s.issue.lift k) s.issue.next s.cycle with loads := (t.course k).loads } : Course) =
        y.onward (lanesIn s.issue.lift k) s.issue.next s.cycle := by rw [← loads]; rfl
    rw [keep]
    refine (onward_frame fr s.issue.next s.cycle (ls := lanesIn s.issue.lift k)).congr fun l th _ => ?_
    simp only [contains_lanesIn, nextThread, Bool.and_false, Bool.false_eq_true, if_false, ite_self]
  · rw [← hv n hn l hm]
    unfold regRow
    rw [onward_live]
    rfl

/-- One 64-bit value written uniformly to two names. -/
theorem writeUniform_written {i : CourseIn} (h : i.Fit []) {z : Course} (ok : z.Ok) (live : z.live = i.course.live) {d : Fin 64}
    (hd : d.val % 2 = 0) (v : W64) :
    Written z (z.writeUniform i true (.reg d) v) [d.val, d.val + 1] [] i.parts ∧
      ∀ n ∈ [d.val, d.val + 1], ∀ l ∈ i.parts, regRow (z.writeUniform i true (.reg d) v) n l = wordOf d.val v n := by
  have pair : (Dst.reg d).pairOk true = true := by simpa [Dst.pairOk] using hd
  have w := (writes_uniform h pair v).wrote [] [] z ok live nofun
  have e : z.onThreads i.parts (fun _ => id) = z := onThreads_id z i.parts
  rw [e] at w
  exact w

/-- Two 64-bit values written uniformly to four names (R209). -/
theorem writeUniform_twice {i : CourseIn} (h : i.Fit []) (ok : i.course.Ok) {d : Fin 64} (hd : d.val % 4 = 0) (u v : W64) {e : Fin 64}
    (he : e.val = d.val + 2) :
    Written i.course ((i.course.writeUniform i true (.reg d) u).writeUniform i true (.reg e) v)
        [d.val, d.val + 1, d.val + 2, d.val + 3] [] i.parts ∧
      ∀ n ∈ [d.val, d.val + 1, d.val + 2, d.val + 3], ∀ l ∈ i.parts,
        regRow ((i.course.writeUniform i true (.reg d) u).writeUniform i true (.reg e) v) n l =
          if n < d.val + 2 then wordOf d.val u n else wordOf (d.val + 2) v n := by
  obtain ⟨w1, v1⟩ := writeUniform_written h ok rfl (d := d) (by omega) u
  obtain ⟨w2, v2⟩ := writeUniform_written h w1.ok w1.threads.live (d := e) (by omega) v
  rw [he] at w2 v2
  refine ⟨w1.trans w2, fun n hn l hl => ?_⟩
  have live : l ∈ (i.course.writeUniform i true (.reg d) u).live := by
    rw [w1.threads.live]
    exact h.lift l (h.parts l hl)
  by_cases low : n < d.val + 2
  · have mem : n ∈ [d.val, d.val + 1] := by simp at hn ⊢; omega
    have other : n ∉ [d.val + 2, d.val + 2 + 1] := by simp; omega
    rw [if_pos low, w2.reg n l live fun k => other k.1, v1 n mem l hl]
  · have mem : n ∈ [d.val + 2, d.val + 2 + 1] := by simp at hn ⊢; omega
    rw [if_neg low, v2 n mem l hl]

/-- R209. -/
theorem clkiv_serves (d : Fin 64) : UniServes (.clkiv d) [] [d.val, d.val + 1, d.val + 2, d.val + 3] false fun s t _ _ =>
    let r := s.readClock (dieOfCore t.core)
    some (r.1, fun n => if n < d.val + 2 then wordOf d.val (nat64 r.2.1) n else wordOf (d.val + 2) (nat64 r.2.2) n, id) := by
  intro wf s t c s1 val upd t1 one _ hv ht
  cases hv
  obtain rfl : t = t1 := Option.some.inj (one.lifted.team.symm.trans ht)
  have aligned : d.val % 4 = 0 := by simpa [WellFormed] using wf
  set r := s.readClock (dieOfCore t.core) with hr
  have one' : OneCourse r.1 t c := ⟨⟨one.lifted.team, one.lifted.live, one.lifted.courses, one.lifted.parts, one.lifted.sound, one.lifted.gens,
    one.lifted.ascending⟩, one.one, one.acts⟩
  have fit : (courseIn r.1 t 0 c).Fit [] := one'.lifted.fit 0 (fun _ _ _ ho => absurd ho List.not_mem_nil) (fun _ ho => absurd ho List.not_mem_nil) (one_mem one')
  obtain ⟨w, wv⟩ := writeUniform_twice fit (Course.sound_ok fit.sound).1 aligned (nat64 r.2.1) (nat64 r.2.2)
    (e := ⟨d.val + 2, by omega⟩) rfl
  obtain ⟨fr, va, lo⟩ := serve_spec (srcs := []) (ps := [2]) (c1 := t.course c) (lift := lanesIn s.issue.lift c) (val := fun n _ => _)
    fit.sound fit.lift fit.parts nofun (.refl _) w wv (by simp)
  have f : clkivCourse d.val [(c, r.2.1, r.2.2)] (courseIn r.1 t 0 c) =
      ⟨((((t.course c).writeUniform (courseIn r.1 t 0 c) true (.reg d) (nat64 r.2.1)).writeUniform (courseIn r.1 t 0 c) true
        (.reg ⟨d.val + 2, by omega⟩) (nat64 r.2.2)).dropLatches [2] (courseIn r.1 t 0 c).parts).reapSources [], []⟩ := by
    have acts : (courseIn r.1 t 0 c).parts.isEmpty = false := List.isEmpty_eq_false_iff.mpr one'.acts
    have mine : FMap.get [(c, r.2.1, r.2.2)] (courseIn r.1 t 0 c).rd.index = some (r.2.1, r.2.2) := by
      rw [FMap.get_cons]
      exact if_pos rfl
    simp only [clkivCourse, acts, mine, Bool.false_eq_true, if_false]
    rfl
  obtain ⟨s', e, served⟩ := courseUnit_serves one' f fr va lo
  refine ⟨s', ?_, ?_⟩
  · have cur : s.curTeam = some t := one.lifted.team
    rw [← e]
    change execClkiv d s = _
    simp only [execClkiv, cur, one.coursesOf_parts]
    rfl
  · have free : (fun l => l == s.leader c && !s.again t c && freeRead s t false false .sup [] c l) = fun _ => false := by
      funext l
      simp only [freeRead, List.any_nil, Bool.false_and, Bool.or_self, Bool.and_false]
    rw [free]
    exact ⟨served.agenda, served.effect⟩

/-! ## vshape -/

/-- The word vshape gives, for a course as the statement names it (R208). -/
theorem vshapeOf_eq (i : CourseIn) (r : VsRef) : vshapeOf i r = match r with
    | .reg n => nameCode i.course.names n.val + if isLinked i.course.names n.val then 4 else 0
    | .opf n => nameCode i.course.opf n.val
    | .latch k =>
      let rec' := match (i.course.thread i.lead).savedFor k.val with
        | some sv => sv.record
        | none => nth i.course.latches k.val {}
      if rec'.valid && hasLane rec'.lanes i.lead then rec'.val.shape.code else 0 := by
  cases r with
  | reg n => rfl
  | opf n => rfl
  | latch k =>
    simp only [vshapeOf]
    cases (i.course.thread i.lead).savedFor k.val <;> rfl

/-- R208. -/
theorem vshape_delivers (d : Dst) (r : VsRef) {s : State} {t : Team} (wf : WellFormed (.vshape d r) = true) (h : Lifted s t) :
    ∃ s', exec (.vshape d r) s = .next s' ∧ Delivers s s' t false 2 d [] (fun _ _ => false) (fun _ th => th)
      fun c _ => nat32 (vshapeOf (courseIn s t 2 c) r) := by
  refine delivers_of h (by decide) fun gens hg c hc => ?_
  have fit : (courseIn s t 2 c).Fit [] := h.fit 2 (fun _ _ _ ho => absurd ho List.not_mem_nil) (fun _ ho => absurd ho List.not_mem_nil) hc
  have pair : d.pairOk false = true := (Bool.and_eq_true_iff.mp wf).1
  have ends : vshapeCourse d r (courseIn s t 2 c) = ⟨(courseIn s t 2 c).write (t.course c) [] (courseIn s t 2 c).all false 2 d
      ⟨if (courseIn s t 2 c).all then .u else .g, fun _ => nat32 (vshapeOf (courseIn s t 2 c) r)⟩, []⟩ := by
    unfold vshapeCourse CourseIn.write
    split <;> rfl
  obtain ⟨frame, result⟩ := write_spec fit (srcs := []) (fun _ ho => absurd ho List.not_mem_nil) (.refl _) (full := (courseIn s t 2 c).all)
    (r := ⟨if (courseIn s t 2 c).all then .u else .g, fun _ => nat32 (vshapeOf (courseIn s t 2 c) r)⟩) pair (by decide) fit.all
    (fun e => ⟨fun _ _ _ => rfl, fun x => by simp [e] at x⟩) (fun e => by simp [e]) gens (hg c hc)
  rw [ends]
  exact ⟨rfl, frame.congr fun l th _ => by simp only [Bool.and_false, Bool.false_eq_true, if_false, ite_self], result⟩

/-- Settles O34. -/
theorem spawnClockShape : Obligations.SpawnClockShape := by
  unfold Obligations.SpawnClockShape
  refine ⟨spawn_settles, clkiv_serves, fun d r s t wf h => ?_⟩
  have word : ∀ c, vshapeOf (courseIn s t 2 c) r = _ := fun c => vshapeOf_eq _ r
  obtain ⟨s', e, del⟩ := vshape_delivers d r wf h
  simp only [word] at del
  exact ⟨s', e, del⟩

end Sys2Proof.Machine
end

section
/-!
SUPPORT. Units of one thread, among them emit (R45, R128, R129), and what settles O38.
-/

namespace Sys2Proof.Machine

/-! ## One member of State.eachThread -/

section One
variable {s u : State} {t : Team} {c l : Nat} {f : State → Team → Nat → Nat → State × Go} (ht : FMap.get s.teams s.issue.team = some t)
include ht

theorem State.eachThread_to {pc : W64} (hf : f s t c l = (u, .to pc)) : s.eachThread [(c, l)] f = .next (u.retire [(c, l)] pc) := by
  have cur : s.curTeam = some t := ht
  simp only [State.eachThread, List.foldl_cons, List.foldl_nil, cur, hf, List.isEmpty_nil, if_true]
  rfl

theorem State.eachThread_wait {w : Wait} (hf : f s t c l = (u, .wait w)) : s.eachThread [(c, l)] f = .next (u.await [(c, l)] w) := by
  have cur : s.curTeam = some t := ht
  simp only [State.eachThread, List.foldl_cons, List.foldl_nil, cur, hf, List.isEmpty_nil, if_true]
  rfl

end One

/-! ## The release of a thread without stamped stores -/

theorem calm_writeBack (s : State) (core line : Nat) : Calm s (s.writeBack core line) := by
  unfold State.writeBack
  split
  · exact .refl s
  · exact (calm_recall s line _).trans (calm_performDirty _ core line)

theorem calm_writeBackAll (s : State) (core : Nat) : Calm s (s.writeBackAll core) :=
  .fold (fun s (p : Nat × L1Line) => calm_writeBack s core p.1) _ s

theorem Calm.stamps {s u : State} (h : Calm s u) {k c l : Nat} {th th' : Thread} (hs : s.threadAt k c l = some th)
    (hu : u.threadAt k c l = some th') : th'.stamps = th.stamps := by
  obtain ⟨m, e⟩ := h.threads k c l th hs
  rw [hu] at e
  cases e
  rfl

section Solo
variable {s : State} {t : Team} {c l : Nat} (h : Solo s t c l)
include h

theorem Solo.team : FMap.get s.teams s.issue.team = some t := h.one.lifted.team

theorem Solo.falseParts : s.issue.falseParts = [] := by
  simp [Issue.falseParts, h.lift, h.parts]

theorem Solo.lanesIn_parts : lanesIn s.issue.parts c = [l] := by
  rw [h.parts, lanesIn_single, if_pos rfl]

theorem Solo.threadAt : s.threadAt s.issue.team c l = some ((t.course c).thread l) := by
  have live : l ∈ (t.course c).live := h.one.lifted.live (c, l) (by rw [h.lift]; exact List.mem_singleton_self _)
  obtain ⟨th, hth⟩ := mem_live_get live
  rw [State.threadAt_eq h.team (one_course h.one), Course.thread, hth, Option.getD_some]

end Solo

/-- A release at .dv of a thread without stamped stores waits for nothing (R247, R262). -/
theorem Solo.releaseActs {s : State} {t : Team} {c l : Nat} (h : Solo s t c l) (settled : s.settled t c false = true) (a : W64) :
    s.releaseActs (s.whoOf s.issue.team t c [l]) .dv a = (s.released t, none) := by
  have calm := calm_writeBackAll s t.core
  obtain ⟨m, after⟩ := calm.threads _ _ _ _ h.threadAt
  have none : ((t.course c).thread l).stamps = [] := by
    unfold State.settled at settled
    rw [h.lanesIn_parts] at settled
    simpa using settled
  have quiet : (s.released t).openStamps (s.whoOf s.issue.team t c [l]) = [] := by
    change ([l].filterMap fun l => (s.writeBackAll t.core).threadAt s.issue.team c l).flatMap (fun th => th.stamps) = []
    simp only [List.filterMap_cons, List.filterMap_nil, after, List.flatMap_cons, List.flatMap_nil, List.append_nil, none]
  have acts : s.releaseActs (s.whoOf s.issue.team t c [l]) .dv a =
      (s.released t, (s.released t).releaseStop (s.whoOf s.issue.team t c [l]) .dv a) := rfl
  rw [acts]
  simp [State.releaseStop, quiet, Scope.rank]

/-! ## emit -/

theorem Kin.teamAt {s u : State} (k : Kin s u) {tk : Nat} {t : Team} (ht : FMap.get s.teams tk = some t) :
    ∃ t', FMap.get u.teams tk = some t' ∧ t.Akin t' := k.teams tk t ht

theorem kin_commitOne (s : State) (tk : Nat) (v : W64) : Kin s (s.commitOne tk v) := by
  unfold State.commitOne
  split
  next t x ht _ =>
    dsimp only
    refine Kin.trans ?_ (kin_teamWrite _ _ _ _)
    have counted : Kin s (s.setTeam tk { t with committed := t.committed + 1, lost := t.lost || decide (x.fieldAt 0x56 2 ≤ t.committed) }) :=
      kin_setTeam ht (.of_eq rfl)
    split
    · exact counted.trans (kin_teamWrite _ _ _ _)
    · exact counted
  next => exact .refl s

theorem kin_commitWindow (s : State) (tk : Nat) (waiting : List Key) : Kin s (s.commitWindow tk waiting) := by
  unfold State.commitWindow
  split
  next => exact .refl s
  next t ht =>
    dsimp only
    split
    · exact .refl s
    · have wrote : Kin s ((s.setTeam tk { t with emits := t.emits.filter fun e => !(s.committable t waiting).contains e }).writeBackAll t.core) :=
        Kin.trans (by exact kin_setTeam ht (.of_eq rfl)) (kin_writeBackAll _ _)
      exact wrote.trans (Kin.fold (f := fun s (e : Emission) => s.commitOne tk e.value) (fun s e => kin_commitOne s tk e.value) _ _)

/-- What a thread of the lift does at its emit. -/
def State.emitStep (ty : Ty) (a : Src) (s : State) (t : Team) (c l : Nat) : State × Go :=
  if !s.issue.parts.contains (c, l) then s.passBy c l [(ty, a)]
  else
    let v := srcView (rdCtx (s.core t.core) t c) ty a
    if v.stale l then (s, .fault { course := c, lane := l, code := .staleLatch })
    else
      match s.emitOne s.issue.team c l (v.val l) with
      | (s, some w) => (s, .wait w)
      | (s, none) => (s.markThread s.issue.team c l [v] [(ty, a)], .to s.issue.next)

/-- The type of an emit's operand. -/
abbrev emitTy (wide : Bool) : Ty := if wide then .b64 else .b32

/-- The emit of a width. -/
abbrev emitOf (wide : Bool) (a : Src) : Instr := if wide then .emitB64 a else .emitB32 a

section Emit
variable {s u : State} {t : Team} {c l : Nat} {wide : Bool} {a : Src}

/-- The emit of one thread is that thread's, and the boundary. -/
theorem exec_emit {v : State} (h : Solo s t c l) (e : s.eachThread [(c, l)] (State.emitStep (emitTy wide) a) = .next v) :
    exec (emitOf wide a) s = .next (v.settle v.issue.team) := by
  have run : exec (emitOf wide a) s =
      match s.eachThread (s.issue.falseParts ++ sortBy (fun x y => keyLe ((s.threadAt s.issue.team x.1 x.2).getD { pc := 0 }).key
        ((s.threadAt s.issue.team y.1 y.2).getD { pc := 0 }).key) s.issue.parts) (State.emitStep (emitTy wide) a) with
      | Host.Outcome.next s => Host.Outcome.next (s.settle s.issue.team)
      | r => r := by
    cases wide <;> rfl
  rw [run, h.falseParts, h.parts]
  change (match s.eachThread [(c, l)] (State.emitStep (emitTy wide) a) with
      | Host.Outcome.next s => Host.Outcome.next (s.settle s.issue.team)
      | r => r) = _
  rw [e]

variable (h : Solo s t c l) (hr : Readable s t [(emitTy wide, a)])
include h hr

/-- The thread is admitted, or not, by its operand's value. -/
theorem emitStep_wait {w : Wait} (e : s.emitOne s.issue.team c l ((srcView (s.reads t c) (emitTy wide) a).val l) = (u, some w)) :
    State.emitStep (emitTy wide) a s t c l = (u, .wait w) := by
  have turn : (!s.issue.parts.contains (c, l)) = false := by simp [h.parts]
  have fresh : (srcView (rdCtx (s.core t.core) t c) (emitTy wide) a).stale l = false :=
    hr (c, l) (by rw [h.parts]; exact List.mem_singleton_self _) _ (List.mem_singleton_self _)
  have e' : s.emitOne s.issue.team c l ((srcView (rdCtx (s.core t.core) t c) (emitTy wide) a).val l) = (u, some w) := e
  unfold State.emitStep
  simp only [turn, fresh, e', Bool.false_eq_true, if_false]

theorem emitStep_done (e : s.emitOne s.issue.team c l ((srcView (s.reads t c) (emitTy wide) a).val l) = (u, none)) :
    State.emitStep (emitTy wide) a s t c l =
      (u.markThread u.issue.team c l [srcView (s.reads t c) (emitTy wide) a] [(emitTy wide, a)], .to u.issue.next) := by
  have turn : (!s.issue.parts.contains (c, l)) = false := by simp [h.parts]
  have fresh : (srcView (rdCtx (s.core t.core) t c) (emitTy wide) a).stale l = false :=
    hr (c, l) (by rw [h.parts]; exact List.mem_singleton_self _) _ (List.mem_singleton_self _)
  have e' : s.emitOne s.issue.team c l ((srcView (rdCtx (s.core t.core) t c) (emitTy wide) a).val l) = (u, none) := e
  unfold State.emitStep
  simp only [turn, fresh, e', Bool.false_eq_true, if_false]
  rfl

/-- An admitted emission: the thread goes on, and the team settles. -/
theorem exec_emit_done (k : Kin s u) (e : s.emitOne s.issue.team c l ((srcView (s.reads t c) (emitTy wide) a).val l) = (u, none)) :
    exec (emitOf wide a) s = .next (((u.markThread s.issue.team c l [srcView (s.reads t c) (emitTy wide) a] [(emitTy wide, a)]).retire [(c, l)]
      s.issue.next).settle s.issue.team) := by
  rw [exec_emit h (State.eachThread_to h.team (emitStep_done h hr e)), ← k.issue]
  rfl

/-- One that is not: the thread waits at its unit, and the team settles. -/
theorem exec_emit_wait (k : Kin s u) (e : s.emitOne s.issue.team c l ((srcView (s.reads t c) (emitTy wide) a).val l) = (u, some .emit)) :
    exec (emitOf wide a) s = .next ((u.onThread s.issue.team c l fun th => { th with wait := .emit, waitLen := s.issue.len }).settle s.issue.team) := by
  rw [exec_emit h (State.eachThread_wait h.team (emitStep_wait h hr e)), ← k.issue]
  rfl

end Emit


/-! ## What emitOne answers on a team without deferred records -/

/-- Whether the thread's key is the team's lowest. -/
def Team.isFirst (t : Team) (key : Key) : Prop := ∀ k, t.lowest [] = some k → keyLt k key = false

/-- Whether an emission at or before a key is left in the window. -/
def State.behind (s : State) (tk : Nat) (key : Key) : Prop :=
  ∃ t, FMap.get s.teams tk = some t ∧ ∃ e ∈ t.emits, keyLt key (e.root, e.ords) = false

section EmitOne
variable {s : State} {t : Team} {c l : Nat} {v : W64} (ht : FMap.get s.teams s.issue.team = some t) (hrec : t.records = [])
include ht hrec

theorem emitOne_later (later : ¬ t.isFirst ((t.course c).thread l).key) : s.emitOne s.issue.team c l v =
    if t.emits.length < 256 then
      (s.setTeam s.issue.team { t with
        emits := t.emits ++ [⟨((t.course c).thread l).root, ((t.course c).thread l).ords, v, t.emitOrder, ((t.course c).thread l).stamps⟩]
        emitOrder := t.emitOrder + 1 }, none)
    else (s, some .emit) := by
  unfold Team.isFirst at later
  push Not at later
  obtain ⟨k, low, lt⟩ := later
  unfold State.emitOne
  simp only [ht, hrec, State.recordKeys, List.foldl_nil, nextKeys, List.map_nil, low]
  have before : keyLt k ((t.course c).thread l).key = true := by simpa using lt
  simp only [before, Bool.not_true, Bool.false_eq_true, if_false]

end EmitOne

section First
variable {s : State} {t : Team} {c l : Nat} {v : W64} (h : Solo s t c l) (hrec : t.records = [])
  (first : t.isFirst ((t.course c).thread l).key) (settled : s.settled t c false = true)
include h hrec first settled

/-- The thread whose key is the lowest releases and lets the window commit before it looks at what is left. -/
theorem emitOne_first : s.emitOne s.issue.team c l v =
    let done := (s.released t).commitWindow s.issue.team []
    if (FMap.get done.teams s.issue.team).any fun t' => t'.emits.any fun e => !keyLt ((t.course c).thread l).key (e.root, e.ords) then
      (done, some .emit)
    else (done.commitOne s.issue.team v, none) := by
  unfold State.emitOne
  cases low : t.lowest [] with
  | none =>
    simp only [h.team, hrec, State.recordKeys, List.foldl_nil, nextKeys, List.map_nil, low, if_true, h.releaseActs settled]
    cases FMap.get ((s.released t).commitWindow s.issue.team []).teams s.issue.team <;> rfl
  | some k =>
    simp only [h.team, hrec, State.recordKeys, List.foldl_nil, nextKeys, List.map_nil, low, first k low, Bool.not_false, if_true,
      h.releaseActs settled]
    cases FMap.get ((s.released t).commitWindow s.issue.team []).teams s.issue.team <;> rfl

theorem emitOne_behind (b : ((s.released t).commitWindow s.issue.team []).behind s.issue.team ((t.course c).thread l).key) :
    s.emitOne s.issue.team c l v = ((s.released t).commitWindow s.issue.team [], some .emit) := by
  obtain ⟨t', ht', e, he, after⟩ := b
  have left : (t'.emits.any fun e => !keyLt ((t.course c).thread l).key (e.root, e.ords)) = true :=
    List.any_eq_true.mpr ⟨e, he, by rw [after]; rfl⟩
  rw [emitOne_first h hrec first settled]
  simp only [ht', Option.any_some, left, if_true]

theorem emitOne_commits (b : ¬ ((s.released t).commitWindow s.issue.team []).behind s.issue.team ((t.course c).thread l).key) :
    s.emitOne s.issue.team c l v = (((s.released t).commitWindow s.issue.team []).commitOne s.issue.team v, none) := by
  rw [emitOne_first h hrec first settled]
  cases ht' : FMap.get ((s.released t).commitWindow s.issue.team []).teams s.issue.team with
  | none => simp only [ht', Option.any_none, Bool.false_eq_true, if_false]
  | some t' =>
    have none : ¬ (t'.emits.any fun e => !keyLt ((t.course c).thread l).key (e.root, e.ords)) = true := fun k => by
      obtain ⟨e, he, after⟩ := List.any_eq_true.mp k
      exact b ⟨t', ht', e, he, by simpa using after⟩
    simp only [ht', Option.any_some]
    exact if_neg none

end First

/-- Settles O38. -/
theorem emitUnit : Obligations.EmitUnit := by
  unfold Obligations.EmitUnit
  intro wide a s t c l i srcs _ solo hr hrec
  have done := (kin_writeBackAll s t.core).trans (kin_commitWindow (s.released t) s.issue.team [])
  refine ⟨fun first settled nb => ?_, fun first settled b => ?_, fun later room => ?_, fun later full => ?_⟩
  · exact exec_emit_done solo hr (done.trans (kin_commitOne _ _ _)) (emitOne_commits solo hrec first settled nb)
  · exact exec_emit_wait solo hr done (emitOne_behind solo hrec first settled b)
  · refine exec_emit_done solo hr ?_ ((emitOne_later solo.team hrec later).trans (if_pos room))
    exact kin_setTeam solo.team (.of_eq rfl)
  · exact exec_emit_wait solo hr (.refl s) ((emitOne_later solo.team hrec later).trans (if_neg full))

end Sys2Proof.Machine
end

section
/-!
SUPPORT. The refutation of O37: a team table that holds the issuing team's number twice. At every fork the records in use are taken anew from what the
sharing leaves, in every entry of that number; the statement says that a fork with too great a count changes nothing but by its fault.
-/

namespace Sys2Proof.Machine

/-- The placed team, and a second entry of its number with a deferral record in use; the table answers with the first. -/
def twiceNumbered : FMap Team := [(teamKey 0 1 0, placedTeam), (teamKey 0 1 0, { placedTeam with records := [5] })]

theorem solo_twiceNumbered : Solo (loneState twiceNumbered) placedTeam 0 0 :=
  solo_loneState rfl (by decide +kernel) (by decide +kernel) (by decide +kernel) rfl

/-- The deferral records in use, entry by entry, after an instruction that goes on. -/
def recordsAfter : Host.Outcome State Fault Refusal → List (List Nat)
  | .next s => s.teams.map fun k => k.2.records
  | _ => []

/-- The fork of 65,537 frees the record of the second entry. -/
theorem recordsAfter_fork : recordsAfter (exec (.fork 6 (.lit 65537)) (loneState twiceNumbered)) = [[], []] := by decide +kernel

/-- Refutes O37: where the team table holds the issuing team's number twice, a fork of more than 65,536 frees the deferral records of the second
entry, while the statement says that it delivers its fault and no more. -/
theorem not_forks : ¬ Obligations.Forks := by
  unfold Obligations.Forks
  intro h
  have fork := h.1 6 (.lit 65537) _ _ 0 0 placedSlice (by decide) solo_twiceNumbered (by unfold Readable; decide +kernel) (by decide +kernel) rfl
  have records := congrArg recordsAfter (fork.1 (by decide +kernel))
  rw [recordsAfter_fork] at records
  exact absurd records (by decide +kernel)

end Sys2Proof.Machine
end

section
/-!
SUPPORT. The refutation of O46: a team table that holds the number of the team to be placed twice, the second time for a team of no partition (16). Its
core's carve has to be fitted to the newcomer, and the register store is fuller than the carve has room for: a line of the second entry is evicted, by
its number from the team that was just placed. The statement says that this team's courses are as they are launched.
-/

namespace Sys2Proof.Machine

/-- The placed slice with its one team unplaced. -/
def unplacedSlice : Slice := { placedSlice with nextTeam := 0 }

/-- A team of partition 16 on core 1, with one line in the register store. -/
def strayTeam : Team := { placedTeam with part := 16, core := 1, courses := [(0, { names := [.uni 0] })] }

/-- The placed partition with quotas and core 1. -/
def roomyPartition : Partition :=
  { block := putBytes (putBytes placedPartition.block 0x10 (leBytes 4 64 ++ leBytes 4 512 ++ leBytes 4 0)) 0x100 [2] }

/-- Core 1, all of it L1, beside 2,049 lines that a saved course has left in its register store. -/
def crowdedCore : Core := { carve := (0, 0, 32), left := List.replicate 2049 ⟨0, 0, 0, []⟩ }

/-- The state in which the scheduler places the team. -/
def crowdedState : State :=
  { State.reset.placeWord 0 with
    parts := roomyPartition :: List.replicate 15 {}
    slices := [(sliceKey 0 1, unplacedSlice)]
    teams := [(teamKey 0 1 0, strayTeam), (teamKey 0 1 0, strayTeam)]
    cores := [(1, crowdedCore)] }

/-- The names of the placed team's courses whose lines are not in the register store, after an instruction that goes on. -/
def awayAfter : Host.Outcome State Fault Refusal → Option (List (List Nat))
  | .next s => (FMap.get s.teams (teamKey 0 1 0)).map fun t => t.courses.map fun q => q.2.away
  | _ => none

/-- The placed team is without the line of its names v0 to v10. -/
theorem awayAfter_teamPlacement : awayAfter (exec (.teamPlacement 0) crowdedState) = some [[0, 1, 2, 3, 4, 5, 6, 7, 8, 9, 10]] := by decide +kernel

/-- A launched course has all its lines in the register store. -/
theorem launchCourse_away (x : Slice) (team k now : Nat) : (launchCourse x team k now).away = [] := rfl

/-- Refutes O46: where the team table holds the number of the team to be placed twice, making room on its core can evict a line from the team that was
just placed, while the statement says that its courses are as they are launched. -/
theorem not_scheduling : ¬ Obligations.Scheduling := by
  unfold Obligations.Scheduling
  rintro ⟨-, -, -, place, -⟩
  obtain ⟨s', t', placed, team, -, -, courses, -⟩ := place crowdedState 0 (sliceKey 0 1) unplacedSlice 0 1 (by decide +kernel) (by decide +kernel)
    (by decide +kernel) (by decide +kernel) rfl (by decide +kernel) (by decide +kernel) (by decide) (by decide) (by decide +kernel)
  have away := awayAfter_teamPlacement
  have key : teamKey unplacedSlice.part unplacedSlice.num 0 = teamKey 0 1 0 := rfl
  rw [key] at team
  rw [placed, awayAfter, team, Option.map_some, courses, List.map_map] at away
  have one : unplacedSlice.launchCourses = 1 := by decide +kernel
  rw [one] at away
  exact absurd away (by simp [launchCourse_away])

end Sys2Proof.Machine
end

section
/-!
SUPPORT. What a matrix unit that completes at issue does to its course and its state (R34, R57, R216).
-/

namespace Sys2Proof.Machine

/-! ## Frames one after another -/

/-- Two frames on the same lanes, of which the second writes nothing. -/
theorem CourseFrame.thenReads {x y z : Course} {regs lanes lasts more lift : List Nat} {pipes : Nat → Prop} {u : Nat → Thread → Thread}
    (h : CourseFrame x y regs [] lanes lasts lift pipes u) (k : CourseFrame y z [] [] lanes more lift pipes fun _ th => th) :
    CourseFrame x z regs [] lanes (lasts ++ more) lift pipes u where
  live := k.live.trans h.live
  kept n l hl hw hr := by
    obtain ⟨row, free⟩ := h.kept n l hl hw fun e => hr ⟨List.mem_append_left _ e.1, e.2⟩
    obtain ⟨row', free'⟩ := k.kept n l (h.live ▸ hl) (fun e => nomatch e.1) fun e => hr ⟨List.mem_append_right _ e.1, e.2⟩
    exact ⟨row'.trans row, fun e => (free' List.not_mem_nil).trans (free e)⟩
  last n hn l hm hl hw := by
    by_cases later : n ∈ more
    · exact k.last n later l hm (h.live ▸ hl) fun e => nomatch e.1
    · obtain ⟨row, free⟩ := h.last n ((List.mem_append.mp hn).resolve_right later) l hm hl hw
      obtain ⟨row', free'⟩ := k.kept n l (h.live ▸ hl) (fun e => nomatch e.1) fun e => later e.1
      exact ⟨row'.trans row, (free' List.not_mem_nil).trans free⟩
  entries n l hl hw := by
    obtain ⟨row, free⟩ := h.entries n l hl hw
    obtain ⟨row', free'⟩ := k.entries n l (h.live ▸ hl) fun e => nomatch e.1
    exact ⟨row'.trans row, fun e => (free' e).trans (free e)⟩
  latches j hj hr he := by
    have e := h.latches j hj (fun n hn => hr n (by simp only [List.mem_append] at hn ⊢; tauto)) he
    exact (k.latches j hj (fun n hn => by rw [e]; exact hr n (by simp only [List.mem_append] at hn ⊢; tauto)) nofun).trans e
  threads l th hth := by
    obtain ⟨sv, e, keeps⟩ := h.threads l th hth
    obtain ⟨sv', e', keeps'⟩ := k.threads l _ e
    refine ⟨sv', e', fun v hv hp hr he => keeps' v (keeps v hv hp ?_ he) hp ?_ nofun⟩
    · exact fun ⟨n, hn, names⟩ => hr ⟨n, by simp only [List.mem_append] at hn ⊢; tauto, names⟩
    · exact fun ⟨n, hn, names⟩ => hr ⟨n, by simp only [List.mem_append] at hn ⊢; tauto, names⟩
  rest := by
    obtain ⟨a1, a2, a3, a4, a5, a6, a7⟩ := h.rest
    obtain ⟨b1, b2, b3, b4, b5, b6, b7⟩ := k.rest
    exact ⟨b1.trans a1, b2.trans a2, b3.trans a3, b4.trans a4, b5.trans a5, b6.trans a6, b7.trans a7⟩

theorem Written.congr {a b : Course} {regs ents ls ks : List Nat} (h : Written a b regs ents ls) (e : ∀ l, l ∈ ls ↔ l ∈ ks) :
    Written a b regs ents ks where
  ok := h.ok
  threads := h.threads
  saved := h.saved
  reg n l hl hn := h.reg n l hl fun k => hn ⟨k.1, (e l).mp k.2⟩
  free := h.free
  dead n l hl hn := h.dead n l hl fun k => hn ⟨k.1, (e l).mp k.2⟩
  opf n l hl hn := h.opf n l hl fun k => hn ⟨k.1, (e l).mp k.2⟩
  latch := h.latch
  rest := h.rest

/-! ## Last reads of names -/

/-- A block of names as operands. -/
def blockOf (names : List Nat) (last : Bool) : List Operand := names.map fun n => (.b32, .reg (Fin.ofNat 64 n) last)

theorem blockOf_pairOk {names : List Nat} {last : Bool} : ∀ o ∈ blockOf names last, o.2.pairOk o.1 = true := by
  intro o ho
  obtain ⟨n, -, rfl⟩ := List.mem_map.mp ho
  rfl

theorem lastOf_blockOf {names : List Nat} (h : ∀ n ∈ names, n < 64) (last : Bool) : lastOf (blockOf names last) = if last then names else [] := by
  induction names with
  | nil => cases last <;> rfl
  | cons n ns ih =>
    have ih' := ih fun k hk => h k (List.mem_cons_of_mem _ hk)
    unfold lastOf blockOf at ih' ⊢
    rw [List.map_cons, List.flatMap_cons, ih']
    cases last
    · rfl
    · simpa [lastNames, Ty.isPair] using h n List.mem_cons_self

theorem lastOf_append (a b : List Operand) : lastOf (a ++ b) = lastOf a ++ lastOf b := List.flatMap_append

/-- Marking and freeing names is marking and freeing them as operands of every live thread. -/
theorem markNames_eq {names : List Nat} {blk : List Operand} (h : lastOf blk = names) (y : Course) :
    y.markNames names = (y.markSources blk y.live).reapSources blk := by
  have mark : ∀ (ns : List Nat) (y : Course),
      ns.foldl (fun c n => c.markDead n c.liveMask) y = ns.foldl (fun c n => c.markDead n (maskOf y.live)) y := by
    intro ns
    induction ns with
    | nil => exact fun _ => rfl
    | cons n ns ih => exact fun y => ih (y.markDead n y.liveMask)
  unfold Course.markNames Course.markSources Course.reapSources
  rw [mark, ← h]
  rfl

/-- What the last reads of operands by a whole course do to it. -/
theorem reads_frame {y : Course} (ok : y.Ok) (lt : ∀ l ∈ y.live, l < 32) {blk : List Operand} (hs : ∀ o ∈ blk, o.2.pairOk o.1 = true)
    {lift : List Nat} (hl : ∀ l, l ∈ lift ↔ l ∈ y.live) (lanes : List Nat) (pipes : Nat → Prop) :
    CourseFrame y ((y.markSources blk y.live).reapSources blk) [] [] lanes (lastOf blk) lift pipes fun _ th => th := by
  rw [← markSources_congr y blk hl]
  exact (frame_of_parts ok lt (lastOf_lt_of_ok blk hs) (fun l h => lt l ((hl l).mp h)) (.refl y) (.rfl' (markSources_ok ok hs lift).1 lanes)
    (.refl _ pipes)).1

/-! ## The course of a matrix unit -/

/-- How a matrix unit ends for its course: READ_FREE is noted, last reads are marked, names are written, last reads free. -/
def Course.matrixEnd (y : Course) (vs : List View) (srcs : List Operand) (write : Course → Course) (lasts : List Nat) : Course :=
  ((write ((y.noteFree vs y.live).markSources srcs y.live)).reapSources srcs).markNames lasts

section Ends
variable {x y : Course} {u : Nat → Thread → Thread} {srcs blk : List Operand} {lasts regs lift parts : List Nat} {write : Course → Course}
  {val : Nat → Nat → W32} {vs : List View}

/-- What it ends with, where the course has before become `y` by changes of its threads. -/
theorem matrixEnd_spec (sound : x.sound = true) (hy : Updated x y u) (hs : ∀ o ∈ srcs, o.2.pairOk o.1 = true) (hb : ∀ o ∈ blk, o.2.pairOk o.1 = true)
    (hlast : lastOf blk = lasts) (hlift : ∀ l, l ∈ lift ↔ l ∈ x.live) (hparts : ∀ l, l ∈ parts ↔ l ∈ x.live)
    (hw : ∀ z : Course, z.Ok → z.live = x.live → Written z (write z) regs [] z.live ∧ ∀ n ∈ regs, ∀ l ∈ z.live, regRow (write z) n l = val n l)
    (apart : ∀ n ∈ regs, n ∉ lasts) :
    CourseFrame x (y.matrixEnd vs srcs write lasts) regs [] parts (lastOf (srcs ++ blk)) lift (· ∈ ([] : List Nat))
      (fun l th => if y.live.contains l && vs.any (fun v => v.free l) then (u l th).setReadFree else u l th) ∧
    ∀ n ∈ regs, ∀ l ∈ parts, regRow (y.matrixEnd vs srcs write lasts) n l = val n l := by
  obtain ⟨ok, lt⟩ := Course.sound_ok sound
  have noted := hy.trans (noteFree_updated y vs y.live)
  have okN : (y.noteFree vs y.live).Ok := by
    rw [noted.eq]
    exact ⟨ok.names, ok.dead, ok.opf, ok.latches, ok.links, ok.opfLinks⟩
  obtain ⟨okM, liveM⟩ := markSources_ok okN hs lift
  have liveM' := liveM.trans noted.live
  have marks : (y.noteFree vs y.live).markSources srcs y.live = (y.noteFree vs y.live).markSources srcs lift :=
    markSources_congr _ srcs fun l => by rw [hlift, hy.live]
  obtain ⟨w, wv⟩ := hw _ okM liveM'
  have w' := w.congr (ks := parts) fun l => by rw [liveM', hparts]
  obtain ⟨frame, okW, q⟩ := frame_of_parts ok lt (lastOf_lt_of_ok srcs hs) (fun l hl => lt l ((hlift l).mp hl)) noted w' (.refl _ (· ∈ ([] : List Nat)))
  have rest := reads_frame okW (fun l hl => lt l (by rw [← frame.live]; exact hl)) hb (lift := lift) (fun l => by rw [frame.live]; exact hlift l) parts
    (· ∈ ([] : List Nat))
  have ends : y.matrixEnd vs srcs write lasts = _ := markNames_eq hlast _
  rw [ends, marks, lastOf_append]
  refine ⟨frame.thenReads rest, fun n hn l hl => ?_⟩
  have hlx := (hparts l).mp hl
  have kept := rest.kept n l (by rw [frame.live]; exact hlx) (fun e => nomatch e.1) fun e => apart n hn (hlast ▸ e.1)
  rw [kept.1, (q.reg n l (by rw [w.threads.live, liveM']; exact hlx)).1]
  exact wv n hn l (by rw [liveM']; exact hlx)

end Ends

/-! ## The state of a matrix unit -/

section Whole
variable {s : State} {t : Team} {c : Nat} (h : WholeCourse s t c)
include h

theorem WholeCourse.mem_course {m : Nat × Nat} (hm : m ∈ s.issue.lift) : m.1 = c := by
  have k := mem_coursesOf.mpr ⟨m, hm, rfl⟩
  rw [h.one.one] at k
  exact List.mem_singleton.mp k

theorem WholeCourse.lift_head : (s.issue.lift.headD (0, 0)).1 = c := by
  cases e : s.issue.lift with
  | nil =>
    have one := h.one.one
    rw [e] at one
    exact nomatch one
  | cons m ms => exact h.mem_course (by rw [e]; exact List.mem_cons_self)

theorem WholeCourse.mem_lift (l : Nat) : l ∈ lanesIn s.issue.lift c ↔ l ∈ (t.course c).live := by
  constructor
  · exact lift_live h.one.lifted
  · intro hl
    exact mem_lanesIn.mpr (by simpa using List.all_eq_true.mp h.whole l hl)

theorem WholeCourse.mem_parts (l : Nat) : l ∈ lanesIn s.issue.parts c ↔ l ∈ (t.course c).live := by
  rw [h.all]
  exact h.mem_lift l

theorem WholeCourse.sound : (t.course c).sound = true := by
  obtain ⟨m, hm, e⟩ := mem_coursesOf.mp (one_mem h.one)
  exact e ▸ h.one.lifted.sound m hm

theorem WholeCourse.fresh {srcs : List Operand} (hr : Readable s t srcs) :
    staleLanes (srcs.map fun o => srcView (rdCtx (s.core t.core) t c) o.1 o.2) (t.course c).live = [] := by
  refine stale_nil fun l hl v hv => ?_
  obtain ⟨o, ho, rfl⟩ := List.mem_map.mp hv
  exact hr (c, l) (mem_lanesIn.mp ((h.mem_parts l).mpr hl)) o ho

theorem WholeCourse.curTeam : s.curTeam = some t := h.one.lifted.team

theorem WholeCourse.acts : s.issue.parts.isEmpty = false :=
  List.isEmpty_eq_false_iff.mpr fun e => h.one.acts (by rw [e]; rfl)

theorem WholeCourse.allParticipate : allParticipate s.issue c (t.course c) = true := by
  have w := h.whole
  unfold Issue.whole at w
  unfold Machine.allParticipate
  rwa [h.all]

/-- A matrix unit whose course takes part whole does what `f` says (R34): it has its effect. -/
theorem WholeCourse.matrix_done {lasts : List Nat} {srcs : List Operand} {f : State → Team → Nat → State × MatEnd} {u : State}
    {write : Course → Course}
    (hr : Readable s t srcs) (hf : f s t c = (u, .done write)) :
    s.matrix lasts srcs f = .next ((u.onCourse u.issue.team c fun y =>
      y.matrixEnd (srcs.map fun o => srcView (rdCtx (s.core t.core) t c) o.1 o.2) srcs write lasts).retire u.issue.lift u.issue.next) := by
  unfold State.matrix
  simp only [h.curTeam, h.lift_head, h.whole, h.acts, h.allParticipate, h.fresh hr, Bool.not_true, Bool.false_eq_true, if_false, List.isEmpty_nil, hf]
  have one := onCourse_onCourse u u.issue.team c (fun y => y.noteFree (srcs.map fun o => srcView (rdCtx (s.core t.core) t c) o.1 o.2) y.live) fun y =>
    ((write (y.markSources srcs y.live)).reapSources srcs).markNames lasts
  simp only [(noteFree_updated _ _ _).live] at one
  exact congrArg (fun v : State => Host.Outcome.next (v.retire u.issue.lift u.issue.next)) one

/-- A matrix unit whose course takes part whole does what `f` says (R34): it waits. -/
theorem WholeCourse.matrix_wait {lasts : List Nat} {srcs : List Operand} {f : State → Team → Nat → State × MatEnd} {u : State} {w : Wait}
    (hr : Readable s t srcs) (hf : f s t c = (u, .wait w)) : s.matrix lasts srcs f = .next (u.await u.issue.lift w) := by
  unfold State.matrix
  simp only [h.curTeam, h.lift_head, h.whole, h.acts, h.allParticipate, h.fresh hr, Bool.not_true, Bool.false_eq_true, if_false, List.isEmpty_nil, hf]

end Whole


/-! ## A matrix unit that completes at issue -/

/-- READ_FREE is set once. -/
theorem setReadFree_twice (th : Thread) : th.setReadFree.setReadFree = th.setReadFree := by
  simp [Thread.setReadFree, BitVec.or_assoc]

theorem live_of_get {c : Course} {l : Nat} {th : Thread} (h : FMap.get c.threads l = some th) : l ∈ c.live :=
  (FMap.mem_keys c.threads l).mpr (by rw [h]; rfl)

/-- Poison marks are no part of a frame. -/
theorem CourseFrame.ofBad {x y : Course} {b : List BadPlace} {regs ents lanes lasts lift : List Nat} {pipes : Nat → Prop} {u : Nat → Thread → Thread}
    (h : CourseFrame { x with bad := b } y regs ents lanes lasts lift pipes u) : CourseFrame x y regs ents lanes lasts lift pipes u :=
  ⟨h.live, h.kept, h.last, h.entries, h.latches, h.threads, h.rest⟩

/-- Every live lane takes `val` in the names `regs`, and nothing else is written. -/
def WritesNames (write : Course → Course) (regs : List Nat) (val : Nat → Nat → W32) : Prop :=
  ∀ z : Course, z.Ok → (∀ l ∈ z.live, l < 32) → Written z (write z) regs [] z.live ∧
    ∀ n ∈ regs, ∀ l ∈ z.live, regRow (write z) n l = val n l

theorem writesNames_id (val : Nat → Nat → W32) : WritesNames id [] val :=
  fun z hz _ => ⟨.rfl' hz z.live, fun _ hn => absurd hn List.not_mem_nil⟩

theorem WritesNames.congr {w : Course → Course} {r : List Nat} {val val' : Nat → Nat → W32} (h : WritesNames w r val) (e : ∀ n l, val n l = val' n l) :
    WritesNames w r val' := fun z hz lt => ⟨(h z hz lt).1, fun n hn l hl => ((h z hz lt).2 n hn l hl).trans (e n l)⟩

/-- One write after another: the later one wins. -/
theorem WritesNames.trans {w w' : Course → Course} {r r' : List Nat} {val val' : Nat → Nat → W32} (h : WritesNames w r val) (k : WritesNames w' r' val') :
    WritesNames (fun z => w' (w z)) (r ++ r') fun n l => if n ∈ r' then val' n l else val n l := by
  intro z hz lt
  obtain ⟨a, v⟩ := h z hz lt
  have live := a.threads.live
  obtain ⟨b, v'⟩ := k (w z) a.ok (by rwa [live])
  rw [live] at b v'
  refine ⟨a.trans b, fun n hn l hl => ?_⟩
  show regRow (w' (w z)) n l = if n ∈ r' then val' n l else val n l
  by_cases later : n ∈ r'
  · rw [if_pos later]
    exact v' n later l hl
  · rw [if_neg later, b.reg n l (by rwa [live]) fun e => later e.1]
    exact v n ((List.mem_append.mp hn).resolve_right later) l hl

/-- What the own work of a matrix unit comes to: the state `s1`, with team `t1` and course `x1` in it, and beside that only `pre` on the course,
which changes threads as `u` says and poison marks to `b`. -/
structure MatWork (s s1 u : State) (t1 : Team) (c : Nat) (live : List Nat) (x1 : Course) (pre : Course → Course)
    (b : List BadPlace) (upd : Nat → Thread → Thread) : Prop where
  issue : s1.issue = s.issue
  cycle : s1.cycle = s.cycle
  team : FMap.get s1.teams s.issue.team = some t1
  course : FMap.get t1.courses c = some x1
  sound : x1.sound = true
  live : x1.live = live
  issue' : u.issue = s.issue
  onCourse : ∀ g, u.onCourse s.issue.team c g = s1.onCourse s.issue.team c fun y => g (pre y)
  threads : Updated { x1 with bad := b } (pre x1) upd

/-- The end of a unit that has changed its course, has no load on its way and faults nowhere. -/
theorem finishWith_idle {s1 : State} {i : Issue} (hi : s1.issue = i) (tk c : Nat) (g : Course → Course) (e : PendingLoad → Instr) :
    ({ s1.onCourse tk c g with agenda := s1.agenda ++ [].map e } : State).finishWith {} = (s1.onCourse tk c g).retire i.lift i.next := by
  subst hi
  rw [finishWith_none, List.map_nil, List.append_nil]
  rfl

/-- A matrix unit that has its effect: its own work has led to `s1`, it reads `srcs` and the block `blk`, and writes the names `regs`. -/
theorem WholeCourse.matrix_served {s s1 u : State} {t t1 : Team} {c : Nat} {x1 : Course} {lasts regs : List Nat} {srcs blk : List Operand}
    {f : State → Team → Nat → State × MatEnd} {write pre : Course → Course} {b : List BadPlace} {upd : Nat → Thread → Thread}
    {val : Nat → Nat → W32} {free : Nat → Bool} (h : WholeCourse s t c) (hr : Readable s t srcs)
    (hs : ∀ o ∈ srcs, o.2.pairOk o.1 = true) (hb : ∀ o ∈ blk, o.2.pairOk o.1 = true) (hlast : lastOf blk = lasts)
    (hf : f s t c = (u, .done write)) (k : MatWork s s1 u t1 c (t.course c).live x1 pre b upd)
    (hfree : ∀ l ∈ (t.course c).live, ∀ th, (if freeRead s t false false .sup srcs c l then (upd l th).setReadFree else upd l th) =
      if free l then th.setReadFree else th)
    (hw : WritesNames write regs val) (apart : ∀ n ∈ regs, n ∉ lasts) :
    ∃ s', s.matrix lasts srcs f = .next s' ∧ Served s s1 s' t1 c (srcs ++ blk) regs val [] free [] fun _ th => th := by
  set vs := srcs.map fun o => srcView (rdCtx (s.core t.core) t c) o.1 o.2 with hvs
  obtain ⟨ok, lt⟩ := Course.sound_ok k.sound
  have soundB : ({ x1 with bad := b } : Course).sound = true := k.sound
  obtain ⟨frame, vals⟩ := matrixEnd_spec (vs := vs) soundB k.threads hs hb hlast (lift := lanesIn s.issue.lift c) (parts := lanesIn s.issue.parts c)
    (fun l => by rw [h.mem_lift]; exact (k.live ▸ Iff.rfl)) (fun l => by rw [h.mem_parts]; exact (k.live ▸ Iff.rfl))
    (fun z hz e => hw z hz (by rw [e]; exact lt)) apart
  have loads : ((pre x1).matrixEnd vs srcs write lasts).loads = x1.loads := frame.rest.2.2.1
  have same : ({ (pre x1).matrixEnd vs srcs write lasts with loads := x1.loads } : Course) = (pre x1).matrixEnd vs srcs write lasts := by rw [← loads]
  refine ⟨_, h.matrix_done hr hf, ?_⟩
  rw [k.issue', k.onCourse]
  have := served_of (loads := []) (g := fun y => (pre y).matrixEnd vs srcs write lasts) (ps := []) (upd := fun _ th => th) (free := free) (val := val)
    (regs := regs) (srcs := srcs ++ blk) h.one k.issue k.cycle k.team k.course (by rw [loads, List.append_nil]) 
    (by
      rw [same]
      refine frame.ofBad.congr fun l th hl => ?_
      have live : l ∈ (t.course c).live := by rw [← k.live]; exact live_of_get hl
      have part : (lanesIn s.issue.parts c).contains l = true := List.contains_iff_mem.mpr ((h.mem_parts l).mpr live)
      have on : (pre x1).live.contains l = true := List.contains_iff_mem.mpr (by rw [k.threads.live]; exact live_of_get hl)
      have reads : freeRead s t false false .sup srcs c l = vs.any fun v => v.free l := by
        rw [hvs, List.any_map]
        simp [freeRead, State.reads, Function.comp_def]
      simp only [on, part, Bool.true_and, if_true]
      simpa only [reads] using hfree l live th)
    vals fun _ hp => absurd hp List.not_mem_nil
  rwa [finishWith_idle k.issue] at this

/-! ## Names written whole -/

theorem mem_nameRun {k base n : Nat} : k ∈ nameRun base n ↔ base ≤ k ∧ k < base + n := by
  simp only [nameRun, List.mem_map, List.mem_range]
  exact ⟨fun ⟨m, hm, e⟩ => by omega, fun h => ⟨k - base, by omega, by omega⟩⟩

theorem nameRun_lt {base n : Nat} (h : base + n ≤ 64) : ∀ k ∈ nameRun base n, k < 64 := fun k hk => by
  have := mem_nameRun.mp hk
  omega

theorem nameRun_succ (base n : Nat) : nameRun base (n + 1) = nameRun base n ++ [base + n] := by
  simp [nameRun, List.range_succ]

theorem writeRows_succ (z : Course) (base n : Nat) (val : Nat → Nat → W32) :
    z.writeRows base (n + 1) val = (z.writeRows base n val).writeReg true (z.writeRows base n val).live false (base + n) ⟨.g, fun l => zx64 (val n l)⟩ := by
  simp only [Course.writeRows, List.range_succ, List.foldl_append, List.foldl_cons, List.foldl_nil]

/-- What writing names of a course whole does to it. -/
theorem writeRows_writes {base n : Nat} (h : base + n ≤ 64) (val : Nat → Nat → W32) :
    WritesNames (fun z => z.writeRows base n val) (nameRun base n) fun k l => val (k - base) l := by
  induction n with
  | zero => exact writesNames_id _
  | succ n ih =>
    have one : WritesNames (fun z => z.writeReg true z.live false (base + n) ⟨.g, fun l => zx64 (val n l)⟩) [base + n] fun _ l => val n l := by
      intro z hz lt
      obtain ⟨w, v⟩ := write32 hz lt (full := true) (n := base + n) (by omega) (sh := .g) (v := fun l => zx64 (val n l)) (fun _ hl => hl)
        (fun _ _ hl => hl) (.inl rfl)
      refine ⟨w, fun k hk l hl => ?_⟩
      rw [List.mem_singleton.mp hk, v l hl]
      simp [lo32, zx64]
    have all := (ih (by omega)).trans one
    simp only [writeRows_succ, nameRun_succ]
    refine all.congr fun k l => ?_
    by_cases e : k = base + n
    · simp [e]
    · simp [e]

/-! ## A matrix unit that reads no block -/

/-- What a matrix unit leaves that reads operands alone. -/
theorem WholeCourse.matrix_plain {s s1 u : State} {t t1 : Team} {c : Nat} {x1 : Course} {regs : List Nat} {srcs : List Operand}
    {f : State → Team → Nat → State × MatEnd} {write pre : Course → Course} {b : List BadPlace} {val : Nat → Nat → W32} (h : WholeCourse s t c)
    (hr : Readable s t srcs) (hs : ∀ o ∈ srcs, o.2.pairOk o.1 = true) (hf : f s t c = (u, .done write))
    (k : MatWork s s1 u t1 c (t.course c).live x1 pre b fun _ th => th) (hw : WritesNames write regs val) :
    ∃ s', s.matrix [] srcs f = .next s' ∧ Served s s1 s' t1 c (srcs ++ blockOf [] false) regs val []
      (fun l => freeRead s t false false .sup srcs c l || [].any fun n => regFree (t.course c) n l) [] fun _ th => th :=
  h.matrix_served hr hs (fun _ ho => absurd ho List.not_mem_nil) rfl hf k (fun l _ th => by simp) hw fun _ _ => List.not_mem_nil

/-- The own work of a unit that leaves the teams alone. -/
theorem WholeCourse.work_idle {s s1 : State} {t t1 : Team} {c : Nat} (h : WholeCourse s t c) (hi : s1.issue = s.issue) (hc : s1.cycle = s.cycle)
    (ht : s1.teams = s.teams) (h1 : FMap.get s1.teams s.issue.team = some t1) :
    MatWork s s1 s1 t1 c (t.course c).live (t.course c) (fun y => y) (t.course c).bad fun _ th => th := by
  obtain rfl : t1 = t := by rw [ht, h.one.lifted.team] at h1; exact (Option.some.inj h1).symm
  exact ⟨hi, hc, h1, one_course h.one, h.sound, rfl, hi, fun _ => rfl, .refl _⟩

end Sys2Proof.Machine
end

section
/-!
SUPPORT. The tile instructions (R212, R222 to R224).
-/

namespace Sys2Proof.Machine

theorem pairOk_b32 (a : Src) : ∀ o ∈ [((.b32, a) : Operand)], o.2.pairOk o.1 = true := by
  intro o ho
  rw [List.mem_singleton.mp ho]
  cases a <;> rfl

theorem heldTile_some {s : State} {t : Team} {c k : Nat} {x : Tile} (h : s.heldTile t c k = some x) :
    s.tileBusy (clusterOfCore t.core) ⟨s.issue.team, c⟩ (some k) = false ∧ (t.course c).tiles[k]? = some x := by
  unfold State.heldTile at h
  split at h
  · exact nomatch h
  · next free => exact ⟨Bool.eq_false_iff.mpr free, h⟩

/-- An instruction on a tile that is held does its work on it. -/
theorem tileOp_matrix {s : State} {t : Team} {c k : Nat} {x : Tile} (lasts : List Nat) (srcs : List Operand)
    (f : State → Team → Nat → Tile → State × MatEnd) (h : s.heldTile t c k = some x) :
    ∃ F, s.tileOp lasts srcs k f = s.matrix lasts srcs F ∧ F s t c = f s t c x := by
  obtain ⟨free, held⟩ := heldTile_some h
  exact ⟨_, rfl, by simp only [held, free, Bool.false_eq_true, if_false]⟩

/-! ## Zero -/

/-- A zero of a held tile is work for the engine. -/
theorem tileZero_serves (k : Fin 16) : MatUnit (.tileZero k) [] [] false [] fun s t c =>
    (s.heldTile t c k.val).map fun _ => (s.addWork (clusterOfCore t.core) ⟨s.issue.team, c⟩ (.zero k.val), fun _ _ => 0) := by
  intro _ s t c s1 v t1 h hr hwork ht1
  obtain ⟨x, held, e⟩ := Option.map_eq_some_iff.mp hwork
  obtain ⟨rfl, rfl⟩ := Prod.mk.inj e
  obtain ⟨F, op, hF⟩ := tileOp_matrix [] [] (fun s tm c _ => (s.addWork (clusterOfCore tm.core) ⟨s.issue.team, c⟩ (.zero k.val), .done id)) held
  obtain ⟨s', run, served⟩ := h.matrix_plain hr (fun _ ho => absurd ho List.not_mem_nil) hF (h.work_idle rfl rfl rfl ht1)
    (writesNames_id fun _ _ => 0)
  exact ⟨s', op.trans run, served⟩

/-! ## Drains -/

/-- A drain of a held tile whose checksums hold writes. -/
theorem drain_matrix {s : State} {t : Team} {c : Nat} {k : Fin 16} {x : Tile} (srcs : List Operand)
    (write : State → Team → Nat → Tile → Course → Course) (h : s.heldTile t c k.val = some x) (sound : x.check = none) :
    ∃ F, s.drain k srcs write = s.matrix [] srcs F ∧ F s t c = (s, .done (write s t c x)) := by
  obtain ⟨free, held⟩ := heldTile_some h
  unfold State.drain State.tileOp
  exact ⟨_, rfl, by simp only [held, free, sound, Bool.false_eq_true, if_false]⟩

/-- A tile that is held and whose checksums hold is drained by writing names. -/
theorem drain_serves {i : Instr} {k : Fin 16} {srcs : List Operand} {write : State → Team → Nat → Tile → Course → Course} {regs : List Nat}
    {val : State → Team → Nat → Tile → Nat → Nat → W32} (he : ∀ s, exec i s = s.drain k srcs write) (hs : ∀ o ∈ srcs, o.2.pairOk o.1 = true)
    (hw : WellFormed i = true → ∀ s t c x, WritesNames (write s t c x) regs (val s t c x)) :
    MatUnit i srcs [] false regs fun s t c => match s.heldTile t c k.val with
      | some x => if x.check = none then some (s, val s t c x) else none
      | none => none := by
  intro wf s t c s1 v t1 h hr hwork ht1
  cases held : s.heldTile t c k.val with
  | none => simp [held] at hwork
  | some x =>
    simp only [held, Option.ite_none_right_eq_some, Option.some.injEq, Prod.mk.injEq] at hwork
    obtain ⟨sound, rfl, rfl⟩ := hwork
    obtain ⟨F, op, hF⟩ := drain_matrix srcs write held sound
    obtain ⟨s', run, served⟩ := h.matrix_plain hr hs hF (h.work_idle rfl rfl rfl ht1) (hw wf s t c x)
    exact ⟨s', (he s).trans (op.trans run), served⟩

theorem names_fit {base : Fin 64} {col : Src} {even : Bool} (h : wfTile16 even base col = true) : base.val + 16 ≤ 64 := by
  simp only [wfTile16, Bool.and_eq_true, decide_eq_true_eq] at h
  exact h.1.1

/-- A drain of columns writes sixteen names. -/
theorem drainCols_serves {i : Instr} (kind : FillKind) (k : Fin 16) (b : Fin 64) (a : Src) (he : ∀ s, exec i s = s.drainCols kind k b a)
    (fit : WellFormed i = true → b.val + 16 ≤ 64) :
    MatUnit i [(.b32, a)] [] false (nameRun b.val 16) fun s t c => match s.heldTile t c k.val with
      | some x => if x.check = none then
          some (s, fun n l => nth (x.drainRow kind (fillColumn kind (s.lowValue t c a).toNat) l) (n - b.val) 0) else none
      | none => none :=
  drain_serves he (pairOk_b32 a) fun wf s t c x =>
    writeRows_writes (fit wf) fun m l => nth (x.drainRow kind (fillColumn kind (s.lowValue t c a).toNat) l) m 0

/-- A requantising drain writes the names of its format and the name of the scale. -/
theorem qdrain_serves {i : Instr} (kind : QKind) (k : Fin 16) (b sc : Fin 64) (he : ∀ s, exec i s = s.qdrain kind k b sc)
    (fit : WellFormed i = true → wfQdrain kind b sc = true) :
    MatUnit i [] [] false (nameRun b.val kind.elemNames ++ [sc.val]) fun s t c => match s.heldTile t c k.val with
      | some x => if x.check = none then
          some (s, fun n l => if n = sc.val then (x.quantRow kind l).2 else nth (x.quantRow kind l).1 (n - b.val) 0) else none
      | none => none := by
  refine drain_serves he (fun _ ho => absurd ho List.not_mem_nil) fun wf s t c x => ?_
  have bounds := fit wf
  simp only [wfQdrain, Bool.and_eq_true, decide_eq_true_eq] at bounds
  have scale := writeRows_writes (base := sc.val) (n := 1) (by omega) fun _ l => (x.quantRow kind l).2
  have elems := writeRows_writes bounds.1 fun m l => nth (x.quantRow kind l).1 m 0
  exact (elems.trans scale).congr fun n l => by simp [nameRun]

/-! ## Fill -/

theorem noteNames_updated (y : Course) (names : List Nat) :
    Updated y (y.noteNames names) fun l th => if y.live.contains l && names.any (fun n => regFree y n l) then th.setReadFree else th := by
  refine (onThreads_updated y (y.live.filter fun l => names.any fun n => regFree y n l) fun _ th => th.setReadFree).congr fun l th => ?_
  simp only [List.contains_eq_mem, List.mem_filter, Bool.decide_and, Bool.decide_eq_true]

/-- The own work of a unit that reads names beside its operands, and leaves the teams alone. -/
theorem WholeCourse.work_reads {s s1 : State} {t t1 : Team} {c : Nat} (h : WholeCourse s t c) (names : List Nat) (hi : s1.issue = s.issue)
    (hc : s1.cycle = s.cycle) (ht : s1.teams = s.teams) (h1 : FMap.get s1.teams s.issue.team = some t1) :
    MatWork s s1 (s1.onCourse s.issue.team c fun y => y.noteNames names) t1 c (t.course c).live (t.course c) (fun y => y.noteNames names) (t.course c).bad
      fun l th => if (t.course c).live.contains l && names.any (fun n => regFree (t.course c) n l) then th.setReadFree else th :=
  { h.work_idle hi hc ht h1 with
    issue' := hi
    onCourse := fun g => onCourse_onCourse s1 _ c _ g
    threads := noteNames_updated _ names }

/-- READ_FREE from operands and from names read beside them. -/
theorem readFree_either {p q : Bool} (th : Thread) :
    (if p then (if q then th.setReadFree else th).setReadFree else if q then th.setReadFree else th) = if p || q then th.setReadFree else th := by
  cases p <;> cases q <;> simp [setReadFree_twice]

/-- A fill of a held tile is work for the engine, with its names as they stand. -/
theorem tileFill_serves (w : FillKind) (k : Fin 16) (b : Fin 64) (last : Bool) (a : Src) :
    MatUnit (.tileFill w k b last a) [(.b32, a)] (nameRun b.val 16) last [] fun s t c =>
      (s.heldTile t c k.val).map fun _ => (s.addWork (clusterOfCore t.core) ⟨s.issue.team, c⟩
        (.fill w k.val (fillColumn w (s.lowValue t c a).toNat) ((t.course c).laneRows (nameRun b.val 16))), fun _ _ => 0) := by
  intro wf s t c s1 v t1 h hr hwork ht1
  have fit : b.val + 16 ≤ 64 := names_fit wf
  obtain ⟨x, held, e⟩ := Option.map_eq_some_iff.mp hwork
  obtain ⟨rfl, rfl⟩ := Prod.mk.inj e
  obtain ⟨F, op, hF⟩ := tileOp_matrix (if last then nameRun b.val 16 else []) [(.b32, a)] (fun s tm c _ =>
    ((s.addWork (clusterOfCore tm.core) ⟨s.issue.team, c⟩
      (.fill w k.val (fillColumn w (s.lowValue tm c a).toNat) ((tm.course c).laneRows (nameRun b.val 16)))).onCourse s.issue.team c
        fun y => y.noteNames (nameRun b.val 16), .done id)) held
  obtain ⟨s', run, served⟩ := h.matrix_served hr (pairOk_b32 a) blockOf_pairOk
    (lastOf_blockOf (nameRun_lt fit) last) hF (h.work_reads (nameRun b.val 16) rfl rfl rfl ht1)
    (fun l hl th => by rw [List.contains_iff_mem.mpr hl, Bool.true_and]; exact readFree_either th)
    (writesNames_id fun _ _ => 0) fun _ hn => absurd hn List.not_mem_nil
  exact ⟨s', op.trans run, served⟩

/-! ## Allocation and handing over -/

/-- The own work of a unit that changes its course by `f`, which its threads do not notice, and beside that `v` but no team; `pre` on the course
changes poison marks. -/
theorem WholeCourse.work_course {s v : State} {t t1 : Team} {c : Nat} {f pre : Course → Course} {b : List BadPlace} (h : WholeCourse s t c)
    (hi : v.issue = s.issue) (hc : v.cycle = s.cycle) (ht : v.teams = s.teams)
    (h1 : FMap.get (v.onCourse s.issue.team c f).teams s.issue.team = some t1) (sound : (f (t.course c)).sound = (t.course c).sound)
    (live : (f (t.course c)).live = (t.course c).live) (hp : pre (f (t.course c)) = { f (t.course c) with bad := b }) :
    MatWork s (v.onCourse s.issue.team c f) (v.onCourse s.issue.team c fun y => pre (f y)) t1 c (t.course c).live (f (t.course c)) pre b fun _ th => th where
  issue := hi
  cycle := hc
  team := h1
  course := by
    rw [onCourse_get, ht, h.one.lifted.team] at h1
    rw [← Option.some.inj h1]
    show FMap.get (FMap.modify t.courses c f) c = _
    rw [FMap.get_modify_same, one_course h.one]
    rfl
  sound := sound.trans h.sound
  live := live
  issue' := hi
  onCourse g := by rw [onCourse_onCourse, onCourse_onCourse]
  threads := hp ▸ .refl _

/-- tile.alloc takes zeroed tiles from the pool. -/
theorem tileAlloc_serves (a : Src) : MatUnit (.tileAlloc a) [(.b32, a)] [] false [] fun s t c =>
    let n := (s.lowValue t c a).toNat
    let e := clusterOfCore t.core
    let k := s.cluster e
    match s.sliceOf t with
    | some y =>
      if n = 0 ∧ (t.course c).tileWait = 0 then some (s, fun _ _ => 0)
      else if n ≤ min 16 y.tilesMax ∧ (t.course c).tiles = [] ∧ k.pool = [] ∧ n ≤ k.freeTiles ∧ 0 < n then
        some ((s.setCluster e { k with freeTiles := k.freeTiles - n }).onCourse s.issue.team c fun x =>
          { x with tiles := List.replicate n zeroTile, tileWait := 0 }, fun _ _ => 0)
      else none
    | none => none := by
  intro _ s t c s1 v t1 h hr hwork ht1
  show ∃ s', execTileAlloc a s = .next s' ∧ _
  unfold execTileAlloc
  dsimp only at hwork
  cases slice : s.sliceOf t with
  | none => simp [slice] at hwork
  | some y =>
    rw [slice] at hwork
    dsimp only at hwork
    split at hwork
    · next nothing =>
      obtain ⟨rfl, rfl⟩ := Prod.mk.inj (Option.some.inj hwork)
      refine h.matrix_plain hr (pairOk_b32 a) ?_ (h.work_idle rfl rfl rfl ht1) (writesNames_id _)
      simp [nothing.1, nothing.2]
    · split at hwork
      · next takes =>
        obtain ⟨rfl, rfl⟩ := Prod.mk.inj (Option.some.inj hwork)
        obtain ⟨max, empty, pool, enough, pos⟩ := takes
        refine h.matrix_plain hr (pairOk_b32 a) ?_ (h.work_course
          (v := s.setCluster (clusterOfCore t.core) { s.cluster (clusterOfCore t.core) with
            freeTiles := (s.cluster (clusterOfCore t.core)).freeTiles - (s.lowValue t c a).toNat })
          (pre := fun y => y) (b := (t.course c).bad) rfl rfl rfl ht1 rfl rfl rfl) (writesNames_id _)
        have pos' : (s.lowValue t c a).toNat ≠ 0 := by omega
        have fits : ¬ min 16 y.tilesMax < (s.lowValue t c a).toNat := by omega
        simp [slice, empty, pool, enough, pos', fits]
      · exact nomatch hwork

theorem freeTiles_onCourse (s : State) (tk c : Nat) (f : Course → Course) (e n : Nat) :
    (s.onCourse tk c f).freeTiles e n = (s.freeTiles e n).onCourse tk c f := by
  have k : (s.onCourse tk c f).cluster e = s.cluster e := rfl
  unfold State.freeTiles
  rw [k]
  split
  · rfl
  · dsimp only
    split <;> rfl

theorem freeTiles_keeps (s : State) (e n : Nat) :
    (s.freeTiles e n).issue = s.issue ∧ (s.freeTiles e n).cycle = s.cycle ∧ (s.freeTiles e n).teams = s.teams := by
  unfold State.freeTiles
  split
  · exact ⟨rfl, rfl, rfl⟩
  · dsimp only
    split <;> exact ⟨rfl, rfl, rfl⟩

/-- tile.free gives the course's tiles back; their poison marks go with them. -/
theorem tileFree_serves : MatUnit .tileFree [] [] false [] fun s t c =>
    let e := clusterOfCore t.core
    if s.tileBusy e ⟨s.issue.team, c⟩ none then none
    else some ((s.onCourse s.issue.team c fun x => { x with tiles := [] }).freeTiles e (t.course c).tiles.length, fun _ _ => 0) := by
  intro _ s t c s1 v t1 h hr hwork ht1
  show ∃ s', execTileFree s = .next s' ∧ _
  unfold execTileFree
  dsimp only at hwork
  split at hwork
  · exact nomatch hwork
  · next idle =>
    obtain ⟨rfl, rfl⟩ := Prod.mk.inj (Option.some.inj hwork)
    obtain ⟨ki, kc, kt⟩ := freeTiles_keeps s (clusterOfCore t.core) (t.course c).tiles.length
    rw [freeTiles_onCourse] at ht1 ⊢
    refine h.matrix_plain hr (fun _ ho => absurd ho List.not_mem_nil) ?_
      (h.work_course (pre := fun y => { y with bad := y.heal ((List.range 16).map .tile) }) (b := (t.course c).heal ((List.range 16).map .tile)) ki kc kt ht1
        rfl rfl rfl) (writesNames_id _)
    rw [if_neg idle]
    exact congrArg (fun v => (v, MatEnd.done)) (freeTiles_onCourse s _ c _ _ _)

/-- Settles O40: every tile instruction ends as a matrix unit ends for its whole course, and its own work is that of the engine's queue, the pool
or a write of names; a drain's later write, of the scale, wins. -/
theorem tiles : Obligations.Tiles := by
  unfold Obligations.Tiles
  refine ⟨⟨tileAlloc_serves, tileFree_serves, tileZero_serves, tileFill_serves⟩, ?_, ?_, ?_, ?_, ?_, ?_, ?_⟩
  · exact fun k b a => drainCols_serves .f64 k b a (fun _ => rfl) names_fit
  · exact fun k b a => drainCols_serves .f32 k b a (fun _ => rfl) names_fit
  · exact fun k b a => drainCols_serves .bf16 k b a (fun _ => rfl) names_fit
  · exact fun k b sc => qdrain_serves .mxf8 k b sc (fun _ => rfl) id
  · exact fun k b sc => qdrain_serves .mxf6 k b sc (fun _ => rfl) id
  · exact fun k b sc => qdrain_serves .mxf4 k b sc (fun _ => rfl) id
  · exact fun k b sc => qdrain_serves .mxi8 k b sc (fun _ => rfl) id

end Sys2Proof.Machine
end

section
/-!
SUPPORT. Matrix passes and the tile pool (R212, R218, R221, R225, R331).
-/

namespace Sys2Proof.Machine

/-! ## Issue -/

theorem names_lt_of_wfMma {f : MFmt} {a b : Fin 64} {sparse : Bool} (h : wfMma sparse f a b = true) (la lb : Bool) :
    ∀ n ∈ (if la then nameRun a.val f.names else []) ++ (if lb then nameRun b.val f.names else []), n < 64 := by
  simp only [wfMma, Bool.and_eq_true, decide_eq_true_eq] at h
  obtain ⟨⟨⟨-, ha⟩, hb⟩, -⟩ := h
  intro n hn
  rcases List.mem_append.mp hn with hn | hn
  · cases la
    · exact absurd hn List.not_mem_nil
    · exact nameRun_lt ha n hn
  · cases lb
    · exact absurd hn List.not_mem_nil
    · exact nameRun_lt (by omega) n hn

/-- In full service, and in reduced service at its own format, mma is a matrix unit. -/
theorem mma_matrix {s : State} {t : Team} {c : Nat} {k : Fin 16} {f : MFmt} (a b : Fin 64) (la lb sparse : Bool)
    (service : s.boot = .reduced → f = .bf16) (held : k.val < (t.course c).tiles.length) :
    let q := regRow (t.course c) (b.val + f.names) ((t.course c).live.headD 0)
    let e := clusterOfCore t.core
    let r : Request := { who := ⟨s.issue.team, c⟩, f := f, tile := k.val, aBase := a.val, bBase := b.val, aLast := la, bLast := lb, sparse := sparse,
                         unitAddr := s.issue.addr, unitLen := s.issue.len }
    ∃ F, s.mma k f a b la lb sparse =
        s.matrix ((if la then nameRun a.val f.names else []) ++ (if lb then nameRun b.val f.names else [])) [] F ∧
      (sparse = true ∧ q.toNat % 256 = 0 → F s t c = (s.onCourse s.issue.team c fun y => y.noteNames [b.val + f.names], .done id)) ∧
      (¬ (sparse = true ∧ q.toNat % 256 = 0) → F s t c =
        ((s.setCluster e { s.cluster e with requests := (s.cluster e).requests ++ [r] }).due (.passAcceptance e), .wait .pass)) := by
  have open' : (s.boot == .reduced && f != .bf16) = false := by
    by_cases h : s.boot = .reduced
    · simp [service h]
    · simp [h]
  have held' : ¬ (t.course c).tiles.length ≤ k.val := by omega
  unfold State.mma
  simp only [open', Bool.false_eq_true, if_false]
  refine ⟨_, rfl, fun h => ?_, fun h => ?_⟩
  · simp only [held', h.1, h.2, if_false, Bool.true_and, decide_true, if_true]
  · have h' : ¬ (sparse && decide ((regRow (t.course c) (b.val + f.names) ((t.course c).live.headD 0)).toNat % 256 = 0)) = true := by simpa using h
    simp only [held', h', if_false]
    rfl

theorem readable_nil (s : State) (t : Team) : Readable s t [] := fun _ _ _ ho => absurd ho List.not_mem_nil

/-- mma.sp with nothing present or flagged ends at issue. -/
theorem mmaSp_completes {s : State} {t : Team} {c : Nat} {k : Fin 16} {f : MFmt} {a b : Fin 64} {la lb : Bool} (h : WholeCourse s t c)
    (service : s.boot = .reduced → f = .bf16) (held : k.val < (t.course c).tiles.length)
    (absent : (regRow (t.course c) (b.val + f.names) ((t.course c).live.headD 0)).toNat % 256 = 0) (wf : wfMma true f a b = true) :
    ∃ s', s.mma k f a b la lb true = .next s' ∧
      Served s s s' t c (blockOf ((if la then nameRun a.val f.names else []) ++ (if lb then nameRun b.val f.names else [])) true) [] (fun _ _ => 0) []
        (fun l => regFree (t.course c) (b.val + f.names) l) [] fun _ th => th := by
  obtain ⟨F, isMatrix, ends, -⟩ := mma_matrix a b la lb true service held
  rw [isMatrix]
  refine h.matrix_served (srcs := []) (readable_nil s t) (fun _ ho => absurd ho List.not_mem_nil) blockOf_pairOk
    ((lastOf_blockOf (names_lt_of_wfMma wf la lb) true).trans (if_pos rfl)) (ends ⟨rfl, absent⟩)
    (h.work_reads [b.val + f.names] rfl rfl rfl h.curTeam) (fun l hl th => ?_) (writesNames_id _) fun _ hn => absurd hn List.not_mem_nil
  simp [freeRead, hl]

/-- Any other pass files its request, and the course waits. -/
theorem mma_requests {s : State} {t : Team} {c : Nat} {k : Fin 16} {f : MFmt} {a b : Fin 64} {la lb sparse : Bool} (h : WholeCourse s t c)
    (service : s.boot = .reduced → f = .bf16) (held : k.val < (t.course c).tiles.length)
    (present : ¬ (sparse = true ∧ (regRow (t.course c) (b.val + f.names) ((t.course c).live.headD 0)).toNat % 256 = 0)) :
    let e := clusterOfCore t.core
    let r : Request := { who := ⟨s.issue.team, c⟩, f := f, tile := k.val, aBase := a.val, bBase := b.val, aLast := la, bLast := lb, sparse := sparse,
                         unitAddr := s.issue.addr, unitLen := s.issue.len }
    s.mma k f a b la lb sparse =
      .next (((s.setCluster e { s.cluster e with requests := (s.cluster e).requests ++ [r] }).due (.passAcceptance e)).await s.issue.lift .pass) := by
  obtain ⟨F, isMatrix, -, waits⟩ := mma_matrix a b la lb sparse service held
  exact isMatrix.trans (h.matrix_wait (readable_nil s t) (waits present))

/-! ## Acceptance -/

theorem freeName_threads (c : Course) (n : Nat) : SameThreads c (c.freeName n) :=
  SameThreads.trans (b := { c with names := setNth (unlink c.names n) n .free, dead := setNth c.dead n 0, bad := c.heal [.name n] })
    ⟨rfl, fun _ th e => ⟨th, e, .refl th, fun _ h => h⟩, fun _ e => e⟩ (clearLatches_same _ _ _ _)

theorem markDead_threads (c : Course) (n : Nat) (m : W32) : SameThreads c (c.markDead n m) :=
  ⟨rfl, fun _ th e => ⟨th, e, .refl th, fun _ h => h⟩, fun _ e => e⟩

theorem reap_threads (c : Course) (n : Nat) : SameThreads c (c.reap n) := by
  unfold Course.reap
  split
  · exact freeName_threads c n
  · exact .refl c

theorem sameThreads_foldl {f : Course → Nat → Course} (h : ∀ c n, SameThreads c (f c n)) (ns : List Nat) (c : Course) : SameThreads c (ns.foldl f c) := by
  induction ns generalizing c with
  | nil => exact .refl c
  | cons n ns ih => exact (h c n).trans (ih _)

/-- Last reads leave a thread alone, but for its saved latches. -/
theorem markNames_threads (c : Course) (ns : List Nat) : SameThreads c (c.markNames ns) :=
  (sameThreads_foldl (fun c n => markDead_threads c n _) ns c).trans (sameThreads_foldl reap_threads ns _)

/-- What a pass that is accepted does to the threads of its course. -/
theorem accept_threads {x : Course} {used lasts : List Nat} {pc : W64} {now l : Nat} {th : Thread} (h : FMap.get x.threads l = some th) :
    ∃ th', FMap.get (((x.noteNames used).onThreads x.live fun _ t => t.goto pc now).markNames lasts).threads l = some th' ∧ th'.wait = .none ∧
      th'.pc = pc := by
  have live : x.live.contains l = true := List.contains_iff_mem.mpr (live_of_get h)
  have noted := (noteNames_updated x used).get l
  rw [h] at noted
  have gone := (onThreads_updated (x.noteNames used) x.live fun _ t => t.goto pc now).get l
  rw [noted] at gone
  obtain ⟨th', e, ⟨sv, rfl⟩, -⟩ := (markNames_threads _ lasts).get l _ gone
  exact ⟨_, e, by simp only [live, if_true]; rfl, by simp only [live, if_true]; rfl⟩

theorem pickRequest_single {s : State} {e : Nat} {q : Request} (only : (s.cluster e).requests = [q]) (ok : s.acceptable q = true) :
    s.pickRequest e = some (0, q) := by
  unfold State.pickRequest
  have table : ((s.cluster e).requests.take 16).zipIdx.filter (fun p => s.acceptable p.1) = [(q, 0)] := by simp [only, ok]
  rw [table]
  by_cases h : 64 ≤ q.passed
  · simp [h]
  · simp [h]

theorem addWork_cluster (s : State) (e : Nat) (r : CourseRef) (op : EngineOp) :
    (s.addWork e r op).cluster e = { s.cluster e with work := (s.cluster e).work ++ [(r, op)] } :=
  State.cluster_setCluster s e _

/-- The name of a pass's metadata word, as it stands, where the pass is sparse. -/
def Request.presence (q : Request) (x : Course) : Option W32 :=
  if q.sparse then some (regRow x (q.bBase + q.f.names) (x.live.headD 0)) else none

/-- The work of a request that is accepted: its names as they stand. -/
def Request.work (q : Request) (x : Course) : EngineOp :=
  .pass q.f q.tile (x.laneRows (nameRun q.aBase q.f.names)) (x.laneRows (nameRun q.bBase q.f.names)) (q.presence x)

/-- What becomes of the course of a request that is accepted. -/
def Request.accepted (q : Request) (used lasts : List Nat) (now : Nat) (y : Course) : Course :=
  ((y.noteNames used).onThreads y.live fun _ t => t.goto (q.unitAddr + BitVec.ofNat 64 q.unitLen) now).markNames lasts

theorem acceptPass_eq {s : State} {e : Nat} {q : Request} {t : Team} {x : Course} (ht : FMap.get s.teams q.who.team = some t)
    (hx : FMap.get t.courses q.who.course = some x) :
    ∃ used lasts i, s.acceptPass e q =
      { (s.onCourse q.who.team q.who.course (q.accepted used lasts s.cycle)).addWork e q.who (q.work x) with issue := i } := by
  have found : ((FMap.get s.teams q.who.team).bind fun t => FMap.get t.courses q.who.course) = some x := by rw [ht]; exact hx
  unfold State.acceptPass
  rw [found]
  exact ⟨_, _, _, rfl⟩

/-- What the engine holds after it has accepted a pass, and where the pass's threads are. -/
theorem acceptPass_spec {s : State} {e : Nat} {q : Request} {t : Team} {x : Course} (ht : FMap.get s.teams q.who.team = some t)
    (hx : FMap.get t.courses q.who.course = some x) :
    (s.acceptPass e q).cluster e = { s.cluster e with work := (s.cluster e).work ++ [(q.who, q.work x)] } ∧
      Instr.passApplied e ∈ (s.acceptPass e q).agenda ∧
      ∀ l th, FMap.get x.threads l = some th → ∃ th', (s.acceptPass e q).threadAt q.who.team q.who.course l = some th' ∧ th'.wait = .none ∧
        th'.pc = q.unitAddr + BitVec.ofNat 64 q.unitLen := by
  obtain ⟨used, lasts, i, eq⟩ := acceptPass_eq (e := e) ht hx
  rw [eq]
  refine ⟨addWork_cluster _ e q.who _, List.mem_append_right _ List.mem_cons_self, fun l th hl => ?_⟩
  obtain ⟨th', e', ready, pc⟩ := accept_threads (used := used) (lasts := lasts) (now := s.cycle) (pc := q.unitAddr + BitVec.ofNat 64 q.unitLen) hl
  refine ⟨th', ?_, ready, pc⟩
  have seen := State.threadAt_onCourse s q.who.team q.who.course (q.accepted used lasts s.cycle) q.who.team q.who.course l
  rw [if_pos ⟨rfl, rfl⟩, ht, Option.bind_some, hx] at seen
  exact seen.trans e'

/-- The engine accepts the one request there is. -/
theorem passAcceptance_single {s : State} {e : Nat} {q : Request} (only : (s.cluster e).requests = [q]) (ok : s.acceptable q = true) :
    execPassAcceptance e s = .next ((s.setCluster e { s.cluster e with requests := [] }).acceptPass e q) := by
  unfold execPassAcceptance
  rw [pickRequest_single only ok]
  dsimp only
  rw [only]
  rfl

/-! ## Application -/

/-- Work is applied to a tile that the course holds. -/
theorem applyWork_pass {x : Course} {k : Nat} {tl : Tile} (h : x.tiles[k]? = some tl) (f : MFmt) (a b : List (List W32)) (q : Option W32) :
    x.applyWork (.pass f k a b q) = { x with tiles := setNth x.tiles k (tl.pass f a b q) } := by
  simp only [Course.applyWork, h]

/-- A course after it has changed. -/
theorem course_onCourse {s : State} {tk c : Nat} {t : Team} {x : Course} (ht : FMap.get s.teams tk = some t) (hx : FMap.get t.courses c = some x)
    (f : Course → Course) : ∃ t', FMap.get (s.onCourse tk c f).teams tk = some t' ∧ FMap.get t'.courses c = some (f x) :=
  ⟨_, by rw [onCourse_get, ht]; rfl, by show FMap.get (FMap.modify t.courses c f) c = _; rw [FMap.get_modify_same, hx]; rfl⟩

theorem passApplied_first {s : State} {e : Nat} {r : CourseRef} {op : EngineOp} {rest : List (CourseRef × EngineOp)}
    (first : (s.cluster e).work = (r, op) :: rest) :
    execPassApplied e s = .next ((s.setCluster e { s.cluster e with work := rest }).onCourse r.team r.course fun c => c.applyWork op) := by
  unfold execPassApplied
  dsimp only
  rw [first]

/-! ## The tile pool -/

/-- A course that is given its tiles. -/
def Course.granted (n now : Nat) (y : Course) : Course :=
  { y with tiles := List.replicate n zeroTile
           threads := y.threads.map fun p => (p.1, if atTilePool p.2 then { p.2 with wait := .none, readySince := now } else p.2) }

theorem granted_thread {y : Course} {l : Nat} {th : Thread} (n now : Nat) (h : FMap.get y.threads l = some th) (waits : th.wait = .tilePool) :
    FMap.get (y.granted n now).threads l = some { th with wait := .none, readySince := now } := by
  have here : atTilePool th = true := by unfold atTilePool; rw [waits]
  have all := FMap.get_map y.threads l fun _ th => if atTilePool th then { th with wait := .none, readySince := now } else th
  rw [h] at all
  exact all.trans (congrArg some (if_pos here))

section Pool
variable {s : State} {e : Nat} {r : CourseRef} {rest : List CourseRef} {t : Team} {x : Course} (first : (s.cluster e).pool = r :: rest)
  (ht : FMap.get s.teams r.team = some t) (hx : FMap.get t.courses r.course = some x) (fresh : x.awaitTiles = false)
  (enough : x.tileWait ≤ (s.cluster e).freeTiles)
include first ht hx fresh enough

/-- The first course of the pool is given its tiles when there are enough, and the next one's turn is due. -/
theorem tilePoolGrant_first : ∃ f, f x = x.granted x.tileWait s.cycle ∧
    let v := (s.setCluster e { s.cluster e with pool := rest, freeTiles := (s.cluster e).freeTiles - x.tileWait }).onCourse r.team r.course f
    execTilePoolGrant e s = .next (if rest.isEmpty then v else v.due (.tilePoolGrant e)) := by
  have found : ((FMap.get s.teams r.team).bind fun t => FMap.get t.courses r.course) = some x := by rw [ht]; exact hx
  have fits : ¬ (s.cluster e).freeTiles < x.tileWait := by omega
  unfold execTilePoolGrant
  simp only [first, found, fresh, fits, Bool.false_eq_true, if_false]
  refine ⟨_, ?_, rfl⟩
  have same : (fun p : Nat × Thread => if atTilePool p.2 = true then (p.1, { p.2 with wait := .none, readySince := s.cycle }) else p) =
      fun p => (p.1, if atTilePool p.2 then { p.2 with wait := .none, readySince := s.cycle } else p.2) := by
    funext p
    split <;> rfl
  simp only [fresh, Bool.false_eq_true, if_false, same, Course.granted]

/-- What a grant leaves in the cluster and the course. -/
theorem tilePoolGrant_spec : ∃ s' t', execTilePoolGrant e s = .next s' ∧
    s'.cluster e = { s.cluster e with pool := rest, freeTiles := (s.cluster e).freeTiles - x.tileWait } ∧
    FMap.get s'.teams r.team = some t' ∧ FMap.get t'.courses r.course = some (x.granted x.tileWait s.cycle) := by
  obtain ⟨f, hf, run⟩ := tilePoolGrant_first first ht hx fresh enough
  obtain ⟨t', ht', hx'⟩ := course_onCourse ht hx f
  refine ⟨_, t', run, ?_, ?_, hf ▸ hx'⟩
  · split <;> exact State.cluster_setCluster s e _
  · split <;> exact ht'

end Pool

/-- Settles O41: at issue by what a matrix unit does for its whole course, at the three events by what each does to its cluster and its course. -/
theorem matrixPasses : Obligations.MatrixPasses := by
  unfold Obligations.MatrixPasses
  refine ⟨fun k f a b la lb sparse s t c h held service => ⟨fun sp absent wf => ?_, fun any => ?_⟩, fun e s q t x only ok ht hx => ?_,
    fun e s r f k a b q rest t x tl first ht hx held => ?_, fun e s r rest t x first ht hx fresh enough => ?_⟩
  · subst sp
    exact mmaSp_completes h service held absent wf
  · have req := mma_requests (a := a) (la := la) (lb := lb) (sparse := sparse) h service held fun both =>
      any.elim (fun e => nomatch e.symm.trans both.1) fun n => n both.2
    cases sparse
    · exact req
    · exact req
  · obtain ⟨cluster, due, threads⟩ := acceptPass_spec (s := s.setCluster e { s.cluster e with requests := [] }) (e := e) ht hx
    rw [State.cluster_setCluster] at cluster
    exact ⟨_, passAcceptance_single only ok, congrArg Cluster.requests cluster, congrArg Cluster.work cluster, due, threads⟩
  · obtain ⟨t', ht', hx'⟩ := course_onCourse (s := s.setCluster e { s.cluster e with work := rest }) ht hx fun c => c.applyWork (.pass f k a b q)
    rw [applyWork_pass held] at hx'
    exact ⟨_, t', passApplied_first first, congrArg Cluster.work (State.cluster_setCluster s e _), ht', hx'⟩
  · obtain ⟨s', t', run, cluster, ht', hx'⟩ := tilePoolGrant_spec first ht hx fresh enough
    exact ⟨s', t', _, run, congrArg Cluster.pool cluster, congrArg Cluster.freeTiles cluster, ht', hx', rfl,
      fun l th hl waits => ⟨_, granted_thread _ _ hl waits, rfl, rfl⟩⟩

end Sys2Proof.Machine
end

section
/-!
SUPPORT. What a lane reads from a name, shape by shape (R54). `laneExpander` settles O52.
-/

namespace Sys2Proof.Machine

theorem rowOf_uni {names : List NameVal} {n : Nat} {v : W32} (h : nth names n .free = .uni v) (l : Nat) : rowOf names n l = v := by
  simp only [rowOf, h]

theorem rowOf_gen {names : List NameVal} {n : Nat} {rows : List W32} (h : nth names n .free = .gen rows) (l : Nat) :
    rowOf names n l = nth rows l 0 := by
  simp only [rowOf, h]

theorem rowOf_aff {names : List NameVal} {n : Nat} {base stride : W32} (h : nth names n .free = .aff base stride false) (l : Nat) :
    rowOf names n l = base + BitVec.ofNat 32 l * stride := by
  simp only [rowOf, h, Bool.false_and, Bool.false_eq_true, if_false]

/-- Words add and multiply modulo 2^32, so base and stride may be taken as numbers. -/
theorem affine_eq_ofNat (base stride : W32) (l : Nat) :
    base + BitVec.ofNat 32 l * stride = BitVec.ofNat 32 (base.toNat + l * stride.toNat) := by
  rw [BitVec.ofNat_add, BitVec.ofNat_mul, BitVec.ofNat_toNat, BitVec.ofNat_toNat, BitVec.setWidth_eq, BitVec.setWidth_eq]

/-- Settles O52: each shape by its row; the G name of an A name's values holds the same words. -/
theorem laneExpander : Obligations.LaneExpander := by
  unfold Obligations.LaneExpander
  refine fun names n l hl => ⟨fun v h => rowOf_uni h l, fun base stride h => ?_, fun rows h => rowOf_gen h l⟩
  have row : rowOf names n l = BitVec.ofNat 32 (base.toNat + l * stride.toNat) := (rowOf_aff h l).trans (affine_eq_ofNat base stride l)
  refine ⟨by rw [row, BitVec.toNat_ofNat], fun rows values inside => ?_⟩
  have expanded : rowOf (setNth names n (.gen rows)) n l = nth rows l 0 := rowOf_gen (nth_set_same names n _ _ inside) l
  rw [row, expanded, values l hl]

end Sys2Proof.Machine
end

section
/-!
SUPPORT. The uniform-set memory instructions (R285, R286, R293): what they have in common is `uniMemUnit_of`; here, what an access gives the
course by its kind, and that each instruction makes the access its rule names. `uniformAccesses` settles O24.
-/

namespace Sys2Proof.Machine

/-- A unit whose value comes back leaves b3 without one exactly where that value is not for the latch (R278, log 17). -/
theorem uniMemUnit_of_comesBack {i : Instr} {sp : MemSpec} {drop3 : Bool} (run : ∀ s, exec i s = s.uniMem sp)
    (ok : WellFormed i = true → sp.addr.ok sp.ty = true) (kin : ∀ s w q, Kin s (sp.perf s w q).1) (back : sp.acc.kind.comesBack = true)
    (latch : sp.acc.kind.latches = !drop3) : UniMemUnit i sp drop3 := by
  refine uniMemUnit_of run (fun wf => pairOk_of_ok (ok wf)) kin fun _ full L vals z hz => ?_
  have given := gives_load (full := full) (one := full) (L := L) (vals := vals) back hz
  cases drop3 <;> simpa [back, latch] using given

/-- A store has no value to come back, and leaves b3 without one. -/
theorem uniMemUnit_of_store {i : Instr} {sp : MemSpec} {n : Nat} (run : ∀ s, exec i s = s.uniMem sp)
    (ok : WellFormed i = true → sp.addr.ok sp.ty = true) (kin : ∀ s w q, Kin s (sp.perf s w q).1) (store : sp.acc.kind = .store n) :
    UniMemUnit i sp true := by
  refine uniMemUnit_of run (fun wf => pairOk_of_ok (ok wf)) kin fun _ full L vals z hz => ?_
  rw [store]
  exact gives_store store hz

theorem kin_deviceSpec (acc : Access) (a : Src) (disp : Int) (gather : Bool) (s : State) (w : Who) (q : LaneAcc) :
    Kin s ((deviceSpec acc a disp gather).perf s w q).1 := kin_accessLane s w acc q

@[simp] theorem levelAccess_addr (l : XLevel) (acc : Access) (a : Src) (disp : Int) : (levelAccess l acc a disp).addr = a := by cases l <;> rfl
@[simp] theorem levelAccess_ty (l : XLevel) (acc : Access) (a : Src) (disp : Int) : (levelAccess l acc a disp).ty = .b32 := by cases l <;> rfl
@[simp] theorem levelAccess_acc (l : XLevel) (acc : Access) (a : Src) (disp : Int) : (levelAccess l acc a disp).acc = acc := by cases l <;> rfl

/-! ## A well-formed address operand (R96) -/

theorem ok_of_wfMem {size : Nat} {d : Fin 64} {a : Src} (h : wfMem size d a = true) : a.ok .addr = true := (Bool.and_eq_true_iff.mp h).2

theorem ok_of_wfX {w : XWidth} {d : Fin 64} {a : Src} (h : wfX w d a = true) : a.ok .b32 = true := (Bool.and_eq_true_iff.mp h).2

theorem ok_of_wfAtom {op : AtomOp} {pl : AtomPlace} {d : Fin 64} {a : Src} (h : wfAtom op pl d a = true) : a.ok pl.ty = true :=
  (Bool.and_eq_true_iff.mp h).2

theorem ok_of_wfScas {w : CasW} {pl : AtomPlace} {d : Fin 64} {a : Src} (h : wfScas w pl d a = true) : a.ok pl.ty = true :=
  (Bool.and_eq_true_iff.mp h).2

/-! ## Which values are for b3 (R278, log 17) -/

theorem latches_load (n : Nat) (signed : Bool) : (AccKind.load n signed).latches = !decide (8 < n) := by
  simp [AccKind.latches, ← decide_not]

theorem latches_cas (w : CasW) : (AccKind.cas w).latches = !(w == .b128) := by cases w <;> rfl

theorem loadSigned_eq (k : LdKind) : loadSigned k = (k == .i8 || k == .i16) := by cases k <;> rfl

/-! ## Loads and stores -/

section
variable (d : Fin 64) (a : Src)

theorem sld_plain (k : LdKind) (off : BitVec 6) :
    UniMemUnit (.sld (.plain k off) d a)
      (deviceSpec { kind := .load k.size (loadSigned k), dest := d.val, uniform := true } a (off.toInt * k.size) false) (decide (8 < k.size)) :=
  uniMemUnit_of_comesBack (fun _ => rfl) (ok_of_wfMem (size := k.size) (d := d)) (kin_deviceSpec _ _ _ _) rfl (latches_load _ _)

theorem sld_ordered (o : OrdAcc) :
    UniMemUnit (.sld (.ordered o) d a)
      (deviceSpec { kind := .load o.size false, scope := o.scope, order := if o.sc then .sc else .acq, dest := d.val, uniform := true } a 0 false)
      (decide (8 < o.size)) :=
  uniMemUnit_of_comesBack (fun _ => rfl) (ok_of_wfMem (size := o.size) (d := d)) (kin_deviceSpec _ _ _ _) rfl (latches_load _ _)

theorem sst_plain (k : StKind) (off : BitVec 6) :
    UniMemUnit (.sst (.plain k off) d a)
      (deviceSpec { kind := .store k.size, dest := d.val, uniform := true } a (off.toInt * k.size) false) true :=
  uniMemUnit_of_store (fun _ => rfl) (ok_of_wfMem (size := k.size) (d := d)) (kin_deviceSpec _ _ _ _) rfl

theorem sst_ordered (o : OrdAcc) :
    UniMemUnit (.sst (.ordered o) d a)
      (deviceSpec { kind := .store o.size, scope := o.scope, order := if o.sc then .sc else .rel, dest := d.val, uniform := true } a 0 false) true :=
  uniMemUnit_of_store (fun _ => rfl) (ok_of_wfMem (size := o.size) (d := d)) (kin_deviceSpec _ _ _ _) rfl

theorem sldx_level (l : XLevel) (w : XWidth) (off : BitVec 6) :
    UniMemUnit (.sldx l w d a off) (levelAccess l { kind := .load w.size false, dest := d.val, uniform := true } a (off.toInt * w.size))
      (decide (8 < w.size)) :=
  uniMemUnit_of_comesBack (fun _ => rfl) (fun wf => by simpa using ok_of_wfX (w := w) (d := d) wf) (kin_levelAccess l _ _ _)
    (by rw [levelAccess_acc]; rfl) (by rw [levelAccess_acc]; exact latches_load _ _)

theorem sstx_level (l : XLevel) (w : XWidth) (off : BitVec 6) :
    UniMemUnit (.sstx l w d a off) (levelAccess l { kind := .store w.size, dest := d.val, uniform := true } a (off.toInt * w.size)) true :=
  uniMemUnit_of_store (n := w.size) (fun _ => rfl) (fun wf => by simpa using ok_of_wfX (w := w) (d := d) wf) (kin_levelAccess l _ _ _)
    (by rw [levelAccess_acc])

/-! ## Atomics -/

theorem satom_device (op : AtomOp) (sc : Scope) (od : Order) :
    UniMemUnit (.satom op (.dev sc od) d a)
      (deviceSpec { kind := .atom op, scope := sc, order := od, dest := d.val, uniform := true } a 0 false) false :=
  uniMemUnit_of_comesBack (fun _ => rfl) (fun wf => ok_of_wfAtom (op := op) (pl := .dev sc od) (d := d) (Bool.and_eq_true_iff.mp wf).2)
    (kin_deviceSpec _ _ _ _) rfl rfl

theorem satom_level (op : AtomOp) (l : Level) :
    UniMemUnit (.satom op (.level l) d a) (levelSpec l { kind := .atom op, dest := d.val, uniform := true } a 0) false :=
  uniMemUnit_of_comesBack (fun _ => rfl) (fun wf => ok_of_wfAtom (op := op) (pl := .level l) (d := d) (Bool.and_eq_true_iff.mp wf).2)
    (kin_levelSpec l _ _ _) rfl rfl

theorem scas_device (w : CasW) (sc : Scope) (od : Order) :
    UniMemUnit (.scas w (.dev sc od) d a)
      (deviceSpec { kind := .cas w, scope := sc, order := od, dest := d.val, uniform := true } a 0 false) (w == .b128) :=
  uniMemUnit_of_comesBack (fun _ => rfl) (ok_of_wfScas (w := w) (pl := .dev sc od) (d := d)) (kin_deviceSpec _ _ _ _) rfl (latches_cas w)

theorem scas_level (w : CasW) (l : Level) :
    UniMemUnit (.scas w (.level l) d a) (levelSpec l { kind := .cas w, dest := d.val, uniform := true } a 0) (w == .b128) :=
  uniMemUnit_of_comesBack (fun _ => rfl) (ok_of_wfScas (w := w) (pl := .level l) (d := d)) (kin_levelSpec l _ _ _) rfl (latches_cas w)

end

/-! ## mon -/

/-- Performing an access does not depend on whether it is one for a course: only the operand log reads that (R240). -/
theorem accessLane_uniform (s : State) (w : Who) (acc : Access) (u : Bool) (q : LaneAcc) :
    s.accessLane w { acc with uniform := u } q = s.accessLane w acc q := rfl

/-- So a unit whose access is performed does the same for the access marked as one for its course. -/
theorem uniMemUnit_of_uniform {i : Instr} {acc : Access} {u drop3 : Bool} {a : Src} {disp : Int} {gather : Bool}
    (h : UniMemUnit i (deviceSpec { acc with uniform := u } a disp gather) drop3) : UniMemUnit i (deviceSpec acc a disp gather) drop3 :=
  fun wf s t c s1 vals t1 one lead performed there =>
    h wf s t c s1 vals t1 one lead ((accessLane_uniform s _ acc u _).trans performed) there

theorem mon_device (a : Src) : UniMemUnit (.mon a) (deviceSpec { kind := .mon, uniform := true } a 0 false) false :=
  uniMemUnit_of (fun _ => rfl) pairOk_of_ok (kin_deviceSpec _ _ _ _) fun _ _ _ _ _ ok => gives_none rfl ok

/-- Settles O24: each instruction by its own access; what the access leaves in b3 is that of its kind. -/
theorem uniformAccesses : Obligations.UniformAccesses := by
  unfold Obligations.UniformAccesses
  refine fun o sc od d a off => ⟨fun k => ?_, sld_ordered d a o, fun k => sst_plain d a k off, sst_ordered d a o, fun l w => sldx_level d a l w off,
    fun l w => sstx_level d a l w off, fun op => satom_device d a op sc od, satom_level d a, fun w => scas_device d a w sc od, scas_level d a,
    uniMemUnit_of_uniform (mon_device a)⟩
  rw [← loadSigned_eq]
  exact sld_plain d a k off

end Sys2Proof.Machine
end

section
/-!
SUPPORT. The encodings of the whole table (R78 to R95), from the lemma of each instruction. `encodingsRoundTrip` settles O56.
-/

namespace Sys2Proof.Laws.RoundTrip

/-- Settles O56: one lemma for each constructor of `Instr`, in their order there. -/
theorem encodingsRoundTrip : Obligations.EncodingsRoundTrip := by
  unfold Obligations.EncodingsRoundTrip
  exact fun i => Instr.casesOn i
    loadComplete writeBackPerformed stampedStoreVisible visibilityReport watermarkRefresh passAcceptance passApplied tilePoolGrant
    engineCommandStart engineCommandComplete collectiveContribution openGroupStart spawnTimerExpiry convTimeout sleepExpiry mwaitTimeout
    waitSentinel budget teamPlacement teamSave reset fullServiceStart powerTemperatureLimit patrolScrub linkTimeExchange linkTimeMessage
    flitReceived remoteAccessRequest linkPlaneFailure diePortFailure dieLost dieSetExit deviceUnreachable partcfgRead partcfgWrite submit
    submitResume inval resume kill holdclr attest state stateSave unknownCommand overrun mailboxCommandComplete vendorDefinedMessage hostBar2Write
    hostBar2Read classCounterWrite registerWrite faultRecordPost eventRecordPost etimeExpiry unallocatedEncoding fetchFault
    stampedStoreHeldPending addB32 addB64 subB32 subB64 addiB32 addiB64 mulB32 mulB64 mulhiI32 mulhiN32 mulwI32 mulwN32 divI32 divN32 remI32
    remN32 andB32 orB32 xorB32 bfiB32 andB64 orB64 xorB64 lea shlB32 shrN32 shrI32 shlB64 shrN64 shrI64 bfxB32 notB32 popcB32 clzB32 ctzB32
    brevB32 bswapB32 sextI8 sextI16 notB64 popcB64 clzB64 ctzB64 brevB64 bswapB64 sextI32 zextN32 setpI32 setpN32 setpI64 setpN64 minN32 maxN32
    minI32 maxI32 faddF32 fsubF32 fmulF32 ffmaF32 faddF64 fsubF64 fmulF64 ffmaF64 faddRzF32 faddRuF32 faddRdF32 fmulRzF32 ffmaRzF32 ffmaRuF32
    ffmaRdF32 ffmaSatF32 faddF16x2 fsubF16x2 fmulF16x2 ffmaF16x2 faddBf16x2 fsubBf16x2 fmulBf16x2 ffmaBf16x2 fnegF32 fabsF32 fnegF64 fabsF64
    fminF64 fmaxF64 fminnF64 fmaxnF64 fsetpF32 fsetpF64 fclassF32 fclassF64 fminF32 fmaxF32 fminnF32 fmaxnF32 cvtF32 cvtF64 cvtH16 cvtF8 cvtI32
    cvtN32 cvtI64 cvtN64 rcpF32 rsqF32 sqrtF32 exp2F32 log2F32 sinpiF32 cospiF32 tanhF32 divF32 rcpF64 rsqF64 sqrtF64 exp2F64 log2F64 sinpiF64
    cospiF64 tanhF64 divF64 rand ffmaF32x2 shfl censusMask censusCount censusAgree censusFirst censusLast censusRank matchKeys red scan maxiF32
    miniF32 maxiF16 miniF16 maxiBf16 miniBf16 maxiI32 miniI32 maxiN32 miniN32 selk isect mma mmaSp tileAlloc tileFree tileZero tileFill
    tileDrainF64 tileDrainF32 tileDrainBf16 tileQdrainMxf8 tileQdrainMxf6 tileQdrainMxf4 tileQdrainMxi8 ld ldOrdered st stOrdered ldx stx atom sts
    lda fetch gather br call icall ret join conv emitB32 emitB64 fork plop guardPrefix saddB32 saddB64 ssubB32 ssubB64 saddiB32 saddiB64 smulB32
    smulB64 smulhiI32 smulhiN32 smulwI32 smulwN32 sdivI32 sdivN32 sremI32 sremN32 sandB32 sorB32 sxorB32 sbfiB32 sandB64 sorB64 sxorB64 slea
    ssetpI32 ssetpN32 ssetpI64 ssetpN64 sshlB32 sshrN32 sshrI32 sbit sfaddF32 sfsubF32 sfmulF32 sffmaF32 sfaddF64 sfsubF64 sfmulF64 sffmaF64
    sfsetpF32 sfsetpF64 scvtF32 scvtI32 sfminF32 sfmaxF32 srcpF32 srsqF32 ssqrtF32 sexp2F32 slog2F32 ssinpiF32 scospiF32 stanhF32 sfdivF32 sld sst
    sldx sstx satom scas fence barArrive barWait mon mwait commitw sleep bcopy bcopySt ringInit ringTake ringGive ringWait tlRead tlWait coll
    ckptHold ckptRelease spawn chunk repack slice depdec yield clkiv vshape capq sget sset trap rett bkpt

end Sys2Proof.Laws.RoundTrip
end

section
/-!
SUPPORT. Words the manual works out (R80 to R96): a legal one is read through the encoder it comes from, an illegal one by the step of R96 that
fails. `decodedWords` settles O60.
-/

namespace Sys2Proof.Laws.RoundTrip

/-- The words an instruction is encoded to are read as it. -/
theorem decodeWords_of_encode {i : Instr} {w : W32} {rest : List W32} (reads : Statement i) (he : encode i = w :: rest)
    (wf : WellFormed i = true) (hw : isPrefix w.toNat = false) : decodeWords (w :: rest) = .ok ⟨none, i, rest.length + 1⟩ := by
  have h := reads wf
  rw [he] at h
  exact (h hw).1

/-- Behind a guard word they are read as it too, with its predicate (R92). -/
theorem decodeWords_of_encode_guarded {i : Instr} {v w : W32} {rest : List W32} {p : PredSel} {neg : Bool} (reads : Statement i)
    (he : encode i = w :: rest) (wf : WellFormed i = true) (hv : prefixWord p neg = v) (hw : isPrefix w.toNat = false)
    (hb : isBFormat w.toNat = false) : decodeWords (v :: w :: rest) = .ok ⟨some (p, neg), i, 1 + (rest.length + 1)⟩ := by
  have h := reads wf
  rw [he] at h
  rw [← hv]
  exact (h hw).2 hb p neg

/-- A word without an entry in the opcode maps fails step 1 (R93 to R96). -/
theorem decodeWords_unallocated {w : W32} (hw : isPrefix w.toNat = false) (h : decodeWord w.toNat 0 = none) :
    decodeWords [w] = .error .opcode := by
  unfold decodeWords
  simp only [List.getElem?_cons_zero, List.getElem?_cons_succ, List.getElem?_nil, Option.getD_some, Option.getD_none, BitVec.ofNat_eq_ofNat,
    BitVec.toNat_ofNat, Nat.zero_mod, decodeUnit, hw, h, Bool.false_eq_true, if_false]

/-- A word with an entry fails the first step of R96 whose check it does not pass. -/
theorem decodeWords_fails {w : W32} {rest : List W32} {e : DecStep} (hw : isPrefix w.toNat = false)
    (h : (decodeWord w.toNat ((rest[0]?).getD 0).toNat).map (fun p => p.chk.fails) = some (some e)) :
    decodeWords (w :: rest) = .error e := by
  obtain ⟨p, hp, he⟩ := Option.map_eq_some_iff.mp h
  unfold decodeWords
  simp only [List.getElem?_cons_zero, List.getElem?_cons_succ, Option.getD_some, decodeUnit, hw, hp, he, Bool.false_eq_true, if_false]

/-- Settles O60. -/
theorem decodedWords : Obligations.DecodedWords := by
  unfold Obligations.DecodedWords
  refine ⟨?guarded, ?special, ?branch, ?classes, ?convert, ?predicate, ?census, ?scan, ?noOpcode, ?noMap, ?noSource, ?reservedField, ?oddPair⟩
  case guarded => exact decodeWords_of_encode_guarded (faddF32 (.reg 12) (.reg 4 true) (.lit 0x3FC00000)) rfl rfl rfl rfl rfl
  case special => exact decodeWords_of_encode (saddB32 (.opf 3) (.reg 9 false) (.special (.int 5))) rfl rfl rfl
  case branch => exact decodeWords_of_encode (br (.p 2) true 0x7FFF0) rfl rfl rfl
  case classes => exact decodeWords_of_encode (fclassF32 .set 2 (.reg 7 false) 0x63) rfl rfl rfl
  case convert => exact decodeWords_of_encode (cvtF8 (.reg 9) (.reg 4 false) .f32 .rne true false) rfl rfl rfl
  case predicate => exact decodeWords_of_encode (sfsetpF32 .lt 1 (.reg 4 false) (.reg 5 false)) rfl rfl rfl
  case census => exact decodeWords_of_encode (censusMask (.reg 5) (.p 3)) rfl rfl rfl
  case scan => exact decodeWords_of_encode (scan (.reg 14) (.reg 4 false) .addF32 true) rfl rfl rfl
  case noOpcode => exact decodeWords_unallocated rfl rfl
  case noMap => exact decodeWords_unallocated rfl rfl
  case noSource => exact decodeWords_fails rfl rfl
  case reservedField => exact decodeWords_fails rfl rfl
  case oddPair => exact decodeWords_fails rfl rfl

end Sys2Proof.Laws.RoundTrip
end

section
/-!
SUPPORT. The uniform integer instructions (R95): each runs the function of its lane twin once a course (R63), and that function is the one the
rule gives. `uniformIntegers` settles O12.
-/

namespace Sys2Proof.Machine

/-! ## The functions (R173, R174, R177) -/

/-- An arithmetic shift by the width less one leaves the sign in every bit. -/
theorem sshiftRight_31 (a : W32) : a.sshiftRight 31 = if a.msb then 0xFFFFFFFF else 0 := by
  have bits (i : Nat) (hi : i < 32) : (a.sshiftRight 31)[i] = a.msb := by
    rw [BitVec.getElem_sshiftRight]
    split
    · next h =>
      obtain rfl : i = 0 := by omega
      simp [BitVec.msb_eq_getLsbD_last]
    · rfl
  change _ = if a.msb then BitVec.allOnes 32 else 0#32
  ext i hi
  rw [bits i hi]
  cases a.msb with
  | true => exact (BitVec.getElem_allOnes i hi).symm
  | false => simp

theorem shrI32_eq_shiftBy (a b : W32) : shrI32 a b = shiftBy BitVec.sshiftRight a b (if a.msb then 0xFFFFFFFF else 0) := by
  unfold shrI32 shiftBy
  split
  · rw [Nat.min_eq_left (by omega)]
  · rw [Nat.min_eq_right (by omega), sshiftRight_31]

theorem lo32_msb (x : W64) : (lo32 x).msb = x.getLsbD 31 := by
  simp [BitVec.msb_eq_getLsbD_last]

/-- The mask of a field is made in its place, or made and moved there. -/
theorem bfi32_eq_insertField (a b old : W32) : bfi32 a b old = insertField a b old := by
  have mask : BitVec.ofNat 32 ((2 ^ fieldLen b - 1) * 2 ^ fieldPos b) = BitVec.ofNat 32 (2 ^ fieldLen b - 1) <<< fieldPos b := by
    apply BitVec.eq_of_toNat_eq
    simp [Nat.shiftLeft_eq, Nat.mod_mul_mod]
  simp only [bfi32, mask]
  rfl

theorem cmpInt_eq_condOf (signed wide : Bool) (c : Cond) (x y : W64) :
    cmpInt signed wide c x y = Machine.condOf c (asInt signed wide x) (asInt signed wide y) := by
  cases c with
  | eq => rfl
  | ne => exact decide_not.symm
  | lt => rfl
  | le => exact (Bool.decide_or _ _).symm.trans (decide_eq_decide.mpr Int.le_iff_lt_or_eq.symm)

/-! ## A uniform-set instruction by its function -/

theorem pairOk_of_wfR2 {ta tb : Ty} {wide n : Bool} {d : Dst} {a b : Src} (h : wfR2 ta tb wide n d a b = true) :
    d.pairOk wide = true ∧ ∀ o ∈ [((ta, a) : Operand), (tb, b)], o.2.pairOk o.1 = true := by
  simp only [wfR2, Dst.ok, Bool.and_eq_true] at h
  obtain ⟨⟨⟨⟨hd, _⟩, ha⟩, hb⟩, _⟩ := h
  exact ⟨hd, by simp [pairOk_of_ok ha, pairOk_of_ok hb]⟩

theorem pairOk_of_wfR1 {ta : Ty} {wide : Bool} {d : Dst} {a : Src} (h : wfR1 ta wide d a = true) :
    d.pairOk wide = true ∧ ∀ o ∈ [((ta, a) : Operand)], o.2.pairOk o.1 = true := by
  simp only [wfR1, Dst.ok, Bool.and_eq_true] at h
  obtain ⟨⟨hd, _⟩, ha⟩ := h
  exact ⟨hd, by simp [pairOk_of_ok ha]⟩

theorem pairOk_of_wfI1 {ta : Ty} {wide : Bool} {d : Dst} {a : Src} (h : wfI1 ta wide d a = true) :
    d.pairOk wide = true ∧ ∀ o ∈ [((ta, a) : Operand)], o.2.pairOk o.1 = true := by
  simp only [wfI1, Dst.ok, Bool.and_eq_true] at h
  obtain ⟨⟨⟨hd, _⟩, _⟩, ha⟩ := h
  exact ⟨hd, by simp [pairOk_of_ok ha]⟩

theorem pairOk_of_wfRp {ta : Ty} {a b : Src} (h : wfRp ta a b = true) : ∀ o ∈ [((ta, a) : Operand), (ta, b)], o.2.pairOk o.1 = true := by
  simp only [wfRp, Bool.and_eq_true] at h
  obtain ⟨⟨ha, hb⟩, _⟩ := h
  simp [pairOk_of_ok ha, pairOk_of_ok hb]

/-- An instruction that runs a function of the table uniformly gives every participating thread its value at the leader's operands. -/
theorem uniUnit_of_fn {i : Instr} {d : Dst} {f : List W64 → W64} (fn : Fn) (srcs : List Src) (run : ∀ s, exec i s = s.uniFn fn d srcs)
    (wf : WellFormed i = true → d.pairOk fn.wide = true ∧ ∀ o ∈ fn.tys.zip srcs, o.2.pairOk o.1 = true) (computes : fn.f = f) :
    UniUnit i fn.wide fn.third d (fn.tys.zip srcs) f := by
  intro h s t lifted readable
  obtain ⟨hd, hs⟩ := wf h
  rw [run, ← computes]
  exact uniFn_spec lifted readable hd hs

/-- One that compares uniformly gives every participating thread the predicate at the leader's operands. -/
theorem uniPred_of_cmpInt {i : Instr} {p : Nat} {srcs : List Operand} {f : W64 → W64 → Bool} (signed wide : Bool) (c : Cond)
    (run : ∀ s, exec i s = s.uniPred p srcs (pred2 (cmpInt signed wide c)))
    (wf : WellFormed i = true → ∀ o ∈ srcs, o.2.pairOk o.1 = true)
    (computes : ∀ x y, Machine.condOf c (asInt signed wide x) (asInt signed wide y) = f x y) : UniPred i p srcs (pred2 f) := by
  intro h s t lifted readable
  have same : cmpInt signed wide c = f := funext₂ fun x y => (cmpInt_eq_condOf signed wide c x y).trans (computes x y)
  rw [run, same]
  exact uniPred_spec lifted _ readable (wf h)

theorem fnShrI32_computes :
    fnShrI32.f = fn2 fun x y => zx64 (shiftBy BitVec.sshiftRight (lo32 x) (lo32 y) (if x.getLsbD 31 then 0xFFFFFFFF else 0)) :=
  congrArg fn2 (funext₂ fun x y => by rw [shrI32_eq_shiftBy, lo32_msb])

theorem fnBfiB32_computes : fnBfiB32.f = fn3 fun x y z => zx64 (insertField (lo32 x) (lo32 y) (lo32 z)) :=
  congrArg fn3 (funext fun x => funext₂ fun y z => by rw [bfi32_eq_insertField])

/-- Settles O12: each instruction by the function that it shares with its lane twin. -/
theorem uniformIntegers : Obligations.UniformIntegers := by
  unfold Obligations.UniformIntegers
  intro d a b imm c p
  exact ⟨uniUnit_of_fn fnAddB32 [a, b] (fun _ => rfl) pairOk_of_wfR2 rfl,
    uniUnit_of_fn fnAddB64 [a, b] (fun _ => rfl) pairOk_of_wfR2 rfl,
    uniUnit_of_fn fnSubB32 [a, b] (fun _ => rfl) pairOk_of_wfR2 rfl,
    uniUnit_of_fn fnSubB64 [a, b] (fun _ => rfl) pairOk_of_wfR2 rfl,
    uniUnit_of_fn (fnAddiB32 imm) [a] (fun _ => rfl) pairOk_of_wfI1 rfl,
    uniUnit_of_fn (fnAddiB64 imm) [a] (fun _ => rfl) pairOk_of_wfI1 rfl,
    uniUnit_of_fn fnMulB32 [a, b] (fun _ => rfl) pairOk_of_wfR2 rfl,
    uniUnit_of_fn fnMulB64 [a, b] (fun _ => rfl) pairOk_of_wfR2 rfl,
    uniUnit_of_fn fnMulhiI32 [a, b] (fun _ => rfl) pairOk_of_wfR2 rfl,
    uniUnit_of_fn fnMulhiN32 [a, b] (fun _ => rfl) pairOk_of_wfR2 rfl,
    uniUnit_of_fn fnMulwI32 [a, b] (fun _ => rfl) pairOk_of_wfR2 rfl,
    uniUnit_of_fn fnMulwN32 [a, b] (fun _ => rfl) pairOk_of_wfR2 rfl,
    uniUnit_of_fn fnDivI32 [a, b] (fun _ => rfl) pairOk_of_wfR2 rfl,
    uniUnit_of_fn fnDivN32 [a, b] (fun _ => rfl) pairOk_of_wfR2 rfl,
    uniUnit_of_fn fnRemI32 [a, b] (fun _ => rfl) pairOk_of_wfR2 rfl,
    uniUnit_of_fn fnRemN32 [a, b] (fun _ => rfl) pairOk_of_wfR2 rfl,
    uniUnit_of_fn fnAndB32 [a, b] (fun _ => rfl) pairOk_of_wfR2 rfl,
    uniUnit_of_fn fnOrB32 [a, b] (fun _ => rfl) pairOk_of_wfR2 rfl,
    uniUnit_of_fn fnXorB32 [a, b] (fun _ => rfl) pairOk_of_wfR2 rfl,
    uniUnit_of_fn fnAndB64 [a, b] (fun _ => rfl) pairOk_of_wfR2 rfl,
    uniUnit_of_fn fnOrB64 [a, b] (fun _ => rfl) pairOk_of_wfR2 rfl,
    uniUnit_of_fn fnXorB64 [a, b] (fun _ => rfl) pairOk_of_wfR2 rfl,
    uniUnit_of_fn fnBfiB32 [a, b] (fun _ => rfl) pairOk_of_wfR2 fnBfiB32_computes,
    uniUnit_of_fn fnLea [a, b] (fun _ => rfl) pairOk_of_wfR2 rfl,
    uniUnit_of_fn fnShlB32 [a, b] (fun _ => rfl) pairOk_of_wfR2 rfl,
    uniUnit_of_fn fnShrN32 [a, b] (fun _ => rfl) pairOk_of_wfR2 rfl,
    uniUnit_of_fn fnShrI32 [a, b] (fun _ => rfl) pairOk_of_wfR2 fnShrI32_computes,
    fun k => uniUnit_of_fn (fnBit k) [a] (fun _ => rfl) pairOk_of_wfR1 rfl,
    uniPred_of_cmpInt true false c (fun _ => rfl) pairOk_of_wfRp fun _ _ => rfl,
    uniPred_of_cmpInt false false c (fun _ => rfl) pairOk_of_wfRp fun _ _ => rfl,
    uniPred_of_cmpInt true true c (fun _ => rfl) pairOk_of_wfRp fun _ _ => rfl,
    uniPred_of_cmpInt false true c (fun _ => rfl) pairOk_of_wfRp fun _ _ => rfl⟩

end Sys2Proof.Machine
end

section
/-!
SUPPORT. The posting of records (R363, R379, R384, R385), and the faults of units that do not decode or cannot be fetched (R78, R96, R97).
`recordsAndBadUnits` settles O51.
-/

namespace Sys2Proof.Machine

/-! ## What a write at a home slice leaves alone -/

/-- The state without memory, its poison, the caches of the cores, and the threads with their monitors. -/
def State.beyondMemory (s : State) : State := { s with mem := [], poison := [], l2Poison := [], cores := [], teams := [] }

theorem State.performDirty_beyondMemory (s : State) (core line : Nat) : (s.performDirty core line).beyondMemory = s.beyondMemory := by
  unfold State.performDirty
  dsimp only
  split
  · rfl
  · split <;> rfl

theorem State.recall_beyondMemory (s : State) (line : Nat) (except : Option Nat) : (s.recall line except).beyondMemory = s.beyondMemory := by
  unfold State.recall
  refine foldl_keeps State.beyondMemory _ (fun s k => ?_) _ s
  exact s.performDirty_beyondMemory k line

theorem State.homeWrite_beyondMemory (s : State) (pa : Nat) (b : List Byte) : (s.homeWrite pa b).beyondMemory = s.beyondMemory :=
  (foldl_keeps State.beyondMemory _ (by exact fun _ _ => rfl) _ _).trans
    (foldl_keeps State.beyondMemory _ (fun s l => s.recall_beyondMemory l none) _ s)

@[simp] theorem State.homeWrite_parts (s : State) (pa : Nat) (b : List Byte) : (s.homeWrite pa b).parts = s.parts :=
  (congrArg State.parts (s.homeWrite_beyondMemory pa b) :)

@[simp] theorem State.homeWrite_part (s : State) (pa : Nat) (b : List Byte) (k : Nat) : (s.homeWrite pa b).part k = s.part k := by
  unfold State.part
  rw [s.homeWrite_parts]

@[simp] theorem State.homeWrite_errorLog (s : State) (pa : Nat) (b : List Byte) : (s.homeWrite pa b).errorLog = s.errorLog :=
  (congrArg State.errorLog (s.homeWrite_beyondMemory pa b) :)

/-- The bytes of memory after a write of `n` bytes at a home slice. -/
theorem State.homeWrite_nth {pa n : Nat} {b : List Byte} (h : b.length = n) (s : State) (a : Nat) :
    (s.homeWrite pa b).mem.read a = if pa ≤ a ∧ a - pa < n then nth b (a - pa) 0 else (s.recalled pa n).mem.read a := by
  subst h
  rw [s.homeWrite_mem, Bytes.read_writeN]
  exact if_congr (by omega) rfl rfl

/-! ## Dirty bytes come home alike whatever the clocks say -/

/-- Memory with the dirty bytes of a line written to it. -/
def L1Line.written (ln : L1Line) (line : Nat) (m : Bytes) : Bytes :=
  ((sortBy (fun a b => decide (a ≤ b)) ln.dirty).map fun o => (o, (FMap.get ln.valid o).getD 0)).foldl
    (fun (m : Bytes) (p : Nat × Byte) => m.write (128 * line + p.1) p.2) m

theorem State.performDirty_mem (s : State) (core line : Nat) : (s.performDirty core line).mem =
    if ((s.core core).line line).dirty.isEmpty then s.mem
    else if s.homeAlive (128 * line) then ((s.core core).line line).written line s.mem else s.mem := by
  have alive : ∀ c, (s.setCore core c).homeAlive (128 * line) = s.homeAlive (128 * line) := fun _ => rfl
  unfold State.performDirty
  dsimp only
  rw [alive]
  split
  · rfl
  · cases s.homeAlive (128 * line) <;> rfl

theorem State.performDirty_cores (s : State) (core line : Nat) : (s.performDirty core line).cores =
    if ((s.core core).line line).dirty.isEmpty then s.cores
    else FMap.set s.cores core { s.core core with l1 := FMap.set (s.core core).l1 line { (s.core core).line line with dirty := [], bad := [] } } := by
  unfold State.performDirty
  dsimp only
  split
  · rfl
  · split <;> rfl

theorem State.performDirty_homeAlive (s : State) (core line pa n : Nat) : (s.performDirty core line).homeAlive pa n = s.homeAlive pa n :=
  (congrArg (fun x => x.homeAlive pa n) (s.performDirty_beyondMemory core line) :)

/-- Two states with the same memory, the same caches, and the same homes that answer. -/
structure SameHomes (s u : State) : Prop where
  mem : u.mem = s.mem
  cores : u.cores = s.cores
  alive : ∀ pa n, u.homeAlive pa n = s.homeAlive pa n

theorem SameHomes.core {s u : State} (h : SameHomes s u) (k : Nat) : u.core k = s.core k := by
  unfold State.core
  rw [h.cores]

theorem SameHomes.foldl {α : Type} {f : State → α → State} (h : ∀ s u a, SameHomes s u → SameHomes (f s a) (f u a)) (l : List α) {s u : State}
    (e : SameHomes s u) : SameHomes (l.foldl f s) (l.foldl f u) := by
  induction l generalizing s u with
  | nil => exact e
  | cons a t ih => exact ih (h s u a e)

theorem SameHomes.performDirty {s u : State} (h : SameHomes s u) (core line : Nat) :
    SameHomes (s.performDirty core line) (u.performDirty core line) where
  mem := by rw [State.performDirty_mem, State.performDirty_mem, h.core, h.alive, h.mem]
  cores := by rw [State.performDirty_cores, State.performDirty_cores, h.core, h.cores]
  alive pa n := by rw [State.performDirty_homeAlive, State.performDirty_homeAlive, h.alive]

theorem SameHomes.setCore {s u : State} (h : SameHomes s u) (k : Nat) (c : Core) : SameHomes (s.setCore k c) (u.setCore k c) where
  mem := h.mem
  cores := congrArg (FMap.set · k c) h.cores
  alive := h.alive

theorem SameHomes.recall {s u : State} (h : SameHomes s u) (line : Nat) (except : Option Nat) :
    SameHomes (s.recall line except) (u.recall line except) := by
  unfold State.recall
  rw [h.cores]
  refine SameHomes.foldl (fun s u k e => ?_) _ h
  have performed := e.performDirty k line
  dsimp only
  rw [performed.core]
  exact performed.setCore k _

theorem SameHomes.recalled {s u : State} (h : SameHomes s u) (pa n : Nat) : SameHomes (s.recalled pa n) (u.recalled pa n) :=
  SameHomes.foldl (fun _ _ l e => e.recall l none) _ h

theorem State.readClock_die_alive (s : State) (d k : Nat) : ((s.readClock d).1.die k).alive = (s.die k).alive := by
  unfold State.readClock State.die State.setDie
  dsimp only
  by_cases h : k = d
  · subst h
    by_cases hk : k < s.dies.length
    · rw [nth_set_same _ _ _ _ hk]
    · rw [setNth, List.set_eq_of_length_le (Nat.le_of_not_lt hk)]
  · rw [nth_set_ne _ _ _ h]

/-- Reading a clock changes no home. -/
theorem sameHomes_readClock (s : State) (d : Nat) : SameHomes s (s.readClock d).1 where
  mem := rfl
  cores := rfl
  alive pa n := by
    unfold State.homeAlive
    rw [s.readClock_die_alive]
    rfl

/-! ## Rings of records -/

theorem RecRing.noteFull_nil {r : RecRing} (h : r.waiting = []) : r.noteFull = r := by
  simp [RecRing.noteFull, h]

@[simp] theorem RecRing.noteFull_head (r : RecRing) : r.noteFull.head = r.head := by unfold RecRing.noteFull; split <;> rfl
@[simp] theorem RecRing.noteFull_waiting (r : RecRing) : r.noteFull.waiting = r.waiting := by unfold RecRing.noteFull; split <;> rfl
@[simp] theorem RecRing.noteFull_unsignalled (r : RecRing) : r.noteFull.unsignalled = r.unsignalled := by unfold RecRing.noteFull; split <;> rfl
@[simp] theorem RecRing.noteFull_count (r : RecRing) : r.noteFull.count = r.count := by unfold RecRing.noteFull; split <;> rfl
@[simp] theorem RecRing.noteFull_vec (r : RecRing) : r.noteFull.vec = r.vec := by unfold RecRing.noteFull; split <;> rfl

theorem setNth_nth {α : Type} (l : List α) (k : Nat) (d : α) : setNth l k (nth l k d) = l := by
  by_cases h : k < l.length
  · simp [nth, setNth, h]
  · exact List.set_eq_of_length_le (Nat.le_of_not_lt h)

theorem State.setPart_self (s : State) (k : Nat) : s.setPart k (s.part k) = s := by
  unfold State.setPart State.part
  rw [setNth_nth]

/-- Nothing is posted from a ring without a waiting record. -/
theorem State.postOne_nil {r : RecRing} (h : r.waiting = []) (s : State) (part : Nat) (fix : List Byte → List Byte) :
    s.postOne part r fix = (s, r) := by
  simp [State.postOne, State.canPost, h, RecRing.noteFull_nil h]

/-- A ring of 64-byte records after its only record has been posted. -/
def RecRing.emptied (r : RecRing) : RecRing :=
  { r with head := BitVec.ofNat 32 ((r.head.toNat + 1) % r.entries), waiting := [], stat := r.stat ||| 2 }

/-- The only record of a ring that can be posted is written at the head, the head advances, and the ring's vector is signalled. -/
theorem State.postOne_single {s : State} {part : Nat} {r : RecRing} {b : List Byte} (can : s.canPost part 64 r = true) (only : r.waiting = [b])
    (fix : List Byte → List Byte) : s.postOne part r fix =
      ((s.homeWrite (r.base.toNat + r.slotOff 64) (fix b)).signal (.msix part r.vec.toNat), r.emptied) := by
  unfold State.postOne
  rw [if_pos can, RecRing.noteFull_nil (by simp [RecRing.posted, only])]
  simp [RecRing.posted, RecRing.emptied, only]

theorem State.postDevice_nil {s : State} (h : s.errorLog.waiting = []) : s.postDevice = .next s := by
  simp [State.postDevice, State.devicePost, h, RecRing.noteFull_nil h]

/-- The device-wide log stops the machine where its next record has no memory to go to (log 23). -/
theorem State.postDevice_noMemory {s : State} {b : List Byte} {rest : List (List Byte)} (h : s.errorLog.waiting = b :: rest)
    (base : s.errorLog.base ≠ 0) (room : s.errorLog.full = false) (none : physOk s.devicePlace 64 = false) :
    s.postDevice = .fault (.noMemory s.devicePlace) := by
  have post : s.devicePost = true := by
    simp only [State.devicePost, h, room, none, bne_iff_ne.mpr base, List.isEmpty_cons, Bool.not_false, Bool.true_or, Bool.and_self]
  simp only [State.postDevice, post, none, Bool.not_true, Bool.false_eq_true, if_false]

/-! ## The fault ring and the device-wide error log (R363, R379) -/

theorem State.readClock_canPost (s : State) (d part n : Nat) (r : RecRing) : (s.readClock d).1.canPost part n r = s.canPost part n r := by
  unfold State.canPost State.takesRecord
  rw [(sameHomes_readClock s d).alive]
  rfl

/-- The next record of a partition's fault ring is posted, if it can be. -/
def State.postFault (s : State) (k : Nat) (fix : List Byte → List Byte) : State :=
  let q := s.postOne k (s.part k).faultRing fix
  q.1.setPart k { q.1.part k with faultRing := q.2 }

/-- The next record of a partition's error log is posted, if it can be. -/
def State.postLog (s : State) (k : Nat) : State :=
  let q := s.postOne k (s.part k).errorLog id
  q.1.setPart k { q.1.part k with errorLog := q.2 }

theorem exec_faultRecordPost (part : Fin 16) (s : State) : exec (.faultRecordPost part) s =
    (((s.readClock 0).1.postFault part.val fun b => putBytes b 0x30 (leBytes 8 (s.readClock 0).2.1)).postLog part.val).postDevice := by
  change execFaultRecordPost part s = _
  rfl

theorem State.postFault_nil {s : State} {k : Nat} (h : (s.part k).faultRing.waiting = []) (fix : List Byte → List Byte) :
    s.postFault k fix = s := by
  unfold State.postFault
  rw [State.postOne_nil h]
  exact s.setPart_self k

theorem State.postLog_nil {s : State} {k : Nat} (h : (s.part k).errorLog.waiting = []) : s.postLog k = s := by
  unfold State.postLog
  rw [State.postOne_nil h]
  exact s.setPart_self k

theorem State.postFault_single {s : State} {k : Nat} {b : List Byte} (can : s.canPost k 64 (s.part k).faultRing = true)
    (only : (s.part k).faultRing.waiting = [b]) (fix : List Byte → List Byte) : s.postFault k fix =
      ((s.homeWrite ((s.part k).faultRing.base.toNat + (s.part k).faultRing.slotOff 64) (fix b)).signal
        (.msix k (s.part k).faultRing.vec.toNat)).setPart k { s.part k with faultRing := (s.part k).faultRing.emptied } := by
  unfold State.postFault
  rw [State.postOne_single can only]
  have kept (pa : Nat) (x : Signal) : ((s.homeWrite pa (fix b)).signal x).part k = s.part k := s.homeWrite_part pa (fix b) k
  dsimp only
  rw [kept]

/-- With one record in a partition's fault ring that can be posted, and none in the error logs, that record is posted with the time of
posting (R363, R364). -/
theorem exec_faultRecordPost_single {s : State} {part : Fin 16} {b : List Byte} (only : (s.part part.val).faultRing.waiting = [b])
    (noLog : (s.part part.val).errorLog.waiting = []) (noDevice : s.errorLog.waiting = [])
    (can : s.canPost part.val 64 (s.part part.val).faultRing = true) :
    exec (.faultRecordPost part) s =
      let r := (s.part part.val).faultRing
      .next ((((s.readClock 0).1.homeWrite (r.base.toNat + r.slotOff 64) (putBytes b 0x30 (leBytes 8 (s.readClock 0).2.1))).signal
        (.msix part.val r.vec.toNat)).setPart part.val { s.part part.val with faultRing := r.emptied }) := by
  have single := State.postFault_single (s := (s.readClock 0).1) ((s.readClock_canPost 0 part.val 64 _).trans can) only
    fun b => putBytes b 0x30 (leBytes 8 (s.readClock 0).2.1)
  rw [exec_faultRecordPost, single, State.postLog_nil, State.postDevice_nil]
  · rfl
  · exact (congrArg RecRing.waiting (State.homeWrite_errorLog _ _ _)).trans noDevice
  · obtain h | ⟨-, h⟩ := State.part_setPart_or _ part.val part.val _ <;> rw [h]
    · exact (congrArg (fun q => q.errorLog.waiting) (State.homeWrite_part _ _ _ _) :).trans noLog
    · exact noLog

theorem exec_faultRecordPost_noMemory {s : State} {part : Fin 16} {b : List Byte} {rest : List (List Byte)}
    (noFault : (s.part part.val).faultRing.waiting = []) (noLog : (s.part part.val).errorLog.waiting = [])
    (h : s.errorLog.waiting = b :: rest) (base : s.errorLog.base ≠ 0) (room : s.errorLog.full = false) (none : physOk s.devicePlace 64 = false) :
    exec (.faultRecordPost part) s = .fault (.noMemory s.devicePlace) := by
  rw [exec_faultRecordPost, State.postFault_nil (s := (s.readClock 0).1) noFault, State.postLog_nil (s := (s.readClock 0).1) noLog]
  exact State.postDevice_noMemory (s := (s.readClock 0).1) h base room none

/-! ## Event rings (R384, R385) -/

/-- An event ring after its oldest record has been written at the time `now`. -/
def RecRing.counted (r : RecRing) (now : Nat) : RecRing :=
  ({ r.posted with unsignalled := r.unsignalled + 1, firstAt := if r.unsignalled + 1 = 1 then now else r.firstAt } : RecRing).noteFull

theorem RecRing.counted_head (r : RecRing) (now : Nat) : (r.counted now).head = BitVec.ofNat 32 ((r.head.toNat + 1) % r.entries) := RecRing.noteFull_head _
theorem RecRing.counted_waiting (r : RecRing) (now : Nat) : (r.counted now).waiting = r.waiting.drop 1 := RecRing.noteFull_waiting _
theorem RecRing.counted_unsignalled (r : RecRing) (now : Nat) : (r.counted now).unsignalled = r.unsignalled + 1 := RecRing.noteFull_unsignalled _
theorem RecRing.counted_count (r : RecRing) (now : Nat) : (r.counted now).count = r.count := RecRing.noteFull_count _
theorem RecRing.counted_vec (r : RecRing) (now : Nat) : (r.counted now).vec = r.vec := RecRing.noteFull_vec _

/-- An event ring that has been signalled. -/
def RecRing.signalled (r : RecRing) : RecRing := { r with unsignalled := 0, stat := r.stat ||| 2 }

/-- An event ring of a partition. -/
def State.eventRing (s : State) (k ring : Nat) : RecRing := nth (s.part k).eventRings ring {}

/-- The state with an event ring of a partition set. -/
def State.setEventRing (s : State) (k ring : Nat) (r : RecRing) : State :=
  s.setPart k { s.part k with eventRings := setNth (s.part k).eventRings ring r }

/-- The partition and its ring are there. -/
structure State.HasRing (s : State) (k ring : Nat) : Prop where
  part : k < s.parts.length
  ring : ring < (s.part k).eventRings.length

theorem State.eventRing_set {s : State} {k ring : Nat} (h : s.HasRing k ring) (r : RecRing) : (s.setEventRing k ring r).eventRing k ring = r := by
  unfold State.eventRing State.setEventRing
  rw [State.part_setPart _ _ _ h.part]
  exact nth_set_same _ _ _ _ h.ring

theorem State.hasRing_set {s : State} {k ring : Nat} (h : s.HasRing k ring) (r : RecRing) : (s.setEventRing k ring r).HasRing k ring where
  part := lt_of_lt_of_eq h.part (length_setNth _ _ _).symm
  ring := by
    unfold State.setEventRing
    rw [State.part_setPart _ _ _ h.part]
    exact lt_of_lt_of_eq h.ring (length_setNth _ _ _).symm

theorem State.hasRing_of_parts {s u : State} (e : u.parts = s.parts) {k ring : Nat} (h : s.HasRing k ring) : u.HasRing k ring where
  part := e ▸ h.part
  ring := by
    unfold State.part
    rw [e]
    exact h.ring

theorem State.eventRing_of_parts {s u : State} (e : u.parts = s.parts) (k ring : Nat) : u.eventRing k ring = s.eventRing k ring := by
  unfold State.eventRing State.part
  rw [e]

theorem State.signalEvents_eq (s : State) (k ring : Nat) : s.signalEvents k ring =
    (s.setEventRing k ring (s.eventRing k ring).signalled).signal (.msix k (s.eventRing k ring).vec.toNat) := rfl

theorem State.signalEvents_mem (s : State) (k ring : Nat) : (s.signalEvents k ring).mem = s.mem := rfl

theorem State.signalEvents_signals (s : State) (k ring : Nat) :
    (s.signalEvents k ring).signals = s.signals ++ [.msix k (s.eventRing k ring).vec.toNat] := rfl

theorem State.signalEvents_ring {s : State} {k ring : Nat} (h : s.HasRing k ring) :
    (s.signalEvents k ring).eventRing k ring = (s.eventRing k ring).signalled := by
  rw [s.signalEvents_eq]
  exact State.eventRing_set h _

/-- The state with the slice of a posted record freed, unless another record of it waits in the ring (R384). -/
def State.sliceFreed (s : State) (k : Nat) (b : List Byte) (r : RecRing) : State :=
  if r.waiting.any fun x => recordSlice x == recordSlice b then s else { s with slices := FMap.erase s.slices (sliceKey k (recordSlice b)) }

theorem State.sliceFreed_mem (s : State) (k : Nat) (b : List Byte) (r : RecRing) : (s.sliceFreed k b r).mem = s.mem := by
  unfold State.sliceFreed; split <;> rfl
theorem State.sliceFreed_signals (s : State) (k : Nat) (b : List Byte) (r : RecRing) : (s.sliceFreed k b r).signals = s.signals := by
  unfold State.sliceFreed; split <;> rfl
theorem State.sliceFreed_parts (s : State) (k : Nat) (b : List Byte) (r : RecRing) : (s.sliceFreed k b r).parts = s.parts := by
  unfold State.sliceFreed; split <;> rfl

/-- The state in which the oldest record of an event ring has been written to home memory and counted, before any signal. -/
def State.recordWritten (s : State) (k ring pa : Nat) (b : List Byte) : State :=
  let r := (s.eventRing k ring).counted (s.homeWrite pa b).ns
  ((s.homeWrite pa b).setEventRing k ring r).sliceFreed k b r

theorem State.postCompletion_home {s : State} {k ring pa : Nat} {b : List Byte} {rest : List (List Byte)}
    (first : (s.eventRing k ring).waiting = b :: rest) (place : s.eventPlace k (s.eventRing k ring) = some (.inl pa)) :
    s.postCompletion k ring =
      if max 1 (s.eventRing k ring).count ≤ (s.eventRing k ring).unsignalled + 1 then (s.recordWritten k ring pa b).signalEvents k ring
      else s.recordWritten k ring pa b := by
  rw [← (s.eventRing k ring).counted_count (s.homeWrite pa b).ns]
  unfold State.postCompletion
  rw [State.eventRing] at first place
  dsimp only
  rw [place, first]
  rfl

section Written
variable {s : State} {k ring pa : Nat} {b : List Byte}

theorem State.recordWritten_ring (there : s.HasRing k ring) :
    (s.recordWritten k ring pa b).eventRing k ring = (s.eventRing k ring).counted (s.homeWrite pa b).ns :=
  (State.eventRing_of_parts (State.sliceFreed_parts _ _ _ _) k ring).trans
    (State.eventRing_set (State.hasRing_of_parts (s.homeWrite_parts pa b) there) _)

theorem State.recordWritten_hasRing (there : s.HasRing k ring) : (s.recordWritten k ring pa b).HasRing k ring :=
  State.hasRing_of_parts (State.sliceFreed_parts _ _ _ _) (State.hasRing_set (State.hasRing_of_parts (s.homeWrite_parts pa b) there) _)

theorem State.recordWritten_mem : (s.recordWritten k ring pa b).mem = (s.homeWrite pa b).mem := State.sliceFreed_mem _ _ _ _

theorem State.recordWritten_signals : (s.recordWritten k ring pa b).signals = s.signals :=
  (State.sliceFreed_signals _ _ _ _).trans (s.homeWrite_signals pa b)

end Written

/-- A record for which there is a place in home memory is written there and counted; the ring is signalled when ECOUNT records wait for it. -/
theorem exec_eventRecordPost_home {s : State} {part ring : Fin 16} {pa : Nat} {b : List Byte} {rest : List (List Byte)}
    (there : s.HasRing part.val ring.val) (first : (s.eventRing part.val ring.val).waiting = b :: rest)
    (place : s.eventPlace part.val (s.eventRing part.val ring.val) = some (.inl pa)) :
    let r := s.eventRing part.val ring.val
    let r' := r.counted (s.homeWrite pa b).ns
    ∃ s', exec (.eventRecordPost part ring) s = .next s' ∧ s'.mem = (s.homeWrite pa b).mem ∧
      s'.eventRing part.val ring.val = (if max 1 r.count ≤ r.unsignalled + 1 then r'.signalled else r') ∧
      s'.signals = s.signals ++ if max 1 r.count ≤ r.unsignalled + 1 then [.msix part.val r.vec.toNat] else [] := by
  intro r r'
  have ringAfter : (s.recordWritten part.val ring.val pa b).eventRing part.val ring.val = r' := State.recordWritten_ring there
  refine ⟨s.postCompletion part.val ring.val, ?_, ?_⟩
  · change execEventRecordPost part ring s = _
    rfl
  rw [State.postCompletion_home first place]
  split
  · refine ⟨(State.signalEvents_mem _ _ _).trans State.recordWritten_mem, ?_, ?_⟩
    · rw [State.signalEvents_ring (State.recordWritten_hasRing there), ringAfter]
    · rw [State.signalEvents_signals, State.recordWritten_signals, ringAfter, RecRing.counted_vec]
  · exact ⟨State.recordWritten_mem, ringAfter, State.recordWritten_signals.trans (List.append_nil _).symm⟩

theorem exec_etimeExpiry (s : State) (part ring : Fin 16) : exec (.etimeExpiry part ring) s =
    .next (if s.etimeDue (s.eventRing part.val ring.val) then s.signalEvents part.val ring.val else s) := by
  change execEtimeExpiry part ring s = _
  rfl

/-! ## Units that cannot be run (R78, R96, R97) -/

theorem exec_unallocatedEncoding (step : DecStep) (s : State) : exec (.unallocatedEncoding step) s =
    .next (s.deliver (s.issue.allRaise (decodeFault step).1 (decodeFault step).2)) := by
  change execUnallocatedEncoding step s = _
  rfl

theorem exec_fetchFault (code : FetchCode) (a : BitVec 64) (s : State) : exec (.fetchFault code a) s =
    .next (s.deliver (s.issue.lift.map fun m => { course := m.1, lane := m.2, code := fetchFCode code, system := true })) := by
  change execFetchFault code a s = _
  rw [execFetchFault, Issue.allRaise, List.map_map]
  rfl

/-- Settles O51: each clause by what its event does, above. -/
theorem recordsAndBadUnits : Obligations.RecordsAndBadUnits := by
  unfold Obligations.RecordsAndBadUnits
  refine ⟨?fault, ?noMemory, ?event, ?timer, ?units⟩
  case fault =>
    intro s part b parts only noLog noDevice size can r at' e
    have long : (putBytes b 0x30 (leBytes 8 e)).length = 64 := by simp [putBytes, size]
    refine ⟨_, exec_faultRecordPost_single only noLog noDevice can, fun a => ?_, ?_, congrArg (· ++ _) (State.homeWrite_signals _ _ _)⟩
    · exact (State.homeWrite_nth long (s.readClock 0).1 a).trans (by rw [((sameHomes_readClock s 0).recalled at' 64).mem])
    · rw [State.part_setPart]
      · rfl
      · rw [State.signal_parts, State.homeWrite_parts]
        exact lt_of_lt_of_eq part.isLt parts.symm
  case noMemory =>
    exact fun s b rest waits h base room none => exec_faultRecordPost_noMemory (waits 0).1 (waits 0).2 h base room none
  case event =>
    intro s part ring b rest pa parts rings r first size place due
    have there : s.HasRing part.val ring.val := ⟨by omega, by omega⟩
    obtain ⟨s', posted, memory, ringAfter, signals⟩ := exec_eventRecordPost_home there first place
    refine ⟨s', _, posted, ringAfter, fun a => ?_, ?_, ?_, ?_, ?_⟩
    · rw [memory, State.homeWrite_nth size]
    · split <;> exact RecRing.counted_head r _
    · have left := (RecRing.counted_waiting r (s.homeWrite pa b).ns).trans (congrArg (List.drop 1) first)
      split <;> exact left
    · simp only [due, decide_eq_true_eq]
      exact (apply_ite RecRing.unsignalled _ _ _).trans (if_congr Iff.rfl rfl (RecRing.counted_unsignalled r _))
    · simp only [due, decide_eq_true_eq]
      exact signals
  case timer =>
    intro s part ring parts rings r
    have there : s.HasRing part.val ring.val := ⟨by omega, by omega⟩
    rw [exec_etimeExpiry]
    refine ⟨fun due => ?_, fun due => ⟨s.signalEvents part.val ring.val, ?_, rfl, State.signalEvents_ring there, rfl⟩⟩
    · rw [show s.eventRing part.val ring.val = r from rfl, due]; rfl
    · rw [show s.eventRing part.val ring.val = r from rfl, due]; rfl
  case units =>
    exact fun s => ⟨exec_unallocatedEncoding _ s, exec_unallocatedEncoding _ s, exec_unallocatedEncoding _ s, exec_unallocatedEncoding _ s,
      exec_unallocatedEncoding _ s, fun a => ⟨exec_fetchFault _ a s, exec_fetchFault _ a s, exec_fetchFault _ a s, exec_fetchFault _ a s⟩⟩

end Sys2Proof.Machine
end

section
/-!
SUPPORT. The work units (R131, R133, R134, R136, R139): each is one course's part of a uniform unit (`uniServes_of`), and so it is told by what it does to
the slices and what it writes. `workUnits` settles O19.
-/

namespace Sys2Proof.Machine

/-! ## Operands and results of a uniform unit -/

theorem pairOk_single {ty : Ty} {a : Src} (h : a.pairOk ty = true) : ∀ o ∈ [((ty, a) : Operand)], o.2.pairOk o.1 = true :=
  fun o ho => by rw [List.mem_singleton.mp ho]; exact h

theorem pairOk_none : ∀ o ∈ ([] : List Operand), o.2.pairOk o.1 = true := fun _ ho => absurd ho List.not_mem_nil

theorem ok_of_wfDA {ty : Ty} {n : Nat} {d : Fin 64} {a : Src} (h : wfDA ty n d a = true) : a.pairOk ty = true :=
  pairOk_of_ok (Bool.and_eq_true_iff.mp h).2

theorem pairOk_reg_of_even {d : Fin 64} (h : (d.val % 2 == 0) = true) (wide : Bool) : (Dst.reg d).pairOk wide = true := by
  simp only [Dst.pairOk, h, Bool.or_true]

/-- A unit that writes one 64-bit value to a pair of names. -/
theorem OneCourse.writes_pair {s : State} {t : Team} {c : Nat} (h : OneCourse s t c) {d : Fin 64} (even : (d.val % 2 == 0) = true) (v : W64) :
    Writes (fun y => y.writeUniform (courseIn s t 2 c) true (.reg d) v) (t.course c) (lanesIn s.issue.parts c) [d.val, d.val + 1] (wordOf d.val v) id :=
  writes_uniform (fit_of h) (pairOk_reg_of_even even true) v

/-- A unit that writes one word to a name. -/
theorem OneCourse.writes_word {s : State} {t : Team} {c : Nat} (h : OneCourse s t c) (d : Fin 64) {v : W64} {w : W32} (hw : lo32 v = w) :
    Writes (fun y => y.writeUniform (courseIn s t 2 c) false (.reg d) v) (t.course c) (lanesIn s.issue.parts c) [d.val] (fun _ => w) id := by
  refine ⟨fun srcs ls z hz hl hs => ?_⟩
  obtain ⟨written, row⟩ := (writes_uniform (fit_of h) (wide := false) (d := d) rfl v).wrote srcs ls z hz hl hs
  refine ⟨written, fun n hn l hl => ?_⟩
  have first : n = d.val := List.mem_singleton.mp hn
  exact (row n hn l hl).trans (by rw [wordOf, if_pos first, hw])

theorem lo32_nat64 (n : Nat) : lo32 (nat64 n) = BitVec.ofNat 32 n := by
  apply BitVec.eq_of_toNat_eq
  simp only [lo32, nat64, BitVec.toNat_setWidth, BitVec.toNat_ofNat]
  omega

theorem toNat_lo32 (v : W64) : (lo32 v).toNat = v.toNat % 2 ^ 32 := by
  simp only [lo32, BitVec.toNat_setWidth]

/-! ## The threads of a unit of one course -/

theorem OneCourse.part_live {s : State} {t : Team} {c : Nat} (h : OneCourse s t c) {l : Nat} (hl : l ∈ lanesIn s.issue.parts c) :
    l ∈ (t.course c).live := h.lifted.live _ (h.lifted.parts _ (mem_lanesIn.mp hl))

theorem OneCourse.threadAt {s : State} {t : Team} {c : Nat} (h : OneCourse s t c) {l : Nat} (hl : l ∈ lanesIn s.issue.parts c) :
    s.threadAt s.issue.team c l = some ((t.course c).thread l) := by
  obtain ⟨th, hth⟩ := mem_live_get (h.part_live hl)
  rw [State.threadAt_eq h.lifted.team (one_course h), Course.thread, hth, Option.getD_some]

/-- A release at .dv of threads without stamped stores waits for nothing (R247, R262). -/
theorem OneCourse.releaseActs {s : State} {t : Team} {c : Nat} (h : OneCourse s t c) (settled : s.settled t c false = true) (a : W64) :
    s.releaseActs (s.whoOf s.issue.team t c (lanesIn s.issue.parts c)) .dv a = (s.released t, none) := by
  have none : (s.released t).openStamps (s.whoOf s.issue.team t c (lanesIn s.issue.parts c)) = [] := by
    refine List.flatMap_eq_nil_iff.mpr fun th hth => ?_
    obtain ⟨l, hl, after⟩ := List.mem_filterMap.mp hth
    have before := List.all_eq_true.mp settled l hl
    rw [(calm_writeBackAll s t.core).stamps (h.threadAt hl) after]
    simpa using before
  have acts : s.releaseActs (s.whoOf s.issue.team t c (lanesIn s.issue.parts c)) .dv a =
      (s.released t, (s.released t).releaseStop (s.whoOf s.issue.team t c (lanesIn s.issue.parts c)) .dv a) := rfl
  rw [acts]
  simp [State.releaseStop, none, Scope.rank]

/-! ## chunk and capq (R131, R139) -/

/-- R131. -/
theorem chunk_serves (d : Fin 64) : UniServes (.chunk d) [] [d.val, d.val + 1] false fun s t _ _ =>
    (s.sliceOf t).map fun x =>
      let n := min x.chunkRem (max (max 1 (x.fieldAt 0x4C 4)) ((x.chunkRem + 2 * x.gridTeams - 1) / (2 * x.gridTeams)))
      (s.setSlice (sliceKey t.part t.slice) { x with chunkRem := x.chunkRem - n }, wordOf d.val (packed 32 (x.fieldAt 0x48 4 - x.chunkRem) n), id) := by
  refine uniServes_of (arrive := false) (fun _ => pairOk_none) (fun s => (rfl : execChunk d s = _)) fun wf s t c v s1 val upd one hv => ?_
  obtain ⟨x, hx, made⟩ := Option.map_eq_some_iff.mp hv
  cases made
  refine ⟨_, ?_, one.writes_pair wf _, kin_setSlice _ _ _⟩
  simp only [hx]
  rfl

/-- R139. -/
theorem capq_serves (d : Fin 64) (a : Src) : UniServes (.capq d a) [(.b32, a)] [d.val, d.val + 1] false fun s t _ v =>
    some (s, wordOf d.val (s.capEntry t.part (lo32 (v.headD 0)).toNat), id) := by
  refine uniServes_of (arrive := false) (fun wf => pairOk_single (ok_of_wfDA (d := d) wf)) (fun s => (rfl : execCapq d a s = _)) fun wf s t c v s1 val upd one hv => ?_
  cases hv
  exact ⟨_, by rw [toNat_lo32], one.writes_pair (Bool.and_eq_true_iff.mp wf).1 _, .refl s⟩

/-! ## dep.dec (R134) -/

theorem kin_decrement (s : State) (part num : Nat) : Kin s (s.decrement part num).1 := by
  unfold State.decrement
  dsimp only
  split
  · exact .refl s
  · split
    · exact .refl s
    · split
      · exact .refl s
      · dsimp only
        split <;> exact .of_eq rfl rfl rfl

/-- R134. -/
theorem depdec_serves (d : Fin 64) (a : Src) : UniServes (.depdec d a) [(.b32, a)] [d.val] false fun s t c v =>
    if s.settled t c false then
      let r := (s.released t).decrement t.part (lo32 (v.headD 0)).toNat
      some (r.1.acquired t, fun _ => BitVec.ofNat 32 (r.2.getD 0xFFFFFFFF), id)
    else none := by
  refine uniServes_of (arrive := false) (fun wf => pairOk_single (ok_of_wfDA (d := d) wf)) (fun s => (rfl : execDepdec d a s = _)) fun wf s t c v s1 val upd one hv => ?_
  dsimp only at hv
  split at hv
  next settled =>
    cases hv
    have acts := one.releaseActs settled s.issue.addr
    refine ⟨_, ?_, one.writes_word d (lo32_nat64 _), ((kin_writeBackAll s t.core).trans (kin_decrement _ _ _)).trans (kin_invalidateClean _ _)⟩
    dsimp only [courseIn]
    rw [acts, toNat_lo32]
    rfl
  next => cases hv

/-! ## slice (R133) -/

theorem kin_countPeriod (s : State) (x : Slice) (n : Nat) : Kin s (s.countPeriod x n) := kin_setPart _ _ _

theorem kin_eventRecord (s : State) (part ring : Nat) (b : List Byte) : Kin s (s.eventRecord part ring b) := .of_eq rfl rfl rfl

theorem kin_completeSlice (s : State) (key : Nat) (st : Status) : Kin s (s.completeSlice key st) := by
  unfold State.completeSlice
  split
  · exact .refl s
  next x _ =>
    have counted : Kin s (if st == .rejected || !x.ran then (s.endStamp x).1 else (s.endStamp x).1.countPeriod x (s.endStamp x).2) :=
      (kin_readClock s 0).trans (apply_ite_prop (.refl _) (kin_countPeriod _ _ _))
    dsimp only
    split
    · exact counted.before rfl rfl rfl
    · refine Kin.trans ?_ (.fold (fun s b => kin_eventRecord s _ _ b) _ _)
      exact counted.before rfl rfl rfl

theorem kin_createSlice (s : State) (part : Nat) (priv : Bool) (addr : W64) (record : List Byte) (f : Slice → Slice) :
    Kin s (s.createSlice part priv addr record f).1 := by
  unfold State.createSlice
  dsimp only
  split
  · exact .refl s
  · generalize f _ = x
    generalize made : State.setSlice _ _ x = u
    have set : Kin s u := made ▸ .of_eq rfl rfl rfl
    refine apply_ite_prop (p := fun r : State × Option Nat => Kin s r.1) (set.trans (kin_completeSlice _ _ _)) ?_
    exact apply_ite_prop (p := fun r : State × Option Nat => Kin s r.1) (set.trans (kin_due _ _)) set

/-- A remote home that answers has a plane that works (R380, R381). -/
theorem State.pathDown_of_remoteCheck {s : State} {part dev rpart pa n : Nat} (h : s.remoteCheck part dev rpart pa n = .ok ()) :
    s.pathDown dev = false := by
  by_cases own : dev = s.devNumber
  · simp [State.pathDown, own]
  · unfold State.remoteCheck at h
    rw [if_neg own] at h
    dsimp only at h
    split at h
    · cases h
    next up =>
      have ports : (s.ports == 0) = false := by
        simp only [Bool.or_eq_true, not_or, Bool.not_eq_true] at up
        exact up.2
      rw [State.pathDown, ports, Bool.and_false, Bool.false_and]

/-- What the device can read by a partition's tables waits for no plane (R380). -/
theorem State.planeWait_of_tableRead {s : State} {part : Nat} {user : Bool} (fuel : Nat) {va n : Nat} {b : List Byte}
    (h : s.tableRead part user va n fuel = .ok b) : s.planeWait part user .read va n fuel = none := by
  induction fuel generalizing va n b with
  | zero => rfl
  | succ fuel ih =>
    unfold State.tableRead at h
    unfold State.planeWait
    split at h
    next empty => rw [if_pos empty]
    next some =>
      rw [if_neg some]
      dsimp only at h ⊢
      split at h
      · cases h
      next x tr =>
        split at h
        · cases h
        next answers =>
          split at h
          · cases h
          · split at h
            · cases h
            next rest =>
              have later := ih rest
              cases remote : x.remote with
              | none => exact later
              | some r =>
                unfold State.homeAnswers at answers
                rw [remote] at answers
                have up := State.pathDown_of_remoteCheck answers
                dsimp only
                rw [up]
                exact later

/-- R133. -/
theorem slice_serves (d : Fin 64) (a : Src) : UniServes (.slice d a) [(.addr, a)] [d.val] false fun s t c v =>
    if s.settled t c false ∧ (v.headD 0).toNat % 64 = 0 then
      match (s.released t).tableRead t.part (!s.isPriv t) (v.headD 0).toNat 128 3 with
      | .ok b =>
        let r := (s.released t).createSlice t.part false (v.headD 0) b id
        some (r.1, fun _ => BitVec.ofNat 32 (r.2.getD 0xFFFFFFFF), id)
      | .error _ => none
    else none := by
  refine uniServes_of (arrive := false) (fun wf => pairOk_single (ok_of_wfDA (ty := .b64) (d := d) wf)) (fun s => (rfl : execSlice d a s = _))
    fun wf s t c v s1 val upd one hv => ?_
  dsimp only at hv
  split at hv
  next ready =>
    obtain ⟨settled, aligned⟩ := ready
    split at hv
    next b read =>
      cases hv
      have acts := one.releaseActs settled s.issue.addr
      have plane := State.planeWait_of_tableRead 3 read
      refine ⟨_, ?_, one.writes_word d (lo32_nat64 _), (kin_writeBackAll s t.core).trans (kin_createSlice _ _ _ _ _ _)⟩
      unfold State.submitFrom
      rw [if_neg (not_not.mpr aligned)]
      dsimp only [courseIn]
      rw [acts]
      have user : (s.whoOf s.issue.team t c (lanesIn s.issue.parts c)).user = !s.isPriv t := rfl
      dsimp only
      rw [user, plane, read]
    next => cases hv
  next => cases hv

/-! ## sleep (R136) -/

/-- The cycles that a thread sleeps: what it has left of a sleep before a save (R142), or the operand's. -/
def State.sleepCycles (s : State) (c l : Nat) (v : W64) : Nat :=
  match (s.threadAt s.issue.team c l).bind fun t => t.progress with
  | some k => k
  | none => v.toNat % 2 ^ 32

/-- What a sleep does for its course. -/
def State.sleepPart (s : State) (_ : Team) (c : Nat) (i : CourseIn) (vals : List W64) : State × SyncOut :=
  (s, { waits := (i.parts.filter fun l => s.sleepCycles c l (vals.headD 0) != 0).map fun l => (c, l, .sleep (s.sleepCycles c l (vals.headD 0))) })

theorem exec_sleep (a : Src) (s : State) : exec (.sleep a) s = s.uniSync [(.b32, a)] false true State.sleepPart :=
  (rfl : execSleep a s = _)

section Sleep
variable {s : State} {t : Team} {c : Nat} (h : OneCourse s t c)
  (fresh : ((lanesIn s.issue.parts c).all fun l => ((t.course c).thread l).progress.isNone) = true)
include h fresh

theorem OneCourse.sleepCycles (v : W64) {l : Nat} (hl : l ∈ lanesIn s.issue.parts c) : s.sleepCycles c l v = (lo32 v).toNat := by
  have none : ((t.course c).thread l).progress = none := Option.isNone_iff_eq_none.mp (List.all_eq_true.mp fresh l hl)
  rw [State.sleepCycles, h.threadAt hl, Option.bind_some, none, toNat_lo32]

/-- Threads that no save has interrupted go on where the operand is 0, -/
theorem OneCourse.sleepPart_zero {v : List W64} (zero : (lo32 (v.headD 0)).toNat = 0) : s.sleepPart t c (courseIn s t 2 c) v = (s, {}) := by
  have all : ((courseIn s t 2 c).parts.filter fun l => s.sleepCycles c l (v.headD 0) != 0) = [] :=
    List.filter_eq_nil_iff.mpr fun l hl => by rw [h.sleepCycles fresh _ hl, zero]; decide
  rw [State.sleepPart, all]
  rfl

/-- and sleep its cycles else. -/
theorem OneCourse.sleepPart_some {v : List W64} (some : (lo32 (v.headD 0)).toNat ≠ 0) : s.sleepPart t c (courseIn s t 2 c) v =
    (s, { waits := (lanesIn s.issue.parts c).map fun l => (c, l, Wait.sleep (lo32 (v.headD 0)).toNat) }) := by
  have all : ((courseIn s t 2 c).parts.filter fun l => s.sleepCycles c l (v.headD 0) != 0) = (courseIn s t 2 c).parts :=
    List.filter_eq_self.mpr fun l hl => by rw [h.sleepCycles fresh _ hl]; exact bne_iff_ne.mpr some
  rw [State.sleepPart, all]
  refine congrArg (fun w => (s, ({ waits := w } : SyncOut))) (List.map_congr_left fun l hl => ?_)
  rw [h.sleepCycles fresh _ hl]

end Sleep

/-- R136: a sleep of 0 cycles goes on. -/
theorem sleep_serves (a : Src) : UniServes (.sleep a) [(.b32, a)] [] false fun s t c v =>
    if lo32 (v.headD 0) = 0 ∧ (lanesIn s.issue.parts c).all (fun l => ((t.course c).thread l).progress.isNone) then some (s, fun _ => 0, id)
    else none := by
  refine uniServes_of (fun wf => pairOk_single (pairOk_of_ok wf)) (exec_sleep a) fun wf s t c v s1 val upd one hv => ?_
  split at hv
  next idle =>
    obtain ⟨zero, fresh⟩ := idle
    cases hv
    refine ⟨id, ?_, writes_none _ _ _, .refl s⟩
    exact one.sleepPart_zero fresh (congrArg BitVec.toNat zero)
  next => cases hv

/-- Settles O19: each unit by what it does to the slices and what it writes. -/
theorem workUnits : Obligations.WorkUnits := by
  unfold Obligations.WorkUnits
  exact fun d a => ⟨chunk_serves d, depdec_serves d a, slice_serves d a, capq_serves d a, sleep_serves a⟩

end Sys2Proof.Machine
end

section
/-!
SUPPORT. Special registers (R137, R138), and the threads that a write of HALT stops with its own (R376). `specialRegisters` settles O20.
-/

namespace Sys2Proof.Machine

/-! ## The threads a stop names (R376) -/

/-- The threads of a team, by place. -/
def Team.refs (k : Nat) (t : Team) : List ThreadRef := t.courses.flatMap fun q => q.2.threads.map fun p => ⟨k, q.1, p.1⟩

theorem Team.mem_refs {k : Nat} {t : Team} {r : ThreadRef} {x : Course} {th : Thread} (hk : r.team = k) (hx : FMap.get t.courses r.course = some x)
    (hth : FMap.get x.threads r.lane = some th) : r ∈ t.refs k :=
  List.mem_flatMap.mpr ⟨_, FMap.mem_of_get hx, List.mem_map.mpr ⟨_, FMap.mem_of_get hth, by rw [← hk]⟩⟩

theorem Team.team_of_mem_refs {k : Nat} {t : Team} {r : ThreadRef} (h : r ∈ t.refs k) : r.team = k := by
  obtain ⟨q, -, hq⟩ := List.mem_flatMap.mp h
  obtain ⟨p, -, rfl⟩ := List.mem_map.mp hq
  rfl

/-- The threads a stop of a mode names, before the one that stops is taken out. -/
def State.stopNames (s : State) (t : Team) (tk c mode : Nat) : List ThreadRef :=
  match mode with
  | 1 => []
  | 2 => (t.course c).threads.map fun p => ⟨tk, c, p.1⟩
  | 0 => t.refs tk
  | _ => s.teams.flatMap fun q => if q.2.part == t.part then q.2.refs q.1 else []

theorem State.stopSet_eq {s : State} {t : Team} {tk : Nat} (ht : FMap.get s.teams tk = some t) (c l mode : Nat) :
    s.stopSet tk c l mode = (s.stopNames t tk c mode).filter fun x => !(x == ⟨tk, c, l⟩) := by
  unfold State.stopSet
  rw [ht]
  rfl

theorem State.mem_stopSet {s : State} {t : Team} {tk : Nat} (ht : FMap.get s.teams tk = some t) {c l mode : Nat} {r : ThreadRef} :
    r ∈ s.stopSet tk c l mode ↔ r ≠ ⟨tk, c, l⟩ ∧ r ∈ s.stopNames t tk c mode := by
  rw [State.stopSet_eq ht, List.mem_filter, and_comm]
  simp

section Stop
variable {s : State} {r : ThreadRef} {th : Thread} (hr : s.threadAt r.team r.course r.lane = some th)
include hr

/-- A thread has its team and its course. -/
theorem State.threadAt_some : ∃ t x, FMap.get s.teams r.team = some t ∧ FMap.get t.courses r.course = some x ∧ FMap.get x.threads r.lane = some th := by
  obtain ⟨x, hx, hth⟩ := Option.bind_eq_some_iff.mp hr
  obtain ⟨t, ht, hx⟩ := Option.bind_eq_some_iff.mp hx
  exact ⟨t, x, ht, hx, hth⟩

theorem State.mem_stopNames_partition (t : Team) (tk c : Nat) {u : Team} (hu : FMap.get s.teams r.team = some u) (same : u.part = t.part) :
    r ∈ s.stopNames t tk c 3 := by
  obtain ⟨u', x, hu', hx, hth⟩ := State.threadAt_some hr
  obtain rfl := Option.some.inj (hu.symm.trans hu')
  refine List.mem_flatMap.mpr ⟨_, FMap.mem_of_get hu, ?_⟩
  rw [if_pos (beq_iff_eq.mpr same)]
  exact Team.mem_refs rfl hx hth

variable {t : Team} {tk : Nat} (ht : FMap.get s.teams tk = some t)
include ht

theorem State.mem_stopNames_course (c : Nat) : r ∈ s.stopNames t tk c 2 ↔ r.team = tk ∧ r.course = c := by
  constructor
  · intro h
    obtain ⟨p, -, rfl⟩ := List.mem_map.mp h
    exact ⟨rfl, rfl⟩
  · rintro ⟨rfl, rfl⟩
    obtain ⟨u, x, hu, hx, hth⟩ := State.threadAt_some hr
    obtain rfl := Option.some.inj (ht.symm.trans hu)
    refine List.mem_map.mpr ⟨(r.lane, th), FMap.mem_of_get ?_, rfl⟩
    rw [Team.course, hx]
    exact hth

theorem State.mem_stopNames_team (c : Nat) : r ∈ s.stopNames t tk c 0 ↔ r.team = tk := by
  refine ⟨Team.team_of_mem_refs, ?_⟩
  rintro rfl
  obtain ⟨u, x, hu, hx, hth⟩ := State.threadAt_some hr
  obtain rfl := Option.some.inj (ht.symm.trans hu)
  exact Team.mem_refs rfl hx hth

end Stop

/-! ## What a stop makes of a thread -/

/-- What a stop leaves of a thread: HALT is set where it is one that stops; its place, its wait and its registers stay. -/
def Thread.Stops (hit : Prop) [Decidable hit] (th th' : Thread) : Prop :=
  ∃ sv m by' st, th' = { th with saved := sv, monitor := m, haltedBy := by', struck := st, tsw := if hit then th.tsw ||| haltBit else th.tsw }

theorem Thread.Stops.trans {p q r : Prop} [Decidable p] [Decidable q] [Decidable r] {a b c : Thread} (h : a.Stops p b) (k : b.Stops q c)
    (e : r ↔ p ∨ q) : a.Stops r c := by
  obtain ⟨_, _, _, _, rfl⟩ := h
  obtain ⟨sv, m, by', st, rfl⟩ := k
  refine ⟨sv, m, by', st, ?_⟩
  by_cases hp : p <;> by_cases hq : q <;> simp [e, hp, hq, BitVec.or_assoc]

theorem Thread.Stops.none {p : Prop} [Decidable p] (hp : ¬ p) (th : Thread) (sv : List SavedLatch) (m : Option Monitor) :
    th.Stops p { th with saved := sv, monitor := m } := ⟨sv, m, th.haltedBy, th.struck, by rw [if_neg hp]⟩

theorem Course.get_keepLatch_any {x : Course} {m : Nat} {th : Thread} (h : FMap.get x.threads m = some th) (pipe : Fin 4) (l : Nat) :
    ∃ sv, FMap.get (x.keepLatch pipe l).threads m = some { th with saved := sv } := by
  unfold Course.keepLatch
  rw [Course.onThreads_get, h, Option.map_some]
  split
  · exact ⟨_, rfl⟩
  · exact ⟨th.saved, rfl⟩

/-- A thread that leaves its group's hold changes no thread but in the latches saved with it (R367). -/
theorem State.threadAt_leaveHold_any {s : State} {uk d m : Nat} {th : Thread} (h : s.threadAt uk d m = some th) (tk c l : Nat) :
    ∃ sv, (s.leaveHold tk c l).threadAt uk d m = some { th with saved := sv } := by
  have kept (u : State) (hu : u.teams = s.teams) (pipe : Fin 4) :
      ∃ sv, (u.onCourse tk c fun x => x.keepLatch pipe l).threadAt uk d m = some { th with saved := sv } := by
    have h' : u.threadAt uk d m = some th := by rw [State.threadAt, hu]; exact h
    rw [State.threadAt_onCourse]
    split
    next here =>
      obtain ⟨rfl, rfl⟩ := here
      obtain ⟨x, hx, hth⟩ := Option.bind_eq_some_iff.mp h'
      obtain ⟨sv, hsv⟩ := Course.get_keepLatch_any hth pipe l
      exact ⟨sv, by rw [hx, Option.bind_some, hsv]⟩
    next => exact ⟨th.saved, h'⟩
  unfold State.leaveHold
  split
  · exact ⟨th.saved, h⟩
  · dsimp only
    split
    · split
      · rw [State.threadAt_onThread]
        split
        next here =>
          obtain ⟨rfl, rfl, rfl⟩ := here
          rw [h]
          exact ⟨_, rfl⟩
        next => exact ⟨th.saved, h⟩
      · exact ⟨th.saved, h⟩
    all_goals exact kept _ rfl _

theorem State.leaveHold_agenda (s : State) (tk c l : Nat) : (s.leaveHold tk c l).agenda = s.agenda := by
  unfold State.leaveHold
  split
  · rfl
  · dsimp only
    split
    · split <;> rfl
    all_goals rfl

theorem calm_noteTsw (s : State) (tk c l : Nat) : Calm s (s.noteTsw tk c l) := by
  unfold State.noteTsw
  split
  · split
    · split
      · exact calm_teamWrite _ _ _ _
      · exact .refl s
    · exact .refl s
  · exact .refl s

/-- A thread that a stop with a token halts (R376); a pending mwait of it is struck (R294). -/
def Thread.stop (token : Nat) (t : Thread) : Thread :=
  { t with tsw := t.tsw ||| haltBit, haltedBy := if t.halted then t.haltedBy else token,
           struck := match t.wait with | .mwait _ _ => true | _ => t.struck }

/-- The stop of one thread. -/
def State.stopOne (token : Nat) (s : State) (x : ThreadRef) : State :=
  ((s.leaveHold x.team x.course x.lane).onThread x.team x.course x.lane (Thread.stop token)).noteTsw x.team x.course x.lane

/-- The teams that a stop freezes. -/
def State.freeze (s : State) (ks : List Nat) : State :=
  { s with teams := s.teams.map fun p => if ks.contains p.1 then (p.1, { p.2 with frozen := true }) else p }

theorem State.stopThreads_eq (s : State) (xs : List ThreadRef) (freeze : Bool) (tk token : Nat) :
    s.stopThreads xs freeze tk token =
      if freeze then (xs.foldl (State.stopOne token) s).freeze (tk :: xs.map fun x => x.team) else xs.foldl (State.stopOne token) s := rfl

theorem State.threadAt_freeze (s : State) (ks : List Nat) (uk d m : Nat) : (s.freeze ks).threadAt uk d m = s.threadAt uk d m := by
  have team : FMap.get (s.freeze ks).teams uk = (FMap.get s.teams uk).map fun t => if ks.contains uk then { t with frozen := true } else t :=
    map_ite_get s.teams (fun k => ks.contains k) (fun _ t => { t with frozen := true }) uk
  rw [State.threadAt, State.threadAt, team]
  cases FMap.get s.teams uk with
  | none => rfl
  | some t =>
    simp only [Option.map_some, Option.bind_some]
    split <;> rfl

section Stops
variable {s : State} {r : ThreadRef} {th : Thread} (hr : s.threadAt r.team r.course r.lane = some th)
include hr

theorem State.threadAt_stopOne (token : Nat) (x : ThreadRef) :
    ∃ th', (s.stopOne token x).threadAt r.team r.course r.lane = some th' ∧ th.Stops (r = x) th' := by
  obtain ⟨sv, left⟩ := State.threadAt_leaveHold_any hr x.team x.course x.lane
  have calm := calm_noteTsw ((s.leaveHold x.team x.course x.lane).onThread x.team x.course x.lane (Thread.stop token)) x.team x.course x.lane
  by_cases e : r = x
  · subst e
    obtain ⟨m, after⟩ := calm.threads r.team r.course r.lane _
      ((State.threadAt_onThread _ _ _ _ _ _ _ _).trans (by rw [if_pos ⟨rfl, rfl, rfl⟩, left, Option.map_some]))
    exact ⟨_, after, _, _, _, _, by rw [if_pos rfl]; rfl⟩
  · have other : ¬ (r.team = x.team ∧ r.course = x.course ∧ r.lane = x.lane) := by
      rintro ⟨h1, h2, h3⟩
      exact e (by cases r; cases x; simp_all)
    obtain ⟨m, after⟩ := calm.threads r.team r.course r.lane _ ((State.threadAt_onThread _ _ _ _ _ _ _ _).trans (by rw [if_neg other, left]))
    exact ⟨_, after, .none e th sv m⟩

/-- The threads named have HALT set, and every thread keeps its unit and its wait. -/
theorem State.threadAt_stopThreads (xs : List ThreadRef) (freeze : Bool) (tk token : Nat) :
    ∃ th', (s.stopThreads xs freeze tk token).threadAt r.team r.course r.lane = some th' ∧ th.Stops (r ∈ xs) th' := by
  have stopped : ∃ th', (xs.foldl (State.stopOne token) s).threadAt r.team r.course r.lane = some th' ∧ th.Stops (r ∈ xs) th' := by
    induction xs generalizing s th with
    | nil => exact ⟨th, hr, .none List.not_mem_nil th th.saved th.monitor⟩
    | cons x xs ih =>
      obtain ⟨th1, at1, st1⟩ := State.threadAt_stopOne hr token x
      obtain ⟨th2, at2, st2⟩ := ih at1
      exact ⟨th2, at2, st1.trans st2 List.mem_cons⟩
  rw [State.stopThreads_eq]
  split
  · rw [State.threadAt_freeze]
    exact stopped
  · exact stopped

end Stops

/-! ## sget (R137) -/

theorem writes_sreg {s : State} {t : Team} {c : Nat} (h : OneCourse s t c) {d : Fin 64} {r : SReg}
    (wf : WellFormed (.sget d r) = true) (v : W64) :
    Writes (fun y => y.writeUniform (courseIn s t 2 c) r.w64 (.reg d) v) (t.course c) (lanesIn s.issue.parts c)
      (if r.w64 then [d.val, d.val + 1] else [d.val]) (wordOf d.val v) id :=
  writes_uniform (fit_of h) (show (Dst.reg d).pairOk r.w64 = true from wf) v

/-- R137: the value of the register for the leader; sr.clkw is for a privileged team. -/
theorem sget_serves (d : Fin 64) (r : SReg) : UniServes (.sget d r) [] (if r.w64 then [d.val, d.val + 1] else [d.val]) false fun s t c _ =>
    if r = .clkw ∧ s.isPriv t = false then none
    else some (s, wordOf d.val (s.sregValue t ((t.course c).thread (s.leader c)) r), id) := by
  refine uniServes_of (arrive := false) (fun _ => pairOk_none) (fun s => (rfl : execSget d r s = _)) fun wf s t c v s1 val upd one hv => ?_
  split at hv
  · cases hv
  next allowed =>
    cases hv
    refine ⟨_, ?_, writes_sreg one wf _, .refl s⟩
    have go : (r == .clkw && !s.isPriv t) = false := by
      simpa using allowed
    rw [go]
    rfl

/-! ## sset (R137, R138, R376) -/

theorem writeTsw_halt_priv (old v : W32) : (writeTsw old v true).getLsbD 30 = v.getLsbD 30 := by
  simp [writeTsw]

theorem writeTsw_halt_user (old v : W32) : (writeTsw old v false).getLsbD 30 = old.getLsbD 30 := by
  unfold writeTsw
  split <;> simp [readFreeBit]

theorem writeTsw_stopMode (old v : W32) : fld (writeTsw old v true).toNat 28 2 = v.toNat / 2 ^ 28 % 4 := by
  have high : writeTsw old v true >>> 28 = v >>> 28 := by
    apply BitVec.eq_of_getLsbD_eq
    intro i hi
    rw [BitVec.getLsbD_ushiftRight, BitVec.getLsbD_ushiftRight]
    by_cases h : i < 4
    · interval_cases i <;> simp [writeTsw]
    · rw [BitVec.getLsbD_of_ge _ (28 + i) (by omega), BitVec.getLsbD_of_ge _ (28 + i) (by omega)]
  have e := congrArg (fun w : W32 => w.toNat % 4) high
  simpa [fld, Nat.shiftRight_eq_div_pow] using e

/-- The threads that a write of sr.tsw halts: none, but for a privileged write of HALT, which halts those that are not yet. -/
def haltedLanes (x : Course) (ls : List Nat) (v : W32) (priv : Bool) : List Nat :=
  if priv = true ∧ v.getLsbD 30 = true then ls.filter fun l => !(x.thread l).halted else []

theorem haltedLanes_eq (x : Course) (ls : List Nat) (v : W32) (priv : Bool) :
    (ls.filter fun l => !(x.thread l).halted && (writeTsw (x.thread l).tsw v priv).getLsbD 30) = haltedLanes x ls v priv := by
  unfold haltedLanes
  cases priv
  · rw [if_neg (by simp)]
    refine List.filter_eq_nil_iff.mpr fun l _ => ?_
    rw [writeTsw_halt_user]
    simp [Thread.halted]
  · simp only [writeTsw_halt_priv, true_and]
    split
    next halt => simp only [halt, Bool.and_true]
    next stay =>
      refine List.filter_eq_nil_iff.mpr fun l _ => ?_
      rw [Bool.eq_false_of_not_eq_true stay, Bool.and_false]
      exact Bool.false_ne_true

/-- R138, R376: what a write of sr.tsw does beside its own threads. -/
theorem State.writeSreg_tsw (s : State) (t : Team) (c : Nat) (ls : List Nat) (v : W64) (priv : Bool) :
    s.writeSreg t c ls .tsw v priv = ((haltedLanes (t.course c) ls (lo32 v) priv).foldl (fun u l =>
        u.stopThreads (u.stopSet s.issue.team c l ((lo32 v).toNat / 2 ^ 28 % 4))
          ((lo32 v).toNat / 2 ^ 28 % 4 == 0 || (lo32 v).toNat / 2 ^ 28 % 4 == 3) s.issue.team 0) s,
      fun th => { th with tsw := writeTsw th.tsw (lo32 v) priv }) := by
  refine Prod.ext ?_ rfl
  change (ls.filter fun l => !((t.course c).thread l).halted && (writeTsw ((t.course c).thread l).tsw (lo32 v) priv).getLsbD 30).foldl
    (fun u l => u.stopThreads (u.stopSet s.issue.team c l (fld (writeTsw ((t.course c).thread l).tsw (lo32 v) priv).toNat 28 2))
      (fld (writeTsw ((t.course c).thread l).tsw (lo32 v) priv).toNat 28 2 == 0 ||
        fld (writeTsw ((t.course c).thread l).tsw (lo32 v) priv).toNat 28 2 == 3) s.issue.team 0) s = _
  rw [haltedLanes_eq]
  cases priv
  · rfl
  · simp only [writeTsw_stopMode]

theorem kin_writeSreg (s : State) (t : Team) (c : Nat) (ls : List Nat) (r : SReg) (v : W64) (priv : Bool) :
    Kin s (s.writeSreg t c ls r v priv).1 := by
  cases r with
  | tsw => exact State.writeSreg_tsw s t c ls v priv ▸ .fold (fun u l => kin_stopThreads u _ _ _ _) _ s
  | trapbase => exact kin_modify s _ _ fun t => .of_eq rfl
  | clkw => exact .of_eq rfl rfl rfl
  | _ => exact .refl s

theorem UniServes.congr {i : Instr} {srcs : List Operand} {regs : List Nat} {b3 : Bool} {work work' : Work} (h : UniServes i srcs regs b3 work)
    (e : ∀ s t c v, work s t c v = work' s t c v) : UniServes i srcs regs b3 work' := by
  have same : work = work' := by
    funext s t c v
    exact e s t c v
  exact same ▸ h

/-- R137: the write of a register, or nothing where it is read-only; sr.clkw is for a privileged team. -/
theorem sset_serves (r : SReg) (b : Src) : UniServes (.sset r b) [(if r.w64 then .b64 else .b32, b)] [] false fun s t c v =>
    if r = .clkw ∧ s.isPriv t = false then none
    else
      let w := s.writeSreg t c (lanesIn s.issue.parts c) r (v.headD 0) (s.isPriv t)
      some (w.1, fun _ => 0, w.2) := by
  refine uniServes_of (arrive := false) (fun wf => pairOk_single (pairOk_of_ok wf)) (fun s => (rfl : execSset r b s = _))
    fun wf s t c v s1 val upd one hv => ?_
  split at hv
  · cases hv
  next allowed =>
    cases hv
    refine ⟨_, ?_, writes_threads _ _ _ _, kin_writeSreg _ _ _ _ _ _ _⟩
    have go : (r == .clkw && !s.isPriv t) = false := by
      simpa using allowed
    dsimp only
    rw [go]
    rfl

/-- Settles O20: reading and writing by `State.sregValue` and `State.writeSreg`; the stop by what it does to each thread. -/
theorem specialRegisters : Obligations.SpecialRegisters := by
  unfold Obligations.SpecialRegisters
  refine ⟨fun d r => ?_, fun r b => ?_, fun s tk c l t r th ht hr => ⟨?_, ?_, ?_, fun u hu same ne => ?_⟩, fun s xs freeze tk token r th hr => ?_⟩
  · exact sget_serves d r
  · refine (sset_serves r b).congr fun s t c v => ?_
    cases r with
    | tsw =>
      rw [if_neg (fun e => nomatch e.1)]
      dsimp only
      rw [State.writeSreg_tsw]
      rfl
    | clkw =>
      dsimp only
      cases s.isPriv t <;> rfl
    | _ => exact if_neg fun e => nomatch e.1
  · rw [State.stopSet_eq ht]
    rfl
  · rw [State.mem_stopSet ht, State.mem_stopNames_course hr ht]
  · rw [State.mem_stopSet ht, State.mem_stopNames_team hr ht]
  · exact (State.mem_stopSet ht).mpr ⟨ne, State.mem_stopNames_partition hr t tk c hu same⟩
  · obtain ⟨th', after, sv, m, by', st, rfl⟩ := State.threadAt_stopThreads hr xs freeze tk token
    exact ⟨_, after, rfl, rfl, rfl⟩

end Sys2Proof.Machine
end

section
/-!
SUPPORT. Uniform units whose threads stay at them, waiting or to take a fault (R63, R135, R136, R140, R294). `waitingUnits` settles O33.
-/

namespace Sys2Proof.Machine

/-! ## A course whose threads change after its unit -/

theorem Course.onThreads_regRow (y : Course) (ls : List Nat) (f : Nat → Thread → Thread) (n l : Nat) : regRow (y.onThreads ls f) n l = regRow y n l := by
  rw [regRow, regRow, y.onThreads_live]
  rfl

/-- Threads change after the frame is settled. -/
theorem CourseFrame.onThreads {x y : Course} {regs ents lanes lasts lift : List Nat} {pipes : Nat → Prop} {u : Nat → Thread → Thread}
    (h : CourseFrame x y regs ents lanes lasts lift pipes u) (ls : List Nat) {f : Thread → Thread} (hf : Blind f) :
    CourseFrame x (y.onThreads ls fun _ => f) regs ents lanes lasts lift pipes fun l th => if ls.contains l then f (u l th) else u l th where
  live := (y.onThreads_live ls _).trans h.live
  kept n k hk h1 h2 := by
    obtain ⟨row, free⟩ := h.kept n k hk h1 h2
    exact ⟨(y.onThreads_regRow ls _ n k).trans row, free⟩
  last n hn k hk hv hw := by
    obtain ⟨row, free⟩ := h.last n hn k hk hv hw
    exact ⟨(y.onThreads_regRow ls _ n k).trans row, free⟩
  entries := h.entries
  latches := h.latches
  threads l th hth := by
    obtain ⟨sv, e, keeps⟩ := h.threads l th hth
    refine ⟨sv, ?_, fun z hz => keeps z ?_⟩
    · rw [y.onThreads_get, e, Option.map_some]
      split
      · rw [hf]
      · rfl
    · split at hz
      · rwa [hf.saved] at hz
      · exact hz
  rest := h.rest

theorem onThreads_none (x : Course) (f : Nat → Thread → Thread) : x.onThreads [] f = x :=
  congrArg (fun ths => ({ x with threads := ths } : Course)) (List.map_id x.threads)

/-- Lanes that change alike, one before the others. -/
theorem Course.onThreads_cons {f : Thread → Thread} (idem : ∀ th, f (f th) = f th) (a : Nat) (ls : List Nat) (x : Course) :
    (x.atLane a f).onThreads ls (fun _ => f) = x.onThreads (a :: ls) fun _ => f := by
  refine congrArg (fun ths => ({ x with threads := ths } : Course)) ?_
  refine (List.map_map ..).trans (List.map_congr_left fun p _ => ?_)
  by_cases here : p.1 = a
  · by_cases later : a ∈ ls <;> simp [here, later, idem]
  · simp [here]

/-- Whether a thread has waited at its unit, when it waits `w` there: an lda notes that it has. -/
def Wait.notes (w : Wait) (before : Bool) : Bool := match w with | .lda _ _ => true | _ => before

theorem Wait.notes_of_ne_lda {w : Wait} (hw : ∀ a b, w ≠ .lda a b) (before : Bool) : w.notes before = before := by
  cases w with
  | lda a b => exact absurd rfl (hw a b)
  | _ => rfl

/-- A thread of the issuing team waits (R32). -/
def State.stayAt (s : State) (x : Nat × Nat × Wait) : State :=
  (s.await [(x.1, x.2.1)] x.2.2).onThread s.issue.team x.1 x.2.1 fun t => { t with waited := x.2.2.notes t.waited }

theorem State.finishWith_eq (s : State) (o : MemOut) : s.finishWith o =
    (State.retire (o.waits.foldl State.stayAt s)
      ((without (o.waits.foldl State.stayAt s).issue.lift o.reqs).filter fun m => !o.waits.any fun x => x.1 == m.1 && x.2.1 == m.2)
      (o.waits.foldl State.stayAt s).issue.next).deliver o.reqs := rfl

theorem State.stayAt_of_ne_lda {w : Wait} (hw : ∀ a b, w ≠ .lda a b) (s : State) (c l : Nat) :
    s.stayAt (c, l, w) = s.onCourse s.issue.team c fun x => x.atLane l (Thread.waits w s.issue.len) := by
  simp only [State.stayAt, Wait.notes_of_ne_lda hw, State.await, List.foldl_cons, List.foldl_nil, State.onThread, onCourse_onCourse, FMap.modify_modify]
  rfl

theorem State.foldl_stayAt {w : Wait} (hw : ∀ a b, w ≠ .lda a b) (s : State) (c : Nat) (ls : List Nat) (g : Course → Course) :
    (ls.map fun l => (c, l, w)).foldl State.stayAt (s.onCourse s.issue.team c g) =
      s.onCourse s.issue.team c fun x => (g x).onThreads ls fun _ => Thread.waits w s.issue.len := by
  induction ls generalizing g with
  | nil => exact congrArg (s.onCourse _ c) (funext fun x => (onThreads_none (g x) _).symm)
  | cons l ls ih =>
    rw [List.map_cons, List.foldl_cons, State.stayAt_of_ne_lda hw]
    refine (congrArg (List.foldl _ · _) (onCourse_onCourse s _ c _ _)).trans ((ih _).trans ?_)
    refine congrArg (s.onCourse _ c) (funext fun x => ?_)
    exact Course.onThreads_cons (f := Thread.waits w s.issue.len) (fun _ => rfl) l ls (g x)

/-! ## The end of a unit at which all participating threads stay -/

section Stay
variable {s : State} {t : Team} {c : Nat} (h : OneCourse s t c)
include h

theorem OneCourse.course_of_mem {m : Nat × Nat} (hm : m ∈ s.issue.lift) : m.1 = c := by
  have mem := mem_coursesOf.mpr ⟨m, hm, rfl⟩
  rw [h.one] at mem
  exact List.mem_singleton.mp mem

theorem OneCourse.leader_mem : s.leader c ∈ lanesIn s.issue.parts c := by
  have acts := h.acts
  unfold State.leader
  cases lanes : lanesIn s.issue.parts c with
  | nil => exact absurd lanes acts
  | cons a r => exact List.mem_cons_self

/-- The members of the lift that are not at the lanes of its participating threads are those whose guard is false. -/
theorem OneCourse.filter_parts {p : Nat × Nat → Bool} (hp : ∀ m, m.1 = c → p m = (lanesIn s.issue.parts c).contains m.2) :
    (s.issue.lift.filter fun m => !p m) = s.issue.falseParts :=
  List.filter_congr fun m hm => by
    have here := h.course_of_mem hm
    rw [hp m here, contains_lanesIn, ← here]

/-- Where the course has become `g` of what it was, and the threads whose guard is false go on. -/
theorem OneCourse.stays {srcs : List Operand} {lanes : Nat → List Nat} {ps : List Nat} {upd : Nat → Nat → Thread → Thread} {g : Course → Course}
    (fr : CourseFrame (t.course c) (g (t.course c)) [] [] [] (lastOf srcs) (lanes c) (· ∈ ps)
      fun l th => if (lanesIn s.issue.parts c).contains l then upd c l th else th) :
    Stays s ((s.onCourse s.issue.team c g).retire s.issue.falseParts s.issue.next) t srcs lanes ps (fun _ m => m) upd := by
  have changed : FMap.get (s.onCourse s.issue.team c g).teams s.issue.team = some { t with courses := FMap.modify t.courses c g } := by
    rw [onCourse_get, h.lifted.team]
    rfl
  have same : (s.onCourse s.issue.team c g).issue = s.issue := rfl
  rw [retire_eq]
  refine ⟨rfl, ⟨onwardAll (FMap.modify t.courses c g) s.issue.falseParts s.issue.next s.cycle, ?_, fun k hk => ?_, fun k hk => ?_⟩, fun k hk => ?_, rfl,
    fun _ _ => rfl, rfl⟩
  · dsimp only
    rw [same, FMap.get_modify_same, changed]
    rfl
  · have out : lanesIn s.issue.falseParts k = [] := List.eq_nil_iff_forall_not_mem.mpr fun l hl =>
      hk (mem_coursesOf.mpr ⟨_, (mem_falseParts.mp (mem_lanesIn.mp hl)).1, rfl⟩)
    have other : k ≠ c := fun e => hk (by rw [e]; exact one_mem h)
    rw [onwardAll_get, FMap.get_modify_ne _ _ other, out]
    simp only [onward_nil, Option.map_id']
  · rw [h.one, List.mem_singleton] at hk
    subst hk
    have convs : (g (t.course k)).convs = (t.course k).convs := fr.rest.2.2.2.2.2.2
    refine ⟨(g (t.course k)).onward (lanesIn s.issue.falseParts k) s.issue.next s.cycle, ?_, convs, ?_⟩
    · rw [onwardAll_get, FMap.get_modify_same, one_course h]
      rfl
    · rw [← convs]
      refine (onward_frame fr s.issue.next s.cycle).congr fun l th _ => ?_
      simp only [contains_lanesIn, List.contains_iff_mem, mem_falseParts]
      by_cases part : (k, l) ∈ s.issue.parts
      · simp only [part, not_true, and_false, if_false, if_true]
      · simp only [part, not_false_eq_true, and_true, if_false]
  · dsimp only
    rw [same, FMap.get_modify_ne _ _ hk, onCourse_get_ne _ _ _ hk]

/-- Where they wait. -/
theorem OneCourse.finishWith_waits (g : Course → Course) {w : Wait} (hw : ∀ a b, w ≠ .lda a b) :
    (s.onCourse s.issue.team c g).finishWith { waits := (lanesIn s.issue.parts c).map fun l => (c, l, w) } =
      (s.onCourse s.issue.team c fun x => (g x).onThreads (lanesIn s.issue.parts c) fun _ => Thread.waits w s.issue.len).retire
        s.issue.falseParts s.issue.next := by
  have going : (s.issue.lift.filter fun m => !((lanesIn s.issue.parts c).map fun l => (c, l, w)).any fun x => x.1 == m.1 && x.2.1 == m.2) =
      s.issue.falseParts := by
    refine h.filter_parts fun m here => ?_
    rw [Bool.eq_iff_iff]
    simp only [List.any_map, List.any_eq_true, Function.comp_apply, Bool.and_eq_true, beq_iff_eq, List.contains_iff_mem]
    constructor
    · rintro ⟨l, mem, -, rfl⟩
      exact mem
    · exact fun mem => ⟨_, mem, here.symm, rfl⟩
  rw [State.finishWith_eq]
  dsimp only
  rw [State.foldl_stayAt hw, without_nil]
  exact congrArg (State.retire _ · _) going

/-- Where they raise faults. -/
theorem OneCourse.finishWith_reqs (g : Course → Course) {f : Nat → Req} (hf : ∀ l, (f l).course = c ∧ (f l).lane = l) :
    (s.onCourse s.issue.team c g).finishWith { reqs := (lanesIn s.issue.parts c).map f } =
      ((s.onCourse s.issue.team c g).retire s.issue.falseParts s.issue.next).deliver ((lanesIn s.issue.parts c).map f) := by
  have going : (without s.issue.lift ((lanesIn s.issue.parts c).map f)) = s.issue.falseParts := by
    refine h.filter_parts fun m here => ?_
    rw [Bool.eq_iff_iff]
    simp only [List.any_map, List.any_eq_true, Function.comp_apply, (hf _).1, (hf _).2, Bool.and_eq_true, beq_iff_eq, List.contains_iff_mem]
    constructor
    · rintro ⟨l, mem, -, rfl⟩
      exact mem
    · exact fun mem => ⟨_, mem, here.symm, rfl⟩
  have same : (s.onCourse s.issue.team c g).issue = s.issue := rfl
  unfold State.finishWith
  simp only [List.foldl_nil, List.any_nil, Bool.not_false, List.filter_true, same, going]

end Stay

/-! ## A uniform unit at which all participating threads wait -/

/-- Where no name and no entry is written, it does not matter for which lanes. -/
theorem CourseFrame.ofNoNames {x y : Course} {lanes lasts lift : List Nat} {pipes : Nat → Prop} {u : Nat → Thread → Thread}
    (h : CourseFrame x y [] [] lanes lasts lift pipes u) (lanes' : List Nat) : CourseFrame x y [] [] lanes' lasts lift pipes u where
  live := h.live
  kept n l hl _ h2 := h.kept n l hl (fun e => absurd e.1 List.not_mem_nil) h2
  last n hn l hl hv _ := h.last n hn l hl hv fun e => absurd e.1 List.not_mem_nil
  entries n l hl _ := h.entries n l hl fun e => absurd e.1 List.not_mem_nil
  latches := h.latches
  threads := h.threads
  rest := h.rest

/-- What a uniform unit that writes nothing leaves of a course: READ_FREE in its leader, unless it has read its operands before, the last reads
marked, and no record in its latches. -/
def Course.afterSync (srcs : List Operand) (b3 again : Bool) (i : CourseIn) (x : Course) : Course :=
  let x := if again then x else x.noteFree (srcs.map fun o => srcView i.rd o.1 o.2) [i.lead]
  ((x.markSources srcs i.lift).dropLatches (if b3 then [2, 3] else [2]) i.parts).reapSources srcs

section Wait
variable {s : State} {t : Team} {c : Nat} {srcs : List Operand} (h : OneCourse s t c) (hr : LeadReadable s t srcs)
  (hs : ∀ o ∈ srcs, o.2.pairOk o.1 = true)
include h hr hs

theorem OneCourse.lead_not_stale : ((srcs.map fun o => srcView (courseIn s t 2 c).rd o.1 o.2).any fun v => v.stale (courseIn s t 2 c).lead) = false := by
  have fresh := (h.lifted.leadFit 2 hr hs (one_mem h)).fresh h.acts
  rw [List.any_map, List.any_eq_false]
  exact fun o ho => by rw [Function.comp_apply, fresh o ho]; decide

theorem OneCourse.afterSync_frame (b3 : Bool) :
    CourseFrame (t.course c) ((t.course c).afterSync srcs b3 (s.again t c) (courseIn s t 2 c)) [] [] [] (lastOf srcs) (lanesIn s.issue.lift c)
      (· ∈ if b3 then [2, 3] else [2])
      fun l th => if l == s.leader c && !s.again t c && freeRead s t false false .sup srcs c l then th.setReadFree else th := by
  set x := t.course c
  have fit := h.lifted.leadFit 2 hr hs (one_mem h)
  obtain ⟨ok, _⟩ := Course.sound_ok (one_sound h)
  set x' := if s.again t c then x else x.noteFree (srcs.map fun o => srcView (courseIn s t 2 c).rd o.1 o.2) [(courseIn s t 2 c).lead] with hx'
  have noted : Updated x x' fun l th => if l == s.leader c && !s.again t c && freeRead s t false false .sup srcs c l then th.setReadFree else th := by
    rw [hx']
    cases s.again t c with
    | true => exact (Updated.refl x).congr fun l th => by simp
    | false =>
      refine (noteFree_updated x _ _).congr fun l th => ?_
      have lead : [(courseIn s t 2 c).lead].contains l = (l == s.leader c) := by
        simp only [List.contains_cons, List.contains_nil, Bool.or_false]
        rfl
      have free := views_free s t 2 false false .sup srcs c l
      rw [lead, Bool.not_false, Bool.and_true, ← free]
      rfl
  have ok' : x'.Ok := by
    rw [noted.eq]
    exact ⟨ok.names, ok.dead, ok.opf, ok.latches, ok.links, ok.opfLinks⟩
  have marked := (markSources_ok ok' hs (lanesIn s.issue.lift c)).1
  have four : ∀ p ∈ (if b3 then [2, 3] else [2] : List Nat), p < 4 := by cases b3 <;> decide
  obtain ⟨frame, -, -⟩ := serve_spec (val := fun _ _ => 0) (one_sound h) fit.fit.lift fit.fit.parts hs noted (Written.rfl' marked _)
    (fun _ hn => absurd hn List.not_mem_nil) four
  exact frame.ofNoNames []

theorem OneCourse.uniSync_waits {b3 : Bool} {f : State → Team → Nat → CourseIn → List W64 → State × SyncOut} {w : Wait}
    (hf : f s t c (courseIn s t 2 c) (s.values t false false .sup srcs c (s.leader c)) =
      (s, { waits := (lanesIn s.issue.parts c).map fun l => (c, l, w) })) :
    s.uniSync srcs b3 true f = .next ((s.onCourse s.issue.team c fun x => x.afterSync srcs b3 (s.again t c) (courseIn s t 2 c)).finishWith
      { waits := (lanesIn s.issue.parts c).map fun l => (c, l, w) }) := by
  have vals : ((srcs.map fun o => srcView (courseIn s t 2 c).rd o.1 o.2).map fun v => v.val (courseIn s t 2 c).lead) =
      s.values t false false .sup srcs c (s.leader c) := views_val s t 2 false false .sup srcs c _
  have acts : (courseIn s t 2 c).parts.isEmpty = false := List.isEmpty_eq_false_iff.mpr h.acts
  have again : ((courseIn s t 2 c).parts.all fun l => match s.threadAt s.issue.team c l with | some t => t.progress.isSome | none => false) =
      s.again t c := again_eq h
  have all : ∀ l, l ∈ ((courseIn s t 2 c).lift.filter fun l => !(courseIn s t 2 c).parts.contains l) ++ (courseIn s t 2 c).parts ↔
      l ∈ (courseIn s t 2 c).lift := fun l => by
    have fit := (h.lifted.leadFit 2 hr hs (one_mem h)).fit.parts l
    by_cases part : l ∈ (courseIn s t 2 c).parts
    · simp [part, fit part]
    · simp [part]
  unfold State.uniSync State.eachCourse
  rw [h.one]
  have cur : s.curTeam = some t := h.lifted.team
  simp only [List.foldl_cons, List.foldl_nil, cur, State.uniSyncAt, acts, h.lead_not_stale hr hs, Bool.and_false, Bool.false_eq_true, if_false, vals, hf]
  simp only [List.map_nil, if_true, List.append_nil, List.nil_append, List.contains_nil, Bool.not_false, List.filter_true, acts, Bool.false_or]
  generalize threads : List.all (courseIn s t 2 c).parts _ = A
  obtain rfl : A = s.again t c := threads.symm.trans again
  refine congrArg (fun g => Host.Outcome.next (State.finishWith (s.onCourse s.issue.team c g) _)) (funext fun x => ?_)
  rw [id, markSources_congr _ srcs all]
  cases b3 <;> rfl

theorem OneCourse.waits_stays {b3 : Bool} {f : State → Team → Nat → CourseIn → List W64 → State × SyncOut} {w : Wait} (hw : ∀ a b, w ≠ .lda a b)
    {upd : Nat → Nat → Thread → Thread}
    (hf : f s t c (courseIn s t 2 c) (s.values t false false .sup srcs c (s.leader c)) =
      (s, { waits := (lanesIn s.issue.parts c).map fun l => (c, l, w) }))
    (hu : ∀ l th, upd c l th =
      (if l == s.leader c && !s.again t c && freeRead s t false false .sup srcs c l then th.setReadFree else th).waits w s.issue.len) :
    ∃ s', s.uniSync srcs b3 true f = .next s' ∧ s'.issue.team = s.issue.team ∧
      Stays s s' t srcs (lanesIn s.issue.lift) (if b3 then [2, 3] else [2]) (fun _ m => m) upd := by
  refine ⟨_, (h.uniSync_waits hr hs hf).trans (congrArg _ (h.finishWith_waits _ hw)), by rw [retire_eq]; rfl, ?_⟩
  refine h.stays (((h.afterSync_frame hr hs b3).onThreads _ (blind_waits w _)).congr fun l th _ => ?_)
  by_cases part : (lanesIn s.issue.parts c).contains l = true
  · rw [if_pos part, if_pos part, hu]
  · have other : (l == s.leader c) = false := beq_false_of_ne fun e => part (List.contains_iff_mem.mpr (e ▸ h.leader_mem))
    rw [if_neg part, if_neg part, other]
    rfl

end Wait

/-! ## mwait (R294, R297) -/

/-- What the threads of a course that go on from an mwait at once find. -/
def State.mwaitFound (s : State) (c : Nat) (ls : List Nat) : List (Nat × W32) :=
  ls.filterMap fun l => ((s.threadAt s.issue.team c l).bind fun t => t.mwaitNow).map fun v => (l, v)

/-- What an mwait finds for a lane. -/
def statusOf (found : List (Nat × W32)) (l : Nat) : W64 := match found.find? fun p => p.1 == l with | some p => zx64 p.2 | none => 0

def oneStatus : List (Nat × W32) → Bool
  | [] => false
  | p :: t => t.all fun q => q.2 == p.2

def Thread.disarm (th : Thread) : Thread := { th with monitor := none }

/-- The write of an mwait: each status, uniform where the course takes part whole and finds one. -/
def mwaitWrite (d : Nat) (i : CourseIn) (found : List (Nat × W32)) (x : Course) : Course :=
  let ls := found.map Prod.fst
  let whole := i.all && ls.length == i.parts.length && oneStatus found
  if ls.isEmpty then x else (x.writeReg whole ls false d ⟨if whole then .u else .g, statusOf found⟩).onThreads ls fun _ => Thread.disarm

/-- What an mwait does for its course. -/
def State.mwaitPart (d : Fin 64) (s : State) (_ : Team) (c : Nat) (i : CourseIn) (vals : List W64) : State × SyncOut :=
  let found := s.mwaitFound c i.parts
  let cycles := (vals.headD 0).toNat % 2 ^ 32
  (s, { write := mwaitWrite d.val i found, waits := (i.parts.filter fun l => !(found.map Prod.fst).contains l).map fun l =>
    (c, l, .mwait d.val (if cycles = 0 then none else some cycles)) })

theorem exec_mwait (d : Fin 64) (a : Src) (s : State) : exec (.mwait d a) s = s.uniSync [(.b32, a)] true true (State.mwaitPart d) :=
  (rfl : execMwait d a s = _)

theorem Course.clearLatches_onThreads (x : Course) (n : Nat) (m : W32) (ks : List Nat) {f : Thread → Thread} (hf : Blind f) :
    (x.clearLatches false n m).onThreads ks (fun _ => f) = (x.onThreads ks fun _ => f).clearLatches false n m := by
  simp only [Course.onThreads, Course.clearLatches, List.map_map]
  refine congrArg (fun ths : FMap Thread => ({ x with latches := _, threads := ths } : Course)) (List.map_congr_left fun p _ => ?_)
  have swap : f { p.2 with saved := p.2.saved.filter fun sv => !sv.record.names false n } =
      { f p.2 with saved := (f p.2).saved.filter fun sv => !sv.record.names false n } := by rw [hf, hf.saved]
  by_cases written : hasLane m p.1 = true
  · by_cases mine : p.1 ∈ ks
    · simp only [Function.comp_apply, if_pos written, List.contains_iff_mem, if_pos mine, swap]
    · simp only [Function.comp_apply, if_pos written, List.contains_iff_mem, if_neg mine]
  · by_cases mine : p.1 ∈ ks
    · simp only [Function.comp_apply, if_neg written, List.contains_iff_mem, if_pos mine]
    · simp only [Function.comp_apply, if_neg written, List.contains_iff_mem, if_neg mine]

theorem Course.writeReg_onThreads (x : Course) (full : Bool) (ls : List Nat) (n : Nat) (r : Result) (ks : List Nat) {f : Thread → Thread} (hf : Blind f) :
    (x.writeReg full ls false n r).onThreads ks (fun _ => f) = (x.onThreads ks fun _ => f).writeReg full ls false n r := by
  have live := x.onThreads_live ks fun _ => f
  simp only [Course.writeReg, Bool.false_eq_true, if_false]
  rw [live, Course.clearLatches_onThreads _ _ _ _ hf]
  rfl

theorem Writes.onThreads {w : Course → Course} {x : Course} {parts regs : List Nat} {val : Nat → W32} {f : Thread → Thread} (h : Writes w x parts regs val id)
    (comm : ∀ y : Course, (w y).onThreads parts (fun _ => f) = w (y.onThreads parts fun _ => f)) :
    Writes (fun y => (w y).onThreads parts fun _ => f) x parts regs val f where
  wrote srcs ls z hz live hs := by
    have ok : (z.onThreads parts fun _ => f).Ok := ⟨hz.names, hz.dead, hz.opf, hz.latches, hz.links, hz.opfLinks⟩
    have wrote := h.wrote srcs ls _ ok ((z.onThreads_live parts _).trans live) hs
    rw [comm, markSources_onThreads]
    have e := onThreads_id (z.onThreads parts fun _ => f) parts
    rw [show ((z.onThreads parts fun _ => f).onThreads parts fun _ => id) = _ from e] at wrote
    exact wrote

section Found
variable {s : State} {t : Team} {c : Nat} (h : OneCourse s t c)
include h

theorem OneCourse.mwaitFound_all {v : W32} (all : ((lanesIn s.issue.parts c).all fun l => ((t.course c).thread l).mwaitNow == some v) = true) :
    s.mwaitFound c (lanesIn s.issue.parts c) = (lanesIn s.issue.parts c).map fun l => (l, v) := by
  rw [← List.filterMap_eq_map]
  refine List.filterMap_congr fun l hl => ?_
  rw [h.threadAt hl, Option.bind_some, beq_iff_eq.mp (List.all_eq_true.mp all l hl)]
  rfl

theorem OneCourse.mwaitFound_none (idle : ((lanesIn s.issue.parts c).all fun l => ((t.course c).thread l).mwaitNow.isNone) = true) :
    s.mwaitFound c (lanesIn s.issue.parts c) = [] :=
  List.filterMap_eq_nil_iff.mpr fun l hl => by
    rw [h.threadAt hl, Option.bind_some, Option.isNone_iff_eq_none.mp (List.all_eq_true.mp idle l hl)]
    rfl

omit h in
theorem statusOf_map (v : W32) {ls : List Nat} {l : Nat} (hl : l ∈ ls) : statusOf (ls.map fun l => (l, v)) l = zx64 v := by
  unfold statusOf
  induction ls with
  | nil => exact absurd hl List.not_mem_nil
  | cons a ls ih =>
    by_cases here : a = l
    · simp [here]
    · have later : l ∈ ls := (List.mem_cons.mp hl).resolve_left fun e => here e.symm
      rw [List.map_cons, List.find?_cons_of_neg (by simpa using here)]
      exact ih later

omit h in
theorem mwaitWrite_map (d : Nat) (i : CourseIn) (v : W32) (acts : i.parts ≠ []) : mwaitWrite d i (i.parts.map fun l => (l, v)) = fun x =>
    (x.writeReg i.all i.parts false d ⟨if i.all then .u else .g, statusOf (i.parts.map fun l => (l, v))⟩).onThreads i.parts fun _ => Thread.disarm := by
  have lanes : (i.parts.map fun l => (l, v)).map Prod.fst = i.parts := (List.map_map ..).trans (List.map_id _)
  funext x
  unfold mwaitWrite
  dsimp only
  rw [lanes, if_neg (by simpa using acts)]
  have same : oneStatus (i.parts.map fun l => (l, v)) = true := by
    cases parts : i.parts with
    | nil => exact absurd parts acts
    | cons a r => simp [oneStatus]
  rw [same, beq_self_eq_true, Bool.and_true, Bool.and_true]

/-- One status for all participating threads. -/
theorem OneCourse.writes_status (d : Fin 64) (v : W32) :
    Writes (mwaitWrite d.val (courseIn s t 2 c) ((lanesIn s.issue.parts c).map fun l => (l, v))) (t.course c) (lanesIn s.issue.parts c) [d.val]
      (fun _ => v) Thread.disarm := by
  have fit := fit_of h
  obtain ⟨_, lt⟩ := Course.sound_ok fit.sound
  rw [show lanesIn s.issue.parts c = (courseIn s t 2 c).parts from rfl, mwaitWrite_map d.val (courseIn s t 2 c) v h.acts]
  refine Writes.onThreads (w := fun x => x.writeReg _ _ _ _ _) ⟨fun srcs ls z hz hl hs => ?_⟩ fun y => y.writeReg_onThreads _ _ _ _ _ fun _ _ => rfl
  obtain ⟨ok, live⟩ := markSources_ok hz hs ls
  have live' := live.trans hl
  rw [show (z.onThreads (courseIn s t 2 c).parts fun _ => id) = z from onThreads_id z _]
  have status {l : Nat} (hl : l ∈ (courseIn s t 2 c).parts) : statusOf ((courseIn s t 2 c).parts.map fun l => (l, v)) l = zx64 v := statusOf_map v hl
  obtain ⟨written, reads, -⟩ := writeDst_spec (c := z.markSources srcs ls) ok (by rw [live']; exact lt) (full := (courseIn s t 2 c).all)
    (ls := (courseIn s t 2 c).parts) (wide := false) (d := .reg d)
    (r := ⟨if (courseIn s t 2 c).all then .u else .g, statusOf ((courseIn s t 2 c).parts.map fun l => (l, v))⟩) rfl
    (fun l hl => by rw [live']; exact fit.lift l (fit.parts l hl)) (by rw [live']; exact fit.all) (fun whole => by
      refine ⟨fun _ l hl => ?_, fun aff => by simp [whole] at aff⟩
      have first : (z.markSources srcs ls).live.headD 0 ∈ (z.markSources srcs ls).live := by
        cases lanes : (z.markSources srcs ls).live with
        | nil => rw [lanes] at hl; exact absurd hl List.not_mem_nil
        | cons a r => exact List.mem_cons_self
      rw [live'] at hl first
      exact (status (fit.all whole l hl)).trans (live' ▸ (status (fit.all whole _ first)).symm))
  refine ⟨written, fun n hn l hl => ?_⟩
  obtain rfl : n = d.val := List.mem_singleton.mp hn
  have row := congrArg lo32 (reads (by simp) l hl)
  simp only [dstRead, regView, resultOf, Bool.false_eq_true, if_false, status hl] at row
  simpa [Course.writeDst] using row

end Found

/-- R294: all participating threads find one status. -/
theorem mwait_serves (d : Fin 64) (a : Src) : UniServes (.mwait d a) [(.b32, a)] [d.val] true fun s t c _ =>
    match ((t.course c).thread (s.leader c)).mwaitNow with
    | some x => if ((lanesIn s.issue.parts c).all fun l => ((t.course c).thread l).mwaitNow == some x) then some (s, fun _ => x, fun th => { th with monitor := none })
      else none
    | none => none := by
  refine uniServes_of (arrive := true) (fun wf => pairOk_single (ok_of_wfDA (d := d) wf)) (exec_mwait d a) fun wf s t c v s1 val upd one hv => ?_
  split at hv
  next x _ =>
    split at hv
    next all =>
      cases hv
      have found := one.mwaitFound_all all
      have stays : ((lanesIn s.issue.parts c).filter fun l => !(((lanesIn s.issue.parts c).map fun l => (l, x)).map Prod.fst).contains l) = [] := by
        rw [List.map_map]
        exact List.filter_eq_nil_iff.mpr fun l hl => by simpa using hl
      refine ⟨_, ?_, one.writes_status d x, .refl s⟩
      unfold State.mwaitPart
      dsimp only [courseIn]
      rw [found, stays]
      rfl
    next => cases hv
  next => cases hv

theorem progress_of_mwaitNow {th : Thread} (waits : th.mwaitNow = none) : th.progress = none := by
  unfold Thread.mwaitNow at waits
  split at waits
  next => cases waits
  next fresh => simpa using fresh

/-- What a yield does for its course. -/
def State.yieldPart (s : State) (_ : Team) (c : Nat) (i : CourseIn) (vals : List W64) : State × SyncOut :=
  (s, { waits := i.parts.map fun l => (c, l, .yield (vals.headD 0)) })

theorem exec_yield (a : Src) (s : State) : exec (.yield a) s =
    match s.uniSync [(.addr, a)] false true State.yieldPart with | .next s => .next (s.settle s.issue.team) | r => r :=
  (rfl : execYield a s = _)

section Units
variable {s : State} {t : Team} {c : Nat} (h : OneCourse s t c)
include h

/-- Threads that no save has interrupted read their operands now. -/
theorem OneCourse.not_again (fresh : ∀ l ∈ lanesIn s.issue.parts c, ((t.course c).thread l).progress = none) : s.again t c = false := by
  refine Bool.eq_false_iff.mpr fun again => ?_
  have lead := List.all_eq_true.mp again _ h.leader_mem
  rw [fresh _ h.leader_mem] at lead
  cases lead

theorem OneCourse.exec_mwait_waits {d : Fin 64} {a : Src} (wf : WellFormed (.mwait d a) = true) (hr : LeadReadable s t [(.b32, a)])
    (idle : ((lanesIn s.issue.parts c).all fun l => ((t.course c).thread l).mwaitNow.isNone) = true) :
    let n := (lo32 ((s.values t false false .sup [(.b32, a)] c (s.leader c)).headD 0)).toNat
    ∃ s', exec (.mwait d a) s = .next s' ∧ Stays s s' t [(.b32, a)] (lanesIn s.issue.lift) [2, 3] (fun _ m => m) fun k l th =>
      let th := if l == s.leader k && freeRead s t false false .sup [(.b32, a)] k l then th.setReadFree else th
      { th with wait := .mwait d.val (if n = 0 then none else some n), waitLen := s.issue.len } := by
  have again := h.not_again fun l hl => progress_of_mwaitNow (Option.isNone_iff_eq_none.mp (List.all_eq_true.mp idle l hl))
  intro n
  have part : State.mwaitPart d s t c (courseIn s t 2 c) (s.values t false false .sup [(.b32, a)] c (s.leader c)) =
      (s, { waits := (lanesIn s.issue.parts c).map fun l => (c, l, .mwait d.val (if n = 0 then none else some n)) }) := by
    unfold State.mwaitPart
    dsimp only [courseIn]
    simp only [h.mwaitFound_none idle, ← toNat_lo32, List.map_nil, List.contains_nil, Bool.not_false, List.filter_true]
    rfl
  obtain ⟨s', step, -, stays⟩ := h.waits_stays (b3 := true) hr (pairOk_single (ok_of_wfDA (d := d) wf)) (fun _ _ e => by cases e) part
    fun l th => by rw [again, Bool.not_false, Bool.and_true]
  exact ⟨s', (exec_mwait d a s).trans step, stays⟩

theorem OneCourse.exec_sleep_waits {a : Src} (wf : WellFormed (.sleep a) = true) (hr : LeadReadable s t [(.b32, a)])
    (fresh : ((lanesIn s.issue.parts c).all fun l => ((t.course c).thread l).progress.isNone) = true) :
    let n := (lo32 ((s.values t false false .sup [(.b32, a)] c (s.leader c)).headD 0)).toNat
    n ≠ 0 →
    ∃ s', exec (.sleep a) s = .next s' ∧ Stays s s' t [(.b32, a)] (lanesIn s.issue.lift) [2] (fun _ m => m) fun k l th =>
      let th := if l == s.leader k && freeRead s t false false .sup [(.b32, a)] k l then th.setReadFree else th
      { th with wait := .sleep n, waitLen := s.issue.len } := by
  have again := h.not_again fun l hl => Option.isNone_iff_eq_none.mp (List.all_eq_true.mp fresh l hl)
  intro n some
  obtain ⟨s', step, -, stays⟩ := h.waits_stays (b3 := false) (w := .sleep n) hr (pairOk_single (pairOk_of_ok wf)) (fun _ _ e => by cases e)
    (h.sleepPart_some fresh some) fun l th => by rw [again, Bool.not_false, Bool.and_true]
  exact ⟨s', (exec_sleep a s).trans step, stays⟩

theorem OneCourse.exec_yield_waits {a : Src} (wf : WellFormed (.yield a) = true) (hr : LeadReadable s t [(.addr, a)]) :
    ∃ s', exec (.yield a) s = .next (s'.settle s.issue.team) ∧
      Stays s s' t [(.addr, a)] (lanesIn s.issue.lift) [2] (fun _ m => m) fun k l th =>
        let th := if l == s.leader k && !s.again t c && freeRead s t false false .sup [(.addr, a)] k l then th.setReadFree else th
        { th with wait := .yield ((s.values t false false .sup [(.addr, a)] c (s.leader c)).headD 0), waitLen := s.issue.len } := by
  refine (h.waits_stays (b3 := false) (f := State.yieldPart) hr (pairOk_single (ty := .addr) (pairOk_of_ok (ty := .b64) wf))
    (fun _ _ e => by cases e) rfl (by exact fun _ _ => rfl)).imp fun s' ⟨step, team, stays⟩ => ⟨?_, stays⟩
  rw [exec_yield, step, ← team]

end Units

/-! ## Leaving a yield (R135) -/

/-- Whether a thread waits at a yield. -/
def atYield (th : Thread) : Bool := match th.wait with | .yield _ => true | _ => false

/-- The lanes of a course whose threads wait at a yield. -/
def State.yielders (s : State) (tk c : Nat) : List Nat :=
  match (FMap.get s.teams tk).bind fun t => FMap.get t.courses c with
  | some x => (x.threads.filter fun p => atYield p.2).map Prod.fst
  | none => []

theorem State.leaveYield_eq (s : State) (tk c : Nat) : s.leaveYield tk c =
    let u := (s.yielders tk c).foldl (fun s l => s.rewriteThread tk c l) (s.onCourse tk c fun x => x.leaveAll s.cycle atYield)
    { u with issue := { u.issue with retired := u.issue.retired ++ (s.yielders tk c).map fun l => (tk, c, l) } } := rfl

/-- The image of a course that is not saved stays as it is. -/
theorem State.rewriteThread_of_resident {s : State} {tk c : Nat} {t : Team} {x : Course} (ht : FMap.get s.teams tk = some t)
    (hx : FMap.get t.courses c = some x) (here : x.suspended = false) (l : Nat) : s.rewriteThread tk c l = s := by
  have course : t.course c = x := by rw [Team.course, hx, Option.getD_some]
  unfold State.rewriteThread
  rw [ht]
  split
  next team _ =>
    obtain rfl : t = _ := Option.some_inj.mp team
    rw [course, here]
    split <;> rfl
  next => rfl

section LeaveYield
variable {s : State} {t : Team} {tk c : Nat} {x : Course} (ht : FMap.get s.teams tk = some t) (hx : FMap.get t.courses c = some x)
  (here : x.suspended = false)
include ht hx here

theorem State.threadAt_leaveYield (q : ThreadRef) : (s.leaveYield tk c).threadAt q.team q.course q.lane =
    (s.onCourse tk c fun x => x.leaveAll s.cycle atYield).threadAt q.team q.course q.lane := by
  have team := (onCourse_get s tk c fun x => x.leaveAll s.cycle atYield).trans (congrArg _ ht)
  have course : FMap.get (FMap.modify t.courses c fun x => x.leaveAll s.cycle atYield) c = some (x.leaveAll s.cycle atYield) := by
    rw [FMap.get_modify_same, hx]
    rfl
  have resident : ∀ ls : List Nat, ls.foldl (fun s l => s.rewriteThread tk c l) (s.onCourse tk c fun x => x.leaveAll s.cycle atYield) =
      s.onCourse tk c fun x => x.leaveAll s.cycle atYield := fun ls => by
    induction ls with
    | nil => rfl
    | cons l ls ih => rw [List.foldl_cons, State.rewriteThread_of_resident team course here, ih]
  rw [State.leaveYield_eq, resident]
  rfl

end LeaveYield

theorem leaveYield_threads (s : State) (t : Team) (tk c l : Nat) (x : Course) (th : Thread) (d : W64) (ht : FMap.get s.teams tk = some t)
    (hx : FMap.get t.courses c = some x) (here : x.suspended = false) (hth : FMap.get x.threads l = some th) (waits : th.wait = .yield d) :
    ∃ s', s.leaveYield tk c = s' ∧ s'.threadAt tk c l = some (th.goto (th.pc + BitVec.ofNat 64 th.waitLen) s.cycle) ∧
      ∀ q : ThreadRef, (q.team, q.course) ≠ (tk, c) → s'.threadAt q.team q.course q.lane = s.threadAt q.team q.course q.lane := by
  have yields : atYield th = true := by rw [atYield, waits]
  refine ⟨_, rfl, ?_, fun q other => (State.threadAt_leaveYield ht hx here q).trans (State.threadAt_onCourse_ne s tk c _ other)⟩
  refine (State.threadAt_leaveYield ht hx here ⟨tk, c, l⟩).trans ((State.threadAt_onCourse s tk c _ tk c l).trans ?_)
  rw [if_pos ⟨rfl, rfl⟩, ht, Option.bind_some, hx, Option.bind_some, Course.get_leaveAll, hth, Option.map_some, if_pos yields]

/-- Settles O33: threads that go on at once by what their unit writes, those that wait by the frame of `OneCourse.waits_stays`. -/
theorem waitingUnits : Obligations.WaitingUnits := by
  unfold Obligations.WaitingUnits
  exact fun d a => ⟨mwait_serves d a, fun s t c wf h hr idle => h.exec_mwait_waits wf hr idle, fun s t c wf h hr fresh => h.exec_sleep_waits wf hr fresh,
    fun s t c wf h hr => h.exec_yield_waits wf hr, leaveYield_threads⟩

end Sys2Proof.Machine
end

section
/-!
SUPPORT. Faults: trap and bkpt (R140), the delivery of a program trap and of a system fault (R357 to R362, R376), the return from a handler (R141, R361),
and guards (R92). `trapsAndReturns` settles O39.
-/

namespace Sys2Proof.Machine

/-! ## trap and bkpt (R140) -/

/-- What trap and bkpt do for their course. -/
def State.raisePart (code : FCode) (imm : Nat) (s : State) (_ : Team) (c : Nat) (i : CourseIn) (_ : List W64) : State × SyncOut :=
  (s.onCourse s.issue.team c fun x => x.dropLatch 2 i.parts,
    { reqs := i.parts.map fun l => { course := c, lane := l, code := code, imm := imm, done := true } })

theorem exec_raise (brk : Bool) (n : BitVec 8) (s : State) : exec (if brk then .bkpt n else .trap n) s =
    s.uniSync [] false false (State.raisePart (if brk then .brk else .trap) n.toNat) := by
  cases brk with
  | false => exact (rfl : execTrap n s = _)
  | true => exact (rfl : execBkpt n s = _)

/-- A unit that leaves a latch without a record for its threads changes nothing else of its course. -/
theorem OneCourse.dropLatch_frame {s : State} {t : Team} {c : Nat} (h : OneCourse s t c) :
    CourseFrame (t.course c) (((t.course c).dropLatch 2 (lanesIn s.issue.parts c)).dropLatch 2 []) [] [] [] [] [] (· ∈ [2]) fun _ th => th := by
  have sound := one_sound h
  obtain ⟨ok, lt⟩ := Course.sound_ok sound
  have step : LatchStep (t.course c) (((t.course c).dropLatch 2 (lanesIn s.issue.parts c)).dropLatch 2 []) (· ∈ [2]) :=
    (dropLatch_step _ 2 _).trans (dropLatch_step _ 2 []) (fun _ => List.mem_singleton.mpr) (fun _ => List.mem_singleton.mpr)
  exact (frame_of_parts (srcs := []) (lift := []) ok lt (fun _ hn => absurd hn List.not_mem_nil) (fun _ hl => absurd hl List.not_mem_nil) (.refl _)
    (Written.rfl' ok []) step).1

theorem OneCourse.uniSync_raise {s : State} {t : Team} {c : Nat} (h : OneCourse s t c) (code : FCode) (imm : Nat) :
    s.uniSync [] false false (State.raisePart code imm) =
      .next ((s.onCourse s.issue.team c fun x => (x.dropLatch 2 (lanesIn s.issue.parts c)).dropLatch 2 []).finishWith
        { reqs := (lanesIn s.issue.parts c).map fun l => { course := c, lane := l, code := code, imm := imm, done := true } }) := by
  have acts : (lanesIn s.issue.parts c).isEmpty = false := List.isEmpty_eq_false_iff.mpr h.acts
  have cur : s.curTeam = some t := h.lifted.team
  have went : ((lanesIn s.issue.parts c).filter fun l => !(((lanesIn s.issue.parts c).map fun l =>
      ({ course := c, lane := l, code := code, imm := imm, done := true } : Req)).map fun r => r.lane).contains l) = [] := by
    rw [List.map_map]
    exact List.filter_eq_nil_iff.mpr fun l hl => by simpa using hl
  unfold State.uniSync State.eachCourse
  rw [h.one]
  simp only [List.foldl_cons, List.foldl_nil, cur, State.uniSyncAt, State.raisePart]
  dsimp only [courseIn]
  simp only [acts, List.map_nil, List.any_nil, Bool.and_false, Bool.false_eq_true, if_false, List.append_nil, List.nil_append]
  simp only [went, onCourse_onCourse]
  rfl

theorem raise_stays (brk : Bool) (n : BitVec 8) (s : State) (t : Team) (c : Nat) (h : OneCourse s t c) :
    ∃ s', exec (if brk then .bkpt n else .trap n) s = .next (s'.deliver ((lanesIn s.issue.parts c).map fun l =>
        { course := c, lane := l, code := if brk then .brk else .trap, imm := n.toNat, done := true })) ∧
      Stays s s' t [] (fun _ => []) [2] (fun _ m => m) fun _ _ th => th := by
  refine ⟨_, ?_, h.stays (g := fun x => (x.dropLatch 2 (lanesIn s.issue.parts c)).dropLatch 2 []) (h.dropLatch_frame.congr fun l th _ => by rw [ite_self])⟩
  rw [exec_raise, h.uniSync_raise]
  exact congrArg _ (h.finishWith_reqs _ fun l => ⟨rfl, rfl⟩)

/-! ## The registers of a fault (R138, R357, R358) -/

theorem FCode.num_lt (code : FCode) : code.num < 2 ^ 8 := by cases code <;> decide

/-- LASTFAULT is bits 16 to 23, and no bit above. -/
theorem getLsbD_lastFault (code : FCode) (i : Nat) :
    (BitVec.ofNat 32 (code.num * 2 ^ 16)).getLsbD i = (decide (16 ≤ i ∧ i < 24) && code.num.testBit (i - 16)) := by
  rw [BitVec.getLsbD_ofNat, Nat.testBit_mul_two_pow]
  by_cases below : i < 24
  · have word : i < 32 := by omega
    simp [below, word]
  · have above : code.num.testBit (i - 16) = false :=
      Nat.testBit_lt_two_pow (Nat.lt_of_lt_of_le code.num_lt (Nat.pow_le_pow_right (by decide) (by omega)))
    simp [above]

/-- LASTFAULT is the code. -/
theorem setLastFault_code (w : W32) (code : FCode) : (setLastFault w code).toNat / 2 ^ 16 % 256 = code.num := by
  refine Nat.eq_of_testBit_eq fun i => ?_
  rw [show 256 = 2 ^ 8 from rfl, Nat.testBit_mod_two_pow, Nat.testBit_div_two_pow, BitVec.testBit_toNat, setLastFault, BitVec.getLsbD_or, BitVec.getLsbD_and,
    getLsbD_lastFault]
  by_cases low : i < 8
  · have cleared : (0xFF00FFFF : W32).getLsbD (i + 16) = false := by interval_cases i <;> rfl
    have inside : i + 16 < 24 := by omega
    rw [cleared, Bool.and_false, Bool.false_or]
    simp [low, inside]
  · have above : code.num.testBit i = false :=
      Nat.testBit_lt_two_pow (Nat.lt_of_lt_of_le code.num_lt (Nat.pow_le_pow_right (by decide) (by omega)))
    simp [low, above]

/-- HALT stays. -/
theorem setLastFault_halt (w : W32) (code : FCode) : (setLastFault w code).getLsbD 30 = w.getLsbD 30 := by
  rw [setLastFault, BitVec.getLsbD_or, BitVec.getLsbD_and, getLsbD_lastFault]
  simp

/-- Whether a fault halts its thread, and those its STOPMODE names (R376). -/
def Req.halts (r : Req) : Bool := r.code == .brk || r.code == .step

/-- A program trap stops nothing. -/
theorem Req.not_halts_of_isProgram {r : Req} (program : r.isProgram = true) : r.halts = false := by
  unfold Req.isProgram at program
  unfold Req.halts
  cases code : r.code <;> simp_all

/-! ## A system fault (R362, R364, R376) -/

theorem State.not_mem_stopSet (s : State) (tk c l mode : Nat) : (⟨tk, c, l⟩ : ThreadRef) ∉ s.stopSet tk c l mode := fun h => by
  have other := (List.mem_filter.mp h).2
  simp at other

theorem State.agenda_stopThreads (s : State) (xs : List ThreadRef) (freeze : Bool) (tk token : Nat) :
    s.agenda ⊆ (s.stopThreads xs freeze tk token).agenda := by
  have one (s : State) (x : ThreadRef) : s.agenda ⊆ (s.stopOne token x).agenda := by
    refine List.Subset.trans ?_ (calm_noteTsw _ x.team x.course x.lane).agenda
    rw [State.onThread_agenda, State.leaveHold_agenda]
    exact List.Subset.refl _
  have all : s.agenda ⊆ (xs.foldl (State.stopOne token) s).agenda := by
    induction xs generalizing s with
    | nil => exact List.Subset.refl _
    | cons x xs ih => exact List.Subset.trans (one s x) (ih _)
  rw [State.stopThreads_eq]
  split
  · exact all
  · exact all

/-- A thread that a system fault parks at `resume` with a token. -/
def Thread.parkFor (r : Req) (mask : W32) (escalated : Bool) (resume : W64) (token : Nat) (th : Thread) : Thread :=
  let th := th.noteFault r mask escalated
  { th with
    pc := resume, parked := some ⟨r.code.num, token⟩, tsw := if r.halts then th.tsw ||| haltBit else th.tsw,
    haltedBy := if r.halts then token else th.haltedBy }

/-- What a system fault does after its thread has left its hold: its record, the thread, and what the thread's STOPMODE halts. -/
def State.parkFor (s : State) (tk part : Nat) (r : Req) (mask : W32) (escalated : Bool) (resume : W64) (mode : Nat) (f : RecFields) : State :=
  let others := if r.halts then s.stopSet tk r.course r.lane mode else []
  let posted := s.record part (.thread ⟨tk, r.course, r.lane⟩ r.code.num others) f
  let parked := posted.1.onThread tk r.course r.lane (Thread.parkFor r mask escalated resume posted.2)
  if r.halts then parked.stopThreads others (mode == 0 || mode == 3) tk posted.2 else parked

theorem State.deliverSystem_eq {s : State} {tk : Nat} {t : Team} (ht : FMap.get s.teams tk = some t) (r : Req) (mask : W32) (escalated : Bool) (resume : W64) :
    ∃ mode f, s.deliverSystem tk r mask escalated resume =
      (if r.done then s else s.leaveHold tk r.course r.lane).parkFor tk t.part r mask escalated resume mode f := by
  unfold State.deliverSystem
  rw [ht]
  exact ⟨_, _, rfl⟩

/-- What a system fault makes of its thread. -/
def Thread.Parks (r : Req) (mask : W32) (escalated : Bool) (resume : W64) (th th' : Thread) : Prop :=
  ∃ token sv m by' st, th' = { th.parkFor r mask escalated resume token with saved := sv, monitor := m, haltedBy := by', struck := st }

section Deliver
variable {s : State} {tk : Nat} {t : Team} {r : Req} {th : Thread} (ht : FMap.get s.teams tk = some t)
  (hth : s.threadAt tk r.course r.lane = some th)
include hth

/-- A thread whose unit is not performed leaves its group's hold (R367). -/
theorem State.threadAt_leaving (done : Bool) :
    ∃ sv, (if done then s else s.leaveHold tk r.course r.lane).threadAt tk r.course r.lane = some { th with saved := sv } := by
  cases done with
  | true => exact ⟨th.saved, hth⟩
  | false => exact State.threadAt_leaveHold hth

theorem State.parkFor_thread (part : Nat) (mask : W32) (escalated : Bool) (resume : W64) (mode : Nat) (f : RecFields) :
    ∃ th', (s.parkFor tk part r mask escalated resume mode f).threadAt tk r.course r.lane = some th' ∧ th.Parks r mask escalated resume th' := by
  unfold State.parkFor
  dsimp only
  generalize others : (if r.halts then s.stopSet tk r.course r.lane mode else []) = xs
  obtain ⟨m, posted⟩ := (calm_record s part (.thread ⟨tk, r.course, r.lane⟩ r.code.num xs) f).threads _ _ _ _ hth
  generalize s.record part (.thread ⟨tk, r.course, r.lane⟩ r.code.num xs) f = p at posted
  have parked : (p.1.onThread tk r.course r.lane (Thread.parkFor r mask escalated resume p.2)).threadAt tk r.course r.lane =
      some (({ th with monitor := m } : Thread).parkFor r mask escalated resume p.2) := by
    rw [State.threadAt_onThread, if_pos ⟨rfl, rfl, rfl⟩, posted, Option.map_some]
  split
  next halts =>
    rw [if_pos halts] at others
    have out : (⟨tk, r.course, r.lane⟩ : ThreadRef) ∉ xs := others ▸ s.not_mem_stopSet tk r.course r.lane mode
    obtain ⟨th', stopped, sv, m', by', st, same⟩ := State.threadAt_stopThreads (r := ⟨tk, r.course, r.lane⟩) parked xs (mode == 0 || mode == 3) tk p.2
    rw [if_neg out] at same
    exact ⟨th', stopped, p.2, sv, m', by', st, same⟩
  next => exact ⟨_, parked, p.2, th.saved, m, _, _, rfl⟩

omit hth in
theorem State.parkFor_agenda (s : State) (tk part : Nat) (r : Req) (mask : W32) (escalated : Bool) (resume : W64) (mode : Nat) (f : RecFields) :
    Instr.faultRecordPost (Fin.ofNat 16 part) ∈ (s.parkFor tk part r mask escalated resume mode f).agenda := by
  have parked (others : List ThreadRef) (token : Nat) : Instr.faultRecordPost (Fin.ofNat 16 part) ∈
      ((s.record part (.thread ⟨tk, r.course, r.lane⟩ r.code.num others) f).1.onThread tk r.course r.lane
        (Thread.parkFor r mask escalated resume token)).agenda := by
    rw [State.onThread_agenda, State.record_agenda]
    exact List.mem_append_right _ (List.mem_singleton_self _)
  unfold State.parkFor
  dsimp only
  split
  · exact State.agenda_stopThreads _ _ _ _ _ (parked _ _)
  · exact parked _ _

include ht

theorem State.deliverSystem_thread (mask : W32) (escalated : Bool) (resume : W64) :
    ∃ th', (s.deliverSystem tk r mask escalated resume).threadAt tk r.course r.lane = some th' ∧ th.Parks r mask escalated resume th' := by
  obtain ⟨mode, f, e⟩ := State.deliverSystem_eq ht r mask escalated resume
  obtain ⟨sv, left⟩ := State.threadAt_leaving hth r.done
  obtain ⟨th', parked, token, sv', m, by', st, same⟩ := State.parkFor_thread left t.part mask escalated resume mode f
  exact ⟨th', by rw [e, parked], token, sv', m, by', st, same⟩

omit hth in
theorem State.deliverSystem_agenda (r : Req) (mask : W32) (escalated : Bool) (resume : W64) :
    Instr.faultRecordPost (Fin.ofNat 16 t.part) ∈ (s.deliverSystem tk r mask escalated resume).agenda := by
  obtain ⟨mode, f, e⟩ := State.deliverSystem_eq ht r mask escalated resume
  rw [e]
  exact State.parkFor_agenda _ _ _ _ _ _ _ _ _

end Deliver

theorem State.deliver_single (s : State) (r : Req) : s.deliver [r] =
    if r.isProgram then s.deliverProgram s.issue.team r (maskOf [r.lane])
    else s.deliverSystem s.issue.team r (maskOf [r.lane]) false (if r.done then s.issue.next else s.issue.addr) := by
  have own : ([r].filter fun q => q.code == r.code) = [r] := by simp
  simp only [State.deliver, List.foldl_cons, List.foldl_nil, own, List.map_cons, List.map_nil]

/-! ## A program trap (R358 to R360) -/

/-- A thread that enters its handler. -/
def Thread.enter (r : Req) (mask : W32) (resume base : W64) (now : Nat) (th : Thread) : Thread :=
  { th.noteFault r mask false with tpc := resume, inHandler := true, saved := [], pc := base, sentinel := 0, readySince := now }

theorem State.leaveHold_slices (s : State) (tk c l : Nat) : (s.leaveHold tk c l).slices = s.slices := by
  unfold State.leaveHold
  split
  · rfl
  · dsimp only
    split
    · split <;> rfl
    all_goals rfl

section Program
variable {s : State} {tk : Nat} {t : Team} {r : Req} {th : Thread} (ht : FMap.get s.teams tk = some t)
  (hth : s.threadAt tk r.course r.lane = some th)
include ht hth

theorem State.inHandler_of_threadAt :
    ((FMap.get t.courses r.course).bind fun c => (FMap.get c.threads r.lane).map fun th => th.inHandler) = some th.inHandler := by
  obtain ⟨t', x, ht', hx, hth'⟩ := State.threadAt_some (r := ⟨tk, r.course, r.lane⟩) hth
  obtain rfl := Option.some.inj (ht.symm.trans ht')
  dsimp only at hx hth'
  rw [hx, Option.bind_some, hth', Option.map_some]

theorem State.deliverProgram_escalates (mask : W32) (blocked : t.trapbase = 0 ∨ th.inHandler = true) :
    s.deliverProgram tk r mask = s.deliverSystem tk r mask true (if r.done then s.issue.next else s.issue.addr) := by
  have inside := State.inHandler_of_threadAt ht hth
  unfold State.deliverProgram
  rw [ht]
  dsimp only
  rw [inside]
  dsimp only
  rw [if_pos (by simpa using blocked)]

theorem State.deliverProgram_enters (mask : W32) {x : Slice} (hx : s.sliceOf t = some x) (allowed : ¬ (t.trapbase = 0 ∨ th.inHandler = true)) :
    ∃ sv m now, (s.deliverProgram tk r mask).threadAt tk r.course r.lane =
      some (({ th with saved := sv, monitor := m } : Thread).enter r mask (if r.done then s.issue.next else s.issue.addr) t.trapbase now) := by
  have inside := State.inHandler_of_threadAt ht hth
  obtain ⟨sv, left⟩ := State.threadAt_leaving hth r.done
  have slices : (if r.done then s else s.leaveHold tk r.course r.lane).slices = s.slices :=
    apply_ite_prop (p := fun u : State => u.slices = s.slices) rfl (s.leaveHold_slices _ _ _)
  have slice : FMap.get s.slices (sliceKey t.part t.slice) = some x := hx
  unfold State.deliverProgram
  rw [ht]
  dsimp only
  rw [inside]
  dsimp only
  rw [if_neg (by simpa using allowed)]
  generalize (if r.done then s else s.leaveHold tk r.course r.lane) = u at left slices ⊢
  obtain ⟨u', y, team, course, thread⟩ := State.threadAt_some (r := ⟨tk, r.course, r.lane⟩) left
  rw [slices, slice, team]
  simp only [Option.bind_some, course, thread, Option.map_some]
  obtain ⟨m, written⟩ := (calm_teamWrite u tk _ _).threads _ _ _ _ left
  exact ⟨sv, m, _, (State.threadAt_onThread _ _ _ _ _ _ _ _).trans (by rw [if_pos ⟨rfl, rfl, rfl⟩, written, Option.map_some]; rfl)⟩

end Program

/-- R358 to R360. -/
theorem deliver_program (s : State) (t : Team) (x : Slice) (r : Req) (th : Thread) (ht : FMap.get s.teams s.issue.team = some t) (hx : s.sliceOf t = some x)
    (hth : s.threadAt s.issue.team r.course r.lane = some th) (program : r.isProgram = true) :
    let resume := if r.done then s.issue.next else s.issue.addr
    ∃ s' th', s.deliver [r] = s' ∧ s'.threadAt s.issue.team r.course r.lane = some th' ∧
      th'.fault = r.faultWord (decide (t.trapbase = 0) || th.inHandler) ∧ th'.faultaddr = r.addr.getD 0 ∧
      th'.faultmask = (if r.addr.isSome then maskOf [r.lane] else 0) ∧ (th'.tsw.toNat / 2 ^ 16 % 256 = r.code.num) ∧
      th'.preds = th.preds ∧ th'.stack = th.stack ∧ th'.root = th.root ∧ th'.ords = th.ords ∧
      if t.trapbase = 0 ∨ th.inHandler = true then th'.pc = resume ∧ th'.tpc = th.tpc ∧ th'.inHandler = th.inHandler ∧
        ∃ token, th'.parked = some ⟨r.code.num, token⟩
      else th'.pc = t.trapbase ∧ th'.tpc = resume ∧ th'.inHandler = true ∧ th'.parked = th.parked := by
  intro resume
  have escalated : (decide (t.trapbase = 0) || th.inHandler) = decide (t.trapbase = 0 ∨ th.inHandler = true) := by
    rw [Bool.decide_or, Bool.decide_eq_true]
  rw [s.deliver_single, if_pos program, escalated]
  by_cases blocked : t.trapbase = 0 ∨ th.inHandler = true
  · obtain ⟨th', parked, token, sv, m, by', st, rfl⟩ := State.deliverSystem_thread ht hth (maskOf [r.lane]) true resume
    refine ⟨_, _, State.deliverProgram_escalates ht hth _ blocked, parked, ?_, rfl, rfl, ?_, rfl, rfl, rfl, rfl, ?_⟩
    · rw [decide_eq_true blocked]
      rfl
    · dsimp only [Thread.parkFor]
      rw [Req.not_halts_of_isProgram program]
      exact setLastFault_code _ _
    · rw [if_pos blocked]
      exact ⟨rfl, rfl, rfl, token, rfl⟩
  · obtain ⟨sv, m, now, entered⟩ := State.deliverProgram_enters ht hth (maskOf [r.lane]) hx blocked
    refine ⟨_, _, rfl, entered, ?_, rfl, rfl, setLastFault_code _ _, rfl, rfl, rfl, rfl, ?_⟩
    · rw [decide_eq_false blocked]
      rfl
    · rw [if_neg blocked]
      exact ⟨rfl, rfl, rfl, rfl⟩

/-- R362, R376. -/
theorem deliver_system (s : State) (t : Team) (r : Req) (th : Thread) (ht : FMap.get s.teams s.issue.team = some t)
    (hth : s.threadAt s.issue.team r.course r.lane = some th) (system : r.isProgram = false) :
    ∃ s' th' token, s.deliver [r] = s' ∧ s'.threadAt s.issue.team r.course r.lane = some th' ∧ th'.parked = some ⟨r.code.num, token⟩ ∧
      th'.pc = (if r.done then s.issue.next else s.issue.addr) ∧ th'.fault = r.faultWord false ∧ th'.faultaddr = r.addr.getD 0 ∧
      th'.halted = (th.halted || r.code == .brk || r.code == .step) ∧ Instr.faultRecordPost (Fin.ofNat 16 t.part) ∈ s'.agenda := by
  rw [s.deliver_single, system, if_neg Bool.false_ne_true]
  obtain ⟨th', parked, token, sv, m, by', st, rfl⟩ :=
    State.deliverSystem_thread ht hth (maskOf [r.lane]) false (if r.done then s.issue.next else s.issue.addr)
  refine ⟨_, _, token, rfl, parked, rfl, rfl, rfl, rfl, ?_, State.deliverSystem_agenda ht _ _ _ _⟩
  have halts : (r.code == .brk || r.code == .step) = r.halts := rfl
  rw [Bool.or_assoc, halts]
  dsimp only [Thread.halted, Thread.parkFor]
  cases r.halts with
  | false => exact (setLastFault_halt _ _).trans (Bool.or_false _).symm
  | true =>
    have set : haltBit.getLsbD 30 = true := by decide
    rw [if_pos rfl, BitVec.getLsbD_or, set, Bool.or_true, Bool.or_true]

/-! ## Returning (R141, R361) -/

theorem State.retire_nil (s : State) (pc : W64) : s.retire [] pc = s := by
  have same : (fun t : Team => ({ t with courses := onwardAll t.courses [] pc s.cycle } : Team)) = fun t => t := funext fun t => by rw [onwardAll_nil]
  rw [retire_eq, same, FMap.modify_id, List.map_nil, List.append_nil]

/-- A read that the device answers changes nothing. -/
theorem State.eq_of_teamRead {s s1 : State} {tk va n : Nat} {b : List Byte} (h : s.teamRead tk va n = (s1, some b)) : s1 = s := by
  unfold State.teamRead at h
  split at h
  · cases h
  · split at h
    · cases h
      rfl
    · have none := congrArg Prod.snd h
      dsimp only at none
      rw [apply_ite Prod.snd, ite_self] at none
      cases none

/-- A thread whose trap record can be read leaves its handler. -/
theorem State.returnFromTrap_thread {s : State} {tk : Nat} {t : Team} {x : Slice} {c l : Nat} {th : Thread} {b : List Byte}
    (ht : FMap.get s.teams tk = some t) (hx : s.sliceOf t = some x) (hth : s.threadAt tk c l = some th)
    (read : s.teamRead tk (x.trapRecord t.index c l) 1024 = (s, some b)) :
    ∃ sv m now, (s.returnFromTrap tk c l).threadAt tk c l = some { th with
      monitor := m, preds := BitVec.ofNat 12 (bytesAt b 0x24 2), saved := sv, inHandler := false, pc := th.tpc, readySince := now } := by
  have slice : FMap.get s.slices (sliceKey t.part t.slice) = some x := hx
  unfold State.returnFromTrap
  rw [ht, Option.bind_some, slice]
  dsimp only
  rw [read]
  dsimp only
  obtain ⟨m, written⟩ := (calm_teamWrite s tk _ _).threads _ _ _ _ hth
  exact ⟨_, m, _, (State.threadAt_onThread _ _ _ _ _ _ _ _).trans (by rw [if_pos ⟨rfl, rfl, rfl⟩, written, Option.map_some])⟩

/-- Whether a thread is inside its handler. -/
def State.inside (s : State) (tk : Nat) (m : Nat × Nat) : Bool := match s.threadAt tk m.1 m.2 with | some t => t.inHandler | none => false

/-- A thread that returns, retired if its trap record could be read. -/
def State.returnOne (tk : Nat) (s : State) (m : Nat × Nat) : State :=
  let u := s.returnFromTrap tk m.1 m.2
  if u.inside tk m then u else { u with issue := { u.issue with retired := u.issue.retired ++ [(tk, m.1, m.2)] } }

theorem State.threadAt_returnOne (tk : Nat) (s : State) (m : Nat × Nat) (uk d l : Nat) :
    (State.returnOne tk s m).threadAt uk d l = (s.returnFromTrap tk m.1 m.2).threadAt uk d l :=
  apply_ite_prop (p := fun u : State => u.threadAt uk d l = (s.returnFromTrap tk m.1 m.2).threadAt uk d l) rfl rfl

/-- What rett does where the members `go` are inside their handlers and the members `stay` are not. -/
def State.returnAll (s : State) (go stay : List (Nat × Nat)) : State :=
  let dropped := go.foldl (fun u m => u.onCourse s.issue.team m.1 fun x => x.dropLatch 2 [m.2]) s
  (go.foldl (State.returnOne s.issue.team) (dropped.retire dropped.issue.falseParts dropped.issue.next)).deliver
    (stay.map fun m => { course := m.1, lane := m.2, code := .priv, detail := 0x3F })

theorem exec_rett (s : State) : exec .rett s =
    .next (s.returnAll (s.issue.parts.partition (s.inside s.issue.team)).1 (s.issue.parts.partition (s.inside s.issue.team)).2) :=
  (rfl : execRett s = _)

section Return
variable {s : State} {t : Team} {c l : Nat} (h : Solo s t c l)
include h

theorem Solo.inside : s.inside s.issue.team (c, l) = ((t.course c).thread l).inHandler := by
  rw [State.inside, h.threadAt]

theorem Solo.exec_rett_inside (inside : ((t.course c).thread l).inHandler = true) :
    exec .rett s = .next (State.returnOne s.issue.team (s.onCourse s.issue.team c fun y => y.dropLatch 2 [l]) (c, l)) := by
  have go : s.issue.parts.partition (s.inside s.issue.team) = ([(c, l)], []) := by
    rw [h.parts, List.partition_eq_filter_filter]
    simp [h.inside, inside]
  have none : (s.onCourse s.issue.team c fun y => y.dropLatch 2 [l]).issue.falseParts = [] := h.falseParts
  rw [exec_rett, go]
  unfold State.returnAll
  dsimp only [List.foldl_cons, List.foldl_nil]
  rw [none, State.retire_nil]
  rfl

/-- R141: PRIV. -/
theorem Solo.exec_rett_outside (outside : ((t.course c).thread l).inHandler = false) :
    exec .rett s = .next (s.deliver [{ course := c, lane := l, code := .priv, detail := 0x3F }]) := by
  have stay : s.issue.parts.partition (s.inside s.issue.team) = ([], [(c, l)]) := by
    rw [h.parts, List.partition_eq_filter_filter]
    simp [h.inside, outside]
  rw [exec_rett, stay]
  unfold State.returnAll
  dsimp only [List.foldl_nil]
  rw [h.falseParts, State.retire_nil]
  rfl

theorem Solo.threadAt_dropLatch : ∃ sv, (s.onCourse s.issue.team c fun y => y.dropLatch 2 [l]).threadAt s.issue.team c l =
    some { (t.course c).thread l with saved := sv } := by
  obtain ⟨u, x, hu, hx, hth⟩ := State.threadAt_some (r := ⟨s.issue.team, c, l⟩) h.threadAt
  dsimp only at hu hx hth
  have after := State.threadAt_onCourse s s.issue.team c (fun y => y.dropLatch 2 [l]) s.issue.team c l
  rw [if_pos ⟨rfl, rfl⟩, hu, Option.bind_some, hx, Option.bind_some, dropLatch_get, hth, Option.map_some, if_pos (by simp)] at after
  exact ⟨_, after⟩

/-- R141, R361. -/
theorem Solo.rett_returns {x : Slice} {b : List Byte} {s1 : State} (hx : s.sliceOf t = some x)
    (inside : ((t.course c).thread l).inHandler = true)
    (read : (s.onCourse s.issue.team c fun y => y.dropLatch 2 [l]).teamRead s.issue.team (x.trapRecord t.index c l) 1024 = (s1, some b)) :
    ∃ s' th', exec .rett s = .next s' ∧ s'.threadAt s.issue.team c l = some th' ∧ th'.pc = ((t.course c).thread l).tpc ∧ th'.inHandler = false ∧
      th'.preds = BitVec.ofNat 12 (bytesAt b 0x24 2) ∧ th'.stack = ((t.course c).thread l).stack ∧ th'.tsw = ((t.course c).thread l).tsw := by
  obtain rfl := State.eq_of_teamRead read
  obtain ⟨sv, dropped⟩ := h.threadAt_dropLatch
  have team := (onCourse_get s s.issue.team c fun y => y.dropLatch 2 [l]).trans (congrArg _ h.team)
  obtain ⟨sv', m, now, returned⟩ := State.returnFromTrap_thread team hx dropped read
  exact ⟨_, _, h.exec_rett_inside inside, (State.threadAt_returnOne _ _ _ _ _ _).trans returned, rfl, rfl, rfl, rfl, rfl⟩

end Return

/-! ## Guards (R92) -/

theorem exec_guardPrefix (p : PredSel) (neg : Bool) (s : State) (t : Team) (ht : FMap.get s.teams s.issue.team = some t) :
    exec (.guardPrefix p neg) s = .next { s with issue := { s.issue with
      parts := s.issue.lift.filter fun m => ((t.course m.1).thread m.2).predSel p != neg } } := by
  have cur : s.curTeam = some t := ht
  refine (rfl : _ = execGuardPrefix p neg s).trans ?_
  unfold execGuardPrefix
  rw [cur]

/-- Settles O39: a raised fault by the frame of its unit, its delivery by what becomes of the thread, rett by its thread alone. -/
theorem trapsAndReturns : Obligations.TrapsAndReturns := by
  unfold Obligations.TrapsAndReturns
  exact ⟨⟨raise_stays, deliver_program, deliver_system⟩,
    fun s t x c l b s1 h hx inside read => h.rett_returns hx inside read, fun s t c l h outside => h.exec_rett_outside outside, exec_guardPrefix⟩

end Sys2Proof.Machine
end

section
/-!
SUPPORT. Lane instructions by their functions: the packed forms (R163, R181) compute each element in its own format, and the minima and maxima (R159)
choose by NaN and by order. `packedArithmetic` settles O6, `minimumAndMaximum` settles O54.
-/

namespace Sys2Proof.Machine

/-! ## A lane instruction by its function -/

/-- An instruction that runs a function of the table lane by lane gives every participating thread its value at that thread's operands. -/
theorem laneUnit_of_fn {i : Instr} {d : Dst} {f : List W64 → W64} (fn : Fn) (srcs : List Src) (run : ∀ s, exec i s = s.laneFn fn d srcs)
    (wf : WellFormed i = true → d.pairOk fn.wide = true ∧ ∀ o ∈ fn.tys.zip srcs, o.2.pairOk o.1 = true) (computes : fn.f = f)
    (pipe : fn.pipe < 4 := by decide) : LaneUnit i fn.wide fn.third fn.pipe d (fn.tys.zip srcs) f := by
  intro h s t lifted readable
  obtain ⟨hd, hs⟩ := wf h
  rw [run, ← computes]
  exact laneFn_spec lifted readable hd hs pipe

/-! ## Functions of two elements (R163, R181) -/

/-- Each element is as wide as a code of the format, and the function takes it alone. -/
theorem pk2_width {f : Fmt} {w : Nat} (width : f.ebits + f.mant + 1 = w) (g : Fmt → Nat → Nat → Nat) :
    pk2 f g = fn2 fun x y => packed w (g f (elem w 0 x) (elem w 0 y)) (g f (elem w 1 x) (elem w 1 y)) := by
  rw [← width]
  rfl

theorem pk3_width {f : Fmt} {w : Nat} (width : f.ebits + f.mant + 1 = w) (g : Fmt → Nat → Nat → Nat → Nat) :
    pk3 f g = fn3 fun x y z => packed w (g f (elem w 0 x) (elem w 0 y) (elem w 0 z)) (g f (elem w 1 x) (elem w 1 y) (elem w 1 z)) := by
  rw [← width]
  rfl

theorem width_f16 : Fmt.f16.ebits + Fmt.f16.mant + 1 = 16 := rfl

theorem width_bf16 : Fmt.bf16.ebits + Fmt.bf16.mant + 1 = 16 := rfl

theorem width_f32 : Fmt.f32.ebits + Fmt.f32.mant + 1 = 32 := rfl

/-- Settles O6: each instruction by its function, whose elements are as wide as the codes of its format. -/
theorem packedArithmetic : Obligations.PackedArithmetic := by
  unfold Obligations.PackedArithmetic
  intro d a b
  exact ⟨laneUnit_of_fn fnFaddF16x2 [a, b] (fun _ => rfl) pairOk_of_wfR2 (pk2_width width_f16 fun f => f.add .rne),
    laneUnit_of_fn fnFsubF16x2 [a, b] (fun _ => rfl) pairOk_of_wfR2 (pk2_width width_f16 fun f => f.sub .rne),
    laneUnit_of_fn fnFmulF16x2 [a, b] (fun _ => rfl) pairOk_of_wfR2 (pk2_width width_f16 fun f => f.mul .rne),
    laneUnit_of_fn fnFaddBf16x2 [a, b] (fun _ => rfl) pairOk_of_wfR2 (pk2_width width_bf16 fun f => f.add .rne),
    laneUnit_of_fn fnFsubBf16x2 [a, b] (fun _ => rfl) pairOk_of_wfR2 (pk2_width width_bf16 fun f => f.sub .rne),
    laneUnit_of_fn fnFmulBf16x2 [a, b] (fun _ => rfl) pairOk_of_wfR2 (pk2_width width_bf16 fun f => f.mul .rne),
    laneUnit_of_fn fnFfmaF16x2 [a, b] (fun _ => rfl) pairOk_of_wfR2 (pk3_width width_f16 fun f => f.fma .rne),
    laneUnit_of_fn fnFfmaBf16x2 [a, b] (fun _ => rfl) pairOk_of_wfR2 (pk3_width width_bf16 fun f => f.fma .rne),
    laneUnit_of_fn fnFfmaF32x2 [a, b] (fun _ => rfl) pairOk_of_wfR2 (pk3_width width_f32 fun f => f.fma .rne)⟩

/-! ## Minimum and maximum (R159) -/

/-- The FP32 code of an operand is its low word. -/
theorem code_f32 (x : W64) : x.toNat % (2 * Fmt.f32.signBit) = (lo32 x).toNat := (toNat_lo32 x).symm

/-- The FP64 code of an operand is the operand. -/
theorem code_f64 (x : W64) : x.toNat % (2 * Fmt.f64.signBit) = x.toNat := Nat.mod_eq_of_lt x.isLt

/-- The order of two numbers is that of their keys (R166). -/
theorem Fmt.lt_of_numbers {f : Fmt} {a b : Nat} (ha : f.isNan a = false) (hb : f.isNan b = false) : f.lt a b = decide (f.ord a < f.ord b) := by
  simp [Fmt.lt, ha, hb]

/-- What `pick` answers: the canonical NaN, the number beside a NaN, or the smaller or larger of two numbers. -/
theorem Fmt.pick_cases (f : Fmt) (wantMax number : Bool) (a b : Nat) :
    f.pick wantMax number a b =
      if f.isNan a && f.isNan b then f.qnan
      else if f.isNan a then if number then b else f.qnan
      else if f.isNan b then if number then a else f.qnan
      else if if wantMax then f.lt a b else f.lt b a then b else a := by
  cases ha : f.isNan a with
  | true => cases hb : f.isNan b <;> simp [Fmt.pick, ha, hb]
  | false =>
    cases hb : f.isNan b with
    | true => simp [Fmt.pick, ha, hb]
    | false =>
      rw [Fmt.lt_of_numbers ha hb, Fmt.lt_of_numbers hb ha]
      cases wantMax <;> simp [Fmt.pick, ha, hb]

/-- `Fmt.pick_cases` for an instruction's operands, where `code` reads the format's code of one. -/
theorem fp2_pick {f : Fmt} {code : W64 → Nat} (reads : ∀ x, x.toNat % (2 * f.signBit) = code x) (wantMax number : Bool) :
    fp2 f (fun f => f.pick wantMax number) = fn2 fun x y =>
      if f.isNan (code x) && f.isNan (code y) then nat64 f.qnan
      else if f.isNan (code x) then nat64 (if number then code y else f.qnan)
      else if f.isNan (code y) then nat64 (if number then code x else f.qnan)
      else nat64 (if if wantMax then f.lt (code x) (code y) else f.lt (code y) (code x) then code y else code x) :=
  congrArg fn2 (funext₂ fun x y => by simp only [reads, Fmt.pick_cases, apply_ite nat64])

/-- Settles O54: each instruction by its function, which chooses as `Fmt.pick_cases` says; the order of the zeros by their keys. -/
theorem minimumAndMaximum : Obligations.MinimumAndMaximum := by
  unfold Obligations.MinimumAndMaximum
  intro d a b
  exact ⟨laneUnit_of_fn fnFminF32 [a, b] (fun _ => rfl) pairOk_of_wfR2 (fp2_pick code_f32 false false),
    laneUnit_of_fn fnFmaxF32 [a, b] (fun _ => rfl) pairOk_of_wfR2 (fp2_pick code_f32 true false),
    laneUnit_of_fn fnFminnF32 [a, b] (fun _ => rfl) pairOk_of_wfR2 (fp2_pick code_f32 false true),
    laneUnit_of_fn fnFmaxnF32 [a, b] (fun _ => rfl) pairOk_of_wfR2 (fp2_pick code_f32 true true),
    laneUnit_of_fn fnFminF64 [a, b] (fun _ => rfl) pairOk_of_wfR2 (fp2_pick code_f64 false false),
    laneUnit_of_fn fnFmaxF64 [a, b] (fun _ => rfl) pairOk_of_wfR2 (fp2_pick code_f64 true false),
    laneUnit_of_fn fnFminnF64 [a, b] (fun _ => rfl) pairOk_of_wfR2 (fp2_pick code_f64 false true),
    laneUnit_of_fn fnFmaxnF64 [a, b] (fun _ => rfl) pairOk_of_wfR2 (fp2_pick code_f64 true true),
    uniUnit_of_fn fnFminF32 [a, b] (fun _ => rfl) pairOk_of_wfR2 (fp2_pick code_f32 false false),
    uniUnit_of_fn fnFmaxF32 [a, b] (fun _ => rfl) pairOk_of_wfR2 (fp2_pick code_f32 true false),
    by decide, by decide⟩

end Sys2Proof.Machine
end

section
/-!
SUPPORT. The lane integer instructions by their functions: arithmetic (R171, R172, R178), logic and shifts (R173), bit fields and lea (R174, R176).
`integerArithmetic` settles O1, `logicAndShifts` settles O2, `bitFieldsAndAddresses` settles O3.
-/

namespace Sys2Proof.Machine

/-! ## Arithmetic (R171, R172, R178) -/

/-- The larger of two is the same whichever is tested to be at most the other. -/
theorem larger_either {α β : Type} [LinearOrder β] {key : α → β} (inj : Function.Injective key) (a b : α) :
    (if key b ≤ key a then a else b) = if key a ≤ key b then b else a := by
  rcases lt_trichotomy (key a) (key b) with less | same | more
  · rw [if_neg less.not_ge, if_pos less.le]
  · rw [inj same]
  · rw [if_pos more.le, if_neg more.not_ge]

theorem fnMaxN32_computes : fnMaxN32.f = fn2 fun x y => zx64 (if (lo32 x).toNat ≤ (lo32 y).toNat then lo32 y else lo32 x) :=
  congrArg fn2 (funext₂ fun _ _ => congrArg zx64 (larger_either (fun _ _ => BitVec.eq_of_toNat_eq) _ _))

theorem fnMaxI32_computes : fnMaxI32.f = fn2 fun x y => zx64 (if (lo32 x).toInt ≤ (lo32 y).toInt then lo32 y else lo32 x) :=
  congrArg fn2 (funext₂ fun _ _ => congrArg zx64 (larger_either (fun _ _ => BitVec.eq_of_toInt_eq) _ _))

/-- Settles O1: each instruction by its function; the maxima test their operands from the other side. -/
theorem integerArithmetic : Obligations.IntegerArithmetic := by
  unfold Obligations.IntegerArithmetic
  intro d a b imm
  exact ⟨laneUnit_of_fn fnAddB32 [a, b] (fun _ => rfl) pairOk_of_wfR2 rfl,
    laneUnit_of_fn fnAddB64 [a, b] (fun _ => rfl) pairOk_of_wfR2 rfl,
    laneUnit_of_fn fnSubB32 [a, b] (fun _ => rfl) pairOk_of_wfR2 rfl,
    laneUnit_of_fn fnSubB64 [a, b] (fun _ => rfl) pairOk_of_wfR2 rfl,
    laneUnit_of_fn (fnAddiB32 imm) [a] (fun _ => rfl) pairOk_of_wfI1 rfl (show 0 < 4 by decide),
    laneUnit_of_fn (fnAddiB64 imm) [a] (fun _ => rfl) pairOk_of_wfI1 rfl (show 0 < 4 by decide),
    laneUnit_of_fn fnMulB32 [a, b] (fun _ => rfl) pairOk_of_wfR2 rfl,
    laneUnit_of_fn fnMulB64 [a, b] (fun _ => rfl) pairOk_of_wfR2 rfl,
    laneUnit_of_fn fnMulhiI32 [a, b] (fun _ => rfl) pairOk_of_wfR2 rfl,
    laneUnit_of_fn fnMulhiN32 [a, b] (fun _ => rfl) pairOk_of_wfR2 rfl,
    laneUnit_of_fn fnMulwI32 [a, b] (fun _ => rfl) pairOk_of_wfR2 rfl,
    laneUnit_of_fn fnMulwN32 [a, b] (fun _ => rfl) pairOk_of_wfR2 rfl,
    laneUnit_of_fn fnDivI32 [a, b] (fun _ => rfl) pairOk_of_wfR2 rfl,
    laneUnit_of_fn fnDivN32 [a, b] (fun _ => rfl) pairOk_of_wfR2 rfl,
    laneUnit_of_fn fnRemI32 [a, b] (fun _ => rfl) pairOk_of_wfR2 rfl,
    laneUnit_of_fn fnRemN32 [a, b] (fun _ => rfl) pairOk_of_wfR2 rfl,
    laneUnit_of_fn fnMinN32 [a, b] (fun _ => rfl) pairOk_of_wfR2 rfl,
    laneUnit_of_fn fnMaxN32 [a, b] (fun _ => rfl) pairOk_of_wfR2 fnMaxN32_computes,
    laneUnit_of_fn fnMinI32 [a, b] (fun _ => rfl) pairOk_of_wfR2 rfl,
    laneUnit_of_fn fnMaxI32 [a, b] (fun _ => rfl) pairOk_of_wfR2 fnMaxI32_computes⟩

/-! ## Logic and shifts (R173) -/

/-- An arithmetic shift by the width less one leaves the sign in every bit. -/
theorem sshiftRight_pred_width {w : Nat} (x : BitVec w) : x.sshiftRight (w - 1) = if x.msb then BitVec.allOnes w else 0#w := by
  have sign (i : Nat) (hi : i < w) : (x.sshiftRight (w - 1))[i] = x.msb := by
    rw [BitVec.getElem_sshiftRight]
    split
    · next h =>
      obtain rfl : i = 0 := by omega
      rw [BitVec.msb_eq_getLsbD_last, BitVec.getLsbD_eq_getElem]
      rfl
    · rfl
  ext i hi
  rw [sign i hi]
  cases x.msb with
  | true => exact (BitVec.getElem_allOnes i hi).symm
  | false => simp

theorem shrI64_eq_shiftBy (x y : W64) :
    shrI64 x y = shiftBy BitVec.sshiftRight x (lo32 y) (if x.getLsbD 63 then 0xFFFFFFFFFFFFFFFF else 0) := by
  unfold shrI64 shiftBy
  split
  · rw [Nat.min_eq_left (by omega)]
  · rw [Nat.min_eq_right (by omega), ← BitVec.msb_eq_getLsbD_last]
    exact sshiftRight_pred_width x

/-- Settles O2: each instruction by its function; the arithmetic shifts stop one short of the width, which leaves the sign. -/
theorem logicAndShifts : Obligations.LogicAndShifts := by
  unfold Obligations.LogicAndShifts
  intro d a b
  exact ⟨laneUnit_of_fn fnAndB32 [a, b] (fun _ => rfl) pairOk_of_wfR2 rfl,
    laneUnit_of_fn fnOrB32 [a, b] (fun _ => rfl) pairOk_of_wfR2 rfl,
    laneUnit_of_fn fnXorB32 [a, b] (fun _ => rfl) pairOk_of_wfR2 rfl,
    laneUnit_of_fn fnAndB64 [a, b] (fun _ => rfl) pairOk_of_wfR2 rfl,
    laneUnit_of_fn fnOrB64 [a, b] (fun _ => rfl) pairOk_of_wfR2 rfl,
    laneUnit_of_fn fnXorB64 [a, b] (fun _ => rfl) pairOk_of_wfR2 rfl,
    laneUnit_of_fn fnShlB32 [a, b] (fun _ => rfl) pairOk_of_wfR2 rfl,
    laneUnit_of_fn fnShrN32 [a, b] (fun _ => rfl) pairOk_of_wfR2 rfl,
    laneUnit_of_fn fnShrI32 [a, b] (fun _ => rfl) pairOk_of_wfR2 fnShrI32_computes,
    laneUnit_of_fn fnShlB64 [a, b] (fun _ => rfl) pairOk_of_wfR2 rfl,
    laneUnit_of_fn fnShrN64 [a, b] (fun _ => rfl) pairOk_of_wfR2 rfl,
    laneUnit_of_fn fnShrI64 [a, b] (fun _ => rfl) pairOk_of_wfR2 (congrArg fn2 (funext₂ shrI64_eq_shiftBy))⟩

/-! ## Bit fields and lea (R174, R176) -/

/-- A field cut out by division is the one masked after a shift: its mask is not cut, since a field is no longer than a word. -/
theorem bfx32_eq_extractField (a b : W32) : bfx32 a b = extractField a b := by
  have len : fieldLen b ≤ 32 := (Nat.min_le_right _ _).trans (Nat.sub_le _ _)
  have mask : 2 ^ fieldLen b - 1 < 2 ^ 32 := Nat.sub_one_lt_of_le (Nat.two_pow_pos _) (Nat.pow_le_pow_right (by decide) len)
  have field : a.toNat / 2 ^ fieldPos b % 2 ^ fieldLen b < 2 ^ 32 := (Nat.mod_le _ _).trans_lt ((Nat.div_le_self _ _).trans_lt a.isLt)
  apply BitVec.eq_of_toNat_eq
  calc (bfx32 a b).toNat = a.toNat / 2 ^ fieldPos b % 2 ^ fieldLen b := by rw [bfx32, BitVec.toNat_ofNat, Nat.mod_eq_of_lt field]
    _ = (a.toNat >>> fieldPos b) &&& (2 ^ fieldLen b - 1) := by rw [Nat.and_two_pow_sub_one_eq_mod, Nat.shiftRight_eq_div_pow]
    _ = (extractField a b).toNat := by
      change _ = ((a >>> fieldPos b) &&& BitVec.ofNat 32 (2 ^ fieldLen b - 1)).toNat
      rw [BitVec.toNat_and, BitVec.toNat_ushiftRight, BitVec.toNat_ofNat, Nat.mod_eq_of_lt mask]

theorem fnBfxB32_computes : fnBfxB32.f = fn2 fun x y => zx64 (extractField (lo32 x) (lo32 y)) :=
  congrArg fn2 (funext₂ fun x y => by rw [bfx32_eq_extractField])

/-- Settles O3: each instruction by its function; a field is cut out, and put in, through its mask. -/
theorem bitFieldsAndAddresses : Obligations.BitFieldsAndAddresses := by
  unfold Obligations.BitFieldsAndAddresses
  intro d a b
  exact ⟨laneUnit_of_fn fnBfxB32 [a, b] (fun _ => rfl) pairOk_of_wfR2 fnBfxB32_computes,
    laneUnit_of_fn fnBfiB32 [a, b] (fun _ => rfl) pairOk_of_wfR2 fnBfiB32_computes,
    laneUnit_of_fn fnLea [a, b] (fun _ => rfl) pairOk_of_wfR2 rfl⟩

end Sys2Proof.Machine
end

section
/-!
SUPPORT. The bit functions (R175): the model's functions of numbers agree with the statements' readings of an operand's bits. `bitFunctions` settles O4.
-/

namespace Sys2Proof.Machine

/-! ## Bits of an operand -/

/-- A number whose bits are the low `w` ones of an operand. -/
def ReadsBits (w n : Nat) (x : W64) : Prop := n < 2 ^ w ∧ ∀ i < w, n.testBit i = x.getLsbD i

theorem readsBits_lo32 (x : W64) : ReadsBits 32 (lo32 x).toNat x := by
  refine ⟨(lo32 x).isLt, fun i hi => ?_⟩
  rw [toNat_lo32, Nat.testBit_mod_two_pow, decide_eq_true hi, Bool.true_and]
  rfl

theorem readsBits_toNat (x : W64) : ReadsBits 64 x.toNat x := ⟨x.isLt, fun _ _ => rfl⟩

theorem findIdx_range_le (w : Nat) (p : Nat → Bool) : (List.range w).findIdx p ≤ w := by
  simpa using List.findIdx_le_length (p := p) (xs := List.range w)

/-- How many numbers from 0 on fail a test is the place of the first that passes it. -/
theorem length_takeWhile_not (w : Nat) (p : Nat → Bool) : ((List.range w).takeWhile fun i => !p i).length = (List.range w).findIdx p := by
  rw [List.takeWhile_eq_take_findIdx_not, List.length_take, List.length_range]
  simpa using findIdx_range_le w p

section Bits
variable {w n : Nat} {x : W64}

theorem popcN_eq_bitsSet (h : ReadsBits w n x) : popcN w n = bitsSet w x := by
  rw [popcN, bitsSet, List.countP_eq_length_filter]
  exact congrArg List.length (List.filter_congr fun i hi => h.2 i (List.mem_range.mp hi))

theorem ctzN_eq_trailingZeros (h : ReadsBits w n x) : ctzN w n = trailingZeros w x := by
  have same : (List.range w).find? (fun i => n.testBit i) = (List.range w).find? fun i => x.getLsbD i :=
    List.find?_congr fun i hi => h.2 i (List.mem_range.mp hi)
  have place := findIdx_range_le w fun i => x.getLsbD i
  rw [ctzN, trailingZeros, length_takeWhile_not, same, List.find?_eq_getElem?_findIdx]
  rcases place.lt_or_eq with found | all
  · rw [List.getElem?_range found, Option.getD_some]
  · rw [all, List.getElem?_eq_none (by simp), Option.getD_none]

/-- The highest set bit is the first one from the top. -/
theorem clzN_eq_leadingZeros (h : ReadsBits w n x) : clzN w n = leadingZeros w x := by
  obtain ⟨small, bits⟩ := h
  rw [clzN, leadingZeros, length_takeWhile_not]
  split
  · next zero =>
    refine (List.length_range.symm.trans (List.findIdx_eq_length.mpr fun i hi => ?_).symm)
    have := List.mem_range.mp hi
    rw [← bits _ (by omega), zero, Nat.zero_testBit]
  · next some =>
    have top : n.log2 < w := (Nat.log2_lt some).mpr small
    refine ((List.findIdx_eq (by simp; omega)).mpr ⟨?_, fun j hj => ?_⟩).symm
    · rw [List.getElem_range, ← bits _ (by omega), show w - 1 - (w - 1 - n.log2) = n.log2 by omega, Nat.testBit_log2 some]
    · rw [List.getElem_range, ← bits _ (by omega)]
      exact Nat.testBit_lt_two_pow ((Nat.log2_lt some).mp (by omega))

end Bits

/-! ## Reversals -/

theorem brevN_succ (w n : Nat) : brevN (w + 1) n = Nat.bit (n.testBit w) (brevN w n) := by
  simp [brevN, List.range_succ, Nat.bit_val]

theorem testBit_brevN (w n i : Nat) : (brevN w n).testBit i = (decide (i < w) && n.testBit (w - 1 - i)) := by
  induction w generalizing i with
  | zero => simp [brevN]
  | succ w ih =>
    rw [brevN_succ]
    cases i with
    | zero => simp
    | succ i =>
      rw [Nat.testBit_bit_succ, ih, show w + 1 - 1 - (i + 1) = w - 1 - i by omega]
      simp

/-- brev's number is the word in reverse. -/
theorem ofNat_brevN {w : Nat} (x : BitVec w) : BitVec.ofNat w (brevN w x.toNat) = x.reverse := by
  ext i hi
  rw [BitVec.getElem_reverse, BitVec.getMsbD_eq_getLsbD, ← BitVec.getLsbD_eq_getElem, BitVec.getLsbD_ofNat, testBit_brevN, decide_eq_true hi]
  rfl

theorem ofNat_of_eq_toNat {w n : Nat} {v : BitVec w} (h : n = v.toNat) : BitVec.ofNat w n = v := by
  rw [h, BitVec.ofNat_toNat, BitVec.setWidth_eq]

theorem toNat_append_byte {m : Nat} (a : BitVec m) (b : Byte) : (a ++ b).toNat = b.toNat + 256 * a.toNat := by
  rw [BitVec.toNat_append, ← Nat.shiftLeft_add_eq_or_of_lt b.isLt, Nat.shiftLeft_eq, Nat.add_comm, Nat.mul_comm]

/-- The bytes of a number are those of the operand whose bits it reads. -/
theorem leBytes_eq_byteOf {n : Nat} {x : W64} (k : Nat) (h : ReadsBits (8 * k) n x) : leBytes k n = (List.range k).map fun i => byteOf i x := by
  refine List.map_congr_left fun i hi => ?_
  have := List.mem_range.mp hi
  ext j hj
  rw [BitVec.getElem_extractLsb', ← BitVec.getLsbD_eq_getElem, BitVec.getLsbD_ofNat, Nat.testBit_div_two_pow, ← h.2 _ (by omega), decide_eq_true hj,
    Bool.true_and, Nat.add_comm]

theorem ofNat_bswapN_4 {n : Nat} {x : W64} (h : ReadsBits 32 n x) :
    BitVec.ofNat 32 (bswapN 4 n) = byteOf 0 x ++ byteOf 1 x ++ byteOf 2 x ++ byteOf 3 x := by
  refine ofNat_of_eq_toNat ?_
  rw [bswapN, leBytes_eq_byteOf 4 h]
  simp only [toNat_append_byte]
  rfl

theorem ofNat_bswapN_8 {n : Nat} {x : W64} (h : ReadsBits 64 n x) :
    BitVec.ofNat 64 (bswapN 8 n) = byteOf 0 x ++ byteOf 1 x ++ byteOf 2 x ++ byteOf 3 x ++ byteOf 4 x ++ byteOf 5 x ++ byteOf 6 x ++ byteOf 7 x := by
  refine ofNat_of_eq_toNat ?_
  rw [bswapN, leBytes_eq_byteOf 8 h]
  simp only [toNat_append_byte]
  rfl

/-! ## The bit functions -/

/-- A low part of the low word is that part of the operand. -/
theorem ofNat_toNat_lo32 {w : Nat} (hw : w ≤ 32) (x : W64) : BitVec.ofNat w (lo32 x).toNat = x.setWidth w := by
  rw [BitVec.ofNat_toNat, BitVec.setWidth_setWidth_of_le x hw]

/-- A bit function of the lanes, by what it makes of an operand. -/
theorem laneUnit_of_bitFn {i : Instr} {d : Dst} {f : W64 → W64} (k : BitOp) (a : Src) (run : ∀ s, exec i s = s.laneFn (fnBit k) d [a])
    (wf : WellFormed i = wfR1 k.ty k.wide d a) (computes : ∀ x, bitFn k x = f x) : LaneUnit i k.wide false 0 d [(k.ty, a)] (fn1 f) :=
  laneUnit_of_fn (fnBit k) [a] run (fun h => pairOk_of_wfR1 (wf ▸ h)) (congrArg fn1 (funext computes)) (show 0 < 4 by decide)

/-- Settles O4: each instruction by its bit function; the counts, reversals and extensions read the operand's bits. -/
theorem bitFunctions : Obligations.BitFunctions := by
  unfold Obligations.BitFunctions
  intro d a
  exact ⟨laneUnit_of_bitFn .notB32 a (fun _ => rfl) rfl fun _ => rfl,
    laneUnit_of_bitFn .popcB32 a (fun _ => rfl) rfl fun x => congrArg nat32 (popcN_eq_bitsSet (readsBits_lo32 x)),
    laneUnit_of_bitFn .clzB32 a (fun _ => rfl) rfl fun x => congrArg nat32 (clzN_eq_leadingZeros (readsBits_lo32 x)),
    laneUnit_of_bitFn .ctzB32 a (fun _ => rfl) rfl fun x => congrArg nat32 (ctzN_eq_trailingZeros (readsBits_lo32 x)),
    laneUnit_of_bitFn .brevB32 a (fun _ => rfl) rfl fun x => congrArg zx64 (ofNat_brevN (lo32 x)),
    laneUnit_of_bitFn .bswapB32 a (fun _ => rfl) rfl fun x => congrArg zx64 (ofNat_bswapN_4 (readsBits_lo32 x)),
    laneUnit_of_bitFn .sextI8 a (fun _ => rfl) rfl fun x => congrArg (fun b : BitVec 8 => res32 (b.signExtend 32)) (ofNat_toNat_lo32 (by decide) x),
    laneUnit_of_bitFn .sextI16 a (fun _ => rfl) rfl fun x => congrArg (fun b : BitVec 16 => res32 (b.signExtend 32)) (ofNat_toNat_lo32 (by decide) x),
    laneUnit_of_bitFn .notB64 a (fun _ => rfl) rfl fun _ => rfl,
    laneUnit_of_bitFn .popcB64 a (fun _ => rfl) rfl fun x => congrArg nat32 (popcN_eq_bitsSet (readsBits_toNat x)),
    laneUnit_of_bitFn .clzB64 a (fun _ => rfl) rfl fun x => congrArg nat32 (clzN_eq_leadingZeros (readsBits_toNat x)),
    laneUnit_of_bitFn .ctzB64 a (fun _ => rfl) rfl fun x => congrArg nat32 (ctzN_eq_trailingZeros (readsBits_toNat x)),
    laneUnit_of_bitFn .brevB64 a (fun _ => rfl) rfl ofNat_brevN,
    laneUnit_of_bitFn .bswapB64 a (fun _ => rfl) rfl fun x => ofNat_bswapN_8 (readsBits_toNat x),
    laneUnit_of_bitFn .sextI32 a (fun _ => rfl) rfl fun _ => rfl,
    laneUnit_of_bitFn .zextN32 a (fun _ => rfl) rfl fun _ => rfl⟩

end Sys2Proof.Machine
end

section
/-!
SUPPORT. The floating-point lane instructions by their functions: arithmetic (R179), the saturating multiply-add (R180), sign bits (R182), special
functions and division (R188, R189). `floatArithmetic` settles O5, `signBits` settles O7, `specialFunctionsAndDivision` settles O8,
`saturatingMultiplyAdd` settles O55.
-/

namespace Sys2Proof.Machine

/-! ## Functions of codes -/

section Codes
variable {f : Fmt} {code : W64 → Nat} (reads : ∀ x, x.toNat % (2 * f.signBit) = code x)
include reads

theorem fp1_code (g : Fmt → Nat → Nat) : fp1 f g = fn1 fun x => nat64 (g f (code x)) :=
  congrArg fn1 (funext fun x => by rw [reads])

theorem fp2_code (g : Fmt → Nat → Nat → Nat) : fp2 f g = fn2 fun x y => nat64 (g f (code x) (code y)) :=
  congrArg fn2 (funext₂ fun x y => by rw [reads, reads])

theorem fp3_code (g : Fmt → Nat → Nat → Nat → Nat) : fp3 f g = fn3 fun x y z => nat64 (g f (code x) (code y) (code z)) :=
  congrArg fn3 (funext fun x => funext₂ fun y z => by rw [reads, reads, reads])

end Codes

/-! ## Arithmetic (R179) -/

/-- Settles O5: each instruction by its function, which takes its operands' codes and rounds once. -/
theorem floatArithmetic : Obligations.FloatArithmetic := by
  unfold Obligations.FloatArithmetic
  intro d a b
  exact ⟨laneUnit_of_fn fnFaddF32 [a, b] (fun _ => rfl) pairOk_of_wfR2 (fp2_code code_f32 fun f => f.add .rne),
    laneUnit_of_fn fnFsubF32 [a, b] (fun _ => rfl) pairOk_of_wfR2 (fp2_code code_f32 fun f => f.sub .rne),
    laneUnit_of_fn fnFmulF32 [a, b] (fun _ => rfl) pairOk_of_wfR2 (fp2_code code_f32 fun f => f.mul .rne),
    laneUnit_of_fn fnFfmaF32 [a, b] (fun _ => rfl) pairOk_of_wfR2 (fp3_code code_f32 fun f => f.fma .rne),
    laneUnit_of_fn fnFaddRzF32 [a, b] (fun _ => rfl) pairOk_of_wfR2 (fp2_code code_f32 fun f => f.add .rtz),
    laneUnit_of_fn fnFaddRuF32 [a, b] (fun _ => rfl) pairOk_of_wfR2 (fp2_code code_f32 fun f => f.add .rup),
    laneUnit_of_fn fnFaddRdF32 [a, b] (fun _ => rfl) pairOk_of_wfR2 (fp2_code code_f32 fun f => f.add .rdn),
    laneUnit_of_fn fnFmulRzF32 [a, b] (fun _ => rfl) pairOk_of_wfR2 (fp2_code code_f32 fun f => f.mul .rtz),
    laneUnit_of_fn fnFfmaRzF32 [a, b] (fun _ => rfl) pairOk_of_wfR2 (fp3_code code_f32 fun f => f.fma .rtz),
    laneUnit_of_fn fnFfmaRuF32 [a, b] (fun _ => rfl) pairOk_of_wfR2 (fp3_code code_f32 fun f => f.fma .rup),
    laneUnit_of_fn fnFfmaRdF32 [a, b] (fun _ => rfl) pairOk_of_wfR2 (fp3_code code_f32 fun f => f.fma .rdn),
    laneUnit_of_fn fnFaddF64 [a, b] (fun _ => rfl) pairOk_of_wfR2 (fp2_code code_f64 fun f => f.add .rne),
    laneUnit_of_fn fnFsubF64 [a, b] (fun _ => rfl) pairOk_of_wfR2 (fp2_code code_f64 fun f => f.sub .rne),
    laneUnit_of_fn fnFmulF64 [a, b] (fun _ => rfl) pairOk_of_wfR2 (fp2_code code_f64 fun f => f.mul .rne),
    laneUnit_of_fn fnFfmaF64 [a, b] (fun _ => rfl) pairOk_of_wfR2 (fp3_code code_f64 fun f => f.fma .rne)⟩

/-! ## Special functions and division (R188, R189) -/

/-- Settles O8: each instruction by its function of the operands' codes. -/
theorem specialFunctionsAndDivision : Obligations.SpecialFunctionsAndDivision := by
  unfold Obligations.SpecialFunctionsAndDivision
  intro d a b
  exact ⟨laneUnit_of_fn fnRcpF32 [a] (fun _ => rfl) pairOk_of_wfR1 (fp1_code code_f32 fun f => f.sfu .rcp),
    laneUnit_of_fn fnRsqF32 [a] (fun _ => rfl) pairOk_of_wfR1 (fp1_code code_f32 fun f => f.sfu .rsq),
    laneUnit_of_fn fnSqrtF32 [a] (fun _ => rfl) pairOk_of_wfR1 (fp1_code code_f32 fun f => f.sfu .sqrt),
    laneUnit_of_fn fnExp2F32 [a] (fun _ => rfl) pairOk_of_wfR1 (fp1_code code_f32 fun f => f.sfu .exp2),
    laneUnit_of_fn fnLog2F32 [a] (fun _ => rfl) pairOk_of_wfR1 (fp1_code code_f32 fun f => f.sfu .log2),
    laneUnit_of_fn fnSinpiF32 [a] (fun _ => rfl) pairOk_of_wfR1 (fp1_code code_f32 fun f => f.sfu .sinpi),
    laneUnit_of_fn fnCospiF32 [a] (fun _ => rfl) pairOk_of_wfR1 (fp1_code code_f32 fun f => f.sfu .cospi),
    laneUnit_of_fn fnTanhF32 [a] (fun _ => rfl) pairOk_of_wfR1 (fp1_code code_f32 fun f => f.sfu .tanh),
    laneUnit_of_fn fnDivF32 [a, b] (fun _ => rfl) pairOk_of_wfR2 (fp2_code code_f32 Fmt.div),
    laneUnit_of_fn fnRcpF64 [a] (fun _ => rfl) pairOk_of_wfR1 (fp1_code code_f64 fun f => f.sfu .rcp),
    laneUnit_of_fn fnRsqF64 [a] (fun _ => rfl) pairOk_of_wfR1 (fp1_code code_f64 fun f => f.sfu .rsq),
    laneUnit_of_fn fnSqrtF64 [a] (fun _ => rfl) pairOk_of_wfR1 (fp1_code code_f64 fun f => f.sfu .sqrt),
    laneUnit_of_fn fnExp2F64 [a] (fun _ => rfl) pairOk_of_wfR1 (fp1_code code_f64 fun f => f.sfu .exp2),
    laneUnit_of_fn fnLog2F64 [a] (fun _ => rfl) pairOk_of_wfR1 (fp1_code code_f64 fun f => f.sfu .log2),
    laneUnit_of_fn fnSinpiF64 [a] (fun _ => rfl) pairOk_of_wfR1 (fp1_code code_f64 fun f => f.sfu .sinpi),
    laneUnit_of_fn fnCospiF64 [a] (fun _ => rfl) pairOk_of_wfR1 (fp1_code code_f64 fun f => f.sfu .cospi),
    laneUnit_of_fn fnTanhF64 [a] (fun _ => rfl) pairOk_of_wfR1 (fp1_code code_f64 fun f => f.sfu .tanh),
    laneUnit_of_fn fnDivF64 [a, b] (fun _ => rfl) pairOk_of_wfR2 (fp2_code code_f64 Fmt.div)⟩

/-! ## Sign bits (R182) -/

/-- Taking the highest bit away, or adding it, inverts it. -/
theorem flip_top {n x : Nat} (h : x < 2 ^ (n + 1)) : (if x / 2 ^ n % 2 = 1 then x - 2 ^ n else x + 2 ^ n) = x ^^^ 2 ^ n := by
  have pos : 0 < 2 ^ n := Nat.two_pow_pos n
  have top : (x ^^^ 2 ^ n) / 2 ^ n = x / 2 ^ n ^^^ 1 := by rw [Nat.xor_div_two_pow, Nat.div_self pos]
  have low : (x ^^^ 2 ^ n) % 2 ^ n = x % 2 ^ n := by rw [Nat.xor_mod_two_pow, Nat.mod_self, Nat.xor_zero]
  have bit : x / 2 ^ n < 2 := (Nat.div_lt_iff_lt_mul pos).mpr (by omega)
  have split_x := Nat.div_add_mod x (2 ^ n)
  have split_xor := Nat.div_add_mod (x ^^^ 2 ^ n) (2 ^ n)
  rw [top, low] at split_xor
  generalize x / 2 ^ n = q at *
  obtain rfl | rfl : q = 0 ∨ q = 1 := by omega
  · simp at *; omega
  · simp at *; omega

theorem fnegN_f32 (x : W32) : fnegN .f32 x.toNat = (x ^^^ 0x80000000).toNat := by
  rw [BitVec.toNat_xor]
  exact flip_top (n := 31) x.isLt

theorem fnegN_f64 (x : W64) : fnegN .f64 x.toNat = (x ^^^ 0x8000000000000000).toNat := by
  rw [BitVec.toNat_xor]
  exact flip_top (n := 63) x.isLt

theorem fabsN_f32 (x : W32) : fabsN .f32 x.toNat = (x &&& 0x7FFFFFFF).toNat := by
  rw [BitVec.toNat_and]
  exact (Nat.and_two_pow_sub_one_eq_mod x.toNat 31).symm

theorem fabsN_f64 (x : W64) : fabsN .f64 x.toNat = (x &&& 0x7FFFFFFFFFFFFFFF).toNat := by
  rw [BitVec.toNat_and]
  exact (Nat.and_two_pow_sub_one_eq_mod x.toNat 63).symm

/-- A function of FP32 codes that is one of the low word. -/
theorem fp1_word {g : Fmt → Nat → Nat} {w : W32 → W32} (h : ∀ x, g .f32 x.toNat = (w x).toNat) : fp1 .f32 g = fn1 fun x => zx64 (w (lo32 x)) :=
  (fp1_code code_f32 g).trans (congrArg fn1 (funext fun x => (congrArg nat64 (h (lo32 x))).trans (BitVec.ofNat_toNat 64 _)))

/-- A function of FP64 codes that is one of the operand. -/
theorem fp1_pair {g : Fmt → Nat → Nat} {w : W64 → W64} (h : ∀ x, g .f64 x.toNat = (w x).toNat) : fp1 .f64 g = fn1 w :=
  (fp1_code code_f64 g).trans (congrArg fn1 (funext fun x => ofNat_of_eq_toNat (h x)))

/-- Settles O7: each instruction by its function, which inverts or clears the sign bit of a code. -/
theorem signBits : Obligations.SignBits := by
  unfold Obligations.SignBits
  intro d a
  exact ⟨laneUnit_of_fn fnFnegF32 [a] (fun _ => rfl) pairOk_of_wfR1 (fp1_word fnegN_f32),
    laneUnit_of_fn fnFabsF32 [a] (fun _ => rfl) pairOk_of_wfR1 (fp1_word fabsN_f32),
    laneUnit_of_fn fnFnegF64 [a] (fun _ => rfl) pairOk_of_wfR1 (fp1_pair fnegN_f64),
    laneUnit_of_fn fnFabsF64 [a] (fun _ => rfl) pairOk_of_wfR1 (fp1_pair fabsN_f64)⟩

/-! ## The saturating multiply-add (R180) -/

/-- A sign makes a code of a magnitude's. -/
theorem Fmt.signed_lt {f : Fmt} {c : Nat} (h : c < f.signBit) (neg : Bool) : f.signed neg c < 2 * f.signBit := by
  cases neg <;> simp [Fmt.signed] <;> omega

/-- An overflow rounds to a code (R151). -/
theorem Fmt.overflow_lt_f32 (m : RMode) (sat neg : Bool) : Fmt.f32.overflow m sat neg < 2 ^ 32 := by
  cases m <;> cases sat <;> cases neg <;> decide

/-- Rounding gives a code (R151). -/
theorem Fmt.round_lt_f32 (m : RMode) (sat : Bool) (v : FVal) : Fmt.f32.round m sat v < 2 ^ 32 := by
  cases v with
  | nan => exact (by decide : Fmt.f32.qnan < 2 ^ 32)
  | inf neg =>
    cases sat with
    | true => exact Fmt.signed_lt (c := Fmt.f32.maxCode) (by decide) neg
    | false => exact Fmt.signed_lt (c := 0x7F800000) (by decide) neg
  | fin neg mag exp =>
    simp only [Fmt.round, Fmt.roundMag]
    split
    · exact Fmt.signed_lt (by decide) neg
    · split
      · exact Fmt.overflow_lt_f32 m sat neg
      · next h => exact Fmt.signed_lt (Nat.lt_of_le_of_lt (Nat.le_of_not_lt h) (by decide)) neg

/-- An infinity's code has its sign bit, and lies above the finite ones. -/
theorem Fmt.val_inf {f : Fmt} {x : Nat} {neg : Bool} (h : f.val x = .inf neg) : neg = (x / f.signBit % 2 == 1) ∧ f.maxCode < x % f.signBit := by
  simp only [Fmt.val] at h
  split at h
  · next above =>
    split at h
    · exact ⟨(FVal.inf.inj h).symm, above⟩
    · cases h
  · split at h <;> cases h

/-- A finite value's code has its sign bit. -/
theorem Fmt.val_fin {f : Fmt} {x mag : Nat} {neg : Bool} {exp : Int} (h : f.val x = .fin neg mag exp) : neg = (x / f.signBit % 2 == 1) := by
  simp only [Fmt.val] at h
  split at h
  · split at h <;> cases h
  · split at h
    · exact (FVal.fin.inj h).1.symm
    · exact (FVal.fin.inj h).1.symm

section Clamp
variable {r : Nat} (code : r < 2 ^ 32)
include code

theorem sign_f32 : (r / Fmt.f32.signBit % 2 == 1) = decide (2 ^ 31 ≤ r) := by
  change (r / 2 ^ 31 % 2 == 1) = _
  rw [Bool.beq_eq_decide_eq, decide_eq_decide]
  omega

section Number
variable (number : Fmt.f32.isNan r = false)
include number

/-- The clamp of a number: a negative one gives 0, another is at most 1.0. -/
theorem clampUnit_of_number : clampUnit r = if 2 ^ 31 ≤ r then 0 else min r 0x3F800000 := by
  unfold clampUnit
  cases e : Fmt.f32.val r with
  | nan => simp [Fmt.isNan, e] at number
  | inf neg =>
    obtain ⟨sign, above⟩ := Fmt.val_inf e
    rw [sign_f32 code] at sign
    change 0x7F7FFFFF < r % 2 ^ 31 at above
    simp only [sign, decide_eq_true_eq]
    refine ite_congr rfl (fun _ => rfl) fun _ => ?_
    omega
  | fin neg mag exp => simp only [(Fmt.val_fin e).trans (sign_f32 code), decide_eq_true_eq]

theorem ord_of_number : Fmt.f32.ord r = if 2 ^ 31 ≤ r then 2 ^ 32 - 1 - r else r + 2 ^ 31 := by
  change (if Fmt.f32.isNan r then 2 ^ 32 - 1 else if r / 2 ^ 31 % 2 = 0 then r % 2 ^ 32 + 2 ^ 31 else 2 ^ 32 - 1 - r % 2 ^ 32) = _
  rw [if_neg (ne_true_of_eq_false number), Nat.mod_eq_of_lt code]
  by_cases negative : 2 ^ 31 ≤ r
  · rw [if_pos negative, if_neg (by omega)]
  · rw [if_neg negative, if_pos (by omega)]

end Number

/-- The clamp by the order of codes (R180, R183). -/
theorem clampUnit_by_order : clampUnit r =
    if Fmt.f32.isNan r then 0 else if Fmt.f32.lt 0 r = false then 0 else if Fmt.f32.lt r 0x3F800000 then r else 0x3F800000 := by
  cases number : Fmt.f32.isNan r with
  | true =>
    have nan : Fmt.f32.val r = .nan := eq_of_beq number
    simp [clampUnit, nan]
  | false =>
    have above : Fmt.f32.lt 0 r = decide (2 ^ 31 < Fmt.f32.ord r) := Fmt.lt_of_numbers (by decide) number
    have below : Fmt.f32.lt r 0x3F800000 = decide (Fmt.f32.ord r < 0x3F800000 + 2 ^ 31) := Fmt.lt_of_numbers number (by decide)
    rw [clampUnit_of_number code number, above, below, ord_of_number code number]
    simp only [Bool.false_eq_true, if_false, decide_eq_false_iff_not, decide_eq_true_eq]
    by_cases negative : 2 ^ 31 ≤ r
    · rw [if_pos negative, if_pos negative, if_pos (by omega)]
    · rw [if_neg negative, if_neg negative]
      rcases Nat.eq_zero_or_pos r with rfl | positive
      · rfl
      · rw [if_neg (by omega)]
        split <;> omega

end Clamp

theorem fnFfmaSatF32_computes : fnFfmaSatF32.f = fn3 fun x y z =>
    let r := Fmt.f32.fma .rne (lo32 x).toNat (lo32 y).toNat (lo32 z).toNat
    nat64 (if Fmt.f32.isNan r then 0 else if Fmt.f32.lt 0 r = false then 0 else if Fmt.f32.lt r 0x3F800000 then r else 0x3F800000) :=
  (fp3_code code_f32 fun f a b c => clampUnit (f.fma .rne a b c)).trans
    (congrArg fn3 (funext fun _ => funext₂ fun _ _ => congrArg nat64 (clampUnit_by_order (Fmt.round_lt_f32 .rne false _))))

/-- Settles O55: the function clamps what the multiply-add rounds to, which is a code. -/
theorem saturatingMultiplyAdd : Obligations.SaturatingMultiplyAdd := by
  unfold Obligations.SaturatingMultiplyAdd
  intro d a b
  exact laneUnit_of_fn fnFfmaSatF32 [a, b] (fun _ => rfl) pairOk_of_wfR2 fnFfmaSatF32_computes

end Sys2Proof.Machine
end

section
/-!
SUPPORT. The lane instructions that write a predicate (R177, R183, R184, R125), the conversions (R185 to R187) and RAND (R190), by their functions.
`predicateResults` settles O9, `conversions` settles O10, `randDraws` settles O11.
-/

namespace Sys2Proof.Machine

/-! ## Predicates (R177, R183, R184, R125) -/

/-- An instruction that computes a predicate lane by lane gives every participating thread its value at that thread's operands. -/
theorem lanePred_of_fn {i : Instr} {pipe p : Nat} {srcs : List Operand} {f : Thread → List W64 → Bool} (g : Thread → List W64 → Bool)
    (run : ∀ s, exec i s = s.aluPred pipe p srcs g) (wf : WellFormed i = true → ∀ o ∈ srcs, o.2.pairOk o.1 = true) (computes : g = f)
    (lane : pipe < 4 := by decide) : LanePred i pipe p srcs f := by
  intro h s t lifted readable
  rw [run, ← computes]
  exact aluPred_spec lifted _ readable (wf h) lane

/-- A comparison of integers is the condition on them, whichever thread asks. -/
theorem pred2_cmpInt (signed wide : Bool) (c : Cond) :
    (fun _ : Thread => pred2 (cmpInt signed wide c)) = fun _ => pred2 fun x y => Machine.condOf c (asInt signed wide x) (asInt signed wide y) :=
  funext fun _ => congrArg pred2 (funext₂ (cmpInt_eq_condOf signed wide c))

theorem cmpFp_eq_condFp (f : Fmt) (c : Cond) (x y : W64) : cmpFp f c x y = condFp f c x.toNat y.toNat := by
  cases c <;> rfl

theorem pred2_cmpFp (f : Fmt) (c : Cond) : (fun _ : Thread => pred2 (cmpFp f c)) = fun _ => pred2 fun x y => condFp f c x.toNat y.toNat :=
  funext fun _ => congrArg pred2 (funext₂ (cmpFp_eq_condFp f c))

theorem applyClass_eq_classUse (u : ClassUse) (old m : Bool) : applyClass u old m = classUse u old m := by
  cases u <;> rfl

theorem pairOk_of_ok_single {ty : Ty} {a : Src} (h : a.ok ty = true) : ∀ o ∈ [((ty, a) : Operand)], o.2.pairOk o.1 = true := by
  simp [pairOk_of_ok h]

/-- Settles O9: each instruction by the predicate it computes. -/
theorem predicateResults : Obligations.PredicateResults := by
  unfold Obligations.PredicateResults
  intro c u p a b m i j k tt
  exact ⟨lanePred_of_fn _ (fun _ => rfl) pairOk_of_wfRp (pred2_cmpInt true false c),
    lanePred_of_fn _ (fun _ => rfl) pairOk_of_wfRp (pred2_cmpInt false false c),
    lanePred_of_fn _ (fun _ => rfl) pairOk_of_wfRp (pred2_cmpInt true true c),
    lanePred_of_fn _ (fun _ => rfl) pairOk_of_wfRp (pred2_cmpInt false true c),
    lanePred_of_fn _ (fun _ => rfl) pairOk_of_wfRp (pred2_cmpFp .f32 c),
    lanePred_of_fn _ (fun _ => rfl) pairOk_of_wfRp (pred2_cmpFp .f64 c),
    lanePred_of_fn _ (fun _ => rfl) pairOk_of_ok_single (funext₂ fun _ _ => applyClass_eq_classUse u _ _),
    lanePred_of_fn _ (fun _ => rfl) pairOk_of_ok_single (funext₂ fun _ _ => applyClass_eq_classUse u _ _),
    lanePred_of_fn _ (fun _ => rfl) (fun _ _ none => (List.not_mem_nil none).elim) rfl⟩

/-! ## Conversions (R185 to R187) -/

theorem pairOk_of_wfCvt {k : CvtDst} {x : Bool} {d : Dst} {a : Src} {s : CvtSrc} {rm : Round} {sat : Bool} (h : wfCvt k x d a s rm sat = true) :
    d.pairOk k.wide = true ∧ ∀ o ∈ [((s.ty, a) : Operand)], o.2.pairOk o.1 = true := by
  simp only [wfCvt, Dst.ok, Bool.and_eq_true] at h
  obtain ⟨⟨_, hd, _⟩, ha⟩ := h
  exact ⟨hd, pairOk_of_ok_single ha⟩

/-- Conversions to one FP32 or FP64 value have a source of one element (R186). -/
theorem single_of_wfCvt {k : CvtDst} (one : k = .f32 ∨ k = .f64) {x : Bool} {d : Dst} {a : Src} {s : CvtSrc} {rm : Round} {sat : Bool}
    (h : wfCvt k x d a s rm sat = true) : cvtIsPair s = false := by
  simp only [wfCvt, Bool.and_eq_true] at h
  obtain ⟨⟨defined, _⟩, _⟩ := h
  cases s with
  | f32x2 | f16x2 | bf16x2 => obtain rfl | rfl := one <;> cases defined
  | f64 | f32 | f16 | bf16 | e4m3 | e5m2 | i32 | n32 | i64 | n64 => rfl

theorem elem_zero (w : Nat) (v : W64) : elem w 0 v = v.toNat % 2 ^ w := by
  simp [elem]

theorem elem_32_zero (v : W64) : elem 32 0 v = (lo32 v).toNat := (elem_zero 32 v).trans (toNat_lo32 v).symm

theorem elem_64_zero (v : W64) : elem 64 0 v = v.toNat := (elem_zero 64 v).trans (Nat.mod_eq_of_lt v.isLt)

/-- A source of one element holds its first value alone. -/
theorem cvtElems_single {k : CvtSrc} (h : cvtIsPair k = false) (v : W64) : cvtElems k v = [sourceValue k 0 v] := by
  cases k with
  | f32x2 | f16x2 | bf16x2 => cases h
  | f32 => simp only [cvtElems, sourceValue, elem_32_zero]
  | f16 | bf16 | e4m3 | e5m2 => simp only [cvtElems, sourceValue, elem_zero]
  | f64 | i32 | n32 | i64 | n64 => rfl

/-- One of two elements holds its first and its second value. -/
theorem cvtElems_pair {k : CvtSrc} (h : cvtIsPair k = true) (v : W64) : cvtElems k v = [sourceValue k 0 v, sourceValue k 1 v] := by
  cases k with
  | f32x2 | f16x2 | bf16x2 => rfl
  | f32 | f16 | bf16 | e4m3 | e5m2 | f64 | i32 | n32 | i64 | n64 => cases h

theorem cvtElems_headD (k : CvtSrc) (v : W64) : (cvtElems k v).headD .nan = sourceValue k 0 v := by
  cases h : cvtIsPair k with
  | true => rw [cvtElems_pair h]; rfl
  | false => rw [cvtElems_single h]; rfl

/-- A conversion from one element rounds its value. -/
theorem cvtToFp_single {k : CvtSrc} (h : cvtIsPair k = false) (f : Fmt) (rm : Round) (sat : Bool) (v : W64) :
    cvtToFp f false k rm sat v = nat64 (f.round (rmodeOf rm) sat (sourceValue k 0 v)) := by
  simp only [cvtToFp, cvtElems_single h]
  rfl

/-- A conversion from two elements rounds the value of each. -/
theorem cvtToFp_pair {k : CvtSrc} (h : cvtIsPair k = true) {f : Fmt} {w : Nat} (width : f.ebits + f.mant + 1 = w) (rm : Round) (sat : Bool) (v : W64) :
    cvtToFp f false k rm sat v =
      packed w (f.round (rmodeOf rm) sat (sourceValue k 0 v)) (f.round (rmodeOf rm) sat (sourceValue k 1 v)) := by
  simp only [cvtToFp, cvtElems_pair h, width]
  rfl

theorem clampInt_eq_max_min {lo hi : Int} (h : lo ≤ hi) (x : Int) : clampInt lo hi x = max lo (min hi x) := by
  unfold clampInt
  omega

theorem intRange_le (signed : Bool) (w : Nat) : (intRange signed w).1 ≤ (intRange signed w).2 := by
  have pos (n : Nat) : (0 : Int) < 2 ^ n := Int.pow_pos (by decide)
  have half := pos (w - 1)
  have whole := pos w
  cases signed <;> simp only [intRange, Bool.false_eq_true, if_false, if_true] <;> omega

theorem cvtInt_of_isInt {k : CvtSrc} (h : cvtIsInt k = true) (v : W64) : cvtInt k v = some (sourceInt k v) := by
  cases k with
  | i32 | n32 | i64 | n64 => rfl
  | f64 | f32 | f16 | bf16 | e4m3 | e5m2 | f32x2 | f16x2 | bf16x2 => cases h

theorem cvtInt_of_not_isInt {k : CvtSrc} (h : cvtIsInt k = false) (v : W64) : cvtInt k v = none := by
  cases k with
  | i32 | n32 | i64 | n64 => cases h
  | f64 | f32 | f16 | bf16 | e4m3 | e5m2 | f32x2 | f16x2 | bf16x2 => rfl

/-- A conversion to integers keeps or clamps an integer, and rounds and clamps what is none. -/
theorem cvtToInt_eq_toRange (signed : Bool) (w : Nat) (k : CvtSrc) (rm : Round) (sat : Bool) (v : W64) :
    cvtToInt signed w k rm sat v =
      let x := toRange (intRange signed w).1 (intRange signed w).2 k rm sat v
      if w = 32 then res32 (BitVec.ofInt 32 x) else BitVec.ofInt 64 x := by
  cases h : cvtIsInt k with
  | true => simp only [cvtToInt, cvtInt_of_isInt h, toRange, h, if_true, clampInt_eq_max_min (intRange_le signed w)]
  | false => simp only [cvtToInt, cvtInt_of_not_isInt h, toRange, h, Bool.false_eq_true, if_false, cvtElems_headD]

/-- Conversions of a kind of destination by their function. -/
theorem laneUnit_of_cvt {i : Instr} {d : Dst} {f : W64 → W64} (k : CvtDst) {x : Bool} {s : CvtSrc} {rm : Round} {sat : Bool} (a : Src) (g : W64 → W64)
    (run : ∀ st, exec i st = st.laneFn { tys := [s.ty], wide := k.wide, pipe := 1, f := fn1 g } d [a])
    (wf : WellFormed i = wfCvt k x d a s rm sat) (computes : wfCvt k x d a s rm sat = true → ∀ v, g v = f v) :
    LaneUnit i k.wide false 1 d [(s.ty, a)] (fn1 f) := by
  intro h
  have defined : wfCvt k x d a s rm sat = true := wf ▸ h
  exact laneUnit_of_fn _ [a] run (fun _ => pairOk_of_wfCvt defined) (congrArg fn1 (funext (computes defined))) (show 1 < 4 by decide) h

/-- The 16-bit and the 8-bit formats a conversion chooses from have elements of one width (R185). -/
theorem width_h16 (x : Bool) : (if x then .bf16 else .f16 : Fmt).ebits + (if x then .bf16 else .f16 : Fmt).mant + 1 = 16 := by
  cases x <;> rfl

theorem width_f8 (x : Bool) : (if x then .e5m2 else .e4m3 : Fmt).ebits + (if x then .e5m2 else .e4m3 : Fmt).mant + 1 = 8 := by
  cases x <;> rfl

/-- Settles O10: each instruction by its function, which rounds the source's elements or clamps them to a range. -/
theorem conversions : Obligations.Conversions := by
  unfold Obligations.Conversions
  intro d a k rm sat x
  refine ⟨?_, fun other => ?_, ?_, fun other => ?_, fun one => ?_, fun two => ?_, fun one => ?_, fun two => ?_, ?_, ?_, ?_, ?_⟩
  · rintro rfl
    exact laneUnit_of_cvt .f32 a _ (fun _ => rfl) rfl fun _ v => by rw [← elem_32_zero]; rfl
  · refine laneUnit_of_cvt .f32 a _ (fun _ => rfl) rfl fun defined v => ?_
    rw [beq_false_of_ne other, cvtToFp_single (single_of_wfCvt (.inl rfl) defined)]
  · rintro rfl
    exact laneUnit_of_cvt .f64 a _ (fun _ => rfl) rfl fun _ v => by rw [← elem_64_zero]; rfl
  · refine laneUnit_of_cvt .f64 a _ (fun _ => rfl) rfl fun defined v => ?_
    rw [beq_false_of_ne other, cvtToFp_single (single_of_wfCvt (.inr rfl) defined)]
  · exact laneUnit_of_cvt .h16 a _ (fun _ => rfl) rfl fun _ => cvtToFp_single one _ rm sat
  · exact laneUnit_of_cvt .h16 a _ (fun _ => rfl) rfl fun _ => cvtToFp_pair two (width_h16 x) rm sat
  · exact laneUnit_of_cvt .f8 a _ (fun _ => rfl) rfl fun _ => cvtToFp_single one _ rm sat
  · exact laneUnit_of_cvt .f8 a _ (fun _ => rfl) rfl fun _ => cvtToFp_pair two (width_f8 x) rm sat
  · exact laneUnit_of_cvt .i32 a _ (fun _ => rfl) rfl fun _ => cvtToInt_eq_toRange true 32 k rm sat
  · exact laneUnit_of_cvt .n32 a _ (fun _ => rfl) rfl fun _ => cvtToInt_eq_toRange false 32 k rm sat
  · exact laneUnit_of_cvt .i64 a _ (fun _ => rfl) rfl fun _ => cvtToInt_eq_toRange true 64 k rm sat
  · exact laneUnit_of_cvt .n64 a _ (fun _ => rfl) rfl fun _ => cvtToInt_eq_toRange false 64 k rm sat

/-! ## RAND (R190) -/

/-- Settles O11: what `rand_spec` says of a lift, for a seed that the encoding admits. -/
theorem randDraws : Obligations.RandDraws := by
  unfold Obligations.RandDraws
  intro d a h s t lifted readable
  obtain ⟨hd, seed⟩ := pairOk_of_wfR1 (show wfR1 .b64 false d a = true from h)
  exact rand_spec lifted readable hd (seed _ (List.mem_singleton_self _))

end Sys2Proof.Machine
end

section
/-!
SUPPORT. The uniform floating-point instructions (R193): each runs the function of its lane twin once a course (R63). `uniformFloats` settles O13.
-/

namespace Sys2Proof.Machine

/-- One that compares codes uniformly gives every participating thread the predicate at the leader's operands. -/
theorem uniPred_of_cmpFp {i : Instr} {p : Nat} {srcs : List Operand} (f : Fmt) (c : Cond)
    (run : ∀ s, exec i s = s.uniPred p srcs (pred2 (cmpFp f c))) (wf : WellFormed i = true → ∀ o ∈ srcs, o.2.pairOk o.1 = true) :
    UniPred i p srcs (pred2 fun x y => condFp f c x.toNat y.toNat) := by
  intro h s t lifted readable
  have same : cmpFp f c = fun x y => condFp f c x.toNat y.toNat := funext₂ (cmpFp_eq_condFp f c)
  rw [run, same]
  exact uniPred_spec lifted _ readable (wf h)

/-- A uniform conversion by its function, which may rest on what the encoding admits. -/
theorem uniUnit_of_cvt {i : Instr} {d : Dst} {f : W64 → W64} (fn : Fn) {k : CvtDst} {x : Bool} {s : CvtSrc} {rm : Round} {sat : Bool} (a : Src)
    (run : ∀ st, exec i st = st.uniFn fn d [a]) (wf : WellFormed i = wfCvt k x d a s rm sat) (source : fn.tys = [s.ty]) (width : fn.wide = k.wide)
    (computes : wfCvt k x d a s rm sat = true → fn.f = fn1 f) : UniUnit i fn.wide fn.third d [(s.ty, a)] (fn1 f) := by
  intro h
  have defined : wfCvt k x d a s rm sat = true := wf ▸ h
  have operands : fn.tys.zip [a] = [(s.ty, a)] := by rw [source]; rfl
  exact operands ▸ uniUnit_of_fn fn [a] run (fun _ => by rw [operands, width]; exact pairOk_of_wfCvt defined) (computes defined) h

/-- A conversion to FP32 rounds the source's one value, or makes an FP32 value integral (R186). -/
theorem fnCvtF32_computes {k : CvtSrc} {rm : Round} {sat : Bool} {d : Dst} {a : Src} (defined : wfCvt .f32 false d a k rm sat = true) :
    (fnCvtF32 k rm sat).f = fn1 fun x =>
      nat64 (if k = .f32 then Fmt.f32.integral (rmodeOf rm) (lo32 x).toNat else Fmt.f32.round (rmodeOf rm) sat (sourceValue k 0 x)) := by
  refine congrArg fn1 (funext fun x => ?_)
  by_cases same : k = .f32
  · subst same
    rw [if_pos rfl, ← elem_32_zero]
    rfl
  · rw [if_neg same, beq_false_of_ne same, cvtToFp_single (single_of_wfCvt (.inl rfl) defined)]

/-- Settles O13: each instruction by the function that it shares with its lane twin. -/
theorem uniformFloats : Obligations.UniformFloats := by
  unfold Obligations.UniformFloats
  intro d a b c p
  exact ⟨uniUnit_of_fn fnFaddF32 [a, b] (fun _ => rfl) pairOk_of_wfR2 (fp2_code code_f32 fun f => f.add .rne),
    uniUnit_of_fn fnFsubF32 [a, b] (fun _ => rfl) pairOk_of_wfR2 (fp2_code code_f32 fun f => f.sub .rne),
    uniUnit_of_fn fnFmulF32 [a, b] (fun _ => rfl) pairOk_of_wfR2 (fp2_code code_f32 fun f => f.mul .rne),
    uniUnit_of_fn fnFfmaF32 [a, b] (fun _ => rfl) pairOk_of_wfR2 (fp3_code code_f32 fun f => f.fma .rne),
    uniUnit_of_fn fnFaddF64 [a, b] (fun _ => rfl) pairOk_of_wfR2 (fp2_code code_f64 fun f => f.add .rne),
    uniUnit_of_fn fnFsubF64 [a, b] (fun _ => rfl) pairOk_of_wfR2 (fp2_code code_f64 fun f => f.sub .rne),
    uniUnit_of_fn fnFmulF64 [a, b] (fun _ => rfl) pairOk_of_wfR2 (fp2_code code_f64 fun f => f.mul .rne),
    uniUnit_of_fn fnFfmaF64 [a, b] (fun _ => rfl) pairOk_of_wfR2 (fp3_code code_f64 fun f => f.fma .rne),
    uniUnit_of_fn fnRcpF32 [a] (fun _ => rfl) pairOk_of_wfR1 (fp1_code code_f32 fun f => f.sfu .rcp),
    uniUnit_of_fn fnRsqF32 [a] (fun _ => rfl) pairOk_of_wfR1 (fp1_code code_f32 fun f => f.sfu .rsq),
    uniUnit_of_fn fnSqrtF32 [a] (fun _ => rfl) pairOk_of_wfR1 (fp1_code code_f32 fun f => f.sfu .sqrt),
    uniUnit_of_fn fnExp2F32 [a] (fun _ => rfl) pairOk_of_wfR1 (fp1_code code_f32 fun f => f.sfu .exp2),
    uniUnit_of_fn fnLog2F32 [a] (fun _ => rfl) pairOk_of_wfR1 (fp1_code code_f32 fun f => f.sfu .log2),
    uniUnit_of_fn fnSinpiF32 [a] (fun _ => rfl) pairOk_of_wfR1 (fp1_code code_f32 fun f => f.sfu .sinpi),
    uniUnit_of_fn fnCospiF32 [a] (fun _ => rfl) pairOk_of_wfR1 (fp1_code code_f32 fun f => f.sfu .cospi),
    uniUnit_of_fn fnTanhF32 [a] (fun _ => rfl) pairOk_of_wfR1 (fp1_code code_f32 fun f => f.sfu .tanh),
    uniUnit_of_fn fnDivF32 [a, b] (fun _ => rfl) pairOk_of_wfR2 (fp2_code code_f32 Fmt.div),
    fun k rm sat => uniUnit_of_cvt (fnCvtF32 k rm sat) a (fun _ => rfl) rfl rfl rfl fnCvtF32_computes,
    fun k rm sat => uniUnit_of_cvt (fnCvtI32 k rm sat) a (fun _ => rfl) rfl rfl rfl fun _ =>
      congrArg fn1 (funext fun v => cvtToInt_eq_toRange true 32 k rm sat v),
    uniPred_of_cmpFp .f32 c (fun _ => rfl) pairOk_of_wfRp,
    uniPred_of_cmpFp .f64 c (fun _ => rfl) pairOk_of_wfRp⟩

end Sys2Proof.Machine
end

section
/-!
SUPPORT. The group instructions on a whole course by the values they give its members (R195, R196): the exchanges (R198 to R200, R207), and the
reductions and scans (R203, R204). `groupExchange` settles O14, `groupReductions` settles O15.
-/

namespace Sys2Proof.Machine

/-! ## The members of a course -/

/-- The members a lift has on a course: lanes 0 to 31 in ascending order. -/
structure Members (ms : List Nat) : Prop where
  ascending : ms.Pairwise (· < ·)
  lanes : ∀ m ∈ ms, m < 32

theorem Lifted.members {s : State} {t : Team} (h : Lifted s t) (c : Nat) : Members (lanesIn s.issue.parts c) := by
  obtain ⟨_, ascending⟩ := h.ascending c
  refine ⟨ascending, fun m hm => ?_⟩
  have lifted := h.parts (c, m) (mem_lanesIn.mp hm)
  obtain ⟨_, below⟩ := Course.sound_ok (h.sound _ lifted)
  exact below m (h.live _ lifted)

section
variable {ms : List Nat} (h : Members ms)
include h

theorem Members.eq_filter : (List.range 32).filter ms.contains = ms :=
  (List.pairwise_lt_range.filter _).eq_of_mem_iff h.ascending fun m => by
    simpa using h.lanes m

/-- The lowest lane of a property among the members is the first of them that has it. -/
theorem Members.lowestLane_eq (p : Nat → Bool) : lowestLane (fun m => ms.contains m && p m) = (ms.find? p).getD 32 := by
  conv_rhs => rw [← h.eq_filter, List.find?_filter]
  simp [lowestLane]

/-- The highest is the last of them that has it. -/
theorem Members.highestLane_eq (p : Nat → Bool) : highestLane (fun m => ms.contains m && p m) = (ms.filter p).getLastD 32 := by
  conv_rhs => rw [← h.eq_filter, List.filter_filter, List.getLastD_eq_getLast?, List.getLast?_filter]
  simp only [Bool.and_comm]
  rfl

end

/-! ## A group instruction by its values -/

/-- An instruction that runs a group function gives every member of a whole course its value at the members' operands. -/
theorem groupUnit_of_fn {i : Instr} {d : Dst} {srcs : List Operand} {f : Course → List Nat → (Nat → List W64) → Nat → W64} (g : GroupFn) (ok : g.Ok)
    (run : ∀ s, exec i s = s.group g d srcs) (wf : WellFormed i = true → d.pairOk g.wide = true ∧ ∀ o ∈ srcs, o.2.pairOk o.1 = true)
    (computes : ∀ c ms v l, Members ms → g.val c ms v l = f c ms v l) : GroupUnit i g.wide d srcs f := by
  intro h s t lifted readable whole
  obtain ⟨hd, hs⟩ := wf h
  rw [run]
  obtain ⟨s', ran, delivers⟩ := group_spec lifted ok readable whole hd hs
  have same : (fun c l => g.val (t.course c) (lanesIn s.issue.parts c) (fun m => s.values t false g.wide d srcs c m) l) =
      fun c l => f (t.course c) (lanesIn s.issue.parts c) (fun m => s.values t false g.wide d srcs c m) l :=
    funext₂ fun c l => computes _ _ _ l (lifted.members c)
  exact ⟨s', ran, same ▸ delivers⟩

/-- A function whose result is a value a lane suits any values. -/
theorem GroupFn.Ok.of_allG {g : GroupFn} (perLane : g.shape = allG) : g.Ok where
  uni := fun _ _ _ _ uniform => by rw [perLane] at uniform; cases uniform
  aff := fun _ => by rw [perLane]; exact nofun

/-- One whose result is a value for all has to give every member the same. -/
theorem GroupFn.Ok.of_allU {g : GroupFn} (common : g.shape = allU) (same : ∀ c ms rd a b, g.val c ms rd a = g.val c ms rd b) : g.Ok where
  uni := fun c ms _ _ _ a _ b _ => same c ms _ a b
  aff := fun _ => by rw [common]; exact nofun

/-! ## shfl, census, match, isect (R198 to R200, R207) -/

/-- What shfl gives a member is the first operand of some member. -/
theorem shflFn_val_of_member (c : Course) (ms : List Nat) (rd : Nat → List W64) {l : Nat} (hl : l ∈ ms) :
    ∃ j ∈ ms, shflFn.val c ms rd l = (rd j).headD 0 := by
  by_cases there : (decide (((rd l).getD 1 0).toNat < 32) && ms.contains ((rd l).getD 1 0).toNat) = true
  · obtain ⟨_, named⟩ := Bool.and_eq_true_iff.mp there
    exact ⟨_, List.contains_iff_mem.mp named, if_pos there⟩
  · exact ⟨l, hl, if_neg there⟩

/-- That is one value for all where the operand is. -/
theorem shflFn_ok : shflFn.Ok where
  uni := fun c ms vs uniform shape a ha b hb => by
    obtain ⟨i, hi, ei⟩ := shflFn_val_of_member c ms (fun l => vs.map fun v => v.val l) ha
    obtain ⟨j, hj, ej⟩ := shflFn_val_of_member c ms (fun l => vs.map fun v => v.val l) hb
    rw [ei, ej]
    cases vs with
    | nil => rfl
    | cons v rest =>
      have one : v.shape = .u := by
        by_contra other
        simp [shflFn, other] at shape
      exact uniform v List.mem_cons_self one i hi j hj
  aff := fun sh => by
    show (if sh.headD .g == .u then Shape.u else .g) ≠ .a
    split <;> exact nofun

theorem censusFn_ok (k : Census) (p : PredSel) : (censusFn k p).Ok := by
  cases k with
  | rank => exact .of_allG rfl
  | mask | count | agree | first | last => exact .of_allU rfl fun _ _ _ _ _ => rfl

theorem pairOk_of_ok_alone {n wide : Bool} {d : Dst} (h : d.ok wide n = true) : d.pairOk wide = true ∧ ∀ o ∈ ([] : List Operand), o.2.pairOk o.1 = true := by
  simp only [Dst.ok, Bool.and_eq_true] at h
  exact ⟨h.1, fun _ none => (List.not_mem_nil none).elim⟩

/-- The members agree where all or none of them satisfy the predicate (R199). -/
theorem agree_eq (ms : List Nat) (q : Nat → Bool) :
    (if (ms.filter q).isEmpty then 0 else if (ms.filter q).length = ms.length then 2 else 1 : W64) =
      if ∀ m ∈ ms, q m = false then 0 else if ∀ m ∈ ms, q m = true then 2 else 1 := by
  have none : (ms.filter q).isEmpty = true ↔ ∀ m ∈ ms, q m = false := by simp
  simp only [none, List.length_filter_eq_length_iff]

/-- Settles O14: each instruction by the values it gives the members. -/
theorem groupExchange : Obligations.GroupExchange := by
  unfold Obligations.GroupExchange
  intro d a b p
  refine ⟨groupUnit_of_fn shflFn shflFn_ok (fun _ => rfl) pairOk_of_wfR2 fun c ms v l _ => ?_,
    groupUnit_of_fn (censusFn .mask p) (censusFn_ok _ p) (fun _ => rfl) pairOk_of_ok_alone fun _ _ _ _ _ => rfl,
    groupUnit_of_fn (censusFn .count p) (censusFn_ok _ p) (fun _ => rfl) pairOk_of_ok_alone fun _ _ _ _ _ => rfl,
    groupUnit_of_fn (censusFn .agree p) (censusFn_ok _ p) (fun _ => rfl) pairOk_of_ok_alone fun c ms _ _ _ => agree_eq ms _,
    groupUnit_of_fn (censusFn .first p) (censusFn_ok _ p) (fun _ => rfl) pairOk_of_ok_alone fun c ms v l members => ?_,
    groupUnit_of_fn (censusFn .last p) (censusFn_ok _ p) (fun _ => rfl) pairOk_of_ok_alone fun c ms v l members => ?_,
    groupUnit_of_fn (censusFn .rank p) (censusFn_ok _ p) (fun _ => rfl) pairOk_of_ok_alone fun c ms v l _ => ?_,
    groupUnit_of_fn matchFn (.of_allG rfl) (fun _ => rfl) pairOk_of_wfR2 fun _ _ _ _ _ => rfl,
    groupUnit_of_fn isectFn (.of_allG rfl) (fun _ => rfl) pairOk_of_wfR2 fun c ms v l members => ?_⟩
  · simp [shflFn]
  · rw [members.lowestLane_eq]
    simp [censusFn, List.headD_eq_head?_getD]
  · rw [members.highestLane_eq]
    rfl
  · simp [censusFn, List.filter_filter, Bool.and_comm]
  · simp only [members.lowestLane_eq, isectFn]
    cases found : ms.find? fun m => (v m).getD 1 0 == (v l).headD 0 with
    | none => rfl
    | some m => simp [members.lanes m (List.mem_of_find?_eq_some found)]

/-! ## Reductions and scans (R203, R204) -/

theorem nth_loadLanes (ms : List Nat) (x : Nat → W64) {l : Nat} (h : l < 32) : nth (loadLanes ms x) l none = if ms.contains l then some (x l) else none := by
  simp [loadLanes, nth, h]

/-- An exclusive scan starts from the loaded values, each one lane up (R204). -/
theorem shifted_eq (ms : List Nat) (x : Nat → W64) :
    (lanes32.map fun m => if m = 0 then none else nth (loadLanes ms x) (m - 1) none) =
      (List.range 32).map fun m => if m = 0 then none else if ms.contains (m - 1) then some (x (m - 1)) else none :=
  List.map_congr_left fun m hm => by
    rw [nth_loadLanes ms x (by have := List.mem_range.mp hm; omega)]

/-- Settles O15: each instruction by the values it gives the members. -/
theorem groupReductions : Obligations.GroupReductions := by
  unfold Obligations.GroupReductions
  intro d a
  exact ⟨fun k => groupUnit_of_fn (redFn k) (.of_allU rfl fun _ _ _ _ _ => rfl) (fun _ => rfl) pairOk_of_wfR1 fun _ _ _ _ _ => rfl,
    fun k => groupUnit_of_fn (scanFn k false) (.of_allG rfl) (fun _ => rfl) pairOk_of_wfR1 fun _ _ _ _ _ => rfl,
    fun k => groupUnit_of_fn (scanFn k true) (.of_allG rfl) (fun _ => rfl) pairOk_of_wfR1 fun _ ms v _ _ => by
      rw [← shifted_eq ms fun m => (v m).headD 0]
      rfl⟩

end Sys2Proof.Machine
end

section
/-!
SUPPORT. The tree of R202: what it combines, and in which order. The selections (R205, R206) over the order of R165, and the integer kinds (R201,
R164), whose combination has no order. `selections` settles O16, `integerReductionAnyOrder` settles O17.
-/

namespace Sys2Proof.Machine

/-! ## The tree by its blocks (R202) -/

/-- The combination of the `2 ^ n` lanes from lane `lo` on: that of the lower half, then that of the upper half. -/
def treeBlock (op : W64 → W64 → W64) (y : List (Option W64)) : Nat → Nat → Option W64
  | 0, lo => nth y lo none
  | n + 1, lo => comb op (treeBlock op y n lo) (treeBlock op y n (lo + 2 ^ n))

/-- Every lane holds the combination of the block of `2 ^ n` lanes it lies in. -/
def HoldsBlocks (op : W64 → W64 → W64) (y : List (Option W64)) (n : Nat) (z : List (Option W64)) : Prop :=
  ∀ l < 32, nth z l none = treeBlock op y n (l / 2 ^ n * 2 ^ n)

/-- The two lanes a step of Tree joins for a lane lie in the two halves of its next block. -/
theorem halves_of_block {n l : Nat} (small : n < 5) (lane : l < 32) :
    let lo := l - l / 2 ^ n % 2 * 2 ^ n
    lo + 2 ^ n < 32 ∧ lo / 2 ^ n * 2 ^ n = l / 2 ^ (n + 1) * 2 ^ (n + 1) ∧ (lo + 2 ^ n) / 2 ^ n * 2 ^ n = l / 2 ^ (n + 1) * 2 ^ (n + 1) + 2 ^ n := by
  interval_cases n <;> dsimp only <;> omega

theorem nth_treeStep (op : W64 → W64 → W64) (z : List (Option W64)) (st : Nat) {l : Nat} (lane : l < 32) :
    nth (treeStep op z st) l none = comb op (nth z (l - l / st % 2 * st) none) (nth z (l - l / st % 2 * st + st) none) := by
  simp [treeStep, nth, lane]

theorem HoldsBlocks.step {op : W64 → W64 → W64} {y z : List (Option W64)} {n : Nat} (h : HoldsBlocks op y n z) (small : n < 5) :
    HoldsBlocks op y (n + 1) (treeStep op z (2 ^ n)) := by
  intro l lane
  obtain ⟨inside, low, high⟩ := halves_of_block small lane
  rw [nth_treeStep op z _ lane, h _ (by omega), h _ inside, low, high, treeBlock]

theorem treeOf_eq_treeBlock (op : W64 → W64 → W64) (y : List (Option W64)) : treeOf op y = treeBlock op y 5 0 := by
  have start : HoldsBlocks op y 0 y := fun l _ => by simp [treeBlock]
  have done := ((((start.step (by decide)).step (by decide)).step (by decide)).step (by decide)).step (by decide)
  exact done 0 (by decide)

theorem comb_none (op : W64 → W64 → W64) (a : Option W64) : comb op a none = a := by
  cases a <;> rfl

/-! ## The order of candidates (R165) -/

/-- A candidate's place in the order: the least wins, the key before the index. -/
def MaxTy.rank (t : MaxTy) (most : Bool) (v : W64) : ℤ ×ₗ ℕ :=
  toLex (if most then -(t.key most v : ℤ) else t.key most v, elem 32 1 v)

theorem MaxTy.wins_iff {t : MaxTy} {most : Bool} {a b : W64} : t.wins most a b = true ↔ t.rank most a ≤ t.rank most b := by
  unfold MaxTy.wins MaxTy.rank
  rw [Prod.Lex.toLex_le_toLex]
  by_cases same : t.key most a = t.key most b
  · simp [same]
  · cases most <;> simp [same]

/-- The better of two candidates. -/
def MaxTy.better (t : MaxTy) (most : Bool) (a b : W64) : W64 := if t.wins most a b then a else b

section
variable {t : MaxTy} {most : Bool} {y : List (Option W64)} {r s : Option W64}

theorem MaxTy.rank_better (a b : W64) : t.rank most (t.better most a b) = min (t.rank most a) (t.rank most b) := by
  unfold MaxTy.better
  split
  · next first => exact (min_eq_left (wins_iff.mp first)).symm
  · next second => exact (min_eq_right (le_of_not_ge (mt wins_iff.mpr second))).symm

/-- The better of two is one of them. -/
theorem MaxTy.of_mem_comb_better {u : W64} (h : u ∈ comb (t.better most) r s) : u ∈ r ∨ u ∈ s := by
  cases r with
  | none => exact .inr h
  | some a =>
    cases s with
    | none => exact .inl h
    | some b =>
      obtain rfl := Option.some.inj h
      unfold MaxTy.better
      split
      · exact .inl rfl
      · exact .inr rfl

/-- The better of two wins against both. -/
theorem MaxTy.comb_better_wins {v : W64} (h : v ∈ r ∨ v ∈ s) : ∃ u ∈ comb (t.better most) r s, t.rank most u ≤ t.rank most v := by
  cases r with
  | none => exact ⟨v, h.resolve_left nofun, le_rfl⟩
  | some a =>
    cases s with
    | none => exact ⟨v, h.resolve_right nofun, le_rfl⟩
    | some b =>
      refine ⟨_, rfl, ?_⟩
      rw [MaxTy.rank_better]
      rcases h with first | second
      · obtain rfl := Option.some.inj first
        exact min_le_left _ _
      · obtain rfl := Option.some.inj second
        exact min_le_right _ _

/-! ## The winner of a tree (R205) -/

/-- `r` is the best candidate of the lanes from `lo` to below `hi`: none where none of them holds one, else one that a lane holds and that wins
against every lane's. -/
structure MaxTy.BestOf (t : MaxTy) (most : Bool) (y : List (Option W64)) (lo hi : Nat) (r : Option W64) : Prop where
  held : ∀ v ∈ r, ∃ l, nth y l none = some v
  wins : ∀ l w, lo ≤ l → l < hi → nth y l none = some w → ∃ v ∈ r, t.rank most v ≤ t.rank most w

theorem MaxTy.BestOf.comb {lo mid hi : Nat} (h : t.BestOf most y lo mid r) (k : t.BestOf most y mid hi s) :
    t.BestOf most y lo hi (comb (t.better most) r s) where
  held := fun v hv => (of_mem_comb_better hv).elim (h.held v) (k.held v)
  wins := fun l w from_lo below here => by
    have half : ∃ v, (v ∈ r ∨ v ∈ s) ∧ t.rank most v ≤ t.rank most w := by
      by_cases low : l < mid
      · obtain ⟨v, hv, le⟩ := h.wins l w from_lo low here
        exact ⟨v, .inl hv, le⟩
      · obtain ⟨v, hv, le⟩ := k.wins l w (by omega) below here
        exact ⟨v, .inr hv, le⟩
    obtain ⟨v, hv, le⟩ := half
    obtain ⟨u, hu, less⟩ := comb_better_wins hv
    exact ⟨u, hu, less.trans le⟩

theorem MaxTy.bestOf_treeBlock (n lo : Nat) : t.BestOf most y lo (lo + 2 ^ n) (treeBlock (t.better most) y n lo) := by
  induction n generalizing lo with
  | zero =>
    refine ⟨fun v hv => ⟨lo, hv⟩, fun l w from_lo below here => ?_⟩
    obtain rfl : l = lo := by omega
    exact ⟨w, here, le_rfl⟩
  | succ n ih =>
    have joined := (ih lo).comb (ih (lo + 2 ^ n))
    rwa [show lo + 2 ^ n + 2 ^ n = lo + 2 ^ (n + 1) by omega] at joined

end

theorem nth_loadLanes_eq_some {ms : List Nat} {x : Nat → W64} {l : Nat} {v : W64} :
    nth (loadLanes ms x) l none = some v ↔ l < 32 ∧ l ∈ ms ∧ x l = v := by
  by_cases lane : l < 32
  · simp [nth_loadLanes ms x lane, lane]
  · simp [loadLanes, nth, lane]

/-- Over members, the tree yields the candidate of one of them, which wins against every member's. -/
theorem MaxTy.tree_winner (t : MaxTy) (most : Bool) (x : Nat → W64) (ms : List Nat) (lanes : ∀ m ∈ ms, m < 32) (some_member : ms ≠ []) :
    ∃ m ∈ ms, treeOf (t.better most) (loadLanes ms x) = some (x m) ∧ ∀ k ∈ ms, t.wins most (x m) (x k) = true := by
  have best : t.BestOf most (loadLanes ms x) 0 32 (treeOf (t.better most) (loadLanes ms x)) := by
    rw [treeOf_eq_treeBlock]
    exact bestOf_treeBlock 5 0
  have beats (k : Nat) (hk : k ∈ ms) : ∃ v ∈ treeOf (t.better most) (loadLanes ms x), t.rank most v ≤ t.rank most (x k) :=
    best.wins k _ (Nat.zero_le k) (lanes k hk) (nth_loadLanes_eq_some.mpr ⟨lanes k hk, hk, rfl⟩)
  obtain ⟨k, hk⟩ := List.exists_mem_of_ne_nil ms some_member
  obtain ⟨v, hv, _⟩ := beats k hk
  obtain ⟨m, held⟩ := best.held v hv
  obtain ⟨_, hm, rfl⟩ := nth_loadLanes_eq_some.mp held
  refine ⟨m, hm, hv, fun k hk => ?_⟩
  obtain ⟨u, hu, le⟩ := beats k hk
  obtain rfl := Option.mem_unique hu hv
  exact wins_iff.mpr le

theorem maxiFn_ok (t : MaxTy) (most : Bool) : (maxiFn t most).Ok := .of_allU rfl fun _ _ _ _ _ => rfl

/-- selk gives the lanes below `k` the ranked candidates as far as there are any, and every other lane the padding pair (R206, R164). -/
theorem selkFn_val (c : Course) (ms : List Nat) (v : Nat → List W64) (l : Nat) :
    selkFn.val c ms v l =
      let best := sortBy (fun x y => MaxTy.f32.wins true x y) (ms.map fun m => (v m).headD 0)
      if l < ((v l).getD 1 0).toNat ∧ l < best.length then MaxTy.f32.finish (best.getD l 0) else 0xFFFFFFFFFF800000 := by
  simp only [selkFn]
  generalize sortBy _ _ = best
  by_cases asked : l < ((v l).getD 1 0).toNat
  · rw [if_pos asked]
    by_cases there : l < best.length
    · rw [if_pos ⟨asked, there⟩, List.getElem?_eq_getElem there, List.getD_eq_getElem _ _ there]
    · rw [if_neg fun both => there both.2, List.getElem?_eq_none (not_lt.mp there)]
      rfl
  · rw [if_neg asked, if_neg fun both => asked both.1]
    rfl

/-- Settles O16: each instruction by the values it gives the members, and the tree by its blocks, each of which holds its best candidate. -/
theorem selections : Obligations.Selections := by
  unfold Obligations.Selections
  refine ⟨fun d a b => ?_, MaxTy.tree_winner⟩
  exact ⟨groupUnit_of_fn (maxiFn .f32 true) (maxiFn_ok _ _) (fun _ => rfl) pairOk_of_wfR1 fun _ _ _ _ _ => rfl,
    groupUnit_of_fn (maxiFn .f32 false) (maxiFn_ok _ _) (fun _ => rfl) pairOk_of_wfR1 fun _ _ _ _ _ => rfl,
    groupUnit_of_fn (maxiFn .f16 true) (maxiFn_ok _ _) (fun _ => rfl) pairOk_of_wfR1 fun _ _ _ _ _ => rfl,
    groupUnit_of_fn (maxiFn .f16 false) (maxiFn_ok _ _) (fun _ => rfl) pairOk_of_wfR1 fun _ _ _ _ _ => rfl,
    groupUnit_of_fn (maxiFn .bf16 true) (maxiFn_ok _ _) (fun _ => rfl) pairOk_of_wfR1 fun _ _ _ _ _ => rfl,
    groupUnit_of_fn (maxiFn .bf16 false) (maxiFn_ok _ _) (fun _ => rfl) pairOk_of_wfR1 fun _ _ _ _ _ => rfl,
    groupUnit_of_fn (maxiFn .i32 true) (maxiFn_ok _ _) (fun _ => rfl) pairOk_of_wfR1 fun _ _ _ _ _ => rfl,
    groupUnit_of_fn (maxiFn .i32 false) (maxiFn_ok _ _) (fun _ => rfl) pairOk_of_wfR1 fun _ _ _ _ _ => rfl,
    groupUnit_of_fn (maxiFn .n32 true) (maxiFn_ok _ _) (fun _ => rfl) pairOk_of_wfR1 fun _ _ _ _ _ => rfl,
    groupUnit_of_fn (maxiFn .n32 false) (maxiFn_ok _ _) (fun _ => rfl) pairOk_of_wfR1 fun _ _ _ _ _ => rfl,
    groupUnit_of_fn selkFn (.of_allG rfl) (fun _ => rfl) pairOk_of_wfR2 fun c ms v l _ => selkFn_val c ms v l⟩

/-! ## The integer kinds in any order (R201, R202, R164) -/

/-- Values are combined in any order, and from `empty` as if nothing had come before. -/
structure Combines {α : Type} (op : α → α → α) (empty : α) : Prop where
  assoc : ∀ a b c, op (op a b) c = op a (op b c)
  comm : ∀ a b, op a b = op b a
  unit : ∀ a, op empty a = a

/-- The one of two with the larger key. -/
def larger {α β : Type} [LinearOrder β] (key : α → β) (a b : α) : α := if key b ≤ key a then a else b

theorem key_larger {α β : Type} [LinearOrder β] (key : α → β) (a b : α) : key (larger key a b) = max (key a) (key b) := by
  unfold larger
  split
  · next le => exact (max_eq_left le).symm
  · next more => exact (max_eq_right (le_of_not_ge more)).symm

/-- Where the key tells values apart, the larger is combined as the maximum of keys is. -/
theorem combines_larger {α β : Type} [LinearOrder β] {key : α → β} {least : α} (inj : Function.Injective key) (bound : ∀ a, key least ≤ key a) :
    Combines (larger key) least where
  assoc := fun a b c => inj (by simp only [key_larger key, max_assoc])
  comm := fun a b => inj (by simp only [key_larger key, max_comm])
  unit := fun a => inj (by rw [key_larger key, max_eq_right (bound a)])

/-- A value of a kind's width. -/
def FitsKind (k : RedKind) (v : W64) : Prop := k.wide = false → v = zx64 (lo32 v)

/-- The kinds whose result does not depend on an order, and needs no finishing. -/
structure OrderFree (k : RedKind) : Prop where
  assoc : ∀ a b c, redOp k (redOp k a b) c = redOp k a (redOp k b c)
  comm : ∀ a b, redOp k a b = redOp k b a
  unit : ∀ v, FitsKind k v → redOp k (redEmpty k) v = v
  finish : ∀ v, redFinish k (some v) = v

/-- A kind that combines low words so. -/
theorem orderFree_of_words {k : RedKind} {f : W32 → W32 → W32} {e : W32} (h : Combines f e)
    (op : redOp k = fun a b => res32 (f (lo32 a) (lo32 b))) (empty : redEmpty k = res32 e) (narrow : k.wide = false)
    (finish : ∀ v, redFinish k (some v) = v) : OrderFree k where
  assoc := fun a b c => by simp [op, h.assoc]
  comm := fun a b => by simp only [op, h.comm]
  unit := fun v fits => by
    rw [op, empty]
    simpa [h.unit] using (fits narrow).symm
  finish := finish

theorem orderFree {k : RedKind} (addF32 : k ≠ .addF32) (mulF32 : k ≠ .mulF32) (maxF32 : k ≠ .maxF32) (minF32 : k ≠ .minF32)
    (maxnF32 : k ≠ .maxnF32) (minnF32 : k ≠ .minnF32) (addF64 : k ≠ .addF64) : OrderFree k := by
  have toNat : Function.Injective (BitVec.toNat : W32 → Nat) := fun _ _ => BitVec.eq_of_toNat_eq
  have toInt : Function.Injective (BitVec.toInt : W32 → Int) := fun _ _ => BitVec.eq_of_toInt_eq
  cases k with
  | addI32 => exact orderFree_of_words (e := 0) ⟨BitVec.add_assoc, BitVec.add_comm, BitVec.zero_add⟩ rfl rfl rfl fun _ => rfl
  | andB32 => exact orderFree_of_words (e := BitVec.allOnes 32) ⟨BitVec.and_assoc, BitVec.and_comm, fun _ => BitVec.allOnes_and⟩ rfl rfl rfl fun _ => rfl
  | orB32 => exact orderFree_of_words (e := 0) ⟨BitVec.or_assoc, BitVec.or_comm, fun _ => BitVec.zero_or⟩ rfl rfl rfl fun _ => rfl
  | xorB32 => exact orderFree_of_words (e := 0) ⟨BitVec.xor_assoc, BitVec.xor_comm, fun _ => BitVec.zero_xor⟩ rfl rfl rfl fun _ => rfl
  | maxI32 =>
    exact orderFree_of_words (combines_larger (least := BitVec.intMin 32) toInt fun _ => BitVec.toInt_intMin_le _) rfl rfl rfl fun _ => rfl
  | minI32 =>
    exact orderFree_of_words (combines_larger (least := BitVec.intMax 32) (key := fun a => OrderDual.toDual a.toInt) toInt fun _ => BitVec.toInt_le) rfl rfl rfl fun _ => rfl
  | maxN32 => exact orderFree_of_words (combines_larger (least := 0) toNat fun a => Nat.zero_le a.toNat) rfl rfl rfl fun _ => rfl
  | minN32 =>
    exact orderFree_of_words (combines_larger (least := BitVec.allOnes 32) (key := fun a => OrderDual.toDual a.toNat) toNat fun a => Nat.le_of_lt_succ a.isLt)
      rfl rfl rfl fun _ => rfl
  | addI64 => exact ⟨BitVec.add_assoc, BitVec.add_comm, fun v _ => BitVec.zero_add v, fun _ => rfl⟩
  | addF32 => exact (addF32 rfl).elim
  | mulF32 => exact (mulF32 rfl).elim
  | maxF32 => exact (maxF32 rfl).elim
  | minF32 => exact (minF32 rfl).elim
  | maxnF32 => exact (maxnF32 rfl).elim
  | minnF32 => exact (minnF32 rfl).elim
  | addF64 => exact (addF64 rfl).elim

section
variable {op : W64 → W64 → W64} (assoc : ∀ a b c, op (op a b) c = op a (op b c))
include assoc

theorem comb_assoc (a b c : Option W64) : comb op (comb op a b) c = comb op a (comb op b c) := by
  cases a with
  | none => rfl
  | some a =>
    cases b with
    | none => rfl
    | some b =>
      cases c with
      | none => rfl
      | some c => exact congrArg some (assoc a b c)

/-- A block of an associative combination is its lanes from the left. -/
theorem treeBlock_eq_foldl (y : List (Option W64)) (n lo : Nat) :
    treeBlock op y n lo = (List.range' lo (2 ^ n)).foldl (fun acc l => comb op acc (nth y l none)) none := by
  have from_left (ls : List Nat) (a : Option W64) :
      ls.foldl (fun acc l => comb op acc (nth y l none)) a = comb op a (ls.foldl (fun acc l => comb op acc (nth y l none)) none) := by
    induction ls generalizing a with
    | nil => exact (comb_none op a).symm
    | cons l rest ih => rw [List.foldl_cons, List.foldl_cons, ih, ih (comb op none _), comb_assoc assoc]; rfl
  induction n generalizing lo with
  | zero => rfl
  | succ n ih =>
    rw [treeBlock, ih, ih, ← from_left, ← List.foldl_append, List.range'_append_1, ← Nat.two_mul, ← Nat.pow_succ']

/-- The tree over members is their combination from the left, in ascending order. -/
theorem treeOf_loadLanes_eq_foldl (ms : List Nat) (x : Nat → W64) :
    treeOf op (loadLanes ms x) = ((List.range 32).filter ms.contains).foldl (fun acc m => comb op acc (some (x m))) none := by
  rw [treeOf_eq_treeBlock, treeBlock_eq_foldl assoc, List.foldl_filter, List.range_eq_range']
  refine List.foldl_ext _ _ _ fun acc l hl => ?_
  rw [nth_loadLanes ms x (by have := List.mem_range'_1.mp hl; omega)]
  split
  · rfl
  · exact comb_none op acc

end

theorem comb_comm {op : W64 → W64 → W64} (comm : ∀ a b, op a b = op b a) (a b : Option W64) : comb op a b = comb op b a := by
  cases a with
  | none => exact (comb_none op b).symm
  | some a =>
    cases b with
    | none => rfl
    | some b => exact congrArg some (comm a b)

section
variable {k : RedKind} (free : OrderFree k)
include free

theorem OrderFree.finish_comb (acc : Option W64) {v : W64} (fits : FitsKind k v) :
    redFinish k (comb (redOp k) acc (some v)) = redOp k (redFinish k acc) v := by
  cases acc with
  | none => exact (free.finish v).trans (free.unit v fits).symm
  | some a => rw [free.finish a]; exact free.finish _

/-- Finishing at the end is combining from the empty result. -/
theorem OrderFree.finish_foldl (x : Nat → W64) (order : List Nat) (fits : ∀ m ∈ order, FitsKind k (x m)) (acc : Option W64) :
    redFinish k (order.foldl (fun acc m => comb (redOp k) acc (some (x m))) acc) = order.foldl (fun acc m => redOp k acc (x m)) (redFinish k acc) := by
  induction order generalizing acc with
  | nil => rfl
  | cons m rest ih =>
    rw [List.foldl_cons, List.foldl_cons, ih fun j hj => fits j (List.mem_cons_of_mem m hj), free.finish_comb acc (fits m List.mem_cons_self)]

theorem OrderFree.rightCommutative (x : Nat → W64) : RightCommutative fun acc m => comb (redOp k) acc (some (x m)) :=
  ⟨fun acc m j => by rw [comb_assoc free.assoc, comb_comm free.comm (some (x m)), comb_assoc free.assoc]⟩

end

/-- Settles O17: an order-free kind's tree is a fold from the left, and so is the same fold in any other order. -/
theorem integerReductionAnyOrder : Obligations.IntegerReductionAnyOrder := by
  unfold Obligations.IntegerReductionAnyOrder
  intro k x ms order addF32 mulF32 maxF32 minF32 maxnF32 minnF32 addF64 lanes nodup perm fits
  have free := orderFree addF32 mulF32 maxF32 minF32 maxnF32 minnF32 addF64
  have ascending : ((List.range 32).filter ms.contains).Perm order := by
    refine ((List.perm_ext_iff_of_nodup (List.nodup_range.filter _) nodup).mpr fun m => ?_).trans perm
    simpa using lanes m
  have := free.rightCommutative x
  calc redFinish k (treeOf (redOp k) (loadLanes ms x))
      = redFinish k (order.foldl (fun acc m => comb (redOp k) acc (some (x m))) none) := by
        rw [treeOf_loadLanes_eq_foldl free.assoc, ascending.foldl_eq]
    _ = order.foldl (fun acc m => redOp k acc (x m)) (redEmpty k) :=
        free.finish_foldl x order (fun m hm => fits m (perm.mem_iff.mpr hm)) none

end Sys2Proof.Machine
end

section
/-!
SUPPORT. One pass of an exact format (R214, R215, R218, R220). `passArithmetic` settles O42.
-/

namespace Sys2Proof.Machine

/-! ## Cells by row and column -/

/-- Rows of equal length one after another hold at every index the element of its row and column. -/
theorem flatMap_range_rows {α : Type} (f : Nat → Nat → α) (rows width : Nat) :
    (List.range rows).flatMap (fun i => (List.range width).map (f i)) = (List.range (rows * width)).map fun n => f (n / width) (n % width) := by
  induction rows with
  | zero => simp
  | succ rows ih =>
    rw [List.range_succ, List.flatMap_append, ih, Nat.succ_mul, List.range_add, List.map_append, List.map_map]
    congr 1
    rw [List.flatMap_singleton]
    refine List.map_congr_left fun j hj => ?_
    have lt : j < width := List.mem_range.mp hj
    have row : (rows * width + j) / width = rows := by rw [Nat.mul_comm, Nat.mul_add_div (by omega), Nat.div_eq_of_lt lt, Nat.add_zero]
    have column : (rows * width + j) % width = j := by rw [Nat.mul_comm, Nat.mul_add_mod, Nat.mod_eq_of_lt lt]
    rw [Function.comp_apply, row, column]

theorem nth_map_range {α : Type} (f : Nat → α) (d : α) {n i : Nat} (h : i < n) : nth ((List.range n).map f) i d = f i := by
  simp [nth, h]

theorem nth_map {α β : Type} (f : α → β) {l : List α} {i : Nat} (d : α) (d' : β) (h : i < l.length) : nth (l.map f) i d' = f (nth l i d) := by
  simp [nth, h]

/-! ## One accumulation step -/

/-- A step gives each element what its cell function makes of its sum. -/
theorem nth_accumulate_c (t : Tile) (sum : Nat → Nat → FVal) (cell : W64 → FVal → W64 × Bool) {i j : Nat} (hi : i < 32) (hj : j < 32) :
    nth (t.accumulate (ix32.map fun i => ix32.map (sum i)) cell).c (32 * i + j) 0 = (cell (nth t.c (32 * i + j) 0) (sum i j)).1 := by
  have row : (32 * i + j) / 32 = i := by omega
  have column : (32 * i + j) % 32 = j := by omega
  simp only [Tile.accumulate, List.flatMap_map, id]
  rw [flatMap_range_rows, List.map_map, nth_map_range _ _ (by omega), Function.comp_apply, row, column, nth_map_range _ _ hi, nth_map_range _ _ hj]

/-- A step counts as one, whatever its sums. -/
theorem accumulate_p (t : Tile) (sums : List (List FVal)) (cell : W64 → FVal → W64 × Bool) :
    (t.accumulate sums cell).p = if t.p = 0xFFFFFFFFFFFFFFFF then t.p else t.p + 1 := by
  simp only [Tile.accumulate, beq_iff_eq]

/-! ## One pass -/

/-- The product of element `k` of lane `i` of A and of lane `j` of B (R218). -/
def laneProduct (f : MFmt) (a b : List (List W32)) (i j k : Nat) : FVal :=
  FVal.mul (nth (nth (a.map (laneValues f true)) i []) k (.fin false 0 0)) (nth (nth (b.map (laneValues f false)) j []) k (.fin false 0 0))

theorem laneProduct_eq (f : MFmt) {a b : List (List W32)} {i j : Nat} (hi : i < a.length) (hj : j < b.length) (k : Nat) :
    laneProduct f a b i j k =
      FVal.mul (nth (laneValues f true (nth a i [])) k (.fin false 0 0)) (nth (laneValues f false (nth b j [])) k (.fin false 0 0)) := by
  rw [laneProduct, nth_map _ [] [] hi, nth_map _ [] [] hj]

theorem passDepth_pos (f : MFmt) : 0 < passDepth f := by
  cases f <;> decide

/-- A pass of an exact format without a control name is one step: each element takes its whole sum. -/
theorem pass_exact (t : Tile) {f : MFmt} (a b : List (List W32)) (exact : f.exactPass = true) :
    t.pass f a b none =
      t.accumulate (ix32.map fun i => ix32.map fun j => xsum ((List.range (passDepth f)).map (laneProduct f a b i j))) accCell := by
  have all : ((List.range (passDepth f)).filter fun n => segUse none (n / (passDepth f / 4)) != .skip) = List.range (passDepth f) :=
    List.filter_eq_self.mpr fun _ _ => rfl
  have deep : (List.range (passDepth f)).isEmpty = false :=
    List.isEmpty_eq_false_iff.mpr (mt List.range_eq_nil.mp (passDepth_pos f).ne')
  unfold Tile.pass
  simp only [exact, all, deep, if_true, Bool.false_eq_true, if_false]
  rfl

/-- Settles O42: the pass is one accumulation step over the products of the lanes. -/
theorem passArithmetic : Obligations.PassArithmetic := by
  unfold Obligations.PassArithmetic
  intro t f a b i j exact hi hj _ av bv sum ha hb
  have products : (List.range (passDepth f)).map (laneProduct f a b i j) =
      (List.range (passDepth f)).map fun k => FVal.mul (nth av k (.fin false 0 0)) (nth bv k (.fin false 0 0)) :=
    List.map_congr_left fun k _ => laneProduct_eq f (hi.trans_eq ha.symm) (hj.trans_eq hb.symm) k
  rw [pass_exact t a b exact]
  refine ⟨?_, accumulate_p t _ _⟩
  rw [nth_accumulate_c t (fun i j => xsum ((List.range (passDepth f)).map (laneProduct f a b i j))) accCell hi hj, products]

end Sys2Proof.Machine
end

section
/-! SUPPORT. The reset state, the fixed-group table and translation (R309, R342 to R345, R356). -/
namespace Sys2Proof.Machine

/-- Settles O58: memory by its own lemmas, the registers by evaluation of the reset state. -/
theorem resetState : Obligations.ResetState := by
  unfold Obligations.ResetState
  have memory : State.reset.memoryWf = true := by decide +kernel
  have courses : State.reset.coursesSound = true := rfl
  refine ⟨reset_mem_wf, reset_hostMem_wf, memory, courses, rfl, rfl, rfl, rfl, rfl, rfl, rfl, ?parts, ?pf, ?vf⟩
  case parts => decide +kernel
  case pf => rfl
  case vf => rfl

theorem fld_one_eq_testBit (n k : Nat) : (fld n k 1 == 1) = n.testBit k := by
  rw [Nat.testBit_eq_decide_div_mod_eq]
  rfl

theorem State.groupMembers_granted {s : State} {part g : Nat} (granted : (s.part part).granted ((s.part part).cfg 0x40 8) 4096 = true) (entry : g < 64) :
    s.groupMembers part g = ((List.range 512).filter fun k =>
      (leNat (s.mem.readN ((s.part part).cfg 0x40 8 + 64 * g) 64)).testBit k).map fun k => s.windowEntry part k := by
  unfold State.groupMembers Partition.table
  rw [if_pos granted]
  dsimp only
  rw [if_neg (Nat.not_le_of_lt entry)]
  simp only [fld_one_eq_testBit]

theorem State.groupMembers_refused {s : State} {part : Nat} (g : Nat)
    (refused : ¬ (s.part part).granted ((s.part part).cfg 0x40 8) 4096 = true) : s.groupMembers part g = [] := by
  unfold State.groupMembers Partition.table
  rw [if_neg refused]

theorem State.groupMembers_past (s : State) (part : Nat) {g : Nat} (past : 64 ≤ g) : s.groupMembers part g = [] := by
  unfold State.groupMembers
  split
  · rfl
  · exact if_pos past

theorem State.collOk_no_group {s : State} {part : Nat} {d : CollDesc} (empty : s.groupMembers part d.group = []) (fixed : d.group ≠ 0xFF) :
    s.collOk part d = false := by
  have not_open : (d.group == 0xFF) = false := beq_false_of_ne fixed
  unfold State.collOk
  dsimp only
  rw [empty, not_open, List.any_nil, Bool.false_and, Bool.false_and, Bool.or_false, Bool.and_false]

/-- Settles O53: the members are read off the mask of the entry; where there is none, `collOk` refuses the descriptor. -/
theorem fixedGroups : Obligations.FixedGroups := by
  unfold Obligations.FixedGroups
  intro s part g base mask
  refine ⟨State.groupMembers_granted, fun entry zeros => ?_, s.groupMembers_past part, fun d => State.collOk_no_group⟩
  by_cases granted : (s.part part).granted base 4096 = true
  · have bits : leNat (s.mem.readN ((s.part part).cfg 0x40 8 + 64 * g) 64) = 0 := zeros
    rw [State.groupMembers_granted granted entry, bits]
    simp only [Nat.zero_testBit, List.filter_false, List.map_nil]
  · exact State.groupMembers_refused g granted

theorem fld_one_eq_zero (n k : Nat) : (fld n k 1 == 0) = !n.testBit k := by
  have bit : fld n k 1 < 2 := Nat.mod_lt _ (by decide)
  rw [← fld_one_eq_testBit]
  interval_cases fld n k 1 <;> rfl

/-! ## Translation (R342 to R345) -/

/-- The faults a walk ends in (R343, R381). -/
def WalkFault (r : Except FCode (Nat × Nat)) : Prop := ∀ e, r = .error e → e = .xlate ∨ e = .linkLost

theorem walkFault_xlate : WalkFault (.error .xlate) := fun _ h => .inl (Except.error.inj h).symm
theorem walkFault_linkLost : WalkFault (.error .linkLost) := fun _ h => .inr (Except.error.inj h).symm
theorem walkFault_ok (r : Nat × Nat) : WalkFault (.ok r) := fun _ h => nomatch h

theorem State.walk_fault (s : State) (va : Nat) (lv table : Nat) : WalkFault (s.walk va table lv) := by
  induction lv generalizing table with
  | zero =>
    unfold State.walk
    exact apply_ite_prop walkFault_linkLost (apply_ite_prop walkFault_xlate (walkFault_ok _))
  | succ lv ih =>
    unfold State.walk
    refine apply_ite_prop walkFault_linkLost (apply_ite_prop walkFault_xlate (apply_ite_prop ?leaf (apply_ite_prop walkFault_xlate ?table)))
    case leaf => exact apply_ite_prop walkFault_xlate (apply_ite_prop walkFault_xlate (walkFault_ok _))
    case table => exact apply_ite_prop walkFault_xlate (ih _)

/-- What a local leaf allows an access (R343). -/
theorem State.leafCheck_local (s : State) (part : Nat) (user : Bool) (m : AccMode) (va : Nat) {leaf size : Nat} (here : leaf.testBit 7 = false) :
    s.leafCheck part user m va leaf size =
      if m = .write ∧ leaf.testBit 2 = false ∨ m = .fetch ∧ leaf.testBit 3 = false ∨ user = true ∧ leaf.testBit 4 = false ∨
          (s.part part).granted (leaf / 256 % 2 ^ 44 * 256) size = false then .error .prot
      else .ok { pa := leaf / 256 % 2 ^ 44 * 256 + va % size, remote := none, stamped := leaf.testBit 5, domain := leaf.testBit 6 } := by
  have base : fld leaf 8 44 = leaf / 256 % 2 ^ 44 := rfl
  unfold State.leafCheck
  simp only [fld_one_eq_testBit, fld_one_eq_zero, here, base, ite_or]
  simp

/-- An access of a core through a hit (R344). -/
theorem State.translate_hit {s : State} {k part : Nat} {va : W64} {e : TlbEntry} (good : canonical va = true)
    (hit : tlbFind (s.core k).tlb part (va.toNat % 2 ^ 57) = some e) (user : Bool) (m : AccMode) :
    s.translate (some k) part user m va = (s, s.leafCheck part user m (va.toNat % 2 ^ 57) e.leaf.toNat e.size) := by
  simp only [State.translate, good, Option.bind_some, hit]
  rfl

theorem State.translate_walk_fails {s : State} {k part : Nat} {va : W64} {e : FCode} (good : canonical va = true)
    (miss : tlbFind (s.core k).tlb part (va.toNat % 2 ^ 57) = none) (walk : s.walk (va.toNat % 2 ^ 57) ((s.part part).cfg 0x08 8) 4 = .error e)
    (user : Bool) (m : AccMode) : s.translate (some k) part user m va = (s, .error e) := by
  simp only [State.translate, good, Option.bind_some, miss, walk]
  rfl

/-- The TLB of a core after a walk has filled it (R344). -/
def Core.filled (c : Core) (part va leaf size : Nat) : List TlbEntry :=
  tlbInsert c.tlb ⟨part, va / size * size, size, BitVec.ofNat 64 leaf⟩

theorem State.translate_walk {s : State} {k part : Nat} {va : W64} {leaf size : Nat} (good : canonical va = true)
    (miss : tlbFind (s.core k).tlb part (va.toNat % 2 ^ 57) = none) (walk : s.walk (va.toNat % 2 ^ 57) ((s.part part).cfg 0x08 8) 4 = .ok (leaf, size))
    {user : Bool} {m : AccMode} (keeps : cacheable (s.leafCheck part user m (va.toNat % 2 ^ 57) leaf size) = true) :
    s.translate (some k) part user m va = (s.setCore k { s.core k with tlb := (s.core k).filled part (va.toNat % 2 ^ 57) leaf size },
      s.leafCheck part user m (va.toNat % 2 ^ 57) leaf size) := by
  simp only [State.translate, good, Option.bind_some, miss, walk, keeps]
  rfl

/-- Settles O26: a hit and a walk by one lemma each, and what the leaf decides by `State.leafCheck_local`. -/
theorem translation : Obligations.Translation := by
  unfold Obligations.Translation
  intro s k part user m va
  refine ⟨fun bad => ?_, fun e good hit here => ?_, fun good miss =>
    ⟨fun e walk => ⟨s.walk_fault _ _ _ e walk, State.translate_walk_fails good miss walk user m⟩, ?_⟩⟩
  · unfold State.translate
    rw [bad]
    rfl
  · rw [State.translate_hit good hit, s.leafCheck_local _ _ _ _ here]
  · intro leaf size walk here
    have check := s.leafCheck_local part user m (va.toNat % 2 ^ 57) (size := size) here
    have keeps : cacheable (s.leafCheck part user m (va.toNat % 2 ^ 57) leaf size) = true := by
      rw [check]
      exact apply_ite_prop (p := fun r => cacheable r = true) rfl rfl
    exact ⟨_, check ▸ State.translate_walk good miss walk keeps⟩

end Sys2Proof.Machine
end

section
/-! SUPPORT. The checks of a device-memory access (R258, R277). -/
namespace Sys2Proof.Machine

/-! ## A page that is seen -/

theorem State.notePage_homeAlive (s : State) (unit part page : Nat) (stamped : Bool) (a n : Nat) :
    (s.notePage unit part page stamped).homeAlive a n = s.homeAlive a n := rfl

theorem State.forgetUnit_homeAlive (s : State) (unit a n : Nat) : (s.forgetUnit unit).homeAlive a n = s.homeAlive a n := by
  unfold State.forgetUnit
  dsimp only
  split <;> rfl

/-- Which homes answer is no matter of how a page was last seen (R258). -/
theorem State.seePage_homeAlive (s : State) (part : Nat) (dev : Option Nat) (va pa : Nat) (stamped : Bool) (a n : Nat) :
    (s.seePage part dev va pa stamped).homeAlive a n = s.homeAlive a n := by
  unfold State.seePage
  dsimp only
  split
  case h_1 => rw [State.notePage_homeAlive, State.forgetUnit_homeAlive]
  case h_4 => exact apply_ite_prop (p := fun u : State => u.homeAlive a n = s.homeAlive a n) (State.notePage_homeAlive ..) rfl
  case h_2 | h_3 => exact State.notePage_homeAlive ..
  case h_5 | h_6 => rfl

/-! ## The checks of an access, in order (R277) -/

section Checks
variable {s : State} {w : Who} {a : Access} {q : LaneAcc} (device : ∀ f, a.kind ≠ .fetch f)
include device

theorem State.accessLane_misaligned (odd : q.addr.toNat % a.kind.size ≠ 0) : s.accessLane w a q = (s, .fault .align 0 q.addr) := by
  unfold State.accessLane
  split
  next f fetch => exact absurd fetch (device f)
  next => exact if_pos odd

variable (aligned : q.addr.toNat % a.kind.size = 0)
include aligned

theorem State.accessLane_unmapped {s1 : State} {e : FCode} (fault : s.translate (some w.core) w.part w.user a.kind.mode q.addr = (s1, .error e)) :
    s.accessLane w a q = (s1, if e = .linkLost then .fault .linkLost 0 q.addr else .logged e q.addr) := by
  unfold State.accessLane
  split
  next f fetch => exact absurd fetch (device f)
  next =>
    simp only [aligned, fault, ne_eq, not_true_eq_false, if_false]
    cases e <;> rfl

theorem State.accessLane_mismatch {s0 : State} {x : Xlat} (mapped : s.translate (some w.core) w.part w.user a.kind.mode q.addr = (s0, .ok x))
    (here : x.remote = none) (home : s0.homeAlive x.pa = true) {d : Nat} (mix : kindMismatch a.kind x.stamped = some d) :
    s.accessLane w a q = (s0.seePage w.part none q.addr.toNat x.pa x.stamped, .fault .stampMix d q.addr) := by
  unfold State.accessLane
  split
  next f fetch => exact absurd fetch (device f)
  next =>
    simp only [aligned, mapped, here, mix, State.seePage_homeAlive, home, ne_eq, not_true_eq_false, if_false, if_true, Option.map_none]

end Checks

/-- Settles O25: the checks one by one, each by its own lemma. -/
theorem accessChecks : Obligations.AccessChecks := by
  unfold Obligations.AccessChecks
  intro s w a q device
  refine ⟨State.accessLane_misaligned device, fun aligned => ⟨fun s1 e => State.accessLane_unmapped device aligned, fun s0 x mapped here home => ⟨?_, ?_⟩⟩⟩
  · rintro stamped (⟨n, kind⟩ | ⟨op, kind⟩ | ⟨c, kind⟩) <;>
      exact State.accessLane_mismatch device aligned mapped here home (by rw [kind, stamped]; rfl)
  · rintro plain (⟨n, kind⟩ | ⟨b, kind⟩) <;>
      exact State.accessLane_mismatch device aligned mapped here home (by rw [kind, plain]; rfl)

end Sys2Proof.Machine
end

section
/-! SUPPORT. Stamped stores, loads of stamped pages and lda (R259, R260, R263, R287). -/
namespace Sys2Proof.Machine

/-! ## Accesses to a stamped page of this device -/

/-- The access of size `n` at `q` passes every check of R277 on a stamped page of this device, as the state `s1` stands once the page is seen: it is
aligned, its home answers, and it overlaps no pending stamped store of its own threads (R260). -/
structure StampedReaches (s : State) (w : Who) (m : AccMode) (q : LaneAcc) (n : Nat) (s1 : State) (x : Xlat) : Prop where
  aligned : q.addr.toNat % n = 0
  mapped : ∃ s0, s.translate (some w.core) w.part w.user m q.addr = (s0, .ok x) ∧ s1 = s0.seePage w.part none q.addr.toNat x.pa true
  here : x.remote = none
  stamped : x.stamped = true
  home : s1.homeAlive x.pa = true
  clear : s1.overlapsOwn w none x.pa n = false

section Stamped
variable {s s1 : State} {w : Who} {q : LaneAcc} {x : Xlat}

theorem State.accessLane_sts {n : Nat} (h : StampedReaches s w .write q n s1 x) {s2 : State} {ok : Bool} {lu : Nat}
    (clock : s1.intervalOk (dieOfCore w.core) (s1.stampDom w.part x.domain) = (s2, ok, lu)) (d aux : Nat) :
    s.accessLane w { kind := .sts n, dest := d, aux := aux } q =
      if ok then s2.performSts w x (s1.stampDom w.part x.domain) lu q n else (s2, .fault .intervalWide 0 q.addr) := by
  obtain ⟨aligned, ⟨s0, mapped, rfl⟩, here, stamped, home, clear⟩ := h
  simp only [State.accessLane, AccKind.size, AccKind.mode, aligned, mapped, kindMismatch, here, stamped, home, clear, clock, Option.map_none, ne_eq,
    not_true_eq_false, if_true, if_false, Bool.false_eq_true]
  cases ok <;> rfl

/-- A load that does not release gives what is visible at the home, and fills no cache (R287). -/
theorem State.accessLane_loadStamped {n : Nat} (h : StampedReaches s w .read q n s1 x) (sound : s1.poisoned x.pa n = false) {od : Order}
    (reads : Order.releases od = false) (d : Nat) (signed u : Bool) (sc : Scope) :
    s.accessLane w { kind := .load n signed, scope := sc, order := od, dest := d, uniform := u } q =
      (if Order.acquires od then s1.acquireActs w sc else s1, .done (extendLoad signed (s1.mem.readN x.pa n))) := by
  obtain ⟨aligned, ⟨s0, mapped, rfl⟩, here, stamped, home, clear⟩ := h
  have untimed : (od == .sc) = false := by
    cases od
    case sc => cases reads
    all_goals rfl
  simp only [State.accessLane, AccKind.size, AccKind.mode, aligned, mapped, kindMismatch, here, stamped, home, clear, Option.map_none, ne_eq,
    not_true_eq_false, if_true, if_false, Bool.false_eq_true, reads, untimed, State.perform, sound]

/-- What an lda reads of the machine is the same in both states. -/
structure SameVersions (s u : State) : Prop where
  mem : u.mem = s.mem
  cores : u.cores = s.cores
  teams : u.teams = s.teams
  lineStamp : u.lineStamp = s.lineStamp
  versions : u.versions = s.versions
  poison : u.poison = s.poison
  watermark : ∀ d dom part, (u.die d).wOf dom part = (s.die d).wOf dom part

theorem SameVersions.refl (s : State) : SameVersions s s := ⟨rfl, rfl, rfl, rfl, rfl, rfl, fun _ _ _ => rfl⟩

/-- A reading of a clock moves E and L of its die, and nothing else of any die. -/
theorem State.readClock_die (s : State) (d k : Nat) : ∃ e l, (s.readClock d).1.die k = { s.die k with e := e, l := l } := by
  unfold State.readClock State.die State.setDie
  dsimp only
  by_cases h : k = d
  · subst h
    by_cases hk : k < s.dies.length
    · exact ⟨_, _, nth_set_same _ _ _ _ hk⟩
    · exact ⟨_, _, by rw [setNth, List.set_eq_of_length_le (Nat.le_of_not_lt hk)]⟩
  · exact ⟨_, _, nth_set_ne _ _ _ h⟩

theorem sameVersions_intervalOk (s : State) (d : Nat) (dom : StampDom) : SameVersions s (s.intervalOk d dom).1 := by
  have clock : (s.intervalOk d dom).1 = (s.readClock d).1 := by cases dom <;> rfl
  rw [clock]
  refine ⟨rfl, rfl, rfl, rfl, rfl, rfl, fun k dom part => ?_⟩
  obtain ⟨e, l, die⟩ := s.readClock_die d k
  rw [die]
  cases dom <;> rfl

/-- An lda checks the interval once, before it waits (R263). -/
theorem State.accessLane_lda {wide : Bool} (h : StampedReaches s w .read q (AccKind.lda wide).size s1 x)
    (passes : s1.hasWaited w = true ∨ (s1.intervalOk (dieOfCore w.core) (s1.stampDom w.part x.domain)).2.1 = true) (d aux : Nat) :
    ∃ s2, SameVersions s1 s2 ∧
      s.accessLane w { kind := .lda wide, dest := d, aux := aux } q = s2.performLda w x (s1.stampDom w.part x.domain) q (AccKind.lda wide).size := by
  obtain ⟨aligned, ⟨s0, mapped, rfl⟩, here, stamped, home, clear⟩ := h
  generalize seen : s0.seePage w.part none q.addr.toNat x.pa true = s1 at *
  by_cases waited : s1.hasWaited w = true
  · refine ⟨s1, .refl s1, ?_⟩
    simp only [State.accessLane, AccKind.mode, aligned, mapped, kindMismatch, here, stamped, seen, home, clear, Option.map_none, ne_eq,
      not_true_eq_false, if_true, if_false, Bool.false_eq_true, waited]
  · have passes' := passes.resolve_left waited
    have same := sameVersions_intervalOk s1 (dieOfCore w.core) (s1.stampDom w.part x.domain)
    generalize clock : s1.intervalOk (dieOfCore w.core) (s1.stampDom w.part x.domain) = r at passes' same
    obtain ⟨s2, ok, lu⟩ := r
    obtain rfl : ok = true := passes'
    refine ⟨s2, same, ?_⟩
    simp only [State.accessLane, AccKind.mode, aligned, mapped, kindMismatch, here, stamped, seen, home, clear, Option.map_none, ne_eq,
      not_true_eq_false, if_true, if_false, Bool.false_eq_true, waited, clock]

end Stamped

/-! ## The answer of lda (R263) -/

section Answer
variable {s : State} {w : Who} {x : Xlat} (here : x.remote = none) {dom : StampDom} {q : LaneAcc} {n : Nat}
include here

theorem State.performLda_waits (below : (s.die (homeDie x.pa)).wOf dom w.part < leNat (q.data.take 8)) :
    s.performLda w x dom q n = (s, .wait (.lda dom (BitVec.ofNat 64 (leNat (q.data.take 8))))) := by
  simp only [State.performLda, State.homeW, here, Option.map_none, below, if_true]

theorem State.performLda_answers (reached : leNat (q.data.take 8) ≤ (s.die (homeDie x.pa)).wOf dom w.part) {v : Option Version}
    (found : s.versionAt (lineOf x.pa) (leNat (q.data.take 8)) = v) (sound : ∀ y ∈ v, s.versionBad y x.pa n = false) :
    s.performLda w x dom q n = (s, ldaAnswer v x.pa n (s.hasWaited w)) := by
  simp only [State.performLda, State.homeW, here, Option.map_none, Nat.not_lt.mpr reached, if_true, if_false, found]
  cases v with
  | none => rfl
  | some y => simp only [sound y rfl, Bool.false_eq_true, if_false]

end Answer

section Versions
variable {s : State} {line stamp : Nat}

theorem State.versionAt_latest (old : (FMap.get s.lineStamp line).getD 0 ≤ stamp) :
    s.versionAt line stamp = some ⟨(FMap.get s.lineStamp line).getD 0, .package, s.mem.readN (128 * line) 128, false⟩ := if_pos old

theorem State.versionAt_retained (young : stamp < (FMap.get s.lineStamp line).getD 0) :
    s.versionAt line stamp = ((FMap.get s.versions line).getD []).find? fun v => decide (v.stamp ≤ stamp) := if_neg (Nat.not_le.mpr young)

/-- Of versions that stand latest first, the first one at or below a stamp is the greatest. -/
theorem find_greatest {vs : List Version} {v : Version} (mem : v ∈ vs) (low : v.stamp ≤ stamp) (sorted : vs.Pairwise fun a b => b.stamp < a.stamp)
    (greatest : ∀ y ∈ vs, y.stamp ≤ stamp → y.stamp ≤ v.stamp) : vs.find? (fun v => decide (v.stamp ≤ stamp)) = some v := by
  induction vs with
  | nil => cases mem
  | cons y rest ih =>
    obtain ⟨first, sorted⟩ := List.pairwise_cons.mp sorted
    by_cases here : y.stamp ≤ stamp
    · rw [List.find?_cons_of_pos (by simpa using here)]
      rcases List.mem_cons.mp mem with rfl | later
      · rfl
      · exact absurd (greatest y (List.mem_cons_self ..) here) (Nat.not_le.mpr (first v later))
    · have later : v ∈ rest := (List.mem_cons.mp mem).resolve_left fun e => here (e ▸ low)
      rw [List.find?_cons_of_neg (by simpa using here)]
      exact ih later sorted fun z hz => greatest z (List.mem_cons_of_mem _ hz)

theorem find_none {vs : List Version} (high : ∀ v ∈ vs, stamp < v.stamp) : vs.find? (fun v => decide (v.stamp ≤ stamp)) = none :=
  List.find?_eq_none.mpr fun v hv => by simpa using high v hv

end Versions

section Same
variable {s u : State} (h : SameVersions s u)
include h

theorem SameVersions.hasWaited (w : Who) : u.hasWaited w = s.hasWaited w := by
  unfold State.hasWaited State.whoThreads State.threadAt
  rw [h.teams]

theorem SameVersions.versionAt (line stamp : Nat) : u.versionAt line stamp = s.versionAt line stamp := by
  unfold State.versionAt
  rw [h.lineStamp, h.versions, h.mem]

theorem SameVersions.versionBad (v : Version) (pa n : Nat) : u.versionBad v pa n = s.versionBad v pa n := by
  unfold State.versionBad State.poisoned
  rw [h.lineStamp, h.poison]

end Same

/-- A retained version is bad by its own bytes alone: the poison of memory is the latest version's. -/
theorem State.versionBad_retained {s : State} {v : Version} {pa : Nat} (young : v.stamp < (FMap.get s.lineStamp (lineOf pa)).getD 0) (good : v.bad = false) (n : Nat) :
    s.versionBad v pa n = false := by
  rw [State.versionBad, good, beq_false_of_ne (Nat.ne_of_lt young), Bool.false_and, Bool.or_false]

section Lda
variable {s s1 : State} {w : Who} {q : LaneAcc} {x : Xlat} {wide : Bool} (h : StampedReaches s w .read q (AccKind.lda wide).size s1 x)
  (passes : s1.hasWaited w = true ∨ (s1.intervalOk (dieOfCore w.core) (s1.stampDom w.part x.domain)).2.1 = true) (d aux : Nat)
include h passes

/-- An lda that passes its checks waits while the watermark is below its stamp. -/
theorem State.accessLane_lda_waits (below : (s1.die (homeDie x.pa)).wOf (s1.stampDom w.part x.domain) w.part < leNat (q.data.take 8)) :
    ∃ s', s.accessLane w { kind := .lda wide, dest := d, aux := aux } q =
        (s', .wait (.lda (s1.stampDom w.part x.domain) (BitVec.ofNat 64 (leNat (q.data.take 8))))) ∧
      s'.mem = s1.mem ∧ s'.cores = s1.cores ∧ s'.teams = s1.teams := by
  obtain ⟨s2, same, run⟩ := State.accessLane_lda h passes d aux
  exact ⟨s2, run.trans (State.performLda_waits h.here (by rw [same.watermark]; exact below)), same.mem, same.cores, same.teams⟩

/-- Else it answers with the version it finds. -/
theorem State.accessLane_lda_answers (reached : leNat (q.data.take 8) ≤ (s1.die (homeDie x.pa)).wOf (s1.stampDom w.part x.domain) w.part) {v : Option Version}
    (found : s1.versionAt (lineOf x.pa) (leNat (q.data.take 8)) = v) (sound : ∀ y ∈ v, s1.versionBad y x.pa (AccKind.lda wide).size = false) :
    ∃ s', s.accessLane w { kind := .lda wide, dest := d, aux := aux } q = (s', ldaAnswer v x.pa (AccKind.lda wide).size (s1.hasWaited w)) ∧
      s'.mem = s1.mem ∧ s'.cores = s1.cores ∧ s'.teams = s1.teams := by
  obtain ⟨s2, same, run⟩ := State.accessLane_lda h passes d aux
  have answers := State.performLda_answers (dom := s1.stampDom w.part x.domain) h.here (by rw [same.watermark]; exact reached) ((same.versionAt _ _).trans found)
    fun y hy => (same.versionBad _ _ _).trans (sound y hy)
  rw [same.hasWaited] at answers
  exact ⟨s2, run.trans answers, same.mem, same.cores, same.teams⟩

end Lda

/-- A range of a line, from the bytes of the line. -/
theorem Bytes.readN_of_line (m : Bytes) {pa n : Nat} (within : pa % 128 + n ≤ 128) :
    ((m.readN (128 * lineOf pa) 128).drop (pa % 128)).take n = m.readN pa n := by
  unfold Bytes.readN
  refine List.ext_getElem ?_ fun i _ _ => ?_
  · simp only [List.length_take, List.length_drop, List.length_map, List.length_range]
    omega
  · have place : 128 * lineOf pa + (pa % 128 + i) = pa + i := by unfold lineOf; omega
    simp only [List.getElem_take, List.getElem_drop, List.getElem_map, List.getElem_range, place]

/-- Settles O29: sts and loads by one lemma each, lda by what it finds at the line's home. -/
theorem stampedStores : Obligations.StampedStores := by
  unfold Obligations.StampedStores
  refine ⟨?sts, ?loads, ?lda⟩
  case sts =>
    intro s w q n d aux s0 s2 x ok lu s1 aligned mapped here stamped home clear clock dn st store
    rw [State.accessLane_sts ⟨aligned, ⟨s0, mapped, rfl⟩, here, stamped, home, clear⟩ clock]
    have issued : s2.performSts w x (s1.stampDom w.part x.domain) lu q n = (((({ s2.setDie dn { s2.die dn with last := st } with
        stores := s2.stores ++ [store], nextStore := s2.nextStore + 1 } : State).due (.stampedStoreHeldPending s2.nextStore)).onWho w
          fun t => { t with stamps := t.stamps ++ [s2.nextStore] }), .done (wordsOf (leBytes 8 st))) := by
      simp only [State.performSts, here, Option.map_none]
      rfl
    rw [issued]
  case loads =>
    intro s w q n d signed u sc s0 x s1 aligned mapped here stamped home clear sound
    have reaches : StampedReaches s w .read q n s1 x := ⟨aligned, ⟨s0, mapped, rfl⟩, here, stamped, home, clear⟩
    exact ⟨State.accessLane_loadStamped reaches sound (od := .relaxed) rfl d signed u .th, State.accessLane_loadStamped reaches sound (od := .acq) rfl d signed u sc⟩
  case lda =>
    intro s w q wide d aux s0 x s1 n line stamp dom waited latest vs gives aligned mapped here stamped home clear within passes
    have reaches : StampedReaches s w .read q (AccKind.lda wide).size s1 x := ⟨aligned, ⟨s0, mapped, rfl⟩, here, stamped, home, clear⟩
    have answer {v : Option Version} {b : List Byte} {status : Nat} (reached : stamp ≤ (s1.die (homeDie x.pa)).wOf dom w.part)
        (found : s1.versionAt line stamp = v) (sound : ∀ y ∈ v, s1.versionBad y x.pa n = false)
        (told : ldaAnswer v x.pa n waited = .done (wordsOf b ++ [BitVec.ofNat 32 status])) : gives b status := by
      obtain ⟨s', run, same⟩ := State.accessLane_lda_answers reaches passes d aux reached found sound
      exact ⟨s', run.trans (congrArg (Prod.mk s') told), same⟩
    refine ⟨State.accessLane_lda_waits reaches passes d aux, fun reached =>
      ⟨fun old sound => ?_, fun v mem young low good sorted greatest => ?_, fun young high => ?_⟩⟩
    · refine answer reached (State.versionAt_latest old) (fun y hy => ?_) ?_
      · cases hy
        exact (Bool.and_eq_false_iff.mpr (.inr sound) :)
      · rw [ldaAnswer, Bytes.readN_of_line _ within]
        cases waited <;> rfl
    · refine answer reached ((State.versionAt_retained young).trans (find_greatest mem low sorted greatest)) (fun y hy => ?_) ?_
      · cases hy
        exact State.versionBad_retained (Nat.lt_of_le_of_lt low young) good n
      · cases waited <;> rfl
    · exact answer reached ((State.versionAt_retained young).trans (find_none high)) (fun _ hy => nomatch hy) rfl

end Sys2Proof.Machine
end

section
/-! SUPPORT. Barriers, fences and commitw (R247, R289 to R292). -/
namespace Sys2Proof.Machine

theorem pairOk_of_wfAB {ta tb : Ty} {a b : Src} (h : wfAB ta tb a b = true) : ∀ o ∈ [((ta, a) : Operand), (tb, b)], o.2.pairOk o.1 = true := by
  obtain ⟨hab, -⟩ := Bool.and_eq_true_iff.mp h
  obtain ⟨ha, hb⟩ := Bool.and_eq_true_iff.mp hab
  intro o ho
  rcases List.mem_pair.mp ho with rfl | rfl
  · exact pairOk_of_ok ha
  · exact pairOk_of_ok hb

theorem lo32_zx64 (v : W32) : lo32 (zx64 v) = v := by
  simp [lo32, zx64]

/-! ## What a release finds of its own threads (R247, R252, R262) -/

theorem Calm.remote {s u : State} (h : Calm s u) {k c l : Nat} {th th' : Thread} (hs : s.threadAt k c l = some th)
    (hu : u.threadAt k c l = some th') : th'.remote = th.remote := by
  obtain ⟨m, e⟩ := h.threads k c l th hs
  rw [hu] at e
  cases e
  rfl

section Release
variable {s u : State} {t : Team} {c : Nat} (h : OneCourse s t c) (calm : Calm s u) {sc : Scope} {w : Who}
  (team : w.team = s.issue.team) (course : w.course = c) (lanes : ∀ l ∈ w.lanes, l ∈ lanesIn s.issue.parts c)
include h calm team course lanes

/-- The threads of an access that has changed no thread but for its monitor. -/
theorem OneCourse.whoThreads {th' : Thread} (mem : th' ∈ u.whoThreads w) :
    ∃ l ∈ lanesIn s.issue.parts c, th'.stamps = ((t.course c).thread l).stamps ∧ th'.remote = ((t.course c).thread l).remote := by
  obtain ⟨l, hl, after⟩ := List.mem_filterMap.mp mem
  rw [team, course] at after
  have before := h.threadAt (lanes l hl)
  exact ⟨l, lanes l hl, calm.stamps before after, calm.remote before after⟩

/-- A release of settled threads waits for nothing. -/
theorem OneCourse.releaseStop_settled (settled : 4 ≤ Scope.rank sc → s.settled t c (sc == .dm) = true) (a : W64) :
    u.releaseStop w sc a = none := by
  have stamps (wide : 4 ≤ Scope.rank sc) : u.openStamps w = [] := List.flatMap_eq_nil_iff.mpr fun th' mem => by
    obtain ⟨l, hl, same, -⟩ := h.whoThreads calm team course lanes mem
    have done := List.all_eq_true.mp (settled wide) l hl
    rw [same]
    exact List.isEmpty_iff.mp (Bool.and_eq_true_iff.mp done).1
  have remote (dm : sc = .dm) : ∀ th' ∈ u.whoThreads w, th'.remote = [] := fun th' mem => by
    subst dm
    obtain ⟨l, hl, -, same⟩ := h.whoThreads calm team course lanes mem
    have done := List.all_eq_true.mp (settled (by decide)) l hl
    rw [same]
    exact List.isEmpty_iff.mp (Bool.and_eq_true_iff.mp done).2
  unfold State.releaseStop
  cases sc
  case dm =>
    have owed : (u.whoThreads w).flatMap (fun th => th.remote) = [] := List.flatMap_eq_nil_iff.mpr (remote rfl)
    have lost : ((u.whoThreads w).any fun th => !th.resumed && th.remote.any fun o => u.lostPeer o.2) = false :=
      List.any_eq_false.mpr fun th' mem => by rw [remote rfl th' mem, List.any_nil, Bool.and_false]; decide
    rw [owed, lost, stamps (by decide)]
    rfl
  case di | dv =>
    rw [stamps (by decide)]
    rfl
  case th | co | te | cl => rfl

end Release

/-! ## Barriers (R291, R292) -/

/-- R291. -/
theorem barArrive_serves (d : Fin 64) (a b : Src) : UniServes (.barArrive d a b) [(.b32, a), (.b32, b)] [d.val] true fun s t _ v =>
    let k := (v.headD 0).toNat % 16
    let bar := nth t.barriers k {}
    let e := if bar.arrived = 0 then max 1 (min (fld (v.headD 0).toNat 16 11) 1024) else bar.exp
    let n := bar.arrived + (lo32 (v.getD 1 0)).toNat
    let bar' : Barrier := if e ≤ n then ⟨bar.phase + 1, 0, e⟩ else ⟨bar.phase, n, e⟩
    some (s.onTeam fun t => { t with barriers := setNth t.barriers k bar' }, fun _ => bar.phase, id) := by
  refine uniServes_of (arrive := false) pairOk_of_wfAB (fun s => (rfl : execBarArrive d a b s = _)) fun wf s t c v s1 val upd one hv => ?_
  cases hv
  refine ⟨_, ?_, one.writes_word d (lo32_zx64 _), kin_modify _ _ _ fun t => .of_eq rfl⟩
  rw [toNat_lo32]
  rfl

/-- R292. -/
theorem barWait_serves (a b : Src) : UniServes (.barWait a b) [(.b32, a), (.b32, b)] [] true fun s t _ v =>
    let past := ((nth t.barriers ((v.headD 0).toNat % 16) {}).phase - lo32 (v.getD 1 0)).toNat
    if 1 ≤ past ∧ past ≤ 2 ^ 31 then some (s, fun _ => 0, id) else none := by
  refine uniServes_of (arrive := false) pairOk_of_wfAB (fun s => (rfl : execBarWait a b s = _)) fun wf s t c v s1 val upd one hv => ?_
  dsimp only at hv
  split at hv
  next past =>
    cases hv
    have passed : (nth t.barriers ((v.headD 0).toNat % 16) {}).passed (lo32 (v.getD 1 0)) = true := by
      simp only [Barrier.passed, past, decide_true, Bool.and_self]
    exact ⟨id, if_pos passed, writes_none _ _ _, .refl s⟩
  next => cases hv

/-! ## Fences (R289) -/

/-- Settled threads do not wait at a fence. -/
theorem OneCourse.fenceWaits_settled {s u : State} {t : Team} {c : Nat} (h : OneCourse s t c) (calm : Calm s u) (issue : u.issue = s.issue) {sc : Scope}
    (settled : 4 ≤ Scope.rank sc → s.settled t c (sc == .dm) = true) : fenceWaits u t c sc (courseIn s t 2 c) = {} := by
  have stop (l : Nat) (hl : l ∈ (courseIn s t 2 c).parts) : u.releaseStop (u.whoOf u.issue.team t c [l]) sc u.issue.addr = none :=
    h.releaseStop_settled (w := u.whoOf u.issue.team t c [l]) calm (congrArg Issue.team issue) rfl (fun m hm => List.mem_singleton.mp hm ▸ hl) settled _
  have waits : (fenceWaits u t c sc (courseIn s t 2 c)).waits = [] := List.filterMap_eq_nil_iff.mpr fun l hl => by dsimp only; rw [stop l hl]
  have reqs : (fenceWaits u t c sc (courseIn s t 2 c)).reqs = [] := List.filterMap_eq_nil_iff.mpr fun l hl => by dsimp only; rw [stop l hl]
  exact (congrArg₂ (fun r w => ({ reqs := r, waits := w } : SyncOut)) reqs waits :)

/-- What a fence does for its course. -/
def State.fencePart (sc : Scope) (o : FenceOrd) (s : State) (t : Team) (c : Nat) (i : CourseIn) (_ : List W64) : State × SyncOut :=
  let s := if o != .acq && 3 ≤ Scope.rank sc then s.released t else s
  let out := if o != .acq then fenceWaits s t c sc i else {}
  let going := decide (out.waits.length + out.reqs.length < i.parts.length)
  let s := if going && o == .sc then s.ticket else s
  (if going && o != .rel then s.acquireActs (s.whoOf s.issue.team t c i.parts) sc else s, out)

theorem exec_fence (sc : Scope) (o : FenceOrd) (s : State) : exec (.fence sc o) s = s.uniSync [] true false (State.fencePart sc o) := by
  change execFence sc o s = _
  unfold execFence
  refine congrArg (s.uniSync [] true false) (funext fun s => funext fun t => funext fun c => funext fun i => funext fun v => ?_)
  cases o <;> rfl

theorem State.acquireActs_whoOf (s : State) (k : Nat) (t : Team) (c : Nat) (ls : List Nat) (sc : Scope) :
    s.acquireActs (s.whoOf k t c ls) sc = if 3 ≤ Scope.rank sc then s.acquired t else s := rfl

/-- R289. -/
theorem fence_serves (sc : Scope) (o : FenceOrd) : UniServes (.fence sc o) [] [] true fun s t c _ =>
    let rel := o != .acq
    let acq := o != .rel
    let s1 := if rel && 3 ≤ Scope.rank sc then s.released t else s
    let s2 := if o == .sc then s1.ticket else s1
    if rel && 4 ≤ Scope.rank sc && !s.settled t c (sc == .dm) then none
    else some (if acq && 3 ≤ Scope.rank sc then s2.acquired t else s2, fun _ => 0, id) := by
  refine uniServes_of (fun _ => pairOk_none) (exec_fence sc o) fun wf s t c v s1 val upd one hv => ?_
  dsimp only at hv
  split at hv
  next => cases hv
  next ready =>
    cases hv
    generalize back : (if (o != .acq && decide (3 ≤ Scope.rank sc)) = true then s.released t else s) = u
    have calm : Calm s u := back ▸ apply_ite_prop (calm_writeBackAll s t.core) (.refl s)
    have kin : Kin s u := back ▸ apply_ite_prop (kin_writeBackAll s t.core) (.refl s)
    have out : (if (o != .acq) = true then fenceWaits u t c sc (courseIn s t 2 c) else {}) = {} := by
      split
      next rel =>
        refine one.fenceWaits_settled calm kin.issue fun wide => ?_
        simpa [rel, wide] using ready
      next => rfl
    have going : decide (0 < (courseIn s t 2 c).parts.length) = true := decide_eq_true (List.length_pos_iff.mpr one.acts)
    refine ⟨id, ?_, writes_none _ _ _, kin.trans ?_⟩
    · unfold State.fencePart
      rw [back]
      dsimp only
      rw [out]
      simp only [List.length_nil, Nat.add_zero, going, Bool.true_and, State.acquireActs_whoOf, Bool.and_eq_true, decide_eq_true_eq, ite_and]
    · exact apply_ite_prop ((apply_ite_prop (kin_ticket u) (.refl u)).trans (kin_invalidateClean _ _)) (apply_ite_prop (kin_ticket u) (.refl u))

/-! ## commitw (R290) -/

/-- A thread has a stamped store that is not reported visible. -/
def State.commitsLater (s : State) (c l : Nat) : Bool :=
  match s.threadAt s.issue.team c l with
  | some t => !t.stamps.isEmpty
  | none => false

theorem exec_commitw (s : State) : exec .commitw s = s.uniSync [] true false fun s _ c i _ =>
    (s, { waits := (i.parts.filter (s.commitsLater c)).map fun l => (c, l, .commit) }) := (rfl : execCommitw s = _)

theorem commitw_serves : UniServes .commitw [] [] true fun s t c _ =>
    if (lanesIn s.issue.parts c).all fun l => ((t.course c).thread l).stamps.isEmpty then some (s, fun _ => 0, id) else none := by
  refine uniServes_of (fun _ => pairOk_none) exec_commitw fun wf s t c v s1 val upd one hv => ?_
  split at hv
  next visible =>
    cases hv
    have none : (courseIn s t 2 c).parts.filter (s.commitsLater c) = [] := List.filter_eq_nil_iff.mpr fun l hl => by
      rw [State.commitsLater, one.threadAt hl]
      simpa using List.all_eq_true.mp visible l hl
    exact ⟨id, by rw [none]; rfl, writes_none _ _ _, .refl s⟩
  next => cases hv

/-- Settles O18: each unit by what it does to its team, the caches and the keystone. -/
theorem synchronisationUnits : Obligations.SynchronisationUnits := by
  unfold Obligations.SynchronisationUnits
  exact fun d a b => ⟨barArrive_serves d a b, barWait_serves a b, fence_serves, commitw_serves⟩

end Sys2Proof.Machine
end

section
/-! SUPPORT. Slot rings, timelines and holds (R265, R304 to R307). -/
namespace Sys2Proof.Machine

/-! ## Units that write several values -/

theorem Course.Ok.onThreads {x : Course} (h : x.Ok) (ls : List Nat) (f : Nat → Thread → Thread) : (x.onThreads ls f).Ok :=
  ⟨h.names, h.dead, h.opf, h.latches, h.links, h.opfLinks⟩

/-- A write after another one. -/
theorem Writes.after {w1 w2 : Course → Course} {x : Course} {parts r1 r2 : List Nat} {v1 v2 val : Nat → W32} {upd : Thread → Thread}
    (h1 : Writes w1 x parts r1 v1 upd) (h2 : Writes w2 x parts r2 v2 id) (lanes : ∀ l ∈ parts, l ∈ x.live)
    (first : ∀ n ∈ r1, n ∉ r2 → val n = v1 n) (second : ∀ n ∈ r2, val n = v2 n) : Writes (fun y => w2 (w1 y)) x parts (r1 ++ r2) val upd := by
  refine ⟨fun srcs ls z ok live hs => ?_⟩
  obtain ⟨written1, row1⟩ := h1.wrote srcs ls z ok live hs
  have live1 : (w1 (z.markSources srcs ls)).live = x.live := by
    rw [written1.threads.live, (markSources_ok (ok.onThreads _ _) hs ls).2, Course.onThreads_live, live]
  obtain ⟨written2, row2⟩ := h2.wrote [] [] (w1 (z.markSources srcs ls)) written1.ok live1 nofun
  have same : (w1 (z.markSources srcs ls)).onThreads parts (fun _ => id) = w1 (z.markSources srcs ls) := onThreads_id _ _
  rw [same] at written2
  refine ⟨written1.trans written2, fun n hn l hl => ?_⟩
  by_cases later : n ∈ r2
  · exact (row2 n later l hl).trans (second n later).symm
  · have here : n ∈ r1 := (List.mem_append.mp hn).resolve_right later
    calc regRow (w2 (w1 (z.markSources srcs ls))) n l
      _ = regRow (w1 (z.markSources srcs ls)) n l := written2.reg n l (live1 ▸ lanes l hl) fun e => later e.1
      _ = v1 n := row1 n here l hl
      _ = val n := (first n here later).symm

/-- A value of a write matters at the names written alone. -/
theorem Writes.congr {w : Course → Course} {x : Course} {parts regs : List Nat} {v val : Nat → W32} {upd : Thread → Thread}
    (h : Writes w x parts regs v upd) (e : ∀ n ∈ regs, v n = val n) : Writes w x parts regs val upd := by
  refine ⟨fun srcs ls z ok live hs => ?_⟩
  obtain ⟨written, row⟩ := h.wrote srcs ls z ok live hs
  exact ⟨written, fun n hn l hl => (row n hn l hl).trans (e n hn)⟩

section Writes
variable {s : State} {t : Team} {c : Nat} (h : OneCourse s t c)
include h

/-- A unit that writes one word to the name of a number. -/
theorem OneCourse.writes_wordAt {k : Nat} (name : k < 64) (w : W32) :
    Writes (fun y => y.writeUniform (courseIn s t 2 c) false (.reg (Fin.ofNat 64 k)) (zx64 w)) (t.course c) (lanesIn s.issue.parts c) [k] (fun _ => w) id := by
  have number : (Fin.ofNat 64 k).val = k := Nat.mod_eq_of_lt name
  have writes := h.writes_word (Fin.ofNat 64 k) (lo32_zx64 w)
  rwa [number] at writes

/-- A unit that writes `n` words from the name `d` on. -/
theorem OneCourse.writes_words {d n : Nat} (names : d + n ≤ 64) (w : Nat → W32) :
    Writes (fun y => (List.range n).foldl (fun y k => y.writeUniform (courseIn s t 2 c) false (.reg (Fin.ofNat 64 (d + k))) (zx64 (w k))) y) (t.course c)
      (lanesIn s.issue.parts c) ((List.range n).map (d + ·)) (fun m => w (m - d)) id := by
  induction n with
  | zero => exact writes_none _ _ _
  | succ n ih =>
    have last := h.writes_wordAt (k := d + n) (by omega) (w n)
    simp only [List.range_succ, List.foldl_append, List.foldl_cons, List.foldl_nil, List.map_append, List.map_cons, List.map_nil]
    refine (ih (by omega)).after last (fun l hl => h.part_live hl) (fun _ _ _ => rfl) fun m hm => ?_
    rw [List.mem_singleton.mp hm, Nat.add_sub_cancel_left]

end Writes

/-! ## Rings (R305, R306) -/

theorem kin_setRing (s : State) (tk k : Nat) (r : Ring) :
    Kin s { s with teams := FMap.modify s.teams tk fun t => { t with rings := setNth t.rings k r } } := kin_modify s tk _ fun _ => .of_eq rfl

theorem kin_setSlot (s : State) (tk k i : Nat) (x : Slot) (f : Ring → Ring) : Kin s (s.setSlot tk k i x f) := by
  unfold State.setSlot
  split
  · exact .refl s
  · exact (kin_setRing s tk k _).trans (kin_levelWrite _ _ _ _ _ _)

/-- R305. -/
theorem ringInit_serves (a b : Src) : UniServes (.ringInit a b) [(.b32, a), (.b32, b)] [] false fun s t _ v =>
    let new : Ring := { wordA := lo32 (v.headD 0), wordB := lo32 (v.getD 1 0) }
    let k := (lo32 (v.headD 0)).toNat / 2 ^ 28 % 8
    let n := (lo32 (v.getD 1 0)).toNat % 256
    let o := new.offset
    let z := new.slotBytes
    if (t.ring k).filling = true ∨ o % 128 ≠ 0 ∨ n = 0 ∨ z % 16 ≠ 0 ∨ z = 0 ∨ s.levelRange t new.level < o + n * z + 8 * n then none
    else some ((s.onTeam fun t => { t with rings := setNth t.rings k { new with slots := List.replicate n {}, queue := (t.ring k).queue } }).levelWrite t
      s.issue.team new.level (o + n * z) (List.replicate (8 * n) 0), fun _ => 0, id) := by
  refine uniServes_of (arrive := false) pairOk_of_wfAB (fun s => (rfl : execRingInit a b s = _)) fun wf s t c v s1 val upd one hv => ?_
  dsimp only at hv
  split at hv
  next => cases hv
  next good =>
    cases hv
    simp only [not_or] at good
    obtain ⟨idle, aligned, some, whole, large, room⟩ := good
    refine ⟨id, ?_, writes_none _ _ _, Kin.trans ?_ (kin_levelWrite _ _ _ _ _ _)⟩
    · have key : fld (lo32 (v.headD 0)).toNat 28 3 = (lo32 (v.headD 0)).toNat / 2 ^ 28 % 8 := rfl
      dsimp only
      rw [key, if_neg idle, if_neg]
      · rfl
      · simp only [aligned, some, whole, large, room, decide_false, Bool.or_self, Bool.false_eq_true, not_false_eq_true]
    · exact kin_modify s s.issue.team _ fun _ => .of_eq rfl

/-- R306. -/
theorem ringTake_serves (d : Fin 64) (a : Src) : UniServes (.ringTake d a) [(.b32, a)] [d.val, d.val + 1] false fun s t c v =>
    let k := (v.headD 0).toNat % 8
    let r := t.ring k
    let mine := isTaker c (lanesIn s.issue.parts c) s.issue.addr
    if r.ready = false then some (s, wordOf d.val (packed 32 0xFFFFFFFF 0), id)
    else if (nth r.slots r.take {}).state = 2 ∧ (∀ e, (t.takers k).head? = some e → mine e = true) then
      some ((s.setSlot s.issue.team k r.take { nth r.slots r.take {} with state := 3 } fun r =>
          { r with take := (r.take + 1) % r.slots.length, queue := (t.takers k).filter fun e => !mine e }).acquired t,
        wordOf d.val (packed 32 (r.offset + r.take * r.slotBytes) (nth r.slots r.take {}).target), id)
    else none := by
  refine uniServes_of (arrive := false) (fun wf => pairOk_single (ok_of_wfDA (d := d) wf)) (fun s => (rfl : execRingTake d a s = _))
    fun wf s t c v s1 val upd one hv => ?_
  have even : (d.val % 2 == 0) = true := (Bool.and_eq_true_iff.mp wf).1
  dsimp only at hv
  split at hv
  next absent =>
    cases hv
    refine ⟨_, ?_, one.writes_pair even _, .refl s⟩
    simp only [absent, Bool.not_false, if_true]
  next ready =>
    split at hv
    next full =>
      obtain ⟨full, first⟩ := full
      cases hv
      refine ⟨_, ?_, one.writes_pair even _, (kin_setSlot _ _ _ _ _ _).trans (kin_invalidateClean _ _)⟩
      rcases takers : t.takers ((v.headD 0).toNat % 8) with _ | ⟨e, rest⟩
      · simp only [ready, full, takers]
        rfl
      · have mine := first e (by rw [takers]; rfl)
        simp only [ready, full, takers, courseIn, mine]
        rfl
    next => cases hv

/-- R306. -/
theorem ringGive_serves (a : Src) : UniServes (.ringGive a) [(.b32, a)] [] false fun s t _ v =>
    let k := (v.headD 0).toNat % 8
    let r := t.ring k
    if r.ready = true ∧ (nth r.slots r.give {}).state = 3 then
      some ((s.released t).setSlot s.issue.team k r.give {} fun r => { r with give := (r.give + 1) % r.slots.length }, fun _ => 0, id)
    else some (s, fun _ => 0, id) := by
  refine uniServes_of (arrive := false) (fun wf => pairOk_single (pairOk_of_ok wf)) (fun s => (rfl : execRingGive a s = _)) fun wf s t c v s1 val upd one hv => ?_
  dsimp only at hv
  split at hv
  next taken =>
    obtain ⟨ready, taken⟩ := taken
    cases hv
    refine ⟨id, ?_, writes_none _ _ _, (kin_writeBackAll s t.core).trans (kin_setSlot _ _ _ _ _ _)⟩
    simp only [ready, taken]
    rfl
  next untaken =>
    cases hv
    refine ⟨id, if_pos ?_, writes_none _ _ _, .refl s⟩
    simpa [imp_iff_not_or] using untaken

/-- R306. -/
theorem ringWait_serves (d : Fin 64) (a : Src) : UniServes (.ringWait d a) [(.b32, a)] [d.val] false fun s t _ v =>
    let r := t.ring ((v.headD 0).toNat % 8)
    if r.filling then none
    else some (s, fun _ => BitVec.ofNat 32 (r.slots.filter fun x => x.state == 2).length, id) := by
  refine uniServes_of (arrive := false) (fun wf => pairOk_single (ok_of_wfDA (d := d) wf)) (fun s => (rfl : execRingWait d a s = _))
    fun wf s t c v s1 val upd one hv => ?_
  dsimp only at hv
  split at hv
  next => cases hv
  next idle =>
    cases hv
    exact ⟨_, if_neg idle, one.writes_word d (lo32_nat64 _), .refl s⟩

/-! ## Timelines (R267, R307) -/

/-- R307. -/
theorem tlRead_serves (d : Fin 64) (a : Src) : UniServes (.tlRead d a) [(.b32, a)] [d.val, d.val + 1, d.val + 2] false fun s t _ v =>
    let k := (lo32 (v.headD 0)).toNat
    let x : Ctx := if k < 4 then s.ctx (sliceKey t.part t.slice) k else {}
    some (s, fun n => if n = d.val + 2 then BitVec.ofNat 32 (x.faulted.toNat + 2 * x.lost.toNat) else wordOf d.val (nat64 x.counter) n, id) := by
  refine uniServes_of (arrive := false) (fun wf => pairOk_single (pairOk_of_ok (Bool.and_eq_true_iff.mp wf).2)) (fun s => (rfl : execTlRead d a s = _))
    fun wf s t c v s1 val upd one hv => ?_
  cases hv
  obtain ⟨names, -⟩ := Bool.and_eq_true_iff.mp wf
  obtain ⟨even, room⟩ := Bool.and_eq_true_iff.mp names
  have room : d.val + 3 ≤ 64 := of_decide_eq_true room
  rw [toNat_lo32]
  refine ⟨_, rfl, ?_, .refl s⟩
  refine (one.writes_pair even _).after (one.writes_wordAt (by omega) _) (fun l hl => one.part_live hl) (fun n _ other => ?_) fun n here => ?_
  · exact if_neg fun e => other (List.mem_singleton.mpr e)
  · rw [if_pos (List.mem_singleton.mp here), Ctx.status, Nat.mul_comm]

/-- R267, R270, R307. -/
theorem tlWait_serves (a b : Src) : UniServes (.tlWait a b) [(.b32, a), (.b64, b)] [] false fun s t _ v =>
    let k := (lo32 (v.headD 0)).toNat
    let s1 := s.setCore t.core { s.core t.core with fcache := [] }
    if 4 ≤ k ∨ v.getD 1 0 = 0 then some (s1, fun _ => 0, id)
    else if (s.ctx (sliceKey t.part t.slice) k).counter < (v.getD 1 0).toNat then none
    else some (s1.acquired t, fun _ => 0, id) := by
  refine uniServes_of (arrive := false) pairOk_of_wfAB (fun s => (rfl : execTlWait a b s = _)) fun wf s t c v s1 val upd one hv => ?_
  dsimp only at hv
  rw [toNat_lo32] at hv
  split at hv
  next none =>
    cases hv
    refine ⟨id, ?_, writes_none _ _ _, kin_setCore _ _ _⟩
    by_cases far : 4 ≤ (v.headD 0).toNat % 2 ^ 32
    · exact if_pos far
    · have zero := none.resolve_left far
      have reached : ¬ (s.ctx (sliceKey t.part t.slice) ((v.headD 0).toNat % 2 ^ 32)).counter < (v.getD 1 0).toNat := by
        rw [zero]
        exact Nat.not_lt_zero _
      dsimp only
      rw [if_neg far, if_neg reached, if_pos zero]
  next some =>
    simp only [not_or] at some
    obtain ⟨known, target⟩ := some
    split at hv
    next => cases hv
    next reached =>
      cases hv
      refine ⟨id, ?_, writes_none _ _ _, (kin_setCore _ _ _).trans (kin_invalidateClean _ _)⟩
      simp only [if_neg known, if_neg reached, if_neg target]
      split <;> rfl

/-! ## Holds (R265, R312) -/

theorem kin_dieWatermark (s : State) (d : Nat) (dom : StampDom) : Kin s (s.dieWatermark d dom).1 := by
  unfold State.dieWatermark
  split
  · exact kin_readClock s d
  · exact .refl s

theorem kin_ownWatermark (s : State) (dom : StampDom) : Kin s (s.ownWatermark dom).1 := by
  unfold State.ownWatermark
  dsimp only
  exact List.foldlRecOn (motive := fun acc : State × Option Nat => Kin s acc.1) _ _ (.refl s) fun acc kin d _ => kin.trans (kin_dieWatermark _ _ _)

theorem kin_watermark (s : State) (part : Nat) (dom : StampDom) : Kin s (s.watermark part dom).1 := by
  unfold State.watermark
  cases dom <;> exact kin_ownWatermark s _

/-- R265, R312. -/
theorem ckptHold_serves (d : Fin 64) (dm : Bool) : UniServes (.ckptHold d dm) [] [d.val, d.val + 1] false fun s t _ _ =>
    let q := s.part t.part
    let held := if dm then q.domHolds else q.holds
    if 16 ≤ held.length then some (s, fun _ => 0xFFFFFFFF, id)
    else
      let r := s.watermark t.part (s.stampDom t.part dm)
      some (r.1.setPart t.part (if dm then { q with domHolds := held ++ [r.2] } else { q with holds := held ++ [r.2] }), wordOf d.val (nat64 r.2), id) := by
  refine uniServes_of (arrive := false) (fun _ => pairOk_none) (fun s => (rfl : execCkptHold d dm s = _)) fun wf s t c v s1 val upd one hv => ?_
  dsimp only at hv
  by_cases full : 16 ≤ (if dm then (s.part t.part).domHolds else (s.part t.part).holds).length
  · rw [if_pos full] at hv
    cases hv
    refine ⟨_, if_pos full, (one.writes_pair wf _).congr fun n _ => ?_, .refl s⟩
    exact apply_ite_prop (p := fun w : W32 => w = 0xFFFFFFFF) rfl rfl
  · rw [if_neg full] at hv
    cases hv
    exact ⟨_, if_neg full, one.writes_pair wf _, (kin_watermark _ _ _).trans (kin_setPart _ _ _)⟩

/-- R312. -/
theorem ckptRelease_serves (a : Src) (dm : Bool) : UniServes (.ckptRelease a dm) [(.b64, a)] [] false fun s t _ v =>
    let q := s.part t.part
    some (s.setPart t.part (if dm then { q with domHolds := q.domHolds.erase (v.headD 0).toNat } else { q with holds := q.holds.erase (v.headD 0).toNat }),
      fun _ => 0, id) := by
  refine uniServes_of (arrive := false) (fun wf => pairOk_single (pairOk_of_ok wf)) (fun s => (rfl : execCkptRelease a dm s = _)) fun wf s t c v s1 val upd one hv => ?_
  cases hv
  exact ⟨id, rfl, writes_none _ _ _, kin_setPart _ _ _⟩

/-- Settles O31: each unit by what it does to the team's rings, the caches and the holds, and what it writes. -/
theorem ringsTimelinesAndHolds : Obligations.RingsTimelinesAndHolds := by
  unfold Obligations.RingsTimelinesAndHolds
  exact ⟨fun d a b => ⟨ringInit_serves a b, ringTake_serves d a, ringGive_serves a, ringWait_serves d a⟩,
    fun d a b => ⟨tlRead_serves d a, tlWait_serves a b, ckptHold_serves d, ckptRelease_serves a⟩⟩

end Sys2Proof.Machine
end

section
/-! SUPPORT. Engine commands as instructions issue them (R299 to R303, R307, R309). -/
namespace Sys2Proof.Machine

theorem pairOk_block {a n : Nat} {last : Bool} {b : Src} (h : b.ok .b32 = true) : ∀ o ∈ ((.b32, b) :: blockSrcs a n last : List Operand), o.2.pairOk o.1 = true := by
  intro o ho
  rcases List.mem_cons.mp ho with rfl | block
  · exact pairOk_of_ok h
  · obtain ⟨k, -, rfl⟩ := List.mem_map.mp block
    rfl

section Course
variable {s : State} {t : Team} {c : Nat} (h : OneCourse s t c)
include h

/-- A release at .dv or .dm of settled threads waits for nothing (R247, R252, R262). -/
theorem OneCourse.releaseActs_settled {sc : Scope} (wide : 3 ≤ Scope.rank sc) (settled : s.settled t c (sc == .dm) = true) (a : W64) :
    s.releaseActs (s.whoOf s.issue.team t c (lanesIn s.issue.parts c)) sc a = (s.released t, none) := by
  have stop := h.releaseStop_settled (w := s.whoOf s.issue.team t c (lanesIn s.issue.parts c)) (calm_writeBackAll s t.core) rfl rfl (fun _ hl => hl)
    (fun _ => settled) a
  have core : (s.whoOf s.issue.team t c (lanesIn s.issue.parts c)).core = t.core := rfl
  rw [State.releaseActs, if_pos wide, core, stop]

/-- A unit that gives zero in a pair of names. -/
theorem OneCourse.writes_zeros {d : Fin 64} (even : (d.val % 2 == 0) = true) :
    Writes (fun y => y.writeUniform (courseIn s t 2 c) true (.reg d) (nat64 0)) (t.course c) (lanesIn s.issue.parts c) [d.val, d.val + 1] (fun _ => 0) id :=
  (h.writes_pair even _).congr fun _ _ => apply_ite_prop (p := fun w : W32 => w = 0) rfl rfl

end Course

/-! ## bcopy (R299 to R301, R303) -/

/-- The command of a bcopy: its words are the count word and the block. -/
def bcopyCmd (tk : Nat) (t : Team) (v : List W64) : Option (Nat × CmdKind) :=
  let w := (v.headD 0).toNat % 2 ^ 32
  let name (k : Nat) : W32 := lo32 (v.getD (1 + k) 0)
  bcopyKind t tk t.core (w / 2 ^ 30) (w % 2 ^ 30) (pair64 (name 1) (name 0)) (pair64 (name 3) (name 2)) (pair64 (name 5) (name 4))

/-- What a bcopy does for its course. -/
def bcopyPart (d a : Fin 64) (s : State) (t : Team) (c : Nat) (i : CourseIn) (v : List W64) : State × SyncOut :=
  let key := sliceKey t.part t.slice
  if (v.headD 0).toNat % 2 ^ 32 / 2 ^ 30 = 3 ∧ 64 < a.val + 6 then
    (s, { reqs := i.parts.map fun l => { course := c, lane := l, code := .illegalEnc, detail := 2 } })
  else
    let give (n : Nat) : SyncOut := { write := fun y => y.writeUniform i true (.reg d) (nat64 n) }
    match bcopyCmd s.issue.team t v with
    | none => (s, give 0)
    | some (k, cmd) =>
      if s.ctxFull key k then (s, ctxWait i c k)
      else
        match s.releaseActs (s.whoOf s.issue.team t c i.parts) .dv s.issue.addr with
        | (s, some (.wait wt)) => (s, { waits := i.parts.map fun l => (c, l, wt) })
        | (s, _) => ((s.issueCmd key k cmd).1, give (s.issueCmd key k cmd).2)

/-- The names of the block that a bcopy reads (R300). -/
def State.bcopyNames (s : State) (t : Team) (c : Nat) (a : Fin 64) (b : Src) : Nat :=
  let i := courseIn s t 2 c
  if decide (((srcView i.rd .b32 b).val i.lead).toNat % 2 ^ 32 / 2 ^ 30 = 3) && decide (a.val + 6 ≤ 64) then 6 else 4

theorem exec_bcopy (d a : Fin 64) (last : Bool) (b : Src) (s : State) : exec (.bcopy d a last b) s =
    s.eachCourse fun s t c => s.uniSyncAt ((.b32, b) :: blockSrcs a.val (s.bcopyNames t c a b) last) false false (bcopyPart d a) t c :=
  (rfl : execBcopy d a last b s = _)

/-- What a bcopy comes to where it goes on. -/
def bcopyWork (d : Fin 64) : Work := fun s t c v =>
  match bcopyCmd s.issue.team t v with
  | none => some (s, fun _ => 0, id)
  | some (k, cmd) =>
    if s.ctxFull (sliceKey t.part t.slice) k = false ∧ s.settled t c false = true then
      let r := (s.released t).issueCmd (sliceKey t.part t.slice) k cmd
      some (r.1, wordOf d.val (nat64 r.2), id)
    else none

theorem OneCourse.bcopyPart_works {s s1 : State} {t : Team} {c : Nat} (h : OneCourse s t c) {d a : Fin 64} (even : (d.val % 2 == 0) = true) {v : List W64}
    (block : ¬ ((v.headD 0).toNat % 2 ^ 32 / 2 ^ 30 = 3 ∧ 64 < a.val + 6)) {val : Nat → W32} {upd : Thread → Thread}
    (works : bcopyWork d s t c v = some (s1, val, upd)) :
    ∃ w, bcopyPart d a s t c (courseIn s t 2 c) v = (s1, { write := w }) ∧
      Writes w (t.course c) (lanesIn s.issue.parts c) [d.val, d.val + 1] val upd ∧ Kin s s1 := by
  unfold bcopyWork at works
  unfold bcopyPart
  dsimp only
  rw [if_neg block]
  cases cmd : bcopyCmd s.issue.team t v with
  | none =>
    rw [cmd] at works
    cases works
    exact ⟨_, rfl, h.writes_zeros even, .refl s⟩
  | some command =>
    rw [cmd] at works
    dsimp only at works ⊢
    split at works
    next ready =>
      obtain ⟨room, settled⟩ := ready
      cases works
      have acts := h.releaseActs_settled (sc := .dv) (by decide) settled s.issue.addr
      refine ⟨_, ?_, h.writes_pair even _, (kin_writeBackAll s t.core).trans (kin_issueCmd _ _ _ _)⟩
      dsimp only [courseIn]
      rw [room, acts]
      rfl
    next => cases works

/-- A bcopy reads as many names as its kind says (R300). -/
theorem bcopy_serves (d a : Fin 64) (last : Bool) (b : Src) {n : Nat} {kind : Nat → Prop} {work : Work}
    (names : ∀ k, kind k → (if decide (k = 3) && decide (a.val + 6 ≤ 64) then 6 else 4) = n) (block : ∀ k, kind k → ¬ (k = 3 ∧ 64 < a.val + 6))
    (narrows : ∀ s t c v r, work s t c v = some r → kind ((v.headD 0).toNat % 2 ^ 32 / 2 ^ 30) ∧ bcopyWork d s t c v = some r) :
    UniServes (.bcopy d a last b) ((.b32, b) :: blockSrcs a.val n last) [d.val, d.val + 1] false work := by
  refine uniServes_at (arrive := false) (f := bcopyPart d a) (fun wf => pairOk_block (Bool.and_eq_true_iff.mp wf).2) (exec_bcopy d a last b)
    fun wf s t c s1 val upd one hv => ?_
  have even : (d.val % 2 == 0) = true := (Bool.and_eq_true_iff.mp (Bool.and_eq_true_iff.mp wf).1).1
  obtain ⟨is, works⟩ := narrows _ _ _ _ _ hv
  obtain ⟨w, part, writes, kin⟩ := one.bcopyPart_works even (block _ is) works
  refine ⟨w, part, writes, kin, ?_⟩
  have read : s.bcopyNames t c a b = n := names _ is
  rw [read]

/-! ## bcopy.st (R302) -/

theorem bcopySt_serves (d a : Fin 64) (last : Bool) (b : Src) :
    UniServes (.bcopySt d a last b) ((.b32, b) :: blockSrcs a.val 4 last) [d.val, d.val + 1, d.val + 2, d.val + 3] false fun s t c v =>
      let w := (lo32 (v.headD 0)).toNat
      let name := fun k => lo32 (v.getD (1 + k) 0)
      if w / 2 ^ 30 ≠ 0 ∨ 2 ^ 20 < w % 2 ^ 30 then some (s, fun _ => 0, id)
      else
        match s.accessLane (s.whoOf s.issue.team t c (lanesIn s.issue.parts c))
          { kind := .copySt, scope := .dv, order := .rel, dest := d.val, uniform := true }
          { lane := s.leader c, addr := pair64 (name 1) (name 0), data := bytesOfWords [name 2, name 3] ++ leBytes 4 w } with
        | (s1, .done x) => some (s1, fun n => nth x (n - d.val) 0, id)
        | _ => none := by
  refine uniServes_of (arrive := false) (fun wf => pairOk_block (Bool.and_eq_true_iff.mp wf).2) (fun s => (rfl : execBcopySt d a last b s = _))
    fun wf s t c v s1 val upd one hv => ?_
  have room : d.val + 4 ≤ 64 := by
    have aligned : (d.val % 4 == 0) = true := (Bool.and_eq_true_iff.mp (Bool.and_eq_true_iff.mp wf).1).1
    have := beq_iff_eq.mp aligned
    omega
  dsimp only at hv
  rw [toNat_lo32] at hv
  split at hv
  next refused =>
    cases hv
    refine ⟨_, if_pos refused, (one.writes_words room (nth [0, 0, 0, 0] · 0)).congr fun n _ => ?_, .refl s⟩
    match n - d.val with
    | 0 | 1 | 2 | 3 | _ + 4 => rfl
  next admitted =>
    split at hv
    next s2 x access =>
      cases hv
      have kin : Kin s s1 := cast (congrArg (fun r => Kin s (Prod.fst r)) access) (kin_accessLane s _ _ _)
      refine ⟨_, ?_, one.writes_words room (nth x · 0), kin⟩
      have parts : (courseIn s t 2 c).parts = lanesIn s.issue.parts c := rfl
      have lead : (courseIn s t 2 c).lead = s.leader c := rfl
      dsimp only
      rw [if_neg admitted, parts, lead, access]
    next => cases hv

/-! ## coll (R309, R310) -/

theorem kin_onCmd (s : State) (key k num : Nat) (f : Cmd → Cmd) : Kin s (s.onCmd key k num f) := .of_eq rfl rfl rfl

/-- R309. -/
theorem coll_serves (d : Fin 64) (a : Src) : UniServes (.coll d a) [(.addr, a)] [d.val, d.val + 1] false fun s t c v =>
    if (v.headD 0).toNat % 64 = 0 ∧ s.ctxFull (sliceKey t.part t.slice) 2 = false ∧ s.settled t c true = true then
      match (s.released t).tableRead t.part (!s.isPriv t) (v.headD 0).toNat 64 2 with
      | .error _ => none
      | .ok b =>
        if (s.released t).collOk t.part (collDesc b) then
          let u := s.released t
          let g := (collDesc b).group
          let n := (FMap.get (u.part t.part).ordinals g).getD 0
          let u := if g = 0xFF then u else u.setPart t.part { u.part t.part with ordinals := FMap.set (u.part t.part).ordinals g (n + 1) }
          let r := u.issueCmd (sliceKey t.part t.slice) 2 (.coll b)
          some (r.1.onCmd (sliceKey t.part t.slice) 2 r.2 fun q => { q with ordinal := n }, wordOf d.val (nat64 r.2), id)
        else some (s.released t, fun _ => 0, id)
    else none := by
  refine uniServes_of (arrive := false) (fun wf => pairOk_single (ok_of_wfDA (ty := .b64) (d := d) wf)) (fun s => (rfl : execColl d a s = _))
    fun wf s t c v s1 val upd one hv => ?_
  have even : (d.val % 2 == 0) = true := (Bool.and_eq_true_iff.mp wf).1
  dsimp only at hv
  split at hv
  next ready =>
    obtain ⟨aligned, room, settled⟩ := ready
    split at hv
    next => cases hv
    next b read =>
      have acts := one.releaseActs_settled (sc := .dm) (by decide) settled s.issue.addr
      have plane := State.planeWait_of_tableRead 2 read
      have user : (s.whoOf s.issue.team t c (lanesIn s.issue.parts c)).user = !s.isPriv t := rfl
      split at hv
      next good =>
        cases hv
        refine ⟨_, ?_, one.writes_pair even _, ?_⟩
        · dsimp only [courseIn]
          rw [if_neg (not_not.mpr aligned), room, acts]
          dsimp only
          rw [user, plane, read]
          dsimp only
          rw [good]
          rfl
        · have counted (v : State) (x : Partition) : Kin v (if (collDesc b).group = 0xFF then v else v.setPart t.part x) :=
            apply_ite_prop (.refl v) (kin_setPart v _ _)
          exact (((kin_writeBackAll s t.core).trans (counted _ _)).trans (kin_issueCmd _ _ _ _)).trans (kin_onCmd _ _ _ _ _)
      next bad =>
        cases hv
        refine ⟨_, ?_, one.writes_zeros even, kin_writeBackAll s t.core⟩
        dsimp only [courseIn]
        rw [if_neg (not_not.mpr aligned), room, acts]
        dsimp only
        rw [user, plane, read]
        dsimp only
        rw [Bool.eq_false_iff.mpr bad]
        rfl
  next => cases hv

/-- Settles O32: bcopy by what it does where its kind and its names agree, the others by one lemma each. -/
theorem engineCommands : Obligations.EngineCommands := by
  unfold Obligations.EngineCommands
  intro d a last b
  have narrowed {kind : Nat → Prop} [DecidablePred kind] (s : State) (t : Team) (c : Nat) (v : List W64) (r : State × (Nat → W32) × (Thread → Thread))
      (hv : (if kind (lo32 (v.headD 0)).toNat then bcopyWork d s t c v else none) = some r) :
      kind ((v.headD 0).toNat % 2 ^ 32) ∧ bcopyWork d s t c v = some r := by
    rw [toNat_lo32] at hv
    split at hv
    next is => exact ⟨is, hv⟩
    next => cases hv
  refine ⟨bcopy_serves d a last b (kind := (· ≠ 3)) ?_ ?_ ?_,
    fun room => bcopy_serves d a last b (kind := (· = 3)) ?_ ?_ ?_, bcopySt_serves d a last b, coll_serves d⟩
  · exact fun k other => by simp [other]
  · exact fun k other is => other is.1
  · exact narrowed (kind := fun w => w / 2 ^ 30 ≠ 3)
  · exact fun k is => by simp [is, room]
  · exact fun k _ far => absurd room (Nat.not_le.mpr far.2)
  · exact narrowed (kind := fun w => w / 2 ^ 30 = 3)

end Sys2Proof.Machine
end

section
/-! SUPPORT. Failures (R380, R381, R383). -/
namespace Sys2Proof.Machine

/-! ## Ports (R380) -/

theorem getLsbD_portMask : ∀ port < 18, ∀ k < 18, (1#18 <<< port).getLsbD k = decide (k = port) := by decide

/-- R11. -/
theorem getLsbD_linkPortsOf : ∀ d < 4, ∀ k < 18, (linkPortsOf d).getLsbD k = decide (k / 5 = d) := by decide

/-- The ports that work after those of a mask have failed. -/
theorem State.failPorts_getLsbD (s : State) {mask : BitVec 18} {gone : Nat → Prop} [DecidablePred gone]
    (bits : ∀ k < 18, mask.getLsbD k = decide (gone k)) (k : Nat) :
    (s.failPorts mask).ports.getLsbD k = (s.ports.getLsbD k && decide (¬ gone k)) := by
  have ports : (s.failPorts mask).ports = s.ports &&& ~~~mask := rfl
  rw [ports, BitVec.getLsbD_and, BitVec.getLsbD_not]
  by_cases inside : k < 18
  · rw [bits k inside, decide_eq_true inside, Bool.true_and, decide_not]
  · rw [BitVec.getLsbD_of_ge s.ports k (Nat.le_of_not_lt inside), Bool.false_and, Bool.false_and]

theorem exec_linkPlaneFailure (port : Fin 18) (s : State) : exec (.linkPlaneFailure port) s = .next (s.failPorts (1#18 <<< port.val)) := rfl

/-- With the last port the time of the outage is kept. -/
theorem State.failPorts_eq (s : State) (mask : BitVec 18) : s.failPorts mask =
    { s with ports := (s.failPorts mask).ports, linkDown := if (s.failPorts mask).ports = 0 ∧ s.ports ≠ 0 then some s.ns else s.linkDown } := by
  simp only [State.failPorts, Bool.and_eq_true, beq_iff_eq, bne_iff_ne]

/-! ## Routes between dies (R380) -/

/-- What plinth 0 reaches depends on the dies and their ports alone. -/
theorem State.reach_congr {s u : State} (ports : u.diePorts = s.diePorts) (dies : u.dies = s.dies) (n : Nat) (from' : List Nat) :
    u.reach from' n = s.reach from' n := by
  have works (x y : Nat) : u.portWorks x y = s.portWorks x y := by
    unfold State.portWorks State.die
    rw [ports, dies]
  induction n generalizing from' with
  | zero => rfl
  | succ n ih =>
    unfold State.reach
    simp only [works]
    exact ih _

/-- The state with a die-to-die port that has failed. -/
def State.dropDiePort (s : State) (x y : Nat) : State :=
  if s.diePorts.contains (min x y, max x y) then s else { s with diePorts := s.diePorts ++ [(min x y, max x y)] }

theorem State.dropDiePort_mem (s : State) (x y : Nat) : (min x y, max x y) ∈ (s.dropDiePort x y).diePorts := by
  unfold State.dropDiePort
  split
  next there => exact List.contains_iff_mem.mp there
  next => exact List.mem_append_right _ (List.mem_singleton_self _)

theorem State.dropDiePort_eq (s : State) (x y : Nat) : s.dropDiePort x y = { s with diePorts := (s.dropDiePort x y).diePorts } := by
  unfold State.dropDiePort
  split <;> rfl

theorem State.dropDiePort_dies (s : State) (x y : Nat) : (s.dropDiePort x y).dies = s.dies := by rw [s.dropDiePort_eq]

/-- Events that become due one after the other. -/
theorem State.foldl_due {α : Type} (s : State) (f : α → Instr) (l : List α) :
    l.foldl (fun s a => s.due (f a)) s = { s with agenda := s.agenda ++ l.map f } := by
  induction l generalizing s with
  | nil => simp only [List.foldl_nil, List.map_nil, List.append_nil]
  | cons a l ih => rw [List.foldl_cons, ih]; simp only [State.due, List.append_assoc, List.map_cons, List.cons_append, List.nil_append]

/-- The dies that stand and that plinth 0 reaches by no route. -/
def State.cutOff (s : State) : List Nat := (List.range 4).filter fun d => (s.die d).alive && !(s.reach [0] 4).contains d

theorem State.mem_cutOff (s : State) {d : Nat} (die : d < 4) (alive : (s.die d).alive = true) (unseen : d ∉ s.reach [0] 4) : d ∈ s.cutOff := by
  refine List.mem_filter.mpr ⟨List.mem_range.mpr die, ?_⟩
  rw [alive, Bool.true_and, Bool.not_eq_true', ← Bool.not_eq_true, List.contains_iff_mem]
  exact unseen

theorem exec_diePortFailure {x y : Fin 4} (other : x ≠ y) (s : State) : exec (.diePortFailure x y) s =
    .next { s.dropDiePort x.val y.val with
      agenda := (s.dropDiePort x.val y.val).agenda ++ (s.dropDiePort x.val y.val).cutOff.map fun d => .dieLost (Fin.ofNat 4 d) } := by
  change execDiePortFailure x y s = _
  unfold execDiePortFailure
  rw [if_neg other]
  exact congrArg Host.Outcome.next (State.foldl_due _ _ _)

/-! ## What the loss of a team leaves alone (R383) -/

/-- The dies stand as they stood, the working ports are the same, and every team is on the core where it was. -/
structure Stands (s u : State) : Prop where
  alive : ∀ k, (u.die k).alive = (s.die k).alive
  lostAt : ∀ k, (u.die k).lostAt = (s.die k).lostAt
  ports : u.ports = s.ports
  teams : ∀ p ∈ u.teams, ∃ q ∈ s.teams, q.1 = p.1 ∧ q.2.core = p.2.core

theorem Stands.of_eq {s u : State} (dies : u.dies = s.dies) (ports : u.ports = s.ports) (teams : u.teams = s.teams) : Stands s u where
  alive k := by unfold State.die; rw [dies]
  lostAt k := by unfold State.die; rw [dies]
  ports := ports
  teams p hp := ⟨p, teams ▸ hp, rfl, rfl⟩

theorem Stands.refl (s : State) : Stands s s := .of_eq rfl rfl rfl

theorem Stands.trans {s u v : State} (h : Stands s u) (k : Stands u v) : Stands s v where
  alive n := (k.alive n).trans (h.alive n)
  lostAt n := (k.lostAt n).trans (h.lostAt n)
  ports := k.ports.trans h.ports
  teams p hp := by
    obtain ⟨q, hq, key, core⟩ := k.teams p hp
    obtain ⟨r, hr, key', core'⟩ := h.teams q hq
    exact ⟨r, hr, key'.trans key, core'.trans core⟩

theorem Stands.fold {α : Type} {f : State → α → State} (h : ∀ s a, Stands s (f s a)) (l : List α) (s : State) : Stands s (l.foldl f s) :=
  List.foldlRecOn (motive := Stands s) l f (.refl s) fun u stands a _ => stands.trans (h u a)

/-- A change of every team that leaves it on its core. -/
theorem stands_mapTeams (s : State) (f : Nat × Team → Team) (h : ∀ p, (f p).core = p.2.core) :
    Stands s { s with teams := s.teams.map fun p => (p.1, f p) } where
  alive _ := rfl
  lostAt _ := rfl
  ports := rfl
  teams p hp := by
    obtain ⟨q, hq, rfl⟩ := List.mem_map.mp hp
    exact ⟨q, hq, rfl, (h q).symm⟩

theorem stands_eraseTeam (s : State) (tk : Nat) : Stands s { s with teams := FMap.erase s.teams tk } where
  alive _ := rfl
  lostAt _ := rfl
  ports := rfl
  teams p hp := ⟨p, List.mem_of_mem_filter hp, rfl, rfl⟩

theorem stands_readClock (s : State) (d : Nat) : Stands s (s.readClock d).1 where
  alive k := by
    obtain ⟨e, l, die⟩ := s.readClock_die d k
    rw [die]
  lostAt k := by
    obtain ⟨e, l, die⟩ := s.readClock_die d k
    rw [die]
  ports := rfl
  teams p hp := ⟨p, hp, rfl, rfl⟩

theorem stands_setPart (s : State) (k : Nat) (p : Partition) : Stands s (s.setPart k p) := .of_eq rfl rfl rfl
theorem stands_setSlice (s : State) (k : Nat) (x : Slice) : Stands s (s.setSlice k x) := .of_eq rfl rfl rfl
theorem stands_setCore (s : State) (k : Nat) (c : Core) : Stands s (s.setCore k c) := .of_eq rfl rfl rfl
theorem stands_due (s : State) (e : Instr) : Stands s (s.due e) := .of_eq rfl rfl rfl
theorem stands_leaveEngine (s : State) (cl : Nat) (r : CourseRef) : Stands s (s.leaveEngine cl r) := .of_eq rfl rfl rfl
theorem stands_dropLines (s : State) (p : LineLeft → Bool) : Stands s (s.dropLines p) := .of_eq rfl rfl rfl
theorem stands_eventRecord (s : State) (part ring : Nat) (b : List Byte) : Stands s (s.eventRecord part ring b) := .of_eq rfl rfl rfl
theorem stands_countPeriod (s : State) (x : Slice) (n : Nat) : Stands s (s.countPeriod x n) := .of_eq rfl rfl rfl

theorem stands_freeTiles (s : State) (cl n : Nat) : Stands s (s.freeTiles cl n) := by
  unfold State.freeTiles
  exact apply_ite_prop (.refl s) (apply_ite_prop (.of_eq rfl rfl rfl) (.of_eq rfl rfl rfl))

theorem stands_dropStamps (s : State) (gone : List Nat) : Stands s (s.dropStamps gone) := by
  unfold State.dropStamps
  exact apply_ite_prop (.refl s) (stands_mapTeams s (fun p => p.2.mapThreads _) fun _ => rfl)

theorem stands_passClm (s : State) (tk : Nat) (t : Team) : Stands s (s.passClm tk t) := by
  unfold State.passClm
  split
  · exact .refl s
  next n =>
    refine stands_mapTeams s _ fun p => ?_
    dsimp only
    split <;> split <;> rfl

theorem stands_completeSlice (s : State) (key : Nat) (st : Status) : Stands s (s.completeSlice key st) := by
  unfold State.completeSlice
  split
  · exact .refl s
  next x _ =>
    have counted : Stands s (if st == .rejected || !x.ran then (s.endStamp x).1 else (s.endStamp x).1.countPeriod x (s.endStamp x).2) :=
      (stands_readClock s 0).trans (apply_ite_prop (.refl _) (stands_countPeriod _ _ _))
    have closed := (counted.trans (stands_dropLines _ fun l => l.team / 2 ^ 24 == key)).trans (stands_setSlice _ key { x with state := .complete, consumed := 0 })
    dsimp only
    split
    · exact closed.trans (.of_eq rfl rfl rfl)
    · exact closed.trans (.fold (fun s b => stands_eventRecord s _ _ b) _ _)

theorem stands_checkGrid (s : State) (key : Nat) : Stands s (s.checkGrid key) := by
  unfold State.checkGrid
  split
  · exact .refl s
  · exact apply_ite_prop (stands_completeSlice s key _) (.refl s)

theorem stands_checkYield (s : State) (key : Nat) : Stands s (s.checkYield key) := by
  unfold State.checkYield
  split
  · exact .refl s
  next x _ =>
    refine apply_ite_prop ?_ (.refl s)
    exact (((stands_readClock s 0).trans (stands_countPeriod _ x _)).trans (stands_setSlice _ key _)).trans (stands_due _ _)

/-! ## A team that is lost -/

theorem FMap.ne_of_get_none {α : Type} {m : FMap α} {k : Nat} (none : FMap.get m k = none) : ∀ p ∈ m, p.1 ≠ k := by
  induction m with
  | nil => nofun
  | cons q m ih =>
    unfold FMap.get at none
    split at none
    · cases none
    next other => exact fun p hp => (List.mem_cons.mp hp).elim (fun e => e ▸ other) (ih none p)

theorem Stands.gone {s u : State} (h : Stands s u) {tk : Nat} (gone : ∀ p ∈ s.teams, p.1 ≠ tk) : ∀ p ∈ u.teams, p.1 ≠ tk := fun p hp => by
  obtain ⟨q, hq, key, -⟩ := h.teams p hp
  exact key ▸ gone q hq

theorem State.releaseTeam_gone (s : State) (tk : Nat) : Stands s (s.releaseTeam tk) ∧ ∀ p ∈ (s.releaseTeam tk).teams, p.1 ≠ tk := by
  unfold State.releaseTeam
  split
  next none => exact ⟨.refl s, FMap.ne_of_get_none none⟩
  next t _ =>
    dsimp only
    generalize left : List.foldl _ _ _ = u
    have leaves : Stands s u := left ▸ ((stands_setCore s _ _).trans (stands_passClm _ tk t)).trans (.fold (fun s c => stands_leaveEngine s _ _) _ _)
    have erased := stands_eraseTeam u tk
    have rest (v : State) (n : Nat) : Stands v ((v.freeTiles (clusterOfCore t.core) n).due (.teamPlacement (Fin.ofNat 16 t.part))) :=
      (stands_freeTiles v _ n).trans (stands_due _ _)
    exact ⟨leaves.trans (erased.trans (rest _ _)), (rest _ _).gone fun p hp => bne_iff_ne.mp (List.mem_filter.mp hp).2⟩

theorem State.loseTeam_gone (s : State) (tk : Nat) : Stands s (s.loseTeam tk) ∧ ∀ p ∈ (s.loseTeam tk).teams, p.1 ≠ tk := by
  unfold State.loseTeam
  split
  next none => exact ⟨.refl s, FMap.ne_of_get_none none⟩
  next t _ =>
    obtain ⟨released, gone⟩ := s.releaseTeam_gone tk
    refine (fun later => ⟨released.trans later, later.gone gone⟩ : Stands (s.releaseTeam tk) _ → _) ?_
    refine (stands_dropLines _ fun y => y.team == tk).trans ?_
    dsimp only
    split
    · exact .refl _
    next x _ =>
      exact apply_ite_prop (stands_setSlice _ _ _) (((stands_setSlice _ _ _).trans (stands_checkGrid _ _)).trans (stands_checkYield _ _))

/-- Of teams that are lost one after the other none is left. -/
theorem State.loseTeams_gone (l : List Nat) (s : State) :
    Stands s (l.foldl (fun s k => s.loseTeam k) s) ∧ ∀ k ∈ l, ∀ p ∈ (l.foldl (fun s k => s.loseTeam k) s).teams, p.1 ≠ k := by
  induction l generalizing s with
  | nil => exact ⟨.refl s, nofun⟩
  | cons a l ih =>
    obtain ⟨first, gone⟩ := s.loseTeam_gone a
    obtain ⟨later, others⟩ := ih (s.loseTeam a)
    refine ⟨first.trans later, fun k hk => ?_⟩
    rcases List.mem_cons.mp hk with rfl | rest
    · exact later.gone gone
    · exact others k rest

/-! ## A die that is lost (R381) -/

theorem stands_postError (s : State) (hit : Nat → Bool) (a b c d e f g : Nat) : Stands s (s.postError hit a b c d e f g) := by
  unfold State.postError
  dsimp only
  generalize posted : List.foldl _ _ _ = u
  have posts : Stands s u := posted ▸ (stands_readClock s 0).trans (.fold (fun s k => (stands_setPart s k _).trans (stands_due _ _)) _ _)
  exact posts.trans (.of_eq rfl rfl rfl)

theorem State.postError_cores (s : State) (hit : Nat → Bool) (a b c d e f g : Nat) : (s.postError hit a b c d e f g).cores = s.cores :=
  foldl_keeps State.cores _ (by exact fun _ _ => rfl) _ (s.readClock 0).1

/-- The die and what stands on it are gone, but for the teams of its cores. -/
def State.dropDie (s : State) (d : Nat) : State :=
  let report (dom : StampDom) : Nat := s.dieReport d (s.die d).e dom
  let u := s.setDie d { s.die d with alive := false, lostAt := s.ns, lastPackage := report .package, lastDomain := report .domain }
  let u := { u with stores := u.stores.filter fun (x : StampedStore) => !(x.source.isNone && x.die == d && !x.held) }
  let ids := u.stores.map fun x => x.id
  let gone := (s.stores.filter fun (x : StampedStore) => !ids.contains x.id).map fun x => x.id
  (u.dropStamps gone).failPorts (linkPortsOf d)

/-- The teams on the cores of a die. -/
def State.teamsOn (s : State) (d : Nat) : List Nat := (s.teams.filter fun p => dieOfCore p.2.core == d).map Prod.fst

/-- The machine's map without the cores of a die. -/
def State.dropCores (s : State) (d : Nat) : State :=
  { s with cores := s.cores.filter fun p => !dieOfCore p.1 == d, clusters := s.clusters.filter fun p => !dieOfCore (4 * p.1) == d }

/-- The machine without the die, the teams of its cores and the cores. -/
def State.loseDie (s : State) (d : Nat) : State :=
  (((s.dropDie d).teamsOn d).foldl (fun s k => s.loseTeam k) (s.dropDie d)).dropCores d

theorem exec_dieLost {s : State} {d : Fin 4} (alive : (s.die d.val).alive = true) : exec (.dieLost d) s =
    .next ((s.loseDie d.val).postError (fun k => ((s.loseDie d.val).part k).enabled && ((s.loseDie d.val).part k).meetsDie d.val) 4 d.val
      (d.val * 2 ^ 39) dieBytes 0 0 0) := by
  change execDieLost d s = _
  unfold execDieLost
  dsimp only
  rw [alive]
  rfl

/-- What the loss of a die leaves of the dies and their ports. -/
structure Without (s u : State) (d : Nat) : Prop where
  gone : (u.die d).alive = false
  lostAt : (u.die d).lostAt = s.ns
  ports : ∀ k, u.ports.getLsbD k = (s.ports.getLsbD k && decide (k / 5 ≠ d))
  others : ∀ k, k ≠ d → (u.die k).alive = (s.die k).alive

theorem Without.stands {s u v : State} {d : Nat} (h : Without s u d) (k : Stands u v) : Without s v d where
  gone := (k.alive d).trans h.gone
  lostAt := (k.lostAt d).trans h.lostAt
  ports n := by rw [k.ports, h.ports]
  others n hn := (k.alive n).trans (h.others n hn)

theorem State.without_dropDie (s : State) {d : Nat} (die : d < 4) (four : s.dies.length = 4) : Without s (s.dropDie d) d := by
  unfold State.dropDie
  dsimp only
  generalize dropped : State.dropStamps _ _ = u
  have stamps : Stands _ u := dropped ▸ stands_dropStamps _ _
  constructor
  case gone => exact (stamps.alive d).trans (congrArg Die.alive (nth_set_same _ _ _ _ (four ▸ die)))
  case lostAt => exact (stamps.lostAt d).trans (congrArg Die.lostAt (nth_set_same _ _ _ _ (four ▸ die)))
  case ports =>
    intro k
    rw [u.failPorts_getLsbD (gone := fun k => k / 5 = d) fun k hk => getLsbD_linkPortsOf d die k hk, stamps.ports]
    rfl
  case others => exact fun k other => (stamps.alive k).trans (congrArg Die.alive (nth_set_ne _ _ _ other))

theorem State.loseDie_without (s : State) {d : Nat} (die : d < 4) (four : s.dies.length = 4) : Without s (s.loseDie d) d :=
  ((s.without_dropDie die four).stands (State.loseTeams_gone _ _).1).stands (.of_eq rfl rfl rfl)

/-- No team is left on a core of a lost die. -/
theorem State.loseDie_teams (s : State) (d : Nat) : ∀ p ∈ (s.loseDie d).teams, dieOfCore p.2.core ≠ d := fun p hp here => by
  obtain ⟨stands, gone⟩ := State.loseTeams_gone ((s.dropDie d).teamsOn d) (s.dropDie d)
  obtain ⟨q, hq, key, core⟩ := stands.teams p hp
  refine gone q.1 (List.mem_map.mpr ⟨q, List.mem_filter.mpr ⟨hq, ?_⟩, rfl⟩) p hp key.symm
  rw [core, here]
  exact beq_self_eq_true d

theorem State.loseDie_cores (s : State) (d : Nat) : ∀ p ∈ (s.loseDie d).cores, dieOfCore p.1 ≠ d := fun p hp => by
  have kept := (List.mem_filter.mp hp).2
  simpa using kept

/-! ## A device that becomes unreachable (R381) -/

theorem State.windowEntry_unreachable {s : State} {d : Nat} (lost : (FMap.get s.peers d).map Peer.reachable = some false) (part k v : Nat) :
    s.windowEntry part k ≠ some (d, v) := by
  obtain ⟨peer, known, unreachable⟩ := Option.map_eq_some_iff.mp lost
  intro entry
  obtain ⟨-, reachable⟩ := Option.filter_eq_some_iff.mp entry
  rw [known] at reachable
  simp [unreachable] at reachable

/-- What the news that a device is unreachable leaves alone. -/
theorem exec_deviceUnreachable (d : Fin 512) (s : State) : ∃ s', exec (.deviceUnreachable d) s = .next s' ∧
    s'.peers = FMap.set s.peers d.val { s.peer d.val with reachable := false } ∧ s'.mem = s.mem ∧ s'.teams = s.teams ∧ s'.slices = s.slices := by
  change ∃ s', execDeviceUnreachable d s = .next s' ∧ _
  refine ⟨_, rfl, ?_⟩
  dsimp only
  generalize named : List.foldl _ _ _ = u
  have keeps {β : Type} (p : State → β) (parts : ∀ u k x, p (u.setPart k x) = p u) (due : ∀ u e, p (State.due u e) = p u) : p u = p _ :=
    named ▸ foldl_keeps p _ (fun u k => (due _ _).trans (parts _ _ _)) _ _
  exact ⟨keeps State.peers (fun _ _ _ => rfl) fun _ _ => rfl, keeps State.mem (fun _ _ _ => rfl) fun _ _ => rfl,
    keeps State.teams (fun _ _ _ => rfl) fun _ _ => rfl, keeps State.slices (fun _ _ _ => rfl) fun _ _ => rfl⟩

/-- Settles O48: each failure by what it leaves of the machine. -/
theorem failures : Obligations.Failures := by
  unfold Obligations.Failures
  refine ⟨fun s port => ⟨_, exec_linkPlaneFailure port s, s.failPorts_eq _, s.failPorts_getLsbD fun k hk => getLsbD_portMask _ port.isLt k hk⟩,
    ?diePort, ?die, ?exit, ?device⟩
  case diePort =>
    intro s x y other
    refine ⟨_, exec_diePortFailure other s, s.dropDiePort_mem _ _, ?_, fun d alive unseen => List.mem_append_right _ ?_⟩
    · rw [s.dropDiePort_eq x.val y.val]
    · refine List.mem_map.mpr ⟨d.val, (s.dropDiePort x.val y.val).mem_cutOff d.isLt ?_ ?_, congrArg Instr.dieLost (Fin.ofNat_val_eq_self d)⟩
      · rw [State.die, s.dropDiePort_dies]
        exact alive
      · rwa [State.reach_congr rfl rfl] at unseen
  case die =>
    intro s d four alive
    have posts := stands_postError (s.loseDie d.val) (fun k => ((s.loseDie d.val).part k).enabled && ((s.loseDie d.val).part k).meetsDie d.val) 4 d.val
      (d.val * 2 ^ 39) dieBytes 0 0 0
    have without := (s.loseDie_without d.isLt four).stands posts
    refine ⟨_, exec_dieLost alive, without.gone, without.lostAt, without.ports, without.others, fun k t team => ?_, ?_⟩
    · obtain ⟨q, hq, -, core⟩ := posts.teams _ (FMap.mem_of_get team)
      exact core ▸ s.loseDie_teams d.val q hq
    · rw [State.postError_cores]
      exact s.loseDie_cores d.val
  case exit =>
    intro s d four lost inSet late
    have run : exec (.dieSetExit d) s = .next (s.setDie d.val { s.die d.val with inSet := false }) := by
      change execDieSetExit d s = _
      unfold execDieSetExit
      dsimp only
      rw [lost, inSet, decide_eq_true late]
      rfl
    exact ⟨_, run, congrArg Die.inSet (nth_set_same _ _ _ _ (lt_of_lt_of_eq d.isLt four.symm)), rfl⟩
  case device =>
    intro s d
    obtain ⟨s', run, peers, mem, teams, slices⟩ := exec_deviceUnreachable d s
    have lost : (FMap.get s'.peers d.val).map Peer.reachable = some false := by rw [peers, FMap.get_set_same]; rfl
    exact ⟨s', run, State.windowEntry_unreachable lost, lost, mem, teams, slices⟩

end Sys2Proof.Machine
end

section
/-! SUPPORT. Engine commands at work (R267, R299, R304, R307, R310, R311). -/
namespace Sys2Proof.Machine

/-! ## Contexts (R299, R307) -/

/-- The slice is there with its context. -/
def State.HasCtx (s : State) (key k : Nat) : Prop := ∃ x, FMap.get s.slices key = some x ∧ k < x.ctxs.length

theorem State.HasCtx.of_slices {s u : State} {key k : Nat} (h : s.HasCtx key k) (slices : u.slices = s.slices) : u.HasCtx key k := by
  unfold State.HasCtx
  rw [slices]
  exact h

theorem State.ctx_of_slices {s u : State} (slices : u.slices = s.slices) (key k : Nat) : u.ctx key k = s.ctx key k := by
  unfold State.ctx
  rw [slices]

theorem State.get_onCtx {s : State} {key : Nat} {x : Slice} (there : FMap.get s.slices key = some x) (k : Nat) (f : Ctx → Ctx) :
    FMap.get (s.onCtx key k f).slices key = some { x with ctxs := setNth x.ctxs k (f (nth x.ctxs k {})) } := by
  rw [State.onCtx, FMap.get_modify_same, there, Option.map_some]

theorem State.HasCtx.onCtx {s : State} {key k : Nat} (h : s.HasCtx key k) (f : Ctx → Ctx) : (s.onCtx key k f).HasCtx key k := by
  obtain ⟨x, there, inside⟩ := h
  exact ⟨_, State.get_onCtx there k f, lt_of_lt_of_eq inside (length_setNth _ _ _).symm⟩

theorem State.HasCtx.ctx_onCtx {s : State} {key k : Nat} (h : s.HasCtx key k) (f : Ctx → Ctx) : (s.onCtx key k f).ctx key k = f (s.ctx key k) := by
  obtain ⟨x, there, inside⟩ := h
  rw [State.ctx, State.ctx, State.get_onCtx there, there]
  exact nth_set_same _ _ _ _ inside

theorem Ctx.advance_queue (c : Ctx) (n : Nat) : (c.advance n).queue = c.queue := by
  induction n generalizing c with
  | zero => rfl
  | succ n ih =>
    unfold Ctx.advance
    split
    · exact ih _
    · rfl

theorem Ctx.counter_le_advance (c : Ctx) (n : Nat) : c.counter ≤ (c.advance n).counter := by
  induction n generalizing c with
  | zero => exact Nat.le_refl _
  | succ n ih =>
    unfold Ctx.advance
    split
    · exact Nat.le_trans (Nat.le_succ _) (ih { c with counter := c.counter + 1, completed := c.completed.filter fun k => k != c.counter + 1 })
    · exact Nat.le_refl _

/-- The counter passes the next number once it has completed (R267). -/
theorem Ctx.counter_lt_complete {c : Ctx} {num : Nat} (next : num = c.counter + 1) : num ≤ (c.complete num).counter := by
  subst next
  unfold Ctx.complete Ctx.advance
  rw [if_pos (by simp)]
  exact Ctx.counter_le_advance { c with counter := c.counter + 1, queue := _, completed := _ } _

theorem Ctx.complete_queue (c : Ctx) (num : Nat) : (c.complete num).queue = c.queue.filter fun q => q.num != num := Ctx.advance_queue _ _

/-! ## Writes of the engines (R301) -/

/-- Translation by the tables is no matter of the slices. -/
theorem State.walk_slices (s : State) (m : FMap Slice) (va : Nat) (lv table : Nat) : ({ s with slices := m } : State).walk va table lv = s.walk va table lv := by
  induction lv generalizing table with
  | zero => rfl
  | succ lv ih =>
    unfold State.walk
    simp only [ih]
    rfl

theorem State.translate_slices (s : State) (m : FMap Slice) (part : Nat) (user : Bool) (a : AccMode) (va : W64) :
    (({ s with slices := m } : State).translate none part user a va).2 = (s.translate none part user a va).2 := by
  have tables : ({ s with slices := m } : State).part part = s.part part := rfl
  unfold State.translate
  simp only [State.walk_slices, Option.bind_none, tables]
  split
  · rfl
  · split <;> rfl

/-- A write of an engine within a plain page of the device's own memory is one write at the home slice. -/
theorem State.engineWrite_page {s : State} {part va : Nat} {y : Xlat} {b : List Byte} (nonempty : b ≠ []) (page : va % 65536 + b.length ≤ 65536)
    (mapped : (s.translate none part true .write (BitVec.ofNat 64 va)).2 = .ok y) (plain : y.stamped = false) (here : y.remote = none)
    (home : s.homeAlive y.pa b.length = true) (fuel : Nat) : s.engineWrite part va b (fuel + 1) = (s.homeWrite y.pa b, b.length, none) := by
  have done (u : State) (va' : Nat) : u.engineWrite part va' [] fuel = (u, 0, none) := by cases fuel <;> rfl
  unfold State.engineWrite
  simp only [List.isEmpty_iff, nonempty, if_false, mapped, plain, Bool.false_eq_true, chunkLen_page page, List.take_length, List.drop_length,
    State.userWrite_page nonempty page mapped here home, done, Nat.zero_add]

/-! ## A copy at work (R267, R301) -/

theorem State.dropStamps_mem (s : State) (gone : List Nat) : (s.dropStamps gone).mem = s.mem := by
  unfold State.dropStamps
  split <;> rfl

theorem State.dropStamps_slices (s : State) (gone : List Nat) : (s.dropStamps gone).slices = s.slices := by
  unfold State.dropStamps
  split <;> rfl

theorem State.finishCmd_mem (s : State) (key k num : Nat) : (s.finishCmd key k num).mem = s.mem := State.dropStamps_mem _ _

theorem State.HasCtx.ctx_finishCmd {s : State} {key k : Nat} (h : s.HasCtx key k) (num : Nat) :
    (s.finishCmd key k num).ctx key k = (s.ctx key k).complete num := by
  unfold State.finishCmd
  dsimp only
  generalize dropped : State.dropStamps _ _ = u
  have slices : u.slices = s.slices := dropped ▸ State.dropStamps_slices _ _
  rw [(h.of_slices slices).ctx_onCtx, State.ctx_of_slices slices]

/-- A copy that lies in one page of the device's own memory, alone in its context. -/
structure CopyReady (s : State) (key k : Nat) (x : Slice) (q : Cmd) (dst src : W64) (n : Nat) (b : List Byte) (y : Xlat) : Prop where
  there : FMap.get s.slices key = some x
  only : (s.ctx key k).queue = [q]
  kind : q.kind = .copy dst src n
  started : q.started = true
  fault : q.fault = none
  data : q.data = none
  progress : q.progress = 0
  source : s.sourceOf x.part src.toNat n = .ok b
  nonempty : b ≠ []
  page : dst.toNat % 65536 + b.length ≤ 65536
  mapped : (s.translate none x.part true .write dst).2 = .ok y
  plain : y.stamped = false
  here : y.remote = none
  home : s.homeAlive y.pa b.length = true
  linked : s.linkOut x.part = false

/-- The memory after a copy: its bytes at the destination, and the lines of the destination come home. -/
theorem State.copied_read (s : State) (key k num pa : Nat) (b : List Byte) (a : Nat) :
    (((s.keepData key k num b).homeWrite pa b).finishCmd key k num).mem.read a =
    if h : pa ≤ a ∧ a - pa < b.length then b[a - pa]'h.2 else (s.recalled pa b.length).mem.read a := by
  have same : SameHomes s (s.keepData key k num b) := ⟨rfl, rfl, fun _ _ => rfl⟩
  rw [State.finishCmd_mem, State.homeWrite_read, (same.recalled pa b.length).mem]

section Copy
variable {s : State} {key : Nat} {k : Fin 4} {x : Slice} {q : Cmd} {dst src : W64} {n : Nat} {b : List Byte} {y : Xlat}
  (h : CopyReady s key k.val x q dst src n b y)
include h

theorem CopyReady.runnable : s.runnable key k.val q = true := by
  unfold State.runnable
  simp only [h.there, h.only, h.kind, h.started, h.fault, h.linked, List.any_cons, List.any_nil, Option.isSome_none, Bool.false_and, Bool.or_self,
    Bool.not_false, Bool.and_self]

/-- Its bytes are written in one write at the home slice, and it completes. -/
theorem CopyReady.exec_complete : exec (.engineCommandComplete key k q.num) s =
    .next (((s.keepData key k.val q.num b).homeWrite y.pa b).finishCmd key k.val q.num) := by
  have found : (s.ctx key k.val).queue.find? (fun c => c.num == q.num) = some q := by
    rw [h.only]
    exact List.find?_cons_of_pos (beq_self_eq_true q.num)
  have mapped : ((s.keepData key k.val q.num b).translate none x.part true .write (BitVec.ofNat 64 dst.toNat)).2 = .ok y := by
    rw [BitVec.ofNat_toNat, BitVec.setWidth_eq]
    exact (s.translate_slices _ _ _ _ _).trans h.mapped
  have write := State.engineWrite_page h.nonempty h.page mapped h.plain h.here (h.home :) (b.length / 65536 + 1)
  have run : s.runCmd x.part key k.val q = ((s.keepData key k.val q.num b).homeWrite y.pa b).finishCmd key k.val q.num := by
    unfold State.runCmd
    simp only [h.kind, h.data, h.source]
    unfold State.writeData
    simp only [h.progress, Nat.add_zero, List.drop_zero]
    rw [pagesOf, write]
  change execEngineCommandComplete key k q.num s = _
  unfold execEngineCommandComplete
  simp only [h.there, found, h.runnable, if_true, run]

/-- Its context after it. -/
theorem CopyReady.ctx (inside : k.val < x.ctxs.length) : (((s.keepData key k.val q.num b).homeWrite y.pa b).finishCmd key k.val q.num).ctx key k.val =
    ({ s.ctx key k.val with queue := [{ q with data := some b }] } : Ctx).complete q.num := by
  have has : s.HasCtx key k.val := ⟨x, h.there, inside⟩
  have slices : ((s.keepData key k.val q.num b).homeWrite y.pa b).slices = (s.keepData key k.val q.num b).slices :=
    (congrArg State.slices (State.homeWrite_beyondMemory _ y.pa b) :)
  have kept : (s.keepData key k.val q.num b).HasCtx key k.val := has.onCtx _
  rw [(kept.of_slices slices).ctx_finishCmd, State.ctx_of_slices slices]
  have queue : (s.keepData key k.val q.num b).ctx key k.val =
      { s.ctx key k.val with queue := (s.ctx key k.val).queue.map fun c => if c.num = q.num then { c with data := some b } else c } :=
    has.ctx_onCtx _
  rw [queue, h.only, List.map_cons, List.map_nil, if_pos rfl]

end Copy

/-! ## Commands that start (R299, R304) -/

theorem State.levelWrite_rings (s : State) (t0 : Team) (tk : Nat) (l : Level) (o : Nat) (b : List Byte) {k : Nat} {t : Team}
    (there : FMap.get s.teams k = some t) : ∃ t', FMap.get (s.levelWrite t0 tk l o b).teams k = some t' ∧ t'.rings = t.rings := by
  have modified (j : Nat) {f : Team → Team} (keeps : ∀ u, (f u).rings = u.rings) :
      ∃ t', FMap.get (FMap.modify s.teams j f) k = some t' ∧ t'.rings = t.rings := by
    rw [FMap.get_modify]
    split
    next e =>
      subst e
      exact ⟨f t, by rw [there, Option.map_some], keeps t⟩
    next => exact ⟨t, there, rfl⟩
  unfold State.levelWrite
  cases l
  case spad =>
    dsimp only
    exact modified tk fun _ => rfl
  case clm =>
    dsimp only
    exact modified _ fun _ => rfl
  case chip => exact ⟨t, there, rfl⟩

theorem State.setSlot_rings (s : State) {tk : Nat} {t : Team} (there : FMap.get s.teams tk = some t) (k i : Nat) (x : Slot) (f : Ring → Ring) :
    ∃ t', FMap.get (s.setSlot tk k i x f).teams tk = some t' ∧
      t'.rings = setNth t.rings k (f { t.ring k with slots := setNth (t.ring k).slots i x }) := by
  unfold State.setSlot
  rw [there]
  refine State.levelWrite_rings (t := { t with rings := setNth t.rings k (f { t.ring k with slots := setNth (t.ring k).slots i x }) }) _ _ _ _ _ _ ?_
  rw [FMap.get_modify_same, there, Option.map_some]

/-- A context that starts a command. -/
def State.startCmd (s : State) (key k : Nat) (q : Cmd) : State := s.onCmd key k q.num fun c => { c with started := true }

section Start
variable {s : State} {key : Nat} {k : Fin 4} {q : Cmd} (ready : s.startable key k.val = some q)
include ready

theorem exec_start_fill {tk r : Nat} {src : W64} {n : Nat} (kind : q.kind = .fill tk r src n) {t : Team} (there : FMap.get s.teams tk = some t) :
    exec (.engineCommandStart key k) s = .next ((((s.startCmd key k.val q).setSlot tk r (t.ring r).claim { state := 1, target := n } fun x =>
      { x with claim := (x.claim + 1) % x.slots.length }).onCmd key k.val q.num fun c => { c with slot := (t.ring r).claim }).due
        (.engineCommandComplete key k q.num)) := by
  have there' : FMap.get (s.onCmd key k.val q.num fun c => { c with started := true }).teams tk = some t := there
  change execEngineCommandStart key k s = _
  unfold execEngineCommandStart
  rw [ready]
  dsimp only
  rw [kind]
  dsimp only
  rw [there']
  rfl

theorem exec_start_coll {b : List Byte} (kind : q.kind = .coll b) : exec (.engineCommandStart key k) s =
    .next (((s.startCmd key k.val q).startColl key q.num b q.ordinal).due (.engineCommandComplete key k q.num)) := by
  change execEngineCommandStart key k s = _
  unfold execEngineCommandStart
  rw [ready]
  dsimp only
  rw [kind]
  rfl

theorem exec_start_other (fill : ∀ tk r src n, q.kind ≠ .fill tk r src n) (coll : ∀ b, q.kind ≠ .coll b) : exec (.engineCommandStart key k) s =
    .next ((s.startCmd key k.val q).due (.engineCommandComplete key k q.num)) := by
  change execEngineCommandStart key k s = _
  unfold execEngineCommandStart
  rw [ready]
  dsimp only
  split
  next tk r src n kind => exact absurd kind (fill tk r src n)
  next b kind => exact absurd kind (coll b)
  next => rfl

end Start

/-- What starts with a command of each kind. -/
theorem commandStarts (s : State) (key : Nat) (k : Fin 4) (q : Cmd) (ready : s.startable key k.val = some q) :
    let on : State := s.onCmd key k.val q.num fun c => { c with started := true }
    let last := Instr.engineCommandComplete key k q.num
    match q.kind with
    | .copy _ _ _ | .prefetch _ _ _ | .ckpt _ _ _ _ | .copySt _ _ _ _ => exec (.engineCommandStart key k) s = .next (on.due last)
    | .fill tk r _ n => ∀ t, FMap.get s.teams tk = some t →
      let x := t.ring r
      ∃ s' t', exec (.engineCommandStart key k) s = .next s' ∧ FMap.get s'.teams tk = some t' ∧ last ∈ s'.agenda ∧
        (r < t.rings.length → (t'.ring r).claim = (x.claim + 1) % x.slots.length ∧
          (t'.ring r).slots = setNth x.slots x.claim { state := 1, target := n })
    | .coll b => exec (.engineCommandStart key k) s = .next ((on.startColl key q.num b q.ordinal).due last) := by
  dsimp only
  cases kind : q.kind with
  | copy dst src n => exact exec_start_other ready (by simp [kind]) (by simp [kind])
  | prefetch core src n => exact exec_start_other ready (by simp [kind]) (by simp [kind])
  | ckpt dst src n t => exact exec_start_other ready (by simp [kind]) (by simp [kind])
  | copySt dst src n t => exact exec_start_other ready (by simp [kind]) (by simp [kind])
  | coll b => exact exec_start_coll ready kind
  | fill tk r src n =>
    intro t there
    have there' : FMap.get (s.startCmd key k.val q).teams tk = some t := there
    obtain ⟨t', after, rings⟩ := State.setSlot_rings _ there' r (t.ring r).claim { state := 1, target := n } fun x =>
      { x with claim := (x.claim + 1) % x.slots.length }
    refine ⟨_, t', exec_start_fill ready kind there, after, List.mem_append_right _ (List.mem_singleton_self _), fun inside => ?_⟩
    have ring : t'.ring r = { t.ring r with
        slots := setNth (t.ring r).slots (t.ring r).claim { state := 1, target := n }
        claim := ((t.ring r).claim + 1) % (t.ring r).slots.length } := by
      rw [Team.ring, rings, nth_set_same _ _ _ _ inside, length_setNth]
    rw [ring]
    exact ⟨rfl, rfl⟩

/-! ## Collectives (R271, R310, R311) -/

/-- Whether a collective has not started and is that of a group and tag. -/
def opensAs (group tag : Nat) (x : CollInstance) : Bool := x.group == group && x.tag == tag && !x.started

theorem Partition.openInstance_eq (q : Partition) (group tag : Nat) : q.openInstance group tag = q.instances.find? (opensAs group tag) := rfl

theorem Partition.openInstance_none {q : Partition} {group tag : Nat}
    (started : ∀ y ∈ q.instances, ¬ (y.group = group ∧ y.tag = tag ∧ y.started = false)) : q.openInstance group tag = none :=
  List.find?_eq_none.mpr fun y hy => by simpa [and_assoc] using started y hy

/-- The collective with a new member, where it is the one that a member of the group and tag joins. -/
def CollInstance.joined (group tag : Nat) (m : Member) (x : CollInstance) : CollInstance :=
  if opensAs group tag x then { x with members := x.members ++ [m] } else x

theorem CollInstance.opensAs_joined (group tag : Nat) (m : Member) (x : CollInstance) : opensAs group tag (x.joined group tag m) = opensAs group tag x := by
  unfold CollInstance.joined
  split <;> rfl

/-- A member joins the collective that is open as its last one, or opens it. -/
theorem Partition.openInstance_join (q : Partition) (group tag : Nat) (m : Member) (now : Nat) :
    ∃ y, (q.joinInstance group tag m now).openInstance group tag = some y ∧
      y.members = (match q.openInstance group tag with | some o => o.members | none => []) ++ [m] := by
  unfold Partition.joinInstance
  cases opened : q.openInstance group tag with
  | some o =>
    have opens : opensAs group tag o = true := List.find?_some opened
    have same : (opensAs group tag ∘ CollInstance.joined group tag m) = opensAs group tag :=
      funext fun x => x.opensAs_joined group tag m
    have found : (q.instances.map (CollInstance.joined group tag m)).find? (opensAs group tag) = some (o.joined group tag m) := by
      rw [List.find?_map, same, ← Partition.openInstance_eq, opened, Option.map_some]
    exact ⟨_, found, by rw [CollInstance.joined, if_pos opens]⟩
  | none =>
    have opens : opensAs group tag { group := group, tag := tag, members := [m], openedAt := now } = true := by simp [opensAs]
    have found : (q.instances ++ [({ group := group, tag := tag, members := [m], openedAt := now } : CollInstance)]).find? (opensAs group tag) =
        some { group := group, tag := tag, members := [m], openedAt := now } := by
      rw [List.find?_append, ← Partition.openInstance_eq, opened, Option.none_or, List.find?_cons_of_pos opens]
    exact ⟨_, found, rfl⟩

theorem State.settleFixed_waits {s : State} {part group tag : Nat} (missing : s.fixedMembers part group tag = none) :
    s.settleFixed part group tag = s := by
  rw [State.settleFixed, missing]

/-- This device's commands of an open group that still wait for its result, with the slices they are of. -/
def State.openCmds (s : State) (part tag : Nat) : List (Nat × Cmd) :=
  (s.slicesOf part).flatMap fun p => ((nth p.2.ctxs 2 {}).queue.filter fun c => c.instId == some (64, tag) && c.data.isNone).map fun c => (p.1, c)

/-- An open group starts with one command of this device that passes the start checks (R310, R311). -/
theorem exec_openGroupStart_single {s : State} {part : Fin 16} {tag : BitVec 64} {x : CollInstance} {o : Member} {rest : List Member} {key : Nat} {c : Cmd}
    {b : List Byte} (opened : (s.part part.val).openInstance 64 tag.toNat = some x) (members : x.members = o :: rest)
    (mine : s.openCmds part.val tag.toNat = [(key, c)]) (kind : c.kind = .coll b)
    (good : startOk o (nth x.members c.rank o) x.members.length = true) :
    let d : CollDesc := { collDesc b with kind := o.kind, op := o.op, count := o.count, root := o.root }
    let u := s.onCmd key 2 c.num fun q => { q with data := some (collResult d x.members c.rank s.freeCtr) }
    exec (.openGroupStart part tag) s = .next { u.setPart part.val { s.part part.val with instances := (s.part part.val).instances.erase x } with
      freeCtr := s.freeCtr + (x.members.map fun m => m.bytes.length).foldl max 0 } := by
  change execOpenGroupStart part tag s = _
  unfold execOpenGroupStart
  dsimp only
  rw [opened]
  dsimp only
  unfold State.openCmds at mine
  rw [mine]
  split
  next none => cases none.symm.trans members
  next o' rest' first =>
    obtain rfl : o' = o := (List.cons.inj (first.symm.trans members)).1
    simp only [List.foldl_cons, List.foldl_nil, kind, good, if_true]
    rfl

theorem State.joinColl_part (s : State) {part : Nat} (there : part < s.parts.length) (group tag : Nat) (m : Member) :
    (s.joinColl part group tag m).part part = (s.part part).joinInstance group tag m s.ns := by
  have joined := s.part_setPart part ((s.part part).joinInstance group tag m s.ns) there
  unfold State.joinColl
  dsimp only
  split
  · exact (apply_ite_prop (p := fun u : State => u.part part = _) joined joined)
  · exact joined

/-- Settles O45: what starts by the kind of its command, a copy by its one write, and collectives by what they leave of their partition. -/
theorem engineEvents : Obligations.EngineEvents := by
  unfold Obligations.EngineEvents
  refine ⟨commandStarts, ?copy, ?join, ?start⟩
  case copy =>
    intro s key k x q dst src n b y there only kind started fault data progress inside next source nonempty fits mapped plain here home linked
    have ready : CopyReady s key k.val x q dst src n b y :=
      ⟨there, only, kind, started, fault, data, progress, source, nonempty, by omega, mapped, plain, here, home, linked⟩
    refine ⟨_, ready.exec_complete, fun j h => ?_, fun a outside => ?_, ?_, ?_⟩
    · have at' : y.pa ≤ y.pa + j ∧ y.pa + j - y.pa < b.length := by omega
      rw [State.copied_read, dif_pos at']
      simp only [Nat.add_sub_cancel_left]
    · rw [State.copied_read, dif_neg (by omega)]
    · rw [ready.ctx inside, Ctx.complete_queue]
      simp
    · rw [ready.ctx inside]
      exact Ctx.counter_lt_complete next
  case join =>
    intro s part c sixteen group m alone
    have there : part.val < s.parts.length := lt_of_lt_of_eq part.isLt sixteen.symm
    have run : exec (.collectiveContribution part c) s = .next (s.joinColl part.val group c.tag m) := by
      have run : exec (.collectiveContribution part c) s = .next (if group = 64 then s.joinColl part.val group c.tag m
          else (s.joinColl part.val group c.tag m).settleFixed part.val group c.tag) := rfl
      rw [run]
      split
      next => rfl
      next fixed => rw [State.settleFixed_waits (alone.resolve_left fixed)]
    refine ⟨_, run, ?_⟩
    rw [s.joinColl_part there]
    exact Partition.openInstance_join _ _ _ _ _
  case start =>
    intro s part tag x o rest key c b opened members mine gone kind good d
    refine ⟨_, exec_openGroupStart_single opened members mine kind good, ?_, rfl⟩
    have found := List.mem_of_find?_eq_some opened
    have there : part.val < s.parts.length := by
      by_contra outside
      rw [State.part, nth, List.getElem?_eq_none (Nat.le_of_not_lt outside)] at found
      cases found
    exact (congrArg (fun p : Partition => p.openInstance 64 tag.toNat) (State.part_setPart (s.onCmd key 2 c.num _) part.val _ there)).trans
      (Partition.openInstance_none gone)

end Sys2Proof.Machine
end

section
/-! SUPPORT. The management commands (R312, R348). -/
namespace Sys2Proof.Machine

/-- The record of a moved slice of one team. -/
def movedRecord : List Byte :=
  let r := putBytes (List.replicate 128 0) 0 (leBytes 8 0x2000)
  let r := putBytes r 0x38 (leBytes 8 (1 + 40 * 2 ^ 24 + 64 * 2 ^ 35) ++ leBytes 8 (64 + 8 * 2 ^ 21))
  putBytes (putBytes r 0x58 (leBytes 8 (2 ^ 63))) 0x78 (leBytes 8 (0x10000000 + 200))

/-- The record as a slice. -/
def movedSlice : Slice := { part := 0, num := 2, state := .ready, record := movedRecord }

/-- The machine where the image of the team lies in memory, and the mailbox PF0 brings the record, without arguments. -/
def movedState : State :=
  { State.reset.placeWord 0 with
    pfMail := [{ args := [], payload := Bytes.writeN [] 0 movedRecord }, {}]
    mem := (State.reset.placeWord 0).mem.writeN (placedPage + movedSlice.image 0) (leBytes 8 1) }

/-- The saved teams of a slice after an instruction that goes on. -/
def savedTeamsAfter (key : Nat) : Host.Outcome State Fault Refusal → Option (List Nat)
  | .next s => (FMap.get s.slices key).map fun x => x.savedTeams
  | _ => none

theorem movedState_number : movedState.numberFrom 0 (movedState.part 0).nextSlice ((movedState.slicesOf 0).length + 1) = 2 := by decide +kernel

theorem savedTeamsAfter_submitResume : savedTeamsAfter (sliceKey 0 2) (exec (.submitResume (.pf 0) 0x2002) movedState) = some [] := by decide +kernel

theorem movedState_image : movedState.ownRead 0 (BitVec.ofNat 64 (movedSlice.image 0)) 16 = .ok (leBytes 8 1 ++ List.replicate 8 0) := by decide +kernel

theorem movedState_image_at {va : Nat} (image : va = movedSlice.image 0) :
    movedState.ownRead 0 (BitVec.ofNat 64 va) 16 = .ok (leBytes 8 1 ++ List.replicate 8 0) := by rw [image, movedState_image]

/-- Refutes O49: a SUBMIT with RESUME finds the slice it has made by the number in its first argument. A mailbox without an argument word keeps none, so
the images of the slice's teams are not looked at, while the statement says that a team whose image is there is saved. -/
theorem not_mailboxCommands : ¬ Obligations.MailboxCommands := by
  unfold Obligations.MailboxCommands
  rintro ⟨-, slices, -⟩
  obtain ⟨submits, -, -⟩ := slices movedState (.pf 0) 0x2002 (by decide) (by decide) (by decide) (by decide +kernel)
  obtain ⟨-, -, resumes⟩ := submits (by decide) 0 (by decide +kernel) (by decide +kernel) (by decide +kernel) rfl (by decide +kernel) (by decide +kernel)
    (by decide +kernel)
  obtain ⟨s', y, resumed, ⟨there, -⟩, saved, -⟩ := resumes (leBytes 8 1 ++ List.replicate 8 0) (by decide +kernel) (movedState_image_at (by decide +kernel))
    (by decide +kernel) (by decide +kernel)
  rw [movedState_number] at there
  have none := savedTeamsAfter_submitResume
  rw [resumed, savedTeamsAfter, there, Option.map_some, saved] at none
  exact absurd none (by decide)

end Sys2Proof.Machine
end
